-- ==== Sys2Proof/Word.lean ====
section
/-! DEFINITION. The word types of the hub: a register is 32 bits (R408), a record word 128 bits (R41). -/

namespace Sys2Proof

/-- A register word (R408). -/
abbrev Word := BitVec 32

/-- A 128-bit word of a record, a queue, a link stream or a Terrier register (R41, R324). -/
abbrev W128 := BitVec 128

/-- A byte of a memory, a slice, a frame or an image. -/
abbrev Byte := BitVec 8

end Sys2Proof
end

