-- ==== Sys2Proof/Machine/Bits.lean ====
section
/-! DEFINITION. Bit fields, byte order, saturating counts and the sparse map that memories and tables of units use. -/

namespace Sys2Proof.Machine

/-- `n` bits of `w` from bit `lo` up. -/
def bits (w lo n : Nat) : Nat := (w >>> lo) % 2 ^ n

/-- Bit `i` of `w`. -/
def bit (w i : Nat) : Bool := w.testBit i

/-- 1 for true, 0 for false. -/
def b2n (b : Bool) : Nat := if b then 1 else 0

/-- The number whose fields are given as (lowest bit, width, value). -/
def packNat (l : List (Nat × Nat × Nat)) : Nat :=
  l.foldl (fun a f => a ||| ((f.2.2 % 2 ^ f.2.1) <<< f.1)) 0

/-- A register word from its fields, each as (lowest bit, width, value); reserved bits are 0 (R15). -/
def mkWord (l : List (Nat × Nat × Nat)) : Word := BitVec.ofNat 32 (packNat l)

/-- A 128-bit word from its fields. -/
def mkW128 (l : List (Nat × Nat × Nat)) : W128 := BitVec.ofNat 128 (packNat l)

/-- `n` bits of a register word from bit `lo` up. -/
def wbits (w : Word) (lo n : Nat) : Nat := bits w.toNat lo n

/-- Bit `i` of a register word. -/
def wbit (w : Word) (i : Nat) : Bool := w.toNat.testBit i

/-- The two's-complement value of the low `n` bits of `v`. -/
def sext (n v : Nat) : Int :=
  let m := v % 2 ^ n
  if m < 2 ^ (n - 1) then (m : Int) else (m : Int) - (2 ^ n : Nat)

/-- The `n`-bit two's-complement code of an integer. -/
def toBits (n : Nat) (i : Int) : Nat := (i % ((2 ^ n : Nat) : Int)).toNat

/-- A count that stops at `top`. -/
def satAdd (top v d : Nat) : Nat := min top (v + d)

/-- A 32-bit count wrapped. -/
def mod32 (v : Nat) : Nat := v % 2 ^ 32

/-- How far one 32-bit count lies above another, wrapped. -/
def sub32 (a b : Nat) : Nat := (a + 2 ^ 32 - b) % 2 ^ 32

/-- An integer held within `lo` and `hi`. -/
def clampInt (lo hi v : Int) : Int := if v < lo then lo else if hi < v then hi else v

/-- `n` bytes of a number, least significant first (R42). -/
def leBytes : Nat → Nat → List Byte
  | 0, _ => []
  | n + 1, v => BitVec.ofNat 8 v :: leBytes n (v / 256)

/-- The number whose bytes, least significant first, are given (R42). -/
def leNat : List Byte → Nat
  | [] => 0
  | b :: bs => b.toNat + 256 * leNat bs

/-- The number whose bytes, most significant first, are given. -/
def beNat (bs : List Byte) : Nat := bs.foldl (fun a b => a * 256 + b.toNat) 0

/-- `n` bytes of a number, most significant first. -/
def beBytes (n v : Nat) : List Byte := (leBytes n v).reverse

/-- `n` list items from place `off` on. -/
def slice {α : Type} (l : List α) (off n : Nat) : List α := (l.drop off).take n

/-- Item `i` of a list, `d` beyond its end. -/
def nth {α : Type} (d : α) (l : List α) (i : Nat) : α := l.getD i d

/-- A list with item `i` replaced. -/
def setNth {α : Type} (l : List α) (i : Nat) (v : α) : List α := l.set i v

/-- The least number of a list, `d` for an empty one. -/
def minNat (d : Nat) : List Nat → Nat
  | [] => d
  | x :: xs => xs.foldl min x

/-- The sum of a list of integers. -/
def sumInt (l : List Int) : Int := l.foldl (· + ·) 0

/-- The sum of a list of numbers. -/
def sumNat (l : List Nat) : Nat := l.foldl (· + ·) 0

/-- The lowest set bit below `n` of a number. -/
def lowBit : Nat → Nat → Option Nat
  | 0, _ => none
  | n + 1, v => if v % 2 = 1 then some 0 else (lowBit n (v / 2)).map (· + 1)

/-- A number with bit `i` set or cleared. -/
def putBit (v i : Nat) (b : Bool) : Nat :=
  if b then v ||| (1 <<< i) else if v.testBit i then v ^^^ (1 <<< i) else v

/-- A sparse map: (key, value) pairs, keys strictly rising, no entry equal to what its key reads as when unlisted. -/
abbrev FMap (α : Type) := List (Nat × α)

/-- What key `k` reads as; `d` gives what an unlisted key reads as. -/
def FMap.get {α : Type} (d : Nat → α) : FMap α → Nat → α
  | [], k => d k
  | (j, a) :: m, k => if j = k then a else FMap.get d m k

/-- A map with key `k` listed as `v`, in its place. -/
def FMap.ins {α : Type} : FMap α → Nat → α → FMap α
  | [], k, v => [(k, v)]
  | (j, a) :: m, k, v => if k < j then (k, v) :: (j, a) :: m else if k = j then (k, v) :: m else (j, a) :: FMap.ins m k v

/-- The map with key `k` set; setting what an unlisted key reads as removes the entry. -/
def FMap.put {α : Type} [DecidableEq α] (d : Nat → α) (m : FMap α) (k : Nat) (v : α) : FMap α :=
  if v = d k then m.filter fun e => decide (e.1 ≠ k) else FMap.ins m k v

/-- Keys strictly rise from a bound on, and no entry equals what its key reads as when unlisted. -/
def FMap.wfFrom {α : Type} [DecidableEq α] (d : Nat → α) : Nat → FMap α → Bool
  | _, [] => true
  | n, (j, a) :: m => decide (n ≤ j) && decide (a ≠ d j) && FMap.wfFrom d (j + 1) m

/-- The canonical form of a sparse map. -/
def FMap.wf {α : Type} [DecidableEq α] (d : Nat → α) (m : FMap α) : Bool := FMap.wfFrom d 0 m

/-- The map with `f` applied to key `k`. -/
def FMap.upd {α : Type} [DecidableEq α] (d : Nat → α) (m : FMap α) (k : Nat) (f : α → α) : FMap α :=
  FMap.put d m k (f (FMap.get d m k))

/-- The map with consecutive keys from `k` on set to the items of a list. -/
def FMap.putAll {α : Type} [DecidableEq α] (d : Nat → α) : FMap α → Nat → List α → FMap α
  | m, _, [] => m
  | m, k, v :: vs => FMap.putAll d (FMap.put d m k v) (k + 1) vs

/-- The values of `n` consecutive keys from `k` on. -/
def FMap.getAll {α : Type} (d : Nat → α) (m : FMap α) : Nat → Nat → List α
  | _, 0 => []
  | k, n + 1 => FMap.get d m k :: FMap.getAll d m (k + 1) n

/-- An element put before the first of a list that it may precede. -/
def insertBy {α : Type} (le : α → α → Bool) (x : α) : List α → List α
  | [] => [x]
  | y :: l => if le x y then x :: y :: l else y :: insertBy le x l

/-- A list in order; what is alike keeps its order. -/
def sortBy {α : Type} (le : α → α → Bool) (l : List α) : List α := l.foldr (insertBy le) []

end Sys2Proof.Machine
end

