-- ==== Sys2Proof/Machine/Num.lean ====
section
/-! DEFINITION. Exact fractions and their rounding: what the manual computes exactly before it rounds or saturates. -/

namespace Sys2Proof.Machine

/-- A fraction: an integer over a positive number (held as its predecessor, so that no denominator is 0). -/
structure Frac where
  num : Int
  /-- The denominator less 1. -/
  dm1 : Nat
  deriving DecidableEq, Repr

/-- The denominator. -/
def Frac.den (f : Frac) : Nat := f.dm1 + 1

/-- `n / d`, and `n` itself where `d` is 0 (never reached by a rule that divides). -/
def Frac.mk2 (n : Int) (d : Nat) : Frac := ⟨n, d - 1⟩

/-- An integer as a fraction. -/
def Frac.ofInt (n : Int) : Frac := ⟨n, 0⟩

/-- The sum. -/
def Frac.add (a b : Frac) : Frac := Frac.mk2 (a.num * b.den + b.num * a.den) (a.den * b.den)

/-- The difference. -/
def Frac.sub (a b : Frac) : Frac := Frac.mk2 (a.num * b.den - b.num * a.den) (a.den * b.den)

/-- The product. -/
def Frac.mul (a b : Frac) : Frac := Frac.mk2 (a.num * b.num) (a.den * b.den)

/-- The negative. -/
def Frac.neg (a : Frac) : Frac := ⟨-a.num, a.dm1⟩

/-- The magnitude. -/
def Frac.abs (a : Frac) : Frac := ⟨(a.num.natAbs : Int), a.dm1⟩

/-- The quotient; 0 where the divisor is 0. -/
def Frac.div (a b : Frac) : Frac :=
  if b.num = 0 then Frac.ofInt 0
  else if 0 < b.num then Frac.mk2 (a.num * b.den) (a.den * b.num.natAbs)
  else Frac.mk2 (-(a.num * b.den)) (a.den * b.num.natAbs)

/-- Whether `a ≤ b`. -/
def Frac.le (a b : Frac) : Bool := decide (a.num * b.den ≤ b.num * a.den)

/-- Whether `a < b`. -/
def Frac.lt (a b : Frac) : Bool := decide (a.num * b.den < b.num * a.den)

/-- The greatest integer not above the fraction. -/
def Frac.floor (a : Frac) : Int := a.num.fdiv a.den

/-- The least integer not below the fraction. -/
def Frac.ceil (a : Frac) : Int := -((-a.num).fdiv a.den)

/-- The nearest integer, a tie going to the even one. Log 13 (DEDUCED). -/
def Frac.roundEven (a : Frac) : Int :=
  let q := a.num.fdiv a.den
  let r := a.num - q * a.den
  if 2 * r < a.den then q
  else if (a.den : Int) < 2 * r then q + 1
  else if q % 2 = 0 then q else q + 1

/-- The nearest integer, a tie going away from zero. -/
def Frac.roundAway (a : Frac) : Int :=
  if 0 ≤ a.num then (2 * a.num + a.den).fdiv (2 * a.den)
  else -((2 * (-a.num) + a.den).fdiv (2 * a.den))

/-- The sum of a list. -/
def Frac.sum (l : List Frac) : Frac := l.foldl Frac.add (Frac.ofInt 0)

/-- The square root of a number, rounded down: one bit a turn, from bit `n - 1` of the root down. -/
def isqrtBits : Nat → Nat → Nat → Nat
  | 0, _, r => r
  | n + 1, v, r =>
    let r' := r ||| (1 <<< n)
    if r' * r' ≤ v then isqrtBits n v r' else isqrtBits n v r

/-- The square root of a number below 2^128, rounded down. -/
def isqrt (v : Nat) : Nat := isqrtBits 64 v 0

end Sys2Proof.Machine
end

