-- ==== Sys2Proof/Syntax.lean ====
section
/-! DEFINITION. The commands of the hub: one constructor for each row of the opcode table, with the operands a row carries. -/

namespace Sys2Proof.Machine

/-- The kind of a record (R44). -/
inductive Kind where
  | sample | feature | event | control
  deriving DecidableEq, Repr

/-- The KIND code of R41. -/
def Kind.code : Kind → Nat
  | .sample => 0
  | .feature => 1
  | .event => 2
  | .control => 3

/-- An Osden instant: epoch number, 64-bit seconds, nanoseconds (R56, R194). -/
structure Stamp where
  epoch : Nat
  sec : Nat
  ns : Nat
  deriving DecidableEq, Repr

/-- A record or control item: its instant, source (R6), kind, VALUE, FLAGS and payload words (R41, R58). -/
structure Item where
  t : Stamp
  src : Nat
  kind : Kind
  value : Word
  flags : Nat
  payload : List W128
  deriving DecidableEq, Repr

/-- A source device's part of a contract (R271): the device as segment × 128 + hub, its slot ranges (first, last), ρ in words per second, σ in words. -/
structure Part where
  dev : Nat
  slots : List (Nat × Nat)
  rho : Nat
  sigma : Nat
  deriving DecidableEq, Repr

/-- A contract entry (R271, R303): class 1 A, 2 B, 3 C; scope 0 local, 1 segment, 2 head; endpoint kind and number as in MRG.CON0; LAT in 10 µs, KEEP in 10 ms. -/
structure Contract where
  cls : Nat
  scope : Nat
  epkind : Nat
  epnum : Nat
  runs : Bool
  lat : Nat
  keep : Nat
  parts : List Part
  deriving DecidableEq, Repr

/-- One row of the PORTS section (R25): use as in PLN.PORT_STAT (R39), cable class (R22), ring number, and the expected neighbour. -/
structure PortPlan where
  use : Nat
  cls : Nat
  ring : Nat
  seg : Nat
  hub : Nat
  role : Nat
  port : Nat
  deriving DecidableEq, Repr

/-- One ring of the RINGS section (R25): KIND (0 chain, 1 manager) and number as in LSH.RING_SEL, its members from west or upstream on as segment × 128 + hub, and this hub's primary direction for classes B and C (true: east or downstream; R249). -/
structure RingPlan where
  kind : Nat
  num : Nat
  members : List Nat
  eastB : Bool
  eastC : Bool
  deriving DecidableEq, Repr

/-- The entry of a channel in the CHANNELS section (R25): its four words (R101), the declared capacitance in pF of the open-input hold (R92, R492), 0 where the plan declares none, and the alarm thresholds THR1, THR2 and HYS (R355). -/
structure ChanPlan where
  slot : Nat
  words : List Word
  capPf : Nat
  thr1 : Word
  thr2 : Word
  hys : Word
  deriving DecidableEq, Repr

/-- A program assignment (R25): target coded as FWL.HDR_TGT (0–15 TC, 16–39 groups), body digest, Tattoo frame code (R155). -/
structure ProgPlan where
  tgt : Nat
  digest : Nat
  frame : Nat
  deriving DecidableEq, Repr

/-- What the sections of a slice say (R25). Their byte layout is Tlavi's and is not in the manual. -/
structure SliceBody where
  ports : List PortPlan
  rings : List RingPlan
  channels : List ChanPlan
  /-- Group entries (R101): group 0–23 and its two words. -/
  groups : List (Nat × List Word)
  /-- Linearisation slots (R182): slot and 24 coefficients. -/
  lins : List (Nat × List Word)
  contracts : List (Nat × Contract)
  /-- Reflex rules (R354): index, RULE_A, RULE_B. -/
  rules : List (Nat × Word × Word)
  programs : List ProgPlan
  /-- Queue regions and settings (R307): queue, QCFG, QSIZE. -/
  queues : List (Nat × Word × Word)
  /-- Servo gains of the TIME section, none where it keeps the present ones. -/
  gains : Option Word
  /-- TIM.CTRL of the TIME section (time role and PPS use), none where it keeps the present value. -/
  timCtrl : Option Word
  /-- Kennel merge part in MiB (R297), none for the default of the role. -/
  mergeMiB : Option Nat
  /-- Managers: hub as segment × 128 + hub number, and the digest of its slice. -/
  slices : List (Nat × Nat)
  deriving DecidableEq, Repr, Inhabited

/-- A verified slice: its header fields (R25) and what its sections say. -/
structure Slice where
  num : Nat
  planDigest : Nat
  digest : Nat
  seg : Nat
  hub : Nat
  role : Nat
  body : SliceBody
  deriving DecidableEq, Repr

/-- A capability block (R242). -/
structure CapBlk where
  planNum : Nat
  seg : Nat
  hub : Nat
  role : Nat
  port : Nat
  xn : Nat
  q : Bool
  locked : Bool
  rates : Nat
  step : Nat
  stepOp : Nat
  goOk : Bool
  planDigest : Nat
  feat : Nat
  pendNum : Nat
  cls : Nat
  pendDigest : Nat
  deriving DecidableEq, Repr

/-- A pending epoch announcement (R215): number, t_e in the old epoch, Δ as floor seconds and nanoseconds. -/
structure EpAnn where
  next : Nat
  teSec : Nat
  teNs : Nat
  dSec : Int
  dNs : Nat
  deriving DecidableEq, Repr

/-- A time-marker payload (R201). Stamps are in 1/128 ns from second 0. -/
structure Marker where
  tx : Nat
  rx : Nat
  echoSeq : Nat
  echoV : Bool
  epoch : Nat
  hops : Nat
  state : Nat
  req : Bool
  ep : Option EpAnn
  theta : Int
  delay : Int
  asym : Int
  deriving DecidableEq, Repr

/-- A block slot as the receiver reads it (R230–R235): whether symbol 0 is K28.5, code violations among the header's symbols and in the rest, the header bytes, eight payload words, the CRC, whether the block stands 136 symbols after the previous header, and how many skip pairs and how many symbols the elastic buffer gained or lost since. -/
structure RxBlock where
  k28 : Bool
  cvHdr : Nat
  cvRest : Nat
  /-- Eight code violations fell within 64 symbols. -/
  cvBurst : Bool
  typ : Nat
  seq : Nat
  hchk : Nat
  words : List W128
  crc : Nat
  atPhase : Bool
  skips : Nat
  drift : Int
  deriving DecidableEq, Repr

/-- A block slot as the receive balls bring it (R227, R230): the code-groups of its 136 symbols, each of ten bits with the first on the line highest; whether it stands 136 symbols after the previous header; how many skip pairs have come and how many symbols the elastic buffer has gained or lost since. -/
structure RxSlot where
  groups : List Nat
  atPhase : Bool
  skips : Nat
  drift : Int
  deriving DecidableEq, Repr

/-- What a converter measured at one range against the references of its group (R118, R119): its means on the shorted input, the positive and the negative reference, in 2^−40 of full scale. -/
structure RefMeas where
  grp : Nat
  conv : Nat
  range : Nat
  u0 : Int
  up : Int
  un : Int
  deriving DecidableEq, Repr

/-- What a converter measured in a reference check (R117, R118): its means on the shorted input, the positive and the negative reference, in 2^−40 of full scale. -/
structure ConvMeas where
  conv : Fin 17
  u0 : Int
  up : Int
  un : Int
  deriving DecidableEq, Repr

/-- What stands at the pins of a channel over a window (R71, R89): A at the compliance limit of its RTD source, a pin outside its common-mode range. -/
structure PinState where
  aHigh : Bool
  cm : Bool
  deriving DecidableEq, Repr

/-- An edge at a DIN ball (R219): its new level, and how long in ns the ball then keeps it. -/
structure BallEdge where
  rising : Bool
  width : Nat
  deriving DecidableEq, Repr

/-- The bytes of a SLICE_DATA block and their offset in the slice (R28). -/
structure SlicePart where
  off : Nat
  bytes : List Byte
  deriving DecidableEq, Repr

/-- An acknowledgement of a renewal (R258): the renewal's number, and whether it comes from the referee. -/
structure RenewAck where
  num : Nat
  ref : Bool
  deriving DecidableEq, Repr

/-- A control block (R302): destination and sender (segment, hub), subtype, subtype byte, subtype fields of word 0, further words. -/
structure CtrlBlk where
  dseg : Nat
  dhub : Nat
  sseg : Nat
  shub : Nat
  sub : Nat
  subByte : Nat
  fields : Nat
  more : List W128
  deriving DecidableEq, Repr

/-- A requester of the register fabric (R410): 0 supervisor, 1 PCI Express, 2 FSP, 3 remote. -/
abbrev Req := Fin 4
/-- A port: CP0–CP7 as 0–7, MP0–MP15 as 8–23 (R39). -/
abbrev Port := Fin 24
/-- A slot of this hub (R6). -/
abbrev Slot := Fin 512
/-- A contract identifier (R271). -/
abbrev Con := Fin 4096
/-- A delivery queue, a host ring or a Terrier core. -/
abbrev QNum := Fin 16
/-- A register page (R401). -/
abbrev PageNo := Fin 256

/-- A delivery class (R271). -/
inductive Cls where
  | a | b | c
  deriving DecidableEq, Repr

/-- The class code of MRG.CON0.CLASS. -/
def Cls.code : Cls → Nat
  | .a => 1
  | .b => 2
  | .c => 3

/-- An item moved to a host ring (R379): whether it is a packet of the ring's queue, else its contract, device and number, and its words. -/
structure HrItem where
  fromQ : Bool
  con : Nat
  dev : Nat
  seq : Nat
  words : List W128
  deriving DecidableEq, Repr

/-- What a journal entry changes behind the held duties (R257). -/
inductive JEntry where
  | contract (con : Nat) (c : Contract) (start : Nat) (stop : Option Nat)
  /-- A refused entry with its code (R283). -/
  | refused (con : Nat) (c : Contract) (err : Nat)
  | position (dev con expected handed : Nat)
  | horizon (cls : Nat) (h : Stamp)
  | actSec (sec : Option Nat)
  | announce (a : EpAnn)
  | period (ms : Nat)
  | refmode (fixed : Bool)
  | service (state hub tx : Nat)
  | referee (seg hub at_ term : Nat)
  | stored (dev : Nat) (bytes : List Byte)
  /-- The handoff is cancelled (R264). -/
  | handoffOff
  /-- The first and the last entry of a snapshot (R265). -/
  | snapshot
  | synced
  deriving DecidableEq, Repr

/-- A service operation carried by an SVC block (R267). -/
inductive SvcOp where
  /-- To the worker: stop at this second. -/
  | stopAt (sec : Nat)
  /-- To the worker: the removal is cancelled. -/
  | cancel
  /-- To a neighbour: put the ports toward this hub into electrical idle. -/
  | idle (hub : Nat)
  deriving DecidableEq, Repr

/-- What a stage of a contract's path contributes to its bound (R281), as the plan's port table and the other hubs' reports give it: Σσ in words, Cap in words per second and Σρ at the most loaded port, the longest path and one replay in picoseconds. -/
structure StageTerms where
  sigma : Nat
  cap : Nat
  rho : Nat
  hop : Nat
  replay : Nat
  deriving DecidableEq, Repr

/-- The terms of a whole bound (R280, R281): T_prod of the other source devices, of computed slots and of features in picoseconds, the stages, the hubs that serve the item, and the ERR code of a refusal at another hub. -/
structure AdmitTerms where
  prod : Nat
  stages : List StageTerms
  hubs : Nat
  refused : Option Nat
  deriving DecidableEq, Repr, Inhabited

/-- A register of a Terrier core (R324). -/
abbrev Reg := Fin 32
/-- A converter group: GG0–GG15 as 0–15, FG0–FG7 as 16–23. -/
abbrev Grp := Fin 24
/-- A physical channel's slot. -/
abbrev Chn := Fin 320
/-- A general group. -/
abbrev GGrp := Fin 16

/-- A committed entry (R100): a channel's or a group's. -/
inductive EntryRef where
  | chan (c : Chn)
  | group (g : Grp)
  deriving DecidableEq, Repr

end Sys2Proof.Machine

namespace Sys2Proof

open Sys2Proof.Machine

/-- The commands (spec/opcode_table.json): those that the words of the hub's own programs spell first, then the others in the table's order. -/
inductive Instr where
  /-- TAT_NOP (R158): Tattoo NOP issues with no action. -/
  | tatNop (g : Grp)
  /-- WAITA (R158): Tattoo WAITA waits until the frame start plus OFFSET units. -/
  | waita (g : Grp) (off : BitVec 23)
  /-- WAITR (R158): Tattoo WAITR waits DELTA units from its issue. -/
  | waitr (g : Grp) (delta : BitVec 23)
  /-- LEAD (R162): Tattoo LEAD makes a lead step on a named or oldest 3-wire channel, or defers or skips it. -/
  | lead (g : Grp) (auto : Bool) (ch : Fin 16)
  /-- PULSE (R163): Tattoo PULSE runs pulsed burn-out windows for one or all BO=2 channels. -/
  | pulse (g : Grp) (all : Bool) (ch : Fin 16)
  /-- REF (R164): Tattoo REF connects the relief to an internal reference for DWELL coarse periods. -/
  | ref (g : Grp) (src : Fin 16) (range : Fin 4) (dwell : BitVec 16)
  /-- EXCM (R165): Tattoo EXCM starts an excitation loopback measurement on the relief. -/
  | excm (g : Grp)
  /-- ROT (R166): Tattoo ROT requests a rotation handover as RELIEF_CTRL.FORCE does. -/
  | rot (g : Grp)
  /-- EVERY (R158): Tattoo EVERY lets the next instruction run only when frame number mod 2^K equals RES. -/
  | every (g : Grp) (k : Fin 16) (res : BitVec 15)
  /-- LOOP (R158): Tattoo LOOP starts a body run COUNT times. -/
  | tatLoop (g : Grp) (count : BitVec 8)
  /-- ENDL (R158): Tattoo ENDL ends a loop body iteration. -/
  | endl (g : Grp)
  /-- END (R158): Tattoo END stops the program until the next frame start. -/
  | tatEnd (g : Grp)
  /-- NOP (R336): Haldom NOP does nothing. -/
  | nop (n : QNum)
  /-- B (R336): Haldom B jumps to an absolute index. -/
  | b (n : QNum) (t : BitVec 14)
  /-- BEQ (R336): Haldom BEQ branches when lane 0 values are equal. -/
  | beq (n : QNum) (a b : Reg) (off : BitVec 14)
  /-- BNE (R336): Haldom BNE branches when lane 0 values differ. -/
  | bne (n : QNum) (a b : Reg) (off : BitVec 14)
  /-- BLT (R336): Haldom BLT branches when lane 0 of a is less than b. -/
  | blt (n : QNum) (a b : Reg) (off : BitVec 14)
  /-- BGE (R336): Haldom BGE branches when lane 0 of a is at least b. -/
  | bge (n : QNum) (a b : Reg) (off : BitVec 14)
  /-- CALL (R336): Haldom CALL writes the return index into v31 and jumps. -/
  | call (n : QNum) (t : BitVec 14)
  /-- RET (R336): Haldom RET jumps to the index in v31 lane 0. -/
  | ret (n : QNum)
  /-- WAIT (R336): Haldom WAIT waits for a trigger, input word or output space. -/
  | wait (n : QNum) (mask : Fin 16)
  /-- TRIG (R336): Haldom TRIG returns and clears pending triggers and the overrun bit. -/
  | trig (n : QNum) (d : Reg)
  /-- TIME (R336): Haldom TIME returns the latest window boundary instant. -/
  | time (n : QNum) (d : Reg)
  /-- HZN (R333): Haldom HZN sets or removes the output horizon cap. -/
  | hzn (n : QNum) (a : Reg)
  /-- RECV (R330): Haldom RECV takes one input word and its information, waiting if empty. -/
  | recv (n : QNum) (d b : Reg)
  /-- RECVN (R330): Haldom RECVN takes one input word if present without waiting. -/
  | recvn (n : QNum) (d b : Reg)
  /-- SEND (R332): Haldom SEND appends a word to the open output item. -/
  | send (n : QNum) (a : Reg)
  /-- SENDL (R332): Haldom SENDL appends a word and commits the output item. -/
  | sendl (n : QNum) (a : Reg)
  /-- PSTAT (R334): Haldom PSTAT returns the port state and clears its sticky bits. -/
  | pstat (n : QNum) (d : Reg)
  /-- SABORT (R336): Haldom SABORT rewinds the open output item. -/
  | sabort (n : QNum)
  /-- LD (R336): Haldom LD loads 16 bytes from the data region. -/
  | ld (n : QNum) (d a : Reg) (imm : BitVec 14) (ue : Bool)
  /-- ST (R336): Haldom ST stores 16 bytes into the data region. -/
  | st (n : QNum) (d a : Reg) (imm : BitVec 14)
  /-- LDW (R336): Haldom LDW loads 4 bytes into lane 0. -/
  | ldw (n : QNum) (d a : Reg) (imm : BitVec 14) (ue : Bool)
  /-- STW (R336): Haldom STW stores lane 0 as 4 bytes. -/
  | stw (n : QNum) (d a : Reg) (imm : BitVec 14)
  /-- LI (R336): Haldom LI loads a sign-extended immediate into lane 0. -/
  | li (n : QNum) (d : Reg) (imm : BitVec 19)
  /-- LIH (R336): Haldom LIH sets bits 31:13 of lane 0 from the immediate. -/
  | lih (n : QNum) (d : Reg) (imm : BitVec 19)
  /-- ADDI (R336): Haldom ADDI adds an immediate to every int32 lane. -/
  | addi (n : QNum) (d a : Reg) (imm : BitVec 14)
  /-- SHLI (R336): Haldom SHLI shifts every int32 lane left by an immediate. -/
  | shli (n : QNum) (d a : Reg) (imm : BitVec 14)
  /-- SHRI (R336): Haldom SHRI shifts every int32 lane logically right by an immediate. -/
  | shri (n : QNum) (d a : Reg) (imm : BitVec 14)
  /-- SRAI (R336): Haldom SRAI shifts every int32 lane arithmetically right by an immediate. -/
  | srai (n : QNum) (d a : Reg) (imm : BitVec 14)
  /-- IADD (R336): Haldom IADD adds int32 lanes. -/
  | iadd (n : QNum) (d a b : Reg) (f : Fin 16)
  /-- ISUB (R336): Haldom ISUB subtracts int32 lanes. -/
  | isub (n : QNum) (d a b : Reg) (f : Fin 16)
  /-- IMUL (R336): Haldom IMUL multiplies int32 lanes keeping the low 32 bits. -/
  | imul (n : QNum) (d a b : Reg) (f : Fin 16)
  /-- IMIN (R336): Haldom IMIN takes the int32 minimum per lane. -/
  | imin (n : QNum) (d a b : Reg) (f : Fin 16)
  /-- IMAX (R336): Haldom IMAX takes the int32 maximum per lane. -/
  | imax (n : QNum) (d a b : Reg) (f : Fin 16)
  /-- ICMP (R336): Haldom ICMP compares int32 lanes under condition F. -/
  | icmp (n : QNum) (d a b : Reg) (f : Fin 16)
  /-- SHL (R336): Haldom SHL shifts int32 lanes left by per-lane amounts. -/
  | shl (n : QNum) (d a b : Reg) (f : Fin 16)
  /-- SHR (R336): Haldom SHR shifts int32 lanes logically right by per-lane amounts. -/
  | shr (n : QNum) (d a b : Reg) (f : Fin 16)
  /-- SRA (R336): Haldom SRA shifts int32 lanes arithmetically right by per-lane amounts. -/
  | sra (n : QNum) (d a b : Reg) (f : Fin 16)
  /-- LADD (R336): Haldom LADD adds int64 lanes. -/
  | ladd (n : QNum) (d a b : Reg) (f : Fin 16)
  /-- LSUB (R336): Haldom LSUB subtracts int64 lanes. -/
  | lsub (n : QNum) (d a b : Reg) (f : Fin 16)
  /-- IABS (R336): Haldom IABS takes the int32 absolute value per lane. -/
  | iabs (n : QNum) (d a : Reg) (f : Fin 16)
  /-- AND (R336): Haldom AND forms the 128-bit logical AND. -/
  | andW (n : QNum) (d a b : Reg)
  /-- OR (R336): Haldom OR forms the 128-bit logical OR. -/
  | orW (n : QNum) (d a b : Reg)
  /-- XOR (R336): Haldom XOR forms the 128-bit logical XOR. -/
  | xorW (n : QNum) (d a b : Reg)
  /-- ANDN (R336): Haldom ANDN forms a AND NOT b. -/
  | andn (n : QNum) (d a b : Reg)
  /-- SEL (R336): Haldom SEL selects bits of a or b by mask c. -/
  | sel (n : QNum) (d a b c : Reg)
  /-- SHUF (R336): Haldom SHUF permutes lanes of a by the immediate. -/
  | shuf (n : QNum) (d a : Reg) (imm : BitVec 14)
  /-- BCAST (R336): Haldom BCAST copies one lane of a to every lane. -/
  | bcast (n : QNum) (d a : Reg) (f : Fin 16)
  /-- EXT (R336): Haldom EXT moves one lane of a into lane 0 and zeroes the rest. -/
  | ext (n : QNum) (d a : Reg) (f : Fin 16)
  /-- INS (R336): Haldom INS inserts lane 0 of a into a chosen lane of d. -/
  | ins (n : QNum) (d a : Reg) (f : Fin 16)
  /-- FADD (R336): Haldom FADD adds fp32 lanes. -/
  | fadd (n : QNum) (d a b : Reg) (f : Fin 16)
  /-- FSUB (R336): Haldom FSUB subtracts fp32 lanes. -/
  | fsub (n : QNum) (d a b : Reg) (f : Fin 16)
  /-- FMUL (R336): Haldom FMUL multiplies fp32 lanes. -/
  | fmul (n : QNum) (d a b : Reg) (f : Fin 16)
  /-- FMA (R336): Haldom FMA computes a x b + c with one rounding. -/
  | fma (n : QNum) (d a b c : Reg) (f : Fin 16)
  /-- FMS (R336): Haldom FMS computes c - a x b with one rounding. -/
  | fms (n : QNum) (d a b c : Reg) (f : Fin 16)
  /-- FMIN (R336): Haldom FMIN takes the fp32 minimum, preferring non-NaN. -/
  | fmin (n : QNum) (d a b : Reg) (f : Fin 16)
  /-- FMAX (R336): Haldom FMAX takes the fp32 maximum, preferring non-NaN. -/
  | fmax (n : QNum) (d a b : Reg) (f : Fin 16)
  /-- FABS (R336): Haldom FABS takes the fp32 absolute value. -/
  | fabs (n : QNum) (d a : Reg) (f : Fin 16)
  /-- FNEG (R336): Haldom FNEG negates fp32 lanes. -/
  | fneg (n : QNum) (d a : Reg) (f : Fin 16)
  /-- FCMP (R336): Haldom FCMP compares fp32 lanes under condition F. -/
  | fcmp (n : QNum) (d a b : Reg) (f : Fin 16)
  /-- CVTIF (R336): Haldom CVTIF converts int32 lanes to fp32. -/
  | cvtif (n : QNum) (d a : Reg) (f : Fin 16)
  /-- CVTFI (R323): Haldom CVTFI converts fp32 lanes to int32 with saturation and the no-value code for NaN. -/
  | cvtfi (n : QNum) (d a : Reg) (f : Fin 16)
  /-- HADD (R336): Haldom HADD sums the four fp32 lanes into lane 0. -/
  | hadd (n : QNum) (d a : Reg)
  /-- FDIV (R336): Haldom FDIV divides fp32 lanes, correctly rounded. -/
  | fdiv (n : QNum) (d a b : Reg) (f : Fin 16)
  /-- FSQRT (R336): Haldom FSQRT takes the fp32 square root, correctly rounded. -/
  | fsqrt (n : QNum) (d a : Reg) (f : Fin 16)
  /-- POWER_GOOD (R461): All main supplies, RESET_N and the 25 MHz reference have held good for 2 ms; start-up begins. -/
  | powerGood (role : Fin 4) (pos : Fin 128) (mode : Fin 4) (vexc viepe : Bool)
  /-- BOOT_LOAD_DONE (R446): The supervisor image check completes; a valid image runs, otherwise the other bank is tried or the hub stays in reset. -/
  | bootLoadDone
  /-- SUPPLY_FALL (R462): A main supply falls below its monitor threshold, ending power good and fully resetting the hub. -/
  | supplyFall (rail : Fin 7)
  /-- RESET_N_LOW (R462): RESET_N held low for 1 µs fully resets the hub. -/
  | resetNLow
  /-- PWR_DEVRST (R462): PWR.CTRL.DEVRST written with KEY 0xA5 makes a full reset followed by power good 2 ms later. -/
  | pwrDevrst (r : Req) (v : Word)
  /-- WATCHDOG_EXPIRY (R462): The supervisor misses its watchdog for 100 ms and its island restarts while hardware paths keep running. -/
  | watchdogExpiry
  /-- JUNCTION_TEMP_READ (R467): Each 1 ms the junction temperature is taken from all die sensors; TJ_HIGH is raised at 110 °C. -/
  | junctionTempRead (core : List Int)
  /-- VSTBY_RISE (R470): VSTBY passes 1.7 V and the standby domain drives SUP_EN high within 1 ms. -/
  | vstbyRise
  /-- PERST (R462): PCI Express fundamental reset resets the PCI Express island, with host rings as under Function Level Reset. -/
  | perst
  /-- FUNCTION_LEVEL_RESET (R386): A Function Level Reset disables every host ring without write-back and returns the feature grant to base. -/
  | functionLevelReset
  /-- START_BOUND_TIMER (R473): A start-up step misses its bound and START_LATE is raised with the step number. -/
  | startBoundTimer (step : Fin 11)
  /-- SLICE_SEARCH (R27): After boot the hub looks for an acceptable slice from the driver buffer, then boot flash, then managers. -/
  | sliceSearch
  /-- CONVERTER_CHECK_DONE (R119): The power-on converter check completes; failing converters are retired and channels assigned to converters. -/
  | converterCheckDone (meas : List RefMeas)
  /-- SAMPLING_START (R474): At the first whole 100 ms after conditions are met, chains start with cleared state. -/
  | samplingStart
  /-- IN_SERVICE (R196): The hub enters service at its first contract record release or at the 100 ms instant for hubs with no originating contract. -/
  | inService
  /-- PARK_REQUEST (R465): PWR.CTRL.REQ = 1 requests park; refused before service, otherwise STATE becomes parking. -/
  | parkRequest (r : Req) (v : Word)
  /-- UNPARK_REQUEST (R465): PWR.CTRL.REQ = 0 requests unpark; dice are powered and converters checked. -/
  | unparkRequest (r : Req) (v : Word)
  /-- STANDBY_REQUEST (R468): PWR.CTRL.REQ = 3 with KEY requests standby; ports go idle and the retained store and counter are written. -/
  | standbyRequest (r : Req) (v : Word)
  /-- PARK_STOP (R465): At t_p sample records stop, comparators leave alarm and rotation, programs, tracks and sections stop. -/
  | parkStop
  /-- DICE_OFF_DONE (R465): The analogue dice are off and STATE becomes parked. -/
  | diceOffDone
  /-- SUP_EN_FALL (R468): 2 ms after a standby request SUP_EN falls and the main domain is held in reset. -/
  | supEnFall
  /-- WAKE_PIN (R471): WAKE above VSTBY/2 for 1 ms with PIN_EN raises SUP_EN and records the wake reason. -/
  | wakePin
  /-- WAKE_ALARM (R471): The standby counter seconds reach WAKE_SEC with ALM_EN and SUP_EN rises. -/
  | wakeAlarm
  /-- ANA_LOST (R466): AVDD or AVDD_LO falls below threshold; ANA_LOST is raised and every channel loses its converter. -/
  | anaLost (lo : Bool)
  /-- ANA_BACK (R466): Analogue supplies good for 100 ms raise ANA_BACK and sampling restarts as at unpark. -/
  | anaBack
  /-- VEXC_LOW (R477): VEXC falls below 4.0 V and cause VEXC_LOW is raised. -/
  | vexcLow (low : Bool)
  /-- VIEPE_LOW (R477): VIEPE falls below 20.0 V and cause VIEPE_LOW is raised. -/
  | viepeLow (low : Bool)
  /-- STANDBY_COUNTER_COPY (R469): At every whole second with time set, the Osden seconds are copied into the standby counter. -/
  | standbyCounterCopy
  /-- RET_DATA_ACCESS (R476): A read or write of PWR.RET_DATA accesses the retained store word and advances RET_ADDR by 4. -/
  | retDataAccess (r : Req) (w : Option Word)
  /-- LOAD_DATA_WRITE (R39): A write of PLN.LOAD_DATA appends four bytes to the slice load buffer. -/
  | loadDataWrite (r : Req) (v : Word)
  /-- LOAD_GO (R26): PLN.CTRL.LOAD_GO checks the loaded slice and makes it active if no slice is active. -/
  | loadGo (r : Req)
  /-- STAGE (R39): PLN.CTRL.STAGE makes the loaded slice the pending slice. -/
  | stage (r : Req)
  /-- DISCARD (R39): PLN.CTRL.DISCARD discards the pending slice and disarms the activation second. -/
  | discard (r : Req)
  /-- RECHECK (R31): PLN.CTRL.RECHECK starts an immediate capability exchange on every quarantined port. -/
  | recheck (r : Req)
  /-- ACT_SEC_ARM (R35): A write of PLN.ACT_SEC_HI arms the activation second or rejects it with ERR 7 LATE. -/
  | actSecArm (r : Req) (v : Word)
  /-- SLICE_REQ_TIMER (R27): Every 100 ms a hub without a slice sends a hop-local SLICE_REQ on every quarantined port. -/
  | sliceReqTimer
  /-- SLICE_REQ_RECEIVE (R27): A SLICE_REQ block is taken; a neighbour fills the segment fields and forwards it, a manager queues it. -/
  | sliceReqReceive (p : Port) (seg pos : Nat) (unknown : Bool)
  /-- SLICE_SERVE (R28): A manager starts serving a queued slice request with SLICE_DATA blocks. -/
  | sliceServe
  /-- SLICE_DATA_RECEIVE (R28): A SLICE_DATA block is taken; when the slice is complete it is verified and accepted or rejected. -/
  | sliceDataReceive (b : SlicePart) (held : Option Nat)
  /-- SLICE_RETRY_TIMER (R28): 100 ms after rejecting an unverifiable served slice the hub asks again. -/
  | sliceRetryTimer
  /-- PEND_SLICE_RECEIVE (R36): A PEND_SLICE block stages a pending slice and activation second at a hub. -/
  | pendSliceReceive (bytes : List Byte) (sec : Nat)
  /-- PLAN_ACTIVATION (R36): At the activation second the pending slice becomes active and changed ports retrain. -/
  | planActivation
  /-- IDENTITY_WINDOW_CLOSE (R34): 1 s after the activation second the identity check stops accepting the old identity. -/
  | identityWindowClose
  /-- CAP_EXCHANGE (R29): The first CAP block with a new XN is checked against the PORTS entry and counted toward quarantine exit or step-up. -/
  | capExchange (p : Port) (c : CapBlk)
  /-- CAP_XN_TICK (R241): Every 10 ms a transmitter sending CAP blocks increments its exchange number. -/
  | capXnTick (p : Port)
  /-- CAP_SEND_TIMER (R241): Every 100 µs a port in quarantine or step sends a CAP block. -/
  | capSendTimer (p : Port)
  /-- COARSE_SAMPLE (R145): A coarse window ends; its corrected sample reaches comparators, triggers, open detection and the reflex map. -/
  | coarseSample (g : Grp) (conv : Fin 17) (sec m : Nat) (mods : List Int) (pins : PinState) (bias : Nat)
  /-- FINE_RECORD_READY (R146): A fine value is complete, corrected, linearised and stamped as a ready record. -/
  | fineRecordReady (g : Grp) (conv : Fin 17) (t : Stamp) (mods : List Int) (cm : Bool)
  /-- RECORD_RELEASE (R94): A ready record is released after its open-input hold, in source order. -/
  | recordRelease (slot : Slot)
  /-- RUN_CLOSE_TIMER (R273): A RUN is closed when its first sample becomes 10 ms old. -/
  | runCloseTimer (con : Con) (slot : Slot)
  /-- MOD_OVERLOAD (R142): Eight consecutive extreme modulator codes start an overload interval and count MOD_OVL. -/
  | modOverload (g : Grp) (conv : Fin 17) (start stop : Nat)
  /-- MODULATOR_RESET (R142): A modulator at its extreme code for 64 cycles is reset and recovers within 2 µs. -/
  | modulatorReset (g : Grp) (conv : Fin 17) (start stop : Nat)
  /-- SYN_PHASE_COMPARE (R134): Each microsecond the synthesiser phase is compared; 16 errors beyond 5 ns raise SYN_W or SYN_E. -/
  | synPhaseCompare (east : Bool) (err : Int)
  /-- VIEPE_MEASURE (R84): Every 1 ms VIEPE is measured to set the bias threshold in force. -/
  | viepeMeasure (mv : Nat)
  /-- CLAMP_START (R88): An input clamp starts conducting; PROT sets and PROTECT is raised once per episode. -/
  | clampStart (c : Chn)
  /-- CLAMP_END (R88): An input clamp stops conducting and PROT clears. -/
  | clampEnd (c : Chn)
  /-- SNS_LOST_DETECT (R81): Sense deviation beyond 0.5 V for 100 µs moves regulation to local sense and raises SNS_LOST. -/
  | snsLostDetect (g : GGrp)
  /-- SNS_RESTORE (R81): Sense within 0.5 V for 1 s returns regulation to remote sense. -/
  | snsRestore (g : GGrp)
  /-- EXC_LIMIT_ENGAGE (R81): Excitation current reaches the 500 mA limit and EXC_LIMIT is raised. -/
  | excLimitEngage (g : GGrp) (ma : Nat)
  /-- EXC_OFF (R81): The current limit held 10 ms switches excitation off and raises EXC_OFF. -/
  | excOff (g : GGrp)
  /-- EXC_RETRY (R81): 1 s after switch-off excitation restarts with a soft start. -/
  | excRetry (g : GGrp) (ma : Nat)
  /-- LEAD_STEP_DONE (R75): A 125 µs lead step completes and updates the lead mean, repeating at a wider range on overrange. -/
  | leadStepDone (g : GGrp) (nv : Int) (isOver : Bool)
  /-- LEAD_STALE_TIMER (R76): The last lead measurement passes 16 x LEAD_PER old and LEAD_STALE is raised once. -/
  | leadStaleTimer (c : Chn)
  /-- CHW_SEL_WRITE (R100): A write of CHW.SEL selects an entry and copies its committed words into the edit buffer. -/
  | chwSelWrite (r : Req) (v : Word)
  /-- CHW_COMMIT (R102): CHW.CTRL.COMMIT checks the edit buffer and schedules it for the selected entry. -/
  | chwCommit (r : Req)
  /-- CHW_RELOAD (R100): CHW.CTRL.RELOAD copies the committed entry into the edit buffer. -/
  | chwReload (r : Req)
  /-- CHW_COMMIT_EFFECT (R102): A committed channel or group entry takes effect at its boundary as a hard switch, range handover or flagless change. -/
  | chwCommitEffect (e : EntryRef) (ma : Nat)
  /-- HARD_SWITCH (R126): At the coarse boundary after the decision the duty converter's PGA changes range. -/
  | hardSwitch (c : Chn)
  /-- INCUMBENT_RELEASE (R111): At t_(n-1) + W/2 the incumbent is disconnected and becomes the idle relief. -/
  | incumbentRelease (g : Grp)
  /-- ROTATION_TICK (R110): A rotation tick starts a rotation handover on the next eligible channel or waits for the relief. -/
  | rotationTick (g : Grp)
  /-- RELIEF_FORCE (R110): RELIEF_CTRL.FORCE starts a rotation handover at once. -/
  | reliefForce (r : Req) (g : Grp)
  /-- RELIEF_TASK_START (R108): A waiting relief task takes the relief when it becomes free. -/
  | reliefTaskStart (g : Grp)
  /-- HARD_WAIT_EXPIRY (R124): An up-range request waiting HARD_WAIT output samples leaves the queue as a hard switch. -/
  | hardWaitExpiry (c : Chn)
  /-- REFERENCE_CHECK_DONE (R117): A reference check ends and the failed-check procedure continues with retirement, retry or forced changeover. -/
  | referenceCheckDone (g : Grp) (m : ConvMeas)
  /-- RATE_BOUNDARY (R149): At t_b records at the new rate or order start with H and Q. -/
  | rateBoundary (c : Chn)
  /-- CHAIN_RECONFIGURE (R149): At t_r the chain is reconfigured with cleared state and the modulator phase moves. -/
  | chainReconfigure (c : Chn)
  /-- FRAME_START (R156): A group frame starts and the Tattoo program begins at word 0. -/
  | frameStart (g : Grp)
  /-- TAT_WAIT_EXPIRY (R156): A Tattoo wait reaches its offset and the next action is taken. -/
  | tatWaitExpiry (g : Grp)
  /-- PULSE_WINDOW_DONE (R163): A pulsed window slot ends and its open-input judgement is made. -/
  | pulseWindowDone (g : GGrp) (ch : Fin 16) (mv : Int) (rail : Bool)
  /-- EXCM_DONE (R165): An excitation loopback completes, stores EXC_MEAS and raises T_EXCDEV beyond 2 %. -/
  | excmDone (g : GGrp) (mv : Nat)
  /-- TAT_DEFERRED_RUN (R161): A deferred Tattoo request runs when the relief frees before frame end. -/
  | tatDeferredRun (g : Grp)
  /-- TAT_CLR (R174): TAT.CTRL.CLR empties the standby bank and sets ADDR to 0. -/
  | tatClr (r : Req)
  /-- TAT_DATA_WRITE (R174): A write of TAT.DATA stores a word at ADDR in the standby bank and increments ADDR. -/
  | tatDataWrite (r : Req) (v : Word)
  /-- TAT_COMMIT (R159): TAT.CTRL.COMMIT checks the standby bank and schedules the swap. -/
  | tatCommit (r : Req)
  /-- TAT_ABORT (R171): TAT.CTRL.ABORT cancels a pending swap. -/
  | tatAbort (r : Req)
  /-- TAT_SWAP (R171): At the swap boundary the Tattoo banks swap and T_SWAP is raised. -/
  | tatSwap (g : Grp)
  /-- TEMP_READING (R177): Each whole millisecond the group die temperature is read and put in force. -/
  | tempReading (g : Grp) (t : Option Int)
  /-- CAMP_GO (R188): CAL.CTRL.CAMP_GO starts a campaign in the selected group. -/
  | campGo (r : Req) (v : Word)
  /-- CAL_POINT_DONE (R185): A calibration point finishes its DWELL mean, completing a run when all three points are fresh. -/
  | calPointDone (g : Grp) (conv : Fin 17) (range : Fin 4) (src : Fin 3) (dwell : Nat) (samples : List Int)
  /-- CAL_SET_SEL_WRITE (R192): A write of CAL.SET_SEL loads the selected point into the SET window. -/
  | calSetSelWrite (r : Req) (v : Word)
  /-- SET_WRITE (R191): CAL.SET_CTRL.WRITE writes the window into the selected calibration point. -/
  | setWrite (r : Req)
  /-- SET_DELETE (R192): CAL.SET_CTRL.DELETE empties the selected point unless it is the last. -/
  | setDelete (r : Req)
  /-- SET_RELOAD (R192): CAL.SET_CTRL.RELOAD reloads the selected point into the window. -/
  | setReload (r : Req)
  /-- LIN_SEL_WRITE (R192): A write of CAL.LIN_SEL copies the slot's committed coefficients into LIN_COEF. -/
  | linSelWrite (r : Req) (v : Word)
  /-- LIN_COMMIT (R182): CAL.LIN_CTRL.COMMIT commits LIN_COEF to the selected linearisation slot. -/
  | linCommit (r : Req)
  /-- LIN_RELOAD (R192): CAL.LIN_CTRL.RELOAD copies the committed coefficients into LIN_COEF. -/
  | linReload (r : Req)
  /-- LIN_SLOT_SWITCH (R182): A channel switches to a committed slot at its boundary; the last switch raises LIN_SWAP. -/
  | linSlotSwitch (c : Chn)
  /-- SERVO_MEASUREMENT (R198): Once per measurement period the offset to the source is formed and the rate term updated. -/
  | servoMeasurement
  /-- SOURCE_LOSS_TIMER (R200): No usable source for 3 measurement periods causes a source switch or holdover. -/
  | sourceLossTimer
  /-- FREE_RUN_TIMER (R197): No usable source 2.0 s after power good sets the provisional count as the hub's time in free run. -/
  | freeRunTimer
  /-- PREF_RETURN_TIMER (R207): A preferred port usable for 10 s becomes the worker's source again. -/
  | prefReturnTimer (p : Port)
  /-- FCLK_ABSENT (R235): The forwarded clock is absent 64 ns; MP lock is lost and the tick reverts to the local reference. -/
  | fclkAbsent (p : Port)
  /-- TIME_MARKER_SEND (R234): After each measurement-period boundary a TIME block is sent with its own transmit stamp. -/
  | timeMarkerSend (p : Port)
  /-- TIME_MARKER_RECEIVE (R204): A TIME block is received and stamped, updating offset, delay and source usability. -/
  | timeMarkerReceive (p : Port) (seq : Nat) (m : Marker) (good : Bool) (ph : Nat)
  /-- CLOSURE_ROUND (R208): Each CLOS_PER the west manager computes the closure error and distributes new asymmetries. -/
  | closureRound (kind : Fin 2) (num : Fin 8)
  /-- CLOS_REPORT_RECEIVE (R208): A terminating manager takes a node's round report of θ and d. -/
  | closReportReceive (ring : Fin 16) (hop : Nat) (theta d : Int)
  /-- CLOS_ASYM_RECEIVE (R208): A node takes a new hop asymmetry and applies it at its next measurement. -/
  | closAsymReceive (p : Port) (asym : Int)
  /-- TOD_APPLY_NOW (R501): TIM.TOD_CTRL.APPLY = 2 applies the time of day at acceptance. -/
  | todApplyNow (r : Req)
  /-- TOD_APPLY_PPS (R501): TIM.TOD_CTRL.APPLY = 1 arms the time of day for the next qualified PPS_IN edge. -/
  | todApplyPps (r : Req)
  /-- PPS_IN_EDGE (R213): A PPS_IN edge is stamped, qualified and used as a measurement. -/
  | ppsInEdge (rising : Bool)
  /-- PPS_LOSS_TIMER (R213): No PPS_IN edge within 1 s + 100 µs loses qualification, raises PPS_LOSS and enters holdover. -/
  | ppsLossTimer
  /-- EP_ANNOUNCE_RECEIVE (R215): An epoch announcement is taken, held and forwarded; EP_PEND sets and EP_ANNOUNCE is raised. -/
  | epAnnounceReceive (a : EpAnn)
  /-- EP_REQ_RECEIVE (R216): An epoch request is forwarded toward the head or served by the head. -/
  | epReqReceive
  /-- EP_DEFERRED_ANNOUNCE (R216): A request arriving late is served by an announcement issued at least 1 ms after t_e. -/
  | epDeferredAnnounce
  /-- EPOCH_CHANGE (R215): At t_e the time takes t_e + Δ, EPOCH increments and ANCHORs of reason 1 are sent. -/
  | epochChange
  /-- EPOCH_ADOPT (R217): A hub behind in epoch adopts its source's epoch and reading at a 100 µs instant. -/
  | epochAdopt
  /-- DIN_EDGE (R219): A qualifying DIN edge is stamped and counted. -/
  | dinEdge (pin : Fin 32) (e : BallEdge)
  /-- TOUT_SCHEDULE (R358): A write of TOUT.SCH_CTRL queues a schedule or refuses it with ERR. -/
  | toutSchedule (r : Req) (v : Word)
  /-- TOUT_CANCEL (R371): TOUT.SCH_CTRL.CANCEL empties the pin's schedule queue. -/
  | toutCancel (r : Req) (v : Word)
  /-- TOUT_SCHEDULE_FIRE (R220): A scheduled TOUT pin switches at its Osden instant. -/
  | toutScheduleFire (pin : QNum)
  /-- TOUT_OWNER_WRITE (R358): A change of TCFG.OWNER clears the queue and sets the logical state to 0. -/
  | toutOwnerWrite (r : Req) (v : Word)
  /-- PPS_OUT_EDGE (R221): PPS_OUT rises at a whole second of the hub's time. -/
  | ppsOutEdge
  /-- PPS_OUT_PULSE_END (R221): The PPS_OUT pulse ends after its width. -/
  | ppsOutPulseEnd
  /-- SRV_GAINS_WRITE (R199): A write of SRV.GAINS sets the gains or is refused when KI < KP + 2. -/
  | srvGainsWrite (r : Req) (v : Word)
  /-- BLOCK_SLOT_SEND (R278): Each block slot a port sends a block chosen by shares, or an idle block. -/
  | blockSlotSend (p : Port)
  /-- BLOCK_RECEIVE (R233): A block is received, its header and CRC checked and its payload routed. -/
  | blockReceive (p : Port) (b : RxSlot)
  /-- HUNT_TIMEOUT (R243): No block lock within 10 ms restarts the CDR. -/
  | huntTimeout (p : Port)
  /-- LOS_INPUT (R235): LOS asserted 1 µs on a class 2 port outside idle loses lock and raises LOS. -/
  | losInput (p : Port) (level : Bool)
  /-- SIGNAL_DETECT (R240): Signal on the receive balls of an idle port starts the idle exit. -/
  | signalDetect (p : Port)
  /-- REPLAY_RECEIVE (R237): A REPLAY request makes the transmitter resend held blocks from the named SEQ. -/
  | replayReceive (p : Port) (seq : Nat)
  /-- REPLAY_FAIL_RECEIVE (R237): A REPLAY_FAIL makes both ends retrain and raise REPLAY_FAIL. -/
  | replayFailReceive (p : Port)
  /-- PEAK_TRIM_TICK (R239): Every 64 block times adaptive trim may move receive peaking by one step. -/
  | peakTrimTick (p : Port) (dir : Int)
  /-- EIDLE_ENTER_REQUEST (R240): CTRL.EIDLE = 1 makes the port send EIDLE and its tail and go idle. -/
  | eidleEnterRequest (r : Req) (p : Port)
  /-- EIDLE_EXIT_REQUEST (R240): CTRL.EIDLE = 0 makes the port send the training burst and exit idle. -/
  | eidleExitRequest (r : Req) (p : Port)
  /-- EIDLE_RECEIVE (R240): A received EIDLE block makes the port answer with its own EIDLE and go idle. -/
  | eidleReceive (p : Port)
  /-- EIDLE_EXIT_TIMEOUT (R240): An idle exit without two valid headers or a matching CAP in bound retrains. -/
  | eidleExitTimeout (p : Port)
  /-- PORT_RESTART (R245): CTRL.RESTART retrains the port. -/
  | portRestart (r : Req) (p : Port)
  /-- MAXRATE_WRITE (R245): A write of CTRL.MAXRATE while up retrains the port under the new cap. -/
  | maxrateWrite (r : Req) (p : Port) (v : Word)
  /-- STEP_TIMEOUT (R244): No lock or GO_OK within the step window fails the rate and falls back. -/
  | stepTimeout (p : Port)
  /-- TEST_BLOCK_TIMER (R433): Every 10 ms an up port sends a PRBS-31 TEST block. -/
  | testBlockTimer (p : Port)
  /-- TEST_BLOCK_RECEIVE (R433): A TEST block payload is compared; a mismatch counts as discarded and raises TEST_ERR. -/
  | testBlockReceive (p : Port) (words : List W128)
  /-- BREAK_RECEIVE (R251): A BREAK notice steers the member's B and C records away and is forwarded. -/
  | breakReceive (p : Port) (ring : Fin 16) (hop : Nat)
  /-- RESTORE_RECEIVE (R252): A RESTORE notice returns the member to primary directions. -/
  | restoreReceive (p : Port) (ring : Fin 16) (hop : Nat)
  /-- HOP_RESTORE_TIMER (R252): Both ports up for 1 s restore the hop and the west end sends RESTORE. -/
  | hopRestoreTimer (ring : Fin 16) (hop : Nat)
  /-- RENEW_TIMER (R258): Every P/5 the holder sends a renewal to its partner and referee. -/
  | renewTimer
  /-- RENEW_RECEIVE (R258): A renewal is taken and acknowledged, fencing a unit that sees a higher term. -/
  | renewReceive (seg hub term num : Nat)
  /-- RENEW_ACK_RECEIVE (R258): An acknowledgement counts the renewal and moves the lease timer. -/
  | renewAckReceive (a : RenewAck)
  /-- LEASE_EXPIRY (R258): The lease timer expires; held duties stop and LAPSE is raised. -/
  | leaseExpiry
  /-- GRANT_REQ_TIMER (R259): P + 1 ms without a renewal sends a grant request, repeated every P/5. -/
  | grantReqTimer
  /-- GRANT_REQ_RECEIVE (R259): A referee takes a grant request and grants, refuses or holds it open. -/
  | grantReqReceive (seg hub : Nat)
  /-- GRANT_REQ_HOLD_EXPIRY (R259): A held grant request is decided within 2 ms. -/
  | grantReqHoldExpiry (seg : Nat)
  /-- GRANT_RECEIVE (R263): A grant makes the unit holder with the new term and raises TAKEOVER. -/
  | grantReceive (term : Nat)
  /-- REFUSE_RECEIVE (R259): A refusal of a grant request raises REFUSED. -/
  | refuseReceive
  /-- LEASH_INITIAL_REQUEST (R262): With no holder, a unit requests the Leash once its ports are checked or 2 s after power good. -/
  | leashInitialRequest
  /-- REF_ACK_WRITE (R261): A write of LSH.REF_ACK with the current RENEW acknowledges that renewal. -/
  | refAckWrite (r : Req) (v : Word)
  /-- REF_GRANT_WRITE (R261): A write of LSH.REF_GRANT grants the Leash if SINCE has reached P + 1 ms. -/
  | refGrantWrite (r : Req) (v : Word)
  /-- HANDOFF (R264): LSH.CTRL.HANDOFF on the holder starts a handoff and sets HO_PEND. -/
  | handoff (r : Req)
  /-- HANDOFF_PROCEED (R264): Once the partner is current the holder stops its duties and sends YIELD. -/
  | handoffProceed
  /-- HANDOFF_TIMEOUT (R264): A partner not current within 100 ms cancels the handoff. -/
  | handoffTimeout
  /-- YIELD_RECEIVE (R264): On YIELD the referee grants the partner at once with the next term. -/
  | yieldReceive (seg hub term jnum : Nat)
  /-- JOURNAL_RECEIVE (R257): The standby applies a journal entry in order, acknowledges it and requests gaps. -/
  | journalReceive (term num : Nat) (e : JEntry)
  /-- JOURNAL_ACK_RECEIVE (R257): The holder takes a journal acknowledgement toward the standby being current. -/
  | journalAckReceive (num : Nat)
  /-- RESYNC_REQ_RECEIVE (R265): The holder answers a resync request with a snapshot and the journal from it. -/
  | resyncReqReceive
  /-- HOLDER_RECEIVE (R263): A new holder announcement makes sources retransmit from their acknowledged position. -/
  | holderReceive (seg hub term : Nat)
  /-- REMOVE (R267): LSH.SVC_CTRL.REMOVE on the holder starts removal of hub SVC_HUB or refuses it. -/
  | remove (r : Req)
  /-- REMOVE_CANCEL (R267): LSH.SVC_CTRL.CANCEL returns the worker to service before step 4. -/
  | removeCancel (r : Req)
  /-- REMOVAL_STOP (R267): At t_x the worker stops producing records and its sources become absent. -/
  | removalStop
  /-- REMOVAL_DRAINED (R267): All worker contracts acknowledged sets drained and the holder breaks both hops. -/
  | removalDrained
  /-- SVC_RECEIVE (R267): An SVC service block orders the worker's neighbours to idle their ports. -/
  | svcReceive (op : SvcOp)
  /-- REMOVAL_REJOIN (R267): The replacement's first record ends absence and raises REJOINED. -/
  | removalRejoin
  /-- ITEM_TRANSMIT (R277): A source sends waiting items of a contract within its σ + ρτ limit. -/
  | itemTransmit (con : Con)
  /-- SOURCE_HORIZON_BEAT (R284): At a beat instant each source puts a HORIZON into each contract of the class. -/
  | sourceHorizonBeat (cls : Cls)
  /-- MERGER_BEAT (R288): At a beat instant a merger issues its HORIZON with h = H_c downstream and upward. -/
  | mergerBeat (cls : Cls)
  /-- DATA_ITEM_RECEIVE (R290): A merger takes an item and accepts it, discards a repeat or detects a hole. -/
  | dataItemReceive (dev : Nat) (con : Con) (seq : Nat) (res : Bool) (words : List W128)
  /-- HORIZON_RECEIVE (R286): A HORIZON updates an input's applied horizon and the released horizon. -/
  | horizonReceive (dev : Nat) (con : Con) (seq : Nat) (beat : Bool) (w : W128)
  /-- INPUT_ABSENT_TIMER (R287): No HORIZON for 3 beat periods declares the input absent and raises ABSENT. -/
  | inputAbsentTimer (dev : Nat) (con : Con) (beat : Bool)
  /-- RETX_RECEIVE (R291): A source answers a RETX request by resending held items in RES segments. -/
  | retxReceive (con : Con) (num : Nat)
  /-- RETX_REPEAT_TIMER (R291): A RETX request unanswered for 3 beat periods is sent again. -/
  | retxRepeatTimer (dev : Nat) (con : Con)
  /-- ACK_TIMER (R296): A consumer hub sends a cumulative ACK each 1 ms with new handovers or each 100 ms. -/
  | ackTimer
  /-- ACK_RECEIVE (R296): A source takes an ACK and frees the covered Kennel space. -/
  | ackReceive (con : Con) (num : Nat)
  /-- KENNEL_CHECK (R298): Every 10 ms the source discards items older than KEEP after emitting GAPs. -/
  | kennelCheck
  /-- STALL_RESUME (R300): With a quarter of the merge part free, RETX requests are sent oldest cap first. -/
  | stallResume
  /-- MRG_CSEL_WRITE (R303): A write of MRG.CSEL selects a contract and loads its committed entry into CON0-CON4. -/
  | mrgCselWrite (r : Req) (v : Word)
  /-- ADMIT (R282): MRG.CCTRL.ADMIT on the owner checks and admits or refuses the edited contract. -/
  | admitContract (r : Req) (t : AdmitTerms)
  /-- WITHDRAW (R303): MRG.CCTRL.WITHDRAW withdraws the selected contract at a whole second. -/
  | withdraw (r : Req)
  /-- MRG_RELOAD (R303): MRG.CCTRL.RELOAD reloads the committed entry into CON0-CON4. -/
  | mrgReload (r : Req)
  /-- CONTRACT_RECEIVE (R283): A CONTRACT block installs an admitted, changed or withdrawn entry at a hub. -/
  | contractReceive (con : Con) (c : Contract) (start : Nat) (stop : Option Nat)
  /-- CONTRACT_START (R274): A contract starts at its whole second with an ANCHOR of reason 0. -/
  | contractStart (con : Con)
  /-- CONTRACT_END (R274): A withdrawn or changed contract ends at its end second. -/
  | contractEnd (con : Con)
  /-- QUEUE_WORD_WRITE (R309): A producer writes a word of an item into a delivery queue. -/
  | queueWordWrite (q : QNum) (w : W128) (last bad : Bool)
  /-- QUEUE_NOTICE_TIMER (R315): COAL_T after the oldest pending commit raises the queue notice. -/
  | queueNoticeTimer (q : QNum)
  /-- QUEUE_APPEND (R312): A write of WRW3 appends one word from WRW0-WRW3 to the driver's open item. -/
  | queueAppend (r : Req) (v : Word)
  /-- QUEUE_WCOMMIT (R312): WCTRL.COMMIT commits the driver's open item. -/
  | queueWcommit (r : Req)
  /-- QUEUE_WREWIND (R312): WCTRL.REWIND rewinds the driver's open item. -/
  | queueWrewind (r : Req)
  /-- QUEUE_READ (R313): A read of RDW0 moves the next word into the read latch or records an underrun. -/
  | queueRead (r : Req)
  /-- QUEUE_FLUSH (R318): QCTRL.FLUSH discards every packet and the open item of the queue. -/
  | queueFlush (r : Req)
  /-- QUEUE_FLUSH_DONE (R318): The flush completes within 2 µs, counts are updated and ALERT FLUSHED raised. -/
  | queueFlushDone (q : QNum)
  /-- WM_LATCH_CLEAR (R317): A write of 1 to WM_STAT.LATCH clears the watermark latch, conditionally on EPIS when CHK. -/
  | wmLatchClear (r : Req) (v : Word)
  /-- WM_HWM_WRITE (R316): A write of WM_HWM below the level counts as a crossing. -/
  | wmHwmWrite (r : Req) (v : Word)
  /-- QSIZE_WRITE (R307): A write of QSIZE sets the queue region or is refused with ERR. -/
  | qsizeWrite (r : Req) (v : Word)
  /-- QCFG_WRITE (R311): A write of QCFG sets producer, consumer and enable under its gating. -/
  | qcfgWrite (r : Req) (v : Word)
  /-- WINDOW_BOUNDARY (R325): A window boundary sets the pending window trigger and records its instant. -/
  | windowBoundary (n : QNum)
  /-- CYCLE_BOUNDARY (R326): A cycle boundary sets the pending cycle trigger. -/
  | cycleBoundary (n : QNum)
  /-- TC_INPUT_ITEM (R329): A whole item enters a core's input buffer and is handed over. -/
  | tcInputItem (n : QNum) (q : Option QNum) (dev : Nat) (con : Con) (seq : Nat) (item : Item)
  /-- WAIT_RESUME (R338): A waiting core resumes when its WAIT condition holds. -/
  | waitResume (n : QNum)
  /-- RECV_RESUME (R330): A waiting RECV completes when a word enters the input buffer. -/
  | recvResume (n : QNum)
  /-- SEND_RESUME (R334): A SEND or SENDL waiting for queue space completes when a word frees. -/
  | sendResume (n : QNum)
  /-- TC_CLR (R346): TC.CTRL.CLR empties the standby bank and sets IMG_ADDR to 0. -/
  | tcClr (r : Req) (n : QNum)
  /-- TC_IMG_DATA_WRITE (R346): A write of TC.IMG_DATA stores a word at IMG_ADDR and increments it. -/
  | tcImgDataWrite (r : Req) (n : QNum) (v : Word)
  /-- TC_COMMIT (R340): TC.CTRL.COMMIT checks the standby bank and schedules a switch or shadow run. -/
  | tcCommit (r : Req) (n : QNum)
  /-- TC_ABORT (R346): TC.CTRL.ABORT cancels a pending commit and any shadow run. -/
  | tcAbort (r : Req) (n : QNum)
  /-- TC_GO (R343): TC.CTRL.GO schedules the switch of a commit held after its shadow run. -/
  | tcGo (r : Req) (n : QNum)
  /-- TC_RESTART (R345): TC.CTRL.RESTART restarts the program as a fault without a code. -/
  | tcRestart (r : Req) (n : QNum)
  /-- SHADOW_START (R343): At S the donor core starts the new program on copies of the live inputs. -/
  | shadowStart (n : QNum)
  /-- SWITCH_BOUNDARY (R341): The switch boundary passes and the old program drains. -/
  | switchBoundary (n : QNum)
  /-- DRAIN_EXPIRY (R342): At b + DRAIN the old program is stopped and its open item rewound. -/
  | drainExpiry (n : QNum)
  /-- PROGRAM_SWITCH (R342): After the old program stops the banks flip and the new program starts with the trigger of b pending. -/
  | programSwitch (n : QNum)
  /-- REFLEX_PULSE_END (R353): A pulse rule's active output ends after PW x 100 ns. -/
  | reflexPulseEnd (rule : Fin 64)
  /-- RULE_COMMIT (R355): RFX.RCTRL.COMMIT commits the selected reflex rule or refuses it. -/
  | ruleCommit (r : Req)
  /-- RULE_RELOAD (R372): RFX.RCTRL.RELOAD reloads the selected rule into RULE_A and RULE_B. -/
  | ruleReload (r : Req)
  /-- RULE_CLEAR (R353): RFX.RCTRL.CLEAR clears a latch rule's active output. -/
  | ruleClear (r : Req)
  /-- TRACK_ENABLE (R369): Setting ORD.TRCFG0.EN checks the track's slots and enables it or sets ERR. -/
  | trackEnable (r : Req) (v : Word)
  /-- SECTION_ENABLE (R369): Setting ORD.WCFG.EN checks the section's slots and enables it or sets WERR. -/
  | sectionEnable (r : Req) (v : Word)
  /-- TRACK_OUTPUT (R361): An angle sample is released once its edges and input records exist. -/
  | trackOutput (t : QNum)
  /-- TRACK_STALL_TIMER (R362): No edge within TRSTALL suspends the track and raises TR_STALL. -/
  | trackStallTimer (t : QNum)
  /-- WEIGH_RELEASE (R366): A section releases its three parcel records once the window records are ready. -/
  | weighRelease (sec : Fin 4)
  /-- BAR0_REQUEST (R377): A BAR0 request is served as a register access, discarded or completed as Unsupported Request. -/
  | bar0Request (write : Bool) (addr : BitVec 20) (be : BitVec 4) (dwords : Nat) (v : Word)
  /-- HR_TAIL_WRITE (R383): A write of HRn_TAIL posts descriptors or is ignored with ERR 2. -/
  | hrTailWrite (r : Req) (n : QNum) (v : Word)
  /-- DESCRIPTOR_FETCH_DONE (R384): A descriptor read completes, or fails and stops the ring with RING_ERR. -/
  | descriptorFetchDone (n : QNum) (good : Bool) (descs : List (Word × Word × Word))
  /-- HOST_RING_ITEM (R381): An item is written into the open descriptor buffer of a host ring. -/
  | hostRingItem (n : QNum) (i : HrItem)
  /-- DESCRIPTOR_CLOSE_TIMER (R381): CLOSE_T after the first item the open descriptor completes. -/
  | descriptorCloseTimer (n : QNum)
  /-- HR_NOTICE_TIMER (R385): ITIME after the oldest uncounted completion raises DONEn. -/
  | hrNoticeTimer (n : QNum)
  /-- HR_ENABLE_WRITE (R386): A write of HRn_CFG.EN starts a ring or stops it after its open descriptor. -/
  | hrEnableWrite (r : Req) (n : QNum) (v : Word)
  /-- QUIESCE (R386): PCI.CTRL.QUIESCE stops every ring after its open descriptor. -/
  | quiesce (r : Req) (v : Word)
  /-- PCIE_LINK_DOWN (R375): The PCI Express link goes down; rings hold their items. -/
  | pcieLinkDown
  /-- BUS_MASTER_DISABLE (R386): Bus Master Enable cleared or D3hot stops requests while items stay held. -/
  | busMasterDisable (d3 : Bool)
  /-- FSP_FRAME (R388): At select release a frame is taken whole, checked, executed and its reply built. -/
  | fspFrame (bytes : List Byte) (edges : Nat) (ready : Bool)
  /-- FSP_END (R391): FSP END ends the command list. -/
  | fspEnd
  /-- FSP_READ (R392): FSP READ reads COUNT registers into the reply body. -/
  | fspRead (count : Fin 256) (addr : BitVec 20)
  /-- FSP_WRITE (R392): FSP WRITE writes COUNT registers from the following data. -/
  | fspWrite (addr : BitVec 20) (data : List Word)
  /-- FSP_STREAM (R393): FSP STREAM acknowledges below NEXT and places stream words in the reply. -/
  | fspStream (count : Fin 256) (next : Word)
  /-- FSP_STREAM_ITEM (R393): An FSP contract item enters the stream buffer and is handed over. -/
  | fspStreamItem (dev : Nat) (con : Con) (seq : Nat) (item : Item)
  /-- FSP_IDLE_TIMER (R390): 100 ms without a select lets the next frame be accepted with any counter. -/
  | fspIdleTimer
  /-- FSP_RESYNC (R399): FSP.CTRL.RESYNC accepts the next complete request with any ALIVE_RQ. -/
  | fspResync (r : Req)
  /-- FSP_LEN_WRITE (R397): A write of FSP.LEN sets the frame length from its rule or is ignored. -/
  | fspLenWrite (r : Req) (v : Word)
  /-- REGISTER_WRITE (R15): A write of a register without its own step sets fields per their access codes. -/
  | registerWrite (r : Req) (addr : BitVec 20) (v : Word)
  /-- RC_FIELD_READ (R16): A read of an RC field returns its value and clears it without losing a coincident increment. -/
  | rcFieldRead (r : Req) (addr : BitVec 20)
  /-- MULTIWORD_LATCH_READ (R409): A read of the lowest word of a multi-word register latches the others into a shadow. -/
  | multiwordLatchRead (r : Req) (addr : BitVec 20)
  /-- SHADOW_WORD_READ (R409): A read of a higher word returns its shadow, or the live value counting LATE after expiry. -/
  | shadowWordRead (r : Req) (addr : BitVec 20)
  /-- SHADOW_EXPIRY (R409): A shadow expires 1 µs after its latching read. -/
  | shadowExpiry (r : Req) (page : PageNo)
  /-- PAGE_SOFT_RESET (R404): PAGE_CTRL.SRST writes every page field with its reset value. -/
  | pageSoftReset (r : Req) (page : PageNo)
  /-- PAGE_FREEZE (R405): A write of PAGE_CTRL.FREEZE locks or unlocks the page for its owner. -/
  | pageFreeze (r : Req) (page : PageNo) (on : Bool)
  /-- SNAP_TAKE (R407): SNAP.TAKE captures every counter field of the page. -/
  | snapTake (r : Req) (page : PageNo)
  /-- EV_LATCH_WRITE (R414): A W1C write of EV_LATCH clears causes and EV_FIRST and may resignal events. -/
  | evLatchWrite (r : Req) (page : PageNo) (v : Word)
  /-- EV_EN_WRITE (R417): A write of EV_EN changes event activity and resignals active events of the page. -/
  | evEnWrite (r : Req) (page : PageNo) (v : Word)
  /-- EVT_CLEAR (R419): A write of EVT.CLR0 or CLR1 clears every latched cause of the named events. -/
  | evtClear (r : Req) (hi : Bool) (v : Word)
  /-- RESERVED_PAGE_ACCESS (R402): An access to pages 0x56-0xFF reads 0, counts RSVD and raises RSVD_ACC. -/
  | reservedPageAccess (r : Req) (addr : BitVec 20) (write : Bool)
  /-- REMOTE_ACCESS_GO (R413): DEV.RA_CTRL.GO sends a remote register request or ends it with ERR. -/
  | remoteAccessGo (r : Req) (v : Word)
  /-- REMOTE_ACCESS_EXECUTE (R413): A target executes a remote read or write request as requester 3 and answers. -/
  | remoteAccessExecute (seg hub : Nat) (write : Bool) (addr : BitVec 20) (data : List Word) (count : Fin 5)
  /-- REMOTE_ACCESS_ANSWER (R413): The answer arrives, BUSY clears, RA_DATA is filled and RA_DONE raised. -/
  | remoteAccessAnswer (err : Fin 8) (data : List Word)
  /-- REMOTE_ACCESS_TIMEOUT (R413): No answer within 10 ms ends the remote request with ERR 1. -/
  | remoteAccessTimeout
  /-- FEAT_COMMIT (R423): FEAT.CTRL.COMMIT sets the grant to request AND offer and raises COMMIT. -/
  | featCommit (r : Req)
  /-- FEAT_BASE (R423): FEAT.CTRL.BASE returns the grant to the base profile. -/
  | featBase (r : Req)
  /-- EPISODE_END_TIMER (R304): 1 s without a cause ends its episode so the next raise is reported. -/
  | episodeEndTimer (page : PageNo) (bit : Fin 32) (sub : Nat)
  /-- SLICE_START (R435): At the paced interval an ordinary self-test slice starts on an idle island. -/
  | sliceStart (isl : Fin 72)
  /-- SLICE_COMPLETE (R431): A slice completes and its signature is compared with the golden value. -/
  | sliceComplete (isl : Fin 72) (sig golden : Word)
  /-- SLICE_RESTORE_DONE (R432): The island state is restored after an abandon and waiting requests are served. -/
  | sliceRestoreDone (isl : Fin 72)
  /-- SLICE_RETRY (R432): An abandoned slice restarts when the island is next idle. -/
  | sliceRetry (isl : Fin 72)
  /-- RESERVED_WINDOW (R434): A reserved window opens at a whole millisecond and runs a forced slice. -/
  | reservedWindow (isl : Fin 72)
  /-- FORCED_SLICE_DONE (R434): A forced slice completes within 400 µs and counts FORCED. -/
  | forcedSliceDone (isl : Fin 72) (sig golden : Word)
  /-- COVERAGE_CYCLE_END (R435): The coverage cycle ends, raising CYCLE_DONE or COV_LATE. -/
  | coverageCycleEnd
  /-- NEWCYC (R440): BST.CTRL.NEWCYC ends the coverage cycle now. -/
  | newcyc (r : Req) (v : Word)
  /-- BST_DISABLE (R439): BST.CTRL.EN written 0 abandons the slice under way and runs no more. -/
  | bstDisable (r : Req) (v : Word)
  /-- ANALOGUE_CHECK_GO (R438): BST.ACHK_CTRL.GO starts the analogue check of a group or ends it with ERR. -/
  | analogueCheckGo (r : Req) (v : Word)
  /-- ANALOGUE_CHECK_DONE (R438): The analogue check ends with its result word and ACHK_DONE. -/
  | analogueCheckDone (res : List (Int × Int)) (exc : Option Nat)
  /-- FW_STAGE (R451): FWL.CTRL.STAGE starts staging the image in the bank not running. -/
  | fwStage (r : Req)
  /-- STAGE_DONE (R451): Staging checks finish; STATE becomes staged with STAGED, or STAGE_FAIL. -/
  | stageDone (good : Bool)
  /-- FW_SWAP (R451): FWL.CTRL.SWAP waits for the next idle boundary. -/
  | fwSwap (r : Req)
  /-- SWAP_IDLE_BOUNDARY (R451): An idle boundary is found and the supervisor handover starts. -/
  | swapIdleBoundary
  /-- HANDOVER_DONE (R451): The new supervisor runs, STATE becomes trial and SWAPPED is raised. -/
  | handoverDone
  /-- SWAP_TIMEOUT (R451): No idle boundary within 100 ms cancels the swap with ERR 6. -/
  | swapTimeout
  /-- FW_CONFIRM (R451): FWL.CTRL.CONFIRM writes the boot record and raises CONFIRMED. -/
  | fwConfirm (r : Req)
  /-- FW_REVERT (R452): FWL.CTRL.REVERT reverts the trial at the next idle boundary. -/
  | fwRevert (r : Req)
  /-- TRIAL_TIMEOUT (R452): TRIAL_T passes without CONFIRM and the trial is reverted. -/
  | trialTimeout
  /-- CKEY_BURN (R444): FWL.CTRL.CKEY_BURN burns the customer public key or refuses a second burn. -/
  | ckeyBurn (r : Req)
  /-- FLASH_PROGRAM (R447): FL_CTRL OP 1 programs the page buffer at FL_ADDR. -/
  | flashProgram (r : Req)
  /-- FLASH_ERASE (R447): FL_CTRL OP 2 erases the 64 KiB sector at FL_ADDR. -/
  | flashErase (r : Req)
  /-- FLASH_OP_DONE (R447): A flash operation completes, verified, with FL_STAT.ERR set on failure. -/
  | flashOpDone (good : Bool)
  /-- FL_DATA_WRITE (R457): A write of FL_DATA appends 4 bytes to the page buffer. -/
  | flDataWrite (r : Req) (v : Word)
  /-- FL_DATA_READ (R457): A read of FL_DATA returns 4 flash bytes and advances FL_ADDR. -/
  | flDataRead (r : Req)
  /-- HDR_TGT_WRITE (R457): A write of FWL.HDR_TGT names the target and empties the header buffer. -/
  | hdrTgtWrite (r : Req) (v : Word)
  /-- HDR_DATA_WRITE (R454): A write of FWL.HDR_DATA appends 4 bytes to the staged image header. -/
  | hdrDataWrite (r : Req) (v : Word)
  /-- SYMBOL_LOCK (R235): In symbol hunt, four commas at one bit alignment with no code violation between them give symbol lock, and the receiver moves to block hunt. -/
  | symbolLock (p : Port)
  /-- ACK_STALL_TIMER (R306): 100 ms with no ACK while items of a contract are unacknowledged raises ACK_STALL once per episode. -/
  | ackStallTimer (con : Con)
  /-- UNDEFINED_OPCODE (R337): A Terrier core issues a word with an undefined opcode or a set named-zero bit, or a fetch meets an uncorrectable error, which faults the core with code 1 or 5. -/
  | undefinedOpcode (n : QNum) (ue : Bool)
  /-- DIN_LEVEL_CHANGE (R353): A change of a DIN pin's level that is not a selected or stamped edge changes LEVELS and the condition of every reflex rule with that pin as a source. -/
  | dinLevelChange (pin : Fin 32) (level : Bool)
  /-- PCIE_LINK_UP (R375): The PCI Express link trains up again, PCI.LINK and GEN update, and host rings resume filling where they stopped, with CLOSE_T restarted. -/
  | pcieLinkUp (speed : Fin 4) (width : Fin 16)
  /-- BUS_MASTER_ENABLE (R386): Bus Master Enable set again, or a return from D3hot to D0, lets host rings issue requests and resume filling the open descriptor. -/
  | busMasterEnable
  /-- MSIX_UNMASK (R378): A host write to BAR2 that unmasks an MSI-X vector sends the message whose pending bit is set. -/
  | msixUnmask (e : Fin 64)
  /-- REMOVAL_CANCEL_RETURN (R267): At the next whole second after a removal is cancelled, the worker returns to service and produces records again. -/
  | removalCancelReturn
  /-- CKEY_BURN_DONE (R444): The customer key burn into the fuse store completes within 10 ms, and STAT.CKEY reads 1. -/
  | ckeyBurnDone
  /-- WATCHDOG_RESTART_DONE (R462): The restarted supervisor has rebuilt its state from the hardware tables and runs again, and the requests that waited are served in arrival order. -/
  | watchdogRestartDone
  deriving DecidableEq, Repr

end Sys2Proof
end

