-- ==== Sys2Proof/Config.lean ====
section
/-! DEFINITION. What the manual leaves open as a value: free values, with no body, so that nothing can be proved of what they are. -/

namespace Sys2Proof

open Sys2Proof.Machine

/-- A slice body that says nothing. -/
def Machine.SliceBody.empty : SliceBody :=
  { ports := [], rings := [], channels := [], groups := [], lins := [], contracts := [], rules := [], programs := [],
    queues := [], gains := none, timCtrl := none, mergeMiB := none, slices := [] }

/-- A free value for each count of `State.free`: what a step that leaves a 32-bit value open writes. Log 30 (DESIGN CHOICE). -/
opaque Config.freeWord : Nat → Word

/-- A free byte, by its number in `State.free` and its offset: of the retained store when VSTBY first rises (R470), of a key burnt from an unfilled buffer (R444), of a flash range whose operation failed (R447). Log 7, 63, 66 (DESIGN CHOICE). -/
opaque Config.freeByte : Nat → Nat → Byte

/-- How many of a Terrier body's words are code (R339): the manual says that the initialised data follows the code and not where the code ends. By body digest. Log 27 (DESIGN CHOICE). -/
opaque Config.codeWords : Nat → Nat

/-- Whether a supervisor image carries golden values for a silicon revision (R431, R437), by body digest and revision: their place in the image is not in the manual. Log 61 (DESIGN CHOICE). -/
opaque Config.hasGold : Nat → Nat → Bool

/-- The slices of an island kind that a supervisor image carries (R431), by body digest and island. Log 61 (DESIGN CHOICE). -/
opaque Config.sliceCount : Nat → Nat → Nat

/-- What the sections of a slice say (R25), by SLICE_DIGEST: their byte layout is not in the manual. Log 24 (DESIGN CHOICE). -/
opaque Config.freeSections : Nat → SliceBody

/-- The taps of one half of the droop correction for an order and k (R135), from its end to its middle, in 2^−30: fixed in the hub, not listed. Log 81 (DESIGN CHOICE). -/
opaque Config.droopTap : Nat → Nat → Nat → Int

/-- The taps of one half of the 31-tap half-band stage (R138), in 2^−30: not listed. Log 81 (DESIGN CHOICE). -/
opaque Config.halfBandTap31 : Nat → Int

/-- The taps of one half of the 95-tap half-band stage (R138), in 2^−30: not listed. Log 81 (DESIGN CHOICE). -/
opaque Config.halfBandTap95 : Nat → Int

/-- The byte a receiver reads from a code violation, by the code-group (R227): the manual says only that it counts. Log 82 (DESIGN CHOICE). -/
opaque Config.violationByte : Nat → Byte

/-- What the other hubs report of a contract whose admission is written as a plain register write (R280, R281): the manual does not say how the terms arrive. By count of `State.free`. Log 48 (DEDUCED). -/
opaque Config.admitTerms : Nat → AdmitTerms

end Sys2Proof
end

