-- ==== Sys2Proof/Machine/State.lean ====
section
/-! DEFINITION. The state of the hub: every register, buffer, counter, mode and pin the manual gives it, as plain data, and the state after reset. -/

namespace Sys2Proof.Machine

/-! ## Register pages, events and feature negotiation (16_register_pages) -/

/-- The common header of a page (R403), its counts and its first cause. -/
structure Page where
  /-- PAGE_CTRL.EN. -/
  en : Bool := true
  /-- PAGE_CTRL.FREEZE. -/
  freeze : Bool := false
  /-- PAGE_STAT.OWNER. -/
  owner : Nat := 0
  evLatch : Word := 0
  evEn : Word := 0
  /-- EV_FIRST: BIT and RAISES, none while VALID is 0. -/
  first : Option (Nat × Nat) := none
  /-- GEN. -/
  gen : Word := 0
  /-- SNAP.SEQ. -/
  snapSeq : Nat := 0
  /-- SNAP.HOLD. -/
  hold : Bool := false
  deriving DecidableEq, Repr

/-- A condition or an episode under way: the page, the cause bit and the unit it concerns (R415). -/
structure Cond where
  page : Nat
  bit : Nat
  sub : Nat
  deriving DecidableEq, Repr

/-- A shadow of a multi-word register (R409): requester, page, words held by address. -/
structure Shadow where
  req : Nat
  page : Nat
  words : List (Nat × Word)
  /-- More than 1 µs have passed since the latching read. -/
  expired : Bool := false
  deriving DecidableEq, Repr

/-- The register fabric: shadows, conditions, captures, DEV counts, event counts, features, remote access. -/
structure Fab where
  shadows : List Shadow := []
  conds : List Cond := []
  /-- Captured counter registers (R407) by address, and by address + index × 2^20 for selected units. -/
  snaps : FMap Word := []
  accLate : Nat := 0
  accRsvd : Nat := 0
  accFrozen : Nat := 0
  /-- ECNT.RAISES by event. -/
  raises : FMap Nat := []
  /-- ECNT.VECTORS by event. -/
  vectors : FMap Nat := []
  norec : Word := 0
  /-- FEAT_GRANT (R420). -/
  grant : W128 := 1
  /-- Gated fields whose latest write came from the supervisor, which no grant gates (R422): 0x55000 + ring, 0x0D000 + queue (COAL_T), 0x0D100 + queue (CHK), 0x51000 + pin. -/
  supSet : List Nat := []
  /-- FEAT_OFFER (R423). -/
  offer : W128 := 0x3FF
  committed : Bool := false
  denied : Bool := false
  lost : Bool := false
  /-- FEAT.STAT.BY. -/
  by_ : Nat := 0
  raBusy : Bool := false
  raErr : Nat := 0
  deriving DecidableEq, Repr

/-! ## Fuses and straps -/

/-- What the fuse store and production test fix. -/
structure Fuse where
  /-- DEV.UID (R426). -/
  uid : Nat := 1
  /-- The silicon revision code (R426). -/
  rev : Nat := 0x11
  letter : Nat := 0x42
  digit : Nat := 0x31
  /-- The package variant: true for the HX000 (R4). -/
  hx000 : Bool := false
  /-- The vendor public key (R443). -/
  vkey : Nat × Nat := (0, 0)
  /-- The customer public key once burned (R444). -/
  ckey : Option (Nat × Nat) := none
  /-- A burn under way and the key it burns (R444). -/
  ckeyBusy : Option (Nat × Nat) := none
  /-- Fixed transmit and receive latencies of a port at a rate (R202, R203), in 1/128 ns, by port × 8 + rate code. -/
  txLat : FMap Nat := []
  rxLat : FMap Nat := []
  deriving DecidableEq, Repr

/-! ## The plan (01_plant_and_plan) -/

/-- A port as PLN shows it (R39). -/
structure PortSt where
  fails : Nat := 0
  first : Nat := 0
  cause : Nat := 0
  /-- Quarantined (R30). -/
  q : Bool := true
  /-- Consecutive matching exchanges, and the `up` instant of the first of them (R31). -/
  streak : Nat := 0
  matchAt : Nat := 0
  /-- A capability block has arrived since the latest activation (R37). -/
  fresh : Bool := false
  /-- The neighbour's latest capability block, and whether its identity was accepted. -/
  peer : Option CapBlk := none
  idOk : Bool := false
  deriving DecidableEq, Repr

/-- The slice store and the plan state (R25–R39). -/
structure Pln where
  role : Nat := 0
  pos : Nat := 0
  fspMode : Nat := 0
  strapErr : Bool := false
  active : Option Slice := none
  /-- STAT.SRC. -/
  src : Nat := 0
  err : Nat := 0
  pend : Option Slice := none
  /-- The armed activation second (R35). -/
  armed : Option Nat := none
  /-- STAT.REQ. -/
  req : Bool := false
  /-- STAT.SRC of the pending slice once it is active. -/
  pendSrc : Nat := 1
  /-- The activation second passed with no pending slice (R37). -/
  missed : Bool := false
  /-- The identity (number, digest) accepted beside the active one until the window of R34 closes. -/
  oldId : Option (Nat × Nat) := none
  loadBuf : List Byte := []
  /-- The load buffer ran over 2 MiB. -/
  loadOver : Bool := false
  /-- Slice requests waiting here, oldest first: port, requester as segment × 128 + hub (R28). -/
  serveQ : List (Nat × Nat) := []
  /-- Slice bytes arriving from a manager, with their offsets (R28). -/
  dl : FMap Byte := []
  dlLen : Nat := 0
  /-- The 100 ms wait after a served slice was rejected (R28). -/
  retryWait : Bool := false
  /-- Slices this manager can serve, by requester (R27, R257). -/
  store : List (Nat × List Byte) := []
  ports : FMap PortSt := []
  /-- MODEL'S OWN: what the sections of a slice with this SLICE_DIGEST say; their byte layout is not in the manual. -/
  secs : List (Nat × SliceBody) := []
  deriving DecidableEq, Repr

/-! ## Osden time (08_osden_time) -/

/-- A time-marker exchange on a port (R201–R205). Stamps in 1/128 ns. -/
structure Mark where
  /-- Transmit stamps of markers sent here, by header SEQ, newest first. -/
  sent : List (Nat × Nat) := []
  /-- The partner's latest marker: header SEQ, its transmit stamp, our receive stamp. -/
  last : Option (Nat × Nat × Nat) := none
  /-- Twice θ and twice d of the latest complete set of four stamps, in 1/128 ns; none before one. -/
  theta2 : Option (Int × Int) := none
  /-- Sums of twice θ and twice d over the complete sets so far, and how many they are (R208). -/
  sumT : Int := 0
  sumD : Int := 0
  sets : Nat := 0
  asym : Int := 0
  /-- α̂ not yet computed by closure. -/
  isNew : Bool := true
  pstate : Nat := 0
  phops : Nat := 255
  pepoch : Nat := 0
  /-- Consecutive measurement periods with a valid marker, up to 3, and the `up` instant of the latest. -/
  run : Nat := 0
  at_ : Nat := 0
  /-- P_FILL: f and ph. -/
  fill : Nat := 0
  ph : Nat := 0
  deriving DecidableEq, Repr

/-- The Osden clock, its epochs and the pulse inputs and outputs of TIM. -/
structure Tim where
  epoch : Nat := 0
  sec : Nat := 0
  ns : Nat := 0
  /-- 2^−32 ns. -/
  frac : Nat := 0
  /-- Elapsed ticks of the 1 GHz count since power good, in ns. -/
  up : Nat := 0
  set : Bool := false
  /-- The first instant of the present epoch here, and of the ones before it, newest first (R61). -/
  epStart : Stamp := ⟨0, 0, 0⟩
  epOlds : List Stamp := []
  /-- The latest epoch change's reading of an instant less the old epoch's (Δ of R151), in 1/1024 ns. -/
  epShift : Int := 0
  inserv : Bool := false
  /-- The held announcement and a later one behind it (R218). -/
  ann : Option EpAnn := none
  ann2 : Option EpAnn := none
  /-- The announcement comes of a TOD write (TOD_APPLIED is due at t_e). -/
  annTod : Bool := false
  /-- A second cause waits for the next announcement (R216, R218): its Δ in ns, and whether it comes of a TOD write. -/
  waitEp : Bool := false
  waitDelta : Int := 0
  waitTod : Bool := false
  /-- An adoption under R217 is under way: the epoch number to take, and the port whose sender has it, 31 for the present source. -/
  adopt : Option Nat := none
  adoptPort : Nat := 31
  /-- Offset of an applied TOD still to be slewed off, in 2^−32 ns, local minus true (R214). -/
  slew : Int := 0
  /-- STAT.EP_REQ, and the offset held until the new epoch in 1/256 ns (R216). -/
  epReq : Bool := false
  heldOff : Option Int := none
  ppsQ : Bool := false
  ppsLock : Bool := false
  /-- Consecutive |e| < 10 ns and > 100 ns on PPS (R213). -/
  ppsLockCnt : Nat := 0
  ppsBadCnt : Nat := 0
  todPend : Bool := false
  todErr : Nat := 0
  /-- The latest PPS_IN edge: seconds and nanoseconds. -/
  pps : Nat × Nat := (0, 0)
  ppsAny : Bool := false
  ppsOff : Int := 0
  ppsMiss : Nat := 0
  ppsEdges : Nat := 0
  /-- Consecutive well-spaced and consecutive badly spaced edges, and consecutive offsets beyond 1 ms. -/
  ppsRun : Nat := 0
  ppsBad : Nat := 0
  ppsFar : Nat := 0
  /-- The second that the latest PPS_IN edge stands for, by the count of edges since the last applied TOD (R213). -/
  ppsSec : Option Nat := none
  /-- PPS_OUT level, and the `up` instant of its latest rise. -/
  ppsOut : Bool := false
  ppsRise : Nat := 0
  deriving DecidableEq, Repr

/-- Closure of one ring, at a terminating manager or a member (R208–R210). -/
structure Clos where
  rounds : Nat := 0
  done : Bool := false
  susp : Bool := false
  run : Bool := false
  /-- Consecutive rounds within 1 ns. -/
  good : Nat := 0
  ec : Int := 0
  /-- Per hop: the round's θ and d (1/128 ns), α̂ in use, and whether α̂ has been computed. -/
  hops : FMap (Option (Int × Int)) := []
  alpha : FMap Int := []
  old : FMap Bool := []
  /-- Where the round's means begin: the sums of the own hop's marks (twice θ, twice d, sets) and of the duplex link's (twice θ, sets). -/
  base : Int × Int × Nat := (0, 0, 0)
  dupBase : Int × Nat := (0, 0)
  deriving DecidableEq, Repr

/-- The servo (R198–R210). -/
structure Srv where
  state : Nat := 0
  src : Nat := 31
  hops : Nat := 255
  lockcnt : Nat := 0
  /-- Consecutive measurements beyond 100 ns. -/
  farcnt : Nat := 0
  switches : Nat := 0
  /-- Latest e in 1/128 ns. -/
  offset : Int := 0
  /-- y and i in units of 2^−32. -/
  y : Int := 0
  i : Int := 0
  gains : Word := 0x28261400
  marks : FMap Mark := []
  /-- By ring key, KIND × 8 + NUM. -/
  clos : FMap Clos := []
  /-- Phase errors of the two synthesisers, 1/128 ns, consecutive bad and good comparisons, and their episodes (R134). -/
  synErr : Int × Int := (0, 0)
  synBad : Nat × Nat := (0, 0)
  synGood : Nat × Nat := (0, 0)
  /-- The tick comes from a forwarded clock (R206). -/
  fwdClk : Bool := false
  deriving DecidableEq, Repr

/-! ## Ronnyx lanes (09_ronnyx_lanes) -/

/-- A block as a port sends it: TYPE without the R bit, payload words. -/
structure TxBlk where
  typ : Nat
  words : List W128
  deriving DecidableEq, Repr

/-- A port's lane (R226–R247). -/
structure Lane where
  state : Nat := 0
  rate : Nat := 0
  slock : Bool := false
  block : Bool := false
  /-- The level of the LOS ball, and STAT.LOS as class, use and LOS_INV have it (R246, R247).
  Log 83 (DESIGN CHOICE) says the level at reset. -/
  losPin : Bool := false
  los : Bool := false
  fclk : Bool := false
  wg : Bool := false
  stepfail : Bool := false
  peerRates : Nat := 0
  target : Nat := 0
  peakCur : Nat := 0
  peakRef : Nat := 0
  cv : Nat := 0
  hdr : Nat := 0
  crc : Nat := 0
  replays : Nat := 0
  lockloss : Nat := 0
  stepfails : Nat := 0
  wander : Nat := 0
  eberr : Nat := 0
  skipadj : Nat := 0
  fill : Nat := 0
  txblk : Word := 0
  rxblk : Word := 0
  lfeat : Nat := 0
  /-- Valid headers counted in block hunt (R235). -/
  hunt : Nat := 0
  /-- Of the last 16 expected headers, a 1 for each invalid one, newest lowest. -/
  hist : Nat := 0
  /-- SEQ of the latest valid header. -/
  rxSeq : Option Nat := none
  /-- Dropping CTRL and DATA until a block with R = 1 (R237); the first missing SEQ. -/
  missing : Option Nat := none
  /-- Discards within the last millisecond, as `up` instants. -/
  discards : List Nat := []
  /-- The latest accepted block was IDLE (R239). -/
  idleRx : Bool := false
  /-- An EIDLE block has been received since the port was up (R240). -/
  eidleRx : Bool := false
  /-- Valid headers since the idle exit began, and whether a capability block that matches has come (R240). -/
  exitHdrs : Nat := 0
  exitCap : Bool := false
  txSeq : Nat := 0
  /-- On a duplex port: blocks accepted here of which the other port's copy has not come, by SEQ, TYPE and words (R255). -/
  copies : List (Nat × Nat × List W128) := []
  /-- Blocks sent since the lane left off: the number of the next one; its low eight bits run with SEQ. -/
  txN : Nat := 0
  /-- Place in the 20-slot frame (R278) and blocks since the last skip pair (R231). -/
  slot : Nat := 0
  skip : Nat := 0
  /-- The last 128 replayable blocks, newest first, each with its number among the blocks sent (R237). -/
  kept : List (Nat × TxBlk) := []
  /-- Blocks to resend, the first with R = 1. -/
  resend : List TxBlk := []
  resendFirst : Bool := false
  /-- The capability block that goes first after an idle exit (R240). -/
  lead : Option TxBlk := none
  /-- Blocks that take the next slot (R279), the control reserve, and the class streams. -/
  urgent : List TxBlk := []
  ctl : List TxBlk := []
  strA : List W128 := []
  /-- By class: words received of a segment that is not whole yet; words of the segment under way still to be sent (R276). -/
  rxSeg : FMap (List W128) := []
  segOut : FMap Nat := []
  strB : List W128 := []
  strC : List W128 := []
  /-- A new segment must start in the next data block of each class (R276). -/
  xn : Nat := 0
  /-- The partner's latest exchange number. -/
  rxXn : Option Nat := none
  /-- The step operation under way (R244): STEP_OP last sent, whether this end has switched to the rate under trial, the rates that failed (twice for a second failure), the highest that succeeded. -/
  stepOp : Nat := 0
  switched : Bool := false
  failed : List Nat := []
  okRate : Option Nat := none
  /-- GO_OK goes out in the next CAP block. -/
  goOk : Bool := false
  /-- Running disparity of the transmitter and of the receiver (R227), true for positive; the code violations among the last 64 symbols, a 1 each, newest lowest (R235).
  Log 75 (PRESUMED). -/
  txRd : Bool := false
  rxRd : Bool := false
  cvHist : Nat := 0
  /-- The PRBS-7 generator of the idle pairs (R228). -/
  prbs7 : Nat := 127
  /-- TX_DISABLE, of chain ports (R21, R246). -/
  txDis : Bool := true
  /-- The PRBS-31 generators (R433) of the transmitter and the receiver. -/
  prbsTx : Nat := 2 ^ 31 - 1
  prbsRx : Nat := 2 ^ 31 - 1
  deriving DecidableEq, Repr

/-! ## Rings and the Leash (10_rings_and_leash) -/

/-- A ring as RING_STAT shows it (R269): broken hops, breaks seen. -/
structure Ring where
  broken : List Nat := []
  breaks : Nat := 0
  /-- Hops at which this member itself wraps (R251). -/
  wraps : List Nat := []
  deriving DecidableEq, Repr

/-- The Leash and the service operation (R255–R269). -/
structure Lsh where
  lrole : Nat := 0
  current : Bool := false
  dupUp : Bool := false
  /-- When the referee last answered a renewal or a request (R269). -/
  refAt : Option Nat := none
  req : Bool := false
  hoPend : Bool := false
  term : Nat := 0
  renew : Nat := 0
  jseq : Nat := 0
  /-- Instant (`up`, ns) of the latest counted renewal (holder) or renewal seen (standby). -/
  sinceAt : Option Nat := none
  /-- When the holder last renewed (R258). -/
  renewAt : Option Nat := none
  /-- Sending instants of renewals not yet counted, by number. -/
  sentAt : List (Nat × Nat) := []
  takeovers : Nat := 0
  lapses : Nat := 0
  refusals : Nat := 0
  /-- P in force in ms; at a partner told a new PERIOD, until when the longer of the two holds (R266). -/
  period : Nat := 10
  perAt : Option Nat := none
  /-- Journal entries sent and not acknowledged, by number (R257). -/
  jout : List (Nat × JEntry) := []
  /-- This unit has the pair's state since power-on, as holder or by a resync; a snapshot is arriving (R265). -/
  synced : Bool := false
  snap : Bool := false
  /-- The holder last announced of each segment's pair (R263): hub and term. -/
  holders : FMap (Nat × Nat) := []
  /-- Referee's record (R259): for each pair (segment), which unit's renewal it acknowledged last (hub), when, the highest term, and an open request (hub). -/
  pairs : List (Nat × Nat × Nat × Nat) := []
  open_ : List (Nat × Nat) := []
  /-- A YIELD has been sent or received and the handoff is not complete (R264). -/
  handoff : Bool := false
  rings : FMap Ring := []
  svcState : Nat := 0
  svcErr : Nat := 0
  svcHub : Nat := 0
  svcTx : Nat := 0
  /-- On the worker under removal: t_x, and whether it has stopped (R267). -/
  stopAt : Option Nat := none
  stopped : Bool := false
  deriving DecidableEq, Repr

/-! ## Delivery (11_delivery) -/

/-- An item kept in the Kennel (R296–R298): its first sequence number, how many numbers it takes, the item, the instant it was written, whether it has been sent. -/
structure KItem where
  seq : Nat
  span : Nat
  item : Item
  at_ : Nat
  sent : Bool
  deriving DecidableEq, Repr

/-- An open run of one slot (R63, R64): rate code, first sample's instant, samples so far, the `up` instant of the first. -/
structure OpenRun where
  slot : Nat
  rate : Nat
  t : Stamp
  samples : List Word
  at_ : Nat
  deriving DecidableEq, Repr

/-- A contract here: its entry, its state (R303), and the source side's numbers, Kennel, runs and ANCHOR state. -/
structure ConSt where
  ent : Option Contract := none
  state : Nat := 0
  err : Nat := 0
  isSrc : Bool := false
  isMerge : Bool := false
  isRelay : Bool := false
  isCons : Bool := false
  bound : Nat := 0
  startSec : Option Nat := none
  endSec : Option Nat := none
  next : Nat := 0
  ack : Nat := 0
  kennel : List KItem := []
  runs : List OpenRun := []
  /-- Items ready and not yet numbered, in key order (R275). -/
  ready : List Item := []
  /-- An ANCHOR of this reason is due before the next record (R60). -/
  anchorDue : Option Nat := none
  /-- The instant of the latest ANCHOR. -/
  lastAnchor : Option Stamp := none
  lastAckUp : Nat := 0
  /-- Words that may be sent now under R277, and since when. -/
  tokens : Nat := 0
  tokAt : Nat := 0
  /-- The latest horizon this hub put into it (R284). -/
  hz : Option Stamp := none
  /-- M + H + Q + F of the stage that merges it here (R282), in picoseconds. -/
  wait : Nat := 0
  deriving DecidableEq, Repr

/-- Why an input is capped (R286). -/
inductive CapWhy where
  | none | hole | stale | stall | takeover
  deriving DecidableEq, Repr

/-- An input of the merger here (R285): device, contract, its state, numbers, horizon and held items. -/
structure MIn where
  dev : Nat
  con : Nat
  absent : Bool := false
  cap : CapWhy := .none
  /-- When the cap was put on (`up`). -/
  capAt : Nat := 0
  expected : Nat := 0
  /-- Items below this number have been handed over. -/
  handed : Nat := 0
  mack : Nat := 0
  horizon : Option Stamp := none
  /-- Key of the last item received: instant, source. -/
  last : Option (Stamp × Nat) := none
  held : List (Nat × Item) := []
  /-- Something new has been handed over since the last ACK. -/
  fresh : Bool := false
  deriving DecidableEq, Repr

/-- What an ANCHOR of a device said (R57): its epoch, its high seconds, its SEC. -/
structure Anchor where
  epoch : Nat
  secHi : Nat
  secAt : Nat
  deriving DecidableEq, Repr

/-- The ANCHORs from which a consumer rebuilds the keys of a device's records (R57). -/
structure Anchors where
  cur : Option Anchor := none
  prev : Option Anchor := none
  deriving DecidableEq, Repr

/-- The merger, the Kennel and the contract tables (R271–R305). -/
structure Del where
  cons : FMap ConSt := []
  ins : List MIn := []
  /-- Released horizon by class (R286): A 1, B 2, C 3. -/
  hz : FMap (Option Stamp) := []
  /-- The latest ANCHORs of each device (R57), by its number. -/
  anchors : FMap Anchors := []
  /-- Key of the last item handed over, by class. -/
  lastOut : FMap (Option (Stamp × Nat)) := []
  late : Nat := 0
  rept : Nat := 0
  hole : Nat := 0
  absent : Nat := 0
  /-- Merge part in MiB (R297), none for the role's default. -/
  mergeMiB : Option Nat := none
  gaps : Nat := 0
  retx : Nat := 0
  gapItems : Word := 0
  lossCon : Nat := 0
  lossFirst : Nat := 0
  lossCount : Nat := 0
  deriving DecidableEq, Repr

/-! ## Delivery queues (12_queues) -/

/-- A delivery queue QD0–QD15 (R307–R320). -/
structure Que where
  en : Bool := false
  prod : Nat := 0
  pnum : Nat := 0
  cons : Nat := 0
  cnum : Nat := 0
  base : Nat := 0
  size : Nat := 64
  err : Nat := 0
  /-- Committed packets, oldest first; the words already taken from the first are gone. -/
  pkts : List (List W128) := []
  /-- The first packet has lost words to the reader. -/
  headCut : Bool := false
  /-- Words of the open item, in order; none while no item is open. -/
  open_ : Option (List W128) := none
  /-- The rest of the open item is dropped (R319). -/
  dropping : Bool := false
  /-- The requester that owns the driver's open item (R312). -/
  owner : Nat := 0
  underrun : Bool := false
  flushing : Bool := false
  pend : Nat := 0
  ncoal : Nat := 1
  coalT : Nat := 0
  hwm : Nat := 0x7FFFF
  latch : Bool := false
  chk : Bool := false
  miss : Bool := false
  x : Bool := false
  epis : Nat := 0
  peak : Nat := 0
  wm : Nat × Nat := (0, 0)
  cntUnder : Nat := 0
  cntRewind : Nat := 0
  flPkts : Nat := 0
  itemDrop : Nat := 0
  flWords : Word := 0
  /-- The read latch and RINFO. -/
  rd : W128 := 0
  rValid : Bool := false
  rFirst : Bool := false
  rLast : Bool := false
  rFlushed : Bool := false
  /-- A flush since the previous RDW0 read. -/
  flushedSince : Bool := false
  left : Nat := 0
  wr : W128 := 0
  wDropped : Bool := false
  wNoItem : Bool := false
  wOwner : Bool := false
  wFull : Bool := false
  deriving DecidableEq, Repr

/-! ## Host ports (15_host_ports) -/

/-- A descriptor read from the ring: buffer address and size in words (R380). -/
structure Desc where
  addr : Nat
  bufw : Nat
  bad : Bool
  deriving DecidableEq, Repr

/-- A host ring HR0–HR15 (R379–R386). -/
structure Hr where
  baseLo : Word := 0
  baseHi : Word := 0
  cfg : Word := 0x04010500
  tail : Nat := 0
  head : Nat := 0
  wbLo : Word := 0
  wbHi : Word := 0
  state : Nat := 0
  err : Nat := 0
  /-- Descriptors read ahead, oldest first. -/
  descs : List Desc := []
  /-- Descriptors asked for in the read request under way. -/
  asked : Nat := 0
  /-- Items in the open descriptor, oldest first. -/
  inbuf : List HrItem := []
  /-- When the first of them was written, or filling last resumed (`up`, ns; R381, R386). -/
  openAt : Nat := 0
  /-- Items the ring holds back with no descriptor or no bus, oldest first. -/
  wait : List HrItem := []
  notice : Nat := 0
  /-- When the oldest completion not yet noticed came (`up`, ns; R385). -/
  noteAt : Nat := 0
  /-- Stopped by QUIESCE. -/
  quiet : Bool := false
  deriving DecidableEq, Repr

/-- The PCI Express function (R374–R398). -/
structure Pci where
  quiesce : Bool := false
  bme : Bool := false
  d3 : Bool := false
  speed : Nat := 0
  width : Nat := 0
  downs : Nat := 0
  badacc : Nat := 0
  descErr : Nat := 0
  rings : FMap Hr := []
  /-- MSI-X mask and pending bits by vector (R378). -/
  mask : Nat := 2 ^ 64 - 1
  pba : Nat := 0
  deriving DecidableEq, Repr

/-- A reply of the framed serial port (R388): ALIVE_RP, ECHO, body. -/
structure FspReply where
  rp : Nat
  echo : Nat
  body : List Byte
  /-- SSEQ of the stream words it carries. -/
  sseq : Option Nat
  deriving DecidableEq, Repr

/-- The framed serial port (R387–R399). -/
structure Fsp where
  len : Nat := 512
  /-- A length that waits: true while it waits for the reply to the FSP's own request. -/
  lenNext : Option (Nat × Bool) := none
  busy : Bool := false
  rq : Nat := 0
  rp : Nat := 0
  /-- Any ALIVE_RQ is accepted next (R390). -/
  anyAlive : Bool := true
  reply : Option FspReply := none
  fe : Bool := false
  ce : Bool := false
  ae : Bool := false
  ovf : Bool := false
  cmd : Bool := false
  rst : Bool := true
  disc : Nat := 0
  good : Nat := 0
  discCnt : Nat := 0
  crcCnt : Nat := 0
  aliveCnt : Nat := 0
  notrdy : Nat := 0
  refused : Nat := 0
  /-- The stream buffer: words with their sequence numbers implied from `snext`, and the lengths of the items they make up, oldest first. -/
  sbuf : List W128 := []
  sitems : List Nat := []
  snext : Nat := 0
  ssent : Nat := 0
  /-- SSEQ of the last reply that carried stream words. -/
  lastSseq : Option Nat := none
  /-- The reply body under construction. -/
  body : List Byte := []
  bodySseq : Option Nat := none
  deriving DecidableEq, Repr

/-! ## Terrier cores (13_terrier_cores) -/

/-- What a Terrier image declares (R339, R442): its body digest, the words of its code and the bytes of its initialised data. -/
structure TImg where
  digest : Nat := 0
  wper : Nat := 0
  cper : Nat := 0
  odest : Nat := 0
  slotLo : Nat := 0
  slotHi : Nat := 0
  keptOff : Nat := 0
  keptLen : Nat := 0
  drain : Nat := 0
  codeLen : Nat := 0
  dataLen : Nat := 0
  deriving DecidableEq, Repr

/-- An item in a core's input buffer (R329): whether it came from a queue, its words still there, its instant. -/
structure InItem where
  fromQ : Bool
  words : List W128
  t : Option Stamp
  deriving DecidableEq, Repr

/-- Why a core waits (R336): for a WAIT mask, for a word of RECV into two registers, for space for a word of SEND or SENDL. -/
inductive TWait where
  | none
  | mask (m : Nat)
  | recv (d b : Nat)
  | send (w : W128) (last : Bool)
  deriving DecidableEq, Repr

/-- A shadow run (R343), kept by the live core: the donor, the windows run, the two outputs not yet compared, the ends reached. -/
structure Shad where
  donor : Nat := 0
  startAt : Nat := 0
  endAt : Nat := 0
  started : Bool := false
  runs : Nat := 0
  mism : Nat := 0
  ovr : Nat := 0
  flt : Nat := 0
  liveOut : List (List W128) := []
  donorOut : List (List W128) := []
  liveEnd : Bool := false
  donorEnd : Bool := false
  deriving DecidableEq, Repr

/-- The header fields of an image that stay of use (R442). -/
structure Hdr where
  kind : Nat := 0
  ifver : Nat := 0
  digest : Nat := 0
  feat : Nat := 1
  care : Nat := 1
  req : Nat := 1
  tw : List Nat := []
  deriving DecidableEq, Repr

/-- A Terrier core TC0–TC15 (R321–R347). -/
structure Tc where
  state : Nat := 0
  bank : Nat := 0
  pc : Nat := 0
  /-- v1–v31; v0 reads as zero. -/
  regs : FMap W128 := []
  img : Option TImg := none
  wait : TWait := .none
  wPend : Bool := false
  cPend : Bool := false
  /-- An overrun since the last TRIG. -/
  ovrSince : Bool := false
  /-- The latest window boundary. -/
  bound : Stamp := ⟨0, 0, 0⟩
  /-- The cap of HZN. -/
  cap : Option Stamp := none
  /-- The output horizon, which never decreases (R333). -/
  ho : Stamp := ⟨0, 0, 0⟩
  inb : List InItem := []
  /-- The next word is the first of its item. -/
  inFirst : Bool := true
  outb : Option (List W128) := none
  /-- The rest of the open item is dropped (R332, R334). -/
  outDrop : Bool := false
  rew : Bool := false
  drop : Bool := false
  ref : Bool := false
  /-- Instant of the latest item of each slot (R332). -/
  lastKey : FMap (Option Stamp) := []
  faultCode : Nat := 0
  faultPc : Nat := 0
  /-- A fault has stopped the program until the next window boundary; consecutive windows with a fault (R344). -/
  faulted : Bool := false
  faultWins : Nat := 0
  cntOvr : Nat := 0
  cntFaults : Nat := 0
  cntRew : Nat := 0
  cntRef : Nat := 0
  cntDisc : Nat := 0
  cntSw : Nat := 0
  /-- Cycles that issued in this window, LOAD's last and peak. -/
  issued : Nat := 0
  load : Nat := 0
  peak : Nat := 0
  fpf : Nat := 0
  /-- Words written into the standby bank, and whether one was discarded (R346). -/
  stLen : Nat := 0
  stBad : Bool := false
  pend : Bool := false
  err : Nat := 0
  pendImg : Option TImg := none
  /-- The header of the pending image, under which it pairs at its switch (R453). -/
  pendHdr : Hdr := {}
  /-- The switch waits for the activation second (R340 check 3). -/
  pendSlice : Bool := false
  /-- The switch boundary, in ns of the epoch (R341), and the `up` instant at which the drain ends. -/
  switchAt : Option Nat := none
  drainUp : Option Nat := none
  shadow : Option Shad := none
  shDone : Bool := false
  shStat : Nat := 0
  /-- The live core this core is a donor for. -/
  donorOf : Option Nat := none
  /-- The previous image, still in the standby bank, and the `up` instant of the latest switch (R455). -/
  prev : Option TImg := none
  /-- The header of the previous image, and whether the pending image is a last-good one (R449). -/
  prevHdr : Hdr := {}
  pendLg : Bool := false
  swUp : Option Nat := none
  deriving DecidableEq, Repr

/-! ## Services (14_plant_services) -/

/-- A comparator (R348–R351): in alarm, consecutive samples counted, the `up` instant it entered. -/
structure Cmpr where
  alarm : Bool := false
  cnt : Nat := 0
  at_ : Nat := 0
  deriving DecidableEq, Repr

/-- The alarm unit of a channel: thresholds, comparators, entries into alarm (R372). -/
structure AlarmCh where
  thr1 : Word := 0
  thr2 : Word := 0
  hys : Word := 0
  c1 : Cmpr := {}
  c2 : Cmpr := {}
  entries : Nat := 0
  deriving DecidableEq, Repr

/-- A reflex rule (R353): committed words, condition, active output, when its pulse ends (`up`, ns), fires, error of its last commit. -/
structure Rule where
  a : Word := 0
  b : Word := 0
  cond : Bool := false
  active : Bool := false
  till : Nat := 0
  fires : Nat := 0
  err : Nat := 0
  deriving DecidableEq, Repr

/-- A DIN pin (R219, R356): configuration, ball level, edges and lost edges, the latest stamp and whether it rose. -/
structure Din where
  cfg : Word := 0
  ball : Bool := false
  /-- The level after INV as the services last saw it; a pin with EN = 0 shows them nothing new (R357). -/
  level : Bool := false
  /-- When the edges held will all be stamped (`up`, ns), one each 100 ns (R219). -/
  busyTo : Nat := 0
  edges : Nat := 0
  lost : Nat := 0
  last : Stamp := ⟨0, 0, 0⟩
  rise : Bool := false
  deriving DecidableEq, Repr

/-- A queued schedule (R220): its instant in its epoch, the period in ns (0 one-shot), the width in 100 ns, the action, and the second half of a pulse. -/
structure Sched where
  t : Stamp
  per : Nat
  pw : Nat
  act : Nat
  deriving DecidableEq, Repr

/-- A TOUT pin (R220, R358): OWNER and POL, logical state, queue by instant, the end of a pulse under way. -/
structure Tpin where
  cfg : Word := 0
  state : Bool := false
  q : List Sched := []
  err : Nat := 0
  late : Nat := 0
  edges : Nat := 0
  deriving DecidableEq, Repr

/-- An order track (R359–R362, R369). -/
structure Track where
  cfg0 : Word := 0x00078000
  cfg1 : Word := 0
  stall : Nat := 100
  state : Nat := 0
  err : Nat := 0
  spd : Word := 0
  revs : Nat := 0
  susp : Nat := 0
  /-- Edges since e_0, as stamps, oldest first; how many were dropped from the front. -/
  edges : List Stamp := []
  base : Nat := 0
  /-- Angle samples produced. -/
  j : Nat := 0
  /-- The input channel's fine records, oldest first. -/
  ins : List Item := []
  /-- Angle-0 instant of the revolution under way. -/
  rev0 : Option Stamp := none
  deriving DecidableEq, Repr

/-- A parcel followed by a weigh section (R363): its eye instants, and the next entry-eye block where that came before t2. -/
structure Parcel where
  t0 : Stamp
  t1 : Option Stamp := none
  t2 : Option Stamp := none
  cut : Option Stamp := none
  deriving DecidableEq, Repr

/-- A record of a load-cell channel (R363): channel, instant, code, range, FLAGS. -/
structure CellRec where
  slot : Nat
  t : Stamp
  code : Int
  range : Nat
  flags : Nat
  deriving DecidableEq, Repr

/-- A weigh section (R363–R366, R369). -/
structure Sect where
  cfg : Word := 0x0003E000
  ch01 : Word := 0
  ch23 : Word := 0
  time : Word := 0x003200C8
  gain : Word := 0
  spd : Word := 0
  tare : Word := 0
  hasTare : Bool := false
  parcels : Nat := 0
  flagged : Nat := 0
  werr : Nat := 0
  /-- Parcels whose records are pending, oldest first; how many parcels stand on the section; the start of an empty span, and a span that has ended and awaits its last records. -/
  on : List Parcel := []
  inside : Nat := 0
  span0 : Option Stamp := none
  spanned : Option (Stamp × Stamp) := none
  /-- Records of the section's channels, oldest first. -/
  recs : List CellRec := []
  deriving DecidableEq, Repr

/-- The services. -/
structure Svc where
  alarms : FMap AlarmCh := []
  rules : FMap Rule := []
  dins : FMap Din := []
  touts : FMap Tpin := []
  tracks : FMap Track := []
  sects : FMap Sect := []
  deriving DecidableEq, Repr

/-! ## Firmware (18_firmware) -/

/-- A pair with the supervisor (R448): MODE, LG, partner's interface version, in-force word. -/
structure Pair where
  mode : Nat := 0
  lg : Bool := false
  ifver : Nat := 0
  feat : Nat := 1
  deriving DecidableEq, Repr

/-- A copy of the boot record (R445): whether its CRC matches, SEQ, ACTIVE, the last-good table by target. -/
structure Boot where
  ok : Bool := false
  seq : Nat := 0
  active : Nat := 0
  table : List (Nat × Nat) := []
  deriving DecidableEq, Repr

/-- Images and the flash window (R442–R458). -/
structure Fwl where
  state : Nat := 0
  bank : Nat := 0
  alt : Bool := false
  err : Nat := 0
  /-- The running supervisor image, none while no valid image runs, and the staged one. -/
  run : Option Hdr := none
  staged : Option Hdr := none
  cntUn : Nat := 0
  cntRef : Nat := 0
  hdrBuf : List Byte := []
  page : List Byte := []
  /-- A flash operation under way: 1 program, 2 erase, and its address. -/
  flOp : Option (Nat × Nat) := none
  flErr : Nat := 0
  /-- The handover goes back to the previous image. -/
  back : Bool := false
  pairs : FMap Pair := []
  /-- The headers of the partners in force. -/
  hdrs : FMap Hdr := []
  /-- Last-good digests to be written at the next boot-record write (R448). -/
  good : List (Nat × Nat) := []
  boots : List Boot := []
  /-- The supervisor island restarts under the watchdog. -/
  wdogDown : Bool := false
  deriving DecidableEq, Repr

/-! ## Self-test (17_self_test) -/

/-- An island (R430–R436): consecutive abandonments of its pending slice, abandonments, slices done this cycle, the pending slice, a mismatch to repeat, a slice forced. -/
structure Isl where
  abn : Nat := 0
  abandons : Nat := 0
  done : Nat := 0
  slice : Nat := 0
  retry : Bool := false
  forced : Bool := false
  failed : Bool := false
  deriving DecidableEq, Repr

/-- Self-test (R430–R441). -/
structure Bst where
  state : Nat := 0
  isl : Nat := 0
  slice : Nat := 0
  cycles : Nat := 0
  slices : Nat := 0
  abandon : Nat := 0
  forced : Nat := 0
  fails : Nat := 0
  lastIsl : Nat := 0
  lastSlice : Nat := 0
  lastSig : Word := 0
  lastGold : Word := 0
  isls : FMap Isl := []
  /-- The group islands with a slice on their relief. -/
  running : List Nat := []
  /-- When the latest paced slice began, and when the coverage cycle began, as `up` instants (R435). -/
  lastStart : Option Nat := none
  cycAt : Nat := 0
  /-- The analogue check under way: its group and MODE. -/
  achkBusy : Bool := false
  achkGrp : Nat := 0
  achkMode : Bool := false
  achkErr : Nat := 0
  achkConv : Nat := 0
  achkRes : Nat := 0
  achkRng : FMap Word := []
  achkExc : Nat := 0
  deriving DecidableEq, Repr

/-! ## Power (19_power_and_start) -/

/-- Power, standby and start-up (R459–R477). The fields of the standby domain outlive a full reset. -/
structure Pwr where
  /-- Power good. -/
  good : Bool := false
  state : Nat := 0
  err : Nat := 0
  rst : Nat := 0
  retOk : Bool := false
  wdog : Nat := 0
  /-- PWR.SUP. -/
  sup : Nat := 0
  anaLost : Bool := false
  tj : Int := 0
  tjPeak : Int := 0
  /-- START0–START3: step and ms. -/
  starts : FMap Nat := []
  /-- The park instant t_p in ns of the epoch. -/
  tp : Option Nat := none
  /-- The park instant has passed: the services that read physical channels stand still. -/
  stopped : Bool := false
  /-- An unpark waits for the end of the parking. -/
  unparkWait : Bool := false
  /-- The thermal reset holds. -/
  hot : Bool := false
  /-- The converters have been checked since power good or unpark. -/
  convOk : Bool := false
  /-- Chains run: the sampling instant t_s in ns of the epoch. -/
  sampling : Option Nat := none
  /-- Standby domain: counter, retained bytes, WAKE, SUP_EN. -/
  sbSec : Nat := 0
  sbNs : Nat := 0
  ret : FMap Byte := []
  reason : Nat := 3
  supEn : Bool := false
  sealed : Bool := false
  /-- The reason of a wake that arose before SUP_EN fell. -/
  wakePend : Option Nat := none
  deriving DecidableEq, Repr

/-! ## Channels (03_channel_inputs, 05_decimation)

Instants of windows are integers in 1/1024 ns of the present epoch: a modulator period of a general converter is 500,000 of them. -/

/-- A coarse sample kept for Q records (R54): its corrected instant, its stamp, its code, whether it carries O. -/
structure CoarseS where
  at_ : Int
  stamp : Stamp
  code : Int
  /-- The range of the code. -/
  range : Nat
  o : Bool
  deriving DecidableEq, Repr

/-- A complete fine record waiting for its release (R94, R146, R147): the record without B, its window, its RATE code, the earliest release in 1/1024 ns, and the first without H and Q after a rate change or re-grid. -/
structure ReadyRec where
  item : Item
  w0 : Int
  w1 : Int
  rate : Nat
  rel : Int
  first : Bool
  deriving DecidableEq, Repr

/-- A span of H and Q records (R85, R126, R149): a record belongs to it when its window starts before `upTo` and, with `byT`, its instant, else its window's end, lies at or after `since`. -/
structure Settle where
  byT : Bool
  since : Int
  upTo : Int
  deriving DecidableEq, Repr

/-- A point of a calibration table (R183): temperature in 1/16 °C, o, g and s as binary32, factory. -/
structure GPoint where
  temp : Int
  o : Word
  g : Word
  s : Word
  fac : Bool
  deriving DecidableEq, Repr

/-- A physical channel: slots 0–319. -/
structure Chan where
  /-- ENTRY0–ENTRY3 in effect, and as committed last (R100–R102). -/
  w : List Word := [0x00110000, 0x38000000, 0, 0x03196400]
  com : List Word := [0x00110000, 0x38000000, 0, 0x03196400]
  busy : Bool := false
  /-- ENTRY1 for records before the rate boundary, the boundary and the end of the old chain (R149). -/
  old1 : Word := 0x38000000
  tb : Option Int := none
  tr : Option Int := none
  /-- FILT_STAT bits (R153), and RATE_SET due at the first clean record. -/
  settle : Bool := false
  pendF : Bool := false
  rateSet : Bool := false
  spans : List Settle := []
  /-- The next record carries H; the first record at or after each of these instants carries C, with whether a calibration table is its cause. -/
  hDue : Bool := false
  cAt : List (Int × Bool) := []
  /-- What records before an instant still use, oldest instant first: ENTRY2 and coefficients (R181, R182), the table of a converter and range (R191), the lead voltage in nV (R75, R102), the range before a hard switch (R126). -/
  linOld : List (Int × Word × List Word) := []
  tabOld : List (Int × Nat × Nat × List GPoint) := []
  leadsOld : List (Int × Frac) := []
  rngOld : List (Int × Nat) := []
  /-- A re-grid whose new records have not begun (R151, R153). -/
  regr : Bool := false
  /-- The bias last measured in mV (R84). -/
  bias : Nat := 0
  /-- A hard switch decided: its instant and range (R126); the instant of the latest one. -/
  swTo : Option (Int × Nat) := none
  swAt : Option Int := none
  /-- The coarse sample whose window contains this instant is not produced (R149, R151). -/
  skipAt : Option Int := none
  /-- The range in force. -/
  range : Nat := 0
  /-- The duty converter and the converter of the coarse stream, none where the channel has lost its own (R106, R128). -/
  duty : Option Nat := none
  coarse : Option Nat := none
  /-- Open input (R89–R97): state, break instant, the end that closes it, consecutive samples at and off the rail, the end of the first of those off it. -/
  isOpen : Bool := false
  brk : Option Int := none
  brkEnd : Option Int := none
  rail : Nat := 0
  /-- Consecutive samples with A at compliance, or the bias above its threshold (R89). -/
  mon : Nat := 0
  off : Nat := 0
  offEnd : Int := 0
  biasLow : Nat := 0
  short : Bool := false
  stale : Bool := false
  prot : Bool := false
  /-- EPIS (R99), and the causes whose latch this channel holds. -/
  epis : Nat := 0
  latched : Word := 0
  /-- Spans in which a clamp conducts (R88); the last may be open. -/
  clamps : List (Int × Option Int) := []
  hist : List CoarseS := []
  ready : List ReadyRec := []
  /-- The instant of the next record not yet produced (R284). -/
  nextT : Option Int := none
  /-- The latest released record without B, O and Q (R179), and a substitution episode under way. -/
  clean : Option (Stamp × Word) := none
  tsub : Bool := false
  /-- Consecutive records that count toward a down-range trigger (R122). -/
  dn : Nat := 0
  /-- The last four lead measurements in nV, newest first, and when the latest was made (R75, R76). -/
  leads : List Int := []
  leadAt : Nat := 0
  /-- The end of the last pulsed window that passed (R95), and whether one began in this frame (R163). -/
  pulseOk : Option Int := none
  windowed : Bool := false
  /-- Frames in a row without a window of a pulsed channel (R163). -/
  missed : Nat := 0
  deriving DecidableEq, Repr

/-! ## Converter groups (04_relief_converters) -/

/-- A range request (R124): channel, target, age, kind (0 up-range, 1 down-range, 2 committed), and whether an incumbent record whose window ends at or after the age carried O (R123). -/
structure RReq where
  ch : Nat
  target : Nat
  age : Int
  kind : Nat
  isOver : Bool := false
  deriving DecidableEq, Repr

/-- An overlap (R111–R123): its channel, kind, target range, the instants of request, connection and settled record, the request it serves, the attempt, and what both chains have produced (instant, code, O). -/
structure Ovl where
  ch : Nat
  range : Bool
  target : Nat
  tq : Int
  tc : Int
  ns : Int
  req : RReq
  /-- 0 first attempt, 1 second, 2 the unchecked third (R117). -/
  attempt : Nat := 0
  /-- The incumbent carried O between the request and the settled record. -/
  overrun : Bool := false
  inc : List (Int × Int × Bool) := []
  rel : List (Int × Int × Bool) := []
  /-- The included differences of R112 in 1/64 code of the wider range, and the check records compared. -/
  diffs : List Int := []
  checked : Nat := 0
  /-- When the coarse stream passes to the relief. -/
  coarseAt : Option Int := none
  deriving DecidableEq, Repr

/-- A reference check of the failed-check procedure (R117): why (1 and 2 the relief after a first and a second failure, 3 the freed incumbent), the converter, the range checked, the handover in progress. -/
structure Chk where
  why : Nat
  conv : Nat
  range : Nat
  ho : Option Ovl
  deriving DecidableEq, Repr

/-- A measured calibration point (R185): converter, range, source (0 shorted, 1 positive, 2 negative), mean and spread in 2^−40 of full scale, when, group temperature. -/
structure CalPt where
  conv : Nat
  range : Nat
  src : Nat
  mean : Frac
  spread : Int
  /-- When its step began and ended (`up`). -/
  since : Nat
  at_ : Nat
  temp : Int
  deriving DecidableEq, Repr

/-- A pulsed window under way (R90, R157, R163): its channel, whether the relief measures it, whether the PULSE under way waits for it. -/
structure PWin where
  ch : Nat
  onRel : Bool
  mine : Bool
  deriving DecidableEq, Repr

/-- A Tattoo sequencer (06_tattoo). -/
structure Tat where
  bank0 : FMap Word := []
  bank1 : FMap Word := []
  bank : Nat := 0
  alen : Nat := 0
  /-- The base program runs (R168). -/
  base : Bool := true
  frame : Nat := 3
  /-- The frame code before a swap, until the first window of the new program has run (R172). -/
  oldFrame : Option Nat := none
  digest : Nat := 0
  next : Nat := 3
  addr : Nat := 0
  stLen : Nat := 0
  isOver : Bool := false
  pend : Bool := false
  pFrame : Nat := 3
  pDigest : Nat := 0
  waitSlice : Bool := false
  swapAt : Option Nat := none
  err : Nat := 0
  cntOvr : Nat := 0
  cntDrop : Nat := 0
  cntSkip : Nat := 0
  cntSwap : Nat := 0
  excMv : Nat := 0
  excUp : Option Nat := none
  /-- The program of this frame: running, its word, the wait under way (units from the frame start), the task word under way, the next word is skipped, open loops (first word of the body, runs left). -/
  run : Bool := false
  pc : Nat := 0
  wait : Option Nat := none
  task : Option Word := none
  skip : Bool := false
  loops : List (Nat × Nat) := []
  /-- The frame's start, and the frame number. -/
  frameAt : Int := 0
  frameNo : Nat := 0
  /-- Channels still to be pulsed by the PULSE under way; the deferred words; a REF or LEAD taken from the list runs. -/
  toPulse : List Nat := []
  deferred : List Word := []
  deferRun : Option Word := none
  /-- Deferrals in this frame (R161), and whether a frame is under way (R163). -/
  defs : Nat := 0
  framed : Bool := false
  /-- Pulsed windows under way (R157, R163). -/
  wins : List PWin := []
  deriving DecidableEq, Repr

/-- A converter group: GG0–GG15 as 0–15, FG0–FG7 as 16–23. -/
structure Group where
  w : Word := 0x00A2E40A
  com : Word := 0x00A2E40A
  busy : Bool := false
  relief : Option Nat := none
  retired : Nat := 0
  /-- The group was gated off and has been powered for a commit (R464): 1 until its converters are checked, 2 until it samples; then the instant, in ns, from which it does. -/
  wake : Nat := 0
  since : Option Nat := none
  /-- RELIEF_STAT: TASK, TARGET, TRANGE, FWIN. -/
  task : Nat := 0
  tgt : Nat := 0
  trange : Nat := 0
  fwin : Bool := false
  q : List RReq := []
  ovl : Option Ovl := none
  /-- The incumbent freed by a changeover, disconnected at INCUMBENT_RELEASE; with `true`, checked at each range first (R117 step 5). -/
  freed : Option (Nat × Bool) := none
  /-- Target of the previous rotation, a channel to retry, a tick that waits. -/
  last : Nat := 31
  retry : Option Nat := none
  rotWait : Bool := false
  hoRot : Nat := 0
  hoRng : Nat := 0
  cancels : Nat := 0
  tolf : Nat := 0
  lastDiff : Int := 0
  chk : Option Chk := none
  /-- Overload intervals (converter, start, end), and MOD_OVL. -/
  ovls : List (Nat × Int × Int) := []
  ovCh : Nat := 0
  ovCnt : Nat := 0
  /-- When HARD was raised last. -/
  hardAt : Option Nat := none
  /-- Excitation (R81). -/
  onLocal : Bool := false
  limit : Bool := false
  excOff : Bool := false
  lock : Bool := false
  retries : Nat := 0
  retryUp : Nat := 0
  iExc : Nat := 0
  offs : List (Int × Option Int) := []
  /-- Group temperature in 1/16 °C (R177), when it came into force, and the one before it. -/
  temp : Int := 0
  tempAt : Int := 0
  tempWas : Int := 0
  camp : Bool := false
  /-- Due ranges of each converter, as bits. -/
  due : FMap Nat := []
  begun : Bool := false
  tref : Int := 0
  trefOk : Bool := false
  camps : Nat := 0
  runs : Nat := 0
  lastRun : Nat × Nat := (0, 0)
  blocked : Bool := false
  blkRaised : Bool := false
  extrap : Bool := false
  pts : List CalPt := []
  /-- Runs rejected once and to be repeated (R186); reference checks of rejected runs under way; tables written by the driver, and when (R191); group temperatures of the last two seconds with when each came into force, the latest first (R186). -/
  again : List (Nat × Nat) := []
  runChks : List (Nat × Nat) := []
  edits : List (Nat × Nat × Nat) := []
  temps : List (Nat × Int) := []
  /-- When the last rotation tick fell (`up`). -/
  tickUp : Nat := 0
  tables : FMap (List GPoint) := []
  tat : Tat := {}
  deriving DecidableEq, Repr

/-- A linearisation slot (R182): coefficients in force, those of a commit still pending, the channels that have not switched. -/
structure Lin where
  cur : List Word := List.replicate 24 0
  pend : Option (List Word) := none
  wait : List Nat := []
  deriving DecidableEq, Repr

/-- What CHW, CAL and the analogue dice hold beside the channels and groups. -/
structure Ana where
  chwErr : Nat := 0
  setErr : Nat := 0
  linErr : Nat := 0
  /-- VALID and FACTORY of the SET window. -/
  setValid : Bool := false
  setFac : Bool := false
  dRuns : Word := 0
  dLast : Nat × Nat := (0, 0)
  dSrc : Nat := 0
  /-- VIEPE in mV as measured last (R84). -/
  viepe : Option Nat := none
  /-- Factory points of production test (R183) by group × 128 + converter × 4 + range, and the production values of the two references in 2^−40 of full scale (R186), by group, 0.9 of full scale where none is listed.
  Log 5 (DESIGN CHOICE). -/
  fac : FMap (List GPoint) := []
  refPos : FMap Int := []
  refNeg : FMap Int := []
  deriving DecidableEq, Repr
/-! ## What the block drives outside (the model's own trace) -/

/-- What a step drove outside the block; nothing in the model reads it. -/
inductive Out where
  /-- A block sent by a port: TYPE with its R bit, SEQ, payload words (R230). -/
  | block (port typ seq : Nat) (words : List W128)
  /-- The skip pair after a port's 20th block (R231). -/
  | skip (port : Nat)
  /-- The training burst (R229). -/
  | burst (port : Nat)
  /-- The tail of electrical idle (R240). -/
  | tail (port : Nat)
  /-- Code-groups sent on a lane, the first first, each of ten bits with its first bit on the line highest (R227). -/
  | line (port : Nat) (groups : List Nat)
  /-- The TX_DISABLE ball of a chain port takes a level (R246). -/
  | txDisable (port : Nat) (level : Bool)
  /-- A payload taken off a port for the hub itself: port, TYPE, words. -/
  | taken (port typ : Nat) (words : List W128)
  /-- One write of buffer data into host memory (R42, R382). -/
  | hostBytes (addr : Nat) (bytes : List Byte)
  /-- A write of one 32-bit word into host memory (R382). -/
  | hostWord (addr : Nat) (w : Word)
  /-- A read request for posted descriptors: ring, first descriptor, count (R383). -/
  | descRead (ring first count : Nat)
  /-- An MSI-X message (R378). -/
  | msix (vector : Nat)
  /-- A register read answered: requester, address, word. -/
  | read (req addr : Nat) (w : Word)
  /-- An Unsupported Request completion (R377). -/
  | unsupported (addr : Nat)
  /-- A frame sent by the framed serial port (R388). -/
  | frame (bytes : List Byte)
  /-- A TOUT ball takes a level (R220, R353). -/
  | tout (n : Nat) (level : Bool)
  /-- PPS_OUT takes a level (R221). -/
  | pps (level : Bool)
  /-- SUP_EN takes a level (R468). -/
  | supEn (level : Bool)
  /-- The analogue dice are powered or unpowered (R465). -/
  | dice (on : Bool)
  deriving DecidableEq, Repr

/-- The state of the hub. -/
structure State where
  /-- The commands that wait, first in, first out. -/
  pending : List Instr := []
  /-- The common headers, by page index (R403). -/
  pages : FMap Page := []
  /-- Plain read-write registers, by address (R13, R15). -/
  rf : FMap Word := []
  /-- Addressed memories: Terrier core n from n × 0x8_0000 (R322), the boot flash from 0x1000_0000 (R445). -/
  mem : FMap Byte := []
  /-- Fuses and production-test values. -/
  fuse : Fuse := {}
  /-- The register fabric, events and features. -/
  fab : Fab := {}
  /-- The plan. -/
  pln : Pln := {}
  /-- Osden time. -/
  tim : Tim := {}
  /-- The servo. -/
  srv : Srv := {}
  /-- The lanes, by port 0–23. -/
  lanes : FMap Lane := []
  /-- The Leash and the rings. -/
  lsh : Lsh := {}
  /-- Contracts, the merger and the Kennel. -/
  del : Del := {}
  /-- The delivery queues, by number. -/
  ques : FMap Que := []
  /-- The PCI Express function. -/
  pci : Pci := {}
  /-- The framed serial port. -/
  fsp : Fsp := {}
  /-- The Terrier cores, by number. -/
  tcs : FMap Tc := []
  /-- The plant services. -/
  svc : Svc := {}
  /-- Firmware images and the flash window. -/
  fwl : Fwl := {}
  /-- Self-test. -/
  bst : Bst := {}
  /-- Power, standby and start-up. -/
  pwr : Pwr := {}
  /-- The physical channels, by slot. -/
  chans : FMap Chan := []
  /-- The converter groups. -/
  grps : FMap Group := []
  /-- The linearisation slots. -/
  lins : FMap Lin := []
  /-- CHW and CAL windows, production values. -/
  ana : Ana := {}
  /-- MODEL'S OWN: counts the free values taken (R323, R336, R470). -/
  free : Nat := 0
  /-- MODEL'S OWN: what the block drove outside, newest first. -/
  outbox : List Out := []
  deriving DecidableEq, Repr

/-- Faults of the model. No meaning the spec gives an effect raises one. -/
inductive Fault where
  /-- A command whose operands name nothing the hub has, refused by `wellFormed`; raised by no meaning. Safe: the machine stops. -/
  | illFormed
  deriving DecidableEq, Repr

/-- Refusals of the model. -/
inductive Refusal where
  /-- A command without a meaning yet, by its mnemonic. Safe: the machine stops. -/
  | notModelled (mnemonic : String)
  deriving DecidableEq, Repr

/-- The machine right after reset: every field at the value the manual states; where it states none, at the value the assumption log names. No command waits. Log 3, 5 (DESIGN CHOICE). -/
def State.reset : State := {}

/-- The state with `pending` changed. Log 1 (DESIGN CHOICE). -/
def State.modPending (f : List Instr → List Instr) (s : State) : State := { s with pending := f s.pending }

/-- The state with `pages` changed. -/
def State.modPages (f : FMap Page → FMap Page) (s : State) : State := { s with pages := f s.pages }

/-- The state with `rf` changed. -/
def State.modRf (f : FMap Word → FMap Word) (s : State) : State := { s with rf := f s.rf }

/-- The state with `mem` changed. -/
def State.modMem (f : FMap Byte → FMap Byte) (s : State) : State := { s with mem := f s.mem }

/-- The state with `fuse` changed. -/
def State.modFuse (f : Fuse → Fuse) (s : State) : State := { s with fuse := f s.fuse }

/-- The state with `fab` changed. -/
def State.modFab (f : Fab → Fab) (s : State) : State := { s with fab := f s.fab }

/-- The state with `pln` changed. -/
def State.modPln (f : Pln → Pln) (s : State) : State := { s with pln := f s.pln }

/-- The state with `tim` changed. -/
def State.modTim (f : Tim → Tim) (s : State) : State := { s with tim := f s.tim }

/-- The state with `srv` changed. -/
def State.modSrv (f : Srv → Srv) (s : State) : State := { s with srv := f s.srv }

/-- The state with `lanes` changed. -/
def State.modLanes (f : FMap Lane → FMap Lane) (s : State) : State := { s with lanes := f s.lanes }

/-- The state with `lsh` changed. -/
def State.modLsh (f : Lsh → Lsh) (s : State) : State := { s with lsh := f s.lsh }

/-- The state with `del` changed. -/
def State.modDel (f : Del → Del) (s : State) : State := { s with del := f s.del }

/-- The state with `ques` changed. -/
def State.modQues (f : FMap Que → FMap Que) (s : State) : State := { s with ques := f s.ques }

/-- The state with `pci` changed. -/
def State.modPci (f : Pci → Pci) (s : State) : State := { s with pci := f s.pci }

/-- The state with `fsp` changed. -/
def State.modFsp (f : Fsp → Fsp) (s : State) : State := { s with fsp := f s.fsp }

/-- The state with `tcs` changed. -/
def State.modTcs (f : FMap Tc → FMap Tc) (s : State) : State := { s with tcs := f s.tcs }

/-- The state with `svc` changed. -/
def State.modSvc (f : Svc → Svc) (s : State) : State := { s with svc := f s.svc }

/-- The state with `fwl` changed. -/
def State.modFwl (f : Fwl → Fwl) (s : State) : State := { s with fwl := f s.fwl }

/-- The state with `bst` changed. -/
def State.modBst (f : Bst → Bst) (s : State) : State := { s with bst := f s.bst }

/-- The state with `pwr` changed. -/
def State.modPwr (f : Pwr → Pwr) (s : State) : State := { s with pwr := f s.pwr }

/-- The state with `chans` changed. -/
def State.modChans (f : FMap Chan → FMap Chan) (s : State) : State := { s with chans := f s.chans }

/-- The state with `grps` changed. -/
def State.modGrps (f : FMap Group → FMap Group) (s : State) : State := { s with grps := f s.grps }

/-- The state with `lins` changed. -/
def State.modLins (f : FMap Lin → FMap Lin) (s : State) : State := { s with lins := f s.lins }

/-- The state with `ana` changed. -/
def State.modAna (f : Ana → Ana) (s : State) : State := { s with ana := f s.ana }

/-- The state with `free` changed. -/
def State.modFree (f : Nat → Nat) (s : State) : State := { s with free := f s.free }

/-- The state with `outbox` changed. -/
def State.modOutbox (f : List Out → List Out) (s : State) : State := { s with outbox := f s.outbox }

end Sys2Proof.Machine
end

