-- ==== Sys2Proof/Machine/Ops.lean ====
section
/-! DEFINITION. The named operations every meaning is written over: identity, time, pages, registers, causes and events, records into contracts, the memories. -/

namespace Sys2Proof.Machine

/-! ## Outcome and trace -/

/-- What a meaning answers. -/
abbrev Out3 := Host.Outcome State Fault Refusal

/-- The block drives something outside. Log 11, 72 (DESIGN CHOICE). -/
def drive (o : Out) (s : State) : State := s.modOutbox (o :: ·)

/-- A free 32-bit value, and the state in which it has been taken. Log 30 (DESIGN CHOICE). -/
def takeFree (s : State) : Word × State := (Config.freeWord s.free, s.modFree (· + 1))

/-! ## Identity (R6, R23, R39) -/

/-- The segment: that of the active slice, 0 without one (R24). -/
def mySeg (s : State) : Nat :=
  match s.pln.active with
  | some a => a.seg
  | none => 0

/-- The hub number (R23). -/
def myHub (s : State) : Nat := s.pln.pos

/-- This device, as segment × 128 + hub. -/
def myDev (s : State) : Nat := mySeg s * 128 + myHub s

/-- The source identifier of a slot here (R6). -/
def srcId (slot : Nat) (s : State) : Nat := mySeg s * 65536 + myHub s * 512 + slot

/-- The slot of a source identifier (R6). -/
def slotOf (src : Nat) : Nat := src % 512

/-- The device of a source identifier, as segment × 128 + hub. -/
def devOf (src : Nat) : Nat := src / 512

/-- A manager (R1). -/
def isManager (s : State) : Bool := decide (s.pln.role = 1) || decide (s.pln.role = 2)

/-- A head manager (R1). -/
def isHead (s : State) : Bool := decide (s.pln.role = 2)

/-- The holder of the Leash (R256). -/
def isHolder (s : State) : Bool := decide (s.lsh.lrole = 1)

/-! ## Instants (R194, R56) -/

/-- Nanoseconds in a second. -/
def nsPerSec : Nat := 1000000000

/-- The present Osden instant, truncated to whole nanoseconds (R55). -/
def now (s : State) : Stamp := ⟨s.tim.epoch, s.tim.sec, s.tim.ns⟩

/-- An instant as nanoseconds within its epoch. -/
def Stamp.total (t : Stamp) : Nat := t.sec * nsPerSec + t.ns

/-- The instant so many nanoseconds into an epoch. -/
def Stamp.ofTotal (epoch n : Nat) : Stamp := ⟨epoch, n / nsPerSec, n % nsPerSec⟩

/-- An instant `d` ns later. -/
def Stamp.plus (t : Stamp) (d : Nat) : Stamp := Stamp.ofTotal t.epoch (t.total + d)

/-- An instant `d` ns earlier, held at second 0. -/
def Stamp.minus (t : Stamp) (d : Nat) : Stamp := Stamp.ofTotal t.epoch (t.total - d)

/-- Whether one instant lies before another (R56). -/
def Stamp.lt (a b : Stamp) : Bool :=
  decide (a.epoch < b.epoch) ||
    (decide (a.epoch = b.epoch) && (decide (a.sec < b.sec) || (decide (a.sec = b.sec) && decide (a.ns < b.ns))))

/-- Whether one instant lies at or before another. -/
def Stamp.le (a b : Stamp) : Bool := !(Stamp.lt b a)

/-- The lesser of two instants. -/
def Stamp.min (a b : Stamp) : Stamp := if Stamp.lt b a then b else a

/-- The ordering key of R56: instant, then source. -/
def keyLt (a b : Stamp × Nat) : Bool :=
  Stamp.lt a.1 b.1 || (decide (a.1 = b.1) && decide (a.2 < b.2))

/-- The key of an item: that of its header (R56). -/
def Item.key (i : Item) : Stamp × Nat := (i.t, i.src)

/-- Epoch parity, the flag X (R46). -/
def xOf (t : Stamp) : Nat := t.epoch % 2

/-! ## Records (R41, R58) -/

/-- The header word of an item (R41). -/
def Item.header (i : Item) : W128 :=
  mkW128 [(96, 32, i.value.toNat), (64, 32, i.t.sec), (34, 30, i.t.ns), (9, 25, i.src), (7, 2, i.kind.code), (0, 7, i.flags)]

/-- The words of an item: its header, then its payload (R58). -/
def Item.words (i : Item) : List W128 := i.header :: i.payload

/-- The number of words of an item. -/
def Item.size (i : Item) : Nat := i.payload.length + 1

/-- A control item (R58): subtype, parameter, source slot here, instant, payload. Its flags hold X alone (R59). -/
def ctrlItem (sub param src : Nat) (t : Stamp) (payload : List W128) : Item :=
  { t := t, src := src, kind := .control,
    value := mkWord [(24, 8, sub), (16, 6, payload.length), (0, 16, param)], flags := xOf t * 2, payload := payload }

/-- The subtype of a control item (R58). -/
def Item.sub (i : Item) : Nat := wbits i.value 24 8

/-- Whether an item is a control item of a subtype. -/
def Item.isCtrl (sub : Nat) (i : Item) : Bool := decide (i.kind = .control) && decide (i.sub = sub)

/-- An ANCHOR before an instant (R60): one nanosecond before it, with its high seconds and epoch. -/
def anchorItem (reason : Nat) (first : Stamp) (s : State) : Item :=
  let t := first.minus 1
  ctrlItem 1 (reason * 256) (srcId 451 s) t [mkW128 [(96, 32, t.sec / 2 ^ 32), (64, 32, t.epoch)]]

/-- A HORIZON at an instant (R62). -/
def horizonItem (cls : Nat) (h : Stamp) (s : State) : Item := ctrlItem 2 (cls * 4096) (srcId 501 s) h []

/-- A device event record (R45): event, cause bit, page, detail, at the present instant. -/
def eventItem (e bit page detail : Nat) (s : State) : Item :=
  { t := now s, src := srcId (448 + e) s, kind := .event,
    value := mkWord [(24, 8, bit), (16, 8, page), (0, 16, detail)], flags := xOf (now s) * 2, payload := [] }

/-! ## Pages and events (R401–R419) -/

/-- A page's header. -/
def page (p : Nat) (s : State) : Page := FMap.get (fun _ => {}) s.pages p

/-- A page's header changed. -/
def modPage (p : Nat) (f : Page → Page) (s : State) : State := s.modPages fun m => FMap.upd (fun _ => {}) m p f

/-- GEN increments (R406). -/
def bumpGen (p : Nat) (s : State) : State := modPage p (fun g => { g with gen := g.gen + 1 }) s

/-- Page indexes of the page map (R401). -/
def pgDEV : Nat := 0x00
def pgFEAT : Nat := 0x01
def pgEVT : Nat := 0x02
def pgTIM : Nat := 0x03
def pgSRV : Nat := 0x04
def pgPLN : Nat := 0x05
def pgFWL : Nat := 0x06
def pgBST : Nat := 0x07
def pgCAL : Nat := 0x08
def pgPWR : Nat := 0x09
def pgLSH : Nat := 0x0A
def pgMRG : Nat := 0x0B
def pgKEN : Nat := 0x0C
def pgQUE : Nat := 0x0D
def pgCHW : Nat := 0x0E
def pgTAT : Nat := 0x0F
def pgORD : Nat := 0x50
def pgDIN : Nat := 0x51
def pgTOUT : Nat := 0x52
def pgRFX : Nat := 0x53
def pgFSP : Nat := 0x54
def pgPCI : Nat := 0x55
/-- The page of group `g`: GG0–GG15, then FG0–FG7. -/
def pgGroup (g : Nat) : Nat := 0x10 + g
/-- The page of port `p`: CP0–CP7, then MP0–MP15. -/
def pgPort (p : Nat) : Nat := 0x28 + p
/-- The page of Terrier core `n`. -/
def pgTC (n : Nat) : Nat := 0x40 + n

/-- The event that a cause of a page raises (R418). -/
def evOf (p bit : Nat) : Option Nat :=
  if p = 0 then some 0
  else if p = 1 then some 2
  else if p = 2 then none
  else if p = 3 then some 3
  else if p = 4 then some 4
  else if p = 5 then some 1
  else if p = 6 then some 2
  else if p = 7 then some 6
  else if p = 8 then some 5
  else if p = 9 then some 7
  else if p = 0x0A then some 63
  else if p = 0x0B then (if bit < 8 then some 48 else if bit < 16 then some 49 else if bit < 24 then some 50 else some 53)
  else if p = 0x0C then some 52
  else if p = 0x0D then some 51
  else if p < 0x10 then none
  else if p < 0x28 then some (8 + (p - 0x10))
  else if p < 0x30 then some (32 + (p - 0x28))
  else if p < 0x40 then some (40 + (p - 0x30) / 2)
  else if p < 0x50 then some (54 + (p - 0x40) / 4)
  else if p = 0x50 then some 58
  else if p = 0x51 then some 59
  else if p = 0x52 then some 60
  else if p = 0x53 then some 61
  else if p = 0x54 then some 62
  else if p = 0x55 then (if bit < 16 then some 51 else some 62)
  else none

/-- The pages and the EV_RAW bits that raise an event (R418). -/
def evPages (e : Nat) : List (Nat × Word) :=
  let all : Word := 0xFFFFFFFF#32
  if e = 0 then [(0, all)]
  else if e = 1 then [(5, all)]
  else if e = 2 then [(1, all), (6, all)]
  else if e = 3 then [(3, all)]
  else if e = 4 then [(4, all)]
  else if e = 5 then [(8, all)]
  else if e = 6 then [(7, all)]
  else if e = 7 then [(9, all)]
  else if e < 32 then [(0x10 + (e - 8), all)]
  else if e < 40 then [(0x28 + (e - 32), all)]
  else if e < 48 then [(0x30 + 2 * (e - 40), all), (0x31 + 2 * (e - 40), all)]
  else if e = 48 then [(0x0B, 0xFF#32)]
  else if e = 49 then [(0x0B, 0xFF00#32)]
  else if e = 50 then [(0x0B, 0xFF0000#32)]
  else if e = 51 then [(0x0D, all), (0x55, 0xFFFF#32)]
  else if e = 52 then [(0x0C, all)]
  else if e = 53 then [(0x0B, 0xFF000000#32)]
  else if e < 58 then [(0x40 + 4 * (e - 54), all), (0x41 + 4 * (e - 54), all), (0x42 + 4 * (e - 54), all), (0x43 + 4 * (e - 54), all)]
  else if e = 58 then [(0x50, all)]
  else if e = 59 then [(0x51, all)]
  else if e = 60 then [(0x52, all)]
  else if e = 61 then [(0x53, all)]
  else if e = 62 then [(0x55, 0xFFFF0000#32), (0x54, all)]
  else if e = 63 then [(0x0A, all)]
  else []

/-- Every event a page raises. -/
def eventsOf (p : Nat) : List Nat := (List.range 64).filter fun e => (evPages e).any fun q => q.1 = p

/-- Whether an event is active (R417). -/
def evActive (e : Nat) (s : State) : Bool :=
  (evPages e).any fun q =>
    let g := page q.1 s
    g.en && decide (g.evLatch &&& g.evEn &&& q.2 ≠ 0)

/-- The events that are active, as EVT.PEND0 and PEND1 show them. -/
def evPend (s : State) : Nat := (List.range 64).foldl (fun a e => putBit a e (evActive e s)) 0

/-- MSI-X vector `e` is signalled (R378, R417): counted, and sent or set pending. -/
def signal (e : Nat) (s : State) : State :=
  let s := s.modFab fun f => { f with vectors := FMap.upd (fun _ => 0) f.vectors e fun n => (n + 1) % 65536 }
  if s.pci.mask.testBit e then s.modPci fun c => { c with pba := putBit c.pba e true }
  else drive (.msix e) s

/-- Vector `e` is signalled where a change made the event active (R417). -/
def signalIfNew (before : Bool) (e : Nat) (s : State) : State :=
  if before = false ∧ evActive e s = true then signal e s else s

/-- A cause latches (R414): EV_LATCH, EV_FIRST, the event's count, and the vector when its event becomes active. -/
def latch (p bit : Nat) (s : State) : State :=
  match evOf p bit with
  | none => s
  | some e =>
    let before := evActive e s
    let s := modPage p (fun g =>
      { g with
        evLatch := g.evLatch ||| (1#32 <<< bit),
        first :=
          if g.evLatch = 0 then some (bit, 1)
          else match g.first with
            | some (b, n) => some (b, satAdd 255 n 1)
            | none => none }) s
    let s := s.modFab fun f => { f with raises := FMap.upd (fun _ => 0) f.raises e fun n => (n + 1) % 65536 }
    signalIfNew before e s

/-! ## Conditions and episodes (R415) -/

/-- Whether a condition is under way. Log 37 (DEDUCED). -/
def condOn (p bit sub : Nat) (s : State) : Bool := s.fab.conds.contains ⟨p, bit, sub⟩

/-- A condition begins. Log 37 (DEDUCED). -/
def condStart (p bit sub : Nat) (s : State) : State :=
  if condOn p bit sub s then s else s.modFab fun f => { f with conds := f.conds ++ [⟨p, bit, sub⟩] }

/-- A condition ends. Log 37 (DEDUCED). -/
def condEnd (p bit sub : Nat) (s : State) : State :=
  s.modFab fun f => { f with conds := f.conds.filter (· ≠ ⟨p, bit, sub⟩) }

/-- EV_RAW of a page: the conditions under way on it (R415). Log 37 (DEDUCED). -/
def evRaw (p : Nat) (s : State) : Word :=
  s.fab.conds.foldl (fun w c => if c.page = p then w ||| (1#32 <<< c.bit) else w) 0

/-! ## Start-up and power state (R463, R472, R476) -/

/-- START field `k` takes the ms since power good: BOOT, SLICE, CONVCHK, TIMESET, INSERV, LOCK, ALIGN as 0–6. -/
def startMark (k : Nat) (s : State) : State :=
  s.modPwr fun w => if FMap.get (fun _ => 0xFFFF) w.starts k = 0xFFFF then { w with starts := FMap.put (fun _ => 0xFFFF) w.starts k (min 0xFFFE (s.tim.up / 1000000)) } else w

/-- Whether a START field has been reached. -/
def started (k : Nat) (s : State) : Bool := decide (FMap.get (fun _ => 0xFFFF) s.pwr.starts k ≠ 0xFFFF)

/-! ## Contracts and the Kennel (R60, R271–R298) -/

/-- A contract here. -/
def con (id : Nat) (s : State) : ConSt := FMap.get (fun _ => {}) s.del.cons id

/-- A contract changed. -/
def modCon (id : Nat) (f : ConSt → ConSt) (s : State) : State :=
  s.modDel fun d => { d with cons := FMap.upd (fun _ => {}) d.cons id f }

/-- The identifiers of the contracts that have an entry here. -/
def conIds (s : State) : List Nat := s.del.cons.map (·.1)

/-- The part of a contract that a device originates. -/
def partOf (c : Contract) (dev : Nat) : Option Part := c.parts.find? (·.dev = dev)

/-- Whether a device's part of a contract names a slot. -/
def hasSlot (c : Contract) (dev slot : Nat) : Bool :=
  match partOf c dev with
  | none => false
  | some p => p.slots.any fun r => decide (r.1 ≤ slot) && decide (slot ≤ r.2)

/-- Whether an item's kind is carried by a class (R273). -/
def classTakes (cls : Nat) (k : Kind) : Bool :=
  match k with
  | .event => decide (cls = 1)
  | .feature => decide (cls = 2)
  | .sample => decide (cls = 3)
  | .control => false

/-- The contracts that this hub originates now, that take an item of this kind from this slot. Before its time is set a hub makes no record (R196), and in test role none at all (R2). -/
def consFor (k : Kind) (slot : Nat) (s : State) : List Nat :=
  (if s.tim.set ∧ s.pln.role ≠ 3 then conIds s else []).filter fun id =>
    let c := con id s
    match c.ent with
    | none => false
    | some e => decide (c.state = 2 ∨ c.state = 3) && c.isSrc && classTakes e.cls k && hasSlot e (myDev s) slot

/-- The words a contract's kept items take. -/
def kennelWords (l : List KItem) : Nat := sumNat (l.map fun k => k.item.size)

/-- The words a contract reserves: ρ × KEEP (R297). -/
def reserveWords (c : Contract) (dev : Nat) : Nat :=
  match partOf c dev with
  | none => 0
  | some p => p.rho * c.keep / 100

/-- A GAP item over a run of kept items of one epoch (R65): the contract, the run's first and last records. -/
def gapItem (id : Nat) (run : List KItem) (s : State) : Option KItem :=
  match run, run.getLast? with
  | a :: _, some z =>
    let n := sumNat (run.map (·.span))
    some { seq := a.seq, span := n, at_ := z.at_, sent := false,
           item := ctrlItem 4 id (srcId 500 s) a.item.t
             [mkW128 [(96, 32, a.seq), (64, 32, n), (32, 32, z.item.t.sec), (2, 30, z.item.t.ns), (0, 1, xOf z.item.t)]] }
  | _, _ => none

/-- Whether a kept item is a GAP. -/
def KItem.isGap (k : KItem) : Bool := k.item.isCtrl 4

/-- Kept items split into runs of one epoch without a GAP in them (R65): one GAP names one run. -/
def gapRuns : List KItem → List (List KItem)
  | [] => []
  | k :: ks =>
    match gapRuns ks with
    | [] => [[k]]
    | r :: rs =>
      match r with
      | [] => [k] :: rs
      | h :: _ => if k.isGap ∨ h.isGap ∨ k.item.t.epoch ≠ h.item.t.epoch then [k] :: r :: rs else (k :: r) :: rs

/-- Kept items discarded behind their GAPs, which take their places (R298); the GAPs of earlier discards stay. -/
def gapReplace (id : Nat) (lost : List KItem) (s : State) : List KItem :=
  (gapRuns lost).flatMap fun run =>
    match run with
    | [k] => if k.isGap then [k] else (gapItem id run s).toList
    | _ => (gapItem id run s).toList

/-- The GAPs among items that were not there before. -/
def newGaps (lost : List KItem) (after : List KItem) : List KItem :=
  after.filter fun k => k.isGap && !(lost.any fun j => j.isGap && decide (j.seq = k.seq))

/-- The kept items of a contract before place `n` are discarded (R298): GAPs stored in their place, counts and LOSS registers set, the ANCHOR of reason 3 due. Answers the GAPs emitted. -/
def discard (id n : Nat) (s : State) : State × List KItem :=
  let c := con id s
  let lost := c.kennel.take n
  let g := gapReplace id lost s
  let fresh := newGaps lost g
  let s := modCon id (fun c =>
    { c with kennel := g ++ c.kennel.drop n, anchorDue := if fresh.isEmpty ∨ c.anchorDue = some 0 then c.anchorDue else some 3 }) s
  let s := fresh.foldl (fun s k =>
    bumpGen pgKEN (s.modDel fun d =>
      { d with gaps := (d.gaps + 1) % 65536, gapItems := d.gapItems + BitVec.ofNat 32 k.span,
               lossCon := id, lossFirst := k.seq, lossCount := k.span })) s
  (s, fresh)

/-- How many of the oldest kept items must go for `need` more words to fit `room` (R298); GAPs free nothing. -/
def dropCount : List KItem → Nat → Nat → Nat
  | [], _, _ => 0
  | k :: ks, used, room => if used ≤ room then 0 else 1 + dropCount ks (used - (k.item.size - if k.isGap then k.item.size else 0)) room

/-- An item written into the Kennel under the next sequence number (R275, R277). Log 46 (DEDUCED). -/
def kennelPut (id : Nat) (i : Item) (s : State) : State :=
  modCon id (fun c =>
    { c with kennel := c.kennel ++ [{ seq := c.next, span := 1, item := i, at_ := s.tim.up, sent := false }],
             next := (c.next + 1) % 2 ^ 32,
             lastAckUp := if c.kennel.isEmpty then s.tim.up else c.lastAckUp }) s

/-- The reasons of the ANCHORs that must go before a record at an instant (R60, R61), in order. -/
def anchorWhy (c : ConSt) (t : Stamp) : List Nat :=
  let fresh : List Nat := if c.anchorDue = some 0 ∨ c.lastAnchor = none then [0] else []
  let turned : List Nat := match c.lastAnchor with
    | some a => if a.epoch < t.epoch then [1] else []
    | none => []
  let gap : List Nat := if c.anchorDue = some 3 then [3] else []
  let aged : List Nat := match c.lastAnchor with
    | some a => if a.total + 10 * nsPerSec ≤ t.total then [2] else []
    | none => []
  let due := fresh ++ turned ++ gap
  if due = [] then aged else due

/-- An ANCHOR written into a contract (R60): that of reason 1 governs from the first instant of the new epoch (R61). Log 46 (DEDUCED). -/
def putAnchor (id : Nat) (first : Stamp) (s : State) (reason : Nat) : State :=
  let first := if reason = 1 then ((s.tim.epStart :: s.tim.epOlds).find? (·.epoch = first.epoch)).getD first else first
  let a := anchorItem reason first s
  modCon id (fun c => { c with anchorDue := none, lastAnchor := some a.t }) (kennelPut id a s)

/-- Room made in a contract's reservation for an item (R298). Answers whether the reservation was full, and the GAPs. -/
def makeRoom (id need : Nat) (s : State) : State × Bool × List KItem :=
  let c := con id s
  match c.ent with
  | none => (s, false, [])
  | some e =>
    let room := reserveWords e (myDev s)
    let used := kennelWords c.kennel + need
    if used ≤ room then (s, false, [])
    else
      let r := discard id (dropCount c.kennel used room) s
      (r.1, true, r.2)

/-- Causes of KEN (R306). -/
def kenGAP : Nat := 0
def kenFULL : Nat := 1
def kenACKSTALL : Nat := 2
def kenRETX : Nat := 3

/-- Whether a contract takes no item of an instant any more: at or after its end second (R274), or the stop instant of a removal (R267). -/
def barred (id : Nat) (t : Stamp) (s : State) : Bool :=
  (match (con id s).endSec with
   | some e => decide (e ≤ t.sec)
   | none => false) ||
  (match s.lsh.stopAt with
   | some x => s.lsh.stopped && decide (x ≤ t.sec)
   | none => false)

/-- The pin of a DIN event record (R356), 0 of any other item. -/
def Item.dinPin (i : Item) : Nat := if i.kind = .event ∧ slotOf i.src = 507 then wbits i.value 24 8 else 0

/-- An item put among others in key order (R56): of one key it goes last, but DIN edges of one stamp lie in pin order (R357). -/
def insertKey (i : Item) : List Item → List Item
  | [] => [i]
  | j :: js => if keyLt i.key j.key ∨ (i.key = j.key ∧ i.dinPin < j.dinPin) then i :: j :: js else j :: insertKey i js

/-- An item joins those of a contract that are ready, in key order (R275). Log 46 (DEDUCED). -/
def stage (i : Item) (s : State) (id : Nat) : State :=
  if barred id i.t s then s else modCon id (fun c => { c with ready := insertKey i c.ready }) s

/-- Whether raises of a cause make records at all (R416). -/
def recorded (p bit : Nat) : Bool := !((decide (p = pgQUE) && decide (bit < 16)) || (decide (p = pgPCI) && decide (bit < 16)))

/-- A device fault during a firmware trial has it reverted at the next idle boundary (R452). -/
def trialFault (p : Nat) (s : State) : State :=
  if p = pgDEV ∧ s.fwl.state = 5 then bumpGen pgFWL (s.modFwl fun w => { w with state := 3, back := true }) else s

/-- A cause raised with the detail of its event record (R414–R417): latched, then recorded in every Class A contract that names the event's slot, or counted where no record is made. -/
def raise (p bit detail : Nat) (s : State) : State :=
  let s := trialFault p (latch p bit s)
  match evOf p bit with
  | none => s
  | some e =>
    if recorded p bit = false then s
    else
      let ids := consFor .event (448 + e) s
      if (page p s).en = false ∨ ids = [] then s.modFab fun f => { f with norec := f.norec + 1 }
      else ids.foldl (stage (eventItem e bit p detail s)) s

/-- PWR.STAT.STATE changes: STATE is raised with the new one (R463, R477). -/
def pwrState (st : Nat) (s : State) : State :=
  if s.pwr.state = st then s else raise pgPWR 0 st (bumpGen pgPWR (s.modPwr fun w => { w with state := st }))

/-- A cause raised once per episode of a unit: the episode lasts until its end is commanded. Log 37 (DEDUCED). -/
def raiseOnce (p bit sub detail : Nat) (s : State) : State :=
  if condOn p bit sub s then s else raise p bit detail (condStart p bit sub s)

/-- A record of a slot goes into every contract of this hub that takes it (R277). -/
def emit (i : Item) (s : State) : State := (consFor i.kind (slotOf i.src) s).foldl (stage i) s

/-! ## Self-test slices (R432, R434) -/

/-- Causes of BST (R441). -/
def bstSIGFAIL : Nat := 0
def bstSIGRETRY : Nat := 1
def bstFORCED : Nat := 2
def bstCOVLATE : Nat := 3
def bstCYCLEDONE : Nat := 4
def bstNOGOLD : Nat := 5
def bstACHKDONE : Nat := 6
def bstTESTERR : Nat := 7

/-- An island. -/
def isl (k : Nat) (s : State) : Isl := FMap.get (fun _ => {}) s.bst.isls k
/-- An island changed. -/
def modIsl (k : Nat) (f : Isl → Isl) (s : State) : State := s.modBst fun b => { b with isls := FMap.upd (fun _ => {}) b.isls k f }

/-- The slice of an island is no longer under way; STAT follows where it shows this one. -/
def endSlice (k st : Nat) (s : State) : State :=
  s.modBst fun b =>
    { b with running := b.running.filter (· ≠ k), state := if b.isl = k ∧ 2 ≤ b.state ∧ b.state ≤ 4 then st else b.state }

/-- A slice abandoned at a request (R432, R434): counted, and forced at the eighth in a row. -/
def abandonSlice (k : Nat) (s : State) : State :=
  let n := min 8 ((isl k s).abn + 1)
  let was := (isl k s).forced
  let s := modIsl k (fun i => { i with abn := n, abandons := (i.abandons + 1) % 65536, forced := i.forced || decide (8 ≤ n) }) s
  let s := endSlice k 3 (s.modBst fun b => { b with abandon := (b.abandon + 1) % 65536 })
  if 8 ≤ n ∧ was = false then raiseOnce pgBST bstFORCED k (k * 256) s else s

/-- A request for service reaches an island (R430, R432): an ordinary slice under way there is abandoned; a forced one is not. -/
def serve (k : Nat) (s : State) : State :=
  if s.bst.running.contains k ∧ (isl k s).forced = false then abandonSlice k s else s
/-- A request reaches the merger's island. -/
def serveMerger (s : State) : State := serve 64 s
/-- A request reaches the island of a Terrier core. -/
def serveCore (n : Nat) (s : State) : State := serve (24 + n) s

/-! ## Registers and requesters (R15, R404, R405) -/

/-- The page of an address (R13). -/
def pageOf (addr : Nat) : Nat := addr / 4096

/-- The plain read-write registers: the bits a write sets and the value at reset, by page and offset. Registers with an action of their own are not among them. Log 41 (DEDUCED). -/
def rwReg (p off : Nat) : Option (Word × Word) :=
  if p = 0 then
    (match off with
     | 0x060 => some (0xFFFF, 0)
     | 0x064 => some (0x700FFFFF, 0)
     | 0x070 => some (0xFFFFFFFF, 0)
     | 0x074 => some (0xFFFFFFFF, 0)
     | 0x078 => some (0xFFFFFFFF, 0)
     | 0x07C => some (0xFFFFFFFF, 0)
     | _ => none)
  else if p = 1 then
    (match off with
     | 0x050 => some (0xFFFFFFFF, 1)
     | 0x054 => some (0xFFFFFFFF, 0)
     | 0x058 => some (0xFFFFFFFF, 0)
     | 0x05C => some (0xFFFFFFFF, 0)
     | _ => none)
  else if p = 2 then (if off = 0x050 then some (0x3F, 0) else none)
  else if p = 3 then
    (match off with
     | 0x040 => some (0x00FFE300, 0x000A4000)
     | 0x074 => some (0xFFFFFFFF, 0)
     | 0x078 => some (0xFFFFFFFF, 0)
     | 0x07C => some (0xFFFFFFFF, 0)
     | _ => none)
  else if p = 4 then
    (match off with
     | 0x040 => some (0xFF, 0x41)
     | 0x058 => some (0x1F, 0)
     | 0x070 => some (7, 0)
     | _ => none)
  else if p = 5 then (if off = 0x07C then some (0xFFFFFFFF, 0) else if off = 0x080 then some (0xFFFFFFFF, 0) else none)
  else if p = 6 then
    (match off with
     | 0x040 => some (0x0800FFFF, 0x0800003C)
     | 0x090 => some (0x1FFFFFF, 0)
     | 0x0A0 => some (0x3F, 0)
     | 0x0B0 => some (0x3F, 0)
     | _ => none)
  else if p = 7 then
    (match off with
     | 0x040 => some (0x8000FFFF, 0x800005A0)
     | 0x070 => some (0x7F, 0)
     | 0x080 => some (0x11F, 0)
     | _ => none)
  else if p = 8 then
    (match off with
     | 0x040 => some (0x1FF, 20)
     | 0x044 => some (0xFFFFFF, 0)
     | 0x048 => some (0x1F, 0)
     | 0x080 => some (0x1FC7, 0)
     | 0x090 => some (0xFFFF, 0)
     | 0x094 => some (0xFFFFFFFF, 0)
     | 0x098 => some (0xFFFFFFFF, 0)
     | 0x09C => some (0xFFFFFFFF, 0)
     | 0x0C0 => some (0x7F, 0)
     | _ => if 0x100 ≤ off ∧ off ≤ 0x15C ∧ off % 4 = 0 then some (0xFFFFFFFF, 0) else none)
  else if p = 9 then
    (match off with
     | 0x040 => some (3, 0)
     | 0x050 => some (0xC0000000, 0x80000000)
     | 0x054 => some (0xFFFFFFFF, 0)
     | 0x064 => some (0x1FC, 0x10)
     | _ => none)
  else if p = 0x0A then
    (match off with
     | 0x040 => some (0x00FF4000, 0x000A4000)
     | 0x070 => some (0xF, 0)
     | 0x078 => some (0x7F, 0)
     | _ => none)
  else if p = 0x0B then
    (match off with
     | 0x040 => some (0xFFF, 0)
     | 0x050 => some (0xFFE00000, 0)
     | 0x054 => some (0xFFFFFFFF, 0)
     | 0x058 => some (0xFFFFFFFF, 0)
     | 0x05C => some (0xFFFFFFFF, 0)
     | 0x060 => some (0xFFFFC000, 0)
     | 0x06C => some (0xFFFF, 0)
     | 0x07C => some (3, 1)
     | 0x098 => some (0x1F, 0)
     | _ => none)
  else if p = 0x0C then (if off = 0x04C then some (0xFFF, 0) else none)
  else if p = 0x0D then (if off = 0x040 then some (0xF, 0) else none)
  else if p = 0x0E then
    (match off with
     | 0x040 => some (0x3FF, 0)
     | 0x050 => some (0xFFFFFFFF, 0x00110000)
     | 0x054 => some (0xFFFFFFFF, 0x38000000)
     | 0x058 => some (0xFFFFFFFF, 0)
     | 0x05C => some (0xFFFFFFFF, 0x03196400)
     | _ => none)
  else if p = 0x0F then (if off = 0x040 then some (0x1F, 0) else none)
  else if p < 0x28 then
    (match off with
     | 0x040 => some (0x8FFF0FFF, 0x832400C8)
     | 0x044 => some (0x03FFFFFF, 0x0206000C)
     | 0x048 => some (if p < 0x20 then 0xFFFF else 0xFF, 0)
     | _ => none)
  else if p < 0x40 then
    (match off with
     | 0x040 => some (if p < 0x30 then 0x77 else 0x67, 7)
     | 0x04C => some (0xF8000000, 0)
     | _ => none)
  else if p < 0x50 then
    (match off with
     | 0x040 => some (0x000FFFE0, 0x840)
     | 0x05C => some (0x7FFF, 0)
     | _ => none)
  else if p = 0x50 then (if off = 0x040 then some (0xF, 0) else if off = 0x060 then some (3, 0) else none)
  else if p = 0x51 then (if off = 0x040 then some (0x1F, 0) else none)
  else if p = 0x52 then
    (match off with
     | 0x040 => some (0xF, 0)
     | 0x050 => some (0xFFFFFFFF, 0)
     | 0x054 => some (0xFFFFFFFF, 0)
     | 0x058 => some (0xFFFFFFFF, 0)
     | 0x05C => some (0xFFFFFFFF, 0)
     | _ => none)
  else if p = 0x53 then
    (match off with
     | 0x040 => some (0x1FF, 0)
     | 0x060 => some (0x3F, 0)
     | 0x064 => some (0xFFFFFFFF, 0)
     | 0x068 => some (0xFFFFF000, 0)
     | _ => none)
  else if p = 0x54 then
    (match off with
     | 0x064 => some (0xFFFFFFFF, 0)
     | 0x068 => some (0xFFFFFFFF, 0)
     | _ => none)
  else none

/-- What a plain register holds at reset. Log 3 (DESIGN CHOICE), 41 (DEDUCED). -/
def rfReset (addr : Nat) : Word :=
  match rwReg (addr / 4096) (addr % 4096) with
  | some r => r.2
  | none => 0

/-- A plain register. Log 41 (DEDUCED). -/
def rfGet (addr : Nat) (s : State) : Word := FMap.get rfReset s.rf addr

/-- A plain register set, the bits of its mask alone. Log 41 (DEDUCED). -/
def rfPut (addr : Nat) (v : Word) (s : State) : State :=
  match rwReg (addr / 4096) (addr % 4096) with
  | some r => s.modRf fun m => FMap.put rfReset m addr (v &&& r.1)
  | none => s

/-- A write by a requester on a page: discarded and counted on a frozen page unless the requester is its owner or the supervisor (R405). -/
def gated (r : Req) (p : Nat) (f : State → State) (s : State) : State :=
  let g := page p s
  if g.freeze = true ∧ r.val ≠ 0 ∧ r.val ≠ g.owner then s.modFab fun b => { b with accFrozen := satAdd 255 b.accFrozen 1 }
  else f s

/-- A write on a page of the merger (R430): it reaches the merger's island. -/
def gatedMerger (r : Req) (p : Nat) (f : State → State) (s : State) : State := gated r p (fun s => f (serveMerger s)) s

/-- A write on the page of a Terrier core (R430): it reaches the core's island. -/
def gatedCore (r : Req) (n : Nat) (f : State → State) (s : State) : State := gated r (pgTC n) (fun s => f (serveCore n s)) s

/-- A write by which the firmware is asked for something, on FWL or PWR (R430): it reaches the supervisor's island. Log 60 (DEDUCED). -/
def gatedFirmware (r : Req) (p : Nat) (f : State → State) (s : State) : State := gated r p (fun s => f (serve 65 s)) s

/-- The island that an access to a page reaches (R430): the merger's, a core's where it is written, the supervisor's where it is asked. Log 60 (DEDUCED). -/
def reachIsland (write : Bool) (p : Nat) (s : State) : State :=
  if 0x0B ≤ p ∧ p ≤ 0x0D then serveMerger s
  else if write && decide (0x40 ≤ p) && decide (p < 0x50) then serveCore (p - 0x40) s
  else if write && decide (p = 0x06 ∨ p = 0x09) then serve 65 s
  else s

/-- Whether a feature acts for a requester (R421, R422): granted, or the supervisor's own action. -/
def granted (bit : Nat) (r : Req) (s : State) : Bool := decide (r.val = 0) || s.fab.grant.toNat.testBit bit

/-- A gated field has been written: what the supervisor writes is gated by no grant (R422). Log 41, 43 (DEDUCED). -/
def wrote (r : Req) (key : Nat) (s : State) : State :=
  s.modFab fun f => { f with supSet := if r.val = 0 then key :: f.supSet.filter (· ≠ key) else f.supSet.filter (· ≠ key) }

/-- Whether a gated field acts: its feature is granted, or the supervisor wrote it (R422). Log 10 (DESIGN CHOICE), 43 (DEDUCED). -/
def acts (bit key : Nat) (s : State) : Bool := s.fab.grant.toNat.testBit bit || s.fab.supSet.contains key

/-- Gated fields: ring configurations, COAL_T, CHK, DIN configurations. -/
def keyHr (n : Nat) : Nat := 0x55000 + n
def keyCoal (q : Nat) : Nat := 0x0D000 + q
def keyChk (q : Nat) : Nat := 0x0D100 + q
def keyDin (pin : Nat) : Nat := 0x51000 + pin

/-! ## Ports, groups, units -/

/-- A lane. -/
def lane (p : Nat) (s : State) : Lane := FMap.get (fun _ => {}) s.lanes p
/-- A lane changed. -/
def modLane (p : Nat) (f : Lane → Lane) (s : State) : State := s.modLanes fun m => FMap.upd (fun _ => {}) m p f
/-- A port as PLN shows it. -/
def port (p : Nat) (s : State) : PortSt := FMap.get (fun _ => {}) s.pln.ports p
/-- A port changed. -/
def modPort (p : Nat) (f : PortSt → PortSt) (s : State) : State :=
  s.modPln fun l => { l with ports := FMap.upd (fun _ => {}) l.ports p f }
/-- A port of no use. -/
def noPort : PortPlan := ⟨0, 0, 0, 0, 0, 0, 0⟩
/-- What a slice says of a port. -/
def planPort (b : SliceBody) (p : Nat) : PortPlan := nth noPort b.ports p
/-- The PORTS entry of a port in the active slice; unused without one. -/
def portPlan (p : Nat) (s : State) : PortPlan :=
  match s.pln.active with
  | some a => planPort a.body p
  | none => noPort
/-- A queue. QD*n* has BASE = 64 n at reset (R307). -/
def que (q : Nat) (s : State) : Que := FMap.get (fun n => { base := 64 * n }) s.ques q
/-- A queue changed. -/
def modQue (q : Nat) (f : Que → Que) (s : State) : State :=
  s.modQues fun m => FMap.upd (fun n => { base := 64 * n }) m q f
/-- A host ring. -/
def hr (n : Nat) (s : State) : Hr := FMap.get (fun _ => {}) s.pci.rings n
/-- A host ring changed. -/
def modHr (n : Nat) (f : Hr → Hr) (s : State) : State :=
  s.modPci fun c => { c with rings := FMap.upd (fun _ => {}) c.rings n f }

/-! ## Memories (R322, R445) -/

/-- Where the boot flash lies in `State.mem`. Log 6 (PRESUMED). -/
def flashBase : Nat := 0x10000000
/-- The boot flash holds 32 MiB (R445). -/
def flashSize : Nat := 0x2000000
/-- Where the local memory of Terrier core `n` lies in `State.mem`. Log 6 (PRESUMED). -/
def tcBase (n : Nat) : Nat := n * 0x80000

/-- What a byte nothing has written reads as: an erased flash byte is 0xFF, a byte of a core's memory 0. Log 6 (PRESUMED). -/
def Memory.unlisted (a : Nat) : Byte := if flashBase ≤ a then 0xFF else 0

/-- One byte of memory. Log 6 (PRESUMED). -/
def Memory.read (m : FMap Byte) (a : Nat) : Byte := FMap.get Memory.unlisted m a
/-- One byte of memory written. Log 6 (PRESUMED). -/
def Memory.write (m : FMap Byte) (a : Nat) (b : Byte) : FMap Byte := FMap.put Memory.unlisted m a b
/-- The canonical form of memory. -/
abbrev Memory.wf (m : FMap Byte) : Bool := FMap.wf Memory.unlisted m
/-- Consecutive bytes. -/
def Memory.readN (m : FMap Byte) (a n : Nat) : List Byte := FMap.getAll Memory.unlisted m a n
/-- Consecutive bytes written. -/
def Memory.writeN (m : FMap Byte) (a : Nat) (bs : List Byte) : FMap Byte := FMap.putAll Memory.unlisted m a bs
/-- `n` bytes from `a` on set to one value. -/
def Memory.fill (b : Byte) : FMap Byte → Nat → Nat → FMap Byte
  | m, _, 0 => m
  | m, a, n + 1 => Memory.fill b (Memory.write m a b) (a + 1) n
/-- Every byte of a range at what an unlisted byte reads as: its entries removed. -/
def Memory.clear (m : FMap Byte) (a n : Nat) : FMap Byte := m.filter fun e => decide (e.1 < a) || decide (a + n ≤ e.1)

/-- Bytes of the boot flash. -/
def flashRead (a n : Nat) (s : State) : List Byte := Memory.readN s.mem (flashBase + a) n

end Sys2Proof.Machine
end

