-- ==== Sys2Proof/Decode.lean ====
section
/-! DEFINITION. Words that spell commands: the opcode table gives none of its rows bits, so a table word spells none. The words of the hub's own programs do: Haldom instructions (R335, R336) and Tattoo instructions (R158), each read and written here. -/

namespace Sys2Proof

open Sys2Proof.Machine

/-- The command that a word spells by the opcode table's bits. No row of the table has any. Log 74 (DESIGN CHOICE). -/
def decodeTableWord (_nbits _w : Nat) : Option Instr := none

/-! ## Haldom words (R335, R336) -/

/-- A word of format R: OP, d, a, b, c, F (R335). -/
def haldomR (op : Nat) (d a b c : Reg) (f : Fin 16) : Word :=
  BitVec.ofNat 32 (op * 2 ^ 24 + d.val * 2 ^ 19 + a.val * 2 ^ 14 + b.val * 2 ^ 9 + c.val * 2 ^ 4 + f.val)
/-- A word of format I: OP, d, a, IMM. -/
def haldomI (op : Nat) (d a : Reg) (imm : BitVec 14) : Word :=
  BitVec.ofNat 32 (op * 2 ^ 24 + d.val * 2 ^ 19 + a.val * 2 ^ 14 + imm.toNat)
/-- A word of format B: OP, a, b, OFF. -/
def haldomB (op : Nat) (a b : Reg) (off : BitVec 14) : Word := haldomI op a b off
/-- A word of format U: OP, d, IMM. -/
def haldomU (op : Nat) (d : Reg) (imm : BitVec 19) : Word := BitVec.ofNat 32 (op * 2 ^ 24 + d.val * 2 ^ 19 + imm.toNat)
/-- A word of an instruction without a format: OP alone. -/
def haldom0 (op : Nat) : Word := BitVec.ofNat 32 (op * 2 ^ 24)

/-- The word of a Haldom instruction; none for every other command, and for a load that meets a memory error, which no word asks for. Fields that an instruction does not use are written 0. -/
def haldomWord : Instr → Option Word
  | .nop _ => some (haldom0 0x00)
  | .b _ t => some (haldomI 0x01 0 0 t)
  | .beq _ a b o => some (haldomB 0x02 a b o)
  | .bne _ a b o => some (haldomB 0x03 a b o)
  | .blt _ a b o => some (haldomB 0x04 a b o)
  | .bge _ a b o => some (haldomB 0x05 a b o)
  | .call _ t => some (haldomI 0x06 0 0 t)
  | .ret _ => some (haldom0 0x07)
  | .wait _ m => some (haldomI 0x08 0 0 (BitVec.ofNat 14 m.val))
  | .trig _ d => some (haldomR 0x09 d 0 0 0 0)
  | .time _ d => some (haldomR 0x0A d 0 0 0 0)
  | .hzn _ a => some (haldomR 0x0B 0 a 0 0 0)
  | .recv _ d b => some (haldomR 0x10 d 0 b 0 0)
  | .recvn _ d b => some (haldomR 0x11 d 0 b 0 0)
  | .send _ a => some (haldomR 0x12 0 a 0 0 0)
  | .sendl _ a => some (haldomR 0x13 0 a 0 0 0)
  | .pstat _ d => some (haldomR 0x14 d 0 0 0 0)
  | .sabort _ => some (haldom0 0x15)
  | .ld _ d a i ue => if ue then none else some (haldomI 0x20 d a i)
  | .st _ d a i => some (haldomI 0x21 d a i)
  | .ldw _ d a i ue => if ue then none else some (haldomI 0x22 d a i)
  | .stw _ d a i => some (haldomI 0x23 d a i)
  | .li _ d i => some (haldomU 0x30 d i)
  | .lih _ d i => some (haldomU 0x31 d i)
  | .addi _ d a i => some (haldomI 0x32 d a i)
  | .shli _ d a i => some (haldomI 0x33 d a i)
  | .shri _ d a i => some (haldomI 0x34 d a i)
  | .srai _ d a i => some (haldomI 0x35 d a i)
  | .iadd _ d a b f => some (haldomR 0x40 d a b 0 f)
  | .isub _ d a b f => some (haldomR 0x41 d a b 0 f)
  | .imul _ d a b f => some (haldomR 0x42 d a b 0 f)
  | .imin _ d a b f => some (haldomR 0x43 d a b 0 f)
  | .imax _ d a b f => some (haldomR 0x44 d a b 0 f)
  | .icmp _ d a b f => some (haldomR 0x45 d a b 0 f)
  | .shl _ d a b f => some (haldomR 0x46 d a b 0 f)
  | .shr _ d a b f => some (haldomR 0x47 d a b 0 f)
  | .sra _ d a b f => some (haldomR 0x48 d a b 0 f)
  | .ladd _ d a b f => some (haldomR 0x49 d a b 0 f)
  | .lsub _ d a b f => some (haldomR 0x4A d a b 0 f)
  | .iabs _ d a f => some (haldomR 0x4B d a 0 0 f)
  | .andW _ d a b => some (haldomR 0x50 d a b 0 0)
  | .orW _ d a b => some (haldomR 0x51 d a b 0 0)
  | .xorW _ d a b => some (haldomR 0x52 d a b 0 0)
  | .andn _ d a b => some (haldomR 0x53 d a b 0 0)
  | .sel _ d a b c => some (haldomR 0x54 d a b c 0)
  | .shuf _ d a i => some (haldomI 0x55 d a i)
  | .bcast _ d a f => some (haldomR 0x56 d a 0 0 f)
  | .ext _ d a f => some (haldomR 0x57 d a 0 0 f)
  | .ins _ d a f => some (haldomR 0x58 d a 0 0 f)
  | .fadd _ d a b f => some (haldomR 0x60 d a b 0 f)
  | .fsub _ d a b f => some (haldomR 0x61 d a b 0 f)
  | .fmul _ d a b f => some (haldomR 0x62 d a b 0 f)
  | .fma _ d a b c f => some (haldomR 0x63 d a b c f)
  | .fms _ d a b c f => some (haldomR 0x64 d a b c f)
  | .fmin _ d a b f => some (haldomR 0x65 d a b 0 f)
  | .fmax _ d a b f => some (haldomR 0x66 d a b 0 f)
  | .fabs _ d a f => some (haldomR 0x67 d a 0 0 f)
  | .fneg _ d a f => some (haldomR 0x68 d a 0 0 f)
  | .fcmp _ d a b f => some (haldomR 0x69 d a b 0 f)
  | .cvtif _ d a f => some (haldomR 0x6A d a 0 0 f)
  | .cvtfi _ d a f => some (haldomR 0x6B d a 0 0 f)
  | .hadd _ d a => some (haldomR 0x6C d a 0 0 0)
  | .fdiv _ d a b f => some (haldomR 0x70 d a b 0 f)
  | .fsqrt _ d a f => some (haldomR 0x71 d a 0 0 f)
  | _ => none

/-- A register field of a word. -/
def regAt (w lo : Nat) : Reg := Fin.ofNat 32 (w / 2 ^ lo)

/-- The instruction of a word for core `n` (R335, R336); none for an undefined opcode or, where the instruction has no format, a bit set below the opcode. Log 33 (DESIGN CHOICE). -/
def haldomInstr (n : QNum) (word : Word) : Option Instr :=
  let w := word.toNat
  let d := regAt w 19
  let a := regAt w 14
  let b := regAt w 9
  let c := regAt w 4
  let f : Fin 16 := Fin.ofNat 16 w
  let i : BitVec 14 := BitVec.ofNat 14 w
  let u : BitVec 19 := BitVec.ofNat 19 w
  let bare (x : Instr) : Option Instr := if w % 2 ^ 24 = 0 then some x else none
  match w / 2 ^ 24 with
  | 0x00 => bare (.nop n)
  | 0x01 => some (.b n i)
  | 0x02 => some (.beq n d a i)
  | 0x03 => some (.bne n d a i)
  | 0x04 => some (.blt n d a i)
  | 0x05 => some (.bge n d a i)
  | 0x06 => some (.call n i)
  | 0x07 => bare (.ret n)
  | 0x08 => some (.wait n f)
  | 0x09 => some (.trig n d)
  | 0x0A => some (.time n d)
  | 0x0B => some (.hzn n a)
  | 0x10 => some (.recv n d b)
  | 0x11 => some (.recvn n d b)
  | 0x12 => some (.send n a)
  | 0x13 => some (.sendl n a)
  | 0x14 => some (.pstat n d)
  | 0x15 => bare (.sabort n)
  | 0x20 => some (.ld n d a i false)
  | 0x21 => some (.st n d a i)
  | 0x22 => some (.ldw n d a i false)
  | 0x23 => some (.stw n d a i)
  | 0x30 => some (.li n d u)
  | 0x31 => some (.lih n d u)
  | 0x32 => some (.addi n d a i)
  | 0x33 => some (.shli n d a i)
  | 0x34 => some (.shri n d a i)
  | 0x35 => some (.srai n d a i)
  | 0x40 => some (.iadd n d a b f)
  | 0x41 => some (.isub n d a b f)
  | 0x42 => some (.imul n d a b f)
  | 0x43 => some (.imin n d a b f)
  | 0x44 => some (.imax n d a b f)
  | 0x45 => some (.icmp n d a b f)
  | 0x46 => some (.shl n d a b f)
  | 0x47 => some (.shr n d a b f)
  | 0x48 => some (.sra n d a b f)
  | 0x49 => some (.ladd n d a b f)
  | 0x4A => some (.lsub n d a b f)
  | 0x4B => some (.iabs n d a f)
  | 0x50 => some (.andW n d a b)
  | 0x51 => some (.orW n d a b)
  | 0x52 => some (.xorW n d a b)
  | 0x53 => some (.andn n d a b)
  | 0x54 => some (.sel n d a b c)
  | 0x55 => some (.shuf n d a i)
  | 0x56 => some (.bcast n d a f)
  | 0x57 => some (.ext n d a f)
  | 0x58 => some (.ins n d a f)
  | 0x60 => some (.fadd n d a b f)
  | 0x61 => some (.fsub n d a b f)
  | 0x62 => some (.fmul n d a b f)
  | 0x63 => some (.fma n d a b c f)
  | 0x64 => some (.fms n d a b c f)
  | 0x65 => some (.fmin n d a b f)
  | 0x66 => some (.fmax n d a b f)
  | 0x67 => some (.fabs n d a f)
  | 0x68 => some (.fneg n d a f)
  | 0x69 => some (.fcmp n d a b f)
  | 0x6A => some (.cvtif n d a f)
  | 0x6B => some (.cvtfi n d a f)
  | 0x6C => some (.hadd n d a)
  | 0x70 => some (.fdiv n d a b f)
  | 0x71 => some (.fsqrt n d a f)
  | _ => none


/-- The word at a core's program counter, in its active bank (R322). -/
def haldomFetch (n : QNum) (s : State) : Word :=
  let t : Tc := FMap.get (fun _ => {}) s.tcs n.val
  BitVec.ofNat 32 (leNat (Memory.readN s.mem (tcBase n.val + t.bank * 0x10000 + t.pc * 4) 4))

/-- The instruction a core would issue next by its own program. Log 33 (DESIGN CHOICE). -/
def haldomNext (n : QNum) (s : State) : Option Instr := haldomInstr n (haldomFetch n s)

/-! ## Tattoo words (R158) -/

/-- The word of a Tattoo instruction. -/
def tattooWord : Instr → Option Word
  | .tatNop _ => some 0
  | .waita _ o => some (BitVec.ofNat 32 (1 * 2 ^ 28 + o.toNat))
  | .waitr _ d => some (BitVec.ofNat 32 (2 * 2 ^ 28 + d.toNat))
  | .lead _ auto ch => some (BitVec.ofNat 32 (3 * 2 ^ 28 + b2n auto * 2 ^ 27 + ch.val))
  | .pulse _ all ch => some (BitVec.ofNat 32 (4 * 2 ^ 28 + b2n all * 2 ^ 27 + ch.val))
  | .ref _ src range dwell => some (BitVec.ofNat 32 (5 * 2 ^ 28 + src.val * 2 ^ 24 + range.val * 2 ^ 20 + dwell.toNat))
  | .excm _ => some (BitVec.ofNat 32 (6 * 2 ^ 28))
  | .rot _ => some (BitVec.ofNat 32 (7 * 2 ^ 28))
  | .every _ k res => some (BitVec.ofNat 32 (8 * 2 ^ 28 + k.val * 2 ^ 16 + res.toNat))
  | .tatLoop _ n => some (BitVec.ofNat 32 (9 * 2 ^ 28 + n.toNat))
  | .endl _ => some (BitVec.ofNat 32 (10 * 2 ^ 28))
  | .tatEnd _ => some (BitVec.ofNat 32 (11 * 2 ^ 28))
  | _ => none

/-- The instruction of a word for group `g` (R158); none for a reserved opcode or a bit set outside the named fields. Log 33 (DESIGN CHOICE). -/
def tattooInstr (g : Grp) (word : Word) : Option Instr :=
  let w := word.toNat
  let low (n : Nat) : Nat := w % 2 ^ n
  let ok (x : Nat) (i : Instr) : Option Instr := if w % 2 ^ 28 = x then some i else none
  match w / 2 ^ 28 with
  | 0 => ok 0 (.tatNop g)
  | 1 => ok (low 23) (.waita g (BitVec.ofNat 23 w))
  | 2 => ok (low 23) (.waitr g (BitVec.ofNat 23 w))
  | 3 => ok (w / 2 ^ 27 % 2 * 2 ^ 27 + low 4) (.lead g (decide (w / 2 ^ 27 % 2 = 1)) (Fin.ofNat 16 w))
  | 4 => ok (w / 2 ^ 27 % 2 * 2 ^ 27 + low 4) (.pulse g (decide (w / 2 ^ 27 % 2 = 1)) (Fin.ofNat 16 w))
  | 5 => ok (w / 2 ^ 24 % 16 * 2 ^ 24 + w / 2 ^ 20 % 4 * 2 ^ 20 + low 16)
      (.ref g (Fin.ofNat 16 (w / 2 ^ 24)) (Fin.ofNat 4 (w / 2 ^ 20)) (BitVec.ofNat 16 w))
  | 6 => ok 0 (.excm g)
  | 7 => ok 0 (.rot g)
  | 8 => ok (w / 2 ^ 16 % 16 * 2 ^ 16 + low 15) (.every g (Fin.ofNat 16 (w / 2 ^ 16)) (BitVec.ofNat 15 w))
  | 9 => ok (low 8) (.tatLoop g (BitVec.ofNat 8 w))
  | 10 => ok 0 (.endl g)
  | 11 => ok 0 (.tatEnd g)
  | _ => none

end Sys2Proof
end

