-- ==== Sys2Proof/Machine/F32.lean ====
section
/-! DEFINITION. IEEE 754 binary32 as the manual has it (R323, R51): round to nearest even, subnormals replaced by zero of the same sign, one NaN. -/

namespace Sys2Proof.Machine

/-- What a binary32 word stands for; subnormals stand for zero of their sign (R323). -/
inductive F32 where
  | nan
  | inf (neg : Bool)
  | zero (neg : Bool)
  /-- (−1)^neg × man × 2^exp, with man in 2^23 to 2^24 − 1. -/
  | fin (neg : Bool) (man : Nat) (exp : Int)
  deriving DecidableEq, Repr

/-- The sticky conditions of TC.STAT.FPF (R323). -/
structure FpFlags where
  inv : Bool := false
  dz : Bool := false
  ovf : Bool := false
  deriving DecidableEq, Repr

/-- The conditions of two operations together. -/
def FpFlags.or (a b : FpFlags) : FpFlags := ⟨a.inv || b.inv, a.dz || b.dz, a.ovf || b.ovf⟩

/-- The quiet NaN of R323 and R50. -/
def f32NaN : Word := 0x7FC00000#32

/-- A binary32 word read (R323). Log 32 (DEDUCED). -/
def f32Read (w : Word) : F32 :=
  let neg := wbit w 31
  let e := wbits w 23 8
  let m := wbits w 0 23
  if e = 255 then (if m = 0 then .inf neg else .nan)
  else if e = 0 then .zero neg
  else .fin neg (2 ^ 23 + m) ((e : Int) - 150)

/-- A binary32 word from its sign, biased exponent and fraction. Log 32 (DEDUCED). -/
def f32Pack (neg : Bool) (e m : Nat) : Word := mkWord [(31, 1, b2n neg), (23, 8, e), (0, 23, m)]

/-- `num / den × 2^k` (`num`, `den` above 0) rounded to binary32 to nearest even. A subnormal result is kept where `keep`, else becomes zero of the sign (R323); one beyond the range is the infinity with the overflow condition. Log 32 (DEDUCED). -/
def f32RoundAs (keep neg : Bool) (num den : Nat) (k : Int) : Word × FpFlags :=
  let quot (e : Int) : Frac :=
    if 0 ≤ e then Frac.mk2 (num : Int) (den <<< e.toNat) else Frac.mk2 ((num <<< (-e).toNat : Nat) : Int) den
  let t : Int := (Nat.log2 num : Int) - (Nat.log2 den : Int) - 23
  let t1 : Int := if Frac.lt (quot t) (Frac.ofInt (2 ^ 23)) then t - 1 else t
  let e : Int := if t1 + k < -149 then -149 - k else t1
  let q := (quot e).roundEven.toNat
  let man := if q = 2 ^ 24 then 2 ^ 23 else q
  let ex : Int := (if q = 2 ^ 24 then e + 1 else e) + k
  if man < 2 ^ 23 then (f32Pack neg 0 (if keep then man else 0), {})
  else if 104 < ex then (f32Pack neg 255 0, { ovf := true })
  else (f32Pack neg (ex + 150).toNat (man - 2 ^ 23), {})

/-- Rounding as the cores do it (R323): subnormals become zero. Log 32 (DEDUCED). -/
def f32Round (neg : Bool) (num den : Nat) (k : Int) : Word × FpFlags := f32RoundAs false neg num den k

/-- A binary32 word of what it stands for. -/
def F32.word : F32 → Word
  | .nan => f32NaN
  | .inf neg => f32Pack neg 255 0
  | .zero neg => f32Pack neg 0 0
  | .fin neg man exp => f32Pack neg (exp + 150).toNat (man - 2 ^ 23)

/-- An exact dyadic sum `n × 2^e` as binary32; a zero sum takes the sign given. -/
def f32OfDyadic (zeroNeg : Bool) (n : Int) (e : Int) : Word × FpFlags :=
  if n = 0 then (f32Pack zeroNeg 0 0, {}) else f32Round (decide (n < 0)) n.natAbs 1 e

/-- An exact fraction as IEEE 754 binary32, subnormals kept (R51, R178); zero is +0. -/
def f32OfFrac (f : Frac) : Word × FpFlags :=
  if f.num = 0 then (0, {}) else f32RoundAs true (decide (f.num < 0)) f.num.natAbs f.den 0

/-- The exact value of a binary32 word, subnormals included (R178); none where it is infinite or NaN. -/
def f32Val (w : Word) : Option Frac :=
  let e := wbits w 23 8
  let m := wbits w 0 23
  let n (k : Nat) : Int := if wbit w 31 then -(k : Int) else k
  if e = 255 then none
  else if e = 0 then some (Frac.mk2 (n m) (2 ^ 149))
  else if 150 ≤ e then some (Frac.ofInt (n ((2 ^ 23 + m) * 2 ^ (e - 150))))
  else some (Frac.mk2 (n (2 ^ 23 + m)) (2 ^ (150 - e)))

/-- The sign of a binary32 value. -/
def F32.sign : F32 → Bool
  | .nan => false
  | .inf n => n
  | .zero n => n
  | .fin n _ _ => n

/-- The value with its sign turned. -/
def F32.negate : F32 → F32
  | .nan => .nan
  | .inf n => .inf (!n)
  | .zero n => .zero (!n)
  | .fin n m e => .fin (!n) m e

/-- The signed mantissa and the exponent of a finite value (zero: 0). -/
def F32.dyadic : F32 → Int × Int
  | .fin n m e => (if n then -(m : Int) else (m : Int), e)
  | _ => (0, 0)

/-- The sum of two dyadics. -/
def dyAdd (a b : Int × Int) : Int × Int :=
  let e := min a.2 b.2
  (a.1 * (2 ^ (a.2 - e).toNat : Nat) + b.1 * (2 ^ (b.2 - e).toNat : Nat), e)

/-- The sum (R323). -/
def F32.add (x y : F32) : Word × FpFlags :=
  match x, y with
  | .nan, _ => (f32NaN, {})
  | _, .nan => (f32NaN, {})
  | .inf a, .inf b => if a = b then (f32Pack a 255 0, {}) else (f32NaN, { inv := true })
  | .inf a, _ => (f32Pack a 255 0, {})
  | _, .inf b => (f32Pack b 255 0, {})
  | .zero a, .zero b => (f32Pack (a && b) 0 0, {})
  | .zero _, .fin n m e => ((F32.fin n m e).word, {})
  | .fin n m e, .zero _ => ((F32.fin n m e).word, {})
  | .fin n m e, .fin n' m' e' =>
    let s := dyAdd (F32.fin n m e).dyadic (F32.fin n' m' e').dyadic
    f32OfDyadic false s.1 s.2

/-- The product (R323). -/
def F32.mul (x y : F32) : Word × FpFlags :=
  match x, y with
  | .nan, _ => (f32NaN, {})
  | _, .nan => (f32NaN, {})
  | .inf _, .zero _ => (f32NaN, { inv := true })
  | .zero _, .inf _ => (f32NaN, { inv := true })
  | .inf a, y => (f32Pack (a != y.sign) 255 0, {})
  | x, .inf b => (f32Pack (x.sign != b) 255 0, {})
  | .zero a, y => (f32Pack (a != y.sign) 0 0, {})
  | x, .zero b => (f32Pack (x.sign != b) 0 0, {})
  | .fin n m e, .fin n' m' e' => f32Round (n != n') (m * m') 1 (e + e')

/-- `x × y + z` with one rounding (R336). -/
def F32.fma (x y z : F32) : Word × FpFlags :=
  match x, y, z with
  | .inf _, .zero _, _ => (f32NaN, { inv := true })
  | .zero _, .inf _, _ => (f32NaN, { inv := true })
  | .nan, _, _ => (f32NaN, {})
  | _, .nan, _ => (f32NaN, {})
  | _, _, .nan => (f32NaN, {})
  | .inf a, y, z =>
    let p := a != y.sign
    match z with
    | .inf c => if p = c then (f32Pack p 255 0, {}) else (f32NaN, { inv := true })
    | _ => (f32Pack p 255 0, {})
  | x, .inf b, z =>
    let p := x.sign != b
    match z with
    | .inf c => if p = c then (f32Pack p 255 0, {}) else (f32NaN, { inv := true })
    | _ => (f32Pack p 255 0, {})
  | _, _, .inf c => (f32Pack c 255 0, {})
  | x, y, z =>
    let p := x.sign != y.sign
    let a := x.dyadic
    let b := y.dyadic
    let prod : Int × Int := (a.1 * b.1, a.2 + b.2)
    if prod.1 = 0 then
      match z with
      | .zero c => (f32Pack (p && c) 0 0, {})
      | z => (z.word, {})
    else
      match z with
      | .zero _ => f32OfDyadic false prod.1 prod.2
      | z =>
        let s := dyAdd prod z.dyadic
        f32OfDyadic false s.1 s.2

/-- The quotient, correctly rounded (R323). -/
def F32.div (x y : F32) : Word × FpFlags :=
  match x, y with
  | .nan, _ => (f32NaN, {})
  | _, .nan => (f32NaN, {})
  | .inf _, .inf _ => (f32NaN, { inv := true })
  | .zero _, .zero _ => (f32NaN, { inv := true })
  | .inf a, y => (f32Pack (a != y.sign) 255 0, {})
  | x, .inf b => (f32Pack (x.sign != b) 0 0, {})
  | x, .zero b => (f32Pack (x.sign != b) 255 0, { dz := true })
  | .zero a, y => (f32Pack (a != y.sign) 0 0, {})
  | .fin n m e, .fin n' m' e' => f32Round (n != n') m m' (e - e')

/-- The square root, correctly rounded (R323): the root of the mantissa to 32 bits with a sticky bit below. -/
def F32.sqrt (x : F32) : Word × FpFlags :=
  match x with
  | .nan => (f32NaN, {})
  | .zero n => (f32Pack n 0 0, {})
  | .inf n => if n then (f32NaN, { inv := true }) else (f32Pack false 255 0, {})
  | .fin n m e =>
    if n then (f32NaN, { inv := true })
    else
      let par := (e % 2).toNat
      let v := m <<< (40 + par)
      let r := isqrt v
      let sticky := if r * r = v then 0 else 1
      f32Round false (2 * r + sticky) 1 ((e - par - 40) / 2 - 1)

/-- Ordering of two values that are no NaN: whether `x < y`; zeros of either sign are equal. -/
def F32.lt (x y : F32) : Bool :=
  match x, y with
  | .nan, _ => false
  | _, .nan => false
  | .inf a, .inf b => a && !b
  | .inf a, _ => a
  | _, .inf b => !b
  | x, y =>
    let s := dyAdd x.dyadic (y.negate).dyadic
    decide (s.1 < 0)

/-- Equality of two values that are no NaN; zeros of either sign are equal. -/
def F32.eqv (x y : F32) : Bool :=
  match x, y with
  | .nan, _ => false
  | _, .nan => false
  | x, y => !(F32.lt x y) && !(F32.lt y x)

/-- Whether a value is a NaN. -/
def F32.isNaN : F32 → Bool
  | .nan => true
  | _ => false

/-- The exact value of a finite binary32 word as a fraction; an infinity or a NaN gives none. -/
def F32.frac? : F32 → Option Frac
  | .zero _ => some (Frac.ofInt 0)
  | .fin n m e =>
    let a : Int := if n then -(m : Int) else (m : Int)
    some (if 0 ≤ e then Frac.ofInt (a * (2 ^ e.toNat : Nat)) else Frac.mk2 a (2 ^ (-e).toNat))
  | _ => none

end Sys2Proof.Machine
end

