-- ==== Sys2Proof/Machine/Crypto.lean ====
section
/-! DEFINITION. The digests, checks and signatures the manual names: CRC-8 and CRC-32 (R230, R389), SHA-256 (R25, R159, R442), ECDSA P-256 (R442, R443). -/

namespace Sys2Proof.Machine

/-- One bit of a CRC-8 with polynomial 0x07, most significant bit first. -/
def crc8Bit (c : Nat) : Nat := if c.testBit 7 then ((c <<< 1) ^^^ 0x07) % 256 else (c <<< 1) % 256

/-- One byte into the CRC-8. -/
def crc8Byte (c : Nat) (b : Byte) : Nat :=
  crc8Bit (crc8Bit (crc8Bit (crc8Bit (crc8Bit (crc8Bit (crc8Bit (crc8Bit (c ^^^ b.toNat))))))))

/-- CRC-8 of R230: polynomial 0x07, initial value 0. -/
def crc8 (bs : List Byte) : Nat := bs.foldl crc8Byte 0

/-- One bit of the reflected CRC-32. -/
def crc32Bit (c : Nat) : Nat := if c % 2 = 1 then (c / 2) ^^^ 0xEDB88320 else c / 2

/-- One byte into the CRC-32. -/
def crc32Byte (c : Nat) (b : Byte) : Nat :=
  crc32Bit (crc32Bit (crc32Bit (crc32Bit (crc32Bit (crc32Bit (crc32Bit (crc32Bit (c ^^^ b.toNat))))))))

/-- The IEEE 802.3 frame check sequence (R389): polynomial 0x04C1_1DB7 reflected, initial value all ones, complemented. -/
def crc32 (bs : List Byte) : Nat := (bs.foldl crc32Byte 0xFFFFFFFF) ^^^ 0xFFFFFFFF

/-- The first 64 primes, from whose cube roots the SHA-256 constants come. -/
def shaK : List (BitVec 32) :=
  [0x428a2f98#32, 0x71374491#32, 0xb5c0fbcf#32, 0xe9b5dba5#32, 0x3956c25b#32, 0x59f111f1#32, 0x923f82a4#32, 0xab1c5ed5#32,
   0xd807aa98#32, 0x12835b01#32, 0x243185be#32, 0x550c7dc3#32, 0x72be5d74#32, 0x80deb1fe#32, 0x9bdc06a7#32, 0xc19bf174#32,
   0xe49b69c1#32, 0xefbe4786#32, 0x0fc19dc6#32, 0x240ca1cc#32, 0x2de92c6f#32, 0x4a7484aa#32, 0x5cb0a9dc#32, 0x76f988da#32,
   0x983e5152#32, 0xa831c66d#32, 0xb00327c8#32, 0xbf597fc7#32, 0xc6e00bf3#32, 0xd5a79147#32, 0x06ca6351#32, 0x14292967#32] ++
  [0x27b70a85#32, 0x2e1b2138#32, 0x4d2c6dfc#32, 0x53380d13#32, 0x650a7354#32, 0x766a0abb#32, 0x81c2c92e#32, 0x92722c85#32,
   0xa2bfe8a1#32, 0xa81a664b#32, 0xc24b8b70#32, 0xc76c51a3#32, 0xd192e819#32, 0xd6990624#32, 0xf40e3585#32, 0x106aa070#32,
   0x19a4c116#32, 0x1e376c08#32, 0x2748774c#32, 0x34b0bcb5#32, 0x391c0cb3#32, 0x4ed8aa4a#32, 0x5b9cca4f#32, 0x682e6ff3#32,
   0x748f82ee#32, 0x78a5636f#32, 0x84c87814#32, 0x8cc70208#32, 0x90befffa#32, 0xa4506ceb#32, 0xbef9a3f7#32, 0xc67178f2#32]

/-- The chaining value of SHA-256. -/
structure ShaH where
  a : BitVec 32
  b : BitVec 32
  c : BitVec 32
  d : BitVec 32
  e : BitVec 32
  f : BitVec 32
  g : BitVec 32
  h : BitVec 32

/-- The initial chaining value. -/
def shaInit : ShaH :=
  ⟨0x6a09e667#32, 0xbb67ae85#32, 0x3c6ef372#32, 0xa54ff53a#32, 0x510e527f#32, 0x9b05688c#32, 0x1f83d9ab#32, 0x5be0cd19#32⟩

/-- One round of SHA-256 with its schedule word and constant. -/
def shaRound (s : ShaH) (wk : BitVec 32) : ShaH :=
  let s1 := (s.e.rotateRight 6) ^^^ (s.e.rotateRight 11) ^^^ (s.e.rotateRight 25)
  let ch := (s.e &&& s.f) ^^^ ((~~~ s.e) &&& s.g)
  let t1 := s.h + s1 + ch + wk
  let s0 := (s.a.rotateRight 2) ^^^ (s.a.rotateRight 13) ^^^ (s.a.rotateRight 22)
  let maj := (s.a &&& s.b) ^^^ (s.a &&& s.c) ^^^ (s.b &&& s.c)
  ⟨t1 + s0 + maj, s.a, s.b, s.c, s.d + t1, s.e, s.f, s.g⟩

/-- Sixty-four rounds over a sliding window of sixteen schedule words. -/
def shaRounds : List (BitVec 32) → List (BitVec 32) → ShaH → ShaH
  | [], _, s => s
  | k :: ks, w, s =>
    let w0 := nth 0#32 w 0
    let w1 := nth 0#32 w 1
    let w9 := nth 0#32 w 9
    let w14 := nth 0#32 w 14
    let x0 := (w1.rotateRight 7) ^^^ (w1.rotateRight 18) ^^^ (w1 >>> 3)
    let x1 := (w14.rotateRight 17) ^^^ (w14.rotateRight 19) ^^^ (w14 >>> 10)
    shaRounds ks (w.drop 1 ++ [w0 + x0 + w9 + x1]) (shaRound s (k + w0))

/-- Sixteen big-endian words of a 64-byte block. -/
def shaWords : Nat → List Byte → List (BitVec 32)
  | 0, _ => []
  | n + 1, bs => BitVec.ofNat 32 (beNat (bs.take 4)) :: shaWords n (bs.drop 4)

/-- One block of SHA-256. -/
def shaBlock (s : ShaH) (bs : List Byte) : ShaH :=
  let r := shaRounds shaK (shaWords 16 bs) s
  ⟨s.a + r.a, s.b + r.b, s.c + r.c, s.d + r.d, s.e + r.e, s.f + r.f, s.g + r.g, s.h + r.h⟩

/-- `n` blocks of SHA-256. -/
def shaBlocks : Nat → List Byte → ShaH → ShaH
  | 0, _, s => s
  | n + 1, bs, s => shaBlocks n (bs.drop 64) (shaBlock s (bs.take 64))

/-- SHA-256 of bytes, as a number read most significant byte first. -/
def sha256 (bs : List Byte) : Nat :=
  let n := bs.length
  let pad := (119 - n % 64) % 64
  let m := bs ++ [0x80#8] ++ List.replicate pad 0#8 ++ beBytes 8 (8 * n)
  let s := shaBlocks (m.length / 64) m shaInit
  [s.a, s.b, s.c, s.d, s.e, s.f, s.g, s.h].foldl (fun a w => a * 2 ^ 32 + w.toNat) 0

/-- The prime of P-256. -/
def p256P : Nat := 0xffffffff00000001000000000000000000000000ffffffffffffffffffffffff
/-- The order of P-256. -/
def p256N : Nat := 0xffffffff00000000ffffffffffffffffbce6faada7179e84f3b9cac2fc632551
/-- The base point of P-256. -/
def p256G : Nat × Nat :=
  (0x6b17d1f2e12c4247f8bce6e563a440f277037d812deb33a0f4a13945d898c296,
   0x4fe342e2fe1a7f9b8ee7eb4a7c0f9e162bce33576b315ececbb6406837bf51f5)
/-- The coefficient b of P-256. -/
def p256B : Nat := 0x5ac635d8aa3a93e7b3ebbd55769886bc651d06b0cc53b0f63bce3c3e27d2604b

/-- `b ^ e mod m`, over the low `n` bits of `e`. -/
def modPow (m : Nat) : Nat → Nat → Nat → Nat
  | 0, _, _ => 1 % m
  | n + 1, b, e =>
    let r := modPow m n (b * b % m) (e / 2)
    if e % 2 = 1 then r * b % m else r

/-- The inverse modulo a prime. -/
def modInv (m a : Nat) : Nat := modPow m 256 (a % m) (m - 2)

/-- The sum of two points of P-256 (none is the point at infinity). -/
def p256Add (x y : Option (Nat × Nat)) : Option (Nat × Nat) :=
  match x, y with
  | none, y => y
  | x, none => x
  | some (x1, y1), some (x2, y2) =>
    if x1 = x2 ∧ (y1 + y2) % p256P = 0 then none
    else
      let l :=
        if x1 = x2 then (3 * x1 * x1 + (p256P - 3)) * modInv p256P (2 * y1) % p256P
        else (y2 + p256P - y1) * modInv p256P (x2 + p256P - x1) % p256P
      let x3 := (l * l + 2 * p256P - x1 - x2) % p256P
      some (x3, (l * (x1 + p256P - x3) + p256P - y1) % p256P)

/-- `k` times a point, over the low `n` bits of `k`. -/
def p256Mul : Nat → Nat → Option (Nat × Nat) → Option (Nat × Nat)
  | 0, _, _ => none
  | n + 1, k, p =>
    let r := p256Mul n (k / 2) (p256Add p p)
    if k % 2 = 1 then p256Add r p else r

/-- Whether a point lies on P-256. -/
def p256On (q : Nat × Nat) : Bool :=
  decide (q.1 < p256P ∧ q.2 < p256P ∧
    q.2 * q.2 % p256P = (q.1 * q.1 * q.1 + (p256P - 3) * q.1 + p256B) % p256P)

/-- ECDSA P-256 verification of a digest `z` under public key `q`. -/
def ecdsaOk (q : Nat × Nat) (z r s : Nat) : Bool :=
  if r = 0 ∨ p256N ≤ r ∨ s = 0 ∨ p256N ≤ s then false
  else if p256On q = false then false
  else
    let w := modInv p256N s
    let p := p256Add (p256Mul 256 (z * w % p256N) (some p256G)) (p256Mul 256 (r * w % p256N) (some q))
    match p with
    | none => false
    | some (x, _) => decide (x % p256N = r)

end Sys2Proof.Machine
end

