-- ==== Sys2Proof/Machine/Symbols.lean ====
section
/-! DEFINITION. The symbols of a lane: 8b/10b code-groups and running disparity, the idle pairs, the forming and the reading of a block (R227–R233, R235). -/

namespace Sys2Proof.Machine

/-- The number of ones among the low `n` bits. -/
def onesOf (n v : Nat) : Nat := ((List.range n).filter fun i => v.testBit i).length

/-- A symbol: a control or a data character, and its byte. -/
structure Sym where
  k : Bool
  b : Nat
  deriving DecidableEq, Repr

/-! ## Code-groups (R227) -/

/-- The six-bit codes abcdei of D.0 to D.31 at negative running disparity, a highest. Log 75 (PRESUMED). -/
def code6 : List Nat :=
  [0x27, 0x1D, 0x2D, 0x31, 0x35, 0x29, 0x19, 0x38, 0x39, 0x25, 0x15, 0x34, 0x0D, 0x2C, 0x1C, 0x17] ++
  [0x1B, 0x23, 0x13, 0x32, 0x0B, 0x2A, 0x1A, 0x3A, 0x33, 0x26, 0x16, 0x36, 0x0E, 0x2E, 0x1E, 0x2B]

/-- The four-bit codes fghj of D.x.0 to D.x.7 and of K.28.0 to K.28.7 at negative running disparity, f highest. Log 75 (PRESUMED). -/
def code4 (k : Bool) : List Nat := if k then [0xB, 0x6, 0xA, 0xC, 0xD, 0x5, 0x9, 0x7] else [0xB, 0x9, 0x5, 0xC, 0xD, 0xA, 0x6, 0xE]

/-- The six-bit code of a symbol at a running disparity. Log 75 (PRESUMED). -/
def enc6 (rd : Bool) (y : Sym) : Nat :=
  let x := y.b % 32
  let g := if y.k then 0x0F else nth 0 code6 x
  if rd ∧ (onesOf 6 g ≠ 3 ∨ x = 7) then 63 - g else g

/-- The four-bit code of a symbol at a running disparity; D.x.7 takes its other form where a run of five would arise. Log 75 (PRESUMED). -/
def enc4 (rd : Bool) (y : Sym) : Nat :=
  let x := y.b % 32
  let h := y.b / 32
  let alt := !y.k && decide (h = 7) && (if rd then decide (x = 11) || decide (x = 13) || decide (x = 14) else decide (x = 17) || decide (x = 18) || decide (x = 20))
  let g := if alt then 7 else nth 0 (code4 y.k) h
  if rd ∧ (y.k ∨ onesOf 4 g ≠ 2 ∨ h = 3) then 15 - g else g

/-- The running disparity after six bits. Log 75 (PRESUMED). -/
def rdAfter6 (rd : Bool) (g : Nat) : Bool :=
  let n := onesOf 6 g
  if 3 < n ∨ g = 0x07 then true else if n < 3 ∨ g = 0x38 then false else rd

/-- The running disparity after four bits. Log 75 (PRESUMED). -/
def rdAfter4 (rd : Bool) (g : Nat) : Bool :=
  let n := onesOf 4 g
  if 2 < n ∨ g = 0x3 then true else if n < 2 ∨ g = 0xC then false else rd

/-- The running disparity after a code-group, valid or not. Log 75 (PRESUMED). -/
def rdAfter (rd : Bool) (g : Nat) : Bool := rdAfter4 (rdAfter6 rd (g / 16)) (g % 16)

/-- The code-group of a symbol at a running disparity. Log 75 (PRESUMED). -/
def encSym (rd : Bool) (y : Sym) : Nat :=
  let g := enc6 rd y
  g * 16 + enc4 (rdAfter6 rd g) y

/-- The code-groups of symbols, and the running disparity after them (R227). -/
def encSyms : Bool → List Sym → List Nat × Bool
  | rd, [] => ([], rd)
  | rd, y :: ys =>
    let g := encSym rd y
    let r := encSyms (rdAfter rd g) ys
    (g :: r.1, r.2)

/-- A control character K.28.h. -/
def symK (h : Nat) : Sym := ⟨true, h * 32 + 28⟩
/-- A data character. -/
def symD (b : Byte) : Sym := ⟨false, b.toNat⟩
/-- D10.2. -/
def symD10_2 : Sym := ⟨false, 0x4A⟩

/-- The symbol a code-group stands for at a running disparity; none for a code violation: a group of no character of R227, or one of the other running disparity. Log 75 (PRESUMED). -/
def decSym (rd : Bool) (g : Nat) : Option Sym :=
  let a := g / 16
  let cands : List Sym :=
    if a = 0x0F ∨ a = 0x30 then [symK 5, symK 1, symK 0, symK 3]
    else
      match (List.range 32).find? fun x => enc6 false ⟨false, x⟩ = a ∨ enc6 true ⟨false, x⟩ = a with
      | some x => (List.range 8).map fun h => ⟨false, h * 32 + x⟩
      | none => []
  cands.find? fun y => encSym rd y = g

/-! ## Idle pairs (R228) -/

/-- One bit of the PRBS-7 generator x⁷ + x⁶ + 1. Log 64 (DESIGN CHOICE). -/
def prbs7Step (g : Nat) : Nat × Bool :=
  let b := xor (g.testBit 6) (g.testBit 5)
  ((g * 2 + b2n b) % 128, b)

/-- The next `n` bits of the generator as a number, the first in bit `i`. Log 64 (DESIGN CHOICE). -/
def prbs7Bits : Nat → Nat → Nat → Nat → Nat × Nat
  | 0, g, _, acc => (g, acc)
  | n + 1, g, i, acc => prbs7Bits n (prbs7Step g).1 (i + 1) (acc + b2n (prbs7Step g).2 * 2 ^ i)

/-- So many idle pairs, and the generator after them (R228). -/
def idlePairs : Nat → Nat → List Sym × Nat
  | 0, g => ([], g)
  | n + 1, g =>
    let c := prbs7Bits 8 g 0 0
    let r := idlePairs n c.1
    (symK 1 :: ⟨false, c.2⟩ :: r.1, r.2)

/-! ## Blocks (R229–R231) -/

/-- The eight payload words of a block: its valid words, then words of zero (R232). -/
def padWords (ws : List W128) : List W128 := slice (ws ++ List.replicate 8 0) 0 8

/-- The bytes a block's CRC covers (R230). -/
def crcBytes (typ seq : Nat) (ws : List W128) : List Byte :=
  BitVec.ofNat 8 typ :: BitVec.ofNat 8 seq :: (padWords ws).flatMap fun w => leBytes 16 w.toNat

/-- The header of a block (R230): K28.5, TYPE, SEQ, HCHK. -/
def headerSyms (typ seq : Nat) : List Sym :=
  let a : Byte := BitVec.ofNat 8 typ
  let b : Byte := BitVec.ofNat 8 seq
  [symK 5, symD a, symD b, ⟨false, crc8 [a, b]⟩]

/-- The 136 symbols of a block, and the idle generator after them (R228, R230). -/
def blockSyms (typ seq : Nat) (ws : List W128) (prbs : Nat) : List Sym × Nat :=
  if typ = 0 then
    let r := idlePairs 66 prbs
    (headerSyms typ seq ++ r.1, r.2)
  else
    let bs := crcBytes typ seq ws
    (headerSyms typ seq ++ (bs.drop 2).map symD ++ (leBytes 4 (crc32 bs)).map symD, prbs)

/-- The skip pair (R231), the training burst (R229) and the tail of electrical idle (R240). -/
def skipSyms : List Sym := [symK 0, symK 0]
def burstSyms : List Sym := (List.replicate 16 [symK 1, symD10_2, symD10_2, symD10_2]).flatten
def tailSyms : List Sym := List.replicate 4 (symK 3)

/-- Symbols sent on a port's lane: their code-groups under the lane's running disparity (R227). -/
def sendSyms (p : Nat) (ys : List Sym) (s : State) : State :=
  let r := encSyms (lane p s).txRd ys
  drive (.line p r.1) (modLane p (fun l => { l with txRd := r.2 }) s)

/-! ## Reading a block slot (R227, R230, R233, R235) -/

/-- What the receiver has read of a slot: the symbols, newest first, a code violation as none; the running disparity; the violations among the last 64 symbols; whether eight of them stood there. -/
structure RxRun where
  syms : List (Option Sym)
  rd : Bool
  hist : Nat
  burst : Bool

/-- One more code-group read. -/
def readGroup (r : RxRun) (g : Nat) : RxRun :=
  let y := decSym r.rd g
  let h := (r.hist * 2 + b2n y.isNone) % 2 ^ 64
  { syms := y :: r.syms, rd := rdAfter r.rd g, hist := h, burst := r.burst || (y.isNone && decide (8 ≤ onesOf 64 h)) }

/-- The byte of a symbol read: a violation reads as a free value, and so does a control character where data stands. Log 82 (DESIGN CHOICE). -/
def symByte (g : Nat) (y : Option Sym) : Byte :=
  match y with
  | some ⟨false, b⟩ => BitVec.ofNat 8 b
  | _ => Config.violationByte g

/-- A data character. -/
def isData (y : Option Sym) : Bool :=
  match y with
  | some ⟨false, _⟩ => true
  | _ => false

/-- A block slot read under a lane's running disparity: the block the receiver finds, and the lane with what has been read. Log 75 (PRESUMED). -/
def readSlot (r : RxSlot) (l : Lane) : RxBlock × Lane :=
  let x := r.groups.foldl readGroup ⟨[], l.rxRd, l.cvHist, false⟩
  let ys := x.syms.reverse
  let cv (l : List (Option Sym)) : Nat := (l.filter fun y => y.isNone).length
  let bs := (r.groups.zip ys).map fun q => symByte q.1 q.2
  let at_ (i : Nat) : Nat := (nth 0 bs i).toNat
  let b : RxBlock :=
    { k28 := decide (ys.head? = some (some (symK 5))) && (slice ys 1 3).all fun y => isData y || y.isNone,
      cvHdr := cv (ys.take 4), cvRest := cv (ys.drop 4), cvBurst := x.burst,
      typ := at_ 1, seq := at_ 2, hchk := at_ 3,
      words := (List.range 8).map fun k => BitVec.ofNat 128 (leNat (slice bs (4 + 16 * k) 16)),
      crc := leNat (slice bs 132 4), atPhase := r.atPhase, skips := r.skips, drift := r.drift }
  (b, { l with rxRd := x.rd, cvHist := if x.burst then 0 else x.hist })

end Sys2Proof.Machine
end

