-- ==== Sys2Proof/Machine/Link.lean ====
section
/-! DEFINITION. What the lanes and the rings share: rates, port uses, routes, control blocks, wrap and retrain (R20–R22, R226, R243–R255, R302). -/

namespace Sys2Proof.Machine

/-! ## Rates (R22, R226) -/

/-- The rate of a rate code in Mbaud (R226). -/
def rateMbaud (code : Nat) : Nat :=
  match code with
  | 0 => 1250
  | 1 => 2500
  | 2 => 5000
  | 3 => 10000
  | 4 => 6250
  | 5 => 12500
  | _ => 100000

/-- Slots per second at a rate code (R226). -/
def slotRate (code : Nat) : Nat :=
  match code with
  | 0 => 918442
  | 1 => 1836884
  | 2 => 3673769
  | 3 => 7347538
  | 4 => 4592211
  | _ => 9184423

/-- A chain port (CP0–CP7). -/
def isCP (p : Nat) : Bool := decide (p < 8)

/-- The rate codes of a port's kind, slowest first. -/
def kindRates (p : Nat) : List Nat := if isCP p then [0, 1, 2, 3] else [0, 4, 5]

/-- The highest rate of a cable class in Mbaud (R22). -/
def classLimit (cls : Nat) : Nat :=
  match cls with
  | 0 => 10000
  | 1 => 2500
  | 2 => 10000
  | 3 => 12500
  | 4 => 12500
  | _ => 1250

/-- CTRL of a port's page: RW fields, reset 7 (R247). -/
def portCtrl (p : Nat) (s : State) : Word := rfGet (pgPort p * 4096 + 0x40) s

/-- The rate codes a port offers (R242): of its kind, not above its class or MAXRATE, code 0 alone in test role (R2). -/
def offered (p : Nat) (s : State) : List Nat :=
  if s.pln.role = 3 then [0]
  else
    let mx := rateMbaud (wbits (portCtrl p s) 0 3)
    (kindRates p).filter fun c => decide (rateMbaud c ≤ classLimit (portPlan p s).cls) && decide (rateMbaud c ≤ mx)

/-- A list of rate codes as a mask, bit c for code c. -/
def rateMask (l : List Nat) : Nat := l.foldl (fun a c => putBit a c true) 0

/-- The fastest rate code of a list; code 0 where there is none. -/
def fastest (l : List Nat) : Nat := l.foldl (fun a c => if rateMbaud a < rateMbaud c then c else a) 0

/-- The next lower rate code of a port's kind; code 0 at the bottom. Log 22 (DEDUCED). -/
def nextLower (p c : Nat) : Nat := fastest ((kindRates p).filter fun d => rateMbaud d < rateMbaud c)

/-- The next higher rate code of a port's kind. -/
def nextHigher (p c : Nat) : Nat := ((kindRates p).find? fun d => rateMbaud c < rateMbaud d).getD c

/-! ## Rings as the plan has them (R17–R20, R208, R251) -/

/-- The key of a ring: KIND × 8 + NUM (R270). -/
def RingPlan.key (r : RingPlan) : Nat := r.kind * 8 + r.num

/-- A ring that the plan does not name. -/
def noRing : RingPlan := ⟨0, 0, [], false, false⟩

/-- The rings of the active slice. -/
def ringPlans (s : State) : List RingPlan :=
  match s.pln.active with
  | some a => a.body.rings
  | none => []

/-- A ring's state. -/
def ringSt (key : Nat) (s : State) : Ring := FMap.get (fun _ => {}) s.lsh.rings key

/-- A ring's state changed. -/
def modRing (key : Nat) (f : Ring → Ring) (s : State) : State :=
  s.modLsh fun l => { l with rings := FMap.upd (fun _ => {}) l.rings key f }

/-- This hub's place in a ring (0 is the west or upstream terminating manager). -/
def myPlace (r : RingPlan) (s : State) : Option Nat := r.members.findIdx? (· = myDev s)

/-- The ring a port in use belongs to. -/
def portRing (p : Nat) (s : State) : Option RingPlan :=
  let u := portPlan p s
  if u.use = 0 ∨ u.use = 5 then none
  else if s.pln.role = 0 then (ringPlans s).find? (·.kind = 0)
  else if s.pln.role = 1 then
    (if isCP p then (ringPlans s).find? fun r => r.kind = 0 ∧ r.num = u.ring else (ringPlans s).find? (·.kind = 1))
  else (ringPlans s).find? fun r => r.kind = 1 ∧ r.num = u.ring

/-- Whether a port faces east or downstream. -/
def facesEast (p : Nat) (s : State) : Bool :=
  let u := portPlan p s
  decide (u.use = 2) || decide (u.use = 4) ||
    (match portRing p s with
     | some r => decide (s.pln.role = 2 ∨ (s.pln.role = 1 ∧ isCP p = true)) && decide (myPlace r s = some 0)
     | none => false)

/-- The hop of a port, numbered as in ring closure: hop j joins nodes j − 1 and j (R208). -/
def portHop (p : Nat) (s : State) : Option (RingPlan × Nat) :=
  match portRing p s with
  | none => none
  | some r =>
    match myPlace r s with
    | none => none
    | some i => some (r, if facesEast p s then i + 1 else i)

/-- The port of this hub on a ring that faces east or west. -/
def ringPort (key : Nat) (east : Bool) (s : State) : Option Nat :=
  (List.range 24).find? fun p =>
    match portRing p s with
    | some r => decide (r.key = key) && decide (facesEast p s = east)
    | none => false

/-- The other port of this hub on the ring of a port. -/
def otherPort (p : Nat) (s : State) : Option Nat :=
  match portRing p s with
  | none => none
  | some r => ringPort r.key (!facesEast p s) s

/-- The two ports of the duplex link (R255). -/
def duplexPorts (s : State) : List Nat := (List.range 24).filter fun p => (portPlan p s).use = 5

/-- Whether this end leads a link (R243): its west, upstream or manager A end. -/
def isLeader (p : Nat) (s : State) : Bool :=
  if (portPlan p s).use = 5 then decide (myHub s = 0) else facesEast p s

/-- The holder of a segment's pair as this hub knows it (R263): itself, its partner, the one announced last, manager A before any announcement. Log 76 (DEDUCED). -/
def holderOf (seg : Nat) (s : State) : Nat :=
  if isManager s ∧ seg = mySeg s then (if isHolder s then myHub s else if myHub s = 0 then 127 else 0)
  else (FMap.get (fun _ => (0, 0)) s.lsh.holders seg).1

/-- TX_DISABLE of a port as its use, its state and its cable class have it (R21, R246): asserted on an unused port, in the off state, and in electrical idle on class 2. -/
def txDisabled (p : Nat) (s : State) : Bool :=
  isCP p && (decide ((portPlan p s).use = 0) || decide ((lane p s).state = 0) || (decide ((lane p s).state = 5) && decide ((portPlan p s).cls = 2)))

/-- The TX_DISABLE ball of a port follows (R246). -/
def setTxDis (p : Nat) (s : State) : State :=
  let b := txDisabled p s
  let s := if isCP p ∧ (lane p s).txDis ≠ b then drive (.txDisable p b) s else s
  modLane p (fun l => { l with txDis := b }) s

/-- Whether record traffic may pass a port: up, and not in quarantine (R30, R236). -/
def carries (p : Nat) (s : State) : Bool := decide ((lane p s).state = 4) && !(port p s).q

/-! ## Control blocks (R302) -/

/-- Word 0 of a control block (R302). Log 18 (DEDUCED). -/
def CtrlBlk.word0 (c : CtrlBlk) : W128 :=
  mkW128 [(120, 8, c.sub), (112, 8, c.subByte), (103, 9, c.dseg), (96, 7, c.dhub), (87, 9, c.sseg), (80, 7, c.shub), (0, 64, c.fields)]

/-- A control block as a block to send: TYPE 0x30 + V (R232). -/
def CtrlBlk.toTx (c : CtrlBlk) : TxBlk := { typ := 0x30 + c.more.length, words := c.word0 :: c.more }

/-- A control block of this hub's own. Log 18 (DEDUCED). -/
def ctrlBlk (dseg dhub sub subByte fields : Nat) (more : List W128) (s : State) : CtrlBlk :=
  { dseg := dseg, dhub := dhub, sseg := mySeg s, shub := myHub s, sub := sub, subByte := subByte, fields := fields, more := more }

/-- A control block queued at a port: REPLAY and BREAK ahead of every other block (R279). -/
def sendCtrlOn (p : Nat) (c : CtrlBlk) (s : State) : State :=
  if c.sub = 0x01 ∨ c.sub = 0x02 ∨ c.sub = 0x10 then modLane p (fun l => { l with urgent := l.urgent ++ [c.toTx] }) s
  else modLane p (fun l => { l with ctl := l.ctl ++ [c.toTx] }) s

/-- A control block queued at several ports. -/
def sendCtrlAll (ps : List Nat) (c : CtrlBlk) (s : State) : State := ps.foldl (fun s p => sendCtrlOn p c s) s

/-- Hops from this hub to a member of a ring, one way or the other. -/
def hopsTo (r : RingPlan) (dev : Nat) (s : State) : Option (Bool × Nat) :=
  match myPlace r s, r.members.findIdx? (· = dev) with
  | some i, some j => if i = j then none else some (decide (i < j), if i < j then j - i else i - j)
  | _, _ => none

/-- The ports by which a block addressed to one device leaves (R249): on a ring of which it is a member, the way to it; else toward the managers of the level above, or onto the ring of its segment. The fewer hops win, and a tie leaves west or upstream. To the partner it is the duplex link, or with that down the manager ring (R250). -/
def routePorts (dseg dhub : Nat) (s : State) : List Nat :=
  let dev := dseg * 128 + dhub
  let ps := (List.range 24).filter fun p => decide ((portPlan p s).use ≠ 0) && decide ((lane p s).state = 4 ∨ (lane p s).state = 2 ∨ (lane p s).state = 3)
  let dup := duplexPorts s
  let pair := decide (dup ≠ []) && decide (dseg = mySeg s) && (decide (dhub = 0) || decide (dhub = 127))
  let direct := ps.filterMap fun p =>
    match portRing p s with
    | none => none
    | some r =>
      if pair && decide (r.kind = 0) then none else
      match hopsTo r dev s with
      | some (east, n) => if facesEast p s = east then some (p, n) else none
      | none => none
  if pair && dup.any (fun p => ps.contains p) then dup
  else
    match direct with
    | d :: ds => [(ds.foldl (fun a b => if b.2 < a.2 then b else a) d).1]
    | [] =>
      -- toward the managers: the end of a ring this hub belongs to with the fewer hops, west first
      let up := ps.filterMap fun p =>
        match portRing p s with
        | none => none
        | some r =>
          match myPlace r s with
          | none => none
          | some i =>
            if s.pln.role = 0 ∨ isCP p = false then some (p, if facesEast p s then r.members.length - 1 - i else i) else none
      match up with
      | [] => dup
      | d :: ds => [(ds.foldl (fun a b => if b.2 < a.2 then b else if b.2 = a.2 ∧ facesEast a.1 s = true then b else a) d).1]

/-- A control block sent to one device (R249). -/
def sendCtrl (c : CtrlBlk) (s : State) : State := sendCtrlAll (routePorts c.dseg c.dhub s) c s

/-- The other unit of this pair. -/
def partnerHub (s : State) : Nat := if myHub s = 0 then 127 else 0

/-- A Leash control block: term in [63:32], a number in [31:0] (R302). Log 18 (DEDUCED). -/
def leashBlk (dseg dhub sub term n : Nat) (s : State) : CtrlBlk := ctrlBlk dseg dhub sub 0 (term * 2 ^ 32 + n) [] s

/-- A block to the partner, over both duplex ports (R255). Log 18 (DEDUCED). -/
def toPartner (sub term n : Nat) (s : State) : State :=
  sendCtrlAll (duplexPorts s) (leashBlk (mySeg s) (partnerHub s) sub term n s) s

/-- A journal entry numbered, held until it is acknowledged, and sent to the standby (R257). Log 19 (DESIGN CHOICE). -/
def journal (e : JEntry) (s : State) : State :=
  if isManager s ∧ isHolder s ∧ duplexPorts s ≠ [] then
    let n := (s.lsh.jseq + 1) % 2 ^ 32
    toPartner 0x18 s.lsh.term n (s.modLsh fun l => { l with jseq := n, jout := l.jout ++ [(n, e)] })
  else s

/-- LSH.CTRL.PERIOD as it acts (R269): 0 acts as 1, above 100 as 100. -/
def ctrlPeriod (s : State) : Nat := let v := wbits (rfGet 0xA040 s) 16 8; if v = 0 then 1 else min v 100

/-- LSH.CTRL.REFMODE (R260): true for the fixed holder A. -/
def fixedHolder (s : State) : Bool := wbit (rfGet 0xA040 s) 14

/-- The lease period in force in ns (R266): a partner told a new PERIOD applies the longer of the two for one further period. Log 20 (DEDUCED). -/
def periodNs (s : State) : Nat :=
  (match s.lsh.perAt with
   | some t => if s.tim.up < t then max s.lsh.period (ctrlPeriod s) else ctrlPeriod s
   | none => s.lsh.period) * 1000000

/-- STAT.REF_UP (R269): the referee answered a renewal or a request within the last P. -/
def refUp (s : State) : Bool :=
  match s.lsh.refAt with
  | some t => decide (s.tim.up ≤ t + periodNs s)
  | none => false

/-- Every ring port in use. -/
def ringPorts (s : State) : List Nat := (List.range 24).filter fun p => (portRing p s).isSome

/-! ## Breaks, wrap and retrain (R245, R251–R254) -/

/-- Causes of a port page (R248). -/
def cpUP : Nat := 0
def cpDOWN : Nat := 1
def cpSTEPFAIL : Nat := 2
def cpWANDER : Nat := 3
def cpCRCBURST : Nat := 4
def cpREPLAYFAIL : Nat := 5
def cpEBERR : Nat := 6
def cpEIDLEIN : Nat := 7
def cpEIDLEOUT : Nat := 8
def cpLOS : Nat := 9
def cpFCLKLOST : Nat := 10

/-- The detail of a port's cause (R248): the port, and a rate code where the cause carries one. -/
def portDetail (p rate : Nat) : Nat := p * 256 + rate

/-- Causes of LSH (R270). -/
def lshTAKEOVER : Nat := 0
def lshLAPSE : Nat := 1
def lshREFUSED : Nat := 2
def lshDUPLEXDOWN : Nat := 3
def lshDUPLEXUP : Nat := 4
def lshRESYNCDONE : Nat := 5
def lshHANDOFF : Nat := 6
def lshWRAP : Nat := 7
def lshUNWRAP : Nat := 8
def lshMULTI : Nat := 9
def lshDRAINED : Nat := 10
def lshREJOINED : Nat := 11
def lshFENCED : Nat := 12
def lshGRANTREQ : Nat := 13

/-- A hop of a ring is known broken (R251, R253): counted once, WRAP raised, MULTI with the second. -/
def hopBroken (key hop : Nat) (s : State) : State :=
  if (ringSt key s).broken.contains hop then s
  else
    let s := bumpGen pgLSH (modRing key (fun r => { r with broken := r.broken ++ [hop], breaks := (r.breaks + 1) % 256 }) s)
    let s := raise pgLSH lshWRAP (key * 256 + hop) (condStart pgLSH lshWRAP (key * 256 + hop) s)
    if (ringSt key s).broken.length = 2 then raise pgLSH lshMULTI (key * 256 + hop) (condStart pgLSH lshMULTI key s) else s

/-- A hop of a ring is known restored (R252): UNWRAP raised. -/
def hopRestored (key hop : Nat) (s : State) : State :=
  if (ringSt key s).broken.contains hop then
    let s := bumpGen pgLSH (modRing key (fun r =>
      { r with broken := r.broken.filter (· ≠ hop), wraps := r.wraps.filter (· ≠ hop) }) s)
    let s := condEnd pgLSH lshWRAP (key * 256 + hop) s
    let s := if (ringSt key s).broken.length < 2 then condEnd pgLSH lshMULTI key s else s
    raise pgLSH lshUNWRAP (key * 256 + hop) s
  else s

/-- The BREAK and RESTORE notices (R302): ring and hop. -/
def breakBlk (sub key hop : Nat) (s : State) : CtrlBlk := ctrlBlk 0 126 sub 0 (key * 256 + hop) [] s

/-- The hop of a port breaks at this end (R251): the member wraps, turns the class B and C words bound across it back out of its other ring port, drops the class A words, and sends BREAK out of that port. -/
def wrapAt (p : Nat) (s : State) : State :=
  match portHop p s with
  | none => s
  | some (r, hop) =>
    let l := lane p s
    let s := hopBroken r.key hop s
    let s := modRing r.key (fun q => { q with wraps := if q.wraps.contains hop then q.wraps else q.wraps ++ [hop] }) s
    let s := modLane p (fun l => { l with strA := [], strB := [], strC := [] }) s
    match otherPort p s with
    | none => s
    | some o =>
      let s := modLane o (fun m => { m with strB := m.strB ++ l.strB, strC := m.strC ++ l.strC }) s
      sendCtrlOn o (breakBlk 0x10 r.key hop s) s

/-- The state of the duplex link after a port's change (R255): DUPLEX_DOWN when both ports are down, DUPLEX_UP when one is up again. -/
def duplexCheck (s : State) : State :=
  let ps := duplexPorts s
  let up := ps.any fun p => (lane p s).state = 4
  if ps = [] then s
  else if s.lsh.dupUp = true ∧ up = false then
    raise pgLSH lshDUPLEXDOWN 0 (condStart pgLSH lshDUPLEXDOWN 0 (s.modLsh fun l => { l with dupUp := false }))
  else if s.lsh.dupUp = false ∧ up = true then
    raise pgLSH lshDUPLEXUP 0 (condEnd pgLSH lshDUPLEXDOWN 0 (s.modLsh fun l => { l with dupUp := true }))
  else s

/-- Peaking at a start (R239): PEAK.INIT where it overrides, else the value of the cable class. -/
def peakStart (p : Nat) (s : State) : Nat :=
  let w := rfGet (pgPort p * 4096 + 0x4C) s
  if wbit w 31 then wbits w 27 4
  else match (portPlan p s).cls with
    | 0 => 9
    | 1 => 13
    | 2 => 3
    | 3 => 11
    | 4 => 7
    | _ => 13

/-- The words of a class stream that wait at a port. -/
def Lane.str (cls : Nat) (l : Lane) : List W128 := if cls = 1 then l.strA else if cls = 2 then l.strB else l.strC
/-- The words of a class stream replaced. -/
def Lane.setStr (cls : Nat) (ws : List W128) (l : Lane) : Lane :=
  if cls = 1 then { l with strA := ws } else if cls = 2 then { l with strB := ws } else { l with strC := ws }

/-- The words of the segment under way that are still to be sent, after some more (R276). Log 46 (DEDUCED). -/
def segLeft (n : Nat) (ws : List W128) : Nat := ws.foldl (fun n w => if n = 0 then bits w.toNat 60 8 else n - 1) n

/-- The rest of the segment that a retrain cuts (R276): the first data block after it starts a new one; what has come of one that is not whole is lost with it. Log 46 (DEDUCED). -/
def Lane.cut (l : Lane) : Lane :=
  { [1, 2, 3].foldl (fun l c => l.setStr c ((l.str c).drop (FMap.get (fun _ => 0) l.segOut c))) l with segOut := [], rxSeg := [] }

/-- A port leaves the up state: its hop is broken and the member wraps (R251); the duplex link may be down. -/
def leaveUp (p : Nat) (s : State) : State :=
  let s := modLane p Lane.cut s
  if (portPlan p s).use = 5 then duplexCheck s else wrapAt p s

/-- A ring port that is not up breaks its hop where the member does not wrap there yet (R30, R251). Log 26 (DEDUCED). -/
def breakHop (p : Nat) (s : State) : State :=
  match portHop p s with
  | none => s
  | some (r, hop) => if (lane p s).state = 4 ∨ (ringSt r.key s).wraps.contains hop then s else wrapAt p s

/-- A port returns to hunt at rate code 0 (R243, R245): locks, replay and step state start again. A port that leaves the off state starts its exchange number, its idle pairs and its running disparity afresh (R228, R241). Log 75 (PRESUMED). -/
def toHunt (p : Nat) (s : State) : State :=
  let was := (lane p s).state
  let pk := peakStart p s
  let off := decide (was = 0)
  let s := modLane p (fun l =>
    { l with state := 1, rate := 0, slock := false, block := false, hunt := 0, hist := 0, rxSeq := none, missing := none,
             discards := [], exitHdrs := 0, exitCap := false, lead := none, eidleRx := false, cvHist := 0, stepOp := 0, switched := false, failed := [], okRate := none,
             goOk := false, target := 0, kept := [], resend := [], resendFirst := false, peakCur := pk, rxXn := none,
             xn := if off then 0 else l.xn, prbs7 := if off then 127 else l.prbs7, txRd := if off then false else l.txRd,
             rxRd := if off then false else l.rxRd }) s
  let s := if (port p s).q then s else bumpGen pgPLN s
  let s := modPort p (fun q => { q with streak := 0, q := true, first := if q.q then q.first else 0 }) s
  let s := setTxDis p (bumpGen (pgPort p) s)
  if was = 4 ∨ was = 5 ∨ was = 6 then leaveUp p s else s

/-- The loss of block lock at a port (R235, R236): DOWN, counted, and a retrain (R245). Locks of a port that is stepping are its switch's own. -/
def lockLost (p : Nat) (s : State) : State :=
  let s := modLane p (fun l => { l with lockloss := (l.lockloss + 1) % 256 }) s
  let s := raise (pgPort p) cpDOWN (portDetail p 0) s
  toHunt p s

/-- A retrain by another cause than loss of lock (R245). -/
def retrain (p : Nat) (s : State) : State := toHunt p s

/-- A port not in use: off, in electrical idle, its transmitter off; it reports no loss of signal (R21). -/
def portOff (p : Nat) (s : State) : State :=
  let was := (lane p s).state
  let s := modLane p (fun l => { l with state := 0, slock := false, block := false, rate := 0, los := false }) s
  let s := condEnd (pgPort p) cpLOS p s
  let s := setTxDis p (bumpGen (pgPort p) s)
  if was = 4 then leaveUp p s else s

/-! ## Where a source's own records go (R249, R251) -/

/-- The ports on which a source here sends a class on a ring: class A on both ring ports that carry records, classes B and C in the primary direction, away from broken hops and from a port in quarantine; none where no end can be reached (R253). -/
def sendPorts (r : RingPlan) (cls : Nat) (s : State) : List Nat :=
  match myPlace r s with
  | none => []
  | some i =>
    let br := (ringSt r.key s).broken
    let east := (ringPort r.key true s).toList
    let west := (ringPort r.key false s).toList
    let eastCut := (br.any fun h => i < h) || !(east.all fun p => carries p s)
    let westCut := (br.any fun h => h ≤ i) || !(west.all fun p => carries p s)
    if cls = 1 then (west ++ east).filter fun p => carries p s
    else if eastCut ∧ westCut then []
    else if eastCut then west
    else if westCut then east
    else if (if cls = 2 then r.eastB else r.eastC) then east else west

/-- Whole segments put on a port's class stream. -/
def putStream (p cls : Nat) (ws : List W128) (s : State) : State :=
  modLane p (fun l => l.setStr cls (l.str cls ++ ws)) s

/-- Words put on the class streams of several ports. -/
def putStreams (ps : List Nat) (cls : Nat) (ws : List W128) (s : State) : State :=
  ps.foldl (fun s p => putStream p cls ws s) s

/-- The segments that stand whole at the head of a class stream (R276), and the words after them. Log 46 (DEDUCED). -/
def wholeSegs : Nat → List W128 → List W128 × List W128
  | 0, ws => ([], ws)
  | _ + 1, [] => ([], [])
  | n + 1, w :: ws =>
    let k := bits w.toNat 60 8
    if ws.length < k then ([], w :: ws)
    else
      let r := wholeSegs n (ws.drop k)
      (w :: ws.take k ++ r.1, r.2)

/-- The tag word of a segment (R276). -/
def tagWord (seq dev con words : Nat) (res beat : Bool) : W128 :=
  mkW128 [(96, 32, seq), (87, 9, dev / 128), (80, 7, dev % 128), (68, 12, con), (60, 8, words), (59, 1, b2n res), (58, 1, b2n beat)]

end Sys2Proof.Machine
end

