-- ==== Sys2Proof/Machine/Lanes.lean ====
section
/-! DEFINITION. Ronnyx lanes and the neighbour check: blocks, alignment, replay, idle, bring-up and step-up (R29–R34, R226–R248, R278, R279). -/

namespace Sys2Proof.Machine

/-! ## The neighbour check (R29–R34) -/

/-- The plan identities accepted now (R34): the active one, the pending one while staged, the old one until its window closes. -/
def acceptedIds (s : State) : List (Nat × Nat) :=
  (s.pln.active.map fun a => (a.num, a.planDigest)).toList ++
  (s.pln.pend.map fun a => (a.num, a.planDigest)).toList ++ s.pln.oldId.toList

/-- Causes of PLN (R40). -/
def plnSTRAP : Nat := 0
def plnSLICEREJ : Nat := 1
def plnQUAR : Nat := 2
def plnQUARCLR : Nat := 3
def plnSTAGED : Nat := 4
def plnACTIVATED : Nat := 5
def plnMISSED : Nat := 6

/-- The causes of R29 that fail on a capability block, bit by bit. Without an active slice only the identity can be compared. Log 22 (DEDUCED). -/
def checkCauses (p : Nat) (c : CapBlk) (s : State) : Nat :=
  let u := portPlan p s
  let ident := !((acceptedIds s).contains (c.planNum, c.planDigest))
  match s.pln.active with
  | none => b2n ident
  | some _ =>
    if u.use = 0 then 32 + b2n ident
    else
      b2n ident + 2 * b2n (decide (c.seg ≠ u.seg)) + 4 * b2n (decide (c.hub ≠ u.hub)) + 8 * b2n (decide (c.role ≠ u.role)) +
      16 * b2n (decide (c.port ≠ u.port))

/-- A failed exchange (R29, R30): counted, its causes kept, the port quarantined, QUAR raised once; FIRST keeps the lowest of several causes of one exchange; a ring port breaks its hop. Log 22 (DEDUCED), 77 (DESIGN CHOICE). -/
def exchangeFails (p causes : Nat) (s : State) : State :=
  let s := modPort p (fun q =>
    { q with fails := satAdd 65535 q.fails 1, cause := causes, streak := 0, q := true,
             first := if q.q ∧ q.first ≠ 0 then q.first else (lowBit 6 causes).getD 0 + 1 }) s
  let s := bumpGen pgPLN (raiseOnce pgPLN plnQUAR p 0 s)
  if (lane p s).state = 4 then s else breakHop p s

/-- A matching exchange (R31): the third in a row, 20 ms after the first at the earliest, clears quarantine and raises QUAR_CLR. -/
def exchangeMatches (p : Nat) (s : State) : State :=
  let q := port p s
  let since := if q.streak = 0 then s.tim.up else q.matchAt
  let clear := decide (3 ≤ q.streak + 1) && decide (since + 20000000 ≤ s.tim.up)
  let s := bumpGen pgPLN (modPort p (fun q => { q with streak := q.streak + 1, matchAt := since, q := q.q && !clear }) s)
  if q.q ∧ clear then raise pgPLN plnQUARCLR 0 (condEnd pgPLN plnQUAR p s) else s

/-! ## Capability blocks (R241, R242) -/

/-- A digest as a 256-bit number whose low byte is digest byte 0 (R242). -/
def digestLE (d : Nat) : Nat := leNat (beBytes 32 d)

/-- The capability block a port sends now (R242). -/
def capOf (p : Nat) (s : State) : CapBlk :=
  let l := lane p s
  { planNum := (s.pln.active.map (·.num)).getD 0, seg := mySeg s, hub := myHub s, role := s.pln.role, port := p, xn := l.xn,
    q := (port p s).q, locked := l.block, rates := rateMask (offered p s), step := l.target, stepOp := l.stepOp, goOk := l.goOk,
    planDigest := (s.pln.active.map (·.planDigest)).getD 0, feat := s.fab.offer.toNat,
    pendNum := (s.pln.pend.map (·.num)).getD 0, cls := (portPlan p s).cls,
    pendDigest := (s.pln.pend.map (·.planDigest)).getD 0 }

/-- The words of a capability block (R242). -/
def CapBlk.words (c : CapBlk) : List W128 :=
  let d := digestLE c.planDigest
  let e := digestLE c.pendDigest
  [mkW128 [(64, 64, c.planNum), (55, 9, c.seg), (48, 7, c.hub), (46, 2, c.role), (41, 5, c.port), (28, 8, c.xn), (27, 1, b2n c.q),
           (26, 1, b2n c.locked), (20, 6, c.rates), (17, 3, c.step), (15, 2, c.stepOp), (14, 1, b2n c.goOk)],
   BitVec.ofNat 128 d, BitVec.ofNat 128 (d / 2 ^ 128), BitVec.ofNat 128 c.feat,
   mkW128 [(64, 64, c.pendNum), (60, 4, c.cls)], BitVec.ofNat 128 e, BitVec.ofNat 128 (e / 2 ^ 128)]

/-- A capability block queued at a port. -/
def sendCap (p : Nat) (s : State) : State :=
  let b : TxBlk := { typ := 0x16, words := (capOf p s).words }
  modLane p (fun l => { l with ctl := l.ctl ++ [b] }) s

/-- CAP_SEND_TIMER (R241, R243): a port in hunt, quarantine or step sends a capability block. -/
def execCapSendTimer (p : Port) (s : State) : Out3 :=
  .next (let st := (lane p.val s).state
         if st = 1 ∨ st = 2 ∨ st = 3 then sendCap p.val s else s)

/-- CAP_XN_TICK (R241): the exchange number increments on a port that sends capability blocks. -/
def execCapXnTick (p : Port) (s : State) : Out3 :=
  .next (let st := (lane p.val s).state
         if st = 1 ∨ st = 2 ∨ st = 3 then modLane p.val (fun l => { l with xn := (l.xn + 1) % 256 }) s else s)

/-! ## Step-up (R243, R244) -/

/-- A port enters up (R243, R244): UP with the rate code. -/
def portUp (p : Nat) (s : State) : State :=
  let t := (lane p s).target
  let fell := decide ((lane p s).rate ≠ t)
  let s := bumpGen (pgPort p) (modLane p (fun l => { l with state := 4, stepOp := 0, switched := false, goOk := false, stepfail := fell, prbsTx := 2 ^ 31 - 1, prbsRx := 2 ^ 31 - 1 }) s)
  let rate := (lane p s).rate
  let s := raise (pgPort p) cpUP (portDetail p rate) s
  let s :=
    if fell then raise (pgPort p) cpSTEPFAIL (portDetail p rate) (modLane p (fun l => { l with stepfails := (l.stepfails + 1) % 256 }) s)
    else s
  if (portPlan p s).use = 5 then duplexCheck s else s

/-- A rate switch at this end (R244): the training burst, locks from the start, the elastic buffer at 16 (R238), peaking at its start value (R239). -/
def switchRate (p c : Nat) (s : State) : State :=
  let pk := peakStart p s
  bumpGen (pgPort p) (sendSyms p burstSyms (drive (.burst p) (modLane p (fun l =>
    { l with rate := c, slock := false, block := false, hunt := 0, hist := 0, rxSeq := none, missing := none, switched := true,
             goOk := false, stepOp := 0, peakCur := pk, fill := 16 }) s)))

/-- A rate under trial succeeds (R244): up at the target or where the next rate has failed twice, else the failed rate once more. -/
def stepGood (p : Nat) (s : State) : State :=
  let l := lane p s
  let up := nextHigher p l.rate
  let s := modLane p (fun l => { l with okRate := some l.rate }) s
  if l.rate = l.target ∨ 2 ≤ l.failed.count up then portUp p s else switchRate p up s

/-- A rate under trial fails (R244): the next lower rate, or the highest that succeeded after a second failure, or hunt after two failures at rate code 0. -/
def stepBad (p : Nat) (s : State) : State :=
  let l := lane p s
  let f := l.rate :: l.failed
  let s := modLane p (fun l => { l with failed := f }) s
  if 2 ≤ f.count 0 then toHunt p s
  else match l.okRate with
    | some k => if 2 ≤ f.count l.rate then switchRate p k s else switchRate p (nextLower p l.rate) s
    | none => switchRate p (nextLower p l.rate) s

/-- The rates both ends may run (R242, R243): offered by both, not above the lower of the two class limits. Log 22 (DEDUCED). -/
def commonRates (p : Nat) (c : CapBlk) (s : State) : List Nat :=
  (offered p s).filter fun k => c.rates.testBit k && decide (rateMbaud k ≤ classLimit c.cls)

/-- The step operation as a capability block of the partner moves it (R244). The follower agrees to no rate above its own limits (R22); the leader acts on its own go and GO_OK once their block has ended (`afterCap`). -/
def stepCap (p : Nat) (c : CapBlk) (s : State) : State :=
  let l := lane p s
  if l.state ≠ 3 then s
  else if isLeader p s then
    if l.switched = false then
      if l.stepOp = 1 ∧ c.stepOp = 2 then sendCap p (modLane p (fun l => { l with stepOp := 3 }) s) else s
    else if l.block ∧ c.locked ∧ l.goOk = false then sendCap p (modLane p (fun l => { l with goOk := true }) s)
    else s
  else
    if l.switched = false then
      if c.stepOp = 1 ∧ (commonRates p c s).contains c.step then sendCap p (modLane p (fun l => { l with stepOp := 2, target := c.step }) s)
      else if c.stepOp = 3 ∧ l.stepOp = 2 then switchRate p l.target s
      else s
    else if c.goOk then stepGood p s
    else s

/-- A capability block of the leader has ended (R244): it switches after its go, and the step goes on after its GO_OK. -/
def afterCap (p : Nat) (b : TxBlk) (s : State) : State :=
  let l := lane p s
  let w := (nth 0 b.words 0).toNat
  if b.typ ≠ 0x16 ∨ l.state ≠ 3 ∨ isLeader p s = false then s
  else if l.switched = false ∧ l.stepOp = 3 ∧ bits w 15 2 = 3 then switchRate p l.target s
  else if l.switched ∧ l.goOk ∧ w.testBit 14 then stepGood p s
  else s

/-- Quarantine is clear at both ends (R243): the step begins, or ends at once at the rate in use. -/
def enterStep (p : Nat) (c : CapBlk) (s : State) : State :=
  let t := fastest (commonRates p c s)
  let lead := isLeader p s
  let s := bumpGen (pgPort p) (modLane p (fun l =>
    { l with state := 3, target := t, stepOp := if lead ∧ t ≠ l.rate then 1 else 0, switched := false, failed := [], okRate := none }) s)
  if t = (lane p s).rate then portUp p s else sendCap p s

/-- An idle exit ends (R240): two valid headers have come and the capability block matches. -/
def exitUp (p : Nat) (s : State) : State :=
  if (lane p s).exitCap ∧ 2 ≤ (lane p s).exitHdrs then
    let s := bumpGen (pgPort p) (modLane p (fun l => { l with state := 4, exitHdrs := 0, exitCap := false, eidleRx := false }) s)
    let s := condEnd (pgPort p) cpEIDLEIN p s
    let s := raise (pgPort p) cpEIDLEOUT (portDetail p 0) s
    if (portPlan p s).use = 5 then duplexCheck s else s
  else s

/-- CAP_EXCHANGE (R29–R34, R241–R244): the block is kept, checked once for each exchange number, and moves the step or the idle exit. -/
def execCapExchange (p : Port) (c : CapBlk) (s : State) : Out3 :=
  let p := p.val
  let causes := checkCauses p c s
  let l := lane p s
  let isNew := decide (l.rxXn ≠ some c.xn)
  let s := bumpGen pgPLN (modPort p (fun q => { q with peer := some c, idOk := !(causes.testBit 0), fresh := true }) s)
  let feat := (s.fab.offer.toNat &&& c.feat) ||| 1
  let s := if l.lfeat = feat then s else bumpGen (pgPort p) s
  let s := modLane p (fun l => { l with rxXn := some c.xn, peerRates := c.rates, lfeat := feat }) s
  if l.state = 6 then
    if causes = 0 then .next (exitUp p (modLane p (fun l => { l with exitCap := true }) s))
    else .next (retrain p (exchangeFails p causes s))
  else
    let s :=
      if isNew = false then s
      else if causes ≠ 0 then
        let s := exchangeFails p causes s
        if l.state = 3 ∨ l.state = 4 then retrain p s else s
      else if l.state = 2 ∨ l.state = 3 then exchangeMatches p s
      else s
    if (lane p s).state = 2 ∧ (port p s).q = false ∧ c.q = false ∧ causes = 0 then .next (enterStep p c s)
    else .next (stepCap p c s)

/-- STEP_TIMEOUT (R244): a trial that is not confirmed in time fails at its rate. -/
def execStepTimeout (p : Port) (s : State) : Out3 :=
  .next (if (lane p.val s).state = 3 ∧ (lane p.val s).switched ∧ (lane p.val s).goOk = false then stepBad p.val s else s)

/-! ## Alignment (R235) -/

/-- HUNT_TIMEOUT (R243): the clock recovery restarts and hunting continues. -/
def execHuntTimeout (p : Port) (s : State) : Out3 :=
  .next (if (lane p.val s).state = 1 then modLane p.val (fun l => { l with slock := false, block := false, hunt := 0 }) s else s)

/-- SYMBOL_LOCK (R235): four commas at one alignment give symbol lock. -/
def execSymbolLock (p : Port) (s : State) : Out3 :=
  .next (let st := (lane p.val s).state
         if st = 0 ∨ st = 5 then s
         else if (lane p.val s).slock then s
         else modLane p.val (fun l => { l with slock := true, block := false, hunt := 0 }) s)

/-- Block lock (R235): the elastic buffer at 16 (R238), the number sequence from the next header, hunt left for quarantine (R243). -/
def blockLocked (p : Nat) (s : State) : State :=
  let s := modLane p (fun l =>
    { l with block := true, hunt := 16, hist := 0, rxSeq := none, missing := none, fill := 16,
             state := if l.state = 1 then 2 else l.state }) s
  bumpGen (pgPort p) s

/-- Whether a TYPE is defined (R232). -/
def typeDefined (t : Nat) : Bool :=
  decide (t = 0x00) || decide (t = 0x16) || decide (t = 0x25) || decide (t = 0x40) || decide (t = 0xB7) ||
  (decide (0x30 ≤ t) && decide (t ≤ 0x3F)) || (decide (0x80 ≤ t) && decide (t ≤ 0xAF))

/-- Whether a TYPE carries a replayable block: CTRL or DATA (R232). -/
def typeReplayable (t : Nat) : Bool := (decide (0x30 ≤ t) && decide (t ≤ 0x3F)) || (decide (0x80 ≤ t) && decide (t ≤ 0xAF))

/-- Whether a header is valid (R233). -/
def headerValid (b : RxBlock) : Bool :=
  b.k28 && decide (b.cvHdr = 0) && typeDefined b.typ && decide (b.hchk = crc8 [BitVec.ofNat 8 b.typ, BitVec.ofNat 8 b.seq])


/-- The number of ones among the low 16 bits. -/
def ones16 (n : Nat) : Nat := onesOf 16 n

/-! ## Discards and replay (R237) -/

/-- The REPLAY request for a first missing SEQ, ahead of all other traffic. Log 23 (DEDUCED). -/
def askReplay (p seq : Nat) (s : State) : State :=
  let s := sendCtrlOn p (ctrlBlk 0 125 0x01 seq 0 [] s) s
  modLane p (fun l => { l with missing := some seq, replays := (l.replays + 1) % 65536 }) s

/-- A discarded block (R233, R237): counted, 16 within 1 ms retrain the port (R245), and a replay is asked for a replayable one, or where its number shows a gap. -/
def discardBlock (p typ : Nat) (gap : Bool) (first : Nat) (s : State) : State :=
  let s := modLane p (fun l =>
    { l with crc := (l.crc + 1) % 65536, discards := s.tim.up :: l.discards.filter fun t => s.tim.up ≤ t + 1000000 }) s
  if 16 ≤ (lane p s).discards.length then
    retrain p (raise (pgPort p) cpCRCBURST (portDetail p 0) s)
  else if typeReplayable typ ∨ gap then askReplay p first s
  else s

/-! ## Taking and forwarding (R249–R251) -/

/-- Whether a control block is for this hub, and whether it goes further (R302). -/
def ctrlFor (w : W128) (s : State) : Bool × Bool :=
  let dhub := bits w.toNat 96 7
  let dseg := bits w.toNat 103 9
  if dhub = 125 then (true, false)
  else if dhub = 126 then (true, true)
  else if dhub = myHub s ∧ dseg = mySeg s ∧ s.pln.active.isSome then (true, false)
  else if s.pln.active.isSome then (false, true)
  else (decide (dhub = myHub s), false)

/-- Every port in use. -/
def usedPorts (s : State) : List Nat := (List.range 24).filter fun p => (portPlan p s).use ≠ 0

/-- Whether an announced epoch number is above the one in force and those held (R218). -/
def annNews (n : Nat) (s : State) : Bool :=
  decide (s.tim.epoch < n) && (match s.tim.ann with
    | some a => decide (a.next < n)
    | none => true) && (match s.tim.ann2 with
    | some a => decide (a.next < n)
    | none => true)

/-- A control block passed on (R215, R249): a manager hands a new epoch announcement to every other port in use; any other block goes to every member it reaches out of the ring's other port, or along its route. BREAK and RESTORE go onward when they are acted on (R251, R252). A register request that a link of its path does not carry ends with code 3 (R413). Log 18, 44 (DEDUCED). -/
def passCtrl (p : Nat) (ws : List W128) (s : State) : State :=
  match ws with
  | [] => s
  | w :: more =>
    let dhub := bits w.toNat 96 7
    let b : TxBlk := { typ := 0x30 + more.length, words := ws }
    let ps := if bits w.toNat 121 7 = 8 then []
      else if bits w.toNat 120 8 = 0x20 ∧ isManager s then (if annNews (bits (nth 0 more 0).toNat 96 32) s then (usedPorts s).filter (· ≠ p) else [])
      else if dhub = 126 then (otherPort p s).toList else (routePorts (bits w.toNat 103 9) dhub s).filter (· ≠ p)
    let request := decide (bits w.toNat 120 8 = 0x1C) && (decide (bits w.toNat 112 8 = 0x40) || decide (bits w.toNat 112 8 = 0x41))
    if request && decide (ps ≠ []) && !(ps.all fun q => (lane q s).lfeat.testBit 4) then
      sendCtrl (ctrlBlk (bits w.toNat 87 9) (bits w.toNat 80 7) 0x1C 0x42 24 [] s) s
    else ps.foldl (fun s q => modLane q (fun l => { l with ctl := l.ctl ++ [b] }) s) s

/-- The class of a data block's TYPE. -/
def dataClass (t : Nat) : Nat := if t < 0x90 then 1 else if t < 0xA0 then 2 else 3

/-- The manager-ring port by which a standby reaches the holder while the duplex link is down (R250): on a segment manager the way to its partner, on a head the ring's own port. Log 18 (DEDUCED). -/
def ringToHolder (p : Nat) (s : State) : List Nat :=
  (if s.pln.role = 2 then [p]
   else
     match (ringPlans s).find? (·.kind = 1) with
     | none => []
     | some r =>
       match hopsTo r (mySeg s * 128 + partnerHub s) s with
       | none => []
       | some (east, _) => (ringPort r.key east s).toList).filter fun q => carries q s

/-- A data block of record traffic (R249–R251): a worker passes it on, turning classes B and C back at a hop where it wraps and dropping class A there; a manager takes it, a standby passing classes B and C to the holder over the duplex link, or over the manager ring, or dropping them with neither path open. What goes on goes as whole segments. Log 46 (DEDUCED). -/
def passData (p typ : Nat) (ws : List W128) (s : State) : State :=
  let cls := dataClass typ
  let got := FMap.get (fun _ => []) (lane p s).rxSeg cls ++ ws
  let r := wholeSegs got.length got
  let s := modLane p (fun l => { l with rxSeg := FMap.put (fun _ => []) l.rxSeg cls r.2 }) s
  let take := drive (.taken p typ ws) s
  let ws := r.1
  if s.pln.role = 0 then
    match otherPort p s with
    | none => s
    | some o =>
      if carries o s then putStream o cls ws s
      else if cls = 1 then s
      else putStream p cls ws s
  else if (portPlan p s).use = 5 then take
  else
    -- a manager's ring port: members of a manager ring pass records along it, and each unit takes what ends at its pair
    let onward : State → State := fun s =>
      if s.pln.role = 1 ∧ isCP p = false then
        match otherPort p s with
        | none => s
        | some o => if carries o s then putStream o cls ws s else if cls = 1 then s else putStream p cls ws s
      else s
    if s.pln.role = 1 ∧ isCP p = false then onward s
    else if cls = 1 ∨ isHolder s then take
    else putStreams (if s.lsh.dupUp then duplexPorts s else ringToHolder p s) cls ws s

/-- Whether a block is a REPLAY or a REPLAY_FAIL, which no replay makes the receiver drop (R237). -/
def isReplayCtrl (typ : Nat) (ws : List W128) : Bool :=
  decide (0x30 ≤ typ) && decide (typ ≤ 0x3F) && (decide (bits (nth 0 ws 0).toNat 120 8 = 1) || decide (bits (nth 0 ws 0).toNat 120 8 = 2))

/-- The other port of the duplex link has taken this block already (R255): the receiver takes the first good copy by SEQ. Hop-local blocks are each port's own. Log 46 (DEDUCED). -/
def secondCopy (p : Nat) (k : Nat × Nat × List W128) (s : State) : Option Nat :=
  if (portPlan p s).use ≠ 5 then none
  else (duplexPorts s).find? fun o => decide (o ≠ p) && (lane o s).copies.contains k

/-- A block first seen on a duplex port is remembered until its copy comes (R255). Log 46 (DEDUCED). -/
def noteCopy (p : Nat) (k : Nat × Nat × List W128) (s : State) : State :=
  if (portPlan p s).use = 5 ∧ ¬ (k.2.1 ≤ 0x3F ∧ bits (nth 0 k.2.2 0).toNat 96 7 = 125) then modLane p (fun l => { l with copies := (k :: l.copies).take 128 }) s else s

/-- An accepted block (R232–R240): RXBLK and the peaking reference, the end of a wander episode, the payload taken or passed on. A block that shows a gap in the numbers ends no dropping (R237). Record blocks pass only an up port out of quarantine (R30). Log 23 (DEDUCED). -/
def acceptBlock (p : Nat) (b : RxBlock) (gap : Bool) (s : State) : State :=
  let idle := decide (b.typ = 0)
  let s := modLane p (fun l =>
    { l with rxblk := if idle then l.rxblk else l.rxblk + 1, peakRef := if idle then l.peakRef else l.peakCur, idleRx := idle,
             wg := l.wg && idle }) s
  let s := if idle then s else condEnd (pgPort p) cpWANDER p s
  let v := b.typ % 8 + 1
  let ws := b.words.take v
  let l := lane p s
  if idle then s
  else if typeReplayable b.typ ∧ l.missing.isSome ∧ (b.typ.testBit 3 = false ∨ gap) ∧ isReplayCtrl b.typ ws = false then s
  else
    let s := if typeReplayable b.typ ∧ b.typ.testBit 3 ∧ gap = false then modLane p (fun l => { l with missing := none }) s else s
    if b.typ = 0x16 ∨ b.typ = 0x25 ∨ b.typ = 0x40 ∨ b.typ = 0xB7 then drive (.taken p b.typ ws) s
    else match secondCopy p (b.seq, b.typ - (if b.typ.testBit 3 then 8 else 0), ws) s with
    | some o => modLane o (fun l => { l with copies := l.copies.filter (· ≠ (b.seq, b.typ - (if b.typ.testBit 3 then 8 else 0), ws)) }) s
    | none =>
    let s := noteCopy p (b.seq, b.typ - (if b.typ.testBit 3 then 8 else 0), ws) s
    if b.typ ≤ 0x3F then
      let f := ctrlFor (nth 0 ws 0) s
      let s := if f.1 then drive (.taken p b.typ ws) s else s
      if f.2 then passCtrl p ws s else s
    else if carries p s then passData p b.typ ws s
    else s

/-- The elastic buffer (R238): what it gained or lost, the skip pairs received, corrections outside 12 to 20. Answers whether it overflowed or ran empty. -/
def elastic (b : RxBlock) (l : Lane) : Lane × Bool :=
  let f0 : Int := l.fill + b.drift
  let step (a : Int × Nat) (_ : Nat) : Int × Nat :=
    if 20 < a.1 then (a.1 - 2, a.2 + 1) else if a.1 < 12 then (a.1 + 2, a.2 + 1) else a
  let r := (List.range b.skips).foldl step (f0, 0)
  let err := decide (f0 ≤ 0 ∨ 32 < f0)
  ({ l with fill := if err then 16 else (clampInt 0 32 r.1).toNat, skipadj := (l.skipadj + r.2) % 65536,
            eberr := if err then (l.eberr + 1) % 256 else l.eberr }, err)

/-- A block in lock whose header is valid (R233, R237, R238): the elastic buffer, the CRC and the number sequence, then the payload. A discard, or a gap, asks for a replay from the successor of the previous valid header on. -/
def lockedBlock (p : Nat) (b : RxBlock) (s : State) : State :=
  let e := elastic b (lane p s)
  let next := match (lane p s).rxSeq with
    | some q => (q + 1) % 256
    | none => b.seq
  let gap := decide (next ≠ b.seq)
  let s := modLane p (fun _ => { e.1 with rxSeq := some b.seq }) s
  if e.2 then
    let s := raiseOnce (pgPort p) cpEBERR p (portDetail p 0) s
    discardBlock p b.typ gap next s
  else if b.typ ≠ 0 ∧ b.crc ≠ crc32 (crcBytes b.typ b.seq b.words) then discardBlock p b.typ gap next s
  else acceptBlock p b gap (if gap then askReplay p next s else s)

/-- A block slot as a port's receiver has read it (R235, R240): hunt, idle exit, or lock. -/
def takeBlock (p : Nat) (b : RxBlock) (s : State) : State :=
  let l := lane p s
  let s := modLane p (fun l => { l with cv := (l.cv + b.cvHdr + b.cvRest) % 65536 }) s
  let valid := headerValid b
  if b.cvBurst then
    if l.block then lockLost p s else modLane p (fun l => { l with slock := false, hunt := 0 }) s
  else if l.slock = false ∧ l.state ≠ 6 then s
  else if l.state = 6 ∧ l.block = false then
    if valid then
      let s := modLane p (fun l => { l with exitHdrs := if b.atPhase then l.exitHdrs + 1 else 1 }) s
      if 2 ≤ (lane p s).exitHdrs then
        exitUp p (lockedBlock p b (modLane p (fun l => { l with slock := true, block := true, fill := 16 }) s))
      else
        let s := modLane p (fun l => { l with rxSeq := some b.seq }) s
        if b.typ = 0x16 ∧ b.crc = crc32 (crcBytes b.typ b.seq b.words) then drive (.taken p b.typ (b.words.take 7)) s else s
    else s
  else if l.block = false then
    if valid then
      let n := if 0 < l.hunt ∧ b.atPhase then l.hunt + 1 else 1
      let s := modLane p (fun l => { l with hunt := n }) s
      if n = 16 then blockLocked p s else s
    else modLane p (fun l => { l with hunt := 0 }) s
  else
    let s := modLane p (fun l => { l with hist := (l.hist * 2 + b2n (!valid)) % 65536 }) s
    if valid = false then
      let s := modLane p (fun l => { l with hdr := (l.hdr + 1) % 65536 }) s
      if 4 ≤ ones16 (lane p s).hist then lockLost p s else s
    else lockedBlock p b s

/-- BLOCK_RECEIVE (R227–R239, R245, R249–R253): the code-groups read under the lane's running disparity, then alignment, lock and payload. Log 8 (DESIGN CHOICE). -/
def execBlockReceive (p : Port) (r : RxSlot) (s : State) : Out3 :=
  let l := lane p.val s
  if l.state = 0 ∨ l.state = 5 then .next s
  else
    let x := readSlot r l
    .next (takeBlock p.val x.1 (modLane p.val (fun _ => x.2) s))

/-- The number, among the blocks sent, of the latest block sent with a SEQ, where the next one to be sent has number `n`; that of a block never sent is none. -/
def sentAs (n seq : Nat) : Option Nat :=
  let age := (n % 256 + 255 - seq % 256) % 256 + 1
  if age ≤ n then some (n - age) else none

/-- REPLAY_RECEIVE (R237): every replayable block sent from the named SEQ on is resent, the first with R = 1; a SEQ older than the blocks held gives REPLAY_FAIL and a retrain. Log 23 (DEDUCED). -/
def execReplayReceive (p : Port) (seq : Nat) (s : State) : Out3 :=
  let p := p.val
  let l := lane p s
  let from_ := (sentAs l.txN seq).getD 0
  let old := match l.kept.getLast? with
    | some k => decide (l.kept.length = 128) && decide (from_ < k.1)
    | none => false
  if l.state = 0 ∨ l.state = 5 then .next s
  else if old then
    .next (let s := sendCtrlOn p (ctrlBlk 0 125 0x02 seq 0 [] s) s
           retrain p (raise (pgPort p) cpREPLAYFAIL (portDetail p 0) s))
  else
    let again := ((l.kept.filter fun k => from_ ≤ k.1).map (·.2)).reverse
    .next (modLane p (fun l => { l with resend := again, resendFirst := true }) s)

/-- REPLAY_FAIL_RECEIVE (R237, R245): both ends retrain and raise REPLAY_FAIL; a port that is off hears nothing. Log 23 (DEDUCED). -/
def execReplayFailReceive (p : Port) (s : State) : Out3 :=
  .next (if (lane p.val s).state = 0 then s else retrain p.val (raise (pgPort p.val) cpREPLAYFAIL (portDetail p.val 0) s))

/-! ## Sending (R230–R232, R278, R279) -/

/-- The user whose slot a place of the 20-slot frame is (R278): 0 control, 1 A, 2 B, 3 C. -/
def slotUser (k : Nat) : Nat := if k = 0 then 0 else if k = 9 then 1 else if k % 4 = 2 then 2 else 3

/-- Causes of MRG within a class (R304). -/
def mrgOVERRUN : Nat := 0
def mrgABSENT : Nat := 1
def mrgREJOIN : Nat := 2
def mrgLATE : Nat := 3
def mrgHOLE : Nat := 4
def mrgSTALL : Nat := 5
def mrgSTALE : Nat := 6
def mrgADMITTED : Nat := 24
def mrgREFUSED : Nat := 25
def mrgWITHDRAWN : Nat := 26
/-- A cause of MRG for a class (R304). -/
def mrgBit (cls k : Nat) : Nat := (cls - 1) * 8 + k

/-- Σσ of a class over the contracts this hub knows. -/
def sigmaSum (cls : Nat) (s : State) : Nat :=
  sumNat ((conIds s).map fun id =>
    match (con id s).ent with
    | some e => if e.cls = cls then sumNat (e.parts.map (·.sigma)) else 0
    | none => 0)

/-- A port's class queue checked against the admitted Σσ + 8 words (R304). -/
def overrunCheck (p cls : Nat) (s : State) : State :=
  let l := lane p s
  let n := (l.str cls).length
  if sigmaSum cls s + 8 < n then raiseOnce pgMRG (mrgBit cls mrgOVERRUN) 0xFFF 0xFFF s else s

/-- The next block of one user of a port: control blocks, or up to eight words of a class stream. -/
def takeUser (user : Nat) (l : Lane) : Option (TxBlk × Lane) :=
  if user = 0 then
    match l.ctl with
    | [] => none
    | b :: bs => some (b, { l with ctl := bs })
  else
    let ws := (l.str user).take 8
    if ws = [] then none
    else
      let b : TxBlk := { typ := 0x70 + 0x10 * user + (ws.length - 1), words := ws }
      some (b, { l.setStr user ((l.str user).drop 8) with segOut := FMap.upd (fun _ => 0) l.segOut user (fun n => segLeft n ws) })

/-- The first user of a list that has a block. -/
def takeFirst : List Nat → Lane → Option (TxBlk × Lane)
  | [], _ => none
  | u :: us, l =>
    match takeUser u l with
    | some r => some r
    | none => takeFirst us l

/-- The block a port sends in its next slot and whether it carries R: the capability block of an idle exit, urgent control, a replay, the slot's user, then the others in the order control, A, B, C, else IDLE. Where a replay holds no block, the next replayable one carries R. Log 22, 23 (DEDUCED). -/
def chooseBlock (data : Bool) (l : Lane) : TxBlk × Bool × Lane :=
  match l.lead with
  | some b => (b, false, { l with lead := none })
  | none =>
    match l.urgent with
    | b :: bs => (b, false, { l with urgent := bs })
    | [] =>
      match l.resend with
      | b :: bs => (b, l.resendFirst, { l with resend := bs, resendFirst := false })
      | [] =>
        let users := if data then [slotUser l.slot, 0, 1, 2, 3] else [0]
        match takeFirst users l with
        | some (b, l) => if typeReplayable b.typ then (b, l.resendFirst, { l with resendFirst := false }) else (b, false, l)
        | none => ({ typ := 0, words := [] }, false, l)

/-- A block put on the lane (R227–R232, R237): its SEQ, its symbols, the copy kept for replay, the counts, and the skip pair after every 20th block. Log 11 (DESIGN CHOICE). -/
def putBlock (p : Nat) (b : TxBlk) (rbit : Bool) (s : State) : State :=
  let l := lane p s
  let typ := b.typ + if rbit then 8 else 0
  let y := blockSyms typ l.txSeq b.words l.prbs7
  let s := modLane p (fun l =>
    { l with txSeq := (l.txSeq + 1) % 256, txN := l.txN + 1, slot := (l.slot + 1) % 20, skip := (l.skip + 1) % 20,
             txblk := if b.typ = 0 then l.txblk else l.txblk + 1, prbs7 := y.2,
             kept := if typeReplayable b.typ then ((l.txN, b) :: l.kept).take 128 else l.kept }) s
  let s := sendSyms p y.1 (drive (.block p typ l.txSeq b.words) s)
  if l.skip = 19 then sendSyms p skipSyms (drive (.skip p) s) else s

/-- BLOCK_SLOT_SEND (R231, R278, R279): one block out of a port that transmits. Record blocks only go out of an up port out of quarantine (R30). Log 22 (DEDUCED). -/
def execBlockSlotSend (p : Port) (s : State) : Out3 :=
  let p := p.val
  let l := lane p s
  if l.state = 0 ∨ l.state = 5 then .next s
  else
    let s := overrunCheck p 3 (overrunCheck p 2 (overrunCheck p 1 s))
    let c := chooseBlock (carries p s) (lane p s)
    .next (afterCap p c.1 (putBlock p c.1 c.2.1 (modLane p (fun _ => c.2.2) s)))

/-! ## Peaking (R239) -/

/-- PEAK_TRIM_TICK (R239): trim moves peaking one step toward the better setting, but not out of REF ± 2 on idle blocks. -/
def execPeakTrimTick (p : Port) (dir : Int) (s : State) : Out3 :=
  let p := p.val
  let l := lane p s
  let want := (clampInt 0 15 ((l.peakCur : Int) + clampInt (-1) 1 dir)).toNat
  if wbit (portCtrl p s) 5 ∨ l.state = 0 ∨ l.state = 5 ∨ want = l.peakCur then .next s
  else if l.idleRx ∧ (want + 2 < l.peakRef ∨ l.peakRef + 2 < want) then
    let s := modLane p (fun l => { l with wg := true, wander := (l.wander + 1) % 256 }) s
    .next (raiseOnce (pgPort p) cpWANDER p (portDetail p 0) s)
  else .next (modLane p (fun l => { l with peakCur := want }) s)

/-! ## Electrical idle (R240) -/

/-- CTRL.EIDLE of a port written. Log 22 (DEDUCED). -/
def setEidle (p : Nat) (on : Bool) (s : State) : State :=
  let w := BitVec.ofNat 32 (putBit (portCtrl p s).toNat 6 on)
  rfPut (pgPort p * 4096 + 0x40) w s

/-- An up port goes idle (R240): its EIDLE block, the tail, then nothing. -/
def goIdle (p : Nat) (s : State) : State :=
  if (lane p s).state ≠ 4 then s
  else
    let s := putBlock p { typ := 0x40, words := [0] } false s
    let s := bumpGen (pgPort p) (sendSyms p tailSyms (drive (.tail p) (modLane p (fun l => { l with state := 5 }) s)))
    let s := setTxDis p s
    let s := raise (pgPort p) cpEIDLEIN (portDetail p 0) (condStart (pgPort p) cpEIDLEIN p s)
    leaveUp p s

/-- An idle port starts its exit (R240): the training burst, idle pairs up to the held block boundary, then blocks, the first of them a capability block. How many pairs the boundary leaves is open. Log 82 (DESIGN CHOICE). -/
def exitIdle (p : Nat) (s : State) : State :=
  if (lane p s).state ≠ 5 then s
  else
    let b : TxBlk := { typ := 0x16, words := (capOf p s).words }
    let n := takeFree s
    let y := idlePairs (n.1.toNat % 68) (lane p s).prbs7
    let s := drive (.burst p) (modLane p (fun l =>
      { l with state := 6, block := false, exitHdrs := 0, exitCap := false, rxSeq := none, missing := none, lead := some b, prbs7 := y.2 }) n.2)
    bumpGen (pgPort p) (setTxDis p (sendSyms p (burstSyms ++ y.1) s))

/-- EIDLE_ENTER_REQUEST (R240, R247): ignored unless the port is up or idle. Log 22 (DEDUCED). -/
def execEidleEnterRequest (r : Req) (p : Port) (s : State) : Out3 :=
  .next (gated r (pgPort p.val) (fun s =>
    if (lane p.val s).state = 4 ∨ (lane p.val s).state = 5 then goIdle p.val (setEidle p.val true s) else s) s)

/-- EIDLE_EXIT_REQUEST (R240, R247): ignored unless the port is up or idle. -/
def execEidleExitRequest (r : Req) (p : Port) (s : State) : Out3 :=
  .next (gated r (pgPort p.val) (fun s =>
    if (lane p.val s).state = 4 ∨ (lane p.val s).state = 5 then exitIdle p.val (setEidle p.val false s) else s) s)

/-- EIDLE_RECEIVE (R240): an up port answers with its own EIDLE block and goes idle. -/
def execEidleReceive (p : Port) (s : State) : Out3 :=
  .next (goIdle p.val (modLane p.val (fun l => { l with eidleRx := true }) s))

/-- EIDLE_EXIT_TIMEOUT (R240, R245): no two valid headers within the bound; the port retrains. -/
def execEidleExitTimeout (p : Port) (s : State) : Out3 :=
  .next (if (lane p.val s).state = 6 then retrain p.val s else s)

/-- SIGNAL_DETECT (R240): signal on an idle port starts the exit. -/
def execSignalDetect (p : Port) (s : State) : Out3 := .next (exitIdle p.val s)

/-- STAT.LOS (R246, R247): the ball's level turned by LOS_INV, on a used chain port of cable class 2. Log 83 (DESIGN CHOICE). -/
def losNow (p : Nat) (s : State) : Bool :=
  isCP p && decide ((portPlan p s).use ≠ 0) && decide ((portPlan p s).cls = 2) && ((lane p s).losPin != wbit (portCtrl p s) 4)

/-- A loss of signal (R235, R246): outside electrical idle it is raised and loses lock. -/
def losRises (p : Nat) (s : State) : State :=
  let l := lane p s
  let s := modLane p (fun l => { l with los := true }) s
  if l.state = 5 ∨ l.eidleRx then s
  else
    let s := raise (pgPort p) cpLOS (portDetail p 0) (condStart (pgPort p) cpLOS p s)
    if l.block then lockLost p s else s

/-- The end of a loss of signal (R240, R246): an idle port starts the exit. -/
def losFalls (p : Nat) (s : State) : State :=
  exitIdle p (condEnd (pgPort p) cpLOS p (modLane p (fun l => { l with los := false }) s))

/-- STAT.LOS follows a change of LOS_INV. Log 83 (DESIGN CHOICE). -/
def losFollow (p : Nat) (s : State) : State :=
  if losNow p s = (lane p s).los then s else if losNow p s then losRises p s else losFalls p s

/-- STAT.LOS follows a change of the plan; a port whose cable class changes hunts anew with it. Log 83 (DESIGN CHOICE). -/
def losPlan (s : State) (p : Nat) : State :=
  if losNow p s = (lane p s).los then s
  else if losNow p s then losRises p s
  else condEnd (pgPort p) cpLOS p (modLane p (fun l => { l with los := false }) s)

/-- LOS_INPUT (R235, R240, R246): read on chain ports of cable class 2, turned by LOS_INV; a loss outside idle loses lock, its end on an idle port starts the exit. -/
def execLosInput (p : Port) (level : Bool) (s : State) : Out3 :=
  let p := p.val
  let s := if isCP p then modLane p (fun l => { l with losPin := level }) s else s
  if isCP p = false ∨ (portPlan p s).use = 0 ∨ (portPlan p s).cls ≠ 2 then .next s
  else .next (if losNow p s then losRises p s else losFalls p s)

/-- PORT_RESTART (R245): CTRL.RESTART retrains a port in use. -/
def execPortRestart (r : Req) (p : Port) (s : State) : Out3 :=
  .next (gated r (pgPort p.val) (fun s => if (portPlan p.val s).use = 0 then s else retrain p.val s) s)

/-- MAXRATE_WRITE (R245, R247): the limit is set, and a port that is up retrains. -/
def execMaxrateWrite (r : Req) (p : Port) (v : Word) (s : State) : Out3 :=
  .next (gated r (pgPort p.val) (fun s =>
    let w := BitVec.ofNat 32 ((portCtrl p.val s).toNat / 8 * 8 + v.toNat % 8)
    let s := rfPut (pgPort p.val * 4096 + 0x40) w s
    if (lane p.val s).state = 4 then retrain p.val s else s) s)

end Sys2Proof.Machine
end

