-- ==== Sys2Proof/Machine/Time.lean ====
section
/-! DEFINITION. Osden time: the clock, the servo, markers, closure, time of day, PPS and epochs (R194–R221, R501). -/

namespace Sys2Proof.Machine

/-! ## The clock (R194, R195) -/

/-- Units of the fraction in a nanosecond. -/
def fracPerNs : Nat := 2 ^ 32

/-- The clock's reading in units of 2^−32 ns. Log 12 (DESIGN CHOICE). -/
def clockUnits (s : State) : Int := (((s.tim.sec * nsPerSec + s.tim.ns) * fracPerNs + s.tim.frac : Nat) : Int)

/-- The clock set to a reading in units of 2^−32 ns; it does not go below second 0. -/
def setClock (u : Int) (s : State) : State :=
  let n := u.toNat
  let w := n / fracPerNs
  s.modTim fun t => { t with sec := w / nsPerSec % 2 ^ 64, ns := w % nsPerSec, frac := n % fracPerNs }

/-- A change of the reading by nanoseconds. -/
def addNs (d : Int) (s : State) : State := setClock (clockUnits s + d * (fracPerNs : Int)) s

/-- The reading in 1/128 ns, as stamps carry it (R201). Log 12 (DESIGN CHOICE). -/
def stamp128 (s : State) : Nat := (s.tim.sec * nsPerSec + s.tim.ns) * 128 + s.tim.frac / 2 ^ 25

/-- 200 ppm of a nanosecond in units of 2^−32 ns. -/
def ppm200 : Int := 858993
/-- 500 ppm in units of 2^−32. -/
def ppm500 : Int := 2147483

/-- One tick of the 1 GHz count (R195): the addend 1 ns × (1 + y); an offset of an applied time of day goes at no more than 200 ppm (R214). The standby counter runs beside it, and alone while the main domain is held (R469). Log 2 (DESIGN CHOICE), 14 (DEDUCED). -/
def tick (s : State) : State :=
  let s := s.modPwr fun w => if w.sbNs + 1 < nsPerSec then { w with sbNs := w.sbNs + 1 } else { w with sbNs := 0, sbSec := (w.sbSec + 1) % 2 ^ 48 }
  if s.pwr.good = false then s else
  let d := clampInt (-ppm200) ppm200 s.tim.slew
  let s := setClock (clockUnits s + (fracPerNs : Int) + s.srv.y - d) s
  s.modTim fun t => { t with slew := t.slew - d, up := t.up + 1 }

/-! ## Causes -/

/-- Causes of TIM (R223). -/
def timSET : Nat := 0
def timINSERV : Nat := 1
def timEPANNOUNCE : Nat := 2
def timEPOCH : Nat := 3
def timEPREQ : Nat := 4
def timEPLOW : Nat := 5
def timPPSLOSS : Nat := 6
def timPPSOK : Nat := 7
def timTODAPPLIED : Nat := 8
/-- Causes of SRV (R225). -/
def srvLOCK : Nat := 0
def srvUNLOCK : Nat := 1
def srvHOLDOVER : Nat := 2
def srvSRCSWITCH : Nat := 3
def srvCLOSDONE : Nat := 4
def srvCLOSLIMIT : Nat := 5
def srvSYNW : Nat := 6
def srvSYNE : Nat := 7

/-- TIM.CTRL. -/
def timCtrl (s : State) : Word := rfGet 0x3040 s
/-- TIM.CTRL.SRC (R212): 3 acts as 0. -/
def timSrc (s : State) : Nat := let v := wbits (timCtrl s) 8 2; if v = 3 then 0 else v
/-- SRV.CTRL. -/
def srvCtrl (s : State) : Word := rfGet 0x4040 s

/-- A port's time-marker exchange. -/
def mark (p : Nat) (s : State) : Mark := FMap.get (fun _ => {}) s.srv.marks p
/-- A port's time-marker exchange changed. -/
def modMark (p : Nat) (f : Mark → Mark) (s : State) : State :=
  s.modSrv fun v => { v with marks := FMap.upd (fun _ => {}) v.marks p f }

/-! ## The retained store (R470) -/

/-- A byte of the retained store. Log 7 (DESIGN CHOICE). -/
def retByte (s : State) (k : Nat) : Byte := FMap.get (fun _ => 0) s.pwr.ret k
/-- Whether the store's CRC matches. Log 7 (DESIGN CHOICE). -/
def retValid (s : State) : Bool := decide (leNat ((List.range 4).map fun k => retByte s (12 + k)) = crc32 ((List.range 12).map (retByte s)))
/-- Bytes put into the store. Log 7 (DESIGN CHOICE). -/
def putRet (k : Nat) (bs : List Byte) (s : State) : State := s.modPwr fun w => { w with ret := FMap.putAll (fun _ => 0) w.ret k bs }
/-- The hub's area written: epoch number, reason, standby entries, zero, CRC. Log 68 (DEDUCED). -/
def putStore (epoch reason count : Nat) (s : State) : State :=
  let b := leBytes 4 epoch ++ leBytes 1 reason ++ leBytes 3 count ++ leBytes 4 0
  putRet 0 (b ++ leBytes 4 (crc32 b)) s
/-- The epoch number, the reason and the entries the store holds. Log 68 (DEDUCED). -/
def retEpoch (s : State) : Nat := leNat ((List.range 4).map (retByte s))
def retReason (s : State) : Nat := (retByte s 4).toNat
def retCount (s : State) : Nat := leNat ((List.range 3).map fun k => retByte s (5 + k))

/-- A head that holds the Leash and has its time set is the plant's source (R200, R211): its alignment is reached (R7, R213). -/
def becomeSource (s : State) : State :=
  if isHead s ∧ isHolder s ∧ s.tim.set then
    startMark 6 (if s.srv.state = 5 then s.modSrv fun v => { v with hops := 0 } else bumpGen pgSRV (s.modSrv fun v => { v with state := 5, hops := 0 }))
  else s

/-- The time becomes set (R197). -/
def setTime (s : State) : State :=
  if s.tim.set then s
  else becomeSource (startMark 3 (raise pgTIM timSET 0 (bumpGen pgTIM (s.modTim fun t => { t with set := true }))))

/-- The epoch number taken from a source (R211, R214): a head keeps it in the retained store. -/
def takeEpoch (n : Nat) (s : State) : State :=
  if s.tim.epoch = n then s
  else
    let s := bumpGen pgTIM (s.modTim fun t => { t with epoch := n })
    if isHead s then putStore n (retReason s) (retCount s) s else s

/-- The hub enters service (R196). -/
def enterService (s : State) : State :=
  if s.tim.inserv ∨ s.tim.set = false then s
  else
    let s := startMark 4 (raise pgTIM timINSERV 0 (bumpGen pgTIM (s.modTim fun t => { t with inserv := true })))
    if s.pwr.state = 0 then pwrState 1 s else s

/-- Whether this hub originates any contract. -/
def originates (s : State) : Bool := (conIds s).any fun id => (con id s).isSrc

/-- Whether a record has gone into a contract that this hub originates. -/
def released (s : State) : Bool :=
  (conIds s).any fun id =>
    let c := con id s
    c.isSrc && ((c.ready.any fun i => decide (i.kind ≠ .control)) || c.kennel.any fun k => decide (k.item.kind ≠ .control))

/-- IN_SERVICE (R196): a hub with an active slice that gives it no originating contract enters service at a whole 100 ms once its time is set; another with its first record. -/
def execInService (s : State) : Out3 :=
  .next (if s.pln.active.isSome ∧ (if originates s then released s = true else s.tim.ns % 100000000 = 0) then enterService s else s)

/-! ## Choosing the source (R205, R207) -/

/-- The measurement period of a port in ns (R198). Log 16 (DEDUCED). -/
def measPeriod (p : Nat) : Nat := if isCP p then 1000000 else 125000

/-- A port is a usable source (R205, R240): not idle, a marker in each of the last three measurement periods. Log 16 (DEDUCED). -/
def usable (p : Nat) (s : State) : Bool :=
  let m := mark p s
  decide ((portPlan p s).use ≠ 0) && !(port p s).q && (lane p s).block && decide ((lane p s).state < 5) && decide (m.run = 3) && decide (s.tim.up < m.at_ + 2 * measPeriod p) &&
    (decide (m.pstate = 1) || decide (m.pstate = 2) || decide (m.pstate = 3) || decide (m.pstate = 5)) &&
    decide (s.tim.epoch ≤ m.pepoch)

/-- The candidates of this hub (R205). -/
def candidates (s : State) : List Nat :=
  (List.range 24).filter fun p =>
    let u := (portPlan p s).use
    if s.pln.role = 0 then decide (u = 1 ∨ u = 2)
    else if s.pln.role = 1 then !(isCP p) && decide (u = 3 ∨ u = 4 ∨ u = 5)
    else decide (u = 5) && !(isHolder s)

/-- Rank of a candidate, lowest first: senders in holdover last, the duplex port after the ring ports, then PREF (R205). -/
def sourceRank (p : Nat) (s : State) : Nat :=
  let m := mark p s
  let east := facesEast p s
  let pref := wbits (srvCtrl s) 4 2
  let way :=
    if pref = 1 then b2n east
    else if pref = 2 then b2n (!east)
    else m.phops * 2 + b2n east
  (b2n (decide (m.pstate = 3)) * 2 + b2n (decide ((portPlan p s).use = 5))) * 1024 + way

/-- The best usable candidate. -/
def bestSource (s : State) : Option Nat :=
  match (candidates s).filter (usable · s) with
  | [] => none
  | p :: ps => some (ps.foldl (fun a q => if sourceRank q s < sourceRank a s then q else a) p)

/-- A source taken without a step (R207): SRC_SWITCH where there was one before. -/
def takeSource (p : Nat) (s : State) : State :=
  let old := s.srv.src
  let s := bumpGen pgSRV (s.modSrv fun v =>
    { v with src := p, hops := min 255 ((mark p s).phops + 1), switches := if old < 24 then (v.switches + 1) % 256 else v.switches,
             fwdClk := !(isCP p) && (lane p s).fclk })
  if old < 24 ∧ old ≠ p then raise pgSRV srvSRCSWITCH p s else s

/-- The servo enters holdover (R200): y takes the last i. Log 15 (DEDUCED). -/
def toHoldover (s : State) : State :=
  let h := if isHead s ∧ isHolder s then 0 else 255
  let s := bumpGen pgSRV (s.modSrv fun v => { v with state := 3, src := 31, hops := h, y := v.i, lockcnt := 0, farcnt := 0, fwdClk := false })
  raise pgSRV srvHOLDOVER 0 s

/-! ## Epochs (R215–R218) -/

/-- The first whole multiple of 100 µs at least `d` ns after an instant. -/
def nextGrid (t : Stamp) (d : Nat) : Stamp := Stamp.ofTotal t.epoch ((t.total + d + 99999) / 100000 * 100000)

/-- The instant t_e of an announcement, in nanoseconds of the old epoch. -/
def EpAnn.te (a : EpAnn) : Nat := a.teSec * nsPerSec + a.teNs

/-- Δ of an announcement in nanoseconds. -/
def EpAnn.delta (a : EpAnn) : Int := a.dSec * nsPerSec + a.dNs

/-- The EP fields as a control block carries them (R302): words of the EP and D fields of R201. -/
def EpAnn.words (a : EpAnn) : List W128 :=
  [mkW128 [(96, 32, a.next), (32, 64, a.teSec), (2, 30, a.teNs), (1, 1, 1)], mkW128 [(64, 64, toBits 64 a.dSec), (34, 30, a.dNs)]]

/-- A late announcement or a source with a higher epoch (R217): its epoch is to be adopted, from the port where it was met. -/
def adoptFrom (n p : Nat) (s : State) : State := s.modTim fun t => { t with adopt := some n, adoptPort := p }

/-- An announcement is held (R215, R218): a later one waits behind it, a repeat is ignored, one whose t_e has passed leads to adoption (R217). EP_ANNOUNCE is raised as it comes. Log 70 (DEDUCED). -/
def holdAnn (a : EpAnn) (s : State) : State :=
  let taken (s : State) : State :=
    raise pgTIM timEPANNOUNCE (a.next % 65536) (bumpGen pgTIM (s.modTim fun t => { t with epReq := false }))
  if a.next ≤ s.tim.epoch then s
  else
    match s.tim.ann with
    | none =>
      if a.te ≤ (now s).total then (if s.tim.adopt = some a.next then s else taken (adoptFrom a.next 31 s))
      else taken (s.modTim fun t => { t with ann := some a })
    | some h =>
      let above : Bool := match s.tim.ann2 with
        | none => true
        | some b => decide (b.next < a.next)
      if h.next < a.next ∧ above then taken (s.modTim fun t => { t with ann2 := some a })
      else s

/-- A new epoch decided here (R215): announced with t_e at least 10 ms ahead and this Δ. Log 70 (DEDUCED). -/
def announce (delta : Int) (tod : Bool) (s : State) : State :=
  let te := nextGrid (now s) 10000000
  let d := delta.fdiv (nsPerSec : Int)
  let a : EpAnn := { next := s.tim.epoch + 1, teSec := te.sec, teNs := te.ns, dSec := d, dNs := (delta - d * nsPerSec).toNat }
  let s := holdAnn a (s.modTim fun t => { t with annTod := tod })
  sendCtrlAll (usedPorts s) (ctrlBlk 0 126 0x20 0 0 a.words s) (journal (.announce a) s)

/-- The epoch limit (R218). -/
def epochFull (s : State) : Bool := decide (s.tim.epoch = 0xFFFFFFFF)

/-- An epoch request (R216): the offset is held in 1/256 ns, the request raised and sent toward the head, once until an announcement comes. Log 70 (DEDUCED). -/
def requestEpoch (e2 : Int) (s : State) : State :=
  let s := s.modTim fun t => { t with heldOff := some e2 }
  if s.tim.epReq ∨ s.tim.ann.isSome then s
  else
    let s := raise pgTIM timEPREQ 0 (bumpGen pgTIM (s.modTim fun t => { t with epReq := true }))
    sendCtrlOn s.srv.src (ctrlBlk 0 (holderOf 0 s) 0x21 0 0 [] s) s

/-- A second cause for an epoch while one is pending (R216, R218): it waits, with the Δ that is left after the pending one. -/
def deferCause (delta : Int) (tod : Bool) (s : State) : State :=
  let left : Int := match s.tim.ann with
    | some a => delta - a.delta
    | none => delta
  s.modTim fun t => { t with waitEp := true, waitDelta := left, waitTod := tod }

/-- EP_ANNOUNCE_RECEIVE (R215, R217, R218). Log 70 (DEDUCED). -/
def execEpAnnounceReceive (a : EpAnn) (s : State) : Out3 := .next (holdAnn a s)

/-- EP_REQ_RECEIVE (R216): a manager passes it toward the head; the head announces with Δ = 0, or lets a pending announcement serve it, or defers. -/
def execEpReqReceive (s : State) : Out3 :=
  if isHead s ∧ isHolder s then
    match s.tim.ann with
    | none => .next (if epochFull s then s else announce 0 false s)
    | some a => .next (if (now s).total + 2000000 ≤ a.te ∨ s.tim.waitEp then s else s.modTim fun t => { t with waitEp := true, waitDelta := 0, waitTod := false })
  else if isManager s then .next (sendCtrl (ctrlBlk 0 (holderOf 0 s) 0x21 0 0 [] s) s)
  else .next s

/-- EP_DEFERRED_ANNOUNCE (R216, R218): the second cause gets its announcement, at the earliest 1 ms after the first one's t_e. -/
def execEpDeferredAnnounce (s : State) : Out3 :=
  .next (if s.tim.waitEp ∧ s.tim.ann.isNone ∧ isHead s ∧ isHolder s ∧ epochFull s = false then
           announce s.tim.waitDelta s.tim.waitTod (s.modTim fun t => { t with waitEp := false, waitDelta := 0, waitTod := false })
         else s)

/-! ## The servo (R197–R200, R214) -/

/-- KP and KI of a kind of source: 0 manager ports, 1 chain ports, 2 PPS_IN (R199). -/
def gainsOf (kind : Nat) (s : State) : Nat × Nat :=
  let g := s.srv.gains
  if kind = 0 then (wbits g 28 4, wbits g 24 4) else if kind = 1 then (wbits g 20 4, wbits g 16 4) else (wbits g 12 4, wbits g 8 4)

/-- The rate terms after a measurement (R198): `e2` is e in 1/256 ns, `tm` the period in ns. Rounding to the held units is to nearest even. Answers y and i. Log 13 (DEDUCED). -/
def servoTerms (e2 : Int) (tm kp ki : Nat) (i : Int) : Int × Int :=
  let pf := Frac.mk2 (e2 * 2 ^ 32) (256 * 2 ^ kp * tm)
  let lim := Frac.mk2 (2 ^ 32) 5000
  let isOver := Frac.lt lim pf || Frac.lt pf lim.neg
  let p := clampInt (-ppm200) ppm200 pf.roundEven
  let i' := if isOver then i else clampInt (-ppm500) ppm500 (i + (Frac.mk2 (e2 * 2 ^ 32) (256 * 2 ^ ki * tm)).roundEven)
  (clampInt (-ppm500) ppm500 (-(p + i')), i')

/-- The lock rule of R200 on one offset: LOCK after 16 in a row below 10 ns, UNLOCK after 4 in a row above 100 ns. -/
def lockRule (e2 : Int) (s : State) : State :=
  let near := decide (e2.natAbs < 2560)
  let far := decide (25600 < e2.natAbs)
  let v := s.srv
  let lc := if near then satAdd 255 v.lockcnt 1 else 0
  let fc := if far then v.farcnt + 1 else 0
  let s := s.modSrv fun v => { v with lockcnt := lc, farcnt := fc }
  if v.state = 1 ∧ 16 ≤ lc then startMark 5 (raise pgSRV srvLOCK 0 (bumpGen pgSRV (s.modSrv fun v => { v with state := 2 })))
  else if v.state = 2 ∧ 4 ≤ fc then raise pgSRV srvUNLOCK 0 (bumpGen pgSRV (s.modSrv fun v => { v with state := 1, farcnt := 0 }))
  else s


/-- The offset of a hub that is not the head, found against its source, treated under R214: a step before service, a slew up to 1 ms, an epoch request beyond it, adoption of a higher epoch. Log 70 (DEDUCED). -/
def applyOffset (e2 : Int) (pepoch : Nat) (tm kp ki : Nat) (s : State) : State :=
  let r := servoTerms e2 tm kp ki s.srv.i
  let s := s.modSrv fun v => { v with offset := clampInt (-(2 ^ 31)) (2 ^ 31 - 1) (e2.fdiv 2) }
  if s.tim.inserv = false then
    let s := setClock (clockUnits s - e2 * 2 ^ 24) s
    (takeEpoch pepoch s).modSrv fun v => { v with i := r.2, y := clampInt (-ppm500) ppm500 (-r.2) }
  else if s.tim.epoch < pepoch then adoptFrom pepoch s.srv.src s
  else if e2.natAbs ≤ 256000000 ∨ epochFull s then
    (s.modTim fun t => { t with heldOff := none }).modSrv fun v => { v with i := r.2, y := r.1 }
  else (requestEpoch e2 s).modSrv fun v => { v with y := clampInt (-ppm500) ppm500 (-v.i) }

/-- SERVO_MEASUREMENT (R197–R200, R205, R207, R214): the offset to the source port is formed and applied. A usable source is kept, but one in holdover gives way to one that is not. -/
def execServoMeasurement (s : State) : Out3 :=
  if wbit (srvCtrl s) 7 then .next (s.modSrv fun v => { v with y := v.i })
  else if isHead s ∧ isHolder s then .next s
  else
    let cur := s.srv.src
    let s := match bestSource s with
      | some p => if cur < 24 ∧ usable cur s ∧ ((mark cur s).pstate ≠ 3 ∨ (mark p s).pstate = 3) then s else takeSource p s
      | none => s
    let p := s.srv.src
    if p < 24 ∧ usable p s then
      match (mark p s).theta2 with
      | none => .next s
      | some (e2, _) =>
        let g := gainsOf (if isCP p then 1 else 0) s
        let st := s.srv.state
        if st = 0 then
          let s := setClock (clockUnits s - e2 * 2 ^ 24) s
          let s := takeEpoch (mark p s).pepoch s
          .next (setTime (bumpGen pgSRV (s.modSrv fun v => { v with state := 1, lockcnt := 0, farcnt := 0, offset := e2.fdiv 2 })))
        else
          let s := if st = 3 ∨ st = 4 ∨ st = 5 then bumpGen pgSRV (s.modSrv fun v => { v with state := 1, lockcnt := 0, farcnt := 0 }) else s
          .next (lockRule e2 (applyOffset e2 (mark p s).pepoch (measPeriod p) g.1 g.2 s))
    else .next s

/-- SOURCE_LOSS_TIMER (R200, R207): three periods without a usable source; the next candidate is taken, or the servo enters holdover. -/
def execSourceLossTimer (s : State) : Out3 :=
  let p := s.srv.src
  let s := if p < 24 then modMark p (fun m => { m with run := 0 }) s else s
  match bestSource s with
  | some q => .next (takeSource q s)
  | none => .next (if s.srv.state = 1 ∨ s.srv.state = 2 then toHoldover s else s)

/-- FREE_RUN_TIMER (R197): 2 s after power good with no usable source, a worker or segment manager sets its own count as its time. Log 15 (DEDUCED). -/
def execFreeRunTimer (s : State) : Out3 :=
  .next (if s.tim.set ∨ isHead s ∨ (bestSource s).isSome then s
         else setTime (bumpGen pgSRV ((s.modTim fun t => { t with epoch := 0 }).modSrv fun v => { v with state := 4, src := 26, y := v.i })))

/-- PREF_RETURN_TIMER (R207): the preferred port has been usable for 10 s and is taken again. -/
def execPrefReturnTimer (p : Port) (s : State) : Out3 :=
  .next (if usable p.val s ∧ (candidates s).contains p.val ∧ s.srv.src ≠ p.val ∧
            (24 ≤ s.srv.src ∨ sourceRank p.val s < sourceRank s.srv.src s) then takeSource p.val s else s)

/-- FCLK_ABSENT (R206, R235): a manager port's forwarded clock is lost; block lock goes with it, and the tick reverts to the local reference. -/
def execFclkAbsent (p : Port) (s : State) : Out3 :=
  let p := p.val
  if isCP p ∨ (portPlan p s).use = 0 then .next s
  else
    let l := lane p s
    let s := modLane p (fun l => { l with fclk := false }) s
    let s := if s.srv.src = p ∧ s.srv.fwdClk then s.modSrv fun v => { v with fwdClk := false, y := v.i } else s
    let s := raise (pgPort p) cpFCLKLOST (portDetail p 0) s
    .next (if l.block ∧ l.state ≠ 5 then lockLost p s else s)

/-- SRV_GAINS_WRITE (R199): refused where some KI lies below KP + 2. -/
def execSrvGainsWrite (r : Req) (v : Word) (s : State) : Out3 :=
  .next (gated r pgSRV (fun s =>
    if wbits v 24 4 < wbits v 28 4 + 2 ∨ wbits v 16 4 < wbits v 20 4 + 2 ∨ wbits v 8 4 < wbits v 12 4 + 2 then s
    else s.modSrv fun u => { u with gains := v &&& 0xFFFFFF00 }) s)

/-! ## Time markers (R201–R204) -/

/-- The words of a marker (R201). -/
def Marker.words (m : Marker) : List W128 :=
  let st (u : Nat) : List (Nat × Nat × Nat) :=
    [(64, 64, u / 128 / nsPerSec), (34, 30, u / 128 % nsPerSec), (27, 7, u % 128)]
  [mkW128 (st m.tx), mkW128 (st m.rx ++ [(19, 8, m.echoSeq), (18, 1, b2n m.echoV)]),
   mkW128 [(96, 32, m.epoch), (88, 8, m.hops), (85, 3, m.state), (84, 1, b2n m.req)]] ++
  (match m.ep with
   | some a => a.words
   | none => [0, 0]) ++
  [mkW128 [(96, 32, toBits 32 m.theta), (64, 32, toBits 32 m.delay), (32, 32, toBits 32 m.asym)]]

/-- TIME_MARKER_SEND (R201, R202, R234): a marker with its own transmit stamp, the partner's latest stamp echoed, and the announcement held. -/
def execTimeMarkerSend (p : Port) (s : State) : Out3 :=
  let p := p.val
  let l := lane p s
  if l.state = 0 ∨ l.state = 5 then .next s
  else
    let k := mark p s
    let tx := stamp128 s + FMap.get (fun _ => 0) s.fuse.txLat (p * 8 + l.rate)
    let m : Marker :=
      { tx := tx, rx := (k.last.map fun x => x.2.2).getD 0, echoSeq := (k.last.map fun x => x.1).getD 0, echoV := k.last.isSome,
        epoch := s.tim.epoch, hops := if isHead s ∧ isHolder s then 0 else s.srv.hops, state := s.srv.state, req := s.tim.epReq,
        ep := s.tim.ann, theta := (k.theta2.map fun x => x.1.fdiv 2).getD 0, delay := (k.theta2.map fun x => x.2.fdiv 2).getD 0,
        asym := k.asym }
    let s := modMark p (fun k => { k with sent := ((l.txSeq, tx) :: k.sent).take 16 }) s
    .next (putBlock p { typ := 0x25, words := m.words } false s)

/-- TIME_MARKER_RECEIVE (R203–R206, R215, R217, R238): the receive stamp under the fill of the elastic buffer, the offset and delay of a complete set of four stamps, the sender's state and announcement, and a lower or higher epoch met; a corrupt marker does nothing. Log 16 (DEDUCED). -/
def execTimeMarkerReceive (p : Port) (seq : Nat) (m : Marker) (good : Bool) (ph : Nat) (s : State) : Out3 :=
  if good = false then .next s else
  let p := p.val
  let l := lane p s
  let k := mark p s
  let rx : Int := (stamp128 s : Int) - (l.fill * 1280000 / rateMbaud l.rate : Nat) - ph - (FMap.get (fun _ => 0) s.fuse.rxLat (p * 8 + l.rate) : Nat)
  let mine := k.sent.find? (·.1 = m.echoSeq)
  let four : Option (Int × Int) :=
    match m.echoV, mine with
    | true, some (_, t) =>
      let m1 : Int := rx - m.tx
      let m2 : Int := (m.rx : Int) - t
      let a : Int := if isLeader p s then -k.asym else k.asym
      some (m1 - m2 - a, m1 + m2)
    | _, _ => none
  let k' : Mark :=
    { k with last := some (seq, m.tx, rx.toNat), pstate := m.state, phops := m.hops, pepoch := m.epoch,
             run := if 0 < k.run ∧ s.tim.up < k.at_ + 2 * measPeriod p then min 3 (k.run + 1) else 1, at_ := s.tim.up, fill := l.fill, ph := ph }
  let s := modMark p (fun _ =>
    match four with
    | some f => { k' with theta2 := some f, sumT := k.sumT + f.1, sumD := k.sumD + f.2, sets := k.sets + 1 }
    | none => k') s
  let s := if s.srv.src = p then s.modSrv fun v => { v with hops := min 255 (m.hops + 1) } else s
  let s := modLane p (fun l => { l with fclk := l.fclk || !(isCP p) }) s
  let s := match m.ep with
    | some a => if m.epoch = s.tim.epoch then holdAnn a s else s
    | none => s
  let cand := (candidates s).contains p
  let s := if cand ∧ m.epoch < s.tim.epoch then raiseOnce pgTIM timEPLOW p p s else condEnd pgTIM timEPLOW p s
  .next (if cand ∧ usable p s ∧ s.tim.epoch < m.epoch ∧ s.tim.inserv then adoptFrom m.epoch p s else s)

/-! ## Ring closure (R208–R210) -/

/-- A ring of this hub by its key, KIND × 8 + NUM. -/
def closRing (k : Nat) (s : State) : Option RingPlan := (ringPlans s).find? (·.key = k)

/-- The state of a ring's closure. -/
def clos (n : Nat) (s : State) : Clos := FMap.get (fun _ => {}) s.srv.clos n
/-- The state of a ring's closure changed. -/
def modClos (n : Nat) (f : Clos → Clos) (s : State) : State :=
  s.modSrv fun v => { v with clos := FMap.upd (fun _ => {}) v.clos n f }

/-- The hop numbers of a ring. -/
def hopList (r : RingPlan) : List Nat := (List.range (r.members.length - 1)).map (· + 1)

/-- α̂ values after a round (R208): 2 E_c spread over the new hops, or over all hops when none is new, by mean cable delay. -/
def closAlpha (hops : List Nat) (c : Clos) (ec : Int) : List (Nat × Int) :=
  let fresh := hops.filter fun j => FMap.get (fun _ => false) c.old j = false
  let isOver := if fresh = [] then hops else fresh
  let d (j : Nat) : Int := match FMap.get (fun _ => none) c.hops j with
    | some x => x.2
    | none => 0
  let tot := sumInt (isOver.map d)
  isOver.map fun j =>
    (j, FMap.get (fun _ => 0) c.alpha j + (if tot ≤ 0 then 0 else (Frac.mk2 (2 * ec * d j) tot.toNat).roundEven))

/-- α̂ sent to both nodes of a hop (R208, R302), and taken at once where this hub is one of them. -/
def sendAlpha (r : RingPlan) (ja : Nat × Int) (s : State) : State :=
  let a := nth 0 r.members (ja.1 - 1)
  let b := nth 0 r.members ja.1
  let blk (dev : Nat) := ctrlBlk (dev / 128) (dev % 128) 0x23 ja.1 (toBits 32 ja.2) [] s
  let s := if a = myDev s then s else sendCtrl (blk a) s
  let s := if b = myDev s then s else sendCtrl (blk b) s
  match (List.range 24).find? fun p => decide (portHop p s = some (r, ja.1)) with
  | some p => modMark p (fun k => { k with asym := ja.2, isNew := false }) s
  | none => s

/-- Full alignment (R7, R472 step 10): the servo locked, and closure done on the rings of this hub that lie between it and the head: a worker's chain ring, a segment manager's manager ring, none at a head. Log 78 (DEDUCED). -/
def alignCheck (s : State) : State :=
  let rs := (ringPlans s).filter fun r => decide (r.kind = s.pln.role)
  if s.srv.state = 2 ∧ (s.pln.role = 2 ∨ rs ≠ []) ∧ (s.pln.role = 2 ∨ rs.all fun r => (clos r.key s).done) then startMark 6 s else s

/-- A hub between a ring's ends counts its rounds as the ends do: the second one after its α̂ has been computed is the ring's second within the limit. Log 78 (DEDUCED). -/
def countRound (n p : Nat) (s : State) : State :=
  let good := if s.srv.state = 2 ∧ (mark p s).isNew = false then (clos n s).good + 1 else 0
  alignCheck (modClos n (fun c => { c with good := good, done := decide (2 ≤ good) }) s)

/-- The mean of a doubled sum over so many sets, in whole 1/128 ns. Log 78 (DEDUCED). -/
def meanOf (sum : Int) (n : Nat) : Int := (Frac.mk2 sum (2 * n)).roundEven

/-- The round's means of θ and d on a hop's port; none without a complete set in the round (R208). -/
def roundMean (n p : Nat) (s : State) : Option (Int × Int) :=
  let m := mark p s
  let b := (clos n s).base
  let k := m.sets - b.2.2
  if k = 0 then none else some (meanOf (m.sumT - b.1) k, meanOf (m.sumD - b.2.1) k)

/-- The sums of the duplex link's marks: twice this unit's offset to its partner, and the sets. -/
def duplexSum (s : State) : Int × Nat :=
  (duplexPorts s).foldl (fun a p => (a.1 + (mark p s).sumT, a.2 + (mark p s).sets)) (0, 0)

/-- The round's mean of manager B's offset from manager A (R208). -/
def roundDelta (n : Nat) (s : State) : Option Int :=
  let d := duplexSum s
  let b := (clos n s).dupBase
  let k := d.2 - b.2
  if k = 0 then none else some (if myHub s = 0 then -meanOf (d.1 - b.1) k else meanOf (d.1 - b.1) k)

/-- A unit that is locked, or is the source. -/
def lockedState (st : Nat) : Bool := decide (st = 2) || decide (st = 5)

/-- Whether a terminating manager may run closure on a ring now (R208, R210): both units hold Leash roles and are locked, no takeover is under way, the ring is whole. A member that is not locked sends no report. Log 78 (DEDUCED). -/
def closReady (r : RingPlan) (s : State) : Bool :=
  (ringSt r.key s).broken.isEmpty && lockedState s.srv.state && (decide (s.lsh.lrole = 1) || decide (s.lsh.lrole = 2)) &&
  !s.lsh.req && !s.lsh.handoff && (duplexPorts s).any fun p => lockedState (mark p s).pstate

/-- The closure error of the reports held (R208); none while one is missing. -/
def closEc (r : RingPlan) (s : State) : Option Int :=
  let c := clos r.key s
  match roundDelta r.key s with
  | none => none
  | some d =>
    if (hopList r).all fun j => (FMap.get (fun _ => none) c.hops j).isSome then
      some (sumInt ((hopList r).map fun j => ((FMap.get (fun _ => none) c.hops j).getD (0, 0)).1) - d)
    else none

/-- A round of a terminating manager (R208–R210): it forms E_c; the west or upstream one spreads it over the hops. -/
def endRound (r : RingPlan) (west : Bool) (s : State) : State :=
  let n := r.key
  let c := clos n s
  let dup := duplexSum s
  if wbit (srvCtrl s) 6 = false then modClos n (fun c => { c with run := false, dupBase := dup }) s
  else
    match if closReady r s then closEc r s else none with
    | none => bumpGen pgSRV (modClos n (fun c => { c with run := true, susp := true, hops := [], dupBase := dup }) s)
    | some ec =>
      let near := decide (ec.natAbs ≤ 128)
      let al := closAlpha (hopList r) c ec
      match if west then al.find? (fun ja => 6400 < ja.2.natAbs) else none with
      | some ja =>
        raise pgSRV srvCLOSLIMIT (r.num * 256 + ja.1 % 256)
          (bumpGen pgSRV (modClos n (fun c =>
            { c with run := true, susp := false, ec := ec, hops := [], dupBase := dup, good := if near then c.good else 0, done := c.done && near }) s))
      | none =>
        let good := if near then c.good + 1 else 0
        let s := bumpGen pgSRV (modClos n (fun c =>
          { c with run := true, susp := false, ec := ec, rounds := (c.rounds + 1) % 65536, good := good, done := decide (2 ≤ good), hops := [], dupBase := dup,
                   alpha := if west then al.foldl (fun m ja => FMap.put (fun _ => 0) m ja.1 ja.2) c.alpha else c.alpha,
                   old := al.foldl (fun m ja => FMap.put (fun _ => false) m ja.1 true) c.old }) s)
        let s := if west then al.foldl (fun s ja => sendAlpha r ja s) s else s
        alignCheck (if west ∧ 2 ≤ good ∧ c.done = false then raise pgSRV srvCLOSDONE (r.num * 256) s else s)

/-- A node's report of its west or upstream hop to both ends (R208, R302): the round's means and the port. -/
def sendReport (r : RingPlan) (i p : Nat) (s : State) : State :=
  let m := mark p s
  let s' := modClos r.key (fun c => { c with base := (m.sumT, m.sumD, m.sets) }) s
  match if lockedState s.srv.state then roundMean r.key p s else none with
  | none => s'
  | some t =>
    let f := toBits 32 t.1 * 2 ^ 32 + toBits 32 t.2
    ([nth 0 r.members 0, nth 0 r.members (r.members.length - 1)] : List Nat).foldl (fun s d =>
      if d = myDev s then modClos r.key (fun c => { c with hops := FMap.put (fun _ => none) c.hops i (some t) }) s
      else sendCtrl (ctrlBlk (d / 128) (d % 128) 0x22 p f [BitVec.ofNat 128 i] s) s) s'

/-- CLOSURE_ROUND (R208–R210), for the ring of a kind and a number: every node but the first reports its hop, and the terminating managers form E_c. -/
def execClosureRound (kind : Fin 2) (num : Fin 8) (s : State) : Out3 :=
  match closRing (kind.val * 8 + num.val) s with
  | none => .next s
  | some r =>
    match myPlace r s with
    | none => .next s
    | some 0 => .next (endRound r true s)
    | some i =>
      match ringPort r.key false s with
      | none => .next s
      | some p =>
        let s := sendReport r i p s
        .next (if i + 1 = r.members.length then endRound r false s else countRound r.key p s)

/-- CLOS_REPORT_RECEIVE (R208): a node's θ and d of its west or upstream hop. -/
def execClosReportReceive (ring : Fin 16) (hop : Nat) (theta d : Int) (s : State) : Out3 :=
  .next (modClos ring.val (fun c => { c with hops := FMap.put (fun _ => none) c.hops hop (some (theta, d)) }) s)

/-- CLOS_ASYM_RECEIVE (R208): the new α̂ of a hop, applied from the next measurement on. -/
def execClosAsymReceive (p : Port) (asym : Int) (s : State) : Out3 :=
  .next (modMark p.val (fun k => { k with asym := asym, isNew := false }) s)

/-! ## Time of day and PPS (R211–R214, R501) -/

/-- A PPS_IN measurement taken by the servo (R198, R213). -/
def ppsServo (e : Int) (s : State) : State :=
  let g := gainsOf 2 s
  let r := servoTerms (e * 256) nsPerSec g.1 g.2 s.srv.i
  s.modSrv fun v => { v with i := r.2, y := r.1, offset := clampInt (-(2 ^ 31)) (2 ^ 31 - 1) (e * 128) }

/-- The head's offset (local minus true, in ns) met with R214: a step before service, a slew up to 1 ms, else a new epoch, or its place behind one that is pending (R218). With PPS_IN as source the servo slews. Answers whether it led to a new epoch. Log 14 (DEDUCED). -/
def headOffset (e : Int) (tod : Bool) (s : State) : State × Bool :=
  if s.tim.inserv = false then (addNs (-e) s, false)
  else if e.natAbs ≤ 1000000 ∨ epochFull s then
    (if timSrc s = 1 then ppsServo e s else s.modTim fun t => { t with slew := e * (fracPerNs : Int) }, false)
  else if s.tim.ann.isSome then (deferCause (-e) tod s, true)
  else (announce (-e) tod s, true)

/-- A time of day applied with this offset (R212, R501): the time is set, TOD_APPLIED at once unless an epoch change carries it. Log 14 (DEDUCED). -/
def applyTod (e : Int) (src : Nat) (s : State) : State :=
  let r := headOffset e true s
  let s := setTime r.1
  let s := bumpGen pgTIM (bumpGen pgSRV (s.modSrv fun v => { v with state := 5, src := src, hops := 0 }))
  if r.2 then s else raise pgTIM timTODAPPLIED 0 s

/-- The checks of a TOD write in the order 1, 4, 2, 5, 3 (R222). -/
def todErr (pps : Bool) (s : State) : Nat :=
  let ns := (rfGet 0x307C s).toNat
  if !(isHead s && isHolder s) then 1
  else if nsPerSec ≤ ns ∨ (pps ∧ ns ≠ 0) then 4
  else if s.tim.ann.isSome then 2
  else if epochFull s then 5
  else if pps ∧ s.tim.ppsQ = false then 3
  else 0

/-- The seconds of the TOD registers. -/
def todSec (s : State) : Nat := (rfGet 0x3078 s).toNat * 2 ^ 32 + (rfGet 0x3074 s).toNat

/-- TOD_APPLY_NOW (R212, R214, R501): TOD is the time at the acceptance of the write. -/
def execTodApplyNow (r : Req) (s : State) : Out3 :=
  .next (gated r pgTIM (fun s =>
    let err := todErr false s
    let s := s.modTim fun t => { t with todErr := err }
    if err ≠ 0 then s
    else
      let e : Int := ((now s).total : Int) - (todSec s * nsPerSec + (rfGet 0x307C s).toNat : Nat)
      applyTod e (if timSrc s = 0 then 26 else 25) (s.modTim fun t => { t with ppsSec := none })) s)

/-- TOD_APPLY_PPS (R212, R501): TOD is armed for the next qualified PPS_IN edge. -/
def execTodApplyPps (r : Req) (s : State) : Out3 :=
  .next (gated r pgTIM (fun s =>
    let err := todErr true s
    let s := s.modTim fun t => { t with todErr := err }
    if err ≠ 0 then s else bumpGen pgTIM (s.modTim fun t => { t with todPend := true })) s)

/-- The offset of an instant from the nearest whole second, in ns. -/
def secOffset (t : Stamp) : Int := if t.ns < 500000000 then (t.ns : Int) else (t.ns : Int) - nsPerSec

/-- The lock rule on PPS measurements (R213): TIM.STAT.PPS_LOCK, and SRV.STAT.LOCKCNT. Log 17 (DEDUCED). -/
def ppsLockRule (e : Int) (s : State) : State :=
  let near := decide (e.natAbs < 10)
  let lc := if near then s.tim.ppsLockCnt + 1 else 0
  let bc := if 100 < e.natAbs then s.tim.ppsBadCnt + 1 else 0
  let lock := if 16 ≤ lc then true else if 4 ≤ bc then false else s.tim.ppsLock
  let s := if lock = s.tim.ppsLock then s else bumpGen pgTIM s
  (s.modTim fun t => { t with ppsLockCnt := lc, ppsBadCnt := bc, ppsLock := lock }).modSrv fun v =>
    { v with lockcnt := if near then satAdd 255 v.lockcnt 1 else 0 }

/-- PPS_IN is the source of the head (R200, R224): STATE and SRC follow. -/
def ppsSource (s : State) : State :=
  if s.srv.src = 24 ∧ s.srv.state = 5 then s else bumpGen pgSRV (s.modSrv fun v => { v with state := 5, src := 24, hops := 0 })

/-- A qualified edge disciplines the head (R213, R214): a slew up to 1 ms; beyond it, discarded and counted until three in a row make a new epoch. CTRL.HOLD ignores it (R224). Log 17 (DEDUCED). -/
def ppsMeasure (e : Int) (s : State) : State :=
  if s.tim.set = false ∨ timSrc s ≠ 1 ∨ !(isHead s && isHolder s) then s
  else if wbit (srvCtrl s) 7 then s.modSrv fun v => { v with y := v.i }
  else
    let s := ppsSource s
    if e.natAbs ≤ 1000000 ∨ s.tim.inserv = false ∨ epochFull s then
      let s := s.modTim fun t => { t with ppsFar := 0 }
      ppsLockRule e (if s.tim.inserv = false then addNs (-e) s else ppsServo e s)
    else if s.tim.ppsFar + 1 < 3 then s.modTim fun t => { t with ppsFar := t.ppsFar + 1, ppsMiss := (t.ppsMiss + 1) % 65536 }
    else
      let s := s.modTim fun t => { t with ppsFar := 0 }
      if s.tim.ann.isSome then deferCause (-e) false s else announce (-e) false s

/-- PPS_IN loses qualification (R213): PPS_LOSS, and a head whose source it is enters holdover. Log 15 (DEDUCED). -/
def ppsLost (s : State) : State :=
  if s.tim.ppsQ = false then s
  else
    let s := bumpGen pgTIM (s.modTim fun t => { t with ppsQ := false, ppsRun := 0, ppsLock := false, ppsLockCnt := 0, ppsBadCnt := 0, ppsSec := none })
    let s := if timSrc s = 1 ∧ s.srv.state = 5 then toHoldover s else s
    raise pgTIM timPPSLOSS 0 s

/-- The offset of a qualified edge (R213): from the second that the count of edges gives it, else from the nearest whole second, which then starts the count. Answers the state with that second. Log 17 (DEDUCED). -/
def edgeOffset (t : Stamp) (s : State) : Int × State :=
  let sec := match s.tim.ppsSec with
    | some k => k + 1
    | none => if t.ns < 500000000 then t.sec else t.sec + 1
  ((t.total : Int) - (sec * nsPerSec : Nat), s.modTim fun u => { u with ppsSec := some sec })

/-- PPS_IN_EDGE (R213, R214, R501): an edge of the selected polarity is stamped; a head qualifies it, applies an armed time of day at it, and with SRC = 1 takes it as a measurement. Another hub stamps it under PPS_MON alone. Log 17 (DEDUCED). -/
def execPpsInEdge (rising : Bool) (s : State) : Out3 :=
  let c := timCtrl s
  if rising = wbit c 15 then .next s
  else if isHead s = false then
    .next (if wbit c 13 then s.modTim fun t => { t with pps := (t.sec, t.ns), ppsOff := secOffset (now s) } else s)
  else
    let t := now s
    let prev := s.tim.pps.1 * nsPerSec + s.tim.pps.2
    let gap : Int := (t.total : Int) - prev - nsPerSec
    let good := s.tim.ppsAny && decide (gap.natAbs ≤ 100000)
    let run := if good then s.tim.ppsRun + 1 else 0
    let bad := if good ∨ s.tim.ppsAny = false then 0 else s.tim.ppsBad + 1
    let s := s.modTim fun u => { u with pps := (t.sec, t.ns), ppsAny := true, ppsOff := secOffset t, ppsRun := run, ppsBad := bad }
    if 2 ≤ bad then .next (ppsLost (s.modTim fun u => { u with ppsMiss := (u.ppsMiss + 1) % 65536 }))
    else
      let was := s.tim.ppsQ
      let s := if was = false ∧ 3 ≤ run then
          raise pgTIM timPPSOK 0 (bumpGen pgTIM (s.modTim fun u => { u with ppsQ := true }))
        else s
      if s.tim.ppsQ ∧ good then
        let s := s.modTim fun u => { u with ppsEdges := (u.ppsEdges + if was then 1 else 3) % 65536 }
        if s.tim.todPend then
          let off : Int := (t.total : Int) - (todSec s * nsPerSec : Nat)
          .next (applyTod off (if timSrc s = 1 then 24 else if timSrc s = 2 then 25 else 26)
            (bumpGen pgTIM (s.modTim fun u => { u with todPend := false, ppsSec := some (todSec s) })))
        else
          let r := edgeOffset t s
          .next (ppsMeasure r.1 r.2)
      else .next s

/-- PPS_LOSS_TIMER (R213): no edge within 1 s + 100 µs of the last qualified one. Log 17 (DEDUCED). -/
def execPpsLossTimer (s : State) : Out3 :=
  .next (if s.tim.ppsQ then ppsLost (s.modTim fun t => { t with ppsMiss := (t.ppsMiss + 1) % 65536 }) else s)

/-- PPS_OUT takes a level. -/
def setPpsOut (b : Bool) (s : State) : State :=
  drive (.pps b) (s.modTim fun t => { t with ppsOut := b, ppsRise := if b then t.up else t.ppsRise })

/-- The width of PPS_OUT in ns (R222): steps of 10 ms, above 99 as 99. -/
def ppsWidth (s : State) : Nat := min 99 (wbits (timCtrl s) 16 8) * 10000000

/-- PPS_OUT_EDGE (R220, R221): PPS_OUT rises at a whole second of a hub in service, within 2 ns, unless its width is 0 or holdover holds it low. -/
def execPpsOutEdge (s : State) : Out3 :=
  .next (if s.tim.inserv ∧ s.tim.ns ≤ 2 ∧ s.tim.ppsOut = false ∧ ppsWidth s ≠ 0 ∧ (s.srv.state ≠ 3 ∨ wbit (timCtrl s) 14) then setPpsOut true s
         else s)

/-- PPS_OUT_PULSE_END (R221): the pulse has had its width. -/
def execPpsOutPulseEnd (s : State) : Out3 := .next (if s.tim.ppsOut ∧ s.tim.ppsRise + ppsWidth s ≤ s.tim.up then setPpsOut false s else s)

/-! ## The change of epoch: the time's part (R215–R217) -/

/-- A new epoch begins at the present reading: its start is kept with those before it (R61). -/
def startEpoch (n : Nat) (shift : Int) (s : State) : State :=
  s.modTim fun t => { t with epoch := n, heldOff := none, epReq := false, epStart := ⟨n, t.sec, t.ns⟩, epOlds := (t.epStart :: t.epOlds).take 8, epShift := shift }

/-- The reading taken at t_e (R215, R216): Δ, and the offset a requesting hub holds, to 2^−32 ns. A later announcement held is then the one in force, or leads to adoption where its t_e has passed (R218). -/
def epochTime (a : EpAnn) (s : State) : State :=
  let held := s.tim.heldOff.getD 0
  let s := setClock (clockUnits s + a.delta * (fracPerNs : Int) - held * 2 ^ 24) s
  let next := s.tim.ann2
  let s := startEpoch a.next (a.delta * 1024 - held * 4) (s.modTim fun t => { t with ann := next, ann2 := none, annTod := false })
  match next with
  | some b => if b.te < (now s).total then adoptFrom b.next 31 (s.modTim fun t => { t with ann := none }) else s
  | none => s

/-- The reading and epoch of a source taken under R217: of the port where the higher epoch was met, else of the present source. Log 70 (DEDUCED). -/
def adoptTime (n : Nat) (s : State) : State :=
  let p := if s.tim.adoptPort < 24 then s.tim.adoptPort else s.srv.src
  let e2 : Int := if p < 24 then (((mark p s).theta2).map (·.1)).getD 0 else 0
  let s := setClock (clockUnits s - e2 * 2 ^ 24) s
  startEpoch n (-e2 * 4) (s.modTim fun t =>
    { t with adopt := none, adoptPort := 31, ann := if (t.ann.map (·.next)).getD 0 ≤ n then none else t.ann })

end Sys2Proof.Machine
end

