-- ==== Sys2Proof/Machine/Rings.lean ====
section
/-! DEFINITION. Rings, the duplex pair and the Leash: renewals, grants, handoff, the journal, replacement (R252, R255–R270). -/

namespace Sys2Proof.Machine

/-- A block to the referee of a segment pair, the head holder (R260); a head pair's referee is the host. -/
def toReferee (sub term n : Nat) (s : State) : State :=
  if s.pln.role = 1 then sendCtrl (leashBlk 0 (holderOf 0 s) sub term n s) s else s

/-- Nanoseconds since the latest renewal counted or seen; none before one. -/
def sinceNs (s : State) : Option Nat := s.lsh.sinceAt.map fun t => s.tim.up - t

/-- Whether at least P + 1 ms have passed since the latest renewal seen (R259). -/
def renewalOverdue (s : State) : Bool :=
  match sinceNs s with
  | none => true
  | some n => decide (periodNs s + 1000000 ≤ n)

/-- A head that stops being the holder is no time source (R211); with no usable source yet it holds over. Log 15 (DEDUCED). -/
def sourceLost (s : State) : State :=
  if isHead s ∧ s.srv.state = 5 then toHoldover s else s

/-- A higher term is seen (R258): held duties stop, the term is taken, the unit is standby; a resyncing unit stays so (R265). The new term's journal is numbered from 1 (R257). A handoff under way is complete (R264). Log 20 (DEDUCED). -/
def fence (term : Nat) (s : State) : State :=
  if term ≤ s.lsh.term then s
  else
    let ho := s.lsh.handoff
    let s := bumpGen pgLSH (s.modLsh fun l =>
      { l with term := term, lrole := if l.lrole = 3 then 3 else 2, req := false, hoPend := false, handoff := false, sentAt := [], jseq := 0, jout := [], current := false, snap := false })
    let s := sourceLost s
    let s := raise pgLSH lshFENCED (term % 65536) s
    if ho then raise pgLSH lshHANDOFF 0 s else s

/-- The source code of SRV.STAT that TIM.CTRL.SRC gives a head (R212, R224). -/
def headSrc (s : State) : Nat := if timSrc s = 1 then 24 else if timSrc s = 2 then 25 else 26

/-- The ports of the rings that this hub terminates (R6). -/
def endPorts (s : State) : List Nat :=
  (ringPorts s).filter fun p =>
    match portRing p s with
    | some r => decide (myPlace r s = some 0) || decide (myPlace r s = some (r.members.length - 1))
    | none => false

/-- This unit takes the Leash (R259, R263): the term and the held duties, TAKEOVER, the announcement on every ring it terminates, every input capped until its first answer (R292). -/
def takeLeash (term : Nat) (s : State) : State :=
  let ho := s.lsh.handoff
  let s := bumpGen pgLSH (s.modLsh fun l =>
    { l with term := term, lrole := 1, req := false, handoff := false, hoPend := false, takeovers := (l.takeovers + 1) % 65536,
             sinceAt := some s.tim.up, sentAt := [], jout := [], jseq := 0, current := false, synced := true, snap := false })
  let s := condEnd pgLSH lshGRANTREQ 0 s
  let s := raise pgLSH lshTAKEOVER (term % 65536) s
  let s := if ho then raise pgLSH lshHANDOFF 0 s else s
  let s := s.modDel fun d => { d with ins := d.ins.map fun i => if i.dev = myDev s then i else { i with cap := .takeover } }
  let s := sendCtrlAll (endPorts s) (leashBlk 0 126 0x1B term 0 s) s
  if isHead s ∧ s.tim.set then becomeSource (bumpGen pgSRV (s.modSrv fun v => { v with src := headSrc s, fwdClk := false })) else s

/-- RENEW_TIMER (R258): every P/5 the holder renews with its partner and its referee, under the period of CTRL (R266). -/
def execRenewTimer (s : State) : Out3 :=
  if isHolder s = false then .next s
  else
    let n := (s.lsh.renew + 1) % 2 ^ 32
    let s := s.modLsh fun l => { l with renew := n, period := ctrlPeriod s, perAt := none, renewAt := some s.tim.up, sentAt := (l.sentAt ++ [(n, s.tim.up)]) }
    .next (toReferee 0x12 s.lsh.term n (toPartner 0x12 s.lsh.term n s))

/-- The referee's record of a pair: segment, hub of the last acknowledged renewal, its instant, the highest term. -/
def pairRec (seg : Nat) (s : State) : Nat × Nat × Nat × Nat := (s.lsh.pairs.find? (·.1 = seg)).getD (seg, 128, 0, 0)

/-- The referee's record of a pair replaced. -/
def setPair (x : Nat × Nat × Nat × Nat) (s : State) : State :=
  s.modLsh fun l => { l with pairs := x :: l.pairs.filter (·.1 ≠ x.1) }

/-- The referee's record of a pair changed, and told to the standby (R257). Log 19 (DESIGN CHOICE). -/
def noteReferee (x : Nat × Nat × Nat × Nat) (s : State) : State := journal (.referee x.1 x.2.1 x.2.2.1 x.2.2.2) (setPair x s)

/-- A renewal of the partner is seen (R258, R266): its number and instant; a new PERIOD whose one further period is over is in force. Log 20 (DEDUCED). -/
def seeRenewal (num : Nat) (s : State) : State :=
  let p := periodNs s / 1000000
  s.modLsh fun l =>
    { l with renew := num, sinceAt := some s.tim.up, req := false, period := p,
             perAt := match l.perAt with
               | some t => if s.tim.up < t then some t else none
               | none => none }

/-- The partner holds the Leash (R262, R265): a unit with no holder till now is standby; one that has not had the pair's state since power-on resynchronises. Log 20 (DEDUCED). -/
def standBy (s : State) : State :=
  if s.lsh.synced = false ∧ (s.lsh.lrole = 2 ∨ s.lsh.lrole = 4) then bumpGen pgLSH (s.modLsh fun l => { l with lrole := 3, current := false, snap := false })
  else if s.lsh.lrole = 4 then bumpGen pgLSH (s.modLsh fun l => { l with lrole := 2 })
  else s

/-- RENEW_RECEIVE (R257–R259, R265): the partner's renewal is seen and acknowledged, a higher term fences, a resync begins where it is due; a referee records the renewal and acknowledges it. Log 20 (DEDUCED). -/
def execRenewReceive (seg hub term num : Nat) (s : State) : Out3 :=
  if isManager s = false then .next s
  else if seg = mySeg s then
    let asked := decide (s.lsh.lrole = 3 ∧ term ≤ s.lsh.term)
    let s := fence term s
    if term < s.lsh.term then .next s
    else
      let s := toPartner 0x13 term num (standBy (condEnd pgLSH lshGRANTREQ 0 (seeRenewal num s)))
      .next (if s.lsh.lrole = 3 ∧ asked = false then toPartner 0x1A term s.lsh.jseq s else s)
  else if isHead s ∧ isHolder s then
    let x := pairRec seg s
    let s := noteReferee (seg, hub, s.tim.up, max x.2.2.2 term) s
    .next (sendCtrl (leashBlk seg hub 0x13 term num s) s)
  else .next s

/-- A renewal counts (R258): the lease timer runs from its sending instant. -/
def countRenewal (num : Nat) (s : State) : State :=
  match s.lsh.sentAt.find? (·.1 = num) with
  | none => s
  | some (_, t) =>
    s.modLsh fun l =>
      { l with sinceAt := some (max t (l.sinceAt.getD 0)), sentAt := l.sentAt.filter fun x => t < x.2 }

/-- The referee has answered (R269). -/
def refAnswered (s : State) : State := s.modLsh fun l => { l with refAt := some s.tim.up }

/-- RENEW_ACK_RECEIVE (R258): from the partner, or from the referee. -/
def execRenewAckReceive (a : RenewAck) (s : State) : Out3 :=
  let s := if isHolder s then countRenewal a.num s else s
  .next (if a.ref then refAnswered s else s)

/-- The lease timer expires (R258): held duties stop, LAPSE; a head with a fixed holder has no lease (R260). -/
def leaseExpires (s : State) : State :=
  if isHolder s = false ∨ (isHead s ∧ fixedHolder s) then s
  else
    let due := match sinceNs s with
      | none => true
      | some n => decide (periodNs s ≤ n)
    if due = false then s
    else
      let s := bumpGen pgLSH (s.modLsh fun l => { l with lrole := 4, lapses := (l.lapses + 1) % 256, hoPend := false })
      raise pgLSH lshLAPSE 0 (sourceLost s)

/-- A grant request sent (R259): to the referee, or to the host by GRANT_REQ at a head. Log 20 (DEDUCED). -/
def requestLeash (s : State) : State :=
  let was := s.lsh.req
  let s := s.modLsh fun l => { l with req := true }
  if isHead s then
    (if was then s else raise pgLSH lshGRANTREQ 0 (condStart pgLSH lshGRANTREQ 0 s))
  else toReferee 0x14 s.lsh.term 0 s

/-- GRANT_REQ_TIMER (R259, R265): a standby or lapsed unit that has seen no renewal for P + 1 ms requests the Leash, and repeats it; never while resyncing, never a head with a fixed holder. Log 20 (DEDUCED). -/
def execGrantReqTimer (s : State) : Out3 :=
  .next (if (s.lsh.lrole = 2 ∨ s.lsh.lrole = 4) ∧ renewalOverdue s ∧ !(isHead s && fixedHolder s) then requestLeash s else s)

/-- LEASH_INITIAL_REQUEST (R262, R265): no holder exists; each unit requests the Leash, one whose holder lapsed during its resync with the state it has. Log 20 (DEDUCED). -/
def execLeashInitialRequest (s : State) : Out3 :=
  .next (
    if isManager s = false ∨ (isHead s ∧ fixedHolder s) then s
    else if s.lsh.lrole = 4 then requestLeash s
    else if s.lsh.lrole = 3 ∧ renewalOverdue s then requestLeash (bumpGen pgLSH (s.modLsh fun l => { l with lrole := 4, snap := false }))
    else s)

/-- Whether the referee may grant to a unit of a pair (R259): no renewal of the other unit acknowledged within the last P + 1 ms. Log 20 (DEDUCED). -/
def mayGrant (seg hub : Nat) (s : State) : Bool :=
  let x := pairRec seg s
  decide (x.2.1 = 128 ∨ x.2.1 = hub) || decide (x.2.2.1 + periodNs s + 1000000 ≤ s.tim.up)

/-- The referee grants (R259): the highest term seen plus 1. -/
def grant (seg hub : Nat) (s : State) : State :=
  let x := pairRec seg s
  let s := noteReferee (seg, 128, x.2.2.1, x.2.2.2 + 1) (s.modLsh fun l => { l with open_ := l.open_.filter (·.1 ≠ seg) })
  sendCtrl (leashBlk seg hub 0x15 (x.2.2.2 + 1) 0 s) s

/-- GRANT_REQ_RECEIVE (R259): the referee grants, or holds the request open. -/
def execGrantReqReceive (seg hub : Nat) (s : State) : Out3 :=
  if !(isHead s && isHolder s) then .next s
  else if mayGrant seg hub s then .next (grant seg hub s)
  else .next (s.modLsh fun l => { l with open_ := (seg, hub) :: l.open_.filter (·.1 ≠ seg) })

/-- GRANT_REQ_HOLD_EXPIRY (R259): after 2 ms the open request is granted or refused. -/
def execGrantReqHoldExpiry (seg : Nat) (s : State) : Out3 :=
  match s.lsh.open_.find? (·.1 = seg) with
  | none => .next s
  | some (_, hub) =>
    if mayGrant seg hub s then .next (grant seg hub s)
    else .next (sendCtrl (leashBlk seg hub 0x16 (pairRec seg s).2.2.2 0 s) (s.modLsh fun l => { l with open_ := l.open_.filter (·.1 ≠ seg) }))

/-- GRANT_RECEIVE (R259, R263, R266): accepted whenever it arrives. -/
def execGrantReceive (term : Nat) (s : State) : Out3 :=
  .next (if isManager s ∧ s.lsh.lrole ≠ 3 then takeLeash term (refAnswered s) else s)

/-- REFUSE_RECEIVE (R259). -/
def execRefuseReceive (s : State) : Out3 :=
  .next (if isManager s then
           raise pgLSH lshREFUSED 0 (refAnswered (s.modLsh fun l => { l with req := false, refusals := (l.refusals + 1) % 256 }))
         else s)

/-- REF_ACK_WRITE (R261, R269): on a head with the host as referee, the current RENEW value acknowledges that renewal. -/
def execRefAckWrite (r : Req) (v : Word) (s : State) : Out3 :=
  .next (gated r pgLSH (fun s =>
    if isHead s ∧ fixedHolder s = false ∧ isHolder s ∧ v.toNat = s.lsh.renew then refAnswered (countRenewal v.toNat s) else s) s)

/-- REF_GRANT_WRITE (R261, R269): accepted once this head's own SINCE has reached P + 1 ms. -/
def execRefGrantWrite (r : Req) (v : Word) (s : State) : Out3 :=
  .next (gated r pgLSH (fun s =>
    if isHead s ∧ fixedHolder s = false ∧ v = 1 ∧ s.lsh.lrole ≠ 1 ∧ s.lsh.lrole ≠ 3 ∧ renewalOverdue s then takeLeash (s.lsh.term + 1) (refAnswered s)
    else s) s)

/-- HANDOFF (R264, R266, R421): on the holder, with LSH_HANDOFF granted; it waits for its partner. -/
def execHandoff (r : Req) (s : State) : Out3 :=
  .next (gated r pgLSH (fun s =>
    if granted 6 r s ∧ isHolder s then s.modLsh fun l => { l with hoPend := true } else s) s)

/-- HANDOFF_PROCEED (R264): the partner is current; held duties stop and YIELD goes to the partner and the referee. -/
def execHandoffProceed (s : State) : Out3 :=
  if s.lsh.hoPend = false ∨ isHolder s = false then .next s
  else
    let s := bumpGen pgLSH (s.modLsh fun l => { l with hoPend := false, lrole := 2, handoff := true, sinceAt := some s.tim.up })
    let s := sourceLost s
    let y (dseg dhub : Nat) := ctrlBlk dseg dhub 0x17 0 (s.lsh.term * 2 ^ 32 + s.lsh.jseq) [] s
    let s := sendCtrlAll (duplexPorts s) (y (mySeg s) (partnerHub s)) s
    .next (if s.pln.role = 1 then sendCtrl (y 0 0) s else s)

/-- HANDOFF_TIMEOUT (R264): the partner was not current within 100 ms; the handoff is cancelled, and the partner hears of it by the journal. Log 19 (DESIGN CHOICE). -/
def execHandoffTimeout (s : State) : Out3 :=
  .next (if s.lsh.hoPend then journal .handoffOff (raise pgLSH lshHANDOFF 1 (s.modLsh fun l => { l with hoPend := false })) else s)

/-- YIELD_RECEIVE (R264): the partner notes the handoff; the referee grants it at once with the next term. -/
def execYieldReceive (seg hub term jnum : Nat) (s : State) : Out3 :=
  if isManager s ∧ seg = mySeg s then
    .next (s.modLsh fun l => { l with handoff := true, current := decide (l.jseq = jnum) || l.current })
  else if isHead s ∧ isHolder s then
    let x := pairRec seg s
    .next (grant seg (if hub = 0 then 127 else 0) (setPair (seg, 128, x.2.2.1, max x.2.2.2 term) s))
  else .next s

/-- An input of the merger found by device and contract. -/
def findIn (dev con : Nat) (s : State) : Option MIn := s.del.ins.find? fun i => i.dev = dev ∧ i.con = con

/-- An input of the merger changed; a new one is added. -/
def modIn (dev con : Nat) (f : MIn → MIn) (s : State) : State :=
  s.modDel fun d =>
    if d.ins.any fun i => i.dev = dev ∧ i.con = con then
      { d with ins := d.ins.map fun i => if i.dev = dev ∧ i.con = con then f i else i }
    else { d with ins := d.ins ++ [f { dev := dev, con := con }] }

/-- A contract entry installed here (R274, R283): its parts here, and when it starts or stops. -/
def installCon (id : Nat) (c : Contract) (start : Nat) (stop : Option Nat) (s : State) : State :=
  let me := myDev s
  let isSrc := (partOf c me).isSome
  let cons : Bool := (decide (c.scope = 0) && isSrc) || (decide (c.scope = 1) && decide (s.pln.role = 1)) || (decide (c.scope = 2) && decide (s.pln.role = 2))
  let mrg := cons || (decide (c.scope = 2) && decide (s.pln.role = 1))
  let old := con id s
  if old.ent = some c ∧ (old.state = 1 ∨ old.state = 2 ∨ old.state = 3) then
    match stop with
    | some e => bumpGen pgMRG (modCon id (fun k => { k with endSec := some e, state := 3 }) s)
    | none => s
  else
    bumpGen pgMRG (modCon id (fun _ =>
      { ent := some c, state := if stop.isSome then 3 else 1, isSrc := isSrc, isMerge := mrg, isRelay := mrg && isManager s && !isHolder s,
        isCons := cons, startSec := some start, endSec := stop }) s)

/-- What a journal entry changes at the standby (R257). Log 19 (DESIGN CHOICE). -/
def applyEntry (e : JEntry) (s : State) : State :=
  match e with
  | .contract id c start stop => installCon id c start stop s
  | .refused id c err => bumpGen pgMRG (modCon id (fun _ => { ent := some c, state := 4, err := err }) s)
  | .position dev c ex ha => modIn dev c (fun i => { i with expected := ex, handed := ha }) s
  | .horizon cls h => s.modDel fun d => { d with hz := FMap.put (fun _ => none) d.hz cls (some h) }
  | .actSec sec => s.modPln fun p => { p with armed := sec }
  | .announce a => holdAnn a s
  | .period ms => rfPut 0xA040 (BitVec.ofNat 32 ((rfGet 0xA040 s).toNat % 2 ^ 16 + ms * 2 ^ 16))
      (s.modLsh fun l => { l with period := periodNs s / 1000000, perAt := some (s.tim.up + max (periodNs s) (ms * 1000000)) })
  | .refmode fixed => rfPut 0xA040 (BitVec.ofNat 32 (putBit (rfGet 0xA040 s).toNat 14 fixed)) s
  | .service st hub tx => s.modLsh fun l => { l with svcState := st, svcHub := hub, svcTx := tx }
  | .referee seg hub t term => setPair (seg, hub, t, term) s
  | .stored dev bytes => s.modPln fun p => { p with store := (dev, bytes) :: p.store.filter (·.1 ≠ dev) }
  | .handoffOff => raise pgLSH lshHANDOFF 1 s
  | .snapshot => s
  | .synced => s

/-- An entry applied and acknowledged (R257). Log 19 (DESIGN CHOICE). -/
def takeEntry (term num : Nat) (e : JEntry) (s : State) : State :=
  toPartner 0x19 term num (applyEntry e (s.modLsh fun l => { l with jseq := num, current := decide (l.lrole = 2) }))

/-- A gap in the journal (R257): what is missing is asked for; the unit resynchronises. Log 19 (DESIGN CHOICE). -/
def askResync (s : State) : State :=
  toPartner 0x1A s.lsh.term s.lsh.jseq (bumpGen pgLSH (s.modLsh fun l => { l with lrole := 3, current := false, snap := false }))

/-- An entry at a resyncing unit (R265): the snapshot's first entry is taken at its number, and what follows in order; the last makes the unit a current standby. Log 19 (DESIGN CHOICE). -/
def resyncEntry (term num : Nat) (e : JEntry) (s : State) : State :=
  if e = .snapshot then takeEntry term num e (s.modLsh fun l => { l with snap := true })
  else if s.lsh.snap = false then s
  else if num = (s.lsh.jseq + 1) % 2 ^ 32 then
    let s := takeEntry term num e s
    if e = .synced then raise pgLSH lshRESYNCDONE 0 (bumpGen pgLSH (s.modLsh fun l => { l with lrole := 2, current := true, synced := true, snap := false }))
    else s
  else if num ≤ s.lsh.jseq then toPartner 0x19 term num s
  else askResync s

/-- JOURNAL_RECEIVE (R257, R258, R265): entries apply in number order and are acknowledged; a gap asks for what is missing; a resyncing unit takes the snapshot. Log 19 (DESIGN CHOICE). -/
def execJournalReceive (term num : Nat) (e : JEntry) (s : State) : Out3 :=
  if isManager s = false ∨ isHolder s ∧ term ≤ s.lsh.term then .next s
  else
    let s := fence term s
    if s.lsh.lrole = 3 then .next (resyncEntry term num e s)
    else if s.lsh.synced = false then .next (askResync s)
    else if num = (s.lsh.jseq + 1) % 2 ^ 32 then .next (takeEntry term num e s)
    else if num ≤ s.lsh.jseq then .next (toPartner 0x19 term num s)
    else .next (askResync s)

/-- JOURNAL_ACK_RECEIVE (R257). Log 19 (DESIGN CHOICE). -/
def execJournalAckReceive (num : Nat) (s : State) : Out3 :=
  .next (s.modLsh fun l => { l with jout := l.jout.filter fun x => num < x.1 })

/-- The journalled state as entries (R257, R265): contracts, acknowledgement positions, horizons, stored slices, referee records, PERIOD and REFMODE, the activation second, the announced epoch, the service operation. Log 19 (DESIGN CHOICE). -/
def snapshotOf (s : State) : List JEntry :=
  let cons := (List.range 4096).flatMap fun id =>
    match (con id s).ent with
    | none => []
    | some c => if (con id s).state = 4 then [.refused id c (con id s).err] else [.contract id c ((con id s).startSec.getD 0) (con id s).endSec]
  let hz := (List.range 3).flatMap fun cls =>
    match FMap.get (fun _ => none) s.del.hz cls with
    | some h => [.horizon cls h]
    | none => []
  let head : List JEntry := if isHead s then [.refmode (fixedHolder s)] else []
  [.snapshot] ++ cons ++ (s.del.ins.map fun i => .position i.dev i.con i.expected i.handed) ++ hz ++ (s.pln.store.map fun x => .stored x.1 x.2) ++
    (s.lsh.pairs.map fun x => .referee x.1 x.2.1 x.2.2.1 x.2.2.2) ++ head ++
    [.period (ctrlPeriod s), .actSec s.pln.armed, .service s.lsh.svcState s.lsh.svcHub s.lsh.svcTx] ++ (s.tim.ann.toList.map .announce) ++ [.synced]

/-- RESYNC_REQ_RECEIVE (R265): the holder answers with a snapshot of its journalled state and the journal from there on. -/
def execResyncReqReceive (s : State) : Out3 :=
  .next (if isHolder s then (snapshotOf s).foldl (fun s e => journal e s) s else s)

/-! ## Hops restored (R252) -/

/-- A hop restored at the holder of a removal whose worker has gone: the replacement is rejoining (R267). -/
def rejoining (s : State) : State :=
  if s.lsh.svcState = 3 then s.modLsh fun l => { l with svcState := 4 } else s

/-- HOP_RESTORE_TIMER (R252): both ports of a hop up for 1 s; the west or upstream member sends RESTORE both ways and returns to its primary directions. -/
def execHopRestoreTimer (ring : Fin 16) (hop : Nat) (s : State) : Out3 :=
  let mine := (List.range 24).find? fun p =>
    match portHop p s with
    | some (r, h) => decide (r.key = ring.val) && decide (h = hop) && facesEast p s
    | none => false
  match mine with
  | none => .next s
  | some p =>
    if (lane p s).state = 4 then
      let ps := p :: (otherPort p s).toList
      .next (rejoining (hopRestored ring.val hop (sendCtrlAll ps (breakBlk 0x11 ring.val hop s) s)))
    else .next s

/-- BREAK_RECEIVE (R251): the hop is known broken, which steers this hub's own class B and C records away from it, and the notice goes onward. -/
def execBreakReceive (p : Port) (ring : Fin 16) (hop : Nat) (s : State) : Out3 :=
  .next (hopBroken ring.val hop (sendCtrlAll (otherPort p.val s).toList (breakBlk 0x10 ring.val hop s) s))

/-- RESTORE_RECEIVE (R252): the hop is known restored, and the notice goes onward. -/
def execRestoreReceive (p : Port) (ring : Fin 16) (hop : Nat) (s : State) : Out3 :=
  .next (rejoining (hopRestored ring.val hop (sendCtrlAll (otherPort p.val s).toList (breakBlk 0x11 ring.val hop s) s)))

/-! ## Replacing a worker (R267) -/

/-- The ring a worker of this segment is on, by its hub number (R6). -/
def workerRing (hub : Nat) : Nat := (hub - 1) / 31

/-- Whether the plan assigns a hub of this segment. -/
def assigned (hub : Nat) (s : State) : Bool :=
  (ringPlans s).any fun r => decide (r.kind = 0) && r.members.contains (mySeg s * 128 + hub)

/-- An SVC block of a service operation (R302): the operation in the subtype byte, an instant in the fields. Log 18 (DEDUCED). -/
def svcBlk (dhub op n : Nat) (s : State) : CtrlBlk := ctrlBlk (mySeg s) dhub 0x1C op n [] s

/-- The service operation told to the standby (R257). Log 19 (DESIGN CHOICE). -/
def noteService (s : State) : State := journal (.service s.lsh.svcState s.lsh.svcHub s.lsh.svcTx) s

/-- REMOVE (R267): refused off the holder, on a wrapped ring, while an operation is under way, or for a hub not assigned; else the stop instant is set. Log 21 (DEDUCED). -/
def execRemove (r : Req) (s : State) : Out3 :=
  .next (gated r pgLSH (fun s =>
    let hub := (rfGet 0xA078 s).toNat % 128
    let err :=
      if isHolder s = false then 4
      else if !(ringSt (workerRing hub) s).broken.isEmpty then 1
      else if s.lsh.svcState ≠ 0 then 2
      else if assigned hub s = false then 3
      else 0
    let s := s.modLsh fun l => { l with svcErr := err }
    if err ≠ 0 then s
    else
      let tx := if s.tim.ns = 0 then s.tim.sec + 2 else s.tim.sec + 3
      let s := s.modLsh fun l => { l with svcState := 1, svcHub := hub, svcTx := tx }
      noteService (sendCtrl (svcBlk hub 1 tx s) s)) s)

/-- REMOVE_CANCEL (R267): before step 4 the worker is ordered back. -/
def execRemoveCancel (r : Req) (s : State) : Out3 :=
  .next (gated r pgLSH (fun s =>
    if isHolder s ∧ (s.lsh.svcState = 1 ∨ s.lsh.svcState = 2) then
      noteService (sendCtrl (svcBlk s.lsh.svcHub 2 0 s) (s.modLsh fun l => { l with svcState := 0 }))
    else s) s)

/-- REMOVAL_DRAINED (R267): every contract of the worker is acknowledged; DRAINED, then BREAK for both its hops and the order to its neighbours to go idle. Log 21 (DEDUCED). -/
def execRemovalDrained (s : State) : Out3 :=
  if isHolder s = false ∨ s.lsh.svcState ≠ 1 then .next s
  else
    let hub := s.lsh.svcHub
    let key := workerRing hub
    let s := raise pgLSH lshDRAINED hub s
    let s := match (ringPlans s).find? fun r => r.key = key with
      | none => s
      | some r =>
        match r.members.findIdx? (· = mySeg s * 128 + hub) with
        | none => s
        | some i =>
          let ps := (ringPort key true s).toList ++ (ringPort key false s).toList
          let s := hopBroken key i (sendCtrlAll ps (breakBlk 0x10 key i s) s)
          let s := hopBroken key (i + 1) (sendCtrlAll ps (breakBlk 0x10 key (i + 1) s) s)
          let nb (d : Nat) (s : State) : State := sendCtrl (ctrlBlk (d / 128) (d % 128) 0x1C 3 hub [] s) s
          nb (nth 0 r.members (i + 1)) (nb (nth 0 r.members (i - 1)) s)
    .next (noteService (bumpGen pgLSH (s.modLsh fun l => { l with svcState := 3 })))

/-- SVC_RECEIVE (R267): a worker is ordered to stop at t_x or to come back; a neighbour puts its ports toward the worker into electrical idle. Log 21 (DEDUCED). -/
def execSvcReceive (op : SvcOp) (s : State) : Out3 :=
  match op with
  | .stopAt sec => .next (s.modLsh fun l => { l with stopAt := some sec })
  | .cancel => .next (s.modLsh fun l => { l with stopAt := if l.stopped then l.stopAt else none })
  | .idle hub => .next ((List.range 24).foldl (fun s p => if (portPlan p s).use ≠ 0 ∧ (portPlan p s).hub = hub then goIdle p s else s) s)

/-- REMOVAL_REJOIN (R267): the replacement has released its first record; its sources are present again and its hops are new to closure. Log 21 (DEDUCED). -/
def execRemovalRejoin (s : State) : Out3 :=
  if isHolder s = false ∨ (s.lsh.svcState ≠ 3 ∧ s.lsh.svcState ≠ 4) then .next s
  else
    let hub := s.lsh.svcHub
    let dev := mySeg s * 128 + hub
    let s := s.modDel fun d => { d with ins := d.ins.map fun i => if i.dev = dev then { i with absent := false } else i }
    let s := match (ringPlans s).find? fun r => r.key = workerRing hub with
      | none => s
      | some r =>
        match r.members.findIdx? (· = dev) with
        | none => s
        | some i => modClos r.num (fun c =>
            { c with alpha := FMap.put (fun _ => 0) (FMap.put (fun _ => 0) c.alpha i 0) (i + 1) 0,
                     old := FMap.put (fun _ => false) (FMap.put (fun _ => false) c.old i false) (i + 1) false }) s
    .next (noteService (raise pgLSH lshREJOINED hub (s.modLsh fun l => { l with svcState := 0 })))

/-- REMOVAL_CANCEL_RETURN (R267): at the next whole second the worker produces records again. -/
def execRemovalCancelReturn (s : State) : Out3 := .next (s.modLsh fun l => { l with stopAt := none, stopped := false })

end Sys2Proof.Machine
end

