-- ==== Sys2Proof/Machine/Queues.lean ====
section
/-! DEFINITION. Delivery queues (R307–R320), the multi-word shadows (R409) and what handing an item over means (R296). -/

namespace Sys2Proof.Machine

/-! ## Reads and shadows (R409) -/

/-- A register read answered. Log 11 (DESIGN CHOICE). -/
def answer (r : Req) (addr : Nat) (w : Word) (s : State) : State := drive (.read r.val addr w) s

/-- The lowest word of a multi-word register is read (R409): the other words go into this requester's shadow of the page, replacing the one before. -/
def setShadow (r : Req) (p : Nat) (words : List (Nat × Word)) (s : State) : State :=
  s.modFab fun f =>
    { f with shadows := ⟨r.val, p, words, false⟩ :: f.shadows.filter fun h => !(decide (h.req = r.val) && decide (h.page = p)) }

/-! ## Handing over (R296) -/


/-- Whether a word is the header of a GAP (R59). -/
def isGapHeader (h : W128) : Bool := decide (bits h.toNat 7 2 = 3) && decide (bits h.toNat 120 8 = 4)

/-- The sequence numbers an item in words takes: a GAP those it names (R65), a LATE those of the item it wraps (R67), any other one. -/
def wordsSpan (ws : List W128) : Nat :=
  match ws with
  | h :: w :: rest =>
    if isGapHeader h then bits w.toNat 64 32
    else if bits h.toNat 7 2 = 3 ∧ bits h.toNat 120 8 = 6 ∧ isGapHeader w then
      match rest with
      | v :: _ => bits v.toNat 64 32
      | [] => 1
    else 1
  | _ => 1

/-- The sequence numbers an item takes. -/
def itemSpan (i : Item) : Nat := wordsSpan i.words

/-- An item of a contract is handed over (R296): everything below its end is acknowledged next. -/
def handOver (dev con endSeq : Nat) (s : State) : State :=
  if (findIn dev con s).isSome then modIn dev con (fun i => { i with handed := endSeq % 2 ^ 32, fresh := true }) s else s

/-! ## Levels, notices, the watermark (R309, R315–R317) -/

/-- The committed words of a queue. -/
def Que.level (u : Que) : Nat := sumNat (u.pkts.map List.length)

/-- The words of the open item. -/
def Que.openW (u : Que) : Nat :=
  match u.open_ with
  | some l => l.length
  | none => 0

/-- The free words of a queue (R307, R309). -/
def Que.free (u : Que) : Nat := u.size * 256 - (u.level + u.openW)

/-- ALERT of a queue with its reasons (R320). -/
def queAlert (q reasons : Nat) (s : State) : State := raise pgQUE (16 + q) (q * 256 + reasons) s

/-- A crossing of the mark at the present instant (R316). -/
def wmCross (q : Nat) (s : State) : State :=
  let u := que q s
  if u.latch then modQue q (fun u => { u with epis := satAdd 0xFFFF u.epis 1, peak := max u.peak u.level }) s
  else
    let t := now s
    queAlert q 1 (bumpGen pgQUE (modQue q (fun u =>
      { u with latch := true, wm := (t.sec, t.ns), x := decide (xOf t = 1), peak := u.level, epis := 1 }) s))

/-- The pending count reaches NCOAL (R315). Log 36 (DEDUCED). -/
def noticeCheck (q : Nat) (s : State) : State :=
  let u := que q s
  if max u.ncoal 1 ≤ u.pend then raise pgQUE q 0 (modQue q (fun u => { u with pend := 0 }) s) else s

/-- A packet is committed behind the others (R309): notice and watermark. -/
def commitPkt (q : Nat) (ws : List W128) (s : State) : State :=
  let before := (que q s).level
  let s := modQue q (fun u => { u with pkts := u.pkts ++ [ws], open_ := none, pend := u.pend + 1 }) s
  let u := que q s
  let s :=
    if before ≤ u.hwm ∧ u.hwm < u.level then wmCross q s
    else if u.latch then modQue q (fun u => { u with peak := max u.peak u.level }) s
    else s
  noticeCheck q s

/-- The open item is rewound (R310). -/
def rewindItem (q : Nat) (s : State) : State :=
  modQue q (fun u => { u with open_ := none, cntRewind := (u.cntRewind + 1) % 65536 }) s

/-- One word of a producer (R309–R311, R319). Answers whether the queue took or dropped it; a producer whose word is not taken waits. -/
def putWord (q : Nat) (w : W128) (last bad : Bool) (s : State) : State × Bool :=
  let u := que q s
  if u.flushing then (s, false)
  else if u.dropping then (modQue q (fun u => { u with dropping := !last }) s, true)
  else if u.open_ = none ∧ u.en = false then (s, false)
  else if u.free = 0 then (s, false)
  else if bad then
    let s := raise pgDEV 0 (pgQUE * 256) (rewindItem q s)
    (modQue q (fun u => { u with dropping := !last }) s, true)
  else if u.openW = 64 then
    let s := queAlert q 16 (rewindItem q s)
    (modQue q (fun u => { u with dropping := !last }) s, true)
  else
    let ws := u.open_.getD [] ++ [w]
    if last then (commitPkt q ws s, true) else (modQue q (fun u => { u with open_ := some ws }) s, true)

/-- QUEUE_WORD_WRITE (R309): the merger or a core's output port writes a word. -/
def execQueueWordWrite (q : QNum) (w : W128) (last bad : Bool) (s : State) : Out3 :=
  let u := que q.val s
  .next (if u.prod = 1 ∨ u.prod = 2 then (putWord q.val w last bad s).1 else s)

/-- A whole item of the merger (R309): taken when the queue's producer is the merger, it is enabled and the words fit. -/
def putItem (q : Nat) (ws : List W128) (s : State) : State × Bool :=
  let u := que q s
  if u.prod = 1 ∧ u.en = true ∧ u.flushing = false ∧ u.open_ = none ∧ ws.length ≤ u.free then (commitPkt q ws s, true) else (s, false)

/-- QUEUE_NOTICE_TIMER (R315, R421): COAL_T acts while NOTE_TMO is granted. -/
def execQueueNoticeTimer (q : QNum) (s : State) : Out3 :=
  let u := que q.val s
  .next (if u.coalT ≠ 0 ∧ u.pend ≠ 0 ∧ acts 2 (keyCoal q.val) s then raise pgQUE q.val 0 (modQue q.val (fun u => { u with pend := 0 }) s) else s)

/-! ## The driver as producer (R312) -/

/-- QSEL. -/
def queSel (s : State) : Nat := (rfGet 0xD040 s).toNat % 16

/-- WSTAT as the latest WRW3 or WCTRL write leaves it. -/
def wstat (q : Nat) (dropped noitem owner full : Bool) (s : State) : State :=
  modQue q (fun u => { u with wDropped := dropped, wNoItem := noitem, wOwner := owner, wFull := full }) s

/-- Whether another requester owns the driver's open item. -/
def notOwner (r : Req) (u : Que) : Bool := (u.open_.isSome || u.dropping) && decide (u.owner ≠ r.val)

/-- QUEUE_APPEND (R312, R319): a write of WRW3 appends the word WRW0–WRW3. Log 36 (DEDUCED). -/
def execQueueAppend (r : Req) (v : Word) (s : State) : Out3 :=
  .next (gatedMerger r pgQUE (fun s =>
    let q := queSel s
    let s := modQue q (fun u => { u with wr := BitVec.ofNat 128 (u.wr.toNat % 2 ^ 96 + v.toNat * 2 ^ 96) }) s
    let u := que q s
    if u.prod ≠ 3 then s
    else if notOwner r u then wstat q false false true false s
    else if u.dropping then wstat q true false false false s
    else if u.open_ = none ∧ u.en = false then wstat q false false false false s
    else if u.flushing ∨ u.free = 0 then wstat q false false false true s
    else
      let s := wstat q false false false false s
      if u.openW = 64 then queAlert q 16 (rewindItem q s)
      else modQue q (fun u => { u with open_ := some (u.open_.getD [] ++ [u.wr]), owner := r.val }) s) s)

/-- QUEUE_WCOMMIT (R312). Log 36 (DEDUCED). -/
def execQueueWcommit (r : Req) (s : State) : Out3 :=
  .next (gatedMerger r pgQUE (fun s =>
    let q := queSel s
    let u := que q s
    if u.prod ≠ 3 then s
    else if notOwner r u then wstat q false false true false s
    else if u.dropping then wstat q true false false false (modQue q (fun u => { u with dropping := false }) s)
    else match u.open_ with
      | none => wstat q false true false false s
      | some ws => commitPkt q ws (wstat q false false false false s)) s)

/-- QUEUE_WREWIND (R310, R312). Log 36 (DEDUCED). -/
def execQueueWrewind (r : Req) (s : State) : Out3 :=
  .next (gatedMerger r pgQUE (fun s =>
    let q := queSel s
    let u := que q s
    if u.prod ≠ 3 then s
    else if notOwner r u then wstat q false false true false s
    else if u.dropping then wstat q true false false false (modQue q (fun u => { u with dropping := false }) s)
    else match u.open_ with
      | none => wstat q false false false false s
      | some _ => rewindItem q (wstat q false false false false s)) s)

/-! ## Reading (R313, R314) -/

/-- Lane `i` of a 128-bit word. -/
def laneOf (w : W128) (i : Nat) : Word := BitVec.ofNat 32 (bits w.toNat (32 * i) 32)

/-- The next word of a queue, whether it is the first and the last of its packet, the words left, and the packets after it. -/
def nextWord (u : Que) : Option (W128 × Bool × Bool × Nat × List (List W128)) :=
  match u.pkts with
  | [] => none
  | p :: ps =>
    match p with
    | [] => none
    | w :: ws => some (w, !u.headCut, ws.isEmpty, ws.length, if ws.isEmpty then ps else ws :: ps)

/-- A read of RDW0 (R313, R314): the next word into the read latch, or an underrun. -/
def queueRead (r : Req) (s : State) : Word × State :=
  let q := queSel s
  let u := que q s
  if u.cons ≠ 0 then (0, setShadow r pgQUE [(0xD094, 0), (0xD098, 0), (0xD09C, 0)] s)
  else
    let s :=
      match nextWord u with
      | some (w, first, last, left, rest) =>
        modQue q (fun u =>
          { u with rd := w, rValid := true, rFirst := first, rLast := last, left := left, rFlushed := u.flushedSince,
                   flushedSince := false, pkts := rest, headCut := !last }) s
      | none =>
        let s := modQue q (fun u =>
          { u with rValid := false, rFirst := false, rLast := false, left := 0, rFlushed := u.flushedSince, flushedSince := false,
                   underrun := true, cntUnder := (u.cntUnder + 1) % 65536 }) s
        raiseOnce pgQUE (16 + q) 1 (q * 256 + 2) s
    let w := (que q s).rd
    (laneOf w 0, setShadow r pgQUE [(0xD094, laneOf w 1), (0xD098, laneOf w 2), (0xD09C, laneOf w 3)] s)

/-- QUEUE_READ: a read of RDW0. -/
def execQueueRead (r : Req) (s : State) : Out3 :=
  let x := queueRead r (serveMerger s)
  .next (answer r 0xD090 x.1 x.2)

/-- RINFO (R314). -/
def rinfo (u : Que) : Word :=
  mkWord [(31, 1, b2n u.rValid), (30, 1, b2n u.rFirst), (29, 1, b2n u.rLast), (28, 1, b2n u.rFlushed), (0, 6, u.left)]

/-! ## Flush, watermark and settings (R307, R311, R316–R318) -/

/-- QUEUE_FLUSH (R318): producers are held until it is done. -/
def execQueueFlush (r : Req) (s : State) : Out3 :=
  .next (gatedMerger r pgQUE (fun s => modQue (queSel s) (fun u => { u with flushing := true }) s) s)

/-- WM_LATCH_CLEAR (R317, R421): a write of WM_STAT with LATCH = 1; CHK as it stood makes the clear conditional while WM_CHK is granted. Log 36 (DEDUCED). -/
def execWmLatchClear (r : Req) (v : Word) (s : State) : Out3 :=
  .next (gatedMerger r pgQUE (fun s =>
    let q := queSel s
    let u := que q s
    let checked := u.chk && acts 3 (keyChk q) s
    let s := wrote r (keyChk q) (modQue q (fun u => { u with chk := wbit v 30 }) s)
    if wbit v 31 = false then s
    else if checked ∧ wbits v 0 16 ≠ u.epis then modQue q (fun u => { u with miss := true }) s
    else
      let s := modQue q (fun u => { u with latch := false, epis := 0, peak := 0, wm := (0, 0), x := false, miss := false }) s
      let s := if u.latch then bumpGen pgQUE s else s
      if u.hwm < u.level then wmCross q s else s) s)

/-- WM_HWM_WRITE (R316): a level above the new mark counts as a crossing. -/
def execWmHwmWrite (r : Req) (v : Word) (s : State) : Out3 :=
  .next (gatedMerger r pgQUE (fun s =>
    let q := queSel s
    let s := modQue q (fun u => { u with hwm := v.toNat % 2 ^ 19 }) s
    let u := que q s
    if u.hwm < u.level then wmCross q s else s) s)

/-- Whether a region of units meets another queue's region. -/
def overlaps (q base size : Nat) (s : State) : Bool :=
  (List.range 16).any fun k =>
    decide (k ≠ q) && decide (base < (que k s).base + (que k s).size) && decide ((que k s).base < base + size)

/-- QSIZE_WRITE (R307, R320). Log 36 (DEDUCED). -/
def execQsizeWrite (r : Req) (v : Word) (s : State) : Out3 :=
  .next (gatedMerger r pgQUE (fun s =>
    let q := queSel s
    let u := que q s
    let base := wbits v 16 10
    let size := wbits v 0 11
    let err :=
      if u.en = true ∨ u.pkts ≠ [] ∨ u.openW ≠ 0 then 2
      else if size = 0 then 3
      else if 1024 < base + size ∨ overlaps q base size s then 1
      else 0
    if err ≠ 0 then modQue q (fun u => { u with err := err }) s
    else
      let s := modQue q (fun u => { u with err := 0, base := base, size := size }) s
      if u.base = base ∧ u.size = size then s else bumpGen pgQUE s) s)

/-- QCFG as it reads (R320). -/
def qcfgWord (u : Que) : Word := mkWord [(31, 1, b2n u.en), (14, 2, u.prod), (10, 4, u.pnum), (8, 2, u.cons), (4, 4, u.cnum)]

/-- QCFG_WRITE (R311, R320): EN always; the other fields while EN is 0. -/
def execQcfgWrite (r : Req) (v : Word) (s : State) : Out3 :=
  .next (gatedMerger r pgQUE (fun s =>
    let q := queSel s
    let u := que q s
    let s' :=
      if u.en then
        let same := decide ((qcfgWord u).toNat % 2 ^ 31 = v.toNat % 2 ^ 31 &&& 0xFFF0)
        modQue q (fun u => { u with en := wbit v 31, err := if same then 0 else 2 }) s
      else modQue q (fun u =>
        { u with en := wbit v 31, prod := wbits v 14 2, pnum := wbits v 10 4, cons := wbits v 8 2, cnum := wbits v 4 4, err := 0 }) s
    if qcfgWord (que q s') = qcfgWord u then s' else bumpGen pgQUE s') s)

end Sys2Proof.Machine
end

