-- ==== Sys2Proof/Machine/Image.lean ====
section
/-! DEFINITION. Image headers, their validity, the program store and pairs with the supervisor (R442–R450, R454, R456). -/

namespace Sys2Proof.Machine

/-- A little-endian field of a header. -/
def hField (h : List Byte) (off n : Nat) : Nat := leNat (slice h off n)

/-- A digest field, most significant byte first as SHA-256 gives it. -/
def hDigest (h : List Byte) (off : Nat) : Nat := beNat (slice h off 32)

/-- The header fields that stay of use (R442). -/
def hdrOf (h : List Byte) : Hdr :=
  { kind := hField h 4 1, ifver := hField h 6 2, digest := hDigest h 16, feat := hField h 48 16,
    care := hField h 64 16, req := hField h 80 16, tw := (List.range (min 16 (hField h 256 1))).map fun i => hDigest h (288 + 32 * i) }

/-- Whether BODY_LEN lies within its kind's limit (R442). -/
def lenOk (kind len : Nat) : Bool :=
  match kind with
  | 1 => decide (len ≤ 4 * 2 ^ 20 - 1024)
  | 2 => decide (len ≤ 65536)
  | 3 => decide (4 ≤ len) && decide (len ≤ 1024) && decide (len % 4 = 0)
  | _ => false

/-- A signature over the first `n` bytes of a header, r then s at `off` (R442). -/
def sigOk (key : Nat × Nat) (h : List Byte) (n off : Nat) : Bool :=
  ecdsaOk key (sha256 (h.take n)) (beNat (slice h off 32)) (beNat (slice h (off + 32) 32))

/-- The validity of a header without its body (R443, R457), as FWL.STAT.ERR: 1 header, 2 signature, 3 countersignature, 4 revision, 0 valid. -/
def hdrErr (kind : Nat) (h : List Byte) (s : State) : Nat :=
  if h.length < 1024 ∨ beNat (slice h 0 4) ≠ 0x564C494D ∨ hField h 5 1 ≠ 1 ∨ hField h 4 1 ≠ kind ∨ lenOk kind (hField h 8 4) = false then 1
  else if sigOk s.fuse.vkey h 800 800 = false then 2
  else if (match s.fuse.ckey with
    | some k => !(sigOk k h 864 864)
    | none => false) then 3
  else if s.fuse.rev < hField h 12 1 ∨ hField h 13 1 < s.fuse.rev then 4
  else 0

/-- The validity of an image (R443): a body that does not match its digest is a header error. -/
def imageErr (kind : Nat) (h body : List Byte) (s : State) : Nat :=
  let e := hdrErr kind h s
  if e = 1 then 1
  else if body.length ≠ hField h 8 4 ∨ sha256 body ≠ hDigest h 16 then 1
  else e

/-! ## Boot flash (R445) -/

/-- Where a supervisor bank lies in the boot flash. -/
def bankBase (b : Nat) : Nat := if b = 0 then 0x0010000 else 0x0410000

/-- A supervisor image in a bank: its validity and header. -/
def bankImage (b : Nat) (s : State) : Nat × Hdr :=
  let h := flashRead (bankBase b) 1024 s
  let e := hdrErr 1 h s
  if e = 1 then (1, hdrOf h)
  else (imageErr 1 h (flashRead (bankBase b + 1024) (hField h 8 4) s) s, hdrOf h)

/-- The image of the program store with a digest, searched on 4 KiB boundaries until one reads 0xFFFF_FFFF (R445): its header and body. -/
def storeFind (digest : Nat) (s : State) : Nat → Nat → Option (List Byte × List Byte)
  | 0, _ => none
  | fuel + 1, a =>
    if leNat (flashRead a 4 s) = 0xFFFFFFFF then none
    else
      let h := flashRead a 1024 s
      if beNat (slice h 0 4) = 0x564C494D ∧ hDigest h 16 = digest then some (h, flashRead (a + 1024) (hField h 8 4) s)
      else storeFind digest s fuel (a + 4096)

/-- The image of the program store with a body digest. Log 27 (DESIGN CHOICE). -/
def programImage (digest : Nat) (s : State) : Option (List Byte × List Byte) := storeFind digest s 4080 0x0810000

/-! ## Pairs (R448–R450, R456) -/

/-- Causes of FWL (R458). -/
def fwlUNTESTED : Nat := 0
def fwlREFUSED : Nat := 1
def fwlSTAGED : Nat := 2
def fwlSTAGEFAIL : Nat := 3
def fwlSWAPPED : Nat := 4
def fwlCONFIRMED : Nat := 5
def fwlREVERTED : Nat := 6
def fwlFALLBACK : Nat := 7
def fwlBOOTALT : Nat := 8

/-- An effective word (R448): FEAT OR NOT CARE. -/
def effective (h : Hdr) : Nat := h.feat ||| ((2 ^ 128 - 1) ^^^ (h.care % 2 ^ 128))

/-- Whether a pair is tested (R448). -/
def pairTested (a b : Hdr) : Bool := a.tw.contains b.digest || b.tw.contains a.digest

/-- The in-force word of a pair (R448). -/
def pairWord (a b : Hdr) : Nat := if pairTested a b then a.feat &&& b.feat else effective a &&& effective b

/-- Whether a pair is refused (R448). Log 65 (DEDUCED). -/
def pairRefused (a b : Hdr) : Bool :=
  !(pairTested a b) &&
    (decide ((pairWord a b) &&& (a.req ||| b.req) ≠ a.req ||| b.req) || decide (a.ifver / 256 ≠ b.ifver / 256))

/-- MODE of a pair (R457). Log 65 (DEDUCED). -/
def pairMode (a b : Hdr) : Nat := if pairTested a b then 1 else 2

/-- The implemented feature bits (R421). -/
def implemented : Nat := 0x3FF

/-- The offer (R450): the implemented bits ANDed with the supervisor's FEAT and the words of its pairs. -/
def offerWord (s : State) : Nat :=
  match s.fwl.run with
  | none => implemented
  | some h => s.fwl.pairs.foldl (fun w p => if p.2.mode = 1 ∨ p.2.mode = 2 ∨ p.2.mode = 3 then w &&& p.2.feat else w) (implemented &&& h.feat)

/-- The offer follows the images; a granted bit that goes is lost (R424, R450). -/
def refreshOffer (s : State) : State :=
  let w := offerWord s ||| 1
  if BitVec.ofNat 128 w = s.fab.offer then s
  else
    let g := s.fab.grant &&& BitVec.ofNat 128 w
    let lost := decide (g ≠ s.fab.grant)
    let s := bumpGen pgFEAT (s.modFab fun f => { f with offer := BitVec.ofNat 128 w, grant := g, lost := f.lost || lost })
    raise pgFEAT 1 0 s

/-- A pair put in force (R448): untested ones are counted and raised. -/
def setPairSt (tgt : Nat) (p : Pair) (digest : Nat) (s : State) : State :=
  let s := bumpGen pgFWL (s.modFwl fun w =>
    { w with pairs := FMap.put (fun _ => {}) w.pairs tgt p, good := (tgt, digest) :: w.good.filter (·.1 ≠ tgt),
             cntUn := if p.mode = 2 then (w.cntUn + 1) % 65536 else w.cntUn })
  let s := if p.mode = 2 then raise pgFWL fwlUNTESTED (tgt * 256) s else s
  refreshOffer s

/-- A partner image meets the running supervisor (R448, R449): answers whether the pair is refused, which is counted and raised; the last good pair is kept. -/
def pairWith (tgt : Nat) (h : Hdr) (lg : Bool) (s : State) : State × Bool :=
  match s.fwl.run with
  | none => (s, false)
  | some sup =>
    if pairRefused sup h then
      let old := FMap.get (fun _ => ({} : Pair)) s.fwl.pairs tgt
      let s := s.modFwl fun w =>
        { w with cntRef := (w.cntRef + 1) % 65536, pairs := if old.mode = 0 then w.pairs else FMap.put (fun _ => {}) w.pairs tgt { old with mode := 3 } }
      let s := if old.mode = 0 ∨ old.mode = 3 then s else bumpGen pgFWL s
      (raise pgFWL fwlREFUSED (tgt * 256) s, true)
    else
      let s := s.modFwl fun w => { w with hdrs := FMap.put (fun _ => {}) w.hdrs tgt h }
      (setPairSt tgt ⟨pairMode sup h, lg, h.ifver, pairWord sup h⟩ h.digest s, false)

/-- A partner runs no image any more. -/
def endPair (tgt : Nat) (s : State) : State :=
  if (FMap.get (fun _ => ({} : Pair)) s.fwl.pairs tgt).mode = 0 then s
  else refreshOffer (bumpGen pgFWL (s.modFwl fun w => { w with pairs := FMap.put (fun _ => {}) w.pairs tgt {}, hdrs := FMap.put (fun _ => {}) w.hdrs tgt {} }))

/-- The header a Tattoo body pairs under when the program store has none (R456). -/
def plainHdr (digest ifver : Nat) : Hdr := { kind := 3, ifver := ifver, digest := digest }

end Sys2Proof.Machine
end

