-- ==== Sys2Proof/Machine/Terrier.lean ====
section
/-! DEFINITION. Terrier cores: ports, triggers, programs, faults, commits, switches and shadow runs (R321–R347, R455). -/

namespace Sys2Proof.Machine

/-! ## Accessors -/

/-- A core. -/
def tc (n : Nat) (s : State) : Tc := FMap.get (fun _ => {}) s.tcs n
/-- A core changed. -/
def modTc (n : Nat) (f : Tc → Tc) (s : State) : State := s.modTcs fun m => FMap.upd (fun _ => {}) m n f

/-- CTRL of a core's page. -/
def tcCtrl (n : Nat) (s : State) : Word := rfGet (pgTC n * 4096 + 0x40) s

/-- Causes of a TC page (R347). -/
def tcFAULT : Nat := 0
def tcOVERRUN : Nat := 1
def tcSWITCHED : Nat := 2
def tcSHDONE : Nat := 3
def tcREJ : Nat := 4
def tcSTOPPED : Nat := 5
def tcINDISC : Nat := 6
def tcOUTREF : Nat := 7

/-- A cause of a core raised with its code (R347). -/
def tcRaise (n bit code : Nat) (s : State) : State := raise (pgTC n) bit (n * 256 + code) s

/-- A cause of a core raised once per episode. -/
def tcRaiseOnce (n bit : Nat) (s : State) : State := raiseOnce (pgTC n) bit n (n * 256) s

/-- STAT.STATE (R346): a running core that waits shows what it waits for. -/
def Tc.stat (t : Tc) : Nat :=
  if t.state = 1 then
    match t.wait with
    | .none => 1
    | .send _ _ => 3
    | _ => 2
  else t.state

/-- A core changed where STAT.STATE may change: GEN follows (R346). -/
def modTcState (n : Nat) (f : Tc → Tc) (s : State) : State :=
  let a := (tc n s).stat
  let s := modTc n f s
  if (tc n s).stat = a then s else bumpGen (pgTC n) s

/-- A core that issues its next instruction: it has a program under way, waits for nothing and has not stopped. Log 29 (DEDUCED), 33 (DESIGN CHOICE). -/
def Tc.canIssue (t : Tc) : Bool :=
  t.img.isSome && !t.faulted && decide (t.wait = .none) &&
    (decide (t.state = 1) || decide (t.state = 6) || (decide (t.state = 4) && t.drainUp.isSome))

/-- Register `r`; v0 reads as zero (R324). -/
def Tc.v (t : Tc) (r : Nat) : W128 := if r = 0 then 0 else FMap.get (fun _ => 0) t.regs r

/-- Register `r` written; a write of v0 is discarded (R324). -/
def setV (n r : Nat) (w : W128) (s : State) : State :=
  if r = 0 then s else modTc n (fun t => { t with regs := FMap.put (fun _ => 0) t.regs r w }) s

/-- Lane 0 of a register, the scalar. -/
def Tc.scalar (t : Tc) (r : Nat) : Word := laneOf (t.v r) 0

/-- Four lanes made a word, lane 0 lowest (R324). -/
def mkLanes (a b c d : Word) : W128 := mkW128 [(0, 32, a.toNat), (32, 32, b.toNat), (64, 32, c.toNat), (96, 32, d.toNat)]

/-- The next instruction in order. -/
def advance (n : Nat) (s : State) : State := modTc n (fun t => { t with pc := (t.pc + 1) % 16384 }) s

/-- A core issues one instruction, if it can (R321). Log 33 (DESIGN CHOICE). -/
def issue (n : Nat) (f : State → State) (s : State) : State :=
  if (tc n s).canIssue then f (modTc n (fun t => { t with issued := t.issued + 1 }) s) else s

/-! ## The output port (R331–R334) -/

/-- The queue a core's output goes to: enabled, or with its item open (R311, R331). -/
def outQueue (n : Nat) (s : State) : Option Nat :=
  (List.range 16).find? fun q => decide ((que q s).prod = 2) && decide ((que q s).pnum = n) && ((que q s).en || (que q s).open_.isSome || (que q s).dropping)

/-- The open output item is rewound (R310, R334). -/
def rewindOut (n : Nat) (s : State) : State :=
  let t := tc n s
  match t.outb with
  | none => s
  | some _ =>
    let s := if (t.img.getD {}).odest = 1 ∧ t.state ≠ 6 then
        match outQueue n s with
        | some q => if (que q s).open_.isSome then rewindItem q s else s
        | none => s
      else s
    modTc n (fun t => { t with outb := none, rew := true, cntRew := (t.cntRew + 1) % 65536 }) s

/-- The Osden second nearest the present one with these low 32 bits. Log 34 (DEDUCED). -/
def nearSec (lo base : Nat) : Nat :=
  let c := base / 2 ^ 32 * 2 ^ 32 + lo
  if base + 2 ^ 31 < c ∧ 2 ^ 32 ≤ c then c - 2 ^ 32 else if c + 2 ^ 31 < base then c + 2 ^ 32 else c

/-- The instant in a record word (R41, R46): its seconds read near the present time, in the present epoch, or in the one before where the present epoch has no such instant yet and that one had. Log 34 (DEDUCED). -/
def wordStamp (w : W128) (s : State) : Stamp :=
  let t : Stamp := ⟨s.tim.epoch, nearSec (bits w.toNat 64 32) s.tim.sec, bits w.toNat 34 30⟩
  match s.tim.epOlds with
  | o :: _ =>
    let ended : Int := (s.tim.epStart.total : Int) - s.tim.epShift.fdiv 1024
    if (Stamp.lt t s.tim.epStart ∨ Stamp.lt (now s) t) ∧ (t.total : Int) < ended then { t with epoch := o.epoch } else t
  | [] => t

/-- Whether the first word of an output item may go out (R332): its kind, source, slot range and key. Log 34 (DEDUCED). -/
def outFirstOk (n : Nat) (w : W128) (last : Bool) (s : State) : Bool :=
  let t := tc n s
  let g := t.img.getD {}
  let v := w.toNat
  let kind := bits v 7 2
  let slot := bits v 9 9
  let at_ := wordStamp w s
  let kindOk :=
    if kind = 0 ∨ kind = 1 then last
    else if kind = 3 then decide (128 ≤ bits v 120 8) && (decide (bits v 112 6 = 0) == last)
    else false
  kindOk && decide (bits v 18 16 = myDev s) && decide (g.slotLo ≤ slot) && decide (slot ≤ g.slotHi) &&
    decide (bits v 34 30 < nsPerSec) && Stamp.le t.ho at_ &&
    (match FMap.get (fun _ => none) t.lastKey slot with
     | some k => Stamp.le k at_
     | none => true)

/-- The kind of a KIND code. -/
def kindOf (c : Nat) : Kind := if c = 0 then .sample else if c = 1 then .feature else if c = 2 then .event else .control

/-- The contracts that this hub originates and that name a slot, of any class. Log 34 (DEDUCED). -/
def consNaming (slot : Nat) (s : State) : List Nat :=
  (conIds s).filter fun id =>
    match (con id s).ent with
    | none => false
    | some e => decide ((con id s).state = 2 ∨ (con id s).state = 3) && (con id s).isSrc && hasSlot e (myDev s) slot

/-! ## Runs (R63, R64, R273) -/

/-- Samples per second of a RATE code (R63); 0 for a reserved one. -/
def runRate (r : Nat) : Nat := if r ≤ 0x0A then 2048000 >>> (r + 4) else if 0x10 ≤ r ∧ r ≤ 0x15 then 2048000 >>> (r - 0x0F) else 0

/-- Samples packed four to a word; lanes beyond the count hold 0x8000_0000 (R63). -/
def packRun : List Word → List W128
  | [] => []
  | [a] => [mkLanes a 0x80000000 0x80000000 0x80000000]
  | [a, b] => [mkLanes a b 0x80000000 0x80000000]
  | [a, b, c] => [mkLanes a b c 0x80000000]
  | a :: b :: c :: d :: ws => mkLanes a b c d :: packRun ws

/-- The RUN item of an open run (R63). -/
def runItem (o : OpenRun) (s : State) : Item := ctrlItem 3 (o.samples.length * 256 + o.rate) (srcId o.slot s) o.t (packRun o.samples)

/-- The open run of a slot. -/
def runOf (slot : Nat) (c : ConSt) : Option OpenRun := c.runs.find? (·.slot = slot)

/-- The open run of a slot is closed and its item is ready. -/
def closeRun (slot : Nat) (s : State) (id : Nat) : State :=
  match runOf slot (con id s) with
  | none => s
  | some o => stage (runItem o s) (modCon id (fun c => { c with runs := c.runs.filter (·.slot ≠ slot) }) s) id

/-- The samples per second of a contract's run at a RATE code (R63): 0x1F takes the rate of the source's contract, its ρ here. Log 34 (DEDUCED). -/
def rateIn (id rate : Nat) (s : State) : Nat :=
  if rate = 0x1F then
    match (con id s).ent with
    | some e => ((partOf e (myDev s)).map (·.rho)).getD 0
    | none => 0
  else runRate rate

/-- Whether a sample continues a run (R63, R64): one epoch, one rate, the next instant at `fs`. -/
def continues (o : OpenRun) (rate fs : Nat) (t : Stamp) : Bool :=
  let due := o.t.total + o.samples.length * nsPerSec / (if fs = 0 then 1 else fs)
  decide (o.rate = rate) && decide (o.t.epoch = t.epoch) && decide (due ≤ t.total + 1) && decide (t.total ≤ due + 1)

/-- A sample of a slot goes into a contract (R64, R273): packed where the entry sets RUNS and it carries no flag but X. -/
def takeSample (rate : Nat) (i : Item) (s : State) (id : Nat) : State :=
  let slot := slotOf i.src
  let runs := match (con id s).ent with
    | some e => e.runs
    | none => false
  if runs = false ∨ rateIn id rate s = 0 then stage i s id
  else if i.flags % 128 ≠ xOf i.t * 2 then stage i (closeRun slot s id) id
  else
    let s := match runOf slot (con id s) with
      | some o => if continues o rate (rateIn id rate s) i.t then s else closeRun slot s id
      | none => s
    if barred id i.t s then s
    else
      let o : OpenRun := match runOf slot (con id s) with
        | some o => { o with samples := o.samples ++ [i.value] }
        | none => { slot := slot, rate := rate, t := i.t, samples := [i.value], at_ := s.tim.up }
      let s := modCon id (fun c => { c with runs := o :: c.runs.filter (·.slot ≠ slot) }) s
      if 248 ≤ o.samples.length then closeRun slot s id else s

/-- A sample record of a slot goes into every contract that takes it; `rate` is its RATE code, 0x1F for a computed slot (and for a Q record, which is never packed). -/
def emitSample (rate : Nat) (i : Item) (s : State) : State := (consFor .sample (slotOf i.src) s).foldl (takeSample rate i) s

/-- Every open run of a slot is closed (R64): a range change, a change of calibration set. Log 34 (DEDUCED). -/
def closeRuns (slot : Nat) (s : State) : State := (conIds s).foldl (closeRun slot) s

/-- An accepted output item becomes records of its slot, X written from the epoch of its instant (R331, R332). Log 34 (DEDUCED). -/
def emitOut (n : Nat) (ws : List W128) (s : State) : State :=
  match ws with
  | [] => s
  | w :: rest =>
    let v := w.toNat
    let at_ := wordStamp w s
    let fl := bits v 0 7
    let i : Item := { t := at_, src := bits v 9 25, kind := kindOf (bits v 7 2), value := BitVec.ofNat 32 (bits v 96 32),
                      flags := putBit fl 1 (decide (xOf at_ = 1)), payload := rest }
    let s := modTc n (fun t => { t with lastKey := FMap.put (fun _ => none) t.lastKey (slotOf i.src) (some at_) }) s
    if i.kind = .control then (consNaming (slotOf i.src) s).foldl (stage i) s else if i.kind = .sample then emitSample 0x1F i s else emit i s

/-- Two outputs of a shadow run compared item by item in order (R343): the pairs that differ, and what remains of each. Log 35 (DEDUCED). -/
def compareOut : List (List W128) → List (List W128) → Nat × List (List W128) × List (List W128)
  | a :: as, b :: bs =>
    let r := compareOut as bs
    (r.1 + (if a = b then 0 else 1), r.2)
  | as, bs => (0, as, bs)

/-- An item of a live core or its donor joins the comparison (R343). Log 35 (DEDUCED). -/
def shadowItem (live : Nat) (fromDonor : Bool) (ws : List W128) (s : State) : State :=
  modTc live (fun t =>
    match t.shadow with
    | none => t
    | some h =>
      if h.started = false then t
      else
        let l := if fromDonor then h.liveOut else h.liveOut ++ [ws]
        let d := if fromDonor then h.donorOut ++ [ws] else h.donorOut
        let r := compareOut l d
        { t with shadow := some { h with mism := satAdd 255 h.mism r.1, liveOut := r.2.1, donorOut := r.2.2 } }) s

/-- An item is refused (R332): its later words are dropped until SENDL. Log 34 (DEDUCED). -/
def refuseOut (n : Nat) (last : Bool) (s : State) : State :=
  tcRaiseOnce n tcOUTREF (modTc n (fun t =>
    { t with outb := none, ref := true, cntRef := (t.cntRef + 1) % 65536, outDrop := !last }) s)

/-- A word sent, after the item's first (R331, R332). Answers whether the port took it; a core whose word is not taken waits. Log 34 (DEDUCED). -/
def sendWord (n : Nat) (w : W128) (last : Bool) (s : State) : State × Bool :=
  let t := tc n s
  let ws := t.outb.getD [] ++ [w]
  let done := shadowItem n false ws
  if t.outDrop then (modTc n (fun t => { t with outDrop := !last }) s, true)
  else if t.state = 6 then
    (if last then modTc n (fun t => { t with outb := none }) (match t.donorOf with
        | some live => shadowItem live true ws s
        | none => s)
     else modTc n (fun t => { t with outb := some ws }) s, true)
  else if (t.img.getD {}).odest = 1 then
    match outQueue n s with
    | none => (modTc n (fun t => { t with outb := none, rew := true, cntRew := (t.cntRew + 1) % 65536, outDrop := !last }) s, true)
    | some q =>
      let r := putWord q w last false s
      if r.2 = false then (s, false)
      else if 64 < ws.length then
        (modTc n (fun t => { t with outb := none, rew := true, cntRew := (t.cntRew + 1) % 65536, outDrop := !last }) (modQue q (fun u => { u with dropping := false }) r.1), true)
      else if last then (modTc n (fun t => { t with outb := none }) (done r.1), true)
      else (modTc n (fun t => { t with outb := some ws }) r.1, true)
  else if t.outb = none ∧ outFirstOk n w last s = false then (refuseOut n last s, true)
  else if 64 < ws.length then
    (modTc n (fun t => { t with outb := none, rew := true, cntRew := (t.cntRew + 1) % 65536, outDrop := !last }) s, true)
  else if last then
    let plen := match ws with
      | h :: _ => if bits h.toNat 7 2 = 3 then bits h.toNat 112 6 else 0
      | [] => 0
    if plen + 1 = ws.length then (emitOut n ws (modTc n (fun t => { t with outb := none }) (done s)), true)
    else (refuseOut n true s, true)
  else (modTc n (fun t => { t with outb := some ws }) s, true)

/-- The words the output can take now (R334): 64 on the record path. -/
def outFree (n : Nat) (s : State) : Nat :=
  if ((tc n s).img.getD {}).odest = 1 then
    match outQueue n s with
    | some q => (que q s).free
    | none => 0
  else 64

/-! ## The input port (R329, R330) -/

/-- The words in an input buffer. -/
def inLevel (t : Tc) : Nat := sumNat (t.inb.map fun i => i.words.length)

/-- A whole item offered to a core's input port (R329, R330): a stopped core discards it; it enters when there is room for all of it; a shadow donor gets a copy. Answers whether it was taken. -/
def tcAccept (n : Nat) (ws : List W128) (fromQ : Bool) (at_ : Option Stamp) (s : State) : State × Bool :=
  let t := tc n s
  let it : InItem := ⟨fromQ, ws, at_⟩
  if ws = [] then (s, true)
  else if t.state = 5 then
    (tcRaiseOnce n tcINDISC (modTc n (fun t => { t with cntDisc := (t.cntDisc + 1) % 65536 }) s), true)
  else if 4096 < inLevel t + ws.length then (s, false)
  else
    let s := modTc n (fun t => { t with inb := t.inb ++ [it] }) (serveCore n s)
    match t.shadow with
    | some h => if h.started then (modTc h.donor (fun d => { d with inb := d.inb ++ [it] }) s, true) else (s, true)
    | none => (s, true)

/-- TC_INPUT_ITEM (R329): a queue's next packet, or a contract's item, enters whole. -/
def execTcInputItem (n : QNum) (q : Option QNum) (dev : Nat) (con : Con) (seq : Nat) (item : Item) (s : State) : Out3 :=
  match q with
  | some k =>
    let u := que k.val s
    if u.cons = 2 ∧ u.cnum = n.val ∧ u.headCut = false then
      match u.pkts with
      | [] => .next s
      | p :: ps =>
        let r := tcAccept n.val p true none s
        .next (if r.2 then modQue k.val (fun u => { u with pkts := ps }) r.1 else r.1)
    else .next s
  | none =>
    let r := tcAccept n.val item.words false (some item.t) s
    .next (if r.2 then handOver dev con.val (seq + itemSpan item) r.1 else r.1)

/-- The information that goes with an input word (R330). -/
def inInfo (fromQ : Bool) (left : Nat) (first : Bool) : Word :=
  mkWord [(9, 1, b2n fromQ), (3, 6, left), (2, 1, b2n (decide (left = 0))), (1, 1, b2n first), (0, 1, 1)]

/-- One word taken from the input buffer into `d`, its information into lane 0 of `b` (R330). Answers whether there was one. -/
def takeIn (n d b : Nat) (s : State) : State × Bool :=
  let t := tc n s
  match t.inb with
  | [] => (s, false)
  | i :: rest =>
    match i.words with
    | [] => (modTc n (fun t => { t with inb := rest, inFirst := true }) s, false)
    | w :: ws =>
      let s := modTc n (fun t => { t with inb := if ws.isEmpty then rest else { i with words := ws } :: rest, inFirst := ws.isEmpty }) s
      let s := setV n d w s
      (setV n b (mkLanes (inInfo i.fromQ ws.length t.inFirst) 0 0 0) s, true)

/-! ## Faults (R337, R344) -/

/-- Whether a byte offset of the data region lies in the kept region. -/
def inKept (g : TImg) (off : Nat) : Bool := decide (g.keptOff * 16 ≤ off) && decide (off < (g.keptOff + g.keptLen) * 16)

/-- The data region initialised (R342): the image's data copied in, the rest zero, the kept region as it stands. Log 27 (DESIGN CHOICE), 28 (DEDUCED). -/
def dataInit (n : Nat) (g : TImg) (s : State) : State :=
  let b := tcBase n + 0x20000
  let init := Memory.readN s.mem (tcBase n + (tc n s).bank * 0x10000 + g.codeLen * 4) g.dataLen
  s.modMem fun m =>
    let m := m.filter fun e => decide (e.1 < b) || decide (b + 0x60000 ≤ e.1) || inKept g (e.1 - b)
    (init.zipIdx).foldl (fun m x => if inKept g x.2 then m else Memory.write m (b + x.2) x.1) m

/-- A shadow run ends (R343): SH_STAT set, the donor idle, SH_DONE. Log 35 (DEDUCED). -/
def endShadow (n : Nat) (s : State) : State :=
  let t := tc n s
  match t.shadow with
  | none => s
  | some h =>
    let mism := satAdd 255 h.mism (max h.liveOut.length h.donorOut.length)
    let word := packNat [(24, 8, h.runs), (16, 8, mism), (8, 8, h.ovr), (0, 8, h.flt)]
    let s := modTcState h.donor (fun d => { d with state := 0, img := none, donorOf := none, wait := .none, inb := [], inFirst := true, outb := none, faulted := false }) s
    let s := modTc n (fun t => { t with shadow := none, shDone := true, shStat := word }) s
    tcRaise n tcSHDONE 0 s

/-- The least common multiple of two periods. -/
def lcmNat (a b : Nat) : Nat := if a = 0 then b else if b = 0 then a else a / Nat.gcd a b * b

/-- The first instant at or after `t` on a grid of `per` µs, in ns of the epoch. -/
def gridAt (t per : Nat) : Nat := if per = 0 then t else (t + per * 1000 - 1) / (per * 1000) * (per * 1000)

/-- The switch boundary scheduled (R341): 1 ms from now or later, on both grids; a commit that waits for the pending slice switches at its activation second instead (R340). Log 28 (DEDUCED). -/
def scheduleSwitch (n : Nat) (s : State) : State :=
  modTc n (fun t =>
    let new := (t.pendImg.getD {}).wper
    let old := match t.img with
      | some g => g.wper
      | none => 0
    { t with switchAt := if t.pendSlice then none else some (gridAt ((now s).total + 1000000) (lcmNat old new)), shDone := false }) s

/-- A shadow run that has ended may let the switch follow by itself (R343). Log 35 (DEDUCED). -/
def shadowOver (n : Nat) (s : State) : State :=
  let s := endShadow n s
  let c := tcCtrl n s
  let w := (tc n s).shStat
  let good := wbit c 6 && decide (bits w 0 8 = 0) && decide (bits w 8 8 = 0) && (!(wbit c 7) || decide (bits w 16 8 = 0))
  if good then scheduleSwitch n s else s

/-- The Terrier fallback (R455): within 10 s of a switch, the banks flip back and the previous image restarts. -/
def fallback (n : Nat) (s : State) : Option State :=
  let t := tc n s
  match t.prev, t.swUp with
  | some g, some u =>
    if wbit (rfGet 0x6040 s) 27 ∧ s.tim.up ≤ u + 10 * nsPerSec then
      let s := modTcState n (fun t =>
        { t with bank := 1 - t.bank, img := some g, prev := none, swUp := none, state := 1, faulted := false, faultWins := 0, pc := 0, wait := .none }) s
      let s := (dataInit n g s).modFwl fun w => { w with good := w.good.filter fun p => !(decide (p.1 = n) && decide (p.2 = (t.img.getD {}).digest)) }
      some (raise pgFWL fwlFALLBACK (n * 256) (pairWith n t.prevHdr false s).1)
    else none
  | _, _ => none

/-- The core stops after faults in three consecutive windows (R344), unless it falls back. Log 29 (DEDUCED). -/
def coreStops (n : Nat) (s : State) : State :=
  let s := modTcState n (fun t => { t with state := 5, faulted := false, wait := .none, inb := [], inFirst := true }) s
  let s := tcRaise n tcSTOPPED 0 s
  match fallback n s with
  | some s' => s'
  | none => s

/-- The program stops until the next window boundary (R344, R345): a drain ends with it; a donor's run is over. Log 29 (DEDUCED). -/
def stopProgram (n : Nat) (s : State) : State :=
  let t := tc n s
  let s := modTcState n (fun t => { t with faulted := true, wait := .none, outDrop := false, drainUp := if t.state = 4 then none else t.drainUp }) (rewindOut n s)
  match t.donorOf with
  | some live =>
    shadowOver live (modTc live (fun t => { t with shadow := t.shadow.map fun h => { h with flt := h.flt + 1 } }) s)
  | none => if 2 ≤ t.faultWins ∧ t.state = 1 then coreStops n s else s

/-- A fault (R344): the code and the program counter recorded, FAULT raised. Log 29 (DEDUCED). -/
def faultAt (n code : Nat) (s : State) : State :=
  stopProgram n (tcRaise n tcFAULT code (modTc n (fun t => { t with faultCode := code, faultPc := t.pc }) s))

/-- A fault of the program (R344): it is counted. Log 29 (DEDUCED). -/
def coreFault (n code : Nat) (s : State) : State :=
  faultAt n code (modTc n (fun t => { t with cntFaults := (t.cntFaults + 1) % 65536 }) s)

/-- UNDEFINED_OPCODE (R337): code 1, or code 5 where the fetch meets an uncorrectable error, which DEV reports too (R427). -/
def execUndefinedOpcode (n : QNum) (ue : Bool) (s : State) : Out3 :=
  .next (issue n.val (fun s => if ue then coreFault n.val 5 (raise pgDEV 0 (pgTC n.val * 256) s) else coreFault n.val 1 s) s)

/-! ## Triggers (R325–R328, R333) -/

/-- The output horizon follows the latest boundary and the cap, and never decreases (R333). -/
def Tc.hoNext (t : Tc) : Stamp :=
  let h := match t.cap with
    | some c => Stamp.min t.bound c
    | none => t.bound
  if Stamp.lt t.ho h then h else t.ho

/-- The boundary at or before an instant on a grid of `per` µs. -/
def floorGrid (t : Stamp) (per : Nat) : Stamp :=
  if per = 0 then t else Stamp.ofTotal t.epoch (t.total / (per * 1000) * (per * 1000))

/-- LOAD of the window that ends (R346), in thousandths of its 800 MHz cycles. -/
def loadOf (issued wper : Nat) : Nat := if wper = 0 then 0 else min 1000 (issued * 1000 / (wper * 800))

/-- A window trigger falls (R325, R327). `counted`: one that finds another pending is an overrun. -/
def windowTrigger (n : Nat) (b : Stamp) (counted : Bool) (s : State) : State :=
  let t := tc n s
  let isOver := t.wPend && counted
  let s := modTc n (fun t =>
    let t := { t with wPend := true, bound := b, ovrSince := t.ovrSince || isOver, cntOvr := if isOver then (t.cntOvr + 1) % 65536 else t.cntOvr,
                      load := loadOf t.issued (t.img.getD {}).wper, peak := max t.peak (loadOf t.issued (t.img.getD {}).wper), issued := 0 }
    { t with ho := t.hoNext }) s
  let s := match t.donorOf with
    | some live => modTc live (fun l => { l with shadow := l.shadow.map fun h =>
        { h with runs := h.runs + 1, ovr := h.ovr + b2n isOver } }) s
    | none => s
  if isOver ∧ t.donorOf = none then tcRaiseOnce n tcOVERRUN s else s

/-- A program stopped by a fault restarts (R344): data region initialised, index 0. Log 28 (DEDUCED). -/
def restart (n : Nat) (s : State) : State :=
  let t := tc n s
  match t.img with
  | none => s
  | some g => dataInit n g (modTcState n (fun t => { t with faulted := false, wait := .none, pc := 0 }) s)

/-- WINDOW_BOUNDARY (R325, R327, R344). -/
def execWindowBoundary (n : QNum) (s : State) : Out3 :=
  let t := tc n.val s
  match t.img with
  | none => .next s
  | some g =>
    if t.state = 5 ∨ t.state = 0 then .next s
    else
      let s := serveCore n.val s
      let s := windowTrigger n.val (floorGrid (now s) g.wper) true s
      if t.faulted ∧ t.state = 1 then .next (restart n.val (modTc n.val (fun t => { t with faultWins := t.faultWins + 1 }) s))
      else .next (modTc n.val (fun t => { t with faultWins := 0 }) s)

/-- CYCLE_BOUNDARY (R326): one that finds another pending merges with it. -/
def execCycleBoundary (n : QNum) (s : State) : Out3 :=
  let t := tc n.val s
  .next (if (t.img.getD {}).cper ≠ 0 ∧ t.state ≠ 0 ∧ t.state ≠ 5 then modTc n.val (fun t => { t with cPend := true }) (serveCore n.val s) else s)

/-! ## Waiting (R336, R338, R342, R343) -/

/-- Whether a condition of a WAIT mask holds. -/
def waitHolds (n m : Nat) (s : State) : Bool :=
  let t := tc n s
  decide (m = 0) || (m.testBit 0 && t.wPend) || (m.testBit 1 && t.cPend) || (m.testBit 2 && !t.inb.isEmpty) || (m.testBit 3 && decide (outFree n s ≠ 0))

/-- The contracts whose endpoint is a core. -/
def consOfCore (n : Nat) (s : State) : List Nat :=
  (conIds s).filter fun id =>
    match (con id s).ent with
    | some e => decide (e.epkind = 2) && decide (e.epnum = n) && (con id s).isCons && decide ((con id s).state = 2 ∨ (con id s).state = 3)
    | none => false

/-- Whether the released horizon of a contract has passed an instant (R286, R289). -/
def horizonPassed (id : Nat) (b : Nat) (s : State) : Bool :=
  match (con id s).ent with
  | none => true
  | some e =>
    let h := if e.scope = 0 then (con id s).hz else FMap.get (fun _ => none) s.del.hz e.cls
    match h with
    | some h => decide (b ≤ h.total)
    | none => false

/-- Whether the old program has taken every contract item below its switch boundary (R342). Log 28 (DEDUCED). -/
def drained (n b : Nat) (s : State) : Bool :=
  ((tc n s).inb.all fun i => match i.t with
    | some x => decide (b ≤ x.total)
    | none => true) && ((consOfCore n s).all fun id => horizonPassed id b s)

/-- A WAIT with the window trigger in its mask marks the ends of a shadow run (R343): both programs have taken the trigger of E. -/
def shadowWait (n : Nat) (s : State) : State :=
  let t := tc n s
  let live := t.donorOf.getD n
  match (tc live s).shadow with
  | none => s
  | some h =>
    if h.started ∧ h.endAt ≤ t.bound.total ∧ t.wPend = false then
      let h := if t.donorOf.isSome then { h with donorEnd := true } else { h with liveEnd := true }
      let s := modTc live (fun t => { t with shadow := some h }) s
      if h.liveEnd ∧ h.donorEnd then shadowOver live s else s
    else s

/-- WAIT executed (R336, R342, R343). -/
def waitOn (n m : Nat) (s : State) : State :=
  let s := if m.testBit 0 then shadowWait n s else s
  let t := tc n s
  if t.state = 4 ∧ m.testBit 0 ∧ drained n (t.switchAt.getD 0) s then modTc n (fun t => { t with drainUp := none }) s
  else if waitHolds n m s then advance n s
  else modTcState n (fun t => { t with wait := .mask m }) s

/-- WAIT_RESUME (R338). -/
def execWaitResume (n : QNum) (s : State) : Out3 :=
  match (tc n.val s).wait with
  | .mask m => .next (if waitHolds n.val m s then advance n.val (modTcState n.val (fun t => { t with wait := .none }) s) else s)
  | _ => .next s

/-- RECV_RESUME (R330). -/
def execRecvResume (n : QNum) (s : State) : Out3 :=
  match (tc n.val s).wait with
  | .recv d b =>
    let r := takeIn n.val d b s
    .next (if r.2 then advance n.val (modTcState n.val (fun t => { t with wait := .none }) r.1) else r.1)
  | _ => .next s

/-- SEND_RESUME (R334). -/
def execSendResume (n : QNum) (s : State) : Out3 :=
  match (tc n.val s).wait with
  | .send w last =>
    let r := sendWord n.val w last s
    .next (if r.2 then advance n.val (modTcState n.val (fun t => { t with wait := .none }) r.1) else s)
  | _ => .next s

/-! ## Commits and switches (R339–R346) -/

/-- A Terrier image as its header declares it (R442), its code and data told apart (R339). -/
def timgOf (h body : List Byte) : TImg :=
  let digest := hDigest h 16
  let words := (body.length + 3) / 4
  let code := if words = 0 then 0 else 1 + Config.codeWords digest % min words 16384
  { digest := digest, wper := hField h 128 4, cper := hField h 132 4, odest := hField h 136 1, slotLo := hField h 138 2, slotHi := hField h 140 2,
    keptOff := hField h 142 4, keptLen := hField h 146 4, drain := hField h 150 4, codeLen := code, dataLen := body.length - code * 4 }

/-- The computed slots in use, each with its user: cores as 0–15, tracks from 16, sections from 32 (R340, R369). -/
def slotUsers (s : State) : List (Nat × Nat × Nat) :=
  ((List.range 16).filterMap fun n => (tc n s).img.map fun g => (n, g.slotLo, g.slotHi)) ++
  ((List.range 16).flatMap fun k =>
    let t := FMap.get (fun _ => {}) s.svc.tracks k
    if wbit t.cfg0 31 then
      (16 + k, wbits t.cfg1 16 9, wbits t.cfg1 16 9) :: (if wbits t.cfg1 0 9 = 0 then [] else [(16 + k, wbits t.cfg1 0 9, wbits t.cfg1 0 9)])
    else []) ++
  ((List.range 4).flatMap fun k =>
    let c := FMap.get (fun _ => {}) s.svc.sects k
    if wbit c.cfg 31 then [(32 + k, wbits c.cfg 0 9, wbits c.cfg 0 9 + 2)] else [])

/-- Whether a range of slots is clear of every other user's. -/
def slotsClear (user lo hi : Nat) (s : State) : Bool :=
  (slotUsers s).all fun u => decide (u.1 = user) || decide (u.2.2 < lo) || decide (hi < u.2.1)

/-- Whether a slice assigns a digest to a target (R340, R170). -/
def assignedTo (x : Option Slice) (tgt digest : Nat) : Bool :=
  match x with
  | some a => a.body.programs.any fun p => decide (p.tgt = tgt) && decide (p.digest = digest)
  | none => false

/-- Check 4 of R340. -/
def timgOk (n : Nat) (g : TImg) (s : State) : Bool :=
  decide (10 ≤ g.wper) && decide (g.wper ≤ 1000000) && decide (1000000 % g.wper = 0) &&
  (decide (g.cper = 0) || (decide (g.cper ≤ 10000) && decide (1000000 % g.cper = 0))) &&
  decide (320 ≤ g.slotLo) && decide (g.slotLo ≤ g.slotHi) && decide (g.slotHi ≤ 447) && slotsClear n g.slotLo g.slotHi s &&
  decide ((g.keptOff + g.keptLen) * 16 ≤ 0x60000)

/-- Whether a core may be a shadow donor (R340 check 6). -/
def donorOk (n d : Nat) (s : State) : Bool :=
  decide (d ≠ n) && decide ((tc d s).state = 0) && decide ((tc d s).donorOf = none) && (consOfCore d s).isEmpty &&
  !((List.range 16).any fun q => (decide ((que q s).prod = 2) && decide ((que q s).pnum = d)) || (decide ((que q s).cons = 2) && decide ((que q s).cnum = d)))

/-- A commit refused (R340). Log 28 (DEDUCED). -/
def refuseCommit (n code : Nat) (s : State) : State := tcRaise n tcREJ code (modTc n (fun t => { t with err := code }) s)

/-- The standby body of a core, with the length its header names (R339). -/
def standbyBody (n len : Nat) (s : State) : List Byte :=
  Memory.readN s.mem (tcBase n + (1 - (tc n s).bank) * 0x10000) len

/-- A stopped core runs its program again from the next window boundary (R344). Log 28 (DEDUCED). -/
def leaveStopped (n : Nat) (s : State) : State :=
  if (tc n s).state = 5 then modTcState n (fun t => { t with state := 1, faulted := true, faultWins := 0 }) s else s

/-- A checked image is accepted (R340, R341, R343, R344): a stopped core leaves that state; a shadow run or a switch is scheduled, unless it waits for the pending slice. Log 28 (DEDUCED). -/
def acceptCommit (n : Nat) (g : TImg) (h : Hdr) (wait shadow : Bool) (donor shn : Nat) (s : State) : State :=
  let s := modTc n (fun t => { t with err := 0, pend := true, pendImg := some g, pendHdr := h, pendLg := false, pendSlice := wait, switchAt := none, shDone := false, shStat := 0 }) (leaveStopped n s)
  if shadow then
    let start := gridAt ((now s).total + 1000000) g.wper
    modTc n (fun t => { t with shadow := some { donor := donor, startAt := start, endAt := start + max shn 1 * g.wper * 1000 } }) s
  else scheduleSwitch n s

/-- A commit (R340), check by check; `skip3` leaves out check 3 for a last-good image (R449). Log 28 (DEDUCED). -/
def commitImage (n : Nat) (h : List Byte) (skip3 : Bool) (gate : Bool) (s : State) : State :=
  let t := tc n s
  let c := tcCtrl n s
  let len := hField h 8 4
  let body := standbyBody n len s
  let g := timgOf h body
  let shadow := wbit c 5 && gate
  if t.stBad ∨ t.stLen = 0 then refuseCommit n 1 s
  else if (len + 3) / 4 ≠ t.stLen ∨ imageErr 2 h body s ≠ 0 then refuseCommit n 2 s
  else if (match s.fwl.run with
    | some sup => pairRefused sup (hdrOf h)
    | none => false) then refuseCommit n 2 (pairWith n (hdrOf h) false s).1
  else if !(skip3 || assignedTo s.pln.active n g.digest || assignedTo s.pln.pend n g.digest) then refuseCommit n 3 s
  else if timgOk n g s = false then refuseCommit n 4 s
  else if t.pend then refuseCommit n 5 s
  else if shadow ∧ donorOk n (wbits c 16 4) s = false then refuseCommit n 6 s
  else
    let s := acceptCommit n g (hdrOf h) (!(skip3 || assignedTo s.pln.active n g.digest)) shadow (wbits c 16 4) (wbits c 8 8) s
    modTc n (fun t => { t with pendLg := skip3 }) s

/-- TC_CLR (R346): refused while a commit is pending. -/
def execTcClr (r : Req) (n : QNum) (s : State) : Out3 :=
  .next (gatedCore r n.val (fun s =>
    if (tc n.val s).pend then s
    else
      let b := tcBase n.val + (1 - (tc n.val s).bank) * 0x10000
      rfPut (pgTC n.val * 4096 + 0x5C) 0 (modTc n.val (fun t => { t with stLen := 0, stBad := false }) (s.modMem fun m => Memory.clear m b 0x10000))) s)

/-- TC_IMG_DATA_WRITE (R346). -/
def execTcImgDataWrite (r : Req) (n : QNum) (v : Word) (s : State) : Out3 :=
  .next (gatedCore r n.val (fun s =>
    let t := tc n.val s
    let a := (rfGet (pgTC n.val * 4096 + 0x5C) s).toNat
    if 16384 ≤ a ∨ t.pend then modTc n.val (fun t => { t with stBad := true }) s
    else
      let b := tcBase n.val + (1 - t.bank) * 0x10000 + a * 4
      let s := s.modMem fun m => Memory.writeN m b (leBytes 4 v.toNat)
      rfPut (pgTC n.val * 4096 + 0x5C) (BitVec.ofNat 32 (a + 1)) (modTc n.val (fun t => { t with stLen := max t.stLen (a + 1) }) s)) s)

/-- TC_COMMIT (R340, R421, R422, R454): the header staged for the core is used up. -/
def execTcCommit (r : Req) (n : QNum) (s : State) : Out3 :=
  .next (gatedCore r n.val (fun s =>
    let h := if (rfGet 0x60A0 s).toNat = n.val then s.fwl.hdrBuf else []
    let s' := commitImage n.val h false (granted 5 r s) s
    if h = [] then s' else s'.modFwl fun w => { w with hdrBuf := [] }) s)

/-- A pending commit and any shadow run cancelled (R345, R346). -/
def cancelCommit (n : Nat) (s : State) : State :=
  let t := tc n s
  let s := match t.shadow with
    | some h => modTcState h.donor (fun d => if d.donorOf = some n then { d with state := 0, img := none, donorOf := none, wait := .none, inb := [], inFirst := true, outb := none, faulted := false } else d) s
    | none => s
  modTcState n (fun t => { t with pend := false, pendImg := none, pendSlice := false, switchAt := none, shadow := none, shDone := false,
                                  state := if t.state = 4 then 1 else t.state, drainUp := none }) s

/-- TC_ABORT (R346). -/
def execTcAbort (r : Req) (n : QNum) (s : State) : Out3 :=
  .next (gatedCore r n.val (fun s => if (tc n.val s).pend then cancelCommit n.val s else s) s)

/-- TC_GO (R343). -/
def execTcGo (r : Req) (n : QNum) (s : State) : Out3 :=
  .next (gatedCore r n.val (fun s => if (tc n.val s).pend ∧ (tc n.val s).shDone then scheduleSwitch n.val s else s) s)

/-- TC_RESTART (R344, R345): a stopped core runs again from the next window boundary; on a running core it is a fault without a code, not counted. Log 29 (DEDUCED). -/
def execTcRestart (r : Req) (n : QNum) (s : State) : Out3 :=
  .next (gatedCore r n.val (fun s =>
    let t := tc n.val s
    if t.img = none then s
    else if t.state = 5 then leaveStopped n.val s
    else if (t.state = 1 ∨ t.state = 4 ∨ t.state = 6) ∧ t.faulted = false then faultAt n.val 0 s
    else s) s)

/-- SHADOW_START (R343): at S the donor starts the new program. Log 35 (DEDUCED). -/
def execShadowStart (n : QNum) (s : State) : Out3 :=
  let t := tc n.val s
  match t.shadow, t.pendImg with
  | some h, some g =>
    if h.started then .next s
    else
      let body := standbyBody n.val (g.codeLen * 4 + g.dataLen) s
      let s := s.modMem fun m => Memory.writeN m (tcBase h.donor + (tc h.donor s).bank * 0x10000) body
      let s := modTcState h.donor (fun d =>
        { d with state := 6, img := some g, donorOf := some n.val, pc := 0, wait := .none, wPend := true, cPend := false, bound := floorGrid (now s) g.wper,
                 inb := [], inFirst := true, outb := none, outDrop := false, ovrSince := false, cap := none, faulted := false, faultWins := 0 }) s
      .next (dataInit h.donor g (modTc n.val (fun t => { t with shadow := some { h with started := true } }) s))
  | _, _ => .next s

/-- SWITCH_BOUNDARY (R341, R342): the old program drains; a core without one under way is ready at once. -/
def execSwitchBoundary (n : QNum) (s : State) : Out3 :=
  let t := tc n.val s
  if t.pend = false ∨ t.switchAt = none ∨ t.state = 4 then .next s
  else
    let g := t.img.getD {}
    let lim := (if g.drain = 0 then g.wper else g.drain) * 1000
    .next (modTcState n.val (fun t => { t with state := 4, drainUp := if t.state = 1 ∧ t.faulted = false then some (s.tim.up + lim) else none }) s)

/-- DRAIN_EXPIRY (R342): at b + DRAIN the old program stops and its open item is rewound. -/
def execDrainExpiry (n : QNum) (s : State) : Out3 :=
  let t := tc n.val s
  .next (if t.state = 4 ∧ t.drainUp.isSome then modTc n.val (fun t => { t with drainUp := none, wait := .none }) (rewindOut n.val s) else s)

/-- The new program starts (R342): banks flipped, data copied, index 0, the trigger of b pending. Log 28 (DEDUCED). -/
def flipBanks (n : Nat) (g : TImg) (s : State) : State :=
  let t := tc n s
  let b := Stamp.ofTotal (now s).epoch (t.switchAt.getD (now s).total)
  let s := modTcState n (fun t =>
    { t with bank := 1 - t.bank, prev := t.img, img := some g, pend := false, pendImg := none, pendSlice := false, switchAt := none, drainUp := none,
             shadow := none, shDone := false, state := 1, pc := 0, wait := .none, wPend := true, cPend := false, ovrSince := false, bound := b, cap := none,
             outb := none, outDrop := false, faulted := false, faultWins := 0, stLen := 0, stBad := false, swUp := some s.tim.up, cntSw := (t.cntSw + 1) % 65536 }) s
  let s := modTc n (fun t => { t with ho := t.hoNext }) s
  tcRaise n tcSWITCHED 0 (bumpGen (pgTC n) (dataInit n g s))

/-- PROGRAM_SWITCH (R342, R453): after the old program has stopped; the pair is formed with the supervisor that runs, and a refusal keeps the old program. -/
def execProgramSwitch (n : QNum) (s : State) : Out3 :=
  let t := tc n.val s
  match t.pendImg with
  | none => .next s
  | some g =>
    if t.state = 4 ∧ t.drainUp = none then
      let s := modTc n.val (fun t => { t with prevHdr := FMap.get (fun _ => {}) s.fwl.hdrs n.val }) s
      let r := pairWith n.val t.pendHdr t.pendLg s
      if r.2 then .next (refuseCommit n.val 2 (cancelCommit n.val r.1))
      else .next (flipBanks n.val g r.1)
    else .next s

/-! ## The page (R346) -/

/-- TC.STAT. -/
def tcStatWord (t : Tc) : Word :=
  mkWord [(29, 3, t.stat), (28, 1, t.bank), (27, 1, b2n t.pend), (26, 1, b2n (match t.shadow with | some h => h.started | none => false)),
          (25, 1, b2n t.shDone), (21, 4, t.err), (18, 3, t.fpf)]

/-- TC.SH_STAT. -/
def shStatWord (t : Tc) : Word :=
  match t.shadow with
  | some h => mkWord [(24, 8, h.runs), (16, 8, h.mism), (8, 8, h.ovr), (0, 8, h.flt)]
  | none => BitVec.ofNat 32 t.shStat

end Sys2Proof.Machine
end

