-- ==== Sys2Proof/Machine/Host.lean ====
section
/-! DEFINITION. The PCI Express function and the host rings (R374–R386, R398), the end of a queue flush (R318, R319), and the parts of the framed serial port that need no register access (R387–R399). -/

namespace Sys2Proof.Machine

/-! ## Host rings -/

/-- Causes of PCI and FSP (R400). -/
def pciRINGERR : Nat := 16
def pciBADDESC : Nat := 17
def pciNODESC : Nat := 18
def pciBADACC : Nat := 19
def pciLINKDOWN : Nat := 20
def fspFE : Nat := 0
def fspCE : Nat := 1
def fspAE : Nat := 2
def fspREFUSED : Nat := 3
def fspSBUF : Nat := 4

/-- What the function names itself by (R374): Device ID, Revision ID, Class Code. -/
def pciIdentity (s : State) : Nat × Nat × Nat := (if s.fuse.hx000 then 0x3000 else 0x3200, s.fuse.rev, 0x118000)

/-- HRn_CFG fields (R398). -/
def Hr.en (h : Hr) : Bool := wbit h.cfg 31
/-- log2 of the descriptor count, held within 4–12. -/
def Hr.log2 (h : Hr) : Nat := min 12 (max 4 (wbits h.cfg 24 4))
/-- The descriptor count. -/
def Hr.size (h : Hr) : Nat := 2 ^ h.log2

/-- A ring's STATE changed; GEN follows (R398). -/
def setHrState (n st : Nat) (s : State) : State :=
  if (hr n s).state = st then s else bumpGen pgPCI (modHr n (fun h => { h with state := st }) s)

/-- Whether requests may be issued (R375, R386). -/
def busOk (s : State) : Bool := s.pci.bme && !s.pci.d3 && decide (s.pci.speed ≠ 0)

/-- Posted descriptors, the open one included (R383). -/
def posted (h : Hr) : Nat := (h.tail + 65536 - h.head) % 65536

/-- Posted descriptors not yet read. -/
def unread (h : Hr) : Nat := posted h - h.descs.length

/-- A read request for posted descriptors, at most 32, while none is under way (R383). Log 38 (DEDUCED). -/
def fetchDescs (n : Nat) (s : State) : State :=
  let h := hr n s
  if busOk s ∧ (h.state = 1 ∨ h.state = 2) ∧ h.asked = 0 ∧ unread h ≠ 0 then
    drive (.descRead n ((h.head + h.descs.length) % h.size) (min 32 (unread h))) (modHr n (fun h => { h with asked := min 32 (unread h) }) s)
  else s

/-- The data of a buffer in writes that keep within 128 bytes and never cross a multiple of them, so that none exceeds Max_Payload_Size or crosses a 4 KiB boundary (R374, R382). Log 38 (DEDUCED). -/
def bufWrites : Nat → Nat → List Byte → List (Nat × List Byte)
  | 0, _, _ => []
  | fuel + 1, a, bs =>
    let n := 128 - a % 128
    if bs = [] then [] else (a, bs.take n) :: bufWrites fuel (a + n) (bs.drop n)

/-- The words of the items in the open descriptor. -/
def Hr.openW (h : Hr) : Nat := sumNat (h.inbuf.map fun i => i.words.length)

/-- The first `k` packets of a queue leave it. -/
def dropPkts (q k : Nat) (s : State) : State := if k = 0 then s else modQue q (fun u => { u with pkts := u.pkts.drop k }) s

/-- ERRCNT.DESC_ERR counts a BAD descriptor or a descriptor read that failed (DEDUCED). Log 38 (DEDUCED). -/
def countDesc (s : State) : State := s.modPci fun c => { c with descErr := (c.descErr + 1) % 65536 }

/-- The open descriptor completes (R380–R382, R385): data, DW3, the write-back of HEAD, the notice; its items are handed over, or, flushed, its contract items go into the next descriptor. -/
def completeDesc (n : Nat) (flushed : Bool) (s : State) : State :=
  let h := hr n s
  match h.descs with
  | [] => s
  | d :: rest =>
    let words := if flushed then [] else h.inbuf.flatMap (·.words)
    let base := h.baseHi.toNat * 2 ^ 32 + h.baseLo.toNat
    let dw3 := mkWord [(31, 1, 1), (30, 1, b2n flushed), (29, 1, b2n d.bad), (16, 13, if flushed then 0 else h.inbuf.length), (0, 13, words.length)]
    let s := (bufWrites (words.length + 1) d.addr (words.flatMap fun w => leBytes 16 w.toNat)).foldl (fun s w => drive (.hostBytes w.1 w.2) s) s
    let s := drive (.hostWord (base + h.head % h.size * 16 + 12) dw3) s
    let items := h.inbuf
    let s := modHr n (fun h =>
      { h with head := (h.head + 1) % 65536, descs := rest, inbuf := [], wait := if flushed then items.filter (fun i => !i.fromQ) ++ h.wait else h.wait,
               notice := h.notice + 1, noteAt := if h.notice = 0 then s.tim.up else h.noteAt, openAt := s.tim.up }) s
    let s := if wbit h.cfg 30 ∧ acts 1 (keyHr n) s then
        drive (.hostWord (h.wbHi.toNat * 2 ^ 32 + h.wbLo.toNat) (BitVec.ofNat 32 (hr n s).head)) s
      else s
    let s := if flushed then s else
        (items.filter fun i => !i.fromQ).foldl (fun s i => handOver i.dev i.con (i.seq + wordsSpan i.words) s)
          (dropPkts n (items.filter (·.fromQ)).length s)
    let s := if d.bad then raise pgPCI pciBADDESC (n * 256) (countDesc s) else s
    let ic := max 1 (wbits h.cfg 16 8)
    if ic ≤ (hr n s).notice then raise pgPCI n 0 (modHr n (fun h => { h with notice := 0 }) s) else s

/-- A running ring with no posted descriptor is stalled, one with a posted descriptor runs (R384). Log 38 (DEDUCED). -/
def settleRing (n : Nat) (s : State) : State :=
  let h := hr n s
  if h.state ≠ 1 ∧ h.state ≠ 2 then s
  else if posted h ≠ 0 then setHrState n 1 s
  else if h.state = 2 then s
  else raiseOnce pgPCI pciNODESC n (n * 256) (setHrState n 2 s)

/-- The items held go into buffers, as far as the descriptors read reach (R380, R381). -/
def fillRing (n : Nat) : Nat → State → State
  | 0, s => s
  | fuel + 1, s =>
    let h := hr n s
    if busOk s = false ∨ (h.state ≠ 1 ∧ h.state ≠ 2) then s
    else
      match h.descs with
      | [] => s
      | d :: _ =>
        if d.bad then fillRing n fuel (completeDesc n false s)
        else
          match h.wait with
          | [] => s
          | i :: rest =>
            if h.openW + i.words.length ≤ d.bufw then
              fillRing n fuel (modHr n (fun h => { h with inbuf := h.inbuf ++ [i], wait := rest, openAt := if h.inbuf = [] then s.tim.up else h.openAt }) s)
            else fillRing n fuel (completeDesc n false s)

/-- A ring filled with everything it holds, its STATE as its descriptors then stand. -/
def fill (n : Nat) (s : State) : State := settleRing n (fillRing n ((hr n s).wait.length * 2 + (hr n s).descs.length + 1) s)

/-- Packets of a ring's queue already in its hands. -/
def hrQueued (n : Nat) (s : State) : Nat := (((hr n s).inbuf ++ (hr n s).wait).filter (·.fromQ)).length

/-- HOST_RING_ITEM (R379, R381): the next packet of the ring's queue, or a contract's item, is written into the open buffer. -/
def execHostRingItem (n : QNum) (i : HrItem) (s : State) : Out3 :=
  let h := hr n.val s
  if h.state = 0 ∨ h.state = 3 then .next s
  else if i.fromQ then
    let u := que n.val s
    match u.pkts[hrQueued n.val s]? with
    | none => .next s
    | some p =>
      if u.cons = 1 then .next (fill n.val (modHr n.val (fun h => { h with wait := h.wait ++ [{ i with words := p }] }) s))
      else .next s
  else .next (fill n.val (modHr n.val (fun h => { h with wait := h.wait ++ [i] }) s))

/-- An item of a contract offered to a ring by the merger: taken where a descriptor has been read and the bus can be used (R381, R384). -/
def hrAccept (n : Nat) (i : HrItem) (s : State) : State × Bool :=
  let h := hr n s
  if h.state = 0 ∨ h.state = 3 ∨ busOk s = false then (s, false)
  else if h.descs = [] then (s, false)
  else (fill n (modHr n (fun h => { h with wait := h.wait ++ [i] }) s), true)

/-- HR_TAIL_WRITE (R383): the doorbell posts descriptors, or is ignored with ERR 2. -/
def execHrTailWrite (r : Req) (n : QNum) (v : Word) (s : State) : Out3 :=
  .next (gated r pgPCI (fun s =>
    let h := hr n.val s
    let t := v.toNat % 65536
    if h.size < (t + 65536 - h.head) % 65536 then modHr n.val (fun h => { h with err := 2 }) s
    else fetchDescs n.val (settleRing n.val (modHr n.val (fun h => { h with tail := t }) s))) s)

/-- A descriptor as read (R380). Log 38 (DEDUCED). -/
def descOf (d : Word × Word × Word) : Desc :=
  let bufw := wbits d.2.2 0 13
  { addr := d.2.1.toNat * 2 ^ 32 + d.1.toNat, bufw := bufw, bad := decide (bufw < 64) || decide (4096 < bufw) || decide (wbits d.1 0 4 ≠ 0) }

/-- DESCRIPTOR_FETCH_DONE (R383, R384): descriptors DW0–DW2 arrive, or the read fails and the ring stops. Log 38 (DEDUCED). -/
def execDescriptorFetchDone (n : QNum) (good : Bool) (descs : List (Word × Word × Word)) (s : State) : Out3 :=
  let h := hr n.val s
  if h.state ≠ 1 ∧ h.state ≠ 2 then .next s
  else if good = false then
    .next (raise pgPCI pciRINGERR (n.val * 256) (setHrState n.val 3 (countDesc <| modHr n.val (fun h => { h with err := 1, wait := h.inbuf ++ h.wait, inbuf := [], descs := [], asked := 0 }) s)))
  else .next (fetchDescs n.val (fill n.val (modHr n.val (fun h => { h with descs := h.descs ++ (descs.take h.asked).map descOf, asked := 0 }) s)))

/-- CLOSE_T in ns (R381, R398). -/
def Hr.closeNs (h : Hr) : Nat := max 1 (wbits h.cfg 8 8) * 1000

/-- ITIME in ns (R385, R398). -/
def Hr.itimeNs (h : Hr) : Nat := wbits h.cfg 0 8 * 1000

/-- DESCRIPTOR_CLOSE_TIMER (R381): CLOSE_T has passed since the first item was written into the buffer. -/
def execDescriptorCloseTimer (n : QNum) (s : State) : Out3 :=
  let h := hr n.val s
  .next (if h.inbuf ≠ [] ∧ busOk s ∧ h.openAt + h.closeNs ≤ s.tim.up then fill n.val (completeDesc n.val false s) else s)

/-- HR_NOTICE_TIMER (R385, R421): ITIME has passed since the oldest uncounted completion; ITIME acts while NOTE_TMO is granted. -/
def execHrNoticeTimer (n : QNum) (s : State) : Out3 :=
  let h := hr n.val s
  .next (if wbits h.cfg 0 8 ≠ 0 ∧ h.notice ≠ 0 ∧ acts 2 (keyHr n.val) s ∧ h.noteAt + h.itimeNs ≤ s.tim.up then raise pgPCI n.val 0 (modHr n.val (fun h => { h with notice := 0 }) s) else s)

/-- A ring stops at an item boundary (R386): its open descriptor completes; descriptors read ahead are given back. Log 38 (DEDUCED). -/
def stopRing (n : Nat) (s : State) : State :=
  let s := if (hr n s).inbuf ≠ [] ∧ busOk s then completeDesc n false s else s
  setHrState n 0 (modHr n (fun h => { h with descs := [], asked := 0, wait := h.inbuf ++ h.wait, inbuf := [] }) s)

/-- A ring starts and reads from HEAD (R384). Log 38 (DEDUCED). -/
def startRing (n : Nat) (s : State) : State :=
  fetchDescs n (settleRing n (setHrState n 1 (modHr n (fun h => { h with err := 0, quiet := false, descs := [], asked := 0 }) s)))

/-- HR_ENABLE_WRITE (R386, R398): a write of HRn_CFG; while EN is 1 only EN, ICOAL and ITIME are written. -/
def execHrEnableWrite (r : Req) (n : QNum) (v : Word) (s : State) : Out3 :=
  .next (gated r pgPCI (fun s =>
    let h := hr n.val s
    let mask : Word := if h.en then 0x80FF00FF else 0xCFFFFFFF
    let cfg := (h.cfg &&& ~~~mask) ||| (v &&& mask)
    let s := wrote r (keyHr n.val) (modHr n.val (fun h => { h with cfg := cfg }) s)
    if h.en = false ∧ wbit v 31 then (if s.pci.quiesce then modHr n.val (fun h => { h with quiet := true }) s else startRing n.val s)
    else if h.en ∧ wbit v 31 = false then stopRing n.val s
    else s) s)

/-- Every ring treated alike. -/
def eachRing (f : Nat → State → State) (s : State) : State := (List.range 16).foldl (fun s n => f n s) s

/-- QUIESCE (R386): 1 stops every ring after its open descriptor; 0 lets the enabled ones run again. Log 38 (DEDUCED). -/
def execQuiesce (r : Req) (v : Word) (s : State) : Out3 :=
  .next (gated r pgPCI (fun s =>
    let on := wbit v 0
    let was := s.pci.quiesce
    let s := s.modPci fun c => { c with quiesce := on }
    if on ∧ was = false then
      eachRing (fun n s => if (hr n s).state = 1 ∨ (hr n s).state = 2 then modHr n (fun h => { h with quiet := true }) (stopRing n s) else s) s
    else if on = false ∧ was then eachRing (fun n s => if (hr n s).quiet ∧ (hr n s).en then startRing n s else modHr n (fun h => { h with quiet := false }) s) s
    else s) s)

/-- STAT.QDONE (R386): every ring stopped under QUIESCE. -/
def qdone (s : State) : Bool := s.pci.quiesce && (List.range 16).all fun n => decide ((hr n s).state = 0) || decide ((hr n s).state = 3)

/-- Rings resume filling where they stopped, CLOSE_T anew (R386). Log 38 (DEDUCED). -/
def resumeRings (s : State) : State :=
  if busOk s then eachRing (fun n s => fill n (fetchDescs n (modHr n (fun h => { h with openAt := s.tim.up }) s))) s else s

/-- PCIE_LINK_DOWN (R375, R398). -/
def execPcieLinkDown (s : State) : Out3 :=
  if s.pci.speed = 0 then .next s
  else .next (raise pgPCI pciLINKDOWN 0xFF00 (bumpGen pgPCI (s.modPci fun c => { c with speed := 0, width := 0, downs := (c.downs + 1) % 65536 })))

/-- PCIE_LINK_UP (R375, R398). -/
def execPcieLinkUp (speed : Fin 4) (width : Fin 16) (s : State) : Out3 :=
  if speed.val = 0 then .next s
  else .next (resumeRings (bumpGen pgPCI (s.modPci fun c => { c with speed := speed.val, width := width.val })))

/-- BUS_MASTER_DISABLE (R386): the command bit cleared, or D3hot. -/
def execBusMasterDisable (d3 : Bool) (s : State) : Out3 :=
  .next (s.modPci fun c => if d3 then { c with d3 := true } else { c with bme := false })

/-- BUS_MASTER_ENABLE (R386): the command bit set, or the return to D0. -/
def execBusMasterEnable (s : State) : Out3 := .next (resumeRings (s.modPci fun c => { c with bme := true, d3 := false }))

/-- MSIX_UNMASK (R378): a pending vector is sent. -/
def execMsixUnmask (e : Fin 64) (s : State) : Out3 :=
  let p := s.pci.pba.testBit e.val
  let s := s.modPci fun c => { c with mask := putBit c.mask e.val false, pba := putBit c.pba e.val false }
  .next (if p then drive (.msix e.val) s else s)

/-- Every ring disabled without write-back; its items stay held (R386). Log 38, 39 (DEDUCED). -/
def disableRings (s : State) : State :=
  eachRing (fun n s => setHrState n 0 (modHr n (fun h => { h with cfg := h.cfg &&& 0x7FFFFFFF, descs := [], asked := 0, wait := h.inbuf ++ h.wait, inbuf := [], quiet := false }) s)) s

/-- The grant returns to the base profile (R423). Log 39, 43 (DEDUCED). -/
def baseGrant (s : State) : State := s.modFab fun f => { f with grant := 1, committed := false }

/-- FUNCTION_LEVEL_RESET (R386, R423). Log 39 (DEDUCED). -/
def execFunctionLevelReset (s : State) : Out3 :=
  .next (baseGrant (disableRings (s.modPci fun c => { c with bme := false, d3 := false, mask := 2 ^ 64 - 1, pba := 0 })))

/-- PERST (R462): the PCI Express island is reset, its link down, the rings as under Function Level Reset. Log 39 (DEDUCED). -/
def execPerst (s : State) : Out3 :=
  .next (disableRings (s.modPci fun c => { c with bme := false, d3 := false, mask := 2 ^ 64 - 1, pba := 0, speed := 0, width := 0, quiesce := false }))

/-! ## The end of a queue flush (R318, R319, R386) -/

/-- A Terrier producer sees its open item dropped (R319, R334). -/
def dropForCore (q : Nat) (s : State) : State :=
  let u := que q s
  if u.prod = 2 then modTc u.pnum (fun t => { t with outb := none, drop := true, outDrop := true }) (modQue q (fun u => { u with dropping := false }) s) else s

/-- QUEUE_FLUSH_DONE (R318, R319): packets and the open item discarded and counted, ALERT raised; a host ring's open descriptor completes flushed. -/
def execQueueFlushDone (q : QNum) (s : State) : Out3 :=
  let u := que q.val s
  if u.flushing = false then .next s
  else
    let s := if u.cons = 1 ∧ (hr q.val s).inbuf ≠ [] then completeDesc q.val true s else s
    let s := modHr q.val (fun h => { h with wait := h.wait.filter fun i => !i.fromQ }) s
    let s := if u.cons = 1 then fill q.val s else s
    let hadOpen := u.open_.isSome
    let s := modQue q.val (fun u =>
      { u with flushing := false, pkts := [], headCut := false, open_ := none, pend := 0, flPkts := (u.flPkts + u.pkts.length) % 65536,
               flWords := u.flWords + BitVec.ofNat 32 (u.level + u.openW), dropping := u.dropping || hadOpen,
               itemDrop := if hadOpen then (u.itemDrop + 1) % 65536 else u.itemDrop, flushedSince := true }) s
    let s := if hadOpen then dropForCore q.val s else s
    .next (queAlert q.val (8 + if hadOpen then 4 else 0) s)

/-! ## The framed serial port -/

/-- An item offered to the stream buffer (R393): taken whole where the buffer has room. -/
def fspAccept (ws : List W128) (s : State) : State × Bool :=
  if 4096 < s.fsp.sbuf.length + ws.length then (raiseOnce pgFSP fspSBUF 0 0xFE00 s, false)
  else (s.modFsp fun f => { f with sbuf := f.sbuf ++ ws, sitems := f.sitems ++ [ws.length] }, true)

/-- FSP_STREAM_ITEM (R393): an item enters the stream buffer and is handed over. -/
def execFspStreamItem (dev : Nat) (con : Con) (seq : Nat) (item : Item) (s : State) : Out3 :=
  let r := fspAccept item.words s
  .next (if r.2 then handOver dev con.val (seq + itemSpan item) r.1 else r.1)

/-- FSP_IDLE_TIMER (R390). -/
def execFspIdleTimer (s : State) : Out3 := .next (s.modFsp fun f => { f with anyAlive := true })

/-- FSP_RESYNC (R388, R390). -/
def execFspResync (r : Req) (s : State) : Out3 :=
  .next (gated r pgFSP (fun s => s.modFsp fun f => { f with anyAlive := true, rst := true }) s)

/-- FSP_LEN_WRITE (R397). Log 40 (DEDUCED). -/
def execFspLenWrite (r : Req) (v : Word) (s : State) : Out3 :=
  .next (gated r pgFSP (fun s =>
    let n := v.toNat % 8192
    if n < 40 ∨ 4096 < n ∨ n % 8 ≠ 0 then s else s.modFsp fun f => { f with lenNext := some (n, decide (r.val = 2)) }) s)

/-- An FSP soft reset (R397): the pending reply dropped, the counters of R390 restarted; the stream buffer stays. -/
def fspSoftReset (s : State) : State :=
  s.modFsp fun f => { f with reply := none, rp := 0, anyAlive := true, rst := true, lenNext := some (512, false), disc := 0, body := [], bodySseq := none }

end Sys2Proof.Machine
end

