-- ==== Sys2Proof/Machine/Delivery.lean ====
section
/-! DEFINITION. The delivery promise (R63, R64, R273–R301): runs, numbering and sending, the merger, holes, retransmission, acknowledgement, retention. -/

namespace Sys2Proof.Machine

/-! ## Runs (R63, R64, R273) -/

/-- RUN_CLOSE_TIMER (R273). -/
def execRunCloseTimer (con : Con) (slot : Slot) (s : State) : Out3 := .next (closeRun slot.val s con.val)

/-! ## From ready to the Kennel (R275, R277, R298) -/

/-- GAPs of a discard raised (R306). -/
def raiseGaps (id : Nat) (g : List KItem) (s : State) : State := g.foldl (fun s _ => raise pgKEN kenGAP id s) s

/-- An item written into the Kennel (R277, R298): room made first, then the ANCHORs it needs; an ANCHOR sent at an epoch change (R215) is its own. -/
def putItemK (id : Nat) (s : State) (i : Item) : State :=
  let r := makeRoom id i.size s
  let s := raiseGaps id r.2.2 r.1
  let s := if r.2.1 then raiseOnce pgKEN kenFULL id id s else s
  if i.isCtrl 1 then modCon id (fun c => { c with anchorDue := if c.anchorDue = some 0 then c.anchorDue else none, lastAnchor := some i.t }) (kennelPut id i s)
  else kennelPut id i (if i.isCtrl 2 then s else (anchorWhy (con id s) i.t).foldl (putAnchor id i.t) s)

/-- The ready items of a contract below an instant go into the Kennel in key order; nothing of a lower key can follow (R275). Log 46 (DEDUCED). -/
def promote (id : Nat) (limit : Stamp) (s : State) : State :=
  let below := (con id s).ready.filter fun i => Stamp.lt i.t limit
  let s := modCon id (fun c => { c with ready := c.ready.filter fun i => !(Stamp.lt i.t limit) }) s
  below.foldl (putItemK id) s

/-! ## The merger (R284–R295, R299, R300) -/

/-- The beat period of a class in ns (R284). -/
def beatNs (cls : Nat) : Nat := if cls = 1 then 100000 else if cls = 2 then 1000000 else 10000000

/-- Where a unit input of stage 2 stands among the inputs: its class above the contract identifiers. -/
def unitCon (cls : Nat) : Nat := 4096 + cls

/-- The class of a contract; 0 without an entry. -/
def clsOf (id : Nat) (s : State) : Nat :=
  match (con id s).ent with
  | some e => e.cls
  | none => 0

/-- The class of an input. -/
def clsOfIn (i : MIn) (s : State) : Nat := if 4096 ≤ i.con then i.con - 4096 else clsOf i.con s

/-- The scope of a contract. -/
def scopeOf (id : Nat) (s : State) : Nat :=
  match (con id s).ent with
  | some e => e.scope
  | none => 0

/-- Whether an input's items come by way of another segment's merger (R285). -/
def byStage2 (i : MIn) (s : State) : Bool := isHead s && decide (i.con < 4096) && decide (i.dev / 128 ≠ mySeg s)

/-- Whether this unit merges a class (R250, R272, R294): class A at every unit, B and C at the holder, a local contract at its source. -/
def mergesHere (cls : Nat) (s : State) : Bool := decide (cls = 1) || !isManager s || isHolder s

/-- What an input adds to the released horizon (R286): none where it adds nothing, else its limit, none where it has none yet. Log 50 (DEDUCED). -/
def inLimit (cls : Nat) (s : State) (i : MIn) : Option (Option Stamp) :=
  if clsOfIn i s ≠ cls ∨ i.absent ∨ (i.con < 4096 ∧ scopeOf i.con s = 0) then none
  else
    let cap := i.last.map fun k => k.1.plus 1
    if i.cap ≠ .none then
      (if byStage2 i s then some cap
       else match cap, i.horizon with
         | some a, some b => some (some (Stamp.min a b))
         | _, _ => some none)
    else if byStage2 i s then none
    else some i.horizon

/-- The least of limits; none where one is missing. -/
def leastOf : List (Option Stamp) → Option Stamp
  | [] => none
  | [a] => a
  | a :: l =>
    match a, leastOf l with
    | some a, some b => some (Stamp.min a b)
    | _, _ => none

/-- The released horizon of a class as held. -/
def heldHz (cls : Nat) (s : State) : Option Stamp := FMap.get (fun _ => none) s.del.hz cls

/-- The released horizon found anew (R286); it never goes back. -/
def releasedHz (cls : Nat) (s : State) : Option Stamp :=
  match leastOf (s.del.ins.filterMap (inLimit cls s)), heldHz cls s with
  | some n, some o => some (if Stamp.lt n o then o else n)
  | some n, none => some n
  | none, o => o

/-- Words held by the merger. -/
def mergeWords (s : State) : Nat := sumNat (s.del.ins.map fun i => sumNat (i.held.map fun h => h.2.size))

/-- The merge part in words (R297). -/
def mergeRoom (s : State) : Nat := (s.del.mergeMiB.getD (if isManager s then 16 else 1)) * 65536

/-- A RETX request toward a source (R291, R302); a contract of this hub's own resends by itself. -/
def requestRetx (dev id num : Nat) (s : State) : State :=
  if dev = myDev s then modCon id (fun c => { c with kennel := c.kennel.map fun k => { k with sent := false } }) s
  else sendCtrl (ctrlBlk (dev / 128) (dev % 128) 0x31 0 (id * 2 ^ 32 + num) [] s) s

/-- An input is capped (R286); GEN follows its state. -/
def capIn (dev id : Nat) (why : CapWhy) (s : State) : State :=
  bumpGen pgMRG (modIn dev id (fun i => { i with cap := why, capAt := s.tim.up }) s)

/-- A cap is lifted. -/
def uncap (dev id : Nat) (s : State) : State :=
  match findIn dev id s with
  | some i => if i.cap = .none then s else bumpGen pgMRG (modIn dev id (fun i => { i with cap := .none }) s)
  | none => s

/-- A cause of MRG about a contract, once per episode. -/
def mrgRaise (k id : Nat) (s : State) : State := raiseOnce pgMRG (mrgBit (max 1 (clsOf id s)) k) id id s

/-- An item handed to the endpoint of its contract (R272, R296). Answers whether the consumer took it. -/
def toEndpoint (e : Contract) (id dev endSeq : Nat) (i : Item) (s : State) : State × Bool :=
  let ws := i.words
  let done (r : State × Bool) : State × Bool := if r.2 then (handOver dev id endSeq r.1, true) else r
  match e.epkind with
  | 0 => done (putItem e.epnum ws s)
  | 1 => hrAccept e.epnum { fromQ := false, con := id, dev := dev, seq := sub32 endSeq (wordsSpan ws), words := ws } s
  | 2 => done (tcAccept e.epnum ws false (some i.t) s)
  | _ => done (fspAccept ws s)

/-- An item sent upward by a segment unit onto its manager ring (R249, R276, R288, R294). -/
def sendUp (cls dev id seq : Nat) (res : Bool) (i : Item) (s : State) : State :=
  match (ringPlans s).find? (·.kind = 1) with
  | none => s
  | some r =>
    let ps := sendPorts r cls s
    ps.foldl (fun s p => overrunCheck p cls s) (putStreams ps cls (tagWord seq dev id i.size res false :: i.words) s)

/-- Whether a contract's items end here; else they go upward. -/
def endsHere (e : Contract) (s : State) : Bool := decide (e.scope = 0) || decide (s.pln.role = 2) || (decide (e.scope = 1) && decide (s.pln.role = 1))

/-- An item leaves the merger (R286): to its consumer, or upward with its tag. Answers whether it left. -/
def leaveMerger (dev id seq : Nat) (i : Item) (span : Nat) (s : State) : State × Bool :=
  match (con id s).ent with
  | none => (s, true)
  | some e =>
    if endsHere e s then toEndpoint e id dev ((seq + span) % 2 ^ 32) i s
    else (sendUp e.cls dev id seq false i s, true)

/-- An item more than KEEP − 20 ms old is not handed over (R299); ages are taken within one epoch. -/
def tooOld (id : Nat) (t : Stamp) (s : State) : Bool :=
  match (con id s).ent with
  | none => false
  | some e => decide (t.epoch = s.tim.epoch) && decide (t.total + (e.keep * 10000000 - 20000000) < (now s).total)

/-- The consumer an item of a contract is handed to here; none where it goes upward. -/
def consumerOf (id : Nat) (s : State) : Option (Nat × Nat) :=
  match (con id s).ent with
  | some e => if endsHere e s then some (e.epkind, e.epnum) else none
  | none => none

/-- The held item of least key below an instant, of an input that `skip` passes over no more than its consumer: its device, contract, number and item (R286, R9). -/
def leastHeld (cls : Nat) (h : Stamp) (skip : MIn → Bool) (s : State) : Option (Nat × Nat × Nat × Item) :=
  (s.del.ins.flatMap fun i =>
    if clsOfIn i s = cls ∧ !(skip i) ∧ scopeOf i.con s ≠ 0 then
      match i.held with
      | (n, x) :: _ => if Stamp.lt x.t h then [(i.dev, i.con, n, x)] else []
      | [] => []
    else []).foldl (fun a x =>
      match a with
      | none => some x
      | some b => if keyLt x.2.2.2.key b.2.2.2.key then some x else some b) none

/-- Held items handed over or forwarded below the released horizon, in ascending key order (R286). A consumer that does not take one gets nothing more of the class in this pass, so that none passes it (R9, R300); an item too old caps its input (R299) and, until the source's GAP, holds back every later key, but not where its input is absent. Log 50 (DEDUCED). -/
def releaseLoop (cls : Nat) (h : Stamp) : Nat → List (Nat × Nat) → List (Option (Nat × Nat)) → State → State
  | 0, _, _, s => s
  | fuel + 1, aside, full, s =>
    match leastHeld cls h (fun i => aside.contains (i.dev, i.con) || full.contains (consumerOf i.con s)) s with
    | none => s
    | some (dev, id, n, x) =>
      if tooOld id x.t s ∧ !(x.isCtrl 4) then
        let t := mrgRaise mrgSTALE id (capIn dev id .stale s)
        if (findIn dev id s).map (·.absent) = some true then releaseLoop cls h fuel ((dev, id) :: aside) full t else t
      else
        let r := leaveMerger dev id n x (itemSpan x) s
        if r.2 then
          releaseLoop cls h fuel aside full
            ((modIn dev id (fun i => { i with held := i.held.drop 1 }) r.1).modDel fun d => { d with lastOut := FMap.put (fun _ => none) d.lastOut cls (some x.key) })
        else releaseLoop cls h fuel aside (consumerOf id s :: full) r.1

/-- The released horizon of a class moves, and the standby hears of it (R257, R286). Log 19 (DESIGN CHOICE). -/
def setHorizon (cls : Nat) (h : Option Stamp) (s : State) : State :=
  let s' := s.modDel fun d => { d with hz := FMap.put (fun _ => none) d.hz cls h }
  match h with
  | some x => if heldHz cls s = h then s' else journal (.horizon cls x) s'
  | none => s'

/-- The merge of a class carried as far as it goes (R286). Log 50 (DEDUCED). -/
def mergeRelease (cls : Nat) (s : State) : State :=
  if mergesHere cls s = false then s
  else
    let h := releasedHz cls s
    let s := setHorizon cls h s
    match h with
    | none => s
    | some h => releaseLoop cls h (sumNat (s.del.ins.map fun i => i.held.length) + s.del.ins.length) [] [] s

/-- A contract whose end second has passed leaves once every item up to it is acknowledged (R274). -/
def retire (id : Nat) (s : State) : State :=
  let c := con id s
  let isOver := match c.endSec with
    | some e => decide (c.state = 3) && decide (e ≤ s.tim.sec) &&
        (s.del.ins.filter (·.con = id)).all fun i => i.held.isEmpty && (i.absent || (match i.horizon with
          | some h => decide (e * nsPerSec ≤ h.total + 1)
          | none => decide (c.isSrc && i.dev = myDev s)))
    | none => false
  if isOver && (!c.isSrc || (c.kennel.isEmpty && c.ready.isEmpty && c.runs.isEmpty)) then
    bumpGen pgMRG ((modCon id (fun _ => {}) s).modDel fun d => { d with ins := d.ins.filter (·.con ≠ id) })
  else s

/-- Whether a horizon or a key reaches the released horizon of a class. -/
def reaches (cls : Nat) (h : Stamp) (s : State) : Bool :=
  match heldHz cls s with
  | some r => Stamp.le r h
  | none => true

/-- A HORIZON taken from an input (R285–R287): its applied horizon, and its rejoining. -/
def applyHorizon (dev id cls : Nat) (h : Stamp) (s : State) : State :=
  let was := (findIn dev id s).map (·.absent) = some true
  let back := was && reaches cls h s
  let s := modIn dev id (fun i => { i with horizon := some h, absent := i.absent && !back }) s
  let s := if back then bumpGen pgMRG (raiseOnce pgMRG (mrgBit cls mrgREJOIN) id (if id < 4096 then id else 0xFFF) s) else s
  mergeRelease cls s

/-- A LATE item around another (R67): its instant is the released horizon. PLEN is that of R67, 1 around a plain record, where R59's table gives 2–63. Log 50 (DEDUCED), 79 (DESIGN CHOICE). -/
def lateItem (h : Stamp) (i : Item) (s : State) : Item := ctrlItem 6 0 (srcId 501 s) h i.words

/-- An item below the released horizon of its class, from an absent input (R287): wrapped in LATE and counted, a LATE from below as it stands. One its consumer does not take is held (R300). An item of 64 words cannot be wrapped. Log 50 (DEDUCED). -/
def takeLate (dev id seq : Nat) (i : Item) (h : Stamp) (s : State) : State :=
  let asIs := i.isCtrl 6 || decide (63 < i.size)
  let x := if asIs then i else lateItem h i s
  let s := if asIs then s else mrgRaise mrgLATE id (s.modDel fun d => { d with late := (d.late + 1) % 65536 })
  let waits := match findIn dev id s with
    | some m => !m.held.isEmpty
    | none => false
  let r := if waits then (s, false) else leaveMerger dev id seq x (itemSpan x) s
  if r.2 then r.1 else modIn dev id (fun m => { m with held := m.held ++ [(seq, x)] }) r.1

/-- A GAP in its place (R299): every held item of its range is dropped, it takes its place by its own key, the expected number passes its range. -/
def takeGap (dev id seq : Nat) (i : Item) (s : State) : State :=
  let n := itemSpan i
  let inside (k : Nat) : Bool := decide (sub32 k (mod32 seq) < n)
  uncap dev id (modIn dev id (fun m =>
    let kept := m.held.filter fun h => !(inside h.1)
    let before := kept.filter fun h => keyLt h.2.key i.key
    { m with held := before ++ (seq, i) :: kept.filter (fun h => !(keyLt h.2.key i.key)),
             expected := if sub32 m.expected (mod32 seq) ≤ n then mod32 (seq + n) else m.expected,
             last := some i.key }) s)

/-- An item of the expected number (R290): a HORIZON is consumed, an item below the released horizon of an absent input is late, any other is held. -/
def acceptItem (e : Contract) (dev id seq : Nat) (i : Item) (s : State) : State :=
  let s := uncap dev id s
  let s := modIn dev id (fun m => { m with expected := (seq + itemSpan i) % 2 ^ 32, last := some i.key }) s
  if i.isCtrl 2 then
    let s := modIn dev id (fun m => if m.held.isEmpty ∧ e.epkind ≠ 1 then { m with handed := m.expected } else m) s
    retire id (applyHorizon dev id e.cls i.t s)
  else
    let absent := (findIn dev id s).map (·.absent) = some true
    match heldHz e.cls s with
    | some h =>
      if (absent ∨ i.isCtrl 6) ∧ Stamp.lt i.t h then takeLate dev id seq i h s
      else mergeRelease e.cls (modIn dev id (fun m => { m with held := m.held ++ [(seq, i)] }) s)
    | none => mergeRelease e.cls (modIn dev id (fun m => { m with held := m.held ++ [(seq, i)] }) s)

/-- An arriving item against the expected number (R290–R292, R299–R301). -/
def takeItem (dev id seq : Nat) (res : Bool) (i : Item) (s : State) : State :=
  match (con id s).ent with
  | none => s
  | some e =>
    if (con id s).isMerge = false ∨ mergesHere e.cls s = false then s
    else
      let s := if (findIn dev id s).isSome then s else modIn dev id (fun m => m) s
      let m := (findIn dev id s).getD { dev := dev, con := id }
      if res ∧ m.cap = .none ∧ endsHere e s = false then sendUp e.cls dev id seq true i s
      else
        let s := if res ∧ m.cap = .takeover then uncap dev id s else s
        let m := (findIn dev id s).getD m
        let ahead := sub32 seq m.expected
        if i.isCtrl 4 ∧ (ahead = 0 ∨ m.held.any fun h => sub32 h.1 seq < itemSpan i) then
          mergeRelease e.cls (takeGap dev id seq i s)
        else if ahead = 0 then
          if !(i.isCtrl 2) ∧ mergeRoom s < mergeWords s + i.size then mrgRaise mrgSTALL id (if m.cap = .stall then s else capIn dev id .stall s)
          else acceptItem e dev id seq i s
        else if 2 ^ 31 ≤ ahead then s.modDel fun d => { d with rept := (d.rept + 1) % 65536 }
        else if m.cap = .hole ∨ m.cap = .stall then s
        else
          let s := (capIn dev id .hole s).modDel fun d => { d with hole := (d.hole + 1) % 65536 }
          mrgRaise mrgHOLE id (requestRetx dev id m.expected s)

/-! ## The keys of arriving items (R56, R57) -/

/-- The ANCHORs of a device. -/
def anchorsOf (dev : Nat) (s : State) : Anchors := FMap.get (fun _ => {}) s.del.anchors dev

/-- The instant of a header word under an ANCHOR (R57). -/
def Anchor.place (a : Anchor) (w : W128) : Stamp :=
  let sec := bits w.toNat 64 32
  ⟨a.epoch, (a.secHi + b2n (decide (sec < a.secAt))) * 2 ^ 32 + sec, bits w.toNat 34 30⟩

/-- The device of a header word: its segment and hub. -/
def headerDev (w : W128) : Nat := bits w.toNat 18 16

/-- An ANCHOR taken (R57): it is the device's current one, and that of another epoch before it the previous one. Log 80 (DEDUCED). -/
def noteAnchor (w p : W128) (s : State) : State :=
  let dev := headerDev w
  let a : Anchor := ⟨bits p.toNat 64 32, bits p.toNat 96 32, bits w.toNat 64 32⟩
  let x := anchorsOf dev s
  let other := match x.cur with
    | some c => decide (c.epoch ≠ a.epoch)
    | none => false
  s.modDel fun d => { d with anchors := FMap.put (fun _ => {}) d.anchors dev { cur := some a, prev := if other then x.cur else x.prev } }

/-- This hub's own time as an ANCHOR, for a header word of the parity it carries: a merger's own HORIZON or LATE may come from a device that originates nothing and so sends no ANCHOR. Log 80 (DEDUCED). -/
def ownAnchor (w : W128) (s : State) : Anchor :=
  let t := now s
  let e := if bits w.toNat 1 1 = t.epoch % 2 then t.epoch else t.epoch - 1
  let lo := t.sec % 2 ^ 32
  let hi := t.sec / 2 ^ 32
  let r := bits w.toNat 64 32
  ⟨e, if r + 2 ^ 31 < lo then hi + 1 else if lo + 2 ^ 31 < r then hi - 1 else hi, 0⟩

/-- The instant of an arriving header word (R57): by the device's current ANCHOR, or its previous one where X differs; none, and the item is dropped, where neither is known or NS is none that occurs (R43). `own` marks a merger's own item. Log 80 (DEDUCED). -/
def instantOf (own : Bool) (w : W128) (s : State) : Option Stamp :=
  let x := anchorsOf (headerDev w) s
  if nsPerSec ≤ bits w.toNat 34 30 then none
  else
    match x.cur with
    | none => if own then some ((ownAnchor w s).place w) else none
    | some a => if bits w.toNat 1 1 = a.epoch % 2 then some (a.place w) else x.prev.map fun p => p.place w


/-- The item that a header word and its payload spell, at its instant (R41, R58). -/
def itemAt (t : Stamp) (w : W128) (p : List W128) : Item :=
  { t := t, src := bits w.toNat 9 25, kind := kindOf (bits w.toNat 7 2), value := BitVec.ofNat 32 (bits w.toNat 96 32), flags := bits w.toNat 0 7, payload := p }

/-- Whether a header word is a merger's own among the items of a source: slot 501 of another device. -/
def ownHeader (dev : Nat) (w : W128) : Bool := decide (bits w.toNat 9 9 = 501) && decide (headerDev w ≠ dev)

/-- An ANCHOR among arriving words noted (R57). -/
def seeAnchor (ws : List W128) (s : State) : State :=
  match ws with
  | w :: p :: _ => if bits w.toNat 7 2 = 3 ∧ bits w.toNat 120 8 = 1 then noteAnchor w p s else s
  | _ => s

/-- The item of arriving words with its key rebuilt (R57); none where it is dropped. -/
def readItem (dev : Nat) (ws : List W128) (s : State) : Option Item :=
  match ws with
  | [] => none
  | w :: p => (instantOf (ownHeader dev w) w s).map fun t => itemAt t w p

/-- DATA_ITEM_RECEIVE (R57, R290, R291): a merger takes an item, in the words that came. -/
def execDataItemReceive (dev : Nat) (con : Con) (seq : Nat) (res : Bool) (words : List W128) (s : State) : Out3 :=
  let s := seeAnchor words (serveMerger s)
  match readItem dev words s with
  | none => .next s
  | some i => .next (takeItem dev con.val seq res i s)

/-- HORIZON_RECEIVE (R285–R288): a source's HORIZON, numbered like its items, or a unit's BEAT, whose operand `con` is the class; `w` is its header word. -/
def execHorizonReceive (dev : Nat) (con : Con) (seq : Nat) (beat : Bool) (w : W128) (s : State) : Out3 :=
  let s := serveMerger s
  match instantOf beat w s with
  | none => .next s
  | some h =>
    if beat then
      (if isHead s ∧ 1 ≤ con.val ∧ con.val ≤ 3 ∧ mergesHere con.val s then .next (applyHorizon dev (unitCon con.val) con.val h s) else .next s)
    else .next (takeItem dev con.val seq false (itemAt h w []) s)

/-- INPUT_ABSENT_TIMER (R287): an input without a HORIZON for three beats, without a path, or removed, is left out. -/
def execInputAbsentTimer (dev : Nat) (con : Con) (beat : Bool) (s : State) : Out3 :=
  let id := if beat then unitCon con.val else con.val
  match findIn dev id s with
  | none => .next s
  | some i =>
    if i.absent then .next s
    else
      let cls := clsOfIn i s
      let s := (bumpGen pgMRG (modIn dev id (fun i => { i with absent := true }) s)).modDel fun d => { d with absent := (d.absent + 1) % 65536 }
      .next (mergeRelease cls (raiseOnce pgMRG (mrgBit (max 1 cls) mrgABSENT) (dev * 8192 + id) (if beat then 0xFFF else id) s))

/-- The contracts of a class delivered here that have a consumer stream with beats (R288, R289). -/
def deliveredCons (cls : Nat) (s : State) : List (Nat × Contract) :=
  (conIds s).filterMap fun id =>
    match (con id s).ent with
    | some e => if e.cls = cls ∧ (con id s).isCons ∧ e.scope ≠ 0 ∧ ((con id s).state = 2 ∨ (con id s).state = 3) then some (id, e) else none
    | none => none

/-- One contract for each consumer endpoint. -/
def endpointsOnce : List (Nat × Contract) → List (Nat × Contract)
  | [] => []
  | x :: xs => x :: (endpointsOnce xs).filter fun y => !(decide (y.2.epkind = x.2.epkind) && decide (y.2.epnum = x.2.epnum))

/-- A device number that no input has: a merger's own beats are no item of a source. -/
def noDev : Nat := 65536

/-- MERGER_BEAT (R288): the merge carried on, then this merger's own HORIZON into each consumer stream, and as a BEAT segment upward. -/
def execMergerBeat (cls : Cls) (s : State) : Out3 :=
  let c := cls.code
  if mergesHere c s = false then .next s
  else
    let s := mergeRelease c s
    match heldHz c s with
    | none => .next s
    | some h =>
      let b := horizonItem c h s
      let s := (endpointsOnce (deliveredCons c s)).foldl (fun s x => (toEndpoint x.2 x.1 noDev 0 b s).1) s
      let up := (conIds s).any fun id => decide (clsOf id s = c) && decide (scopeOf id s = 2) && (con id s).isMerge
      if s.pln.role = 1 ∧ up then
        match (ringPlans s).find? (·.kind = 1) with
        | none => .next s
        | some r => .next (putStreams (sendPorts r c s) c (tagWord 0 (myDev s) 0 1 false true :: b.words) s)
      else .next s

/-! ## Sending (R250, R275–R277) -/

/-- A kept item sent as one segment (R276, R249, R250): a worker's onto its ring, a manager's into its own merge or to the holder. Log 46 (DEDUCED). -/
def sendSeg (id : Nat) (k : KItem) (res : Bool) (s : State) : State :=
  match (con id s).ent with
  | none => s
  | some e =>
    let tag := tagWord k.seq (myDev s) id k.item.size res false
    if isManager s = false then
      match (ringPlans s).find? (·.kind = 0) with
      | none => s
      | some r =>
        let ps := sendPorts r e.cls s
        ps.foldl (fun s p => overrunCheck p e.cls s) (putStreams ps e.cls (tag :: k.item.words) s)
    else if mergesHere e.cls s then takeItem (myDev s) id k.seq res k.item s
    else if s.lsh.dupUp then putStreams (duplexPorts s) e.cls (tag :: k.item.words) s
    else
      match (ringPlans s).find? (·.kind = 1) with
      | none => s
      | some r => putStreams (sendPorts r e.cls s) e.cls (tag :: k.item.words) s

/-- One word of a contract's allowance, in the units of `tokens`: a word takes 10^9 of them, and ρ come each nanosecond. -/
def tokenUnit : Nat := 1000000000

/-- The allowance of a contract brought up to now (R277): at most σ words. -/
def refill (id : Nat) (s : State) : State :=
  match (con id s).ent with
  | none => s
  | some e =>
    match partOf e (myDev s) with
    | none => s
    | some p => modCon id (fun c => { c with tokens := min (p.sigma * tokenUnit) (c.tokens + p.rho * (s.tim.up - c.tokAt)), tokAt := s.tim.up }) s

/-- A local contract's item goes straight to its consumer (R289). Answers whether it was taken. Log 50 (DEDUCED). -/
def handLocal (id : Nat) (k : KItem) (s : State) : State × Bool :=
  match (con id s).ent with
  | none => (s, false)
  | some e => toEndpoint e id (myDev s) ((k.seq + k.span) % 2 ^ 32) k.item s

/-- A kept item marked as sent. -/
def markSent (id seq : Nat) (s : State) : State :=
  modCon id (fun c => { c with kennel := c.kennel.map fun k => if k.seq = seq then { k with sent := true } else k }) s

/-- The waiting items of a contract sent in order, as far as its allowance reaches, tags included (R277); a local contract's go to its consumer as far as it takes them. -/
def sendLoop (id : Nat) : Nat → State → State
  | 0, s => s
  | fuel + 1, s =>
    let c := con id s
    match c.kennel.find? fun k => !k.sent with
    | none => s
    | some k =>
      if scopeOf id s = 0 then
        let r := handLocal id k s
        if r.2 then sendLoop id fuel (markSent id k.seq r.1) else r.1
      else
        let cost := (k.item.size + 1) * tokenUnit
        if c.tokens < cost then s
        else sendLoop id fuel (sendSeg id k false (markSent id k.seq (modCon id (fun c => { c with tokens := c.tokens - cost }) s)))

/-- What waits in the Kennel is sent (R277). -/
def transmit (id : Nat) (s : State) : State := sendLoop id (con id s).kennel.length (refill id s)

/-! ## Retransmission and acknowledgement (R291, R292, R296–R300) -/

/-- A RETX request answered (R291, R301): every item still held from that number on, GAPs in their places, in RES segments; what has not been sent follows live. Log 46 (DEDUCED). -/
def serveRetx (id num : Nat) (s : State) : State :=
  let c := con id s
  if c.isSrc = false then s
  else
    let ks := c.kennel.filter fun k => k.sent && decide (sub32 (k.seq + k.span) (mod32 num + 1) < 2 ^ 31)
    let s := s.modDel fun d => { d with retx := (d.retx + 1) % 65536 }
    let s := raiseOnce pgKEN kenRETX id id s
    ks.foldl (fun s k => sendSeg id k true s) s

/-- RETX_RECEIVE (R291). -/
def execRetxReceive (con : Con) (num : Nat) (s : State) : Out3 := .next (serveRetx con.val num (serveMerger s))

/-- RETX_REPEAT_TIMER (R291): a request unanswered for three beats is sent again. -/
def execRetxRepeatTimer (dev : Nat) (con : Con) (s : State) : Out3 :=
  match findIn dev con.val s with
  | some i => .next (if i.cap = .hole ∧ i.absent = false then requestRetx dev con.val i.expected s else s)
  | none => .next s

/-- An ACK taken (R296, R301): the highest acknowledged number governs, and the space of what it covers is freed. -/
def applyAck (id num : Nat) (s : State) : State :=
  let c := con id s
  if c.isSrc = false then s
  else
    let a := (num + 1) % 2 ^ 32
    let s := modCon id (fun c => { c with lastAckUp := s.tim.up }) s
    if sub32 a c.ack ≤ sub32 c.next c.ack then
      retire id (modCon id (fun c => { c with ack := a, kennel := c.kennel.filter fun k => decide (0 < sub32 (k.seq + k.span) a) && decide (sub32 (k.seq + k.span) a < 2 ^ 31) }) s)
    else s

/-- ACK_RECEIVE (R296). -/
def execAckReceive (con : Con) (num : Nat) (s : State) : Out3 := .next (applyAck con.val num (serveMerger s))

/-- The ACK item of an input (R66). -/
def ackItem (i : MIn) (s : State) : Item := { ctrlItem 5 i.con 0 (now s) [mkW128 [(96, 32, sub32 i.handed 1)]] with src := i.dev * 512 + 500 }

/-- ACK items in control blocks of up to three, to one device (R302). -/
def ackBlocks (dev : Nat) : Nat → List MIn → State → State
  | 0, _, s => s
  | _ + 1, [], s => s
  | fuel + 1, l, s =>
    ackBlocks dev fuel (l.drop 3) (sendCtrl (ctrlBlk (dev / 128) (dev % 128) 0x30 0 0 ((l.take 3).flatMap fun i => (ackItem i s).words) s) s)

/-- ACK_TIMER (R296): each 1 ms for what has been handed over since, each 100 ms for every delivered contract. Log 19 (DESIGN CHOICE). -/
def execAckTimer (s : State) : Out3 :=
  let mine := s.del.ins.filter fun i => decide (i.con < 4096) && (con i.con s).isCons
  let fresh := mine.filter (·.fresh)
  let l := if fresh.isEmpty then mine.filter fun i => decide (i.handed ≠ 0) else fresh
  let s := l.foldl (fun s i => journal (.position i.dev i.con i.expected i.handed) (modIn i.dev i.con (fun i => { i with fresh := false, mack := sub32 i.handed 1 }) s)) s
  let devs := (l.map (·.dev)).eraseDups
  .next (devs.foldl (fun s d =>
    let li := l.filter (·.dev = d)
    if d = myDev s then li.foldl (fun s i => applyAck i.con (sub32 i.handed 1) s) s
    else ackBlocks d li.length li s) s)

/-- The oldest kept items whose age has passed KEEP (R298). -/
def agedCount (c : ConSt) (up : Nat) : Nat :=
  match c.ent with
  | none => 0
  | some e => (c.kennel.takeWhile fun k => decide (k.at_ + e.keep * 10000000 < up)).length

/-- KENNEL_CHECK (R298): each contract's items older than KEEP are discarded behind their GAPs. Log 46 (DEDUCED). -/
def execKennelCheck (s : State) : Out3 :=
  .next ((conIds s).foldl (fun s id =>
    let n := agedCount (con id s) s.tim.up
    if (con id s).isSrc ∧ n ≠ 0 then
      let r := discard id n s
      raiseGaps id r.2 r.1
    else s) s)

/-- ACK_STALL_TIMER (R306). -/
def execAckStallTimer (con : Con) (s : State) : Out3 :=
  .next (if (Machine.con con.val s).kennel = [] then s else raiseOnce pgKEN kenACKSTALL con.val con.val s)

/-- Inputs in the order of their caps, oldest first. Log 50 (DEDUCED). -/
def byCap : List MIn → List MIn
  | [] => []
  | x :: xs =>
    let l := byCap xs
    l.takeWhile (fun y => decide (y.capAt < x.capAt)) ++ x :: l.dropWhile fun y => decide (y.capAt < x.capAt)

/-- STALL_RESUME (R300): the merge carried on; once a quarter of the merge part is free, RETX requests go out, oldest cap first. -/
def execStallResume (s : State) : Out3 :=
  let s := mergeRelease 3 (mergeRelease 2 (mergeRelease 1 s))
  if mergeRoom s < 4 * (mergeRoom s - mergeWords s) ∨ mergeRoom s = 4 * (mergeRoom s - mergeWords s) then
    .next ((byCap (s.del.ins.filter fun i => decide (i.cap = .stall))).foldl (fun s i => requestRetx i.dev i.con i.expected s) s)
  else .next s

/-- HOLDER_RECEIVE (R258, R263, R292): a member of the pair sees the term; every source answers as a RETX request from its acknowledged position. -/
def execHolderReceive (seg hub term : Nat) (s : State) : Out3 :=
  let s := if (FMap.get (fun _ => (0, 0)) s.lsh.holders seg).2 ≤ term then s.modLsh fun l => { l with holders := FMap.put (fun _ => (0, 0)) l.holders seg (hub, term) } else s
  let s := if isManager s ∧ seg = mySeg s then fence term s else s
  .next ((conIds s).foldl (fun s id =>
    let c := con id s
    if c.isSrc ∧ scopeOf id s ≠ 0 ∧ (c.state = 2 ∨ c.state = 3) then serveRetx id c.ack s else s) s)

/-- REMOVAL_STOP (R267): at t_x the worker stops producing records. Log 21 (DEDUCED). -/
def execRemovalStop (s : State) : Out3 := .next (if s.lsh.stopAt.isSome then s.modLsh fun l => { l with stopped := true } else s)

end Sys2Proof.Machine
end

