-- ==== Sys2Proof/Machine/Front.lean ====
section
/-! DEFINITION. Channels and converter groups: their tables, the sampling grid, the correction chain, linearisation, input causes, excitation (R68–R106, R131–R147, R176–R184). -/

namespace Sys2Proof.Machine

/-! ## Tables -/

/-- A channel at reset: its own converter, RATE 0x07 or 0x15 (R101, R104, R152). -/
def chan0 (c : Nat) : Chan :=
  if c < 256 then { duty := some (c % 16), coarse := some (c % 16) }
  else
    { w := [0x00110000, 0xA8000000, 0, 0x03196400], com := [0x00110000, 0xA8000000, 0, 0x03196400], old1 := 0xA8000000,
      duty := some ((c - 256) % 8), coarse := some ((c - 256) % 8) }

/-- A group at reset: its highest converter is the relief (R104). -/
def group0 (g : Nat) : Group := { relief := some (if g < 16 then 16 else 8) }

/-- A channel. -/
def chan (c : Nat) (s : State) : Chan := FMap.get chan0 s.chans c
/-- A channel changed. -/
def modChan (c : Nat) (f : Chan → Chan) (s : State) : State := s.modChans fun m => FMap.upd chan0 m c f
/-- A group. -/
def grp (g : Nat) (s : State) : Group := FMap.get group0 s.grps g
/-- A group changed. -/
def modGrp (g : Nat) (f : Group → Group) (s : State) : State := s.modGrps fun m => FMap.upd group0 m g f
/-- The group of a slot (R6). -/
def grpOf (c : Nat) : Nat := if c < 256 then c / 16 else 16 + (c - 256) / 8
/-- The channel index of a slot within its group. -/
def idxOf (c : Nat) : Nat := if c < 256 then c % 16 else (c - 256) % 8
/-- The slot of a channel index. -/
def slotAt (g i : Nat) : Nat := if g < 16 then 16 * g + i else 256 + 8 * (g - 16) + i
/-- Channels of a group. -/
def groupSize (g : Nat) : Nat := if g < 16 then 16 else 8
/-- The slots of a group. -/
def groupSlots (g : Nat) : List Nat := (List.range (groupSize g)).map (slotAt g)
/-- A fast channel's slot. -/
def isFast (c : Nat) : Bool := decide (256 ≤ c)
/-- What needs analogue dice happens on an HX320 alone (R4). -/
def analogue (f : State → State) (s : State) : Out3 := .next (if s.fuse.hx000 then s else f s)

/-! ## Entry fields (R101, R152, R178) -/

/-- Word `i` of an entry. -/
def ew (w : List Word) (i : Nat) : Word := nth 0 w i
def eCls (w : List Word) : Nat := wbits (ew w 0) 30 2
def eWiring (w : List Word) : Nat := wbits (ew w 0) 27 3
def eRange (w : List Word) : Nat := wbits (ew w 0) 25 2
def eIex (w : List Word) : Bool := wbit (ew w 0) 24
def eBo (w : List Word) : Nat := wbits (ew w 0) 22 2
def eDown (w : List Word) : Bool := wbit (ew w 0) 21
def eIepe (w : List Word) : Nat := wbits (ew w 0) 14 5
def eRate (w : List Word) : Nat := wbits (ew w 1) 27 5
def eNofine (w : List Word) : Bool := wbit (ew w 1) 23
def eLin (w : List Word) : Bool := wbit (ew w 2) 31
def eLinSlot (w : List Word) : Nat := wbits (ew w 2) 24 7
def eTsrc (w : List Word) : Nat := wbits (ew w 2) 22 2
def eTch (w : List Word) : Nat := wbits (ew w 2) 13 9
def eLook (w : List Word) : Nat := wbits (ew w 3) 24 8

/-- An RTD channel (R73). -/
def isRtd (w : List Word) : Bool := decide (eCls w = 1) && decide (1 ≤ eWiring w) && decide (eWiring w ≤ 3)
/-- A 3-wire channel (R75). -/
def is3Wire (w : List Word) : Bool := decide (eCls w = 1) && decide (eWiring w = 2)
/-- An IEPE channel (R82). -/
def isIepe (w : List Word) : Bool := decide (eCls w = 3) && decide (eWiring w = 1)
/-- Whether open-input detection is active (R89). -/
def detects (w : List Word) : Bool :=
  decide (eCls w ≠ 0) && (decide (eBo w = 1) || decide (eBo w = 2) || isRtd w || isIepe w)

/-- PB_W of a group entry in µs (R101). -/
def Group.pbw (g : Group) : Nat := wbits g.w 20 8
/-- An L group (R69). -/
def Group.isL (g : Group) : Bool := wbit g.w 31
/-- EXC of a group entry: nominal excitation in mV. -/
def Group.excMv (g : Group) : Nat := match wbits g.w 29 2 with
  | 1 => 2500
  | 2 => 5000
  | 3 => 10000
  | _ => 0

/-! ## The grid (R132–R144) -/

/-- Instants in a nanosecond. -/
def tkNs : Int := 1024
/-- The present instant in 1/1024 ns of the epoch. -/
def nowTk (s : State) : Int := ((s.tim.sec * nsPerSec + s.tim.ns) * 1024 + s.tim.frac / 2 ^ 22 : Nat)
/-- A whole second. -/
def secTk : Int := 1024000000000
/-- The coarse period T_c (R143). -/
def coarseTk (fast : Bool) : Int := if fast then 1000000 else 8000000
/-- The settling time T_a (R105). Log 55 (DEDUCED). -/
def settleTk (fast : Bool) : Int := if fast then 1024000 else 5120000
/-- log2 of 2,048,000 over the output rate (R135, R138). -/
def rateExp (fast : Bool) (w1 : Word) : Nat := if fast then wbits w1 27 5 - 0x0F else wbits w1 27 5 + 4
/-- The order N of a general chain (R135). -/
def orderN (w1 : Word) : Nat := 3 + wbits w1 25 2
/-- The output period (R133). -/
def periodTk (fast : Bool) (w1 : Word) : Int := (500000 * 2 ^ rateExp fast w1 : Nat)
/-- The half-window W/2 (R136, R139). -/
def halfTk (fast : Bool) (w1 : Word) : Int :=
  if fast then ((28 + 8 * (124 * 2 ^ (rateExp true w1 - 1)) - 240) * 31250 : Nat)
  else
    let r := 2 ^ rateExp false w1
    ((if wbit w1 24 then 0 else 14 * r) * 250000 + orderN w1 * (r - 1) * 250000 : Nat)
/-- The corrected instant of a coarse window that starts at `w` (R144). -/
def coarseInst (fast : Bool) (w1 : Word) (w : Int) : Int :=
  w + (if fast then 468750 else if orderN w1 = 4 then 3750000 else 4000000)
/-- Whether the modulator phase of a general chain is ½ (R132). -/
def phaseHalf (w1 : Word) : Bool := decide (orderN w1 ≠ 4)
/-- The exact instant of a fine record stamped `t` on a grid (R53). Log 12 (DESIGN CHOICE). -/
def exactTk (per : Int) (t : Stamp) : Int :=
  let fs := secTk / per
  (t.sec : Int) * secTk + (((t.ns : Int) * fs + 999999999) / 1000000000) * per
/-- The exact instant of a fine record, read in the present epoch. Log 12 (DESIGN CHOICE). -/
def instTk (per : Int) (t : Stamp) (s : State) : Int := exactTk per t + if t.epoch = s.tim.epoch then 0 else s.tim.epShift
/-- The first grid instant at or after an instant. -/
def gridUp (per t : Int) : Int := -((-t).fdiv per) * per
/-- An instant as a stamp of the epoch, truncated (R53). Log 12 (DESIGN CHOICE). -/
def tkStamp (s : State) (t : Int) : Stamp := Stamp.ofTotal s.tim.epoch (t.toNat / 1024)

/-- The chain setting of a channel for a record stamped `t` (R149). -/
def settingAt (c : Chan) (t : Stamp) (s : State) : Word :=
  match c.tb with
  | some b => if ((t.total + 1) * 1024 : Int) + (if t.epoch = s.tim.epoch then 0 else s.tim.epShift) ≤ b then c.old1 else ew c.w 1
  | none => ew c.w 1

/-- Whether a value whose window starts at `w0` and whose instant is `tt` is produced at all (R465, R474): sampling has started by then, and no park instant lies before it. -/
def sampled (c : Nat) (w0 tt : Int) (s : State) : Bool :=
  let after (a : Option Nat) : Bool := match a with
    | some t => decide (((t * 1024 : Nat) : Int) ≤ w0)
    | none => false
  let g := grp (grpOf c) s
  after s.pwr.sampling && decide (g.wake = 0) && (g.since.isNone || after g.since) &&
  (match s.pwr.tp with
   | some p => decide (tt < ((p * 1024 : Nat) : Int))
   | none => true)

/-! ## Windows met by open inputs -/

/-- Whether an interval, open at its end where that is none, intersects a window. Log 55 (DEDUCED). -/
def spanHits (l : List (Int × Option Int)) (w0 w1 : Int) : Bool :=
  l.any fun v => decide (v.1 ≤ w1) && (match v.2 with
    | some e => decide (w0 < e)
    | none => true)

/-- Whether a window includes an instant at which the input counts as open (R95–R97). -/
def openHits (c : Nat) (w0 w1 : Int) (s : State) : Bool :=
  let x := chan c s
  let brk := match x.brk with
    | some b => decide (b ≤ w1) && (match x.brkEnd with
      | some e => decide (w0 < e)
      | none => true)
    | none => false
  brk || (decide (eCls x.w = 2) && spanHits (grp (grpOf c) s).offs w0 w1)

/-! ## Correction (R176–R184) -/

/-- The factory points a table holds where production test has stored no others: o, g and s 0 at 25 °C and 90 °C. Log 5 (DESIGN CHOICE). -/
def factoryPoints : List GPoint := [⟨400, 0, 0, 0, true⟩, ⟨1440, 0, 0, 0, true⟩]
/-- The factory points of a converter and range. Log 5 (DESIGN CHOICE). -/
def facOf (g : Nat) (s : State) (k : Nat) : List GPoint := FMap.get (fun _ => factoryPoints) s.ana.fac (g * 128 + k)
/-- The calibration table of a converter and range (R183). Log 5 (DESIGN CHOICE). -/
def table (g conv range : Nat) (s : State) : List GPoint := FMap.get (facOf g s) (grp g s).tables (conv * 4 + range)
/-- A calibration table replaced. -/
def setTable (g conv range : Nat) (l : List GPoint) (s : State) : State :=
  let d := facOf g s
  modGrp g (fun x => { x with tables := FMap.put d x.tables (conv * 4 + range) l }) s

/-- A binary32 word as a fraction; 0 where it is not finite. -/
def f32Frac (w : Word) : Frac := (f32Val w).getD (Frac.ofInt 0)

/-! ## What stays in force until an instant -/

/-- What holds at an instant: the oldest of the earlier values whose end lies after it, else the present one. -/
def histAt {α : Type} (l : List (Int × α)) (t : Int) (cur : α) : α :=
  match l.find? fun k => decide (t < k.1) with
  | some k => k.2
  | none => cur

/-- A value that ends at an instant joins the earlier ones; one that already ends there or later stands for it. -/
def histPut {α : Type} (b : Int) (old : α) (l : List (Int × α)) : List (Int × α) :=
  (l.takeWhile fun k => decide (k.1 < b)) ++ [(b, match l.find? fun k => decide (b ≤ k.1) with
    | some k => k.2
    | none => old)]

/-- Earlier values that ended a second before an instant are forgotten. -/
def histDrop {α : Type} (t : Int) (l : List (Int × α)) : List (Int × α) := l.filter fun k => decide (t - secTk < k.1)

/-- The nearest point at or below a temperature. -/
def below (t : Int) : List GPoint → Option GPoint
  | [] => none
  | p :: ps =>
    match below t ps with
    | none => if p.temp ≤ t then some p else none
    | some b => if p.temp ≤ t ∧ b.temp ≤ p.temp then some p else some b

/-- The nearest point at or above a temperature. -/
def above (t : Int) : List GPoint → Option GPoint
  | [] => none
  | p :: ps =>
    match above t ps with
    | none => if t ≤ p.temp then some p else none
    | some b => if t ≤ p.temp ∧ p.temp ≤ b.temp then some p else some b

/-- A value between two at a weight. -/
def between (a b w : Frac) : Frac := Frac.add a (Frac.mul w (Frac.sub b a))

/-- o, g and s for a temperature (R184). -/
def coefAt (tab : List GPoint) (t : Int) : Frac × Frac × Frac :=
  let one (p : GPoint) : Frac × Frac × Frac := (f32Frac p.o, f32Frac p.g, f32Frac p.s)
  match below t tab, above t tab with
  | some a, some b =>
    if a.temp = b.temp then one a
    else
      let w := Frac.mk2 (t - a.temp) (b.temp - a.temp).toNat
      (between (f32Frac a.o) (f32Frac b.o) w, between (f32Frac a.g) (f32Frac b.g) w, between (f32Frac a.s) (f32Frac b.s) w)
  | some a, none => one a
  | none, some b => one b
  | none, none => (Frac.ofInt 0, Frac.ofInt 0, Frac.ofInt 0)

/-- Whether a temperature lies outside a table (R184). -/
def outside (tab : List GPoint) (t : Int) : Bool := (below t tab).isNone || (above t tab).isNone

/-- The code of full scale (R49). -/
def fullScale : Int := 0x60000000
/-- Nominal full scale in nV (R71). -/
def fsNv (fast : Bool) (range : Nat) : Nat := (if fast then 10000000000 else 2500000000) / 4 ^ range

/-- The RTD current in µA (R72). -/
def iexUa (w : List Word) : Nat := if eIex w then 1000 else 250

/-- The lead voltage subtracted in nV (R73, R75): on a 3-wire channel the mean of the lead measurements there are, 0 with none. Log 79 (DESIGN CHOICE). -/
def leadNow (c : Chan) : Frac :=
  if eCls c.w ≠ 1 then Frac.ofInt 0
  else if eWiring c.w = 1 then Frac.ofInt (iexUa c.w * wbits (ew c.w 3) 0 8 * 100 : Nat)
  else if eWiring c.w = 2 then Frac.mk2 (sumInt c.leads) (max 1 c.leads.length)
  else Frac.ofInt 0

/-- The lead voltage subtracted from a value of an instant (R75, R102). -/
def leadNv (c : Chan) (t : Int) : Frac := histAt c.leadsOld t (leadNow c)

/-- A channel changed, its lead voltage for values before an instant kept. -/
def leadFrom (b : Int) (x y : Chan) : Chan := if leadNow x = leadNow y then y else { y with leadsOld := histPut b (leadNow x) y.leadsOld }

/-- The range in force for a window that ends, or a coarse window that starts, at an instant (R126). -/
def rangeAt (c : Chan) (t : Int) : Nat := histAt c.rngOld t c.range

/-- The group temperature in force at an instant (R177). -/
def tempAt (g : Nat) (te : Int) (s : State) : Int := if te < (grp g s).tempAt then (grp g s).tempWas else (grp g s).temp

/-- The earlier tables of a converter and range that a channel's values still use (R191). -/
def tabsOld (c : Chan) (conv range : Nat) : List (Int × List GPoint) :=
  c.tabOld.filterMap fun k => if k.2.1 = conv ∧ k.2.2.1 = range then some (k.1, k.2.2.2) else none

/-- The table a channel's value of an instant is corrected with, by the converter and range it comes from (R106, R191). -/
def tableFor (g conv range slot : Nat) (t : Int) (s : State) : List GPoint := histAt (tabsOld (chan slot s) conv range) t (table g conv range s)

/-- A chain output of instant `t` and window end `te` corrected into a code, and whether it lies beyond full scale (R141, R176). -/
def correct (g conv range slot : Nat) (t te : Int) (u : Frac) (s : State) : Int × Bool :=
  let k := coefAt (tableFor g conv range slot t s) (tempAt g te s)
  let c := Frac.add k.1 (Frac.add (Frac.mul (Frac.add (Frac.ofInt 1) k.2.1) u) (Frac.mul k.2.2 (Frac.mul u u)))
  let c := Frac.sub c (Frac.div (leadNv (chan slot s) t) (Frac.ofInt (fsNv (isFast slot) range)))
  let code := clampInt (-0x7FFFFFFF) 0x7FFFFFFF (Frac.roundEven (Frac.mul c (Frac.ofInt fullScale)))
  (code, decide (code < -fullScale) || decide (fullScale < code))

/-- The means of calibration and reference windows are operands in units of 2^−40 of full scale. Log 12 (DESIGN CHOICE). -/
def uFrac (u : Int) : Frac := Frac.mk2 u (2 ^ 40)

/-! ## References (R118, R186) -/

/-- The production values of the references where none are stored, in 2^−40 of full scale. Log 5 (DESIGN CHOICE). -/
def refDefault : Int := 989560464998
/-- The production values of a group's two references (R186). Log 5 (DESIGN CHOICE). -/
def refsOf (g : Nat) (s : State) : Frac × Frac :=
  (uFrac (FMap.get (fun _ => refDefault) s.ana.refPos g), uFrac (FMap.get (fun _ => -refDefault) s.ana.refNeg g))

/-- o, g and s that map the three means to 0 and to the references (R186); none where the means do not fix them. -/
def solveRun (u0 up un rp rn : Frac) : Option (Frac × Frac × Frac) :=
  let dp := Frac.sub up u0
  let dn := Frac.sub un u0
  let dd := Frac.sub up un
  if dp.num = 0 ∨ dn.num = 0 ∨ dd.num = 0 then none
  else
    let sp := Frac.div rp dp
    let sn := Frac.div rn dn
    let sq := Frac.div (Frac.sub sp sn) dd
    let a := Frac.sub sp (Frac.mul sq (Frac.add up u0))
    let o := Frac.neg (Frac.add (Frac.mul a u0) (Frac.mul sq (Frac.mul u0 u0)))
    some (o, Frac.sub a (Frac.ofInt 1), sq)

/-- Whether a result lies within the reference-check limits of a prediction (R118, R186). -/
def withinLimits (k p : Frac × Frac × Frac) : Bool :=
  Frac.le (Frac.abs (Frac.sub k.1 p.1)) (Frac.mk2 200 1000000) && Frac.le (Frac.abs (Frac.sub k.2.1 p.2.1)) (Frac.mk2 500 1000000)

/-- A reference check (R118): the three means of a converter and range, measured against the shorted input and the group's references, give offset and gain within the limits that its set predicts at the group's present temperature. -/
def refCheckOk (g conv range : Nat) (u : Int × Int × Int) (s : State) : Bool :=
  match solveRun (uFrac u.1) (uFrac u.2.1) (uFrac u.2.2) (refsOf g s).1 (refsOf g s).2 with
  | some k => withinLimits k (coefAt (table g conv range s) (grp g s).temp)
  | none => false

/-! ## The chains (R135–R139) -/

/-- The sums of each `r` consecutive values. -/
def boxcar (r : Nat) : List Int → List Int
  | [] => []
  | x :: xs => if xs.length + 1 < r then [] else sumInt ((x :: xs).take r) :: boxcar r xs

/-- Every `r`-th value, the first one first; `k` values are passed over before the next. -/
def everyNth (r : Nat) : Nat → List Int → List Int
  | _, [] => []
  | 0, x :: xs => x :: everyNth r (r - 1) xs
  | k + 1, _ :: xs => everyNth r k xs

/-- An integrator-comb decimator of order `n` and ratio `r` on modulator samples: `n` sums of `r`, one output each `r`. -/
def cic (n r : Nat) (l : List Int) : List Int := everyNth r 0 ((List.range n).foldl (fun l _ => boxcar r l) l)

/-- The weighted sum of values. -/
def fir (taps l : List Int) : Int := sumInt ((taps.zip l).map fun p => p.1 * p.2)

/-- A symmetric filter that decimates by 2. -/
def halfBand (taps : List Int) : Nat → List Int → List Int
  | 0, _ => []
  | fuel + 1, l => if l.length < taps.length then [] else fir taps l :: halfBand taps fuel (l.drop 2)

/-- The taps of a symmetric filter of `n` taps, from those of one half. -/
def symTaps (n : Nat) (f : Nat → Int) : List Int := (List.range n).map fun i => f (min i (n - 1 - i))

/-- The output of a fine chain from the modulator samples of its window, each in 2^−30 of full scale (R135, R138): the taps, which the manual fixes but does not list, are free, in 2^−30. Log 8, 81 (DESIGN CHOICE). -/
def chainOut (fast : Bool) (w1 : Word) (mods : List Int) : Frac :=
  if fast then
    let stages := rateExp true w1
    let l := (List.range (stages - 1)).foldl (fun l _ => halfBand (symTaps 31 Config.halfBandTap31) l.length l) (cic 4 8 mods)
    Frac.mk2 (fir (symTaps 95 Config.halfBandTap95) l) (2 ^ 30 * 8 ^ 4 * 2 ^ (30 * stages))
  else
    let n := orderN w1
    let k := rateExp false w1
    let l := cic n (2 ^ k) mods
    if wbit w1 24 then Frac.mk2 (l.headD 0) (2 ^ 30 * (2 ^ k) ^ n)
    else Frac.mk2 (fir (symTaps 15 (Config.droopTap n k)) l) (2 ^ 60 * (2 ^ k) ^ n)

/-- A code of one range in codes of another, and whether it lies beyond that range's full scale (R52). -/
def reCode (code : Int) (was range : Nat) : Int × Bool :=
  if was = range then (code, false)
  else
    let v := clampInt (-0x7FFFFFFF) 0x7FFFFFFF (Frac.mk2 (code * (4 ^ range : Nat)) (4 ^ was)).roundEven
    (v, decide (v < -fullScale) || decide (fullScale < v))

/-! ## Linearisation (R178–R182) -/

/-- A linearisation slot. -/
def linSlot (k : Nat) (s : State) : Lin := FMap.get (fun _ => {}) s.lins k
/-- A linearisation slot changed. -/
def modLin (k : Nat) (f : Lin → Lin) (s : State) : State := s.modLins fun m => FMap.upd (fun _ => {}) m k f
/-- The coefficients a channel uses once it has switched, or before (R182). -/
def coefsOf (c : Nat) (s : State) : List Word :=
  let l := linSlot (eLinSlot (chan c s).w) s
  match l.pend with
  | some p => if l.wait.contains c then l.cur else p
  | none => l.cur

/-- ENTRY2 and the coefficients a channel's record of an instant is linearised with (R181, R182). -/
def linFor (c : Nat) (t : Int) (s : State) : Word × List Word := histAt (chan c s).linOld t (ew (chan c s).w 2, coefsOf c s)

/-- A fraction to a small power. -/
def fpow (x : Frac) : Nat → Frac
  | 0 => Frac.ofInt 1
  | n + 1 => Frac.mul x (fpow x n)

/-- The polynomial of R178 over coefficients a_ij at k = 4 i + j. Log 53 (DEDUCED). -/
def poly (a : List Word) (x t : Frac) : Frac :=
  Frac.sum ((List.range 24).map fun k => Frac.mul (f32Frac (nth 0 a k)) (Frac.mul (fpow x (k / 4)) (fpow t (k % 4))))

/-- Whether a channel is fit to supply the temperature variable of another (R180). -/
def tchFit (c k : Nat) (s : State) : Bool :=
  let w := (chan k s).w
  decide (k < 320) && decide (k ≠ c) && decide (eCls w ≠ 0) && eLin w && decide (eTsrc w ≠ 2)

/-- The temperature variable of a channel under an ENTRY2 in °C / 100 (R178, R179), and whether it is a substitute. Log 71 (DEDUCED). -/
def tempVar (c : Nat) (w2 : Word) (te : Int) (s : State) : Frac × Bool :=
  let w := [0, 0, w2, 0]
  let tg := Frac.mk2 (tempAt (grpOf c) te s) 1600
  if eTsrc w = 0 then (Frac.ofInt 0, false)
  else if eTsrc w ≠ 2 then (tg, false)
  else if tchFit c (eTch w) s = false then (tg, true)
  else
    match (chan (eTch w) s).clean with
    | some (t, v) =>
      if t.total + 10 * nsPerSec < (now s).total then (tg, true)
      else (Frac.div (f32Frac v) (Frac.ofInt 100), false)
    | none => (tg, true)

/-- CAL causes (R193). -/
def calCAMPSTART : Nat := 0
def calCAMPDONE : Nat := 1
def calEXTRAP : Nat := 2
def calBLOCKED : Nat := 3
def calRUNREJ : Nat := 4
def calTSUBST : Nat := 5
def calLINSWAP : Nat := 6
def calSETWRITE : Nat := 7

/-- The substitution episode of a channel follows (R179): T_SUBST at its start. Log 71 (DEDUCED). -/
def noteSubst (c : Nat) (sub : Bool) (s : State) : State :=
  let was := (chan c s).tsub
  let s := modChan c (fun x => { x with tsub := sub }) s
  if sub ∧ was = false then raise pgCAL calTSUBST (grpOf c * 256 + idxOf c) (condStart pgCAL calTSUBST c s)
  else if was ∧ sub = false then condEnd pgCAL calTSUBST c s
  else s

/-- A code as a record's VALUE for an instant and a window end: raw, or linearised with E (R51, R178). An infinite or NaN coefficient makes the sum infinite or NaN. Answers VALUE, E, whether O follows, whether T was a substitute. Log 53 (DEDUCED). -/
def valueOf (c : Nat) (code : Int) (t te : Int) (s : State) : Word × Bool × Bool × Bool :=
  let k := linFor c t s
  if wbit k.1 31 = false then (BitVec.ofInt 32 code, false, false, false)
  else
    let v := tempVar c k.1 te s
    let r := f32OfFrac (poly k.2 (Frac.mk2 code 0x60000000) v.1)
    if (k.2.any fun a => (f32Val a).isNone) ∨ r.2.ovf then (f32NaN, true, true, v.2) else (r.1, true, false, v.2)

/-- The no-value code (R50). -/
def noValue (e : Bool) : Word := if e then f32NaN else 0x80000000

/-- FLAGS of a record (R41). Log 55 (DEDUCED). -/
def flagsOf (q h b o e : Bool) (x : Nat) (c : Bool) : Nat :=
  b2n q * 64 + b2n h * 32 + b2n b * 16 + b2n o * 8 + b2n e * 4 + x * 2 + b2n c

/-! ## Input causes (R98, R99) -/

def inOPEN : Nat := 16
def inCLOSED : Nat := 17
def inSHORT : Nat := 18
def inSNSLOST : Nat := 19
def inEXCLIMIT : Nat := 20
def inEXCOFF : Nat := 21
def inLEADSTALE : Nat := 22
def inPROTECT : Nat := 23

/-- An input-cause episode of a channel (R99): counted, and raised unless the channel's own latch for it is set. -/
def inputCause (c bit : Nat) (s : State) : State :=
  let held := wbit (chan c s).latched bit
  let s := modChan c (fun x => { x with epis := satAdd 0xFFFF x.epis 1, latched := x.latched ||| (1#32 <<< bit) }) s
  if held then s else raise (pgGroup (grpOf c)) bit (idxOf c) s

/-- A group's input cause (R99): the page's EV_LATCH bit is its latch. Log 71 (DEDUCED). -/
def groupCause (g bit : Nat) (s : State) : State :=
  if wbit (page (pgGroup g) s).evLatch bit then s else raise (pgGroup g) bit 0 s

/-- EV_LATCH bits of a page cleared: the channels' own latches go with them (R99). -/
def freeLatches (p : Nat) (mask : Word) (s : State) : State :=
  if 0x10 ≤ p ∧ p < 0x28 then
    (groupSlots (p - 0x10)).foldl (fun s c => if (chan c s).latched &&& mask = 0 then s else modChan c (fun x => { x with latched := x.latched &&& ~~~mask }) s) s
  else s

/-! ## Supervision of inputs and excitation (R81, R84, R88) -/

/-- VIEPE_MEASURE (R84). -/
def execViepeMeasure (mv : Nat) (s : State) : Out3 := analogue (fun s => s.modAna fun a => { a with viepe := some mv }) s

/-- CLAMP_START (R88). -/
def execClampStart (c : Chn) (s : State) : Out3 :=
  analogue (fun s =>
    if (chan c.val s).prot then s
    else
      let s := modChan c.val (fun x => { x with prot := true, clamps := x.clamps ++ [(nowTk s, none)] }) s
      inputCause c.val inPROTECT (condStart (pgGroup (grpOf c.val)) inPROTECT c.val s)) s

/-- CLAMP_END (R88). -/
def execClampEnd (c : Chn) (s : State) : Out3 :=
  analogue (fun s =>
    if (chan c.val s).prot then
      condEnd (pgGroup (grpOf c.val)) inPROTECT c.val (modChan c.val (fun x =>
        { x with prot := false, clamps := x.clamps.map fun k => if k.2 = none then (k.1, some (nowTk s)) else k }) s)
    else s) s

/-- A group whose excitation is on. -/
def excOn (g : Group) : Bool := g.isL && decide (g.excMv ≠ 0) && !g.excOff && !g.lock

/-- SNS_LOST_DETECT (R81): regulation moves to local sense. -/
def execSnsLostDetect (g : GGrp) (s : State) : Out3 :=
  analogue (fun s =>
    if (grp g.val s).isL then groupCause g.val inSNSLOST (condStart (pgGroup g.val) inSNSLOST 0 (modGrp g.val (fun x => { x with onLocal := true }) s)) else s) s

/-- SNS_RESTORE (R81): regulation returns to remote sense, unless the entry forces local sense. -/
def execSnsRestore (g : GGrp) (s : State) : Out3 :=
  analogue (fun s =>
    if (grp g.val s).isL then condEnd (pgGroup g.val) inSNSLOST 0 (modGrp g.val (fun x => { x with onLocal := wbit x.w 28 }) s) else s) s

/-- EXC_LIMIT_ENGAGE (R81): the output current reaches 500 mA, or leaves the limit. -/
def execExcLimitEngage (g : GGrp) (ma : Nat) (s : State) : Out3 :=
  analogue (fun s =>
    if excOn (grp g.val s) = false then s
    else if 500 ≤ ma then
      groupCause g.val inEXCLIMIT (condStart (pgGroup g.val) inEXCLIMIT 0 (modGrp g.val (fun x => { x with limit := true, iExc := ma }) s))
    else condEnd (pgGroup g.val) inEXCLIMIT 0 (modGrp g.val (fun x => { x with limit := false, iExc := ma }) s)) s

/-- EXC_OFF (R81): the excitation is switched off, and locked out when this ends the third consecutive retry. A retry that has held for 1 s counts no longer. Log 53 (DEDUCED). -/
def execExcOff (g : GGrp) (s : State) : Out3 :=
  analogue (fun s =>
    if excOn (grp g.val s) = false then s
    else
      let t := nowTk s
      let s := modGrp g.val (fun x =>
        let n := if x.retryUp + nsPerSec < s.tim.up then 0 else x.retries
        { x with excOff := true, limit := false, iExc := 0, retries := n, lock := decide (3 ≤ n), offs := x.offs ++ [(t, none)] }) s
      groupCause g.val inEXCOFF (condStart (pgGroup g.val) inEXCOFF 0 (condEnd (pgGroup g.val) inEXCLIMIT 0 s))) s

/-- EXC_RETRY (R81): 1 s after switch-off the excitation restarts with a soft start of 1 ms, at whose end B ends. Log 53 (DEDUCED), 79 (DESIGN CHOICE). -/
def execExcRetry (g : GGrp) (ma : Nat) (s : State) : Out3 :=
  analogue (fun s =>
    let x := grp g.val s
    if x.excOff ∧ x.lock = false then
      let t := nowTk s + 1000000 * tkNs
      condEnd (pgGroup g.val) inEXCOFF 0 (modGrp g.val (fun x =>
        { x with excOff := false, retries := x.retries + 1, retryUp := s.tim.up, iExc := ma,
                 offs := x.offs.map fun k => if k.2 = none then (k.1, some t) else k }) s)
    else s) s

/-- The upper threshold in force of a group's bias monitors in mV (R84); BIAS_HI alone before VIEPE has been measured. Log 79 (DESIGN CHOICE). -/
def biasHiMv (g : Group) (s : State) : Nat :=
  let hi := wbits g.w 10 10 * 100
  match s.ana.viepe with
  | some v => min hi (v - 2500)
  | none => hi

/-- What the active slice says of a channel. Log 53 (DEDUCED). -/
def chanPlan (c : Nat) (s : State) : Option ChanPlan :=
  match s.pln.active with
  | some a => a.body.channels.find? (·.slot = c)
  | none => none

/-- Tattoo frame lengths in µs (R155). -/
def frameUs (code : Nat) : Nat :=
  match code with
  | 0 => 1000
  | 1 => 2000
  | 2 => 5000
  | 3 => 10000
  | 4 => 20000
  | 5 => 50000
  | 6 => 100000
  | 7 => 200000
  | 8 => 500000
  | 9 => 1000000
  | _ => 0

/-- The release hold of a channel's record with a code (R92, R94): the bound of each mode in use, with the capacitance the slice declares, or 4 pF, and the swing from the level before the break to the decision level. Log 53, 55 (DEDUCED). -/
def holdTk (c : Nat) (code : Int) (s : State) : Int :=
  let x := chan c s
  let w := x.w
  if detects w = false then 0
  else
    let cap := match chanPlan c s with
      | some p => if p.capPf = 0 then 4 else p.capPf
      | none => 4
    let tail := 3 * coarseTk (isFast c) + 1024000
    let fs := fsNv (isFast c) x.range
    let nv : Int := code * fs / fullScale
    let up (dv : Int) (n d : Nat) : Int := (Frac.mk2 (max 0 dv * (cap * n : Nat)) d).ceil + tail
    let a := if eBo w = 1 then up ((fs * 7 / 6 : Nat) - (if eDown w then -nv else nv)) 2048 100000 else 0
    let b := if isRtd w then up (11000000000 - nv) 1024 (1000000 * iexUa w) else 0
    let d := if isIepe w then up (((biasHiMv (grp (grpOf c) s) s : Int) - x.bias) * 1000000) 1024 (1000000 * (2000 + 500 * eIepe w)) else 0
    let f := (grp (grpOf c) s).tat
    let us := max (frameUs f.frame) (match f.oldFrame with
      | some k => frameUs k
      | none => 0)
    let e : Int := if eBo w = 2 then (((us * (1 + x.missed) + 40) * 1024000 : Nat) : Int) else 0
    max (max a b) (max d e)

end Sys2Proof.Machine
end

