-- ==== Sys2Proof/Machine/Admission.lean ====
section
/-! DEFINITION. Admission of stream contracts and the registers of MRG and KEN (R271–R274, R280–R283, R303, R305). -/

namespace Sys2Proof.Machine

/-! ## The edit buffer (R303) -/

/-- CON0–CON4 of a contract, with the part of one device (R303). -/
def conWords (e : Contract) (dev : Nat) : List Word :=
  let p := partOf e dev
  let rho := (p.map (·.rho)).getD 0
  let c3 : Word := match p with
    | some p => mkWord [(23, 9, dev / 128), (16, 7, dev % 128), (0, 16, p.sigma)]
    | none => 0
  let c4 : Word := match p with
    | some { slots := (lo, hi) :: _, .. } => mkWord [(23, 9, lo), (14, 9, hi)]
    | _ => 0
  [mkWord [(30, 2, e.cls), (28, 2, e.scope), (26, 2, e.epkind), (22, 4, e.epnum), (21, 1, b2n e.runs)],
   mkWord [(16, 16, e.lat), (0, 16, e.keep)], BitVec.ofNat 32 rho, c3, c4]

/-- MSEL as a device number. -/
def mselDev (s : State) : Nat := (rfGet 0xB06C s).toNat % 65536

/-- CSEL. -/
def csel (s : State) : Nat := (rfGet 0xB040 s).toNat % 4096

/-- The committed entry of CSEL goes into the edit buffer; zero without one. -/
def loadCon (s : State) : State :=
  let ws := match (con (csel s) s).ent with
    | some e => conWords e (mselDev s)
    | none => [0, 0, 0, 0, 0]
  (List.range 5).foldl (fun s i => rfPut (0xB050 + 4 * i) (nth 0 ws i) s) s

/-- MRG_CSEL_WRITE (R303). -/
def execMrgCselWrite (r : Req) (v : Word) (s : State) : Out3 := .next (gatedMerger r pgMRG (fun s => loadCon (rfPut 0xB040 v s)) s)

/-- MRG_RELOAD (R303). -/
def execMrgReload (r : Req) (s : State) : Out3 := .next (gatedMerger r pgMRG loadCon s)

/-- The contract in the edit buffer: one source device and one slot range (R303). -/
def editCon (s : State) : Contract :=
  let w (i : Nat) : Word := rfGet (0xB050 + 4 * i) s
  { cls := wbits (w 0) 30 2, scope := wbits (w 0) 28 2, epkind := wbits (w 0) 26 2, epnum := wbits (w 0) 22 4, runs := wbit (w 0) 21,
    lat := wbits (w 1) 16 16, keep := wbits (w 1) 0 16,
    parts := [{ dev := wbits (w 3) 16 16, slots := [(wbits (w 4) 23 9, wbits (w 4) 14 9)], rho := (w 2).toNat, sigma := wbits (w 3) 0 16 }] }

/-! ## The checks (R271, R272, R280–R282) -/

/-- Whether the fields of a contract are valid (R271, R272): its class, scope, slots and KEEP, and no source of it in another contract of the same class and endpoint. -/
def fieldsOk (id : Nat) (c : Contract) (s : State) : Bool :=
  decide (c.cls ≠ 0) && decide (c.scope ≠ 3) && decide (c.lat + 10000 ≤ c.keep * 1000) && !c.parts.isEmpty &&
  (c.parts.all fun p => !p.slots.isEmpty && (p.slots.all fun r => decide (r.1 ≤ r.2))) &&
  !((conIds s).any fun j =>
    match (con j s).ent with
    | some e => decide (j ≠ id) && decide ((con j s).state ≠ 0 ∧ (con j s).state ≠ 4) && decide (e.cls = c.cls) && decide (e.scope = c.scope) &&
        decide (e.epkind = c.epkind) && decide (e.epnum = c.epnum) && (c.parts.any fun p => (partOf e p.dev).isSome)
    | none => false)

/-- The highest LAT of a contract in 10 µs (R11, R272). -/
def latLimit (c : Contract) : Nat :=
  let bound := if c.cls = 1 then 100 else if c.cls = 2 then 2000 else 50000
  if c.epkind = 3 then min bound 25 else bound

/-- The words per second of a class that a port can carry (R278), at the rate the plan gives it. Log 48 (DEDUCED). -/
def portCap (p cls : Nat) (s : State) : Nat :=
  (if cls = 1 then 5 else if cls = 2 then 25 else 65) * slotRate (fastest (offered p s)) * 8 / 100

/-- Whether a source's part of a contract crosses a port of this hub under the planned paths or a break (R280). -/
def crosses (p : Nat) (e : Contract) (dev : Nat) (s : State) : Bool :=
  match portRing p s with
  | none => decide ((portPlan p s).use = 5) && decide (e.scope ≠ 0)
  | some r =>
    if e.scope = 0 then false
    else r.members.contains dev || (decide (r.kind = 1) && decide (e.scope = 2) && r.members.any fun d => decide (d / 128 = dev / 128))

/-- Σρ of a class over the contracts here that cross a port. -/
def rhoAt (p cls : Nat) (s : State) : Nat :=
  sumNat ((conIds s).flatMap fun id =>
    match (con id s).ent with
    | some e => if e.cls = cls ∧ (con id s).state ≠ 4 ∧ (con id s).state ≠ 0 then (e.parts.filter fun q => crosses p e q.dev s).map (·.rho) else []
    | none => [])

/-- Whether every port of this hub that a contract crosses can carry it beside the others (R282). Log 48 (DEDUCED). -/
def portsFit (c : Contract) (s : State) : Bool :=
  (usedPorts s).all fun p =>
    let mine := sumNat ((c.parts.filter fun q => crosses p c q.dev s).map (·.rho))
    decide (mine = 0) || decide (rhoAt p c.cls s + mine ≤ portCap p c.cls s)

/-- Words of the retention part (R297). -/
def retention (s : State) : Nat := (64 - s.del.mergeMiB.getD (if isManager s then 16 else 1)) * 65536

/-- Words reserved here by the contracts this hub originates (R297). -/
def reserved (s : State) : Nat :=
  sumNat ((conIds s).map fun id =>
    match (con id s).ent with
    | some e => if (con id s).isSrc then reserveWords e (myDev s) else 0
    | none => 0)

/-- Picoseconds in a second. -/
def psPerSec : Nat := 1000000000000

/-- A fraction of whole numbers, 0 over 0. -/
def ratio (a b : Nat) : Frac := if b = 0 then Frac.ofInt 0 else Frac.mk2 a b

/-- M, H, Q and F of one stage, and R, in picoseconds (R281); F applies to classes B and C. Log 49 (DEDUCED). -/
def stageBound (cls period : Nat) (t : StageTerms) : Frac × Frac :=
  let q := ratio ((t.sigma + 8) * psPerSec) t.cap
  let m := Frac.ofInt (beatNs cls * 1000 + 120000000 : Nat)
  let f :=
    if cls = 1 then Frac.ofInt 0
    else Frac.add (Frac.ofInt (period * 1000000000 + 2200000000 : Nat)) (ratio (t.rho * (period * 1000000000 + 3000000000 + beatNs cls * 1000)) t.cap)
  (Frac.sum [m, Frac.ofInt t.hop, q, f], Frac.ofInt t.replay)

/-- The longest hold of a slot's records, in 1/1024 ns (R94): that of a code at either end of the scale. -/
def longestHold (c : Nat) (s : State) : Int := max (holdTk c fullScale s) (holdTk c (-fullScale) s)

/-- T_prod of a physical slot of this hub in 1/1024 ns (R281): a class A event, or a class C sample with its hold and the longest run (R273). -/
def slotProd (c : Contract) (k : Nat) (s : State) : Int :=
  let w1 := ew (chan k s).w 1
  let ready : Int := if isFast k then 2000 else 4000
  if c.cls = 1 then coarseTk (isFast k) / 2 + 1150 * tkNs
  else if c.cls = 3 then
    halfTk (isFast k) w1 + ready * tkNs + longestHold k s + (if c.runs then min (247 * periodTk (isFast k) w1) (10000000 * tkNs) else 0)
  else 0

/-- T_prod of this hub's own part of a contract in picoseconds (R281), over its physical slots in use. -/
def ownProd (c : Contract) (s : State) : Nat :=
  ((List.range 320).filter fun k => hasSlot c (myDev s) k && decide (eCls (chan k s).w ≠ 0)).foldl (fun a k => max a (slotProd c k s * 1000 / 1024).toNat) 0

/-- The bound of a contract in picoseconds (R281): T_prod, the stages, 5 µs for each hub that serves the item, and the delivery. A local contract's is T_prod + 5 µs + D. T_prod is the worst of this hub's own slots and of what the other sources and the programs declare. Log 48, 49 (DEDUCED). -/
def boundPs (c : Contract) (t : AdmitTerms) (s : State) : Frac :=
  let d : Nat := if c.epkind = 1 then 8000000 else 2000000
  let prod := max t.prod (ownProd c s)
  if c.scope = 0 then Frac.ofInt (prod + 5000000 + d : Nat)
  else Frac.sum (Frac.ofInt (prod + t.hubs * 5000000 + d : Nat) :: t.stages.flatMap fun g =>
    let b := stageBound c.cls s.lsh.period g
    [b.1, b.2])

/-- M + H + Q + F of the last stage, which ends here, in picoseconds (R282). Log 49 (DEDUCED). -/
def mergeWait (c : Contract) (t : AdmitTerms) (s : State) : Nat :=
  match t.stages.getLast? with
  | some g => (stageBound c.cls s.lsh.period g).1.ceil.toNat
  | none => 0

/-- Words that a contract's merge needs (R282): ρ × (M + H + Q + F). Log 49 (DEDUCED). -/
def mergeNeed (c : Contract) (wait : Nat) : Nat := sumNat (c.parts.map (·.rho)) * wait / psPerSec

/-- Words that the merged contracts here need. -/
def mergeNeeds (s : State) : Nat :=
  sumNat ((conIds s).map fun id =>
    match (con id s).ent with
    | some e => if (con id s).isMerge ∧ e.scope ≠ 0 then mergeNeed e (con id s).wait else 0
    | none => 0)

/-- Whether this hub owns a contract (R280): the source of a local one, the holder of the segment pair, the head holder. -/
def owns (c : Contract) (s : State) : Bool :=
  if c.scope = 0 then (partOf c (myDev s)).isSome
  else if c.scope = 1 then isManager s && isHolder s && c.parts.all fun p => decide (p.dev / 128 = mySeg s)
  else isHead s && isHolder s

/-- The ERR of an admission (R282, R303), 0 when every check holds; in the order 2, 9, 1, 5, 8, 3, 6, 7, 4. Log 48 (DEDUCED). -/
def admitErr (id : Nat) (c : Contract) (t : AdmitTerms) (s : State) : Nat :=
  let k := con id s
  let held := k.state = 1 ∨ k.state = 2 ∨ k.state = 3
  if owns c s = false then 2
  else if fieldsOk id c s = false then 9
  else if held then 1
  else if latLimit c < c.lat then 5
  else if 4096 ≤ (conIds s).length ∧ k.ent = none then 8
  else if portsFit c s = false ∨ (t.stages.any fun g => decide (g.cap < g.rho)) then 3
  else if (partOf c (myDev s)).isSome ∧ retention s < reserved s + reserveWords c (myDev s) then 6
  else if c.scope ≠ 0 ∧ mergeRoom s < mergeNeeds s + mergeNeed c (mergeWait c t s) then 7
  else
    match t.refused with
    | some e => if e = 0 ∨ 9 < e then 4 else e
    | none => if (Frac.ofInt (c.lat * 10000000 : Nat)).lt (boundPs c t s) then 4 else 0

/-- A write of MSEL: CON2 to CON4 show the part of that device in a committed contract (R303). Log 48 (DEDUCED). -/
def loadPart (s : State) : State :=
  match (con (csel s) s).ent with
  | some e => [2, 3, 4].foldl (fun s i => rfPut (0xB050 + 4 * i) (nth 0 (conWords e (mselDev s)) i) s) s
  | none => s

/-! ## Results (R274, R283) -/

/-- The first whole second at least 100 ms ahead (R274). -/
def nextSecond (s : State) : Nat := if s.tim.ns ≤ 900000000 then s.tim.sec + 1 else s.tim.sec + 2

/-- The hubs that keep an entry beside its owner (R271): the source devices, and for scope 2 the managers of their segments, which merge it. Log 48 (DEDUCED). -/
def conKeepers (c : Contract) (d : Nat) (s : State) : List Nat :=
  let mgrs := if c.scope = 2 then [d / 128 * 128, d / 128 * 128 + 127] else []
  (d :: mgrs.filter (· ≠ d)).filter fun x => decide (x ≠ myDev s) && !(decide (x / 128 = mySeg s) && decide (x % 128 = 0 ∨ x % 128 = 127))

/-- The CONTRACT block of an entry (R302) to every hub that keeps it but this one, and to the partner by the journal. Log 48 (DEDUCED). -/
def tellCon (id : Nat) (c : Contract) (s : State) : State :=
  let send (s : State) (p : Part) : State :=
    let ws := conWords c p.dev
    let w (i : Nat) : Nat := (nth (0 : Word) ws i).toNat
    (conKeepers c p.dev s).foldl (fun s d =>
      sendCtrl (ctrlBlk (d / 128) (d % 128) 0x32 0 id
        [mkW128 [(96, 32, w 3), (64, 32, w 2), (32, 32, w 1), (0, 32, w 0)], mkW128 [(0, 32, w 4)]] s) s) s
  journal (.contract id c ((con id s).startSec.getD 0) (con id s).endSec) (c.parts.foldl send s)

/-- ADMIT (R280–R283, R303): the owner checks the edit buffer as contract CSEL; the result is final. Log 48 (DEDUCED). -/
def execAdmit (r : Req) (t : AdmitTerms) (s : State) : Out3 :=
  .next (gatedMerger r pgMRG (fun s =>
    let id := csel s
    let c := editCon s
    let err := admitErr id c t s
    if err = 2 then modCon id (fun k => { k with err := 2 }) s
    else if err = 1 then raiseOnce pgMRG mrgREFUSED id id (modCon id (fun k => { k with err := 1 }) s)
    else if err ≠ 0 then
      raiseOnce pgMRG mrgREFUSED id id (journal (.refused id c err) (bumpGen pgMRG (modCon id (fun _ => { ent := some c, state := 4, err := err }) s)))
    else
      let s := installCon id c (nextSecond s) none s
      let s := modCon id (fun k => { k with bound := ((boundPs c t s).div (Frac.ofInt 1000000)).ceil.toNat, wait := mergeWait c t s }) s
      raiseOnce pgMRG mrgADMITTED id id (tellCon id c s)) s)

/-- WITHDRAW (R274, R303): on the owner, at the next whole second at least 100 ms ahead. -/
def execWithdraw (r : Req) (s : State) : Out3 :=
  .next (gatedMerger r pgMRG (fun s =>
    let id := csel s
    match (con id s).ent with
    | none => s
    | some c =>
      if owns c s ∧ ((con id s).state = 1 ∨ (con id s).state = 2) then
        tellCon id c (bumpGen pgMRG (modCon id (fun k => { k with state := 3, endSec := some (nextSecond s) }) s))
      else s) s)

/-- CONTRACT_RECEIVE (R283): an admitted, changed or withdrawn entry is installed. -/
def execContractReceive (con : Con) (c : Contract) (start : Nat) (stop : Option Nat) (s : State) : Out3 := .next (installCon con.val c start stop s)

/-- A contract becomes active (R274): its first item will be the ANCHOR of reason 0; its merger counts its sources as inputs. -/
def startCon (id : Nat) (s : State) : State :=
  let k := Machine.con id s
  match k.ent with
  | none => s
  | some e =>
    if k.state ≠ 1 then s
    else
      let sigma := ((partOf e (myDev s)).map (·.sigma)).getD 0
      let s := bumpGen pgMRG (modCon id (fun k =>
        { k with state := 2, anchorDue := some 0, tokens := sigma * tokenUnit, tokAt := s.tim.up, lastAckUp := s.tim.up }) s)
      if k.isMerge then e.parts.foldl (fun s p => modIn p.dev id (fun i => i) s) s else s

/-- CONTRACT_START (R274): its start second has come. -/
def execContractStart (con : Con) (s : State) : Out3 :=
  .next (match (Machine.con con.val s).startSec with
    | some b => if s.tim.sec < b then s else startCon con.val s
    | none => startCon con.val s)

/-- CONTRACT_END (R274): the end second has come; WITHDRAWN at the owner, and the entry leaves once everything is acknowledged. -/
def execContractEnd (con : Con) (s : State) : Out3 :=
  let k := Machine.con con.val s
  match k.ent with
  | none => .next s
  | some e =>
    if k.state ≠ 3 then .next s
    else
      let s := (k.runs.map (·.slot)).foldl (fun s slot => closeRun slot s con.val) s
      let s := if owns e s then raiseOnce pgMRG mrgWITHDRAWN con.val con.val s else s
      .next (retire con.val s)

/-! ## Read-only registers of MRG and KEN (R303, R305) -/

/-- CSTAT. -/
def cstatWord (k : ConSt) : Word :=
  mkWord [(29, 3, k.state), (25, 4, k.err), (24, 1, b2n k.isSrc), (23, 1, b2n k.isMerge), (22, 1, b2n k.isRelay), (21, 1, b2n k.isCons)]

/-- MSTAT: 0 no input, 1 present, 2 capped, 3 absent. -/
def mstatWord (s : State) : Word :=
  match findIn (mselDev s) (csel s) s with
  | none => 0
  | some i => mkWord [(30, 2, if i.absent then 3 else if i.cap ≠ .none then 2 else 1)]

/-- PLOAD: the admitted Σρ at port PSEL in thousandths of Cap. -/
def ploadWord (s : State) : Word :=
  let p := (rfGet 0xB098 s).toNat % 32
  let f (cls : Nat) : Nat := if portCap p cls s = 0 then 0 else min 1023 (rhoAt p cls s * 1000 / portCap p cls s)
  if 24 ≤ p then 0 else mkWord [(20, 10, f 1), (10, 10, f 2), (0, 10, f 3)]

/-- A register of MRG that is not plain, by offset; none where the page has none there. -/
def mrgRead (off : Nat) (s : State) : Option Word :=
  let i := findIn (mselDev s) (csel s) s
  let hz := heldHz ((rfGet 0xB07C s).toNat % 4) s
  match off with
  | 0x044 => some (cstatWord (con (csel s) s))
  | 0x064 => some 0
  | 0x068 => some (BitVec.ofNat 32 (con (csel s) s).bound)
  | 0x070 => some (mstatWord s)
  | 0x074 => some (BitVec.ofNat 32 ((i.map (·.expected)).getD 0))
  | 0x078 => some (BitVec.ofNat 32 ((i.map (·.mack)).getD 0))
  | 0x080 => some (BitVec.ofNat 32 ((hz.map (·.sec)).getD 0))
  | 0x084 => some (BitVec.ofNat 32 ((hz.map (·.sec / 2 ^ 32)).getD 0))
  | 0x088 => some (BitVec.ofNat 32 ((hz.map (·.ns)).getD 0))
  | 0x08C => some (BitVec.ofNat 32 ((hz.map (·.epoch)).getD 0))
  | 0x090 => some (mkWord [(16, 16, s.del.late), (0, 16, s.del.rept)])
  | 0x094 => some (mkWord [(16, 16, s.del.hole), (0, 16, s.del.absent)])
  | 0x09C => some (ploadWord s)
  | _ => none

/-- Words of the items that the contracts here keep. -/
def kennelUsed (s : State) : Nat := sumNat ((conIds s).map fun id => kennelWords (con id s).kennel)

/-- A register of KEN that is not plain, by offset. -/
def kenRead (off : Nat) (s : State) : Option Word :=
  let k := con ((rfGet 0xC04C s).toNat % 4096) s
  match off with
  | 0x040 => some (BitVec.ofNat 32 (s.del.mergeMiB.getD (if isManager s then 16 else 1)))
  | 0x044 => some (BitVec.ofNat 32 ((kennelUsed s + 63) / 64))
  | 0x048 => some (BitVec.ofNat 32 ((reserved s + 63) / 64))
  | 0x050 => some (BitVec.ofNat 32 k.next)
  | 0x054 => some (BitVec.ofNat 32 k.ack)
  | 0x058 => some (BitVec.ofNat 32 (match k.kennel with
      | x :: _ => min (2 ^ 32 - 1) ((s.tim.up - x.at_) / 1000000)
      | [] => 0))
  | 0x05C => some (mkWord [(16, 16, s.del.gaps), (0, 16, s.del.retx)])
  | 0x060 => some s.del.gapItems
  | 0x064 => some (BitVec.ofNat 32 s.del.lossCon)
  | 0x068 => some (BitVec.ofNat 32 s.del.lossFirst)
  | 0x06C => some (BitVec.ofNat 32 s.del.lossCount)
  | _ => none

end Sys2Proof.Machine
end

