-- ==== Sys2Proof/Machine/Services.lean ====
section
/-! DEFINITION. Services on the hub: alarm comparators, the reflex map, DIN and TOUT pins, order tracking, weigh sections (R219, R220, R348–R373). -/

namespace Sys2Proof.Machine

/-! ## Tables -/

/-- The alarm unit of a channel. -/
def alarm (c : Nat) (s : State) : AlarmCh := FMap.get (fun _ => {}) s.svc.alarms c
/-- The alarm unit of a channel changed. -/
def modAlarm (c : Nat) (f : AlarmCh → AlarmCh) (s : State) : State := s.modSvc fun v => { v with alarms := FMap.upd (fun _ => {}) v.alarms c f }
/-- A reflex rule. -/
def rule (k : Nat) (s : State) : Rule := FMap.get (fun _ => {}) s.svc.rules k
/-- A reflex rule changed. -/
def modRule (k : Nat) (f : Rule → Rule) (s : State) : State := s.modSvc fun v => { v with rules := FMap.upd (fun _ => {}) v.rules k f }
/-- A DIN pin. -/
def din (k : Nat) (s : State) : Din := FMap.get (fun _ => {}) s.svc.dins k
/-- A DIN pin changed. -/
def modDin (k : Nat) (f : Din → Din) (s : State) : State := s.modSvc fun v => { v with dins := FMap.upd (fun _ => {}) v.dins k f }
/-- A TOUT pin. -/
def tout (k : Nat) (s : State) : Tpin := FMap.get (fun _ => {}) s.svc.touts k
/-- A TOUT pin changed. -/
def modTout (k : Nat) (f : Tpin → Tpin) (s : State) : State := s.modSvc fun v => { v with touts := FMap.upd (fun _ => {}) v.touts k f }
/-- An order track. -/
def track (k : Nat) (s : State) : Track := FMap.get (fun _ => {}) s.svc.tracks k
/-- An order track changed. -/
def modTrack (k : Nat) (f : Track → Track) (s : State) : State := s.modSvc fun v => { v with tracks := FMap.upd (fun _ => {}) v.tracks k f }
/-- A weigh section. -/
def sect (k : Nat) (s : State) : Sect := FMap.get (fun _ => {}) s.svc.sects k
/-- A weigh section changed. -/
def modSect (k : Nat) (f : Sect → Sect) (s : State) : State := s.modSvc fun v => { v with sects := FMap.upd (fun _ => {}) v.sects k f }

/-! ## Causes (R373) -/

def ordSTALL : Nat := 0
def ordOVERSPEED : Nat := 1
def ordRESUME : Nat := 2
def ordLONG : Nat := 3
def ordOVLP : Nat := 4
def ordSHORT : Nat := 5
def ordNOTARE : Nat := 6
def rfxFIRE : Nat := 0
def rfxREFUSED : Nat := 1

/-! ## The reflex map (R353–R355) -/

/-- The value of a source code of RULE_A (R372). -/
def sourceVal (code : Nat) (s : State) : Bool :=
  let n := code % 512
  match code / 512 % 4 with
  | 1 => (alarm n s).c1.alarm
  | 2 => (alarm n s).c2.alarm
  | 3 => (din (n % 32) s).level
  | _ => false

/-- The condition of a rule (R353). -/
def condOf (a : Word) (s : State) : Bool :=
  let x := sourceVal (wbits a 11 11) s
  let y := sourceVal (wbits a 0 11) s
  wbit a 31 && (match wbits a 28 3 with
    | 0 => x
    | 1 => x && y
    | 2 => x || y
    | 3 => x && !y
    | _ => false)

/-- The ball level of a TOUT pin (R353, R358). -/
def toutBall (n : Nat) (s : State) : Bool :=
  let p := tout n s
  let on := if wbit p.cfg 31 then s.svc.rules.any fun r => wbit r.2.a 31 && decide (wbits r.2.a 24 4 = n) && r.2.active else p.state
  xor on (wbit p.cfg 30)

/-- The ball driven where its level has changed since `before`. -/
def driveTout (n : Nat) (before : Bool) (s : State) : State :=
  if toutBall n s = before then s else drive (.tout n (toutBall n s)) s

/-- A rule's active output set (R353): FIRE counts each rise. -/
def setActive (k : Nat) (on : Bool) (s : State) : State :=
  let r := rule k s
  let pin := wbits r.a 24 4
  if r.active = on then s
  else
    let before := toutBall pin s
    let s := driveTout pin before (modRule k (fun r => { r with active := on }) s)
    if on then raise pgRFX rfxFIRE (pin * 256 + k) (modRule k (fun r => { r with fires := (r.fires + 1) % 65536 }) s) else s

/-- A rule brought up to its condition (R353); each rise starts its pulse anew. -/
def evalRule (s : State) (k : Nat) : State :=
  let r := rule k s
  let c := condOf r.a s
  let rise := c && !r.cond
  let s := modRule k (fun r => { r with cond := c, till := if rise then s.tim.up + wbits r.b 12 20 * 100 else r.till }) s
  match wbits r.a 22 2 with
  | 0 => setActive k c s
  | _ => if rise then setActive k true s else s

/-- Every rule brought up to its condition. -/
def reflex (s : State) : State := (s.svc.rules.map (·.1)).foldl evalRule s

/-- REFLEX_PULSE_END (R353): PW × 100 ns after the last rise. -/
def execReflexPulseEnd (k : Fin 64) (s : State) : Out3 :=
  .next (if wbits (rule k.val s).a 22 2 = 2 ∧ (rule k.val s).till ≤ s.tim.up then setActive k.val false s else s)

/-- Whether a source code names a slot or pin that exists. -/
def sourceOk (code : Nat) : Bool :=
  match code / 512 % 4 with
  | 0 => true
  | 3 => decide (code % 512 < 32)
  | _ => decide (code % 512 < 320)

/-- Whether a source code names a comparator. -/
def sourceCmp (code : Nat) : Bool := decide (code / 512 % 4 = 1) || decide (code / 512 % 4 = 2)

/-- The ERR of a rule commit (R372), 0 accepted. Log 51 (DEDUCED). -/
def ruleErr (a : Word) (s : State) : Nat :=
  let x := wbits a 11 11
  let y := wbits a 0 11
  if wbit (tout (wbits a 24 4) s).cfg 31 = false then 1
  else if 3 < wbits a 28 3 ∨ wbits a 22 2 = 3 then 2
  else if sourceOk x = false ∨ sourceOk y = false then 3
  else if s.fuse.hx000 ∧ (sourceCmp x ∨ sourceCmp y) then 4
  else 0

/-- A rule put in force (R355): its output restarts at 0; a follow rule takes its condition. -/
def putRule (k : Nat) (a b : Word) (s : State) : State :=
  let s := setActive k false s
  let s := modRule k (fun r => { r with a := a, b := b &&& 0xFFFFF000, err := 0, cond := condOf a s }) s
  if wbits a 22 2 = 0 then setActive k (condOf a s) s else s

/-- RSEL. -/
def rsel (s : State) : Nat := (rfGet 0x53060 s).toNat % 64

/-- RULE_COMMIT (R355, R372). Log 51 (DEDUCED). -/
def execRuleCommit (r : Req) (s : State) : Out3 :=
  .next (gated r pgRFX (fun s =>
    let k := rsel s
    let a := rfGet 0x53064 s
    let e := ruleErr a s
    if e = 0 then putRule k a (rfGet 0x53068 s) s
    else
      let s := modRule k (fun r => { r with err := e }) s
      if e = 1 then raise pgRFX rfxREFUSED k s else s) s)

/-- The committed words of the selected rule go into RULE_A and RULE_B. -/
def loadRule (s : State) : State := rfPut 0x53068 (rule (rsel s) s).b (rfPut 0x53064 (rule (rsel s) s).a s)

/-- RULE_RELOAD (R372). -/
def execRuleReload (r : Req) (s : State) : Out3 := .next (gated r pgRFX loadRule s)

/-- RULE_CLEAR (R353). -/
def execRuleClear (r : Req) (s : State) : Out3 :=
  .next (gated r pgRFX (fun s => if wbits (rule (rsel s) s).a 22 2 = 1 then setActive (rsel s) false s else s) s)

/-! ## Alarm comparators (R348–R352) -/

/-- The fields of comparator 1 or 2 in ENTRY2 (R352): on, direction, qualification count. Log 52 (DEDUCED). -/
def cmprCfg (w2 : Word) (k : Nat) : Bool × Bool × Nat :=
  if k = 1 then (wbit w2 12, wbit w2 11, 2 ^ wbits w2 6 3) else (wbit w2 10, wbit w2 9, 2 ^ wbits w2 3 3)

/-- HOLD in ns. -/
def holdNs (w2 : Word) : Nat := match wbits w2 0 2 with
  | 1 => 10000000
  | 2 => 100000000
  | 3 => 1000000000
  | _ => 0

/-- The effective threshold and hysteresis at a range (R348). -/
def effThr (c k range : Nat) (s : State) : Int × Int :=
  let a := alarm c s
  let m : Int := (4 ^ range : Nat)
  let t := (if k = 1 then a.thr1 else a.thr2).toInt
  let h := wbits a.hys (if k = 1 then 16 else 0) 16
  (clampInt (-0x7FFFFFFF) 0x7FFFFFFF (t * m), clampInt (-0x7FFFFFFF) 0x7FFFFFFF ((h * 4096 : Nat) * m))

/-- The event of a comparator entering or leaving alarm (R45, R350). -/
def alarmEvent (c code : Nat) (v : Int) (b o : Bool) (t : Stamp) (s : State) : State :=
  if wbit (ew (chan c s).w 2) 2 then s
  else
    emit { t := t, src := srcId c s, kind := .event,
           value := mkWord [(24, 8, code), (0, 24, if b then 0x800000 else toBits 32 v / 256)],
           flags := flagsOf true false b (o && !b) false (xOf t) false, payload := [] } s

/-- The comparator of an alarm unit. -/
def cmpr (k : Nat) (a : AlarmCh) : Cmpr := if k = 1 then a.c1 else a.c2
/-- The comparator of an alarm unit replaced. -/
def setCmpr (k : Nat) (x : Cmpr) (a : AlarmCh) : AlarmCh := if k = 1 then { a with c1 := x } else { a with c2 := x }

/-- One coarse sample at one comparator (R348–R350). -/
def compareOne (c k range : Nat) (v : Int) (b o : Bool) (t : Stamp) (s : State) : State :=
  let w2 := ew (chan c s).w 2
  let (on, dir, need) := cmprCfg w2 k
  if on = false then s
  else
    let x := cmpr k (alarm c s)
    let e := effThr c k range s
    let beyond := if dir then decide (v < e.1) else decide (e.1 < v)
    let back := if dir then decide (e.1 + e.2 < v) else decide (v < e.1 - e.2)
    if x.alarm = false then
      (if beyond = false then modAlarm c (setCmpr k { x with cnt := 0 }) s
       else if x.cnt + 1 < need then modAlarm c (setCmpr k { x with cnt := x.cnt + 1 }) s
       else
         alarmEvent c k v b o t (modAlarm c (fun a => { setCmpr k { alarm := true, cnt := 0, at_ := s.tim.up } a with entries := (a.entries + 1) % 65536 }) s))
    else if back = false then modAlarm c (setCmpr k { x with cnt := 0 }) s
    else if x.cnt + 1 < need ∨ s.tim.up < x.at_ + holdNs w2 then modAlarm c (setCmpr k { x with cnt := x.cnt + 1 }) s
    else alarmEvent c (0x80 + k) v b o t (modAlarm c (setCmpr k { alarm := false, cnt := 0, at_ := s.tim.up }) s)

/-- One coarse sample at the channel's comparators and the reflex map (R145, R351). -/
def compareSample (c range : Nat) (v : Int) (b o : Bool) (t : Stamp) (s : State) : State :=
  reflex (compareOne c 2 range v b o t (compareOne c 1 range v b o t s))

/-- A comparator whose fields change restarts out of alarm, with its leave record first (R351). Log 52 (DEDUCED). -/
def restartCmpr (c k : Nat) (s : State) : State :=
  let x := cmpr k (alarm c s)
  let s := if x.alarm then
      match (chan c s).hist with
      | h :: _ => alarmEvent c (0x80 + k) h.code (chan c s).isOpen h.o h.stamp s
      | [] => s
    else s
  modAlarm c (setCmpr k {}) s

/-- The comparators of a channel whose ENTRY2 alarm fields change from `old` to `new` (R351). -/
def alarmChange (c : Nat) (old new : Word) (s : State) : State :=
  let d (k : Nat) : Bool := decide (cmprCfg old k ≠ cmprCfg new k) || decide (old.toNat % 8 ≠ new.toNat % 8)
  let s := if d 1 then restartCmpr c 1 s else s
  let s := if d 2 then restartCmpr c 2 s else s
  if d 1 ∨ d 2 then reflex s else s

/-! ## The order tracker (R359–R362) -/

/-- PPR and SPR of a track. -/
def Track.ppr (t : Track) : Nat := max 1 (wbits t.cfg0 18 10)
def Track.spr (t : Track) : Nat := 2 ^ (wbits t.cfg0 15 3 + 1)
def Track.en (t : Track) : Bool := wbit t.cfg0 31

/-- A track's STATE changed; GEN follows. -/
def setTrackState (k st : Nat) (s : State) : State :=
  if (track k s).state = st then s else bumpGen pgORD (modTrack k (fun t => { t with state := st }) s)

/-- A track suspends (R362): its edges and angle count start again. Log 52 (DEDUCED). -/
def suspendTrack (k cause : Nat) (keep : List Stamp) (s : State) : State :=
  let was := (track k s).state
  let s := modTrack k (fun t => { t with edges := keep, base := 0, j := 0, rev0 := none, susp := if was = 3 then t.susp else (t.susp + 1) % 65536 }) s
  raiseOnce pgORD cause k k (setTrackState k 3 s)

/-- A stamped edge at a track (R359, R362). A suspended track resumes at the fourth edge in a row that meets both limits, which is its new e_0. Log 52 (DEDUCED). -/
def trackEdge (k : Nat) (t : Stamp) (s : State) : State :=
  if s.pwr.stopped then s else
  let x := track k s
  let gap := match x.edges.getLast? with
    | some e => if e.epoch = t.epoch then some (t.total - e.total) else none
    | none => none
  match gap with
  | some d =>
    if x.stall * 1000000 < d then suspendTrack k ordSTALL [t] s
    else if 128000 * x.ppr * d < x.spr * nsPerSec then suspendTrack k ordOVERSPEED [t] s
    else
      let s := modTrack k (fun x => { x with edges := x.edges ++ [t] }) s
      if x.edges.length + 1 = 4 ∧ x.state = 1 then setTrackState k 2 s
      else if x.edges.length = 4 ∧ x.state = 3 then
        raise pgORD ordRESUME k (condEnd pgORD ordSTALL k (condEnd pgORD ordOVERSPEED k (setTrackState k 2 (modTrack k (fun x => { x with edges := [t] }) s))))
      else s
  | none => modTrack k (fun x => { x with edges := x.edges ++ [t] }) s

/-- TRACK_STALL_TIMER (R362): TRSTALL has passed since the latest edge of a track that starts or runs. -/
def execTrackStallTimer (t : QNum) (s : State) : Out3 :=
  let x := track t.val s
  .next (match x.edges.getLast? with
    | none => s
    | some e => if x.en ∧ (x.state = 1 ∨ x.state = 2) ∧ (e.epoch ≠ s.tim.epoch ∨ e.total + x.stall * 1000000 ≤ (now s).total) then suspendTrack t.val ordSTALL [] s else s)

/-- Cubic Lagrange interpolation through points (R359, R360). Log 52 (DEDUCED). -/
def lagrange (pts : List (Frac × Frac)) (x : Frac) : Frac :=
  Frac.sum (pts.map fun p =>
    (pts.filter fun q => q.1 ≠ p.1).foldl (fun a q => Frac.mul a (Frac.div (Frac.sub x q.1) (Frac.sub p.1 q.1))) p.2)

/-- Edge `i` of a track. -/
def Track.edge (t : Track) (i : Nat) : Option Stamp := if i < t.base then none else t.edges[i - t.base]?

/-- The four items of a list from a place on. -/
def four {α : Type} (l : List α) : Option (List α) := if 4 ≤ l.length then some (l.take 4) else none

/-- The instant of the next angle sample (R359), once its four edges are there, with the place of the first of them. -/
def angleInstant (t : Track) : Option (Stamp × Nat) :=
  let m := t.j * t.ppr / t.spr
  let i0 := m - 1
  match t.edge i0 with
  | none => none
  | some e0 =>
    match four (t.edges.drop (i0 - t.base)) with
    | none => none
    | some es =>
      let pts := (List.range 4).map fun i =>
        (Frac.mk2 ((i0 + i : Nat) : Int) t.ppr, Frac.ofInt (((nth e0 es i).total : Int) - (e0.total : Int)))
      let y := (lagrange pts (Frac.mk2 (t.j : Int) t.spr)).floor
      some (Stamp.ofTotal e0.epoch ((e0.total : Int) + y).toNat, i0)

/-- The first records of a list up to the one before the last at or before an instant: places n − 1 to n + 2 of R360. -/
def around (t : Stamp) : List Item → Option (List Item)
  | a :: b :: c :: d :: l =>
    if Stamp.le b.t t ∧ Stamp.lt t c.t then some [a, b, c, d] else around t (b :: c :: d :: l)
  | _ => none

/-- The exact instant of a record of a channel as a fraction of ns: its Peal instant, or the stamp of a Q record. -/
def recInst (c : Nat) (i : Item) (s : State) : Frac :=
  if i.flags.testBit 6 then Frac.ofInt (i.t.total : Int) else Frac.mk2 (exactTk (periodTk (isFast c) (ew (chan c s).w 1)) i.t) 1024

/-- The flags Q, H, B, O and C of several records together (R47). Log 52 (DEDUCED). -/
def orFlags (l : List Nat) : Nat := (l.foldl (· ||| ·) 0) &&& 0x79

/-- The angle sample made from four records (R360). Log 52 (DEDUCED). -/
def angleItem (out chn : Nat) (t : Stamp) (rs : List Item) (s : State) : Item :=
  let e := rs.all fun r => r.flags.testBit 2
  let fl := orFlags (rs.map (·.flags))
  let b := fl.testBit 4
  let pts := rs.map fun r => (recInst chn r s, if e then f32Frac r.value else Frac.ofInt r.value.toInt)
  let v := lagrange pts (Frac.ofInt (t.total : Int))
  let value : Word :=
    if b then noValue e
    else if e then (f32OfFrac v).1
    else BitVec.ofInt 32 (clampInt (-0x7FFFFFFF) 0x7FFFFFFF v.roundEven)
  { t := t, src := srcId out s, kind := .sample, value := value,
    flags := (if b then fl &&& 0x71 else fl) ||| (b2n e * 4) ||| (xOf t * 2), payload := [] }

/-- TRACK_OUTPUT (R359–R361): the next angle sample is released once its edges and input records are there; at a whole revolution the speed too. Log 52 (DEDUCED). -/
def execTrackOutput (t : QNum) (s : State) : Out3 :=
  analogue (fun s =>
    let k := t.val
    let x := track k s
    if x.en = false ∨ x.state ≠ 2 then s
    else
      match angleInstant x with
      | none => s
      | some (tj, i0) =>
        match around tj x.ins with
        | none => s
        | some rs =>
          let s := emit (angleItem (wbits x.cfg1 16 9) (wbits x.cfg0 0 9) tj rs s) s
          let whole := decide (x.j % x.spr = 0)
          let s := modTrack k (fun y =>
            { y with j := y.j + 1, edges := y.edges.drop (i0 - y.base), base := max y.base i0,
                     ins := y.ins.dropWhile fun r => match rs with
                       | a :: _ => Stamp.lt r.t a.t
                       | [] => false,
                     rev0 := if whole then some tj else y.rev0 }) s
          match x.rev0, whole with
          | some r0, true =>
            let v := (f32OfFrac (Frac.mk2 60000000000 (tj.total - r0.total))).1
            let s := modTrack k (fun y => { y with spd := v, revs := (y.revs + 1) % 65536 }) s
            let sl := wbits x.cfg1 0 9
            if sl = 0 then s
            else emit { t := tj, src := srcId sl s, kind := .sample, value := v, flags := 4 + xOf tj * 2, payload := [] } s
          | _, _ => s) s

/-- A released fine record goes to the tracks of its channel (R360). -/
def feedTracks (c : Nat) (i : Item) (s : State) : State :=
  (s.svc.tracks.map (·.1)).foldl (fun s k =>
    let x := track k s
    if x.en ∧ wbits x.cfg0 0 9 = c then modTrack k (fun x => { x with ins := x.ins ++ [i] }) s else s) s

/-- Whether the slots of a unit of services are computed slots clear of every other user's (R340, R369). Log 52 (DEDUCED). -/
def unitSlotsOk (user : Nat) (slots : List Nat) (s : State) : Bool :=
  slots.all fun sl => decide (320 ≤ sl) && decide (sl ≤ 447) && slotsClear user sl sl s

/-- TRACK_ENABLE (R369): a write of TRCFG0. -/
def execTrackEnable (r : Req) (v : Word) (s : State) : Out3 :=
  .next (gated r pgORD (fun s =>
    let k := (rfGet 0x50040 s).toNat % 16
    let x := track k s
    if x.en then
      (if wbit v 31 then s else setTrackState k 0 (modTrack k (fun x => { x with cfg0 := x.cfg0 &&& 0x7FFFFFFF, edges := [], ins := [], j := 0, base := 0, rev0 := none }) s))
    else
      let s := modTrack k (fun x => { x with cfg0 := v &&& 0x7FFF81FF }) s
      if wbit v 31 = false then s
      else
        let out := wbits x.cfg1 16 9
        let spd := wbits x.cfg1 0 9
        let err := if s.fuse.hx000 then 2 else if unitSlotsOk (16 + k) (out :: (if spd = 0 then [] else [spd])) s = false ∨ out = spd then 1 else 0
        if err ≠ 0 then modTrack k (fun x => { x with err := err }) s
        else setTrackState k 1 (modTrack k (fun x => { x with cfg0 := x.cfg0 ||| 0x80000000, err := 0, edges := [], ins := [], j := 0, base := 0, rev0 := none }) s)) s)

/-! ## Weigh sections (R363–R366) -/

/-- The channels of a section. -/
def Sect.cells (x : Sect) : List Nat :=
  [wbits x.ch01 0 9, wbits x.ch01 16 9, wbits x.ch23 0 9, wbits x.ch23 16 9].take (wbits x.cfg 18 2 + 1)
def Sect.en (x : Sect) : Bool := wbit x.cfg 31
/-- SETTLE in ns. -/
def Sect.settleNs (x : Sect) : Nat := wbits x.time 16 16 * 1000000
/-- TAREMIN in ns. -/
def Sect.tareNs (x : Sect) : Nat := wbits x.time 0 16 * 1000000

/-- The records of a section's channels in a span. -/
def Sect.within (x : Sect) (a b : Stamp) : List CellRec := x.recs.filter fun r => Stamp.le a r.t && Stamp.lt r.t b

/-- The mean of Σx over records (R363): each channel's mean in units of range code 0's full scale, added up. -/
def meanSum (cells : List Nat) (l : List CellRec) : Frac :=
  Frac.sum (cells.map fun c =>
    let rs := l.filter (·.slot = c)
    Frac.div (Frac.sum (rs.map fun r => Frac.mk2 r.code (0x60000000 * 4 ^ r.range))) (Frac.ofInt (rs.length : Int)))

/-- Whether every channel of a section has a record at or after an instant. -/
def Sect.reached (x : Sect) (t : Stamp) : Bool := x.cells.all fun c => x.recs.any fun r => decide (r.slot = c) && Stamp.le t r.t

/-- A span that has ended gives its tare once its last records are there (R365). -/
def takeTare (k : Nat) (s : State) : State :=
  let x := sect k s
  match x.spanned with
  | none => s
  | some (a, b) =>
    if x.reached b then
      let v := (f32OfFrac (meanSum x.cells (x.within a b))).1
      modSect k (fun x => { x with spanned := none, tare := v, hasTare := true }) s
    else s

/-- A ready fine record goes to the sections of its channel (R363, R366). -/
def feedSects (c : Nat) (r : CellRec) (s : State) : State :=
  (s.svc.sects.map (·.1)).foldl (fun s k =>
    let x := sect k s
    if x.en ∧ x.cells.contains c then takeTare k (modSect k (fun x => { x with recs := x.recs ++ [r] }) s) else s) s

/-- A record of a channel turns out to carry B at its release (R94): the sections hold it so. -/
def spoilSects (c : Nat) (t : Stamp) (s : State) : State :=
  (s.svc.sects.map (·.1)).foldl (fun s k =>
    modSect k (fun x => { x with recs := x.recs.map fun r => if r.slot = c ∧ r.t = t then { r with flags := r.flags ||| 16 } else r }) s) s

/-- The entry eye blocks (R363, R365): an empty span ends, a parcel enters; one not yet at the exit is cut. -/
def entryBlock (t : Stamp) (x : Sect) : Sect :=
  let sp := match x.span0 with
    | some a => if x.tareNs ≤ t.total - a.total ∧ Stamp.lt a t then some (a, t) else x.spanned
    | none => x.spanned
  { x with spanned := sp, span0 := none, inside := x.inside + 1,
           on := (x.on.map fun p => if p.t2 = none ∧ p.cut = none then { p with cut := some t } else p) ++ [{ t0 := t }] }

/-- The last parcel without one takes its t1. -/
def entryClear (t : Stamp) (x : Sect) : Sect :=
  { x with on := x.on.map fun p => if p.t1 = none then { p with t1 := some t } else p }

/-- The first parcel without one takes its t2. -/
def exitBlock (t : Stamp) : List Parcel → List Parcel
  | [] => []
  | p :: ps => if p.t2 = none then { p with t2 := some t } :: ps else p :: exitBlock t ps

/-- The exit eye clears: a parcel has left; with none on the section an empty span opens after SETTLE. -/
def exitClear (t : Stamp) (x : Sect) : Sect :=
  let n := x.inside - 1
  { x with inside := n, span0 := if n = 0 then some (t.plus x.settleNs) else x.span0 }

/-- A stamped edge at the eyes of a section. -/
def eyeEdge (k pin : Nat) (level : Bool) (t : Stamp) (s : State) : State :=
  let x := sect k s
  if x.en = false ∨ s.pwr.stopped then s
  else
    let blocked := level == wbit x.cfg 20
    let s := if wbits x.cfg 26 5 = pin then modSect k (if blocked then entryBlock t else entryClear t) s else s
    if wbits x.cfg 21 5 = pin then modSect k (fun x => if blocked then { x with on := exitBlock t x.on } else exitClear t x) s else s

/-- Whether a parcel is LONG (R364). -/
def Parcel.long (p : Parcel) : Bool :=
  match p.t1, p.t2 with
  | some a, some b => Stamp.le b a
  | none, some _ => true
  | _, none => false

/-- t_end of a parcel, once known (R363, R364): t1 for a LONG one, else t2 or the next entry-eye block. -/
def Parcel.tEnd (p : Parcel) : Option Stamp :=
  if p.long then p.t1
  else
    match p.cut, p.t2 with
    | some c, some b => some (Stamp.min c b)
    | some c, none => some c
    | none, b => b

/-- The belt speed of a section in m/s, and SPEED (R364). -/
def beltSpeed (x : Sect) (s : State) : Frac × Bool :=
  let src := wbits x.cfg 13 5
  if 16 ≤ src then (Frac.mk2 (wbits x.spd 0 16 : Int) 1000, false)
  else
    let t := track src s
    (Frac.mul (f32Frac t.spd) (Frac.mk2 (wbits x.spd 16 16 : Int) 60000), decide (t.state ≠ 2))

/-- WEIGH_RELEASE (R364, R366): the three records of the oldest finished parcel, each with the OR of its window's flags (R47) and no value under B (R48); B also of a window record whose hold has shown it (R94). Log 52 (DEDUCED). -/
def execWeighRelease (sec : Fin 4) (s : State) : Out3 :=
  analogue (fun s =>
    let k := sec.val
    let x := sect k s
    match x.on with
    | [] => s
    | p :: rest =>
      match p.tEnd, p.t1 with
      | some te, some t1 =>
        if x.reached te = false ∧ x.cells.any (fun c => (chan c s).duty.isSome) then s
        else
          let ws := t1.plus x.settleNs
          let win := x.within ws te
          let short := decide (te.total < ws.total + 2000000)
          let late := x.cells.any fun c => (chan c s).ready.any fun r => Stamp.le ws r.item.t && Stamp.lt r.item.t te && openHits c r.w0 r.w1 s
          let fl := orFlags (win.map (·.flags)) ||| (b2n late * 16)
          let b := fl.testBit 4
          let ovlp := p.cut.isSome && !p.long && decide (p.cut = some te)
          let sp := beltSpeed x s
          let none_ := p.long || short || !x.hasTare || b || win.isEmpty
          let kg := if none_ then f32NaN else (f32OfFrac (Frac.mul (f32Frac x.gain) (Frac.sub (meanSum x.cells win) (f32Frac x.tare)))).1
          let len := if sp.2 then f32NaN else (f32OfFrac (Frac.mul sp.1 (Frac.mk2 ((t1.total : Int) - p.t0.total) nsPerSec))).1
          let st := b2n p.long + b2n ovlp * 2 + b2n short * 4 + b2n (!x.hasTare) * 8 + b2n sp.2 * 16
          let base := wbits x.cfg 0 9
          let xf := xOf te * 2
          let item (i : Nat) (v : Word) (e : Bool) : Item :=
            { t := te, src := srcId (base + i) s, kind := .feature, value := if b then noValue e else v,
              flags := (if b then fl &&& 0x71 else fl) ||| (b2n e * 4) ||| xf, payload := [] }
          let s := emit (item 2 (BitVec.ofNat 32 st) false) (emit (item 1 len true) (emit (item 0 kg true) s))
          let keep := match rest with
            | q :: _ => (match q.t1 with
                | some a => a
                | none => q.t0)
            | [] => te
          let s := modSect k (fun x =>
            { x with on := rest, parcels := (x.parcels + 1) % 65536, flagged := if st = 0 then x.flagged else (x.flagged + 1) % 65536,
                     recs := x.recs.filter fun r => Stamp.le (match x.spanned with
                       | some (a, _) => Stamp.min a keep
                       | none => (match x.span0 with
                           | some a => Stamp.min a keep
                           | none => keep)) r.t }) s
          let s := if p.long then raise pgORD ordLONG k s else s
          let s := if ovlp then raise pgORD ordOVLP k s else s
          let s := if short then raise pgORD ordSHORT k s else s
          if x.hasTare then s else raise pgORD ordNOTARE k s
      | _, _ => s) s

/-- SECTION_ENABLE (R369): a write of WCFG. -/
def execSectionEnable (r : Req) (v : Word) (s : State) : Out3 :=
  .next (gated r pgORD (fun s =>
    let k := (rfGet 0x50060 s).toNat % 4
    let x := sect k s
    if x.en then (if wbit v 31 then s else modSect k (fun x => { x with cfg := x.cfg &&& 0x7FFFFFFF, on := [], recs := [], inside := 0, span0 := none, spanned := none }) s)
    else
      let s := modSect k (fun x => { x with cfg := v &&& 0x7FFFE1FF }) s
      if wbit v 31 = false then s
      else
        let base := wbits v 0 9
        let err := if s.fuse.hx000 then 2 else if unitSlotsOk (32 + k) [base, base + 1, base + 2] s then 0 else 1
        if err ≠ 0 then modSect k (fun x => { x with werr := err }) s
        else modSect k (fun x => { x with cfg := x.cfg ||| 0x80000000, werr := 0, on := [], recs := [], inside := 0, span0 := none, spanned := none }) s) s)

/-! ## DIN pins (R219, R356, R357) -/

/-- The logical level of a pin from its ball. -/
def Din.logical (d : Din) (ball : Bool) : Bool := xor ball (wbit d.cfg 27)

/-- Whether a logical edge is selected (R370). -/
def Din.selects (d : Din) (rise : Bool) : Bool :=
  wbit d.cfg 31 && (match wbits d.cfg 29 2 with
    | 0 => rise
    | 1 => !rise
    | 2 => true
    | _ => false)

/-- A pin's ball takes a level; the services see it while EN is 1, and the reflex map follows. Log 51 (DEDUCED). -/
def dinLevel (pin : Nat) (ball : Bool) (s : State) : State :=
  reflex (modDin pin (fun d => { d with ball := ball, level := if wbit d.cfg 31 then d.logical ball else d.level }) s)

/-- DIN_LEVEL_CHANGE (R353): a change that is no selected or stamped edge. -/
def execDinLevelChange (pin : Fin 32) (level : Bool) (s : State) : Out3 := .next (dinLevel pin.val level s)

/-- The edges a pin holds unstamped (R219). -/
def Din.fill (d : Din) (up : Nat) : Nat := (d.busyTo - up + 99) / 100

/-- A stamped edge of a pin (R356, R359, R363). -/
def stampEdge (pin : Nat) (rise : Bool) (t : Stamp) (s : State) : State :=
  let s := modDin pin (fun d => { d with edges := (d.edges + 1) % 65536, last := t, rise := rise, busyTo := max d.busyTo s.tim.up + 100 }) s
  let d := din pin s
  let s := latch pgDIN pin s
  let s := if wbit d.cfg 28 ∧ acts 9 (keyDin pin) s then
      emit { t := t, src := srcId 507 s, kind := .event, value := mkWord [(24, 8, pin), (16, 8, 0x51), (15, 1, b2n rise), (0, 15, d.edges)],
             flags := xOf t * 2, payload := [] } s
    else s
  let s := (s.svc.tracks.map (·.1)).foldl (fun s k => if (track k s).en ∧ wbits (track k s).cfg0 28 3 = pin then trackEdge k t s else s) s
  (s.svc.sects.map (·.1)).foldl (fun s k => eyeEdge k pin rise t s) s

/-- DIN_EDGE (R219, R356): an edge at the ball; a pulse shorter than 10 ns is ignored, its return edge with it, as is an edge to the level held; a selected one of a hub in service is stamped, or lost at a full pin. Log 51 (DEDUCED). -/
def execDinEdge (pin : Fin 32) (e : BallEdge) (s : State) : Out3 :=
  let d := din pin.val s
  let rise := d.logical e.rising
  if d.ball = e.rising ∨ e.width < 10 then .next s
  else
    let s := dinLevel pin.val e.rising s
    if d.selects rise = false ∨ s.tim.inserv = false then .next s
    else if 8 ≤ d.fill s.tim.up then .next (modDin pin.val (fun d => { d with lost := (d.lost + 1) % 65536 }) s)
    else .next (stampEdge pin.val rise (now s) s)

/-! ## TOUT pins (R220, R358, R371) -/

/-- TSEL. -/
def tsel (s : State) : Nat := (rfGet 0x52040 s).toNat % 16

/-- The logical state of a pin set; each change is an edge. -/
def setTout (n : Nat) (on : Bool) (s : State) : State :=
  let before := toutBall n s
  driveTout n before (modTout n (fun p => { p with state := on, edges := if p.state = on then p.edges else (p.edges + 1) % 65536 }) s)

/-- The action code of the end of a pulse. -/
def actPulseEnd : Nat := 4

/-- A schedule put among others in instant order; one of the same instant is replaced (R220). Log 51 (DEDUCED). -/
def putSched (x : Sched) : List Sched → List Sched
  | [] => [x]
  | y :: l => if x.t = y.t ∧ y.act ≠ actPulseEnd then x :: l else if Stamp.lt x.t y.t then x :: y :: l else y :: putSched x l

/-- The schedules of a pin that count toward its four. -/
def Tpin.queued (p : Tpin) : Nat := (p.q.filter fun x => decide (x.act ≠ actPulseEnd)).length

/-- What a schedule does to its pin now (R371). -/
def doSched (n : Nat) (x : Sched) (s : State) : State :=
  match x.act with
  | 0 => setTout n false s
  | 1 => setTout n true s
  | 2 => setTout n (!(tout n s).state) s
  | 3 => setTout n true (modTout n (fun p => { p with q := putSched { t := (now s).plus (x.pw * 100), per := 0, pw := 0, act := actPulseEnd } p.q }) s)
  | _ => setTout n false s

/-- TOUT_SCHEDULE_FIRE (R220): the first schedule of a pin acts; a periodic one is queued again. -/
def execToutScheduleFire (pin : QNum) (s : State) : Out3 :=
  let n := pin.val
  match (tout n s).q with
  | [] => .next s
  | x :: rest =>
    if s.tim.inserv = false ∨ wbit (tout n s).cfg 31 then .next s
    else
      let s := modTout n (fun p => { p with q := rest }) s
      let s := if x.per = 0 then s else modTout n (fun p => { p with q := putSched { x with t := x.t.plus x.per } p.q }) s
      .next (doSched n x s)

/-- The first instant at or after a periodic schedule's on which its edges may lie (R220): whole seconds plus multiples of the period. -/
def onPeriod (t : Stamp) (per : Nat) : Stamp :=
  let g := min per nsPerSec
  if per = 0 then t else Stamp.ofTotal t.epoch ((t.total + g - 1) / g * g)

/-- The first instant of a periodic schedule at least 2 µs ahead. -/
def nextPeriod (t : Stamp) (per : Nat) (s : State) : Stamp :=
  let due := (now s).total + 2000
  if due ≤ t.total ∨ per = 0 then t else t.plus ((due - t.total + per - 1) / per * per)

/-- TOUT_SCHEDULE (R220, R358): a write of SCH_CTRL without CANCEL; with SCH_PER = 0 it is one-shot (R371). Log 51 (DEDUCED). -/
def execToutSchedule (r : Req) (v : Word) (s : State) : Out3 :=
  .next (gated r pgTOUT (fun s =>
    let n := tsel s
    let p := tout n s
    let ns := (rfGet 0x52058 s).toNat
    let periodic := wbit v 2 && granted 7 r s
    let per := if periodic then (rfGet 0x5205C s).toNat else 0
    let x : Sched := { t := onPeriod ⟨s.tim.epoch, (rfGet 0x52054 s).toNat * 2 ^ 32 + (rfGet 0x52050 s).toNat, ns⟩ per, per := per, pw := max 1 (wbits v 12 20), act := wbits v 0 2 }
    let same := p.q.any fun y => decide (y.t = x.t) && decide (y.act ≠ actPulseEnd)
    let err :=
      if 4 ≤ p.queued ∧ same = false then 1
      else if wbit p.cfg 31 then 2
      else if per ≠ 0 ∧ nsPerSec % per ≠ 0 ∧ per % nsPerSec ≠ 0 then 3
      else if nsPerSec ≤ ns then 4
      else 0
    let s := modTout n (fun p => { p with err := err }) s
    if err = 1 then raiseOnce pgTOUT (16 + n) n n s
    else if err ≠ 0 then s
    else if x.t.total < (now s).total + 2000 ∧ s.tim.inserv then
      let s := raiseOnce pgTOUT n n n (modTout n (fun p => { p with late := (p.late + 1) % 65536 }) s)
      let s := if per = 0 then s else modTout n (fun p => { p with q := putSched { x with t := nextPeriod x.t per s } p.q }) s
      doSched n x s
    else modTout n (fun p => { p with q := putSched x p.q }) s) s)

/-- TOUT_CANCEL (R371): the queue is emptied and ERR is 0; a pulse under way ends as it would. Log 51 (DEDUCED). -/
def execToutCancel (r : Req) (_v : Word) (s : State) : Out3 :=
  .next (gated r pgTOUT (fun s => modTout (tsel s) (fun p => { p with err := 0, q := p.q.filter fun x => decide (x.act = actPulseEnd) }) s) s)

/-- TOUT_OWNER_WRITE (R358): a write of TCFG; a change of OWNER clears the queue and the logical state. Log 51 (DEDUCED). -/
def execToutOwnerWrite (r : Req) (v : Word) (s : State) : Out3 :=
  .next (gated r pgTOUT (fun s =>
    let n := tsel s
    let before := toutBall n s
    driveTout n before (modTout n (fun p =>
      if wbit p.cfg 31 = wbit v 31 then { p with cfg := v &&& 0xC0000000 }
      else { p with cfg := v &&& 0xC0000000, q := [], state := false }) s)) s)

/-- What an epoch change does to the schedules (R220): one-shots keep their physical instant, periodic ones go on from their first edge on the new grid. `d` is Δ in ns. Log 59 (DEDUCED). -/
def shiftScheds (d : Int) (s : State) : State :=
  let mv (x : Sched) : Sched :=
    if x.per = 0 then { x with t := Stamp.ofTotal s.tim.epoch ((x.t.total : Int) + d).toNat }
    else { x with t := Stamp.ofTotal s.tim.epoch (((now s).total + x.per - x.t.total % x.per) / x.per * x.per + x.t.total % x.per) }
  (s.svc.touts.map (·.1)).foldl (fun s n => modTout n (fun p => { p with q := p.q.foldl (fun q x => putSched (mv x) q) [] }) s) s

end Sys2Proof.Machine
end

