-- ==== Sys2Proof/Machine/Relief.lean ====
section
/-! DEFINITION. The relief converter (R104–R130): the tasks it serves, rotation, overlapped handovers and their checks, range requests, hard switches, retirement. -/

namespace Sys2Proof.Machine

/-! ## Registers and causes (R129, R130, R154, R175) -/

def relFAIL : Nat := 0
def relFORCED : Nat := 1
def relRETIRED : Nat := 2
def relNORELIEF : Nat := 3
def relCONVLOST : Nat := 4
def relHARD : Nat := 5
def relMODOVL : Nat := 8
def relREGRID : Nat := 9
def relRATESET : Nat := 10
def tatSWAP : Nat := 24
def tatOVERRUN : Nat := 25
def tatDROP : Nat := 26
def tatREJ : Nat := 27

/-- The detail of a converter cause (R130): converter and channel index, 0xFF where none applies. -/
def convDetail (conv idx : Nat) : Nat := conv % 256 * 256 + idx % 256
/-- A cause of a group. -/
def groupRaise (g bit detail : Nat) (s : State) : State := raise (pgGroup g) bit detail s
/-- GEN of a group follows DUTY, RELIEF, RETIRED and FILT_STAT. -/
def groupGen (g : Nat) (s : State) : State := bumpGen (pgGroup g) s

/-- RELIEF_CTRL. -/
def reliefCtrl (g : Nat) (s : State) : Word := rfGet (pgGroup g * 4096 + 0x40) s
/-- RANGE_CTRL. -/
def rangeCtrl (g : Nat) (s : State) : Word := rfGet (pgGroup g * 4096 + 0x44) s
/-- The check limit L in codes (R112). -/
def tolCodes (g : Nat) (s : State) : Nat := max 1 (wbits (reliefCtrl g s) 20 8) * 1610612736 / 1000000
/-- N_CHK. -/
def checkRecords (g : Nat) (s : State) : Nat := max 1 (wbits (reliefCtrl g s) 16 4)
def arWide (g : Nat) (s : State) : Nat := wbits (rangeCtrl g s) 0 2
def arNarrow (g : Nat) (s : State) : Nat := wbits (rangeCtrl g s) 2 2
def hardWait (g : Nat) (s : State) : Nat := wbits (rangeCtrl g s) 4 12
/-- The up-range threshold in 1/64 of full scale. -/
def upFrac (g : Nat) (s : State) : Nat := max 16 (wbits (rangeCtrl g s) 20 6)
/-- Records a down-range trigger needs. Log 56 (DEDUCED). -/
def downRecords (g : Nat) (s : State) : Nat := 2 ^ wbits (rangeCtrl g s) 16 4
/-- Whether autoranging applies to a channel (R120). -/
def autoranges (c : Nat) (s : State) : Bool :=
  let g := grpOf c
  wbit (rfGet (pgGroup g * 4096 + 0x48) s) (idxOf c) && decide (arWide g s ≤ arNarrow g s)

/-! ## Chains and windows (R133, R136, R139) -/

/-- The output period of a channel. -/
def perOf (c : Nat) (s : State) : Int := periodTk (isFast c) (ew (chan c s).w 1)
/-- W/2 of a channel. -/
def halfOf (c : Nat) (s : State) : Int := halfTk (isFast c) (ew (chan c s).w 1)
/-- The first output instant of a channel whose fine window starts at or after an instant. -/
def firstStarting (c : Nat) (t : Int) (s : State) : Int := gridUp (perOf c s) (t + halfOf c s)
/-- Whether a channel has an output grid (R102, R152). -/
def hasGrid (w : List Word) : Bool := decide (eCls w ≠ 0) && !eNofine w
/-- The converter of a channel, 0xFF where it has none. -/
def convOf (c : Nat) (s : State) : Nat := ((chan c s).duty).getD 0xFF
/-- C is due from an instant on (R46, R184): at the first record there, with whether a calibration table is the cause. -/
def cDue (t : Int) (tab : Bool) (l : List (Int × Bool)) : List (Int × Bool) := l ++ [(t, tab)]
/-- The channel whose duty converter this is. -/
def dutyChan (g conv : Nat) (s : State) : Option Nat := (groupSlots g).find? fun c => decide ((chan c s).duty = some conv)

/-! ## Extrapolation (R184) -/

/-- A converter in use outside its table, at the group temperature in force. -/
def extrapConv (g : Nat) (s : State) : Option Nat :=
  let t := (grp g s).temp
  let one (c : Nat) : Option Nat :=
    let x := chan c s
    if eCls x.w = 0 then none
    else match x.duty, x.coarse with
    | some v, some u =>
      if outside (table g v x.range s) t then some v
      else if u ≠ v ∧ outside (table g u x.range s) t then some u else none
    | some v, none => if outside (table g v x.range s) t then some v else none
    | none, some u => if outside (table g u x.range s) t then some u else none
    | none, none => none
  let early : Option Nat := match (grp g s).ovl, (grp g s).relief with
    | some o, some r =>
      (match o.coarseAt with
       | some a => if a ≤ nowTk s ∧ outside (table g r o.target s) t then some r else none
       | none => none)
    | _, _ => none
  match (groupSlots g).filterMap one with
  | v :: _ => some v
  | [] => early

/-- EXTRAP judged anew: at a reading, a change of duty, of the coarse stream or of a range. -/
def judgeExtrap (g : Nat) (s : State) : State :=
  let was := (grp g s).extrap
  match extrapConv g s with
  | some v =>
    if was then s
    else raise pgCAL calEXTRAP (convDetail g v) (condStart pgCAL calEXTRAP g (modGrp g (fun x => { x with extrap := true }) s))
  | none => if was then condEnd pgCAL calEXTRAP g (modGrp g (fun x => { x with extrap := false }) s) else s

/-! ## Tattoo requests on the relief (R161) -/

/-- The Tattoo sequencer of a group. -/
def tat (g : Nat) (s : State) : Tat := (grp g s).tat
/-- The Tattoo sequencer changed. -/
def modTat (g : Nat) (f : Tat → Tat) (s : State) : State := modGrp g (fun x => { x with tat := f x.tat }) s
/-- The opcode of a Tattoo word. -/
def tatOp (w : Word) : Nat := wbits w 28 4

/-- A deferred request dropped (R161). -/
def dropDeferred (g : Nat) (w : Word) (s : State) : State :=
  raiseOnce (pgGroup g) tatDROP 0 (tatOp w) (modTat g (fun t => { t with cntDrop := (t.cntDrop + 1) % 65536 }) s)

/-- A request deferred to the end of the list; the fifth deferral of a frame is dropped (R161). -/
def deferTail (g : Nat) (w : Word) (s : State) : State :=
  if 4 ≤ (tat g s).defs then dropDeferred g w s else modTat g (fun t => { t with deferred := t.deferred ++ [w], defs := t.defs + 1 }) s

/-- A request that loses the relief goes back to the head of the list (R108, R161): it is no new deferral, so no limit drops it. Log 58 (DEDUCED). -/
def deferHead (g : Nat) (w : Word) (s : State) : State := modTat g (fun t => { t with deferred := w :: t.deferred }) s

/-- The sequencer goes on with the next word. -/
def tatNext (g : Nat) (s : State) : State := modTat g (fun t => { t with pc := t.pc + 1, task := none, wait := none, skip := false }) s

/-- Whether a Tattoo word holds the relief as a lead step or a calibration step. -/
def onRelief (w : Word) : Bool := decide (tatOp w = 3) || decide (tatOp w = 5) || decide (tatOp w = 6)

/-- A Tattoo task that loses the relief re-enters the deferred list; the sequencer goes on where it stood on it. Log 58 (DEDUCED). -/
def requeueTat (g : Nat) (s : State) : State :=
  match (tat g s).deferRun with
  | some w => deferHead g w (modTat g (fun t => { t with deferRun := none }) s)
  | none =>
    match (tat g s).task with
    | some w => if onRelief w then deferHead g w (tatNext g s) else s
    | none => s

/-! ## Who holds the relief (R108) -/

/-- The task that holds the relief; 8 for a forced self-test window. -/
def Group.holder (x : Group) : Nat := if x.fwin then 8 else x.task

/-- Whether a task takes the relief from another (R108). Tasks as RELIEF_STAT.TASK codes them; 8 a forced self-test window. -/
def takesFrom (t held : Nat) : Bool :=
  match t with
  | 4 => [0, 1, 2, 3, 5].contains held
  | 6 => [0, 1, 2, 5].contains held
  | 8 => [0, 1, 2, 5].contains held
  | 3 => [0, 1, 2].contains held
  | 5 => [0, 1, 2].contains held
  | _ => decide (held = 0)

/-- Whether a task may have the relief of a group now. -/
def mayTake (t : Nat) (x : Group) : Bool := x.relief.isSome && x.freed.isNone && takesFrom t x.holder

/-- Whether the relief has ranges due and so calibrates while it is free (R188, R189). -/
def reliefDue (x : Group) : Bool :=
  match x.relief with
  | some r => decide (FMap.get (fun _ => 0) x.due r ≠ 0) || x.again.any fun k => decide (k.1 = r)
  | none => false

/-- Whether the analogue check of R438 runs on a group. -/
def checking (g : Nat) (s : State) : Bool := s.bst.achkBusy && decide (s.bst.achkGrp = g)

/-- The relief falls free: idle, or calibrating where a campaign has it due or an analogue check goes on (R438). Log 56 (DEDUCED). -/
def freeRelief (g : Nat) (s : State) : State :=
  modGrp g (fun x => { x with task := if reliefDue x ∨ (x.relief.isSome ∧ checking g s) then 1 else 0, tgt := 0, trange := 0, fwin := false }) s

/-- The analogue check ends (R438): BUSY 0, its result and ACHK_DONE. -/
def endCheck (err res : Nat) (s : State) : State :=
  raise pgBST bstACHKDONE res (s.modBst fun b => { b with achkBusy := false, achkErr := err, achkRes := res })

/-- An overlap ends without a changeover, its relief free; GEN follows DUTY.OVL. -/
def dropOvl (g : Nat) (s : State) : State := groupGen g (freeRelief g (modGrp g (fun x => { x with ovl := none }) s))

/-- An overlap is cancelled (R116): the incumbent keeps the channel. -/
def cancelOvl (g : Nat) (s : State) : State :=
  judgeExtrap g (dropOvl g (modGrp g (fun x => { x with cancels := (x.cancels + 1) % 65536 }) s))

/-- The task that holds the relief gives it up (R108). -/
def dropTask (g : Nat) (s : State) : State :=
  let x := grp g s
  match x.task with
  | 1 => requeueTat g s
  | 2 => abandonSlice g s
  | 3 =>
    match x.ovl with
    | some o => cancelOvl g (modGrp g (fun x => { x with retry := some o.ch }) s)
    | none => s
  | 5 => requeueTat g s
  | _ => s

/-- A task takes the relief: task, channel index, range at which the relief runs. -/
def takeRelief (g task idx range : Nat) (s : State) : State :=
  modGrp g (fun x => { x with task := task, tgt := idx, trange := range }) (dropTask g s)

/-! ## Hard switches (R126) -/

/-- A hard switch is decided: it is made at the first coarse boundary strictly after now. Log 56 (DEDUCED). -/
def decideHard (c range : Nat) (s : State) : State :=
  let tc := coarseTk (isFast c)
  if (chan c s).duty.isNone then s else modChan c (fun x => { x with swTo := some ((nowTk s).fdiv tc * tc + tc, range) }) s

/-- A range change made as a hard switch raises HARD, at most once a second in a group (R127, R130). Log 56 (DEDUCED). -/
def hardRange (c range : Nat) (s : State) : State :=
  if (chan c s).duty.isNone then s
  else
    let g := grpOf c
    let s := decideHard c range s
    let soon := match (grp g s).hardAt with
      | some t => decide (s.tim.up < t + nsPerSec)
      | none => false
    if soon then s
    else groupRaise g relHARD (convDetail (convOf c s) (idxOf c)) (modGrp g (fun x => { x with hardAt := some s.tim.up }) s)

/-- The requests that wait when a group loses its relief are made at once, in queue order (R124, R127). Log 56 (DEDUCED). -/
def drainQueue (g : Nat) (s : State) : State :=
  let le (a b : RReq) : Bool := decide (a.age < b.age) || (decide (a.age = b.age) && decide (a.ch ≤ b.ch))
  let q := sortBy le (grp g s).q
  q.foldl (fun s r => hardRange r.ch r.target s) (modGrp g (fun x => { x with q := [] }) s)

/-! ## Overlaps (R111) -/

/-- An overlap begins: the relief connected 3 µs after the request, or re-ranged now; an O of the incumbent since the request stands (R123). -/
def startOvl (g c : Nat) (range : Bool) (target attempt : Nat) (req : RReq) (tc : Int) (s : State) : State :=
  let tq := nowTk s
  let ns := firstStarting c (tc + settleTk (isFast c)) s
  let o : Ovl := { ch := c, range := range, target := target, tq := tq, tc := tc, ns := ns, req := req, attempt := attempt, overrun := req.isOver }
  groupGen g (modGrp g (fun x => { x with ovl := some o, task := if range then 4 else 3, tgt := idxOf c, trange := target }) s)

/-- The relief connects within 3 µs of a request (R108, R111). Log 53 (DEDUCED). -/
def connectTk : Int := 3072000

/-- The relief is taken for an overlap. -/
def takeOvl (g c : Nat) (range : Bool) (target : Nat) (req : RReq) (s : State) : State :=
  startOvl g c range target 0 req (nowTk s + connectTk) (takeRelief g (if range then 4 else 3) (idxOf c) target s)

/-! ## Rotation (R110) -/

/-- Whether a channel settles, under R85, after a hard switch or after a rate change (R110, R150). -/
def settling (c : Nat) (s : State) : Bool :=
  let x := chan c s
  x.settle || x.pendF || x.swTo.isSome || x.spans.any fun p => decide (nowTk s < p.upTo)

/-- Whether rotation may take a channel (R110). Log 56 (DEDUCED). -/
def eligible (c : Nat) (s : State) : Bool :=
  let x := chan c s
  let g := grp (grpOf c) s
  decide (eCls x.w ≠ 0) && x.duty.isSome && !x.isOpen && !(g.q.any fun r => decide (r.ch = c)) &&
    !(match g.ovl with
      | some o => decide (o.ch = c)
      | none => false) && !settling c s

/-- The channel of the next rotation: that of a cancelled one, else the next eligible in ascending index after the previous target. -/
def rotTarget (g : Nat) (s : State) : Option Nat :=
  let x := grp g s
  let n := groupSize g
  let retry := match x.retry with
    | some c => if eligible c s then some c else none
    | none => none
  match retry with
  | some c => some c
  | none => ((List.range n).map fun k => slotAt g ((x.last + 1 + k) % (if x.last < n then n else x.last + 1) % n)).find? (eligible · s)

/-- A rotation handover is started, or waits for the relief, or is skipped. -/
def rotate (g : Nat) (s : State) : State :=
  let x := grp g s
  if x.relief.isNone ∨ s.pwr.stopped then s
  else if mayTake 3 x = false then modGrp g (fun x => { x with rotWait := true }) s
  else
    let s := modGrp g (fun x => { x with rotWait := false }) s
    match rotTarget g s with
    | none => s
    | some c =>
      let s := modGrp g (fun x => { x with last := idxOf c, retry := none }) s
      takeOvl g c false (chan c s).range ⟨c, (chan c s).range, nowTk s, 2, false⟩ s


/-- RELIEF_FORCE (R110, R129). -/
def execReliefForce (r : Req) (g : Grp) (s : State) : Out3 := analogue (gated r (pgGroup g.val) (rotate g.val)) s

/-! ## Completion of a campaign (R189) -/

/-- Whether a converter is in service. -/
def inServiceConv (g v : Nat) (s : State) : Bool := !(grp g s).retired.testBit v
/-- Converters of a group still due. -/
def dueConvs (g : Nat) (s : State) : List Nat :=
  (List.range (groupSize g + 1)).filter fun v => inServiceConv g v s && decide (FMap.get (fun _ => 0) (grp g s).due v ≠ 0)
/-- Whether a Tattoo request holds the relief. -/
def tatHolds (g : Nat) (s : State) : Bool :=
  (tat g s).deferRun.isSome || (match (tat g s).task with
    | some w => onRelief w
    | none => false)

/-- A campaign completes when no in-service converter is due but those of channels that rotation cannot take now; one on an unused channel is calibrated in place and waits for no rotation. Log 57 (DEDUCED). -/
def judgeCamp (g : Nat) (s : State) : State :=
  let stays (v : Nat) : Bool := match dutyChan g v s with
    | some c => !(eligible c s) && decide (eCls (chan c s).w ≠ 0)
    | none => false
  if (grp g s).camp = false ∨ !((dueConvs g s).all stays) then s
  else
    let s := modGrp g (fun x => { x with camp := false, tref := x.temp, trefOk := true, camps := (x.camps + 1) % 65536, blocked := false, blkRaised := false }) s
    let s := if (grp g s).task = 1 ∧ tatHolds g s = false then freeRelief g s else s
    bumpGen pgCAL (raise pgCAL calCAMPDONE (g * 256) (condEnd pgCAL calBLOCKED g s))

/-- A campaign under way in a group without a relief is blocked (R190): BLOCKED once. -/
def blockCamp (g : Nat) (s : State) : State :=
  if (grp g s).camp = false then s
  else if (grp g s).blkRaised then modGrp g (fun x => { x with blocked := true }) s
  else raise pgCAL calBLOCKED (g * 256) (condStart pgCAL calBLOCKED g (modGrp g (fun x => { x with blocked := true, blkRaised := true }) s))

/-- A campaign starts in a group, or every converter is due again (R188–R190); a frozen group starts none. Log 57 (DEDUCED). -/
def startCamp (g : Nat) (s : State) : State :=
  if wbit (rfGet 0x08044 s) g then s
  else
    let x := grp g s
    let due := ((List.range (groupSize g + 1)).filter fun v => inServiceConv g v s).foldl (fun m v => FMap.put (fun _ => 0) m v 15) x.due
    let s := modGrp g (fun x => { x with due := due, camp := true, task := if x.task = 0 ∧ x.relief.isSome ∧ x.freed.isNone ∧ x.fwin = false then 1 else x.task }) s
    let s := if x.camp then s else bumpGen pgCAL (raise pgCAL calCAMPSTART (g * 256) s)
    if (grp g s).relief.isNone then blockCamp g s else s

/-- The first sample of a group after power-on starts a campaign (R188). -/
def beginGroup (g : Nat) (s : State) : State :=
  if (grp g s).begun then s else startCamp g (modGrp g (fun x => { x with begun := true }) s)

/-! ## Retirement (R117, R119, R128) -/

/-- A converter is retired: RETIRED; the group loses its relief, or the channel its converter; a range handover in progress becomes a hard switch. Log 56 (DEDUCED). -/
def retireConv (g conv : Nat) (s : State) : State :=
  let x := grp g s
  let s := modGrp g (fun y => { y with retired := putBit y.retired conv true, due := FMap.put (fun _ => 0) y.due conv 0, runChks := y.runChks.filter (·.1 ≠ conv), again := y.again.filter (·.1 ≠ conv) }) s
  let s := groupRaise g relRETIRED (convDetail conv 0xFF) (groupGen g s)
  if x.relief = some conv then
    let ho := match x.chk with
      | some k => k.ho
      | none => x.ovl
    let s := modGrp g (fun y => { y with relief := none, task := 0, tgt := 0, trange := 0, fwin := false, chk := none, ovl := none, rotWait := false }) s
    let s := endSlice g 1 (groupRaise g relNORELIEF (convDetail conv 0xFF) s)
    let s := blockCamp g s
    let s := if checking g s then endCheck 1 0x8000 s else s
    let s := match ho with
      | some o => if o.range ∧ !(chan o.ch s).isOpen then hardRange o.ch o.target s else s
      | none => s
    judgeCamp g (judgeExtrap g (drainQueue g s))
  else
    match dutyChan g conv s with
    | some c =>
      let s := modChan c (fun y => { y with duty := none, coarse := none, nextT := none }) s
      judgeCamp g (judgeExtrap g (groupRaise g relCONVLOST (convDetail conv (idxOf c)) (groupGen g s)))
    | none => s

/-- The rotation tick period of a group in ns (R129, R188): a quarter of it, and no less than 0.25 s, while a campaign runs in haste. -/
def rotPerNs (g : Nat) (s : State) : Nat :=
  let p := max 25 (wbits (reliefCtrl g s) 0 12) * 10000000
  if (grp g s).camp ∧ wbit (rfGet 0x08040 s) 8 then max 250000000 (p / 4) else p

/-- ROTATION_TICK (R110, R188): no tick falls less than the period after the last. Log 56 (DEDUCED). -/
def execRotationTick (g : Grp) (s : State) : Out3 :=
  analogue (fun s =>
    if s.tim.up < (grp g.val s).tickUp + rotPerNs g.val s then s
    else
      let s := modGrp g.val (fun x => { x with tickUp := s.tim.up }) s
      if wbit (reliefCtrl g.val s) 31 then rotate g.val (judgeCamp g.val s) else s) s

/-! ## Range requests (R120–R125) -/

/-- A queued request of a channel. -/
def queued (g c : Nat) (s : State) : Option RReq := (grp g s).q.find? fun r => decide (r.ch = c)
/-- A channel's request leaves the queue. -/
def unqueue (g c : Nat) (s : State) : State := modGrp g (fun x => { x with q := x.q.filter fun r => decide (r.ch ≠ c) }) s

/-- A request against the queue (R124): one entry a channel, and the age kept. -/
def enqueue (r : RReq) (s : State) : State :=
  let g := grpOf r.ch
  match queued g r.ch s with
  | some q => if r.kind = 1 then s else modGrp g (fun x => { x with q := x.q.map fun y => if y.ch = r.ch then { q with target := r.target, kind := r.kind } else y }) s
  | none => modGrp g (fun x => { x with q := x.q ++ [r] }) s

/-- Whether a channel's requests wait for a rate change (R150). -/
def rateBusy (c : Nat) (s : State) : Bool := (chan c s).settle || (chan c s).pendF

/-- The oldest request that may be served (R124). -/
def oldestReq (g : Nat) (s : State) : Option RReq :=
  (grp g s).q.foldl (fun a r =>
    if rateBusy r.ch s then a
    else match a with
      | none => some r
      | some b => if r.age < b.age ∨ (r.age = b.age ∧ r.ch < b.ch) then some r else some b) none

/-- The oldest request is served where the relief is to be had; without a relief it is a hard switch (R124, R127). -/
def serveQueue (g : Nat) (s : State) : State :=
  match oldestReq g s with
  | none => s
  | some r =>
    if (grp g s).relief.isNone then hardRange r.ch r.target (unqueue g r.ch s)
    else if mayTake 4 (grp g s) then takeOvl g r.ch true r.target r (unqueue g r.ch s)
    else s

/-- The relief of an overlap is re-ranged (R125): settling restarts. -/
def reRange (g : Nat) (o : Ovl) (target : Nat) (req : RReq) (s : State) : State :=
  let t := nowTk s
  let s := startOvl g o.ch true target o.attempt { req with isOver := req.isOver || (o.range && o.overrun) } t s
  modGrp g (fun x => { x with ovl := x.ovl.map fun n => { n with tq := if o.range then o.tq else t } }) s

/-- A range request arises (R120–R125, R127, R150): channel, target, age, kind. -/
def requestRange (r : RReq) (s : State) : State :=
  let g := grpOf r.ch
  let x := chan r.ch s
  if x.duty.isNone then s
  else if x.isOpen then (if r.kind = 2 then hardRange r.ch r.target s else s)
  else
    let mine := match (grp g s).ovl with
      | some o => if o.ch = r.ch then some o else none
      | none => none
    match mine with
    | some o =>
      if o.range then
        (if r.kind = 1 then s
         else if r.kind = 0 then
           (if x.range < o.target then cancelOvl g s
            else if r.target < o.target then reRange g o r.target o.req s else s)
         else if r.target = o.target then s
         else reRange g o r.target { o.req with target := r.target, kind := 2 } s)
      else if r.target = x.range then s
      else reRange g o r.target r s
    | none =>
      if r.target = x.range then unqueue g r.ch s
      else if (grp g s).relief.isNone ∧ rateBusy r.ch s = false then hardRange r.ch r.target s
      else serveQueue g (enqueue r s)

/-- HARD_WAIT_EXPIRY (R124). -/
def execHardWaitExpiry (c : Chn) (s : State) : Out3 :=
  analogue (fun s =>
    let g := grpOf c.val
    match queued g c.val s with
    | some r => if r.kind = 0 ∧ hardWait g s ≠ 0 then hardRange c.val r.target (unqueue g c.val s) else s
    | none => s) s

/-- RELIEF_TASK_START (R108, R110, R124): the relief is free; the oldest range request takes it, else a waiting rotation. -/
def execReliefTaskStart (g : Grp) (s : State) : Out3 :=
  analogue (fun s =>
    let x := grp g.val s
    if (oldestReq g.val s).isSome ∧ (mayTake 4 x ∨ x.relief.isNone) then serveQueue g.val s
    else if x.rotWait ∧ mayTake 3 x then rotate g.val s
    else s) s

/-! ## The hard switch itself (R126) -/

/-- HARD_SWITCH at t_sw: the PGA changes, the flags of R126 are due. -/
def execHardSwitch (c : Chn) (s : State) : Out3 :=
  analogue (fun s =>
    let g := grpOf c.val
    match (chan c.val s).swTo with
    | none => s
    | some (t, range) =>
      let moved := decide ((chan c.val s).range ≠ range)
      let s := closeRuns c.val (modChan c.val (fun x =>
        { x with swTo := none, swAt := some t, range := range, rngOld := histPut t x.range x.rngOld, dn := 0,
                 cAt := cDue (t - halfTk (isFast c.val) (ew x.w 1)) false x.cAt, spans := x.spans ++ [⟨false, t, t + settleTk (isFast c.val)⟩] }) s)
      let s := if moved then groupGen g (modGrp g (fun x => { x with hoRng := (x.hoRng + 1) % 65536 }) s) else s
      judgeExtrap g s) s

/-! ## Check and changeover (R112–R117, R123) -/

/-- A difference of R112 in 1/64 code of the wider range. Log 13 (DEDUCED). -/
def checkDiff (rel relRange inc incRange : Int) : Int :=
  if incRange < relRange then rel * 64 / 4 ^ (relRange - incRange).toNat - inc * 64
  else rel * 64 - inc * 64 / 4 ^ (incRange - relRange).toNat

/-- The changeover is decided (R107, R111, R114): the relief is the duty converter from the changeover record on and supplies the coarse stream; H and C are due. -/
def changeover (g : Nat) (o : Ovl) (s : State) : State :=
  match (grp g s).relief, (chan o.ch s).duty with
  | some r, some d =>
    let forced := decide (2 ≤ o.attempt)
    let s := modChan o.ch (fun x => { x with duty := some r, coarse := some r, range := o.target, dn := 0, hDue := true, cAt := (nowTk s - secTk, false) :: x.cAt.filter fun k => !k.2 }) s
    let s := modGrp g (fun x => { x with ovl := none, freed := some (d, forced) }) s
    let s := closeRuns o.ch (groupGen g s)
    let s := if forced then groupRaise g relFORCED (convDetail r (idxOf o.ch)) s else s
    judgeExtrap g s
  | _, _ => s

/-- A failed check (R117): counted, HO_FAIL, the overlap ended, the relief runs a reference check. -/
def failCheck (g : Nat) (o : Ovl) (s : State) : State :=
  match (grp g s).relief with
  | none => s
  | some r =>
    let s := modGrp g (fun x =>
      { x with tolf := (x.tolf + 1) % 65536, ovl := none, task := 7, tgt := 0, trange := o.target,
               chk := some ⟨o.attempt + 1, r, o.target, some o⟩ }) s
    judgeExtrap g (groupRaise g relFAIL (convDetail r (idxOf o.ch)) (groupGen g s))

/-- Every check record excluded (R116): a rotation is retried at the next tick, a range request returns to the queue with its age. -/
def allExcluded (g : Nat) (o : Ovl) (s : State) : State :=
  let s := cancelOvl g s
  if o.range then enqueue { o.req with target := o.target } s else modGrp g (fun x => { x with retry := some o.ch }) s

/-- The check judged once its records exist on both chains (R112, R113, R117 step 4). -/
def judgeCheck (g : Nat) (o : Ovl) (s : State) : State :=
  if 2 ≤ o.attempt then changeover g o s
  else if o.diffs = [] then allExcluded g o s
  else
    let n := o.diffs.length
    let sum := sumInt o.diffs
    let l : Int := tolCodes g s
    let s := modGrp g (fun x => { x with lastDiff := (Frac.mk2 sum (64 * n)).roundEven }) s
    if sum.natAbs ≤ l.toNat * 64 * n ∧ o.diffs.all fun d => decide (d.natAbs ≤ 8 * 64 * l.toNat) then changeover g o s
    else failCheck g o s

/-- A check record that exists on both chains is compared (R112). -/
def compareRecord (g : Nat) (o : Ovl) (t : Int) (incRange : Nat) (s : State) : State :=
  match o.inc.find? (·.1 = t), o.rel.find? (·.1 = t) with
  | some i, some r =>
    let d := checkDiff r.2.1 o.target i.2.1 incRange
    let o := { o with inc := o.inc.filter (·.1 ≠ t), rel := o.rel.filter (·.1 ≠ t),
                      diffs := if i.2.2 || r.2.2 then o.diffs else o.diffs ++ [d], checked := o.checked + 1 }
    let s := modGrp g (fun x => { x with ovl := some o }) s
    if checkRecords g s ≤ o.checked then judgeCheck g o s else s
  | _, _ => s

/-- INCUMBENT_RELEASE (R107, R111, R117 step 5): the freed incumbent becomes the relief, or is checked at each range first. -/
def execIncumbentRelease (g : Grp) (s : State) : Out3 :=
  analogue (fun s =>
    let x := grp g.val s
    match x.freed with
    | none => s
    | some (d, forced) =>
      let s := modGrp g.val (fun x =>
        { x with freed := none, relief := some d,
                 hoRot := if x.task = 3 then (x.hoRot + 1) % 65536 else x.hoRot,
                 hoRng := if x.task = 4 then (x.hoRng + 1) % 65536 else x.hoRng }) s
      let s := groupGen g.val s
      if forced then modGrp g.val (fun x => { x with task := 7, tgt := 0, trange := 0, chk := some ⟨3, d, 0, none⟩ }) s
      else judgeCamp g.val (freeRelief g.val s)) s

/-- A handover is started once more after a reference check (R117 steps 3 and 4); not on an input that has opened or lost its converter meanwhile. Log 56 (DEDUCED). -/
def restartHandover (g : Nat) (o : Ovl) (attempt : Nat) (s : State) : State :=
  let x := chan o.ch s
  if x.duty.isNone ∨ x.isOpen then freeRelief g s
  else startOvl g o.ch o.range (if o.range then o.target else x.range) attempt o.req (nowTk s + connectTk) s

/-- The reference check that follows a rejected run ends (R186): the converter is retired, or the run is repeated once. -/
def runCheckDone (g conv : Nat) (u : Int × Int × Int) (s : State) : State :=
  match (grp g s).runChks.find? (·.1 = conv) with
  | none => s
  | some k =>
    let good := refCheckOk g conv k.2 u s
    let s := modGrp g (fun x => { x with runChks := x.runChks.erase k }) s
    if good = false then retireConv g conv s
    else
      let s := modGrp g (fun x => { x with again := k :: x.again }) s
      if (grp g s).relief = some conv ∧ (grp g s).task = 7 then freeRelief g s else s

/-- REFERENCE_CHECK_DONE (R117, R118, R186): a converter's means in 2^−40 of full scale on the shorted input and the two references, at the range of its check. -/
def execReferenceCheckDone (g : Grp) (m : ConvMeas) (s : State) : Out3 :=
  analogue (fun s =>
    match (grp g.val s).chk with
    | some k =>
      if k.conv = m.conv.val then
        let good := refCheckOk g.val m.conv.val k.range (m.u0, m.up, m.un) s
        if good = false then modGrp g.val (fun x => { x with chk := none }) (retireConv g.val m.conv.val s)
        else
          let s := modGrp g.val (fun x => { x with chk := none }) s
          match k.why, k.ho with
          | 1, some o => restartHandover g.val o 1 s
          | 2, some o => restartHandover g.val o 2 s
          | _, _ =>
            if 3 ≤ k.range then freeRelief g.val s
            else modGrp g.val (fun x => { x with task := 7, trange := k.range + 1, chk := some { k with range := k.range + 1 } }) s
      else runCheckDone g.val m.conv.val (m.u0, m.up, m.un) s
    | none => runCheckDone g.val m.conv.val (m.u0, m.up, m.un) s) s

end Sys2Proof.Machine
end

