-- ==== Sys2Proof/Machine/Channel.lean ====
section
/-! DEFINITION. Samples: the coarse stream and open inputs (R84–R97, R121, R143–R145), fine records and their release (R46–R54, R94–R96, R112, R122, R123, R146, R147), overloads (R142), lead steps (R75, R76), the synthesisers (R134). -/

namespace Sys2Proof.Machine

/-! ## Windows met by what spoils them -/

/-- Whether an overload interval of a converter intersects a window (R142). -/
def overloaded (g conv : Nat) (w0 w1 : Int) (s : State) : Bool :=
  (grp g s).ovls.any fun v => decide (v.1 = conv) && decide (v.2.1 ≤ w1) && decide (w0 ≤ v.2.2)

/-! ## The coarse stream (R143–R145) -/

/-- The weights of a coarse window (R143). -/
def coarseWeights : List Int := [1, 2, 3, 4, 5, 6, 7, 8, 8, 7, 6, 5, 4, 3, 2, 1]

/-- The chain output of a coarse window: the weighted sum of 16 modulator samples, each in 2^−30 of full scale, over the gain of 72. Log 54 (DEDUCED). -/
def coarseOut (mods : List Int) : Frac :=
  Frac.mk2 (sumInt ((coarseWeights.zip mods).map fun p => p.1 * p.2)) (72 * 2 ^ 30)

/-- The channel that a converter's coarse window serves, and the converter's range: the relief in an overlap once the coarse stream has passed to it (R111, R123). -/
def coarseUser (g conv : Nat) (w0 : Int) (s : State) : Option (Nat × Nat) :=
  let passed := match (grp g s).ovl, (grp g s).relief with
    | some o, some r =>
      (match o.coarseAt with
       | some a => if a ≤ w0 then some (o.ch, r, o.target) else none
       | none => none)
    | _, _ => none
  match passed with
  | some (c, r, t) =>
    if conv = r then some (c, t)
    else ((groupSlots g).find? fun k => decide (k ≠ c) && decide ((chan k s).coarse = some conv)).map fun k => (k, rangeAt (chan k s) w0)
  | none => ((groupSlots g).find? fun k => decide ((chan k s).coarse = some conv)).map fun k => (k, rangeAt (chan k s) w0)

/-- Coarse samples kept for Q records (R54): the latest, and of the earlier ones each that some output instant calls for. -/
def keepHist (per : Int) (oldest : Int) (n : CoarseS) (l : List CoarseS) : List CoarseS :=
  let l := match l with
    | p :: ps => if gridUp per p.at_ < n.at_ then p :: ps else ps
    | [] => []
  n :: l.filter fun p => decide (oldest ≤ p.at_)

/-- The open-input decision (R89, R95, R97, R116, R125): the break instant, OPEN, the overlap cancelled, queued requests dropped, a queued committed RANGE made as a hard switch. Log 54 (DEDUCED). -/
def openDecision (c : Nat) (brk : Int) (s : State) : State :=
  let g := grpOf c
  let s := modChan c (fun x => { x with isOpen := true, brk := some brk, brkEnd := none, rail := 0, mon := 0, off := 0, dn := 0 }) s
  let s := bumpGen pgCHW s
  let mine := match (grp g s).ovl with
    | some o => decide (o.ch = c)
    | none => false
  let s := if mine then cancelOvl g s else s
  let s := match queued g c s with
    | some r => (if r.kind = 2 then hardRange c r.target else id) (unqueue g c s)
    | none => s
  inputCause c inOPEN (condStart (pgGroup g) inOPEN c s)

/-- The open state has ended and its first record without B is released (R96), or there is no such record: CLOSED. Log 54 (DEDUCED). -/
def closedNow (c : Nat) (s : State) : State :=
  let s := bumpGen pgCHW (modChan c (fun x => { x with isOpen := false }) s)
  inputCause c inCLOSED (condEnd (pgGroup (grpOf c)) inOPEN c s)

/-- The open state ends at an instant (R96): the first window that starts there carries no B. Log 54 (DEDUCED). -/
def endOpen (c : Nat) (t : Int) (s : State) : State :=
  let s := modChan c (fun x => { x with brkEnd := some t, off := 0, rail := 0, mon := 0 }) s
  if hasGrid (chan c s).w then s else closedNow c s

/-- Whether a code lies at the rail level of a channel (R89). -/
def atRail (w : List Word) (code : Int) : Bool := if eDown w then decide (code ≤ -0x70000000) else decide (0x70000000 ≤ code)

/-- Whether a window of an L channel includes an instant at which its group's excitation is switched off (R81, R97). -/
def excStopped (c : Nat) (w0 w1 : Int) (s : State) : Bool := decide (eCls (chan c s).w = 2) && spanHits (grp (grpOf c) s).offs w0 w1

/-- Detection on one coarse sample (R84, R89, R95–R97): the decision is taken before the sample goes anywhere else; none while the excitation is off; the open state ends at 64 consecutive samples off the rail level. Log 71 (DEDUCED). -/
def detectOpen (c : Nat) (w0 w1 : Int) (code : Int) (aHigh : Bool) (bias : Nat) (s : State) : State :=
  let x := chan c s
  let w := x.w
  let rail := decide (eBo w = 1) && !isIepe w && atRail w code
  let mon := (isRtd w && aHigh) || (isIepe w && decide (biasHiMv (grp (grpOf c) s) s < bias))
  let tc := w1 - w0
  let s := modChan c (fun y => { y with bias := bias, rail := if rail then y.rail + 1 else 0, mon := if mon then y.mon + 1 else 0 }) s
  let y := chan c s
  let met := decide (2 ≤ y.rail) || decide (2 ≤ y.mon)
  if x.isOpen then
    if x.brkEnd.isSome then (if met then modChan c (fun y => { y with brkEnd := none, off := 0 }) s else s)
    else if atRail w code then modChan c (fun y => { y with off := 0 }) s
    else if x.off + 1 < 64 then modChan c (fun y => { y with off := y.off + 1, offEnd := if y.off = 0 then w1 else y.offEnd }) s
    else endOpen c x.offEnd s
  else if met ∧ excStopped c w0 w1 s = false then openDecision c (w0 - tc - eLook w * tc) s
  else s

/-- The bias monitor against BIAS_LO (R84): SHORT after sixteen consecutive samples below it. Log 71 (DEDUCED). -/
def detectShort (c bias : Nat) (s : State) : State :=
  if isIepe (chan c s).w = false then s
  else if wbits (grp (grpOf c) s).w 0 10 * 100 ≤ bias then
    (if (chan c s).biasLow = 0 then s
     else condEnd (pgGroup (grpOf c)) inSHORT c (modChan c (fun x => { x with biasLow := 0, short := false }) s))
  else
    let s := modChan c (fun x => { x with biasLow := min 16 (x.biasLow + 1) }) s
    if (chan c s).biasLow = 16 ∧ (chan c s).short = false then
      inputCause c inSHORT (condStart (pgGroup (grpOf c)) inSHORT c (modChan c (fun x => { x with short := true }) s))
    else s

/-- An up-range trigger (R120, R121): its target lies from AR_WIDE to AR_NARROW. -/
def upTrigger (c range : Nat) (code w1 : Int) (s : State) : State :=
  let g := grpOf c
  if autoranges c s = false ∨ (chan c s).isOpen ∨ range ≤ arWide g s then s
  else if code.natAbs * 64 < upFrac g s * 0x60000000 then s
  else requestRange ⟨c, if 0x60000000 ≤ code.natAbs then arWide g s else max (arWide g s) (min (range - 1) (arNarrow g s)), w1, 0, false⟩ s

/-- An incumbent coarse sample beyond full scale in a range overlap passes the coarse stream to the relief (R123). Log 54 (DEDUCED). -/
def coarseBeyond (g c : Nat) (w1 : Int) (s : State) : State :=
  match (grp g s).ovl with
  | some o =>
    if o.ch = c ∧ o.range ∧ o.coarseAt = none ∧ o.tc + settleTk (isFast c) ≤ w1 then
      judgeExtrap g (modGrp g (fun x => { x with ovl := some { o with coarseAt := some (gridUp (coarseTk (isFast c)) (max (o.tc + settleTk (isFast c)) w1)) } }) s)
    else s
  | none => s

/-- COARSE_SAMPLE (R71, R143–R145): converter, window, its 16 modulator samples in 2^−30 of full scale, the pins, the bias in mV. Log 8 (DESIGN CHOICE), 54 (DEDUCED). -/
def execCoarseSample (g : Grp) (conv : Fin 17) (sec m : Nat) (mods : List Int) (pins : PinState) (bias : Nat) (s : State) : Out3 :=
  analogue (fun s =>
    let fast := decide (16 ≤ g.val)
    let tc := coarseTk fast
    let w0 : Int := (sec : Int) * secTk + (m : Int) * tc
    let w1 := w0 + tc
    match coarseUser g.val conv.val w0 s with
    | none => s
    | some (c, range) =>
      let x := chan c s
      let skipped : Bool := match x.skipAt with
        | some t => decide (w0 ≤ t) && decide (t < w1)
        | none => false
      if eCls x.w = 0 ∨ skipped ∨ sampled c w0 w0 s = false then s
      else
        let s := beginGroup g.val s
        let r := correct g.val conv.val range c w1 w1 (coarseOut mods) s
        let switching : Bool := match x.swAt with
          | some t => decide (w0 ≤ t) && decide (t < w1)
          | none => false
        let o := r.2 || pins.cm || overloaded g.val conv.val w0 w1 s || spanHits x.clamps w0 w1 || switching
        let at_ := coarseInst fast (if x.tr.isSome then x.old1 else ew x.w 1) w0
        let n : CoarseS := { at_ := at_, stamp := tkStamp s at_, code := r.1, range := range, o := o }
        let per := min (periodTk fast (ew x.w 1)) (periodTk fast x.old1)
        let s := modChan c (fun y => { y with hist := keepHist per (at_ - 2 * max (halfTk fast (ew y.w 1)) (halfTk fast y.old1) - 2 * secTk / 125) n y.hist }) s
        let s := detectShort c bias (detectOpen c w0 w1 r.1 pins.aHigh bias s)
        let b := ((chan c s).isOpen && (chan c s).brkEnd.isNone) || excStopped c w0 w1 s
        let s := if switching then s else compareSample c range r.1 b (o && !b) n.stamp s
        let s := if switching then s else upTrigger c range r.1 w1 s
        if r.2 then coarseBeyond g.val c w1 s else s) s

/-! ## Fine records (R133, R141, R146) -/

/-- The instant of a ready record. -/
def ReadyRec.tt (r : ReadyRec) : Int := (r.w0 + r.w1) / 2

/-- A ready record among those that wait, in ascending order of instants (R147). -/
def putReady (r : ReadyRec) (l : List ReadyRec) : List ReadyRec := l.takeWhile (fun k => decide (k.tt ≤ r.tt)) ++ r :: l.dropWhile fun k => decide (k.tt ≤ r.tt)

/-- Whether a record of the old setting is still to come before the rate boundary (R149). -/
def oldDue (x : Chan) : Bool :=
  match x.tb, x.nextT with
  | some b, some n => decide (n < b)
  | _, _ => false

/-- Whether an instant lies at or past a channel's rate boundary. -/
def pastBound (x : Chan) (t : Int) : Bool :=
  match x.tb with
  | some b => decide (b ≤ t)
  | none => false

/-- The instant of the next record not yet produced after one of instant `tt` at period `per`: the rate boundary once the old setting's last is there, or the one after those of the new setting already produced; records of the new setting overtake none of the old (R147, R149). -/
def nextInst (c : Nat) (x : Chan) (tt per : Int) : Option Int :=
  match x.tb with
  | some b =>
    if oldDue x ∧ b ≤ tt then x.nextT
    else if tt < b ∧ b ≤ tt + per then
      (if eNofine x.w then none else some (x.ready.foldl (fun m r => if b ≤ r.tt then max m (r.tt + periodTk (isFast c) (ew x.w 1)) else m) b))
    else some (tt + per)
  | none => some (tt + per)

/-- The request a channel has waiting or is being served notes an O of the incumbent (R123). -/
def noteO (c : Nat) (w1 : Int) (s : State) : State :=
  modGrp (grpOf c) (fun x => { x with q := x.q.map fun r => if r.ch = c ∧ r.age ≤ w1 then { r with isOver := true } else r }) s

/-- What a record is made from (R46, R52–R54): its stamp on the grid, code and O, or under Q those of the coarse sample it reports, in codes of the record's range. -/
def recordValue (x : Chan) (q : Bool) (range : Nat) (t : Stamp) (tt per : Int) (code : Int) (o : Bool) : Stamp × Int × Bool :=
  match if q then x.hist.find? fun k => decide (k.at_ ≤ tt) else none with
  | some k =>
    let r := reCode k.code k.range range
    (k.stamp, r.1, k.o || r.2)
  | none => (Stamp.ofTotal t.epoch ((exactTk per t).toNat / 1024), code, o)

/-- A record counts toward a down-range trigger, or breaks the count (R120, R122, R124). -/
def countDown (c range : Nat) (code w1 : Int) (spoilt : Bool) (s : State) : State :=
  let g := grpOf c
  let calm := autoranges c s && !(chan c s).isOpen && decide (range = (chan c s).range) && decide (range + 1 ≤ arNarrow g s) && !spoilt && decide (code.natAbs < 80530636)
  if calm = false then
    let s := modChan c (fun y => { y with dn := 0 }) s
    match queued g c s with
    | some r => if r.kind = 1 then unqueue g c s else s
    | none => s
  else if (chan c s).dn + 1 < downRecords g s then modChan c (fun y => { y with dn := y.dn + 1 }) s
  else requestRange ⟨c, max (range + 1) (arWide g s), w1, 1, false⟩ (modChan c (fun y => { y with dn := 0 }) s)

/-- A record is ready (R46, R53, R54, R146): Q and H under the spans it lies in, C where due, its window and earliest release beside it. Log 55 (DEDUCED). -/
def produce (c range : Nat) (t : Stamp) (code : Int) (o cm : Bool) (s : State) : State :=
  let x := chan c s
  let fast := isFast c
  let w1r := settingAt x t s
  let per := periodTk fast w1r
  let half := halfTk fast w1r
  let tt := instTk per t s
  let w0 := tt - half
  let w1 := tt + half
  if eCls x.w = 0 ∨ wbit w1r 23 ∨ sampled c w0 tt s = false then s
  else
    let q := x.spans.any fun p => decide (w0 < p.upTo) && decide (p.since ≤ if p.byT then tt else w1)
    let v := recordValue x q range t tt per code o
    let o := v.2.2 || cm || spanHits x.clamps w0 w1
    let l := valueOf c v.2.1 tt w1 s
    let s := if l.2.1 ∧ eTsrc [0, 0, (linFor c tt s).1] = 2 then noteSubst c l.2.2.2 s else s
    let cf := x.cAt.any fun a => decide (a.1 ≤ tt)
    let h := q || x.hDue
    let i : Item := { t := v.1, src := srcId c s, kind := .sample, value := l.1, payload := [],
                      flags := flagsOf q h false (o || l.2.2.1) l.2.1 (xOf v.1) cf }
    let first := x.settle && !h && (match x.tb with
      | some b => decide (b ≤ tt)
      | none => true)
    let n : ReadyRec := ⟨i, w0, w1, if q then 0x1F else wbits w1r 27 5, max (nowTk s) (w1 + holdTk c v.2.1 s), first⟩
    let s := modChan c (fun y =>
      { y with ready := putReady n y.ready, hDue := false, cAt := y.cAt.filter (fun a => !(decide (a.1 ≤ tt))), nextT := nextInst c x tt per,
               spans := y.spans.filter fun p => decide (w0 - secTk < p.upTo),
               clamps := y.clamps.filter fun k => match k.2 with
                 | some e => decide (w0 - secTk ≤ e)
                 | none => true,
               linOld := histDrop tt y.linOld, leadsOld := histDrop tt y.leadsOld, tabOld := histDrop tt y.tabOld, rngOld := histDrop tt y.rngOld }) s
    let b := openHits c w0 w1 s
    let s := feedSects c ⟨c, v.1, v.2.1, range, i.flags ||| (b2n b * 16)⟩ s
    let s := if o then noteO c w1 s else s
    countDown c range code w1 (q || o || b) s

/-- A fine value of the incumbent during an overlap (R111–R113, R123), with whether it carries O and whether it is excluded. -/
def incumbentRecord (g c : Nat) (o : Ovl) (t : Stamp) (tt w1 : Int) (code : Int) (isOver excl cm : Bool) (s : State) : State :=
  let range := rangeAt (chan c s) w1
  if tt < o.ns then
    let o := { o with overrun := o.overrun || (o.range && isOver && decide (o.req.age ≤ w1)) }
    let s := modGrp g (fun x => { x with ovl := some o }) s
    let s := produce c range t code isOver cm s
    match (grp g s).ovl with
    | some o' => if o'.ch = c ∧ o'.overrun ∧ o'.ns ≤ tt + perOf c s then changeover g o' s else s
    | none => s
  else if o.range ∧ isOver then
    let s := changeover g o s
    match o.rel.find? (·.1 = tt) with
    | some r => produce c o.target t r.2.1 r.2.2 false s
    | none => s
  else
    let s := produce c range t code isOver cm s
    match (grp g s).ovl with
    | some o' =>
      if o'.ch = c ∧ o'.tc = o.tc ∧ o'.ns ≤ tt then
        compareRecord g { o' with inc := o'.inc ++ [(tt, code, excl)] } tt range s
      else s
    | none => s

/-- A fine value of the relief during an overlap: the settled record and those after it (R111); O in a down-range handover cancels it (R116). -/
def reliefRecord (g c : Nat) (o : Ovl) (tt : Int) (code : Int) (isOver excl : Bool) (s : State) : State :=
  if tt < o.ns then s
  else if o.range ∧ (chan c s).range < o.target ∧ isOver then modChan c (fun x => { x with dn := 0 }) (cancelOvl g s)
  else
    let o := { o with rel := o.rel ++ [(tt, code, excl)] }
    compareRecord g o tt (chan c s).range (modGrp g (fun x => { x with ovl := some o }) s)

/-- FINE_RECORD_READY (R112, R123, R135, R138, R146): converter, stamp, the modulator samples of the window in 2^−30 of full scale, a pin outside its common-mode range (R71). Log 8 (DESIGN CHOICE). -/
def execFineRecordReady (g : Grp) (conv : Fin 17) (t : Stamp) (mods : List Int) (cm : Bool) (s : State) : Out3 :=
  analogue (fun s =>
    let mine := match (grp g.val s).ovl with
      | some o => if (grp g.val s).relief = some conv.val then some o else none
      | none => none
    match mine with
    | some o =>
      let w1r := settingAt (chan o.ch s) t s
      let tt := instTk (periodTk (isFast o.ch) w1r) t s
      let w1 := tt + halfTk (isFast o.ch) w1r
      let w0 := tt - halfTk (isFast o.ch) w1r
      let r := correct g.val conv.val o.target o.ch tt w1 (chainOut (isFast o.ch) w1r mods) s
      let isOver := r.2 || cm || overloaded g.val conv.val w0 w1 s || spanHits (chan o.ch s).clamps w0 w1
      reliefRecord g.val o.ch o tt r.1 isOver (isOver || openHits o.ch w0 w1 s) s
    | none =>
      match dutyChan g.val conv.val s with
      | none => s
      | some c =>
        if eCls (chan c s).w = 0 then s
        else
          let s := beginGroup g.val s
          let w1r := settingAt (chan c s) t s
          let tt := instTk (periodTk (isFast c) w1r) t s
          let w1 := tt + halfTk (isFast c) w1r
          let w0 := tt - halfTk (isFast c) w1r
          let range := rangeAt (chan c s) w1
          let r := correct g.val conv.val range c tt w1 (chainOut (isFast c) w1r mods) s
          let isOver := r.2 || overloaded g.val conv.val w0 w1 s
          match (grp g.val s).ovl with
          | some o =>
            if o.ch = c then
              let oc := isOver || cm || spanHits (chan c s).clamps w0 w1
              incumbentRecord g.val c o t tt w1 r.1 oc (oc || openHits c w0 w1 s) cm s
            else produce c range t r.1 isOver cm s
          | none => produce c range t r.1 isOver cm s) s

/-! ## Release (R94–R96, R147, R154, R179) -/

/-- RECORD_RELEASE: the oldest ready record of a slot leaves once its hold is over and no record of the old setting is still to come before it, with B where its window met an open input. Log 54 (DEDUCED). -/
def execRecordRelease (slot : Slot) (s : State) : Out3 :=
  let c := slot.val
  match (chan c s).ready with
  | [] => .next s
  | r :: rest =>
    if nowTk s < r.rel ∨ (oldDue (chan c s) && pastBound (chan c s) r.tt) then .next s
    else
      let s := modChan c (fun x => { x with ready := rest }) s
      let b := openHits c r.w0 r.w1 s
      let e := decide (r.item.flags / 4 % 2 = 1)
      let o := decide (r.item.flags / 8 % 2 = 1) && !b
      let q := decide (64 ≤ r.item.flags)
      let i := if b then { r.item with value := noValue e, flags := flagsOf q (decide (r.item.flags / 32 % 2 = 1)) true false e (r.item.flags / 2 % 2) (decide (r.item.flags % 2 = 1)) } else r.item
      let s := if b then spoilSects c r.item.t s else s
      let s := if b ∨ o ∨ q then s else modChan c (fun x => { x with clean := some (i.t, i.value) }) s
      let s := feedTracks c i (emitSample r.rate i s)
      let s := if consFor .sample c s = [] then s else enterService s
      let x := chan c s
      let shut := x.isOpen && (match x.brkEnd with
        | some t => decide (t ≤ r.w0)
        | none => false)
      let s := if shut then closedNow c s else s
      if r.first ∧ (chan c s).settle then
        let due := (chan c s).rateSet
        let s := groupGen (grpOf c) (modChan c (fun x => { x with settle := false, rateSet := false }) s)
        .next (if due then groupRaise (grpOf c) relRATESET (convDetail (convOf c s) (idxOf c)) s else s)
      else .next s

/-! ## Overloads (R142, R153, R154) -/

/-- The channel that a converter serves, on duty or in an overlap. -/
def servedBy (g conv : Nat) (s : State) : Option Nat :=
  match dutyChan g conv s with
  | some c => some c
  | none => if (grp g s).relief = some conv then (grp g s).ovl.map (·.ch) else none

/-- An overload interval of a converter, in 1/1024 ns of the epoch; those a second old are forgotten. -/
def addOverload (g conv : Nat) (a b : Int) (s : State) : State :=
  modGrp g (fun x => { x with ovls := (conv, a, b) :: x.ovls.filter fun v => decide (nowTk s < v.2.2 + secTk) }) s

/-- MOD_OVERLOAD (R142, R153, R154): start and end in 1/1024 ns of the epoch. One of a converter that serves no channel is counted, leaves CH as it was and raises nothing. Log 79 (DESIGN CHOICE). -/
def execModOverload (g : Grp) (conv : Fin 17) (start stop : Nat) (s : State) : Out3 :=
  analogue (fun s =>
    let s := addOverload g.val conv.val start stop s
    let s := modGrp g.val (fun x => { x with ovCnt := (x.ovCnt + 1) % 65536 }) s
    match servedBy g.val conv.val s with
    | some c => raiseOnce (pgGroup g.val) relMODOVL c (convDetail conv.val (idxOf c)) (modGrp g.val (fun x => { x with ovCh := idxOf c }) s)
    | none => s) s

/-- MODULATOR_RESET (R142): the reset interval is part of the overload interval. -/
def execModulatorReset (g : Grp) (conv : Fin 17) (start stop : Nat) (s : State) : Out3 :=
  analogue (addOverload g.val conv.val start stop) s

/-! ## Lead steps (R75, R76) -/

/-- A Tattoo task on the relief has ended: the deferred one, else the one the sequencer stands on. -/
def tatDone (g : Nat) (s : State) : State :=
  if (tat g s).deferRun.isSome then modTat g (fun t => { t with deferRun := none }) s
  else if (tat g s).task.isSome then tatNext g s
  else s

/-- LEAD_STEP_DONE: V(A) − V(P) in nV at the range the relief ran at. An overrange at ±39.0625 mV repeats the step at ±156.25 mV; a step on an open input is discarded. -/
def execLeadStepDone (g : GGrp) (nv : Int) (isOver : Bool) (s : State) : Out3 :=
  analogue (fun s =>
    let x := grp g.val s
    let c := slotAt g.val x.tgt
    if x.task ≠ 5 then s
    else if isOver ∧ x.trange = 3 ∧ !(chan c s).isOpen then modGrp g.val (fun x => { x with trange := 2 }) s
    else
      let s := if (chan c s).isOpen then s
        else
          let b := (nowTk s).fdiv (perOf c s) * perOf c s + perOf c s
          condEnd (pgGroup g.val) inLEADSTALE c (modChan c (fun y =>
            leadFrom (if hasGrid y.w then b else nowTk s) y { y with leads := (nv :: y.leads).take 4, leadAt := s.tim.up, stale := false }) s)
      tatDone g.val (freeRelief g.val s)) s

/-- LEAD_STALE_TIMER (R76, R162): the last lead measurement is older than 16 × LEAD_PER; with none yet, the age counts from when the channel became 3-wire. Log 79 (DESIGN CHOICE). -/
def execLeadStaleTimer (c : Chn) (s : State) : Out3 :=
  analogue (fun s =>
    let x := chan c.val s
    if is3Wire x.w ∧ x.leadAt + 16 * wbits (ew x.w 3) 8 8 * 10000000 < s.tim.up ∧ condOn (pgGroup (grpOf c.val)) inLEADSTALE c.val s = false then
      inputCause c.val inLEADSTALE (condStart (pgGroup (grpOf c.val)) inLEADSTALE c.val (modChan c.val (fun y => { y with stale := true }) s))
    else s) s

/-! ## Synthesisers (R134) -/

/-- SYN_PHASE_COMPARE: the phase error of one die's synthesiser in 1/128 ns. -/
def execSynPhaseCompare (east : Bool) (err : Int) (s : State) : Out3 :=
  analogue (fun s =>
    let bad := decide (640 < err.natAbs)
    let s := s.modSrv fun v =>
      if east then
        { v with synErr := (v.synErr.1, err), synBad := (v.synBad.1, if bad then v.synBad.2 + 1 else 0), synGood := (v.synGood.1, if bad then 0 else v.synGood.2 + 1) }
      else
        { v with synErr := (err, v.synErr.2), synBad := (if bad then v.synBad.1 + 1 else 0, v.synBad.2), synGood := (if bad then 0 else v.synGood.1 + 1, v.synGood.2) }
    let bit := if east then srvSYNE else srvSYNW
    let nb := if east then s.srv.synBad.2 else s.srv.synBad.1
    let ng := if east then s.srv.synGood.2 else s.srv.synGood.1
    if 16 ≤ nb then raiseOnce pgSRV bit 0 0 s
    else if 16 ≤ ng then condEnd pgSRV bit 0 s
    else s) s

end Sys2Proof.Machine
end

