-- ==== Sys2Proof/Machine/Entries.lean ====
section
/-! DEFINITION. The CHW window and commits of channel and group entries (R100–R103), changes of rate and order (R149, R150), epochs and the grid (R151). -/

namespace Sys2Proof.Machine

/-! ## The window (R100) -/

/-- The selected entry: a group entry or not, and its number. -/
def chwSel (s : State) : Bool × Nat := (wbit (rfGet 0x0E040 s) 9, wbits (rfGet 0x0E040 s) 0 9)
/-- The committed words of an entry; 0 where NUM names none, and for a channel of the HX000. -/
def comWords (e : Bool × Nat) (s : State) : List Word :=
  if e.1 then (if e.2 < 24 then [(grp e.2 s).com, 0, 0, 0] else [0, 0, 0, 0])
  else if e.2 < 320 ∧ s.fuse.hx000 = false then (chan e.2 s).com
  else [0, 0, 0, 0]
/-- The edit buffer, ENTRY0–ENTRY3. -/
def editWords (s : State) : List Word := [rfGet 0x0E050 s, rfGet 0x0E054 s, rfGet 0x0E058 s, rfGet 0x0E05C s]
/-- The committed words of the selected entry copied into the edit buffer. -/
def loadEntry (s : State) : State :=
  let w := comWords (chwSel s) s
  rfPut 0x0E05C (ew w 3) (rfPut 0x0E058 (ew w 2) (rfPut 0x0E054 (ew w 1) (rfPut 0x0E050 (ew w 0) s)))

/-- CHW_SEL_WRITE (R100). -/
def execChwSelWrite (r : Req) (v : Word) (s : State) : Out3 := .next (gated r pgCHW (fun s => loadEntry (rfPut 0x0E040 v s)) s)
/-- CHW_RELOAD (R100). -/
def execChwReload (r : Req) (s : State) : Out3 := .next (gated r pgCHW loadEntry s)

/-! ## Checks of a commit (R68, R69, R100, R101, R152, R180) -/

/-- The bits an entry's words hold. -/
def entryMask : List Word := [0xFFFFE000, 0xFF800000, 0xFFFFFFFF, 0xFFFFFFFF]
/-- An entry's words with their reserved bits 0. -/
def maskEntry (w : List Word) : List Word := (entryMask.zip (w ++ [0, 0, 0, 0])).map fun p => p.1 &&& p.2

/-- Whether a class is allowed for a slot under its group's mode (R68, R69). -/
def classOk (c : Nat) (w : List Word) (s : State) : Bool :=
  let l := wbit (grp (grpOf c) s).com 31
  match eCls w with
  | 0 => true
  | 1 => decide (c < 256) && !l
  | 2 => decide (c < 256) && l
  | _ => decide (256 ≤ c)

/-- Whether a RATE code belongs to a channel's family (R152). Log 57 (DEDUCED). -/
def rateOk (c : Nat) (w : List Word) : Bool :=
  if isFast c then decide (0x10 ≤ eRate w) && decide (eRate w ≤ 0x15) else decide (eRate w ≤ 0x0A)

/-- Whether an entry holds a reserved code (R101, R152). -/
def reservedCode (c : Nat) (w : List Word) : Bool :=
  let cls := eCls w
  (decide (cls = 1) && decide (3 < eWiring w)) || (decide (cls = 2) && decide (0 < eWiring w)) || (decide (cls = 3) && decide (1 < eWiring w)) ||
    decide (eBo w = 3) || decide (16 < eIepe w) || decide (eLook w = 0) || decide (wbits (ew w 3) 8 8 = 0) || !(rateOk c w) ||
    decide (wbits (ew w 1) 25 2 = 3) || (decide (cls = 3) && decide (wbits (ew w 1) 24 3 ≠ 0))

/-- Whether burn-out goes with the wiring (R101). -/
def boOk (w : List Word) : Bool := !(decide (eCls w = 3) && (decide (eBo w = 2) || (decide (eBo w = 1) && decide (eWiring w = 1))))

/-- Whether the linearisation fields are valid (R180). -/
def linOk (c : Nat) (w : List Word) (s : State) : Bool :=
  let k := (chan (eTch w) s).com
  !(eLin w && decide (eCls w = 0)) && decide (eTsrc w ≠ 3) &&
    (decide (eTsrc w ≠ 2) || (decide (eTch w < 320) && decide (eTch w ≠ c) && decide (eCls k ≠ 0) && eLin k && decide (eTsrc k ≠ 2)))

/-- The ERR code of a channel entry's commit, in the order 6, 5, 4, 1, 2, 3, 7. -/
def chanErr (c : Nat) (w : List Word) (s : State) : Nat :=
  if 320 ≤ c then 6
  else if s.fuse.hx000 then 5
  else if (chan c s).busy then 4
  else if classOk c w s = false then 1
  else if reservedCode c w then 2
  else if boOk w = false then 3
  else if linOk c w s = false then 7
  else 0

/-- The ERR code of a group entry's commit. -/
def groupErr (g : Nat) (w : Word) (s : State) : Nat :=
  if 24 ≤ g then 6
  else if (grp g s).busy then 4
  else if g < 16 ∧ wbit w 31 ≠ wbit (grp g s).com 31 ∧ (groupSlots g).any (fun c => decide (eCls (chan c s).com = if wbit w 31 then 1 else 2)) then 1
  else if g < 16 ∧ (wbits w 20 8 = 0 ∨ 20 < wbits w 20 8) then 2
  else 0

/-- A channel entry committed (R100, R153, R179): it waits for its boundary. Log 59 (DEDUCED). -/
def commitChan (c : Nat) (w : List Word) (s : State) : State :=
  let x := chan c s
  let rate := decide (ew x.w 1 ≠ ew w 1)
  let s := modChan c (fun y => { y with com := w, busy := true, pendF := y.pendF || rate, clean := if x.com = w then y.clean else none }) s
  if rate ∧ x.pendF = false then groupGen (grpOf c) s else s

/-- A group entry committed. -/
def commitGroup (g : Nat) (w : Word) (s : State) : State := modGrp g (fun x => { x with com := w, busy := true }) s

/-- The bits a group entry holds: MODE, EXC and LSENSE on general groups alone. -/
def maskGroup (g : Nat) (w : Word) : Word := if g < 16 then w else w &&& 0x0FFFFFFF

/-- ENTRY0–ENTRY3 as they read: bits the selected kind of entry does not hold read 0 (R101). -/
def shownEntry (s : State) : List Word :=
  if (chwSel s).1 then [maskGroup (chwSel s).2 (rfGet 0x0E050 s), 0, 0, 0] else maskEntry (editWords s)

/-- CHW_COMMIT (R100, R102). -/
def execChwCommit (r : Req) (s : State) : Out3 :=
  .next (gated r pgCHW (fun s =>
    let e := chwSel s
    let w := maskEntry (editWords s)
    let err := if e.1 then groupErr e.2 (rfGet 0x0E050 s) s else chanErr e.2 w s
    let s := s.modAna fun a => { a with chwErr := err }
    if err ≠ 0 then s
    else bumpGen pgCHW (if e.1 then commitGroup e.2 (maskGroup e.2 (rfGet 0x0E050 s)) s else commitChan e.2 w s)) s)

/-! ## Linearisation slots with commits pending (R182) -/

/-- A channel uses a slot's old coefficients no longer; the last one completes the slot's change. -/
def linLeave (k c : Nat) (s : State) : State :=
  let l := linSlot k s
  match l.pend with
  | none => s
  | some p =>
    if l.wait.contains c = false then s
    else
      let rest := l.wait.filter (· ≠ c)
      if rest = [] then raise pgCAL calLINSWAP (0xFF00 + k) (modLin k (fun _ => { cur := p }) s)
      else modLin k (fun l => { l with wait := rest }) s

/-! ## Effects of a commit (R85, R102, R116, R149, R181) -/

/-- Seven time constants of the coupling high-pass (R83, R85); a DC-coupled input settles as after a switch. Log 55 (DEDUCED). -/
def couplingTk (w : List Word) : Int :=
  if wbit (ew w 0) 20 = false then settleTk true
  else if wbit (ew w 0) 19 then 1113000000 * 1024 else 11130000000 * 1024

/-- ENTRY1 of the chain that runs at an instant: the old setting's until a rate boundary still ahead (R149). -/
def runningW1 (x : Chan) (t : Int) : Word :=
  match x.tb with
  | some b => if t < b then x.old1 else ew x.w 1
  | none => ew x.w 1

/-- The end of the last old record's window, at which the chain is reconfigured (R149). -/
def reconfigAt (fast : Bool) (tb : Int) (old : List Word) : Int :=
  if hasGrid old then max tb (tb - periodTk fast (ew old 1) + halfTk fast (ew old 1)) else tb

/-- The rate boundary of a change of ENTRY1 that takes effect now (R149). -/
def rateBoundary (c : Nat) (old new : List Word) (s : State) : Int :=
  let fast := isFast c
  let po := periodTk fast (ew old 1)
  let pn := periodTk fast (ew new 1)
  if hasGrid old ∧ hasGrid new then gridUp (max po pn) (nowTk s)
  else if hasGrid old then gridUp po (nowTk s)
  else if hasGrid new then gridUp pn (nowTk s)
  else nowTk s

/-- A change of ENTRY1 under way (R149, R150): the setting that runs goes on to the rate boundary. -/
def startRate (c : Nat) (old new : List Word) (s : State) : State :=
  let tb := rateBoundary c old new s
  modChan c (fun y =>
    { y with old1 := ew old 1, tb := some tb, tr := some (reconfigAt (isFast c) tb old),
             nextT := if hasGrid old then y.nextT else if hasGrid new then some tb else none }) s

/-- A detection that a commit has switched off ends its open state (R499): records from the boundary on carry no B. Log 54 (DEDUCED). -/
def dropDetection (c : Nat) (t : Int) (s : State) : State :=
  let x := chan c s
  if x.isOpen ∧ detects x.w = false then endOpen c (t - halfOf c s) s else s

/-- The lead value of a channel that stops being 3-wire is stale no more; one that becomes so without a measurement counts its age from here (R76, R103). Log 79 (DESIGN CHOICE). -/
def leadWiring (c : Nat) (old new : List Word) (s : State) : State :=
  if is3Wire old ∧ is3Wire new = false then
    condEnd (pgGroup (grpOf c)) inLEADSTALE c (modChan c (fun y => { y with stale := false }) s)
  else if is3Wire new ∧ is3Wire old = false ∧ (chan c s).leads = [] then modChan c (fun y => { y with leadAt := s.tim.up }) s
  else s

/-- A channel entry takes effect at its boundary (R102, R120): the lead measurements made before stay in use under the new entry. Log 79 (DESIGN CHOICE). -/
def chanEffect (c : Nat) (s : State) : State :=
  let x := chan c s
  let g := grpOf c
  let t := nowTk s
  let w1 := runningW1 x t
  let old := [ew x.w 0, w1, ew x.w 2, ew x.w 3]
  let new := x.com
  let diff (i : Nat) (m : Word) : Bool := decide ((ew old i ^^^ ew new i) &&& m ≠ 0)
  let hard := diff 0 0xF9002000
  let range := diff 0 0x06000000 || decide (eRange new ≠ x.range)
  let coup := diff 0 0x001FC000 && decide (eCls new = 3)
  let rate := diff 1 0xFF800000
  let lin := diff 2 0xFFFFE000
  -- a group whose channels were all unused was gated off in run (R464)
  let gated_ := decide (s.pwr.state = 1) && decide (eCls new ≠ 0) && (groupSlots g).all fun d => decide (eCls (chan d s).w = 0)
  let s := match (grp g s).ovl with
    | some o => if o.ch = c ∧ (hard || coup || rate || diff 2 0xFFFFFFFF) then cancelOvl g s else s
    | none => s
  let s := alarmChange c (ew old 2) (ew new 2) s
  let coefs := coefsOf c s
  let s := if lin then linLeave (eLinSlot old) c (closeRuns c s) else s
  let s := modChan c (fun y => leadFrom t y
    { y with w := new, busy := rate, linOld := if lin then histPut t (ew old 2, coefs) y.linOld else y.linOld,
             cAt := if lin then cDue t false y.cAt else y.cAt,
             spans := if coup then y.spans ++ [⟨false, t, t + couplingTk new⟩] else y.spans,
             nextT := if hasGrid new = false then none else if hasGrid old then y.nextT else some (gridUp (periodTk (isFast c) (ew new 1)) t) }) s
  let s := if rate then startRate c old new s
    else if w1 = ew x.w 1 then s
    else groupGen g (modChan c (fun y => { y with pendF := false, tb := none, tr := none }) s)
  let s := if gated_ then modGrp g (fun y => { y with wake := 1, since := none }) (modChan c (fun y => { y with nextT := none, cAt := cDue 0 false y.cAt }) s) else s
  let s := if isIepe new = false ∧ x.short then condEnd (pgGroup g) inSHORT c (modChan c (fun y => { y with short := false, biasLow := 0 }) s) else s
  let s := leadWiring c old new (dropDetection c t s)
  let s := judgeExtrap g s
  if hard ∨ (range ∧ eCls new = 0) then decideHard c (eRange new) (unqueue g c s)
  else if range then requestRange ⟨c, eRange new, t, 2, false⟩ s
  else s

/-- A group entry takes effect (R81, R102): a change of EXC is a hard switch of each channel and cancels an overlap; a commit ends a lock-out, and B with it; `ma` is the excitation current that then flows. Log 79 (DESIGN CHOICE). -/
def groupEffect (g ma : Nat) (s : State) : State :=
  let x := grp g s
  let exc := decide (wbits x.w 29 3 ≠ wbits x.com 29 3)
  let t := nowTk s
  let lost := condOn (pgGroup g) inSNSLOST 0 s
  let ended (k : Int × Option Int) : Int × Option Int := if k.2 = none then (k.1, some t) else k
  let s := if exc ∧ (grp g s).ovl.isSome then cancelOvl g s else s
  let s := modGrp g (fun y =>
    let y : Group :=
      { y with w := y.com, busy := false, onLocal := wbit y.com 28 || lost, lock := false, retries := if y.lock then 0 else y.retries,
               excOff := y.excOff && !y.lock, offs := if y.lock then y.offs.map ended else y.offs }
    { y with iExc := if excOn y then ma else 0, limit := y.limit && excOn y }) s
  let s := if x.lock then condEnd (pgGroup g) inEXCOFF 0 s else s
  let s := if excOn (grp g s) then s else condEnd (pgGroup g) inEXCLIMIT 0 s
  if exc then (groupSlots g).foldl (fun s c => if eCls (chan c s).w = 0 then s else decideHard c (chan c s).range s) s else s

/-- CHW_COMMIT_EFFECT (R102); `ma` is the excitation current of a group entry's group from then on. -/
def execChwCommitEffect (e : EntryRef) (ma : Nat) (s : State) : Out3 :=
  if s.pwr.stopped then .next s
  else match e with
    | .group g =>
      if (grp g.val s).busy then .next (if s.fuse.hx000 then modGrp g.val (fun y => { y with w := y.com, busy := false }) s else groupEffect g.val ma s)
      else .next s
    | .chan c => if (chan c.val s).busy then analogue (chanEffect c.val) s else .next s

/-- RATE_BOUNDARY at t_b of a rate change or a re-grid (R149, R151, R153): records at the new setting start, with H and Q while their window starts before t_r, or T_a later where the modulator phase moves. -/
def execRateBoundary (c : Chn) (s : State) : Out3 :=
  analogue (fun s =>
    let x := chan c.val s
    match x.tb, x.tr with
    | some b, some r =>
      if x.busy = false then
        (if x.regr then groupGen (grpOf c.val) (modChan c.val (fun y => { y with regr := false, settle := true }) s) else s)
      else
        let fine := hasGrid x.w
        let upTo := if phaseHalf x.old1 ≠ phaseHalf (ew x.w 1) ∧ isFast c.val = false then r + settleTk false else r
        let s := closeRuns c.val (modChan c.val (fun y =>
          { y with busy := false, pendF := false, regr := false, settle := fine, rateSet := fine,
                   spans := if fine then y.spans ++ [⟨true, b, upTo⟩] else y.spans }) s)
        groupGen (grpOf c.val) s
    | _, _ => s) s

/-- CHAIN_RECONFIGURE at t_r (R149): the chain's state is cleared; where the modulator phase moves, the coarse sample whose window contains t_r is not produced. -/
def execChainReconfigure (c : Chn) (s : State) : Out3 :=
  analogue (fun s =>
    match (chan c.val s).tr with
    | none => s
    | some r =>
      modChan c.val (fun y =>
        { y with tr := none, skipAt := if isFast c.val = false ∧ phaseHalf y.old1 ≠ phaseHalf (ew y.w 1) then some r else y.skipAt }) s) s

/-! ## Plan activation (R103) -/

/-- Whether a slice's group entry goes with its channel entries: none of them is of the class its MODE shuts out (R69). -/
def modeFits (b : SliceBody) (g : Nat) (w : Word) : Bool :=
  decide (16 ≤ g) || !(b.channels.any fun p => decide (p.slot < 256) && decide (grpOf p.slot = g) && decide (eCls p.words = if wbit w 31 then 1 else 2))

/-- Every entry is rewritten from a slice, each at its own boundary; an entry the slice does not hold returns to its reset value; the driver's edits are lost (R103). A group entry that its slice's channels contradict, and a channel of the wrong class for its group, stay as they are, with ERR 1 (R69). Log 79 (DESIGN CHOICE). -/
def rewriteEntries (b : SliceBody) (s : State) : State :=
  let s := (List.range 24).foldl (fun s g =>
    let w := match b.groups.find? (·.1 = g) with
      | some p => maskGroup g (ew p.2 0)
      | none => (group0 g).w
    if modeFits b g w = false then s.modAna fun a => { a with chwErr := 1 }
    else if (grp g s).com = w ∧ (grp g s).w = w then s else commitGroup g w s) s
  loadEntry ((List.range 320).foldl (fun s c =>
    let w := match b.channels.find? (·.slot = c) with
      | some p => maskEntry p.words
      | none => (chan0 c).w
    if s.fuse.hx000 ∨ ((chan c s).com = w ∧ (chan c s).w = w ∧ (chan c s).range = eRange w) then s
    else if classOk c w s = false then s.modAna fun a => { a with chwErr := 1 }
    else commitChan c w s) s)

/-! ## Epochs and the grid (R151) -/

/-- The instants a channel holds, read in the new epoch `e`. Log 59 (DEDUCED). -/
def shiftChan (e : Nat) (d : Int) (x : Chan) : Chan :=
  let sp (k : Int × Option Int) : Int × Option Int := (k.1 + d, k.2.map (· + d))
  { x with tb := x.tb.map (· + d), tr := x.tr.map (· + d), cAt := x.cAt.map fun k => (k.1 + d, k.2),
           rngOld := x.rngOld.map fun k => (k.1 + d, k.2),
           clean := x.clean.map fun k => (Stamp.ofTotal e ((k.1.total : Int) + d.fdiv 1024).toNat, k.2), spans := x.spans.map fun p => { p with since := p.since + d, upTo := p.upTo + d },
           linOld := x.linOld.map fun k => (k.1 + d, k.2), tabOld := x.tabOld.map fun k => (k.1 + d, k.2),
           leadsOld := x.leadsOld.map fun k => (k.1 + d, k.2), swTo := x.swTo.map fun k => (k.1 + d, k.2),
           swAt := x.swAt.map (· + d), skipAt := x.skipAt.map (· + d), brk := x.brk.map (· + d), brkEnd := x.brkEnd.map (· + d),
           offEnd := x.offEnd + d, clamps := x.clamps.map sp, hist := x.hist.map fun k => { k with at_ := k.at_ + d },
           ready := x.ready.map fun r => { r with w0 := r.w0 + d, w1 := r.w1 + d, rel := r.rel + d },
           nextT := x.nextT.map (· + d), pulseOk := x.pulseOk.map (· + d) }

/-- The instants of an overlap, read in the new epoch. Log 59 (DEDUCED). -/
def shiftOvl (d : Int) (o : Ovl) : Ovl :=
  { o with tq := o.tq + d, tc := o.tc + d, ns := o.ns + d, req := { o.req with age := o.req.age + d },
           inc := o.inc.map fun k => (k.1 + d, k.2), rel := o.rel.map fun k => (k.1 + d, k.2), coarseAt := o.coarseAt.map (· + d) }

/-- The instants a group holds, read in the new epoch. Log 59 (DEDUCED). -/
def shiftGroup (d : Int) (x : Group) : Group :=
  { x with q := x.q.map fun r => { r with age := r.age + d }, ovl := x.ovl.map (shiftOvl d),
           chk := x.chk.map fun k => { k with ho := k.ho.map (shiftOvl d) },
           ovls := x.ovls.map fun k => (k.1, k.2.1 + d, k.2.2 + d), offs := x.offs.map fun k => (k.1 + d, k.2.map (· + d)),
           tempAt := x.tempAt + d }

/-- The sample-clock period in 1/1024 ns (R131). -/
def clockTk : Int := 15625

/-- One channel at an epoch change (R151): nothing where Δ is a multiple of its output period, else its grid restarts, an overlap's settled record with it; a rate change whose boundary lies ahead takes one on both new grids. Answers whether it is re-gridded. Log 59 (DEDUCED). -/
def regrid (d : Int) (c : Nat) (s : State) : State × Bool :=
  let x := chan c s
  let t := nowTk s
  let run := runningW1 x t
  let per := periodTk (isFast c) run
  let ahead := decide (run ≠ ew x.w 1)
  if eCls x.w = 0 then (s, false)
  else if d % per = 0 ∧ (ahead = false ∨ d % perOf c s = 0) then (s, false)
  else
    let step := decide (d % clockTk ≠ 0)
    let s := modChan c (fun y => { y with skipAt := if step then some t else y.skipAt }) s
    if hasGrid x.w = false then (s, step)
    else
      let g := grpOf c
      let upTo := if step then t + settleTk (isFast c) else t
      let tb := gridUp (if ahead then max per (perOf c s) else per) t
      let s := match (grp g s).ovl with
        | some o =>
          if o.ch = c then
            modGrp g (fun y => { y with ovl := some { o with ns := firstStarting c (max (o.tc + settleTk (isFast c)) upTo) s, inc := [], rel := [], diffs := [], checked := 0 } }) s
          else s
        | none => s
      (closeRuns c (modChan c (fun y =>
        { y with old1 := run, tb := some tb, regr := !ahead, nextT := some tb, spans := y.spans ++ [⟨true, tb, upTo⟩] }) s), true)

/-- The groups and channels at an epoch change by Δ in 1/1024 ns (R151): REGRID once a group with any channel re-gridded. Log 59 (DEDUCED). -/
def epochChannels (d : Int) (s : State) : State :=
  if s.fuse.hx000 then s
  else
    let s := s.modChans fun m => m.map fun k => (k.1, shiftChan s.tim.epoch d k.2)
    let s := s.modGrps fun m => m.map fun e => (e.1, shiftGroup d e.2)
    (List.range 24).foldl (fun s g =>
      let r := (groupSlots g).foldl (fun (r : State × Bool) c =>
        let n := regrid d c r.1
        (n.1, r.2 || n.2)) (s, false)
      if r.2 then groupRaise g relREGRID (convDetail 0xFF 0xFF) r.1 else r.1) s

end Sys2Proof.Machine
end

