-- ==== Sys2Proof/Machine/Cal.lean ====
section
/-! DEFINITION. Calibration in service and the CAL windows (R177, R182–R193). -/

namespace Sys2Proof.Machine

/-! ## Temperature and campaigns (R177, R188) -/

/-- ΔT_cal in 0.1 °C steps. -/
def dtCal (s : State) : Nat := max 5 (min 100 (wbits (rfGet 0x08040 s) 0 8))
/-- Whether a temperature lies more than ΔT_cal from the reference temperature. Log 57 (DEDUCED). -/
def strayed (x : Group) (t : Int) (s : State) : Bool := x.trefOk && decide (dtCal s * 16 < (t - x.tref).natAbs * 10)

/-- Readings in force at or after an instant, the latest first. -/
def tempsSince (t : Nat) : List (Nat × Int) → List (Nat × Int)
  | [] => []
  | p :: ps => if p.1 ≤ t then [p] else p :: tempsSince t ps

/-- TEMP_READING (R177, R184, R188): none where the reading failed or is missing. Log 57 (DEDUCED). -/
def execTempReading (g : Grp) (t : Option Int) (s : State) : Out3 :=
  match t with
  | none => .next s
  | some v =>
    analogue (fun s =>
      let x := grp g.val s
      let was := strayed x x.temp s
      let s := modGrp g.val (fun x => { x with tempWas := x.temp, temp := v, tempAt := nowTk s, temps := (s.tim.up, v) :: tempsSince (s.tim.up - 2 * nsPerSec) x.temps }) s
      let s := judgeExtrap g.val s
      if x.begun ∧ strayed x v s ∧ (x.camp = false ∨ was = false) then startCamp g.val s else s) s

/-- The selected group of CAL. -/
def gsel (s : State) : Nat := wbits (rfGet 0x08048 s) 0 5

/-- CAMP_GO (R188, R192): a write of CAL.CTRL. -/
def execCampGo (r : Req) (v : Word) (s : State) : Out3 :=
  .next (gated r pgCAL (fun s =>
    let s := rfPut 0x08040 v s
    if wbit v 9 ∧ gsel s < 24 ∧ s.fuse.hx000 = false then startCamp (gsel s) s else s) s)

/-! ## Runs (R185–R187) -/

/-- Two instants of the 1 GHz count within a second of each other. -/
def within1s (a b : Nat) : Bool := decide (a ≤ b + nsPerSec) && decide (b ≤ a + nsPerSec)

/-- The three points of a run, once they lie within a second of one another: shorted, positive, negative. -/
def runPoints (conv range : Nat) (l : List CalPt) : Option (CalPt × CalPt × CalPt) :=
  let at_ (k : Nat) : Option CalPt := l.find? fun p => decide (p.conv = conv) && decide (p.range = range) && decide (p.src = k)
  match at_ 0, at_ 1, at_ 2 with
  | some a, some b, some c => if within1s a.at_ b.at_ && within1s b.at_ c.at_ && within1s a.at_ c.at_ then some (a, b, c) else none
  | _, _, _ => none

/-- The points of a converter and range forgotten. -/
def dropPoints (g conv range : Nat) (s : State) : State :=
  modGrp g (fun x => { x with pts := x.pts.filter fun p => !(decide (p.conv = conv) && decide (p.range = range)) }) s

/-- Whether one point is to be replaced before another at a temperature (R187): the nearer, then the learned, then the lower. -/
def replacedFirst (t : Int) (a b : GPoint) : Bool :=
  let da := (a.temp - t).natAbs
  let db := (b.temp - t).natAbs
  decide (da < db) || (decide (da = db) && ((!a.fac && b.fac) || (decide (a.fac = b.fac) && decide (a.temp < b.temp))))

/-- The point to be replaced. -/
def victim (t : Int) (l : List GPoint) : Option GPoint :=
  l.foldl (fun a p => match a with
    | none => some p
    | some b => if replacedFirst t p b then some p else some b) none

/-- A table's points in ascending temperature order. -/
def sortPoints (l : List GPoint) : List GPoint := sortBy (fun a b => decide (a.temp ≤ b.temp)) l

/-- A learned point enters a table (R187). -/
def putPoint (n : GPoint) (l : List GPoint) : List GPoint :=
  let near := l.filter fun p => decide ((p.temp - n.temp).natAbs ≤ 16)
  if near = [] ∧ l.length < 8 then sortPoints (n :: l)
  else match victim n.temp (if near = [] then l else near) with
    | some v => sortPoints (n :: l.erase v)
    | none => sortPoints (n :: l)

/-- A range of a converter is due no more (R188). -/
def undue (g conv range : Nat) (s : State) : State :=
  modGrp g (fun x => { x with due := FMap.upd (fun _ => 0) x.due conv fun d => putBit d range false }) s

/-- The relief goes idle where nothing more of it is due; the campaign may complete. -/
def calNext (g : Nat) (s : State) : State :=
  let x := grp g s
  judgeCamp g (if x.task = 1 ∧ tatHolds g s = false ∧ reliefDue x = false then freeRelief g s else s)

/-- A rejected run is repeated no more. -/
def endRepeat (g conv range : Nat) (s : State) : State := modGrp g (fun x => { x with again := x.again.filter (· ≠ (conv, range)) }) s

/-- A run is stored (R187, R192). -/
def storeRun (g conv range : Nat) (t : Int) (k : Frac × Frac × Frac) (s : State) : State :=
  let n : GPoint := ⟨t, (f32OfFrac k.1).1, (f32OfFrac k.2.1).1, (f32OfFrac k.2.2).1, false⟩
  let s := setTable g conv range (putPoint n (table g conv range s)) s
  let i := (s.tim.sec, s.tim.ns)
  let s := modGrp g (fun x => { x with runs := (x.runs + 1) % 65536, lastRun := i }) (endRepeat g conv range s)
  let s := s.modAna fun a => { a with dRuns := a.dRuns + 1, dLast := i, dSrc := g * 256 + range * 32 + conv }
  calNext g (judgeExtrap g (undue g conv range (bumpGen pgCAL s)))

/-- A run outside the limits (R186): RUN_REJ and a reference check; the second time the table stays. Log 57 (DEDUCED). -/
def rejectRun (g conv range : Nat) (s : State) : State :=
  let s := raise pgCAL calRUNREJ (convDetail g conv) s
  if (grp g s).again.contains (conv, range) then calNext g (undue g conv range (endRepeat g conv range s))
  else
    let s := modGrp g (fun x => { x with runChks := (conv, range) :: x.runChks.filter (·.1 ≠ conv) }) s
    if (grp g s).relief = some conv then modGrp g (fun x => { x with task := 7, tgt := 0, trange := range }) s else s

/-- Whether the group temperature stayed within 0.25 °C over a run, and the samples of each of its points within 2^−8 of full scale (R186). -/
def quietRun (g : Nat) (p : CalPt × CalPt × CalPt) (s : State) : Bool :=
  let since := min p.1.since (min p.2.1.since p.2.2.since)
  let l := (tempsSince since (grp g s).temps).map (·.2)
  let lo := l.foldl min (grp g s).temp
  let hi := l.foldl max (grp g s).temp
  decide (hi - lo ≤ 4) && [p.1, p.2.1, p.2.2].all fun q => decide (q.spread ≤ 2 ^ 32)

/-- A complete run judged (R186, R190): outside the limits it is rejected, not quiet it is repeated, in a frozen group it is not stored. -/
def judgeRun (g conv range : Nat) (p : CalPt × CalPt × CalPt) (s : State) : State :=
  let quiet := quietRun g p s
  let s := dropPoints g conv range s
  let t := (Frac.mk2 (p.1.temp + p.2.1.temp + p.2.2.temp) 3).roundEven
  match solveRun p.1.mean p.2.1.mean p.2.2.mean (refsOf g s).1 (refsOf g s).2 with
  | none => rejectRun g conv range s
  | some k =>
    if withinLimits k (coefAt (table g conv range s) t) = false then rejectRun g conv range s
    else if quiet = false then s
    else if wbit (rfGet 0x08044 s) g then endRepeat g conv range s
    else storeRun g conv range t k s

/-- The coarse samples of a point of a calibration run (R185). -/
def calDwell (g : Nat) : Nat := if g < 16 then 64 else 256

/-- How long a point of so many coarse samples takes once the relief is connected, in ns: T_a and the samples (R185). -/
def pointNs (g dwell : Nat) : Nat := ((settleTk (decide (16 ≤ g)) + coarseTk (decide (16 ≤ g)) * dwell) / 1024).toNat

/-- A point enters the run of its converter and range, which may be complete with it (R185): the mean and the spread of its first `dwell` coarse samples, in 2^−40 of full scale. One whose table the driver has written since it began is discarded (R191). Log 57 (DEDUCED). -/
def takePoint (g conv range src dwell : Nat) (samples : List Int) (s : State) : State :=
  let l := samples.take dwell
  let since := s.tim.up - pointNs g dwell
  if l.length < dwell ∨ (grp g s).edits.any (fun e => decide (e.1 = conv) && decide (e.2.1 = range) && decide (since ≤ e.2.2)) then s
  else
    let n : CalPt := ⟨conv, range, src, Frac.mk2 (sumInt l) (dwell * 2 ^ 40), l.foldl max (l.headD 0) - l.foldl min (l.headD 0), since, s.tim.up, (grp g s).temp⟩
    let s := modGrp g (fun x =>
      { x with pts := n :: x.pts.filter fun p => !(decide (p.conv = conv) && decide (p.range = range) && decide (p.src = src)) }) s
    match runPoints conv range (grp g s).pts with
    | some p => judgeRun g conv range p s
    | none => s

/-- The range a converter is calibrated at next (R186, R188): of those due or to be repeated, the ranges in use by the group's channels first, in ascending code, then the rest. -/
def calRange (g conv : Nat) (s : State) : Option Nat :=
  let x := grp g s
  let used (r : Nat) : Bool := (groupSlots g).any fun c => decide (eCls (chan c s).w ≠ 0) && decide ((chan c s).range = r)
  let wants (r : Nat) : Bool := (FMap.get (fun _ => 0) x.due conv).testBit r || x.again.contains (conv, r)
  ((List.range 4).filter used ++ (List.range 4).filter fun r => !used r).find? wants

/-- CAL_POINT_DONE (R164, R185, R188): a point of the relief, of a Tattoo REF, or of the converter of an unused channel, with its DWELL and its coarse samples in 2^−40 of full scale. A point of another DWELL than the one due is not the one awaited. A REF files under the source and range of its word, and no point counts at another than the range that comes next. Log 57 (DEDUCED). -/
def execCalPointDone (g : Grp) (conv : Fin 17) (range : Fin 4) (src : Fin 3) (dwell : Nat) (samples : List Int) (s : State) : Out3 :=
  analogue (fun s =>
    let x := grp g.val s
    let step (s : State) : State :=
      if calRange g.val conv.val s = some range.val ∧ dwell = calDwell g.val then takePoint g.val conv.val range.val src.val dwell samples s else s
    if x.relief = some conv.val then
      (if x.task ≠ 1 then s
       else if tatHolds g.val s then
         let w := match (tat g.val s).deferRun with
           | some w => w
           | none => ((tat g.val s).task).getD 0
         if tatOp w ≠ 5 ∨ wbits w 24 4 ≠ src.val ∨ wbits w 20 2 ≠ range.val ∨ wbits w 0 16 ≠ dwell ∨ samples.length < dwell then s
         else
           let s := tatDone g.val (freeRelief g.val s)
           if 16 ≤ dwell then takePoint g.val conv.val range.val src.val dwell samples s else s
       else step s)
    else
      match dutyChan g.val conv.val s with
      | some c => if eCls (chan c s).w = 0 ∧ !(x.runChks.any fun k => decide (k.1 = conv.val)) then step s else s
      | none => s) s

/-! ## The SET window (R191, R192) -/

/-- Converter, range and point of CAL.SET_SEL. -/
def setSel (s : State) : Nat × Nat × Nat :=
  let w := rfGet 0x08080 s
  (wbits w 8 5, wbits w 6 2, wbits w 0 3)
/-- Whether the window names a converter of the selected group. Log 57 (DEDUCED). -/
def setOk (s : State) : Bool := !s.fuse.hx000 && decide (gsel s < 24) && decide ((setSel s).1 ≤ groupSize (gsel s))
/-- The selected table; empty where the window names none. -/
def setTab (s : State) : List GPoint := if setOk s then table (gsel s) (setSel s).1 (setSel s).2.1 s else []

/-- The selected point copied into the window. -/
def loadSet (s : State) : State :=
  match (setTab s)[(setSel s).2.2]? with
  | some p =>
    rfPut 0x0809C p.s (rfPut 0x08098 p.g (rfPut 0x08094 p.o (rfPut 0x08090 (BitVec.ofInt 32 p.temp)
      (s.modAna fun a => { a with setValid := true, setFac := p.fac }))))
  | none => rfPut 0x0809C 0 (rfPut 0x08098 0 (rfPut 0x08094 0 (rfPut 0x08090 0 (s.modAna fun a => { a with setValid := false, setFac := false }))))

/-- CAL_SET_SEL_WRITE (R192). -/
def execCalSetSelWrite (r : Req) (v : Word) (s : State) : Out3 := .next (gated r pgCAL (fun s => loadSet (rfPut 0x08080 v s)) s)
/-- SET_RELOAD (R192). -/
def execSetReload (r : Req) (s : State) : Out3 := .next (gated r pgCAL loadSet s)

/-- An earlier table of a converter and range kept by a channel until a boundary (R191). -/
def keepTable (b : Int) (conv range : Nat) (old : List GPoint) (y : Chan) : Chan :=
  if y.tabOld.any fun k => decide (b ≤ k.1) && decide (k.2.1 = conv) && decide (k.2.2.1 = range) then y
  else { y with tabOld := y.tabOld ++ [(b, conv, range, old)] }

/-- A table edited by the driver (R191): a channel on duty takes it from its next output-sample boundary, with C, and so does one that the relief is to take over; a run in progress on it is discarded. -/
def editTable (g conv range : Nat) (l : List GPoint) (s : State) : State :=
  let old := table g conv range s
  let next (c : Nat) : Int := (nowTk s).fdiv (perOf c s) * perOf c s + perOf c s
  let s := match dutyChan g conv s with
    | some c =>
      if hasGrid (chan c s).w then
        modChan c (fun y => keepTable (next c) conv range old (if y.range = range then { y with cAt := cDue (next c) true y.cAt } else y)) s
      else s
    | none => s
  let s := match (grp g s).ovl, decide ((grp g s).relief = some conv) with
    | some o, true => if hasGrid (chan o.ch s).w then modChan o.ch (keepTable (next o.ch) conv range old) s else s
    | _, _ => s
  let s := modGrp g (fun x => { x with edits := (conv, range, s.tim.up) :: x.edits.filter fun e => decide (s.tim.up < e.2.2 + 2 * nsPerSec) }) s
  judgeExtrap g (dropPoints g conv range (setTable g conv range (sortPoints l) s))

/-- Whether a binary32 word is finite and within ±0.01. -/
def setValueOk (w : Word) : Bool :=
  match f32Val w with
  | some f => Frac.le (Frac.abs f) (Frac.mk2 1 100)
  | none => false

/-- SET_WRITE (R191, R192). Log 57 (DEDUCED). -/
def execSetWrite (r : Req) (s : State) : Out3 :=
  .next (gated r pgCAL (fun s =>
    if s.fuse.hx000 then s.modAna fun a => { a with setErr := 4 }
    else if setOk s = false then s
    else
      let k := setSel s
      let tab := setTab s
      let t := (BitVec.ofNat 16 (rfGet 0x08090 s).toNat).toInt
      let others := tab.eraseIdx k.2.2
      let o := rfGet 0x08094 s
      let g := rfGet 0x08098 s
      let q := rfGet 0x0809C s
      if others.any fun p => decide ((p.temp - t).natAbs ≤ 16) then s.modAna fun a => { a with setErr := 2 }
      else if !(setValueOk o && setValueOk g && setValueOk q) then s.modAna fun a => { a with setErr := 3 }
      else
        let s := s.modAna fun a => { a with setErr := 0, setValid := true, setFac := false }
        let s := editTable (gsel s) k.1 k.2.1 (⟨t, o, g, q, false⟩ :: others) s
        bumpGen pgCAL (raise pgCAL calSETWRITE (convDetail (gsel s) k.1) s)) s)

/-- SET_DELETE (R192). Log 57 (DEDUCED). -/
def execSetDelete (r : Req) (s : State) : Out3 :=
  .next (gated r pgCAL (fun s =>
    if s.fuse.hx000 then s.modAna fun a => { a with setErr := 4 }
    else if setOk s = false then s
    else
      let k := setSel s
      let tab := setTab s
      if tab.length ≤ k.2.2 then s.modAna fun a => { a with setErr := 0 }
      else if tab.length ≤ 1 then s.modAna fun a => { a with setErr := 1 }
      else loadSet (editTable (gsel s) k.1 k.2.1 (tab.eraseIdx k.2.2) (s.modAna fun a => { a with setErr := 0 }))) s)

/-! ## The LIN window (R182, R192) -/

/-- The selected linearisation slot. -/
def linSel (s : State) : Nat := wbits (rfGet 0x080C0 s) 0 7
/-- The addresses of LIN_COEF0–LIN_COEF23. -/
def coefAddrs : List Nat := (List.range 24).map fun k => 0x08100 + 4 * k
/-- The committed coefficients of the selected slot copied into LIN_COEF. -/
def loadLin (s : State) : State :=
  let l := linSlot (linSel s) s
  (coefAddrs.zip (l.pend.getD l.cur)).foldl (fun s p => rfPut p.1 p.2 s) s
/-- LIN_SEL_WRITE (R192). -/
def execLinSelWrite (r : Req) (v : Word) (s : State) : Out3 := .next (gated r pgCAL (fun s => loadLin (rfPut 0x080C0 v s)) s)
/-- LIN_RELOAD (R192). -/
def execLinReload (r : Req) (s : State) : Out3 := .next (gated r pgCAL loadLin s)

/-- The channels that use a slot. -/
def linUsers (k : Nat) (s : State) : List Nat :=
  (List.range 320).filter fun c => decide (eCls (chan c s).w ≠ 0) && eLin (chan c s).w && decide (eLinSlot (chan c s).w = k)

/-- LIN_COMMIT (R182, R192). -/
def execLinCommit (r : Req) (s : State) : Out3 :=
  .next (gated r pgCAL (fun s =>
    let k := linSel s
    let w := coefAddrs.map fun a => rfGet a s
    let err := if s.fuse.hx000 then 3 else if (linSlot k s).pend.isSome then 2 else if w.all (fun v => (f32Val v).isSome) then 0 else 1
    let s := s.modAna fun a => { a with linErr := err }
    if err ≠ 0 then s
    else
      let s := bumpGen pgCAL s
      let u := linUsers k s
      if u = [] then raise pgCAL calLINSWAP (0xFF00 + k) (modLin k (fun _ => { cur := w }) s)
      else modLin k (fun l => { l with pend := some w, wait := u }) s) s)

/-- A channel takes the new coefficients of its slot; the first record with them carries C (R182). -/
def linSwitch (c : Nat) (s : State) : State :=
  let x := chan c s
  let t := nowTk s
  linLeave (eLinSlot x.w) c (modChan c (fun y => { y with linOld := histPut t (ew y.w 2, coefsOf c s) y.linOld, cAt := cDue t false y.cAt }) s)

/-- LIN_SLOT_SWITCH (R182): at the channel's output-sample boundary. -/
def execLinSlotSwitch (c : Chn) (s : State) : Out3 :=
  analogue (fun s =>
    let x := chan c.val s
    let k := eLinSlot x.w
    if (linSlot k s).wait.contains c.val = false ∨ s.pwr.stopped then s
    else linSwitch c.val s) s

/-- Every slot is rewritten from a slice at its activation second (R182); one the slice does not hold is cleared. -/
def rewriteLins (b : SliceBody) (s : State) : State :=
  if s.fuse.hx000 then s
  else
    (List.range 128).foldl (fun s k =>
      let w := match b.lins.find? (·.1 = k) with
        | some p => (p.2 ++ List.replicate 24 0).take 24
        | none => List.replicate 24 0
      let l := linSlot k s
      if l.cur = w ∧ l.pend = none then s
      else
        let t := nowTk s
        let s := (linUsers k s).foldl (fun s c =>
          modChan c (fun y => { y with linOld := histPut t (ew y.w 2, coefsOf c s) y.linOld, cAt := cDue t false y.cAt }) s) s
        modLin k (fun _ => { cur := w }) s) s

end Sys2Proof.Machine
end

