-- ==== Sys2Proof/Machine/Tattoo.lean ====
section
/-! DEFINITION. Tattoo sequencers (R155–R175): frames, the instructions, deferred requests, loading and swapping programs. -/

namespace Sys2Proof.Machine

/-! ## Programs (R158, R168) -/

/-- The range code that most of a group's used channels have, the lowest of several; 0 with none. Log 79 (DESIGN CHOICE). -/
def commonRange (g : Nat) (s : State) : Nat :=
  let n (r : Nat) : Nat := ((groupSlots g).filter fun c => decide (eCls (chan c s).w ≠ 0) && decide ((chan c s).range = r)).length
  (List.range 4).foldl (fun a r => if n a < n r then r else a) 0

/-- The base program of a group (R168). -/
def baseProgram (g : Nat) (s : State) : List Word :=
  if g < 16 then [0x48000000, 0x10000FA0, 0x38000000, 0x80040000, BitVec.ofNat 32 (0x50000040 + commonRange g s * 2 ^ 20), 0xB0000000]
  else [0x80040000, 0x50000100, 0xB0000000]

/-- The words of the program a group runs: the base program, or its active bank (R158, R168). -/
def activeWords (g : Nat) (s : State) : List Word :=
  let t := tat g s
  if t.base then baseProgram g s else (List.range t.alen).map fun k => FMap.get (fun _ => 0) (if t.bank = 0 then t.bank0 else t.bank1) k

/-- The instruction a group's sequencer would issue next by its own program; none while it waits or has ended. Log 33 (DESIGN CHOICE). -/
def tattooNext (g : Grp) (s : State) : Option Instr :=
  let t := tat g.val s
  if t.run = false ∨ t.wait.isSome ∨ t.task.isSome then none
  else match (activeWords g.val s)[t.pc]? with
    | some w => tattooInstr g w
    | none => none

/-! ## Frames (R155–R157) -/

/-- Units of 125 ns in a frame (R155); 0 for a reserved code. -/
def frameUnits (code : Nat) : Nat := frameUs code * 8
/-- A unit in 1/1024 ns. -/
def unitTk : Int := 128000
/-- Units since the frame start. -/
def unitNow (g : Nat) (s : State) : Nat := ((nowTk s - (tat g s).frameAt).fdiv unitTk).toNat
/-- An action skipped (R162–R167). -/
def tatSkip (g : Nat) (s : State) : State := tatNext g (modTat g (fun t => { t with cntSkip := (t.cntSkip + 1) % 65536 }) s)
/-- Every deferred request dropped (R161). -/
def dropAllDeferred (g : Nat) (s : State) : State :=
  (tat g s).deferred.foldl (fun s w => dropDeferred g w s) (modTat g (fun t => { t with deferred := [] }) s)

/-- A pulsed window that no PULSE waits for any more. -/
def cutWin (k : PWin) : PWin := { k with mine := false }

/-- A relief task that the sequencer stands on completes on its own, and so do pulsed windows (R157). -/
def detachTask (t : Tat) : Tat :=
  let t := { t with toPulse := [], wins := t.wins.map cutWin }
  match t.task with
  | some w => if onRelief w then { t with task := none, deferRun := some w } else { t with task := none }
  | none => t

/-- FRAME_START (R156, R157, R161, R163): an overrun is counted, deferred requests are dropped, a frame without a required window is counted, the program begins at word 0. Log 58 (DEDUCED). -/
def execFrameStart (g : Grp) (s : State) : Out3 :=
  analogue (fun s =>
    if s.pwr.stopped then s else
    let t := tat g.val s
    let us := frameUs t.frame
    let now_ := s.tim.sec * nsPerSec + s.tim.ns
    let s := if t.run then
        raiseOnce (pgGroup g.val) tatOVERRUN 0 0 (modTat g.val (fun t => { t with cntOvr := (t.cntOvr + 1) % 65536 }) s)
      else s
    let s := dropAllDeferred g.val s
    let lacks (c : Nat) : Bool := t.framed && decide (eCls (chan c s).w ≠ 0) && decide (eBo (chan c s).w = 2) && !(chan c s).windowed
    let s := if (groupSlots g.val).any lacks then modTat g.val (fun t => { t with cntSkip := (t.cntSkip + 1) % 65536 }) s else s
    let s := (groupSlots g.val).foldl (fun s c =>
      let miss := lacks c
      modChan c (fun x => { x with windowed := false, missed := if miss then x.missed + 1 else x.missed }) s) s
    modTat g.val (fun t =>
      { detachTask t with run := true, pc := 0, wait := none, skip := false, loops := [], defs := 0, framed := true, frameAt := nowTk s,
                          frameNo := if us = 0 then 0 else now_ / (us * 1000) }) s) s

/-- An instruction issues: the program runs, no wait and no task is under way; one that EVERY left out does nothing. Log 33 (DESIGN CHOICE). -/
def tatIssue (g : Nat) (f : State → State) (s : State) : Out3 :=
  analogue (fun s =>
    let t := tat g s
    if t.run = false ∨ t.wait.isSome ∨ t.task.isSome then s
    else if t.skip then tatNext g s
    else f s) s

/-! ## Control (R156, R158) -/

/-- TAT_NOP (R158). -/
def execTatNop (g : Grp) (s : State) : Out3 := tatIssue g.val (tatNext g.val) s

/-- A wait up to a unit of the frame; one that has passed is over at once. -/
def tatWaitTo (g u : Nat) (s : State) : State := if u ≤ unitNow g s then tatNext g s else modTat g (fun t => { t with wait := some u }) s
/-- WAITA (R158). -/
def execWaita (g : Grp) (off : BitVec 23) (s : State) : Out3 := tatIssue g.val (tatWaitTo g.val off.toNat) s
/-- WAITR (R158): from the unit in which it issues. -/
def execWaitr (g : Grp) (delta : BitVec 23) (s : State) : Out3 := tatIssue g.val (fun s => tatWaitTo g.val (unitNow g.val s + delta.toNat) s) s
/-- TAT_WAIT_EXPIRY (R156). -/
def execTatWaitExpiry (g : Grp) (s : State) : Out3 :=
  analogue (fun s =>
    match (tat g.val s).wait with
    | some u => if u ≤ unitNow g.val s then tatNext g.val s else s
    | none => s) s
/-- EVERY (R158). -/
def execEvery (g : Grp) (k : Fin 16) (res : BitVec 15) (s : State) : Out3 :=
  tatIssue g.val (fun s =>
    let out := decide ((tat g.val s).frameNo % 2 ^ k.val ≠ res.toNat)
    modTat g.val (fun t => { t with skip := out }) (tatNext g.val s)) s
/-- LOOP (R158). -/
def execTatLoop (g : Grp) (count : BitVec 8) (s : State) : Out3 :=
  tatIssue g.val (fun s => modTat g.val (fun t => { t with loops := (t.pc, count.toNat) :: t.loops }) (tatNext g.val s)) s
/-- ENDL (R158). -/
def execEndl (g : Grp) (s : State) : Out3 :=
  tatIssue g.val (fun s =>
    match (tat g.val s).loops with
    | (b, n) :: r => if n ≤ 1 then modTat g.val (fun t => { t with loops := r }) (tatNext g.val s) else modTat g.val (fun t => { t with pc := b, loops := (b, n - 1) :: r }) s
    | [] => tatNext g.val s) s
/-- END (R158). -/
def execTatEnd (g : Grp) (s : State) : Out3 := tatIssue g.val (modTat g.val fun t => { t with run := false }) s
/-- ROT (R166): skipped without a relief. -/
def execRot (g : Grp) (s : State) : Out3 :=
  tatIssue g.val (fun s => if (grp g.val s).relief.isNone then tatSkip g.val s else rotate g.val (tatNext g.val s)) s

/-! ## Lead steps, references, loopback (R160–R162, R164, R165, R167) -/

/-- The channel of a lead step: the one named, or the 3-wire channel measured longest ago; none where the step is skipped. -/
def leadChan (g : Nat) (auto : Bool) (ch : Nat) (s : State) : Option Nat :=
  let three := (groupSlots g).filter fun c => is3Wire (chan c s).w
  let pick := if auto then
      three.foldl (fun a c => match a with
        | none => some c
        | some b => if (chan c s).leadAt < (chan b s).leadAt then some c else some b) none
    else three.find? fun c => decide (c = slotAt g ch)
  match pick with
  | some c => if (chan c s).isOpen then none else some c
  | none => none

/-- Why a relief instruction is skipped (R162, R165, R167). -/
def skipped (g : Nat) (w : Word) (s : State) : Bool :=
  let x := grp g s
  x.relief.isNone || (match tatOp w with
    | 3 => decide (16 ≤ g) || (leadChan g (wbit w 27) (wbits w 0 4) s).isNone
    | 6 => decide (16 ≤ g) || !(excOn x)
    | _ => decide (2 < wbits w 24 4))

/-- The relief taken for a Tattoo request. -/
def takeTat (g : Nat) (w : Word) (s : State) : State :=
  match tatOp w with
  | 3 => takeRelief g 5 (match leadChan g (wbit w 27) (wbits w 0 4) s with
      | some c => idxOf c
      | none => 0) 3 s
  | 5 => takeRelief g 1 0 (wbits w 20 2) s
  | _ => takeRelief g 1 0 0 s

/-- The task under R108 that a Tattoo word makes. -/
def tatTask (w : Word) : Nat := if tatOp w = 3 then 5 else 1

/-- A relief instruction issues (R160, R161): skipped, begun, or deferred. -/
def reliefIssue (g : Nat) (w : Word) (s : State) : State :=
  if skipped g w s then tatSkip g s
  else if mayTake (tatTask w) (grp g s) then modTat g (fun t => { t with task := some w }) (takeTat g w s)
  else deferTail g w (tatNext g s)

/-- The word of a LEAD. -/
def leadWord (auto : Bool) (ch : Nat) : Word := mkWord [(28, 4, 3), (27, 1, b2n auto), (0, 4, ch)]
/-- The word of a REF. -/
def refWord (src range dwell : Nat) : Word := mkWord [(28, 4, 5), (24, 4, src), (20, 2, range), (0, 16, dwell)]
/-- LEAD (R162). -/
def execLead (g : Grp) (auto : Bool) (ch : Fin 16) (s : State) : Out3 := tatIssue g.val (reliefIssue g.val (leadWord auto ch.val)) s
/-- REF (R164). Log 58 (DEDUCED). -/
def execRef (g : Grp) (src : Fin 16) (range : Fin 4) (dwell : BitVec 16) (s : State) : Out3 :=
  tatIssue g.val (reliefIssue g.val (refWord src.val range.val dwell.toNat)) s
/-- EXCM (R165). -/
def execExcm (g : Grp) (s : State) : Out3 := tatIssue g.val (reliefIssue g.val 0x60000000) s

/-- EXCM_DONE (R165): the result in mV; T_EXCDEV beyond 2 % of nominal. -/
def execExcmDone (g : GGrp) (mv : Nat) (s : State) : Out3 :=
  analogue (fun s =>
    let x := grp g.val s
    let w := match x.tat.deferRun with
      | some w => w
      | none => (x.tat.task).getD 0
    if x.task ≠ 1 ∨ tatOp w ≠ 6 then s
    else
      let s := bumpGen pgTAT (modTat g.val (fun t => { t with excMv := mv % 65536, excUp := some s.tim.up }) s)
      let s := if 2 * x.excMv < (mv - x.excMv + (x.excMv - mv)) * 100 then groupRaise g.val tatREJ 6 s else s
      tatDone g.val (freeRelief g.val s)) s

/-- TAT_DEFERRED_RUN (R161): the first deferred request runs, between two points of a campaign or on an idle relief. -/
def execTatDeferredRun (g : Grp) (s : State) : Out3 :=
  analogue (fun s =>
    let x := grp g.val s
    match x.tat.deferred with
    | [] => s
    | w :: r =>
      let free := x.freed.isNone && (decide (x.holder = 0) || (decide (x.holder = 1) && !tatHolds g.val s))
      let s' := modTat g.val (fun t => { t with deferred := r }) s
      if skipped g.val w s then modTat g.val (fun t => { t with cntSkip := (t.cntSkip + 1) % 65536 }) s'
      else if free then modTat g.val (fun t => { t with deferRun := some w }) (takeTat g.val w s')
      else s) s

/-! ## Pulsed windows (R90, R95, R96, R109, R163) -/

/-- The window of the next channel begins: on the relief where it is to be had, else on the channel's own converter (R90, R109, R163). -/
def startWindow (g c : Nat) (s : State) : State :=
  let onRel := mayTake 6 (grp g s)
  let s := modTat g (fun t => { t with wins := t.wins ++ [⟨c, onRel, true⟩] }) (modChan c (fun x => { x with windowed := true }) s)
  if onRel then takeRelief g 6 (idxOf c) 0 s else s

/-- The channels a PULSE runs windows for. -/
def pulseChans (g : Nat) (all : Bool) (ch : Nat) (s : State) : List Nat :=
  (groupSlots g).filter fun c => decide (eCls (chan c s).w ≠ 0) && decide (eBo (chan c s).w = 2) && (all || decide (c = slotAt g ch))

/-- PULSE (R163). -/
def execPulse (g : Grp) (all : Bool) (ch : Fin 16) (s : State) : Out3 :=
  tatIssue g.val (fun s =>
    if 16 ≤ g.val then tatSkip g.val s
    else
      match pulseChans g.val all ch.val s with
      | [] => if all then tatNext g.val s else tatSkip g.val s
      | c :: cs => startWindow g.val c (modTat g.val (fun t =>
          { t with task := some (mkWord [(28, 4, 4), (27, 1, b2n all), (0, 4, ch.val)]), toPulse := cs }) s)) s

/-- The judgement of a pulsed window (R89, R90, R95, R96): moved beyond PB_DV toward the rail on the relief, or two samples at the rail on the channel's own converter. -/
def judgeWindow (c : Nat) (open_ : Bool) (s : State) : State :=
  let x := chan c s
  let s := modChan c (fun y => { y with missed := 0, pulseOk := if open_ then y.pulseOk else some (nowTk s) }) s
  if open_ then (if x.isOpen then modChan c (fun y => { y with brkEnd := none }) s else openDecision c (x.pulseOk.getD 0) s)
  else if x.isOpen ∧ x.brkEnd.isNone then endOpen c (nowTk s) s
  else s

/-- A window of the PULSE under way has ended: the next channel's begins, a range request that waits goes first (R108); after the last one the sequencer goes on. -/
def nextWindow (g : Nat) (s : State) : State :=
  let s := if (oldestReq g s).isSome ∧ mayTake 4 (grp g s) then serveQueue g s else s
  match (tat g s).toPulse with
  | n :: rest => startWindow g n (modTat g (fun t => { t with toPulse := rest }) s)
  | [] =>
    match (tat g s).task with
    | some w => if tatOp w = 4 then tatNext g s else s
    | none => s

/-- PULSE_WINDOW_DONE (R157, R163): the channel of a window under way, the movement of the coarse value in mV, whether two samples stood at the rail. The first window of a new program ends the hold of the old frame (R172). -/
def execPulseWindowDone (g : GGrp) (ch : Fin 16) (mv : Int) (rail : Bool) (s : State) : Out3 :=
  analogue (fun s =>
    let c := slotAt g.val ch.val
    let x := chan c s
    match (tat g.val s).wins.find? (·.ch = c) with
    | none => s
    | some k =>
      let dv : Int := (wbits (ew x.w 3) 16 8 * 10 : Nat)
      let open_ := if k.onRel then (if eDown x.w then decide (mv < -dv) else decide (dv < mv)) else rail
      let s := modTat g.val (fun t => { t with wins := t.wins.erase k, oldFrame := if k.mine then none else t.oldFrame }) s
      let s := if k.onRel ∧ (grp g.val s).task = 6 then freeRelief g.val s else s
      let s := if eCls x.w = 0 ∨ eBo x.w ≠ 2 then s else judgeWindow c open_ s
      if k.mine then nextWindow g.val s else s) s

/-! ## Checks of a commit (R159) -/

/-- Whether every field of a word is defined (check 3). -/
def tatWordOk (w : Word) : Bool :=
  match tatOp w with
  | 0 => decide (w = 0)
  | 1 => decide (wbits w 23 5 = 0)
  | 2 => decide (wbits w 23 5 = 0)
  | 3 => decide (wbits w 4 23 = 0)
  | 4 => decide (wbits w 4 23 = 0)
  | 5 => decide (wbits w 24 4 ≤ 2) && decide (wbits w 22 2 = 0) && decide (wbits w 16 4 = 0)
  | 6 => decide (wbits w 0 28 = 0)
  | 7 => decide (wbits w 0 28 = 0)
  | 8 => decide (wbits w 20 8 = 0) && decide (wbits w 15 1 = 0) && decide (wbits w 0 15 < 2 ^ wbits w 16 4)
  | 9 => decide (wbits w 8 20 = 0) && decide (1 ≤ wbits w 0 8)
  | 10 => decide (wbits w 0 28 = 0)
  | 11 => decide (wbits w 0 28 = 0)
  | _ => false

/-- Whether no EVERY is followed by LOOP, ENDL or END (check 3). -/
def everyOk : List Word → Bool
  | a :: b :: l => !(decide (tatOp a = 8) && decide (9 ≤ tatOp b) && decide (tatOp b ≤ 11)) && everyOk (b :: l)
  | _ => true

/-- The WAITA offsets outside loops, in word order. -/
def outerWaits : Nat → List Word → List Nat
  | _, [] => []
  | d, w :: l =>
    match tatOp w with
    | 1 => if d = 0 then wbits w 0 23 :: outerWaits d l else outerWaits d l
    | 9 => outerWaits (d + 1) l
    | 10 => outerWaits (d - 1) l
    | _ => outerWaits d l

/-- Whether numbers ascend. Log 58 (DEDUCED). -/
def ascends : List Nat → Bool
  | a :: b :: l => decide (a < b) && ascends (b :: l)
  | _ => true

/-- Whether LOOP and ENDL match, nested at most two deep (check 5). -/
def loopsOk : Nat → List Word → Bool
  | d, [] => decide (d = 0)
  | d, w :: l => if tatOp w = 9 then decide (d < 2) && loopsOk (d + 1) l else if tatOp w = 10 then decide (0 < d) && loopsOk (d - 1) l else loopsOk d l

/-- The bytes of a body (R159, R456): its words in little-endian byte order. Log 58 (DEDUCED). -/
def tatBytes (ws : List Word) : List Byte := ws.flatMap fun w => leBytes 4 w.toNat

/-- The assignment of a body to a group in a slice (R170). -/
def tatAssigned (g digest : Nat) (sl : Option Slice) : Option ProgPlan :=
  match sl with
  | some a => a.body.programs.find? fun p => decide (p.tgt = 16 + g) && decide (p.digest = digest)
  | none => none

/-- The written words of the standby bank. -/
def standbyWords (g : Nat) (s : State) : List Word :=
  let t := tat g s
  (List.range t.stLen).map fun k => FMap.get (fun _ => 0) (if t.bank = 0 then t.bank1 else t.bank0) k

/-- The ERR code of a commit of these words under a frame code (R159). Log 58 (DEDUCED). -/
def tatErr (g frame : Nat) (ws : List Word) (isOver : Bool) (s : State) : Nat :=
  let fg := decide (16 ≤ g)
  let has (op : Nat) : Bool := ws.any fun w => decide (tatOp w = op)
  let d := sha256 (tatBytes ws)
  if s.fuse.hx000 then 8
  else if isOver ∨ ws = [] ∨ 256 < ws.length then 9
  else if !(ws.all tatWordOk && everyOk ws) then 1
  else if 10 ≤ frame ∨ !(ws.all fun w => decide (tatOp w ≠ 1) || decide (wbits w 0 23 < frameUnits frame)) ∨ !(ascends (outerWaits 0 ws)) then 2
  else if loopsOk 0 ws = false then 3
  else if has 11 = false then 4
  else if (fg && (has 3 || has 4 || has 6)) || (!fg && !(grp g s).isL && has 6) then 5
  else if (tatAssigned g d s.pln.active).isNone ∧ (tatAssigned g d s.pln.pend).isNone then 6
  else if (tat g s).pend then 7
  else 0

/-! ## Commits and swaps (R169–R172) -/

/-- The header a body pairs under (R456). Log 58 (DEDUCED). -/
def tatHdr (digest : Nat) (s : State) : Hdr :=
  match programImage digest s with
  | some p => hdrOf p.1
  | none => plainHdr digest (match s.fwl.run with
      | some h => h.ifver
      | none => 0)

/-- Whether the running supervisor refuses a body (R449, R456). -/
def tatRefused (digest : Nat) (s : State) : Bool :=
  match s.fwl.run with
  | some sup => pairRefused sup (tatHdr digest s)
  | none => false

/-- A refusal by the supervisor counted and raised (R448, R449), with T_REJ. Log 58 (DEDUCED). -/
def refuseTat (g digest : Nat) (s : State) : State := groupRaise g tatREJ 0 (pairWith (16 + g) (tatHdr digest s) false s).1

/-- The first frame start on both grids at or after an instant in ns (R171). -/
def swapInstant (f1 f2 t : Nat) : Nat :=
  let l := Nat.lcm (max 1 (frameUs f1)) (max 1 (frameUs f2)) * 1000
  (t + l - 1) / l * l

/-- The standby bank is committed (R159, R169–R171). -/
def commitTat (g : Nat) (s : State) : State :=
  let t := tat g s
  let ws := standbyWords g s
  let d := sha256 (tatBytes ws)
  let err := tatErr g t.next ws t.isOver s
  if err ≠ 0 then modTat g (fun t => { t with err := err }) s
  else if tatRefused d s then modTat g (fun t => { t with err := 6 }) (refuseTat g d s)
  else
    let wait := (tatAssigned g d s.pln.active).isNone
    let at_ := swapInstant t.frame t.next (s.tim.sec * nsPerSec + s.tim.ns + 1000000)
    modTat g (fun t => { t with err := 0, pend := true, pFrame := t.next, pDigest := d, waitSlice := wait, swapAt := if wait then none else some at_ }) s

/-- The banks swap (R171, R172). -/
def swapTat (g : Nat) (lg : Bool) (s : State) : State :=
  let t := tat g s
  let s := dropAllDeferred g s
  if tatRefused t.pDigest s then refuseTat g t.pDigest (modTat g (fun t => { t with pend := false, swapAt := none, waitSlice := false }) s)
  else
    let s := (pairWith (16 + g) (tatHdr t.pDigest s) lg s).1
    let s := modTat g (fun t =>
      { t with wins := t.wins.map cutWin, bank := 1 - t.bank, alen := t.stLen, stLen := 0, isOver := false, base := false, digest := t.pDigest,
               oldFrame := if t.frame = t.pFrame then t.oldFrame else some t.frame, frame := t.pFrame,
               pend := false, waitSlice := false, swapAt := none, cntSwap := (t.cntSwap + 1) % 65536 }) s
    groupRaise g tatSWAP 0 (bumpGen pgTAT s)

/-- TAT_SWAP (R171). -/
def execTatSwap (g : Grp) (s : State) : Out3 :=
  analogue (fun s =>
    match (tat g.val s).swapAt with
    | some t => if s.pwr.stopped = false ∧ (tat g.val s).pend ∧ t ≤ s.tim.sec * nsPerSec + s.tim.ns then swapTat g.val false s else s
    | none => s) s

/-- The selected group of TAT. -/
def tatSel (s : State) : Nat := wbits (rfGet 0x0F040 s) 0 5

/-- A command of the TAT window on the selected group. -/
def tatWindow (r : Req) (f : Nat → State → State) (s : State) : Out3 :=
  .next (gated r pgTAT (fun s => if tatSel s < 24 then f (tatSel s) s else s) s)

/-- The standby bank of a sequencer replaced. -/
def setStandby (m : FMap Word) (t : Tat) : Tat := if t.bank = 0 then { t with bank1 := m } else { t with bank0 := m }

/-- TAT_CLR (R174). -/
def execTatClr (r : Req) (s : State) : Out3 :=
  tatWindow r (fun g s => if (tat g s).pend ∨ s.fuse.hx000 then s else modTat g (fun t => setStandby [] { t with addr := 0, stLen := 0, isOver := false }) s) s
/-- TAT_DATA_WRITE (R174): a word past the end spoils every commit until the standby bank is emptied or swapped. Log 79 (DESIGN CHOICE). -/
def execTatDataWrite (r : Req) (v : Word) (s : State) : Out3 :=
  tatWindow r (fun g s =>
    let t := tat g s
    if t.pend ∨ s.fuse.hx000 then s
    else if 256 ≤ t.addr then modTat g (fun t => { t with isOver := true }) s
    else modTat g (fun t =>
      setStandby (FMap.put (fun _ => 0) (if t.bank = 0 then t.bank1 else t.bank0) t.addr v) { t with addr := t.addr + 1, stLen := max t.stLen (t.addr + 1) }) s) s
/-- TAT_COMMIT (R159, R170, R171). -/
def execTatCommit (r : Req) (s : State) : Out3 := tatWindow r commitTat s
/-- TAT_ABORT (R171). -/
def execTatAbort (r : Req) (s : State) : Out3 :=
  tatWindow r (fun g s => modTat g (fun t => { t with pend := false, waitSlice := false, swapAt := none }) s) s

/-- The words of a body's bytes. -/
def bodyWords : Nat → List Byte → List Word
  | 0, _ => []
  | _, [] => []
  | n + 1, bs => BitVec.ofNat 32 (leNat (bs.take 4)) :: bodyWords n (bs.drop 4)

/-- An assigned body loaded from the program store and committed as the driver would (R169); a pending commit of another body is cancelled (R172). At the activation of a slice it swaps at once. -/
def loadTat (g : Nat) (p : ProgPlan) (second : Bool) (s : State) : State :=
  let s := modTat g (fun t => { t with pend := false, waitSlice := false, swapAt := none }) s
  if (tat g s).digest = p.digest ∧ (tat g s).frame = p.frame ∧ (tat g s).base = false then s
  else
    match programImage p.digest s with
    | none => groupRaise g tatREJ 0 s
    | some im =>
      let ws := bodyWords 256 im.2
      let m := ((List.range ws.length).zip ws).foldl (fun m k => FMap.put (fun _ => (0 : Word)) m k.1 k.2) []
      let s := modTat g (fun t => setStandby m { t with next := p.frame, addr := ws.length, stLen := ws.length, isOver := decide (1024 < im.2.length) }) s
      let err := tatErr g p.frame ws (tat g s).isOver s
      let s := commitTat g s
      if (tat g s).pend then (if second then swapTat g false s else s)
      else if err ≠ 0 then groupRaise g tatREJ 0 s else s

/-- A slice activates (R169, R170, R172): commits that wait for it swap now, assigned bodies are loaded, a group without an assignment runs the base program; at its activation second bodies swap at once, at power-up at the boundary a driver's commit would have. Log 26 (DEDUCED). -/
def activateTats (b : SliceBody) (second : Bool) (s : State) : State :=
  if s.fuse.hx000 then s
  else
    (List.range 24).foldl (fun s g =>
      match b.programs.find? (·.tgt = 16 + g) with
      | some p =>
        if (tat g s).pend ∧ (tat g s).pDigest = p.digest then (if (tat g s).waitSlice then swapTat g false s else s)
        else loadTat g p second s
      | none =>
        let t := tat g s
        if t.base ∧ t.pend = false then s
        else endPair (16 + g) <| modTat g (fun t => { t with base := true, alen := 0, digest := 0, frame := 3, pend := false, waitSlice := false, swapAt := none, oldFrame := if t.frame = 3 then t.oldFrame else some t.frame }) s) s

/-- The sequencers at an epoch change by Δ in 1/1024 ns (R172): nothing where Δ is a multiple of the frame, else the frame in progress ends without an overrun. -/
def epochTats (d : Int) (s : State) : State :=
  if s.fuse.hx000 then s
  else
    (List.range 24).foldl (fun s g =>
      let t := tat g s
      let us : Int := frameUs t.frame
      let sw := t.swapAt.map fun n => swapInstant t.frame t.pFrame ((n : Int) + d.fdiv 1024).toNat
      let s := modTat g (fun t => { t with frameAt := t.frameAt + d, swapAt := sw }) s
      if d % (us * 1024000) = 0 then s
      else modTat g (fun t => { detachTask t with run := false, wait := none, skip := false, loops := [], defs := 0, framed := false }) (dropAllDeferred g s)) s

end Sys2Proof.Machine
end

