-- ==== Sys2Proof/Machine/Sources.lean ====
section
/-! DEFINITION. What this hub originates (R64, R275, R277, R284): how far its items are complete, sending, and the HORIZONs of its contracts. -/

namespace Sys2Proof.Machine

/-- The lesser of two limits, none being no limit. -/
def limMin (a b : Option Stamp) : Option Stamp :=
  match a, b with
  | some x, some y => some (Stamp.min x y)
  | some x, none => some x
  | none, y => y

/-- The least of many limits. -/
def limAll (l : List (Option Stamp)) : Option Stamp := l.foldl limMin none

/-- The lowest instant a later sample of a physical channel can carry (R54, R284): that of a ready record, or of the next not yet produced less one coarse period; none where the slot drops out. Log 47 (DEDUCED). -/
def sampleLimit (c : Nat) (s : State) : Option Stamp :=
  let x := chan c s
  let r := match x.ready with
    | r :: _ => some r.item.t
    | [] => none
  let n := match x.nextT with
    | some t => if eCls x.w ≠ 0 ∧ x.duty.isSome ∧ s.pwr.sampling.isSome ∧ sampled c t t s then some (tkStamp s (t - coarseTk (isFast c))) else none
    | none => none
  limMin r n

/-- The lowest instant a later alarm event of a channel can carry: that of its next coarse sample. Log 47 (DEDUCED). -/
def alarmLimit (c : Nat) (s : State) : Option Stamp :=
  let x := chan c s
  match x.hist with
  | h :: _ => if eCls x.w ≠ 0 ∧ x.coarse.isSome ∧ s.pwr.sampling.isSome ∧ s.pwr.stopped = false then some (tkStamp s (h.at_ + coarseTk (isFast c))) else none
  | [] => none

/-- The lowest instant a later record of a core's slots can carry: its output horizon (R333). Log 47 (DEDUCED). -/
def coreLimit (slot : Nat) (s : State) : Option Stamp :=
  limAll ((List.range 16).map fun n =>
    match (tc n s).img with
    | some i => if (tc n s).state ≠ 0 ∧ i.slotLo ≤ slot ∧ slot ≤ i.slotHi then some (tc n s).ho else none
    | none => none)

/-- The lowest instant a later record of an order track's slots can carry (R361): its latest edge but one, no higher than the edge below its next angle sample; the beat's own limit while it is suspended or has no edge. Log 47 (DEDUCED). -/
def trackLimit (ev : Stamp) (slot : Nat) (s : State) : Option Stamp :=
  limAll (s.svc.tracks.map fun p =>
    let x := track p.1 s
    if x.en ∧ (wbits x.cfg1 16 9 = slot ∨ wbits x.cfg1 0 9 = slot) then
      match x.edges with
      | [] => some ev
      | e :: es =>
        if x.state = 3 then some ev
        else some (Stamp.min (nth ev (e :: es) (es.length - 1)) ((x.edge (x.j * x.ppr / x.spr)).getD (now s)))
    else none)

/-- The lowest instant a later record of a weigh section's slots can carry (R366): the t0 of its oldest parcel, else the beat's own limit. Log 47 (DEDUCED). -/
def sectLimit (ev : Stamp) (slot : Nat) (s : State) : Option Stamp :=
  limAll (s.svc.sects.map fun p =>
    let x := sect p.1 s
    let base := wbits x.cfg 0 9
    if x.en ∧ base ≤ slot ∧ slot ≤ base + 2 then
      match x.on with
      | q :: _ => some q.t0
      | [] => some ev
    else none)

/-- The lowest instant a later item of a slot can carry into a contract of a class; none where the slot adds no limit. `ev` is the limit of event slots. -/
def slotLimit (cls : Nat) (ev : Stamp) (slot : Nat) (s : State) : Option Stamp :=
  if 448 ≤ slot then (if cls = 1 then some ev else none)
  else if 320 ≤ slot then (if cls = 1 then none else limMin (coreLimit slot s) (limMin (trackLimit ev slot s) (sectLimit ev slot s)))
  else if cls = 1 then alarmLimit slot s
  else if cls = 3 then sampleLimit slot s
  else none

/-- The slots of this hub's part of a contract. -/
def slotsOf (e : Contract) (s : State) : List Nat :=
  match partOf e (myDev s) with
  | some p => p.slots.flatMap fun r => (List.range 512).filter fun k => decide (r.1 ≤ k) && decide (k ≤ r.2)
  | none => []

/-- The lowest instant a later item of a contract can carry (R284): of its slots, its open runs, and `ev` where neither limits it. Log 47 (DEDUCED). -/
def conLimit (id : Nat) (ev : Stamp) (s : State) : Stamp :=
  match (con id s).ent with
  | none => ev
  | some e =>
    let l := limAll ((slotsOf e s).map fun k => slotLimit e.cls ev k s)
    let r := limAll ((con id s).runs.map fun o => some o.t)
    match limMin l r with
    | some t => Stamp.min t ev
    | none => ev

/-- The contracts of a class that this hub originates now. -/
def sourceCons (cls : Nat) (s : State) : List Nat :=
  (conIds s).filter fun id => (con id s).isSrc && decide (clsOf id s = cls) && decide ((con id s).state = 2 ∨ (con id s).state = 3)

/-- How far the items of a contract are complete now: a local one waits for the others of its class, with which it is merged (R289). Log 47 (DEDUCED). -/
def liveLimit (id : Nat) (s : State) : Stamp :=
  if scopeOf id s = 0 then
    ((sourceCons (clsOf id s) s).filter fun k => decide (scopeOf k s = 0)).foldl (fun t k => Stamp.min t (conLimit k (now s) s)) (now s)
  else conLimit id (now s) s

/-- How far a local contract is complete at its consumer (R289, R342): it never goes back. -/
def localHz (id : Nat) (s : State) : State :=
  if scopeOf id s = 0 then
    let h := liveLimit id s
    modCon id (fun c => { c with hz := some (match c.hz with
      | some o => if Stamp.lt h o then o else h
      | none => h) }) s
  else s

/-- ITEM_TRANSMIT (R275, R277): the items of a contract that no later one can precede are numbered and kept, then sent within its limit. Log 46 (DEDUCED). -/
def execItemTransmit (con : Con) (s : State) : Out3 :=
  if (Machine.con con.val s).isSrc then .next (transmit con.val (localHz con.val (promote con.val (liveLimit con.val s) s))) else .next s

/-- The beat instant at or before now (R284). -/
def beatInstant (cls : Nat) (s : State) : Stamp := Stamp.ofTotal s.tim.epoch ((now s).total / beatNs cls * beatNs cls)

/-- A withdrawn contract sends no item, and so no HORIZON, at or after its end second (R274). Log 46 (DEDUCED). -/
def beforeEnd (id : Nat) (h : Stamp) (s : State) : Stamp :=
  match (con id s).endSec with
  | some e => if e * nsPerSec ≤ h.total then Stamp.ofTotal h.epoch (e * nsPerSec - 1) else h
  | none => h

/-- A HORIZON into one contract (R284): the items below it go first; a local contract has none. -/
def beatCon (cls : Nat) (s : State) (id : Nat) : State :=
  let s := promote id (liveLimit id s) s
  if scopeOf id s = 0 then transmit id (localHz id s)
  else
    let h := beforeEnd id (conLimit id ((beatInstant cls s).minus 2000) s) s
    let h := match (con id s).hz with
      | some o => if Stamp.lt h o then o else h
      | none => h
    let s := promote id h s
    transmit id (modCon id (fun c => { c with hz := some h }) (putItemK id s (horizonItem cls h s)))

/-- SOURCE_HORIZON_BEAT (R284). Log 46 (DEDUCED). -/
def execSourceHorizonBeat (cls : Cls) (s : State) : Out3 :=
  .next ((sourceCons cls.code s).foldl (beatCon cls.code) s)

end Sys2Proof.Machine
end

