-- ==== Sys2Proof/Machine/SelfTest.lean ====
section
/-! DEFINITION. Self-test (R430–R441): islands, slices and signatures, forced slices and reserved windows, coverage, TEST blocks, analogue checks. -/

namespace Sys2Proof.Machine

/-! ## Islands (R430) -/

/-- METHOD of an island: 0 slice, 1 reserved windows only, 2 TEST blocks, 3 not present. -/
def islMethod (k : Nat) (s : State) : Nat :=
  if 72 ≤ k ∨ (s.fuse.hx000 ∧ (k < 24 ∨ k = 67 ∨ k = 68)) then 3
  else if k < 40 then 0
  else if k < 64 then 2
  else if k < 66 then 0
  else 1

/-- The kind of an island, under which slices and golden values are numbered (R431). -/
def islKind (k : Nat) : Nat := if k < 16 then 0 else if k < 24 then 1 else if k < 40 then 2 else k

/-- Whether an island is an analogue one, powered with the analogue dice. -/
def islAnalogue (k : Nat) : Bool := decide (k < 24) || decide (k = 67) || decide (k = 68)

/-- Whether an island is powered down: the dice are off, or in run the slice leaves it without use (R439, R464). Log 60 (DEDUCED). -/
def islDown (k : Nat) (s : State) : Bool :=
  (islAnalogue k && (decide (s.pwr.state = 3) || s.pwr.anaLost)) ||
    (decide (s.pwr.state = 1) && s.pln.active.isSome &&
      ((decide (k < 24) && (groupSlots k).all fun c => decide (eCls (chan c s).w = 0)) ||
        (decide (24 ≤ k) && decide (k < 40) && (tc (k - 24) s).img.isNone)))

/-- Whether the running supervisor image holds golden values for this silicon (R437). Log 61 (DESIGN CHOICE). -/
def hasGolden (s : State) : Bool :=
  match s.fwl.run with
  | some h => Config.hasGold h.digest s.fuse.rev
  | none => false

/-- Slices of an island in one cycle (R431, R440). Log 61 (DESIGN CHOICE). -/
def islSlices (k : Nat) (s : State) : Nat :=
  match s.fwl.run with
  | some h => if islMethod k s < 2 then Config.sliceCount h.digest (islKind k) else 0
  | none => 0

/-- BST.CTRL.EN. -/
def bstEn (s : State) : Bool := wbit (rfGet 0x07040 s) 31

/-- STAT.STATE while no slice is under way. -/
def bstIdle (s : State) : Nat := if bstEn s then (if hasGolden s then 1 else 5) else 0

/-- Whether logic slices run on an island at all. Log 60 (DEDUCED). -/
def sliceable (k : Nat) (s : State) : Bool :=
  bstEn s && hasGolden s && !(islDown k s) && !(isl k s).failed

/-- Whether an island outside the groups has a slice under way: at most one has (R432). -/
def coreSlice (s : State) : Bool := s.bst.running.any fun k => decide (24 ≤ k)

/-! ## Slices (R431, R432) -/

/-- A slice begins on an island: STAT shows it. -/
def putSlice (k st : Nat) (s : State) : State :=
  s.modBst fun b => { b with running := k :: b.running, state := st, isl := k, slice := (isl k s).slice }

/-- Whether an island has nothing to serve: the relief may take the task, the core has no program or waits. -/
def islIdle (k : Nat) (s : State) : Bool :=
  if k < 24 then mayTake 2 (grp k s)
  else if k < 40 then (let t := tc (k - 24) s
    t.img.isNone || (decide (t.wait ≠ .none) && !t.wPend && !t.cPend && t.inb.isEmpty))
  else true

/-- An ordinary slice starts where the island is idle (R430, R432). -/
def startSlice (k : Nat) (s : State) : State :=
  let i := isl k s
  if islMethod k s ≠ 0 ∨ !(sliceable k s) ∨ i.forced ∨ s.bst.running.contains k ∨ !(islIdle k s) ∨ (24 ≤ k ∧ coreSlice s) then s
  else putSlice k 2 (if k < 24 then takeRelief k 2 0 0 s else s)

/-- The coverage cycle in ns (R440): CYCLE minutes, 60 to 10,080. -/
def cycleNs (s : State) : Nat := min 10080 (max 60 (wbits (rfGet 0x07040 s) 0 16)) * 60 * nsPerSec

/-- The slices of every present island in one cycle (R435). Log 60 (DEDUCED). -/
def totalSlices (s : State) : Nat := sumNat ((List.range 72).map fun k => islSlices k s)

/-- Whether the pace of R435 lets an ordinary slice begin: the cycle divided by the number of slices has passed since the latest. Log 60 (DEDUCED). -/
def paced (s : State) : Bool :=
  match s.bst.lastStart with
  | some t => decide (t + cycleNs s / max 1 (totalSlices s) ≤ s.tim.up)
  | none => true

/-- SLICE_START (R435): the next slice of an island in this cycle, at the pace of the cycle. -/
def execSliceStart (k : Fin 72) (s : State) : Out3 :=
  .next (
    if (isl k.val s).abn = 0 ∧ (isl k.val s).retry = false ∧ (isl k.val s).done < islSlices k.val s ∧ paced s then
      let t := startSlice k.val s
      if t.bst.running = s.bst.running then t else t.modBst fun b => { b with lastStart := some s.tim.up }
    else s)

/-- SLICE_RETRY (R432, R436): an abandoned slice from its beginning, or the repeat of a mismatch. -/
def execSliceRetry (k : Fin 72) (s : State) : Out3 :=
  .next (if 0 < (isl k.val s).abn ∨ (isl k.val s).retry then startSlice k.val s else s)

/-- SLICE_RESTORE_DONE (R432): the island resumes where it stopped. -/
def execSliceRestoreDone (k : Fin 72) (s : State) : Out3 :=
  .next (if s.bst.state = 3 ∧ s.bst.isl = k.val then s.modBst fun b => { b with state := bstIdle s } else s)

/-- The slice of an island is over; a group's relief falls free. Log 60 (DEDUCED). -/
def leaveSlice (k : Nat) (s : State) : State :=
  let s := endSlice k (bstIdle s) s
  if k < 24 ∧ (grp k s).task = 2 then freeRelief k s else s

/-- A failed island (R436): FAIL, the LAST registers, SIG_FAIL, and what follows for a group or a core. Log 29 (DEDUCED). -/
def failIsland (k slice : Nat) (sig gold : Word) (s : State) : State :=
  let s := modIsl k (fun i => { i with failed := true, retry := false }) s
  let s := bumpGen pgBST (s.modBst fun b => { b with lastIsl := k, lastSlice := slice, lastSig := sig, lastGold := gold })
  let s := raise pgBST bstSIGFAIL (k * 256) s
  if k < 24 then
    match (grp k s).relief with
    | some r => retireConv k r s
    | none => s
  else if k < 40 then coreStops (k - 24) s
  else s

/-- A complete slice: its signature compared with the golden value (R431, R434, R436). Log 60 (DEDUCED). -/
def compareSig (k : Nat) (sig gold : Word) (s : State) : State :=
  let i := isl k s
  let s := s.modBst fun b => { b with slices := (b.slices + 1) % 65536 }
  if sig = gold then
    modIsl k (fun i => { i with abn := 0, retry := false, done := i.done + 1, slice := if i.slice + 1 < islSlices k s then i.slice + 1 else 0 }) s
  else
    let s := modIsl k (fun i => { i with abn := 0 }) (s.modBst fun b => { b with fails := (b.fails + 1) % 65536 })
    if i.retry then failIsland k i.slice sig gold s
    else raise pgBST bstSIGRETRY (k * 256) (modIsl k (fun i => { i with retry := true }) s)

/-- SLICE_COMPLETE (R431, R436). Log 61 (DESIGN CHOICE). -/
def execSliceComplete (k : Fin 72) (sig golden : Word) (s : State) : Out3 :=
  .next (if s.bst.running.contains k.val ∧ (isl k.val s).forced = false ∧ islMethod k.val s = 0 then compareSig k.val sig golden (leaveSlice k.val s) else s)

/-! ## Reserved windows (R434) -/

/-- Whether an island has a slice for its next reserved window: a forced one, or one of an island tested only there. -/
def wantsWindow (k : Nat) (s : State) : Bool :=
  let i := isl k s
  i.forced || (decide (islMethod k s = 1) && (i.retry || decide (i.done < islSlices k s)))

/-- RESERVED_WINDOW (R434, R439): a forced slice takes the window; an ordinary one under way there ends uncounted. Log 62 (DEDUCED). -/
def execReservedWindow (k : Fin 72) (s : State) : Out3 :=
  let k := k.val
  .next (
    if !(sliceable k s) ∨ 2 ≤ islMethod k s ∨ !(wantsWindow k s) ∨ (isl k s).forced ∧ s.bst.state = 4 ∧ s.bst.isl = k then s
    else
      let s := if s.bst.running.contains k then leaveSlice k s else s
      if k < 24 then
        if mayTake 8 (grp k s) then putSlice k 4 (modGrp k (fun x => { x with fwin := true }) (takeRelief k 2 0 0 s)) else s
      else if coreSlice s then s
      else putSlice k 4 s)

/-- FORCED_SLICE_DONE (R434). -/
def execForcedSliceDone (k : Fin 72) (sig golden : Word) (s : State) : Out3 :=
  .next (
    if s.bst.running.contains k.val ∧ ((isl k.val s).forced ∨ islMethod k.val s = 1) then
      let s := leaveSlice k.val s
      let s := modIsl k.val (fun i => { i with forced := false }) (s.modBst fun b => { b with forced := (b.forced + 1) % 65536 })
      compareSig k.val sig golden s
    else s)

/-! ## Coverage (R435) -/

/-- The islands whose slices a coverage cycle needs. Log 60 (DEDUCED). -/
def covered (s : State) : List Nat := (List.range 72).filter fun k => decide (islMethod k s < 2) && !(islDown k s) && !(isl k s).failed

/-- A coverage cycle ends (R435): complete, or late; then DONE restarts, and an island goes on with the slices it has not done. Log 60 (DEDUCED). -/
def cycleEnd (s : State) : State :=
  let all := hasGolden s && (covered s).all fun k => decide (islSlices k s ≤ (isl k s).done)
  let s := raise pgBST (if all then bstCYCLEDONE else bstCOVLATE) 0 s
  (covered s).foldl (fun s k => modIsl k (fun i => { i with done := 0 }) s)
    (bumpGen pgBST (s.modBst fun b => { b with cycles := (b.cycles + 1) % 65536, cycAt := s.tim.up }))

/-- COVERAGE_CYCLE_END (R435): a cycle's length after it began. -/
def execCoverageCycleEnd (s : State) : Out3 := .next (if bstEn s ∧ s.bst.cycAt + cycleNs s ≤ s.tim.up then cycleEnd s else s)

/-- Self-test stops (R439): slices under way are abandoned uncounted, counters return to reset, FAIL stays. -/
def bstStop (s : State) : State :=
  let s := s.bst.running.foldl (fun s k => leaveSlice k s) s
  s.modBst fun b =>
    { b with state := 0, isl := 0, slice := 0, running := [], cycles := 0, slices := 0, abandon := 0, forced := 0, fails := 0,
             isls := b.isls.filterMap fun e => if e.2.failed then some (e.1, { failed := true }) else none }

/-- A write of BST.CTRL (R439, R440). Log 10 (DESIGN CHOICE). -/
def bstCtrl (v : Word) (s : State) : State :=
  let s := if wbit v 30 ∧ bstEn s then cycleEnd s else s
  let s := rfPut 0x07040 v s
  if wbit v 31 = false then bstStop s
  else if s.bst.state = 0 then s.modBst fun b => { b with state := bstIdle s } else s

/-- NEWCYC: a write of BST.CTRL with NEWCYC set. -/
def execNewcyc (r : Req) (v : Word) (s : State) : Out3 := .next (gated r pgBST (bstCtrl (v ||| 0x40000000)) s)
/-- BST_DISABLE: a write of BST.CTRL with EN clear. -/
def execBstDisable (r : Req) (v : Word) (s : State) : Out3 := .next (gated r pgBST (bstCtrl (v &&& 0x7FFFFFFF)) s)

/-- A slice under way meets an exchange of the supervisor image (R439, R453): abandoned, uncounted. -/
def dropSlices (s : State) : State := s.bst.running.foldl (fun s k => leaveSlice k s) s

/-- An image load that brings no golden values raises NOGOLD; STAT follows (R437). -/
def goldLoaded (s : State) : State :=
  let s := s.modBst fun b => { b with state := bstIdle s }
  if hasGolden s then s else raise pgBST bstNOGOLD 0 s

/-! ## TEST blocks (R433) -/

/-- One bit of the PRBS-31 generator x³¹ + x²⁸ + 1. Log 64 (DESIGN CHOICE). -/
def prbsStep (g : Nat) : Nat × Bool :=
  let b := xor (g.testBit 30) (g.testBit 27)
  ((g * 2 + b2n b) % 2 ^ 31, b)

/-- `n` bits of the generator as a number, the first in bit 0 of `acc` from bit `i` on. Log 64 (DESIGN CHOICE). -/
def prbsBits : Nat → Nat → Nat → Nat → Nat × Nat
  | 0, g, _, acc => (g, acc)
  | n + 1, g, i, acc => prbsBits n (prbsStep g).1 (i + 1) (acc + b2n (prbsStep g).2 * 2 ^ i)

/-- The eight words of a TEST block. Log 64 (DESIGN CHOICE). -/
def prbsWords : Nat → Nat → Nat × List W128
  | 0, g => (g, [])
  | n + 1, g =>
    let w := prbsBits 128 g 0 0
    let r := prbsWords n w.1
    (r.1, BitVec.ofNat 128 w.2 :: r.2)

/-- TEST_BLOCK_TIMER: each up port sends one every 10 ms. Log 64 (DESIGN CHOICE). -/
def execTestBlockTimer (p : Port) (s : State) : Out3 :=
  .next (if (lane p.val s).state = 4 then
    let w := prbsWords 8 (lane p.val s).prbsTx
    modLane p.val (fun l => { l with prbsTx := w.1, ctl := l.ctl ++ [⟨0xB7, w.2⟩] }) s
  else s)

/-- TEST_BLOCK_RECEIVE: one accepted block against the receiver's generator. Log 64 (DESIGN CHOICE). -/
def execTestBlockReceive (p : Port) (words : List W128) (s : State) : Out3 :=
  .next (if (lane p.val s).state = 4 then
    let w := prbsWords 8 (lane p.val s).prbsRx
    let s := modLane p.val (fun l => { l with prbsRx := w.1 }) s
    if slice (words ++ List.replicate 8 0) 0 8 = w.2 then s
    else discardBlock p.val 0xB7 false 0 (raiseOnce pgBST bstTESTERR p.val (p.val * 256) (s.modBst fun b => { b with fails := (b.fails + 1) % 65536 }))
  else s)

/-! ## Analogue checks (R438) -/

/-- What ends a check at once: 2 HX000, 4 no such group, 3 busy, 1 no relief. Log 62 (DEDUCED). -/
def checkErr (g : Nat) (s : State) : Nat :=
  if s.fuse.hx000 then 2
  else if 24 ≤ g then 4
  else if s.bst.achkBusy then 3
  else if (grp g s).relief.isNone then 1
  else 0

/-- ANALOGUE_CHECK_GO (R438): a write of ACHK_CTRL with GO set. Log 62 (DEDUCED). -/
def execAnalogueCheckGo (r : Req) (v : Word) (s : State) : Out3 :=
  .next (gated r pgBST (fun s =>
    let s := rfPut 0x07080 v s
    let g := wbits v 0 5
    let e := checkErr g s
    if e = 3 then s.modBst fun b => { b with achkErr := 3 }
    else if e ≠ 0 then endCheck e 0x8000 s
    else
      let s := s.modBst fun b =>
        { b with achkBusy := true, achkGrp := g, achkMode := wbit v 8, achkErr := 0, achkConv := ((grp g s).relief).getD 0, achkRes := 0, achkRng := [], achkExc := 0 }
      if mayTake 1 (grp g s) then freeRelief g s else s) s)

/-- The reference-check limits of R186 on an offset and a gain error in ppm. -/
def checkPasses (o g : Int) : Bool := decide (o.natAbs ≤ 200) && decide (g.natAbs ≤ 500)

/-- The ranges checked, in ascending code up to the first that fails twice: RESULT bits so far, and whether it failed. -/
def checkRanges : Nat → List (Int × Int) → Nat × Bool
  | _, [] => (0, false)
  | r, p :: ps =>
    if 4 ≤ r then (0, false)
    else if checkPasses p.1 p.2 then
      let t := checkRanges (r + 1) ps
      (t.1 ||| 2 ^ (4 + r), t.2)
    else (2 ^ (8 + r), true)

/-- ANALOGUE_CHECK_DONE (R438): the last measurement of each range, and the loopback in mV where MODE asked for one; without all of them, or a range that failed, the check goes on. Log 62 (DEDUCED). -/
def execAnalogueCheckDone (res : List (Int × Int)) (exc : Option Nat) (s : State) : Out3 :=
  .next (
    let g := s.bst.achkGrp
    let x := grp g s
    match x.relief with
    | none => s
    | some conv =>
      let rng := checkRanges 0 res
      let loops := s.bst.achkMode && decide (g < 16) && excOn x
      if s.bst.achkBusy = false ∨ x.task ≠ 1 ∨ tatHolds g s ∨ (rng.2 = false ∧ (res.length < 4 ∨ loops ∧ exc = none)) then s
      else
        let words := (res.take 4).map fun p => mkWord [(16, 16, toBits 16 p.1), (0, 16, toBits 16 p.2)]
        let s := s.modBst fun b => { b with achkConv := conv, achkRng := FMap.putAll (fun _ => 0) [] 0 words }
        if rng.2 then retireConv g conv (endCheck 0 (0x9000 ||| rng.1) s)
        else
          match (if loops then exc else none) with
          | some mv =>
            let ok := decide ((mv : Int) * 100 ≤ x.excMv * 102) && decide ((x.excMv : Int) * 98 ≤ mv * 100)
            let s := endCheck 0 (0xA000 ||| rng.1 ||| (if ok then 0x4000 else 0)) (s.modBst fun b => { b with achkExc := mv % 65536 })
            if reliefDue x then s else freeRelief g s
          | none =>
            let s := endCheck 0 (0x8000 ||| rng.1) s
            if reliefDue x then s else freeRelief g s)

end Sys2Proof.Machine
end

