-- ==== Sys2Proof/Machine/Firmware.lean ====
section
/-! DEFINITION. Firmware images: staging, exchange, trial, the boot record, the flash window and the customer key (R442–R458). -/

namespace Sys2Proof.Machine

/-! ## State (R457) -/

/-- FWL.STAT.STATE changes. -/
def fwState (st : Nat) (s : State) : State :=
  let was := s.fwl.state
  let s := s.modFwl fun w => { w with state := st }
  if was = st then s else bumpGen pgFWL s

/-- A cause that concerns the supervisor (R458). -/
def fwRaise (bit code : Nat) (s : State) : State := raise pgFWL bit (0xFE00 + code) s

/-- A command refused in this state (R444, R453). Log 65 (DEDUCED). -/
def fwRefuse (s : State) : State := s.modFwl fun w => { w with err := 8 }

/-- Staging or a swap fails (R451). -/
def fwFail (code st : Nat) (s : State) : State := fwRaise fwlSTAGEFAIL code (fwState st (s.modFwl fun w => { w with err := code }))

/-! ## Partners (R448, R456) -/

/-- The partners that run an image. -/
def partners (s : State) : List Nat := (List.range 40).filter fun t => decide ((FMap.get (fun _ => ({} : Pair)) s.fwl.pairs t).mode ≠ 0)

/-- The header a partner pairs under; a Tattoo body without one in the program store takes the supervisor's version. -/
def partnerHdr (t ifver : Nat) (s : State) : Hdr :=
  let h := FMap.get (fun _ => ({} : Hdr)) s.fwl.hdrs t
  if 16 ≤ t ∧ (programImage h.digest s).isNone then plainHdr h.digest ifver else h

/-- Every pair is formed anew with the running supervisor (R448, R450). -/
def repair (s : State) : State :=
  let v := match s.fwl.run with
    | some h => h.ifver
    | none => 0
  (partners s).foldl (fun s t => (pairWith t (partnerHdr t v s) (FMap.get (fun _ => ({} : Pair)) s.fwl.pairs t).lg s).1) (refreshOffer s)

/-! ## Boot (R445, R446) -/

/-- The boot record in force: of the good copies the one with the higher SEQ, else bank A and an empty table. Log 63 (DESIGN CHOICE). -/
def bootRec (s : State) : Boot :=
  s.fwl.boots.foldl (fun a b => if b.ok ∧ (a.ok = false ∨ a.seq < b.seq) then b else a) {}

/-- The boot loader (R446): ACTIVE, else the other bank; with neither, no supervisor runs. -/
def bootLoad (s : State) : State :=
  let a := (bootRec s).active
  let run (bank : Nat) (alt : Bool) (h : Hdr) (s : State) : State :=
    goldLoaded (refreshOffer (bumpGen pgFWL (s.modFwl fun w => { w with run := some h, bank := bank, alt := alt })))
  let m := bankImage a s
  if m.1 = 0 then run a false m.2 s
  else
    let o := bankImage (1 - a) s
    if o.1 = 0 then fwRaise fwlBOOTALT 0 (run (1 - a) true o.2 s) else s

/-! ## Exchange (R451–R453) -/

/-- FW_STAGE. Log 65 (DEDUCED). -/
def execFwStage (r : Req) (s : State) : Out3 :=
  .next (gatedFirmware r pgFWL (fun s => if s.fwl.state = 0 ∨ s.fwl.state = 6 then fwState 1 (s.modFwl fun w => { w with err := 0 }) else fwRefuse s) s)

/-- STAGE_DONE (R451 step 2): whether the flash was read, then R443 and every pair. -/
def execStageDone (good : Bool) (s : State) : Out3 :=
  .next (
    if s.fwl.state ≠ 1 then s
    else if good = false then fwFail 7 0 s
    else
      let m := bankImage (1 - s.fwl.bank) s
      if m.1 ≠ 0 then fwFail m.1 0 s
      else if (partners s).any fun t => pairRefused m.2 (partnerHdr t m.2.ifver s) then fwFail 5 0 s
      else fwRaise fwlSTAGED 0 (fwState 2 (s.modFwl fun w => { w with staged := some m.2 })))

/-- FW_SWAP (R451 step 3); a customer key burnt since staging asks for the countersignature now (R444). Log 65 (DEDUCED). -/
def execFwSwap (r : Req) (s : State) : Out3 :=
  .next (gatedFirmware r pgFWL (fun s =>
    if s.fwl.state ≠ 2 then fwRefuse s
    else if hdrErr 1 (flashRead (bankBase (1 - s.fwl.bank)) 1024 s) s ≠ 0 then
      fwFail (hdrErr 1 (flashRead (bankBase (1 - s.fwl.bank)) 1024 s) s) 2 s
    else fwState 3 (s.modFwl fun w => { w with err := 0, back := false })) s)

/-- What R451 step 3 asks of an idle boundary and the hub itself can see. Log 65 (DEDUCED). -/
def idleBoundary (s : State) : Bool :=
  let t := (now s).total
  let soon (n : Nat) : Bool := decide (t ≤ n) && decide (n ≤ t + 1000000)
  s.lsh.jout.isEmpty &&
    !(match s.pln.armed with
      | some a => soon (a * nsPerSec)
      | none => false) &&
    !(match s.tim.ann with
      | some a => soon a.te
      | none => false) &&
    !(isHolder s && (match s.lsh.renewAt with
      | some r => decide (r + periodNs s / 5 ≤ s.tim.up + 1000000)
      | none => false)) &&
    !(s.bst.isls.any fun e => e.2.forced)

/-- SWAP_IDLE_BOUNDARY: the handover starts; a slice under way is abandoned uncounted (R453). Log 65 (DEDUCED). -/
def execSwapIdleBoundary (s : State) : Out3 := .next (if s.fwl.state = 3 ∧ idleBoundary s then fwState 4 (dropSlices s) else s)

/-- HANDOVER_DONE (R451 steps 4 and 5, R452): the images change places; SWAPPED starts a trial, REVERTED ends one. -/
def execHandoverDone (s : State) : Out3 :=
  .next (
    if s.fwl.state ≠ 4 then s
    else
      let back := s.fwl.back
      let s := s.modFwl fun w => { w with run := w.staged, staged := w.run, bank := 1 - w.bank, back := false }
      let s := fwState (if back then 2 else 5) s
      repair (goldLoaded (fwRaise (if back then fwlREVERTED else fwlSWAPPED) 0 s)))

/-- SWAP_TIMEOUT: no idle boundary within 100 ms; a reversion goes on waiting. -/
def execSwapTimeout (s : State) : Out3 := .next (if s.fwl.state = 3 ∧ s.fwl.back = false then fwFail 6 2 s else s)

/-- The boot record written (R445, R448): the copy with the lower SEQ takes SEQ + 1, the running bank and the last-good table. Log 63 (DESIGN CHOICE). -/
def writeBoot (s : State) : State :=
  let old := bootRec s
  let c0 := nth {} s.fwl.boots 0
  let c1 := nth {} s.fwl.boots 1
  let table := s.fwl.good.foldl (fun t e => e :: t.filter (·.1 ≠ e.1)) old.table
  let new : Boot := { ok := true, seq := (old.seq + 1) % 2 ^ 32, active := s.fwl.bank, table := table }
  s.modFwl fun w => { w with good := [], boots := if c0.ok ∧ (c1.ok = false ∨ c1.seq < c0.seq) then [c0, new] else [new, c1] }

/-- FW_CONFIRM (R451 step 6). -/
def execFwConfirm (r : Req) (s : State) : Out3 :=
  .next (gatedFirmware r pgFWL (fun s => if s.fwl.state = 5 then fwRaise fwlCONFIRMED 0 (fwState 6 (writeBoot (s.modFwl fun w => { w with err := 0 }))) else fwRefuse s) s)

/-- A trial is reverted at the next idle boundary (R452). -/
def revertTrial (s : State) : State := if s.fwl.state = 5 then fwState 3 (s.modFwl fun w => { w with back := true }) else s

/-- FW_REVERT (R452). -/
def execFwRevert (r : Req) (s : State) : Out3 :=
  .next (gatedFirmware r pgFWL (fun s => if s.fwl.state = 5 then revertTrial (s.modFwl fun w => { w with err := 0 }) else fwRefuse s) s)

/-- TRIAL_TIMEOUT (R452). -/
def execTrialTimeout (s : State) : Out3 := .next (revertTrial s)

/-- LEASE_EXPIRY (R258, R452): the lease ends; on trial, an image that missed its renewals is reverted. -/
def execLeaseExpiry (s : State) : Out3 := .next (let t := leaseExpires s
    if isHolder s ∧ isHolder t = false then revertTrial t else t)

/-! ## Customer key (R444) -/

/-- The first 64 bytes of the page buffer; bytes never filled are free. Log 66 (DESIGN CHOICE). -/
def keyBytes (s : State) : List Byte := (List.range 64).map fun k => if k < s.fwl.page.length then nth 0 s.fwl.page k else Config.freeByte s.free k

/-- CKEY_BURN. Log 66 (DESIGN CHOICE). -/
def execCkeyBurn (r : Req) (s : State) : Out3 :=
  .next (gatedFirmware r pgFWL (fun s =>
    if s.fuse.ckey.isSome ∨ s.fuse.ckeyBusy.isSome then fwRefuse s
    else
      let k := keyBytes s
      let s := s.modFuse fun f => { f with ckeyBusy := some (beNat (k.take 32), beNat (k.drop 32)) }
      if s.fwl.page.length < 64 then s.modFree (· + 1) else s) s)

/-- CKEY_BURN_DONE. Log 66 (DESIGN CHOICE). -/
def execCkeyBurnDone (s : State) : Out3 :=
  .next (if s.fuse.ckeyBusy.isSome then s.modFuse fun f => { f with ckey := f.ckeyBusy, ckeyBusy := none } else s)

/-! ## The flash window (R447) -/

/-- FL_ADDR. -/
def flAddr (s : State) : Nat := (rfGet 0x06090 s).toNat % flashSize

/-- Whether a range touches the running bank, a bank staged or on trial, or the boot records. -/
def protected_ (a n : Nat) (s : State) : Bool :=
  let hits (lo size : Nat) : Bool := decide (a < lo + size) && decide (lo < a + n)
  hits 0 0x10000 || hits (bankBase s.fwl.bank) 0x400000 ||
    (decide (1 ≤ s.fwl.state) && decide (s.fwl.state ≤ 5) && hits (bankBase (1 - s.fwl.bank)) 0x400000)

/-- A flash operation asked for; one under way keeps the window. Log 63 (DESIGN CHOICE). -/
def flStart (op a n : Nat) (s : State) : State :=
  if s.fwl.flOp.isSome then s
  else if protected_ a n s then s.modFwl fun w => { w with flErr := 1 }
  else s.modFwl fun w => { w with flOp := some (op, a), flErr := 0 }

/-- FLASH_PROGRAM. Log 63 (DESIGN CHOICE). -/
def execFlashProgram (r : Req) (s : State) : Out3 := .next (gatedFirmware r pgFWL (fun s => flStart 1 (flAddr s) (max 1 s.fwl.page.length) s) s)
/-- FLASH_ERASE. -/
def execFlashErase (r : Req) (s : State) : Out3 := .next (gatedFirmware r pgFWL (fun s => flStart 2 (flAddr s / 0x10000 * 0x10000) 0x10000 s) s)

/-- FLASH_OP_DONE: the page is in flash and the buffer empty, or the sector erased; a range whose operation failed holds free bytes. Log 63 (DESIGN CHOICE). -/
def execFlashOpDone (good : Bool) (s : State) : Out3 :=
  .next (
    match s.fwl.flOp with
    | none => s
    | some (op, a) =>
      let n := if op = 1 then min s.fwl.page.length (flashSize - a) else 0x10000
      let free := (List.range n).map (Config.freeByte s.free)
      let s := if good then s.modMem fun m => if op = 1 then Memory.writeN m (flashBase + a) (s.fwl.page.take n) else Memory.clear m (flashBase + a) n
        else (s.modMem fun m => Memory.writeN (Memory.clear m (flashBase + a) n) (flashBase + a) free).modFree (· + 1)
      s.modFwl fun w => { w with flOp := none, flErr := if good then 0 else if op = 1 then 2 else 3, page := if op = 1 then [] else w.page })

/-- FL_DATA_WRITE. -/
def execFlDataWrite (r : Req) (v : Word) (s : State) : Out3 :=
  .next (gatedFirmware r pgFWL (fun s => s.modFwl fun w => { w with page := if w.page.length + 4 ≤ 256 then w.page ++ leBytes 4 v.toNat else w.page }) s)

/-- The word FL_DATA reads: the layout of a boot record is not in the manual, so its bytes are free. -/
def flWord (s : State) : Word × State :=
  if flAddr s < 0x10000 then takeFree s else (BitVec.ofNat 32 (leNat (flashRead (flAddr s) 4 s)), s)

/-- A read of FL_DATA: four bytes at FL_ADDR, which steps on by 4. -/
def flRead (s : State) : Word × State :=
  let w := flWord s
  (w.1, rfPut 0x06090 (rfGet 0x06090 s + 4) w.2)

/-- FL_DATA_READ. -/
def execFlDataRead (r : Req) (s : State) : Out3 := .next (answer r 0x06094 (flRead s).1 (flRead s).2)

/-- HDR_TGT_WRITE: the header buffer empties. -/
def execHdrTgtWrite (r : Req) (v : Word) (s : State) : Out3 :=
  .next (gatedFirmware r pgFWL (fun s => rfPut 0x060A0 v (s.modFwl fun w => { w with hdrBuf := [] })) s)

/-- HDR_DATA_WRITE. -/
def execHdrDataWrite (r : Req) (v : Word) (s : State) : Out3 :=
  .next (gatedFirmware r pgFWL (fun s => s.modFwl fun w => { w with hdrBuf := if w.hdrBuf.length + 4 ≤ 1024 then w.hdrBuf ++ leBytes 4 v.toNat else w.hdrBuf }) s)

end Sys2Proof.Machine
end

