-- ==== Sys2Proof/Machine/Power.lean ====
section
/-! DEFINITION. Power, resets, standby and start-up (R459–R477). -/

namespace Sys2Proof.Machine

/-- Causes of PWR (R477). -/
def pwrANALOST : Nat := 1
def pwrANABACK : Nat := 2
def pwrVEXCLOW : Nat := 3
def pwrVIEPELOW : Nat := 4
def pwrTJHIGH : Nat := 5
def pwrWDOG : Nat := 6
def pwrRETBAD : Nat := 7
def pwrSTARTLATE : Nat := 8

/-- A bit of PWR.SUP takes a value; GEN follows a change (R476). -/
def setSup (k : Nat) (on : Bool) (s : State) : State :=
  if s.pwr.sup.testBit k = on then s else bumpGen pgPWR (s.modPwr fun w => { w with sup := putBit w.sup k on })

/-! ## The standby counter and the driver's window (R469, R476) -/

/-- STANDBY_COUNTER_COPY (R469). -/
def execStandbyCounterCopy (s : State) : Out3 :=
  .next (if s.pwr.good ∧ s.tim.set then s.modPwr fun w => { w with sbSec := s.tim.sec % 2 ^ 48, sbNs := s.tim.ns } else s)

/-- The word of RET_ADDR: 4–127. -/
def retAddr (s : State) : Nat := max 4 (wbits (rfGet 0x09064 s) 2 7)

/-- The word the driver's window shows (R476). -/
def retWord (s : State) : Word := BitVec.ofNat 32 (leNat ((List.range 4).map fun k => retByte s (4 * retAddr s + k)))

/-- A read of RET_DATA: the word at RET_ADDR, which steps on by 4. -/
def retRead (s : State) : Word × State := (retWord s, rfPut 0x09064 (BitVec.ofNat 32 (retAddr s * 4 + 4)) s)

/-- RET_DATA_ACCESS (R476): a read or a write of the word at RET_ADDR, which steps on by 4. -/
def execRetDataAccess (r : Req) (w : Option Word) (s : State) : Out3 :=
  let next (s : State) : State := rfPut 0x09064 (BitVec.ofNat 32 (retAddr s * 4 + 4)) s
  match w with
  | none => .next (answer r 0x09068 (retRead s).1 (retRead s).2)
  | some v => .next (gatedFirmware r pgPWR (fun s => next (putRet (4 * retAddr s) (leBytes 4 v.toNat) s)) s)

/-! ## Resets (R462) -/

/-- A full reset: everything but the standby domain, the fuses, the boot flash and the commands that wait; the hub is held until the next power good. Log 66 (DESIGN CHOICE), 67 (DEDUCED). -/
def fullReset (cause : Nat) (hot : Bool) (s : State) : State :=
  let keep := (FMap.put rfReset (FMap.put rfReset [] 0x09050 (rfGet 0x09050 s)) 0x09054 (rfGet 0x09054 s))
  { State.reset with
    pending := s.pending, rf := keep, mem := s.mem.filter fun e => decide (flashBase ≤ e.1),
    fuse := { s.fuse with ckeyBusy := none }, fwl := { boots := s.fwl.boots }, pln := { secs := s.pln.secs },
    pwr := { rst := cause, hot := hot, sbSec := s.pwr.sbSec, sbNs := s.pwr.sbNs, ret := s.pwr.ret, reason := s.pwr.reason,
             supEn := s.pwr.supEn, sealed := s.pwr.sealed, wakePend := s.pwr.wakePend },
    ana := { fac := s.ana.fac, refPos := s.ana.refPos, refNeg := s.ana.refNeg }, free := s.free, outbox := s.outbox }

/-- VSTBY_RISE (R470): the standby domain starts, its store undefined, and drives SUP_EN high. Log 7 (DESIGN CHOICE). -/
def execVstbyRise (s : State) : Out3 :=
  let s := fullReset 0 false s
  let s := rfPut 0x09054 0 (rfPut 0x09050 0x80000000 s)
  let ret := FMap.putAll (fun _ => 0) [] 0 ((List.range 512).map (Config.freeByte s.free))
  .next (drive (.supEn true) ((s.modPwr fun w =>
    { w with sbSec := 0, sbNs := 0, ret := ret, reason := 3, supEn := true, sealed := false, wakePend := none }).modFree (· + 1)))

/-- RESET_N_LOW (R461, R462). Log 67 (DEDUCED). -/
def execResetNLow (s : State) : Out3 := .next (if s.pwr.good then fullReset 2 s.pwr.hot s else s)

/-! ## What stands still, and what starts again (R465, R466, R474) -/

/-- The relief's work and the Tattoo program of a group end; GEN follows DUTY.OVL. -/
def stopGroup (g : Nat) (s : State) : State :=
  let s := if s.bst.running.contains g then leaveSlice g s else s
  let s := if (grp g s).ovl.isSome then groupGen g s else s
  modGrp g (fun x =>
    { x with ovl := none, freed := none, chk := none, runChks := [], q := [], task := 0, tgt := 0, trange := 0, fwin := false, rotWait := false, retry := none,
             tat := { detachTask x.tat with run := false, wait := none, skip := false, loops := [], wins := [], deferred := [], deferRun := none, defs := 0, framed := false } }) s

/-- Every group stands still. -/
def stopGroups (s : State) : State := if s.fuse.hx000 then s else (List.range 24).foldl (fun s g => stopGroup g s) s

/-- A chain starts with its state cleared at an instant in ns (R474): the first record whose window lies behind it, without H and Q, with C; comparators out of alarm. GEN follows OPEN_MAP and DUTY.RANGE. -/
def startChain (ts c : Nat) (s : State) : State :=
  let t : Int := (ts * 1024 : Nat)
  let x := chan c s
  let s := closeRuns c s
  let s := modChan c (fun x =>
    { x with spans := [], hist := [], ready := [], tb := none, tr := none, settle := false, pendF := false, rateSet := false, regr := false, hDue := false,
             swTo := none, swAt := none, skipAt := none, isOpen := false, brk := none, brkEnd := none, rail := 0, off := 0, mon := 0, biasLow := 0, dn := 0,
             old1 := ew x.w 1, range := eRange x.w, linOld := [], tabOld := [], leadsOld := [], rngOld := [], cAt := [(t - 1, false)], pulseOk := none,
             windowed := false, missed := 0 }) s
  let s := if x.isOpen then bumpGen pgCHW (condEnd (pgGroup (grpOf c)) inOPEN c s) else s
  let s := if x.range = eRange x.w then s else groupGen (grpOf c) s
  let s := modAlarm c (fun a => { a with c1 := {}, c2 := {} }) s
  modChan c (fun y => { y with nextT := if hasGrid y.w ∧ y.duty.isSome then some (firstStarting c t s) else none }) s

/-- The channels of a group start. -/
def startGroup (ts g : Nat) (s : State) : State := (groupSlots g).foldl (fun s c => startChain ts c s) s

/-- Tracks and weigh sections begin again (R465). -/
def restartServices (s : State) : State :=
  let s := (List.range 16).foldl (fun s k =>
    if (track k s).en then setTrackState k 1 (modTrack k (fun t => { t with edges := [], base := 0, j := 0, ins := [], rev0 := none }) s) else s) s
  (List.range 4).foldl (fun s k =>
    if (sect k s).en then modSect k (fun x => { x with on := [], inside := 0, span0 := none, spanned := none, recs := [] }) s else s) s

/-- Commits stored while parked take effect (R465): entries, linearisation slots, Tattoo bodies. -/
def applyStored (s : State) : State :=
  if s.fuse.hx000 then s
  else
    let s := (List.range 24).foldl (fun s g => if (grp g s).busy then groupEffect g (grp g s).iExc s else s) s
    let s := (List.range 320).foldl (fun s c =>
      let s := if (chan c s).busy then modChan c (fun y => { y with busy := false, swTo := none }) (chanEffect c s) else s
      if (linSlot (eLinSlot (chan c s).w) s).wait.contains c then linSwitch c s else s) s
    (List.range 24).foldl (fun s g =>
      match (tat g s).swapAt with
      | some t => if (tat g s).pend ∧ t ≤ (now s).total then swapTat g false s else s
      | none => s) s

/-! ## Start-up (R119, R472–R474) -/

/-- A converter that fails the check at power-up is retired (R119). -/
def failConv (g v : Nat) (s : State) : State :=
  if (grp g s).retired.testBit v then s
  else groupRaise g relRETIRED (convDetail v 0xFF) (groupGen g (modGrp g (fun y => { y with retired := putBit y.retired v true, due := FMap.put (fun _ => 0) y.due v 0 }) s))

/-- The channels of a group are assigned in ascending index to the lowest-numbered converters in service; the highest one left over is the relief (R119). -/
def assignConvs (g : Nat) (s : State) : State :=
  let n := groupSize g
  let ok := (List.range (n + 1)).filter fun v => inServiceConv g v s
  let had := (grp g s).relief.isSome
  let relief := if ok.length = n + 1 then some n else none
  let s := groupGen g (modGrp g (fun x => { x with relief := relief, blocked := x.blocked && relief.isNone }) s)
  let s := if relief.isSome then freeRelief g s else blockCamp g s
  let s := if had ∧ relief = none then groupRaise g relNORELIEF (convDetail 0xFF 0xFF) s else s
  (List.range n).foldl (fun s k =>
    let c := slotAt g k
    let s := modChan c (fun x => { x with duty := ok[k]?, coarse := ok[k]? }) s
    if (ok[k]?).isNone ∧ eCls (chan c s).w ≠ 0 then groupRaise g relCONVLOST (convDetail 0xFF k) s else s) s

/-- The groups whose converters a check covers: all of them before sampling, later those powered for a commit (R464). Log 59 (DEDUCED). -/
def checkedGroups (s : State) : List Nat :=
  if s.fuse.hx000 then []
  else if s.pwr.convOk ∧ s.pwr.sampling.isSome then (List.range 24).filter fun g => decide ((grp g s).wake = 1)
  else List.range 24

/-- CONVERTER_CHECK_DONE (R119, R464, R472 step 5): what the converters measured against the references; one that any measurement puts outside the limits predicted for the group temperature has failed. Log 59 (DEDUCED). -/
def execConverterCheckDone (meas : List RefMeas) (s : State) : Out3 :=
  .next (if s.fuse.hx000 ∨ s.pwr.anaLost ∨ s.pwr.state = 2 ∨ s.pwr.state = 3 ∨ s.pwr.state = 5 then s
    else
      let gs := checkedGroups s
      let bad := meas.filter fun m => gs.contains m.grp && decide (m.conv ≤ groupSize m.grp) && !(refCheckOk m.grp m.conv m.range (m.u0, m.up, m.un) s)
      let s := gs.foldl (fun s g => assignConvs g ((bad.filter (·.grp = g)).foldl (fun s m => failConv g m.conv s) s)) s
      let s := gs.foldl (fun s g => if (grp g s).wake = 1 then modGrp g (fun x => { x with wake := 2 }) s else s) s
      startMark 2 (s.modPwr fun w => { w with convOk := true }))

/-- SAMPLING_START (R464–R466, R472 step 8, R474, R475): at a whole 100 ms, the chains start, or start again; stored commits take effect, a parked hub runs. Log 69 (DEDUCED). -/
def execSamplingStart (s : State) : Out3 :=
  .next (
    let ts := (now s).total
    if s.tim.set = false ∨ s.tim.ns % 100000000 ≠ 0 ∨ s.pwr.anaLost ∨ s.pwr.state = 2 ∨ s.pwr.state = 3 ∨ s.pwr.state = 5 then s
    else if s.fuse.hx000 then
      (if s.pwr.state = 4 then
        let s := pwrState 1 (s.modPwr fun w => { w with tp := none })
        if wbits (rfGet 0x09040 s) 0 2 = 1 then pwrState 2 (s.modPwr fun w => { w with tp := some ((((now s).total + 100000000) + nsPerSec - 1) / nsPerSec * nsPerSec) }) else s
       else s)
    else if s.pwr.convOk = false then s
    else if s.pwr.sampling.isNone ∨ s.pwr.state = 4 ∨ (s.pwr.state = 0 ∧ s.tim.inserv = false) then
      let parked := s.pwr.stopped
      let s := s.modPwr fun w => { w with sampling := some ts, tp := none, stopped := false }
      let s := if parked then restartServices (applyStored s) else s
      let s := (List.range 24).foldl (fun s g => startGroup ts g (modGrp g (fun x => { x with wake := 0, since := none }) s)) s
      let s := reflex s
      if s.pwr.state = 4 then
        let s := pwrState 1 s
        if wbits (rfGet 0x09040 s) 0 2 = 1 then pwrState 2 (s.modPwr fun w => { w with tp := some ((((now s).total + 100000000) + nsPerSec - 1) / nsPerSec * nsPerSec) }) else s
      else s
    else
      (List.range 24).foldl (fun s g =>
        if (grp g s).wake = 2 then startGroup ts g (modGrp g (fun x => { x with wake := 0, since := some ts }) s) else s) s)

/-- Whether the straps are valid (R5, R23). Log 4 (DESIGN CHOICE). -/
def strapsOk (role pos : Nat) (hx000 : Bool) : Bool :=
  match role with
  | 0 => decide (1 ≤ pos) && decide (pos ≤ 124) && !hx000
  | 3 => true
  | _ => decide (pos = 0) || decide (pos = 127)

/-- The Leash of a manager at power-on (R260, R262): head A of a fixed pair holds it, any other manager knows no holder. Log 20 (DEDUCED). -/
def leashAtPower (s : State) : State :=
  if isManager s = false then s
  else if isHead s ∧ fixedHolder s ∧ s.pln.pos = 0 then bumpGen pgLSH (s.modLsh fun l => { l with lrole := 1, synced := true })
  else bumpGen pgLSH (s.modLsh fun l => { l with lrole := 4 })

/-- POWER_GOOD (R1, R23, R24, R196, R211, R260–R262, R461, R470, R472): straps sampled, the provisional count and the epoch set, the retained store checked. Log 4 (DESIGN CHOICE), 15, 68 (DEDUCED). -/
def execPowerGood (role : Fin 4) (pos : Fin 128) (mode : Fin 4) (vexc viepe : Bool) (s : State) : Out3 :=
  if s.pwr.good ∨ s.pwr.hot ∨ s.pwr.sealed then .next s
  else
    let ok := retValid s
    let head := decide (role.val = 2)
    let sup := if s.fuse.hx000 then 0x1F else 0x7F + (if vexc then 0x80 else 0) + (if viepe then 0x100 else 0)
    let s := bumpGen pgPWR (s.modPwr fun w => { w with good := true, sup := sup, retOk := ok })
    let s := leashAtPower (s.modPln fun l => { l with role := role.val, pos := pos.val, fspMode := mode.val })
    let s := if head then s.modTim fun t => { t with sec := s.pwr.sbSec, ns := s.pwr.sbNs, epoch := if ok then (retEpoch s + 1) % 2 ^ 32 else 0 } else s
    let s := if ok then (if head then putStore s.tim.epoch (retReason s) (retCount s) s else s) else raise pgPWR pwrRETBAD 0 (putStore 0 s.pwr.reason 0 s)
    let s := if strapsOk role.val pos.val s.fuse.hx000 then s
      else raise pgPLN plnSTRAP 0 (condStart pgPLN plnSTRAP 0 (bumpGen pgPLN (s.modPln fun l => { l with strapErr := true, err := 8 })))
    .next (if head ∧ timSrc s = 0 then setTime (bumpGen pgSRV (s.modSrv fun v => { v with state := 4, src := 26 })) else s)

/-- BOOT_LOAD_DONE (R445, R446, R472 steps 1 and 3): the supervisor runs, and the ports on which a slice can arrive leave the off state. With no valid image the hub stays in reset. Log 69 (DEDUCED). -/
def execBootLoadDone (s : State) : Out3 :=
  .next (
    if s.pwr.good = false ∨ s.fwl.run.isSome then s
    else
      let s := bootLoad s
      if s.fwl.run.isNone then s.modPwr fun w => { w with good := false }
      else
        let s := startMark 0 s
        let ps := if s.pln.role = 0 then List.range 8 else if isManager s then (List.range 16).map (· + 8) else []
        ps.foldl (fun s p => toHunt p s) s)

/-- Whether a start-up step of R472 has been reached. Log 69 (DEDUCED). -/
def stepReached (k : Nat) (s : State) : Bool :=
  match k with
  | 1 => started 0 s
  | 2 => decide (s.pci.speed ≠ 0)
  | 3 => started 0 s
  | 4 => started 1 s
  | 5 => s.fuse.hx000 || started 2 s
  | 6 => (usedPorts s).all fun p => decide ((lane p s).state = 4)
  | 7 => started 3 s
  | 8 => s.fuse.hx000 || s.pwr.sampling.isSome
  | 9 => started 4 s
  | 10 => started 6 s
  | _ => true

/-- START_BOUND_TIMER (R473): a step that misses its bound raises START_LATE. -/
def execStartBoundTimer (step : Fin 11) (s : State) : Out3 :=
  .next (if stepReached step.val s then s else raise pgPWR pwrSTARTLATE step.val s)

/-! ## Requests (R463, R465, R468, R476) -/

/-- The answer to a request. -/
def pwrErr (e : Nat) (s : State) : State := s.modPwr fun w => { w with err := e }

/-- A park request: t_p is the first whole second at least 100 ms away. Log 10 (DESIGN CHOICE), 69 (DEDUCED). -/
def parkReq (s : State) : State :=
  let s := s.modPwr fun w => { w with unparkWait := false }
  if s.tim.inserv = false ∨ s.pwr.state = 0 then pwrErr 3 s
  else if s.pwr.state = 1 then
    pwrState 2 (pwrErr 0 (s.modPwr fun w => { w with tp := some (((now s).total + 100000000 + nsPerSec - 1) / nsPerSec * nsPerSec) }))
  else pwrErr 0 s

/-- Parked: the dice come up again. -/
def startUnpark (s : State) : State :=
  let s := pwrState 4 (s.modPwr fun w => { w with unparkWait := false, convOk := false })
  if s.fuse.hx000 then s else drive (.dice true) s

/-- A request for run: an unpark while parking waits until parked (R475). Log 10 (DESIGN CHOICE), 69 (DEDUCED). -/
def unparkReq (s : State) : State :=
  if s.pwr.state = 3 then startUnpark (pwrErr 0 s)
  else if s.pwr.state = 2 then pwrErr 0 (s.modPwr fun w => { w with unparkWait := true })
  else pwrErr 0 s

/-- A standby request (R468): refused on a wrong key or a held Leash; the ports go idle, the store and the counter are written. Log 10 (DESIGN CHOICE). -/
def standbyReq (key : Nat) (s : State) : State :=
  if key ≠ 0xA5 then pwrErr 1 s
  else if isHolder s then pwrErr 2 s
  else if s.pwr.state = 5 then s
  else
    let s := pwrState 5 (pwrErr 0 s)
    let s := (List.range 24).foldl (fun s p => goIdle p s) s
    let s := putStore (if isHead s then s.tim.epoch else retEpoch s) (retReason s) (retCount s + 1) s
    if s.tim.set then s.modPwr fun w => { w with sbSec := s.tim.sec % 2 ^ 48, sbNs := s.tim.ns } else s

/-- A write of PWR.CTRL (R476). Log 10 (DESIGN CHOICE). -/
def pwrCtrl (v : Word) (s : State) : State :=
  let s := rfPut 0x09040 v s
  let key := wbits v 24 8
  if wbit v 2 then (if key = 0xA5 then fullReset 4 false s else pwrErr 1 s)
  else
    match wbits v 0 2 with
    | 1 => parkReq s
    | 3 => standbyReq key s
    | _ => unparkReq s

/-- PARK_REQUEST: a write of CTRL with REQ = 1. -/
def execParkRequest (r : Req) (v : Word) (s : State) : Out3 := .next (gatedFirmware r pgPWR (pwrCtrl ((v &&& 0xFFFFFFF8) ||| 1)) s)
/-- UNPARK_REQUEST: a write of CTRL with REQ = 0. -/
def execUnparkRequest (r : Req) (v : Word) (s : State) : Out3 := .next (gatedFirmware r pgPWR (pwrCtrl (v &&& 0xFFFFFFF8)) s)
/-- STANDBY_REQUEST: a write of CTRL with REQ = 3. -/
def execStandbyRequest (r : Req) (v : Word) (s : State) : Out3 := .next (gatedFirmware r pgPWR (pwrCtrl ((v &&& 0xFFFFFFF8) ||| 3)) s)
/-- PWR_DEVRST: a write of CTRL with DEVRST set. Log 67 (DEDUCED). -/
def execPwrDevrst (r : Req) (v : Word) (s : State) : Out3 := .next (gatedFirmware r pgPWR (pwrCtrl (v ||| 4)) s)

/-- PARK_STOP at t_p (R465): comparators leave alarm, rotation, Tattoo programs, order tracks and weigh sections stop. On the HX000 only STATE changes. Log 69 (DEDUCED). -/
def execParkStop (s : State) : Out3 :=
  .next (
    match s.pwr.tp with
    | none => s
    | some p =>
      if s.pwr.state ≠ 2 ∨ s.pwr.stopped ∨ (now s).total < p then s
      else if s.fuse.hx000 then
        let s := pwrState 3 s
        if s.pwr.unparkWait then startUnpark s else s
      else
        let s := (List.range 320).foldl (fun s c => restartCmpr c 2 (restartCmpr c 1 s)) s
        let s := stopGroups (restartServices (reflex s))
        s.modPwr fun w => { w with stopped := true })

/-- DICE_OFF_DONE (R465): the dice are off and the hub is parked; an unpark that waited is served. -/
def execDiceOffDone (s : State) : Out3 :=
  .next (
    if s.pwr.state ≠ 2 ∨ s.pwr.stopped = false then s
    else
      let s := drive (.dice false) (pwrState 3 (s.modPwr fun w => { w with sampling := none, convOk := false }))
      if s.pwr.unparkWait then startUnpark s else s)

/-! ## Standby (R468–R471) -/

/-- A wake (R471): SUP_EN rises, the reason is kept and written, and the next power good starts the hub. Log 7 (DESIGN CHOICE). -/
def wakeNow (reason : Nat) (s : State) : State :=
  let ok := retValid s
  let s := fullReset 5 false s
  let s := s.modPwr fun w => { w with reason := reason, supEn := true, sealed := false, wakePend := none }
  drive (.supEn true) (if ok then putStore (retEpoch s) reason (retCount s) s else putRet 4 (leBytes 1 reason) s)

/-- SUP_EN_FALL (R468): the main domain is held in reset; a wake that arose before is served. Log 68 (DEDUCED). -/
def execSupEnFall (s : State) : Out3 :=
  .next (
    if s.pwr.state ≠ 5 then s
    else
      let s := fullReset s.pwr.rst s.pwr.hot s
      let s := drive (.supEn false) (s.modPwr fun w => { w with supEn := false, sealed := true })
      match s.pwr.wakePend with
      | some k => wakeNow k s
      | none => s)

/-- A wake condition (R471): served in standby, remembered during the entry, else nothing. Log 68 (DEDUCED). -/
def wakeCond (reason : Nat) (s : State) : State :=
  if s.pwr.sealed then wakeNow reason s
  else if s.pwr.state = 5 ∧ s.pwr.wakePend = none then s.modPwr fun w => { w with wakePend := some reason }
  else s

/-- WAKE_PIN: WAKE has been high for 1 ms. Log 68 (DEDUCED). -/
def execWakePin (s : State) : Out3 := .next (if wbit (rfGet 0x09050 s) 31 then wakeCond 1 s else s)
/-- WAKE_ALARM: the counter's seconds have reached WAKE_SEC. Log 68 (DEDUCED). -/
def execWakeAlarm (s : State) : Out3 :=
  .next (if wbit (rfGet 0x09050 s) 30 ∧ BitVec.ofNat 32 s.pwr.sbSec = rfGet 0x09054 s then wakeCond 2 s else s)

/-! ## Supplies and temperature (R459, R466, R467) -/

/-- The analogue supply is lost (R466): every channel is without a converter. Log 56 (DEDUCED). -/
def anaLost (bit : Nat) (s : State) : State :=
  let s := setSup bit false s
  if s.fuse.hx000 ∨ s.pwr.anaLost then s
  else
    let s := raise pgPWR pwrANALOST 0 s
    let s := s.modPwr fun w => { w with anaLost := true, sampling := none, convOk := false }
    let s := stopGroups s
    (List.range 24).foldl (fun s g =>
      let s := (groupSlots g).foldl (fun s c => modChan c (fun x => { x with duty := none, coarse := none, nextT := none }) s) s
      blockCamp g (groupGen g (modGrp g (fun x => { x with relief := none }) s))) s

/-- ANA_LOST: AVDD_LO, else AVDD, has fallen. -/
def execAnaLost (lo : Bool) (s : State) : Out3 := .next (if s.pwr.good ∧ s.fuse.hx000 = false then anaLost (if lo then 5 else 6) s else s)

/-- ANA_BACK (R466): both supplies have been good again for 100 ms. -/
def execAnaBack (s : State) : Out3 :=
  .next (if s.pwr.good ∧ s.pwr.anaLost then raise pgPWR pwrANABACK 0 (setSup 6 true (setSup 5 true (s.modPwr fun w => { w with anaLost := false }))) else s)

/-- SUPPLY_FALL (R459, R461, R462, R466): a core, lane or IO supply resets the hub; an analogue one is lost under R466. Log 67 (DEDUCED). -/
def execSupplyFall (rail : Fin 7) (s : State) : Out3 :=
  .next (
    if s.pwr.good = false then s
    else if 5 ≤ rail.val then (if s.fuse.hx000 then s else anaLost rail.val s)
    else fullReset 1 s.pwr.hot s)

/-- VEXC_LOW: VEXC has fallen below 4.0 V, or risen again; not connected on an HX000 (R4). -/
def execVexcLow (low : Bool) (s : State) : Out3 :=
  .next (if s.fuse.hx000 then s else if low then raiseOnce pgPWR pwrVEXCLOW 0 0 (setSup 7 false s) else condEnd pgPWR pwrVEXCLOW 0 (setSup 7 true s))
/-- VIEPE_LOW: VIEPE has fallen below 20.0 V, or risen again; not connected on an HX000 (R4). -/
def execViepeLow (low : Bool) (s : State) : Out3 :=
  .next (if s.fuse.hx000 then s else if low then raiseOnce pgPWR pwrVIEPELOW 0 0 (setSup 8 false s) else condEnd pgPWR pwrVIEPELOW 0 (setSup 8 true s))

/-- The highest of a list of readings. -/
def maxInt : Int → List Int → Int
  | a, [] => a
  | a, b :: l => maxInt (max a b) l

/-- JUNCTION_TEMP_READ (R467): the four readings of the core die beside those of the group dice, in 1/16 °C; 110 °C raises TJ_HIGH, 125 °C resets. -/
def execJunctionTempRead (core : List Int) (s : State) : Out3 :=
  .next (
    match core with
    | [] => s
    | a :: l =>
      let dice := if s.fuse.hx000 ∨ s.pwr.state = 3 ∨ s.pwr.good = false then [] else (List.range 24).map fun g => (grp g s).temp
      let t := maxInt a (l ++ dice)
      if s.pwr.good = false then s.modPwr fun w => { w with hot := w.hot && decide (1600 ≤ t) }
      else if 2000 ≤ t then fullReset 3 true s
      else
        let s := s.modPwr fun w => { w with tj := t, tjPeak := max w.tjPeak t }
        if 1760 ≤ t then raiseOnce pgPWR pwrTJHIGH 0 0 s
        else if t < 1680 then condEnd pgPWR pwrTJHIGH 0 s
        else s)

/-! ## Watchdog (R462) -/

/-- WATCHDOG_EXPIRY: the supervisor island restarts; hardware paths keep running. -/
def execWatchdogExpiry (s : State) : Out3 :=
  .next (if s.pwr.good = false ∨ s.fwl.wdogDown then s
    else raise pgPWR pwrWDOG 0 ((s.modPwr fun w => { w with wdog := satAdd 15 w.wdog 1 }).modFwl fun w => { w with wdogDown := true }))

/-- WATCHDOG_RESTART_DONE. -/
def execWatchdogRestartDone (s : State) : Out3 := .next (s.modFwl fun w => { w with wdogDown := false })

end Sys2Proof.Machine
end

