-- ==== Sys2Proof/Machine/Plan.lean ====
section
/-! DEFINITION. The plan slice: its checks, loading, serving, staging and activation (R20–R28, R34–R39, R103, R169, R274, R355, R449). -/

namespace Sys2Proof.Machine

/-! ## The checks (R20, R22, R26) -/

/-- A slice is at most 2 MiB long. -/
def sliceMax : Nat := 0x200000

/-- What the sections of a slice say, by its SLICE_DIGEST. Log 24 (DESIGN CHOICE). -/
def sectionsOf (digest : Nat) (s : State) : SliceBody :=
  match s.pln.secs.find? (·.1 = digest) with
  | some p => p.2
  | none => Config.freeSections digest

/-- The slice that bytes hold. Log 24 (DESIGN CHOICE). -/
def sliceOf (b : List Byte) (s : State) : Slice :=
  let d := beNat (slice b 40 32)
  { num := leNat (slice b 0 8), planDigest := beNat (slice b 8 32), digest := d, seg := leNat (slice b 76 2) % 512, hub := leNat (slice b 78 1),
    role := leNat (slice b 79 1), body := sectionsOf d s }

/-- Whether a cable class fits a port (R22). -/
def classFits (p cls : Nat) : Bool := if isCP p then cls = 0 ∨ cls = 1 ∨ cls = 2 ∨ cls = 5 else decide (3 ≤ cls) && decide (cls ≤ 5)

/-- The ports of a slice that have a use. -/
def portsWith (b : SliceBody) (use : Nat) : List Nat := (List.range 24).filter fun p => decide ((planPort b p).use = use)

/-- Whether ring terminations name rings below a limit, each once. -/
def ringsOnce (b : SliceBody) (ps : List Nat) (lim : Nat) : Bool :=
  let rs := ps.map fun p => (planPort b p).ring
  (rs.all fun r => decide (r < lim)) && decide (rs.eraseDups.length = rs.length)

/-- Check 6 of R26: uses by role (R20), classes by port kind (R22); the class of an unused port is not looked at. Log 77 (DESIGN CHOICE). -/
def portsOk (role : Nat) (b : SliceBody) : Bool :=
  let cp (l : List Nat) : Bool := l.all isCP
  let mp (l : List Nat) : Bool := l.all fun p => !isCP p
  let u (k : Nat) : List Nat := portsWith b k
  let duplex := decide (u 5 = []) || (match u 5 with
    | [a, c] => !isCP a && decide (a % 2 = 0) && decide (c = a + 1)
    | _ => false)
  let uses :=
    match role with
    | 0 => decide ((u 1).length = 1) && decide ((u 2).length = 1) && cp (u 1) && cp (u 2) && decide (u 3 = []) && decide (u 4 = []) && decide (u 5 = [])
    | 1 => cp (u 1) && ringsOnce b (u 1) 4 && decide (u 2 = []) && mp (u 3) && decide ((u 3).length ≤ 1) && mp (u 4) && decide ((u 4).length ≤ 1) && duplex
    | 2 => decide (u 1 = []) && decide (u 2 = []) && mp (u 3) && ringsOnce b (u 3) 8 && decide (u 4 = []) && duplex
    | _ => false
  uses && (List.range 24).all fun p => decide ((planPort b p).use ≤ 5) && (decide ((planPort b p).use = 0) || classFits p (planPort b p).cls)

/-- Whether a slice gives a physical channel a use. -/
def hasChannels (b : SliceBody) : Bool := b.channels.any fun c => decide (c.slot < 320) && decide (eCls c.words ≠ 0)

/-- The first check of R26 that fails, as PLN.STAT.ERR; 0 for an acceptable slice. Log 24 (DESIGN CHOICE). -/
def sliceErr (b : List Byte) (isOver : Bool) (s : State) : Nat :=
  let x := sliceOf b s
  let len := leNat (slice b 72 4)
  if s.pln.strapErr then 8
  else if isOver ∨ b.length < 128 ∨ sliceMax < len ∨ len ≠ b.length then 1
  else if sha256 (b.drop 128) ≠ x.digest then 2
  else if leNat (slice b 81 1) ≠ 1 ∧ leNat (slice b 81 1) ≠ 2 then 3
  else if x.role ≠ s.pln.role ∨ x.hub ≠ s.pln.pos then 4
  else if s.fuse.hx000 ∧ (leNat (slice b 80 1) ≠ 1 ∨ hasChannels x.body) then 5
  else if portsOk x.role x.body = false then 6
  else 0

/-- A slice is rejected (R20, R26). -/
def rejectSlice (e : Nat) (s : State) : State := raise pgPLN plnSLICEREJ 0 (bumpGen pgPLN (s.modPln fun l => { l with err := e }))

/-! ## Programs at an activation (R169, R339, R345, R449) -/

/-- A body and its header from the program store go into a core's standby bank, are committed as the driver would, and switch at the activation second. -/
def loadTc (n : Nat) (digest : Nat) (lg : Bool) (s : State) : State :=
  match programImage digest s with
  | none => refuseCommit n 2 s
  | some (h, body) =>
    let s := s.modMem fun m => Memory.writeN m (tcBase n + (1 - (tc n s).bank) * 0x10000) body
    let s := modTc n (fun t => { t with stLen := (body.length + 3) / 4, stBad := false }) s
    let s := commitImage n h lg false s
    if (tc n s).pend then modTc n (fun t => { t with switchAt := some (now s).total, pendSlice := false }) s else s

/-- The last-good digest of a target (R448). -/
def lastGood (tgt : Nat) (s : State) : Option Nat := ((bootRec s).table.find? (·.1 = tgt)).map (·.2)

/-- A core at an activation (R340, R345): a pending image that waited for it switches now, unless its shadow run or a GO is still to come; at power-up an image that the supervisor refuses gives way to the last-good one. Log 26, 28 (DEDUCED). -/
def activateTc (b : SliceBody) (boot : Bool) (s : State) (n : Nat) : State :=
  let t := tc n s
  match b.programs.find? (·.tgt = n) with
  | none => if t.pend ∧ t.pendSlice then cancelCommit n s else s
  | some p =>
    let same := decide (t.img.map (·.digest) = some p.digest) && decide (t.donorOf = none)
    if t.pend ∧ t.pendImg.map (·.digest) = some p.digest then
      (if t.pendSlice then modTc n (fun t => { t with switchAt := if t.shadow.isSome || t.shDone then none else some (now s).total, pendSlice := false }) s else s)
    else
      let s := match t.donorOf with
        | some live => cancelCommit live s
        | none => s
      let s := if t.pend then cancelCommit n s else s
      if same then leaveStopped n s
      else
        let s := loadTc n p.digest false s
        if boot ∧ (tc n s).pend = false ∧ (tc n s).err = 2 then
          match lastGood n s with
          | some d => loadTc n d true s
          | none => s
        else s

/-- At power-up a group whose body is refused runs its last-good one, if the program store holds it (R449). -/
def bootTat (s : State) (g : Nat) : State :=
  if (tat g s).base = false ∨ (tat g s).pend then s
  else
    match lastGood (16 + g) s with
    | none => s
    | some d =>
      match programImage d s with
      | none => s
      | some im =>
        if imageErr 3 im.1 im.2 s ≠ 0 then s
        else
          let ws := bodyWords 256 im.2
          let m := ((List.range ws.length).zip ws).foldl (fun m k => FMap.put (fun _ => (0 : Word)) m k.1 k.2) []
          swapTat g true (modTat g (fun t => setStandby m { t with stLen := ws.length, pend := true, pFrame := hField im.1 128 1, pDigest := d, waitSlice := false }) s)

/-! ## Activation (R36, R37, R103, R274, R355) -/

/-- The contracts of a slice against those here: unchanged ones continue, changed ones start afresh, those the old slice held and the new one does not end now. Log 26 (DEDUCED). -/
def activateCons (old new : List (Nat × Contract)) (s : State) : State :=
  let s := (old.filter fun p => !(new.any fun q => decide (q.1 = p.1))).foldl (fun s p =>
    if (con p.1 s).state = 0 ∨ (con p.1 s).state = 4 then s else bumpGen pgMRG (modCon p.1 (fun k => { k with state := 3, endSec := some s.tim.sec }) s)) s
  new.foldl (fun s p =>
    let k := con p.1 s
    if k.ent = some p.2 ∧ (k.state = 1 ∨ k.state = 2) then s
    else
      let s := if k.ent.isSome then (k.runs.map (·.slot)).foldl (fun s slot => closeRun slot s p.1) s else s
      let s := (modCon p.1 (fun _ => {}) s).modDel fun d => { d with ins := d.ins.filter (·.con ≠ p.1) }
      startCon p.1 (installCon p.1 p.2 s.tim.sec none s)) s

/-- A queue's region and settings from the slice (R307). Log 26 (DEDUCED). -/
def activateQueue (s : State) (q : Nat × Word × Word) : State :=
  bumpGen pgQUE (modQue q.1 (fun u =>
    { u with en := wbit q.2.1 31, prod := wbits q.2.1 14 2, pnum := wbits q.2.1 10 4, cons := wbits q.2.1 8 2, cnum := wbits q.2.1 4 4,
             base := wbits q.2.2 16 10, size := wbits q.2.2 0 11, err := 0 }) s)

/-- The alarm thresholds of a channel from the slice (R355). Log 26 (DEDUCED). -/
def activateAlarm (b : SliceBody) (s : State) (c : Nat) : State :=
  let t : Word × Word × Word := match b.channels.find? (·.slot = c) with
    | some p => (p.thr1, p.thr2, p.hys)
    | none => (0, 0, 0)
  let a := alarm c s
  if a.thr1 = t.1 ∧ a.thr2 = t.2.1 ∧ a.hys = t.2.2 then s
  else modAlarm c (fun a => { a with thr1 := t.1, thr2 := t.2.1, hys := t.2.2 }) s

/-- Whether a port's use, cable class or expected neighbour differs (R36). -/
def portChanged (a b : PortPlan) : Bool := decide (a ≠ b)

/-- A capability exchange at once on a quarantined port (R31): a new exchange number, and the block. -/
def recheckPort (s : State) (p : Nat) : State :=
  if (port p s).q ∧ ((lane p s).state = 2 ∨ (lane p s).state = 3) then
    sendCap p (modLane p (fun l => { l with xn := (l.xn + 1) % 256 }) s)
  else s

/-- A capability exchange at once on a port in use, whatever its state (R37). Log 26 (DEDUCED). -/
def recheckAny (s : State) (p : Nat) : State :=
  if (portPlan p s).use ≠ 0 ∧ 1 ≤ (lane p s).state ∧ (lane p s).state ≤ 4 then
    sendCap p (modLane p (fun l => { l with xn := (l.xn + 1) % 256 }) s)
  else s

/-- A slice becomes active: identity, ports, time, queues, channels, rules, programs and contracts. Log 26 (DEDUCED). -/
def activate (x : Slice) (src : Nat) (s : State) : State :=
  let old := s.pln.active
  let ob := match old with
    | some a => a.body
    | none => SliceBody.empty
  let b := x.body
  let moved := (List.range 24).filter fun p => old.isSome && portChanged (planPort ob p) (planPort b p)
  -- under the old plan: a changed port leaves its hop
  let s := moved.foldl (fun s p => if (lane p s).state = 0 then s else toHunt p s) s
  let s := condEnd pgPLN plnMISSED 0 s
  let s := bumpGen pgPLN (s.modPln fun l => { l with active := some x, src := src, req := false, missed := false, retryWait := false, dl := [], dlLen := 0 })
  let s := startMark 1 s
  let s := (List.range 24).foldl (fun s p =>
    if (planPort b p).use = 0 then (if (lane p s).state = 0 then s else portOff p s)
    else if (lane p s).state = 0 then toHunt p s
    else if moved.contains p then modLane p (fun l => { l with peakCur := peakStart p s }) s
    else s) s
  let s := (List.range 24).foldl (fun s p => breakHop p (setTxDis p (modPort p (fun q => { q with fresh := false }) s))) s
  let s := (List.range 8).foldl losPlan s
  let s := match b.timCtrl with
    | some w => rfPut 0x03040 w s
    | none => s
  let s := match b.gains with
    | some w => s.modSrv fun v => { v with gains := w &&& 0xFFFFFF00 }
    | none => s
  let s := s.modDel fun d => { d with mergeMiB := b.mergeMiB }
  let s := b.queues.foldl activateQueue s
  let s := rewriteLins b (rewriteEntries b s)
  let s := if s.fuse.hx000 then s else (List.range 320).foldl (activateAlarm b) s
  let s := (List.range 64).foldl (fun s k =>
    match b.rules.find? (·.1 = k) with
    | some r => putRule k r.2.1 r.2.2 s
    | none => if (rule k s).a = 0 ∧ (rule k s).b = 0 then s else putRule k 0 0 s) s
  let s := activateTats b old.isSome s
  let s := if old.isNone ∧ s.fuse.hx000 = false then ((List.range 24).filter fun g => b.programs.any fun p => decide (p.tgt = 16 + g)).foldl bootTat s else s
  let s := (List.range 16).foldl (activateTc b old.isNone) s
  activateCons ob.contracts b.contracts s

/-! ## Loading (R26, R27, R34, R39) -/

/-- The load buffer empties. -/
def emptyLoad (s : State) : State := bumpGen pgPLN (s.modPln fun l => { l with loadBuf := [], loadOver := false })

/-- LOAD_DATA_WRITE (R39): the first word after an empty buffer changes STAT.STATE. -/
def execLoadDataWrite (r : Req) (v : Word) (s : State) : Out3 :=
  .next (gated r pgPLN (fun s =>
    let s := if s.pln.loadBuf = [] then bumpGen pgPLN s else s
    s.modPln fun l =>
      if sliceMax < l.loadBuf.length + 4 then { l with loadOver := true } else { l with loadBuf := l.loadBuf ++ leBytes 4 v.toNat }) s)

/-- The loaded slice is checked, and made active where none is (R26, R27 step 1). -/
def goSlice (s : State) : State :=
  let e := sliceErr s.pln.loadBuf s.pln.loadOver s
  let x := sliceOf s.pln.loadBuf s
  let s := emptyLoad s
  if e ≠ 0 then rejectSlice e s
  else if s.pln.active.isSome then s
  else activate x 1 s

/-- LOAD_GO (R26, R27 step 1): during start-up it puts the loaded slice before the search of the boot flash. -/
def execLoadGo (r : Req) (s : State) : Out3 := .next (gated r pgPLN goSlice s)

/-- A slice is staged (R34). -/
def stageSlice (x : Slice) (src : Nat) (s : State) : State :=
  raise pgPLN plnSTAGED 0 (bumpGen pgPLN (s.modPln fun l => { l with pend := some x, pendSrc := src }))

/-- STAGE (R39). -/
def execStage (r : Req) (s : State) : Out3 :=
  .next (gated r pgPLN (fun s =>
    let e := sliceErr s.pln.loadBuf s.pln.loadOver s
    let x := sliceOf s.pln.loadBuf s
    let s := emptyLoad s
    if e ≠ 0 then rejectSlice e s else stageSlice x 1 s) s)

/-- DISCARD (R39). -/
def execDiscard (r : Req) (s : State) : Out3 :=
  .next (gated r pgPLN (fun s => journal (.actSec none) (bumpGen pgPLN ((emptyLoad s).modPln fun l => { l with pend := none, armed := none }))) s)

/-- RECHECK (R31, R39). -/
def execRecheck (r : Req) (s : State) : Out3 := .next (gated r pgPLN (fun s => (List.range 24).foldl recheckPort s) s)

/-- The slots of the boot flash that hold slices (R445). Log 24 (DESIGN CHOICE). -/
def flashSlices (s : State) : List (List Byte) :=
  ([0, 1, 2, 3] : List Nat).filterMap fun k =>
    let a := 0x1800000 + k * sliceMax
    let len := leNat (flashRead (a + 72) 4 s)
    if len ≤ sliceMax then some (flashRead a len s) else none

/-- SLICE_SEARCH (R27 steps 1 and 2): a slice in the driver's buffer goes before the boot flash, of which the first acceptable slice is taken; each one before it is rejected. Log 24 (DESIGN CHOICE). -/
def execSliceSearch (s : State) : Out3 :=
  .next (
    if s.pln.active.isSome ∨ s.pln.strapErr ∨ s.pln.role = 3 then s
    else
      let s := if s.pln.loadBuf = [] then s else goSlice s
      (flashSlices s).foldl (fun s b =>
        if s.pln.active.isSome then s
        else
          let e := sliceErr b false s
          if e = 0 then activate (sliceOf b s) 2 s else rejectSlice e s) s)

/-! ## Requests to a manager (R27, R28) -/

/-- Whether this hub asks a manager for its slice: it has none, or missed an activation; never a head. Log 25 (DEDUCED). -/
def wantsSlice (s : State) : Bool :=
  !s.pln.strapErr && decide (s.pln.role < 2) && (s.pln.active.isNone || s.pln.missed)

/-- The request goes out on every port in quarantine, hop-local, its segment fields unknown. Log 18, 25 (DEDUCED). -/
def sendSliceReq (s : State) : State :=
  let s := bumpGen pgPLN (s.modPln fun l => { l with req := true })
  let c : CtrlBlk := { dseg := 0, dhub := 125, sseg := 0, shub := s.pln.pos, sub := 0x08, subByte := 1, fields := s.pln.pos, more := [] }
  sendCtrlAll ((List.range 24).filter fun p => (port p s).q && decide (2 ≤ (lane p s).state)) c s

/-- SLICE_REQ_TIMER: every 100 ms until a slice is accepted. -/
def execSliceReqTimer (s : State) : Out3 := .next (if wantsSlice s ∧ s.pln.retryWait = false then sendSliceReq s else s)

/-- SLICE_RETRY_TIMER (R28): 100 ms after a served slice was rejected. Log 25 (DEDUCED). -/
def execSliceRetryTimer (s : State) : Out3 :=
  .next (if s.pln.retryWait then
    let s := s.modPln fun l => { l with retryWait := false }
    if wantsSlice s then sendSliceReq s else s
  else s)

/-- SLICE_REQ_RECEIVE (R27): a request from the neighbour takes its segment from the PORTS entry and goes on to the holder of the pair that serves it, which queues it. Log 25 (DEDUCED). -/
def execSliceReqReceive (p : Port) (seg pos : Nat) (unknown : Bool) (s : State) : Out3 :=
  .next (
    match s.pln.active with
    | none => s
    | some _ =>
      let u := portPlan p.val s
      let seg := if unknown then u.seg else seg
      let mgr := if unknown then decide (u.role = 1) else decide (pos = 0) || decide (pos = 127)
      let target := if mgr then 0 else seg
      if isManager s ∧ mySeg s = target ∧ isHolder s then
        let q := (p.val, seg * 128 + pos)
        s.modPln fun l => { l with serveQ := if l.serveQ.any fun x => decide (x.2 = q.2) then l.serveQ else l.serveQ ++ [q] }
      else
        sendCtrl { dseg := target, dhub := holderOf target s, sseg := seg, shub := pos, sub := 0x08, subByte := 0, fields := pos, more := [] } s)

/-- The SLICE_DATA blocks of a slice (R28, R302): 96 bytes each, the offset in bits [63:32]. -/
def sliceBlocks (dseg dhub : Nat) (s : State) : Nat → Nat → List Byte → List CtrlBlk
  | 0, _, _ => []
  | _, _, [] => []
  | n + 1, off, bs =>
    let ws := (List.range 6).map fun k => BitVec.ofNat 128 (leNat (slice bs (16 * k) 16))
    ctrlBlk dseg dhub 0x09 0 (off * 2 ^ 32) ws s :: sliceBlocks dseg dhub s n (off + 96) (bs.drop 96)

/-- A slice for a device in this manager's own boot flash. Log 25 (DEDUCED). -/
def flashSlice (dev : Nat) (s : State) : Option (Nat × List Byte) :=
  ((flashSlices s).find? fun b => decide ((sliceOf b s).seg * 128 + (sliceOf b s).hub = dev)).map fun b => (dev, b)

/-- SLICE_SERVE (R28): the oldest request is served. Log 25 (DEDUCED). -/
def execSliceServe (s : State) : Out3 :=
  .next (
    match s.pln.serveQ with
    | [] => s
    | (_, dev) :: rest =>
      let s := s.modPln fun l => { l with serveQ := rest }
      match (s.pln.store.find? (·.1 = dev)).or (flashSlice dev s) with
      | some x => (sliceBlocks (dev / 128) (dev % 128) s (x.2.length / 96 + 1) 0 x.2).foldl (fun s c => sendCtrl c s) s
      | none => s)

/-- A slice has arrived whole from a manager (R28, R37): accepted and made active at once, or rejected and asked for again after 100 ms; with the digest of SLICES that the manager holds for it, where that has come. Log 25 (DEDUCED), 77 (DESIGN CHOICE). -/
def takeServed (b : List Byte) (held : Option Nat) (s : State) : State :=
  let e := sliceErr b false s
  let e := if e = 0 ∧ held.isSome ∧ held ≠ some (sliceOf b s).digest then 2 else e
  let s := s.modPln fun l => { l with dl := [], dlLen := 0 }
  if e ≠ 0 then rejectSlice e (s.modPln fun l => { l with retryWait := true })
  else
    let late := s.pln.missed
    let s := activate (sliceOf b s) 3 s
    if late then (List.range 24).foldl recheckAny s else s

/-- SLICE_DATA_RECEIVE (R28). -/
def execSliceDataReceive (b : SlicePart) (held : Option Nat) (s : State) : Out3 :=
  .next (
    if wantsSlice s = false ∨ s.pln.retryWait ∨ sliceMax ≤ b.off then s
    else
      let s := if s.pln.dl = [] ∧ s.pln.active.isNone then bumpGen pgPLN s else s
      let s := s.modPln fun l => { l with dl := FMap.putAll (fun _ => 0) l.dl b.off (b.bytes.take 96), dlLen := max l.dlLen (b.off + b.bytes.length) }
      let len := leNat ((List.range 4).map fun k => FMap.get (fun _ => (0 : Byte)) s.pln.dl (72 + k))
      if len = 0 ∨ s.pln.dlLen < len then s
      else takeServed (FMap.getAll (fun _ => 0) s.pln.dl 0 len) held s)

/-! ## Changing the plan (R34–R37) -/

/-- The pending identity and the activation second go on to every hub below (R36, R302). Log 18 (DEDUCED). -/
def tellPend (sec : Nat) (s : State) : State :=
  match s.pln.pend with
  | some x => if isManager s then sendCtrlAll (ringPorts s) (ctrlBlk 0 126 0x0A 0 sec [BitVec.ofNat 128 x.num, BitVec.ofNat 128 x.planDigest, BitVec.ofNat 128 (x.planDigest / 2 ^ 128)] s) s else s
  | none => s

/-- The activation second is armed, as ACT_SEC_LO and ACT_SEC_HI then read (R35, R36). -/
def armAt (sec : Nat) (s : State) : State :=
  bumpGen pgPLN (rfPut 0x0507C (BitVec.ofNat 32 sec) (rfPut 0x05080 (BitVec.ofNat 32 (sec / 2 ^ 32)) (s.modPln fun l => { l with armed := some sec })))

/-- ACT_SEC_ARM (R35): a write of ACT_SEC_HI; a second armed before a late write stays armed. Log 26 (DEDUCED), 77 (DESIGN CHOICE). -/
def execActSecArm (r : Req) (v : Word) (s : State) : Out3 :=
  .next (gated r pgPLN (fun s =>
    let sec := v.toNat * 2 ^ 32 + (rfGet 0x0507C s).toNat
    if sec < s.tim.sec + 2 then bumpGen pgPLN (s.modPln fun l => { l with err := 7 })
    else tellPend sec (journal (.actSec (some sec)) (armAt sec s))) s)

/-- PEND_SLICE_RECEIVE (R36, R37): the pending slice and its activation second arrive from a manager, which passes the second on; a rejected slice leaves the second, which passes as missed. -/
def execPendSliceReceive (bytes : List Byte) (sec : Nat) (s : State) : Out3 :=
  .next (
    let e := sliceErr bytes false s
    let s := if e ≠ 0 then rejectSlice e s else stageSlice (sliceOf bytes s) 3 s
    tellPend sec (armAt sec s))

/-- PLAN_ACTIVATION (R36, R37): at the activation second. Log 26 (DEDUCED). -/
def execPlanActivation (s : State) : Out3 :=
  .next (
    match s.pln.armed with
    | none => s
    | some sec =>
      if s.tim.sec < sec then s
      else
        let s := bumpGen pgPLN (s.modPln fun l => { l with armed := none })
        match s.pln.pend with
        | none => raise pgPLN plnMISSED 0 (condStart pgPLN plnMISSED 0 (s.modPln fun l => { l with missed := true }))
        | some x =>
          let old := s.pln.active.map fun a => (a.num, a.planDigest)
          let src := s.pln.pendSrc
          let s := s.modPln fun l => { l with pend := none, oldId := old }
          raise pgPLN plnACTIVATED 0 (activate x src s))

/-- IDENTITY_WINDOW_CLOSE (R34, R37): 1 s after the activation second the old identity counts no more. A port whose neighbour has presented it since is quarantined; on the others that are up an exchange runs, so that a neighbour that missed the activation is found. Log 26 (DEDUCED). -/
def execIdentityWindowClose (s : State) : Out3 :=
  .next (if s.pln.oldId.isSome then
    let s := bumpGen pgPLN (s.modPln fun l => { l with oldId := none })
    (List.range 24).foldl (fun s p =>
      match (port p s).peer with
      | some c =>
        if (portPlan p s).use = 0 ∨ (lane p s).state ≠ 4 then s
        else if (port p s).fresh ∧ checkCauses p c s ≠ 0 then retrain p (exchangeFails p (checkCauses p c s) s)
        else recheckAny s p
      | none => recheckAny s p) s
  else s)

end Sys2Proof.Machine
end

