-- ==== Sys2Proof/Machine/Epoch.lean ====
section
/-! DEFINITION. A change of epoch, whole: time, channels, sequencers, cores, schedules and park instants (R151, R172, R211, R215, R217, R220, R328, R475). -/

namespace Sys2Proof.Machine

/-- An instant in ns moved by Δ. -/
def moveNs (d : Int) (n : Nat) : Nat := ((n : Int) + d).toNat

/-- A core at an epoch change by Δ in ns (R328, R345): nothing where Δ is a whole multiple of its window, else the window in progress ends now without an overrun and pending boundaries move to the new grids. -/
def epochCore (d : Int) (s : State) (n : Nat) : State :=
  let t := tc n s
  let wper := match t.img with
    | some g => g.wper
    | none => 0
  let new := (t.pendImg.getD {}).wper
  let l := lcmNat wper new
  let whole (p : Nat) : Bool := decide (p = 0) || decide (d % ((p * 1000 : Nat) : Int) = 0)
  let s := modTc n (fun t =>
    { t with switchAt := t.switchAt.map fun a => if whole l then moveNs d a else gridAt (moveNs d a) l,
             shadow := t.shadow.map fun h =>
               if whole new then { h with startAt := moveNs d h.startAt, endAt := moveNs d h.endAt }
               else
                 let a := gridAt (moveNs d h.startAt) new
                 { h with startAt := a, endAt := a + (h.endAt - h.startAt) } }) s
  if t.img.isNone ∨ t.state = 0 ∨ t.state = 5 ∨ whole wper then s else windowTrigger n (now s) false s

/-- What follows the clock at a change of epoch by `epShift`: channels, sequencers, cores and schedules, the ANCHOR of reason 1 into every contract originated here, EPOCH; a head keeps the number in the retained store (R211, R215). Log 59 (DEDUCED). -/
def epochRest (s : State) : State :=
  let d := s.tim.epShift
  let ns := d.fdiv 1024
  let s := s.modPwr fun w => { w with sampling := w.sampling.map (moveNs ns), tp := w.tp.map (moveNs ns) }
  let s := s.modGrps fun m => m.map fun e => (e.1, { e.2 with since := e.2.since.map (moveNs ns) })
  let s := epochTats d (epochChannels d (shiftScheds ns s))
  let s := (List.range 16).foldl (epochCore ns) s
  let s := if isHead s then putStore s.tim.epoch (retReason s) (retCount s) s else s
  let s := ((conIds s).filter fun id => (con id s).isSrc && decide ((con id s).state = 2 ∨ (con id s).state = 3)).foldl (stage (anchorItem 1 s.tim.epStart s)) s
  raise pgTIM timEPOCH (s.tim.epoch % 65536) (bumpGen pgTIM s)

/-- EPOCH_CHANGE at t_e (R215, R475). -/
def execEpochChange (s : State) : Out3 :=
  .next (
    match s.tim.ann with
    | none => s
    | some a =>
      if (now s).total < a.te then s
      else
        let tod := s.tim.annTod
        let s := epochRest (epochTime a s)
        if tod then raise pgTIM timTODAPPLIED 0 s else s)

/-- EPOCH_ADOPT (R217): at the first whole 100 µs at least 1 ms after the event. Log 70 (DEDUCED). -/
def execEpochAdopt (s : State) : Out3 :=
  .next (
    match s.tim.adopt with
    | none => s
    | some n => if s.tim.epoch < n then epochRest (adoptTime n s) else s.modTim fun t => { t with adopt := none })

end Sys2Proof.Machine
end

