-- ==== Sys2Proof/Machine/Operands.lean ====
section
/-! DEFINITION. The register map as it reads: every register of every page (R15, R39, R100–R103, R129, R153, R174, R192, R222, R224, R247, R269, R303, R305, R320, R346, R369–R372, R398, R399, R403, R426–R429, R440, R457, R476), captures of counters (R407). -/

namespace Sys2Proof.Machine

/-! ## Words -/

/-- A number as a register word. -/
def natW (n : Nat) : Word := BitVec.ofNat 32 n
/-- A signed value held within 32 bits. -/
def intW (i : Int) : Word := BitVec.ofInt 32 (clampInt (-(2 ^ 31)) (2 ^ 31 - 1) i)
/-- Register `i` of a 128-bit word held in four (R420). -/
def quarter (w i : Nat) : Word := natW (bits w (32 * i) 32)
/-- Word `i` of a digest, byte 0 in bits [7:0] (R39). -/
def digestWord (d i : Nat) : Word := natW (leNat (slice (beBytes 32 d) (4 * i) 4))

/-! ## The common header (R403) -/

/-- The feature bits that act on a page (R421); bit 0 acts on all. Log 43 (DEDUCED). -/
def featMask (p : Nat) : Word :=
  if p = 0 ∨ (0x28 ≤ p ∧ p < 0x40) then 0x11
  else if p = 0x55 then 0x07
  else if p = 0x0D then 0x0D
  else if 0x40 ≤ p ∧ p < 0x50 then 0x21
  else if p = 0x0A then 0x41
  else if p = 0x52 then 0x81
  else if p = 0x54 then 0x101
  else if p = 0x51 then 0x201
  else 1

/-- Whether a page's block has no hardware in this variant (R403). -/
def noHw (p : Nat) (s : State) : Bool := s.fuse.hx000 && decide (0x0F ≤ p) && decide (p < 0x28)

/-- TYPE and INSTANCE of a page (R401). -/
def pageType (p : Nat) : Nat × Nat :=
  if p < 0x10 then (p, 0) else if p < 0x20 then (0x10, p - 0x10) else if p < 0x28 then (0x20, p - 0x20)
  else if p < 0x30 then (0x28, p - 0x28) else if p < 0x40 then (0x30, p - 0x30) else if p < 0x50 then (0x40, p - 0x40) else (p, 0)

/-- A register of the common header. -/
def hdrRead (p off : Nat) (s : State) : Word :=
  let g := page p s
  match off with
  | 0x000 => mkWord [(16, 16, (pageType p).1), (8, 8, (pageType p).2), (0, 8, 1)]
  | 0x004 => mkWord [(31, 1, b2n (noHw p s)), (0, 31, ((natW s.fab.grant.toNat ||| 1) &&& featMask p).toNat)]
  | 0x008 => mkWord [(2, 1, b2n g.freeze), (0, 1, b2n g.en)]
  | 0x00C => mkWord [(31, 1, b2n g.freeze), (29, 2, g.owner), (28, 1, b2n (decide (g.evLatch &&& g.evEn ≠ 0)))]
  | 0x010 => evRaw p s
  | 0x014 => g.evEn
  | 0x018 => g.evLatch
  | 0x01C => (match g.first with
      | some (b, n) => mkWord [(31, 1, 1), (16, 8, n), (0, 5, b)]
      | none => 0)
  | 0x020 => g.gen
  | 0x024 => mkWord [(16, 16, g.snapSeq), (1, 1, b2n g.hold)]
  | _ => 0

/-! ## Pages 0x00–0x0D -/

/-- DEV (R426). Log 4 (DESIGN CHOICE). -/
def devRead (off : Nat) (s : State) : Word :=
  match off with
  | 0x040 => if s.fuse.hx000 then 0x30000000 else 0x32000000
  | 0x044 => mkWord [(16, 8, s.fuse.rev), (8, 8, s.fuse.letter), (0, 8, s.fuse.digit)]
  | 0x048 => quarter s.fuse.uid 0
  | 0x04C => quarter s.fuse.uid 1
  | 0x050 => mkWord [(24, 8, s.fab.accLate), (16, 8, s.fab.accRsvd), (8, 8, s.fab.accFrozen)]
  | 0x068 => mkWord [(31, 1, b2n s.fab.raBusy), (28, 3, s.fab.raErr)]
  | _ => 0

/-- FEAT (R428). -/
def featRead (off : Nat) (s : State) : Word :=
  if 0x040 ≤ off ∧ off < 0x050 then quarter s.fab.offer.toNat ((off - 0x040) / 4)
  else if 0x060 ≤ off ∧ off < 0x070 then quarter s.fab.grant.toNat ((off - 0x060) / 4)
  else if off = 0x074 then mkWord [(31, 1, b2n s.fab.committed), (30, 1, b2n s.fab.denied), (29, 1, b2n s.fab.lost), (0, 2, s.fab.by_)]
  else 0

/-- EVT (R429). -/
def evtRead (off : Nat) (s : State) : Word :=
  let e := wbits (rfGet 0x02050 s) 0 6
  match off with
  | 0x040 => quarter (evPend s) 0
  | 0x044 => quarter (evPend s) 1
  | 0x054 => mkWord [(16, 16, FMap.get (fun _ => 0) s.fab.raises e), (0, 16, FMap.get (fun _ => 0) s.fab.vectors e)]
  | 0x058 => s.fab.norec
  | _ => 0

/-- TIM (R222). -/
def timRead (off : Nat) (s : State) : Word :=
  let t := s.tim
  let a := t.ann.getD ⟨0, 0, 0, 0, 0⟩
  match off with
  | 0x044 => mkWord [(7, 1, b2n t.set), (6, 1, b2n t.inserv), (5, 1, b2n t.ann.isSome), (4, 1, t.epoch % 2), (3, 1, b2n t.ppsQ), (2, 1, b2n t.ppsLock),
                     (1, 1, b2n t.todPend), (0, 1, b2n t.epReq)]
  | 0x048 => quarter t.sec 0
  | 0x04C => quarter t.sec 1
  | 0x050 => natW t.ns
  | 0x054 => natW t.frac
  | 0x058 => natW t.epoch
  | 0x05C => natW a.next
  | 0x060 => quarter a.teSec 0
  | 0x064 => quarter a.teSec 1
  | 0x068 => natW a.teNs
  | 0x06C => BitVec.ofInt 32 a.dSec
  | 0x070 => natW a.dNs
  | 0x080 => mkWord [(4, 4, t.todErr)]
  | 0x084 => quarter t.pps.1 0
  | 0x088 => quarter t.pps.1 1
  | 0x08C => natW t.pps.2
  | 0x090 => intW t.ppsOff
  | 0x094 => mkWord [(16, 16, t.ppsMiss), (0, 16, t.ppsEdges)]
  | _ => 0

/-- The hops of a ring still new to closure (R224). -/
def newHopCount (n : Nat) (s : State) : Nat :=
  match closRing n s with
  | some r => ((hopList r).filter fun j => FMap.get (fun _ => false) (clos n s).old j = false).length
  | none => 0

/-- SRV (R224). -/
def srvRead (off : Nat) (s : State) : Word :=
  let v := s.srv
  let p := wbits (rfGet 0x04058 s) 0 5
  let m := mark p s
  let n := (if isHead s then 8 else 0) + wbits (rfGet 0x04070 s) 0 3
  let k := clos n s
  match off with
  | 0x044 => v.gains
  | 0x048 => mkWord [(29, 3, v.state), (24, 5, v.src), (16, 8, v.hops), (8, 8, v.lockcnt), (0, 8, v.switches)]
  | 0x04C => intW v.offset
  | 0x050 => intW v.y
  | 0x054 => intW v.i
  | 0x05C => mkWord [(31, 1, b2n (decide (m.run = 3) && decide (s.tim.up < m.at_ + 2 * measPeriod p))), (30, 1, b2n (decide (p < 24) && usable p s)), (27, 3, m.pstate), (19, 8, m.phops), (18, 1, b2n m.isNew)]
  | 0x060 => (match m.theta2 with
      | some (_, d2) => intW (d2.fdiv 2)
      | none => 0)
  | 0x064 => intW m.asym
  | 0x068 => mkWord [(16, 16, m.fill), (0, 16, m.ph)]
  | 0x074 => if isManager s then mkWord [(16, 16, k.rounds), (8, 8, newHopCount n s), (2, 1, b2n k.done), (1, 1, b2n k.susp), (0, 1, b2n k.run)] else 0
  | 0x078 => if isManager s then intW k.ec else 0
  | 0x07C => if s.fuse.hx000 then 0 else mkWord [(16, 16, toBits 16 v.synErr.1), (0, 16, toBits 16 v.synErr.2)]
  | _ => 0

/-- STAT.STATE of PLN (R39). -/
def plnState (s : State) : Nat :=
  if s.pln.strapErr then 3 else if s.pln.missed then 4 else if s.pln.active.isSome then 2 else if s.pln.loadBuf ≠ [] ∨ s.pln.dl ≠ [] then 1 else 0

/-- QUAR_MAP: quarantined ports; once a slice is active, unused ones read 0. Log 45 (DEDUCED). -/
def quarMap (s : State) : Nat :=
  (List.range 24).foldl (fun a p => putBit a p ((port p s).q && (s.pln.active.isNone || decide ((portPlan p s).use ≠ 0)))) 0

/-- PEER*n* (R39). -/
def peerWord (x : PortSt) : Word :=
  match x.peer with
  | none => 0
  | some c => mkWord [(31, 1, 1), (26, 5, c.port), (24, 2, c.role), (15, 9, c.seg), (8, 7, c.hub), (0, 1, b2n x.idOk)]

/-- PLN (R39). -/
def plnRead (off : Nat) (s : State) : Word :=
  let l := s.pln
  let num := (l.active.map (·.num)).getD 0
  let pnum := (l.pend.map (·.num)).getD 0
  if off = 0x040 then quarter num 0
  else if off = 0x044 then quarter num 1
  else if 0x048 ≤ off ∧ off ≤ 0x064 then (match l.active with
    | some a => digestWord a.planDigest ((off - 0x048) / 4)
    | none => 0)
  else if off = 0x068 then mkWord [(25, 1, b2n s.fuse.hx000), (16, 9, mySeg s), (7, 2, l.role), (0, 7, l.pos)]
  else if off = 0x06C then mkWord [(8, 4, l.err), (6, 2, l.src), (5, 1, b2n l.armed.isSome), (4, 1, b2n l.pend.isSome), (3, 1, b2n l.req), (0, 3, plnState s)]
  else if off = 0x074 then quarter pnum 0
  else if off = 0x078 then quarter pnum 1
  else if off = 0x088 then natW (quarMap s)
  else if 0x100 ≤ off ∧ off ≤ 0x15C then
    let x := port ((off - 0x100) / 4) s
    mkWord [(16, 16, x.fails), (10, 3, x.first), (4, 6, x.cause), (3, 1, b2n x.q), (0, 3, (portPlan ((off - 0x100) / 4) s).use)]
  else if 0x180 ≤ off ∧ off ≤ 0x1DC then peerWord (port ((off - 0x180) / 4) s)
  else 0

/-- FWL (R457). -/
def fwlRead (off : Nat) (s : State) : Word :=
  let w := s.fwl
  let run := w.run.getD {}
  let st := w.staged.getD {}
  let p : Pair := FMap.get (fun _ => {}) w.pairs (wbits (rfGet 0x060B0 s) 0 6)
  let tgt := wbits (rfGet 0x060A0 s) 0 6
  if off = 0x044 then mkWord [(29, 3, w.state), (28, 1, w.bank), (27, 1, b2n w.alt), (26, 1, b2n s.fuse.ckey.isSome), (22, 4, w.err)]
  else if off = 0x048 then mkWord [(16, 16, run.ifver), (0, 16, st.ifver)]
  else if off = 0x04C then mkWord [(16, 16, w.cntUn), (0, 16, w.cntRef)]
  else if 0x050 ≤ off ∧ off ≤ 0x06C then digestWord run.digest ((off - 0x050) / 4)
  else if 0x070 ≤ off ∧ off ≤ 0x08C then digestWord st.digest ((off - 0x070) / 4)
  else if off = 0x09C then mkWord [(31, 1, b2n w.flOp.isSome), (28, 3, w.flErr), (0, 9, w.page.length)]
  else if off = 0x0A8 then mkWord [(31, 1, b2n (decide (w.hdrBuf.length = 1024) && decide (hdrErr (if tgt < 16 then 2 else 3) w.hdrBuf s = 0))), (0, 11, w.hdrBuf.length)]
  else if off = 0x0B4 then mkWord [(30, 2, p.mode), (29, 1, b2n p.lg), (0, 16, p.ifver)]
  else if 0x0C0 ≤ off ∧ off ≤ 0x0CC then quarter p.feat ((off - 0x0C0) / 4)
  else 0

/-- The failed islands 32w to 32w + 31 (R440). -/
def failMap (w : Nat) (s : State) : Word := natW ((List.range 32).foldl (fun a i => putBit a i (isl (32 * w + i) s).failed) 0)

/-- The ‰ of a cycle's slices that are complete (R440). -/
def coverage (s : State) : Nat :=
  let total := sumNat ((List.range 72).map fun k => islSlices k s)
  if total = 0 then 0 else sumNat ((List.range 72).map fun k => (isl k s).done) * 1000 / total

/-- BST (R440). -/
def bstRead (off : Nat) (s : State) : Word :=
  let b := s.bst
  let k := wbits (rfGet 0x07070 s) 0 7
  let x := isl k s
  match off with
  | 0x044 => mkWord [(29, 3, b.state), (22, 7, b.isl), (0, 16, b.slice)]
  | 0x048 => mkWord [(16, 10, coverage s), (0, 16, b.cycles)]
  | 0x04C => mkWord [(16, 16, b.slices), (0, 16, b.abandon)]
  | 0x050 => mkWord [(16, 16, b.forced), (0, 16, b.fails)]
  | 0x054 => failMap 0 s
  | 0x058 => failMap 1 s
  | 0x05C => failMap 2 s &&& 0xFF
  | 0x060 => mkWord [(24, 7, b.lastIsl), (0, 16, b.lastSlice)]
  | 0x064 => b.lastSig
  | 0x068 => b.lastGold
  | 0x074 => mkWord [(30, 2, islMethod k s), (28, 1, b2n x.failed), (24, 4, x.abn), (0, 16, islSlices k s)]
  | 0x078 => mkWord [(16, 16, x.abandons), (0, 16, x.done)]
  | 0x084 => mkWord [(31, 1, b2n b.achkBusy), (28, 3, b.achkErr), (16, 5, b.achkConv), (0, 16, b.achkRes)]
  | 0x098 => mkWord [(0, 16, b.achkExc)]
  | _ => if 0x088 ≤ off ∧ off ≤ 0x094 then FMap.get (fun _ => 0) b.achkRng ((off - 0x088) / 4) else 0

/-- The calibration registers of the selected group; 0 for none and on the HX000 (R192). Log 45 (DEDUCED). -/
def calGroupRead (off : Nat) (s : State) : Word :=
  let g := gsel s
  let x := grp g s
  if 24 ≤ g ∨ s.fuse.hx000 then 0
  else
    match off with
    | 0x04C => mkWord [(16, 16, toBits 16 x.temp), (8, 5, if x.camp then (dueConvs g s).length else 0), (3, 1, b2n x.extrap), (2, 1, b2n x.blocked),
                       (1, 1, b2n (wbit (rfGet 0x08044 s) g)), (0, 1, b2n x.camp)]
    | 0x050 => mkWord [(16, 16, if x.trefOk then toBits 16 x.tref else 0), (0, 1, b2n x.trefOk)]
    | 0x054 => mkWord [(16, 16, x.camps), (0, 16, x.runs)]
    | 0x058 => quarter x.lastRun.1 0
    | 0x05C => quarter x.lastRun.1 1
    | 0x060 => natW x.lastRun.2
    | _ => 0

/-- CAL (R192); the SET window reads 0 on the HX000. -/
def calRead (off : Nat) (s : State) : Word :=
  let a := s.ana
  let l := linSlot (linSel s) s
  match off with
  | 0x064 => a.dRuns
  | 0x068 => quarter a.dLast.1 0
  | 0x06C => quarter a.dLast.1 1
  | 0x070 => natW a.dLast.2
  | 0x074 => natW a.dSrc
  | 0x088 => mkWord [(4, 4, a.setErr), (0, 4, (setTab s).length)]
  | 0x0C8 => mkWord [(16, 16, if s.fuse.hx000 then 0 else (linUsers (linSel s) s).length), (4, 4, a.linErr), (0, 1, b2n l.pend.isSome)]
  | _ => calGroupRead off s

/-- START*n* (R476): two step times. -/
def startField (k : Nat) (s : State) : Nat := FMap.get (fun _ => 0xFFFF) s.pwr.starts k

/-- PWR (R476). -/
def pwrRead (off : Nat) (s : State) : Word :=
  let w := s.pwr
  match off with
  | 0x044 => mkWord [(29, 3, w.state), (26, 3, w.err), (22, 4, w.rst), (21, 1, b2n (!s.fuse.hx000 && decide (bits w.sup 5 2 = 3))), (20, 1, b2n w.retOk),
                     (16, 4, w.wdog)]
  | 0x048 => natW w.sup
  | 0x04C => mkWord [(16, 16, toBits 16 w.tj), (0, 16, toBits 16 w.tjPeak)]
  | 0x050 => rfGet 0x09050 s ||| mkWord [(24, 4, w.reason)]
  | 0x058 => quarter w.sbSec 0
  | 0x05C => mkWord [(0, 16, w.sbSec / 2 ^ 32)]
  | 0x060 => mkWord [(0, 15, w.sbNs * 32768 / nsPerSec)]
  | 0x070 => mkWord [(16, 16, startField 0 s), (0, 16, startField 1 s)]
  | 0x074 => mkWord [(16, 16, startField 2 s), (0, 16, startField 3 s)]
  | 0x078 => mkWord [(16, 16, startField 4 s), (0, 16, startField 5 s)]
  | 0x07C => mkWord [(16, 16, startField 6 s)]
  | _ => 0

/-- The ring RING_STAT shows (R269): a worker its own; a segment manager its own manager ring, or a chain ring it ends; a head the one selected. Log 45 (DEDUCED). -/
def ringShown (s : State) : Nat :=
  let sel := wbits (rfGet 0x0A070 s) 0 4
  if s.pln.role = 2 then sel
  else if s.pln.role = 1 ∧ sel < 8 then sel
  else (((ringPlans s).find? fun r => r.members.contains (myDev s) && decide (s.pln.role ≠ 1 ∨ r.kind = 1)).map (·.key)).getD sel

/-- RING_STAT (R269). Log 45 (DEDUCED). -/
def ringStatWord (s : State) : Word :=
  let r := ringSt (ringShown s) s
  mkWord [(31, 1, b2n (!r.broken.isEmpty)), (30, 1, b2n (decide (2 ≤ r.broken.length))), (16, 8, minNat 0 r.broken), (8, 8, r.broken.foldl max 0), (0, 8, r.breaks)]

/-- LSH (R269); the Leash registers of a worker read 0. -/
def lshRead (off : Nat) (s : State) : Word :=
  let l := s.lsh
  if off = 0x074 then ringStatWord s
  else if isManager s = false then 0
  else
    match off with
    | 0x044 => mkWord [(29, 3, l.lrole), (28, 1, b2n l.current), (27, 1, b2n l.dupUp), (26, 1, b2n (refUp s)), (25, 1, b2n l.req), (24, 1, b2n l.hoPend)]
    | 0x048 => natW l.term
    | 0x04C => natW l.renew
    | 0x058 => natW l.jseq
    | 0x05C => (match sinceNs s with
        | some n => natW (min 0xFFFFFFFF (n / 1000))
        | none => 0xFFFFFFFF)
    | 0x060 => mkWord [(16, 16, l.takeovers), (8, 8, l.lapses), (0, 8, l.refusals)]
    | 0x080 => mkWord [(29, 3, l.svcState), (25, 4, l.svcErr), (0, 7, l.svcHub)]
    | 0x084 => quarter l.svcTx 0
    | _ => 0

/-- QUE (R313, R314, R320). -/
def queRead (off : Nat) (s : State) : Word :=
  let u := que (queSel s) s
  let rd := if u.cons = 0 then u.rd else 0
  match off with
  | 0x044 => qcfgWord u
  | 0x048 => mkWord [(16, 10, u.base), (0, 11, u.size)]
  | 0x050 => mkWord [(31, 1, b2n u.underrun), (30, 1, b2n u.flushing), (29, 1, b2n u.open_.isSome), (26, 3, u.err), (19, 7, u.openW), (0, 19, u.level)]
  | 0x054 => natW u.pkts.length
  | 0x058 => mkWord [(24, 8, u.ncoal), (0, 16, u.coalT)]
  | 0x05C => mkWord [(0, 19, u.hwm)]
  | 0x060 => mkWord [(31, 1, b2n u.latch), (30, 1, b2n u.chk), (29, 1, b2n u.miss), (28, 1, b2n u.x), (0, 16, u.epis)]
  | 0x064 => mkWord [(0, 19, u.peak)]
  | 0x068 => quarter u.wm.1 0
  | 0x06C => quarter u.wm.1 1
  | 0x070 => natW u.wm.2
  | 0x078 => mkWord [(16, 16, u.cntUnder), (0, 16, u.cntRewind)]
  | 0x07C => mkWord [(16, 16, u.flPkts), (0, 16, u.itemDrop)]
  | 0x080 => u.flWords
  | 0x090 => laneOf rd 0
  | 0x094 => laneOf rd 1
  | 0x098 => laneOf rd 2
  | 0x09C => laneOf rd 3
  | 0x0A0 => if u.cons = 0 then rinfo u else 0
  | 0x0B0 => laneOf u.wr 0
  | 0x0B4 => laneOf u.wr 1
  | 0x0B8 => laneOf u.wr 2
  | 0x0BC => laneOf u.wr 3
  | 0x0C4 => mkWord [(3, 1, b2n u.wDropped), (2, 1, b2n u.wNoItem), (1, 1, b2n u.wOwner), (0, 1, b2n u.wFull)]
  | _ => 0

/-! ## Channels, groups and sequencers -/

/-- The group GRP_STAT shows (R103). -/
def chwGroup (s : State) : Option Nat :=
  let e := chwSel s
  if e.1 then (if e.2 < 24 then some e.2 else none) else if e.2 < 320 then some (grpOf e.2) else none

/-- The lead resistance applied at an instant, in mΩ (R75, R103). -/
def leadMohm (c : Chan) (t : Int) : Nat :=
  if is3Wire c.w then (Frac.div (leadNv c t) (Frac.ofInt (iexUa c.w : Nat))).floor.toNat else 0

/-- CH_STAT of a channel (R103); STALE of a 3-wire channel also while its group has no relief (R76). -/
def chStatWord (c : Chan) (relief : Bool) : Word :=
  mkWord [(31, 1, b2n c.isOpen), (30, 1, b2n c.short), (29, 1, b2n (is3Wire c.w && (c.stale || !relief))), (28, 1, b2n c.prot), (0, 16, c.epis)]

/-- OPEN_MAP*w* (R100). -/
def openMap (w : Nat) (s : State) : Word := natW ((List.range 32).foldl (fun a i => putBit a i (chan (32 * w + i) s).isOpen) 0)

/-- CHW (R100, R103). -/
def chwRead (off : Nat) (s : State) : Word :=
  let e := chwSel s
  let c := chan e.2 s
  let isCh := !e.1 && decide (e.2 < 320)
  match off with
  | 0x048 => mkWord [(4, 4, s.ana.chwErr), (0, 1, b2n (if e.1 then decide (e.2 < 24) && (grp e.2 s).busy else isCh && c.busy))]
  | 0x060 => if isCh then chStatWord c (grp (grpOf e.2) s).relief.isSome else 0
  | 0x064 => if isCh then natW (leadMohm c (nowTk s)) else 0
  | 0x068 => (match chwGroup s with
      | some g =>
        let x := grp g s
        mkWord [(16, 16, x.iExc), (3, 1, b2n x.lock), (2, 1, b2n x.excOff), (1, 1, b2n x.limit), (0, 1, b2n x.onLocal)]
      | none => 0)
  | _ => if 0x080 ≤ off ∧ off ≤ 0x0A4 then openMap ((off - 0x080) / 4) s else 0

/-- TAT (R174): 24–31 select nothing; the HX000 shows ERR alone. -/
def tatRead (off : Nat) (s : State) : Word :=
  let t := tat (tatSel s) s
  if 24 ≤ tatSel s then 0
  else if s.fuse.hx000 then (if off = 0x048 then mkWord [(12, 4, t.err)] else 0)
  else if 0x070 ≤ off ∧ off ≤ 0x08C then digestWord t.digest ((off - 0x070) / 4)
  else
    match off with
    | 0x048 => mkWord [(16, 9, if t.base then 0 else t.alen), (12, 4, t.err), (8, 4, t.frame), (7, 1, b2n t.pend), (6, 1, t.bank), (5, 1, b2n t.base)]
    | 0x04C => mkWord [(0, 4, t.next)]
    | 0x050 => mkWord [(0, 9, t.addr)]
    | 0x060 => mkWord [(16, 16, t.cntOvr), (0, 16, t.cntDrop)]
    | 0x064 => mkWord [(16, 16, t.cntSkip), (0, 16, t.cntSwap)]
    | 0x068 => mkWord [(16, 16, match t.excUp with
        | some u => min 0xFFFF ((s.tim.up - u) / nsPerSec)
        | none => 0xFFFF), (0, 16, t.excMv)]
    | _ => 0

/-- One channel's byte of DUTY (R128, R129). -/
def dutyByte (g i : Nat) (s : State) : Nat :=
  let c := slotAt g i
  let x := chan c s
  let isOver := match (grp g s).ovl with
    | some o => decide (o.ch = c)
    | none => false
  x.range * 64 + b2n isOver * 32 + x.duty.getD 0x1F

/-- GG*n* and FG*n* (R129, R153). -/
def groupRead (g off : Nat) (s : State) : Word :=
  let x := grp g s
  let n := groupSize g
  if 0x050 ≤ off ∧ off ≤ 0x05C then
    let w := (off - 0x050) / 4
    if n ≤ 4 * w then 0
    else mkWord ((List.range 4).map fun b => (8 * b, 8, if s.fuse.hx000 then 0x1F else dutyByte g (4 * w + b) s))
  else if s.fuse.hx000 then (if off = 0x060 then 0xF8010000 else 0)
  else
    match off with
    | 0x060 => mkWord [(27, 5, x.relief.getD 0x1F), (24, 3, x.task), (20, 4, x.tgt), (18, 2, x.trange), (17, 1, b2n x.fwin), (16, 1, b2n x.relief.isNone),
                       (8, 8, x.q.length)]
    | 0x064 => mkWord [(0, n + 1, x.retired)]
    | 0x068 => mkWord [(16, 16, x.hoRng), (0, 16, x.hoRot)]
    | 0x06C => mkWord [(16, 16, x.cancels), (0, 16, x.tolf)]
    | 0x070 => intW x.lastDiff
    | 0x074 => mkWord ((List.range n).map (fun i => (16 + i, 1, b2n (chan (slotAt g i) s).settle)) ++
                       (List.range n).map (fun i => (i, 1, b2n (chan (slotAt g i) s).pendF)))
    | 0x078 => mkWord [(24, 4, x.ovCh), (0, 16, x.ovCnt)]
    | _ => 0

/-! ## Ports and cores -/

/-- CP*n* and MP*n* (R247). -/
def portRead (p off : Nat) (s : State) : Word :=
  let l := lane p s
  let u := portPlan p s
  if 0x068 ≤ off ∧ off ≤ 0x074 then quarter l.lfeat ((off - 0x068) / 4)
  else
    match off with
    | 0x044 => mkWord [(29, 3, l.state), (26, 3, l.rate), (25, 1, b2n l.slock), (24, 1, b2n l.block), (23, 1, b2n (isCP p && l.los)),
                       (22, 1, b2n (!isCP p && l.fclk)), (21, 1, b2n l.wg), (20, 1, b2n l.stepfail), (19, 1, b2n (decide (u.use ≠ 0) && isLeader p s))]
    | 0x048 => mkWord [(26, 6, if u.use = 0 then 0 else rateMask (offered p s)), (20, 6, l.peerRates), (17, 3, l.target), (13, 4, u.cls)]
    | 0x04C => rfGet (pgPort p * 4096 + 0x4C) s ||| mkWord [(23, 4, l.peakCur), (19, 4, l.peakRef)]
    | 0x050 => mkWord [(16, 16, l.cv), (0, 16, l.hdr)]
    | 0x054 => mkWord [(16, 16, l.crc), (0, 16, l.replays)]
    | 0x058 => mkWord [(24, 8, l.lockloss), (16, 8, l.stepfails), (8, 8, l.wander), (0, 8, l.eberr)]
    | 0x05C => mkWord [(16, 16, l.skipadj), (0, 6, l.fill)]
    | 0x060 => l.txblk
    | 0x064 => l.rxblk
    | _ => 0

/-- TC*n* (R346). -/
def tcRead (n off : Nat) (s : State) : Word :=
  let t := tc n s
  let g := t.img.getD {}
  if 0x090 ≤ off ∧ off ≤ 0x0AC then digestWord g.digest ((off - 0x090) / 4)
  else
    match off with
    | 0x044 => tcStatWord t
    | 0x048 => mkWord [(0, 20, g.wper)]
    | 0x04C => mkWord [(0, 14, g.cper)]
    | 0x050 => mkWord [(31, 1, g.odest), (9, 9, g.slotHi), (0, 9, g.slotLo)]
    | 0x054 => mkWord [(16, 15, g.keptOff), (0, 15, g.keptLen)]
    | 0x058 => mkWord [(0, 20, g.drain)]
    | 0x064 => mkWord [(0, 14, t.pc)]
    | 0x068 => mkWord [(28, 4, t.faultCode), (0, 14, t.faultPc)]
    | 0x06C => mkWord [(0, 13, sumNat (t.inb.map fun i => i.words.length))]
    | 0x070 => mkWord [(16, 16, t.cntOvr), (0, 16, t.cntFaults)]
    | 0x074 => mkWord [(16, 16, t.cntRew), (0, 16, t.cntRef)]
    | 0x078 => mkWord [(16, 16, t.cntDisc), (0, 16, t.cntSw)]
    | 0x07C => mkWord [(16, 10, t.peak), (0, 10, t.load)]
    | 0x080 => shStatWord t
    | _ => 0

/-! ## Services -/

/-- The selected track and section. -/
def trsel (s : State) : Nat := wbits (rfGet 0x50040 s) 0 4
def wsel (s : State) : Nat := wbits (rfGet 0x50060 s) 0 2
/-- The selected DIN pin and alarm channel. -/
def dsel (s : State) : Nat := wbits (rfGet 0x51040 s) 0 5
def asel (s : State) : Nat := wbits (rfGet 0x53040 s) 0 9

/-- ORD (R369). -/
def ordRead (off : Nat) (s : State) : Word :=
  let x := track (trsel s) s
  let y := sect (wsel s) s
  match off with
  | 0x044 => x.cfg0
  | 0x048 => x.cfg1
  | 0x04C => natW x.stall
  | 0x050 => mkWord [(30, 2, x.state), (28, 2, x.err)]
  | 0x054 => x.spd
  | 0x058 => mkWord [(16, 16, x.revs), (0, 16, x.susp)]
  | 0x064 => y.cfg
  | 0x068 => y.ch01
  | 0x06C => y.ch23
  | 0x070 => y.time
  | 0x074 => y.gain
  | 0x078 => y.spd
  | 0x07C => y.tare
  | 0x080 => mkWord [(16, 16, y.parcels), (0, 16, y.flagged)]
  | 0x084 => natW y.werr
  | _ => 0

/-- DIN (R370); the levels are those of the balls after INV. -/
def dinRead (off : Nat) (s : State) : Word :=
  let d := din (dsel s) s
  match off with
  | 0x044 => d.cfg
  | 0x048 => mkWord [(31, 1, b2n (d.logical d.ball)), (0, 4, d.fill s.tim.up)]
  | 0x04C => mkWord [(16, 16, d.edges), (0, 16, d.lost)]
  | 0x050 => quarter d.last.sec 0
  | 0x054 => quarter d.last.sec 1
  | 0x058 => mkWord [(31, 1, b2n d.rise), (0, 30, d.last.ns)]
  | 0x060 => natW ((List.range 32).foldl (fun a n => putBit a n ((din n s).logical (din n s).ball)) 0)
  | _ => 0

/-- TOUT (R371). -/
def toutRead (off : Nat) (s : State) : Word :=
  let p := tout (tsel s) s
  match off with
  | 0x044 => p.cfg
  | 0x048 => mkWord [(31, 1, b2n (xor (toutBall (tsel s) s) (wbit p.cfg 30))), (28, 3, p.queued), (24, 4, p.err)]
  | 0x04C => mkWord [(16, 16, p.late), (0, 16, p.edges)]
  | _ => 0

/-- The rules with an active output, from rule `k` on (R372). -/
def activeMap (k : Nat) (s : State) : Word := natW ((List.range 32).foldl (fun a i => putBit a i (rule (k + i) s).active) 0)

/-- RFX (R372). Log 45 (DEDUCED). -/
def rfxRead (off : Nat) (s : State) : Word :=
  let a := alarm (asel s) s
  let r := rule (rsel s) s
  match off with
  | 0x044 => a.thr1
  | 0x048 => a.thr2
  | 0x04C => a.hys
  | 0x050 => mkWord [(31, 1, b2n a.c1.alarm), (30, 1, b2n a.c2.alarm), (0, 16, a.entries)]
  | 0x070 => mkWord [(16, 16, r.fires), (4, 4, r.err), (0, 1, b2n r.active)]
  | 0x080 => activeMap 0 s
  | 0x084 => activeMap 32 s
  | _ => 0

/-! ## Host ports -/

/-- FSP (R399). Log 45 (DEDUCED). -/
def fspRead (off : Nat) (s : State) : Word :=
  let f := s.fsp
  match off with
  | 0x044 => mkWord [(30, 2, s.pln.fspMode), (29, 1, b2n f.busy), (8, 8, f.rq), (0, 8, f.rp)]
  | 0x048 => mkWord [(0, 13, match f.lenNext with
      | some (n, _) => n
      | none => f.len)]
  | 0x04C => mkWord [(16, 16, f.good), (0, 16, f.discCnt)]
  | 0x050 => mkWord [(16, 16, f.crcCnt), (0, 16, f.aliveCnt)]
  | 0x054 => mkWord [(16, 16, f.notrdy), (0, 16, f.refused)]
  | 0x058 => mkWord [(0, 13, f.sbuf.length)]
  | 0x05C => natW f.snext
  | 0x060 => natW f.ssent
  | _ => 0

/-- HR*n* (R398). -/
def hrRead (n off : Nat) (s : State) : Word :=
  let h := hr n s
  match off with
  | 0x00 => h.baseLo
  | 0x04 => h.baseHi
  | 0x08 => h.cfg
  | 0x0C => natW h.tail
  | 0x10 => natW h.head
  | 0x14 => h.wbLo
  | 0x18 => h.wbHi
  | 0x1C => mkWord [(30, 2, h.state), (28, 2, h.err), (0, 13, h.openW)]
  | _ => 0

/-- PCI (R398). -/
def pciRead (off : Nat) (s : State) : Word :=
  let c := s.pci
  if 0x200 ≤ off ∧ off < 0x400 then hrRead ((off - 0x200) / 0x20) (off % 0x20) s
  else
    match off with
    | 0x040 => mkWord [(0, 1, b2n c.quiesce)]
    | 0x044 => mkWord [(31, 1, b2n c.bme), (30, 1, b2n c.d3), (29, 1, b2n (qdone s))]
    | 0x048 => mkWord [(28, 4, c.speed), (24, 4, c.width), (0, 16, c.downs)]
    | 0x04C => mkWord [(16, 16, c.badacc), (0, 16, c.descErr)]
    | _ => 0

/-! ## The whole map -/

/-- A register with no plain storage, by page. -/
def blockRead (p off : Nat) (s : State) : Word :=
  if p = 0 then devRead off s
  else if p = 1 then featRead off s
  else if p = 2 then evtRead off s
  else if p = 3 then timRead off s
  else if p = 4 then srvRead off s
  else if p = 5 then plnRead off s
  else if p = 6 then fwlRead off s
  else if p = 7 then bstRead off s
  else if p = 8 then calRead off s
  else if p = 9 then pwrRead off s
  else if p = 0x0A then lshRead off s
  else if p = 0x0B then (mrgRead off s).getD 0
  else if p = 0x0C then (kenRead off s).getD 0
  else if p = 0x0D then queRead off s
  else if p = 0x0E then chwRead off s
  else if p = 0x0F then tatRead off s
  else if p < 0x28 then groupRead (p - 0x10) off s
  else if p < 0x40 then portRead (p - 0x28) off s
  else if p < 0x50 then tcRead (p - 0x40) off s
  else if p = 0x50 then ordRead off s
  else if p = 0x51 then dinRead off s
  else if p = 0x52 then toutRead off s
  else if p = 0x53 then rfxRead off s
  else if p = 0x54 then fspRead off s
  else pciRead off s

/-- Whether a plain register reads 0 in this variant or role: sequencers, channel entries and the CAL windows of the HX000 (R100, R174, R192), the Leash on a worker (R269). -/
def readsZero (p off : Nat) (s : State) : Bool :=
  (s.fuse.hx000 && (decide (p = 0x0F) || (decide (p = 0x0E) && decide (0x050 ≤ off) && decide (off ≤ 0x05C) && !(chwSel s).1) ||
    (decide (p = 8) && (decide (off = 0x048) || (decide (0x080 ≤ off) && decide (off ≤ 0x09C)))))) ||
    (decide (p = 0x0A) && !(isManager s) && decide (off ≠ 0x070))

/-- Registers that show read-only fields beside plain ones. Log 42 (DEDUCED). -/
def mixed (p off : Nat) : Bool := (decide (0x28 ≤ p ∧ p < 0x40) && decide (off = 0x04C)) || (decide (p = 9) && decide (off = 0x050))

/-- A register as it stands now, by page and offset; VALID and FACTORY stand in SET_TEMP. -/
def liveReg (p off : Nat) (s : State) : Word :=
  if 0x56 ≤ p then 0
  else if off < 0x040 then hdrRead p off s
  else
    match rwReg p off with
    | some _ =>
      if readsZero p off s then 0
      else if mixed p off then blockRead p off s
      else if p = 0x0E ∧ 0x050 ≤ off then ew (shownEntry s) ((off - 0x050) / 4)
      else if p = 8 ∧ off = 0x090 then rfGet 0x08090 s ||| mkWord [(31, 1, b2n s.ana.setValid), (30, 1, b2n s.ana.setFac)]
      else rfGet (p * 4096 + off) s
    | none => blockRead p off s

/-! ## Captures (R407) -/

/-- The counter fields of a register that follow the SNAP rule, and the select register and units that stand behind it, if any. Log 42 (DEDUCED). -/
def counterReg (p off : Nat) : Option (Word × Option (Nat × Nat)) :=
  let all : Word := 0xFFFFFFFF
  if p = 0 then (if off = 0x050 then some (all, none) else none)
  else if p = 2 then (if off = 0x054 then some (all, some (0x02050, 64)) else none)
  else if p = 3 then (if off = 0x094 then some (all, none) else none)
  else if p = 6 then (if off = 0x04C then some (all, none) else none)
  else if p = 7 then
    (if off = 0x048 then some (0xFFFF, none) else if off = 0x04C ∨ off = 0x050 then some (all, none)
     else if off = 0x078 then some (0xFFFF0000, some (0x07070, 72)) else none)
  else if p = 8 then (if off = 0x054 then some (all, some (0x08048, 24)) else if off = 0x064 then some (all, none) else none)
  else if p = 0x0A then (if off = 0x060 then some (all, none) else if off = 0x074 then some (0xFF, some (0x0A070, 16)) else none)
  else if p = 0x0B then (if off = 0x090 ∨ off = 0x094 then some (all, none) else none)
  else if p = 0x0C then (if off = 0x05C then some (all, none) else none)
  else if p = 0x0D then (if off = 0x078 ∨ off = 0x07C ∨ off = 0x080 then some (all, some (0x0D040, 16)) else none)
  else if p = 0x0F then (if off = 0x060 ∨ off = 0x064 then some (all, some (0x0F040, 24)) else none)
  else if p < 0x10 then none
  else if p < 0x28 then (if off = 0x068 ∨ off = 0x06C then some (all, none) else if off = 0x078 then some (0xFFFF, none) else none)
  else if p < 0x40 then
    (if off = 0x050 ∨ off = 0x054 ∨ off = 0x058 ∨ off = 0x060 ∨ off = 0x064 then some (all, none) else if off = 0x05C then some (0xFFFF0000, none) else none)
  else if p < 0x50 then (if off = 0x070 ∨ off = 0x074 ∨ off = 0x078 then some (all, none) else none)
  else if p = 0x50 then (if off = 0x058 then some (all, some (0x50040, 16)) else if off = 0x080 then some (all, some (0x50060, 4)) else none)
  else if p = 0x51 then (if off = 0x04C then some (all, some (0x51040, 32)) else none)
  else if p = 0x52 then (if off = 0x04C then some (all, some (0x52040, 16)) else none)
  else if p = 0x54 then (if off = 0x04C ∨ off = 0x050 ∨ off = 0x054 then some (all, none) else none)
  else if p = 0x55 then (if off = 0x048 then some (0xFFFF, none) else if off = 0x04C then some (all, none) else none)
  else none

/-- Where the capture of a counter register is kept: by address and selected unit. -/
def snapKey (addr unit : Nat) : Nat := addr + unit * 2 ^ 20

/-- The unit a select register names. Log 42 (DEDUCED). -/
def unitOf (sel : Option (Nat × Nat)) (s : State) : Nat :=
  match sel with
  | some (a, _) => (rfGet a s).toNat
  | none => 0

/-- A register as it reads: while HOLD is 1 its counter fields show the capture (R407). -/
def regRead (addr : Nat) (s : State) : Word :=
  let p := addr / 4096
  let live := liveReg p (addr % 4096) s
  match counterReg p (addr % 4096) with
  | some (m, sel) => if (page p s).hold then (FMap.get (fun _ => 0) s.fab.snaps (snapKey addr (unitOf sel s)) &&& m) ||| (live &&& ~~~m) else live
  | none => live

/-- One counter register captured, for every unit behind it. Log 42 (DEDUCED). -/
def captureReg (s0 s : State) (addr : Nat) : State :=
  match counterReg (addr / 4096) (addr % 4096) with
  | none => s
  | some (_, sel) =>
    let put (s : State) (u : Nat) (w : Word) : State := s.modFab fun f => { f with snaps := FMap.put (fun _ => 0) f.snaps (snapKey addr u) w }
    match sel with
    | none => put s 0 (liveReg (addr / 4096) (addr % 4096) s0)
    | some (a, n) => (List.range n).foldl (fun s u => put s u (liveReg (addr / 4096) (addr % 4096) (rfPut a (natW u) s0))) s

/-- SNAP.TAKE (R407): every counter field of the page captured, SEQ counted. Log 42 (DEDUCED). -/
def capture (p : Nat) (s : State) : State :=
  let s' := ((List.range 48).map fun k => p * 4096 + 0x040 + 4 * k).foldl (captureReg s) s
  modPage p (fun g => { g with snapSeq := (g.snapSeq + 1) % 65536 }) s'

end Sys2Proof.Machine
end

