-- ==== Sys2Proof/Machine/Pages.lean ====
section
/-! DEFINITION. Register access as the fabric serves it: reads with shadows and read-clear fields, writes by access code, headers, soft resets, captures, events, remote access, feature commits, BAR0 requests, ends of episodes (R13–R16, R377, R402–R425). -/

namespace Sys2Proof.Machine

/-! ## Helpers -/

/-- The state a meaning answers. -/
def after (o : Out3) (s : State) : State :=
  match o with
  | .next t => t
  | _ => s

/-- A meaning carried out where a bit of a write asks for it. -/
def on (c : Bool) (f : State → Out3) (s : State) : State := if c then after (f s) s else s

/-- An access to a reserved page (R402). -/
def reservedAccess (s : State) : State :=
  raiseOnce pgDEV 4 0 0 (s.modFab fun f => { f with accRsvd := satAdd 255 f.accRsvd 1 })

/-! ## Reads (R408, R409) -/

/-- The other words of a multi-word register, by the address of its lowest word. Log 42 (DEDUCED). -/
def latchWords (addr : Nat) : List Nat :=
  let run (n : Nat) : List Nat := (List.range n).map fun i => addr + 4 * (i + 1)
  let p := addr / 4096
  let off := addr % 4096
  if p = 0 then (if off = 0x048 then run 1 else if off = 0x070 then run 3 else [])
  else if p = 1 then (if off = 0x040 ∨ off = 0x050 ∨ off = 0x060 then run 3 else [])
  else if p = 3 then
    (if off = 0x048 then run 3 else if off = 0x060 then run 4 else if off = 0x084 then run 2 else [])
  else if p = 5 then (if off = 0x040 ∨ off = 0x074 ∨ off = 0x07C then run 1 else if off = 0x048 then run 7 else [])
  else if p = 6 then
    (if off = 0x050 ∨ off = 0x070 then run 7 else if off = 0x0B4 then [addr + 0xC, addr + 0x10, addr + 0x14, addr + 0x18] else [])
  else if p = 7 then (if off = 0x060 then run 2 else [])
  else if p = 8 then (if off = 0x058 then run 2 else if off = 0x068 ∨ off = 0x090 then run 3 else [])
  else if p = 9 then (if off = 0x058 then run 2 else [])
  else if p = 0x0B then (if off = 0x080 then run 3 else [])
  else if p = 0x0C then (if off = 0x064 then run 2 else [])
  else if p = 0x0D then (if off = 0x068 then [addr + 4, addr + 8, 0x0D064, 0x0D060] else [])
  else if p = 0x0E then (if off = 0x050 then run 3 else [])
  else if p = 0x0F then (if off = 0x070 then run 7 else [])
  else if p < 0x28 then []
  else if p < 0x40 then (if off = 0x068 then run 3 else [])
  else if p < 0x50 then (if off = 0x090 then run 7 else [])
  else if p = 0x51 then (if off = 0x050 then run 2 else [])
  else []

/-- This requester's shadow of a page. Log 42 (DEDUCED). -/
def shadowOf (r : Req) (p : Nat) (s : State) : Option Shadow := s.fab.shadows.find? fun h => decide (h.req = r.val) && decide (h.page = p)

/-- This requester's shadow of a page discarded. -/
def dropShadow (r : Req) (p : Nat) (s : State) : State :=
  s.modFab fun f => { f with shadows := f.shadows.filter fun h => !(decide (h.req = r.val) && decide (h.page = p)) }

/-- CH_STAT.EPIS of a slot is read and cleared (R15, R16, R100). -/
def clearEpis (s : State) : State :=
  if (chwSel s).1 ∨ 320 ≤ (chwSel s).2 then s else modChan (chwSel s).2 (fun c => { c with epis := 0 }) s

/-- A register read (R402, R408, R409): shadows, read-clear fields and the reads that move something. -/
def readAt (r : Req) (addr : Nat) (s : State) : Word × State :=
  let p := addr / 4096
  if 0x56 ≤ p then (0, reservedAccess s)
  else if addr = 0x0D090 then queueRead r s
  else if addr = 0x06094 then flRead s
  else if addr = 0x09068 then retRead s
  else
    let live := regRead addr s
    match latchWords addr with
    | _ :: _ => (live, setShadow r p ((latchWords addr).map fun a => (a, regRead a s)) s)
    | [] =>
      if addr = 0x0E060 then (live, clearEpis s)
      else
        match shadowOf r p s with
        | none => (live, s)
        | some h =>
          match h.words.find? (·.1 = addr) with
          | none => (live, s)
          | some w =>
            if h.expired then
              (live, raiseOnce pgDEV 3 0 0 (dropShadow r p (s.modFab fun f => { f with accLate := satAdd 255 f.accLate 1 })))
            else (w.2, s)

/-- A register read by a requester: it may reach the merger's island (R430). -/
def readReg (r : Req) (addr : Nat) (s : State) : Word × State := readAt r addr (reachIsland false (addr / 4096) s)

/-- A register read and answered. -/
def readAnswer (r : Req) (addr : Nat) (s : State) : State := answer r addr (readReg r addr s).1 (readReg r addr s).2

/-! ## Remote access, requests (R413, R426) -/

/-- The cause RA_DONE. -/
def devRADONE : Nat := 5

/-- A remote access ends. Log 44 (DEDUCED). -/
def endRemote (err : Nat) (s : State) : State :=
  let was := s.fab.raBusy
  let s := s.modFab fun f => { f with raBusy := false, raErr := err }
  raise pgDEV devRADONE err (if was then bumpGen pgDEV s else s)

/-- The control block of a remote access (R302): the operation in the subtype byte, address and count in the fields, the registers in a word of their own. Log 18 (DEDUCED). -/
def raBlk (seg hub op addr count : Nat) (ws : List Word) (s : State) : CtrlBlk :=
  let w (i : Nat) : Nat := (nth (0 : Word) ws i).toNat
  ctrlBlk seg hub 0x1C op (addr * 8 + count) (if ws = [] then [] else [mkW128 [(96, 32, w 3), (64, 32, w 2), (32, 32, w 1), (0, 32, w 0)]]) s

/-- Whether the plan, as this manager knows it, assigns a hub (R413): a member of its segment's rings, or for a head of a segment on its manager rings. Log 18, 44 (DEDUCED). -/
def plannedHub (seg hub : Nat) (s : State) : Bool :=
  (ringPlans s).any fun r => r.members.contains (seg * 128 + hub) || (isHead s && decide (r.kind = 1) && r.members.any fun m => decide (m / 128 = seg))

/-- RA_CTRL written (R413): GO sends one request, or ends it at once; a second one while BUSY is ignored. Log 44 (DEDUCED). -/
def remoteGo (v : Word) (s : State) : State :=
  let s := rfPut 0x00064 v s
  if wbit v 31 = false ∨ s.fab.raBusy then s
  else
    let t := rfGet 0x00060 s
    let seg := wbits t 7 9
    let hub := wbits t 0 7
    let out := routePorts seg hub s
    if isManager s = false then endRemote 5 s
    else if s.fab.grant.toNat.testBit 4 = false then endRemote 3 s
    else if out = [] ∨ plannedHub seg hub s = false then endRemote 2 s
    else if out.all (fun p => (lane p s).lfeat.testBit 4) = false then endRemote 3 s
    else
      let n := wbits v 28 2 + 1
      let ws := if wbit v 30 then (List.range n).map fun i => rfGet (0x00070 + 4 * i) s else []
      bumpGen pgDEV (sendCtrlAll out (raBlk seg hub (if wbit v 30 then 0x41 else 0x40) (wbits v 0 20) n ws s)
        (s.modFab fun f => { f with raBusy := true }))

/-! ## Features (R423) -/

/-- The cause COMMIT of FEAT. -/
def featCOMMIT : Nat := 0

/-- The grant computed and applied (R423). Log 43 (DEDUCED). -/
def commitFeat (r : Req) (s : State) : State :=
  let q : Nat := (rfGet 0x01050 s).toNat + (rfGet 0x01054 s).toNat * 2 ^ 32 + (rfGet 0x01058 s).toNat * 2 ^ 64 + (rfGet 0x0105C s).toNat * 2 ^ 96
  let g : W128 := (BitVec.ofNat 128 q &&& s.fab.offer) ||| 1
  let denied := decide (BitVec.ofNat 128 q &&& ~~~s.fab.offer ≠ 0)
  raise pgFEAT featCOMMIT r.val (bumpGen pgFEAT (s.modFab fun f => { f with grant := g, committed := true, denied := denied, by_ := r.val }))

/-! ## Events cleared (R414, R417, R419) -/

/-- Causes of a page cleared in EV_LATCH; EV_FIRST goes with the last (R414). -/
def clearLatch (p : Nat) (mask : Word) (s : State) : State :=
  freeLatches p mask (modPage p (fun g =>
    let l := g.evLatch &&& ~~~mask
    { g with evLatch := l, first := if l = 0 then none else g.first }) s)

/-- After a write that acts on events, each that stands active is signalled (R417). -/
def resignal (es : List Nat) (s : State) : State := es.foldl (fun s e => if evActive e s then signal e s else s) s

/-- EVT.CLR0 or CLR1 written (R419). -/
def clearEvents (hi : Bool) (v : Word) (s : State) : State :=
  let es := (List.range 32).filterMap fun i => if wbit v i then some (i + if hi then 32 else 0) else none
  resignal es (es.foldl (fun s e => (evPages e).foldl (fun s q => clearLatch q.1 q.2 s) s) s)

/-! ## Writes, block by block (R15) -/

/-- A page's own field bits kept, others from the write. -/
def mix (mask v old : Word) : Word := (v &&& mask) ||| (old &&& ~~~mask)

/-- DEV. -/
def devWrite (off : Nat) (v : Word) (s : State) : State := if off = 0x064 then remoteGo v s else rfPut (0x00000 + off) v s

/-- FEAT: BASE acts before COMMIT (R423). Log 10 (DESIGN CHOICE). -/
def featWrite (r : Req) (off : Nat) (v : Word) (s : State) : State :=
  if off = 0x070 then
    let s := if wbit v 1 then bumpGen pgFEAT (baseGrant s) else s
    if wbit v 0 then commitFeat r s else s
  else if off = 0x074 then (if wbit v 29 then s.modFab fun f => { f with lost := false } else s)
  else rfPut (0x01000 + off) v s

/-- EVT. -/
def evtWrite (off : Nat) (v : Word) (s : State) : State :=
  if off = 0x048 then clearEvents false v s else if off = 0x04C then clearEvents true v s else rfPut (0x02000 + off) v s

/-- TIM. -/
def timWrite (r : Req) (off : Nat) (v : Word) (s : State) : State :=
  if off = 0x080 then on (wbits v 0 2 = 2) (execTodApplyNow r) (on (wbits v 0 2 = 1) (execTodApplyPps r) s) else rfPut (0x03000 + off) v s

/-- SRV. -/
def srvWrite (r : Req) (off : Nat) (v : Word) (s : State) : State :=
  if off = 0x044 then after (execSrvGainsWrite r v s) s else rfPut (0x04000 + off) v s

/-- PLN; a register that changes counts in GEN (R39). -/
def plnWrite (r : Req) (off : Nat) (v : Word) (s : State) : State :=
  if off = 0x070 then
    on (wbit v 3) (execDiscard r) (on (wbit v 2) (execRecheck r) (on (wbit v 1) (execStage r) (on (wbit v 0) (execLoadGo r) s)))
  else if off = 0x080 then after (execActSecArm r v s) s
  else if off = 0x084 then after (execLoadDataWrite r v s) s
  else if off = 0x07C ∧ rfGet 0x0507C s ≠ v then bumpGen pgPLN (rfPut 0x0507C v s)
  else s

/-- FWL. -/
def fwlWrite (r : Req) (off : Nat) (v : Word) (s : State) : State :=
  if off = 0x040 then
    on (wbit v 31) (execFwStage r) (on (wbit v 30) (execFwSwap r) (on (wbit v 29) (execFwConfirm r) (on (wbit v 28) (execFwRevert r)
      (on (wbit v 26) (execCkeyBurn r) (rfPut 0x06040 v s)))))
  else if off = 0x094 then after (execFlDataWrite r v s) s
  else if off = 0x098 then on (wbits v 0 2 = 2) (execFlashErase r) (on (wbits v 0 2 = 1) (execFlashProgram r) s)
  else if off = 0x0A0 then after (execHdrTgtWrite r v s) s
  else if off = 0x0A4 then after (execHdrDataWrite r v s) s
  else rfPut (0x06000 + off) v s

/-- BST. -/
def bstWrite (r : Req) (off : Nat) (v : Word) (s : State) : State :=
  if off = 0x040 then bstCtrl v s
  else if off = 0x080 then (if wbit v 31 then after (execAnalogueCheckGo r v s) s else rfPut 0x07080 v s)
  else rfPut (0x07000 + off) v s

/-- CAL. -/
def calWrite (r : Req) (off : Nat) (v : Word) (s : State) : State :=
  if off = 0x040 then after (execCampGo r v s) s
  else if off = 0x080 then after (execCalSetSelWrite r v s) s
  else if off = 0x084 then on (wbit v 2) (execSetReload r) (on (wbit v 1) (execSetDelete r) (on (wbit v 0) (execSetWrite r) s))
  else if off = 0x0C0 then after (execLinSelWrite r v s) s
  else if off = 0x0C4 then on (wbit v 1) (execLinReload r) (on (wbit v 0) (execLinCommit r) s)
  else rfPut (0x08000 + off) v s

/-- PWR. -/
def pwrWrite (r : Req) (off : Nat) (v : Word) (s : State) : State :=
  if off = 0x040 then pwrCtrl v s else if off = 0x068 then after (execRetDataAccess r (some v) s) s else rfPut (0x09000 + off) v s

/-- LSH; the Leash registers of a worker take nothing (R269). A holder's change of PERIOD or REFMODE is journalled (R266). -/
def lshWrite (r : Req) (off : Nat) (v : Word) (s : State) : State :=
  if off = 0x070 then rfPut 0x0A070 v s
  else if isManager s = false then s
  else if off = 0x040 then
    let t := rfPut 0x0A040 v s
    on (wbit v 15) (execHandoff r) (journal (.refmode (fixedHolder t)) (journal (.period (ctrlPeriod t)) t))
  else if off = 0x050 then after (execRefAckWrite r v s) s
  else if off = 0x054 then after (execRefGrantWrite r v s) s
  else if off = 0x07C then on (wbit v 1) (execRemoveCancel r) (on (wbit v 0) (execRemove r) s)
  else rfPut (0x0A000 + off) v s

/-- MRG; an admission written as a plain register write takes what the other hubs report as a free value. Log 48 (DEDUCED). -/
def mrgWrite (r : Req) (off : Nat) (v : Word) (s : State) : State :=
  if off = 0x040 then after (execMrgCselWrite r v s) s
  else if off = 0x06C then loadPart (rfPut 0x0B06C v s)
  else if off = 0x064 then
    let s := if wbit v 0 then after (execAdmit r (Config.admitTerms s.free) (s.modFree (· + 1))) s else s
    on (wbit v 2) (execMrgReload r) (on (wbit v 1) (execWithdraw r) s)
  else rfPut (0x0B000 + off) v s

/-- QUE. -/
def queWrite (r : Req) (off : Nat) (v : Word) (s : State) : State :=
  let q := queSel s
  let lane (i : Nat) : State :=
    modQue q (fun u => { u with wr := mkW128 ((List.range 4).map fun k => (32 * k, 32, if k = i then v.toNat else bits u.wr.toNat (32 * k) 32)) }) s
  if off = 0x044 then after (execQcfgWrite r v s) s
  else if off = 0x048 then after (execQsizeWrite r v s) s
  else if off = 0x04C then on (wbit v 0) (execQueueFlush r) s
  else if off = 0x050 then (if wbit v 31 then modQue q (fun u => { u with underrun := false }) s else s)
  else if off = 0x058 then wrote r (keyCoal q) (modQue q (fun u => { u with ncoal := wbits v 24 8, coalT := wbits v 0 16 }) s)
  else if off = 0x05C then after (execWmHwmWrite r v s) s
  else if off = 0x060 then after (execWmLatchClear r v s) s
  else if off = 0x0B0 then lane 0
  else if off = 0x0B4 then lane 1
  else if off = 0x0B8 then lane 2
  else if off = 0x0BC then after (execQueueAppend r v s) s
  else if off = 0x0C0 then on (wbit v 1) (execQueueWrewind r) (on (wbit v 0) (execQueueWcommit r) s)
  else rfPut (0x0D000 + off) v s

/-- CHW: COMMIT acts before RELOAD (R100). Log 10 (DESIGN CHOICE). -/
def chwWrite (r : Req) (off : Nat) (v : Word) (s : State) : State :=
  if off = 0x040 then after (execChwSelWrite r v s) s
  else if off = 0x044 then on (wbit v 1) (execChwReload r) (on (wbit v 0) (execChwCommit r) s)
  else rfPut (0x0E000 + off) v s

/-- TAT; on the HX000 only a COMMIT does anything, and fails (R174). ADDR keeps all nine bits; from 256 on the bank is full. Log 79 (DESIGN CHOICE). -/
def tatWrite (r : Req) (off : Nat) (v : Word) (s : State) : State :=
  let g := tatSel s
  if off = 0x040 then rfPut 0x0F040 v s
  else if off = 0x044 then on (wbit v 2) (execTatAbort r) (on (wbit v 1) (execTatCommit r) (on (wbit v 0) (execTatClr r) s))
  else if 24 ≤ g ∨ s.fuse.hx000 then s
  else if off = 0x04C then modTat g (fun t => { t with next := wbits v 0 4 }) s
  else if off = 0x050 then modTat g (fun t => { t with addr := wbits v 0 9 }) s
  else if off = 0x054 then after (execTatDataWrite r v s) s
  else s

/-- GG*n* and FG*n*; on the HX000 writes have no effect (R129). -/
def groupWrite (g off : Nat) (v : Word) (s : State) : State :=
  if s.fuse.hx000 then s
  else
    let s := rfPut (pgGroup g * 4096 + off) v s
    if off = 0x040 ∧ wbit v 30 then rotate g s else s

/-- CP*n* and MP*n*: the fields stored, then EIDLE and MAXRATE where they change, then RESTART. -/
def portWrite (r : Req) (p : Port) (off : Nat) (v : Word) (s : State) : State :=
  let a := pgPort p.val * 4096 + 0x040
  if off = 0x040 then
    let old := rfGet a s
    let s := losFollow p.val (rfPut a (mix 0x30 v old) s)
    let s := on (decide (wbits v 0 3 ≠ wbits old 0 3)) (execMaxrateWrite r p v) s
    let s := on (wbit v 6) (execEidleEnterRequest r p) s
    let s := on (!(wbit v 6)) (execEidleExitRequest r p) s
    on (wbit v 7) (execPortRestart r p) s
  else rfPut (pgPort p.val * 4096 + off) v s

/-- TC*n*. -/
def tcWrite (r : Req) (n : QNum) (off : Nat) (v : Word) (s : State) : State :=
  let base := pgTC n.val * 4096
  if off = 0x040 then
    on (wbit v 4) (execTcRestart r n) (on (wbit v 3) (execTcGo r n) (on (wbit v 2) (execTcAbort r n) (on (wbit v 1) (execTcCommit r n)
      (on (wbit v 0) (execTcClr r n) (rfPut (base + 0x040) v s)))))
  else if off = 0x044 then modTc n.val (fun t => { t with fpf := t.fpf &&& (7 - wbits v 18 3) }) s
  else if off = 0x060 then after (execTcImgDataWrite r n v s) s
  else rfPut (base + off) v s

/-- ORD: fields other than EN only while the unit's EN is 0 (R369). -/
def ordWrite (r : Req) (off : Nat) (v : Word) (s : State) : State :=
  let k := trsel s
  let j := wsel s
  let tr (f : Track → Track) : State := if (track k s).en then s else modTrack k f s
  let se (f : Sect → Sect) : State := if (sect j s).en then s else modSect j f s
  match off with
  | 0x044 => after (execTrackEnable r v s) s
  | 0x048 => tr fun x => { x with cfg1 := v &&& 0x01FF01FF }
  | 0x04C => tr fun x => { x with stall := wbits v 0 16 }
  | 0x064 => after (execSectionEnable r v s) s
  | 0x068 => se fun x => { x with ch01 := v &&& 0x01FF01FF }
  | 0x06C => se fun x => { x with ch23 := v &&& 0x01FF01FF }
  | 0x070 => se fun x => { x with time := v }
  | 0x074 => se fun x => { x with gain := v }
  | 0x078 => se fun x => { x with spd := v }
  | _ => rfPut (0x50000 + off) v s

/-- DIN: a new configuration acts from the pin's next edge (R357). -/
def dinWrite (r : Req) (off : Nat) (v : Word) (s : State) : State :=
  if off = 0x044 then wrote r (keyDin (dsel s)) (modDin (dsel s) (fun d => { d with cfg := v &&& 0xF8000000 }) s)
  else rfPut (0x51000 + off) v s

/-- TOUT: CANCEL, or a schedule (R371). -/
def toutWrite (r : Req) (off : Nat) (v : Word) (s : State) : State :=
  if off = 0x044 then after (execToutOwnerWrite r v s) s
  else if off = 0x060 then (if wbit v 3 then after (execToutCancel r v s) s else after (execToutSchedule r v s) s)
  else rfPut (0x52000 + off) v s

/-- RFX. -/
def rfxWrite (r : Req) (off : Nat) (v : Word) (s : State) : State :=
  let c := asel s
  let al (f : AlarmCh → AlarmCh) : State := if c < 320 then modAlarm c f s else s
  match off with
  | 0x044 => al fun x => { x with thr1 := v }
  | 0x048 => al fun x => { x with thr2 := v }
  | 0x04C => al fun x => { x with hys := v }
  | 0x06C => on (wbit v 2) (execRuleClear r) (on (wbit v 1) (execRuleReload r) (on (wbit v 0) (execRuleCommit r) s))
  | _ => rfPut (0x53000 + off) v s

/-- FSP. -/
def fspRegWrite (r : Req) (off : Nat) (v : Word) (s : State) : State :=
  if off = 0x040 then on (wbit v 0) (execFspResync r) s
  else if off = 0x048 then after (execFspLenWrite r v s) s
  else rfPut (0x54000 + off) v s

/-- A register of host ring *n*: while EN is 1 only EN, ICOAL, ITIME and the doorbell are written (R386). -/
def hrWrite (r : Req) (n : QNum) (off : Nat) (v : Word) (s : State) : State :=
  let set (f : Hr → Hr) : State := if (hr n.val s).en then s else modHr n.val f s
  match off with
  | 0x00 => set fun h => { h with baseLo := v &&& 0xFFFFFFC0 }
  | 0x04 => set fun h => { h with baseHi := v }
  | 0x08 => after (execHrEnableWrite r n v s) s
  | 0x0C => after (execHrTailWrite r n v s) s
  | 0x14 => set fun h => { h with wbLo := v &&& 0xFFFFFFFC }
  | 0x18 => set fun h => { h with wbHi := v }
  | _ => s

/-- PCI. -/
def pciWrite (r : Req) (off : Nat) (v : Word) (s : State) : State :=
  if off = 0x040 then after (execQuiesce r v s) s
  else if 0x200 ≤ off ∧ off < 0x400 then hrWrite r (Fin.ofNat 16 ((off - 0x200) / 0x20)) (off % 0x20) v s
  else s

/-- A write of a block's register, at and above offset 0x040. -/
def blockWrite (r : Req) (p off : Nat) (v : Word) (s : State) : State :=
  if p = 0 then devWrite off v s
  else if p = 1 then featWrite r off v s
  else if p = 2 then evtWrite off v s
  else if p = 3 then timWrite r off v s
  else if p = 4 then srvWrite r off v s
  else if p = 5 then plnWrite r off v s
  else if p = 6 then fwlWrite r off v s
  else if p = 7 then bstWrite r off v s
  else if p = 8 then calWrite r off v s
  else if p = 9 then pwrWrite r off v s
  else if p = 0x0A then lshWrite r off v s
  else if p = 0x0B then mrgWrite r off v s
  else if p = 0x0C then rfPut (0x0C000 + off) v s
  else if p = 0x0D then queWrite r off v s
  else if p = 0x0E then chwWrite r off v s
  else if p = 0x0F then tatWrite r off v s
  else if p < 0x28 then groupWrite (p - 0x10) off v s
  else if p < 0x40 then portWrite r (Fin.ofNat 24 (p - 0x28)) off v s
  else if p < 0x50 then tcWrite r (Fin.ofNat 16 (p - 0x40)) off v s
  else if p = 0x50 then ordWrite r off v s
  else if p = 0x51 then dinWrite r off v s
  else if p = 0x52 then toutWrite r off v s
  else if p = 0x53 then rfxWrite r off v s
  else if p = 0x54 then fspRegWrite r off v s
  else if p = 0x55 then pciWrite r off v s
  else s

/-! ## Soft reset (R404) -/

/-- Whether a queue would be free for new regions once disabled (R307). -/
def Que.bare (u : Que) : Bool := decide (u.pkts = []) && decide (u.openW = 0)

/-- QSIZE of every queue takes its reset value in one access (R307, R404): a queue that holds a word keeps its region with ERR 2, and one whose reset region meets such a region keeps its own with ERR 1. Log 41 (DEDUCED). -/
def resetRegions (s : State) : State :=
  let kept (q : Nat) : Bool := (List.range 16).any fun k =>
    decide (k ≠ q) && !(que k s).bare && decide (64 * q < (que k s).base + (que k s).size) && decide ((que k s).base < 64 * q + 64)
  (List.range 16).foldl (fun t q =>
    let u := que q t
    if u.bare = false then modQue q (fun u => { u with err := 2 }) t
    else if kept q then modQue q (fun u => { u with err := 1 }) t
    else
      let t := modQue q (fun u => { u with base := 64 * q, size := 64 }) t
      if u.base = 64 * q ∧ u.size = 64 then t else bumpGen pgQUE t) s

/-- The registers of a page that a soft reset writes with their reset values under the block's own rules: those that act on the block. The plain ones follow. Log 41 (DEDUCED). -/
def resetActs (r : Req) (p : Nat) (s : State) : State :=
  let each (sel n : Nat) (ws : List (Nat × Word)) (s : State) : State :=
    (List.range n).foldl (fun s u => ws.foldl (fun s w => blockWrite r p w.1 w.2 s) (rfPut sel (natW u) s)) s
  if p = 1 then (baseGrant s).modFab fun f => { f with lost := false }
  else if p = 4 then blockWrite r 4 0x044 0x28261400 s
  else if p = 6 then s.modFwl fun w => { w with hdrBuf := [] }
  else if p = 7 then bstCtrl 0x800005A0 s
  else if p = 9 then pwrCtrl 0 s
  else if p = 0x0A then blockWrite r 0x0A 0x040 0x000A4000 s
  else if p = 0x0D then
    resetRegions ((List.range 16).foldl (fun s q =>
      let s := rfPut 0x0D040 (natW q) s
      let s := blockWrite r p 0x044 0 (blockWrite r p 0x044 0 s)
      let s := blockWrite r p 0x058 0x01000000 s
      let s := blockWrite r p 0x05C 0x7FFFF s
      let was := (que q s).latch
      let s := modQue q (fun u => { u with underrun := false, latch := false, chk := false, wr := 0 }) s
      if was then bumpGen pgQUE s else s) s)
  else if p = 0x0E then (List.range 320).foldl (fun s c => if (chan c s).epis = 0 then s else modChan c (fun x => { x with epis := 0 }) s) s
  else if p = 0x0F then
    (if s.fuse.hx000 then s else (List.range 24).foldl (fun s g => modTat g (fun t => { t with next := 3, addr := 0 }) s) s)
  else if 0x28 ≤ p ∧ p < 0x40 then blockWrite r p 0x040 7 s
  else if 0x40 ≤ p ∧ p < 0x50 then modTc (p - 0x40) (fun t => { t with fpf := 0 }) s
  else if p = 0x50 then
    each 0x50060 4 [(0x064, 0x0003E000), (0x064, 0x0003E000), (0x068, 0), (0x06C, 0), (0x070, 0x003200C8), (0x074, 0), (0x078, 0)]
      (each 0x50040 16 [(0x044, 0x00078000), (0x044, 0x00078000), (0x048, 0), (0x04C, 100)] s)
  else if p = 0x51 then each 0x51040 32 [(0x044, 0)] s
  else if p = 0x52 then each 0x52040 16 [(0x044, 0)] s
  else if p = 0x53 then each 0x53040 320 [(0x044, 0), (0x048, 0), (0x04C, 0)] s
  else if p = 0x54 then fspSoftReset s
  else if p = 0x55 then
    (List.range 16).foldl (fun s n =>
      let b := 0x200 + 0x20 * n
      [(b + 0x08, (0x04010500 : Word)), (b + 0x08, 0x04010500), (b + 0x0C, 0), (b, 0), (b + 0x04, 0), (b + 0x14, 0), (b + 0x18, 0)].foldl (fun s w => blockWrite r p w.1 w.2 s) s)
      (blockWrite r p 0x040 0 s)
  else s

/-- A page soft-reset (R404): its registers, then its header; GEN and SNAP.SEQ stay, and so do the registers of the standby domain. Log 36, 41 (DEDUCED). -/
def softReset (r : Req) (p : Nat) (s : State) : State :=
  if 0x56 ≤ p then s
  else
    let gen := (page p s).gen
    let s := resetActs r p s
    let s := s.modRf fun m => m.filter fun e => !(decide (e.1 / 4096 = p)) || decide (e.1 = 0x09050) || decide (e.1 = 0x09054)
    let s := freeLatches p 0xFFFFFFFF s
    modPage p (fun g => { g with gen := gen, evEn := 0, evLatch := 0, first := none, en := true, freeze := false, hold := false }) s

/-! ## The header (R403–R407, R414, R417) -/

/-- A write of PAGE_CTRL (R403–R405): SRST acts last. -/
def pageCtrl (r : Req) (p : Nat) (v : Word) (s : State) : State :=
  let s := modPage p (fun g => { g with en := wbit v 0, freeze := wbit v 2, owner := if wbit v 2 then r.val else g.owner }) s
  resignal (eventsOf p) (if wbit v 1 then softReset r p s else s)

/-- A write of EV_LATCH (R414, R417). -/
def writeLatch (p : Nat) (v : Word) (s : State) : State := if p = pgEVT then s else resignal (eventsOf p) (clearLatch p v s)

/-- A write of EV_EN (R417). -/
def writeEvEn (p : Nat) (v : Word) (s : State) : State :=
  if p = pgEVT then s else resignal (eventsOf p) (modPage p (fun g => { g with evEn := v }) s)

/-- A write of SNAP (R407). -/
def writeSnap (p : Nat) (v : Word) (s : State) : State :=
  modPage p (fun g => { g with hold := wbit v 1 }) (if wbit v 0 then capture p s else s)

/-- A write of the common header. -/
def hdrWrite (r : Req) (p off : Nat) (v : Word) (s : State) : State :=
  if off = 0x008 then pageCtrl r p v s
  else if off = 0x014 then writeEvEn p v s
  else if off = 0x018 then writeLatch p v s
  else if off = 0x024 then writeSnap p v s
  else s

/-- A register written by a requester (R13, R15, R402, R405, R411). -/
def writeReg (r : Req) (addr : Nat) (v : Word) (s : State) : State :=
  let p := addr / 4096
  let off := addr % 4096 / 4 * 4
  if 0x56 ≤ p then reservedAccess s
  else gated r p (fun s => if off < 0x040 then hdrWrite r p off v (reachIsland true p s) else blockWrite r p off v (reachIsland true p s)) s

/-! ## The commands -/

/-- REGISTER_WRITE (R15). -/
def execRegisterWrite (r : Req) (addr : BitVec 20) (v : Word) (s : State) : Out3 := .next (writeReg r addr.toNat v s)

/-- A word-aligned register address. Log 9 (DESIGN CHOICE). -/
def regAddr (addr : BitVec 20) : Nat := addr.toNat / 4 * 4

/-- RC_FIELD_READ (R16). -/
def execRcFieldRead (r : Req) (addr : BitVec 20) (s : State) : Out3 := .next (readAnswer r (regAddr addr) s)
/-- MULTIWORD_LATCH_READ (R409). -/
def execMultiwordLatchRead (r : Req) (addr : BitVec 20) (s : State) : Out3 := .next (readAnswer r (regAddr addr) s)
/-- SHADOW_WORD_READ (R409). -/
def execShadowWordRead (r : Req) (addr : BitVec 20) (s : State) : Out3 := .next (readAnswer r (regAddr addr) s)

/-- SHADOW_EXPIRY (R409): 1 µs after the latching read. -/
def execShadowExpiry (r : Req) (page : PageNo) (s : State) : Out3 :=
  .next (s.modFab fun f =>
    { f with shadows := f.shadows.map fun h => if h.req = r.val ∧ h.page = page.val then { h with expired := true } else h })

/-- PAGE_SOFT_RESET (R404, R405). -/
def execPageSoftReset (r : Req) (page : PageNo) (s : State) : Out3 :=
  .next (if 0x56 ≤ page.val then reservedAccess s else gated r page.val (fun s => resignal (eventsOf page.val) (softReset r page.val s)) s)

/-- PAGE_FREEZE (R405): PAGE_CTRL written with FREEZE, EN as it stands. -/
def execPageFreeze (r : Req) (page : PageNo) (on : Bool) (s : State) : Out3 :=
  .next (writeReg r (page.val * 4096 + 0x008) (mkWord [(2, 1, b2n on), (0, 1, b2n (Machine.page page.val s).en)]) s)

/-- SNAP_TAKE (R407): SNAP written with TAKE, HOLD as it stands. Log 42 (DEDUCED). -/
def execSnapTake (r : Req) (page : PageNo) (s : State) : Out3 :=
  .next (writeReg r (page.val * 4096 + 0x024) (mkWord [(1, 1, b2n (Machine.page page.val s).hold), (0, 1, 1)]) s)

/-- EV_LATCH_WRITE (R414, R417). -/
def execEvLatchWrite (r : Req) (page : PageNo) (v : Word) (s : State) : Out3 := .next (writeReg r (page.val * 4096 + 0x018) v s)
/-- EV_EN_WRITE (R417). -/
def execEvEnWrite (r : Req) (page : PageNo) (v : Word) (s : State) : Out3 := .next (writeReg r (page.val * 4096 + 0x014) v s)
/-- EVT_CLEAR (R419). -/
def execEvtClear (r : Req) (hi : Bool) (v : Word) (s : State) : Out3 := .next (writeReg r (if hi then 0x0204C else 0x02048) v s)

/-- RESERVED_PAGE_ACCESS (R402): a read answers 0. -/
def execReservedPageAccess (r : Req) (addr : BitVec 20) (write : Bool) (s : State) : Out3 :=
  let a := regAddr addr
  .next (if write then writeReg r a 0 s else readAnswer r a s)

/-- REMOTE_ACCESS_GO (R413): RA_CTRL written with GO. Log 44 (DEDUCED). -/
def execRemoteAccessGo (r : Req) (v : Word) (s : State) : Out3 := .next (writeReg r 0x00064 (v ||| 0x80000000) s)

/-- Consecutive registers read by a requester, in ascending address order. -/
def readMany (r : Req) : Nat → Nat → State → List Word × State
  | _, 0, s => ([], s)
  | a, n + 1, s =>
    let x := readReg r a s
    let y := readMany r (a + 4) n x.2
    (x.1 :: y.1, y.2)

/-- Consecutive registers written by a requester, in ascending address order. -/
def writeMany (r : Req) : Nat → List Word → State → State
  | _, [], s => s
  | a, w :: ws, s => writeMany r (a + 4) ws (writeReg r a w s)

/-- REMOTE_ACCESS_EXECUTE (R413): the target serves the request as requester 3 and answers with operation 0x42; an address beyond 0xF_FFFC or unaligned is refused with ERR 4. Log 44 (DEDUCED). -/
def execRemoteAccessExecute (seg hub : Nat) (write : Bool) (addr : BitVec 20) (data : List Word) (count : Fin 5) (s : State) : Out3 :=
  let a := addr.toNat
  let n := if write then data.length else count.val
  .next (
    if a % 4 ≠ 0 ∨ 0xFFFFC < a + 4 * (n - 1) then sendCtrl (raBlk seg hub 0x42 4 0 [] s) s
    else if write then
      let s := writeMany 3 a data s
      sendCtrl (raBlk seg hub 0x42 0 0 [] s) s
    else
      let x := readMany 3 a n s
      sendCtrl (raBlk seg hub 0x42 0 n x.1 x.2) x.2)

/-- REMOTE_ACCESS_ANSWER (R413). Log 44 (DEDUCED). -/
def execRemoteAccessAnswer (err : Fin 8) (data : List Word) (s : State) : Out3 :=
  .next (
    if s.fab.raBusy = false then s
    else
      let keep := err.val ≠ 0 ∨ wbit (rfGet 0x00064 s) 30
      let s := if keep then s else ((data.take 4).zipIdx).foldl (fun s x => rfPut (0x00070 + 4 * x.2) x.1 s) s
      endRemote err.val s)

/-- REMOTE_ACCESS_TIMEOUT (R413). -/
def execRemoteAccessTimeout (s : State) : Out3 := .next (if s.fab.raBusy then endRemote 1 s else s)

/-- FEAT_COMMIT (R423). -/
def execFeatCommit (r : Req) (s : State) : Out3 := .next (writeReg r 0x01070 1 s)
/-- FEAT_BASE (R423). Log 43 (DEDUCED). -/
def execFeatBase (r : Req) (s : State) : Out3 := .next (writeReg r 0x01070 2 s)

/-- The causes whose episode ends after 1 s without them (R155, R248, R304, R306, R320, R346, R399, R427, R441 and the like). Log 37 (DEDUCED). -/
def timedEpisode (p bit : Nat) : Bool :=
  if p = 0 then decide (bit = 1 ∨ bit = 3 ∨ bit = 4)
  else if p = 7 then decide (bit = 2 ∨ bit = 7)
  else if p = 0x0B then decide (bit ≤ 26)
  else if p = 0x0C then decide (1 ≤ bit) && decide (bit ≤ 3)
  else if p = 0x0D then decide (16 ≤ bit)
  else if p < 0x10 then false
  else if p < 0x28 then decide (bit = 8 ∨ bit = 25 ∨ bit = 26)
  else if p < 0x40 then decide (bit = 6)
  else if p < 0x50 then decide (bit = 1 ∨ bit = 6 ∨ bit = 7)
  else if p = 0x50 then decide (bit ≤ 1)
  else if p = 0x52 then true
  else if p = 0x54 then decide (bit ≤ 4)
  else if p = 0x55 then decide (bit = 18 ∨ bit = 19)
  else false

/-- EPISODE_END_TIMER (R304): 1 s without a cause ends its episode. Log 37 (DEDUCED). -/
def execEpisodeEndTimer (page : PageNo) (bit : Fin 32) (sub : Nat) (s : State) : Out3 :=
  .next (if timedEpisode page.val bit.val then condEnd page.val bit.val sub s else s)

/-- BAR0_REQUEST (R377): one dword is served for requester 1; a partial write is discarded; more than one dword is an Unsupported Request. -/
def execBar0Request (write : Bool) (addr : BitVec 20) (be : BitVec 4) (dwords : Nat) (v : Word) (s : State) : Out3 :=
  let a := regAddr addr
  .next (
    if dwords ≠ 1 then drive (.unsupported a) s
    else if write = false then readAnswer 1 a s
    else if be ≠ 0xF then raiseOnce pgPCI pciBADACC 0 0xFF00 (s.modPci fun c => { c with badacc := (c.badacc + 1) % 65536 })
    else writeReg 1 a v s)

end Sys2Proof.Machine
end

