-- ==== Sys2Proof/Machine/Fsp.lean ====
section
/-! DEFINITION. The framed serial port: frames, requests, commands, replies and the stream buffer (R387–R397). -/

namespace Sys2Proof.Machine

/-! ## Replies (R388, R394, R395) -/

/-- FSP_EVT is driven low: an active event has its bit set in EVMAP0 or EVMAP1 (R387, R417). -/
def fspEvt (s : State) : Bool :=
  let m := (rfGet 0x54064 s).toNat + (rfGet 0x54068 s).toNat * 2 ^ 32
  (List.range 64).any fun e => m.testBit e && evActive e s

/-- Stream words wait beyond those sent (R388). -/
def fspMore (f : Fsp) : Bool := decide (sub32 f.ssent f.snext < f.sbuf.length)

/-- The FLAGS of a reply (R388); EVT reads 1 while FSP_EVT signals. -/
def fspFlags (s : State) : Nat :=
  let f := s.fsp
  packNat [(0, 1, b2n f.fe), (1, 1, b2n f.ce), (2, 1, b2n f.ae), (3, 1, b2n f.ovf), (4, 1, b2n f.cmd), (5, 1, b2n (fspEvt s)), (6, 1, b2n (fspMore f)), (7, 1, b2n f.rst)]

/-- The bytes a body may take in a frame of so many bytes: 4 of preamble and 4 of CRC are gone. Log 40 (DEDUCED). -/
def fspRoom (n : Nat) : Nat := n - 8

/-- A frame of 5 to 7 bytes is a heartbeat: byte 0 and the CRC alone (R388). -/
def fspShort (n : Nat) : Bool := decide (n < 8)

/-- Bytes brought to a length with zeros. -/
def padTo (n : Nat) (l : List Byte) : List Byte := l.take n ++ List.replicate (n - l.length) 0

/-- A frame: what stands before its CRC, padded, then the CRC (R388, R389). Log 40 (DEDUCED). -/
def fspFrame (n : Nat) (front : List Byte) : List Byte :=
  let b := padTo (n - 4) front
  b ++ leBytes 4 (crc32 b)

/-- The frame that goes out: the pending reply with FLAGS and DISC as they stand, or all zero where the hub is not ready or has no reply (R394, R395). -/
def fspOut (n : Nat) (ready : Bool) (s : State) : List Byte :=
  match s.fsp.reply, ready with
  | some x, true =>
    let w (k : Nat) : Byte := BitVec.ofNat 8 k
    if fspShort n then fspFrame n [w x.rp] else fspFrame n ([w x.rp, w (fspFlags s), w s.fsp.disc, w x.echo] ++ x.body)
  | _, _ => List.replicate n 0

/-- The pending reply has been sent (R395): flags and DISC start again, and a length written by the FSP itself applies (R397). -/
def fspSent (n : Nat) (f : Fsp) : Fsp :=
  match f.reply with
  | none => f
  | some _ =>
    let f := if fspShort n then f else { f with fe := false, ce := false, ae := false, ovf := false, cmd := false, rst := false, disc := 0 }
    match f.lenNext with
    | some (k, true) => { f with len := k, lenNext := none }
    | _ => f

/-- A new reply is built (R390): ALIVE_RP runs from 1 to 255. Log 40 (DEDUCED). -/
def fspReply (body : List Byte) (sseq : Option Nat) (s : State) : State :=
  s.modFsp fun f =>
    { f with rp := f.rp % 255 + 1, reply := some ⟨f.rp % 255 + 1, f.rq, body, sseq⟩, body := [], bodySseq := none,
             lastSseq := match sseq with
               | some q => some q
               | none => f.lastSseq }

/-- The length of the frame that will carry the reply, in bytes (R397). -/
def fspNextBytes (f : Fsp) : Nat :=
  match f.lenNext with
  | some (k, false) => k / 8
  | _ => f.len / 8

/-! ## Requests (R391) -/

/-- A command as read: OP, COUNT, ADDR, the dwords that follow. -/
abbrev FspCmd := Nat × Nat × Nat × List Word

/-- A command list up to END or its padding; none where an OP is undefined or data is missing. STREAM is undefined while it is not granted (R421). Log 40 (DEDUCED). -/
def fspParse (stream : Bool) : Nat → List Word → Option (List FspCmd)
  | 0, _ => some []
  | _, [] => some []
  | fuel + 1, w :: ws =>
    let op := wbits w 28 4
    let count := wbits w 20 8
    let addr := wbits w 0 20
    if op = 0 then some []
    else if op = 1 then (fspParse stream fuel ws).map fun l => (op, count, addr, []) :: l
    else if op = 2 then
      (if ws.length < count then none else (fspParse stream fuel (ws.drop count)).map fun l => (op, count, addr, ws.take count) :: l)
    else if op = 3 ∧ stream then
      (match ws with
       | [] => none
       | x :: rest => (fspParse stream fuel rest).map fun l => (op, count, addr, [x]) :: l)
    else none

/-- Where NEXT lies, as words above the oldest held (R393): none beyond SSENT; below the oldest it acts as the oldest. -/
def fspNext (next : Word) (f : Fsp) : Option Nat :=
  let d := sub32 next.toNat f.snext
  if d ≤ sub32 f.ssent f.snext then some d else if 2 ^ 31 ≤ d then some 0 else none

/-- Whether a command by itself is one that R391 refuses. -/
def fspBad (f : Fsp) (c : FspCmd) : Bool :=
  let (op, count, addr, data) := c
  if op = 3 then
    decide (addr % 4 ≠ 0) || (match data with
      | x :: _ => (fspNext x f).isNone
      | [] => true)
  else decide (count = 0) || decide (addr % 4 ≠ 0) || decide (0x100000 < addr + 4 * count)

/-- The bytes the READs of a list put into the reply. -/
def fspReadBytes (l : List FspCmd) : Nat := sumNat (l.map fun c => if c.1 = 1 then 4 * c.2.1 else 0)

/-- How many STREAMs a list holds. -/
def fspStreams (l : List FspCmd) : Nat := (l.filter fun c => decide (c.1 = 3)).length

/-- What a request is refused with (R391): 1 for CMD, 2 for OVF, 0 where it stands. Log 40 (DEDUCED). -/
def fspRefusal (room : Nat) (f : Fsp) (l : List FspCmd) : Nat :=
  if l.any (fspBad f) ∨ 1 < fspStreams l then 1
  else if room < fspReadBytes l + 8 * fspStreams l then 2
  else 0

/-- A request refused (R391). -/
def fspRefuse (ovf : Bool) (s : State) : State :=
  raiseOnce pgFSP fspREFUSED 0 0xFE00 (s.modFsp fun f => { f with refused := (f.refused + 1) % 65536, ovf := f.ovf || ovf, cmd := f.cmd || !ovf })

/-! ## Commands (R392, R393) -/

/-- A READ: registers as bytes of the reply body. -/
def fspReadCmd (count addr : Nat) (s : State) : State :=
  let x := readMany 2 addr count s
  x.2.modFsp fun f => { f with body := f.body ++ x.1.flatMap fun w => leBytes 4 w.toNat }

/-- Item lengths with so many words gone from the front. -/
def dropItems : Nat → List Nat → List Nat
  | 0, l => l
  | _, [] => []
  | n, k :: l => if k ≤ n then dropItems (n - k) l else (k - n) :: l

/-- Words of whole items from the front, within a limit. -/
def takeItems : Nat → List Nat → Nat
  | _, [] => 0
  | lim, k :: l => if k ≤ lim then k + takeItems (lim - k) l else 0

/-- The words from `base` on that a STREAM passes over: none where its NEXT lies below the last SSEQ, else those already sent. -/
def fspSkip (base : Nat) (f : Fsp) : Nat :=
  match f.lastSseq with
  | some q => if 0 < sub32 q base ∧ sub32 q base < 2 ^ 31 then 0 else sub32 f.ssent base
  | none => sub32 f.ssent base

/-- A STREAM carried out from the place `d` words above the oldest held, `skip` words of it passed over. -/
def fspStreamed (count lim skip d : Nat) (f : Fsp) : Fsp :=
  let items := dropItems d f.sitems
  let n := takeItems (if count = 0 then lim else min count lim) (dropItems skip items)
  let start := mod32 (f.snext + d + skip)
  { f with snext := mod32 (f.snext + d), sbuf := f.sbuf.drop d, sitems := items, ssent := mod32 (start + n),
           body := f.body ++ leBytes 4 start ++ leBytes 4 n ++ ((f.sbuf.drop (d + skip)).take n).flatMap fun w => leBytes 16 w.toNat,
           bodySseq := if n = 0 then f.bodySseq else some start }

/-- A STREAM whose NEXT lies at a place, if at one at all. -/
def fspStreamAt (count lim : Nat) (o : Option Nat) (s : State) : State :=
  match o with
  | none => s
  | some d => s.modFsp fun f => fspStreamed count lim (fspSkip (mod32 (f.snext + d)) f) d f

/-- A STREAM (R393): words below NEXT leave the buffer; the reply repeats from NEXT where it lies below the last SSEQ, else goes on from SSENT, with whole items within COUNT and `lim` words. Log 40 (DEDUCED). -/
def fspStreamCmd (count lim : Nat) (next : Word) (s : State) : State := fspStreamAt count lim (fspNext next s.fsp) s

/-- The commands of an accepted request in order; `lim` words of stream fit. -/
def fspRun (lim : Nat) : List FspCmd → State → State
  | [], s => s
  | (op, count, addr, data) :: l, s =>
    fspRun lim l
      (if op = 1 then fspReadCmd count addr s
       else if op = 2 then writeMany 2 addr data s
       else match data with
         | x :: _ => fspStreamCmd count lim x s
         | [] => s)

/-- A request's body executed or refused (R391, R392), and the reply built. -/
def fspExecute (n : Nat) (ws : List Word) (s : State) : State :=
  let room := fspRoom (fspNextBytes s.fsp)
  let s := s.modFsp fun f => { f with busy := true, body := [], bodySseq := none }
  let s :=
    if fspShort n then s
    else
      match fspParse (s.fab.grant.toNat.testBit 8) ws.length ws with
      | none => fspRefuse false s
      | some l =>
        let e := fspRefusal room s.fsp l
        if e ≠ 0 then fspRefuse (decide (e = 2)) s
        else fspRun ((room - fspReadBytes l - 8) / 16) l s
  (fspReply s.fsp.body s.fsp.bodySseq s).modFsp fun f => { f with busy := false }

/-- The dwords of a request's body. -/
def fspWords (bs : List Byte) : List Word := (List.range (bs.length / 4)).map fun i => BitVec.ofNat 32 (leNat (slice bs (4 * i) 4))

/-- A complete request taken by a ready hub (R390): CRC, counter, then the body; each builds a reply. -/
def fspTake (n : Nat) (bytes : List Byte) (s : State) : State :=
  let b := padTo n bytes
  let rq := (nth 0 b 0).toNat
  if leNat (slice b (n - 4) 4) ≠ crc32 (b.take (n - 4)) then
    fspReply [] none (raiseOnce pgFSP fspCE 0 0xFE00 (s.modFsp fun f => { f with ce := true, crcCnt := (f.crcCnt + 1) % 65536 }))
  else if s.fsp.anyAlive = false ∧ rq ≠ (s.fsp.rq + 1) % 256 then
    fspReply [] none (raiseOnce pgFSP fspAE 0 0xFE00 (s.modFsp fun f => { f with ae := true, aliveCnt := (f.aliveCnt + 1) % 65536 }))
  else
    fspExecute n (fspWords (slice b 4 (n - 8))) (s.modFsp fun f => { f with rq := rq, anyAlive := false, good := (f.good + 1) % 65536 })

/-- A discarded frame (R396). -/
def fspDiscard (s : State) : State :=
  raiseOnce pgFSP fspFE 0 0xFE00 (s.modFsp fun f => { f with fe := true, disc := satAdd 255 f.disc 1, discCnt := (f.discCnt + 1) % 65536 })

/-- FSP_FRAME (R388–R397): one select, its bytes and its sampling edges, and whether the hub was ready at its start. Log 40 (DEDUCED). -/
def execFspFrame (bytes : List Byte) (edges : Nat) (ready : Bool) (s : State) : Out3 :=
  let s := s.modFsp fun f => match f.lenNext with
    | some (k, false) => { f with len := k, lenNext := none }
    | _ => f
  let n := s.fsp.len / 8
  let whole := decide (edges = s.fsp.len)
  let s := drive (.frame (fspOut n ready s)) s
  .next (
    if ready = false then
      let s := s.modFsp fun f => { f with notrdy := (f.notrdy + 1) % 65536 }
      if whole then s else fspDiscard s
    else if whole = false then fspDiscard s
    else fspTake n bytes (s.modFsp (fspSent n)))

/-- FSP_END (R391): the command list ends; the reply is built from the body so far. Log 40 (DEDUCED). -/
def execFspEnd (s : State) : Out3 := .next (fspReply s.fsp.body s.fsp.bodySseq s)

/-- The room left in the body under construction, in bytes. -/
def fspLeft (s : State) : Nat := fspRoom (fspNextBytes s.fsp) - s.fsp.body.length

/-- FSP_READ (R391, R392): one READ of an accepted request. -/
def execFspRead (count : Fin 256) (addr : BitVec 20) (s : State) : Out3 :=
  let c : FspCmd := (1, count.val, addr.toNat, [])
  .next (
    if fspBad s.fsp c then fspRefuse false s
    else if fspLeft s < 4 * count.val then fspRefuse true s
    else fspReadCmd count.val addr.toNat s)

/-- FSP_WRITE (R391, R392): one WRITE of an accepted request. -/
def execFspWrite (addr : BitVec 20) (data : List Word) (s : State) : Out3 :=
  .next (if fspBad s.fsp (2, data.length, addr.toNat, data) ∨ 255 < data.length then fspRefuse false s else writeMany 2 addr.toNat data s)

/-- FSP_STREAM (R391, R393, R421): the STREAM of an accepted request. -/
def execFspStream (count : Fin 256) (next : Word) (s : State) : Out3 :=
  .next (
    if s.fab.grant.toNat.testBit 8 = false ∨ (fspNext next s.fsp).isNone then fspRefuse false s
    else if fspLeft s < 8 then fspRefuse true s
    else fspStreamCmd count.val ((fspLeft s - 8) / 16) next s)

end Sys2Proof.Machine
end

