-- ==== Sys2Proof/Machine/Haldom.lean ====
section
/-! DEFINITION. The Haldom instructions, each issued by a Terrier core (R321–R338). -/

namespace Sys2Proof.Machine

/-! ## Lanes and results -/

/-- Lane `j` of the int64 view (R324). -/
def lane64 (w : W128) (j : Nat) : BitVec 64 := BitVec.ofNat 64 (bits w.toNat (64 * j) 64)

/-- Four lanes from a function of the lane number. -/
def buildLanes (f : Nat → Word) : W128 := mkLanes (f 0) (f 1) (f 2) (f 3)

/-- Lanes of `new` where the write mask has a 1, of `old` elsewhere (R336). -/
def maskLanes (m : Nat) (new old : W128) : W128 := buildLanes fun i => if m.testBit i then laneOf new i else laneOf old i

/-- A result word written to `d`, and the next instruction. -/
def result (n d : Nat) (w : W128) (s : State) : State := advance n (setV n d w s)

/-- A result from the core's registers. -/
def compute (n d : Nat) (f : Tc → W128) (s : State) : State := issue n (fun s => result n d (f (tc n s)) s) s

/-- A lane-wise int32 operation of two registers under a write mask. Log 31 (DEDUCED). -/
def intOp (n d a b m : Nat) (op : Word → Word → Word) (s : State) : State :=
  compute n d (fun t => maskLanes m (buildLanes fun i => op (laneOf (t.v a) i) (laneOf (t.v b) i)) (t.v d)) s

/-- A lane-wise int64 operation: lane j is written when both of its mask bits are 1 (R336). -/
def longOp (n d a b m : Nat) (op : BitVec 64 → BitVec 64 → BitVec 64) (s : State) : State :=
  compute n d (fun t =>
    let r (j : Nat) : BitVec 64 :=
      if m.testBit (2 * j) && m.testBit (2 * j + 1) then op (lane64 (t.v a) j) (lane64 (t.v b) j) else lane64 (t.v d) j
    mkW128 [(0, 64, (r 0).toNat), (64, 64, (r 1).toNat)]) s

/-- The sticky bits of TC.STAT.FPF, OVF lowest (R323, R346). -/
def fpfBits (f : FpFlags) : Nat := b2n f.ovf + 2 * b2n f.dz + 4 * b2n f.inv

/-- A lane-wise operation with floating-point conditions of the written lanes (R323). Log 32 (DEDUCED). -/
def fpLanes (n d m : Nat) (op : Tc → Nat → Word × FpFlags) (s : State) : State :=
  issue n (fun s =>
    let t := tc n s
    let fl := (List.range 4).foldl (fun a i => if m.testBit i then a ||| fpfBits (op t i).2 else a) 0
    result n d (maskLanes m (buildLanes fun i => (op t i).1) (t.v d)) (modTc n (fun t => { t with fpf := t.fpf ||| fl }) s)) s

/-- A signalling NaN, an operand that makes an IEEE 754 operation invalid (R323). Log 32 (DEDUCED). -/
def sNaN (w : Word) : Bool := decide (wbits w 23 8 = 255) && decide (wbits w 0 23 ≠ 0) && !(wbit w 22)

/-- The conditions of an operation, invalid where an operand is a signalling NaN. Log 32 (DEDUCED). -/
def withSNaN (b : Bool) (r : Word × FpFlags) : Word × FpFlags := (r.1, { r.2 with inv := r.2.inv || b })

/-- A lane-wise operation of two fp32 registers. -/
def fpOp (n d a b m : Nat) (op : F32 → F32 → Word × FpFlags) (s : State) : State :=
  fpLanes n d m (fun t i =>
    let x := laneOf (t.v a) i
    let y := laneOf (t.v b) i
    withSNaN (sNaN x || sNaN y) (op (f32Read x) (f32Read y))) s

/-- No floating-point condition. -/
def noFlags : FpFlags := ⟨false, false, false⟩

/-- The signed order of two words. -/
def wordLt (a b : Word) : Bool := decide (a.toInt < b.toInt)

/-- All ones where a condition holds (R336). -/
def allOnes (b : Bool) : Word := if b then 0xFFFFFFFF else 0

/-- A sign-extended 14-bit immediate. -/
def simm (i : BitVec 14) : Int := i.toInt

/-! ## Control flow -/

/-- A jump (R336): a target at or beyond the code length is a fault (R337). -/
def jump (n : Nat) (target : Int) (s : State) : State :=
  if target < 0 ∨ (((tc n s).img.getD {}).codeLen : Int) ≤ target then coreFault n 4 s
  else modTc n (fun t => { t with pc := target.toNat }) s

/-- A conditional branch on lane 0 of two registers (R336). -/
def branch (n a b : Nat) (off : BitVec 14) (c : Word → Word → Bool) (s : State) : State :=
  issue n (fun s =>
    let t := tc n s
    if c (t.scalar a) (t.scalar b) then jump n ((t.pc : Int) + simm off) s else advance n s) s

/-- NOP. -/
def execNop (n : QNum) (s : State) : Out3 := .next (issue n.val (advance n.val) s)
/-- B: jump to an absolute index. -/
def execB (n : QNum) (t : BitVec 14) (s : State) : Out3 := .next (issue n.val (jump n.val t.toNat) s)
/-- BEQ. -/
def execBeq (n : QNum) (a b : Reg) (off : BitVec 14) (s : State) : Out3 := .next (branch n.val a.val b.val off (fun x y => decide (x = y)) s)
/-- BNE. -/
def execBne (n : QNum) (a b : Reg) (off : BitVec 14) (s : State) : Out3 := .next (branch n.val a.val b.val off (fun x y => decide (x ≠ y)) s)
/-- BLT. -/
def execBlt (n : QNum) (a b : Reg) (off : BitVec 14) (s : State) : Out3 := .next (branch n.val a.val b.val off wordLt s)
/-- BGE. -/
def execBge (n : QNum) (a b : Reg) (off : BitVec 14) (s : State) : Out3 := .next (branch n.val a.val b.val off (fun x y => !(wordLt x y)) s)

/-- CALL: v31 lane 0 takes the return index; the other lanes keep their value (R324). Log 31 (DEDUCED). -/
def execCall (n : QNum) (t : BitVec 14) (s : State) : Out3 :=
  .next (issue n.val (fun s =>
    let c := tc n.val s
    if (c.img.getD {}).codeLen ≤ t.toNat then coreFault n.val 4 s
    else jump n.val t.toNat (setV n.val 31 (maskLanes 1 (mkLanes (BitVec.ofNat 32 (c.pc + 1)) 0 0 0) (c.v 31)) s)) s)

/-- RET: jump to v31 lane 0, bits [13:0]. -/
def execRet (n : QNum) (s : State) : Out3 := .next (issue n.val (fun s => jump n.val (((tc n.val s).scalar 31).toNat % 16384 : Nat) s) s)

/-- WAIT. -/
def execWait (n : QNum) (mask : Fin 16) (s : State) : Out3 := .next (issue n.val (waitOn n.val mask.val) s)

/-! ## Triggers and ports -/

/-- Three free lanes, which the manual leaves open (R336). Log 30 (DESIGN CHOICE). -/
def freeLanes (s : State) : Word × Word × Word × State :=
  let r1 := takeFree s
  let r2 := takeFree r1.2
  let r3 := takeFree r2.2
  (r1.1, r2.1, r3.1, r3.2)

/-- TRIG: lane 0 takes the pending triggers and the overrun bit, which clear; the manual names no value for the other lanes. Log 30 (DESIGN CHOICE). -/
def execTrig (n : QNum) (d : Reg) (s : State) : Out3 :=
  .next (issue n.val (fun s =>
    let t := tc n.val s
    let w := mkWord [(0, 1, b2n t.wPend), (1, 1, b2n t.cPend), (2, 1, b2n t.ovrSince)]
    let r := freeLanes s
    result n.val d.val (mkLanes w r.1 r.2.1 r.2.2.1) (modTc n.val (fun t => { t with wPend := false, cPend := false, ovrSince := false }) r.2.2.2)) s)

/-- TIME: the latest window boundary. -/
def execTime (n : QNum) (d : Reg) (s : State) : Out3 :=
  .next (compute n.val d.val (fun t =>
    let per := (t.img.getD {}).wper * 1000
    mkLanes (BitVec.ofNat 32 t.bound.sec) (BitVec.ofNat 32 t.bound.ns) (BitVec.ofNat 32 (t.bound.ns / per)) (BitVec.ofNat 32 t.bound.epoch)) s)

/-- HZN: the output horizon's cap set or removed (R333). -/
def execHzn (n : QNum) (a : Reg) (s : State) : Out3 :=
  .next (issue n.val (fun s =>
    let w := (tc n.val s).v a.val
    let sec := (laneOf w 0).toNat
    let cap : Option Stamp := if sec = 0xFFFFFFFF then none else some ⟨s.tim.epoch, nearSec sec s.tim.sec, (laneOf w 1).toNat⟩
    let s := modTc n.val (fun t => { t with cap := cap }) s
    advance n.val (modTc n.val (fun t => { t with ho := t.hoNext }) s)) s)

/-- RECV: one input word and its information; the core waits while there is none (R330). -/
def execRecv (n : QNum) (d b : Reg) (s : State) : Out3 :=
  .next (issue n.val (fun s =>
    let r := takeIn n.val d.val b.val s
    if r.2 then advance n.val r.1 else modTcState n.val (fun t => { t with wait := .recv d.val b.val }) r.1) s)

/-- RECVN: as RECV, never waiting; without a word `d` keeps its value and the information is 0. -/
def execRecvn (n : QNum) (d b : Reg) (s : State) : Out3 :=
  .next (issue n.val (fun s =>
    let r := takeIn n.val d.val b.val s
    advance n.val (if r.2 then r.1 else setV n.val b.val 0 r.1)) s)

/-- A word sent, or the wait for space (R332, R334). -/
def sendOp (n : Nat) (a : Nat) (last : Bool) (s : State) : State :=
  issue n (fun s =>
    let w := (tc n s).v a
    let r := sendWord n w last s
    if r.2 then advance n r.1 else modTcState n (fun t => { t with wait := .send w last }) r.1) s

/-- SEND. -/
def execSend (n : QNum) (a : Reg) (s : State) : Out3 := .next (sendOp n.val a.val false s)
/-- SENDL. -/
def execSendl (n : QNum) (a : Reg) (s : State) : Out3 := .next (sendOp n.val a.val true s)

/-- PSTAT: the port state (R334); the manual names no value for lane 3. Bits [3:1] clear. Log 30 (DESIGN CHOICE). -/
def execPstat (n : QNum) (d : Reg) (s : State) : Out3 :=
  .next (issue n.val (fun s =>
    let t := tc n.val s
    let w := mkWord [(0, 1, b2n t.outb.isSome), (1, 1, b2n t.rew), (2, 1, b2n t.drop), (3, 1, b2n t.ref)]
    let r := takeFree s
    result n.val d.val (mkLanes w (BitVec.ofNat 32 (inLevel t)) (BitVec.ofNat 32 (outFree n.val s)) r.1)
      (modTc n.val (fun t => { t with rew := false, drop := false, ref := false }) r.2)) s)

/-- SABORT: the open output item is rewound; an item being dropped ends. -/
def execSabort (n : QNum) (s : State) : Out3 :=
  .next (issue n.val (fun s => advance n.val (modTc n.val (fun t => { t with outDrop := false }) (rewindOut n.val s))) s)

/-! ## Loads and stores -/

/-- The address of a load or store: lane 0 of a register plus a scaled immediate, within 32 bits. Log 31 (DEDUCED). -/
def memAddr (t : Tc) (a : Nat) (imm : BitVec 14) (scale : Nat) : Nat := ((((t.scalar a).toNat : Int) + simm imm * scale) % 2 ^ 32).toNat

/-- The fault of an access of `size` bytes (R337): outside the data region, then alignment. Log 31 (DEDUCED). -/
def memFault (addr size : Nat) : Option Nat :=
  if addr < 0x20000 ∨ 0x80000 < addr + size then some 2 else if addr % size ≠ 0 then some 3 else none

/-- A load of `size` bytes; an uncorrectable error is fault 5 and is reported by DEV too (R337, R427). -/
def load (n d a : Nat) (imm : BitVec 14) (size : Nat) (ue : Bool) (s : State) : State :=
  issue n (fun s =>
    let addr := memAddr (tc n s) a imm size
    match memFault addr size with
    | some c => coreFault n c s
    | none =>
      if ue then coreFault n 5 (raise pgDEV 0 (pgTC n * 256) s)
      else result n d (BitVec.ofNat 128 (leNat (Memory.readN s.mem (tcBase n + addr) size))) s) s

/-- A store of the low `size` bytes of a register. -/
def store (n d a : Nat) (imm : BitVec 14) (size : Nat) (s : State) : State :=
  issue n (fun s =>
    let t := tc n s
    let addr := memAddr t a imm size
    match memFault addr size with
    | some c => coreFault n c s
    | none => advance n (s.modMem fun m => Memory.writeN m (tcBase n + addr) (leBytes size (t.v d).toNat))) s

/-- LD. -/
def execLd (n : QNum) (d a : Reg) (imm : BitVec 14) (ue : Bool) (s : State) : Out3 := .next (load n.val d.val a.val imm 16 ue s)
/-- ST. -/
def execSt (n : QNum) (d a : Reg) (imm : BitVec 14) (s : State) : Out3 := .next (store n.val d.val a.val imm 16 s)
/-- LDW: lanes 1–3 become 0. -/
def execLdw (n : QNum) (d a : Reg) (imm : BitVec 14) (ue : Bool) (s : State) : Out3 := .next (load n.val d.val a.val imm 4 ue s)
/-- STW. -/
def execStw (n : QNum) (d a : Reg) (imm : BitVec 14) (s : State) : Out3 := .next (store n.val d.val a.val imm 4 s)

/-! ## Immediates -/

/-- LI. -/
def execLi (n : QNum) (d : Reg) (imm : BitVec 19) (s : State) : Out3 :=
  .next (compute n.val d.val (fun _ => mkLanes (imm.signExtend 32) 0 0 0) s)
/-- LIH. -/
def execLih (n : QNum) (d : Reg) (imm : BitVec 19) (s : State) : Out3 :=
  .next (compute n.val d.val (fun t =>
    maskLanes 1 (mkLanes (BitVec.ofNat 32 (imm.toNat * 8192 + (t.scalar d.val).toNat % 8192)) 0 0 0) (t.v d.val)) s)

/-- An operation on every int32 lane of one register. -/
def immOp (n d a : Nat) (op : Word → Word) (s : State) : State := compute n d (fun t => buildLanes fun i => op (laneOf (t.v a) i)) s

/-- ADDI. -/
def execAddi (n : QNum) (d a : Reg) (imm : BitVec 14) (s : State) : Out3 := .next (immOp n.val d.val a.val (· + imm.signExtend 32) s)
/-- SHLI. -/
def execShli (n : QNum) (d a : Reg) (imm : BitVec 14) (s : State) : Out3 := .next (immOp n.val d.val a.val (· <<< (imm.toNat % 32)) s)
/-- SHRI. -/
def execShri (n : QNum) (d a : Reg) (imm : BitVec 14) (s : State) : Out3 := .next (immOp n.val d.val a.val (· >>> (imm.toNat % 32)) s)
/-- SRAI. -/
def execSrai (n : QNum) (d a : Reg) (imm : BitVec 14) (s : State) : Out3 :=
  .next (immOp n.val d.val a.val (fun w => w.sshiftRight (imm.toNat % 32)) s)

/-! ## Integer operations -/

/-- IADD. -/
def execIadd (n : QNum) (d a b : Reg) (f : Fin 16) (s : State) : Out3 := .next (intOp n.val d.val a.val b.val f.val (· + ·) s)
/-- ISUB. -/
def execIsub (n : QNum) (d a b : Reg) (f : Fin 16) (s : State) : Out3 := .next (intOp n.val d.val a.val b.val f.val (· - ·) s)
/-- IMUL: the low 32 bits. -/
def execImul (n : QNum) (d a b : Reg) (f : Fin 16) (s : State) : Out3 := .next (intOp n.val d.val a.val b.val f.val (· * ·) s)
/-- IMIN. -/
def execImin (n : QNum) (d a b : Reg) (f : Fin 16) (s : State) : Out3 := .next (intOp n.val d.val a.val b.val f.val (fun x y => if wordLt y x then y else x) s)
/-- IMAX. -/
def execImax (n : QNum) (d a b : Reg) (f : Fin 16) (s : State) : Out3 := .next (intOp n.val d.val a.val b.val f.val (fun x y => if wordLt x y then y else x) s)
/-- SHL. -/
def execShl (n : QNum) (d a b : Reg) (f : Fin 16) (s : State) : Out3 := .next (intOp n.val d.val a.val b.val f.val (fun x y => x <<< (y.toNat % 32)) s)
/-- SHR. -/
def execShr (n : QNum) (d a b : Reg) (f : Fin 16) (s : State) : Out3 := .next (intOp n.val d.val a.val b.val f.val (fun x y => x >>> (y.toNat % 32)) s)
/-- SRA. -/
def execSra (n : QNum) (d a b : Reg) (f : Fin 16) (s : State) : Out3 := .next (intOp n.val d.val a.val b.val f.val (fun x y => x.sshiftRight (y.toNat % 32)) s)
/-- LADD. -/
def execLadd (n : QNum) (d a b : Reg) (f : Fin 16) (s : State) : Out3 := .next (longOp n.val d.val a.val b.val f.val (· + ·) s)
/-- LSUB. -/
def execLsub (n : QNum) (d a b : Reg) (f : Fin 16) (s : State) : Out3 := .next (longOp n.val d.val a.val b.val f.val (· - ·) s)
/-- IABS: −2^31 stays. -/
def execIabs (n : QNum) (d a : Reg) (f : Fin 16) (s : State) : Out3 :=
  .next (intOp n.val d.val a.val a.val f.val (fun x _ => if x.toInt < 0 then -x else x) s)

/-- A comparison under condition F of EQ, NE, LT, LE, GT, GE, from equality and order. -/
def condHolds (f : Nat) (eq lt gt : Bool) : Bool :=
  match f with
  | 0 => eq
  | 1 => !eq
  | 2 => lt
  | 3 => lt || eq
  | 4 => gt
  | _ => gt || eq

/-- Sticky conditions added (R323). -/
def addFpf (n fl : Nat) (s : State) : State := modTc n (fun t => { t with fpf := t.fpf ||| fl }) s

/-- The sticky bit of an invalid operation where a lane of a mask holds a signalling NaN in either operand. -/
def sNaNBits (m : Nat) (a b : W128) : Nat := if (List.range 4).any fun i => m.testBit i && (sNaN (laneOf a i) || sNaN (laneOf b i)) then 4 else 0

/-- A comparison written to every lane; under a condition that the manual does not define, a free value. Log 30 (DESIGN CHOICE), 32 (DEDUCED). -/
def cmpLanes (n d : Nat) (defined : Bool) (c : Tc → Nat → Bool) (s : State) : State :=
  if defined then result n d (buildLanes fun i => allOnes (c (tc n s) i)) s
  else
    let r := freeLanes s
    let q := takeFree r.2.2.2
    result n d (mkLanes r.1 r.2.1 r.2.2.1 q.1) q.2

/-- ICMP. -/
def execIcmp (n : QNum) (d a b : Reg) (f : Fin 16) (s : State) : Out3 :=
  .next (issue n.val (cmpLanes n.val d.val (decide (f.val < 6)) fun t i =>
    let x := laneOf (t.v a.val) i
    let y := laneOf (t.v b.val) i
    condHolds f.val (decide (x = y)) (wordLt x y) (wordLt y x)) s)

/-! ## Logical and permuting operations -/

/-- AND. -/
def execAndW (n : QNum) (d a b : Reg) (s : State) : Out3 := .next (compute n.val d.val (fun t => t.v a.val &&& t.v b.val) s)
/-- OR. -/
def execOrW (n : QNum) (d a b : Reg) (s : State) : Out3 := .next (compute n.val d.val (fun t => t.v a.val ||| t.v b.val) s)
/-- XOR. -/
def execXorW (n : QNum) (d a b : Reg) (s : State) : Out3 := .next (compute n.val d.val (fun t => t.v a.val ^^^ t.v b.val) s)
/-- ANDN. -/
def execAndn (n : QNum) (d a b : Reg) (s : State) : Out3 := .next (compute n.val d.val (fun t => t.v a.val &&& ~~~(t.v b.val)) s)
/-- SEL. -/
def execSel (n : QNum) (d a b c : Reg) (s : State) : Out3 :=
  .next (compute n.val d.val (fun t => (t.v a.val &&& t.v c.val) ||| (t.v b.val &&& ~~~(t.v c.val))) s)
/-- SHUF. -/
def execShuf (n : QNum) (d a : Reg) (imm : BitVec 14) (s : State) : Out3 :=
  .next (compute n.val d.val (fun t => buildLanes fun i => laneOf (t.v a.val) (bits imm.toNat (2 * i) 2)) s)
/-- BCAST. Log 31 (DEDUCED). -/
def execBcast (n : QNum) (d a : Reg) (f : Fin 16) (s : State) : Out3 :=
  .next (compute n.val d.val (fun t => buildLanes fun _ => laneOf (t.v a.val) (f.val % 4)) s)
/-- EXT. Log 31 (DEDUCED). -/
def execExt (n : QNum) (d a : Reg) (f : Fin 16) (s : State) : Out3 :=
  .next (compute n.val d.val (fun t => mkLanes (laneOf (t.v a.val) (f.val % 4)) 0 0 0) s)
/-- INS. -/
def execIns (n : QNum) (d a : Reg) (f : Fin 16) (s : State) : Out3 :=
  .next (compute n.val d.val (fun t => buildLanes fun i => if i = f.val % 4 then t.scalar a.val else laneOf (t.v d.val) i) s)

/-! ## Floating point -/

/-- FADD. -/
def execFadd (n : QNum) (d a b : Reg) (f : Fin 16) (s : State) : Out3 := .next (fpOp n.val d.val a.val b.val f.val F32.add s)
/-- FSUB. -/
def execFsub (n : QNum) (d a b : Reg) (f : Fin 16) (s : State) : Out3 := .next (fpOp n.val d.val a.val b.val f.val (fun x y => F32.add x y.negate) s)
/-- FMUL. -/
def execFmul (n : QNum) (d a b : Reg) (f : Fin 16) (s : State) : Out3 := .next (fpOp n.val d.val a.val b.val f.val F32.mul s)
/-- FDIV: correctly rounded (R323). -/
def execFdiv (n : QNum) (d a b : Reg) (f : Fin 16) (s : State) : Out3 := .next (fpOp n.val d.val a.val b.val f.val F32.div s)
/-- FSQRT: correctly rounded (R323). -/
def execFsqrt (n : QNum) (d a : Reg) (f : Fin 16) (s : State) : Out3 := .next (fpOp n.val d.val a.val a.val f.val (fun x _ => x.sqrt) s)
/-- `g a × b + c` with one rounding. -/
def fma (n d a b c m : Nat) (g : F32 → F32) (s : State) : State :=
  fpLanes n d m (fun t i =>
    let x := laneOf (t.v a) i
    let y := laneOf (t.v b) i
    let z := laneOf (t.v c) i
    withSNaN (sNaN x || sNaN y || sNaN z) (F32.fma (g (f32Read x)) (f32Read y) (f32Read z))) s

/-- FMA: one rounding. -/
def execFma (n : QNum) (d a b c : Reg) (f : Fin 16) (s : State) : Out3 :=
  .next (fma n.val d.val a.val b.val c.val f.val id s)
/-- FMS: c − a × b, one rounding. -/
def execFms (n : QNum) (d a b c : Reg) (f : Fin 16) (s : State) : Out3 :=
  .next (fma n.val d.val a.val b.val c.val f.val F32.negate s)

/-- Both operands are zeros of different sign: the manual does not say which one a minimum or maximum is. Log 30 (DESIGN CHOICE). -/
def zeroTie (x y : F32) : Bool := F32.eqv x y && decide (x.sign ≠ y.sign)

/-- A minimum or maximum, preferring the operand that is no NaN; free where the operands are zeros of different sign. -/
def fpPick (n d a b m : Nat) (less : F32 → F32 → Bool) (s : State) : State :=
  issue n (fun s =>
    let t := tc n s
    let one (i : Nat) (free : Word) : Word :=
      let x := f32Read (laneOf (t.v a) i)
      let y := f32Read (laneOf (t.v b) i)
      if x.isNaN then y.word else if y.isNaN then x.word
      else if zeroTie x y then free
      else if less y x then y.word else x.word
    let tie := (List.range 4).any fun i => m.testBit i && zeroTie (f32Read (laneOf (t.v a) i)) (f32Read (laneOf (t.v b) i))
    let r := if tie then takeFree s else (0, s)
    let z : Word := r.1 &&& 0x80000000
    result n d (maskLanes m (buildLanes fun i => one i z) (t.v d)) (addFpf n (sNaNBits m (t.v a) (t.v b)) r.2)) s

/-- FMIN. Log 30 (DESIGN CHOICE). -/
def execFmin (n : QNum) (d a b : Reg) (f : Fin 16) (s : State) : Out3 := .next (fpPick n.val d.val a.val b.val f.val F32.lt s)
/-- FMAX. Log 30 (DESIGN CHOICE). -/
def execFmax (n : QNum) (d a b : Reg) (f : Fin 16) (s : State) : Out3 := .next (fpPick n.val d.val a.val b.val f.val (fun x y => F32.lt y x) s)
/-- FABS. -/
def execFabs (n : QNum) (d a : Reg) (f : Fin 16) (s : State) : Out3 :=
  .next (fpLanes n.val d.val f.val (fun t i =>
    let x := f32Read (laneOf (t.v a.val) i)
    ((if x.sign then x.negate else x).word, noFlags)) s)
/-- FNEG. -/
def execFneg (n : QNum) (d a : Reg) (f : Fin 16) (s : State) : Out3 :=
  .next (fpLanes n.val d.val f.val (fun t i => ((f32Read (laneOf (t.v a.val) i)).negate.word, noFlags)) s)

/-- FCMP: condition 6 is unordered; a NaN is unequal to everything and in no order. -/
def execFcmp (n : QNum) (d a b : Reg) (f : Fin 16) (s : State) : Out3 :=
  .next (issue n.val (fun s =>
    let t := tc n.val s
    cmpLanes n.val d.val (decide (f.val < 7)) (fun t i =>
      let x := f32Read (laneOf (t.v a.val) i)
      let y := f32Read (laneOf (t.v b.val) i)
      if f.val = 6 then x.isNaN || y.isNaN else condHolds f.val (F32.eqv x y) (F32.lt x y) (F32.lt y x))
      (addFpf n.val (sNaNBits 15 (t.v a.val) (t.v b.val)) s)) s)

/-- CVTIF. -/
def execCvtif (n : QNum) (d a : Reg) (f : Fin 16) (s : State) : Out3 :=
  .next (fpLanes n.val d.val f.val (fun t i => f32OfDyadic false (laneOf (t.v a.val) i).toInt 0) s)

/-- An fp32 value as int32 (R323): to nearest even, saturating at ±0x7FFF_FFFF, the no-value code for a NaN. Log 31 (DEDUCED). -/
def cvtToInt (x : F32) : Word × FpFlags :=
  let top : Int := 0x7FFFFFFF
  match x.frac? with
  | some q =>
    let v := q.roundEven
    if top < v ∨ v < -top then (BitVec.ofInt 32 (clampInt (-top) top v), ⟨true, false, false⟩) else (BitVec.ofInt 32 v, noFlags)
  | none =>
    if x.isNaN then (0x80000000, ⟨true, false, false⟩) else (BitVec.ofInt 32 (if x.sign then -top else top), ⟨true, false, false⟩)

/-- CVTFI. -/
def execCvtfi (n : QNum) (d a : Reg) (f : Fin 16) (s : State) : Out3 :=
  .next (fpOp n.val d.val a.val a.val f.val (fun x _ => cvtToInt x) s)

/-- HADD: the four lanes summed in pairs, into lane 0. Log 31 (DEDUCED). -/
def execHadd (n : QNum) (d a : Reg) (s : State) : Out3 :=
  .next (issue n.val (fun s =>
    let w := (tc n.val s).v a.val
    let l (i : Nat) : F32 := f32Read (laneOf w i)
    let p := F32.add (l 0) (l 1)
    let q := F32.add (l 2) (l 3)
    let r := F32.add (f32Read p.1) (f32Read q.1)
    let fl := fpfBits p.2 ||| fpfBits q.2 ||| fpfBits r.2 ||| sNaNBits 15 w w
    result n.val d.val (mkLanes r.1 0 0 0) (addFpf n.val fl s)) s)

end Sys2Proof.Machine
end

