-- ==== Sys2Proof/Machine/Dispatch.lean ====
section
/-! DEFINITION. One arm for each command. -/

namespace Sys2Proof.Machine

/-- What a command does to everything but the queue. -/
def exec (i : Instr) (s : State) : Host.Outcome State Fault Refusal :=
  match i with
  | .tatNop g => Sys2Proof.Machine.execTatNop g s
  | .waita g off => Sys2Proof.Machine.execWaita g off s
  | .waitr g delta => Sys2Proof.Machine.execWaitr g delta s
  | .lead g auto ch => Sys2Proof.Machine.execLead g auto ch s
  | .pulse g all ch => Sys2Proof.Machine.execPulse g all ch s
  | .ref g src range dwell => Sys2Proof.Machine.execRef g src range dwell s
  | .excm g => Sys2Proof.Machine.execExcm g s
  | .rot g => Sys2Proof.Machine.execRot g s
  | .every g k res => Sys2Proof.Machine.execEvery g k res s
  | .tatLoop g count => Sys2Proof.Machine.execTatLoop g count s
  | .endl g => Sys2Proof.Machine.execEndl g s
  | .tatEnd g => Sys2Proof.Machine.execTatEnd g s
  | .nop n => Sys2Proof.Machine.execNop n s
  | .b n t => Sys2Proof.Machine.execB n t s
  | .beq n a b off => Sys2Proof.Machine.execBeq n a b off s
  | .bne n a b off => Sys2Proof.Machine.execBne n a b off s
  | .blt n a b off => Sys2Proof.Machine.execBlt n a b off s
  | .bge n a b off => Sys2Proof.Machine.execBge n a b off s
  | .call n t => Sys2Proof.Machine.execCall n t s
  | .ret n => Sys2Proof.Machine.execRet n s
  | .wait n mask => Sys2Proof.Machine.execWait n mask s
  | .trig n d => Sys2Proof.Machine.execTrig n d s
  | .time n d => Sys2Proof.Machine.execTime n d s
  | .hzn n a => Sys2Proof.Machine.execHzn n a s
  | .recv n d b => Sys2Proof.Machine.execRecv n d b s
  | .recvn n d b => Sys2Proof.Machine.execRecvn n d b s
  | .send n a => Sys2Proof.Machine.execSend n a s
  | .sendl n a => Sys2Proof.Machine.execSendl n a s
  | .pstat n d => Sys2Proof.Machine.execPstat n d s
  | .sabort n => Sys2Proof.Machine.execSabort n s
  | .ld n d a imm ue => Sys2Proof.Machine.execLd n d a imm ue s
  | .st n d a imm => Sys2Proof.Machine.execSt n d a imm s
  | .ldw n d a imm ue => Sys2Proof.Machine.execLdw n d a imm ue s
  | .stw n d a imm => Sys2Proof.Machine.execStw n d a imm s
  | .li n d imm => Sys2Proof.Machine.execLi n d imm s
  | .lih n d imm => Sys2Proof.Machine.execLih n d imm s
  | .addi n d a imm => Sys2Proof.Machine.execAddi n d a imm s
  | .shli n d a imm => Sys2Proof.Machine.execShli n d a imm s
  | .shri n d a imm => Sys2Proof.Machine.execShri n d a imm s
  | .srai n d a imm => Sys2Proof.Machine.execSrai n d a imm s
  | .iadd n d a b f => Sys2Proof.Machine.execIadd n d a b f s
  | .isub n d a b f => Sys2Proof.Machine.execIsub n d a b f s
  | .imul n d a b f => Sys2Proof.Machine.execImul n d a b f s
  | .imin n d a b f => Sys2Proof.Machine.execImin n d a b f s
  | .imax n d a b f => Sys2Proof.Machine.execImax n d a b f s
  | .icmp n d a b f => Sys2Proof.Machine.execIcmp n d a b f s
  | .shl n d a b f => Sys2Proof.Machine.execShl n d a b f s
  | .shr n d a b f => Sys2Proof.Machine.execShr n d a b f s
  | .sra n d a b f => Sys2Proof.Machine.execSra n d a b f s
  | .ladd n d a b f => Sys2Proof.Machine.execLadd n d a b f s
  | .lsub n d a b f => Sys2Proof.Machine.execLsub n d a b f s
  | .iabs n d a f => Sys2Proof.Machine.execIabs n d a f s
  | .andW n d a b => Sys2Proof.Machine.execAndW n d a b s
  | .orW n d a b => Sys2Proof.Machine.execOrW n d a b s
  | .xorW n d a b => Sys2Proof.Machine.execXorW n d a b s
  | .andn n d a b => Sys2Proof.Machine.execAndn n d a b s
  | .sel n d a b c => Sys2Proof.Machine.execSel n d a b c s
  | .shuf n d a imm => Sys2Proof.Machine.execShuf n d a imm s
  | .bcast n d a f => Sys2Proof.Machine.execBcast n d a f s
  | .ext n d a f => Sys2Proof.Machine.execExt n d a f s
  | .ins n d a f => Sys2Proof.Machine.execIns n d a f s
  | .fadd n d a b f => Sys2Proof.Machine.execFadd n d a b f s
  | .fsub n d a b f => Sys2Proof.Machine.execFsub n d a b f s
  | .fmul n d a b f => Sys2Proof.Machine.execFmul n d a b f s
  | .fma n d a b c f => Sys2Proof.Machine.execFma n d a b c f s
  | .fms n d a b c f => Sys2Proof.Machine.execFms n d a b c f s
  | .fmin n d a b f => Sys2Proof.Machine.execFmin n d a b f s
  | .fmax n d a b f => Sys2Proof.Machine.execFmax n d a b f s
  | .fabs n d a f => Sys2Proof.Machine.execFabs n d a f s
  | .fneg n d a f => Sys2Proof.Machine.execFneg n d a f s
  | .fcmp n d a b f => Sys2Proof.Machine.execFcmp n d a b f s
  | .cvtif n d a f => Sys2Proof.Machine.execCvtif n d a f s
  | .cvtfi n d a f => Sys2Proof.Machine.execCvtfi n d a f s
  | .hadd n d a => Sys2Proof.Machine.execHadd n d a s
  | .fdiv n d a b f => Sys2Proof.Machine.execFdiv n d a b f s
  | .fsqrt n d a f => Sys2Proof.Machine.execFsqrt n d a f s
  | .powerGood role pos mode vexc viepe => Sys2Proof.Machine.execPowerGood role pos mode vexc viepe s
  | .bootLoadDone => Sys2Proof.Machine.execBootLoadDone s
  | .supplyFall rail => Sys2Proof.Machine.execSupplyFall rail s
  | .resetNLow => Sys2Proof.Machine.execResetNLow s
  | .pwrDevrst r v => Sys2Proof.Machine.execPwrDevrst r v s
  | .watchdogExpiry => Sys2Proof.Machine.execWatchdogExpiry s
  | .junctionTempRead core => Sys2Proof.Machine.execJunctionTempRead core s
  | .vstbyRise => Sys2Proof.Machine.execVstbyRise s
  | .perst => Sys2Proof.Machine.execPerst s
  | .functionLevelReset => Sys2Proof.Machine.execFunctionLevelReset s
  | .startBoundTimer step => Sys2Proof.Machine.execStartBoundTimer step s
  | .sliceSearch => Sys2Proof.Machine.execSliceSearch s
  | .converterCheckDone meas => Sys2Proof.Machine.execConverterCheckDone meas s
  | .samplingStart => Sys2Proof.Machine.execSamplingStart s
  | .inService => Sys2Proof.Machine.execInService s
  | .parkRequest r v => Sys2Proof.Machine.execParkRequest r v s
  | .unparkRequest r v => Sys2Proof.Machine.execUnparkRequest r v s
  | .standbyRequest r v => Sys2Proof.Machine.execStandbyRequest r v s
  | .parkStop => Sys2Proof.Machine.execParkStop s
  | .diceOffDone => Sys2Proof.Machine.execDiceOffDone s
  | .supEnFall => Sys2Proof.Machine.execSupEnFall s
  | .wakePin => Sys2Proof.Machine.execWakePin s
  | .wakeAlarm => Sys2Proof.Machine.execWakeAlarm s
  | .anaLost lo => Sys2Proof.Machine.execAnaLost lo s
  | .anaBack => Sys2Proof.Machine.execAnaBack s
  | .vexcLow low => Sys2Proof.Machine.execVexcLow low s
  | .viepeLow low => Sys2Proof.Machine.execViepeLow low s
  | .standbyCounterCopy => Sys2Proof.Machine.execStandbyCounterCopy s
  | .retDataAccess r w => Sys2Proof.Machine.execRetDataAccess r w s
  | .loadDataWrite r v => Sys2Proof.Machine.execLoadDataWrite r v s
  | .loadGo r => Sys2Proof.Machine.execLoadGo r s
  | .stage r => Sys2Proof.Machine.execStage r s
  | .discard r => Sys2Proof.Machine.execDiscard r s
  | .recheck r => Sys2Proof.Machine.execRecheck r s
  | .actSecArm r v => Sys2Proof.Machine.execActSecArm r v s
  | .sliceReqTimer => Sys2Proof.Machine.execSliceReqTimer s
  | .sliceReqReceive p seg pos unknown => Sys2Proof.Machine.execSliceReqReceive p seg pos unknown s
  | .sliceServe => Sys2Proof.Machine.execSliceServe s
  | .sliceDataReceive b held => Sys2Proof.Machine.execSliceDataReceive b held s
  | .sliceRetryTimer => Sys2Proof.Machine.execSliceRetryTimer s
  | .pendSliceReceive bytes sec => Sys2Proof.Machine.execPendSliceReceive bytes sec s
  | .planActivation => Sys2Proof.Machine.execPlanActivation s
  | .identityWindowClose => Sys2Proof.Machine.execIdentityWindowClose s
  | .capExchange p c => Sys2Proof.Machine.execCapExchange p c s
  | .capXnTick p => Sys2Proof.Machine.execCapXnTick p s
  | .capSendTimer p => Sys2Proof.Machine.execCapSendTimer p s
  | .coarseSample g conv sec m mods pins bias => Sys2Proof.Machine.execCoarseSample g conv sec m mods pins bias s
  | .fineRecordReady g conv t mods cm => Sys2Proof.Machine.execFineRecordReady g conv t mods cm s
  | .recordRelease slot => Sys2Proof.Machine.execRecordRelease slot s
  | .runCloseTimer con slot => Sys2Proof.Machine.execRunCloseTimer con slot s
  | .modOverload g conv start stop => Sys2Proof.Machine.execModOverload g conv start stop s
  | .modulatorReset g conv start stop => Sys2Proof.Machine.execModulatorReset g conv start stop s
  | .synPhaseCompare east err => Sys2Proof.Machine.execSynPhaseCompare east err s
  | .viepeMeasure mv => Sys2Proof.Machine.execViepeMeasure mv s
  | .clampStart c => Sys2Proof.Machine.execClampStart c s
  | .clampEnd c => Sys2Proof.Machine.execClampEnd c s
  | .snsLostDetect g => Sys2Proof.Machine.execSnsLostDetect g s
  | .snsRestore g => Sys2Proof.Machine.execSnsRestore g s
  | .excLimitEngage g ma => Sys2Proof.Machine.execExcLimitEngage g ma s
  | .excOff g => Sys2Proof.Machine.execExcOff g s
  | .excRetry g ma => Sys2Proof.Machine.execExcRetry g ma s
  | .leadStepDone g nv isOver => Sys2Proof.Machine.execLeadStepDone g nv isOver s
  | .leadStaleTimer c => Sys2Proof.Machine.execLeadStaleTimer c s
  | .chwSelWrite r v => Sys2Proof.Machine.execChwSelWrite r v s
  | .chwCommit r => Sys2Proof.Machine.execChwCommit r s
  | .chwReload r => Sys2Proof.Machine.execChwReload r s
  | .chwCommitEffect e ma => Sys2Proof.Machine.execChwCommitEffect e ma s
  | .hardSwitch c => Sys2Proof.Machine.execHardSwitch c s
  | .incumbentRelease g => Sys2Proof.Machine.execIncumbentRelease g s
  | .rotationTick g => Sys2Proof.Machine.execRotationTick g s
  | .reliefForce r g => Sys2Proof.Machine.execReliefForce r g s
  | .reliefTaskStart g => Sys2Proof.Machine.execReliefTaskStart g s
  | .hardWaitExpiry c => Sys2Proof.Machine.execHardWaitExpiry c s
  | .referenceCheckDone g m => Sys2Proof.Machine.execReferenceCheckDone g m s
  | .rateBoundary c => Sys2Proof.Machine.execRateBoundary c s
  | .chainReconfigure c => Sys2Proof.Machine.execChainReconfigure c s
  | .frameStart g => Sys2Proof.Machine.execFrameStart g s
  | .tatWaitExpiry g => Sys2Proof.Machine.execTatWaitExpiry g s
  | .pulseWindowDone g ch mv rail => Sys2Proof.Machine.execPulseWindowDone g ch mv rail s
  | .excmDone g mv => Sys2Proof.Machine.execExcmDone g mv s
  | .tatDeferredRun g => Sys2Proof.Machine.execTatDeferredRun g s
  | .tatClr r => Sys2Proof.Machine.execTatClr r s
  | .tatDataWrite r v => Sys2Proof.Machine.execTatDataWrite r v s
  | .tatCommit r => Sys2Proof.Machine.execTatCommit r s
  | .tatAbort r => Sys2Proof.Machine.execTatAbort r s
  | .tatSwap g => Sys2Proof.Machine.execTatSwap g s
  | .tempReading g t => Sys2Proof.Machine.execTempReading g t s
  | .campGo r v => Sys2Proof.Machine.execCampGo r v s
  | .calPointDone g conv range src dwell samples => Sys2Proof.Machine.execCalPointDone g conv range src dwell samples s
  | .calSetSelWrite r v => Sys2Proof.Machine.execCalSetSelWrite r v s
  | .setWrite r => Sys2Proof.Machine.execSetWrite r s
  | .setDelete r => Sys2Proof.Machine.execSetDelete r s
  | .setReload r => Sys2Proof.Machine.execSetReload r s
  | .linSelWrite r v => Sys2Proof.Machine.execLinSelWrite r v s
  | .linCommit r => Sys2Proof.Machine.execLinCommit r s
  | .linReload r => Sys2Proof.Machine.execLinReload r s
  | .linSlotSwitch c => Sys2Proof.Machine.execLinSlotSwitch c s
  | .servoMeasurement => Sys2Proof.Machine.execServoMeasurement s
  | .sourceLossTimer => Sys2Proof.Machine.execSourceLossTimer s
  | .freeRunTimer => Sys2Proof.Machine.execFreeRunTimer s
  | .prefReturnTimer p => Sys2Proof.Machine.execPrefReturnTimer p s
  | .fclkAbsent p => Sys2Proof.Machine.execFclkAbsent p s
  | .timeMarkerSend p => Sys2Proof.Machine.execTimeMarkerSend p s
  | .timeMarkerReceive p seq m good ph => Sys2Proof.Machine.execTimeMarkerReceive p seq m good ph s
  | .closureRound kind num => Sys2Proof.Machine.execClosureRound kind num s
  | .closReportReceive ring hop theta d => Sys2Proof.Machine.execClosReportReceive ring hop theta d s
  | .closAsymReceive p asym => Sys2Proof.Machine.execClosAsymReceive p asym s
  | .todApplyNow r => Sys2Proof.Machine.execTodApplyNow r s
  | .todApplyPps r => Sys2Proof.Machine.execTodApplyPps r s
  | .ppsInEdge rising => Sys2Proof.Machine.execPpsInEdge rising s
  | .ppsLossTimer => Sys2Proof.Machine.execPpsLossTimer s
  | .epAnnounceReceive a => Sys2Proof.Machine.execEpAnnounceReceive a s
  | .epReqReceive => Sys2Proof.Machine.execEpReqReceive s
  | .epDeferredAnnounce => Sys2Proof.Machine.execEpDeferredAnnounce s
  | .epochChange => Sys2Proof.Machine.execEpochChange s
  | .epochAdopt => Sys2Proof.Machine.execEpochAdopt s
  | .dinEdge pin e => Sys2Proof.Machine.execDinEdge pin e s
  | .toutSchedule r v => Sys2Proof.Machine.execToutSchedule r v s
  | .toutCancel r v => Sys2Proof.Machine.execToutCancel r v s
  | .toutScheduleFire pin => Sys2Proof.Machine.execToutScheduleFire pin s
  | .toutOwnerWrite r v => Sys2Proof.Machine.execToutOwnerWrite r v s
  | .ppsOutEdge => Sys2Proof.Machine.execPpsOutEdge s
  | .ppsOutPulseEnd => Sys2Proof.Machine.execPpsOutPulseEnd s
  | .srvGainsWrite r v => Sys2Proof.Machine.execSrvGainsWrite r v s
  | .blockSlotSend p => Sys2Proof.Machine.execBlockSlotSend p s
  | .blockReceive p b => Sys2Proof.Machine.execBlockReceive p b s
  | .huntTimeout p => Sys2Proof.Machine.execHuntTimeout p s
  | .losInput p level => Sys2Proof.Machine.execLosInput p level s
  | .signalDetect p => Sys2Proof.Machine.execSignalDetect p s
  | .replayReceive p seq => Sys2Proof.Machine.execReplayReceive p seq s
  | .replayFailReceive p => Sys2Proof.Machine.execReplayFailReceive p s
  | .peakTrimTick p dir => Sys2Proof.Machine.execPeakTrimTick p dir s
  | .eidleEnterRequest r p => Sys2Proof.Machine.execEidleEnterRequest r p s
  | .eidleExitRequest r p => Sys2Proof.Machine.execEidleExitRequest r p s
  | .eidleReceive p => Sys2Proof.Machine.execEidleReceive p s
  | .eidleExitTimeout p => Sys2Proof.Machine.execEidleExitTimeout p s
  | .portRestart r p => Sys2Proof.Machine.execPortRestart r p s
  | .maxrateWrite r p v => Sys2Proof.Machine.execMaxrateWrite r p v s
  | .stepTimeout p => Sys2Proof.Machine.execStepTimeout p s
  | .testBlockTimer p => Sys2Proof.Machine.execTestBlockTimer p s
  | .testBlockReceive p words => Sys2Proof.Machine.execTestBlockReceive p words s
  | .breakReceive p ring hop => Sys2Proof.Machine.execBreakReceive p ring hop s
  | .restoreReceive p ring hop => Sys2Proof.Machine.execRestoreReceive p ring hop s
  | .hopRestoreTimer ring hop => Sys2Proof.Machine.execHopRestoreTimer ring hop s
  | .renewTimer => Sys2Proof.Machine.execRenewTimer s
  | .renewReceive seg hub term num => Sys2Proof.Machine.execRenewReceive seg hub term num s
  | .renewAckReceive a => Sys2Proof.Machine.execRenewAckReceive a s
  | .leaseExpiry => Sys2Proof.Machine.execLeaseExpiry s
  | .grantReqTimer => Sys2Proof.Machine.execGrantReqTimer s
  | .grantReqReceive seg hub => Sys2Proof.Machine.execGrantReqReceive seg hub s
  | .grantReqHoldExpiry seg => Sys2Proof.Machine.execGrantReqHoldExpiry seg s
  | .grantReceive term => Sys2Proof.Machine.execGrantReceive term s
  | .refuseReceive => Sys2Proof.Machine.execRefuseReceive s
  | .leashInitialRequest => Sys2Proof.Machine.execLeashInitialRequest s
  | .refAckWrite r v => Sys2Proof.Machine.execRefAckWrite r v s
  | .refGrantWrite r v => Sys2Proof.Machine.execRefGrantWrite r v s
  | .handoff r => Sys2Proof.Machine.execHandoff r s
  | .handoffProceed => Sys2Proof.Machine.execHandoffProceed s
  | .handoffTimeout => Sys2Proof.Machine.execHandoffTimeout s
  | .yieldReceive seg hub term jnum => Sys2Proof.Machine.execYieldReceive seg hub term jnum s
  | .journalReceive term num e => Sys2Proof.Machine.execJournalReceive term num e s
  | .journalAckReceive num => Sys2Proof.Machine.execJournalAckReceive num s
  | .resyncReqReceive => Sys2Proof.Machine.execResyncReqReceive s
  | .holderReceive seg hub term => Sys2Proof.Machine.execHolderReceive seg hub term s
  | .remove r => Sys2Proof.Machine.execRemove r s
  | .removeCancel r => Sys2Proof.Machine.execRemoveCancel r s
  | .removalStop => Sys2Proof.Machine.execRemovalStop s
  | .removalDrained => Sys2Proof.Machine.execRemovalDrained s
  | .svcReceive op => Sys2Proof.Machine.execSvcReceive op s
  | .removalRejoin => Sys2Proof.Machine.execRemovalRejoin s
  | .itemTransmit con => Sys2Proof.Machine.execItemTransmit con s
  | .sourceHorizonBeat cls => Sys2Proof.Machine.execSourceHorizonBeat cls s
  | .mergerBeat cls => Sys2Proof.Machine.execMergerBeat cls s
  | .dataItemReceive dev con seq res words => Sys2Proof.Machine.execDataItemReceive dev con seq res words s
  | .horizonReceive dev con seq beat w => Sys2Proof.Machine.execHorizonReceive dev con seq beat w s
  | .inputAbsentTimer dev con beat => Sys2Proof.Machine.execInputAbsentTimer dev con beat s
  | .retxReceive con num => Sys2Proof.Machine.execRetxReceive con num s
  | .retxRepeatTimer dev con => Sys2Proof.Machine.execRetxRepeatTimer dev con s
  | .ackTimer => Sys2Proof.Machine.execAckTimer s
  | .ackReceive con num => Sys2Proof.Machine.execAckReceive con num s
  | .kennelCheck => Sys2Proof.Machine.execKennelCheck s
  | .stallResume => Sys2Proof.Machine.execStallResume s
  | .mrgCselWrite r v => Sys2Proof.Machine.execMrgCselWrite r v s
  | .admitContract r t => Sys2Proof.Machine.execAdmit r t s
  | .withdraw r => Sys2Proof.Machine.execWithdraw r s
  | .mrgReload r => Sys2Proof.Machine.execMrgReload r s
  | .contractReceive con c start stop => Sys2Proof.Machine.execContractReceive con c start stop s
  | .contractStart con => Sys2Proof.Machine.execContractStart con s
  | .contractEnd con => Sys2Proof.Machine.execContractEnd con s
  | .queueWordWrite q w last bad => Sys2Proof.Machine.execQueueWordWrite q w last bad s
  | .queueNoticeTimer q => Sys2Proof.Machine.execQueueNoticeTimer q s
  | .queueAppend r v => Sys2Proof.Machine.execQueueAppend r v s
  | .queueWcommit r => Sys2Proof.Machine.execQueueWcommit r s
  | .queueWrewind r => Sys2Proof.Machine.execQueueWrewind r s
  | .queueRead r => Sys2Proof.Machine.execQueueRead r s
  | .queueFlush r => Sys2Proof.Machine.execQueueFlush r s
  | .queueFlushDone q => Sys2Proof.Machine.execQueueFlushDone q s
  | .wmLatchClear r v => Sys2Proof.Machine.execWmLatchClear r v s
  | .wmHwmWrite r v => Sys2Proof.Machine.execWmHwmWrite r v s
  | .qsizeWrite r v => Sys2Proof.Machine.execQsizeWrite r v s
  | .qcfgWrite r v => Sys2Proof.Machine.execQcfgWrite r v s
  | .windowBoundary n => Sys2Proof.Machine.execWindowBoundary n s
  | .cycleBoundary n => Sys2Proof.Machine.execCycleBoundary n s
  | .tcInputItem n q dev con seq item => Sys2Proof.Machine.execTcInputItem n q dev con seq item s
  | .waitResume n => Sys2Proof.Machine.execWaitResume n s
  | .recvResume n => Sys2Proof.Machine.execRecvResume n s
  | .sendResume n => Sys2Proof.Machine.execSendResume n s
  | .tcClr r n => Sys2Proof.Machine.execTcClr r n s
  | .tcImgDataWrite r n v => Sys2Proof.Machine.execTcImgDataWrite r n v s
  | .tcCommit r n => Sys2Proof.Machine.execTcCommit r n s
  | .tcAbort r n => Sys2Proof.Machine.execTcAbort r n s
  | .tcGo r n => Sys2Proof.Machine.execTcGo r n s
  | .tcRestart r n => Sys2Proof.Machine.execTcRestart r n s
  | .shadowStart n => Sys2Proof.Machine.execShadowStart n s
  | .switchBoundary n => Sys2Proof.Machine.execSwitchBoundary n s
  | .drainExpiry n => Sys2Proof.Machine.execDrainExpiry n s
  | .programSwitch n => Sys2Proof.Machine.execProgramSwitch n s
  | .reflexPulseEnd rule => Sys2Proof.Machine.execReflexPulseEnd rule s
  | .ruleCommit r => Sys2Proof.Machine.execRuleCommit r s
  | .ruleReload r => Sys2Proof.Machine.execRuleReload r s
  | .ruleClear r => Sys2Proof.Machine.execRuleClear r s
  | .trackEnable r v => Sys2Proof.Machine.execTrackEnable r v s
  | .sectionEnable r v => Sys2Proof.Machine.execSectionEnable r v s
  | .trackOutput t => Sys2Proof.Machine.execTrackOutput t s
  | .trackStallTimer t => Sys2Proof.Machine.execTrackStallTimer t s
  | .weighRelease sec => Sys2Proof.Machine.execWeighRelease sec s
  | .bar0Request write addr be dwords v => Sys2Proof.Machine.execBar0Request write addr be dwords v s
  | .hrTailWrite r n v => Sys2Proof.Machine.execHrTailWrite r n v s
  | .descriptorFetchDone n good descs => Sys2Proof.Machine.execDescriptorFetchDone n good descs s
  | .hostRingItem n x => Sys2Proof.Machine.execHostRingItem n x s
  | .descriptorCloseTimer n => Sys2Proof.Machine.execDescriptorCloseTimer n s
  | .hrNoticeTimer n => Sys2Proof.Machine.execHrNoticeTimer n s
  | .hrEnableWrite r n v => Sys2Proof.Machine.execHrEnableWrite r n v s
  | .quiesce r v => Sys2Proof.Machine.execQuiesce r v s
  | .pcieLinkDown => Sys2Proof.Machine.execPcieLinkDown s
  | .busMasterDisable d3 => Sys2Proof.Machine.execBusMasterDisable d3 s
  | .fspFrame bytes edges ready => Sys2Proof.Machine.execFspFrame bytes edges ready s
  | .fspEnd => Sys2Proof.Machine.execFspEnd s
  | .fspRead count addr => Sys2Proof.Machine.execFspRead count addr s
  | .fspWrite addr data => Sys2Proof.Machine.execFspWrite addr data s
  | .fspStream count next => Sys2Proof.Machine.execFspStream count next s
  | .fspStreamItem dev con seq item => Sys2Proof.Machine.execFspStreamItem dev con seq item s
  | .fspIdleTimer => Sys2Proof.Machine.execFspIdleTimer s
  | .fspResync r => Sys2Proof.Machine.execFspResync r s
  | .fspLenWrite r v => Sys2Proof.Machine.execFspLenWrite r v s
  | .registerWrite r addr v => Sys2Proof.Machine.execRegisterWrite r addr v s
  | .rcFieldRead r addr => Sys2Proof.Machine.execRcFieldRead r addr s
  | .multiwordLatchRead r addr => Sys2Proof.Machine.execMultiwordLatchRead r addr s
  | .shadowWordRead r addr => Sys2Proof.Machine.execShadowWordRead r addr s
  | .shadowExpiry r page => Sys2Proof.Machine.execShadowExpiry r page s
  | .pageSoftReset r page => Sys2Proof.Machine.execPageSoftReset r page s
  | .pageFreeze r page on => Sys2Proof.Machine.execPageFreeze r page on s
  | .snapTake r page => Sys2Proof.Machine.execSnapTake r page s
  | .evLatchWrite r page v => Sys2Proof.Machine.execEvLatchWrite r page v s
  | .evEnWrite r page v => Sys2Proof.Machine.execEvEnWrite r page v s
  | .evtClear r hi v => Sys2Proof.Machine.execEvtClear r hi v s
  | .reservedPageAccess r addr write => Sys2Proof.Machine.execReservedPageAccess r addr write s
  | .remoteAccessGo r v => Sys2Proof.Machine.execRemoteAccessGo r v s
  | .remoteAccessExecute seg hub write addr data count => Sys2Proof.Machine.execRemoteAccessExecute seg hub write addr data count s
  | .remoteAccessAnswer err data => Sys2Proof.Machine.execRemoteAccessAnswer err data s
  | .remoteAccessTimeout => Sys2Proof.Machine.execRemoteAccessTimeout s
  | .featCommit r => Sys2Proof.Machine.execFeatCommit r s
  | .featBase r => Sys2Proof.Machine.execFeatBase r s
  | .episodeEndTimer page bit sub => Sys2Proof.Machine.execEpisodeEndTimer page bit sub s
  | .sliceStart isl => Sys2Proof.Machine.execSliceStart isl s
  | .sliceComplete isl sig golden => Sys2Proof.Machine.execSliceComplete isl sig golden s
  | .sliceRestoreDone isl => Sys2Proof.Machine.execSliceRestoreDone isl s
  | .sliceRetry isl => Sys2Proof.Machine.execSliceRetry isl s
  | .reservedWindow isl => Sys2Proof.Machine.execReservedWindow isl s
  | .forcedSliceDone isl sig golden => Sys2Proof.Machine.execForcedSliceDone isl sig golden s
  | .coverageCycleEnd => Sys2Proof.Machine.execCoverageCycleEnd s
  | .newcyc r v => Sys2Proof.Machine.execNewcyc r v s
  | .bstDisable r v => Sys2Proof.Machine.execBstDisable r v s
  | .analogueCheckGo r v => Sys2Proof.Machine.execAnalogueCheckGo r v s
  | .analogueCheckDone res exc => Sys2Proof.Machine.execAnalogueCheckDone res exc s
  | .fwStage r => Sys2Proof.Machine.execFwStage r s
  | .stageDone good => Sys2Proof.Machine.execStageDone good s
  | .fwSwap r => Sys2Proof.Machine.execFwSwap r s
  | .swapIdleBoundary => Sys2Proof.Machine.execSwapIdleBoundary s
  | .handoverDone => Sys2Proof.Machine.execHandoverDone s
  | .swapTimeout => Sys2Proof.Machine.execSwapTimeout s
  | .fwConfirm r => Sys2Proof.Machine.execFwConfirm r s
  | .fwRevert r => Sys2Proof.Machine.execFwRevert r s
  | .trialTimeout => Sys2Proof.Machine.execTrialTimeout s
  | .ckeyBurn r => Sys2Proof.Machine.execCkeyBurn r s
  | .flashProgram r => Sys2Proof.Machine.execFlashProgram r s
  | .flashErase r => Sys2Proof.Machine.execFlashErase r s
  | .flashOpDone good => Sys2Proof.Machine.execFlashOpDone good s
  | .flDataWrite r v => Sys2Proof.Machine.execFlDataWrite r v s
  | .flDataRead r => Sys2Proof.Machine.execFlDataRead r s
  | .hdrTgtWrite r v => Sys2Proof.Machine.execHdrTgtWrite r v s
  | .hdrDataWrite r v => Sys2Proof.Machine.execHdrDataWrite r v s
  | .symbolLock p => Sys2Proof.Machine.execSymbolLock p s
  | .ackStallTimer con => Sys2Proof.Machine.execAckStallTimer con s
  | .undefinedOpcode n ue => Sys2Proof.Machine.execUndefinedOpcode n ue s
  | .dinLevelChange pin level => Sys2Proof.Machine.execDinLevelChange pin level s
  | .pcieLinkUp speed width => Sys2Proof.Machine.execPcieLinkUp speed width s
  | .busMasterEnable => Sys2Proof.Machine.execBusMasterEnable s
  | .msixUnmask e => Sys2Proof.Machine.execMsixUnmask e s
  | .removalCancelReturn => Sys2Proof.Machine.execRemovalCancelReturn s
  | .ckeyBurnDone => Sys2Proof.Machine.execCkeyBurnDone s
  | .watchdogRestartDone => Sys2Proof.Machine.execWatchdogRestartDone s

end Sys2Proof.Machine
end

