-- ==== Sys2Proof/Machine/Step.lean ====
section
/-! DEFINITION. One step: the command at the front of the queue, or, with none waiting, one tick of the 1 GHz count. -/

namespace Sys2Proof.Machine

/-- One step. With no command waiting the time count takes one tick (R195), and the block idles otherwise (DESIGN CHOICE). Log 1, 2, 9, 72 (DESIGN CHOICE). -/
def step (s : State) : Host.Outcome State Fault Refusal :=
  match s.pending with
  | [] => .next (tick s)
  | c :: rest => exec c (s.modPending fun _ => rest)

/-- The state with the command that a table word spells put at the front of the queue; unchanged where the word spells none. Log 74 (DESIGN CHOICE). -/
def State.withFetchWord (s : State) (nbits w : Nat) : State :=
  match decodeTableWord nbits w with
  | some c => s.modPending (c :: ·)
  | none => s

end Sys2Proof.Machine
end

