-- ==== Sys2Proof/Safety.lean ====
section
/-! DEFINITION. What claims are stated in: the areas of the state and what a command leaves alone, a command that completes, a core that issues one instruction, causes raised, the fuses' life, the canonical form of memory. -/

namespace Sys2Proof.Machine

/-- The areas of the state, one for each field of `State`. -/
inductive Area where
  | pending | pages | rf | mem | fuse | fab | pln | tim | srv | lanes | lsh | del | ques | pci | fsp | tcs | svc | fwl | bst | pwr
  | chans | grps | lins | ana | free | outbox
  deriving DecidableEq, Repr

/-- Two states agree in an area. -/
def State.same : Area → State → State → Prop
  | .pending, s, t => t.pending = s.pending
  | .pages, s, t => t.pages = s.pages
  | .rf, s, t => t.rf = s.rf
  | .mem, s, t => t.mem = s.mem
  | .fuse, s, t => t.fuse = s.fuse
  | .fab, s, t => t.fab = s.fab
  | .pln, s, t => t.pln = s.pln
  | .tim, s, t => t.tim = s.tim
  | .srv, s, t => t.srv = s.srv
  | .lanes, s, t => t.lanes = s.lanes
  | .lsh, s, t => t.lsh = s.lsh
  | .del, s, t => t.del = s.del
  | .ques, s, t => t.ques = s.ques
  | .pci, s, t => t.pci = s.pci
  | .fsp, s, t => t.fsp = s.fsp
  | .tcs, s, t => t.tcs = s.tcs
  | .svc, s, t => t.svc = s.svc
  | .fwl, s, t => t.fwl = s.fwl
  | .bst, s, t => t.bst = s.bst
  | .pwr, s, t => t.pwr = s.pwr
  | .chans, s, t => t.chans = s.chans
  | .grps, s, t => t.grps = s.grps
  | .lins, s, t => t.lins = s.lins
  | .ana, s, t => t.ana = s.ana
  | .free, s, t => t.free = s.free
  | .outbox, s, t => t.outbox = s.outbox

/-- Nothing but the areas of a list differs: the frame of a command. -/
def Touches (l : List Area) (s t : State) : Prop := ∀ a, a ∉ l → State.same a s t

/-- The areas that raising a cause touches (R414–R417): headers, the fabric's counts, Class A contracts, pending vectors, a firmware trial, what is driven. -/
def reports : List Area := [.pages, .fab, .del, .pci, .fwl, .outbox]

/-- The page that a command writes and the self-test island that it reaches there (R430): the merger's, a core's, the supervisor's. -/
def islandOf : Instr → Option (Nat × Nat)
  | .mrgCselWrite _ _ | .admitContract _ _ | .withdraw _ | .mrgReload _ => some (pgMRG, 64)
  | .queueAppend _ _ | .queueWcommit _ | .queueWrewind _ | .queueFlush _ | .wmLatchClear _ _ | .wmHwmWrite _ _ | .qsizeWrite _ _ | .qcfgWrite _ _ => some (pgQUE, 64)
  | .tcClr _ n | .tcImgDataWrite _ n _ | .tcCommit _ n | .tcAbort _ n | .tcGo _ n | .tcRestart _ n => some (pgTC n.val, 24 + n.val)
  | .parkRequest _ _ | .unparkRequest _ _ | .standbyRequest _ _ | .pwrDevrst _ _ | .retDataAccess _ (some _) => some (pgPWR, 65)
  | .fwStage _ | .fwSwap _ | .fwConfirm _ | .fwRevert _ | .ckeyBurn _ | .flashProgram _ | .flashErase _ | .flDataWrite _ _ | .hdrTgtWrite _ _ | .hdrDataWrite _ _ =>
    some (pgFWL, 65)
  | _ => none

/-- Every area but the queue. -/
def everything : List Area := [.pages, .rf, .mem, .fuse, .fab, .pln, .tim, .srv, .lanes, .lsh, .del, .ques, .pci, .fsp, .tcs, .svc, .fwl, .bst, .pwr, .chans, .grps, .lins, .ana, .free, .outbox]

/-- Every area but the queue and the free values. -/
def allButFree : List Area := [.pages, .rf, .mem, .fuse, .fab, .pln, .tim, .srv, .lanes, .lsh, .del, .ques, .pci, .fsp, .tcs, .svc, .fwl, .bst, .pwr, .chans, .grps, .lins, .ana, .outbox]

/-- Areas and those that raising a cause touches. -/
def reporting (l : List Area) : List Area := l ++ reports

/-- The areas a command may touch in any state: everything else is its frame. -/
def touched : Instr → List Area
  | .tatNop _ => [.grps]
  | .waita _ _ => [.grps]
  | .waitr _ _ => [.grps]
  | .lead _ _ _ => reporting [.bst, .grps]
  | .pulse _ _ _ => reporting [.bst, .chans, .grps]
  | .ref _ _ _ _ => reporting [.bst, .grps]
  | .excm _ => reporting [.bst, .grps]
  | .rot _ => reporting [.bst, .grps]
  | .every _ _ _ => [.grps]
  | .tatLoop _ _ => [.grps]
  | .endl _ => [.grps]
  | .tatEnd _ => [.grps]
  | .nop _ => [.tcs]
  | .b _ _ => reporting [.mem, .ques, .tcs]
  | .beq _ _ _ _ => reporting [.mem, .ques, .tcs]
  | .bne _ _ _ _ => reporting [.mem, .ques, .tcs]
  | .blt _ _ _ _ => reporting [.mem, .ques, .tcs]
  | .bge _ _ _ _ => reporting [.mem, .ques, .tcs]
  | .call _ _ => reporting [.mem, .ques, .tcs]
  | .ret _ => reporting [.mem, .ques, .tcs]
  | .wait _ _ => reporting [.tcs]
  | .trig _ _ => [.tcs, .free]
  | .time _ _ => [.tcs]
  | .hzn _ _ => [.tcs]
  | .recv _ _ _ => [.pages, .tcs]
  | .recvn _ _ _ => [.tcs]
  | .send _ _ => reporting [.ques, .tcs]
  | .sendl _ _ => reporting [.ques, .tcs]
  | .pstat _ _ => [.tcs, .free]
  | .sabort _ => [.ques, .tcs]
  | .ld _ _ _ _ _ => reporting [.mem, .ques, .tcs]
  | .st _ _ _ _ => reporting [.mem, .ques, .tcs]
  | .ldw _ _ _ _ _ => reporting [.mem, .ques, .tcs]
  | .stw _ _ _ _ => reporting [.mem, .ques, .tcs]
  | .li _ _ _ => [.tcs]
  | .lih _ _ _ => [.tcs]
  | .addi _ _ _ _ => [.tcs]
  | .shli _ _ _ _ => [.tcs]
  | .shri _ _ _ _ => [.tcs]
  | .srai _ _ _ _ => [.tcs]
  | .iadd _ _ _ _ _ => [.tcs]
  | .isub _ _ _ _ _ => [.tcs]
  | .imul _ _ _ _ _ => [.tcs]
  | .imin _ _ _ _ _ => [.tcs]
  | .imax _ _ _ _ _ => [.tcs]
  | .icmp _ _ _ _ _ => [.tcs, .free]
  | .shl _ _ _ _ _ => [.tcs]
  | .shr _ _ _ _ _ => [.tcs]
  | .sra _ _ _ _ _ => [.tcs]
  | .ladd _ _ _ _ _ => [.tcs]
  | .lsub _ _ _ _ _ => [.tcs]
  | .iabs _ _ _ _ => [.tcs]
  | .andW _ _ _ _ => [.tcs]
  | .orW _ _ _ _ => [.tcs]
  | .xorW _ _ _ _ => [.tcs]
  | .andn _ _ _ _ => [.tcs]
  | .sel _ _ _ _ _ => [.tcs]
  | .shuf _ _ _ _ => [.tcs]
  | .bcast _ _ _ _ => [.tcs]
  | .ext _ _ _ _ => [.tcs]
  | .ins _ _ _ _ => [.tcs]
  | .fadd _ _ _ _ _ => [.tcs]
  | .fsub _ _ _ _ _ => [.tcs]
  | .fmul _ _ _ _ _ => [.tcs]
  | .fma _ _ _ _ _ _ => [.tcs]
  | .fms _ _ _ _ _ _ => [.tcs]
  | .fmin _ _ _ _ _ => [.tcs, .free]
  | .fmax _ _ _ _ _ => [.tcs, .free]
  | .fabs _ _ _ _ => [.tcs]
  | .fneg _ _ _ _ => [.tcs]
  | .fcmp _ _ _ _ _ => [.tcs, .free]
  | .cvtif _ _ _ _ => [.tcs]
  | .cvtfi _ _ _ _ => [.tcs]
  | .hadd _ _ _ => [.tcs]
  | .fdiv _ _ _ _ _ => [.tcs]
  | .fsqrt _ _ _ _ => [.tcs]
  | .powerGood _ _ _ _ _ => reporting [.pln, .tim, .srv, .lsh, .pwr]
  | .bootLoadDone => reporting [.pln, .lanes, .lsh, .bst, .pwr]
  | .supplyFall _ => allButFree
  | .resetNLow => [.pages, .rf, .mem, .fuse, .fab, .pln, .tim, .srv, .lanes, .lsh, .del, .ques, .pci, .fsp, .tcs, .svc, .fwl, .bst, .pwr, .chans, .grps, .lins, .ana]
  | .pwrDevrst _ _ => allButFree
  | .watchdogExpiry => reporting [.pwr]
  | .junctionTempRead _ => allButFree
  | .vstbyRise => everything
  | .perst => [.pages, .pci]
  | .functionLevelReset => [.pages, .fab, .pci]
  | .startBoundTimer _ => reports
  | .sliceSearch => reporting [.rf, .mem, .pln, .srv, .lanes, .lsh, .ques, .tcs, .svc, .pwr, .chans, .grps, .lins, .ana]
  | .converterCheckDone _ => reporting [.pwr, .chans, .grps]
  | .samplingStart => reporting [.svc, .bst, .pwr, .chans, .grps, .lins]
  | .inService => reporting [.tim, .pwr]
  | .parkRequest _ _ => allButFree
  | .unparkRequest _ _ => allButFree
  | .standbyRequest _ _ => allButFree
  | .parkStop => reporting [.svc, .bst, .pwr, .grps]
  | .diceOffDone => reporting [.pwr]
  | .supEnFall => allButFree
  | .wakePin => allButFree
  | .wakeAlarm => allButFree
  | .anaLost _ => reporting [.bst, .pwr, .chans, .grps]
  | .anaBack => reporting [.pwr]
  | .vexcLow _ => reporting [.pwr]
  | .viepeLow _ => reporting [.pwr]
  | .standbyCounterCopy => [.pwr]
  | .retDataAccess _ _ => reporting [.rf, .bst, .pwr]
  | .loadDataWrite _ _ => [.pages, .fab, .pln]
  | .loadGo _ => reporting [.rf, .mem, .pln, .srv, .lanes, .lsh, .ques, .tcs, .svc, .pwr, .chans, .grps, .lins, .ana]
  | .stage _ => reporting [.pln]
  | .discard _ => [.pages, .fab, .pln, .lanes, .lsh]
  | .recheck _ => [.fab, .lanes]
  | .actSecArm _ _ => [.pages, .rf, .fab, .pln, .lanes, .lsh]
  | .sliceReqTimer => [.pages, .pln, .lanes]
  | .sliceReqReceive _ _ _ _ => [.pln, .lanes]
  | .sliceServe => [.pln, .lanes]
  | .sliceDataReceive _ _ => reporting [.rf, .mem, .pln, .srv, .lanes, .lsh, .ques, .tcs, .svc, .pwr, .chans, .grps, .lins, .ana]
  | .sliceRetryTimer => [.pages, .pln, .lanes]
  | .pendSliceReceive _ _ => reporting [.rf, .pln, .lanes]
  | .planActivation => reporting [.rf, .mem, .pln, .srv, .lanes, .lsh, .ques, .tcs, .svc, .pwr, .chans, .grps, .lins, .ana]
  | .identityWindowClose => reporting [.pln, .lanes, .lsh]
  | .capExchange _ _ => reporting [.pln, .lanes, .lsh]
  | .capXnTick _ => [.lanes]
  | .capSendTimer _ => [.lanes]
  | .coarseSample _ _ _ _ _ _ _ => reporting [.svc, .bst, .chans, .grps]
  | .fineRecordReady _ _ _ _ _ => reporting [.svc, .bst, .chans, .grps]
  | .recordRelease _ => reporting [.tim, .svc, .pwr, .chans]
  | .runCloseTimer _ _ => [.del]
  | .modOverload _ _ _ _ => reporting [.grps]
  | .modulatorReset _ _ _ _ => [.grps]
  | .synPhaseCompare _ _ => reporting [.srv]
  | .viepeMeasure _ => [.ana]
  | .clampStart _ => reporting [.chans]
  | .clampEnd _ => [.fab, .chans]
  | .snsLostDetect _ => reporting [.grps]
  | .snsRestore _ => [.fab, .grps]
  | .excLimitEngage _ _ => reporting [.grps]
  | .excOff _ => reporting [.grps]
  | .excRetry _ _ => [.fab, .grps]
  | .leadStepDone _ _ _ => [.fab, .chans, .grps]
  | .leadStaleTimer _ => reporting [.chans]
  | .chwSelWrite _ _ => [.rf, .fab]
  | .chwCommit _ => [.pages, .fab, .chans, .grps, .ana]
  | .chwReload _ => [.rf, .fab]
  | .chwCommitEffect _ _ => reporting [.svc, .bst, .chans, .grps, .lins]
  | .hardSwitch _ => reporting [.chans, .grps]
  | .incumbentRelease _ => reporting [.grps]
  | .rotationTick _ => reporting [.bst, .grps]
  | .reliefForce _ _ => reporting [.bst, .grps]
  | .reliefTaskStart _ => reporting [.bst, .chans, .grps]
  | .hardWaitExpiry _ => reporting [.chans, .grps]
  | .referenceCheckDone _ _ => reporting [.bst, .chans, .grps]
  | .rateBoundary _ => [.pages, .del, .chans]
  | .chainReconfigure _ => [.chans]
  | .frameStart _ => reporting [.chans, .grps]
  | .tatWaitExpiry _ => [.grps]
  | .pulseWindowDone _ _ _ _ => reporting [.bst, .chans, .grps]
  | .excmDone _ _ => reporting [.grps]
  | .tatDeferredRun _ => reporting [.bst, .grps]
  | .tatClr _ => [.fab, .grps]
  | .tatDataWrite _ _ => [.fab, .grps]
  | .tatCommit _ => reporting [.grps]
  | .tatAbort _ => [.fab, .grps]
  | .tatSwap _ => reporting [.grps]
  | .tempReading _ _ => reporting [.grps]
  | .campGo _ _ => reporting [.rf, .grps]
  | .calPointDone _ _ _ _ _ _ => reporting [.grps, .ana]
  | .calSetSelWrite _ _ => [.rf, .fab, .ana]
  | .setWrite _ => reporting [.chans, .grps, .ana]
  | .setDelete _ => reporting [.rf, .chans, .grps, .ana]
  | .setReload _ => [.rf, .fab, .ana]
  | .linSelWrite _ _ => [.rf, .fab]
  | .linCommit _ => reporting [.lins, .ana]
  | .linReload _ => [.rf, .fab]
  | .linSlotSwitch _ => reporting [.chans, .lins]
  | .servoMeasurement => reporting [.tim, .srv, .lanes, .pwr]
  | .sourceLossTimer => reporting [.srv]
  | .freeRunTimer => reporting [.tim, .srv, .pwr]
  | .prefReturnTimer _ => reporting [.srv]
  | .fclkAbsent _ => reporting [.pln, .srv, .lanes, .lsh]
  | .timeMarkerSend _ => [.srv, .lanes, .outbox]
  | .timeMarkerReceive _ _ _ _ _ => reporting [.tim, .srv, .lanes]
  | .closureRound _ _ => reporting [.srv, .lanes, .pwr]
  | .closReportReceive _ _ _ _ => [.srv]
  | .closAsymReceive _ _ => [.srv]
  | .todApplyNow _ => reporting [.tim, .srv, .lanes, .lsh, .pwr]
  | .todApplyPps _ => [.pages, .fab, .tim]
  | .ppsInEdge _ => reporting [.tim, .srv, .lanes, .lsh, .pwr]
  | .ppsLossTimer => reporting [.tim, .srv]
  | .epAnnounceReceive _ => reporting [.tim]
  | .epReqReceive => reporting [.tim, .lanes, .lsh]
  | .epDeferredAnnounce => reporting [.tim, .lanes, .lsh]
  | .epochChange => reporting [.tim, .tcs, .svc, .pwr, .chans, .grps]
  | .epochAdopt => reporting [.tim, .tcs, .svc, .pwr, .chans, .grps]
  | .dinEdge _ _ => reporting [.svc]
  | .toutSchedule _ _ => reporting [.svc]
  | .toutCancel _ _ => [.fab, .svc]
  | .toutScheduleFire _ => [.svc, .outbox]
  | .toutOwnerWrite _ _ => [.fab, .svc, .outbox]
  | .ppsOutEdge => [.tim, .outbox]
  | .ppsOutPulseEnd => [.tim, .outbox]
  | .srvGainsWrite _ _ => [.fab, .srv]
  | .blockSlotSend _ => reporting [.lanes, .lsh]
  | .blockReceive _ _ => reporting [.pln, .lanes, .lsh]
  | .huntTimeout _ => [.lanes]
  | .losInput _ _ => reporting [.pln, .lanes, .lsh, .free]
  | .signalDetect _ => [.pages, .lanes, .free, .outbox]
  | .replayReceive _ _ => reporting [.pln, .lanes, .lsh]
  | .replayFailReceive _ => reporting [.pln, .lanes, .lsh]
  | .peakTrimTick _ _ => reporting [.lanes]
  | .eidleEnterRequest _ _ => reporting [.rf, .lanes, .lsh]
  | .eidleExitRequest _ _ => [.pages, .rf, .fab, .lanes, .free, .outbox]
  | .eidleReceive _ => reporting [.lanes, .lsh]
  | .eidleExitTimeout _ => reporting [.pln, .lanes, .lsh]
  | .portRestart _ _ => reporting [.pln, .lanes, .lsh]
  | .maxrateWrite _ _ _ => reporting [.rf, .pln, .lanes, .lsh]
  | .stepTimeout _ => reporting [.pln, .lanes, .lsh]
  | .testBlockTimer _ => [.lanes]
  | .testBlockReceive _ _ => reporting [.pln, .lanes, .lsh, .bst]
  | .breakReceive _ _ _ => reporting [.lanes, .lsh]
  | .restoreReceive _ _ _ => reporting [.lanes, .lsh]
  | .hopRestoreTimer _ _ => reporting [.lanes, .lsh]
  | .renewTimer => [.lanes, .lsh]
  | .renewReceive _ _ _ _ => reporting [.srv, .lanes, .lsh]
  | .renewAckReceive _ => [.lsh]
  | .leaseExpiry => reporting [.srv, .lsh]
  | .grantReqTimer => reporting [.lanes, .lsh]
  | .grantReqReceive _ _ => [.lanes, .lsh]
  | .grantReqHoldExpiry _ => [.lanes, .lsh]
  | .grantReceive _ => reporting [.srv, .lanes, .lsh, .pwr]
  | .refuseReceive => reporting [.lsh]
  | .leashInitialRequest => reporting [.lanes, .lsh]
  | .refAckWrite _ _ => [.fab, .lsh]
  | .refGrantWrite _ _ => reporting [.srv, .lanes, .lsh, .pwr]
  | .handoff _ => [.fab, .lsh]
  | .handoffProceed => reporting [.srv, .lanes, .lsh]
  | .handoffTimeout => reporting [.lanes, .lsh]
  | .yieldReceive _ _ _ _ => [.lanes, .lsh]
  | .journalReceive _ _ _ => reporting [.rf, .pln, .tim, .srv, .lanes, .lsh]
  | .journalAckReceive _ => [.lsh]
  | .resyncReqReceive => [.lanes, .lsh]
  | .holderReceive _ _ _ => reporting [.srv, .lanes, .lsh, .ques, .fsp, .tcs, .bst]
  | .remove _ => [.fab, .lanes, .lsh]
  | .removeCancel _ => [.fab, .lanes, .lsh]
  | .removalStop => [.lsh]
  | .removalDrained => reporting [.lanes, .lsh]
  | .svcReceive _ => reporting [.lanes, .lsh]
  | .removalRejoin => reporting [.srv, .lanes, .lsh]
  | .itemTransmit _ => reporting [.lanes, .lsh, .ques, .fsp, .tcs, .bst]
  | .sourceHorizonBeat _ => reporting [.lanes, .lsh, .ques, .fsp, .tcs, .bst]
  | .mergerBeat _ => reporting [.lanes, .lsh, .ques, .fsp, .tcs, .bst]
  | .dataItemReceive _ _ _ _ _ => reporting [.lanes, .lsh, .ques, .fsp, .tcs, .bst]
  | .horizonReceive _ _ _ _ _ => reporting [.lanes, .lsh, .ques, .fsp, .tcs, .bst]
  | .inputAbsentTimer _ _ _ => reporting [.lanes, .lsh, .ques, .fsp, .tcs, .bst]
  | .retxReceive _ _ => reporting [.lanes, .lsh, .ques, .fsp, .tcs, .bst]
  | .retxRepeatTimer _ _ => [.lanes, .del]
  | .ackTimer => [.pages, .lanes, .lsh, .del]
  | .ackReceive _ _ => reporting [.bst]
  | .kennelCheck => reports
  | .stallResume => reporting [.lanes, .lsh, .ques, .fsp, .tcs, .bst]
  | .mrgCselWrite _ _ => reporting [.rf, .bst]
  | .admitContract _ _ => reporting [.lanes, .lsh, .bst]
  | .withdraw _ => reporting [.lanes, .lsh, .bst]
  | .mrgReload _ => reporting [.rf, .bst]
  | .contractReceive _ _ _ _ => [.pages, .del]
  | .contractStart _ => [.pages, .del]
  | .contractEnd _ => reports
  | .queueWordWrite _ _ _ _ => reporting [.ques]
  | .queueNoticeTimer _ => reporting [.ques]
  | .queueAppend _ _ => reporting [.ques, .bst]
  | .queueWcommit _ => reporting [.ques, .bst]
  | .queueWrewind _ => reporting [.ques, .bst]
  | .queueRead _ => reporting [.ques]
  | .queueFlush _ => reporting [.ques, .bst]
  | .queueFlushDone _ => reporting [.ques, .tcs]
  | .wmLatchClear _ _ => reporting [.ques, .bst]
  | .wmHwmWrite _ _ => reporting [.ques, .bst]
  | .qsizeWrite _ _ => reporting [.ques, .bst]
  | .qcfgWrite _ _ => reporting [.ques, .bst]
  | .windowBoundary _ => reporting [.mem, .tcs, .bst]
  | .cycleBoundary _ => reporting [.tcs, .bst]
  | .tcInputItem _ _ _ _ _ _ => reporting [.ques, .tcs, .bst]
  | .waitResume _ => [.pages, .tcs]
  | .recvResume _ => [.pages, .tcs]
  | .sendResume _ => reporting [.ques, .tcs]
  | .tcClr _ _ => reporting [.rf, .mem, .tcs, .bst]
  | .tcImgDataWrite _ _ _ => reporting [.rf, .mem, .tcs, .bst]
  | .tcCommit _ _ => reporting [.tcs, .bst]
  | .tcAbort _ _ => reporting [.tcs, .bst]
  | .tcGo _ _ => reporting [.tcs, .bst]
  | .tcRestart _ _ => reporting [.mem, .ques, .tcs, .bst]
  | .shadowStart _ => [.pages, .mem, .tcs]
  | .switchBoundary _ => [.pages, .tcs]
  | .drainExpiry _ => [.ques, .tcs]
  | .programSwitch _ => reporting [.mem, .tcs]
  | .reflexPulseEnd _ => reporting [.svc]
  | .ruleCommit _ => reporting [.svc]
  | .ruleReload _ => [.rf, .fab]
  | .ruleClear _ => reporting [.svc]
  | .trackEnable _ _ => [.pages, .fab, .svc]
  | .sectionEnable _ _ => [.fab, .svc]
  | .trackOutput _ => [.del, .svc]
  | .trackStallTimer _ => reporting [.svc]
  | .weighRelease _ => reporting [.svc]
  | .bar0Request _ _ _ _ _ => everything
  | .hrTailWrite _ _ _ => reports
  | .descriptorFetchDone _ _ _ => reporting [.ques]
  | .hostRingItem _ _ => reporting [.ques]
  | .descriptorCloseTimer _ => reporting [.ques]
  | .hrNoticeTimer _ => reports
  | .hrEnableWrite _ _ _ => reporting [.ques]
  | .quiesce _ _ => reporting [.ques]
  | .pcieLinkDown => reports
  | .busMasterDisable _ => [.pci]
  | .fspFrame _ _ _ => everything
  | .fspEnd => [.fsp]
  | .fspRead _ _ => reporting [.rf, .ques, .fsp, .bst, .chans, .free]
  | .fspWrite _ _ => everything
  | .fspStream _ _ => reporting [.fsp]
  | .fspStreamItem _ _ _ _ => reporting [.fsp]
  | .fspIdleTimer => [.fsp]
  | .fspResync _ => [.fab, .fsp]
  | .fspLenWrite _ _ => [.fab, .fsp]
  | .registerWrite _ _ _ => everything
  | .rcFieldRead _ _ => reporting [.rf, .ques, .bst, .chans, .free]
  | .multiwordLatchRead _ _ => reporting [.rf, .ques, .bst, .chans, .free]
  | .shadowWordRead _ _ => reporting [.rf, .ques, .bst, .chans, .free]
  | .shadowExpiry _ _ => [.fab]
  | .pageSoftReset _ _ => everything
  | .pageFreeze _ _ _ => everything
  | .snapTake _ _ => everything
  | .evLatchWrite _ _ _ => everything
  | .evEnWrite _ _ _ => everything
  | .evtClear _ _ _ => everything
  | .reservedPageAccess _ _ _ => everything
  | .remoteAccessGo _ _ => everything
  | .remoteAccessExecute _ _ _ _ _ _ => everything
  | .remoteAccessAnswer _ _ => reporting [.rf]
  | .remoteAccessTimeout => reports
  | .featCommit _ => everything
  | .featBase _ => everything
  | .episodeEndTimer _ _ _ => [.fab]
  | .sliceStart _ => reporting [.bst, .grps]
  | .sliceComplete _ _ _ => reporting [.mem, .tcs, .bst, .chans, .grps]
  | .sliceRestoreDone _ => [.bst]
  | .sliceRetry _ => reporting [.bst, .grps]
  | .reservedWindow _ => reporting [.bst, .grps]
  | .forcedSliceDone _ _ _ => reporting [.mem, .tcs, .bst, .chans, .grps]
  | .coverageCycleEnd => reporting [.bst]
  | .newcyc _ _ => reporting [.rf, .bst, .grps]
  | .bstDisable _ _ => reporting [.rf, .bst, .grps]
  | .analogueCheckGo _ _ => reporting [.rf, .bst, .grps]
  | .analogueCheckDone _ _ => reporting [.bst, .chans, .grps]
  | .fwStage _ => reporting [.bst]
  | .stageDone _ => reports
  | .fwSwap _ => reporting [.bst]
  | .swapIdleBoundary => [.pages, .fwl, .bst, .grps]
  | .handoverDone => reporting [.bst]
  | .swapTimeout => reports
  | .fwConfirm _ => reporting [.bst]
  | .fwRevert _ => reporting [.bst]
  | .trialTimeout => [.pages, .fwl]
  | .ckeyBurn _ => reporting [.fuse, .bst, .free]
  | .flashProgram _ => reporting [.bst]
  | .flashErase _ => reporting [.bst]
  | .flashOpDone _ => [.mem, .fwl, .free]
  | .flDataWrite _ _ => reporting [.bst]
  | .flDataRead _ => [.rf, .free, .outbox]
  | .hdrTgtWrite _ _ => reporting [.rf, .bst]
  | .hdrDataWrite _ _ => reporting [.bst]
  | .symbolLock _ => [.lanes]
  | .ackStallTimer _ => reports
  | .undefinedOpcode _ _ => reporting [.mem, .ques, .tcs]
  | .dinLevelChange _ _ => reporting [.svc]
  | .pcieLinkUp _ _ => reporting [.ques]
  | .busMasterEnable => reporting [.ques]
  | .msixUnmask _ => [.pci, .outbox]
  | .removalCancelReturn => [.lsh]
  | .ckeyBurnDone => [.fuse]
  | .watchdogRestartDone => [.fwl]

/-- A command completes: `exec` answers a next state, nothing but the areas of `l` differs in it, and it is as `P` says. -/
def Runs (c : Instr) (s : State) (l : List Area) (P : State → Prop) : Prop := ∃ t, exec c s = .next t ∧ Touches l s t ∧ P t

/-- Unit `n` of a group of units is now `x`, and every other unit of the group is as before. -/
def Becomes {α : Type} (unit : Nat → State → α) (n : Nat) (x : α) (s t : State) : Prop :=
  unit n t = x ∧ ∀ m, m ≠ n → unit m t = unit m s

/-! ## A core that issues one instruction (R321, R324, R336) -/

/-- Core `n` issued one instruction that changes the core otherwise as `f` says and writes `w` to register `d`, the next in order to follow: v0 discards what is written to it, every other register of the core and every other core are as before. -/
def WroteWith (f : Tc → Tc) (n d : Nat) (w : W128) (s t : State) : Prop :=
  (∀ r, (tc n t).v r = if r = d ∧ d ≠ 0 then w else (tc n s).v r) ∧
  tc n t = { f (tc n s) with regs := (tc n t).regs, pc := ((tc n s).pc + 1) % 16384, issued := (tc n s).issued + 1 } ∧
  ∀ m, m ≠ n → tc m t = tc m s

/-- As `WroteWith`, with nothing else of the core changed. -/
def Wrote (n d : Nat) (w : W128) (s t : State) : Prop := WroteWith id n d w s t

/-- A word written lane by lane under a mask: lane `i` as `op` gives it where the mask has a 1, as register `d` had it elsewhere. -/
def WroteLanes (n d m : Nat) (op : Nat → Word) (s t : State) : Prop :=
  ∃ w, Wrote n d w s t ∧ ∀ i, i < 4 → laneOf w i = if m.testBit i then op i else laneOf ((tc n s).v d) i

/-- As `WroteLanes` for a floating-point operation: the sticky bits take the conditions of the lanes written. -/
def WroteFloat (n d m : Nat) (op : Nat → Word × FpFlags) (s t : State) : Prop :=
  ∃ w fl, WroteWith (fun c => { c with fpf := c.fpf ||| fl }) n d w s t ∧
    (∀ i, i < 4 → laneOf w i = if m.testBit i then (op i).1 else laneOf ((tc n s).v d) i) ∧
    ∀ k, k < 3 → fl.testBit k = (List.range 4).any fun i => m.testBit i && (fpfBits (op i).2).testBit k

/-- Core `n` issued one instruction that writes no register, with the program counter it leaves. -/
def IssuedTo (n pc : Nat) (s t : State) : Prop :=
  tc n t = { tc n s with pc := pc, issued := (tc n s).issued + 1 } ∧ ∀ m, m ≠ n → tc m t = tc m s

/-! ## Causes (R414–R417) -/

/-- A cause of a page is latched. -/
def Latched (p bit : Nat) (t : State) : Prop := (page p t).evLatch.getLsbD bit = true

/-- The other pages' headers are as before (but for GEN of FWL, which a device fault in a firmware trial changes, R452), and no cause that was latched is lost. -/
def PagesKept (ps : List Nat) (s t : State) : Prop :=
  (∀ q, q ∉ ps → q ≠ pgFWL → page q t = page q s) ∧ ∀ q b, Latched q b s → Latched q b t

/-! ## The fuses (R426, R443, R444) -/

/-- What production test fixes for good: identity, variant, vendor key, latencies. -/
def Fuse.fixed (f : Fuse) : Fuse := { f with ckey := none, ckeyBusy := none }

/-- No burn is under way once a customer key stands (R444). -/
def KeyOnce (s : State) : Prop := s.fuse.ckey.isSome = true → s.fuse.ckeyBusy = none

/-- The fuses from one state to a later one: what production fixed is the same, and a customer key that stands stays. -/
def FuseKept (s t : State) : Prop :=
  t.fuse.fixed = s.fuse.fixed ∧ (KeyOnce s → KeyOnce t ∧ ∀ k, s.fuse.ckey = some k → t.fuse.ckey = some k)

end Sys2Proof.Machine

namespace Sys2Proof

open Sys2Proof.Machine

/-- A step that goes on. -/
def Goes (s : State) : Prop := ∃ t, step s = .next t

/-- What every step keeps: memory in its canonical form, and no burn under way once a customer key stands. -/
def Inv (s : State) : Prop := Memory.wf s.mem = true ∧ KeyOnce s

end Sys2Proof
end

