-- ==== Sys2Proof/Certificates/Slice0/Obligations.lean ====
section
/-! DEFINITION. The statements for the provers. -/

open Sys2Proof Sys2Proof.Machine

/-- R336, R324: the int32 operations of two registers and IABS. Lane `i` of `d` takes the result where F has a 1 and keeps its value elsewhere; shifts take bits [4:0] of the same lane; only the core's register and place change. ICMP compares every lane as signed int32 under conditions 0–5, all ones where it holds; under a code the manual does not define the result is a free value (assumption log 30), and the instruction still completes. Model's choices: log 30, 31, 33. -/
def Obligations.HaldomIntegerOperationsAndCompare : Prop :=
  (∀ (n : QNum) (d a b : Reg) (f : Fin 16) (s : State), (tc n.val s).canIssue = true →
    let x (i : Nat) : Word := laneOf ((tc n.val s).v a.val) i
    let y (i : Nat) : Word := laneOf ((tc n.val s).v b.val) i
    let does (c : Instr) (op : Nat → Word) : Prop := Runs c s [.tcs] (WroteLanes n.val d.val f.val op s)
    does (.iadd n d a b f) (fun i => x i + y i) ∧
    does (.isub n d a b f) (fun i => x i - y i) ∧
    does (.imul n d a b f) (fun i => x i * y i) ∧
    does (.imin n d a b f) (fun i => if (y i).toInt < (x i).toInt then y i else x i) ∧
    does (.imax n d a b f) (fun i => if (x i).toInt < (y i).toInt then y i else x i) ∧
    does (.shl n d a b f) (fun i => x i <<< ((y i).toNat % 32)) ∧
    does (.shr n d a b f) (fun i => x i >>> ((y i).toNat % 32)) ∧
    does (.sra n d a b f) (fun i => (x i).sshiftRight ((y i).toNat % 32)) ∧
    does (.iabs n d a f) (fun i => if (x i).toInt < 0 then -(x i) else x i)) ∧
  (∀ (n : QNum) (d a b : Reg) (f : Fin 16) (s : State), (tc n.val s).canIssue = true →
    let x (i : Nat) : Int := (laneOf ((tc n.val s).v a.val) i).toInt
    let y (i : Nat) : Int := (laneOf ((tc n.val s).v b.val) i).toInt
    let holds (i : Nat) : Prop :=
      (f.val = 0 ∧ x i = y i) ∨ (f.val = 1 ∧ x i ≠ y i) ∨ (f.val = 2 ∧ x i < y i) ∨ (f.val = 3 ∧ x i ≤ y i) ∨ (f.val = 4 ∧ y i < x i) ∨ (f.val = 5 ∧ y i ≤ x i)
    (f.val < 6 → Runs (.icmp n d a b f) s [.tcs] fun t => ∃ w, Wrote n.val d.val w s t ∧ ∀ i, i < 4 →
      (holds i → laneOf w i = 0xFFFFFFFF) ∧ (¬ holds i → laneOf w i = 0)) ∧
    (6 ≤ f.val → Runs (.icmp n d a b f) s [.tcs, .free] fun t => ∃ w, Wrote n.val d.val w s t))

/-- R336: LADD and LSUB on the two int64 lanes, lane `j` written when both F[2j] and F[2j+1] are 1; AND, OR, XOR, ANDN and SEL on all 128 bits. Immediates, and the moves of lanes. Model's choices: log 31, 33. -/
def Obligations.HaldomLongLogicalAndImmediates : Prop :=
  (∀ (n : QNum) (d a b c : Reg) (f : Fin 16) (s : State), (tc n.val s).canIssue = true →
    let v (r : Reg) : W128 := (tc n.val s).v r.val
    let long (i : Instr) (op : BitVec 64 → BitVec 64 → BitVec 64) : Prop :=
      Runs i s [.tcs] fun t => ∃ w, Wrote n.val d.val w s t ∧ ∀ j, j < 2 →
        lane64 w j = if f.val.testBit (2 * j) && f.val.testBit (2 * j + 1) then op (lane64 (v a) j) (lane64 (v b) j) else lane64 (v d) j
    let logical (i : Instr) (w : W128) : Prop := Runs i s [.tcs] (Wrote n.val d.val w s)
    long (.ladd n d a b f) (fun x y => x + y) ∧
    long (.lsub n d a b f) (fun x y => x - y) ∧
    logical (.andW n d a b) (v a &&& v b) ∧
    logical (.orW n d a b) (v a ||| v b) ∧
    logical (.xorW n d a b) (v a ^^^ v b) ∧
    logical (.andn n d a b) (v a &&& ~~~(v b)) ∧
    logical (.sel n d a b c) ((v a &&& v c) ||| (v b &&& ~~~(v c)))) ∧
  (∀ (n : QNum) (d a : Reg) (imm : BitVec 14) (wide : BitVec 19) (f : Fin 16) (s : State), (tc n.val s).canIssue = true →
    let x (i : Nat) : Word := laneOf ((tc n.val s).v a.val) i
    let old (i : Nat) : Word := laneOf ((tc n.val s).v d.val) i
    let does (c : Instr) (op : Nat → Word) : Prop := Runs c s [.tcs] (WroteLanes n.val d.val 15 op s)
    does (.li n d wide) (fun i => if i = 0 then BitVec.ofInt 32 wide.toInt else 0) ∧
    does (.lih n d wide) (fun i => if i = 0 then BitVec.ofNat 32 (wide.toNat * 2 ^ 13 + (old 0).toNat % 2 ^ 13) else old i) ∧
    does (.addi n d a imm) (fun i => x i + BitVec.ofInt 32 imm.toInt) ∧
    does (.shli n d a imm) (fun i => x i <<< (imm.toNat % 32)) ∧
    does (.shri n d a imm) (fun i => x i >>> (imm.toNat % 32)) ∧
    does (.srai n d a imm) (fun i => (x i).sshiftRight (imm.toNat % 32)) ∧
    does (.shuf n d a imm) (fun i => x (imm.toNat / 4 ^ i % 4)) ∧
    does (.bcast n d a f) (fun _ => x (f.val % 4)) ∧
    does (.ext n d a f) (fun i => if i = 0 then x (f.val % 4) else 0) ∧
    does (.ins n d a f) (fun i => if i = f.val % 4 then x 0 else old i))

/-- R323, R336: the fp32 operations of the lanes that F writes, their conditions sticky in FPF, invalid where an operand is a signalling NaN; HADD sums in pairs into lane 0. Model's choices: log 31, 32, 33. -/
def Obligations.HaldomFloatLanesTakeTheirResults : Prop :=
  ∀ (n : QNum) (d a b c : Reg) (f : Fin 16) (s : State), (tc n.val s).canIssue = true →
    let u (r : Reg) (i : Nat) : Word := laneOf ((tc n.val s).v r.val) i
    let x (i : Nat) : F32 := f32Read (u a i)
    let y (i : Nat) : F32 := f32Read (u b i)
    let z (i : Nat) : F32 := f32Read (u c i)
    let does (i : Instr) (op : Nat → Word × FpFlags) : Prop := Runs i s [.tcs] (WroteFloat n.val d.val f.val op s)
    does (.fadd n d a b f) (fun i => withSNaN (sNaN (u a i) || sNaN (u b i)) (F32.add (x i) (y i))) ∧
    does (.fsub n d a b f) (fun i => withSNaN (sNaN (u a i) || sNaN (u b i)) (F32.add (x i) (y i).negate)) ∧
    does (.fmul n d a b f) (fun i => withSNaN (sNaN (u a i) || sNaN (u b i)) (F32.mul (x i) (y i))) ∧
    does (.fma n d a b c f) (fun i => withSNaN (sNaN (u a i) || sNaN (u b i) || sNaN (u c i)) (F32.fma (x i) (y i) (z i))) ∧
    does (.fms n d a b c f) (fun i => withSNaN (sNaN (u a i) || sNaN (u b i) || sNaN (u c i)) (F32.fma (x i).negate (y i) (z i))) ∧
    does (.fdiv n d a b f) (fun i => withSNaN (sNaN (u a i) || sNaN (u b i)) (F32.div (x i) (y i))) ∧
    does (.fsqrt n d a f) (fun i => withSNaN (sNaN (u a i)) (x i).sqrt) ∧
    does (.fabs n d a f) (fun i => ((if (x i).sign then (x i).negate else x i).word, noFlags)) ∧
    does (.fneg n d a f) (fun i => ((x i).negate.word, noFlags)) ∧
    does (.cvtif n d a f) (fun i => f32OfDyadic false (u a i).toInt 0) ∧
    does (.cvtfi n d a f) (fun i => withSNaN (sNaN (u a i)) (cvtToInt (x i))) ∧
    Runs (.hadd n d a) s [.tcs] fun t =>
      let p := F32.add (x 0) (x 1)
      let q := F32.add (x 2) (x 3)
      let r := F32.add (f32Read p.1) (f32Read q.1)
      let fl := fpfBits p.2 ||| fpfBits q.2 ||| fpfBits r.2 ||| (if sNaN (u a 0) || sNaN (u a 1) || sNaN (u a 2) || sNaN (u a 3) then 4 else 0)
      ∃ w, WroteWith (fun k => { k with fpf := k.fpf ||| fl }) n.val d.val w s t ∧ laneOf w 0 = r.1 ∧ laneOf w 1 = 0 ∧ laneOf w 2 = 0 ∧ laneOf w 3 = 0

/-- R323, R336: FMIN and FMAX return the operand that is no NaN, else the lesser or the greater; of two zeros of different sign either may result (assumption log 30). FCMP sets all ones where the condition holds, a NaN being unordered. Model's choices: log 30, 32, 33. -/
def Obligations.HaldomFloatMinMaxCompare : Prop :=
  ∀ (n : QNum) (d a b : Reg) (f : Fin 16) (s : State), (tc n.val s).canIssue = true →
    let x (i : Nat) : F32 := f32Read (laneOf ((tc n.val s).v a.val) i)
    let y (i : Nat) : F32 := f32Read (laneOf ((tc n.val s).v b.val) i)
    let bad (m : Nat) : Nat := if (List.range 4).any (fun i => m.testBit i && (sNaN (laneOf ((tc n.val s).v a.val) i) || sNaN (laneOf ((tc n.val s).v b.val) i))) then 4 else 0
    let wrote (m : Nat) (w : W128) (t : State) : Prop := WroteWith (fun k => { k with fpf := k.fpf ||| bad m }) n.val d.val w s t
    let pick (least : Bool) (t : State) : Prop := ∃ w, wrote f.val w t ∧ ∀ i, i < 4 →
      (f.val.testBit i = false → laneOf w i = laneOf ((tc n.val s).v d.val) i) ∧
      (f.val.testBit i = true →
        ((x i).isNaN = true → laneOf w i = (y i).word) ∧
        ((x i).isNaN = false → (y i).isNaN = true → laneOf w i = (x i).word) ∧
        (F32.lt (x i) (y i) = true → laneOf w i = (if least then x i else y i).word) ∧
        (F32.lt (y i) (x i) = true → laneOf w i = (if least then y i else x i).word))
    let holds (i : Nat) : Prop :=
      (f.val = 0 ∧ F32.eqv (x i) (y i) = true) ∨ (f.val = 1 ∧ F32.eqv (x i) (y i) = false) ∨ (f.val = 2 ∧ F32.lt (x i) (y i) = true) ∨
      (f.val = 3 ∧ (F32.lt (x i) (y i) = true ∨ F32.eqv (x i) (y i) = true)) ∨ (f.val = 4 ∧ F32.lt (y i) (x i) = true) ∨
      (f.val = 5 ∧ (F32.lt (y i) (x i) = true ∨ F32.eqv (x i) (y i) = true)) ∨ (f.val = 6 ∧ ((x i).isNaN = true ∨ (y i).isNaN = true))
    Runs (.fmin n d a b f) s [.tcs, .free] (pick true) ∧
    Runs (.fmax n d a b f) s [.tcs, .free] (pick false) ∧
    (f.val < 7 → Runs (.fcmp n d a b f) s [.tcs] fun t => ∃ w, wrote 15 w t ∧ ∀ i, i < 4 →
      (holds i → laneOf w i = 0xFFFFFFFF) ∧ (¬ holds i → laneOf w i = 0)) ∧
    (7 ≤ f.val → Runs (.fcmp n d a b f) s [.tcs, .free] fun t => ∃ w, wrote 15 w t)

/-- R42, R322, R336: a load within the data region, aligned and without a memory error, takes its bytes from the core's own memory, lowest first; LDW leaves the upper lanes 0. Memory is untouched. R42, R322, R336: a store writes the low bytes of its register at its own address and no other byte of memory. Model's choices: log 6, 31, 33. -/
def Obligations.HaldomLoadsAndStores : Prop :=
  (∀ (n : QNum) (d a : Reg) (imm : BitVec 14) (s : State), (tc n.val s).canIssue = true →
    let does (c : Instr) (size : Nat) : Prop :=
      let addr := (((laneOf ((tc n.val s).v a.val) 0).toNat + imm.toInt * size) % 2 ^ 32).toNat
      0x20000 ≤ addr → addr + size ≤ 0x80000 → addr % size = 0 →
      Runs c s [.tcs] fun t => ∃ w, Wrote n.val d.val w s t ∧
        ∀ k, k < 16 → w.toNat / 256 ^ k % 256 = if k < size then (Memory.read s.mem (n.val * 0x80000 + addr + k)).toNat else 0
    does (.ld n d a imm false) 16 ∧ does (.ldw n d a imm false) 4) ∧
  (∀ (n : QNum) (d a : Reg) (imm : BitVec 14) (s : State), (tc n.val s).canIssue = true →
    let does (c : Instr) (size : Nat) : Prop :=
      let addr := (((laneOf ((tc n.val s).v a.val) 0).toNat + imm.toInt * size) % 2 ^ 32).toNat
      0x20000 ≤ addr → addr + size ≤ 0x80000 → addr % size = 0 →
      Runs c s [.tcs, .mem] fun t =>
        IssuedTo n.val (((tc n.val s).pc + 1) % 16384) s t ∧
        (∀ k, k < size → (Memory.read t.mem (n.val * 0x80000 + addr + k)).toNat = ((tc n.val s).v d.val).toNat / 256 ^ k % 256) ∧
        ∀ x, (x < n.val * 0x80000 + addr ∨ n.val * 0x80000 + addr + size ≤ x) → Memory.read t.mem x = Memory.read s.mem x
    does (.st n d a imm) 16 ∧ does (.stw n d a imm) 4)

/-- R336: control flow. A branch compares lane 0 as signed int32 and goes to its own index plus OFF; B and CALL go to an absolute index, RET to v31 lane 0, within the image's code; CALL leaves the return index in v31 lane 0 and the other lanes as they were; a WAIT whose mask is 0 or meets its condition goes on. Model's choices: log 29, 31, 33. -/
def Obligations.HaldomControlFlowGoesToItsTarget : Prop :=
  ∀ (n : QNum) (a b : Reg) (off tgt : BitVec 14) (mask : Fin 16) (s : State), (tc n.val s).canIssue = true →
    let c := tc n.val s
    let x : Int := (laneOf (c.v a.val) 0).toInt
    let y : Int := (laneOf (c.v b.val) 0).toInt
    let len : Nat := (c.img.getD {}).codeLen
    let next : Nat := (c.pc + 1) % 16384
    let goes (i : Instr) (pc : Nat) : Prop := Runs i s [.tcs] (IssuedTo n.val pc s)
    let branch (i : Instr) (taken : Prop) : Prop :=
      (taken → 0 ≤ (c.pc : Int) + off.toInt → (c.pc : Int) + off.toInt < len → goes i ((c.pc : Int) + off.toInt).toNat) ∧ (¬ taken → goes i next)
    goes (.nop n) next ∧
    branch (.beq n a b off) (x = y) ∧ branch (.bne n a b off) (x ≠ y) ∧ branch (.blt n a b off) (x < y) ∧ branch (.bge n a b off) (y ≤ x) ∧
    (tgt.toNat < len → goes (.b n tgt) tgt.toNat) ∧
    ((laneOf (c.v 31) 0).toNat % 16384 < len → goes (.ret n) ((laneOf (c.v 31) 0).toNat % 16384)) ∧
    (tgt.toNat < len → Runs (.call n tgt) s [.tcs] fun t =>
      (∀ r, r ≠ 31 → (tc n.val t).v r = c.v r) ∧ laneOf ((tc n.val t).v 31) 0 = BitVec.ofNat 32 (c.pc + 1) ∧
      (∀ i, 1 ≤ i → i < 4 → laneOf ((tc n.val t).v 31) i = laneOf (c.v 31) i) ∧
      tc n.val t = { c with regs := (tc n.val t).regs, pc := tgt.toNat, issued := c.issued + 1 } ∧ ∀ m, m ≠ n.val → tc m t = tc m s) ∧
    (c.state = 1 → mask.val.testBit 0 = false → (mask.val = 0 ∨ (mask.val.testBit 1 = true ∧ c.cPend = true) ∨ (mask.val.testBit 2 = true ∧ c.inb ≠ []) ∨
      (mask.val.testBit 3 = true ∧ (c.img.getD {}).odest = 0)) → goes (.wait n mask) next)

/-- R325, R327, R330, R333, R336: TRIG takes and clears what is pending, TIME gives the latest boundary, HZN sets the output horizon's cap without lowering the horizon, RECV and RECVN take one word with its information; RECVN on an empty buffer writes VALID = 0 and keeps `d`. The lanes of TRIG that the manual does not name are free (assumption log 30). Model's choices: log 30, 33. -/
def Obligations.HaldomTriggersTimeAndInput : Prop :=
  ∀ (n : QNum) (d b : Reg) (s : State), (tc n.val s).canIssue = true →
    let c := tc n.val s
    let info (i : InItem) (left : Nat) : Word :=
      BitVec.ofNat 32 ((if i.fromQ then 512 else 0) + left % 64 * 8 + (if left = 0 then 4 else 0) + (if c.inFirst then 2 else 0) + 1)
    let took (t : State) (w : W128) (i : InItem) (ws : List W128) (rest : List InItem) : Prop :=
      (tc n.val t).inb = (if ws = [] then rest else { i with words := ws } :: rest) ∧
      (d ≠ b → (tc n.val t).v d.val = if d.val = 0 then 0 else w) ∧
      (b.val ≠ 0 → laneOf ((tc n.val t).v b.val) 0 = info i ws.length ∧ ∀ k, 1 ≤ k → k < 4 → laneOf ((tc n.val t).v b.val) k = 0) ∧
      (∀ r, r ≠ d.val → r ≠ b.val → (tc n.val t).v r = c.v r) ∧ (tc n.val t).pc = (c.pc + 1) % 16384 ∧ ∀ m, m ≠ n.val → tc m t = tc m s
    Runs (.trig n d) s [.tcs, .free] (fun t => ∃ w, WroteWith (fun k => { k with wPend := false, cPend := false, ovrSince := false }) n.val d.val w s t ∧
      (laneOf w 0).toNat = (if c.wPend then 1 else 0) + (if c.cPend then 2 else 0) + (if c.ovrSince then 4 else 0)) ∧
    Runs (.time n d) s [.tcs] (WroteLanes n.val d.val 15 (fun i => BitVec.ofNat 32 (match i with
      | 0 => c.bound.sec
      | 1 => c.bound.ns
      | 2 => c.bound.ns / ((c.img.getD {}).wper * 1000)
      | _ => c.bound.epoch)) s) ∧
    Runs (.hzn n d) s [.tcs] (fun t =>
      (laneOf (c.v d.val) 0 = 0xFFFFFFFF → (tc n.val t).cap = none) ∧
      (laneOf (c.v d.val) 0 ≠ 0xFFFFFFFF → ∃ sec, (tc n.val t).cap = some ⟨s.tim.epoch, sec, (laneOf (c.v d.val) 1).toNat⟩ ∧ sec % 2 ^ 32 = (laneOf (c.v d.val) 0).toNat) ∧
      Stamp.lt (tc n.val t).ho c.ho = false ∧ (tc n.val t).pc = (c.pc + 1) % 16384 ∧ (∀ r, (tc n.val t).v r = c.v r) ∧ ∀ m, m ≠ n.val → tc m t = tc m s) ∧
    (∀ i w ws rest, c.inb = i :: rest → i.words = w :: ws →
      Runs (.recv n d b) s [.tcs] (fun t => took t w i ws rest) ∧ Runs (.recvn n d b) s [.tcs] (fun t => took t w i ws rest)) ∧
    (c.inb = [] → Runs (.recvn n d b) s [.tcs] (Wrote n.val b.val 0 s))

/-- R331–R334, R336: the output port. On the record path SEND adds a word to the open item, its first word checked as R332 says, and SENDL commits the item into the contracts that name its slot; SABORT rewinds what is open; PSTAT reports the port and clears its three sticky bits (lane 3 is free, assumption log 30). Model's choices: log 30, 34. -/
def Obligations.HaldomOutputPortSendsCommitsAndReports : Prop :=
  ∀ (n : QNum) (d a : Reg) (s : State), (tc n.val s).canIssue = true →
    let c := tc n.val s
    let w := c.v a.val
    let old := c.outb.getD []
    let firstOk (last : Bool) : Prop := c.outb = none → outFirstOk n.val w last s = true
    let aborted (t : State) : Prop :=
      (tc n.val t).outb = none ∧ (tc n.val t).outDrop = false ∧ (tc n.val t).rew = (c.rew || c.outb.isSome) ∧
      (tc n.val t).cntRew = (if c.outb.isSome then (c.cntRew + 1) % 65536 else c.cntRew) ∧ (tc n.val t).pc = (c.pc + 1) % 16384 ∧
      (∀ r, (tc n.val t).v r = c.v r) ∧ ∀ m, m ≠ n.val → tc m t = tc m s
    let onRecordPath : Prop := c.outDrop = false ∧ c.state ≠ 6 ∧ (c.img.getD {}).odest = 0
    (onRecordPath → firstOk false → old.length + 1 ≤ 64 → Runs (.send n a) s [.tcs] fun t =>
      tc n.val t = { c with outb := some (old ++ [w]), pc := (c.pc + 1) % 16384, issued := c.issued + 1 } ∧ ∀ m, m ≠ n.val → tc m t = tc m s) ∧
    (onRecordPath → c.outb = none → outFirstOk n.val w true s = true → c.shadow = none → bits w.toNat 7 2 ≠ 3 → Runs (.sendl n a) s [.tcs, .del] fun t =>
      (tc n.val t).outb = none ∧ (tc n.val t).pc = (c.pc + 1) % 16384 ∧ (∀ r, (tc n.val t).v r = c.v r) ∧ (∀ m, m ≠ n.val → tc m t = tc m s) ∧
      ∀ id, id ∈ consFor (kindOf (bits w.toNat 7 2)) (bits w.toNat 9 9) s → barred id (wordStamp w s) s = false → (bits w.toNat 7 2 ≠ 0 ∨ ((con id s).ent.any fun k => k.runs) = false) →
        ∃ i, i ∈ (con id t).ready ∧ i.t = wordStamp w s ∧ i.src = bits w.toNat 9 25 ∧ i.value.toNat = w.toNat / 2 ^ 96 ∧ i.payload = []) ∧
    ((c.img.getD {}).odest = 0 → Runs (.sabort n) s [.tcs] aborted) ∧
    Runs (.sabort n) s [.tcs, .ques] (fun t => aborted t ∧ (∀ k, outQueue n.val s ≠ some k → que k t = que k s) ∧
      ∀ k, c.outb.isSome = true → (c.img.getD {}).odest = 1 → c.state ≠ 6 → outQueue n.val s = some k → (que k s).open_.isSome = true → que k t = { que k s with open_ := none, cntRewind := ((que k s).cntRewind + 1) % 65536 }) ∧
    Runs (.pstat n d) s [.tcs, .free] (fun t => ∃ w, WroteWith (fun k => { k with rew := false, drop := false, ref := false }) n.val d.val w s t ∧
      (laneOf w 0).toNat = (if c.outb.isSome then 1 else 0) + (if c.rew then 2 else 0) + (if c.drop then 4 else 0) + (if c.ref then 8 else 0) ∧
      laneOf w 1 = BitVec.ofNat 32 (sumNat (c.inb.map fun i => i.words.length)) ∧ ((c.img.getD {}).odest = 0 → laneOf w 2 = 64))

/-- R330, R334, R336, R338: a core that waits goes on by itself when what it waits for is there: WAIT for a condition of its mask, RECV for a word of its input buffer, SEND for a word of space in its queue. Model's choices: log 33. -/
def Obligations.HaldomWaitingCoresResume : Prop :=
  ∀ (n : QNum) (s : State),
    let c := tc n.val s
    (∀ m, c.wait = .mask m → ((m.testBit 0 = true ∧ c.wPend = true) ∨ (m.testBit 1 = true ∧ c.cPend = true) ∨ (m.testBit 2 = true ∧ c.inb ≠ []) ∨
        (m.testBit 3 = true ∧ (c.img.getD {}).odest = 0)) →
      Runs (.waitResume n) s [.tcs, .pages] fun t => tc n.val t = { c with wait := .none, pc := (c.pc + 1) % 16384 } ∧ ∀ k, k ≠ n.val → tc k t = tc k s) ∧
    (∀ d b i w ws rest, c.wait = .recv d b → c.inb = i :: rest → i.words = w :: ws →
      Runs (.recvResume n) s [.tcs, .pages] fun t =>
        (tc n.val t).wait = .none ∧ (tc n.val t).inb = (if ws = [] then rest else { i with words := ws } :: rest) ∧
        (d ≠ b → d ≠ 0 → (tc n.val t).v d = w) ∧ (∀ r, r ≠ d → r ≠ b → (tc n.val t).v r = c.v r) ∧
        (tc n.val t).pc = (c.pc + 1) % 16384 ∧ ∀ k, k ≠ n.val → tc k t = tc k s) ∧
    (∀ w q, c.wait = .send w false → c.outDrop = false → c.state = 1 → (c.img.getD {}).odest = 1 → outQueue n.val s = some q → (c.outb.getD []).length + 1 ≤ 64 →
      (que q s).dropping = false → (que q s).flushing = false → (que q s).free ≠ 0 → (que q s).openW < 64 →
      Runs (.sendResume n) s (reporting [.tcs, .ques]) fun t =>
        (tc n.val t).wait = .none ∧ (tc n.val t).outb = some (c.outb.getD [] ++ [w]) ∧ (tc n.val t).pc = (c.pc + 1) % 16384 ∧
        (que q t).open_ = some ((que q s).open_.getD [] ++ [w]) ∧ (∀ k, k ≠ q → que k t = que k s) ∧ ∀ k, k ≠ n.val → tc k t = tc k s)

/-- R337, R344: a fault records its code and the program counter, is counted, raises FAULT, leaves every register as it was and stops the program until the next window boundary. An undefined opcode is fault 1; a load or a store outside the data region fault 2, a misaligned one fault 3; a jump at or beyond the code length fault 4; an uncorrectable error in a fetch or a load fault 5. Stated for a core whose program has not faulted in the two windows before and that is no shadow donor. Model's choices: log 29, 31, 33. -/
def Obligations.HaldomFaultsStopTheProgram : Prop :=
  ∀ (n : QNum) (d a : Reg) (imm : BitVec 14) (ue : Bool) (s : State), (tc n.val s).canIssue = true → (tc n.val s).donorOf = none → (tc n.val s).faultWins < 2 →
    let c := tc n.val s
    let addr (size : Nat) : Nat := (((laneOf (c.v a.val) 0).toNat + imm.toInt * size) % 2 ^ 32).toNat
    let faults (i : Instr) (code : Nat) : Prop := Runs i s (reporting [.tcs, .ques]) fun t =>
      (tc n.val t).faultCode = code ∧ (tc n.val t).faultPc = c.pc ∧ (tc n.val t).cntFaults = (c.cntFaults + 1) % 65536 ∧
      (tc n.val t).faulted = true ∧ (tc n.val t).pc = c.pc ∧ (∀ r, (tc n.val t).v r = c.v r) ∧ (∀ m, m ≠ n.val → tc m t = tc m s) ∧
      Latched (0x40 + n.val) 0 t
    let access (i : Instr) (size : Nat) : Prop :=
      ((addr size < 0x20000 ∨ 0x80000 < addr size + size) → faults i 2) ∧
      (0x20000 ≤ addr size → addr size + size ≤ 0x80000 → addr size % size ≠ 0 → faults i 3)
    let pass (i : Instr) (size : Nat) : Prop := 0x20000 ≤ addr size → addr size + size ≤ 0x80000 → addr size % size = 0 → faults i 5
    faults (.undefinedOpcode n false) 1 ∧ faults (.undefinedOpcode n true) 5 ∧ pass (.ld n d a imm true) 16 ∧ pass (.ldw n d a imm true) 4 ∧
    access (.ld n d a imm ue) 16 ∧ access (.st n d a imm) 16 ∧ access (.ldw n d a imm ue) 4 ∧ access (.stw n d a imm) 4 ∧
    ((c.img.getD {}).codeLen ≤ imm.toNat → faults (.b n imm) 4 ∧ faults (.call n imm) 4) ∧
    ((c.img.getD {}).codeLen ≤ (laneOf (c.v 31) 0).toNat % 16384 → faults (.ret n) 4)

/-- R325–R327, R344: at a window boundary a core with a program takes the boundary's instant and a pending window trigger; one that finds another pending is an overrun, counted, and reported by TRIG; a program that a fault stopped restarts at index 0. A cycle boundary sets a pending cycle trigger and counts nothing. Model's choices: log 28. -/
def Obligations.TerrierTriggersFall : Prop :=
  ∀ (n : QNum) (g : TImg) (s : State), (tc n.val s).img = some g →
    let c := tc n.val s
    (c.state = 1 → c.donorOf = none → Runs (.windowBoundary n) s (reporting [.tcs, .mem, .bst]) fun t =>
      (tc n.val t).wPend = true ∧ (tc n.val t).bound = floorGrid (now s) g.wper ∧
      (tc n.val t).cntOvr = (if c.wPend then (c.cntOvr + 1) % 65536 else c.cntOvr) ∧ (tc n.val t).ovrSince = (c.ovrSince || c.wPend) ∧
      (c.wPend = true → condOn (0x40 + n.val) 1 n.val s = false → Latched (0x40 + n.val) 1 t) ∧
      (tc n.val t).issued = 0 ∧ (tc n.val t).faulted = false ∧ (tc n.val t).pc = (if c.faulted then 0 else c.pc) ∧
      (tc n.val t).faultWins = (if c.faulted then c.faultWins + 1 else 0) ∧
      (∀ r, (tc n.val t).v r = c.v r) ∧ ∀ m, m ≠ n.val → tc m t = tc m s) ∧
    (c.state = 1 → g.cper ≠ 0 → Runs (.cycleBoundary n) s (reporting [.tcs, .bst]) fun t =>
      tc n.val t = { c with cPend := true } ∧ ∀ m, m ≠ n.val → tc m t = tc m s)

/-- R329, R330: an item enters a core's input buffer whole when there is room for all of it, from a queue (whose packet it leaves) or from a contract; a stopped core discards it, counts it and raises IN_DISC. -/
def Obligations.TerrierInputTakesWholeItems : Prop :=
  ∀ (n q : QNum) (dev : Nat) (cn : Con) (seq : Nat) (item : Item) (p : List W128) (ps : List (List W128)) (s : State),
    (que q.val s).cons = 2 → (que q.val s).cnum = n.val → (que q.val s).headCut = false → (que q.val s).pkts = p :: ps → p ≠ [] →
    (tc n.val s).shadow = none →
    let c := tc n.val s
    (c.state ≠ 5 → sumNat (c.inb.map fun i => i.words.length) + p.length ≤ 4096 → Runs (.tcInputItem n (some q) dev cn seq item) s (reporting [.tcs, .ques, .bst]) fun t =>
      tc n.val t = { c with inb := c.inb ++ [⟨true, p, none⟩] } ∧ (que q.val t).pkts = ps ∧ (∀ m, m ≠ n.val → tc m t = tc m s) ∧ ∀ k, k ≠ q.val → que k t = que k s) ∧
    (c.state ≠ 5 → sumNat (c.inb.map fun i => i.words.length) + item.words.length ≤ 4096 →
      Runs (.tcInputItem n none dev cn seq item) s (reporting [.tcs, .del, .ques, .bst]) fun t =>
        t.ques = s.ques ∧ tc n.val t = { c with inb := c.inb ++ [⟨false, item.words, some item.t⟩] } ∧ ∀ m, m ≠ n.val → tc m t = tc m s) ∧
    (c.state = 5 → Runs (.tcInputItem n (some q) dev cn seq item) s (reporting [.tcs, .ques, .bst]) fun t =>
      tc n.val t = { c with cntDisc := (c.cntDisc + 1) % 65536 } ∧ (que q.val t).pkts = ps ∧ (condOn (0x40 + n.val) 6 n.val s = false → Latched (0x40 + n.val) 6 t) ∧
      ∀ m, m ≠ n.val → tc m t = tc m s)

/-- R339, R345, R346: the image of the standby bank. CLR empties it and sets IMG_ADDR to 0; a write of IMG_DATA stores its word, lowest byte first, at IMG_ADDR in the bank that is not active, and advances; ABORT cancels a pending commit; GO lets the switch follow a finished shadow run; RESTART lets a stopped core run again from its next boundary, and stops a running one as a fault with code 0 that is not counted. Each for a requester that PAGE_CTRL.FREEZE does not keep out (R405) and with no self-test slice on the core that the access abandons (R430). Model's choices: log 6, 10, 28, 29, 60. -/
def Obligations.TerrierImageAndCommitCommands : Prop :=
  ∀ (r : Req) (n : QNum) (v : Word) (s : State), (page (0x40 + n.val) s).freeze = false → serveCore n.val s = s →
    let c := tc n.val s
    let bank := n.val * 0x80000 + (1 - c.bank) * 0x10000
    let at_ := (rfGet (0x4005C + n.val * 0x1000) s).toNat
    let others (t : State) : Prop := ∀ m, m ≠ n.val → tc m t = tc m s
    (c.pend = false → Runs (.tcClr r n) s [.tcs, .mem, .rf] fun t =>
      tc n.val t = { c with stLen := 0, stBad := false } ∧ others t ∧ (rfGet (0x4005C + n.val * 0x1000) t).toNat = 0 ∧
      (∀ x, bank ≤ x → x < bank + 0x10000 → Memory.read t.mem x = 0) ∧ ∀ x, (x < bank ∨ bank + 0x10000 ≤ x) → Memory.read t.mem x = Memory.read s.mem x) ∧
    (c.pend = false → at_ < 16384 → Runs (.tcImgDataWrite r n v) s [.tcs, .mem, .rf] fun t =>
      tc n.val t = { c with stLen := max c.stLen (at_ + 1) } ∧ others t ∧ (rfGet (0x4005C + n.val * 0x1000) t).toNat = at_ + 1 ∧
      (∀ k, k < 4 → (Memory.read t.mem (bank + at_ * 4 + k)).toNat = v.toNat / 256 ^ k % 256) ∧
      ∀ x, (x < bank + at_ * 4 ∨ bank + at_ * 4 + 4 ≤ x) → Memory.read t.mem x = Memory.read s.mem x) ∧
    (c.pend = true → c.shadow = none → Runs (.tcAbort r n) s [.tcs, .pages] fun t =>
      tc n.val t = { c with pend := false, pendImg := none, pendSlice := false, switchAt := none, shDone := false, state := if c.state = 4 then 1 else c.state, drainUp := none } ∧ others t) ∧
    (∀ g, c.pend = true → c.shDone = true → c.pendSlice = false → c.pendImg = some g → Runs (.tcGo r n) s [.tcs] fun t =>
      others t ∧ ∃ b, tc n.val t = { c with switchAt := some b, shDone := false } ∧ (now s).total + 1000000 ≤ b) ∧
    (c.img ≠ none → c.state = 5 → Runs (.tcRestart r n) s [.tcs, .pages] fun t => tc n.val t = { c with state := 1, faulted := true, faultWins := 0 } ∧ others t) ∧
    (c.img ≠ none → c.state = 1 → c.faulted = false → c.faultWins < 2 → c.donorOf = none → (c.img.getD {}).odest = 0 → Runs (.tcRestart r n) s (reporting [.tcs]) fun t =>
      (tc n.val t).state = 1 ∧ (tc n.val t).faulted = true ∧ (tc n.val t).wait = .none ∧ (tc n.val t).outb = none ∧ (tc n.val t).cntFaults = c.cntFaults ∧
      (tc n.val t).faultCode = 0 ∧ (tc n.val t).faultPc = c.pc ∧ Latched (0x40 + n.val) 0 t ∧ others t)

/-- R340, R341, R343, R442: a commit whose image passes the checks is pending, its switch scheduled at 1 ms or more from now and the header used up; one whose standby bank is empty is refused with code 1 and raises REJ. Model's choices: log 27, 28. -/
def Obligations.TerrierCommitIsCheckedAndScheduled : Prop :=
  ∀ (r : Req) (n : QNum) (s : State), (page (0x40 + n.val) s).freeze = false → (rfGet 0x60A0 s).toNat = n.val → serveCore n.val s = s →
    let c := tc n.val s
    let h := s.fwl.hdrBuf
    let body := standbyBody n.val (hField h 8 4) s
    let g := timgOf h body
    (c.stBad = false → c.stLen ≠ 0 → (hField h 8 4 + 3) / 4 = c.stLen → imageErr 2 h body s = 0 → (∀ sup, s.fwl.run = some sup → pairRefused sup (hdrOf h) = false) → assignedTo s.pln.active n.val g.digest = true →
      timgOk n.val g s = true → c.pend = false → wbit (tcCtrl n.val s) 5 = false → h ≠ [] →
      Runs (.tcCommit r n) s [.tcs, .fwl, .pages] fun t =>
        (tc n.val t).pend = true ∧ (tc n.val t).state = (if c.state = 5 then 1 else c.state) ∧ (tc n.val t).pendImg = some g ∧ (tc n.val t).err = 0 ∧ (∃ b, (tc n.val t).switchAt = some b ∧ (now s).total + 1000000 ≤ b) ∧
        (tc n.val t).img = c.img ∧ (tc n.val t).bank = c.bank ∧ (∀ k, (tc n.val t).v k = c.v k) ∧ t.fwl = { s.fwl with hdrBuf := [] } ∧ ∀ m, m ≠ n.val → tc m t = tc m s) ∧
    (c.stLen = 0 → Runs (.tcCommit r n) s (reporting [.tcs]) fun t =>
      tc n.val t = { c with err := 1 } ∧ Latched (0x40 + n.val) 4 t ∧ ∀ m, m ≠ n.val → tc m t = tc m s)

/-- R341–R343: a shadow run starts its donor on the new program; at the switch boundary the old program drains; at the drain's end it stops; then the banks flip, the new program starts at index 0 with the trigger of the boundary pending, and SWITCHED is raised. Model's choices: log 27, 28, 35, 65. -/
def Obligations.TerrierSwitchesPrograms : Prop :=
  ∀ (n : QNum) (g : TImg) (s : State),
    let c := tc n.val s
    (∀ h, c.shadow = some h → c.pendImg = some g → h.started = false → h.donor ≠ n.val → Runs (.shadowStart n) s [.tcs, .mem, .pages] fun t =>
      (tc h.donor t).state = 6 ∧ (tc h.donor t).img = some g ∧ (tc h.donor t).donorOf = some n.val ∧ (tc h.donor t).pc = 0 ∧ (tc h.donor t).wPend = true ∧
      tc n.val t = { c with shadow := some { h with started := true } } ∧ ∀ m, m ≠ n.val → m ≠ h.donor → tc m t = tc m s) ∧
    (c.pend = true → c.switchAt ≠ none → c.state = 1 → c.faulted = false → Runs (.switchBoundary n) s [.tcs, .pages] fun t =>
      tc n.val t = { c with state := 4, drainUp := some (s.tim.up + (if (c.img.getD {}).drain = 0 then (c.img.getD {}).wper else (c.img.getD {}).drain) * 1000) } ∧
      ∀ m, m ≠ n.val → tc m t = tc m s) ∧
    (c.state = 4 → c.drainUp ≠ none → Runs (.drainExpiry n) s [.tcs, .ques] fun t =>
      (tc n.val t).drainUp = none ∧ (tc n.val t).wait = .none ∧ (tc n.val t).outb = none ∧ (tc n.val t).cntRew = (if c.outb.isSome then (c.cntRew + 1) % 65536 else c.cntRew) ∧
      (∀ k, (tc n.val t).v k = c.v k) ∧ (∀ m, m ≠ n.val → tc m t = tc m s) ∧ (∀ k, outQueue n.val s ≠ some k → que k t = que k s) ∧
      ∀ k, c.outb.isSome = true → (c.img.getD {}).odest = 1 → outQueue n.val s = some k → (que k s).open_.isSome = true → que k t = { que k s with open_ := none, cntRewind := ((que k s).cntRewind + 1) % 65536 }) ∧
    (c.state = 4 → c.drainUp ≠ none → (c.img.getD {}).odest = 0 → Runs (.drainExpiry n) s [.tcs] fun t => (tc n.val t).drainUp = none ∧ t.ques = s.ques) ∧
    (c.state = 4 → c.drainUp = none → c.pendImg = some g → (∀ sup, s.fwl.run = some sup → pairRefused sup c.pendHdr = false) → Runs (.programSwitch n) s (reporting [.tcs, .mem, .lanes, .lsh]) fun t =>
      (tc n.val t).bank = 1 - c.bank ∧ (tc n.val t).img = some g ∧ (tc n.val t).prev = c.img ∧ (tc n.val t).pc = 0 ∧ (tc n.val t).state = 1 ∧ (tc n.val t).wPend = true ∧
      (tc n.val t).pend = false ∧ (tc n.val t).pendImg = none ∧ (tc n.val t).cntSw = (c.cntSw + 1) % 65536 ∧ (∀ k, (tc n.val t).v k = c.v k) ∧
      Latched (0x40 + n.val) 2 t ∧ ∀ m, m ≠ n.val → tc m t = tc m s)

/-- R156, R158, R166: the control words of a Tattoo program, issued while the program runs, waits for nothing and has no task. NOP goes on; a wait for a unit that has come is over at once, another waits and TAT_WAIT_EXPIRY ends it; EVERY leaves out the next word, whichever it is, in the frames whose number is not the residue; LOOP opens a loop, ENDL runs its body again or closes it, END ends the frame's program; ROT starts a rotation, or has it wait for the relief, or without a relief is skipped and counted. Every other group is untouched. Model's choices: log 33, 58. -/
def Obligations.TattooControlWordsStepTheProgram : Prop :=
  ∀ (g : Grp) (off : BitVec 23) (k : Fin 16) (res : BitVec 15) (count : BitVec 8) (auto : Bool) (ch src : Fin 16) (range : Fin 4) (dwell : BitVec 16) (s : State), s.fuse.hx000 = false →
    let x := tat g.val s
    let y := grp g.val s
    x.run = true → x.task = none →
    let toEnd (f : Tat → Tat) (t : State) : Prop := grp g.val t = { y with tat := f x } ∧ ∀ j, j ≠ g.val → grp j t = grp j s
    let next (y : Tat) : Tat := { y with pc := x.pc + 1, wait := none, task := none, skip := false }
    (x.wait = none → x.skip = false →
      Runs (.tatNop g) s [.grps] (toEnd next) ∧
      Runs (.waita g off) s [.grps] (toEnd fun y => if off.toNat ≤ unitNow g.val s then next y else { y with wait := some off.toNat }) ∧
      Runs (.waitr g off) s [.grps] (toEnd fun y => if off.toNat = 0 then next y else { y with wait := some (unitNow g.val s + off.toNat) }) ∧
      Runs (.every g k res) s [.grps] (toEnd fun y => { next y with skip := decide (x.frameNo % 2 ^ k.val ≠ res.toNat) }) ∧
      Runs (.tatLoop g count) s [.grps] (toEnd fun y => { next y with loops := (x.pc + 1, count.toNat) :: x.loops }) ∧
      (x.loops = [] → Runs (.endl g) s [.grps] (toEnd next)) ∧
      (∀ b n r, x.loops = (b, n) :: r → Runs (.endl g) s [.grps] (toEnd fun y => if n ≤ 1 then { next y with loops := r } else { y with pc := b, loops := (b, n - 1) :: r })) ∧
      Runs (.tatEnd g) s [.grps] (toEnd fun y => { y with run := false }) ∧
      (y.relief = none → Runs (.rot g) s [.grps] (toEnd fun y => { next y with cntSkip := (x.cntSkip + 1) % 65536 })) ∧
      (y.relief ≠ none → s.pwr.stopped = false →
        (mayTake 3 y = false → Runs (.rot g) s [.grps] fun t => grp g.val t = { y with tat := next x, rotWait := true } ∧ ∀ j, j ≠ g.val → grp j t = grp j s) ∧
        (mayTake 3 y = true → rotTarget g.val s = none → Runs (.rot g) s [.grps] fun t => grp g.val t = { y with tat := next x, rotWait := false } ∧ ∀ j, j ≠ g.val → grp j t = grp j s) ∧
        (∀ c, mayTake 3 y = true → rotTarget g.val s = some c → Runs (.rot g) s (reporting [.bst, .grps]) fun t =>
          (tat g.val t).pc = x.pc + 1 ∧ (tat g.val t).task = none ∧ (∃ o, (grp g.val t).ovl = some o ∧ o.ch = c ∧ o.range = false ∧ o.target = (chan c s).range ∧ o.tq = nowTk s ∧ o.tc = nowTk s + connectTk) ∧
          (grp g.val t).task = 3 ∧ (grp g.val t).tgt = idxOf c ∧ (grp g.val t).last = idxOf c ∧ (grp g.val t).rotWait = false ∧ ∀ j, j ≠ g.val → grp j t = grp j s))) ∧
    (x.wait = none → x.skip = true →
      ∀ i ∈ [Instr.tatNop g, .waita g off, .waitr g off, .lead g auto ch, .pulse g auto ch, .ref g src range dwell, .excm g, .rot g, .every g k res, .tatLoop g count, .endl g, .tatEnd g], Runs i s [.grps] (toEnd next)) ∧
    (∀ u, x.wait = some u → u ≤ unitNow g.val s → Runs (.tatWaitExpiry g) s [.grps] (toEnd next))

/-- R108, R160–R165: the words that take the relief. A LEAD of the channel it names or of the one measured longest ago, a REF and an EXCM take an idle relief and hold it; where the relief is held by a task that does not yield to them the word is deferred, the fifth deferral of a frame dropped, and the program goes on; one that cannot run is skipped and counted. A PULSE runs a window for each pulsed channel it names, the first on an idle relief, or on the channel's own converter where there is none to be had; one of no channel is over. Model's choices: log 33, 58. -/
def Obligations.TattooReliefWordsTakeOrDefer : Prop :=
  ∀ (g : Grp) (ch : Fin 16) (auto : Bool) (src : Fin 16) (range : Fin 4) (dwell : BitVec 16) (s : State), s.fuse.hx000 = false →
    let ready (g : Nat) : Prop := (tat g s).run = true ∧ (tat g s).wait = none ∧ (tat g s).task = none ∧ (tat g s).skip = false
    let free (g : Nat) : Prop := (grp g s).relief ≠ none ∧ (grp g s).freed = none ∧ (grp g s).fwin = false ∧ (grp g s).task = 0
    let kept (g : Nat) (t : State) : Prop := ∀ j, j ≠ g → grp j t = grp j s
    let counted (g : Nat) (t : State) : Prop := (tat g t).cntSkip = ((tat g s).cntSkip + 1) % 65536 ∧ (tat g t).pc = (tat g s).pc + 1 ∧ (tat g t).task = none ∧ (grp g t).task = (grp g s).task ∧ kept g t
    let issues (i : Instr) (g : Nat) (w : Word) (task tgt range : Nat) : Prop := ready g →
      (skipped g w s = false → free g → Runs i s [.grps] fun t =>
        (tat g t).task = some w ∧ (tat g t).pc = (tat g s).pc ∧ (grp g t).task = task ∧ (grp g t).tgt = tgt ∧ (grp g t).trange = range ∧ (tat g t).deferred = (tat g s).deferred ∧ kept g t) ∧
      (skipped g w s = false → mayTake task (grp g s) = false → (tat g s).defs < 4 → Runs i s [.grps] fun t =>
        (tat g t).deferred = (tat g s).deferred ++ [w] ∧ (tat g t).defs = (tat g s).defs + 1 ∧ (tat g t).pc = (tat g s).pc + 1 ∧ (tat g t).task = none ∧ (grp g t).task = (grp g s).task ∧ kept g t) ∧
      (skipped g w s = false → mayTake task (grp g s) = false → 4 ≤ (tat g s).defs → Runs i s (reporting [.grps]) fun t =>
        (tat g t).deferred = (tat g s).deferred ∧ (tat g t).cntDrop = ((tat g s).cntDrop + 1) % 65536 ∧ (tat g t).pc = (tat g s).pc + 1 ∧ (tat g t).task = none ∧ kept g t) ∧
      (skipped g w s = true → Runs i s [.grps] (counted g))
    let pulse := Instr.pulse g auto ch
    (∀ c, leadChan g.val auto ch.val s = some c → issues (.lead g auto ch) g.val (leadWord auto ch.val) 5 (idxOf c) 3) ∧
    (leadChan g.val auto ch.val s = none → issues (.lead g auto ch) g.val (leadWord auto ch.val) 5 0 3) ∧
    issues (.ref g src range dwell) g.val (refWord src.val range.val dwell.toNat) 1 0 range.val ∧
    issues (.excm g) g.val 0x60000000 1 0 0 ∧
    (16 ≤ g.val → ready g.val → Runs pulse s [.grps] (counted g.val)) ∧
    (g.val < 16 → ready g.val →
      (pulseChans g.val auto ch.val s = [] → auto = true → Runs pulse s [.grps] fun t =>
        (tat g.val t).pc = (tat g.val s).pc + 1 ∧ (tat g.val t).cntSkip = (tat g.val s).cntSkip ∧ (tat g.val t).task = none ∧ kept g.val t) ∧
      (pulseChans g.val auto ch.val s = [] → auto = false → Runs pulse s [.grps] (counted g.val)) ∧
      (∀ c cs, pulseChans g.val auto ch.val s = c :: cs →
        let begins (b : Bool) (t : State) : Prop := (tat g.val t).wins = (tat g.val s).wins ++ [⟨c, b, true⟩] ∧ (tat g.val t).toPulse = cs ∧ (tat g.val t).pc = (tat g.val s).pc ∧
          Becomes chan c { chan c s with windowed := true } s t ∧ kept g.val t
        (free g.val → Runs pulse s [.chans, .grps] fun t => begins true t ∧ (grp g.val t).task = 6 ∧ (grp g.val t).tgt = idxOf c) ∧
        (mayTake 6 (grp g.val s) = false → Runs pulse s [.chans, .grps] fun t => begins false t ∧ (grp g.val t).task = (grp g.val s).task)))

/-- R95, R96, R156, R157, R161, R163, R165, R172: a frame starts its program at word 0, an overrun is counted and raised, a frame that lacked a required window counted, its channel's bound lengthened; a deferred word runs when the relief is idle, or is skipped; a pulsed window is judged by the movement, or by the rail on the channel's own converter, and opens its input or closes it; after it the next window of the PULSE begins, after the last the program goes on; the result of an EXCM is kept in mV, raised beyond 2 % of nominal, and the program goes on. Model's choices: log 56, 58. -/
def Obligations.TattooFramesWindowsAndResults : Prop :=
  ∀ (g : Grp) (gg : GGrp) (ch : Fin 16) (mv : Int) (exc : Nat) (rail : Bool) (w : Word) (k : PWin) (s : State), s.fuse.hx000 = false →
    let v := tat g.val s
    let x := tat gg.val s
    let c := slotAt gg.val ch.val
    let y := chan c s
    let kept (g : Nat) (t : State) : Prop := ∀ j, j ≠ g → grp j t = grp j s
    let lacks (c : Nat) : Bool := v.framed && decide (eCls (chan c s).w ≠ 0) && decide (eBo (chan c s).w = 2) && !(chan c s).windowed
    let done (t : State) : Prop := (tat gg.val t).excMv = exc % 65536 ∧ (tat gg.val t).excUp = some s.tim.up ∧ kept gg.val t
    let dv : Int := (wbits (ew y.w 3) 16 8 * 10 : Nat)
    let met : Prop := if k.onRel then (if eDown y.w then mv < -dv else dv < mv) else rail = true
    let judged := eCls y.w ≠ 0 ∧ eBo y.w = 2
    let out := reporting [.bst, .chans, .grps]
    let ends := Instr.pulseWindowDone gg ch mv rail
    (s.pwr.stopped = false → Runs (.frameStart g) s (reporting [.grps, .chans]) fun t =>
      (tat g.val t).run = true ∧ (tat g.val t).pc = 0 ∧ (tat g.val t).wait = none ∧ (tat g.val t).task = none ∧ (tat g.val t).skip = false ∧ (tat g.val t).loops = [] ∧ (tat g.val t).toPulse = [] ∧
      (tat g.val t).wins = v.wins.map cutWin ∧ (tat g.val t).deferred = [] ∧ (tat g.val t).defs = 0 ∧ (tat g.val t).framed = true ∧
      (tat g.val t).frameAt = nowTk s ∧ (tat g.val t).cntOvr = (if v.run then (v.cntOvr + 1) % 65536 else v.cntOvr) ∧
      (tat g.val t).cntSkip = (if (groupSlots g.val).any lacks then (v.cntSkip + 1) % 65536 else v.cntSkip) ∧
      (∀ j ∈ groupSlots g.val, chan j t = { chan j s with windowed := false, missed := if lacks j then (chan j s).missed + 1 else (chan j s).missed }) ∧
      (∀ j, j ∉ groupSlots g.val → chan j t = chan j s) ∧ (v.run = true → condOn (0x10 + g.val) 25 0 s = false → Latched (0x10 + g.val) 25 t) ∧ kept g.val t) ∧
    (∀ r, v.deferred = w :: r →
      let may := (grp g.val s).freed = none ∧ ((grp g.val s).holder = 0 ∨ ((grp g.val s).holder = 1 ∧ tatHolds g.val s = false))
      (skipped g.val w s = false → may → Runs (.tatDeferredRun g) s [.grps] fun t =>
        (tat g.val t).deferred = r ∧ (tat g.val t).deferRun = some w ∧ (tat g.val t).pc = v.pc ∧ (grp g.val t).task = tatTask w ∧ (grp g.val t).trange = (if tatOp w = 3 then 3 else if tatOp w = 5 then wbits w 20 2 else 0) ∧
        (∀ c, tatOp w = 3 → leadChan g.val (wbit w 27) (wbits w 0 4) s = some c → (grp g.val t).tgt = idxOf c) ∧ kept g.val t) ∧
      (skipped g.val w s = false → ¬ may → Runs (.tatDeferredRun g) s [] fun t => t = s) ∧
      (skipped g.val w s = true → Runs (.tatDeferredRun g) s [.grps] fun t => (tat g.val t).deferred = r ∧ (tat g.val t).cntSkip = (v.cntSkip + 1) % 65536 ∧ (tat g.val t).deferRun = v.deferRun ∧ kept g.val t)) ∧
    (x.wins.find? (·.ch = c) = none → Runs ends s [] fun t => t = s) ∧
    (x.wins.find? (·.ch = c) = some k →
      (k.mine = false → ¬ judged → Runs ends s [.grps] fun t => (tat gg.val t).wins = x.wins.erase k ∧ (tat gg.val t).toPulse = x.toPulse ∧ (tat gg.val t).task = x.task ∧ (tat gg.val t).pc = x.pc ∧ (tat gg.val t).oldFrame = x.oldFrame ∧
        (k.onRel = true → (grp gg.val s).task = 6 → (grp gg.val t).tgt = 0) ∧ kept gg.val t) ∧
      (k.mine = true → x.toPulse = [] → x.task = some w → tatOp w = 4 → Runs ends s out fun t =>
        (tat gg.val t).wins = x.wins.erase k ∧ (tat gg.val t).task = none ∧ (tat gg.val t).pc = x.pc + 1 ∧ (tat gg.val t).oldFrame = none ∧ kept gg.val t) ∧
      (∀ n rest, k.mine = true → x.toPulse = n :: rest → Runs ends s out fun t =>
        (tat gg.val t).toPulse = rest ∧ (∃ b, (tat gg.val t).wins = x.wins.erase k ++ [⟨n, b, true⟩] ∧ (b = true → (grp gg.val t).task = 6 ∧ (grp gg.val t).tgt = idxOf n)) ∧ (chan n t).windowed = true ∧ (tat gg.val t).oldFrame = none ∧ kept gg.val t) ∧
      (judged → Runs ends s out fun t => (chan c t).missed = 0 ∧
        (¬ met → (chan c t).pulseOk = some (nowTk s) ∧ (y.isOpen = true → y.brkEnd = none → (chan c t).brkEnd = some (nowTk s))) ∧
        (met → (chan c t).pulseOk = y.pulseOk ∧ (chan c t).isOpen = true ∧ (chan c t).brkEnd = none ∧
          (y.isOpen = false → (chan c t).brk = some (y.pulseOk.getD 0) ∧ condOn (pgGroup (grpOf c)) inOPEN c t = true ∧ (wbit y.latched inOPEN = false → Latched (pgGroup (grpOf c)) inOPEN t))))) ∧
    ((grp gg.val s).task = 1 → tatOp w = 6 →
      let far := 2 * (grp gg.val s).excMv < ((exc : Int) - (grp gg.val s).excMv).natAbs * 100
      (x.deferRun = none → x.task = some w → Runs (.excmDone gg exc) s (reporting [.grps]) fun t => done t ∧ (tat gg.val t).task = none ∧ (tat gg.val t).pc = x.pc + 1 ∧ (far → Latched (pgGroup gg.val) tatREJ t)) ∧
      (x.deferRun = some w → Runs (.excmDone gg exc) s (reporting [.grps]) fun t => done t ∧ (tat gg.val t).deferRun = none ∧ (tat gg.val t).pc = x.pc ∧ (far → Latched (pgGroup gg.val) tatREJ t)) ∧
      (x.deferRun = none → x.task = some w → ¬ far → Runs (.excmDone gg exc) s [.grps, .pages] fun t => done t ∧ (tat gg.val t).task = none ∧ (tat gg.val t).pc = x.pc + 1))

/-- R159, R169–R172, R174: loading a Tattoo program into the standby bank of the selected group. CLR empties it; DATA stores the next word; ABORT cancels a pending commit; a commit of an empty bank is refused with code 9 and changes nothing else; the swap at its frame start flips the banks, raises T_SWAP and lets the new program run from the next frame. Model's choices: log 10, 58, 79. -/
def Obligations.TattooLoadsAndSwapsPrograms : Prop :=
  ∀ (r : Req) (g : Grp) (v : Word) (s : State), s.fuse.hx000 = false → (page 0x0F s).freeze = false → (rfGet 0x0F040 s).toNat % 32 = g.val →
    let x := tat g.val s
    let standby (y : Tat) (b : Nat) : FMap Word := if b = 0 then y.bank1 else y.bank0
    let active (y : Tat) (b : Nat) : FMap Word := if b = 0 then y.bank0 else y.bank1
    let others (t : State) : Prop := ∀ j, j ≠ g.val → grp j t = grp j s
    (x.pend = false → Runs (.tatClr r) s [.grps] fun t =>
      standby (tat g.val t) x.bank = [] ∧ active (tat g.val t) x.bank = active x x.bank ∧ (tat g.val t).addr = 0 ∧ (tat g.val t).stLen = 0 ∧ (tat g.val t).isOver = false ∧ (tat g.val t).bank = x.bank ∧ others t) ∧
    (x.pend = false → x.addr < 256 → Runs (.tatDataWrite r v) s [.grps] fun t =>
      FMap.get (fun _ => 0) (standby (tat g.val t) x.bank) x.addr = v ∧ (∀ k, k ≠ x.addr → FMap.get (fun _ => 0) (standby (tat g.val t) x.bank) k = FMap.get (fun _ => 0) (standby x x.bank) k) ∧
      active (tat g.val t) x.bank = active x x.bank ∧ (tat g.val t).addr = x.addr + 1 ∧ (tat g.val t).stLen = max x.stLen (x.addr + 1) ∧ others t) ∧
    (Runs (.tatAbort r) s [.grps] fun t => grp g.val t = { grp g.val s with tat := { x with pend := false, waitSlice := false, swapAt := none } } ∧ others t) ∧
    (x.isOver = false → x.stLen ≠ 0 → tatErr g.val x.next (standbyWords g.val s) x.isOver s = 0 → tatRefused (sha256 (tatBytes (standbyWords g.val s))) s = false →
      Runs (.tatCommit r) s [.grps] fun t => (tat g.val t).pend = true ∧ (tat g.val t).err = 0 ∧ (tat g.val t).pDigest = sha256 (tatBytes (standbyWords g.val s)) ∧ (tat g.val t).bank = x.bank ∧ others t) ∧
    (x.stLen = 0 → Runs (.tatCommit r) s [.grps] fun t => grp g.val t = { grp g.val s with tat := { x with err := 9 } } ∧ others t) ∧
    (∀ at_, x.swapAt = some at_ → s.pwr.stopped = false → x.pend = true → at_ ≤ s.tim.sec * 1000000000 + s.tim.ns → tatRefused x.pDigest s = false → x.deferred = [] →
      Runs (.tatSwap g) s (reporting [.grps, .lanes, .lsh]) fun t =>
        (tat g.val t).bank = 1 - x.bank ∧ (tat g.val t).alen = x.stLen ∧ (tat g.val t).stLen = 0 ∧ (tat g.val t).digest = x.pDigest ∧ (tat g.val t).frame = x.pFrame ∧
        (tat g.val t).pend = false ∧ (tat g.val t).swapAt = none ∧ (tat g.val t).cntSwap = (x.cntSwap + 1) % 65536 ∧ Latched (0x10 + g.val) 24 t ∧ others t)

/-- R309–R312, R315, R316: words into an enabled queue with room. A word that is not the last joins the open item; the last one, or COMMIT of the driver, makes the item a packet behind the others, with its notice at NCOAL pending packets and its crossing of the watermark; REWIND drops the open item and counts; the notice timer raises a pending notice. The driver's words go to the queue that QSEL names, under the common header (R405). Model's choices: log 36, 43. -/
def Obligations.QueuesTakeWordsAndCommitPackets : Prop :=
  ∀ (q : QNum) (r : Req) (w : W128) (v : Word) (ws : List W128) (s : State),
    let u := que q.val s
    let committed (ws : List W128) (u : Que) : Que :=
      let level := u.level + ws.length
      let crosses := decide (u.level ≤ u.hwm ∧ u.hwm < level)
      { u with
        pkts := u.pkts ++ [ws], open_ := none, pend := if max u.ncoal 1 ≤ u.pend + 1 then 0 else u.pend + 1,
        latch := u.latch || crosses, peak := if u.latch then max u.peak level else if crosses then level else u.peak,
        epis := if crosses then (if u.latch then satAdd 0xFFFF u.epis 1 else 1) else u.epis,
        wm := if crosses && !u.latch then ((now s).sec, (now s).ns) else u.wm, x := if crosses && !u.latch then decide (xOf (now s) = 1) else u.x }
    let noticed (n : Nat) (u : Que) (t : State) : Prop := max u.ncoal 1 ≤ u.pend + 1 → Latched pgQUE n t
    ((u.prod = 1 ∨ u.prod = 2) → u.flushing = false → u.dropping = false → u.en = true → u.free ≠ 0 → u.openW < 64 →
      Runs (.queueWordWrite q w false false) s [.ques] (Becomes que q.val { u with open_ := some (u.open_.getD [] ++ [w]) } s) ∧
      Runs (.queueWordWrite q w true false) s (reporting [.ques]) (fun t => Becomes que q.val (committed (u.open_.getD [] ++ [w]) u) s t ∧ noticed q.val u t)) ∧
    (u.coalT ≠ 0 → u.pend ≠ 0 → acts 2 (keyCoal q.val) s = true → Runs (.queueNoticeTimer q) s (reporting [.ques]) fun t =>
      Becomes que q.val { u with pend := 0 } s t ∧ Latched pgQUE q.val t) ∧
    ((page pgQUE s).freeze = false → serveMerger s = s → u.prod = 3 → queSel s = q.val → u.dropping = false → u.owner = r.val →
      let stat (u : Que) : Que := { u with wDropped := false, wNoItem := false, wOwner := false, wFull := false }
      (u.en = true → u.flushing = false → u.free ≠ 0 → u.openW < 64 → Runs (.queueAppend r v) s [.ques] fun t =>
        let word : W128 := BitVec.ofNat 128 (u.wr.toNat % 2 ^ 96 + v.toNat * 2 ^ 96)
        Becomes que q.val { stat u with wr := word, open_ := some (u.open_.getD [] ++ [word]) } s t) ∧
      (u.open_ = some ws → Runs (.queueWcommit r) s (reporting [.ques]) (fun t => Becomes que q.val (committed ws (stat u)) s t ∧ noticed q.val u t) ∧
        Runs (.queueWrewind r) s [.ques] (Becomes que q.val { stat u with open_ := none, cntRewind := (u.cntRewind + 1) % 65536 } s)))

/-- R307, R311, R313, R314, R316–R318, R320: a read takes the next word into the read latch and its other words into this requester's shadow; FLUSH holds the producers; clearing the latch resets the mark's record; a level above a new mark is a crossing; QSIZE and the other fields of QCFG are taken while the queue is disabled and empty and change GEN. Model's choices: log 36, 43. -/
def Obligations.QueuesAreReadAndConfigured : Prop :=
  ∀ (q : QNum) (r : Req) (v : Word) (w : W128) (ws : List W128) (ps : List (List W128)) (s : State), queSel s = q.val → serveMerger s = s →
    let u := que q.val s
    (u.cons = 0 → u.pkts = (w :: ws) :: ps → Runs (.queueRead r) s [.ques, .fab, .outbox] fun t =>
      Becomes que q.val { u with
        rd := w, rValid := true, rFirst := !u.headCut, rLast := ws.isEmpty, left := ws.length, rFlushed := u.flushedSince, flushedSince := false,
        pkts := if ws.isEmpty then ps else ws :: ps, headCut := !ws.isEmpty } s t ∧
      t.outbox = .read r.val 0xD090 (laneOf w 0) :: s.outbox ∧
      ∃ h ∈ t.fab.shadows, h.req = r.val ∧ h.page = pgQUE ∧ h.words = [(0xD094, laneOf w 1), (0xD098, laneOf w 2), (0xD09C, laneOf w 3)]) ∧
    (u.cons = 0 → u.pkts = [] → Runs (.queueRead r) s (reporting [.ques]) fun t =>
      Becomes que q.val { u with
        rValid := false, rFirst := false, rLast := false, left := 0, rFlushed := u.flushedSince, flushedSince := false, underrun := true, cntUnder := (u.cntUnder + 1) % 65536 } s t) ∧
    ((page pgQUE s).freeze = false →
      Runs (.queueFlush r) s [.ques] (Becomes que q.val { u with flushing := true } s) ∧
      (wbit v 31 = true → (u.chk = false ∨ wbits v 0 16 = u.epis) → u.level ≤ u.hwm → Runs (.wmLatchClear r v) s [.ques, .pages, .fab] fun t =>
        Becomes que q.val { u with chk := wbit v 30, latch := false, epis := 0, peak := 0, wm := (0, 0), x := false, miss := false } s t ∧
        (page pgQUE t).gen = (if u.latch then (page pgQUE s).gen + 1 else (page pgQUE s).gen)) ∧
      (u.latch = false → Runs (.wmHwmWrite r v) s (reporting [.ques]) fun t =>
        let mark := v.toNat % 2 ^ 19
        (u.level ≤ mark → Becomes que q.val { u with hwm := mark } s t) ∧
        (mark < u.level → Latched pgQUE (16 + q.val) t ∧
          Becomes que q.val { u with hwm := mark, latch := true, wm := ((now s).sec, (now s).ns), x := decide (xOf (now s) = 1), peak := u.level, epis := 1 } s t)) ∧
      (u.en = false → u.pkts = [] → u.openW = 0 → wbits v 0 11 ≠ 0 → wbits v 16 10 + wbits v 0 11 ≤ 1024 → overlaps q.val (wbits v 16 10) (wbits v 0 11) s = false →
        Runs (.qsizeWrite r v) s [.ques, .pages] fun t => Becomes que q.val { u with err := 0, base := wbits v 16 10, size := wbits v 0 11 } s t ∧
          (page pgQUE t).gen = (if u.base = wbits v 16 10 ∧ u.size = wbits v 0 11 then (page pgQUE s).gen else (page pgQUE s).gen + 1)) ∧
      (u.en = false → Runs (.qcfgWrite r v) s [.ques, .pages] (Becomes que q.val
        { u with en := wbit v 31, prod := wbits v 14 2, pnum := wbits v 10 4, cons := wbits v 8 2, cnum := wbits v 4 4, err := 0 } s)) ∧
      (u.en = true → Runs (.qcfgWrite r v) s [.ques, .pages] fun t => ∃ e, Becomes que q.val { u with en := wbit v 31, err := e } s t))

/-- R235, R241–R243, R29–R31: alignment and the neighbour check. Four commas give symbol lock; the sixteenth good header gives block lock and ends the hunt; the exchange number advances and CAP blocks go out in hunt, quarantine and step; the third matching exchange in a row, 20 ms after the first, clears quarantine, an earlier one only counts, a failing one counts and keeps it; with quarantine clear at both ends the port comes up at once where the rate in use is the best common one, else it begins the step. Model's choices: log 22, 75, 77. -/
def Obligations.LanesLockAndPassTheCheck : Prop :=
  ∀ (p : Port) (r : RxSlot) (c : CapBlk) (s : State),
    let l := lane p.val s
    let q := port p.val s
    let b := (readSlot r l).1
    let since := if q.streak = 0 then s.tim.up else q.matchAt
    let becomes (x : Lane) (t : State) : Prop := Becomes lane p.val x s t
    (l.state ≠ 0 → l.state ≠ 5 → l.slock = false → Runs (.symbolLock p) s [.lanes] (becomes { l with slock := true, block := false, hunt := 0 })) ∧
    (l.state = 1 → Runs (.huntTimeout p) s [.lanes] (becomes { l with slock := false, block := false, hunt := 0 })) ∧
    (l.state = 1 → l.slock = true → l.block = false → b.cvBurst = false → headerValid b = true → b.atPhase = true → l.hunt = 15 →
      Runs (.blockReceive p r) s [.lanes, .pages] (becomes
        { (readSlot r l).2 with cv := (l.cv + b.cvHdr + b.cvRest) % 65536, hunt := 16, block := true, hist := 0, rxSeq := none, missing := none, fill := 16, state := 2 })) ∧
    ((l.state = 1 ∨ l.state = 2 ∨ l.state = 3) →
      Runs (.capXnTick p) s [.lanes] (becomes { l with xn := (l.xn + 1) % 256 }) ∧
      Runs (.capSendTimer p) s [.lanes] (becomes { l with ctl := l.ctl ++ [{ typ := 0x16, words := (capOf p.val s).words }] })) ∧
    (l.state = 2 → l.rxXn ≠ some c.xn → q.q = true → c.q = true →
      (checkCauses p.val c s = 0 → 2 ≤ q.streak → since + 20000000 ≤ s.tim.up → Runs (.capExchange p c) s (reporting [.lanes, .pln, .lsh]) fun t =>
        (port p.val t).q = false ∧ (port p.val t).streak = q.streak + 1 ∧ (port p.val t).peer = some c ∧ (lane p.val t).state = 2 ∧ (lane p.val t).peerRates = c.rates ∧ Latched pgPLN 3 t ∧
        (∀ m, m ≠ p.val → port m t = port m s)) ∧
      (checkCauses p.val c s = 0 → (q.streak < 2 ∨ s.tim.up < since + 20000000) → Runs (.capExchange p c) s [.lanes, .pln, .pages] fun t =>
        (port p.val t).q = true ∧ (port p.val t).streak = q.streak + 1 ∧ (port p.val t).matchAt = since ∧ (lane p.val t).state = 2 ∧ ∀ m, m ≠ p.val → port m t = port m s) ∧
      (checkCauses p.val c s ≠ 0 → Runs (.capExchange p c) s (reporting [.lanes, .pln, .lsh]) fun t =>
        (port p.val t).q = true ∧ (port p.val t).streak = 0 ∧ (port p.val t).fails = satAdd 65535 q.fails 1 ∧ (port p.val t).cause = checkCauses p.val c s ∧ (lane p.val t).state = 2 ∧
        (condOn pgPLN 2 p.val s = false → Latched pgPLN 2 t) ∧ (∀ m, m ≠ p.val → port m t = port m s))) ∧
    (l.state = 2 → l.rxXn = some c.xn → q.q = false → c.q = false → checkCauses p.val c s = 0 → Runs (.capExchange p c) s (reporting [.lanes, .pln, .lsh]) fun t =>
      let best := fastest (commonRates p.val c s)
      (lane p.val t).target = best ∧ (lane p.val t).rate = l.rate ∧ (best = l.rate → (lane p.val t).state = 4 ∧ Latched (pgPort p.val) 0 t) ∧
      (best ≠ l.rate → (lane p.val t).state = 3 ∧ (lane p.val t).stepOp = if isLeader p.val s then 1 else 0))

/-- R235, R240, R244–R246: what takes a port out of service or back. A trial that is not confirmed falls to the next lower rate; RESTART, MAXRATE on an up port, a timed-out idle exit and REPLAY_FAIL retrain it from hunt at rate code 0 in quarantine, as the loss of signal on cable class 2 does, which is a loss of lock; EIDLE idles an up port after one EIDLE block; signal, the end of LOS or EIDLE = 0 start the exit, whose first block is a CAP. Model's choices: log 10, 22, 82, 83. -/
def Obligations.LanesRetrainStepAndIdle : Prop :=
  ∀ (p : Port) (r : Req) (v : Word) (level : Bool) (s : State),
    let l := lane p.val s
    let all := reporting [.lanes, .pln, .lsh, .rf, .free]
    let hunts (t : State) : Prop :=
      (lane p.val t).state = 1 ∧ (lane p.val t).rate = 0 ∧ (lane p.val t).slock = false ∧ (lane p.val t).block = false ∧ (lane p.val t).kept = [] ∧ (lane p.val t).failed = [] ∧
      (port p.val t).q = true ∧ (port p.val t).streak = 0 ∧ ∀ m, m ≠ p.val → port m t = port m s
    let idles (t : State) : Prop := (lane p.val t).state = 5 ∧ Latched (pgPort p.val) 7 t ∧ .block p.val 0x40 l.txSeq [0] ∈ t.outbox
    let leaves (t : State) : Prop := (lane p.val t).state = 6 ∧ (lane p.val t).block = false ∧ (lane p.val t).exitHdrs = 0 ∧ (∃ w, (lane p.val t).lead = some ⟨0x16, w⟩) ∧ .burst p.val ∈ t.outbox
    (l.state = 3 → l.switched = true → l.goOk = false → l.okRate = none → (l.rate :: l.failed).count 0 < 2 → Runs (.stepTimeout p) s all fun t =>
      (lane p.val t).rate = nextLower p.val l.rate ∧ (lane p.val t).failed = l.rate :: l.failed ∧ (lane p.val t).state = 3 ∧ (lane p.val t).block = false ∧ .burst p.val ∈ t.outbox) ∧
    (l.state = 6 → Runs (.eidleExitTimeout p) s all hunts) ∧
    (l.state ≠ 0 → Runs (.replayFailReceive p) s all fun t => hunts t ∧ Latched (pgPort p.val) 5 t) ∧
    (l.state = 0 → Runs (.replayFailReceive p) s [] fun t => t = s) ∧
    (isCP p.val = true → (portPlan p.val s).use ≠ 0 → (portPlan p.val s).cls = 2 →
      (level ≠ wbit (portCtrl p.val s) 4 → l.state ≠ 5 → l.eidleRx = false → l.block = true → Runs (.losInput p level) s all fun t =>
        hunts t ∧ (lane p.val t).los = true ∧ (lane p.val t).lockloss = (l.lockloss + 1) % 256 ∧ Latched (pgPort p.val) 9 t ∧ Latched (pgPort p.val) 1 t) ∧
      (level = wbit (portCtrl p.val s) 4 → l.state = 5 → Runs (.losInput p level) s all fun t => leaves t ∧ (lane p.val t).los = false)) ∧
    (l.state = 5 → Runs (.signalDetect p) s all leaves) ∧
    (l.state = 4 → Runs (.eidleReceive p) s all idles) ∧
    ((page (pgPort p.val) s).freeze = false →
      (l.state = 4 → Runs (.eidleEnterRequest r p) s all fun t => idles t ∧ wbit (portCtrl p.val t) 6 = true) ∧
      (l.state = 5 → Runs (.eidleExitRequest r p) s all fun t => leaves t ∧ wbit (portCtrl p.val t) 6 = false) ∧
      ((portPlan p.val s).use ≠ 0 → Runs (.portRestart r p) s all hunts) ∧
      (l.state = 4 → Runs (.maxrateWrite r p v) s all fun t => hunts t ∧ wbits (portCtrl p.val t) 0 3 = v.toNat % 8))

/-- R227–R233, R237, R239, R279: blocks. A slot is read under the lane's running disparity; a block in order is accepted, one whose CRC does not match is discarded, counted and asked for again from the expected number on; a REPLAY resends every replayable block from the named one on, the first with R, or fails where it is no longer held; an urgent block goes out ahead of all others, and an empty port sends IDLE, its pairs from the idle generator, each under the next number and as code-groups under the lane's running disparity; trim moves peaking one step, but not away from the reference on idle blocks. Model's choices: log 22, 23, 46, 64, 75, 82. -/
def Obligations.LanesSendTakeAndReplayBlocks : Prop :=
  ∀ (p : Port) (r : RxSlot) (x : TxBlk) (xs : List TxBlk) (n m : Nat) (dir : Int) (s : State),
    let l := lane p.val s
    let b := (readSlot r l).1
    let wanted := (sentAs l.txN n).getD 0
    let want := (clampInt 0 15 ((l.peakCur : Int) + clampInt (-1) 1 dir)).toNat
    let others (t : State) : Prop := ∀ k, k ≠ p.val → lane k t = lane k s
    (1 ≤ l.state → l.state ≤ 4 → l.slock = true → l.block = true → b.cvBurst = false → headerValid b = true → l.rxSeq = some n → (n + 1) % 256 = b.seq → l.missing = none → (elastic b l).2 = false →
      (b.typ = 0 → Runs (.blockReceive p r) s [.lanes] fun t =>
        (lane p.val t).rxSeq = some b.seq ∧ (lane p.val t).idleRx = true ∧ (lane p.val t).rxblk = l.rxblk ∧ (lane p.val t).crc = l.crc ∧ (lane p.val t).rxRd = (readSlot r l).2.rxRd ∧ others t) ∧
      (typeReplayable b.typ = true → b.crc = crc32 (crcBytes b.typ b.seq b.words) → Runs (.blockReceive p r) s (reporting [.lanes]) fun t =>
        (lane p.val t).rxSeq = some b.seq ∧ (lane p.val t).idleRx = false ∧ (lane p.val t).rxblk = l.rxblk + 1 ∧ (lane p.val t).crc = l.crc ∧ (lane p.val t).missing = none) ∧
      (typeReplayable b.typ = true → b.crc ≠ crc32 (crcBytes b.typ b.seq b.words) → (l.discards.filter fun t => s.tim.up ≤ t + 1000000).length < 15 → Runs (.blockReceive p r) s [.lanes] fun t =>
        (lane p.val t).crc = (l.crc + 1) % 65536 ∧ (lane p.val t).replays = (l.replays + 1) % 65536 ∧ (lane p.val t).missing = some b.seq ∧ (lane p.val t).rxblk = l.rxblk ∧
        (lane p.val t).urgent = l.urgent ++ [(ctrlBlk 0 125 0x01 b.seq 0 [] s).toTx] ∧ others t)) ∧
    (l.state ≠ 0 → l.state ≠ 5 →
      (l.kept.length < 128 → Runs (.replayReceive p n) s [.lanes] (Becomes lane p.val
        { l with resend := ((l.kept.filter fun k => wanted ≤ k.1).map (·.2)).reverse, resendFirst := true } s)) ∧
      (l.kept.length = 128 → l.kept.getLast? = some (m, x) → wanted < m → Runs (.replayReceive p n) s (reporting [.lanes, .pln, .lsh]) fun t =>
        (lane p.val t).state = 1 ∧ (port p.val t).q = true ∧ Latched (pgPort p.val) 5 t) ∧
      (l.lead = none → l.urgent = x :: xs → x.typ ≠ 0x16 → Runs (.blockSlotSend p) s (reporting [.lanes]) fun t =>
        .block p.val x.typ l.txSeq x.words ∈ t.outbox ∧ .line p.val (encSyms l.txRd (blockSyms x.typ l.txSeq x.words l.prbs7).1).1 ∈ t.outbox ∧
        (lane p.val t).urgent = xs ∧ (lane p.val t).txSeq = (l.txSeq + 1) % 256 ∧ (lane p.val t).txN = l.txN + 1 ∧
        (lane p.val t).kept = (if typeReplayable x.typ then ((l.txN, x) :: l.kept).take 128 else l.kept) ∧ others t) ∧
      (l.lead = none → l.urgent = [] → l.resend = [] → l.ctl = [] → l.strA = [] → l.strB = [] → l.strC = [] → Runs (.blockSlotSend p) s (reporting [.lanes]) fun t =>
        let y := blockSyms 0 l.txSeq [] l.prbs7
        let rd := (encSyms l.txRd y.1).2
        .block p.val 0 l.txSeq [] ∈ t.outbox ∧ .line p.val (encSyms l.txRd y.1).1 ∈ t.outbox ∧
        Becomes lane p.val { l with
          txSeq := (l.txSeq + 1) % 256, txN := l.txN + 1, slot := (l.slot + 1) % 20, skip := (l.skip + 1) % 20, prbs7 := y.2,
          txRd := if l.skip = 19 then (encSyms rd skipSyms).2 else rd } s t)) ∧
    (wbit (portCtrl p.val s) 5 = false → l.state ≠ 0 → l.state ≠ 5 → want ≠ l.peakCur →
      (l.idleRx = false → Runs (.peakTrimTick p dir) s [.lanes] (Becomes lane p.val { l with peakCur := want } s)) ∧
      (l.idleRx = true → (want + 2 < l.peakRef ∨ l.peakRef + 2 < want) → Runs (.peakTrimTick p dir) s (reporting [.lanes]) (Becomes lane p.val { l with wg := true, wander := (l.wander + 1) % 256 } s)))

/-- R251, R252: a BREAK that a member receives makes the hop known broken, counted and raised once; a RESTORE ends that and the member's wrap; the west or upstream member of a hop whose port is up announces its restoration. Other rings are untouched. Model's choices: log 18. -/
def Obligations.RingsKnowBrokenAndRestoredHops : Prop :=
  ∀ (p : Port) (ring : Fin 16) (hop : Nat) (s : State),
    let x := ringSt ring.val s
    let others (t : State) : Prop := ∀ k, k ≠ ring.val → ringSt k t = ringSt k s
    let restored (t : State) : Prop :=
      Becomes ringSt ring.val { x with broken := x.broken.filter (· ≠ hop), wraps := x.wraps.filter (· ≠ hop) } s t ∧ Latched pgLSH 8 t ∧
      t.lsh.svcState = if s.lsh.svcState = 3 then 4 else s.lsh.svcState
    (x.broken.contains hop = false → Runs (.breakReceive p ring hop) s (reporting [.lanes, .lsh]) fun t =>
      ringSt ring.val t = { x with broken := x.broken ++ [hop], breaks := (x.breaks + 1) % 256 } ∧ others t ∧ Latched pgLSH 7 t ∧ (x.broken.length = 1 → Latched pgLSH 9 t)) ∧
    (x.broken.contains hop = true → Runs (.breakReceive p ring hop) s [.lanes] fun t => ringSt ring.val t = x ∧ others t) ∧
    (x.broken.contains hop = true → Runs (.restoreReceive p ring hop) s (reporting [.lanes, .lsh]) restored) ∧
    (x.broken.contains hop = true → (lane p.val s).state = 4 →
      ((List.range 24).find? fun p => match portHop p s with | some (r, h) => decide (r.key = ring.val) && decide (h = hop) && facesEast p s | none => false) = some p.val →
      Runs (.hopRestoreTimer ring hop) s (reporting [.lanes, .lsh]) restored)

/-- R267: replacing a worker. The holder sets the stop instant and reads removing, or refuses with its code and changes nothing else; CANCEL ends it before the hops are broken; with every contract acknowledged it raises DRAINED and reads out; the replacement's first record ends it, its sources no longer absent. A worker keeps the stop instant it is given until it is called back. Model's choices: log 18, 19, 21. -/
def Obligations.RingsReplaceAWorker : Prop :=
  ∀ (r : Req) (sec : Nat) (s : State),
    let hub := (rfGet 0xA078 s).toNat % 128
    let err := if isHolder s = false then 4 else if (ringSt (workerRing hub) s).broken ≠ [] then 1 else if s.lsh.svcState ≠ 0 then 2 else if assigned hub s = false then 3 else 0
    let all := reporting [.lanes, .lsh, .del, .srv]
    ((page pgLSH s).freeze = false →
      (err = 0 → Runs (.remove r) s [.lanes, .lsh] fun t =>
        t.lsh.svcErr = 0 ∧ t.lsh.svcState = 1 ∧ t.lsh.svcHub = hub ∧ t.lsh.svcTx = (if s.tim.ns = 0 then s.tim.sec + 2 else s.tim.sec + 3)) ∧
      (err ≠ 0 → Runs (.remove r) s [.lsh] fun t => t.lsh = { s.lsh with svcErr := err }) ∧
      (isHolder s = true → (s.lsh.svcState = 1 ∨ s.lsh.svcState = 2) → Runs (.removeCancel r) s [.lanes, .lsh] fun t => t.lsh.svcState = 0 ∧ t.lsh.svcHub = s.lsh.svcHub)) ∧
    (isHolder s = true → s.lsh.svcState = 1 → Runs .removalDrained s all fun t => t.lsh.svcState = 3 ∧ t.lsh.lrole = 1 ∧ Latched pgLSH 10 t) ∧
    (isHolder s = true → (s.lsh.svcState = 3 ∨ s.lsh.svcState = 4) → Runs .removalRejoin s all fun t =>
      t.lsh.svcState = 0 ∧ Latched pgLSH 11 t ∧ ∀ i ∈ t.del.ins, i.dev = mySeg s * 128 + s.lsh.svcHub → i.absent = false) ∧
    Runs (.svcReceive (.stopAt sec)) s [.lsh] (fun t => t.lsh = { s.lsh with stopAt := some sec }) ∧
    (s.lsh.stopped = false → Runs (.svcReceive .cancel) s [.lsh] fun t => t.lsh = { s.lsh with stopAt := none }) ∧
    Runs .removalCancelReturn s [.lsh] (fun t => t.lsh = { s.lsh with stopAt := none, stopped := false })

/-- R257–R263, R265: the Leash. The holder renews under the next number, to its partner among others; an acknowledged renewal runs the lease from its sending instant, and the lease ends in LAPSE; a renewal of the partner is seen and a higher term fences, and a unit that has not had the pair's state since power-on asks for it; a unit that has seen none for P + 1 ms requests; the referee records, grants the highest term plus 1, or holds and then refuses; a grant gives the term, the holder's role and TAKEOVER. Model's choices: log 18, 19, 20. -/
def Obligations.LeashRenewsLapsesAndIsGranted : Prop :=
  ∀ (r : Req) (seg hub term num since : Nat) (v : Word) (s : State),
    let all := reporting [.lanes, .lsh, .srv]
    let took (term : Nat) (t : State) : Prop :=
      t.lsh.lrole = 1 ∧ t.lsh.term = term ∧ t.lsh.req = false ∧ t.lsh.takeovers = (s.lsh.takeovers + 1) % 65536 ∧ t.lsh.sinceAt = some s.tim.up ∧ Latched pgLSH 0 t ∧
      ∀ i ∈ t.del.ins, i.dev ≠ myDev s → i.cap = .takeover
    let counted (ref : Bool) (t : State) : Prop := t.lsh = { s.lsh with
      sinceAt := some (max since (s.lsh.sinceAt.getD 0)), sentAt := s.lsh.sentAt.filter fun x => since < x.2, refAt := if ref then some s.tim.up else s.lsh.refAt }
    let base := if s.lsh.lrole ≠ 3 ∧ s.lsh.term < term then 2 else s.lsh.lrole
    let rec_ := pairRec seg s
    let requested (t : State) : Prop := t.lsh = { s.lsh with req := true } ∧ (isHead s = true → s.lsh.req = false → Latched pgLSH 13 t)
    let granted (t : State) : Prop := pairRec seg t = (seg, 128, rec_.2.2.1, rec_.2.2.2 + 1) ∧ (∀ h, (seg, h) ∉ t.lsh.open_) ∧ ∀ k, k ≠ seg → pairRec k t = pairRec k s
    (isHolder s = true → Runs .renewTimer s [.lanes, .lsh] fun t =>
      t.lsh = { s.lsh with renew := (s.lsh.renew + 1) % 2 ^ 32, period := ctrlPeriod s, perAt := none, renewAt := some s.tim.up, sentAt := s.lsh.sentAt ++ [((s.lsh.renew + 1) % 2 ^ 32, s.tim.up)] } ∧
      ∀ p ∈ duplexPorts s, (leashBlk (mySeg s) (partnerHub s) 0x12 s.lsh.term ((s.lsh.renew + 1) % 2 ^ 32) s).toTx ∈ (lane p t).ctl) ∧
    (isHolder s = true → s.lsh.sentAt.find? (·.1 = num) = some (num, since) → ∀ ref, Runs (.renewAckReceive ⟨num, ref⟩) s [.lsh] (counted ref)) ∧
    (isManager s = true → seg = mySeg s → s.lsh.term ≤ term → Runs (.renewReceive seg hub term num) s all fun t =>
      t.lsh.term = term ∧ t.lsh.renew = num ∧ t.lsh.sinceAt = some s.tim.up ∧ t.lsh.req = false ∧
      (s.lsh.term < term → Latched pgLSH 12 t) ∧ t.lsh.lrole = (if base = 2 ∨ base = 4 then (if s.lsh.synced then 2 else 3) else base) ∧
      (t.lsh.lrole = 3 → (s.lsh.lrole ≠ 3 ∨ s.lsh.term < term) → ∀ p ∈ duplexPorts s, (leashBlk (mySeg s) (partnerHub s) 0x1A term t.lsh.jseq s).toTx ∈ (lane p t).ctl)) ∧
    (isHead s = true → isHolder s = true →
      (seg ≠ mySeg s → Runs (.renewReceive seg hub term num) s all fun t => pairRec seg t = (seg, hub, s.tim.up, max rec_.2.2.2 term)) ∧
      (mayGrant seg hub s = true → Runs (.grantReqReceive seg hub) s all granted) ∧
      (mayGrant seg hub s = false → Runs (.grantReqReceive seg hub) s [.lsh] fun t => t.lsh = { s.lsh with open_ := (seg, hub) :: s.lsh.open_.filter (·.1 ≠ seg) })) ∧
    (s.lsh.open_.find? (·.1 = seg) = some (seg, hub) →
      (mayGrant seg hub s = true → Runs (.grantReqHoldExpiry seg) s all granted) ∧
      (mayGrant seg hub s = false → Runs (.grantReqHoldExpiry seg) s [.lanes, .lsh] fun t => t.lsh = { s.lsh with open_ := s.lsh.open_.filter (·.1 ≠ seg) })) ∧
    ((s.lsh.lrole = 2 ∨ s.lsh.lrole = 4) → renewalOverdue s = true → (isHead s = false ∨ fixedHolder s = false) → Runs .grantReqTimer s all requested) ∧
    (isManager s = true → (isHead s = false ∨ fixedHolder s = false) →
      (s.lsh.lrole = 4 → Runs .leashInitialRequest s all requested) ∧
      (s.lsh.lrole = 3 → renewalOverdue s = true → Runs .leashInitialRequest s all fun t => t.lsh = { s.lsh with req := true, lrole := 4, snap := false })) ∧
    (isManager s = true →
      (s.lsh.lrole ≠ 3 → Runs (.grantReceive term) s ([Area.pwr] ++ all) (took term)) ∧
      Runs .refuseReceive s all fun t => t.lsh = { s.lsh with req := false, refusals := (s.lsh.refusals + 1) % 256, refAt := some s.tim.up } ∧ Latched pgLSH 2 t) ∧
    ((page pgLSH s).freeze = false → isHead s = true → fixedHolder s = false →
      (isHolder s = true → v.toNat = s.lsh.renew → s.lsh.sentAt.find? (·.1 = v.toNat) = some (v.toNat, since) → Runs (.refAckWrite r v) s [.lsh] (counted true)) ∧
      (v = 1 → s.lsh.lrole ≠ 1 → s.lsh.lrole ≠ 3 → renewalOverdue s = true → Runs (.refGrantWrite r v) s ([Area.pwr] ++ all) (took (s.lsh.term + 1)))) ∧
    (isHolder s = true → isHead s = false → s.lsh.sinceAt = some since → periodNs s ≤ s.tim.up - since → s.fwl.state ≠ 4 → s.fwl.state ≠ 5 → Runs .leaseExpiry s all fun t =>
      t.lsh = { s.lsh with lrole := 4, lapses := (s.lsh.lapses + 1) % 256, hoPend := false } ∧ Latched pgLSH 1 t)

/-- R257, R264, R265: handoff and journal. HANDOFF on the holder is pending until its partner is current; then its held duties stop and YIELD goes out; a timeout cancels it with detail 1; YIELD reaches the partner or the referee, which grants at once. A journal entry in order applies and is acknowledged, one already seen is acknowledged again, one beyond a gap makes the unit resynchronise; a resyncing unit takes the snapshot from its first entry on, and its last makes it a current standby; the holder answers a request with the snapshot of its journalled state. Model's choices: log 18, 19, 20. -/
def Obligations.LeashHandoffAndJournal : Prop :=
  ∀ (r : Req) (seg hub term jnum num : Nat) (s : State),
    let all := reporting [.lanes, .lsh, .srv]
    let acked (n : Nat) (t : State) : Prop := ∀ p ∈ duplexPorts s, (leashBlk (mySeg s) (partnerHub s) 0x19 term n s).toTx ∈ (lane p t).ctl
    ((page pgLSH s).freeze = false → granted 6 r s = true → isHolder s = true → Runs (.handoff r) s [.lsh] fun t => t.lsh = { s.lsh with hoPend := true }) ∧
    (s.lsh.hoPend = true → isHolder s = true → Runs .handoffProceed s all fun t =>
      t.lsh = { s.lsh with hoPend := false, lrole := 2, handoff := true, sinceAt := some s.tim.up } ∧ (isHead s = true → s.srv.state = 5 → t.srv.state = 3)) ∧
    (s.lsh.hoPend = true → Runs .handoffTimeout s all fun t => t.lsh.hoPend = false ∧ t.lsh.lrole = s.lsh.lrole ∧ Latched pgLSH 6 t ∧
      (isManager s = true → isHolder s = true → duplexPorts s ≠ [] → t.lsh.jout = s.lsh.jout ++ [((s.lsh.jseq + 1) % 2 ^ 32, .handoffOff)])) ∧
    (isManager s = true → seg = mySeg s → Runs (.yieldReceive seg hub term jnum) s all fun t => t.lsh = { s.lsh with handoff := true, current := decide (s.lsh.jseq = jnum) || s.lsh.current }) ∧
    (isHead s = true → isHolder s = true → seg ≠ mySeg s → Runs (.yieldReceive seg hub term jnum) s all fun t =>
      pairRec seg t = (seg, 128, (pairRec seg s).2.2.1, max (pairRec seg s).2.2.2 term + 1)) ∧
    (isManager s = true → isHolder s = false → term = s.lsh.term →
      (s.lsh.lrole ≠ 3 → s.lsh.synced = true → num = (s.lsh.jseq + 1) % 2 ^ 32 →
        let took : Lsh := { s.lsh with jseq := num, current := decide (s.lsh.lrole = 2) }
        Runs (.journalReceive term num (.actSec (some seg))) s ([.lanes, .lsh, .pln]) (fun t => t.pln = { s.pln with armed := some seg } ∧ t.lsh = took ∧ acked num t) ∧
        Runs (.journalReceive term num (.service 1 hub seg)) s ([.lanes, .lsh]) (fun t => t.lsh = { took with svcState := 1, svcHub := hub, svcTx := seg } ∧ acked num t) ∧
        Runs (.journalReceive term num .handoffOff) s all fun t => t.lsh = took ∧ acked num t ∧ Latched pgLSH 6 t) ∧
      (s.lsh.lrole ≠ 3 → s.lsh.synced = true → num ≠ (s.lsh.jseq + 1) % 2 ^ 32 → num ≤ s.lsh.jseq → Runs (.journalReceive term num .synced) s [.lanes] (acked num)) ∧
      (s.lsh.lrole ≠ 3 → (s.lsh.synced = false ∨ (num ≠ (s.lsh.jseq + 1) % 2 ^ 32 ∧ s.lsh.jseq < num)) → Runs (.journalReceive term num .synced) s [.lanes, .lsh, .pages] fun t =>
        t.lsh = { s.lsh with lrole := 3, current := false, snap := false } ∧ ∀ p ∈ duplexPorts s, (leashBlk (mySeg s) (partnerHub s) 0x1A s.lsh.term s.lsh.jseq s).toTx ∈ (lane p t).ctl) ∧
      (s.lsh.lrole = 3 → Runs (.journalReceive term num .snapshot) s [.lanes, .lsh] fun t => t.lsh = { s.lsh with jseq := num, current := false, snap := true } ∧ acked num t) ∧
      (s.lsh.lrole = 3 → s.lsh.snap = false → Runs (.journalReceive term num .synced) s [] fun t => t = s) ∧
      (s.lsh.lrole = 3 → s.lsh.snap = true → num = (s.lsh.jseq + 1) % 2 ^ 32 → Runs (.journalReceive term num .synced) s all fun t =>
        t.lsh = { s.lsh with jseq := num, lrole := 2, current := true, synced := true, snap := false } ∧ Latched pgLSH 5 t)) ∧
    Runs (.journalAckReceive num) s [.lsh] (fun t => t.lsh = { s.lsh with jout := s.lsh.jout.filter fun x => num < x.1 }) ∧
    (isManager s = true → isHolder s = true → duplexPorts s ≠ [] → Runs .resyncReqReceive s [.lanes, .lsh] fun t =>
      t.lsh.jseq = (s.lsh.jseq + (snapshotOf s).length) % 2 ^ 32 ∧ t.lsh.jout.map (·.2) = s.lsh.jout.map (·.2) ++ snapshotOf s)

/-- R196–R200, R205–R207, R214: the servo of a hub that is not the head's holder. The first measurement sets the clock to the source's; later ones give the rate terms of R198 and R199, and the lock rule of R200 counts them; beyond 1 ms in service an epoch is requested, once until one is announced. Without a usable source it holds over on its integral term, or free runs; a preferred port is taken again; gains below KP + 2 are refused; a lost forwarded clock loses the lock. Model's choices: log 12, 13, 15, 16, 70. -/
def Obligations.TimeServoFollowsItsSource : Prop :=
  ∀ (p : Port) (r : Req) (v : Word) (e2 d : Int) (s : State),
    let k := mark p.val s
    let at_ (u : Int) (t : State) : Prop := t.tim.sec = u.toNat / 2 ^ 32 / 1000000000 % 2 ^ 64 ∧ t.tim.ns = u.toNat / 2 ^ 32 % 1000000000 ∧ t.tim.frac = u.toNat % 2 ^ 32
    let out := reporting [.tim, .srv, .lanes, .pwr]
    (wbit (srvCtrl s) 7 = true → Runs .servoMeasurement s [.srv] fun t => t.srv = { s.srv with y := s.srv.i }) ∧
    (wbit (srvCtrl s) 7 = false → (isHead s = false ∨ isHolder s = false) → s.srv.src = p.val → usable p.val s = true → k.pstate ≠ 3 → k.theta2 = some (e2, d) →
      (s.srv.state = 0 → Runs .servoMeasurement s out fun t =>
        at_ (clockUnits s - e2 * 2 ^ 24) t ∧ t.tim.epoch = k.pepoch ∧ t.tim.set = true ∧ t.srv.state = 1 ∧ t.srv.offset = e2.fdiv 2 ∧ (s.tim.set = false → Latched pgTIM 0 t)) ∧
      ((s.srv.state = 1 ∨ s.srv.state = 2) → s.tim.inserv = true → k.pepoch ≤ s.tim.epoch →
        let g := gainsOf (if isCP p.val then 1 else 0) s
        let y := servoTerms e2 (measPeriod p.val) g.1 g.2 s.srv.i
        (e2.natAbs ≤ 256000000 → Runs .servoMeasurement s out fun t =>
          t.srv.y = y.1 ∧ t.srv.i = y.2 ∧ t.tim = { s.tim with heldOff := none } ∧ t.srv.lockcnt = (if e2.natAbs < 2560 then satAdd 255 s.srv.lockcnt 1 else 0) ∧
          (s.srv.state = 1 → (t.srv.state = 2 ↔ 16 ≤ t.srv.lockcnt) ∧ (t.srv.state = 2 → Latched pgSRV 0 t)) ∧
          (s.srv.state = 2 → (t.srv.state = 1 ↔ 25600 < e2.natAbs ∧ 3 ≤ s.srv.farcnt) ∧ (t.srv.state = 1 → Latched pgSRV 1 t))) ∧
        (256000000 < e2.natAbs → epochFull s = false → Runs .servoMeasurement s out fun t =>
          t.tim = { s.tim with epReq := s.tim.epReq || s.tim.ann.isNone, heldOff := some e2 } ∧ t.srv.i = s.srv.i ∧ (s.tim.epReq = false → s.tim.ann = none → Latched pgTIM 4 t)))) ∧
    ((s.srv.state = 1 ∨ s.srv.state = 2) → s.srv.src = p.val → bestSource (modMark p.val (fun m => { m with run := 0 }) s) = none → Runs .sourceLossTimer s out fun t =>
      t.srv.state = 3 ∧ t.srv.src = 31 ∧ t.srv.hops = (if isHead s = true ∧ isHolder s = true then 0 else 255) ∧ t.srv.y = s.srv.i ∧ t.srv.i = s.srv.i ∧ Latched pgSRV 2 t) ∧
    (s.tim.set = false → isHead s = false → bestSource s = none → Runs .freeRunTimer s out fun t =>
      t.tim = { s.tim with epoch := 0, set := true } ∧ t.srv = { s.srv with state := 4, src := 26, y := s.srv.i } ∧ Latched pgTIM 0 t) ∧
    (usable p.val s = true → (candidates s).contains p.val = true → s.srv.src ≠ p.val → (24 ≤ s.srv.src ∨ sourceRank p.val s < sourceRank s.srv.src s) → Runs (.prefReturnTimer p) s out fun t =>
      t.srv.src = p.val ∧ t.srv.hops = min 255 (k.phops + 1) ∧ t.srv.state = s.srv.state ∧ (s.srv.src < 24 → t.srv.switches = (s.srv.switches + 1) % 256 ∧ Latched pgSRV 3 t)) ∧
    (isCP p.val = false → (portPlan p.val s).use ≠ 0 → (lane p.val s).block = true → (lane p.val s).state ≠ 5 → Runs (.fclkAbsent p) s ([Area.pln, Area.lsh] ++ out) fun t =>
      (lane p.val t).fclk = false ∧ (lane p.val t).state = 1 ∧ (lane p.val t).block = false ∧ Latched (pgPort p.val) 10 t ∧ Latched (pgPort p.val) 1 t ∧
      (s.srv.src = p.val → s.srv.fwdClk = true → t.srv.fwdClk = false ∧ t.srv.y = s.srv.i)) ∧
    (s.pln.active ≠ none → (originates s = true → released s = true) → (originates s = false → s.tim.ns % 100000000 = 0) → s.tim.inserv = false → s.tim.set = true → Runs .inService s out fun t =>
      t.tim = { s.tim with inserv := true } ∧ Latched pgTIM 1 t ∧ (s.pwr.state = 0 → t.pwr.state = 1)) ∧
    ((page pgSRV s).freeze = false →
      let low := wbits v 24 4 < wbits v 28 4 + 2 ∨ wbits v 16 4 < wbits v 20 4 + 2 ∨ wbits v 8 4 < wbits v 12 4 + 2
      (¬ low → Runs (.srvGainsWrite r v) s [.srv] fun t => t.srv = { s.srv with gains := v &&& 0xFFFFFF00 }) ∧ (low → Runs (.srvGainsWrite r v) s [] fun t => t = s))

/-- R201–R205, R208–R210, R217: markers and closure. A marker goes out under the next number with its own transmit stamp and the partner's latest stamp echoed; one received gives, with the stamp it echoes, twice the offset and twice the delay; a higher epoch of a usable source leads to adoption, a lower one is raised. A node reports its hop's means over the round; the upstream manager closes a full round, waits while it is suspended, and refuses an asymmetry beyond its limit. Model's choices: log 12, 16, 70, 78. -/
def Obligations.TimeMarkersMeasureAndRingsClose : Prop :=
  ∀ (p q : Port) (kind : Fin 2) (num : Fin 8) (seq ph hop : Nat) (m : Marker) (t0 : Nat) (th d asym delta : Int) (r : RingPlan) (s : State),
    let l := lane p.val s
    let k := mark p.val s
    let tx := stamp128 s + FMap.get (fun _ => 0) s.fuse.txLat (p.val * 8 + l.rate)
    let rx : Int := (stamp128 s : Int) - (l.fill * 1280000 / rateMbaud l.rate : Nat) - ph - (FMap.get (fun _ => 0) s.fuse.rxLat (p.val * 8 + l.rate) : Nat)
    let got : Mark := { k with
      last := some (seq, m.tx, rx.toNat), pstate := m.state, phops := m.hops, pepoch := m.epoch,
      run := if 0 < k.run ∧ s.tim.up < k.at_ + 2 * measPeriod p.val then min 3 (k.run + 1) else 1, at_ := s.tim.up, fill := l.fill, ph := ph }
    let echo : Marker := {
      tx := tx, rx := hop, echoSeq := seq, echoV := true, epoch := s.tim.epoch, hops := s.srv.hops, state := s.srv.state, req := s.tim.epReq,
      ep := s.tim.ann, theta := th.fdiv 2, delay := d.fdiv 2, asym := k.asym }
    let out := reporting [.tim, .srv, .lanes]
    let ring : Fin 16 := ⟨kind.val * 8 + num.val, by omega⟩
    let n := ring.val
    let c := clos n s
    (l.state ≠ 0 → l.state ≠ 5 → k.theta2 = some (th, d) → k.last = some (seq, t0, hop) → (isHead s = false ∨ isHolder s = false) → Runs (.timeMarkerSend p) s [.srv, .lanes, .outbox] fun t =>
      Becomes mark p.val { k with sent := ((l.txSeq, tx) :: k.sent).take 16 } s t ∧ (lane p.val t).txSeq = (l.txSeq + 1) % 256 ∧ .block p.val 0x25 l.txSeq echo.words ∈ t.outbox) ∧
    Runs (.timeMarkerReceive p seq m false ph) s [] (fun t => t = s) ∧
    (m.ep = none →
      (m.echoV = true → k.sent.find? (·.1 = m.echoSeq) = some (m.echoSeq, t0) → m.epoch = s.tim.epoch → Runs (.timeMarkerReceive p seq m true ph) s out fun t =>
        let there : Int := rx - m.tx
        let back : Int := (m.rx : Int) - t0
        let theta2 := there - back - (if isLeader p.val s then -k.asym else k.asym)
        Becomes mark p.val { got with theta2 := some (theta2, there + back), sumT := k.sumT + theta2, sumD := k.sumD + (there + back), sets := k.sets + 1 } s t ∧ t.tim = s.tim) ∧
      (m.echoV = false → m.epoch < s.tim.epoch → (candidates s).contains p.val = true → condOn pgTIM 5 p.val s = false → Runs (.timeMarkerReceive p seq m true ph) s out fun t =>
        Becomes mark p.val got s t ∧ Latched pgTIM 5 t ∧ t.tim = s.tim) ∧
      (m.echoV = false → s.tim.epoch < m.epoch → (candidates s).contains p.val = true → s.tim.inserv = true → (portPlan p.val s).use ≠ 0 → (port p.val s).q = false → l.block = true → l.state < 5 →
        (m.state = 1 ∨ m.state = 2 ∨ m.state = 3 ∨ m.state = 5) → 2 ≤ k.run → s.tim.up < k.at_ + 2 * measPeriod p.val → Runs (.timeMarkerReceive p seq m true ph) s out fun t =>
        Becomes mark p.val got s t ∧ t.tim = { s.tim with adopt := some m.epoch, adoptPort := p.val })) ∧
    (closRing n s = some r → myPlace r s = some 0 → wbit (srvCtrl s) 6 = true →
      let hops := hopList r
      let theta (j : Nat) : Int := ((FMap.get (fun _ => none) c.hops j).getD (0, 0)).1
      let ec := sumInt (hops.map theta) - delta
      (((ringSt r.key s).broken ≠ [] ∨ (s.srv.state ≠ 2 ∧ s.srv.state ≠ 5) ∨ s.lsh.req = true ∨ s.lsh.handoff = true) →
        Runs (.closureRound kind num) s [.srv, .pages] (Becomes clos n { c with run := true, susp := true, hops := [], dupBase := duplexSum s } s)) ∧
      (closReady r s = true → roundDelta n s = some delta → (∀ j ∈ hops, FMap.get (fun _ => none) c.hops j ≠ none) →
        ((∀ a ∈ closAlpha hops c ec, a.2.natAbs ≤ 6400) → Runs (.closureRound kind num) s (reporting [.srv, .lanes, .pwr]) fun t =>
          let good := if ec.natAbs ≤ 128 then c.good + 1 else 0
          (clos n t).ec = ec ∧ (clos n t).rounds = (c.rounds + 1) % 65536 ∧ (clos n t).good = good ∧ (clos n t).done = decide (2 ≤ good) ∧ (clos n t).susp = false ∧ (clos n t).hops = [] ∧
          (clos n t).dupBase = duplexSum s ∧ (2 ≤ good → c.done = false → Latched pgSRV 4 t) ∧ ∀ j, j ≠ n → clos j t = clos j s) ∧
        (∀ a, (closAlpha hops c ec).find? (fun a => 6400 < a.2.natAbs) = some a → Runs (.closureRound kind num) s (reporting [.srv]) fun t =>
          let near := decide (ec.natAbs ≤ 128)
          Becomes clos n { c with run := true, susp := false, ec := ec, hops := [], dupBase := duplexSum s, good := if near then c.good else 0, done := c.done && near } s t ∧ Latched pgSRV 5 t))) ∧
    (closRing n s = some r → myPlace r s = some (hop + 1) → hop + 2 ≠ r.members.length → ringPort n false s = some q.val → Runs (.closureRound kind num) s (reporting [.srv, .lanes, .pwr]) fun t =>
      (clos n t).base = ((mark q.val s).sumT, (mark q.val s).sumD, (mark q.val s).sets) ∧
      (s.srv.state = 2 → (mark q.val s).isNew = false → (clos n t).good = c.good + 1 ∧ (clos n t).done = decide (1 ≤ c.good)) ∧ ∀ j, j ≠ n → clos j t = clos j s) ∧
    Runs (.closReportReceive ring hop th d) s [.srv] (fun t => FMap.get (fun _ => none) (clos n t).hops hop = some (th, d) ∧
      (∀ j, j ≠ hop → FMap.get (fun _ => none) (clos n t).hops j = FMap.get (fun _ => none) c.hops j) ∧ (clos n t).alpha = c.alpha ∧ ∀ j, j ≠ n → clos j t = clos j s) ∧
    Runs (.closAsymReceive p asym) s [.srv] (Becomes mark p.val { k with asym := asym, isNew := false } s)

/-- R211–R218, R220, R221, R501: time of day, the pulses and the epochs. A time of day is refused with its code or applied: stepped to before service, slewed within 1 ms, announced as a new epoch beyond; the third well-spaced pulse qualifies PPS_IN, and its loss is raised and ends the source of a head that lives on it; PPS_OUT marks whole seconds in service for its width. An announcement is held, one of a known epoch ignored, one whose instant has passed adopted; the head answers a request with one; at its instant the epoch is taken. Model's choices: log 13, 14, 15, 17, 18, 70. -/
def Obligations.TimeOfDayPulsesAndEpochs : Prop :=
  ∀ (r : Req) (rising : Bool) (a b : EpAnn) (n : Nat) (s : State),
    let t0 := now s
    let at_ (u : Int) (t : State) : Prop := t.tim.sec = u.toNat / 2 ^ 32 / 1000000000 % 2 ^ 64 ∧ t.tim.ns = u.toNat / 2 ^ 32 % 1000000000 ∧ t.tim.frac = u.toNat % 2 ^ 32
    let out := reporting [.tim, .srv, .lanes, .pwr]
    let outA := reporting [.tim, .srv, .lanes, .pwr, .lsh]
    let tod : Nat := todSec s * 1000000000 + (rfGet 0x307C s).toNat
    let off : Int := (t0.total : Int) - tod
    let te : Stamp := nextGrid t0 10000000
    let second := match s.tim.ppsSec with
      | some k => k + 1
      | none => if s.tim.ns < 500000000 then s.tim.sec else s.tim.sec + 1
    let newEpoch : EpAnn := { next := s.tim.epoch + 1, teSec := te.sec, teNs := te.ns, dSec := 0, dNs := 0 }
    ((page pgTIM s).freeze = false →
      (todErr false s ≠ 0 → Runs (.todApplyNow r) s [.tim] fun t => t.tim = { s.tim with todErr := todErr false s }) ∧
      (todErr false s = 0 →
        (s.tim.inserv = false → Runs (.todApplyNow r) s out fun t => at_ (clockUnits s - off * 2 ^ 32) t ∧ t.tim.set = true ∧ t.tim.todErr = 0 ∧ t.srv.state = 5 ∧ t.srv.hops = 0 ∧ Latched pgTIM 8 t) ∧
        (s.tim.inserv = true → off.natAbs ≤ 1000000 → s.tim.set = true →
          (timSrc s ≠ 1 → Runs (.todApplyNow r) s out fun t => t.tim = { s.tim with todErr := 0, ppsSec := none, slew := off * 2 ^ 32 } ∧ Latched pgTIM 8 t) ∧
          (timSrc s = 1 → Runs (.todApplyNow r) s out fun t =>
            let y := servoTerms (off * 256) 1000000000 (gainsOf 2 s).1 (gainsOf 2 s).2 s.srv.i
            t.tim = { s.tim with todErr := 0, ppsSec := none } ∧ t.srv.y = y.1 ∧ t.srv.i = y.2 ∧ Latched pgTIM 8 t)) ∧
        (s.tim.inserv = true → 1000000 < off.natAbs → Runs (.todApplyNow r) s outA fun t =>
          ∃ x, t.tim.ann = some x ∧ x.next = s.tim.epoch + 1 ∧ x.teSec = te.sec ∧ x.teNs = te.ns ∧ x.delta = -off ∧ t.tim.annTod = true ∧ Latched pgTIM 2 t)) ∧
      (todErr true s = 0 → Runs (.todApplyPps r) s [.tim, .pages] fun t => t.tim = { s.tim with todErr := 0, todPend := true } ∧ (page pgTIM t).gen = (page pgTIM s).gen + 1) ∧
      (todErr true s ≠ 0 → Runs (.todApplyPps r) s [.tim] fun t => t.tim = { s.tim with todErr := todErr true s })) ∧
    (rising ≠ wbit (timCtrl s) 15 →
      (isHead s = false → wbit (timCtrl s) 13 = true → Runs (.ppsInEdge rising) s [.tim] fun t => t.tim = { s.tim with pps := (s.tim.sec, s.tim.ns), ppsOff := secOffset t0 }) ∧
      (isHead s = true → s.tim.ppsAny = true → ((t0.total : Int) - ((s.tim.pps.1 * 1000000000 + s.tim.pps.2 : Nat) : Int) - 1000000000).natAbs ≤ 100000 → s.tim.ppsQ = false → s.tim.ppsRun = 2 → s.tim.todPend = false → timSrc s ≠ 1 →
        Runs (.ppsInEdge rising) s out fun t =>
          t.tim = { s.tim with pps := (s.tim.sec, s.tim.ns), ppsOff := secOffset t0, ppsRun := 3, ppsBad := 0, ppsQ := true, ppsEdges := (s.tim.ppsEdges + 3) % 65536, ppsSec := some second } ∧ Latched pgTIM 7 t)) ∧
    (s.tim.ppsQ = true → Runs .ppsLossTimer s out fun t => t.tim.ppsQ = false ∧ t.tim.ppsLock = false ∧ t.tim.ppsMiss = (s.tim.ppsMiss + 1) % 65536 ∧ Latched pgTIM 6 t ∧
      (timSrc s = 1 → s.srv.state = 5 → t.srv.state = 3 ∧ t.srv.y = s.srv.i ∧ Latched pgSRV 2 t)) ∧
    (s.tim.inserv = true → s.tim.ns ≤ 2 → s.tim.ppsOut = false → wbits (timCtrl s) 16 8 ≠ 0 → (s.srv.state ≠ 3 ∨ wbit (timCtrl s) 14 = true) → Runs .ppsOutEdge s [.tim, .outbox] fun t =>
      t.tim = { s.tim with ppsOut := true, ppsRise := s.tim.up } ∧ t.outbox = .pps true :: s.outbox) ∧
    (s.tim.ppsOut = true → s.tim.ppsRise + min 99 (wbits (timCtrl s) 16 8) * 10000000 ≤ s.tim.up → Runs .ppsOutPulseEnd s [.tim, .outbox] fun t => t.tim = { s.tim with ppsOut := false } ∧ t.outbox = .pps false :: s.outbox) ∧
    (s.tim.epoch < a.next →
      (s.tim.ann = none → t0.total < a.te → Runs (.epAnnounceReceive a) s out fun t => t.tim = { s.tim with ann := some a, epReq := false } ∧ Latched pgTIM 2 t) ∧
      (s.tim.ann = none → a.te ≤ t0.total → s.tim.adopt ≠ some a.next → Runs (.epAnnounceReceive a) s out fun t => t.tim = { s.tim with adopt := some a.next, adoptPort := 31, epReq := false } ∧ Latched pgTIM 2 t) ∧
      (s.tim.ann = some b → s.tim.ann2 = none → b.next < a.next → Runs (.epAnnounceReceive a) s out fun t => t.tim = { s.tim with ann2 := some a, epReq := false } ∧ Latched pgTIM 2 t)) ∧
    (a.next ≤ s.tim.epoch → Runs (.epAnnounceReceive a) s [] fun t => t = s) ∧
    (isHead s = true → isHolder s = true →
      (s.tim.ann = none → epochFull s = false → Runs .epReqReceive s outA fun t => t.tim = { s.tim with annTod := false, ann := some newEpoch, epReq := false } ∧ Latched pgTIM 2 t) ∧
      (s.tim.ann = some a → t0.total + 2000000 ≤ a.te → Runs .epReqReceive s [] fun t => t = s) ∧
      (s.tim.ann = some a → a.te < t0.total + 2000000 → s.tim.waitEp = false → Runs .epReqReceive s [.tim] fun t => t.tim = { s.tim with waitEp := true, waitDelta := 0, waitTod := false }) ∧
      (s.tim.waitEp = true → s.tim.ann = none → epochFull s = false → Runs .epDeferredAnnounce s outA fun t =>
        ∃ x, t.tim = { s.tim with waitEp := false, waitDelta := 0, waitTod := false, annTod := s.tim.waitTod, ann := some x, epReq := false } ∧
          x.next = s.tim.epoch + 1 ∧ x.teSec = te.sec ∧ x.teNs = te.ns ∧ x.delta = s.tim.waitDelta ∧ Latched pgTIM 2 t)) ∧
    (s.tim.ann = some a → a.te ≤ t0.total → Runs .epochChange s (reporting [.tim, .tcs, .svc, .pwr, .chans, .grps]) fun t =>
      t.tim.epoch = a.next ∧ (s.tim.ann2 = none → t.tim.ann = none) ∧ (s.tim.ann2 = some b → t.tim.ann = some b ∨ (t.tim.ann = none ∧ t.tim.adopt = some b.next)) ∧ t.tim.ann2 = none ∧
      t.tim.epReq = false ∧ t.tim.heldOff = none ∧ at_ (clockUnits s + a.delta * 2 ^ 32 - s.tim.heldOff.getD 0 * 2 ^ 24) t ∧ Latched pgTIM 3 t) ∧
    (s.tim.adopt = some n → s.tim.epoch < n → Runs .epochAdopt s (reporting [.tim, .tcs, .svc, .pwr, .chans, .grps]) fun t =>
      t.tim.epoch = n ∧ t.tim.adopt = none ∧ t.tim.epReq = false ∧ Latched pgTIM 3 t)

/-- R271–R274, R280–R283, R303: contracts. The edit buffer shows the entry that CSEL names. ADMIT installs the contract from the next whole second where every check holds, else keeps it as refused with its code, and touches nothing but the code for an entry already held or owned elsewhere; WITHDRAW sets its end; an entry received is installed; its start makes it active, with the ANCHOR of reason 0 due; at its end it leaves once nothing of it is kept. Model's choices: log 19, 48, 49. -/
def Obligations.ContractsAreAdmittedStartedAndEnded : Prop :=
  ∀ (r : Req) (v : Word) (k : Con) (c : Contract) (a : AdmitTerms) (start : Nat) (s : State),
    let x := con k.val s
    let others (id : Nat) (t : State) : Prop := ∀ j, j ≠ id → (con j t).ent = (con j s).ent ∧ (con j t).state = (con j s).state ∧ (con j t).kennel = (con j s).kennel
    let shows (id : Nat) (t : State) : Prop := csel t = id ∧ ∀ i, i < 5 →
      rfGet (0xB050 + 4 * i) t = nth 0 (match (con id s).ent with | some e => conWords e (mselDev s) | none => [0, 0, 0, 0, 0]) i &&& ((rwReg 0x0B (0x50 + 4 * i)).map (·.1)).getD 0
    let out := reporting [.del, .lanes, .lsh]
    ((page pgMRG s).freeze = false → serveMerger s = s →
      Runs (.mrgCselWrite r v) s [.rf] (shows (v.toNat % 4096)) ∧ Runs (.mrgReload r) s [.rf] (shows (csel s)) ∧
      (let id := csel s
       let err := admitErr id (editCon s) a s
       (err = 0 → Runs (.admitContract r a) s out fun t => (con id t).ent = some (editCon s) ∧ (con id t).state = 1 ∧ (con id t).err = 0 ∧ (con id t).startSec = some (nextSecond s) ∧ (con id t).endSec = none ∧
         (con id t).next = 0 ∧ (condOn pgMRG 24 id s = false → Latched pgMRG 24 t) ∧ others id t) ∧
       ((err = 1 ∨ err = 2) → Runs (.admitContract r a) s out fun t => (con id t).err = err ∧ (con id t).ent = (con id s).ent ∧ (con id t).state = (con id s).state ∧ (err = 1 → condOn pgMRG 25 id s = false → Latched pgMRG 25 t) ∧ others id t) ∧
       (3 ≤ err → Runs (.admitContract r a) s out fun t => (con id t).ent = some (editCon s) ∧ (con id t).state = 4 ∧ (con id t).err = err ∧ (condOn pgMRG 25 id s = false → Latched pgMRG 25 t) ∧ others id t) ∧
       ((con id s).ent = some c → owns c s = true → ((con id s).state = 1 ∨ (con id s).state = 2) → Runs (.withdraw r) s out fun t =>
         con id t = { con id s with state := 3, endSec := some (nextSecond s) } ∧ others id t))) ∧
    ((x.state = 0 ∨ x.state = 4) → Runs (.contractReceive k c start none) s [.del, .pages] fun t =>
      (con k.val t).ent = some c ∧ (con k.val t).state = 1 ∧ (con k.val t).isSrc = (partOf c (myDev s)).isSome ∧ (con k.val t).startSec = some start ∧ (con k.val t).kennel = [] ∧ others k.val t) ∧
    (x.state = 1 → x.ent = some c → x.startSec = some start → start ≤ s.tim.sec → Runs (.contractStart k) s [.del, .pages] fun t =>
      (con k.val t).state = 2 ∧ (con k.val t).anchorDue = some 0 ∧ (con k.val t).ent = some c ∧ (con k.val t).next = x.next ∧ (x.isMerge = true → ∀ p ∈ c.parts, (findIn p.dev k.val t).isSome = true) ∧ others k.val t) ∧
    (x.state = 3 → x.ent = some c → x.runs = [] → x.endSec = some start →
      (start ≤ s.tim.sec → x.isSrc = true → x.kennel = [] → x.ready = [] → (∀ i ∈ s.del.ins, i.con ≠ k.val) → (owns c s = false) → Runs (.contractEnd k) s [.del, .pages] fun t => con k.val t = {} ∧ others k.val t) ∧
      (x.isSrc = true → x.kennel ≠ [] → Runs (.contractEnd k) s out fun t => (con k.val t).state = 3 ∧ (con k.val t).kennel = x.kennel ∧ (owns c s = true → condOn pgMRG 26 k.val s = false → Latched pgMRG 26 t) ∧ others k.val t))

/-- R60, R64, R267, R273, R275–R277, R284, R291, R292, R296–R298: what a source does with its own items. A closed run becomes an item that is ready; what is complete is numbered, kept, and sent within its allowance; the beat puts the contract's horizon behind it; an acknowledgement frees what it covers; a request or a new holder has what is held sent again; what is older than KEEP is discarded behind its GAPs; a stalled acknowledgement is raised; at its stop instant a worker stops. Model's choices: log 20, 21, 46, 47. -/
def Obligations.SourcesNumberKeepSendAndResend : Prop :=
  ∀ (k : Con) (slot : Slot) (cls : Cls) (num hub p : Nat) (o : OpenRun) (i : Item) (e : Contract) (q : Part) (r : RingPlan) (s : State),
    let c := con k.val s
    let others (t : State) : Prop := ∀ j, j ≠ k.val → con j t = con j s
    let tokens := min (q.sigma * 1000000000) (c.tokens + q.rho * (s.tim.up - c.tokAt))
    let kept (c : ConSt) (x : Item) (t : State) : Prop :=
      let paid := decide ((x.size + 1) * 1000000000 ≤ tokens)
      (con k.val t).kennel = [{ seq := c.next, span := 1, item := x, at_ := s.tim.up, sent := paid }] ∧ (con k.val t).next = (c.next + 1) % 2 ^ 32 ∧ (con k.val t).hz = c.hz ∧
      (con k.val t).tokens = (if paid then tokens - (x.size + 1) * 1000000000 else tokens) ∧ (con k.val t).tokAt = s.tim.up ∧
      ∀ j, j ≠ k.val → (con j t).kennel = (con j s).kennel ∧ (con j t).next = (con j s).next
    (runOf slot.val c = some o → barred k.val o.t s = false → Runs (.runCloseTimer k slot) s [.del] fun t =>
      con k.val t = { c with runs := c.runs.filter (·.slot ≠ slot.val), ready := insertKey (runItem o s) c.ready } ∧ others t) ∧
    (isManager s = false → c.ent = some e → e.scope ≠ 0 → partOf e (myDev s) = some q → c.isSrc = true → c.kennel = [] →
      (c.ready = [i] → Stamp.lt i.t (liveLimit k.val s) = true → anchorWhy c i.t = [] → i.size ≤ reserveWords e (myDev s) → Runs (.itemTransmit k) s (reporting [.del, .lanes]) (kept c i)) ∧
      (c.ready = [] → sourceCons cls.code s = [k.val] → c.hz = none → 1 ≤ reserveWords e (myDev s) →
        let h := beforeEnd k.val (conLimit k.val ((beatInstant cls.code s).minus 2000) s) s
        Runs (.sourceHorizonBeat cls) s (reporting [.del, .lanes]) (kept { c with hz := some h } (horizonItem cls.code h s)))) ∧
    (c.isSrc = true → s.bst.running.contains 64 = false →
      let a := (num + 1) % 2 ^ 32
      (c.state ≠ 3 → sub32 a c.ack ≤ sub32 c.next c.ack → Runs (.ackReceive k num) s [.del] fun t =>
        con k.val t = { c with lastAckUp := s.tim.up, ack := a, kennel := c.kennel.filter fun k => decide (0 < sub32 (k.seq + k.span) a) && decide (sub32 (k.seq + k.span) a < 2 ^ 31) } ∧ others t) ∧
      (sub32 c.next c.ack < sub32 a c.ack → Runs (.ackReceive k num) s [.del] fun t => con k.val t = { c with lastAckUp := s.tim.up } ∧ others t) ∧
      (isManager s = false → c.ent = some e → e.cls = 2 → (ringPlans s).find? (·.kind = 0) = some r → sendPorts r 2 s = [p] → Runs (.retxReceive k num) s (reporting [.del, .lanes]) fun t =>
        let again := c.kennel.filter fun k => k.sent && decide (sub32 (k.seq + k.span) (mod32 num + 1) < 2 ^ 31)
        t.del.retx = (s.del.retx + 1) % 65536 ∧ (con k.val t).kennel = c.kennel ∧ (condOn pgKEN 3 k.val s = false → Latched pgKEN 3 t) ∧
        (lane p t).strB = (lane p s).strB ++ again.flatMap fun x => tagWord x.seq (myDev s) k.val x.item.size true false :: x.item.words)) ∧
    (conIds s = [k.val] → c.isSrc = true →
      (agedCount c s.tim.up ≠ 0 → Runs .kennelCheck s (reporting [.del]) fun t =>
        let lost := c.kennel.take (agedCount c s.tim.up)
        (con k.val t).kennel = gapReplace k.val lost s ++ c.kennel.drop (agedCount c s.tim.up) ∧ (con k.val t).next = c.next ∧ (newGaps lost (gapReplace k.val lost s) ≠ [] → Latched pgKEN 0 t)) ∧
      (agedCount c s.tim.up = 0 → Runs .kennelCheck s [] fun t => t = s) ∧
      (isManager s = false → c.ent = some e → e.scope ≠ 0 → c.state = 2 → (FMap.get (fun _ => (0, 0)) s.lsh.holders num).2 ≤ p → Runs (.holderReceive num hub p) s (reporting [.del, .lanes, .lsh]) fun t =>
        FMap.get (fun _ => (0, 0)) t.lsh.holders num = (hub, p) ∧ t.del.retx = (s.del.retx + 1) % 65536 ∧ (con k.val t).kennel = c.kennel)) ∧
    (c.kennel ≠ [] → condOn pgKEN 2 k.val s = false → Runs (.ackStallTimer k) s (reporting [.del]) fun t => Latched pgKEN 2 t ∧ condOn pgKEN 2 k.val t = true ∧ (con k.val t).kennel = c.kennel) ∧
    (s.lsh.stopAt ≠ none → Runs .removalStop s [.lsh] fun t => t.lsh = { s.lsh with stopped := true })

/-- R57, R285–R292, R296, R299, R300: the merger. An item's key is rebuilt from its header word and its device's ANCHOR, which an arriving ANCHOR sets; one of the expected number is held, a repeated one is counted, one beyond a gap caps its input as a hole, counts and asks for what is missing; a HORIZON moves its input's horizon; an input left out reads absent and is counted; the beat hands the released horizon to each consumer; what was handed over is acknowledged to its source; a repeated or resumed request asks again from the expected number. Model's choices: log 18, 19, 46, 49, 50, 80. -/
def Obligations.MergerOrdersHolesAndAcknowledges : Prop :=
  ∀ (dev seq : Nat) (k : Con) (w : W128) (p : List W128) (i : Item) (m : MIn) (e : Contract) (h : Stamp) (cls : Cls) (s : State),
    let ws := w :: p
    let keyOf (x : MIn) : Nat × Nat := (x.dev, x.con)
    let others (t : State) : Prop := ∀ d c, (d, c) ≠ (dev, k.val) → findIn d c t = findIn d c s
    let waits : Prop := heldHz e.cls s = none ∧ ∃ j ∈ s.del.ins, keyOf j ≠ (dev, k.val) ∧ clsOfIn j s = e.cls ∧ j.absent = false ∧ j.cap = .none ∧ j.horizon = none ∧ (4096 ≤ j.con ∨ scopeOf j.con s ≠ 0)
    let asks (num : Nat) (t : State) : Prop := ∀ p ∈ routePorts (dev / 128) (dev % 128) s, (ctrlBlk (dev / 128) (dev % 128) 0x31 0 (k.val * 2 ^ 32 + num) [] s).toTx ∈ (lane p t).ctl
    (findIn dev k.val s = some m →
      (s.bst.running.contains 64 = false → (con k.val s).ent = some e → (con k.val s).isMerge = true → mergesHere e.cls s = true → m.cap = .none → m.absent = false → isHead s = false →
        (waits → readItem dev ws (seeAnchor ws s) = some i → i.isCtrl 2 = false → i.isCtrl 4 = false → sub32 seq m.expected = 0 → mergeWords s + i.size ≤ mergeRoom s → Runs (.dataItemReceive dev k seq false ws) s [.del] fun t =>
          findIn dev k.val t = some { m with expected := (seq + itemSpan i) % 2 ^ 32, last := some i.key, held := m.held ++ [(seq, i)] } ∧ others t ∧ heldHz e.cls t = none ∧
          (bits w.toNat 7 2 = 3 → bits w.toNat 120 8 = 1 → ∀ x xs, p = x :: xs → (anchorsOf (headerDev w) t).cur = some ⟨bits x.toNat 64 32, bits x.toNat 96 32, bits w.toNat 64 32⟩)) ∧
        (readItem dev ws s = some i → i.kind ≠ .control → 2 ^ 31 ≤ sub32 seq m.expected → Runs (.dataItemReceive dev k seq false ws) s [.del] fun t => t.del = { s.del with rept := (s.del.rept + 1) % 65536 }) ∧
        (readItem dev ws s = some i → i.kind ≠ .control → sub32 seq m.expected ≠ 0 → sub32 seq m.expected < 2 ^ 31 → dev ≠ myDev s → Runs (.dataItemReceive dev k seq false ws) s (reporting [.del, .lanes]) fun t =>
          findIn dev k.val t = some { m with cap := .hole, capAt := s.tim.up } ∧ others t ∧ t.del.hole = (s.del.hole + 1) % 65536 ∧ asks m.expected t ∧
          (condOn pgMRG (mrgBit (max 1 e.cls) 4) k.val s = false → e.cls < 4 → Latched pgMRG (mrgBit (max 1 e.cls) 4) t)) ∧
        (waits → (con k.val s).state ≠ 3 → e.epkind ≠ 1 → m.held = [] → sub32 seq m.expected = 0 → instantOf false w s = some h → (itemAt h w []).isCtrl 2 = true → Runs (.horizonReceive dev k seq false w) s [.del] fun t =>
          findIn dev k.val t = some { m with expected := (seq + 1) % 2 ^ 32, handed := (seq + 1) % 2 ^ 32, horizon := some h, last := some (itemAt h w []).key } ∧ others t)) ∧
      (s.bst.running.contains 64 = false → readItem dev ws (seeAnchor ws s) = none → Runs (.dataItemReceive dev k seq false ws) s [.del] fun t => t.del.ins = s.del.ins) ∧
      (m.absent = false → clsOfIn m s = cls.code → (∀ x ∈ s.del.ins, x.held = []) → condOn pgMRG (mrgBit cls.code 1) (dev * 8192 + k.val) s = false → Runs (.inputAbsentTimer dev k false) s (reporting [.del, .lanes, .lsh]) fun t =>
        findIn dev k.val t = some { m with absent := true } ∧ others t ∧ t.del.absent = (s.del.absent + 1) % 65536 ∧ Latched pgMRG (mrgBit cls.code 1) t) ∧
      (m.cap = .hole → m.absent = false → dev ≠ myDev s → Runs (.retxRepeatTimer dev k) s [.lanes] (asks m.expected)) ∧
      (m.cap = .hole → m.absent = false → dev = myDev s → Runs (.retxRepeatTimer dev k) s [.del] fun t => (con k.val t).kennel = (con k.val s).kennel.map fun x => { x with sent := false }) ∧
      (m.cap = .stall → dev ≠ myDev s → (∀ x ∈ s.del.ins, x.held = []) → Runs .stallResume s [.del, .lanes, .lsh] fun t => t.del.ins = s.del.ins ∧ asks m.expected t)) ∧
    (s.del.ins = [m] → m.dev = dev → m.con = k.val → (con k.val s).isCons = true → m.fresh = true → dev ≠ myDev s → Runs .ackTimer s [.del, .lanes, .lsh] fun t =>
      t.del.ins = [{ m with fresh := false, mack := sub32 m.handed 1 }] ∧ ∀ p ∈ routePorts (dev / 128) (dev % 128) s, (ctrlBlk (dev / 128) (dev % 128) 0x30 0 0 (ackItem m s).words s).toTx ∈ (lane p t).ctl) ∧
    (mergesHere cls.code s = true → (∀ x ∈ s.del.ins, x.held = []) → releasedHz cls.code s = some h → s.pln.role ≠ 1 →
      (deliveredCons cls.code s = [] → Runs (.mergerBeat cls) s [.del, .lanes, .lsh] fun t => heldHz cls.code t = some h ∧ t.del.ins = s.del.ins) ∧
      (deliveredCons cls.code s = [(k.val, e)] → e.epkind = 0 → (que e.epnum s).prod = 1 → (que e.epnum s).en = true → (que e.epnum s).flushing = false → (que e.epnum s).open_ = none →
        (horizonItem cls.code h s).words.length ≤ (que e.epnum s).free → Runs (.mergerBeat cls) s (reporting [.del, .ques, .lanes, .lsh]) fun t =>
        heldHz cls.code t = some h ∧ (que e.epnum t).pkts = (que e.epnum s).pkts ++ [(horizonItem cls.code h s).words] ∧ ∀ q, q ≠ e.epnum → que q t = que q s))

/-- R318, R319, R379–R386: the host rings. The doorbell posts descriptors, or is refused beyond the ring; descriptors that arrive let the ring run, a failed read stops it; an item goes into the open buffer, or waits where none has been read; a ring with no posted descriptor is stalled; CLOSE_T after its first item a descriptor completes: it carries its items and DW3 to the host and moves HEAD; ITIME after a completion the timer raises a pending notice; EN starts and stops a ring, QUIESCE all of them; a flushed queue is emptied, counted and raised. Model's choices: log 38, 43. -/
def Obligations.HostRingsFillAndComplete : Prop :=
  ∀ (n : QNum) (r : Req) (v : Word) (i : HrItem) (d : Desc) (ds : List Desc) (w : Word × Word × Word) (ws : List (Word × Word × Word)) (p : List W128) (s : State),
    let h := hr n.val s
    let u := que n.val s
    let t0 := v.toNat % 65536
    let away := (t0 + 65536 - h.head) % 65536
    let out := reporting [.pci, .ques, .del]
    ((page pgPCI s).freeze = false →
      (away ≤ h.size → (h.state = 0 ∨ h.state = 3) → Runs (.hrTailWrite r n v) s [.pci] (Becomes hr n.val { h with tail := t0 } s)) ∧
      (away ≤ h.size → (h.state = 1 ∨ h.state = 2) → Runs (.hrTailWrite r n v) s out fun t =>
        Becomes hr n.val { h with tail := t0, state := if away = 0 then 2 else 1, asked := (hr n.val t).asked } s t ∧
        (busOk s = true → h.asked = 0 → (hr n.val t).asked = min 32 (away - h.descs.length)) ∧ (h.state = 1 → away = 0 → condOn pgPCI 18 n.val s = false → Latched pgPCI 18 t)) ∧
      (h.size < away → Runs (.hrTailWrite r n v) s [.pci] (Becomes hr n.val { h with err := 2 } s)) ∧
      (h.en = false → wbit v 31 = true → s.pci.quiesce = false → Runs (.hrEnableWrite r n v) s out fun t => Becomes hr n.val
        { h with cfg := (h.cfg &&& 0x30000000) ||| (v &&& 0xCFFFFFFF), err := 0, quiet := false, descs := [], asked := if busOk s then min 32 (posted h) else 0, state := if posted h = 0 then 2 else 1 } s t ∧
        (posted h = 0 → condOn pgPCI 18 n.val s = false → Latched pgPCI 18 t)) ∧
      (h.en = true → wbit v 31 = false → h.inbuf = [] → Runs (.hrEnableWrite r n v) s [.pci, .pages, .fab] (Becomes hr n.val
        { h with cfg := (h.cfg &&& 0x7F00FF00) ||| (v &&& 0x80FF00FF), descs := [], asked := 0, state := 0 } s)) ∧
      (wbit v 0 = true → s.pci.quiesce = false → Runs (.quiesce r v) s out fun t => t.pci.quiesce = true ∧ ∀ m : QNum,
        ((hr m.val s).state = 1 ∨ (hr m.val s).state = 2 → (hr m.val t).state = 0 ∧ (hr m.val t).quiet = true ∧ (hr m.val t).descs = [] ∧ (hr m.val t).cfg = (hr m.val s).cfg) ∧
        ((hr m.val s).state ≠ 1 → (hr m.val s).state ≠ 2 → hr m.val t = hr m.val s)) ∧
      (wbit v 0 = false → s.pci.quiesce = true → Runs (.quiesce r v) s out fun t => t.pci.quiesce = false ∧ ∀ m : QNum,
        (hr m.val s).quiet = true → (hr m.val s).en = true → (hr m.val t).state = (if posted (hr m.val s) = 0 then 2 else 1) ∧ (hr m.val t).quiet = false ∧ (hr m.val t).head = (hr m.val s).head)) ∧
    ((h.state = 1 ∨ h.state = 2) →
      Runs (.descriptorFetchDone n false ws) s out (fun t =>
        Becomes hr n.val { h with err := 1, wait := h.inbuf ++ h.wait, inbuf := [], descs := [], asked := 0, state := 3 } s t ∧ t.pci.descErr = (s.pci.descErr + 1) % 65536 ∧ Latched pgPCI 16 t) ∧
      (busOk s = true → h.wait = [] → h.descs = [] → (descOf w).bad = false → h.asked ≠ 0 → posted h ≠ 0 → Runs (.descriptorFetchDone n true (w :: ws)) s [.pci, .pages, .outbox]
        (Becomes hr n.val { h with descs := ((w :: ws).take h.asked).map descOf, asked := min 32 (posted h - ((w :: ws).take h.asked).length), state := 1 } s))) ∧
    (h.state = 1 → busOk s = true → h.wait = [] → posted h ≠ 0 →
      (h.descs = d :: ds → d.bad = false →
        (i.fromQ = false → h.openW + i.words.length ≤ d.bufw → Runs (.hostRingItem n i) s [.pci] (Becomes hr n.val { h with inbuf := h.inbuf ++ [i], openAt := if h.inbuf = [] then s.tim.up else h.openAt } s)) ∧
        (i.fromQ = true → u.cons = 1 → u.pkts[hrQueued n.val s]? = some p → h.openW + p.length ≤ d.bufw → Runs (.hostRingItem n i) s [.pci] (Becomes hr n.val { h with inbuf := h.inbuf ++ [{ i with words := p }], openAt := if h.inbuf = [] then s.tim.up else h.openAt } s))) ∧
      (h.descs = [] → i.fromQ = false → Runs (.hostRingItem n i) s [.pci] (Becomes hr n.val { h with wait := [i] } s))) ∧
    (s.tim.up < h.openAt + h.closeNs → Runs (.descriptorCloseTimer n) s [] fun t => t = s) ∧
    ((h.state = 1 ∨ h.state = 2) → h.inbuf ≠ [] → h.wait = [] → busOk s = true → h.descs = d :: ds → d.bad = false → (∀ e ∈ ds, e.bad = false) → h.openAt + h.closeNs ≤ s.tim.up → Runs (.descriptorCloseTimer n) s out fun t =>
      let words := h.inbuf.flatMap (·.words)
      let dw3 := mkWord [(31, 1, 1), (30, 1, 0), (29, 1, 0), (16, 13, h.inbuf.length), (0, 13, words.length)]
      (hr n.val t).head = (h.head + 1) % 65536 ∧ (hr n.val t).descs = ds ∧ (hr n.val t).inbuf = [] ∧ (hr n.val t).wait = [] ∧ (hr n.val t).state = (if h.tail = (h.head + 1) % 65536 then 2 else 1) ∧
      (∀ x ∈ bufWrites (words.length + 1) d.addr (words.flatMap fun w => leBytes 16 w.toNat), .hostBytes x.1 x.2 ∈ t.outbox) ∧ .hostWord (h.baseHi.toNat * 2 ^ 32 + h.baseLo.toNat + h.head % h.size * 16 + 12) dw3 ∈ t.outbox ∧
      (wbit h.cfg 30 = true → acts 1 (keyHr n.val) s = true → .hostWord (h.wbHi.toNat * 2 ^ 32 + h.wbLo.toNat) (BitVec.ofNat 32 ((h.head + 1) % 65536)) ∈ t.outbox) ∧
      (que n.val t).pkts = u.pkts.drop (h.inbuf.filter (·.fromQ)).length ∧
      (if max 1 (wbits h.cfg 16 8) ≤ h.notice + 1 then (hr n.val t).notice = 0 ∧ Latched pgPCI n.val t else (hr n.val t).notice = h.notice + 1)) ∧
    (wbits h.cfg 0 8 ≠ 0 → h.notice ≠ 0 → acts 2 (keyHr n.val) s = true → h.noteAt + h.itimeNs ≤ s.tim.up → Runs (.hrNoticeTimer n) s out fun t => Becomes hr n.val { h with notice := 0 } s t ∧ Latched pgPCI n.val t) ∧
    (u.flushing = true → u.cons ≠ 1 → u.prod ≠ 2 → Runs (.queueFlushDone n) s out fun t =>
      Becomes que n.val { u with
        flushing := false, pkts := [], headCut := false, open_ := none, pend := 0, flPkts := (u.flPkts + u.pkts.length) % 65536, flWords := u.flWords + BitVec.ofNat 32 (u.level + u.openW),
        dropping := u.dropping || u.open_.isSome, itemDrop := if u.open_.isSome then (u.itemDrop + 1) % 65536 else u.itemDrop, flushedSince := true } s t ∧ Latched pgQUE (16 + n.val) t)

/-- R375, R378, R386, R398, R423, R462: the PCI Express function. Link, bus mastering and power state as the system sets them; an unmasked pending vector is sent; Function Level Reset and PERST disable every ring with its items held, mask every vector and drop what is pending; the first returns the grant to the base profile, the second takes the link down. Model's choices: log 39. -/
def Obligations.PcieFunctionAndVectors : Prop :=
  ∀ (speed : Fin 4) (width : Fin 16) (e : Fin 64) (s : State),
    let out := reporting [.pci, .ques, .del]
    let same (f : Pci → Pci) (t : State) : Prop := { t.pci with rings := s.pci.rings } = f s.pci
    let held (t : State) : Prop := ∀ m : QNum,
      (hr m.val t).state = 0 ∧ (hr m.val t).en = false ∧ (hr m.val t).descs = [] ∧ (hr m.val t).inbuf = [] ∧ (hr m.val t).wait = (hr m.val s).inbuf ++ (hr m.val s).wait ∧ (hr m.val t).head = (hr m.val s).head
    (s.pci.speed ≠ 0 → Runs .pcieLinkDown s out fun t => t.pci = { s.pci with speed := 0, width := 0, downs := (s.pci.downs + 1) % 65536, pba := t.pci.pba } ∧ Latched pgPCI 20 t) ∧
    (speed.val ≠ 0 → s.pci.bme = false → Runs (.pcieLinkUp speed width) s [.pci, .pages] fun t => t.pci = { s.pci with speed := speed.val, width := width.val }) ∧
    Runs (.busMasterDisable false) s [.pci] (fun t => t.pci = { s.pci with bme := false }) ∧
    Runs (.busMasterDisable true) s [.pci] (fun t => t.pci = { s.pci with d3 := true }) ∧
    (speed.val ≠ 0 → Runs (.pcieLinkUp speed width) s (reporting [.ques]) fun t => t.pci.speed = speed.val ∧ t.pci.width = width.val ∧ t.pci.bme = s.pci.bme ∧ t.pci.d3 = s.pci.d3 ∧ t.pci.downs = s.pci.downs) ∧
    (s.pci.speed = 0 → Runs .busMasterEnable s [.pci] fun t => t.pci = { s.pci with bme := true, d3 := false }) ∧
    Runs .busMasterEnable s (reporting [.ques]) (fun t => t.pci.bme = true ∧ t.pci.d3 = false ∧ t.pci.speed = s.pci.speed ∧ t.pci.width = s.pci.width) ∧
    Runs (.msixUnmask e) s [.pci, .outbox] (fun t =>
      t.pci = { s.pci with mask := putBit s.pci.mask e.val false, pba := putBit s.pci.pba e.val false } ∧ t.outbox = if s.pci.pba.testBit e.val then .msix e.val :: s.outbox else s.outbox) ∧
    Runs .functionLevelReset s [.pci, .pages, .fab] (fun t =>
      same (fun c => { c with bme := false, d3 := false, mask := 2 ^ 64 - 1, pba := 0 }) t ∧ held t ∧ t.fab = { s.fab with grant := 1, committed := false }) ∧
    Runs .perst s [.pci, .pages] (fun t => same (fun c => { c with bme := false, d3 := false, mask := 2 ^ 64 - 1, pba := 0, speed := 0, width := 0, quiesce := false }) t ∧ held t)

/-- R388–R397: the framed serial port. A hub not ready sends zeros and counts; a frame of another length is discarded; a request with a wrong CRC or counter answers with its flag and an empty body; one accepted takes its counter and, ended at once, answers the next reply number. READ puts the registers' bytes into the reply, WRITE writes, STREAM gives whole items from NEXT on within its bounds, each refused with its flag where the rules say so; END closes the reply. An item joins the stream buffer whole. Model's choices: log 40. -/
def Obligations.FspFramesRequestsAndReplies : Prop :=
  ∀ (r : Req) (v next : Word) (bytes : List Byte) (edges dev seq d : Nat) (count : Fin 256) (addr : BitVec 20) (k : Con) (item : Item) (m : MIn) (s : State),
    let f := s.fsp
    let n := f.len / 8
    let b := padTo n bytes
    let rq := (nth 0 b 0).toNat
    let crcOk := leNat (slice b (n - 4) 4) = crc32 (b.take (n - 4))
    let out := reporting [.fsp]
    let replied (echo : Nat) (body : List Byte) (g : Fsp) (t : State) : Prop :=
      t.fsp.rp = f.rp % 255 + 1 ∧ t.fsp.reply = some ⟨f.rp % 255 + 1, echo, body, none⟩ ∧ t.fsp.rq = g.rq ∧ t.fsp.good = g.good ∧ t.fsp.crcCnt = g.crcCnt ∧ t.fsp.aliveCnt = g.aliveCnt
    let refused (ovf : Bool) (t : State) : Prop :=
      t.fsp = { f with refused := (f.refused + 1) % 65536, ovf := f.ovf || ovf, cmd := f.cmd || !ovf } ∧ (condOn pgFSP 3 0 s = false → Latched pgFSP 3 t)
    (f.lenNext = none →
      (edges = f.len → Runs (.fspFrame bytes edges false) s [.fsp, .outbox] fun t => t.fsp = { f with notrdy := (f.notrdy + 1) % 65536 } ∧ t.outbox = .frame (List.replicate n 0) :: s.outbox) ∧
      (edges ≠ f.len → Runs (.fspFrame bytes edges true) s out fun t =>
        t.fsp = { f with fe := true, disc := satAdd 255 f.disc 1, discCnt := (f.discCnt + 1) % 65536 } ∧ (condOn pgFSP 0 0 s = false → Latched pgFSP 0 t) ∧ .frame (fspOut n true s) ∈ t.outbox) ∧
      (edges = f.len → ¬ crcOk → Runs (.fspFrame bytes edges true) s out fun t =>
        replied f.rq [] { f with crcCnt := (f.crcCnt + 1) % 65536 } t ∧ t.fsp.ce = true ∧ (condOn pgFSP 1 0 s = false → Latched pgFSP 1 t) ∧ .frame (fspOut n true s) ∈ t.outbox) ∧
      (edges = f.len → crcOk → f.anyAlive = false → rq ≠ (f.rq + 1) % 256 → Runs (.fspFrame bytes edges true) s out fun t =>
        replied f.rq [] { f with aliveCnt := (f.aliveCnt + 1) % 65536 } t ∧ t.fsp.ae = true ∧ (condOn pgFSP 2 0 s = false → Latched pgFSP 2 t) ∧ .frame (fspOut n true s) ∈ t.outbox) ∧
      (edges = f.len → crcOk → (f.anyAlive = true ∨ rq = (f.rq + 1) % 256) → fspParse (s.fab.grant.toNat.testBit 8) (fspWords (slice b 4 (n - 8))).length (fspWords (slice b 4 (n - 8))) = some [] →
        Runs (.fspFrame bytes edges true) s [.fsp, .outbox] fun t => replied rq [] { f with rq := rq, good := (f.good + 1) % 65536 } t ∧ t.fsp.anyAlive = false ∧ t.fsp.busy = false ∧ .frame (fspOut n true s) ∈ t.outbox)) ∧
    Runs .fspEnd s [.fsp] (fun t => t.fsp.rp = f.rp % 255 + 1 ∧ t.fsp.reply = some ⟨f.rp % 255 + 1, f.rq, f.body, f.bodySseq⟩ ∧ t.fsp.body = [] ∧ t.fsp.bodySseq = none) ∧
    (fspBad f (1, count.val, addr.toNat, []) = true → Runs (.fspRead count addr) s out (refused false)) ∧
    (fspBad f (1, count.val, addr.toNat, []) = false → fspLeft s < 4 * count.val → Runs (.fspRead count addr) s out (refused true)) ∧
    (count.val = 1 → addr = 0x54064 → 4 ≤ fspLeft s → (∀ h ∈ s.fab.shadows, h.page ≠ pgFSP) → Runs (.fspRead count addr) s [.fsp] fun t => t.fsp.body = f.body ++ leBytes 4 (rfGet 0x54064 s).toNat) ∧
    ((page pgFSP s).freeze = false → Runs (.fspWrite 0x54064 [v]) s [.rf] fun t => rfGet 0x54064 t = v ∧ ∀ a, a ≠ 0x54064 → rfGet a t = rfGet a s) ∧
    (addr.toNat % 4 ≠ 0 → Runs (.fspWrite addr [v]) s out (refused false)) ∧
    (s.fab.grant.toNat.testBit 8 = true → fspNext next f = some d → 8 ≤ fspLeft s → Runs (.fspStream count next) s [.fsp] fun t =>
      let skip := fspSkip (mod32 (f.snext + d)) f
      let start := mod32 (f.snext + d + skip)
      ∃ c, t.fsp.snext = mod32 (f.snext + d) ∧ t.fsp.sbuf = f.sbuf.drop d ∧ t.fsp.ssent = mod32 (start + c) ∧ c ≤ (fspLeft s - 8) / 16 ∧ (count.val ≠ 0 → c ≤ count.val) ∧
        t.fsp.body = f.body ++ leBytes 4 start ++ leBytes 4 c ++ ((f.sbuf.drop (d + skip)).take c).flatMap fun w => leBytes 16 w.toNat) ∧
    (s.fab.grant.toNat.testBit 8 = false → Runs (.fspStream count next) s out (refused false)) ∧
    (f.sbuf.length + item.words.length ≤ 4096 → findIn dev k.val s = some m → Runs (.fspStreamItem dev k seq item) s [.fsp, .del] fun t =>
      t.fsp = { f with sbuf := f.sbuf ++ item.words, sitems := f.sitems ++ [item.words.length] } ∧ findIn dev k.val t = some { m with handed := (seq + itemSpan item) % 2 ^ 32, fresh := true }) ∧
    (4096 < f.sbuf.length + item.words.length → condOn pgFSP 4 0 s = false → Runs (.fspStreamItem dev k seq item) s reports fun t => Latched pgFSP 4 t) ∧
    Runs .fspIdleTimer s [.fsp] (fun t => t.fsp = { f with anyAlive := true }) ∧
    ((page pgFSP s).freeze = false →
      Runs (.fspResync r) s [.fsp] (fun t => t.fsp = { f with anyAlive := true, rst := true }) ∧
      (40 ≤ v.toNat % 8192 → v.toNat % 8192 ≤ 4096 → v.toNat % 8192 % 8 = 0 → Runs (.fspLenWrite r v) s [.fsp] fun t => t.fsp = { f with lenNext := some (v.toNat % 8192, decide (r.val = 2)) }) ∧
      ((v.toNat % 8192 < 40 ∨ 4096 < v.toNat % 8192 ∨ v.toNat % 8192 % 8 ≠ 0) → Runs (.fspLenWrite r v) s [] fun t => t = s))

/-- R16, R377, R402, R408, R409: reads. The lowest word of a multi-word register reads live and puts the others into the requester's shadow of the page; a shadowed word reads from it, or live, counted and raised, once it has expired; a read-clear field clears with its read. A BAR0 request of one dword is served, one of more is unsupported, a partial write is discarded and counted; a reserved page reads 0 and counts. Model's choices: log 41, 42, 60. -/
def Obligations.PagesReadsShadowsAndRequests : Prop :=
  ∀ (r : Req) (addr : BitVec 20) (v w : Word) (be : BitVec 4) (dwords : Nat) (h : Shadow) (pg : PageNo) (s : State),
    let a := regAddr addr
    let p := a / 4096
    let plain : Prop := a ≠ 0x0D090 ∧ a ≠ 0x06094 ∧ a ≠ 0x09068 ∧ a ≠ 0x0E060 ∧ latchWords a = [] ∧ p < 0x56
    let answered (q : Nat) (x : Word) (t : State) : Prop := t.outbox = .read q a x :: s.outbox
    let others (t : State) : Prop := ∀ g ∈ s.fab.shadows, (g.req ≠ r.val ∨ g.page ≠ p) → g ∈ t.fab.shadows
    (latchWords a ≠ [] → reachIsland false p s = s → Runs (.multiwordLatchRead r addr) s [.fab, .outbox] fun t =>
      answered r.val (regRead a s) t ∧ shadowOf r p t = some ⟨r.val, p, (latchWords a).map fun x => (x, regRead x s), false⟩ ∧ others t) ∧
    (plain → reachIsland false p s = s → shadowOf r p s = some h → h.words.find? (·.1 = a) = some (a, w) →
      (h.expired = false → Runs (.shadowWordRead r addr) s [.outbox] (answered r.val w)) ∧
      (h.expired = true → condOn pgDEV 3 0 s = false → Runs (.shadowWordRead r addr) s reports fun t =>
        .read r.val a (regRead a s) ∈ t.outbox ∧ t.fab.accLate = satAdd 255 s.fab.accLate 1 ∧ shadowOf r p t = none ∧ others t ∧ Latched pgDEV 3 t)) ∧
    Runs (.shadowExpiry r pg) s [.fab] (fun t => t.fab = { s.fab with shadows := s.fab.shadows.map fun h => if h.req = r.val ∧ h.page = pg.val then { h with expired := true } else h }) ∧
    (a = 0x0E060 → (chwSel s).1 = false → (chwSel s).2 < 320 → Runs (.rcFieldRead r addr) s [.chans, .outbox] fun t =>
      answered r.val (regRead a s) t ∧ Becomes chan (chwSel s).2 { chan (chwSel s).2 s with epis := 0 } s t) ∧
    (dwords ≠ 1 → Runs (.bar0Request true addr be dwords v) s [.outbox] (fun t => t.outbox = .unsupported a :: s.outbox) ∧ Runs (.bar0Request false addr be dwords v) s [.outbox] fun t => t.outbox = .unsupported a :: s.outbox) ∧
    (be ≠ 0xF → Runs (.bar0Request true addr be 1 v) s (reporting [.pci]) fun t => t.pci.badacc = (s.pci.badacc + 1) % 65536 ∧ (condOn pgPCI 19 0 s = false → Latched pgPCI 19 t)) ∧
    (plain → reachIsland false p s = s → shadowOf 1 p s = none → Runs (.bar0Request false addr be 1 v) s [.outbox] (answered 1 (regRead a s))) ∧
    (a = 0x0C04C → serveMerger s = s → (page pgKEN s).freeze = false → Runs (.bar0Request true addr 0xF 1 v) s [.rf] fun t => rfGet a t = v &&& 0xFFF ∧ ∀ x, x ≠ a → rfGet x t = rfGet x s) ∧
    (0x56 ≤ p →
      Runs (.reservedPageAccess r addr false) s reports (fun t => .read r.val a 0 ∈ t.outbox ∧ t.fab.accRsvd = satAdd 255 s.fab.accRsvd 1 ∧ (condOn pgDEV 4 0 s = false → Latched pgDEV 4 t)) ∧
      Runs (.reservedPageAccess r addr true) s reports fun t => t.fab.accRsvd = satAdd 255 s.fab.accRsvd 1 ∧ (condOn pgDEV 4 0 s = false → Latched pgDEV 4 t))

/-- R15, R403–R407, R414, R415, R417, R419: writes and the common header. A plain register takes the bits of its fields; a write to a frozen page by another than its owner is discarded and counted; FREEZE gives the page to its writer; a soft reset returns header and plain registers to their reset values but keeps GEN and SEQ; TAKE captures and counts; EV_LATCH clears where 1 is written, EV_EN takes the mask, CLR clears every latch behind its events; an episode ends. Model's choices: log 3, 37, 41, 42, 60. -/
def Obligations.PagesWritesHeadersAndEvents : Prop :=
  ∀ (r : Req) (addr : BitVec 20) (pg : PageNo) (v : Word) (on_ hi : Bool) (bit : Fin 32) (sub : Nat) (s : State),
    let p := pg.val
    let g := page p s
    let signals := [.pages, .fab, .pci, .chans, .outbox]
    (∀ x ∈ [((0x00060 : BitVec 20), (0xFFFF : Word)), (0x00070, 0xFFFFFFFF), (0x03040, 0x00FFE300), (0x03074, 0xFFFFFFFF), (0x0C04C, 0xFFF), (0x53064, 0xFFFFFFFF), (0x54064, 0xFFFFFFFF), (0x08094, 0xFFFFFFFF)],
      (page (pageOf x.1.toNat) s).freeze = false → reachIsland true (pageOf x.1.toNat) s = s → Runs (.registerWrite r x.1 v) s [.rf] fun t => rfGet x.1.toNat t = v &&& x.2 ∧ ∀ a, a ≠ x.1.toNat → rfGet a t = rfGet a s) ∧
    (pageOf addr.toNat < 0x56 → (page (pageOf addr.toNat) s).freeze = true → r.val ≠ 0 → r.val ≠ (page (pageOf addr.toNat) s).owner → Runs (.registerWrite r addr v) s [.fab] fun t =>
      t.fab = { s.fab with accFrozen := satAdd 255 s.fab.accFrozen 1 }) ∧
    (p < 0x56 → g.freeze = false →
      (reachIsland true p s = s → Runs (.pageFreeze r pg on_) s signals (Becomes page p { g with freeze := on_, owner := if on_ then r.val else g.owner } s)) ∧
      (∃ t, exec (.pageSoftReset r pg) s = .next t ∧
        (page p t).gen = g.gen ∧ (page p t).snapSeq = g.snapSeq ∧ (page p t).evEn = 0 ∧ (page p t).evLatch = 0 ∧ (page p t).first = none ∧ (page p t).en = true ∧ (page p t).freeze = false ∧ (page p t).hold = false ∧
        ∀ a, pageOf a = p → a ≠ 0x09050 → a ≠ 0x09054 → rfGet a t = rfReset a) ∧
      (reachIsland true p s = s → Runs (.snapTake r pg) s [.pages, .fab] (fun t => Becomes page p { g with snapSeq := (g.snapSeq + 1) % 65536 } s t ∧ (p = pgKEN → FMap.get (fun _ => 0) t.fab.snaps 0x0C05C = liveReg 0x0C 0x05C s))) ∧
      (p ≠ pgEVT → reachIsland true p s = s →
        Runs (.evLatchWrite r pg v) s signals (Becomes page p { g with evLatch := g.evLatch &&& ~~~v, first := if g.evLatch &&& ~~~v = 0 then none else g.first } s) ∧
        Runs (.evEnWrite r pg v) s signals (Becomes page p { g with evEn := v } s))) ∧
    ((page pgEVT s).freeze = false → Runs (.evtClear r hi v) s signals fun t =>
      (∀ i, i < 32 → wbit v i = true → ∀ x ∈ evPages (i + if hi then 32 else 0), (page x.1 t).evLatch &&& x.2 = 0) ∧
      ∀ q, (page q t).evEn = (page q s).evEn ∧ (page q t).gen = (page q s).gen ∧ ((∀ i, i < 32 → wbit v i = true → ∀ x ∈ evPages (i + if hi then 32 else 0), x.1 ≠ q) → page q t = page q s)) ∧
    (timedEpisode p bit.val = true → Runs (.episodeEndTimer pg bit sub) s [.fab] fun t =>
      condOn p bit.val sub t = false ∧ ∀ q b u, (q, b, u) ≠ (p, bit.val, sub) → condOn q b u t = condOn q b u s)

/-- R413, R420–R423, R426: features and remote access. A commit grants what is both offered and requested, bit 0 always, notes who committed and whether something was denied; BASE returns to the base profile. GO of a manager sends one request toward the target and is busy, or ends at once with its code; the target serves registers or refuses an address; an answer or a timeout ends the request and raises RA_DONE. Model's choices: log 18, 43, 44. -/
def Obligations.FeaturesAndRemoteAccess : Prop :=
  ∀ (r : Req) (v w : Word) (seg hub : Nat) (data : List Word) (err : Fin 8) (s : State),
    let asked : W128 := BitVec.ofNat 128 ((rfGet 0x01050 s).toNat + (rfGet 0x01054 s).toNat * 2 ^ 32 + (rfGet 0x01058 s).toNat * 2 ^ 64 + (rfGet 0x0105C s).toNat * 2 ^ 96)
    let ended (e : Nat) (t : State) : Prop := t.fab.raBusy = false ∧ t.fab.raErr = e ∧ Latched pgDEV 5 t
    let x := v ||| 0x80000000
    let tseg := wbits (rfGet 0x00060 s) 7 9
    let thub := wbits (rfGet 0x00060 s) 0 7
    let n := wbits x 28 2 + 1
    let ws := if wbit x 30 then (List.range n).map fun i => rfGet (0x00070 + 4 * i) s else []
    let path := routePorts tseg thub s
    ((page pgFEAT s).freeze = false →
      Runs (.featCommit r) s reports (fun t => t.fab.grant = (asked &&& s.fab.offer) ||| 1 ∧ t.fab.committed = true ∧ t.fab.denied = decide (asked &&& ~~~s.fab.offer ≠ 0) ∧ t.fab.by_ = r.val ∧
        (page pgFEAT t).gen = (page pgFEAT s).gen + 1 ∧ Latched pgFEAT 0 t) ∧
      Runs (.featBase r) s [.fab, .pages] fun t => t.fab = { s.fab with grant := 1, committed := false } ∧ (page pgFEAT t).gen = (page pgFEAT s).gen + 1) ∧
    ((page pgDEV s).freeze = false → s.fab.raBusy = false →
      (isManager s = false → Runs (.remoteAccessGo r v) s (reporting [.rf]) (ended 5)) ∧
      (isManager s = true → s.fab.grant.toNat.testBit 4 = false → Runs (.remoteAccessGo r v) s (reporting [.rf]) (ended 3)) ∧
      (isManager s = true → s.fab.grant.toNat.testBit 4 = true → (path = [] ∨ plannedHub tseg thub s = false) → Runs (.remoteAccessGo r v) s (reporting [.rf]) (ended 2)) ∧
      (isManager s = true → s.fab.grant.toNat.testBit 4 = true → path ≠ [] → plannedHub tseg thub s = true → (∀ p ∈ path, (lane p s).lfeat.testBit 4 = true) →
        Runs (.remoteAccessGo r v) s [.rf, .fab, .pages, .lanes] fun t => t.fab = { s.fab with raBusy := true } ∧
          ∀ p ∈ path, (raBlk tseg thub (if wbit x 30 then 0x41 else 0x40) (wbits x 0 20) n ws s).toTx ∈ (lane p t).ctl)) ∧
    Runs (.remoteAccessExecute seg hub true 0x00061 [w] 1) s [.lanes] (fun t => ∀ p ∈ routePorts seg hub s, (raBlk seg hub 0x42 4 0 [] s).toTx ∈ (lane p t).ctl) ∧
    ((page pgKEN s).freeze = false → serveMerger s = s → Runs (.remoteAccessExecute seg hub true 0x0C04C [w] 1) s [.rf, .lanes] fun t =>
      rfGet 0x0C04C t = w &&& 0xFFF ∧ ∀ p ∈ routePorts seg hub s, (raBlk seg hub 0x42 0 0 [] s).toTx ∈ (lane p t).ctl) ∧
    (shadowOf 3 pgKEN s = none → serveMerger s = s → Runs (.remoteAccessExecute seg hub false 0x0C04C [] 1) s [.lanes] fun t =>
      ∀ p ∈ routePorts seg hub s, (raBlk seg hub 0x42 0 1 [rfGet 0x0C04C s] s).toTx ∈ (lane p t).ctl) ∧
    (s.fab.raBusy = true →
      (wbit (rfGet 0x00064 s) 30 = false → Runs (.remoteAccessAnswer 0 [v, w]) s (reporting [.rf]) fun t => ended 0 t ∧ rfGet 0x00070 t = v ∧ rfGet 0x00074 t = w) ∧
      (err.val ≠ 0 → Runs (.remoteAccessAnswer err data) s reports (ended err.val)) ∧
      Runs .remoteAccessTimeout s reports (ended 1))

/-- R219, R353–R357, R372: DIN pins and the reflex map. A level or edge at an enabled pin is its level, and every follow rule then drives its condition; a pulse below 10 ns does nothing; a selected edge of a hub in service is stamped, counted and latched, or counted as lost at a full pin. A committed rule is checked, then in force with its output restarted; a pulse ends once it has had its width, a latch is cleared, RELOAD shows the committed words. Model's choices: log 51. -/
def Obligations.ReflexMapAndDinPins : Prop :=
  ∀ (r : Req) (k : Fin 64) (pin : Fin 32) (b : Bool) (width : Nat) (s : State),
    let d := din pin.val s
    let x := rule k.val s
    let w := rfGet 0x53064 s
    let out := reporting [.svc]
    let seen : Din := { d with ball := b, level := if wbit d.cfg 31 then xor b (wbit d.cfg 27) else d.level }
    let follows (t : State) : Prop := ∀ j ∈ s.svc.rules.map (·.1), wbits (rule j s).a 22 2 = 0 → (rule j t).active = condOf (rule j s).a t ∧ (rule j t).cond = condOf (rule j s).a t
    Runs (.dinLevelChange pin b) s out (fun t => Becomes din pin.val seen s t ∧ follows t) ∧
    ((d.ball = b ∨ width < 10) → Runs (.dinEdge pin ⟨b, width⟩) s [] fun t => t = s) ∧
    (d.ball ≠ b → 10 ≤ width → (d.selects (xor b (wbit d.cfg 27)) = false ∨ s.tim.inserv = false) → Runs (.dinEdge pin ⟨b, width⟩) s out fun t => Becomes din pin.val seen s t ∧ follows t) ∧
    (d.ball ≠ b → 10 ≤ width → d.selects (xor b (wbit d.cfg 27)) = true → s.tim.inserv = true →
      (d.fill s.tim.up < 8 → Runs (.dinEdge pin ⟨b, width⟩) s out fun t =>
        Becomes din pin.val { seen with edges := (d.edges + 1) % 65536, last := now s, rise := xor b (wbit d.cfg 27), busyTo := max d.busyTo s.tim.up + 100 } s t ∧ Latched pgDIN pin.val t) ∧
      (8 ≤ d.fill s.tim.up → Runs (.dinEdge pin ⟨b, width⟩) s out fun t => Becomes din pin.val { seen with lost := (d.lost + 1) % 65536 } s t ∧ follows t)) ∧
    (wbits x.a 22 2 = 2 → x.active = true → x.till ≤ s.tim.up → Runs (.reflexPulseEnd k) s out (Becomes rule k.val { x with active := false } s)) ∧
    (s.tim.up < x.till → Runs (.reflexPulseEnd k) s [] fun t => t = s) ∧
    ((page pgRFX s).freeze = false → rsel s = k.val →
      (ruleErr w s = 0 → x.active = false → wbits w 22 2 ≠ 0 → Runs (.ruleCommit r) s out (Becomes rule k.val
        { x with a := w, b := rfGet 0x53068 s &&& 0xFFFFF000, err := 0, cond := condOf w s } s)) ∧
      (ruleErr w s = 0 → x.active = false → wbits w 22 2 = 0 → Runs (.ruleCommit r) s out fun t =>
        Becomes rule k.val { x with
          a := w, b := rfGet 0x53068 s &&& 0xFFFFF000, err := 0, cond := condOf w s, active := condOf w s, fires := if condOf w s then (x.fires + 1) % 65536 else x.fires } s t ∧
        (condOf w s = true → Latched pgRFX 0 t)) ∧
      (ruleErr w s ≠ 0 → Runs (.ruleCommit r) s out fun t => Becomes rule k.val { x with err := ruleErr w s } s t ∧ (ruleErr w s = 1 → Latched pgRFX 1 t)) ∧
      Runs (.ruleReload r) s [.rf] (fun t => rfGet 0x53064 t = x.a ∧ rfGet 0x53068 t = x.b &&& 0xFFFFF000 ∧ ∀ a, a ≠ 0x53064 → a ≠ 0x53068 → rfGet a t = rfGet a s) ∧
      (wbits x.a 22 2 = 1 → Runs (.ruleClear r) s out (Becomes rule k.val { x with active := false } s)))

/-- R220, R358, R371: TOUT pins. A schedule is refused with its code, queued in order of its instant, or, where it comes too late, carried out at once and counted; the first schedule due sets, clears or toggles the pin or begins a pulse, and a periodic one is queued again; CANCEL leaves only the end of a pulse; a change of owner clears the queue and the state. Model's choices: log 51. -/
def Obligations.ToutPinsKeepTheirSchedules : Prop :=
  ∀ (r : Req) (n : QNum) (v : Word) (x : Sched) (rest : List Sched) (s : State),
    let p := tout n.val s
    let periodic := wbit v 2 && granted 7 r s
    let per := if periodic then (rfGet 0x5205C s).toNat else 0
    let asked : Sched := {
      t := onPeriod ⟨s.tim.epoch, (rfGet 0x52054 s).toNat * 2 ^ 32 + (rfGet 0x52050 s).toNat, (rfGet 0x52058 s).toNat⟩ per, per := per, pw := max 1 (wbits v 12 20), act := wbits v 0 2 }
    let full := 4 ≤ p.queued ∧ (p.q.any fun y => decide (y.t = asked.t) && decide (y.act ≠ 4)) = false
    let badPer := asked.per ≠ 0 ∧ 1000000000 % asked.per ≠ 0 ∧ asked.per % 1000000000 ≠ 0
    let late := asked.t.total < (now s).total + 2000 ∧ s.tim.inserv = true
    let out := reporting [.svc]
    let edged (on_ : Bool) (p : Tpin) : Tpin := { p with state := on_, edges := if p.state = on_ then p.edges else (p.edges + 1) % 65536 }
    let ends : Sched := { t := (now s).plus (x.pw * 100), per := 0, pw := 0, act := 4 }
    let q : List Sched := if x.per = 0 then rest else putSched { x with t := x.t.plus x.per } rest
    ((page pgTOUT s).freeze = false → tsel s = n.val →
      (full → Runs (.toutSchedule r v) s out fun t => Becomes tout n.val { p with err := 1 } s t ∧ (condOn pgTOUT (16 + n.val) n.val s = false → Latched pgTOUT (16 + n.val) t)) ∧
      (¬ full → wbit p.cfg 31 = true → Runs (.toutSchedule r v) s [.svc] (Becomes tout n.val { p with err := 2 } s)) ∧
      (¬ full → wbit p.cfg 31 = false → badPer → Runs (.toutSchedule r v) s [.svc] (Becomes tout n.val { p with err := 3 } s)) ∧
      (¬ full → wbit p.cfg 31 = false → ¬ badPer → 1000000000 ≤ (rfGet 0x52058 s).toNat → Runs (.toutSchedule r v) s [.svc] (Becomes tout n.val { p with err := 4 } s)) ∧
      (¬ full → wbit p.cfg 31 = false → ¬ badPer → (rfGet 0x52058 s).toNat < 1000000000 →
        (¬ late → Runs (.toutSchedule r v) s [.svc] (Becomes tout n.val { p with err := 0, q := putSched asked p.q } s)) ∧
        (late → asked.per = 0 → asked.act = 1 → Runs (.toutSchedule r v) s out fun t =>
          Becomes tout n.val (edged true { p with err := 0, late := (p.late + 1) % 65536 }) s t ∧ (condOn pgTOUT n.val n.val s = false → Latched pgTOUT n.val t))) ∧
      Runs (.toutCancel r v) s [.svc] (Becomes tout n.val { p with err := 0, q := p.q.filter fun x => decide (x.act = 4) } s) ∧
      (wbit p.cfg 31 = wbit v 31 → Runs (.toutOwnerWrite r v) s [.svc, .outbox] (Becomes tout n.val { p with cfg := v &&& 0xC0000000 } s)) ∧
      (wbit p.cfg 31 ≠ wbit v 31 → Runs (.toutOwnerWrite r v) s [.svc, .outbox] (Becomes tout n.val { p with cfg := v &&& 0xC0000000, q := [], state := false } s))) ∧
    (p.q = x :: rest → s.tim.inserv = true → wbit p.cfg 31 = false →
      let fires (y : Tpin) : Prop := Runs (.toutScheduleFire n) s [.svc, .outbox] fun t => Becomes tout n.val y s t ∧ (y.state ≠ p.state → .tout n.val (xor y.state (wbit p.cfg 30)) ∈ t.outbox)
      (x.act = 0 → fires (edged false { p with q := q })) ∧ (x.act = 1 → fires (edged true { p with q := q })) ∧ (x.act = 2 → fires (edged (!p.state) { p with q := q })) ∧
      (x.act = 3 → fires (edged true { p with q := putSched ends q })) ∧ (x.act = 4 → fires (edged false { p with q := q })))

/-- R359–R366, R369: order tracks and weigh sections. EN starts a unit whose slots are clear, refuses one with its code, stops one; an angle sample goes out at its instant into the contracts that take it and the track goes on, with its speed at a whole revolution; a stalled track suspends; a finished parcel leaves its section counted, with its conditions raised. Model's choices: log 52. -/
def Obligations.TracksAndSectionsRun : Prop :=
  ∀ (r : Req) (n : QNum) (k : Fin 4) (v : Word) (tj te t1 r0 : Stamp) (i0 : Nat) (rs : List Item) (p : Parcel) (rest : List Parcel) (s : State), s.fuse.hx000 = false →
    let x := track n.val s
    let y := sect k.val s
    let slots := wbits x.cfg1 16 9 :: (if wbits x.cfg1 0 9 = 0 then [] else [wbits x.cfg1 0 9])
    let clear := unitSlotsOk (16 + n.val) slots (modTrack n.val (fun x => { x with cfg0 := v &&& 0x7FFF81FF }) s) = true ∧ wbits x.cfg1 16 9 ≠ wbits x.cfg1 0 9
    let free3 := unitSlotsOk (32 + k.val) [wbits v 0 9, wbits v 0 9 + 1, wbits v 0 9 + 2] (modSect k.val (fun x => { x with cfg := v &&& 0x7FFFE1FF }) s) = true
    ((page pgORD s).freeze = false →
      ((rfGet 0x50040 s).toNat % 16 = n.val →
        (x.en = true → wbit v 31 = false → Runs (.trackEnable r v) s [.pages, .svc] (Becomes track n.val { x with cfg0 := x.cfg0 &&& 0x7FFFFFFF, edges := [], ins := [], j := 0, base := 0, rev0 := none, state := 0 } s)) ∧
        (x.en = false → wbit v 31 = true → clear → Runs (.trackEnable r v) s [.pages, .svc] (Becomes track n.val
          { x with cfg0 := (v &&& 0x7FFF81FF) ||| 0x80000000, err := 0, edges := [], ins := [], j := 0, base := 0, rev0 := none, state := 1 } s)) ∧
        (x.en = false → wbit v 31 = true → ¬ clear → Runs (.trackEnable r v) s [.svc] (Becomes track n.val { x with cfg0 := v &&& 0x7FFF81FF, err := 1 } s))) ∧
      ((rfGet 0x50060 s).toNat % 4 = k.val →
        (y.en = true → wbit v 31 = false → Runs (.sectionEnable r v) s [.svc] (Becomes sect k.val { y with cfg := y.cfg &&& 0x7FFFFFFF, on := [], recs := [], inside := 0, span0 := none, spanned := none } s)) ∧
        (y.en = false → wbit v 31 = true → free3 → Runs (.sectionEnable r v) s [.svc] (Becomes sect k.val
          { y with cfg := (v &&& 0x7FFFE1FF) ||| 0x80000000, werr := 0, on := [], recs := [], inside := 0, span0 := none, spanned := none } s)) ∧
        (y.en = false → wbit v 31 = true → ¬ free3 → Runs (.sectionEnable r v) s [.svc] (Becomes sect k.val { y with cfg := v &&& 0x7FFFE1FF, werr := 1 } s)))) ∧
    (x.en = true → (x.state = 1 ∨ x.state = 2) → x.edges.getLast? = some te → te.total + x.stall * 1000000 ≤ (now s).total → Runs (.trackStallTimer n) s (reporting [.svc]) fun t =>
      Becomes track n.val { x with edges := [], base := 0, j := 0, rev0 := none, susp := (x.susp + 1) % 65536, state := 3 } s t ∧ (condOn pgORD 0 n.val s = false → Latched pgORD 0 t)) ∧
    (x.en = true → x.state = 2 → angleInstant x = some (tj, i0) → around tj x.ins = some rs → Runs (.trackOutput n) s [.del, .svc] fun t =>
      let z := track n.val t
      z.j = x.j + 1 ∧ z.base = max x.base i0 ∧ z.edges = x.edges.drop (i0 - x.base) ∧ z.cfg0 = x.cfg0 ∧ z.state = 2 ∧
      (x.j % x.spr ≠ 0 → z.rev0 = x.rev0 ∧ z.spd = x.spd ∧ z.revs = x.revs) ∧
      (x.j % x.spr = 0 → z.rev0 = some tj ∧ (x.rev0 = some r0 → z.spd = (f32OfFrac (Frac.mk2 60000000000 (tj.total - r0.total))).1 ∧ z.revs = (x.revs + 1) % 65536)) ∧
      (∀ id ∈ consFor .sample (wbits x.cfg1 16 9) s, barred id tj s = false → angleItem (wbits x.cfg1 16 9) (wbits x.cfg0 0 9) tj rs s ∈ (con id t).ready) ∧ ∀ m, m ≠ n.val → track m t = track m s) ∧
    (y.on = p :: rest → p.tEnd = some te → p.t1 = some t1 → (y.reached te = true ∨ ∀ c ∈ y.cells, (chan c s).duty = none) → Runs (.weighRelease k) s (reporting [.svc]) fun t =>
      let short := te.total < (t1.plus y.settleNs).total + 2000000
      let ovlp := p.cut = some te ∧ p.long = false
      let z := sect k.val t
      z.on = rest ∧ z.parcels = (y.parcels + 1) % 65536 ∧ z.cfg = y.cfg ∧ z.tare = y.tare ∧
      (p.long = true → Latched pgORD 3 t) ∧ (ovlp → Latched pgORD 4 t) ∧ (short → Latched pgORD 5 t) ∧ (y.hasTare = false → Latched pgORD 6 t) ∧
      ((p.long = true ∨ ovlp ∨ short ∨ y.hasTare = false) → z.flagged = (y.flagged + 1) % 65536) ∧ ∀ j, j ≠ k.val → sect j t = sect j s)

/-- R26–R28, R34, R39: plan slices. LOAD_DATA appends its bytes; LOAD_GO makes an acceptable slice active where none is, STAGE makes it pending, and either rejects one with the number of its first failed check; DISCARD drops the pending slice; RECHECK exchanges capabilities on every quarantined port; a slice already loaded goes before the boot flash, which serves its first acceptable slice; a request goes on to the holder that serves it, and a manager serves the slice asked for, which is taken once whole, its digest the one the manager holds, or asked for again. Model's choices: log 18, 24, 25, 26, 76, 77. -/
def Obligations.PlanSlicesAreLoadedAndServed : Prop :=
  ∀ (r : Req) (v : Word) (port_ : Port) (seg pos off q dev : Nat) (unknown : Bool) (held : Option Nat) (bytes b bs : List Byte) (a : Slice) (rest : List (Nat × Nat)) (s : State),
    let l := s.pln
    let e := sliceErr l.loadBuf l.loadOver s
    let x := sliceOf l.loadBuf s
    let out := reporting [.pln]
    let wide := reporting [.rf, .mem, .pln, .srv, .lanes, .lsh, .ques, .tcs, .svc, .pwr, .chans, .grps, .lins, .ana]
    let emptied (f : Pln → Pln) (t : State) : Prop := t.pln = f { l with loadBuf := [], loadOver := false }
    let made (x : Slice) (src : Nat) (t : State) : Prop :=
      t.pln.active = some x ∧ t.pln.src = src ∧ t.pln.req = false ∧ t.pln.missed = false ∧ (∀ w, x.body.timCtrl = some w → rfGet 0x03040 t = w &&& 0x00FFE300) ∧
      ∀ p, p < 24 → ((planPort x.body p).use = 0 → (lane p t).state = 0) ∧
        ((planPort x.body p).use ≠ 0 → l.active = none → if (lane p s).state = 0 then (lane p t).state = 1 ∧ (lane p t).rate = 0
          else (8 ≤ p ∨ (lane p s).losPin = wbit (portCtrl p s) 4) → (lane p t).state = (lane p s).state ∧ (lane p t).rate = (lane p s).rate)
    let dl := FMap.putAll (fun _ => 0) l.dl off (bytes.take 96)
    let dlLen := max l.dlLen (off + bytes.length)
    let len := leNat ((List.range 4).map fun k => FMap.get (fun _ => (0 : Byte)) dl (72 + k))
    let whole := FMap.getAll (fun _ => 0) dl 0 len
    let es := if sliceErr whole false s = 0 ∧ held ≠ none ∧ held ≠ some (sliceOf whole s).digest then 2 else sliceErr whole false s
    let u := portPlan port_.val s
    let rseg := if unknown then u.seg else seg
    let mgr := if unknown then decide (u.role = 1) else decide (pos = 0) || decide (pos = 127)
    let target := if mgr then 0 else rseg
    let asks (t : State) : Prop := t.pln = { l with req := true, retryWait := t.pln.retryWait } ∧ ∀ p, p < 24 → (port p s).q = true → 2 ≤ (lane p s).state →
      (lane p t).ctl = (lane p s).ctl ++ [CtrlBlk.toTx { dseg := 0, dhub := 125, sseg := 0, shub := l.pos, sub := 0x08, subByte := 1, fields := l.pos, more := [] }]
    ((page pgPLN s).freeze = false →
      (l.loadBuf.length + 4 ≤ sliceMax → Runs (.loadDataWrite r v) s [.pln, .pages] fun t => t.pln = { l with loadBuf := l.loadBuf ++ leBytes 4 v.toNat }) ∧
      (sliceMax < l.loadBuf.length + 4 → Runs (.loadDataWrite r v) s [.pln, .pages] fun t => t.pln = { l with loadOver := true }) ∧
      (e ≠ 0 → Runs (.loadGo r) s out (fun t => emptied (fun l => { l with err := e }) t ∧ Latched pgPLN plnSLICEREJ t) ∧
        Runs (.stage r) s out fun t => emptied (fun l => { l with err := e }) t ∧ Latched pgPLN plnSLICEREJ t) ∧
      (e = 0 → (l.active = none → Runs (.loadGo r) s wide (made x 1)) ∧ (l.active ≠ none → Runs (.loadGo r) s [.pages, .pln] (emptied id)) ∧
        Runs (.stage r) s out fun t => emptied (fun l => { l with pend := some x, pendSrc := 1 }) t ∧ Latched pgPLN plnSTAGED t) ∧
      Runs (.discard r) s [.pages, .pln, .lanes, .lsh] (emptied fun l => { l with pend := none, armed := none }) ∧
      Runs (.recheck r) s [.lanes] (fun t => ∀ p, p < 24 →
        (lane p t).xn = if (port p s).q = true ∧ ((lane p s).state = 2 ∨ (lane p s).state = 3) then ((lane p s).xn + 1) % 256 else (lane p s).xn)) ∧
    (l.active = none → l.strapErr = false → l.role ≠ 3 → l.loadBuf ≠ [] → e = 0 → Runs .sliceSearch s wide (made x 1)) ∧
    (l.active = none → l.strapErr = false → l.role ≠ 3 → l.loadBuf = [] →
      ((flashSlices s).find? (fun b => sliceErr b false s = 0) = some b → Runs .sliceSearch s wide (made (sliceOf b s) 2)) ∧
      ((flashSlices s).find? (fun b => sliceErr b false s = 0) = none → (flashSlices s).getLast? = some b →
        Runs .sliceSearch s out fun t => t.pln = { l with err := sliceErr b false s } ∧ Latched pgPLN plnSLICEREJ t)) ∧
    (wantsSlice s = true →
      (l.retryWait = false → Runs .sliceReqTimer s [.pages, .pln, .lanes] fun t => asks t ∧ t.pln.retryWait = false) ∧
      (l.retryWait = true → Runs .sliceRetryTimer s [.pages, .pln, .lanes] fun t => asks t ∧ t.pln.retryWait = false) ∧
      (l.retryWait = false → off < sliceMax →
        (len = 0 ∨ dlLen < len → Runs (.sliceDataReceive ⟨off, bytes⟩ held) s [.pln, .pages] fun t => t.pln = { l with dl := dl, dlLen := dlLen }) ∧
        (len ≠ 0 → len ≤ dlLen →
          (es ≠ 0 → Runs (.sliceDataReceive ⟨off, bytes⟩ held) s out fun t =>
            t.pln = { l with dl := [], dlLen := 0, retryWait := true, err := es } ∧ Latched pgPLN plnSLICEREJ t) ∧
          (es = 0 → Runs (.sliceDataReceive ⟨off, bytes⟩ held) s wide (made (sliceOf whole s) 3))))) ∧
    (l.active = some a →
      (isManager s = true → mySeg s = target → isHolder s = true → (∀ y ∈ l.serveQ, y.2 ≠ rseg * 128 + pos) →
        Runs (.sliceReqReceive port_ seg pos unknown) s [.pln] fun t => t.pln = { l with serveQ := l.serveQ ++ [(port_.val, rseg * 128 + pos)] }) ∧
      ((isManager s && decide (mySeg s = target) && isHolder s) = false → Runs (.sliceReqReceive port_ seg pos unknown) s [.lanes] fun t =>
        ∀ p ∈ routePorts target (holderOf target s) s,
          CtrlBlk.toTx { dseg := target, dhub := holderOf target s, sseg := rseg, shub := pos, sub := 0x08, subByte := 0, fields := pos, more := [] } ∈ (lane p t).ctl)) ∧
    (l.serveQ = (q, dev) :: rest → (l.store.find? (·.1 = dev)).or (flashSlice dev s) = some (dev, bs) → Runs .sliceServe s [.pln, .lanes] fun t =>
      t.pln = { l with serveQ := rest } ∧
      ∀ p ∈ routePorts (dev / 128) (dev % 128) s, (lane p t).ctl = (lane p s).ctl ++ (sliceBlocks (dev / 128) (dev % 128) s (bs.length / 96 + 1) 0 bs).map CtrlBlk.toTx)

/-- R35: an activation second less than 2 s away is rejected, and nothing is scheduled by it. -/
def Obligations.LateActivationSecondIsRejected : Prop :=
  ∀ (r : Req) (v : Word) (s : State), (page pgPLN s).freeze = false →
    let sec := v.toNat * 2 ^ 32 + (rfGet 0x0507C s).toNat
    (sec < s.tim.sec + 2 → Runs (.actSecArm r v) s [.pages, .pln] fun t => t.pln = { s.pln with err := 7, armed := t.pln.armed } ∧ (s.pln.armed = none → t.pln.armed = none)) ∧
    (s.tim.sec + 2 ≤ sec → Runs (.actSecArm r v) s [.rf, .pages, .pln, .lanes, .lsh] fun t =>
      t.pln = { s.pln with armed := some sec } ∧ rfGet 0x05080 t = v ∧ ∀ a, a ≠ 0x05080 → rfGet a t = rfGet a s)

/-- R34, R36, R37: a plan changes. A manager's pending slice is staged with its activation second and passed on; at that second the pending slice becomes active, ports whose plan changed start again at the lowest rate and the others keep theirs, or with none pending the miss is told; a rejected pending slice leaves the second; the old identity goes out of acceptance 1 s later, and a neighbour that has shown it since is quarantined. Model's choices: log 18, 24, 26, 77, 83. -/
def Obligations.PlanChangesAtItsSecond : Prop :=
  ∀ (bytes : List Byte) (sec : Nat) (a x : Slice) (s : State),
    let l := s.pln
    let e := sliceErr bytes false s
    let y := sliceOf bytes s
    let wide := reporting [.rf, .mem, .pln, .srv, .lanes, .lsh, .ques, .tcs, .svc, .pwr, .chans, .grps, .lins, .ana]
    let old := { s with pln := { l with oldId := none } }
    let armed (t : State) : Prop := (rfGet 0x0507C t).toNat = sec % 2 ^ 32 ∧ (rfGet 0x05080 t).toNat = sec / 2 ^ 32 % 2 ^ 32
    let told (t : State) : Prop := isManager s = true → ∀ p ∈ ringPorts s, (ctrlBlk 0 126 0x0A 0 sec [BitVec.ofNat 128 y.num, BitVec.ofNat 128 y.planDigest, BitVec.ofNat 128 (y.planDigest / 2 ^ 128)] s).toTx ∈ (lane p t).ctl
    (e ≠ 0 → Runs (.pendSliceReceive bytes sec) s (reporting [.pln, .rf, .lanes]) fun t => t.pln = { l with err := e, armed := some sec } ∧ armed t ∧ Latched pgPLN plnSLICEREJ t) ∧
    (e = 0 → Runs (.pendSliceReceive bytes sec) s (reporting [.pln, .rf, .lanes]) fun t =>
      t.pln = { l with pend := some y, pendSrc := 3, armed := some sec } ∧ armed t ∧ Latched pgPLN plnSTAGED t ∧ told t) ∧
    (l.armed = some sec → sec ≤ s.tim.sec →
      (l.pend = none → Runs .planActivation s (reporting [.pln]) fun t => t.pln = { l with armed := none, missed := true } ∧ Latched pgPLN plnMISSED t) ∧
      (l.pend = some x → l.active = some a → Runs .planActivation s wide fun t =>
        t.pln.active = some x ∧ t.pln.src = l.pendSrc ∧ t.pln.pend = none ∧ t.pln.armed = none ∧ t.pln.missed = false ∧ t.pln.oldId = some (a.num, a.planDigest) ∧ Latched pgPLN plnACTIVATED t ∧
        ∀ p, p < 24 → ((planPort x.body p).use = 0 → (lane p t).state = 0) ∧
          ((planPort x.body p).use ≠ 0 → if planPort a.body p ≠ planPort x.body p ∨ (lane p s).state = 0 then (lane p t).state = 1 ∧ (lane p t).rate = 0
            else (8 ≤ p ∨ (lane p s).losPin = wbit (portCtrl p s) 4) → (lane p t).state = (lane p s).state ∧ (lane p t).rate = (lane p s).rate))) ∧
    (l.oldId = none → Runs .identityWindowClose s [] fun t => t = s) ∧
    (l.oldId ≠ none → Runs .identityWindowClose s (reporting [.pln, .lanes, .lsh]) fun t => t.pln.oldId = none ∧ t.pln.active = l.active ∧ ∀ p, p < 24 →
      (∀ c, (port p s).peer = some c → (portPlan p s).use ≠ 0 → (lane p s).state = 4 → (port p s).fresh = true → checkCauses p c old ≠ 0 →
        (lane p t).state = 1 ∧ (port p t).q = true ∧ (port p t).cause = checkCauses p c old) ∧
      ((port p s).fresh = false → (lane p t).state = (lane p s).state ∧ (port p t).q = (port p s).q))

/-- R461, R462, R467–R471, R476: resets and standby. A fallen supply, RESET_N, the thermal limit, DEVRST with its key and a wake each reset all but the standby domain, the fuses and the boot flash, with the cause; a wrong key or a held Leash is refused; standby puts the ports idle and writes a valid store; SUP_EN falls, and a wake that is enabled raises it; the watchdog restarts the supervisor alone; the retained window steps on. Model's choices: log 3, 5, 6, 7, 10, 60, 66, 67, 68. -/
def Obligations.ResetsAndStandby : Prop :=
  ∀ (r : Req) (v w : Word) (rail : Fin 7) (a : Int) (l : List Int) (k : Nat) (s : State),
    let x := s.pwr
    let all_ := [.pages, .rf, .mem, .fuse, .fab, .pln, .tim, .srv, .lanes, .lsh, .del, .ques, .pci, .fsp, .tcs, .svc, .fwl, .bst, .pwr, .chans, .grps, .lins, .ana]
    let held (t : State) : Prop :=
      (∀ y ∈ ([.pages, .fab, .tim, .srv, .lanes, .lsh, .del, .ques, .pci, .fsp, .tcs, .svc, .bst, .chans, .grps, .lins] : List Area), State.same y State.reset t) ∧
      t.fuse = { s.fuse with ckeyBusy := none } ∧ t.ana = { fac := s.ana.fac, refPos := s.ana.refPos, refNeg := s.ana.refNeg } ∧ t.fwl = { boots := s.fwl.boots } ∧ t.pln = { secs := s.pln.secs } ∧
      ∀ y, Memory.read t.mem y = if flashBase ≤ y then Memory.read s.mem y else 0
    let regs (t : State) : Prop := ∀ y, rfGet y t = if y = 0x09050 ∨ y = 0x09054 then rfGet y s else rfReset y
    let store : Pwr := { sbSec := x.sbSec, sbNs := x.sbNs, ret := x.ret, reason := x.reason, supEn := x.supEn, sealed := x.sealed, wakePend := x.wakePend }
    let reset (c : Nat) (hot : Bool) (t : State) : Prop := held t ∧ regs t ∧ t.pwr = { store with rst := c, hot := hot }
    let woken (n : Nat) (t : State) : Prop := held t ∧ regs t ∧ t.pwr = { store with rst := 5, reason := n, supEn := true, sealed := false, wakePend := none, ret := t.pwr.ret } ∧
      t.outbox = .supEn true :: s.outbox ∧ (retByte t 4).toNat = n ∧ (retValid s = true → retValid t = true ∧ retEpoch t = retEpoch s ∧ retCount t = retCount s)
    let dice := if s.fuse.hx000 = true ∨ x.state = 3 then [] else (List.range 24).map fun g => (grp g s).temp
    let tj := maxInt a (l ++ dice)
    (x.good = true →
      (rail.val < 5 → Runs (.supplyFall rail) s all_ (reset 1 x.hot)) ∧ Runs .resetNLow s all_ (reset 2 x.hot) ∧
      (s.fwl.wdogDown = false → Runs .watchdogExpiry s (reporting [.pwr]) fun t => t.pwr = { x with wdog := satAdd 15 x.wdog 1 } ∧ t.fwl.wdogDown = true ∧ Latched pgPWR pwrWDOG t) ∧
      (2000 ≤ tj → Runs (.junctionTempRead (a :: l)) s all_ (reset 3 true)) ∧
      (1760 ≤ tj → tj < 2000 → condOn pgPWR pwrTJHIGH 0 s = false → Runs (.junctionTempRead (a :: l)) s (reporting [.pwr]) fun t =>
        t.pwr = { x with tj := tj, tjPeak := max x.tjPeak tj } ∧ Latched pgPWR pwrTJHIGH t ∧ condOn pgPWR pwrTJHIGH 0 t = true) ∧
      (1760 ≤ tj → tj < 2000 → condOn pgPWR pwrTJHIGH 0 s = true → Runs (.junctionTempRead (a :: l)) s [.pwr] fun t => t.pwr = { x with tj := tj, tjPeak := max x.tjPeak tj }) ∧
      (1680 ≤ tj → tj < 1760 → Runs (.junctionTempRead (a :: l)) s [.pwr] fun t => t.pwr = { x with tj := tj, tjPeak := max x.tjPeak tj }) ∧
      (tj < 1680 → Runs (.junctionTempRead (a :: l)) s [.pwr, .fab] fun t => t.pwr = { x with tj := tj, tjPeak := max x.tjPeak tj } ∧ condOn pgPWR pwrTJHIGH 0 t = false) ∧
      (s.tim.set = true → Runs .standbyCounterCopy s [.pwr] fun t => t.pwr = { x with sbSec := s.tim.sec % 2 ^ 48, sbNs := s.tim.ns })) ∧
    (x.good = false → Runs (.junctionTempRead (a :: l)) s [.pwr] fun t => t.pwr.hot = (x.hot && decide (1600 ≤ maxInt a l))) ∧
    Runs .watchdogRestartDone s [.fwl] (fun t => t.fwl = { s.fwl with wdogDown := false }) ∧
    Runs .vstbyRise s (all_ ++ [Area.free, Area.outbox]) (fun t => held t ∧ t.pwr.reason = 3 ∧ t.pwr.rst = 0 ∧ t.pwr.supEn = true ∧ t.pwr.sealed = false ∧ t.outbox = .supEn true :: s.outbox ∧
      rfGet 0x09050 t = 0x80000000 ∧ rfGet 0x09054 t = 0 ∧ t.free = s.free + 1 ∧ ∀ k, k < 512 → retByte t k = Config.freeByte s.free k) ∧
    ((page pgPWR s).freeze = false → serve 65 s = s →
      (wbits v 24 8 = 0xA5 → Runs (.pwrDevrst r v) s all_ (reset 4 false)) ∧
      (wbits v 24 8 ≠ 0xA5 → Runs (.pwrDevrst r v) s [.rf, .pwr] (fun t => t.pwr = { x with err := 1 }) ∧ Runs (.standbyRequest r v) s [.rf, .pwr] fun t => t.pwr = { x with err := 1 }) ∧
      (wbits v 24 8 = 0xA5 →
        (isHolder s = true → Runs (.standbyRequest r v) s [.rf, .pwr] fun t => t.pwr = { x with err := 2 }) ∧
        (isHolder s = false → x.state ≠ 5 → Runs (.standbyRequest r v) s (reporting [.rf, .pwr, .lanes, .lsh]) fun t =>
          t.pwr.state = 5 ∧ t.pwr.err = 0 ∧ Latched pgPWR 0 t ∧ (∀ p, p < 24 → (lane p s).state = 4 → (lane p t).state = 5) ∧
          retValid t = true ∧ retCount t = (retCount s + 1) % 2 ^ 24 ∧ retEpoch t = (if isHead s then s.tim.epoch % 2 ^ 32 else retEpoch s) ∧
          (s.tim.set = true → t.pwr.sbSec = s.tim.sec % 2 ^ 48 ∧ t.pwr.sbNs = s.tim.ns))) ∧
      Runs (.retDataAccess r (some w)) s [.rf, .pwr] (fun t =>
        (∀ j, j < 4 → retByte t (4 * retAddr s + j) = BitVec.ofNat 8 (wbits w (8 * j) 8)) ∧ (∀ j, j < 4 * retAddr s ∨ 4 * retAddr s + 4 ≤ j → retByte t j = retByte s j) ∧
        rfGet 0x09064 t = BitVec.ofNat 32 (retAddr s * 4 + 4) &&& 0x1FC)) ∧
    Runs (.retDataAccess r none) s [.rf, .outbox] (fun t => t.outbox = .read r.val 0x09068 (retWord s) :: s.outbox ∧ rfGet 0x09064 t = BitVec.ofNat 32 (retAddr s * 4 + 4) &&& 0x1FC) ∧
    (x.state = 5 →
      (x.wakePend = none → Runs .supEnFall s (all_ ++ [Area.outbox]) fun t => held t ∧ regs t ∧ t.pwr = { store with rst := x.rst, hot := x.hot, supEn := false, sealed := true } ∧ t.outbox = .supEn false :: s.outbox) ∧
      (x.wakePend = some k → Runs .supEnFall s (all_ ++ [Area.outbox]) fun t => held t ∧ t.pwr.rst = 5 ∧ t.pwr.reason = k ∧ t.pwr.supEn = true ∧ t.pwr.sealed = false ∧ t.outbox = .supEn true :: .supEn false :: s.outbox)) ∧
    (wbit (rfGet 0x09050 s) 31 = true →
      (x.sealed = true → Runs .wakePin s (all_ ++ [Area.outbox]) (woken 1)) ∧
      (x.sealed = false → x.state = 5 → x.wakePend = none → Runs .wakePin s [.pwr] fun t => t.pwr = { x with wakePend := some 1 })) ∧
    (wbit (rfGet 0x09050 s) 30 = true → BitVec.ofNat 32 x.sbSec = rfGet 0x09054 s →
      (x.sealed = true → Runs .wakeAlarm s (all_ ++ [Area.outbox]) (woken 2)) ∧
      (x.sealed = false → x.state = 5 → x.wakePend = none → Runs .wakeAlarm s [.pwr] fun t => t.pwr = { x with wakePend := some 2 }))

/-- R23, R24, R119, R446, R463, R465, R466, R470, R472–R474: start-up, park and the analogue supplies. Power good samples the straps and checks the store; the boot image runs and the ports a slice can come by leave the off state; a late step is told; converters whose measurements miss the limits are retired and channels assigned to the rest; chains start cleared at a whole 100 ms; a park request waits for its second, where the services stand still, and an unpark brings the dice up; a lost analogue supply leaves every channel without a converter. Model's choices: log 4, 7, 20, 56, 59, 60, 63, 68, 69. -/
def Obligations.StartUpParkAndSupplies : Prop :=
  ∀ (r : Req) (v : Word) (role mode : Fin 4) (pos : Fin 128) (vexc viepe lo : Bool) (step_ : Fin 11) (meas : List RefMeas) (p : Nat) (h : Hdr) (s : State),
    let dipped (at_ bit : Nat) (t : State) : Prop := t.pwr = { s.pwr with sup := putBit s.pwr.sup at_ false } ∧ Latched pgPWR bit t ∧ condOn pgPWR bit 0 t = true
    let back (at_ bit : Nat) (t : State) : Prop := t.pwr = { s.pwr with sup := putBit s.pwr.sup at_ true } ∧ condOn pgPWR bit 0 t = false
    let x := s.pwr
    let a := (bootRec s).active
    let ts := (now s).total
    let tp := (ts + 100000000 + nsPerSec - 1) / nsPerSec * nsPerSec
    let runs_ (bank : Nat) (alt : Bool) (h : Hdr) (t : State) : Prop := t.fwl.run = some h ∧ t.fwl.bank = bank ∧ t.fwl.alt = alt ∧ t.pwr.good = true ∧ ∀ q, q < 8 → s.pln.role = 0 → (lane q t).state = 1
    let still (g : Nat) (t : State) : Prop := (grp g t).ovl = none ∧ (grp g t).q = [] ∧ (grp g t).task = 0 ∧ (grp g t).tat.run = false
    (x.good = false → x.hot = false → x.sealed = false → Runs (.powerGood role pos mode vexc viepe) s (reporting [.pln, .tim, .srv, .lsh, .pwr]) fun t =>
      t.pwr.good = true ∧ t.pwr.retOk = retValid s ∧ t.pwr.sup = (if s.fuse.hx000 then 0x1F else 0x7F + (if vexc then 0x80 else 0) + (if viepe then 0x100 else 0)) ∧
      t.pln.role = role.val ∧ t.pln.pos = pos.val ∧ t.pln.fspMode = mode.val ∧ t.pln.active = s.pln.active ∧
      t.lsh.lrole = (if role.val = 1 ∨ role.val = 2 then (if role.val = 2 ∧ pos.val = 0 ∧ wbit (rfGet 0x0A040 s) 14 = true then 1 else 4) else s.lsh.lrole) ∧
      (role.val ≠ 2 → t.tim = s.tim) ∧ (role.val = 2 → t.tim.sec = x.sbSec ∧ t.tim.ns = x.sbNs ∧ t.tim.epoch = (if retValid s then (retEpoch s + 1) % 2 ^ 32 else 0) ∧ retEpoch t = t.tim.epoch) ∧
      (retValid s = false → Latched pgPWR pwrRETBAD t ∧ retValid t = true ∧ retEpoch t = 0) ∧
      (strapsOk role.val pos.val s.fuse.hx000 = false → Latched pgPLN plnSTRAP t ∧ t.pln.strapErr = true ∧ t.pln.err = 8)) ∧
    (x.good = true → s.fwl.run = none →
      (bankImage a s = (0, h) → Runs .bootLoadDone s (reporting [.bst, .pln, .lanes, .lsh, .pwr]) (runs_ a false h)) ∧
      ((bankImage a s).1 ≠ 0 → bankImage (1 - a) s = (0, h) → Runs .bootLoadDone s (reporting [.bst, .pln, .lanes, .lsh, .pwr]) fun t => runs_ (1 - a) true h t ∧ Latched pgFWL fwlBOOTALT t) ∧
      ((bankImage a s).1 ≠ 0 → (bankImage (1 - a) s).1 ≠ 0 → Runs .bootLoadDone s [.pwr] fun t => t.pwr = { x with good := false })) ∧
    (stepReached step_.val s = false → Runs (.startBoundTimer step_) s reports (Latched pgPWR pwrSTARTLATE)) ∧
    (stepReached step_.val s = true → Runs (.startBoundTimer step_) s [] fun t => t = s) ∧
    (s.fuse.hx000 = false → x.anaLost = false → x.state < 2 → x.convOk = false → Runs (.converterCheckDone meas) s (reporting [.pwr, .chans, .grps]) fun t => t.pwr.convOk = true ∧
      ∀ g, g < 24 →
        let n := groupSize g
        let ok := (List.range (n + 1)).filter fun c => inServiceConv g c t
        (∀ c, c ≤ n → ((grp g t).retired.testBit c = true ↔ (grp g s).retired.testBit c = true ∨
          ∃ m ∈ meas, m.grp = g ∧ m.conv = c ∧ refCheckOk g c m.range (m.u0, m.up, m.un) s = false)) ∧ (grp g t).relief = (if ok.length = n + 1 then some n else none) ∧
        ∀ k, k < n → (chan (slotAt g k) t).duty = ok[k]? ∧ (chan (slotAt g k) t).coarse = ok[k]?) ∧
    (s.fuse.hx000 = false → x.anaLost = false → s.tim.set = true → s.tim.ns % 100000000 = 0 → x.convOk = true → x.stopped = false → (x.state = 4 ∨ (x.state < 2 ∧ x.sampling = none)) → wbits (rfGet 0x09040 s) 0 2 ≠ 1 →
      Runs .samplingStart s (reporting [.pwr, .svc, .chans, .grps]) fun t =>
        t.pwr.sampling = some ts ∧ t.pwr.tp = none ∧ t.pwr.stopped = false ∧ t.pwr.state = (if x.state = 4 then 1 else x.state) ∧
        ∀ g k, g < 24 → k < groupSize g →
          let c := slotAt g k
          (chan c t).spans = [] ∧ (chan c t).hist = [] ∧ (chan c t).ready = [] ∧ (chan c t).isOpen = false ∧ (chan c t).off = 0 ∧ (chan c t).w = (chan c s).w ∧ (chan c t).duty = (chan c s).duty ∧
          (chan c t).cAt = [(((ts * 1024 : Nat) : Int) - 1, false)] ∧ (alarm c t).c1 = {} ∧ (alarm c t).c2 = {} ∧
          (chan c t).nextT = if hasGrid (chan c s).w = true ∧ (chan c s).duty.isSome = true then some (firstStarting c (ts * 1024 : Nat) s) else none) ∧
    ((page pgPWR s).freeze = false → serve 65 s = s →
      (s.tim.inserv = false ∨ x.state = 0 → Runs (.parkRequest r v) s [.rf, .pwr] fun t => t.pwr = { x with err := 3, unparkWait := false }) ∧
      (s.tim.inserv = true → x.state = 1 → Runs (.parkRequest r v) s (reporting [.rf, .pwr]) fun t => t.pwr = { x with err := 0, unparkWait := false, tp := some tp, state := 2 } ∧ Latched pgPWR 0 t) ∧
      (x.state = 2 → Runs (.unparkRequest r v) s [.rf, .pwr] fun t => t.pwr = { x with err := 0, unparkWait := true }) ∧
      (x.state = 3 → s.fuse.hx000 = false → Runs (.unparkRequest r v) s (reporting [.rf, .pwr]) fun t =>
        t.pwr = { x with err := 0, unparkWait := false, convOk := false, state := 4 } ∧ Latched pgPWR 0 t ∧ .dice true ∈ t.outbox)) ∧
    (x.tp = some p → x.state = 2 → x.stopped = false → p ≤ ts →
      (s.fuse.hx000 = false → Runs .parkStop s (reporting [.bst, .svc, .grps, .pwr]) fun t => t.pwr = { x with stopped := true } ∧ (∀ g, g < 24 → still g t) ∧
        (∀ c, c < 320 → (alarm c t).c1 = {} ∧ (alarm c t).c2 = {}) ∧ ∀ k, k < 16 → (track k s).en = true → (track k t).state = 1) ∧
      (s.fuse.hx000 = true → x.unparkWait = false → Runs .parkStop s (reporting [.pwr]) fun t => t.pwr = { x with state := 3 } ∧ Latched pgPWR 0 t)) ∧
    (x.state = 2 → x.stopped = true → x.unparkWait = false → Runs .diceOffDone s (reporting [.pwr]) fun t => t.pwr = { x with sampling := none, convOk := false, state := 3 } ∧ .dice false ∈ t.outbox ∧ Latched pgPWR 0 t) ∧
    (x.good = true → s.fuse.hx000 = false → x.anaLost = false → Runs (.anaLost lo) s (reporting [.bst, .chans, .grps, .pwr]) fun t =>
      t.pwr = { x with sup := putBit x.sup (if lo then 5 else 6) false, anaLost := true, sampling := none, convOk := false } ∧ Latched pgPWR pwrANALOST t ∧
      ∀ g, g < 24 → still g t ∧ (grp g t).relief = none ∧ ∀ k, k < groupSize g → (chan (slotAt g k) t).duty = none ∧ (chan (slotAt g k) t).nextT = none) ∧
    (x.good = true → x.anaLost = true → Runs .anaBack s (reporting [.pwr]) fun t => t.pwr = { x with anaLost := false, sup := putBit (putBit x.sup 5 true) 6 true } ∧ Latched pgPWR pwrANABACK t) ∧
    (s.fuse.hx000 = true → Runs (.vexcLow lo) s [] (fun t => t = s) ∧ Runs (.viepeLow lo) s [] fun t => t = s) ∧
    (s.fuse.hx000 = false →
      (condOn pgPWR pwrVEXCLOW 0 s = false → Runs (.vexcLow true) s (reporting [.pwr]) (dipped 7 pwrVEXCLOW)) ∧ Runs (.vexcLow false) s [.pages, .fab, .pwr] (back 7 pwrVEXCLOW) ∧
      (condOn pgPWR pwrVIEPELOW 0 s = false → Runs (.viepeLow true) s (reporting [.pwr]) (dipped 8 pwrVIEPELOW)) ∧ Runs (.viepeLow false) s [.pages, .fab, .pwr] (back 8 pwrVIEPELOW))

/-- R75, R76, R94–R96, R112, R134, R142–R146, R154: channels. A coarse window becomes a corrected sample with O over full scale, an overload, a clamp or a hard switch; a fine value becomes a ready record with its window, value and flags; it leaves once its hold is over, as the no-value code with B where its window met an open input; overloads are kept and raised, synthesiser errors counted, lead steps averaged, repeated on overrange, stale in the end. Model's choices: log 8, 12, 53, 54, 55, 71, 79, 81. -/
def Obligations.ChannelsSampleAndRelease : Prop :=
  ∀ (g : Grp) (q : GGrp) (ch : Chn) (slot : Slot) (conv : Fin 17) (sec m bias start stop c range : Nat) (mods : List Int) (t0 : Stamp) (nv err : Int) (cm aHigh isOver east : Bool) (r : ReadyRec) (rest : List ReadyRec) (s : State),
    s.fuse.hx000 = false →
    let x := chan c s
    let s1 := beginGroup g.val s
    let fast := decide (16 ≤ g.val)
    let w0 : Int := (sec : Int) * secTk + (m : Int) * coarseTk fast
    let w1 := w0 + coarseTk fast
    let at_ := coarseInst fast (if x.tr.isSome then x.old1 else ew x.w 1) w0
    let v := correct g.val conv.val range c w1 w1 (coarseOut mods) s1
    let switching := x.swAt.any fun y => decide (w0 ≤ y) && decide (y < w1)
    let w1r := settingAt x t0 s
    let tt := instTk (periodTk (isFast c) w1r) t0 s
    let half := halfTk (isFast c) w1r
    let rg := rangeAt x (tt + half)
    let f := correct g.val conv.val rg c tt (tt + half) (chainOut (isFast c) w1r mods) s1
    let per := periodTk (isFast c) w1r
    let fq := x.spans.any fun p => decide (tt - half < p.upTo) && decide (p.since ≤ if p.byT then tt else tt + half)
    let rv := recordValue x fq rg t0 tt per f.1 (f.2 || overloaded g.val conv.val (tt - half) (tt + half) s)
    let val := valueOf c rv.2.1 tt (tt + half) s1
    let cf := x.cAt.any fun y => decide (y.1 ≤ tt)
    let spans := reporting [.bst, .svc, .chans, .grps]
    let i := r.item
    let z := chan slot.val s
    let b := openHits slot.val r.w0 r.w1 s
    let e := decide (i.flags / 4 % 2 = 1)
    let o := decide (i.flags / 8 % 2 = 1)
    let qf := decide (64 ≤ i.flags)
    let sent := if b then { i with value := noValue e, flags := flagsOf qf (decide (i.flags / 32 % 2 = 1)) true false e (i.flags / 2 % 2) (decide (i.flags % 2 = 1)) } else i
    let y := grp g.val s
    let kept (l : List (Nat × Int × Int)) := (conv.val, (start : Int), (stop : Int)) :: l.filter fun p => decide (nowTk s < p.2.2 + secTk)
    let task := grp q.val s
    let lc := slotAt q.val task.tgt
    let bit := if east then srvSYNE else srvSYNW
    let bad := 640 < err.natAbs
    let nb := if east then s.srv.synBad.2 else s.srv.synBad.1
    let ng := if east then s.srv.synGood.2 else s.srv.synGood.1
    let pairOf (p p' : Nat × Nat) (n : Nat) : Prop := if east then p' = (p.1, n) else p' = (n, p.2)
    (coarseUser g.val conv.val w0 s = some (c, range) → eCls x.w ≠ 0 → (x.skipAt.any fun y => decide (w0 ≤ y) && decide (y < w1)) = false → sampled c w0 w0 s = true →
      Runs (.coarseSample g conv sec m mods ⟨aHigh, cm⟩ bias) s spans fun t => (chan c t).hist.head? =
        some { at_ := at_, stamp := tkStamp s at_, code := v.1, range := range, o := v.2 || cm || overloaded g.val conv.val w0 w1 s || spanHits x.clamps w0 w1 || switching }) ∧
    (y.ovl = none → dutyChan g.val conv.val s = some c → eCls x.w ≠ 0 → wbit w1r 23 = false → sampled c (tt - half) tt s = true →
      Runs (.fineRecordReady g conv t0 mods cm) s spans fun t => ∃ n, (chan c t).ready = putReady n x.ready ∧ n.w0 = tt - half ∧ n.w1 = tt + half ∧ n.rate = (if fq then 0x1F else wbits w1r 27 5) ∧
        n.rel = max (nowTk s) (tt + half + holdTk c rv.2.1 s) ∧ n.item.t = rv.1 ∧ (fq = false → n.item.t = Stamp.ofTotal t0.epoch ((exactTk per t0).toNat / 1024)) ∧
        n.item.src = srcId c s ∧ n.item.kind = .sample ∧ n.item.value = val.1 ∧
        n.item.flags = flagsOf fq (fq || x.hDue) false (rv.2.2 || cm || spanHits x.clamps (tt - half) (tt + half) || val.2.2.1) val.2.1 (xOf rv.1) cf ∧
        (chan c t).hDue = false ∧ (chan c t).nextT = nextInst c x tt per ∧ (x.tb = none → (chan c t).nextT = some (tt + per))) ∧
    (z.ready = r :: rest → r.rel ≤ nowTk s → (oldDue z && pastBound z r.tt) = false → Runs (.recordRelease slot) s (reporting [.tim, .svc, .pwr, .chans]) fun t =>
      (chan slot.val t).ready = rest ∧ (chan slot.val t).clean = (if b = false ∧ o = false ∧ qf = false then some (i.t, i.value) else z.clean) ∧
      (∀ id ∈ consFor .sample (slotOf i.src) s, barred id i.t s = false → ((con id s).ent.any fun k => k.runs) = false → sent ∈ (con id t).ready) ∧
      (consFor .sample slot.val s ≠ [] → s.tim.set = true → t.tim.inserv = true) ∧
      ((z.isOpen && z.brkEnd.any fun y => decide (y ≤ r.w0)) = true → (chan slot.val t).isOpen = false ∧ condOn (pgGroup (grpOf slot.val)) inOPEN slot.val t = false)) ∧
    (servedBy g.val conv.val s = none → Runs (.modOverload g conv start stop) s [.grps] (Becomes grp g.val { y with ovls := kept y.ovls, ovCnt := (y.ovCnt + 1) % 65536 } s)) ∧
    (servedBy g.val conv.val s = some c → condOn (pgGroup g.val) relMODOVL c s = false → Runs (.modOverload g conv start stop) s (reporting [.grps]) fun t =>
      Becomes grp g.val { y with ovls := kept y.ovls, ovCnt := (y.ovCnt + 1) % 65536, ovCh := idxOf c } s t ∧ Latched (pgGroup g.val) relMODOVL t) ∧
    Runs (.modulatorReset g conv start stop) s [.grps] (Becomes grp g.val { y with ovls := kept y.ovls } s) ∧
    (bad → condOn pgSRV bit 0 s = false → Runs (.synPhaseCompare east err) s (reporting [.srv]) fun t => pairOf s.srv.synBad t.srv.synBad (nb + 1) ∧ pairOf s.srv.synGood t.srv.synGood 0 ∧ (15 ≤ nb → Latched pgSRV bit t)) ∧
    (¬ bad → Runs (.synPhaseCompare east err) s [.srv, .fab] fun t => pairOf s.srv.synBad t.srv.synBad 0 ∧ pairOf s.srv.synGood t.srv.synGood (ng + 1) ∧ (15 ≤ ng → condOn pgSRV bit 0 t = false)) ∧
    (task.task = 5 →
      (isOver = true → task.trange = 3 → (chan lc s).isOpen = false → Runs (.leadStepDone q nv isOver) s [.grps] (Becomes grp q.val { task with trange := 2 } s)) ∧
      (¬ (isOver = true ∧ task.trange = 3) → (chan lc s).isOpen = false → Runs (.leadStepDone q nv isOver) s [.fab, .chans, .grps] fun t =>
        (chan lc t).leads = (nv :: (chan lc s).leads).take 4 ∧ (chan lc t).leadAt = s.tim.up ∧ (chan lc t).stale = false ∧ condOn (pgGroup q.val) inLEADSTALE lc t = false ∧
        (∀ j, j ≠ lc → chan j t = chan j s) ∧ (grp q.val t).tgt = 0 ∧ (grp q.val t).trange = 0) ∧
      ((chan lc s).isOpen = true → Runs (.leadStepDone q nv isOver) s [.grps] fun t => (grp q.val t).tgt = 0 ∧ (grp q.val t).trange = 0 ∧ ∀ j, j ≠ q.val → grp j t = grp j s)) ∧
    (is3Wire (chan ch.val s).w = true → (chan ch.val s).leadAt + 16 * wbits (ew (chan ch.val s).w 3) 8 8 * 10000000 < s.tim.up → condOn (pgGroup (grpOf ch.val)) inLEADSTALE ch.val s = false →
      Runs (.leadStaleTimer ch) s (reporting [.chans]) fun t => (chan ch.val t).stale = true ∧ (chan ch.val t).epis = satAdd 0xFFFF (chan ch.val s).epis 1 ∧
        (wbit (chan ch.val s).latched inLEADSTALE = false → Latched (pgGroup (grpOf ch.val)) inLEADSTALE t) ∧ condOn (pgGroup (grpOf ch.val)) inLEADSTALE ch.val t = true ∧ ∀ j, j ≠ ch.val → chan j t = chan j s)

/-- R81, R84, R88: the front ends. A clamped input is protected from its start to its end, with one cause an episode; a lost sense moves regulation to local, the limit and its end are told; excitation switched off a fourth time in a row stays off, and a retry restarts it 1 ms later; VIEPE is kept as measured. Model's choices: log 53, 71, 79. -/
def Obligations.FrontEndsAreSupervised : Prop :=
  ∀ (c : Chn) (g : GGrp) (mv ma : Nat) (s : State), s.fuse.hx000 = false →
    let x := chan c.val s
    let y := grp g.val s
    let p := pgGroup g.val
    let pc := pgGroup (grpOf c.val)
    let told (bit : Nat) (t : State) : Prop := Latched p bit t ∧ condOn p bit 0 t = true
    let n := if y.retryUp + nsPerSec < s.tim.up then 0 else y.retries
    let closed (t : Int) (l : List (Int × Option Int)) := l.map fun k => if k.2 = none then (k.1, some t) else k
    Runs (.viepeMeasure mv) s [.ana] (fun t => t.ana = { s.ana with viepe := some mv }) ∧
    (x.prot = false → Runs (.clampStart c) s (reporting [.chans]) fun t =>
      Becomes chan c.val { x with prot := true, clamps := x.clamps ++ [(nowTk s, none)], epis := satAdd 0xFFFF x.epis 1, latched := x.latched ||| (1#32 <<< inPROTECT) } s t ∧
      condOn pc inPROTECT c.val t = true ∧ (wbit x.latched inPROTECT = false → Latched pc inPROTECT t)) ∧
    (x.prot = true → Runs (.clampEnd c) s [.fab, .chans] fun t => Becomes chan c.val { x with prot := false, clamps := closed (nowTk s) x.clamps } s t ∧ condOn pc inPROTECT c.val t = false) ∧
    (y.isL = true →
      Runs (.snsLostDetect g) s (reporting [.grps]) (fun t => Becomes grp g.val { y with onLocal := true } s t ∧ told inSNSLOST t) ∧
      Runs (.snsRestore g) s [.fab, .grps] fun t => Becomes grp g.val { y with onLocal := wbit y.w 28 } s t ∧ condOn p inSNSLOST 0 t = false) ∧
    (excOn y = true →
      (500 ≤ ma → Runs (.excLimitEngage g ma) s (reporting [.grps]) fun t => Becomes grp g.val { y with limit := true, iExc := ma } s t ∧ told inEXCLIMIT t) ∧
      (ma < 500 → Runs (.excLimitEngage g ma) s [.fab, .grps] fun t => Becomes grp g.val { y with limit := false, iExc := ma } s t ∧ condOn p inEXCLIMIT 0 t = false) ∧
      Runs (.excOff g) s (reporting [.grps]) fun t =>
        Becomes grp g.val { y with excOff := true, limit := false, iExc := 0, retries := n, lock := decide (3 ≤ n), offs := y.offs ++ [(nowTk s, none)] } s t ∧ told inEXCOFF t ∧ condOn p inEXCLIMIT 0 t = false) ∧
    (y.excOff = true → y.lock = false → Runs (.excRetry g ma) s [.fab, .grps] fun t =>
      Becomes grp g.val { y with excOff := false, retries := y.retries + 1, retryUp := s.tim.up, iExc := ma, offs := closed (nowTk s + 1000000 * tkNs) y.offs } s t ∧ condOn p inEXCOFF 0 t = false)

/-- R100, R102, R116, R126, R149: entries. SEL and RELOAD show the committed words; a commit is refused with its code or waits for its boundary, where the entry takes effect: words, linearisation, coupling, a rate boundary or a hard switch as its fields ask; a changed excitation switches every channel of its group hard; at the rate boundary the new setting runs, settling, and the chain is reconfigured at its own instant. Model's choices: log 53, 55, 59, 79. -/
def Obligations.EntriesTakeEffectAtTheirBoundaries : Prop :=
  ∀ (r : Req) (v : Word) (c : Chn) (g : Grp) (i ma : Nat) (b r0 : Int) (s : State),
    let e := chwSel s
    let shows (e : Bool × Nat) (t : State) : Prop := ∀ i, i < 4 → rfGet (0x0E050 + 4 * i) t = ew (comWords e s) i
    let others (t : State) : Prop := ∀ a, (∀ i, i < 4 → a ≠ 0x0E050 + 4 * i) → a ≠ 0x0E040 → rfGet a t = rfGet a s
    let w := maskEntry (editWords s)
    let cerr := chanErr e.2 w s
    let gerr := groupErr e.2 (rfGet 0x0E050 s) s
    let x := chan c.val s
    let y := grp g.val s
    let new := x.com
    let hard := (ew x.w 0 ^^^ ew new 0) &&& 0xF9002000 ≠ 0
    let coup := (ew x.w 0 ^^^ ew new 0) &&& 0x001FC000 ≠ 0 ∧ eCls new = 3
    let run := runningW1 x (nowTk s)
    let old := [ew x.w 0, run, ew x.w 2, ew x.w 3]
    let rate := (run ^^^ ew new 1) &&& 0xFF800000 ≠ 0
    let lin := (ew x.w 2 ^^^ ew new 2) &&& 0xFFFFE000 ≠ 0
    let exc := wbits y.w 29 3 ≠ wbits y.com 29 3
    let next (c : Nat) : Int := (nowTk s).fdiv (coarseTk (isFast c)) * coarseTk (isFast c) + coarseTk (isFast c)
    let free : Group := { y with
      w := y.com, busy := false, onLocal := wbit y.com 28 || condOn (pgGroup g.val) inSNSLOST 0 s, lock := false, retries := if y.lock then 0 else y.retries, excOff := y.excOff && !y.lock,
      offs := if y.lock then y.offs.map fun k => if k.2 = none then (k.1, some (nowTk s)) else k else y.offs }
    let effect : Group := { free with iExc := if excOn free then ma else 0, limit := y.limit && excOn free }
    ((page pgCHW s).freeze = false →
      Runs (.chwSelWrite r v) s [.rf] (fun t => rfGet 0x0E040 t = v &&& 0x3FF ∧ shows (wbit v 9, wbits v 0 9) t ∧ others t) ∧
      Runs (.chwReload r) s [.rf] (fun t => rfGet 0x0E040 t = rfGet 0x0E040 s ∧ shows e t ∧ others t) ∧
      (e.1 = false → cerr ≠ 0 → Runs (.chwCommit r) s [.ana] fun t => t.ana = { s.ana with chwErr := cerr }) ∧
      (e.1 = true → gerr ≠ 0 → Runs (.chwCommit r) s [.ana] fun t => t.ana = { s.ana with chwErr := gerr }) ∧
      (e.1 = false → cerr = 0 → Runs (.chwCommit r) s [.pages, .ana, .chans] fun t => t.ana = { s.ana with chwErr := 0 } ∧ Becomes chan e.2 { chan e.2 s with
        com := w, busy := true, pendF := (chan e.2 s).pendF || decide (ew (chan e.2 s).w 1 ≠ ew w 1), clean := if (chan e.2 s).com = w then (chan e.2 s).clean else none } s t) ∧
      (e.1 = true → gerr = 0 → Runs (.chwCommit r) s [.pages, .ana, .grps] fun t => t.ana = { s.ana with chwErr := 0 } ∧
        Becomes grp e.2 { grp e.2 s with com := maskGroup e.2 (rfGet 0x0E050 s), busy := true } s t)) ∧
    (s.pwr.stopped = false → y.busy = true →
      (s.fuse.hx000 = true → Runs (.chwCommitEffect (.group g) ma) s [.grps] (Becomes grp g.val { y with w := y.com, busy := false } s)) ∧
      (s.fuse.hx000 = false → ¬ exc → Runs (.chwCommitEffect (.group g) ma) s [.fab, .grps] fun t => Becomes grp g.val effect s t ∧ (y.lock = true → condOn (pgGroup g.val) inEXCOFF 0 t = false) ∧ (excOn free = false → condOn (pgGroup g.val) inEXCLIMIT 0 t = false)) ∧
      (s.fuse.hx000 = false → exc → i < groupSize g.val → eCls (chan (slotAt g.val i) s).w ≠ 0 → (chan (slotAt g.val i) s).duty.isSome = true →
        Runs (.chwCommitEffect (.group g) ma) s (reporting [.chans, .grps]) fun t => (grp g.val t).w = y.com ∧ (grp g.val t).ovl = none ∧
          (chan (slotAt g.val i) t).swTo = some (next (slotAt g.val i), (chan (slotAt g.val i) s).range))) ∧
    (s.fuse.hx000 = false →
      (s.pwr.stopped = false → x.busy = true → Runs (.chwCommitEffect (.chan c) ma) s (reporting [.bst, .svc, .chans, .grps, .lins]) fun t =>
        (chan c.val t).w = new ∧ (chan c.val t).com = new ∧ ((chan c.val t).busy = true ↔ rate) ∧
        (rate → (chan c.val t).old1 = run ∧ (chan c.val t).tb = some (rateBoundary c.val old new s) ∧ (chan c.val t).tr = some (reconfigAt (isFast c.val) (rateBoundary c.val old new s) old)) ∧
        (¬ rate → run = ew x.w 1 → (chan c.val t).old1 = x.old1 ∧ (chan c.val t).tb = x.tb ∧ (chan c.val t).tr = x.tr) ∧
        (¬ rate → run ≠ ew x.w 1 → (chan c.val t).tb = none ∧ (chan c.val t).tr = none ∧ (chan c.val t).pendF = false) ∧
        (lin → (chan c.val t).linOld = histPut (nowTk s) (ew x.w 2, coefsOf c.val s) x.linOld ∧ (nowTk s, false) ∈ (chan c.val t).cAt) ∧ (¬ lin → (chan c.val t).linOld = x.linOld) ∧
        (coup → ⟨false, nowTk s, nowTk s + couplingTk new⟩ ∈ (chan c.val t).spans) ∧
        (hard → x.duty.isSome = true → (chan c.val t).swTo = some (next c.val, eRange new))) ∧
      (x.tb = some b → x.tr = some r0 → x.busy = true → Runs (.rateBoundary c) s [.pages, .del, .chans] (Becomes chan c.val { x with
        busy := false, pendF := false, regr := false, settle := hasGrid x.w, rateSet := hasGrid x.w,
        spans := if hasGrid x.w then x.spans ++ [⟨true, b, if phaseHalf x.old1 ≠ phaseHalf (ew x.w 1) ∧ isFast c.val = false then r0 + settleTk false else r0⟩] else x.spans } s)) ∧
      (x.tb = some b → x.tr = some r0 → x.busy = false → x.regr = true → Runs (.rateBoundary c) s [.pages, .chans] (Becomes chan c.val { x with regr := false, settle := true } s)) ∧
      (x.tr = some r0 → Runs (.chainReconfigure c) s [.chans] (Becomes chan c.val
        { x with tr := none, skipAt := if isFast c.val = false ∧ phaseHalf x.old1 ≠ phaseHalf (ew x.w 1) then some r0 else x.skipAt } s)))

/-- R107–R111, R117, R121–R127: the relief. A free relief serves the oldest range request, else a rotation of the next eligible channel; without one, or when the wait is over, a range changes by a hard switch at the next coarse boundary; a hard switch changes range, flags and counts; the freed incumbent becomes the relief or is checked; a good check starts the handover once more, a bad one retires the converter. Model's choices: log 53, 55, 56, 57. -/
def Obligations.ReliefServesRangesAndRotation : Prop :=
  ∀ (r : Req) (g : Grp) (c : Chn) (k d range : Nat) (tsw u0 up un : Int) (q : RReq) (o : Ovl) (h : Chk) (conv : Fin 17) (f : Nat × Nat) (s : State), s.fuse.hx000 = false →
    let x := grp g.val s
    let p := pgGroup g.val
    let y := chan c.val s
    let gc := grpOf c.val
    let pass := refCheckOk g.val conv.val h.range (u0, up, un) s = true
    let found := refCheckOk g.val conv.val f.2 (u0, up, un) s = true
    let out := reporting [.bst, .grps]
    let outc := [Area.chans] ++ out
    let starts (c : Nat) (rng : Bool) (target attempt : Nat) (req : RReq) (t : State) : Prop :=
      (grp g.val t).ovl = some { ch := c, range := rng, target := target, tq := nowTk s, tc := nowTk s + connectTk, ns := firstStarting c (nowTk s + connectTk + settleTk (isFast c)) s, req := req, attempt := attempt, overrun := req.isOver } ∧
      (grp g.val t).task = (if rng then 4 else 3) ∧ (grp g.val t).tgt = idxOf c ∧ (grp g.val t).trange = target ∧ ∀ j, j ≠ g.val → grp j t = grp j s
    let rotates (c : Instr) (up : Nat) : Prop :=
      (mayTake 3 x = false → Runs c s out (Becomes grp g.val { x with rotWait := true, tickUp := up } s)) ∧
      (mayTake 3 x = true → rotTarget g.val s = some k → Runs c s out fun t => starts k false (chan k s).range 0 ⟨k, (chan k s).range, nowTk s, 2, false⟩ t ∧ (grp g.val t).last = idxOf k ∧ (grp g.val t).rotWait = false ∧ (grp g.val t).tickUp = up)
    let next (c : Nat) : Int := (nowTk s).fdiv (coarseTk (isFast c)) * coarseTk (isFast c) + coarseTk (isFast c)
    let switched (g c target : Nat) (t : State) : Prop := (chan c t).swTo = some (next c, target) ∧ queued g c t = none ∧ ((grp g s).hardAt = none → Latched (pgGroup g) relHARD t)
    (x.relief.isSome = true → s.pwr.stopped = false →
      (x.tickUp + rotPerNs g.val s ≤ s.tim.up → wbit (reliefCtrl g.val s) 31 = true → x.camp = false → rotates (.rotationTick g) s.tim.up) ∧
      ((page p s).freeze = false → rotates (.reliefForce r g) x.tickUp) ∧
      (oldestReq g.val s = some q → mayTake 4 x = true → Runs (.reliefTaskStart g) s out fun t => starts q.ch true q.target 0 q t ∧ (grp g.val t).q = x.q.filter fun r => decide (r.ch ≠ q.ch)) ∧
      (oldestReq g.val s = none → x.rotWait = true → mayTake 3 x = true → rotTarget g.val s = some k → Runs (.reliefTaskStart g) s out fun t =>
        starts k false (chan k s).range 0 ⟨k, (chan k s).range, nowTk s, 2, false⟩ t ∧ (grp g.val t).last = idxOf k ∧ (grp g.val t).rotWait = false)) ∧
    (s.tim.up < x.tickUp + rotPerNs g.val s → Runs (.rotationTick g) s [] fun t => t = s) ∧
    (x.tickUp + rotPerNs g.val s ≤ s.tim.up → wbit (reliefCtrl g.val s) 31 = false → Runs (.rotationTick g) s [.grps] (Becomes grp g.val { x with tickUp := s.tim.up } s)) ∧
    (x.relief = none → oldestReq g.val s = some q → grpOf q.ch = g.val → (chan q.ch s).duty.isSome = true → Runs (.reliefTaskStart g) s outc (switched g.val q.ch q.target)) ∧
    (queued gc c.val s = some q → q.kind = 0 → hardWait gc s ≠ 0 → y.duty.isSome = true → Runs (.hardWaitExpiry c) s outc (switched gc c.val q.target)) ∧
    (y.swTo = some (tsw, range) → Runs (.hardSwitch c) s (reporting [.chans, .grps]) fun t =>
      Becomes chan c.val { y with
        swTo := none, swAt := some tsw, range := range, rngOld := histPut tsw y.range y.rngOld, dn := 0, cAt := cDue (tsw - halfTk (isFast c.val) (ew y.w 1)) false y.cAt, spans := y.spans ++ [⟨false, tsw, tsw + settleTk (isFast c.val)⟩] } s t ∧
      (grp gc t).hoRng = if y.range ≠ range then ((grp gc s).hoRng + 1) % 65536 else (grp gc s).hoRng) ∧
    (x.freed = some (d, true) → Runs (.incumbentRelease g) s (reporting [.grps]) (Becomes grp g.val { x with
      freed := none, relief := some d, hoRot := if x.task = 3 then (x.hoRot + 1) % 65536 else x.hoRot, hoRng := if x.task = 4 then (x.hoRng + 1) % 65536 else x.hoRng, task := 7, tgt := 0, trange := 0, chk := some ⟨3, d, 0, none⟩ } s)) ∧
    (x.freed = some (d, false) → Runs (.incumbentRelease g) s (reporting [.grps]) fun t => (grp g.val t).freed = none ∧ (grp g.val t).relief = some d ∧ (grp g.val t).tgt = 0 ∧ (grp g.val t).trange = 0 ∧
      (grp g.val t).hoRot = (if x.task = 3 then (x.hoRot + 1) % 65536 else x.hoRot) ∧ (grp g.val t).hoRng = if x.task = 4 then (x.hoRng + 1) % 65536 else x.hoRng) ∧
    (x.chk = some h → h.conv = conv.val →
      (¬ pass → Runs (.referenceCheckDone g ⟨conv, u0, up, un⟩) s outc (fun t => (grp g.val t).chk = none ∧ (grp g.val t).retired.testBit conv.val = true ∧ Latched p relRETIRED t ∧
        (x.relief = some conv.val → (grp g.val t).relief = none ∧ Latched p relNORELIEF t) ∧ (x.relief ≠ some conv.val → dutyChan g.val conv.val s = some k → (chan k t).duty = none ∧ Latched p relCONVLOST t))) ∧
      (pass → (h.why = 1 ∨ h.why = 2) → h.ho = some o → (chan o.ch s).duty.isSome = true → (chan o.ch s).isOpen = false → Runs (.referenceCheckDone g ⟨conv, u0, up, un⟩) s outc fun t =>
        starts o.ch o.range (if o.range then o.target else (chan o.ch s).range) h.why o.req t ∧ (grp g.val t).chk = none) ∧
      (pass → h.why = 3 → h.range < 3 → Runs (.referenceCheckDone g ⟨conv, u0, up, un⟩) s outc (Becomes grp g.val { x with task := 7, trange := h.range + 1, chk := some { h with range := h.range + 1 } } s)) ∧
      (pass → h.why = 3 → 3 ≤ h.range → Runs (.referenceCheckDone g ⟨conv, u0, up, un⟩) s outc fun t => (grp g.val t).chk = none ∧ (grp g.val t).tgt = 0 ∧ (grp g.val t).trange = 0)) ∧
    ((∀ h, x.chk = some h → h.conv ≠ conv.val) →
      (x.runChks.find? (·.1 = conv.val) = none → Runs (.referenceCheckDone g ⟨conv, u0, up, un⟩) s [] fun t => t = s) ∧
      (x.runChks.find? (·.1 = conv.val) = some f →
        (¬ found → Runs (.referenceCheckDone g ⟨conv, u0, up, un⟩) s outc fun t => (grp g.val t).retired.testBit conv.val = true ∧ Latched p relRETIRED t) ∧
        (found → Runs (.referenceCheckDone g ⟨conv, u0, up, un⟩) s [.grps] fun t => (grp g.val t).runChks = x.runChks.erase f ∧ (grp g.val t).again = f :: x.again)))

/-- R177, R182, R185–R188, R191, R192: calibration. A temperature is taken, and one that strays starts a campaign, as GO does: every converter in service is due; a point joins its run, and a complete quiet run near the prediction replaces its table's nearest point, one outside brings a reference check; the SET window shows, writes and deletes points under its limits, the LIN window coefficients, which each channel takes at its own boundary. Model's choices: log 5, 56, 57. -/
def Obligations.CalibrationCampaignsAndWindows : Prop :=
  ∀ (r : Req) (g : Grp) (gn : Nat) (temp : Int) (v : Word) (conv : Fin 17) (range : Fin 4) (src : Fin 3) (dwell : Nat) (samples : List Int) (rw : Word) (p : CalPt × CalPt × CalPt) (k : Frac × Frac × Frac) (pt : GPoint) (c : Chn) (pend : List Word) (s : State),
    let x := grp g.val s
    let due (g : Nat) (t : State) : Prop := (grp g t).camp = true ∧ ((grp g s).camp = false → Latched pgCAL calCAMPSTART t) ∧
      ∀ n, n ≤ groupSize g → inServiceConv g n s = true → FMap.get (fun _ => 0) (grp g t).due n = 15
    let campaign := x.begun = true ∧ strayed x temp s = true ∧ (x.camp = false ∨ strayed x x.temp s = false)
    let read (t : State) : Prop := (grp g.val t).temp = temp ∧ (grp g.val t).tempWas = x.temp ∧ (grp g.val t).tempAt = nowTk s ∧ (s.tim.up, temp) ∈ (grp g.val t).temps
    let dw := calDwell g.val
    let l := samples.take dw
    let since := s.tim.up - pointNs g.val dw
    let pts := (⟨conv.val, range.val, src.val, Frac.mk2 (sumInt l) (dw * 2 ^ 40), l.foldl max (l.headD 0) - l.foldl min (l.headD 0), since, s.tim.up, x.temp⟩ : CalPt) ::
      x.pts.filter fun p => !(decide (p.conv = conv.val) && decide (p.range = range.val) && decide (p.src = src.val))
    let calm := quietRun g.val p s = true
    let frozen := wbit (rfGet 0x08044 s) g.val = true
    let tr := (Frac.mk2 (p.1.temp + p.2.1.temp + p.2.2.temp) 3).roundEven
    let solved := solveRun p.1.mean p.2.1.mean p.2.2.mean (refsOf g.val s).1 (refsOf g.val s).2
    let old := table g.val conv.val range.val s
    let near := withinLimits k (coefAt old tr) = true
    let mine := x.relief = some conv.val ∧ x.task = 1 ∧ tatHolds g.val s = false
    let unused := x.relief ≠ some conv.val ∧ (∃ c, dutyChan g.val conv.val s = some c ∧ eCls (chan c s).w = 0) ∧ (x.runChks.any fun k => decide (k.1 = conv.val)) = false
    let counts := (mine ∨ unused) ∧ calRange g.val conv.val s = some range.val ∧ dwell = dw ∧ dw ≤ samples.length ∧
      (x.edits.any fun e => decide (e.1 = conv.val) && decide (e.2.1 = range.val) && decide (since ≤ e.2.2)) = false
    let point_ := Instr.calPointDone g conv range src dwell samples
    let again_ := x.again.contains (conv.val, range.val) = true
    let whole := runPoints conv.val range.val pts = some p
    let undue (t : State) : Prop := (FMap.get (fun _ => 0) (grp g.val t).due conv.val).testBit range.val = false
    let out := reporting [.grps]
    let point (t : State) : Prop := match (setTab t)[(setSel t).2.2]? with
      | some q => t.ana.setValid = true ∧ t.ana.setFac = q.fac ∧ rfGet 0x08090 t = BitVec.ofInt 32 q.temp &&& 0xFFFF ∧ rfGet 0x08094 t = q.o ∧ rfGet 0x08098 t = q.g ∧ rfGet 0x0809C t = q.s
      | none => t.ana.setValid = false ∧ t.ana.setFac = false ∧ rfGet 0x08090 t = 0 ∧ rfGet 0x08094 t = 0 ∧ rfGet 0x08098 t = 0 ∧ rfGet 0x0809C t = 0
    let sel := setSel s
    let tab := setTab s
    let wt := (BitVec.ofNat 16 (rfGet 0x08090 s).toNat).toInt
    let others := tab.eraseIdx sel.2.2
    let close := others.any fun p => decide ((p.temp - wt).natAbs ≤ 16)
    let fits := setValueOk (rfGet 0x08094 s) && setValueOk (rfGet 0x08098 s) && setValueOk (rfGet 0x0809C s)
    let said (e : Nat) (t : State) : Prop := t.ana = { s.ana with setErr := e }
    let lk := linSel s
    let w := coefAddrs.map fun a => rfGet a s
    let coefs (n : Nat) (t : State) : Prop := ∀ k w, k < 24 → ((linSlot n s).pend.getD (linSlot n s).cur)[k]? = some w → rfGet (0x08100 + 4 * k) t = w
    let slot := eLinSlot (chan c.val s).w
    let lw := linSlot slot s
    Runs (.tempReading g none) s [] (fun t => t = s) ∧
    (s.fuse.hx000 = false →
      (¬ campaign → Runs (.tempReading g (some temp)) s out read) ∧
      (campaign → wbit (rfGet 0x08044 s) g.val = false → Runs (.tempReading g (some temp)) s out fun t => read t ∧ due g.val t) ∧
      (counts →
        (runPoints conv.val range.val pts = none → Runs point_ s [.grps] (Becomes grp g.val { x with pts := pts } s)) ∧
        (whole → (solved = none ∨ (solved = some k ∧ ¬ near)) →
          (¬ again_ → Runs point_ s out fun t => table g.val conv.val range.val t = old ∧ (conv.val, range.val) ∈ (grp g.val t).runChks ∧ (mine → (grp g.val t).task = 7) ∧ Latched pgCAL calRUNREJ t) ∧
          (again_ → Runs point_ s out fun t => table g.val conv.val range.val t = old ∧ undue t ∧ (conv.val, range.val) ∉ (grp g.val t).again ∧ Latched pgCAL calRUNREJ t)) ∧
        (whole → solved = some k → near →
          (¬ calm → Runs point_ s [.grps] fun t => table g.val conv.val range.val t = old ∧ (grp g.val t).due = x.due ∧ runPoints conv.val range.val (grp g.val t).pts = none) ∧
          (calm → frozen → Runs point_ s [.grps] fun t => table g.val conv.val range.val t = old ∧ (grp g.val t).due = x.due ∧ (conv.val, range.val) ∉ (grp g.val t).again) ∧
          (calm → ¬ frozen → Runs point_ s ([Area.ana] ++ out) fun t =>
            table g.val conv.val range.val t = putPoint ⟨tr, (f32OfFrac k.1).1, (f32OfFrac k.2.1).1, (f32OfFrac k.2.2).1, false⟩ old ∧
            (grp g.val t).runs = (x.runs + 1) % 65536 ∧ t.ana.dRuns = s.ana.dRuns + 1 ∧ undue t))) ∧
      (x.relief = some conv.val → x.task = 1 → (tat g.val s).deferRun = none → (tat g.val s).task = some rw → tatOp rw = 5 → wbits rw 24 4 = src.val → wbits rw 20 2 = range.val → wbits rw 0 16 = dwell → dwell ≤ samples.length → dwell < 16 →
        Runs point_ s [.grps] fun t => (grp g.val t).tgt = 0 ∧ (grp g.val t).trange = 0 ∧ (grp g.val t).pts = x.pts ∧ tat g.val t = tat g.val (tatNext g.val s)) ∧
      (lw.pend = some pend → lw.wait.contains c.val = true → s.pwr.stopped = false → Runs (.linSlotSwitch c) s (reporting [.chans, .lins]) fun t =>
        (chan c.val t).linOld = histPut (nowTk s) (ew (chan c.val s).w 2, lw.cur) (chan c.val s).linOld ∧ (chan c.val t).cAt = cDue (nowTk s) false (chan c.val s).cAt ∧
        (lw.wait.filter (· ≠ c.val) = [] → linSlot slot t = { cur := pend } ∧ Latched pgCAL calLINSWAP t) ∧
        (lw.wait.filter (· ≠ c.val) ≠ [] → linSlot slot t = { lw with wait := lw.wait.filter (· ≠ c.val) }))) ∧
    ((page pgCAL s).freeze = false →
      (wbit v 9 = true → gsel s = gn → gn < 24 → s.fuse.hx000 = false → wbit (rfGet 0x08044 s) gn = false → Runs (.campGo r v) s ([Area.rf] ++ out) fun t => rfGet 0x08040 t = v &&& 0x1FF ∧ due gn t) ∧
      (wbit v 9 = false → Runs (.campGo r v) s [.rf] fun t => rfGet 0x08040 t = v &&& 0x1FF) ∧
      Runs (.calSetSelWrite r v) s [.rf, .ana] (fun t => rfGet 0x08080 t = v &&& 0x1FC7 ∧ point t) ∧
      Runs (.setReload r) s [.rf, .ana] (fun t => rfGet 0x08080 t = rfGet 0x08080 s ∧ point t) ∧
      (s.fuse.hx000 = true → Runs (.setWrite r) s [.ana] (said 4) ∧ Runs (.setDelete r) s [.ana] (said 4)) ∧
      (setOk s = true →
        (close = true → Runs (.setWrite r) s [.ana] (said 2)) ∧
        (close = false → fits = false → Runs (.setWrite r) s [.ana] (said 3)) ∧
        (close = false → fits = true → Runs (.setWrite r) s ([Area.ana, Area.chans] ++ out) fun t => t.ana = { s.ana with setErr := 0, setValid := true, setFac := false } ∧
          table (gsel s) sel.1 sel.2.1 t = sortPoints (⟨wt, rfGet 0x08094 s, rfGet 0x08098 s, rfGet 0x0809C s, false⟩ :: others) ∧ Latched pgCAL calSETWRITE t) ∧
        (tab.length ≤ sel.2.2 → Runs (.setDelete r) s [.ana] (said 0)) ∧
        (tab = [pt] → sel.2.2 = 0 → Runs (.setDelete r) s [.ana] (said 1)) ∧
        (2 ≤ tab.length → sel.2.2 < tab.length → Runs (.setDelete r) s ([Area.rf, Area.ana, Area.chans] ++ out) fun t =>
          t.ana.setErr = 0 ∧ table (gsel s) sel.1 sel.2.1 t = sortPoints others ∧ point t)) ∧
      Runs (.linSelWrite r v) s [.rf] (fun t => rfGet 0x080C0 t = v &&& 0x7F ∧ coefs (wbits v 0 7) t) ∧
      Runs (.linReload r) s [.rf] (coefs lk) ∧
      (s.fuse.hx000 = true → Runs (.linCommit r) s [.ana] fun t => t.ana = { s.ana with linErr := 3 }) ∧
      (s.fuse.hx000 = false →
        ((linSlot lk s).pend.isSome = true → Runs (.linCommit r) s [.ana] fun t => t.ana = { s.ana with linErr := 2 }) ∧
        ((linSlot lk s).pend = none → (w.all fun v => (f32Val v).isSome) = false → Runs (.linCommit r) s [.ana] fun t => t.ana = { s.ana with linErr := 1 }) ∧
        ((linSlot lk s).pend = none → (w.all fun v => (f32Val v).isSome) = true →
          (linUsers lk s = [] → Runs (.linCommit r) s (reporting [.ana, .lins]) fun t => linSlot lk t = { cur := w } ∧ t.ana = { s.ana with linErr := 0 } ∧ Latched pgCAL calLINSWAP t) ∧
          (linUsers lk s ≠ [] → Runs (.linCommit r) s [.pages, .ana, .lins] fun t =>
            Becomes linSlot lk { linSlot lk s with pend := some w, wait := linUsers lk s } s t ∧ t.ana = { s.ana with linErr := 0 }))))

/-- R430–R440: self-test. A slice starts on an idle island of an image with golden values, ends uncounted where service takes the island, and counts when complete: a match goes on to the next slice, a mismatch is repeated once and then fails the island; reserved windows serve forced slices; a cycle ends complete or late; a disabled self-test starts afresh; TEST blocks carry the PRBS; an analogue check ends at once with its error or gives the result of its ranges. Model's choices: log 10, 56, 60, 61, 62, 64. -/
def Obligations.SelfTestCoversTheIslands : Prop :=
  ∀ (r : Req) (k : Fin 72) (p : Port) (v sig golden : Word) (words : List W128) (res : List (Int × Int)) (mv conv : Nat) (s : State),
    let b := s.bst
    let i := isl k.val s
    let out := reporting [.bst]
    let outg := reporting [.bst, .grps]
    let all_ := reporting [.bst, .tcs, .mem, .chans, .grps]
    let run := b.running.contains k.val = true
    let began (st : Nat) (t : State) : Prop := t.bst.running.contains k.val = true ∧ t.bst.state = st ∧ t.bst.isl = k.val ∧ t.bst.slice = i.slice ∧ (k.val < 24 → (grp k.val t).task = 2)
    let may : Bool := sliceable k.val s && islIdle k.val s && !(decide (24 ≤ k.val) && coreSlice s)
    let judged (n : Nat) (forced : Bool) (t : State) : Prop :=
      t.bst.running.contains k.val = false ∧ t.bst.slices = (b.slices + 1) % 65536 ∧ t.bst.forced = n ∧ (isl k.val t).forced = forced ∧
      (sig = golden → (isl k.val t).done = i.done + 1 ∧ (isl k.val t).retry = false ∧ (isl k.val t).failed = i.failed ∧ (isl k.val t).slice = (if i.slice + 1 < islSlices k.val s then i.slice + 1 else 0) ∧ t.bst.fails = b.fails) ∧
      (sig ≠ golden → t.bst.fails = (b.fails + 1) % 65536 ∧ (isl k.val t).done = i.done ∧
        (i.retry = false → (isl k.val t).retry = true ∧ (isl k.val t).failed = i.failed ∧ Latched pgBST bstSIGRETRY t) ∧
        (i.retry = true → (isl k.val t).failed = true ∧ t.bst.lastIsl = k.val ∧ t.bst.lastSlice = i.slice ∧ t.bst.lastSig = sig ∧ t.bst.lastGold = golden ∧ Latched pgBST bstSIGFAIL t))
    let cleared (t : State) : Prop := t.bst.state = 0 ∧ t.bst.running = [] ∧ t.bst.cycles = 0 ∧ t.bst.slices = 0 ∧ t.bst.abandon = 0 ∧ t.bst.forced = 0 ∧ t.bst.fails = 0 ∧ (i.failed = true → (isl k.val t).failed = true)
    let full := hasGolden s && (covered s).all fun j => decide (islSlices j s ≤ (isl j s).done)
    let ended (t : State) : Prop := t.bst.cycles = (b.cycles + 1) % 65536 ∧ t.bst.cycAt = s.tim.up ∧ (∀ j ∈ covered s, (isl j t).done = 0) ∧ Latched pgBST (if full then bstCYCLEDONE else bstCOVLATE) t
    let g := b.achkGrp
    let x := grp g s
    let gv := wbits v 0 5
    let e := checkErr gv s
    let tx := prbsWords 8 (lane p.val s).prbsTx
    let rx := prbsWords 8 (lane p.val s).prbsRx
    let good := slice (words ++ List.replicate 8 0) 0 8 = rx.2
    let rng := checkRanges 0 res
    let isOver : Bool := b.achkMode && decide (g < 16) && excOn x
    let ok : Bool := decide ((mv : Int) * 100 ≤ x.excMv * 102) && decide ((x.excMv : Int) * 98 ≤ mv * 100)
    let checked (n : Nat) (t : State) : Prop := t.bst.achkBusy = false ∧ t.bst.achkErr = 0 ∧ t.bst.achkRes = n ∧ t.bst.achkConv = conv ∧ Latched pgBST bstACHKDONE t
    (islMethod k.val s = 0 → i.forced = false → ¬ run →
      (i.abn = 0 → i.retry = false → Runs (.sliceStart k) s outg fun t => if may = true ∧ i.done < islSlices k.val s ∧ paced s = true then began 2 t ∧ t.bst.lastStart = some s.tim.up else t = s) ∧
      (0 < i.abn ∨ i.retry = true → Runs (.sliceRetry k) s outg fun t => if may = true then began 2 t else t = s)) ∧
    (b.state = 3 → b.isl = k.val → Runs (.sliceRestoreDone k) s [.bst] fun t => t.bst = { b with state := bstIdle s }) ∧
    (run → i.forced = false → islMethod k.val s = 0 → Runs (.sliceComplete k sig golden) s all_ (judged b.forced false)) ∧
    (run → (i.forced = true ∨ islMethod k.val s = 1) → Runs (.forcedSliceDone k sig golden) s all_ (judged ((b.forced + 1) % 65536) false)) ∧
    (islMethod k.val s < 2 → ¬ (i.forced = true ∧ b.state = 4 ∧ b.isl = k.val) → Runs (.reservedWindow k) s outg fun t =>
      if sliceable k.val s = true ∧ wantsWindow k.val s = true then
        (24 ≤ k.val → ¬ run → coreSlice s = false → began 4 t) ∧ (k.val < 24 → ¬ run → mayTake 8 (grp k.val s) = true → began 4 t ∧ (grp k.val t).fwin = true)
      else t = s) ∧
    (bstEn s = true → b.cycAt + cycleNs s ≤ s.tim.up → Runs .coverageCycleEnd s out ended) ∧
    (s.tim.up < b.cycAt + cycleNs s → Runs .coverageCycleEnd s [] fun t => t = s) ∧
    (∀ c pk, islandOf c = some pk → (page pk.1 s).freeze = false → exec c s = exec c (serve pk.2 s)) ∧
    ((page pgBST s).freeze = false →
      (wbit v 31 = true → bstEn s = true → Runs (.newcyc r v) s ([Area.rf] ++ out) fun t => ended t ∧ rfGet 0x07040 t = v &&& 0x8000FFFF) ∧
      (wbit v 30 = false → Runs (.bstDisable r v) s ([Area.rf] ++ outg) fun t => cleared t ∧ rfGet 0x07040 t = v &&& 0xFFFF) ∧
      (e = 3 → Runs (.analogueCheckGo r v) s [.rf, .bst] fun t => t.bst = { b with achkErr := 3 }) ∧
      (e ≠ 0 → e ≠ 3 → Runs (.analogueCheckGo r v) s ([Area.rf] ++ out) fun t => t.bst = { b with achkBusy := false, achkErr := e, achkRes := 0x8000 } ∧ Latched pgBST bstACHKDONE t) ∧
      (e = 0 → (grp gv s).relief = some conv → Runs (.analogueCheckGo r v) s [.rf, .bst, .grps] fun t =>
        t.bst = { b with achkBusy := true, achkGrp := gv, achkMode := wbit v 8, achkErr := 0, achkConv := conv, achkRes := 0, achkRng := [], achkExc := 0 } ∧
        (mayTake 1 (grp gv s) = true → (grp gv t).task = 1))) ∧
    (x.relief = some conv → b.achkBusy = true → x.task = 1 → tatHolds g s = false →
      (rng.2 = true → Runs (.analogueCheckDone res (some mv)) s ([Area.chans] ++ outg) fun t => checked (0x9000 ||| rng.1) t ∧ (grp g t).retired.testBit conv = true ∧ (grp g t).relief = none) ∧
      (rng.2 = false → 4 ≤ res.length → isOver = true → Runs (.analogueCheckDone res (some mv)) s outg fun t => checked (0xA000 ||| rng.1 ||| (if ok then 0x4000 else 0)) t ∧ t.bst.achkExc = mv % 65536) ∧
      (rng.2 = false → 4 ≤ res.length → isOver = false → Runs (.analogueCheckDone res (some mv)) s outg (checked (0x8000 ||| rng.1))) ∧
      (rng.2 = false → (res.length < 4 ∨ isOver = true) → Runs (.analogueCheckDone res none) s [] fun t => t = s)) ∧
    ((lane p.val s).state = 4 →
      Runs (.testBlockTimer p) s [.lanes] (Becomes lane p.val { lane p.val s with prbsTx := tx.1, ctl := (lane p.val s).ctl ++ [⟨0xB7, tx.2⟩] } s) ∧
      (good → Runs (.testBlockReceive p words) s [.lanes] (Becomes lane p.val { lane p.val s with prbsRx := rx.1 } s)) ∧
      (¬ good → condOn pgBST bstTESTERR p.val s = false → Runs (.testBlockReceive p words) s ([Area.pln, Area.lanes, Area.lsh] ++ out) fun t =>
        t.bst.fails = (b.fails + 1) % 65536 ∧ Latched pgBST bstTESTERR t ∧ (lane p.val t).prbsRx = rx.1 ∧ (lane p.val t).crc = ((lane p.val s).crc + 1) % 65536))

/-- R443, R445–R447, R451–R453: supervisor images and the flash window. A staged image is checked and paired or fails with its code; it swaps at an idle boundary, or the wait is called off; the handover starts a trial, or ends one; a confirmed trial writes the boot record, any other goes back; programming and erasing refuse protected ranges and change exactly theirs; the page and header buffers fill, FL_DATA reads on. Model's choices: log 7, 60, 63, 65, 66. -/
def Obligations.FirmwareIsExchanged : Prop :=
  ∀ (r : Req) (v : Word) (op a : Nat) (s : State),
    let w := s.fwl
    let out := reporting [.fwl]
    let other := bankImage (1 - w.bank) s
    let refused := (partners s).any fun t => pairRefused other.2 (partnerHdr t other.2.ifver s)
    let failed (code st : Nat) (t : State) : Prop := t.fwl = { w with err := code, state := st } ∧ Latched pgFWL fwlSTAGEFAIL t
    let e := hdrErr 1 (flashRead (bankBase (1 - w.bank)) 1024 s) s
    let old := bootRec s
    let table := w.good.foldl (fun t e => e :: t.filter (·.1 ≠ e.1)) old.table
    let at_ := flAddr s
    let sector := at_ / 0x10000 * 0x10000
    let n := if op = 1 then min w.page.length (flashSize - a) else 0x10000
    let inside (y : Nat) : Prop := flashBase + a ≤ y ∧ y < flashBase + a + n
    (w.state = 1 →
      Runs (.stageDone false) s out (failed 7 0) ∧
      Runs (.stageDone true) s out fun t => if other.1 ≠ 0 then failed other.1 0 t else if refused = true then failed 5 0 t
        else t.fwl = { w with state := 2, staged := some other.2 } ∧ Latched pgFWL fwlSTAGED t) ∧
    (w.state = 3 →
      (idleBoundary s = true → Runs .swapIdleBoundary s [.pages, .fwl, .bst, .grps] fun t => t.fwl = { w with state := 4 } ∧ t.bst.running = []) ∧
      (w.back = false → Runs .swapTimeout s out (failed 6 2))) ∧
    (w.state = 4 → Runs .handoverDone s ([Area.bst] ++ out) fun t => t.fwl.run = w.staged ∧ t.fwl.staged = w.run ∧ t.fwl.bank = 1 - w.bank ∧ t.fwl.back = false ∧ t.fwl.boots = w.boots ∧
      t.fwl.state = (if w.back then 2 else 5) ∧ Latched pgFWL (if w.back then fwlREVERTED else fwlSWAPPED) t) ∧
    (w.state = 5 → Runs .trialTimeout s [.pages, .fwl] fun t => t.fwl = { w with state := 3, back := true }) ∧
    ((page pgFWL s).freeze = false → serve 65 s = s →
      ((w.state = 0 ∨ w.state = 6) → Runs (.fwStage r) s [.pages, .fwl] fun t => t.fwl = { w with state := 1, err := 0 }) ∧
      (w.state ≠ 0 → w.state ≠ 6 → Runs (.fwStage r) s [.fwl] fun t => t.fwl = { w with err := 8 }) ∧
      (w.state = 2 → Runs (.fwSwap r) s out fun t => if e ≠ 0 then failed e 2 t else t.fwl = { w with state := 3, err := 0, back := false }) ∧
      (w.state ≠ 2 → Runs (.fwSwap r) s [.fwl] fun t => t.fwl = { w with err := 8 }) ∧
      (w.state = 5 →
        Runs (.fwConfirm r) s out (fun t => t.fwl = { w with state := 6, err := 0, good := [], boots := t.fwl.boots } ∧ Latched pgFWL fwlCONFIRMED t ∧
          (old.seq + 1 < 2 ^ 32 → bootRec t = { ok := true, seq := old.seq + 1, active := w.bank, table := table })) ∧
        Runs (.fwRevert r) s [.pages, .fwl] fun t => t.fwl = { w with state := 3, err := 0, back := true }) ∧
      (w.state ≠ 5 → Runs (.fwConfirm r) s [.fwl] (fun t => t.fwl = { w with err := 8 }) ∧ Runs (.fwRevert r) s [.fwl] fun t => t.fwl = { w with err := 8 }) ∧
      (w.flOp = none →
        (protected_ at_ (max 1 w.page.length) s = true → Runs (.flashProgram r) s [.fwl] fun t => t.fwl = { w with flErr := 1 }) ∧
        (protected_ at_ (max 1 w.page.length) s = false → Runs (.flashProgram r) s [.fwl] fun t => t.fwl = { w with flOp := some (1, at_), flErr := 0 }) ∧
        (protected_ sector 0x10000 s = true → Runs (.flashErase r) s [.fwl] fun t => t.fwl = { w with flErr := 1 }) ∧
        (protected_ sector 0x10000 s = false → Runs (.flashErase r) s [.fwl] fun t => t.fwl = { w with flOp := some (2, sector), flErr := 0 })) ∧
      Runs (.flDataWrite r v) s [.fwl] (fun t => t.fwl = { w with page := if w.page.length + 4 ≤ 256 then w.page ++ leBytes 4 v.toNat else w.page }) ∧
      Runs (.hdrTgtWrite r v) s [.rf, .fwl] (fun t => t.fwl = { w with hdrBuf := [] } ∧ rfGet 0x060A0 t = v &&& 0x3F) ∧
      Runs (.hdrDataWrite r v) s [.fwl] (fun t => t.fwl = { w with hdrBuf := if w.hdrBuf.length + 4 ≤ 1024 then w.hdrBuf ++ leBytes 4 v.toNat else w.hdrBuf })) ∧
    (w.flOp = some (op, a) →
      Runs (.flashOpDone true) s [.mem, .fwl] (fun t => t.fwl = { w with flOp := none, flErr := 0, page := if op = 1 then [] else w.page } ∧
        (∀ y, ¬ inside y → Memory.read t.mem y = Memory.read s.mem y) ∧
        ∀ k, k < n → Memory.read t.mem (flashBase + a + k) = if op = 1 then nth 0 w.page k else 0xFF) ∧
      Runs (.flashOpDone false) s [.mem, .fwl, .free] fun t => t.fwl = { w with flOp := none, flErr := if op = 1 then 2 else 3, page := if op = 1 then [] else w.page } ∧
        (∀ y, ¬ inside y → Memory.read t.mem y = Memory.read s.mem y) ∧ (∀ k, k < n → Memory.read t.mem (flashBase + a + k) = Config.freeByte s.free k) ∧ t.free = s.free + 1) ∧
    (0x10000 ≤ at_ → Runs (.flDataRead r) s [.rf, .outbox] fun t => t.outbox = .read r.val 0x06094 (BitVec.ofNat 32 (leNat (flashRead at_ 4 s))) :: s.outbox ∧ rfGet 0x06090 t = (rfGet 0x06090 s + 4) &&& 0x1FFFFFF) ∧
    (at_ < 0x10000 → Runs (.flDataRead r) s [.rf, .free, .outbox] fun t => t.outbox = .read r.val 0x06094 (Config.freeWord s.free) :: s.outbox ∧ rfGet 0x06090 t = (rfGet 0x06090 s + 4) &&& 0x1FFFFFF)

/-- R444: the customer key. A burn takes X and then Y from the first 64 bytes of the page buffer, where it holds as many; it is never undone; a second one is refused with ERR = 8; from then on no image is valid without a countersignature under it, and one already staged is not swapped in. -/
def Obligations.CustomerKeyIsBurntOnce : Prop :=
  ∀ (r : Req) (k : Nat × Nat) (kind : Nat) (h body : List Byte) (c : Instr) (t : State) (s : State),
    let f := s.fuse
    ((page pgFWL s).freeze = false → serve 65 s = s →
      (f.ckey = none → f.ckeyBusy = none → 64 ≤ s.fwl.page.length → Runs (.ckeyBurn r) s [.fuse] fun t =>
        t.fuse = { f with ckeyBusy := some (beNat (s.fwl.page.take 32), beNat ((s.fwl.page.drop 32).take 32)) }) ∧
      (f.ckey.isSome = true ∨ f.ckeyBusy.isSome = true → Runs (.ckeyBurn r) s [.fwl] fun t => t.fwl = { s.fwl with err := 8 })) ∧
    (f.ckeyBusy = some k → Runs .ckeyBurnDone s [.fuse] fun t => t.fuse = { f with ckey := some k, ckeyBusy := none }) ∧
    (f.ckey = some k → f.ckeyBusy = none → exec c s = .next t → t.fuse.ckey = some k) ∧
    (f.ckey = some k → sigOk k h 864 864 = false → imageErr kind h body s ≠ 0) ∧
    (f.ckey = some k → sigOk k (flashRead (bankBase (1 - s.fwl.bank)) 1024 s) 864 864 = false → s.fwl.state = 2 → (page pgFWL s).freeze = false →
      Runs (.fwSwap r) s (reporting [.bst]) fun t => t.fwl.state = 2 ∧ t.fwl.err ≠ 0)

/-- One step runs the command at the front of the queue, on the state with the rest of the queue; with none waiting it is one tick of the 1 GHz count (the model's choice, log 1 and 2; R195 for the tick). -/
def Obligations.StepRunsTheCommandInFront : Prop :=
  (∀ (c : Instr) (rest : List Instr) (s : State), s.pending = c :: rest → step s = exec c { s with pending := rest }) ∧
  ∀ s : State, s.pending = [] → step s = .next (tick s)

/-- Every step goes on, touches nothing outside the areas of its command (an idle step only the time and the standby counter), keeps memory canonical and the fuses' life, and never changes what production test fixed (R426, R444). Model's choices: log 1, 2, 8. -/
def Obligations.EveryStepGoesOnInItsFrameAndKeepsTheInvariant : Prop :=
  ∀ s : State, ∃ t, step s = .next t ∧
    (∀ c rest, s.pending = c :: rest → Touches (touched c) { s with pending := rest } t) ∧
    (s.pending = [] → Touches [.tim, .pwr] s t) ∧ (Inv s → Inv t) ∧ t.fuse.fixed = s.fuse.fixed

/-- The state after reset: no command waits, the invariant holds, every page's header, and the registers that the manual gives reset values for, read those values. Model's choices: log 3, 4, 5, 6. -/
def Obligations.ResetReadsAsStated : Prop :=
  Inv State.reset ∧ State.reset.pending = [] ∧ (∀ p, page p State.reset = {}) ∧ (∀ a, Memory.read State.reset.mem a = Memory.unlisted a) ∧
  ∀ x ∈ [(0x00008, (1 : Word)), (0x0000C, 0), (0x00014, 0), (0x00018, 0), (0x0001C, 0), (0x00020, 0), (0x00024, 0), (0x00040, 0x32000000), (0x00044, 0x114231), (0x01050, 1), (0x02044, 0), (0x03040, 0x000A4000),
      (0x04040, 0x41), (0x0506C, 0), (0x05088, 0x00FFFFFF), (0x05100, 8), (0x06040, 0x0800003C), (0x07040, 0x800005A0), (0x08040, 20), (0x09044, 0), (0x09050, 0x83000000), (0x09064, 0x10),
      (0x09070, 0xFFFFFFFF), (0x09074, 0xFFFFFFFF), (0x09078, 0xFFFFFFFF), (0x0E050, 0x00110000), (0x0E054, 0x38000000), (0x0E058, 0), (0x0E05C, 0x03196400), (0x10040, 0x832400C8), (0x10044, 0x0206000C), (0x10048, 0)],
    regRead x.1 State.reset = x.2

/-- R158, R335, R336: program words. The word of every Haldom instruction, with every operand its encoding admits, reads back as that instruction on its core; a Tattoo word does so on its group, and a Tattoo word that reads as an instruction is the word of it, so that no bit outside the named fields passes. Model's choices: log 33. -/
def Obligations.ProgramWordsReadBack : Prop :=
  (∀ (i : Instr) (w : Word), haldomWord i = some w → ∃ n, haldomInstr n w = some i) ∧
  (∀ (i : Instr) (w : Word), tattooWord i = some w → ∃ g, tattooInstr g w = some i) ∧
  ∀ (g : Grp) (w : Word) (i : Instr), tattooInstr g w = some i → tattooWord i = some w
end

