-- ==== Sys2Proof/Laws/Memory.lean ====
section
/-! SUPPORT. Sparse maps: what reading after a write gives, and that every operation of memory keeps the canonical form. -/

namespace Sys2Proof.Machine

variable {α : Type}

section
variable [DecidableEq α]

/-- A weaker bound on the first key. -/
theorem FMap.wfFrom_mono {d : Nat → α} {n k : Nat} {m : FMap α} (h : FMap.wfFrom d n m = true) (hk : k ≤ n) : FMap.wfFrom d k m = true := by
  cases m with
  | nil => rfl
  | cons e m =>
    obtain ⟨j, a⟩ := e
    simp only [FMap.wfFrom, Bool.and_eq_true, decide_eq_true_eq] at h ⊢
    exact ⟨⟨Nat.le_trans hk h.1.1, h.1.2⟩, h.2⟩

/-- A key below every listed one reads as unlisted. -/
theorem FMap.get_of_lt {d : Nat → α} {m : FMap α} {n k : Nat} (h : FMap.wfFrom d n m = true) (hk : k < n) : FMap.get d m k = d k := by
  induction m generalizing n with
  | nil => rfl
  | cons e m ih =>
    obtain ⟨j, a⟩ := e
    simp only [FMap.wfFrom, Bool.and_eq_true, decide_eq_true_eq] at h
    rw [FMap.get, if_neg (by omega)]
    exact ih h.2 (by omega)

/-- Listing a key at what it does not read as unlisted keeps the form. -/
theorem FMap.wfFrom_ins {d : Nat → α} {m : FMap α} {n k : Nat} {v : α} (h : FMap.wfFrom d n m = true) (hk : n ≤ k) (hv : v ≠ d k) :
    FMap.wfFrom d n (FMap.ins m k v) = true := by
  induction m generalizing n with
  | nil => simp [FMap.ins, FMap.wfFrom, hv, hk]
  | cons e m ih =>
    obtain ⟨j, a⟩ := e
    simp only [FMap.wfFrom, Bool.and_eq_true, decide_eq_true_eq] at h
    simp only [FMap.ins]
    split
    · simp only [FMap.wfFrom, Bool.and_eq_true, decide_eq_true_eq]
      exact ⟨⟨hk, hv⟩, ⟨by omega, h.1.2⟩, h.2⟩
    · split
      · rename_i h2
        subst h2
        simp only [FMap.wfFrom, Bool.and_eq_true, decide_eq_true_eq]
        exact ⟨⟨hk, hv⟩, h.2⟩
      · simp only [FMap.wfFrom, Bool.and_eq_true, decide_eq_true_eq]
        exact ⟨h.1, ih h.2 (by omega)⟩

/-- Entries taken out keep the form of the rest. -/
theorem FMap.wf_filter {d : Nat → α} {m : FMap α} (p : Nat × α → Bool) (h : FMap.wf d m = true) : FMap.wf d (m.filter p) = true := by
  suffices H : ∀ n, FMap.wfFrom d n m = true → FMap.wfFrom d n (m.filter p) = true from H 0 h
  clear h
  induction m with
  | nil => intro n h; exact h
  | cons e m ih =>
    intro n h
    obtain ⟨j, a⟩ := e
    simp only [FMap.wfFrom, Bool.and_eq_true, decide_eq_true_eq] at h
    by_cases hp : p (j, a)
    · simp only [List.filter, hp, FMap.wfFrom, Bool.and_eq_true, decide_eq_true_eq]
      exact ⟨h.1, ih _ h.2⟩
    · simp only [List.filter, hp]
      exact FMap.wfFrom_mono (ih _ h.2) (by omega)

/-- Setting a key keeps the canonical form. -/
theorem FMap.wf_put {d : Nat → α} {m : FMap α} (k : Nat) (v : α) (h : FMap.wf d m = true) : FMap.wf d (FMap.put d m k v) = true := by
  unfold FMap.put
  split
  · exact FMap.wf_filter _ h
  · exact FMap.wfFrom_ins h (Nat.zero_le k) ‹_›

omit [DecidableEq α] in
/-- A listed key reads as listed. -/
theorem FMap.get_ins_self {d : Nat → α} {m : FMap α} {k : Nat} {v : α} : FMap.get d (FMap.ins m k v) k = v := by
  induction m with
  | nil => simp [FMap.ins, FMap.get]
  | cons e m ih =>
    simp only [FMap.ins]
    split
    · simp [FMap.get]
    · split
      · simp [FMap.get]
      · rw [FMap.get, if_neg (by omega), ih]

omit [DecidableEq α] in
/-- Listing a key leaves every other key as it reads. -/
theorem FMap.get_ins_of_ne {d : Nat → α} {m : FMap α} {j k : Nat} {v : α} (hjk : j ≠ k) : FMap.get d (FMap.ins m k v) j = FMap.get d m j := by
  induction m with
  | nil => simp [FMap.ins, FMap.get, hjk.symm]
  | cons e m ih =>
    simp only [FMap.ins]
    split
    · simp [FMap.get, hjk.symm]
    · split
      · rename_i h2
        simp [FMap.get, hjk.symm, ← h2]
      · simp only [FMap.get, ih]

omit [DecidableEq α] in
/-- A map without the entries of one key: that key reads as unlisted, every other as before. -/
theorem FMap.get_filter {d : Nat → α} {m : FMap α} {j k : Nat} :
    FMap.get d (m.filter fun e => decide (e.1 ≠ k)) j = if j = k then d k else FMap.get d m j := by
  induction m with
  | nil => split <;> simp_all [FMap.get]
  | cons e m ih =>
    obtain ⟨i, a⟩ := e
    by_cases h : i = k
    · simp only [List.filter, h, ne_eq, not_true_eq_false, decide_false, ih, FMap.get]
      split
      · rfl
      · rw [if_neg (by omega)]
    · simp only [List.filter, h, ne_eq, not_false_eq_true, decide_true, FMap.get, ih]
      split
      · rw [if_neg (by omega)]
      · rfl

/-- A key reads as it was set. -/
@[simp] theorem FMap.get_put_self {d : Nat → α} {m : FMap α} {k : Nat} {v : α} : FMap.get d (FMap.put d m k v) k = v := by
  unfold FMap.put
  split
  · rename_i h
    rw [FMap.get_filter, if_pos rfl, h]
  · exact FMap.get_ins_self

/-- Setting a key leaves every other key as it reads. -/
theorem FMap.get_put_of_ne {d : Nat → α} {m : FMap α} {j k : Nat} {v : α} (hjk : j ≠ k) : FMap.get d (FMap.put d m k v) j = FMap.get d m j := by
  unfold FMap.put
  split
  · rw [FMap.get_filter, if_neg hjk]
  · exact FMap.get_ins_of_ne hjk

/-- An update of a key keeps the canonical form. -/
theorem FMap.wf_upd {d : Nat → α} {m : FMap α} (k : Nat) (f : α → α) (h : FMap.wf d m = true) : FMap.wf d (FMap.upd d m k f) = true :=
  FMap.wf_put k _ h

/-- An update of a key leaves every other key as it reads. -/
theorem FMap.get_upd_of_ne {d : Nat → α} {m : FMap α} {j k : Nat} {f : α → α} (hjk : j ≠ k) : FMap.get d (FMap.upd d m k f) j = FMap.get d m j :=
  FMap.get_put_of_ne hjk

/-- An updated key reads as the update of what it read. -/
@[simp] theorem FMap.get_upd_self {d : Nat → α} {m : FMap α} {k : Nat} {f : α → α} : FMap.get d (FMap.upd d m k f) k = f (FMap.get d m k) := FMap.get_put_self

/-- What a key reads after an update. -/
theorem FMap.get_upd {d : Nat → α} {m : FMap α} {j k : Nat} {f : α → α} :
    FMap.get d (FMap.upd d m k f) j = if j = k then f (FMap.get d m k) else FMap.get d m j := by
  split
  · rename_i h
    rw [h, FMap.get_upd_self]
  · exact FMap.get_upd_of_ne ‹_›

/-- Setting consecutive keys keeps the canonical form. -/
theorem FMap.wf_putAll {d : Nat → α} {m : FMap α} (k : Nat) (l : List α) (h : FMap.wf d m = true) : FMap.wf d (FMap.putAll d m k l) = true := by
  induction l generalizing m k with
  | nil => exact h
  | cons v l ih => exact ih (k + 1) (FMap.wf_put k v h)

/-- Keys outside the run that is set read as before. -/
theorem FMap.get_putAll_of_out {d : Nat → α} {m : FMap α} {k j : Nat} {l : List α} (h : j < k ∨ k + l.length ≤ j) :
    FMap.get d (FMap.putAll d m k l) j = FMap.get d m j := by
  induction l generalizing m k with
  | nil => rfl
  | cons v l ih =>
    simp only [FMap.putAll]
    rw [ih (by simp only [List.length_cons] at h; omega), FMap.get_put_of_ne (by simp only [List.length_cons] at h; omega)]

/-- A key in the run that is set reads as its item of the list. -/
theorem FMap.get_putAll_in {d : Nat → α} {m : FMap α} {k i : Nat} {l : List α} (x : α) (h : i < l.length) :
    FMap.get d (FMap.putAll d m k l) (k + i) = l.getD i x := by
  induction l generalizing m k i with
  | nil => exact absurd h (Nat.not_lt_zero i)
  | cons v l ih =>
    simp only [FMap.putAll]
    cases i with
    | zero =>
      show FMap.get d (FMap.putAll d (FMap.put d m k v) (k + 1) l) k = v
      rw [FMap.get_putAll_of_out (.inl (by omega)), FMap.get_put_self]
    | succ i =>
      have := ih (m := FMap.put d m k v) (k := k + 1) (i := i) (by simpa using h)
      rw [show k + (i + 1) = k + 1 + i by omega, this]
      rfl

end

theorem FMap.length_getAll {d : Nat → α} {m : FMap α} (k n : Nat) : (FMap.getAll d m k n).length = n := by
  induction n generalizing k with
  | zero => rfl
  | succ n ih => simp [FMap.getAll, ih]

/-- An item of a run of keys read. -/
theorem FMap.getAll_getD {d : Nat → α} {m : FMap α} {k n i : Nat} (x : α) (h : i < n) : (FMap.getAll d m k n).getD i x = FMap.get d m (k + i) := by
  induction n generalizing k i with
  | zero => omega
  | succ n ih =>
    cases i with
    | zero => rfl
    | succ i =>
      have := ih (k := k + 1) (i := i) (by omega)
      rw [show k + (i + 1) = k + 1 + i by omega, ← this]
      rfl

/-! ## Numbers and their bytes (R42) -/

theorem length_leBytes (n v : Nat) : (leBytes n v).length = n := by
  induction n generalizing v with
  | zero => rfl
  | succ n ih => simp [leBytes, ih]

/-- Byte `k` of the bytes of a number. -/
theorem leBytes_getD {n v k : Nat} (h : k < n) : ((leBytes n v).getD k 0).toNat = v / 256 ^ k % 256 := by
  induction n generalizing v k with
  | zero => omega
  | succ n ih =>
    cases k with
    | zero => simp [leBytes]
    | succ k =>
      have := ih (v := v / 256) (k := k) (by omega)
      simp only [leBytes, List.getD_cons_succ, this]
      rw [Nat.div_div_eq_div_mul, Nat.pow_succ, Nat.mul_comm 256]

/-- Byte `k` of the number that bytes make up. -/
theorem leNat_byte (l : List Byte) (k : Nat) : leNat l / 256 ^ k % 256 = if k < l.length then (l.getD k 0).toNat else 0 := by
  induction l generalizing k with
  | nil => simp [leNat]
  | cons b l ih =>
    have hb := b.isLt
    cases k with
    | zero => simp [leNat]; omega
    | succ k =>
      have h : leNat (b :: l) / 256 ^ (k + 1) = leNat l / 256 ^ k := by
        rw [Nat.pow_succ, Nat.mul_comm (256 ^ k), ← Nat.div_div_eq_div_mul]
        congr 1
        simp only [leNat]
        omega
      rw [h, ih]
      simp

theorem leNat_lt (l : List Byte) : leNat l < 256 ^ l.length := by
  induction l with
  | nil => simp [leNat]
  | cons b l ih =>
    have hb := b.isLt
    simp only [leNat, List.length_cons, Nat.pow_succ]
    omega

/-! ## Memory -/

/-- A byte written keeps the canonical form. -/
theorem Memory.wf_write {m : FMap Byte} (a : Nat) (b : Byte) (h : Memory.wf m = true) : Memory.wf (Memory.write m a b) = true := FMap.wf_put a b h

/-- Bytes written keep the canonical form. -/
theorem Memory.wf_writeN {m : FMap Byte} (a : Nat) (l : List Byte) (h : Memory.wf m = true) : Memory.wf (Memory.writeN m a l) = true := FMap.wf_putAll a l h

/-- A filled range keeps the canonical form. -/
theorem Memory.wf_fill {m : FMap Byte} (b : Byte) (a n : Nat) (h : Memory.wf m = true) : Memory.wf (Memory.fill b m a n) = true := by
  induction n generalizing m a with
  | zero => exact h
  | succ n ih => exact ih (a + 1) (Memory.wf_write a b h)

/-- A cleared range keeps the canonical form. -/
theorem Memory.wf_clear {m : FMap Byte} (a n : Nat) (h : Memory.wf m = true) : Memory.wf (Memory.clear m a n) = true := FMap.wf_filter _ h

/-- A byte reads as it was written. -/
@[simp] theorem Memory.read_write_self {m : FMap Byte} {a : Nat} {b : Byte} : Memory.read (Memory.write m a b) a = b := FMap.get_put_self

/-- A byte written leaves every other byte. -/
theorem Memory.read_write_of_ne {m : FMap Byte} {a x : Nat} {b : Byte} (h : x ≠ a) : Memory.read (Memory.write m a b) x = Memory.read m x := FMap.get_put_of_ne h

/-- Bytes outside the written run read as before. -/
theorem Memory.read_writeN_of_out {m : FMap Byte} {a x : Nat} {l : List Byte} (h : x < a ∨ a + l.length ≤ x) :
    Memory.read (Memory.writeN m a l) x = Memory.read m x := FMap.get_putAll_of_out h

/-- A byte in the written run reads as its item of the list. -/
theorem Memory.read_writeN_in {m : FMap Byte} {a k : Nat} {l : List Byte} (h : k < l.length) : Memory.read (Memory.writeN m a l) (a + k) = l.getD k 0 :=
  FMap.get_putAll_in 0 h

/-- Reset memory is canonical. -/
theorem Memory.wf_reset : Memory.wf State.reset.mem = true := rfl

end Sys2Proof.Machine
end

