-- ==== Sys2Proof/Laws/Frame.lean ====
section
/-! SUPPORT. Frames: what an operation leaves alone, in one relation that composes. The lemma of an operation `f` is `f_only`; the files beside this one give it for every operation of the model. -/

namespace Sys2Proof.Machine

/-- From `s` to `t` nothing but the areas of `l` differs; memory stays canonical, the fuses keep what they hold, the trace only grows. -/
structure Only (l : List Area) (s t : State) : Prop where
  same : Touches l s t
  wf : Memory.wf s.mem = true → Memory.wf t.mem = true
  fuse : FuseKept s t
  trace : ∃ o, t.outbox = o ++ s.outbox

theorem State.same_refl (a : Area) (s : State) : State.same a s s := by cases a <;> rfl

theorem State.same_trans {a : Area} {s t u : State} (h : State.same a s t) (k : State.same a t u) : State.same a s u := by
  cases a <;> exact Eq.trans k h

theorem Only.refl (l : List Area) (s : State) : Only l s s :=
  ⟨fun a _ => State.same_refl a s, fun h => h, ⟨rfl, fun h => ⟨h, fun _ h => h⟩⟩, [], rfl⟩

theorem Only.trans {l : List Area} {s t u : State} (h : Only l s t) (k : Only l t u) : Only l s u := by
  refine ⟨fun a ha => State.same_trans (h.same a ha) (k.same a ha), fun w => k.wf (h.wf w), ⟨k.fuse.1.trans h.fuse.1, fun w => ?_⟩, ?_⟩
  · obtain ⟨w1, e1⟩ := h.fuse.2 w
    obtain ⟨w2, e2⟩ := k.fuse.2 w1
    exact ⟨w2, fun x hx => e2 x (e1 x hx)⟩
  · obtain ⟨o, ho⟩ := h.trace
    obtain ⟨p, hp⟩ := k.trace
    exact ⟨p ++ o, by rw [hp, ho, List.append_assoc]⟩

/-- Whether the areas of one list are all in another. -/
def within (l m : List Area) : Bool := l.all fun a => m.contains a

/-- Areas within areas within others. -/
theorem within_trans {l m n : List Area} (h : within l m = true) (k : within m n = true) : within l n = true := by
  simp only [within, List.all_eq_true] at h k ⊢
  exact fun a ha => k a (by simpa using h a ha)

theorem Only.mono {l m : List Area} {s t : State} (h : Only l s t) (k : within l m = true) : Only m s t := by
  refine ⟨fun a ha => h.same a fun hl => ha ?_, h.wf, h.fuse, h.trace⟩
  simp only [within, List.all_eq_true] at k
  simpa using k a hl

/-- A step of an operation after others. -/
theorem Only.next {l m : List Area} {s t u : State} (k : Only m t u) (w : within m l = true) (h : Only l s t) : Only l s u := h.trans (k.mono w)

/-- What an outcome may do, where it goes on; it does go on. -/
def Answers (l : List Area) (s : State) (o : Out3) : Prop := ∃ t, o = .next t ∧ Only l s t

theorem Answers.next {l : List Area} {s t : State} (h : Only l s t) : Answers l s (.next t) := ⟨t, rfl, h⟩

theorem Answers.mono {l m : List Area} {s : State} {o : Out3} (h : Answers l s o) (k : within l m = true) : Answers m s o :=
  let ⟨t, e, w⟩ := h; ⟨t, e, w.mono k⟩

/-- An outcome from a state that others led to. -/
theorem Answers.from_ {l : List Area} {s t : State} {o : Out3} (k : Answers l t o) (h : Only l s t) : Answers l s o :=
  let ⟨u, e, w⟩ := k; ⟨u, e, h.trans w⟩

/-- A command whose outcome is known completes. -/
theorem Runs.of {c : Instr} {s t : State} {l : List Area} {P : State → Prop} {o : Out3} (he : exec c s = o) (h : Answers l s o) (ht : o = .next t) (hp : P t) :
    Runs c s l P := by
  obtain ⟨u, hu, ho⟩ := h
  rw [ht] at hu
  cases hu
  exact ⟨t, he.trans ht, ho.same, hp⟩

/-- Either way of a choice. -/
theorem Only.ite {l : List Area} {c : Prop} [Decidable c] {s a b : State} (h : Only l s a) (k : Only l s b) : Only l s (if c then a else b) := by
  split <;> assumption

theorem Only.ite_fst {β : Type} {l : List Area} {c : Prop} [Decidable c] {s : State} {a b : State × β} (h : Only l s a.1) (k : Only l s b.1) :
    Only l s (if c then a else b).1 := by
  split <;> assumption

theorem Only.ite_snd {β : Type} {l : List Area} {c : Prop} [Decidable c] {s : State} {a b : β × State} (h : Only l s a.2) (k : Only l s b.2) :
    Only l s (if c then a else b).2 := by
  split <;> assumption

theorem Answers.ite {l : List Area} {c : Prop} [Decidable c] {s : State} {a b : Out3} (h : Answers l s a) (k : Answers l s b) :
    Answers l s (if c then a else b) := by
  split <;> assumption

/-- A fold whose step stays within some areas. -/
theorem Only.foldl {β : Type} {l : List Area} {f : State → β → State} (h : ∀ s b, Only l s (f s b)) (xs : List β) (s : State) : Only l s (xs.foldl f s) := by
  induction xs generalizing s with
  | nil => exact Only.refl l s
  | cons x xs ih => exact (h s x).trans (ih (f s x))

/-- A fold that carries a value beside the state. -/
theorem Only.foldl_fst {β γ : Type} {l : List Area} {f : State × γ → β → State × γ} (h : ∀ p b, Only l p.1 (f p b).1) (xs : List β) (p : State × γ) :
    Only l p.1 (xs.foldl f p).1 := by
  induction xs generalizing p with
  | nil => exact Only.refl l p.1
  | cons x xs ih => exact (h p x).trans (ih (f p x))

theorem Only.foldl_snd {β γ : Type} {l : List Area} {f : γ × State → β → γ × State} (h : ∀ p b, Only l p.2 (f p b).2) (xs : List β) (p : γ × State) :
    Only l p.2 (xs.foldl f p).2 := by
  induction xs generalizing p with
  | nil => exact Only.refl l p.2
  | cons x xs ih => exact (h p x).trans (ih (f p x))

/-- An operation known to stay within some areas, after others. -/
theorem Only.after {l : List Area} {f : State → State} {s t : State} (h : ∀ s, Only l s (f s)) (k : Only l s t) : Only l s (f t) := k.trans (h t)

theorem Only.id_then {l : List Area} {s t : State} (k : Only l s t) : Only l s (id t) := k

theorem Only.foldl_then {β : Type} {l : List Area} {f : State → β → State} {xs : List β} {s t : State} (h : ∀ s b, Only l s (f s b)) (k : Only l s t) :
    Only l s (xs.foldl f t) := k.trans (Only.foldl h xs t)

theorem Only.foldl_fst_then {β γ : Type} {l : List Area} {f : State × γ → β → State × γ} {xs : List β} {p : State × γ} {s : State}
    (h : ∀ p b, Only l p.1 (f p b).1) (k : Only l s p.1) : Only l s (xs.foldl f p).1 := k.trans (Only.foldl_fst h xs p)

theorem Only.foldl_snd_then {β γ : Type} {l : List Area} {f : γ × State → β → γ × State} {xs : List β} {p : γ × State} {s : State}
    (h : ∀ p b, Only l p.2 (f p b).2) (k : Only l s p.2) : Only l s (xs.foldl f p).2 := k.trans (Only.foldl_snd h xs p)

/-! ## One area changed -/

theorem modPages_only (f : FMap Page → FMap Page) (s : State) : Only [.pages] s (s.modPages f) :=
  ⟨fun a ha => by cases a <;> first | rfl | exact absurd (List.mem_singleton_self _) ha, fun h => h, ⟨rfl, fun h => ⟨h, fun _ h => h⟩⟩, [], rfl⟩
theorem modRf_only (f : FMap Word → FMap Word) (s : State) : Only [.rf] s (s.modRf f) :=
  ⟨fun a ha => by cases a <;> first | rfl | exact absurd (List.mem_singleton_self _) ha, fun h => h, ⟨rfl, fun h => ⟨h, fun _ h => h⟩⟩, [], rfl⟩
theorem modFab_only (f : Fab → Fab) (s : State) : Only [.fab] s (s.modFab f) :=
  ⟨fun a ha => by cases a <;> first | rfl | exact absurd (List.mem_singleton_self _) ha, fun h => h, ⟨rfl, fun h => ⟨h, fun _ h => h⟩⟩, [], rfl⟩
theorem modPln_only (f : Pln → Pln) (s : State) : Only [.pln] s (s.modPln f) :=
  ⟨fun a ha => by cases a <;> first | rfl | exact absurd (List.mem_singleton_self _) ha, fun h => h, ⟨rfl, fun h => ⟨h, fun _ h => h⟩⟩, [], rfl⟩
theorem modTim_only (f : Tim → Tim) (s : State) : Only [.tim] s (s.modTim f) :=
  ⟨fun a ha => by cases a <;> first | rfl | exact absurd (List.mem_singleton_self _) ha, fun h => h, ⟨rfl, fun h => ⟨h, fun _ h => h⟩⟩, [], rfl⟩
theorem modSrv_only (f : Srv → Srv) (s : State) : Only [.srv] s (s.modSrv f) :=
  ⟨fun a ha => by cases a <;> first | rfl | exact absurd (List.mem_singleton_self _) ha, fun h => h, ⟨rfl, fun h => ⟨h, fun _ h => h⟩⟩, [], rfl⟩
theorem modLanes_only (f : FMap Lane → FMap Lane) (s : State) : Only [.lanes] s (s.modLanes f) :=
  ⟨fun a ha => by cases a <;> first | rfl | exact absurd (List.mem_singleton_self _) ha, fun h => h, ⟨rfl, fun h => ⟨h, fun _ h => h⟩⟩, [], rfl⟩
theorem modLsh_only (f : Lsh → Lsh) (s : State) : Only [.lsh] s (s.modLsh f) :=
  ⟨fun a ha => by cases a <;> first | rfl | exact absurd (List.mem_singleton_self _) ha, fun h => h, ⟨rfl, fun h => ⟨h, fun _ h => h⟩⟩, [], rfl⟩
theorem modDel_only (f : Del → Del) (s : State) : Only [.del] s (s.modDel f) :=
  ⟨fun a ha => by cases a <;> first | rfl | exact absurd (List.mem_singleton_self _) ha, fun h => h, ⟨rfl, fun h => ⟨h, fun _ h => h⟩⟩, [], rfl⟩
theorem modQues_only (f : FMap Que → FMap Que) (s : State) : Only [.ques] s (s.modQues f) :=
  ⟨fun a ha => by cases a <;> first | rfl | exact absurd (List.mem_singleton_self _) ha, fun h => h, ⟨rfl, fun h => ⟨h, fun _ h => h⟩⟩, [], rfl⟩
theorem modPci_only (f : Pci → Pci) (s : State) : Only [.pci] s (s.modPci f) :=
  ⟨fun a ha => by cases a <;> first | rfl | exact absurd (List.mem_singleton_self _) ha, fun h => h, ⟨rfl, fun h => ⟨h, fun _ h => h⟩⟩, [], rfl⟩
theorem modFsp_only (f : Fsp → Fsp) (s : State) : Only [.fsp] s (s.modFsp f) :=
  ⟨fun a ha => by cases a <;> first | rfl | exact absurd (List.mem_singleton_self _) ha, fun h => h, ⟨rfl, fun h => ⟨h, fun _ h => h⟩⟩, [], rfl⟩
theorem modTcs_only (f : FMap Tc → FMap Tc) (s : State) : Only [.tcs] s (s.modTcs f) :=
  ⟨fun a ha => by cases a <;> first | rfl | exact absurd (List.mem_singleton_self _) ha, fun h => h, ⟨rfl, fun h => ⟨h, fun _ h => h⟩⟩, [], rfl⟩
theorem modSvc_only (f : Svc → Svc) (s : State) : Only [.svc] s (s.modSvc f) :=
  ⟨fun a ha => by cases a <;> first | rfl | exact absurd (List.mem_singleton_self _) ha, fun h => h, ⟨rfl, fun h => ⟨h, fun _ h => h⟩⟩, [], rfl⟩
theorem modFwl_only (f : Fwl → Fwl) (s : State) : Only [.fwl] s (s.modFwl f) :=
  ⟨fun a ha => by cases a <;> first | rfl | exact absurd (List.mem_singleton_self _) ha, fun h => h, ⟨rfl, fun h => ⟨h, fun _ h => h⟩⟩, [], rfl⟩
theorem modBst_only (f : Bst → Bst) (s : State) : Only [.bst] s (s.modBst f) :=
  ⟨fun a ha => by cases a <;> first | rfl | exact absurd (List.mem_singleton_self _) ha, fun h => h, ⟨rfl, fun h => ⟨h, fun _ h => h⟩⟩, [], rfl⟩
theorem modPwr_only (f : Pwr → Pwr) (s : State) : Only [.pwr] s (s.modPwr f) :=
  ⟨fun a ha => by cases a <;> first | rfl | exact absurd (List.mem_singleton_self _) ha, fun h => h, ⟨rfl, fun h => ⟨h, fun _ h => h⟩⟩, [], rfl⟩
theorem modChans_only (f : FMap Chan → FMap Chan) (s : State) : Only [.chans] s (s.modChans f) :=
  ⟨fun a ha => by cases a <;> first | rfl | exact absurd (List.mem_singleton_self _) ha, fun h => h, ⟨rfl, fun h => ⟨h, fun _ h => h⟩⟩, [], rfl⟩
theorem modGrps_only (f : FMap Group → FMap Group) (s : State) : Only [.grps] s (s.modGrps f) :=
  ⟨fun a ha => by cases a <;> first | rfl | exact absurd (List.mem_singleton_self _) ha, fun h => h, ⟨rfl, fun h => ⟨h, fun _ h => h⟩⟩, [], rfl⟩
theorem modLins_only (f : FMap Lin → FMap Lin) (s : State) : Only [.lins] s (s.modLins f) :=
  ⟨fun a ha => by cases a <;> first | rfl | exact absurd (List.mem_singleton_self _) ha, fun h => h, ⟨rfl, fun h => ⟨h, fun _ h => h⟩⟩, [], rfl⟩
theorem modAna_only (f : Ana → Ana) (s : State) : Only [.ana] s (s.modAna f) :=
  ⟨fun a ha => by cases a <;> first | rfl | exact absurd (List.mem_singleton_self _) ha, fun h => h, ⟨rfl, fun h => ⟨h, fun _ h => h⟩⟩, [], rfl⟩
theorem modFree_only (f : Nat → Nat) (s : State) : Only [.free] s (s.modFree f) :=
  ⟨fun a ha => by cases a <;> first | rfl | exact absurd (List.mem_singleton_self _) ha, fun h => h, ⟨rfl, fun h => ⟨h, fun _ h => h⟩⟩, [], rfl⟩

/-- The fuses changed in what production does not fix, a standing customer key kept. -/
theorem modFuse_only {f : Fuse → Fuse} {s : State} (hf : (f s.fuse).fixed = s.fuse.fixed)
    (hk : KeyOnce s → ((f s.fuse).ckey.isSome = true → (f s.fuse).ckeyBusy = none) ∧ ∀ k, s.fuse.ckey = some k → (f s.fuse).ckey = some k) :
    Only [.fuse] s (s.modFuse f) :=
  ⟨fun a ha => by cases a <;> first | rfl | exact absurd (List.mem_singleton_self _) ha, fun h => h, ⟨hf, hk⟩, [], rfl⟩

/-- Memory changed by what keeps its form. -/
theorem modMem_only {f : FMap Byte → FMap Byte} (h : ∀ m, Memory.wf m = true → Memory.wf (f m) = true) (s : State) : Only [.mem] s (s.modMem f) :=
  ⟨fun a ha => by cases a <;> first | rfl | exact absurd (List.mem_singleton_self _) ha, h _, ⟨rfl, fun h => ⟨h, fun _ h => h⟩⟩, [], rfl⟩

/-- The block drives something outside. -/
theorem drive_only (o : Out) (s : State) : Only [.outbox] s (drive o s) :=
  ⟨fun a ha => by cases a <;> first | rfl | exact absurd (List.mem_singleton_self _) ha, fun h => h, ⟨rfl, fun h => ⟨h, fun _ h => h⟩⟩, [o], rfl⟩

end Sys2Proof.Machine
end

