-- ==== Sys2Proof/Laws/FrameOps.lean ====
section
/-! SUPPORT. The frames of the operations of Machine/Ops.lean. -/

namespace Sys2Proof.Machine

theorem takeFree_only (s : State) : Only [.free] s (takeFree s).2 := by
  unfold takeFree
  repeat' first
    | (show within _ _ = true; rfl)
    | with_reducible exact Only.refl _ _
    | dsimp only
    | with_reducible apply Only.next (modFree_only _ _)

theorem modPage_only (p : Nat) (f : Page → Page) (s : State) : Only [.pages] s (modPage p f s) := by
  unfold modPage
  repeat' first
    | (show within _ _ = true; rfl)
    | with_reducible exact Only.refl _ _
    | dsimp only
    | with_reducible apply Only.next (modPages_only _ _)

theorem bumpGen_only (p : Nat) (s : State) : Only [.pages] s (bumpGen p s) := by
  unfold bumpGen
  repeat' first
    | (show within _ _ = true; rfl)
    | with_reducible exact Only.refl _ _
    | dsimp only
    | with_reducible apply Only.next (modPage_only _ _ _)

theorem signal_only (e : Nat) (s : State) : Only [.fab, .pci, .outbox] s (signal e s) := by
  unfold signal
  repeat' first
    | (show within _ _ = true; rfl)
    | with_reducible exact Only.refl _ _
    | assumption
    | dsimp only
    | with_reducible apply Only.next (drive_only _ _)
    | with_reducible apply Only.next (modFab_only _ _)
    | with_reducible apply Only.next (modPci_only _ _)
    | with_reducible refine Only.ite ?_ ?_

theorem signalIfNew_only (before : Bool) (e : Nat) (s : State) : Only [.fab, .pci, .outbox] s (signalIfNew before e s) := by
  unfold signalIfNew
  repeat' first
    | (show within _ _ = true; rfl)
    | with_reducible exact Only.refl _ _
    | dsimp only
    | with_reducible apply Only.next (signal_only _ _)
    | with_reducible refine Only.ite ?_ ?_

theorem latch_only (p bit : Nat) (s : State) : Only [.pages, .fab, .pci, .outbox] s (latch p bit s) := by
  unfold latch
  repeat' first
    | (show within _ _ = true; rfl)
    | with_reducible exact Only.refl _ _
    | assumption
    | dsimp only
    | with_reducible apply Only.next (modPage_only _ _ _)
    | with_reducible apply Only.next (signalIfNew_only _ _ _)
    | with_reducible apply Only.next (modFab_only _ _)
    | with_reducible refine Only.ite ?_ ?_
    | split

theorem condStart_only (p bit sub : Nat) (s : State) : Only [.fab] s (condStart p bit sub s) := by
  unfold condStart
  repeat' first
    | (show within _ _ = true; rfl)
    | with_reducible exact Only.refl _ _
    | dsimp only
    | with_reducible apply Only.next (modFab_only _ _)
    | with_reducible refine Only.ite ?_ ?_

theorem condEnd_only (p bit sub : Nat) (s : State) : Only [.fab] s (condEnd p bit sub s) := by
  unfold condEnd
  repeat' first
    | (show within _ _ = true; rfl)
    | with_reducible exact Only.refl _ _
    | dsimp only
    | with_reducible apply Only.next (modFab_only _ _)

theorem startMark_only (k : Nat) (s : State) : Only [.pwr] s (startMark k s) := by
  unfold startMark
  repeat' first
    | (show within _ _ = true; rfl)
    | with_reducible exact Only.refl _ _
    | dsimp only
    | with_reducible apply Only.next (modPwr_only _ _)

theorem modCon_only (id : Nat) (f : ConSt → ConSt) (s : State) : Only [.del] s (modCon id f s) := by
  unfold modCon
  repeat' first
    | (show within _ _ = true; rfl)
    | with_reducible exact Only.refl _ _
    | dsimp only
    | with_reducible apply Only.next (modDel_only _ _)

theorem discard_only (id n : Nat) (s : State) : Only [.pages, .del] s (discard id n s).1 := by
  unfold discard
  repeat' first
    | (show within _ _ = true; rfl)
    | with_reducible exact Only.refl _ _
    | assumption
    | dsimp only
    | with_reducible apply Only.next (modCon_only _ _ _)
    | with_reducible apply Only.next (bumpGen_only _ _)
    | with_reducible apply Only.next (modDel_only _ _)
    | with_reducible apply Only.foldl_then
    | with_reducible apply Only.foldl_fst_then
    | with_reducible apply Only.foldl_snd_then
    | with_reducible refine Only.ite ?_ ?_
    | with_reducible refine Only.ite_fst ?_ ?_
    | with_reducible refine Only.ite_snd ?_ ?_
    | with_reducible apply Only.id_then
    | split
    | intro _

theorem kennelPut_only (id : Nat) (i : Item) (s : State) : Only [.del] s (kennelPut id i s) := by
  unfold kennelPut
  repeat' first
    | (show within _ _ = true; rfl)
    | with_reducible exact Only.refl _ _
    | dsimp only
    | with_reducible apply Only.next (modCon_only _ _ _)

theorem putAnchor_only (id : Nat) (first : Stamp) (s : State) (reason : Nat) : Only [.del] s (putAnchor id first s reason) := by
  unfold putAnchor
  repeat' first
    | (show within _ _ = true; rfl)
    | with_reducible exact Only.refl _ _
    | assumption
    | dsimp only
    | with_reducible apply Only.next (modCon_only _ _ _)
    | with_reducible apply Only.next (kennelPut_only _ _ _)

theorem makeRoom_only (id need : Nat) (s : State) : Only [.pages, .del] s (makeRoom id need s).1 := by
  unfold makeRoom
  repeat' first
    | (show within _ _ = true; rfl)
    | with_reducible exact Only.refl _ _
    | assumption
    | dsimp only
    | with_reducible apply Only.next (discard_only _ _ _)
    | with_reducible refine Only.ite ?_ ?_
    | with_reducible refine Only.ite_fst ?_ ?_
    | with_reducible refine Only.ite_snd ?_ ?_
    | with_reducible apply Only.id_then
    | split

theorem stage_only (i : Item) (s : State) (id : Nat) : Only [.del] s (stage i s id) := by
  unfold stage
  repeat' first
    | (show within _ _ = true; rfl)
    | with_reducible exact Only.refl _ _
    | dsimp only
    | with_reducible apply Only.next (modCon_only _ _ _)
    | with_reducible refine Only.ite ?_ ?_

theorem trialFault_only (p : Nat) (s : State) : Only [.pages, .fwl] s (trialFault p s) := by
  unfold trialFault
  repeat' first
    | (show within _ _ = true; rfl)
    | with_reducible exact Only.refl _ _
    | dsimp only
    | with_reducible apply Only.next (bumpGen_only _ _)
    | with_reducible apply Only.next (modFwl_only _ _)
    | with_reducible refine Only.ite ?_ ?_

theorem raise_only (p bit detail : Nat) (s : State) : Only [.pages, .fab, .del, .pci, .fwl, .outbox] s (raise p bit detail s) := by
  unfold raise
  repeat' first
    | (show within _ _ = true; rfl)
    | with_reducible exact Only.refl _ _
    | assumption
    | dsimp only
    | with_reducible apply Only.next (trialFault_only _ _)
    | with_reducible apply Only.next (latch_only _ _ _)
    | with_reducible apply Only.next (stage_only _ _ _)
    | with_reducible apply Only.next (modFab_only _ _)
    | with_reducible apply Only.foldl_then
    | with_reducible refine Only.ite ?_ ?_
    | split
    | intro _

theorem pwrState_only (st : Nat) (s : State) : Only [.pages, .fab, .del, .pci, .fwl, .pwr, .outbox] s (pwrState st s) := by
  unfold pwrState
  repeat' first
    | (show within _ _ = true; rfl)
    | with_reducible exact Only.refl _ _
    | dsimp only
    | with_reducible apply Only.next (raise_only _ _ _ _)
    | with_reducible apply Only.next (bumpGen_only _ _)
    | with_reducible apply Only.next (modPwr_only _ _)
    | with_reducible refine Only.ite ?_ ?_

theorem raiseOnce_only (p bit sub detail : Nat) (s : State) : Only [.pages, .fab, .del, .pci, .fwl, .outbox] s (raiseOnce p bit sub detail s) := by
  unfold raiseOnce
  repeat' first
    | (show within _ _ = true; rfl)
    | with_reducible exact Only.refl _ _
    | dsimp only
    | with_reducible apply Only.next (raise_only _ _ _ _)
    | with_reducible apply Only.next (condStart_only _ _ _ _)
    | with_reducible refine Only.ite ?_ ?_

theorem emit_only (i : Item) (s : State) : Only [.del] s (emit i s) := by
  unfold emit
  repeat' first
    | (show within _ _ = true; rfl)
    | with_reducible exact Only.refl _ _
    | assumption
    | dsimp only
    | with_reducible apply Only.next (stage_only _ _ _)
    | with_reducible apply Only.foldl_then
    | intro _

theorem modIsl_only (k : Nat) (f : Isl → Isl) (s : State) : Only [.bst] s (modIsl k f s) := by
  unfold modIsl
  repeat' first
    | (show within _ _ = true; rfl)
    | with_reducible exact Only.refl _ _
    | dsimp only
    | with_reducible apply Only.next (modBst_only _ _)

theorem endSlice_only (k st : Nat) (s : State) : Only [.bst] s (endSlice k st s) := by
  unfold endSlice
  repeat' first
    | (show within _ _ = true; rfl)
    | with_reducible exact Only.refl _ _
    | dsimp only
    | with_reducible apply Only.next (modBst_only _ _)

theorem abandonSlice_only (k : Nat) (s : State) : Only [.pages, .fab, .del, .pci, .fwl, .bst, .outbox] s (abandonSlice k s) := by
  unfold abandonSlice
  repeat' first
    | (show within _ _ = true; rfl)
    | with_reducible exact Only.refl _ _
    | assumption
    | dsimp only
    | with_reducible apply Only.next (modIsl_only _ _ _)
    | with_reducible apply Only.next (endSlice_only _ _ _)
    | with_reducible apply Only.next (raiseOnce_only _ _ _ _ _)
    | with_reducible apply Only.next (modBst_only _ _)
    | with_reducible refine Only.ite ?_ ?_

theorem serve_only (k : Nat) (s : State) : Only [.pages, .fab, .del, .pci, .fwl, .bst, .outbox] s (serve k s) := by
  unfold serve
  repeat' first
    | (show within _ _ = true; rfl)
    | with_reducible exact Only.refl _ _
    | dsimp only
    | with_reducible apply Only.next (abandonSlice_only _ _)
    | with_reducible refine Only.ite ?_ ?_

theorem serveMerger_only (s : State) : Only [.pages, .fab, .del, .pci, .fwl, .bst, .outbox] s (serveMerger s) := by
  unfold serveMerger
  repeat' first
    | (show within _ _ = true; rfl)
    | with_reducible exact Only.refl _ _
    | dsimp only
    | with_reducible apply Only.next (serve_only _ _)

theorem serveCore_only (n : Nat) (s : State) : Only [.pages, .fab, .del, .pci, .fwl, .bst, .outbox] s (serveCore n s) := by
  unfold serveCore
  repeat' first
    | (show within _ _ = true; rfl)
    | with_reducible exact Only.refl _ _
    | dsimp only
    | with_reducible apply Only.next (serve_only _ _)

theorem rfPut_only (addr : Nat) (v : Word) (s : State) : Only [.rf] s (rfPut addr v s) := by
  unfold rfPut
  repeat' first
    | (show within _ _ = true; rfl)
    | with_reducible exact Only.refl _ _
    | assumption
    | dsimp only
    | with_reducible apply Only.next (modRf_only _ _)
    | split

/-- A gated write stays within what it does and the count of frozen writes. -/
theorem gated_then {l : List Area} {f : State → State} {r : Req} {p : Nat} {s t : State} (hl : within [.fab] l = true) (h : ∀ s, Only l s (f s))
    (k : Only l s t) : Only l s (gated r p f t) := by
  refine k.trans ?_
  unfold gated
  dsimp only
  split
  · exact (modFab_only _ _).mono hl
  · exact h t

theorem gatedMerger_then {l : List Area} {f : State → State} {r : Req} {p : Nat} {s t : State} (hl : within [.pages, .fab, .del, .pci, .fwl, .bst, .outbox] l = true) (h : ∀ s, Only l s (f s))
    (k : Only l s t) : Only l s (gatedMerger r p f t) := by
  unfold gatedMerger
  refine gated_then (within_trans (m := [.pages, .fab, .del, .pci, .fwl, .bst, .outbox]) rfl hl) (fun s => Only.trans (Only.mono (serveMerger_only _) (within_trans (m := [.pages, .fab, .del, .pci, .fwl, .bst, .outbox]) rfl hl)) (h _)) k

theorem gatedCore_then {l : List Area} {f : State → State} {r : Req} {n : Nat} {s t : State} (hl : within [.pages, .fab, .del, .pci, .fwl, .bst, .outbox] l = true) (h : ∀ s, Only l s (f s))
    (k : Only l s t) : Only l s (gatedCore r n f t) := by
  unfold gatedCore
  refine gated_then (within_trans (m := [.pages, .fab, .del, .pci, .fwl, .bst, .outbox]) rfl hl) (fun s => Only.trans (Only.mono (serveCore_only _ _) (within_trans (m := [.pages, .fab, .del, .pci, .fwl, .bst, .outbox]) rfl hl)) (h _)) k

theorem gatedFirmware_then {l : List Area} {f : State → State} {r : Req} {p : Nat} {s t : State} (hl : within [.pages, .fab, .del, .pci, .fwl, .bst, .outbox] l = true) (h : ∀ s, Only l s (f s))
    (k : Only l s t) : Only l s (gatedFirmware r p f t) := by
  unfold gatedFirmware
  refine gated_then (within_trans (m := [.pages, .fab, .del, .pci, .fwl, .bst, .outbox]) rfl hl) (fun s => Only.trans (Only.mono (serve_only _ _) (within_trans (m := [.pages, .fab, .del, .pci, .fwl, .bst, .outbox]) rfl hl)) (h _)) k

theorem reachIsland_only (write : Bool) (p : Nat) (s : State) : Only [.pages, .fab, .del, .pci, .fwl, .bst, .outbox] s (reachIsland write p s) := by
  unfold reachIsland
  repeat' first
    | (show within _ _ = true; rfl)
    | with_reducible exact Only.refl _ _
    | dsimp only
    | with_reducible apply Only.next (serveMerger_only _)
    | with_reducible apply Only.next (serveCore_only _ _)
    | with_reducible apply Only.next (serve_only _ _)
    | with_reducible refine Only.ite ?_ ?_

theorem wrote_only (r : Req) (key : Nat) (s : State) : Only [.fab] s (wrote r key s) := by
  unfold wrote
  repeat' first
    | (show within _ _ = true; rfl)
    | with_reducible exact Only.refl _ _
    | dsimp only
    | with_reducible apply Only.next (modFab_only _ _)

theorem modLane_only (p : Nat) (f : Lane → Lane) (s : State) : Only [.lanes] s (modLane p f s) := by
  unfold modLane
  repeat' first
    | (show within _ _ = true; rfl)
    | with_reducible exact Only.refl _ _
    | dsimp only
    | with_reducible apply Only.next (modLanes_only _ _)

theorem modPort_only (p : Nat) (f : PortSt → PortSt) (s : State) : Only [.pln] s (modPort p f s) := by
  unfold modPort
  repeat' first
    | (show within _ _ = true; rfl)
    | with_reducible exact Only.refl _ _
    | dsimp only
    | with_reducible apply Only.next (modPln_only _ _)

theorem modQue_only (q : Nat) (f : Que → Que) (s : State) : Only [.ques] s (modQue q f s) := by
  unfold modQue
  repeat' first
    | (show within _ _ = true; rfl)
    | with_reducible exact Only.refl _ _
    | dsimp only
    | with_reducible apply Only.next (modQues_only _ _)

theorem modHr_only (n : Nat) (f : Hr → Hr) (s : State) : Only [.pci] s (modHr n f s) := by
  unfold modHr
  repeat' first
    | (show within _ _ = true; rfl)
    | with_reducible exact Only.refl _ _
    | dsimp only
    | with_reducible apply Only.next (modPci_only _ _)


end Sys2Proof.Machine
end

