-- ==== Sys2Proof/Laws/Units.lean ====
section
/-! SUPPORT. One unit of each kind (a page, a port, a queue, a core, a channel, …) after an update: the unit updated, the others, and the units of other kinds. -/

namespace Sys2Proof.Machine

variable (s : State)

@[simp] theorem page_modPage_self (p : Nat) (f : Page → Page) : page p (modPage p f s) = f (page p s) := FMap.get_upd_self
theorem page_modPage_of_ne {j p : Nat} (h : j ≠ p) (f : Page → Page) : page j (modPage p f s) = page j s := FMap.get_upd_of_ne h
@[simp] theorem page_modPending (p : Nat) (f : List Instr → List Instr) : page p (s.modPending f) = page p s := rfl
@[simp] theorem page_modRf (p : Nat) (f : FMap Word → FMap Word) : page p (s.modRf f) = page p s := rfl
@[simp] theorem page_modMem (p : Nat) (f : FMap Byte → FMap Byte) : page p (s.modMem f) = page p s := rfl
@[simp] theorem page_modFuse (p : Nat) (f : Fuse → Fuse) : page p (s.modFuse f) = page p s := rfl
@[simp] theorem page_modFab (p : Nat) (f : Fab → Fab) : page p (s.modFab f) = page p s := rfl
@[simp] theorem page_modPln (p : Nat) (f : Pln → Pln) : page p (s.modPln f) = page p s := rfl
@[simp] theorem page_modTim (p : Nat) (f : Tim → Tim) : page p (s.modTim f) = page p s := rfl
@[simp] theorem page_modSrv (p : Nat) (f : Srv → Srv) : page p (s.modSrv f) = page p s := rfl
@[simp] theorem page_modLanes (p : Nat) (f : FMap Lane → FMap Lane) : page p (s.modLanes f) = page p s := rfl
@[simp] theorem page_modLsh (p : Nat) (f : Lsh → Lsh) : page p (s.modLsh f) = page p s := rfl
@[simp] theorem page_modDel (p : Nat) (f : Del → Del) : page p (s.modDel f) = page p s := rfl
@[simp] theorem page_modQues (p : Nat) (f : FMap Que → FMap Que) : page p (s.modQues f) = page p s := rfl
@[simp] theorem page_modPci (p : Nat) (f : Pci → Pci) : page p (s.modPci f) = page p s := rfl
@[simp] theorem page_modFsp (p : Nat) (f : Fsp → Fsp) : page p (s.modFsp f) = page p s := rfl
@[simp] theorem page_modTcs (p : Nat) (f : FMap Tc → FMap Tc) : page p (s.modTcs f) = page p s := rfl
@[simp] theorem page_modSvc (p : Nat) (f : Svc → Svc) : page p (s.modSvc f) = page p s := rfl
@[simp] theorem page_modFwl (p : Nat) (f : Fwl → Fwl) : page p (s.modFwl f) = page p s := rfl
@[simp] theorem page_modBst (p : Nat) (f : Bst → Bst) : page p (s.modBst f) = page p s := rfl
@[simp] theorem page_modPwr (p : Nat) (f : Pwr → Pwr) : page p (s.modPwr f) = page p s := rfl
@[simp] theorem page_modChans (p : Nat) (f : FMap Chan → FMap Chan) : page p (s.modChans f) = page p s := rfl
@[simp] theorem page_modGrps (p : Nat) (f : FMap Group → FMap Group) : page p (s.modGrps f) = page p s := rfl
@[simp] theorem page_modLins (p : Nat) (f : FMap Lin → FMap Lin) : page p (s.modLins f) = page p s := rfl
@[simp] theorem page_modAna (p : Nat) (f : Ana → Ana) : page p (s.modAna f) = page p s := rfl
@[simp] theorem page_modFree (p : Nat) (f : Nat → Nat) : page p (s.modFree f) = page p s := rfl
@[simp] theorem page_modOutbox (p : Nat) (f : List Out → List Out) : page p (s.modOutbox f) = page p s := rfl
@[simp] theorem page_modLane (p j : Nat) (f : Lane → Lane) : page p (modLane j f s) = page p s := rfl
@[simp] theorem page_modPort (p j : Nat) (f : PortSt → PortSt) : page p (modPort j f s) = page p s := rfl
@[simp] theorem page_modQue (p j : Nat) (f : Que → Que) : page p (modQue j f s) = page p s := rfl
@[simp] theorem page_modHr (p j : Nat) (f : Hr → Hr) : page p (modHr j f s) = page p s := rfl
@[simp] theorem page_modCon (p j : Nat) (f : ConSt → ConSt) : page p (modCon j f s) = page p s := rfl
@[simp] theorem page_modIsl (p j : Nat) (f : Isl → Isl) : page p (modIsl j f s) = page p s := rfl
@[simp] theorem page_modMark (p j : Nat) (f : Mark → Mark) : page p (modMark j f s) = page p s := rfl
@[simp] theorem page_modClos (p j : Nat) (f : Clos → Clos) : page p (modClos j f s) = page p s := rfl
@[simp] theorem page_modChan (p j : Nat) (f : Chan → Chan) : page p (modChan j f s) = page p s := rfl
@[simp] theorem page_modGrp (p j : Nat) (f : Group → Group) : page p (modGrp j f s) = page p s := rfl
@[simp] theorem page_modLin (p j : Nat) (f : Lin → Lin) : page p (modLin j f s) = page p s := rfl
@[simp] theorem page_modTc (p j : Nat) (f : Tc → Tc) : page p (modTc j f s) = page p s := rfl
@[simp] theorem page_modAlarm (p j : Nat) (f : AlarmCh → AlarmCh) : page p (modAlarm j f s) = page p s := rfl
@[simp] theorem page_modRule (p j : Nat) (f : Rule → Rule) : page p (modRule j f s) = page p s := rfl
@[simp] theorem page_modDin (p j : Nat) (f : Din → Din) : page p (modDin j f s) = page p s := rfl
@[simp] theorem page_modTout (p j : Nat) (f : Tpin → Tpin) : page p (modTout j f s) = page p s := rfl
@[simp] theorem page_modTrack (p j : Nat) (f : Track → Track) : page p (modTrack j f s) = page p s := rfl
@[simp] theorem page_modSect (p j : Nat) (f : Sect → Sect) : page p (modSect j f s) = page p s := rfl
@[simp] theorem page_modRing (p j : Nat) (f : Ring → Ring) : page p (modRing j f s) = page p s := rfl
@[simp] theorem page_drive (p : Nat) (o : Out) : page p (drive o s) = page p s := rfl
theorem page_congr {u t : State} (h : t.pages = u.pages) (p : Nat) : page p t = page p u := by unfold page; rw [h]

@[simp] theorem lane_modLane_self (p : Nat) (f : Lane → Lane) : lane p (modLane p f s) = f (lane p s) := FMap.get_upd_self
theorem lane_modLane_of_ne {j p : Nat} (h : j ≠ p) (f : Lane → Lane) : lane j (modLane p f s) = lane j s := FMap.get_upd_of_ne h
@[simp] theorem lane_modPending (p : Nat) (f : List Instr → List Instr) : lane p (s.modPending f) = lane p s := rfl
@[simp] theorem lane_modPages (p : Nat) (f : FMap Page → FMap Page) : lane p (s.modPages f) = lane p s := rfl
@[simp] theorem lane_modRf (p : Nat) (f : FMap Word → FMap Word) : lane p (s.modRf f) = lane p s := rfl
@[simp] theorem lane_modMem (p : Nat) (f : FMap Byte → FMap Byte) : lane p (s.modMem f) = lane p s := rfl
@[simp] theorem lane_modFuse (p : Nat) (f : Fuse → Fuse) : lane p (s.modFuse f) = lane p s := rfl
@[simp] theorem lane_modFab (p : Nat) (f : Fab → Fab) : lane p (s.modFab f) = lane p s := rfl
@[simp] theorem lane_modPln (p : Nat) (f : Pln → Pln) : lane p (s.modPln f) = lane p s := rfl
@[simp] theorem lane_modTim (p : Nat) (f : Tim → Tim) : lane p (s.modTim f) = lane p s := rfl
@[simp] theorem lane_modSrv (p : Nat) (f : Srv → Srv) : lane p (s.modSrv f) = lane p s := rfl
@[simp] theorem lane_modLsh (p : Nat) (f : Lsh → Lsh) : lane p (s.modLsh f) = lane p s := rfl
@[simp] theorem lane_modDel (p : Nat) (f : Del → Del) : lane p (s.modDel f) = lane p s := rfl
@[simp] theorem lane_modQues (p : Nat) (f : FMap Que → FMap Que) : lane p (s.modQues f) = lane p s := rfl
@[simp] theorem lane_modPci (p : Nat) (f : Pci → Pci) : lane p (s.modPci f) = lane p s := rfl
@[simp] theorem lane_modFsp (p : Nat) (f : Fsp → Fsp) : lane p (s.modFsp f) = lane p s := rfl
@[simp] theorem lane_modTcs (p : Nat) (f : FMap Tc → FMap Tc) : lane p (s.modTcs f) = lane p s := rfl
@[simp] theorem lane_modSvc (p : Nat) (f : Svc → Svc) : lane p (s.modSvc f) = lane p s := rfl
@[simp] theorem lane_modFwl (p : Nat) (f : Fwl → Fwl) : lane p (s.modFwl f) = lane p s := rfl
@[simp] theorem lane_modBst (p : Nat) (f : Bst → Bst) : lane p (s.modBst f) = lane p s := rfl
@[simp] theorem lane_modPwr (p : Nat) (f : Pwr → Pwr) : lane p (s.modPwr f) = lane p s := rfl
@[simp] theorem lane_modChans (p : Nat) (f : FMap Chan → FMap Chan) : lane p (s.modChans f) = lane p s := rfl
@[simp] theorem lane_modGrps (p : Nat) (f : FMap Group → FMap Group) : lane p (s.modGrps f) = lane p s := rfl
@[simp] theorem lane_modLins (p : Nat) (f : FMap Lin → FMap Lin) : lane p (s.modLins f) = lane p s := rfl
@[simp] theorem lane_modAna (p : Nat) (f : Ana → Ana) : lane p (s.modAna f) = lane p s := rfl
@[simp] theorem lane_modFree (p : Nat) (f : Nat → Nat) : lane p (s.modFree f) = lane p s := rfl
@[simp] theorem lane_modOutbox (p : Nat) (f : List Out → List Out) : lane p (s.modOutbox f) = lane p s := rfl
@[simp] theorem lane_modPage (p j : Nat) (f : Page → Page) : lane p (modPage j f s) = lane p s := rfl
@[simp] theorem lane_modPort (p j : Nat) (f : PortSt → PortSt) : lane p (modPort j f s) = lane p s := rfl
@[simp] theorem lane_modQue (p j : Nat) (f : Que → Que) : lane p (modQue j f s) = lane p s := rfl
@[simp] theorem lane_modHr (p j : Nat) (f : Hr → Hr) : lane p (modHr j f s) = lane p s := rfl
@[simp] theorem lane_modCon (p j : Nat) (f : ConSt → ConSt) : lane p (modCon j f s) = lane p s := rfl
@[simp] theorem lane_modIsl (p j : Nat) (f : Isl → Isl) : lane p (modIsl j f s) = lane p s := rfl
@[simp] theorem lane_modMark (p j : Nat) (f : Mark → Mark) : lane p (modMark j f s) = lane p s := rfl
@[simp] theorem lane_modClos (p j : Nat) (f : Clos → Clos) : lane p (modClos j f s) = lane p s := rfl
@[simp] theorem lane_modChan (p j : Nat) (f : Chan → Chan) : lane p (modChan j f s) = lane p s := rfl
@[simp] theorem lane_modGrp (p j : Nat) (f : Group → Group) : lane p (modGrp j f s) = lane p s := rfl
@[simp] theorem lane_modLin (p j : Nat) (f : Lin → Lin) : lane p (modLin j f s) = lane p s := rfl
@[simp] theorem lane_modTc (p j : Nat) (f : Tc → Tc) : lane p (modTc j f s) = lane p s := rfl
@[simp] theorem lane_modAlarm (p j : Nat) (f : AlarmCh → AlarmCh) : lane p (modAlarm j f s) = lane p s := rfl
@[simp] theorem lane_modRule (p j : Nat) (f : Rule → Rule) : lane p (modRule j f s) = lane p s := rfl
@[simp] theorem lane_modDin (p j : Nat) (f : Din → Din) : lane p (modDin j f s) = lane p s := rfl
@[simp] theorem lane_modTout (p j : Nat) (f : Tpin → Tpin) : lane p (modTout j f s) = lane p s := rfl
@[simp] theorem lane_modTrack (p j : Nat) (f : Track → Track) : lane p (modTrack j f s) = lane p s := rfl
@[simp] theorem lane_modSect (p j : Nat) (f : Sect → Sect) : lane p (modSect j f s) = lane p s := rfl
@[simp] theorem lane_modRing (p j : Nat) (f : Ring → Ring) : lane p (modRing j f s) = lane p s := rfl
@[simp] theorem lane_drive (p : Nat) (o : Out) : lane p (drive o s) = lane p s := rfl
theorem lane_congr {u t : State} (h : t.lanes = u.lanes) (p : Nat) : lane p t = lane p u := by unfold lane; rw [h]

@[simp] theorem port_modPort_self (p : Nat) (f : PortSt → PortSt) : port p (modPort p f s) = f (port p s) := FMap.get_upd_self
theorem port_modPort_of_ne {j p : Nat} (h : j ≠ p) (f : PortSt → PortSt) : port j (modPort p f s) = port j s := FMap.get_upd_of_ne h
@[simp] theorem port_modPending (p : Nat) (f : List Instr → List Instr) : port p (s.modPending f) = port p s := rfl
@[simp] theorem port_modPages (p : Nat) (f : FMap Page → FMap Page) : port p (s.modPages f) = port p s := rfl
@[simp] theorem port_modRf (p : Nat) (f : FMap Word → FMap Word) : port p (s.modRf f) = port p s := rfl
@[simp] theorem port_modMem (p : Nat) (f : FMap Byte → FMap Byte) : port p (s.modMem f) = port p s := rfl
@[simp] theorem port_modFuse (p : Nat) (f : Fuse → Fuse) : port p (s.modFuse f) = port p s := rfl
@[simp] theorem port_modFab (p : Nat) (f : Fab → Fab) : port p (s.modFab f) = port p s := rfl
@[simp] theorem port_modTim (p : Nat) (f : Tim → Tim) : port p (s.modTim f) = port p s := rfl
@[simp] theorem port_modSrv (p : Nat) (f : Srv → Srv) : port p (s.modSrv f) = port p s := rfl
@[simp] theorem port_modLanes (p : Nat) (f : FMap Lane → FMap Lane) : port p (s.modLanes f) = port p s := rfl
@[simp] theorem port_modLsh (p : Nat) (f : Lsh → Lsh) : port p (s.modLsh f) = port p s := rfl
@[simp] theorem port_modDel (p : Nat) (f : Del → Del) : port p (s.modDel f) = port p s := rfl
@[simp] theorem port_modQues (p : Nat) (f : FMap Que → FMap Que) : port p (s.modQues f) = port p s := rfl
@[simp] theorem port_modPci (p : Nat) (f : Pci → Pci) : port p (s.modPci f) = port p s := rfl
@[simp] theorem port_modFsp (p : Nat) (f : Fsp → Fsp) : port p (s.modFsp f) = port p s := rfl
@[simp] theorem port_modTcs (p : Nat) (f : FMap Tc → FMap Tc) : port p (s.modTcs f) = port p s := rfl
@[simp] theorem port_modSvc (p : Nat) (f : Svc → Svc) : port p (s.modSvc f) = port p s := rfl
@[simp] theorem port_modFwl (p : Nat) (f : Fwl → Fwl) : port p (s.modFwl f) = port p s := rfl
@[simp] theorem port_modBst (p : Nat) (f : Bst → Bst) : port p (s.modBst f) = port p s := rfl
@[simp] theorem port_modPwr (p : Nat) (f : Pwr → Pwr) : port p (s.modPwr f) = port p s := rfl
@[simp] theorem port_modChans (p : Nat) (f : FMap Chan → FMap Chan) : port p (s.modChans f) = port p s := rfl
@[simp] theorem port_modGrps (p : Nat) (f : FMap Group → FMap Group) : port p (s.modGrps f) = port p s := rfl
@[simp] theorem port_modLins (p : Nat) (f : FMap Lin → FMap Lin) : port p (s.modLins f) = port p s := rfl
@[simp] theorem port_modAna (p : Nat) (f : Ana → Ana) : port p (s.modAna f) = port p s := rfl
@[simp] theorem port_modFree (p : Nat) (f : Nat → Nat) : port p (s.modFree f) = port p s := rfl
@[simp] theorem port_modOutbox (p : Nat) (f : List Out → List Out) : port p (s.modOutbox f) = port p s := rfl
@[simp] theorem port_modPage (p j : Nat) (f : Page → Page) : port p (modPage j f s) = port p s := rfl
@[simp] theorem port_modLane (p j : Nat) (f : Lane → Lane) : port p (modLane j f s) = port p s := rfl
@[simp] theorem port_modQue (p j : Nat) (f : Que → Que) : port p (modQue j f s) = port p s := rfl
@[simp] theorem port_modHr (p j : Nat) (f : Hr → Hr) : port p (modHr j f s) = port p s := rfl
@[simp] theorem port_modCon (p j : Nat) (f : ConSt → ConSt) : port p (modCon j f s) = port p s := rfl
@[simp] theorem port_modIsl (p j : Nat) (f : Isl → Isl) : port p (modIsl j f s) = port p s := rfl
@[simp] theorem port_modMark (p j : Nat) (f : Mark → Mark) : port p (modMark j f s) = port p s := rfl
@[simp] theorem port_modClos (p j : Nat) (f : Clos → Clos) : port p (modClos j f s) = port p s := rfl
@[simp] theorem port_modChan (p j : Nat) (f : Chan → Chan) : port p (modChan j f s) = port p s := rfl
@[simp] theorem port_modGrp (p j : Nat) (f : Group → Group) : port p (modGrp j f s) = port p s := rfl
@[simp] theorem port_modLin (p j : Nat) (f : Lin → Lin) : port p (modLin j f s) = port p s := rfl
@[simp] theorem port_modTc (p j : Nat) (f : Tc → Tc) : port p (modTc j f s) = port p s := rfl
@[simp] theorem port_modAlarm (p j : Nat) (f : AlarmCh → AlarmCh) : port p (modAlarm j f s) = port p s := rfl
@[simp] theorem port_modRule (p j : Nat) (f : Rule → Rule) : port p (modRule j f s) = port p s := rfl
@[simp] theorem port_modDin (p j : Nat) (f : Din → Din) : port p (modDin j f s) = port p s := rfl
@[simp] theorem port_modTout (p j : Nat) (f : Tpin → Tpin) : port p (modTout j f s) = port p s := rfl
@[simp] theorem port_modTrack (p j : Nat) (f : Track → Track) : port p (modTrack j f s) = port p s := rfl
@[simp] theorem port_modSect (p j : Nat) (f : Sect → Sect) : port p (modSect j f s) = port p s := rfl
@[simp] theorem port_modRing (p j : Nat) (f : Ring → Ring) : port p (modRing j f s) = port p s := rfl
@[simp] theorem port_drive (p : Nat) (o : Out) : port p (drive o s) = port p s := rfl
theorem port_congr {u t : State} (h : t.pln = u.pln) (p : Nat) : port p t = port p u := by unfold port; rw [h]

@[simp] theorem que_modQue_self (q : Nat) (f : Que → Que) : que q (modQue q f s) = f (que q s) := FMap.get_upd_self
theorem que_modQue_of_ne {j q : Nat} (h : j ≠ q) (f : Que → Que) : que j (modQue q f s) = que j s := FMap.get_upd_of_ne h
@[simp] theorem que_modPending (q : Nat) (f : List Instr → List Instr) : que q (s.modPending f) = que q s := rfl
@[simp] theorem que_modPages (q : Nat) (f : FMap Page → FMap Page) : que q (s.modPages f) = que q s := rfl
@[simp] theorem que_modRf (q : Nat) (f : FMap Word → FMap Word) : que q (s.modRf f) = que q s := rfl
@[simp] theorem que_modMem (q : Nat) (f : FMap Byte → FMap Byte) : que q (s.modMem f) = que q s := rfl
@[simp] theorem que_modFuse (q : Nat) (f : Fuse → Fuse) : que q (s.modFuse f) = que q s := rfl
@[simp] theorem que_modFab (q : Nat) (f : Fab → Fab) : que q (s.modFab f) = que q s := rfl
@[simp] theorem que_modPln (q : Nat) (f : Pln → Pln) : que q (s.modPln f) = que q s := rfl
@[simp] theorem que_modTim (q : Nat) (f : Tim → Tim) : que q (s.modTim f) = que q s := rfl
@[simp] theorem que_modSrv (q : Nat) (f : Srv → Srv) : que q (s.modSrv f) = que q s := rfl
@[simp] theorem que_modLanes (q : Nat) (f : FMap Lane → FMap Lane) : que q (s.modLanes f) = que q s := rfl
@[simp] theorem que_modLsh (q : Nat) (f : Lsh → Lsh) : que q (s.modLsh f) = que q s := rfl
@[simp] theorem que_modDel (q : Nat) (f : Del → Del) : que q (s.modDel f) = que q s := rfl
@[simp] theorem que_modPci (q : Nat) (f : Pci → Pci) : que q (s.modPci f) = que q s := rfl
@[simp] theorem que_modFsp (q : Nat) (f : Fsp → Fsp) : que q (s.modFsp f) = que q s := rfl
@[simp] theorem que_modTcs (q : Nat) (f : FMap Tc → FMap Tc) : que q (s.modTcs f) = que q s := rfl
@[simp] theorem que_modSvc (q : Nat) (f : Svc → Svc) : que q (s.modSvc f) = que q s := rfl
@[simp] theorem que_modFwl (q : Nat) (f : Fwl → Fwl) : que q (s.modFwl f) = que q s := rfl
@[simp] theorem que_modBst (q : Nat) (f : Bst → Bst) : que q (s.modBst f) = que q s := rfl
@[simp] theorem que_modPwr (q : Nat) (f : Pwr → Pwr) : que q (s.modPwr f) = que q s := rfl
@[simp] theorem que_modChans (q : Nat) (f : FMap Chan → FMap Chan) : que q (s.modChans f) = que q s := rfl
@[simp] theorem que_modGrps (q : Nat) (f : FMap Group → FMap Group) : que q (s.modGrps f) = que q s := rfl
@[simp] theorem que_modLins (q : Nat) (f : FMap Lin → FMap Lin) : que q (s.modLins f) = que q s := rfl
@[simp] theorem que_modAna (q : Nat) (f : Ana → Ana) : que q (s.modAna f) = que q s := rfl
@[simp] theorem que_modFree (q : Nat) (f : Nat → Nat) : que q (s.modFree f) = que q s := rfl
@[simp] theorem que_modOutbox (q : Nat) (f : List Out → List Out) : que q (s.modOutbox f) = que q s := rfl
@[simp] theorem que_modPage (q j : Nat) (f : Page → Page) : que q (modPage j f s) = que q s := rfl
@[simp] theorem que_modLane (q j : Nat) (f : Lane → Lane) : que q (modLane j f s) = que q s := rfl
@[simp] theorem que_modPort (q j : Nat) (f : PortSt → PortSt) : que q (modPort j f s) = que q s := rfl
@[simp] theorem que_modHr (q j : Nat) (f : Hr → Hr) : que q (modHr j f s) = que q s := rfl
@[simp] theorem que_modCon (q j : Nat) (f : ConSt → ConSt) : que q (modCon j f s) = que q s := rfl
@[simp] theorem que_modIsl (q j : Nat) (f : Isl → Isl) : que q (modIsl j f s) = que q s := rfl
@[simp] theorem que_modMark (q j : Nat) (f : Mark → Mark) : que q (modMark j f s) = que q s := rfl
@[simp] theorem que_modClos (q j : Nat) (f : Clos → Clos) : que q (modClos j f s) = que q s := rfl
@[simp] theorem que_modChan (q j : Nat) (f : Chan → Chan) : que q (modChan j f s) = que q s := rfl
@[simp] theorem que_modGrp (q j : Nat) (f : Group → Group) : que q (modGrp j f s) = que q s := rfl
@[simp] theorem que_modLin (q j : Nat) (f : Lin → Lin) : que q (modLin j f s) = que q s := rfl
@[simp] theorem que_modTc (q j : Nat) (f : Tc → Tc) : que q (modTc j f s) = que q s := rfl
@[simp] theorem que_modAlarm (q j : Nat) (f : AlarmCh → AlarmCh) : que q (modAlarm j f s) = que q s := rfl
@[simp] theorem que_modRule (q j : Nat) (f : Rule → Rule) : que q (modRule j f s) = que q s := rfl
@[simp] theorem que_modDin (q j : Nat) (f : Din → Din) : que q (modDin j f s) = que q s := rfl
@[simp] theorem que_modTout (q j : Nat) (f : Tpin → Tpin) : que q (modTout j f s) = que q s := rfl
@[simp] theorem que_modTrack (q j : Nat) (f : Track → Track) : que q (modTrack j f s) = que q s := rfl
@[simp] theorem que_modSect (q j : Nat) (f : Sect → Sect) : que q (modSect j f s) = que q s := rfl
@[simp] theorem que_modRing (q j : Nat) (f : Ring → Ring) : que q (modRing j f s) = que q s := rfl
@[simp] theorem que_drive (q : Nat) (o : Out) : que q (drive o s) = que q s := rfl
theorem que_congr {u t : State} (h : t.ques = u.ques) (q : Nat) : que q t = que q u := by unfold que; rw [h]

@[simp] theorem hr_modHr_self (n : Nat) (f : Hr → Hr) : hr n (modHr n f s) = f (hr n s) := FMap.get_upd_self
theorem hr_modHr_of_ne {j n : Nat} (h : j ≠ n) (f : Hr → Hr) : hr j (modHr n f s) = hr j s := FMap.get_upd_of_ne h
@[simp] theorem hr_modPending (n : Nat) (f : List Instr → List Instr) : hr n (s.modPending f) = hr n s := rfl
@[simp] theorem hr_modPages (n : Nat) (f : FMap Page → FMap Page) : hr n (s.modPages f) = hr n s := rfl
@[simp] theorem hr_modRf (n : Nat) (f : FMap Word → FMap Word) : hr n (s.modRf f) = hr n s := rfl
@[simp] theorem hr_modMem (n : Nat) (f : FMap Byte → FMap Byte) : hr n (s.modMem f) = hr n s := rfl
@[simp] theorem hr_modFuse (n : Nat) (f : Fuse → Fuse) : hr n (s.modFuse f) = hr n s := rfl
@[simp] theorem hr_modFab (n : Nat) (f : Fab → Fab) : hr n (s.modFab f) = hr n s := rfl
@[simp] theorem hr_modPln (n : Nat) (f : Pln → Pln) : hr n (s.modPln f) = hr n s := rfl
@[simp] theorem hr_modTim (n : Nat) (f : Tim → Tim) : hr n (s.modTim f) = hr n s := rfl
@[simp] theorem hr_modSrv (n : Nat) (f : Srv → Srv) : hr n (s.modSrv f) = hr n s := rfl
@[simp] theorem hr_modLanes (n : Nat) (f : FMap Lane → FMap Lane) : hr n (s.modLanes f) = hr n s := rfl
@[simp] theorem hr_modLsh (n : Nat) (f : Lsh → Lsh) : hr n (s.modLsh f) = hr n s := rfl
@[simp] theorem hr_modDel (n : Nat) (f : Del → Del) : hr n (s.modDel f) = hr n s := rfl
@[simp] theorem hr_modQues (n : Nat) (f : FMap Que → FMap Que) : hr n (s.modQues f) = hr n s := rfl
@[simp] theorem hr_modFsp (n : Nat) (f : Fsp → Fsp) : hr n (s.modFsp f) = hr n s := rfl
@[simp] theorem hr_modTcs (n : Nat) (f : FMap Tc → FMap Tc) : hr n (s.modTcs f) = hr n s := rfl
@[simp] theorem hr_modSvc (n : Nat) (f : Svc → Svc) : hr n (s.modSvc f) = hr n s := rfl
@[simp] theorem hr_modFwl (n : Nat) (f : Fwl → Fwl) : hr n (s.modFwl f) = hr n s := rfl
@[simp] theorem hr_modBst (n : Nat) (f : Bst → Bst) : hr n (s.modBst f) = hr n s := rfl
@[simp] theorem hr_modPwr (n : Nat) (f : Pwr → Pwr) : hr n (s.modPwr f) = hr n s := rfl
@[simp] theorem hr_modChans (n : Nat) (f : FMap Chan → FMap Chan) : hr n (s.modChans f) = hr n s := rfl
@[simp] theorem hr_modGrps (n : Nat) (f : FMap Group → FMap Group) : hr n (s.modGrps f) = hr n s := rfl
@[simp] theorem hr_modLins (n : Nat) (f : FMap Lin → FMap Lin) : hr n (s.modLins f) = hr n s := rfl
@[simp] theorem hr_modAna (n : Nat) (f : Ana → Ana) : hr n (s.modAna f) = hr n s := rfl
@[simp] theorem hr_modFree (n : Nat) (f : Nat → Nat) : hr n (s.modFree f) = hr n s := rfl
@[simp] theorem hr_modOutbox (n : Nat) (f : List Out → List Out) : hr n (s.modOutbox f) = hr n s := rfl
@[simp] theorem hr_modPage (n j : Nat) (f : Page → Page) : hr n (modPage j f s) = hr n s := rfl
@[simp] theorem hr_modLane (n j : Nat) (f : Lane → Lane) : hr n (modLane j f s) = hr n s := rfl
@[simp] theorem hr_modPort (n j : Nat) (f : PortSt → PortSt) : hr n (modPort j f s) = hr n s := rfl
@[simp] theorem hr_modQue (n j : Nat) (f : Que → Que) : hr n (modQue j f s) = hr n s := rfl
@[simp] theorem hr_modCon (n j : Nat) (f : ConSt → ConSt) : hr n (modCon j f s) = hr n s := rfl
@[simp] theorem hr_modIsl (n j : Nat) (f : Isl → Isl) : hr n (modIsl j f s) = hr n s := rfl
@[simp] theorem hr_modMark (n j : Nat) (f : Mark → Mark) : hr n (modMark j f s) = hr n s := rfl
@[simp] theorem hr_modClos (n j : Nat) (f : Clos → Clos) : hr n (modClos j f s) = hr n s := rfl
@[simp] theorem hr_modChan (n j : Nat) (f : Chan → Chan) : hr n (modChan j f s) = hr n s := rfl
@[simp] theorem hr_modGrp (n j : Nat) (f : Group → Group) : hr n (modGrp j f s) = hr n s := rfl
@[simp] theorem hr_modLin (n j : Nat) (f : Lin → Lin) : hr n (modLin j f s) = hr n s := rfl
@[simp] theorem hr_modTc (n j : Nat) (f : Tc → Tc) : hr n (modTc j f s) = hr n s := rfl
@[simp] theorem hr_modAlarm (n j : Nat) (f : AlarmCh → AlarmCh) : hr n (modAlarm j f s) = hr n s := rfl
@[simp] theorem hr_modRule (n j : Nat) (f : Rule → Rule) : hr n (modRule j f s) = hr n s := rfl
@[simp] theorem hr_modDin (n j : Nat) (f : Din → Din) : hr n (modDin j f s) = hr n s := rfl
@[simp] theorem hr_modTout (n j : Nat) (f : Tpin → Tpin) : hr n (modTout j f s) = hr n s := rfl
@[simp] theorem hr_modTrack (n j : Nat) (f : Track → Track) : hr n (modTrack j f s) = hr n s := rfl
@[simp] theorem hr_modSect (n j : Nat) (f : Sect → Sect) : hr n (modSect j f s) = hr n s := rfl
@[simp] theorem hr_modRing (n j : Nat) (f : Ring → Ring) : hr n (modRing j f s) = hr n s := rfl
@[simp] theorem hr_drive (n : Nat) (o : Out) : hr n (drive o s) = hr n s := rfl
theorem hr_congr {u t : State} (h : t.pci = u.pci) (n : Nat) : hr n t = hr n u := by unfold hr; rw [h]

@[simp] theorem con_modCon_self (id : Nat) (f : ConSt → ConSt) : con id (modCon id f s) = f (con id s) := FMap.get_upd_self
theorem con_modCon_of_ne {j id : Nat} (h : j ≠ id) (f : ConSt → ConSt) : con j (modCon id f s) = con j s := FMap.get_upd_of_ne h
@[simp] theorem con_modPending (id : Nat) (f : List Instr → List Instr) : con id (s.modPending f) = con id s := rfl
@[simp] theorem con_modPages (id : Nat) (f : FMap Page → FMap Page) : con id (s.modPages f) = con id s := rfl
@[simp] theorem con_modRf (id : Nat) (f : FMap Word → FMap Word) : con id (s.modRf f) = con id s := rfl
@[simp] theorem con_modMem (id : Nat) (f : FMap Byte → FMap Byte) : con id (s.modMem f) = con id s := rfl
@[simp] theorem con_modFuse (id : Nat) (f : Fuse → Fuse) : con id (s.modFuse f) = con id s := rfl
@[simp] theorem con_modFab (id : Nat) (f : Fab → Fab) : con id (s.modFab f) = con id s := rfl
@[simp] theorem con_modPln (id : Nat) (f : Pln → Pln) : con id (s.modPln f) = con id s := rfl
@[simp] theorem con_modTim (id : Nat) (f : Tim → Tim) : con id (s.modTim f) = con id s := rfl
@[simp] theorem con_modSrv (id : Nat) (f : Srv → Srv) : con id (s.modSrv f) = con id s := rfl
@[simp] theorem con_modLanes (id : Nat) (f : FMap Lane → FMap Lane) : con id (s.modLanes f) = con id s := rfl
@[simp] theorem con_modLsh (id : Nat) (f : Lsh → Lsh) : con id (s.modLsh f) = con id s := rfl
@[simp] theorem con_modQues (id : Nat) (f : FMap Que → FMap Que) : con id (s.modQues f) = con id s := rfl
@[simp] theorem con_modPci (id : Nat) (f : Pci → Pci) : con id (s.modPci f) = con id s := rfl
@[simp] theorem con_modFsp (id : Nat) (f : Fsp → Fsp) : con id (s.modFsp f) = con id s := rfl
@[simp] theorem con_modTcs (id : Nat) (f : FMap Tc → FMap Tc) : con id (s.modTcs f) = con id s := rfl
@[simp] theorem con_modSvc (id : Nat) (f : Svc → Svc) : con id (s.modSvc f) = con id s := rfl
@[simp] theorem con_modFwl (id : Nat) (f : Fwl → Fwl) : con id (s.modFwl f) = con id s := rfl
@[simp] theorem con_modBst (id : Nat) (f : Bst → Bst) : con id (s.modBst f) = con id s := rfl
@[simp] theorem con_modPwr (id : Nat) (f : Pwr → Pwr) : con id (s.modPwr f) = con id s := rfl
@[simp] theorem con_modChans (id : Nat) (f : FMap Chan → FMap Chan) : con id (s.modChans f) = con id s := rfl
@[simp] theorem con_modGrps (id : Nat) (f : FMap Group → FMap Group) : con id (s.modGrps f) = con id s := rfl
@[simp] theorem con_modLins (id : Nat) (f : FMap Lin → FMap Lin) : con id (s.modLins f) = con id s := rfl
@[simp] theorem con_modAna (id : Nat) (f : Ana → Ana) : con id (s.modAna f) = con id s := rfl
@[simp] theorem con_modFree (id : Nat) (f : Nat → Nat) : con id (s.modFree f) = con id s := rfl
@[simp] theorem con_modOutbox (id : Nat) (f : List Out → List Out) : con id (s.modOutbox f) = con id s := rfl
@[simp] theorem con_modPage (id j : Nat) (f : Page → Page) : con id (modPage j f s) = con id s := rfl
@[simp] theorem con_modLane (id j : Nat) (f : Lane → Lane) : con id (modLane j f s) = con id s := rfl
@[simp] theorem con_modPort (id j : Nat) (f : PortSt → PortSt) : con id (modPort j f s) = con id s := rfl
@[simp] theorem con_modQue (id j : Nat) (f : Que → Que) : con id (modQue j f s) = con id s := rfl
@[simp] theorem con_modHr (id j : Nat) (f : Hr → Hr) : con id (modHr j f s) = con id s := rfl
@[simp] theorem con_modIsl (id j : Nat) (f : Isl → Isl) : con id (modIsl j f s) = con id s := rfl
@[simp] theorem con_modMark (id j : Nat) (f : Mark → Mark) : con id (modMark j f s) = con id s := rfl
@[simp] theorem con_modClos (id j : Nat) (f : Clos → Clos) : con id (modClos j f s) = con id s := rfl
@[simp] theorem con_modChan (id j : Nat) (f : Chan → Chan) : con id (modChan j f s) = con id s := rfl
@[simp] theorem con_modGrp (id j : Nat) (f : Group → Group) : con id (modGrp j f s) = con id s := rfl
@[simp] theorem con_modLin (id j : Nat) (f : Lin → Lin) : con id (modLin j f s) = con id s := rfl
@[simp] theorem con_modTc (id j : Nat) (f : Tc → Tc) : con id (modTc j f s) = con id s := rfl
@[simp] theorem con_modAlarm (id j : Nat) (f : AlarmCh → AlarmCh) : con id (modAlarm j f s) = con id s := rfl
@[simp] theorem con_modRule (id j : Nat) (f : Rule → Rule) : con id (modRule j f s) = con id s := rfl
@[simp] theorem con_modDin (id j : Nat) (f : Din → Din) : con id (modDin j f s) = con id s := rfl
@[simp] theorem con_modTout (id j : Nat) (f : Tpin → Tpin) : con id (modTout j f s) = con id s := rfl
@[simp] theorem con_modTrack (id j : Nat) (f : Track → Track) : con id (modTrack j f s) = con id s := rfl
@[simp] theorem con_modSect (id j : Nat) (f : Sect → Sect) : con id (modSect j f s) = con id s := rfl
@[simp] theorem con_modRing (id j : Nat) (f : Ring → Ring) : con id (modRing j f s) = con id s := rfl
@[simp] theorem con_drive (id : Nat) (o : Out) : con id (drive o s) = con id s := rfl
theorem con_congr {u t : State} (h : t.del = u.del) (id : Nat) : con id t = con id u := by unfold con; rw [h]

@[simp] theorem isl_modIsl_self (k : Nat) (f : Isl → Isl) : isl k (modIsl k f s) = f (isl k s) := FMap.get_upd_self
theorem isl_modIsl_of_ne {j k : Nat} (h : j ≠ k) (f : Isl → Isl) : isl j (modIsl k f s) = isl j s := FMap.get_upd_of_ne h
@[simp] theorem isl_modPending (k : Nat) (f : List Instr → List Instr) : isl k (s.modPending f) = isl k s := rfl
@[simp] theorem isl_modPages (k : Nat) (f : FMap Page → FMap Page) : isl k (s.modPages f) = isl k s := rfl
@[simp] theorem isl_modRf (k : Nat) (f : FMap Word → FMap Word) : isl k (s.modRf f) = isl k s := rfl
@[simp] theorem isl_modMem (k : Nat) (f : FMap Byte → FMap Byte) : isl k (s.modMem f) = isl k s := rfl
@[simp] theorem isl_modFuse (k : Nat) (f : Fuse → Fuse) : isl k (s.modFuse f) = isl k s := rfl
@[simp] theorem isl_modFab (k : Nat) (f : Fab → Fab) : isl k (s.modFab f) = isl k s := rfl
@[simp] theorem isl_modPln (k : Nat) (f : Pln → Pln) : isl k (s.modPln f) = isl k s := rfl
@[simp] theorem isl_modTim (k : Nat) (f : Tim → Tim) : isl k (s.modTim f) = isl k s := rfl
@[simp] theorem isl_modSrv (k : Nat) (f : Srv → Srv) : isl k (s.modSrv f) = isl k s := rfl
@[simp] theorem isl_modLanes (k : Nat) (f : FMap Lane → FMap Lane) : isl k (s.modLanes f) = isl k s := rfl
@[simp] theorem isl_modLsh (k : Nat) (f : Lsh → Lsh) : isl k (s.modLsh f) = isl k s := rfl
@[simp] theorem isl_modDel (k : Nat) (f : Del → Del) : isl k (s.modDel f) = isl k s := rfl
@[simp] theorem isl_modQues (k : Nat) (f : FMap Que → FMap Que) : isl k (s.modQues f) = isl k s := rfl
@[simp] theorem isl_modPci (k : Nat) (f : Pci → Pci) : isl k (s.modPci f) = isl k s := rfl
@[simp] theorem isl_modFsp (k : Nat) (f : Fsp → Fsp) : isl k (s.modFsp f) = isl k s := rfl
@[simp] theorem isl_modTcs (k : Nat) (f : FMap Tc → FMap Tc) : isl k (s.modTcs f) = isl k s := rfl
@[simp] theorem isl_modSvc (k : Nat) (f : Svc → Svc) : isl k (s.modSvc f) = isl k s := rfl
@[simp] theorem isl_modFwl (k : Nat) (f : Fwl → Fwl) : isl k (s.modFwl f) = isl k s := rfl
@[simp] theorem isl_modPwr (k : Nat) (f : Pwr → Pwr) : isl k (s.modPwr f) = isl k s := rfl
@[simp] theorem isl_modChans (k : Nat) (f : FMap Chan → FMap Chan) : isl k (s.modChans f) = isl k s := rfl
@[simp] theorem isl_modGrps (k : Nat) (f : FMap Group → FMap Group) : isl k (s.modGrps f) = isl k s := rfl
@[simp] theorem isl_modLins (k : Nat) (f : FMap Lin → FMap Lin) : isl k (s.modLins f) = isl k s := rfl
@[simp] theorem isl_modAna (k : Nat) (f : Ana → Ana) : isl k (s.modAna f) = isl k s := rfl
@[simp] theorem isl_modFree (k : Nat) (f : Nat → Nat) : isl k (s.modFree f) = isl k s := rfl
@[simp] theorem isl_modOutbox (k : Nat) (f : List Out → List Out) : isl k (s.modOutbox f) = isl k s := rfl
@[simp] theorem isl_modPage (k j : Nat) (f : Page → Page) : isl k (modPage j f s) = isl k s := rfl
@[simp] theorem isl_modLane (k j : Nat) (f : Lane → Lane) : isl k (modLane j f s) = isl k s := rfl
@[simp] theorem isl_modPort (k j : Nat) (f : PortSt → PortSt) : isl k (modPort j f s) = isl k s := rfl
@[simp] theorem isl_modQue (k j : Nat) (f : Que → Que) : isl k (modQue j f s) = isl k s := rfl
@[simp] theorem isl_modHr (k j : Nat) (f : Hr → Hr) : isl k (modHr j f s) = isl k s := rfl
@[simp] theorem isl_modCon (k j : Nat) (f : ConSt → ConSt) : isl k (modCon j f s) = isl k s := rfl
@[simp] theorem isl_modMark (k j : Nat) (f : Mark → Mark) : isl k (modMark j f s) = isl k s := rfl
@[simp] theorem isl_modClos (k j : Nat) (f : Clos → Clos) : isl k (modClos j f s) = isl k s := rfl
@[simp] theorem isl_modChan (k j : Nat) (f : Chan → Chan) : isl k (modChan j f s) = isl k s := rfl
@[simp] theorem isl_modGrp (k j : Nat) (f : Group → Group) : isl k (modGrp j f s) = isl k s := rfl
@[simp] theorem isl_modLin (k j : Nat) (f : Lin → Lin) : isl k (modLin j f s) = isl k s := rfl
@[simp] theorem isl_modTc (k j : Nat) (f : Tc → Tc) : isl k (modTc j f s) = isl k s := rfl
@[simp] theorem isl_modAlarm (k j : Nat) (f : AlarmCh → AlarmCh) : isl k (modAlarm j f s) = isl k s := rfl
@[simp] theorem isl_modRule (k j : Nat) (f : Rule → Rule) : isl k (modRule j f s) = isl k s := rfl
@[simp] theorem isl_modDin (k j : Nat) (f : Din → Din) : isl k (modDin j f s) = isl k s := rfl
@[simp] theorem isl_modTout (k j : Nat) (f : Tpin → Tpin) : isl k (modTout j f s) = isl k s := rfl
@[simp] theorem isl_modTrack (k j : Nat) (f : Track → Track) : isl k (modTrack j f s) = isl k s := rfl
@[simp] theorem isl_modSect (k j : Nat) (f : Sect → Sect) : isl k (modSect j f s) = isl k s := rfl
@[simp] theorem isl_modRing (k j : Nat) (f : Ring → Ring) : isl k (modRing j f s) = isl k s := rfl
@[simp] theorem isl_drive (k : Nat) (o : Out) : isl k (drive o s) = isl k s := rfl
theorem isl_congr {u t : State} (h : t.bst = u.bst) (k : Nat) : isl k t = isl k u := by unfold isl; rw [h]

@[simp] theorem rfGet_modPending (addr : Nat) (f : List Instr → List Instr) : rfGet addr (s.modPending f) = rfGet addr s := rfl
@[simp] theorem rfGet_modPages (addr : Nat) (f : FMap Page → FMap Page) : rfGet addr (s.modPages f) = rfGet addr s := rfl
@[simp] theorem rfGet_modMem (addr : Nat) (f : FMap Byte → FMap Byte) : rfGet addr (s.modMem f) = rfGet addr s := rfl
@[simp] theorem rfGet_modFuse (addr : Nat) (f : Fuse → Fuse) : rfGet addr (s.modFuse f) = rfGet addr s := rfl
@[simp] theorem rfGet_modFab (addr : Nat) (f : Fab → Fab) : rfGet addr (s.modFab f) = rfGet addr s := rfl
@[simp] theorem rfGet_modPln (addr : Nat) (f : Pln → Pln) : rfGet addr (s.modPln f) = rfGet addr s := rfl
@[simp] theorem rfGet_modTim (addr : Nat) (f : Tim → Tim) : rfGet addr (s.modTim f) = rfGet addr s := rfl
@[simp] theorem rfGet_modSrv (addr : Nat) (f : Srv → Srv) : rfGet addr (s.modSrv f) = rfGet addr s := rfl
@[simp] theorem rfGet_modLanes (addr : Nat) (f : FMap Lane → FMap Lane) : rfGet addr (s.modLanes f) = rfGet addr s := rfl
@[simp] theorem rfGet_modLsh (addr : Nat) (f : Lsh → Lsh) : rfGet addr (s.modLsh f) = rfGet addr s := rfl
@[simp] theorem rfGet_modDel (addr : Nat) (f : Del → Del) : rfGet addr (s.modDel f) = rfGet addr s := rfl
@[simp] theorem rfGet_modQues (addr : Nat) (f : FMap Que → FMap Que) : rfGet addr (s.modQues f) = rfGet addr s := rfl
@[simp] theorem rfGet_modPci (addr : Nat) (f : Pci → Pci) : rfGet addr (s.modPci f) = rfGet addr s := rfl
@[simp] theorem rfGet_modFsp (addr : Nat) (f : Fsp → Fsp) : rfGet addr (s.modFsp f) = rfGet addr s := rfl
@[simp] theorem rfGet_modTcs (addr : Nat) (f : FMap Tc → FMap Tc) : rfGet addr (s.modTcs f) = rfGet addr s := rfl
@[simp] theorem rfGet_modSvc (addr : Nat) (f : Svc → Svc) : rfGet addr (s.modSvc f) = rfGet addr s := rfl
@[simp] theorem rfGet_modFwl (addr : Nat) (f : Fwl → Fwl) : rfGet addr (s.modFwl f) = rfGet addr s := rfl
@[simp] theorem rfGet_modBst (addr : Nat) (f : Bst → Bst) : rfGet addr (s.modBst f) = rfGet addr s := rfl
@[simp] theorem rfGet_modPwr (addr : Nat) (f : Pwr → Pwr) : rfGet addr (s.modPwr f) = rfGet addr s := rfl
@[simp] theorem rfGet_modChans (addr : Nat) (f : FMap Chan → FMap Chan) : rfGet addr (s.modChans f) = rfGet addr s := rfl
@[simp] theorem rfGet_modGrps (addr : Nat) (f : FMap Group → FMap Group) : rfGet addr (s.modGrps f) = rfGet addr s := rfl
@[simp] theorem rfGet_modLins (addr : Nat) (f : FMap Lin → FMap Lin) : rfGet addr (s.modLins f) = rfGet addr s := rfl
@[simp] theorem rfGet_modAna (addr : Nat) (f : Ana → Ana) : rfGet addr (s.modAna f) = rfGet addr s := rfl
@[simp] theorem rfGet_modFree (addr : Nat) (f : Nat → Nat) : rfGet addr (s.modFree f) = rfGet addr s := rfl
@[simp] theorem rfGet_modOutbox (addr : Nat) (f : List Out → List Out) : rfGet addr (s.modOutbox f) = rfGet addr s := rfl
@[simp] theorem rfGet_modPage (addr j : Nat) (f : Page → Page) : rfGet addr (modPage j f s) = rfGet addr s := rfl
@[simp] theorem rfGet_modLane (addr j : Nat) (f : Lane → Lane) : rfGet addr (modLane j f s) = rfGet addr s := rfl
@[simp] theorem rfGet_modPort (addr j : Nat) (f : PortSt → PortSt) : rfGet addr (modPort j f s) = rfGet addr s := rfl
@[simp] theorem rfGet_modQue (addr j : Nat) (f : Que → Que) : rfGet addr (modQue j f s) = rfGet addr s := rfl
@[simp] theorem rfGet_modHr (addr j : Nat) (f : Hr → Hr) : rfGet addr (modHr j f s) = rfGet addr s := rfl
@[simp] theorem rfGet_modCon (addr j : Nat) (f : ConSt → ConSt) : rfGet addr (modCon j f s) = rfGet addr s := rfl
@[simp] theorem rfGet_modIsl (addr j : Nat) (f : Isl → Isl) : rfGet addr (modIsl j f s) = rfGet addr s := rfl
@[simp] theorem rfGet_modMark (addr j : Nat) (f : Mark → Mark) : rfGet addr (modMark j f s) = rfGet addr s := rfl
@[simp] theorem rfGet_modClos (addr j : Nat) (f : Clos → Clos) : rfGet addr (modClos j f s) = rfGet addr s := rfl
@[simp] theorem rfGet_modChan (addr j : Nat) (f : Chan → Chan) : rfGet addr (modChan j f s) = rfGet addr s := rfl
@[simp] theorem rfGet_modGrp (addr j : Nat) (f : Group → Group) : rfGet addr (modGrp j f s) = rfGet addr s := rfl
@[simp] theorem rfGet_modLin (addr j : Nat) (f : Lin → Lin) : rfGet addr (modLin j f s) = rfGet addr s := rfl
@[simp] theorem rfGet_modTc (addr j : Nat) (f : Tc → Tc) : rfGet addr (modTc j f s) = rfGet addr s := rfl
@[simp] theorem rfGet_modAlarm (addr j : Nat) (f : AlarmCh → AlarmCh) : rfGet addr (modAlarm j f s) = rfGet addr s := rfl
@[simp] theorem rfGet_modRule (addr j : Nat) (f : Rule → Rule) : rfGet addr (modRule j f s) = rfGet addr s := rfl
@[simp] theorem rfGet_modDin (addr j : Nat) (f : Din → Din) : rfGet addr (modDin j f s) = rfGet addr s := rfl
@[simp] theorem rfGet_modTout (addr j : Nat) (f : Tpin → Tpin) : rfGet addr (modTout j f s) = rfGet addr s := rfl
@[simp] theorem rfGet_modTrack (addr j : Nat) (f : Track → Track) : rfGet addr (modTrack j f s) = rfGet addr s := rfl
@[simp] theorem rfGet_modSect (addr j : Nat) (f : Sect → Sect) : rfGet addr (modSect j f s) = rfGet addr s := rfl
@[simp] theorem rfGet_modRing (addr j : Nat) (f : Ring → Ring) : rfGet addr (modRing j f s) = rfGet addr s := rfl
@[simp] theorem rfGet_drive (addr : Nat) (o : Out) : rfGet addr (drive o s) = rfGet addr s := rfl
theorem rfGet_congr {u t : State} (h : t.rf = u.rf) (addr : Nat) : rfGet addr t = rfGet addr u := by unfold rfGet; rw [h]

@[simp] theorem mark_modMark_self (p : Nat) (f : Mark → Mark) : mark p (modMark p f s) = f (mark p s) := FMap.get_upd_self
theorem mark_modMark_of_ne {j p : Nat} (h : j ≠ p) (f : Mark → Mark) : mark j (modMark p f s) = mark j s := FMap.get_upd_of_ne h
@[simp] theorem mark_modPending (p : Nat) (f : List Instr → List Instr) : mark p (s.modPending f) = mark p s := rfl
@[simp] theorem mark_modPages (p : Nat) (f : FMap Page → FMap Page) : mark p (s.modPages f) = mark p s := rfl
@[simp] theorem mark_modRf (p : Nat) (f : FMap Word → FMap Word) : mark p (s.modRf f) = mark p s := rfl
@[simp] theorem mark_modMem (p : Nat) (f : FMap Byte → FMap Byte) : mark p (s.modMem f) = mark p s := rfl
@[simp] theorem mark_modFuse (p : Nat) (f : Fuse → Fuse) : mark p (s.modFuse f) = mark p s := rfl
@[simp] theorem mark_modFab (p : Nat) (f : Fab → Fab) : mark p (s.modFab f) = mark p s := rfl
@[simp] theorem mark_modPln (p : Nat) (f : Pln → Pln) : mark p (s.modPln f) = mark p s := rfl
@[simp] theorem mark_modTim (p : Nat) (f : Tim → Tim) : mark p (s.modTim f) = mark p s := rfl
@[simp] theorem mark_modLanes (p : Nat) (f : FMap Lane → FMap Lane) : mark p (s.modLanes f) = mark p s := rfl
@[simp] theorem mark_modLsh (p : Nat) (f : Lsh → Lsh) : mark p (s.modLsh f) = mark p s := rfl
@[simp] theorem mark_modDel (p : Nat) (f : Del → Del) : mark p (s.modDel f) = mark p s := rfl
@[simp] theorem mark_modQues (p : Nat) (f : FMap Que → FMap Que) : mark p (s.modQues f) = mark p s := rfl
@[simp] theorem mark_modPci (p : Nat) (f : Pci → Pci) : mark p (s.modPci f) = mark p s := rfl
@[simp] theorem mark_modFsp (p : Nat) (f : Fsp → Fsp) : mark p (s.modFsp f) = mark p s := rfl
@[simp] theorem mark_modTcs (p : Nat) (f : FMap Tc → FMap Tc) : mark p (s.modTcs f) = mark p s := rfl
@[simp] theorem mark_modSvc (p : Nat) (f : Svc → Svc) : mark p (s.modSvc f) = mark p s := rfl
@[simp] theorem mark_modFwl (p : Nat) (f : Fwl → Fwl) : mark p (s.modFwl f) = mark p s := rfl
@[simp] theorem mark_modBst (p : Nat) (f : Bst → Bst) : mark p (s.modBst f) = mark p s := rfl
@[simp] theorem mark_modPwr (p : Nat) (f : Pwr → Pwr) : mark p (s.modPwr f) = mark p s := rfl
@[simp] theorem mark_modChans (p : Nat) (f : FMap Chan → FMap Chan) : mark p (s.modChans f) = mark p s := rfl
@[simp] theorem mark_modGrps (p : Nat) (f : FMap Group → FMap Group) : mark p (s.modGrps f) = mark p s := rfl
@[simp] theorem mark_modLins (p : Nat) (f : FMap Lin → FMap Lin) : mark p (s.modLins f) = mark p s := rfl
@[simp] theorem mark_modAna (p : Nat) (f : Ana → Ana) : mark p (s.modAna f) = mark p s := rfl
@[simp] theorem mark_modFree (p : Nat) (f : Nat → Nat) : mark p (s.modFree f) = mark p s := rfl
@[simp] theorem mark_modOutbox (p : Nat) (f : List Out → List Out) : mark p (s.modOutbox f) = mark p s := rfl
@[simp] theorem mark_modPage (p j : Nat) (f : Page → Page) : mark p (modPage j f s) = mark p s := rfl
@[simp] theorem mark_modLane (p j : Nat) (f : Lane → Lane) : mark p (modLane j f s) = mark p s := rfl
@[simp] theorem mark_modPort (p j : Nat) (f : PortSt → PortSt) : mark p (modPort j f s) = mark p s := rfl
@[simp] theorem mark_modQue (p j : Nat) (f : Que → Que) : mark p (modQue j f s) = mark p s := rfl
@[simp] theorem mark_modHr (p j : Nat) (f : Hr → Hr) : mark p (modHr j f s) = mark p s := rfl
@[simp] theorem mark_modCon (p j : Nat) (f : ConSt → ConSt) : mark p (modCon j f s) = mark p s := rfl
@[simp] theorem mark_modIsl (p j : Nat) (f : Isl → Isl) : mark p (modIsl j f s) = mark p s := rfl
@[simp] theorem mark_modClos (p j : Nat) (f : Clos → Clos) : mark p (modClos j f s) = mark p s := rfl
@[simp] theorem mark_modChan (p j : Nat) (f : Chan → Chan) : mark p (modChan j f s) = mark p s := rfl
@[simp] theorem mark_modGrp (p j : Nat) (f : Group → Group) : mark p (modGrp j f s) = mark p s := rfl
@[simp] theorem mark_modLin (p j : Nat) (f : Lin → Lin) : mark p (modLin j f s) = mark p s := rfl
@[simp] theorem mark_modTc (p j : Nat) (f : Tc → Tc) : mark p (modTc j f s) = mark p s := rfl
@[simp] theorem mark_modAlarm (p j : Nat) (f : AlarmCh → AlarmCh) : mark p (modAlarm j f s) = mark p s := rfl
@[simp] theorem mark_modRule (p j : Nat) (f : Rule → Rule) : mark p (modRule j f s) = mark p s := rfl
@[simp] theorem mark_modDin (p j : Nat) (f : Din → Din) : mark p (modDin j f s) = mark p s := rfl
@[simp] theorem mark_modTout (p j : Nat) (f : Tpin → Tpin) : mark p (modTout j f s) = mark p s := rfl
@[simp] theorem mark_modTrack (p j : Nat) (f : Track → Track) : mark p (modTrack j f s) = mark p s := rfl
@[simp] theorem mark_modSect (p j : Nat) (f : Sect → Sect) : mark p (modSect j f s) = mark p s := rfl
@[simp] theorem mark_modRing (p j : Nat) (f : Ring → Ring) : mark p (modRing j f s) = mark p s := rfl
@[simp] theorem mark_drive (p : Nat) (o : Out) : mark p (drive o s) = mark p s := rfl
theorem mark_congr {u t : State} (h : t.srv = u.srv) (p : Nat) : mark p t = mark p u := by unfold mark; rw [h]

@[simp] theorem clos_modClos_self (n : Nat) (f : Clos → Clos) : clos n (modClos n f s) = f (clos n s) := FMap.get_upd_self
theorem clos_modClos_of_ne {j n : Nat} (h : j ≠ n) (f : Clos → Clos) : clos j (modClos n f s) = clos j s := FMap.get_upd_of_ne h
@[simp] theorem clos_modPending (n : Nat) (f : List Instr → List Instr) : clos n (s.modPending f) = clos n s := rfl
@[simp] theorem clos_modPages (n : Nat) (f : FMap Page → FMap Page) : clos n (s.modPages f) = clos n s := rfl
@[simp] theorem clos_modRf (n : Nat) (f : FMap Word → FMap Word) : clos n (s.modRf f) = clos n s := rfl
@[simp] theorem clos_modMem (n : Nat) (f : FMap Byte → FMap Byte) : clos n (s.modMem f) = clos n s := rfl
@[simp] theorem clos_modFuse (n : Nat) (f : Fuse → Fuse) : clos n (s.modFuse f) = clos n s := rfl
@[simp] theorem clos_modFab (n : Nat) (f : Fab → Fab) : clos n (s.modFab f) = clos n s := rfl
@[simp] theorem clos_modPln (n : Nat) (f : Pln → Pln) : clos n (s.modPln f) = clos n s := rfl
@[simp] theorem clos_modTim (n : Nat) (f : Tim → Tim) : clos n (s.modTim f) = clos n s := rfl
@[simp] theorem clos_modLanes (n : Nat) (f : FMap Lane → FMap Lane) : clos n (s.modLanes f) = clos n s := rfl
@[simp] theorem clos_modLsh (n : Nat) (f : Lsh → Lsh) : clos n (s.modLsh f) = clos n s := rfl
@[simp] theorem clos_modDel (n : Nat) (f : Del → Del) : clos n (s.modDel f) = clos n s := rfl
@[simp] theorem clos_modQues (n : Nat) (f : FMap Que → FMap Que) : clos n (s.modQues f) = clos n s := rfl
@[simp] theorem clos_modPci (n : Nat) (f : Pci → Pci) : clos n (s.modPci f) = clos n s := rfl
@[simp] theorem clos_modFsp (n : Nat) (f : Fsp → Fsp) : clos n (s.modFsp f) = clos n s := rfl
@[simp] theorem clos_modTcs (n : Nat) (f : FMap Tc → FMap Tc) : clos n (s.modTcs f) = clos n s := rfl
@[simp] theorem clos_modSvc (n : Nat) (f : Svc → Svc) : clos n (s.modSvc f) = clos n s := rfl
@[simp] theorem clos_modFwl (n : Nat) (f : Fwl → Fwl) : clos n (s.modFwl f) = clos n s := rfl
@[simp] theorem clos_modBst (n : Nat) (f : Bst → Bst) : clos n (s.modBst f) = clos n s := rfl
@[simp] theorem clos_modPwr (n : Nat) (f : Pwr → Pwr) : clos n (s.modPwr f) = clos n s := rfl
@[simp] theorem clos_modChans (n : Nat) (f : FMap Chan → FMap Chan) : clos n (s.modChans f) = clos n s := rfl
@[simp] theorem clos_modGrps (n : Nat) (f : FMap Group → FMap Group) : clos n (s.modGrps f) = clos n s := rfl
@[simp] theorem clos_modLins (n : Nat) (f : FMap Lin → FMap Lin) : clos n (s.modLins f) = clos n s := rfl
@[simp] theorem clos_modAna (n : Nat) (f : Ana → Ana) : clos n (s.modAna f) = clos n s := rfl
@[simp] theorem clos_modFree (n : Nat) (f : Nat → Nat) : clos n (s.modFree f) = clos n s := rfl
@[simp] theorem clos_modOutbox (n : Nat) (f : List Out → List Out) : clos n (s.modOutbox f) = clos n s := rfl
@[simp] theorem clos_modPage (n j : Nat) (f : Page → Page) : clos n (modPage j f s) = clos n s := rfl
@[simp] theorem clos_modLane (n j : Nat) (f : Lane → Lane) : clos n (modLane j f s) = clos n s := rfl
@[simp] theorem clos_modPort (n j : Nat) (f : PortSt → PortSt) : clos n (modPort j f s) = clos n s := rfl
@[simp] theorem clos_modQue (n j : Nat) (f : Que → Que) : clos n (modQue j f s) = clos n s := rfl
@[simp] theorem clos_modHr (n j : Nat) (f : Hr → Hr) : clos n (modHr j f s) = clos n s := rfl
@[simp] theorem clos_modCon (n j : Nat) (f : ConSt → ConSt) : clos n (modCon j f s) = clos n s := rfl
@[simp] theorem clos_modIsl (n j : Nat) (f : Isl → Isl) : clos n (modIsl j f s) = clos n s := rfl
@[simp] theorem clos_modMark (n j : Nat) (f : Mark → Mark) : clos n (modMark j f s) = clos n s := rfl
@[simp] theorem clos_modChan (n j : Nat) (f : Chan → Chan) : clos n (modChan j f s) = clos n s := rfl
@[simp] theorem clos_modGrp (n j : Nat) (f : Group → Group) : clos n (modGrp j f s) = clos n s := rfl
@[simp] theorem clos_modLin (n j : Nat) (f : Lin → Lin) : clos n (modLin j f s) = clos n s := rfl
@[simp] theorem clos_modTc (n j : Nat) (f : Tc → Tc) : clos n (modTc j f s) = clos n s := rfl
@[simp] theorem clos_modAlarm (n j : Nat) (f : AlarmCh → AlarmCh) : clos n (modAlarm j f s) = clos n s := rfl
@[simp] theorem clos_modRule (n j : Nat) (f : Rule → Rule) : clos n (modRule j f s) = clos n s := rfl
@[simp] theorem clos_modDin (n j : Nat) (f : Din → Din) : clos n (modDin j f s) = clos n s := rfl
@[simp] theorem clos_modTout (n j : Nat) (f : Tpin → Tpin) : clos n (modTout j f s) = clos n s := rfl
@[simp] theorem clos_modTrack (n j : Nat) (f : Track → Track) : clos n (modTrack j f s) = clos n s := rfl
@[simp] theorem clos_modSect (n j : Nat) (f : Sect → Sect) : clos n (modSect j f s) = clos n s := rfl
@[simp] theorem clos_modRing (n j : Nat) (f : Ring → Ring) : clos n (modRing j f s) = clos n s := rfl
@[simp] theorem clos_drive (n : Nat) (o : Out) : clos n (drive o s) = clos n s := rfl
theorem clos_congr {u t : State} (h : t.srv = u.srv) (n : Nat) : clos n t = clos n u := by unfold clos; rw [h]

@[simp] theorem chan_modChan_self (c : Nat) (f : Chan → Chan) : chan c (modChan c f s) = f (chan c s) := FMap.get_upd_self
theorem chan_modChan_of_ne {j c : Nat} (h : j ≠ c) (f : Chan → Chan) : chan j (modChan c f s) = chan j s := FMap.get_upd_of_ne h
@[simp] theorem chan_modPending (c : Nat) (f : List Instr → List Instr) : chan c (s.modPending f) = chan c s := rfl
@[simp] theorem chan_modPages (c : Nat) (f : FMap Page → FMap Page) : chan c (s.modPages f) = chan c s := rfl
@[simp] theorem chan_modRf (c : Nat) (f : FMap Word → FMap Word) : chan c (s.modRf f) = chan c s := rfl
@[simp] theorem chan_modMem (c : Nat) (f : FMap Byte → FMap Byte) : chan c (s.modMem f) = chan c s := rfl
@[simp] theorem chan_modFuse (c : Nat) (f : Fuse → Fuse) : chan c (s.modFuse f) = chan c s := rfl
@[simp] theorem chan_modFab (c : Nat) (f : Fab → Fab) : chan c (s.modFab f) = chan c s := rfl
@[simp] theorem chan_modPln (c : Nat) (f : Pln → Pln) : chan c (s.modPln f) = chan c s := rfl
@[simp] theorem chan_modTim (c : Nat) (f : Tim → Tim) : chan c (s.modTim f) = chan c s := rfl
@[simp] theorem chan_modSrv (c : Nat) (f : Srv → Srv) : chan c (s.modSrv f) = chan c s := rfl
@[simp] theorem chan_modLanes (c : Nat) (f : FMap Lane → FMap Lane) : chan c (s.modLanes f) = chan c s := rfl
@[simp] theorem chan_modLsh (c : Nat) (f : Lsh → Lsh) : chan c (s.modLsh f) = chan c s := rfl
@[simp] theorem chan_modDel (c : Nat) (f : Del → Del) : chan c (s.modDel f) = chan c s := rfl
@[simp] theorem chan_modQues (c : Nat) (f : FMap Que → FMap Que) : chan c (s.modQues f) = chan c s := rfl
@[simp] theorem chan_modPci (c : Nat) (f : Pci → Pci) : chan c (s.modPci f) = chan c s := rfl
@[simp] theorem chan_modFsp (c : Nat) (f : Fsp → Fsp) : chan c (s.modFsp f) = chan c s := rfl
@[simp] theorem chan_modTcs (c : Nat) (f : FMap Tc → FMap Tc) : chan c (s.modTcs f) = chan c s := rfl
@[simp] theorem chan_modSvc (c : Nat) (f : Svc → Svc) : chan c (s.modSvc f) = chan c s := rfl
@[simp] theorem chan_modFwl (c : Nat) (f : Fwl → Fwl) : chan c (s.modFwl f) = chan c s := rfl
@[simp] theorem chan_modBst (c : Nat) (f : Bst → Bst) : chan c (s.modBst f) = chan c s := rfl
@[simp] theorem chan_modPwr (c : Nat) (f : Pwr → Pwr) : chan c (s.modPwr f) = chan c s := rfl
@[simp] theorem chan_modGrps (c : Nat) (f : FMap Group → FMap Group) : chan c (s.modGrps f) = chan c s := rfl
@[simp] theorem chan_modLins (c : Nat) (f : FMap Lin → FMap Lin) : chan c (s.modLins f) = chan c s := rfl
@[simp] theorem chan_modAna (c : Nat) (f : Ana → Ana) : chan c (s.modAna f) = chan c s := rfl
@[simp] theorem chan_modFree (c : Nat) (f : Nat → Nat) : chan c (s.modFree f) = chan c s := rfl
@[simp] theorem chan_modOutbox (c : Nat) (f : List Out → List Out) : chan c (s.modOutbox f) = chan c s := rfl
@[simp] theorem chan_modPage (c j : Nat) (f : Page → Page) : chan c (modPage j f s) = chan c s := rfl
@[simp] theorem chan_modLane (c j : Nat) (f : Lane → Lane) : chan c (modLane j f s) = chan c s := rfl
@[simp] theorem chan_modPort (c j : Nat) (f : PortSt → PortSt) : chan c (modPort j f s) = chan c s := rfl
@[simp] theorem chan_modQue (c j : Nat) (f : Que → Que) : chan c (modQue j f s) = chan c s := rfl
@[simp] theorem chan_modHr (c j : Nat) (f : Hr → Hr) : chan c (modHr j f s) = chan c s := rfl
@[simp] theorem chan_modCon (c j : Nat) (f : ConSt → ConSt) : chan c (modCon j f s) = chan c s := rfl
@[simp] theorem chan_modIsl (c j : Nat) (f : Isl → Isl) : chan c (modIsl j f s) = chan c s := rfl
@[simp] theorem chan_modMark (c j : Nat) (f : Mark → Mark) : chan c (modMark j f s) = chan c s := rfl
@[simp] theorem chan_modClos (c j : Nat) (f : Clos → Clos) : chan c (modClos j f s) = chan c s := rfl
@[simp] theorem chan_modGrp (c j : Nat) (f : Group → Group) : chan c (modGrp j f s) = chan c s := rfl
@[simp] theorem chan_modLin (c j : Nat) (f : Lin → Lin) : chan c (modLin j f s) = chan c s := rfl
@[simp] theorem chan_modTc (c j : Nat) (f : Tc → Tc) : chan c (modTc j f s) = chan c s := rfl
@[simp] theorem chan_modAlarm (c j : Nat) (f : AlarmCh → AlarmCh) : chan c (modAlarm j f s) = chan c s := rfl
@[simp] theorem chan_modRule (c j : Nat) (f : Rule → Rule) : chan c (modRule j f s) = chan c s := rfl
@[simp] theorem chan_modDin (c j : Nat) (f : Din → Din) : chan c (modDin j f s) = chan c s := rfl
@[simp] theorem chan_modTout (c j : Nat) (f : Tpin → Tpin) : chan c (modTout j f s) = chan c s := rfl
@[simp] theorem chan_modTrack (c j : Nat) (f : Track → Track) : chan c (modTrack j f s) = chan c s := rfl
@[simp] theorem chan_modSect (c j : Nat) (f : Sect → Sect) : chan c (modSect j f s) = chan c s := rfl
@[simp] theorem chan_modRing (c j : Nat) (f : Ring → Ring) : chan c (modRing j f s) = chan c s := rfl
@[simp] theorem chan_drive (c : Nat) (o : Out) : chan c (drive o s) = chan c s := rfl
theorem chan_congr {u t : State} (h : t.chans = u.chans) (c : Nat) : chan c t = chan c u := by unfold chan; rw [h]

@[simp] theorem grp_modGrp_self (g : Nat) (f : Group → Group) : grp g (modGrp g f s) = f (grp g s) := FMap.get_upd_self
theorem grp_modGrp_of_ne {j g : Nat} (h : j ≠ g) (f : Group → Group) : grp j (modGrp g f s) = grp j s := FMap.get_upd_of_ne h
@[simp] theorem grp_modPending (g : Nat) (f : List Instr → List Instr) : grp g (s.modPending f) = grp g s := rfl
@[simp] theorem grp_modPages (g : Nat) (f : FMap Page → FMap Page) : grp g (s.modPages f) = grp g s := rfl
@[simp] theorem grp_modRf (g : Nat) (f : FMap Word → FMap Word) : grp g (s.modRf f) = grp g s := rfl
@[simp] theorem grp_modMem (g : Nat) (f : FMap Byte → FMap Byte) : grp g (s.modMem f) = grp g s := rfl
@[simp] theorem grp_modFuse (g : Nat) (f : Fuse → Fuse) : grp g (s.modFuse f) = grp g s := rfl
@[simp] theorem grp_modFab (g : Nat) (f : Fab → Fab) : grp g (s.modFab f) = grp g s := rfl
@[simp] theorem grp_modPln (g : Nat) (f : Pln → Pln) : grp g (s.modPln f) = grp g s := rfl
@[simp] theorem grp_modTim (g : Nat) (f : Tim → Tim) : grp g (s.modTim f) = grp g s := rfl
@[simp] theorem grp_modSrv (g : Nat) (f : Srv → Srv) : grp g (s.modSrv f) = grp g s := rfl
@[simp] theorem grp_modLanes (g : Nat) (f : FMap Lane → FMap Lane) : grp g (s.modLanes f) = grp g s := rfl
@[simp] theorem grp_modLsh (g : Nat) (f : Lsh → Lsh) : grp g (s.modLsh f) = grp g s := rfl
@[simp] theorem grp_modDel (g : Nat) (f : Del → Del) : grp g (s.modDel f) = grp g s := rfl
@[simp] theorem grp_modQues (g : Nat) (f : FMap Que → FMap Que) : grp g (s.modQues f) = grp g s := rfl
@[simp] theorem grp_modPci (g : Nat) (f : Pci → Pci) : grp g (s.modPci f) = grp g s := rfl
@[simp] theorem grp_modFsp (g : Nat) (f : Fsp → Fsp) : grp g (s.modFsp f) = grp g s := rfl
@[simp] theorem grp_modTcs (g : Nat) (f : FMap Tc → FMap Tc) : grp g (s.modTcs f) = grp g s := rfl
@[simp] theorem grp_modSvc (g : Nat) (f : Svc → Svc) : grp g (s.modSvc f) = grp g s := rfl
@[simp] theorem grp_modFwl (g : Nat) (f : Fwl → Fwl) : grp g (s.modFwl f) = grp g s := rfl
@[simp] theorem grp_modBst (g : Nat) (f : Bst → Bst) : grp g (s.modBst f) = grp g s := rfl
@[simp] theorem grp_modPwr (g : Nat) (f : Pwr → Pwr) : grp g (s.modPwr f) = grp g s := rfl
@[simp] theorem grp_modChans (g : Nat) (f : FMap Chan → FMap Chan) : grp g (s.modChans f) = grp g s := rfl
@[simp] theorem grp_modLins (g : Nat) (f : FMap Lin → FMap Lin) : grp g (s.modLins f) = grp g s := rfl
@[simp] theorem grp_modAna (g : Nat) (f : Ana → Ana) : grp g (s.modAna f) = grp g s := rfl
@[simp] theorem grp_modFree (g : Nat) (f : Nat → Nat) : grp g (s.modFree f) = grp g s := rfl
@[simp] theorem grp_modOutbox (g : Nat) (f : List Out → List Out) : grp g (s.modOutbox f) = grp g s := rfl
@[simp] theorem grp_modPage (g j : Nat) (f : Page → Page) : grp g (modPage j f s) = grp g s := rfl
@[simp] theorem grp_modLane (g j : Nat) (f : Lane → Lane) : grp g (modLane j f s) = grp g s := rfl
@[simp] theorem grp_modPort (g j : Nat) (f : PortSt → PortSt) : grp g (modPort j f s) = grp g s := rfl
@[simp] theorem grp_modQue (g j : Nat) (f : Que → Que) : grp g (modQue j f s) = grp g s := rfl
@[simp] theorem grp_modHr (g j : Nat) (f : Hr → Hr) : grp g (modHr j f s) = grp g s := rfl
@[simp] theorem grp_modCon (g j : Nat) (f : ConSt → ConSt) : grp g (modCon j f s) = grp g s := rfl
@[simp] theorem grp_modIsl (g j : Nat) (f : Isl → Isl) : grp g (modIsl j f s) = grp g s := rfl
@[simp] theorem grp_modMark (g j : Nat) (f : Mark → Mark) : grp g (modMark j f s) = grp g s := rfl
@[simp] theorem grp_modClos (g j : Nat) (f : Clos → Clos) : grp g (modClos j f s) = grp g s := rfl
@[simp] theorem grp_modChan (g j : Nat) (f : Chan → Chan) : grp g (modChan j f s) = grp g s := rfl
@[simp] theorem grp_modLin (g j : Nat) (f : Lin → Lin) : grp g (modLin j f s) = grp g s := rfl
@[simp] theorem grp_modTc (g j : Nat) (f : Tc → Tc) : grp g (modTc j f s) = grp g s := rfl
@[simp] theorem grp_modAlarm (g j : Nat) (f : AlarmCh → AlarmCh) : grp g (modAlarm j f s) = grp g s := rfl
@[simp] theorem grp_modRule (g j : Nat) (f : Rule → Rule) : grp g (modRule j f s) = grp g s := rfl
@[simp] theorem grp_modDin (g j : Nat) (f : Din → Din) : grp g (modDin j f s) = grp g s := rfl
@[simp] theorem grp_modTout (g j : Nat) (f : Tpin → Tpin) : grp g (modTout j f s) = grp g s := rfl
@[simp] theorem grp_modTrack (g j : Nat) (f : Track → Track) : grp g (modTrack j f s) = grp g s := rfl
@[simp] theorem grp_modSect (g j : Nat) (f : Sect → Sect) : grp g (modSect j f s) = grp g s := rfl
@[simp] theorem grp_modRing (g j : Nat) (f : Ring → Ring) : grp g (modRing j f s) = grp g s := rfl
@[simp] theorem grp_drive (g : Nat) (o : Out) : grp g (drive o s) = grp g s := rfl
theorem grp_congr {u t : State} (h : t.grps = u.grps) (g : Nat) : grp g t = grp g u := by unfold grp; rw [h]

@[simp] theorem linSlot_modLin_self (k : Nat) (f : Lin → Lin) : linSlot k (modLin k f s) = f (linSlot k s) := FMap.get_upd_self
theorem linSlot_modLin_of_ne {j k : Nat} (h : j ≠ k) (f : Lin → Lin) : linSlot j (modLin k f s) = linSlot j s := FMap.get_upd_of_ne h
@[simp] theorem linSlot_modPending (k : Nat) (f : List Instr → List Instr) : linSlot k (s.modPending f) = linSlot k s := rfl
@[simp] theorem linSlot_modPages (k : Nat) (f : FMap Page → FMap Page) : linSlot k (s.modPages f) = linSlot k s := rfl
@[simp] theorem linSlot_modRf (k : Nat) (f : FMap Word → FMap Word) : linSlot k (s.modRf f) = linSlot k s := rfl
@[simp] theorem linSlot_modMem (k : Nat) (f : FMap Byte → FMap Byte) : linSlot k (s.modMem f) = linSlot k s := rfl
@[simp] theorem linSlot_modFuse (k : Nat) (f : Fuse → Fuse) : linSlot k (s.modFuse f) = linSlot k s := rfl
@[simp] theorem linSlot_modFab (k : Nat) (f : Fab → Fab) : linSlot k (s.modFab f) = linSlot k s := rfl
@[simp] theorem linSlot_modPln (k : Nat) (f : Pln → Pln) : linSlot k (s.modPln f) = linSlot k s := rfl
@[simp] theorem linSlot_modTim (k : Nat) (f : Tim → Tim) : linSlot k (s.modTim f) = linSlot k s := rfl
@[simp] theorem linSlot_modSrv (k : Nat) (f : Srv → Srv) : linSlot k (s.modSrv f) = linSlot k s := rfl
@[simp] theorem linSlot_modLanes (k : Nat) (f : FMap Lane → FMap Lane) : linSlot k (s.modLanes f) = linSlot k s := rfl
@[simp] theorem linSlot_modLsh (k : Nat) (f : Lsh → Lsh) : linSlot k (s.modLsh f) = linSlot k s := rfl
@[simp] theorem linSlot_modDel (k : Nat) (f : Del → Del) : linSlot k (s.modDel f) = linSlot k s := rfl
@[simp] theorem linSlot_modQues (k : Nat) (f : FMap Que → FMap Que) : linSlot k (s.modQues f) = linSlot k s := rfl
@[simp] theorem linSlot_modPci (k : Nat) (f : Pci → Pci) : linSlot k (s.modPci f) = linSlot k s := rfl
@[simp] theorem linSlot_modFsp (k : Nat) (f : Fsp → Fsp) : linSlot k (s.modFsp f) = linSlot k s := rfl
@[simp] theorem linSlot_modTcs (k : Nat) (f : FMap Tc → FMap Tc) : linSlot k (s.modTcs f) = linSlot k s := rfl
@[simp] theorem linSlot_modSvc (k : Nat) (f : Svc → Svc) : linSlot k (s.modSvc f) = linSlot k s := rfl
@[simp] theorem linSlot_modFwl (k : Nat) (f : Fwl → Fwl) : linSlot k (s.modFwl f) = linSlot k s := rfl
@[simp] theorem linSlot_modBst (k : Nat) (f : Bst → Bst) : linSlot k (s.modBst f) = linSlot k s := rfl
@[simp] theorem linSlot_modPwr (k : Nat) (f : Pwr → Pwr) : linSlot k (s.modPwr f) = linSlot k s := rfl
@[simp] theorem linSlot_modChans (k : Nat) (f : FMap Chan → FMap Chan) : linSlot k (s.modChans f) = linSlot k s := rfl
@[simp] theorem linSlot_modGrps (k : Nat) (f : FMap Group → FMap Group) : linSlot k (s.modGrps f) = linSlot k s := rfl
@[simp] theorem linSlot_modAna (k : Nat) (f : Ana → Ana) : linSlot k (s.modAna f) = linSlot k s := rfl
@[simp] theorem linSlot_modFree (k : Nat) (f : Nat → Nat) : linSlot k (s.modFree f) = linSlot k s := rfl
@[simp] theorem linSlot_modOutbox (k : Nat) (f : List Out → List Out) : linSlot k (s.modOutbox f) = linSlot k s := rfl
@[simp] theorem linSlot_modPage (k j : Nat) (f : Page → Page) : linSlot k (modPage j f s) = linSlot k s := rfl
@[simp] theorem linSlot_modLane (k j : Nat) (f : Lane → Lane) : linSlot k (modLane j f s) = linSlot k s := rfl
@[simp] theorem linSlot_modPort (k j : Nat) (f : PortSt → PortSt) : linSlot k (modPort j f s) = linSlot k s := rfl
@[simp] theorem linSlot_modQue (k j : Nat) (f : Que → Que) : linSlot k (modQue j f s) = linSlot k s := rfl
@[simp] theorem linSlot_modHr (k j : Nat) (f : Hr → Hr) : linSlot k (modHr j f s) = linSlot k s := rfl
@[simp] theorem linSlot_modCon (k j : Nat) (f : ConSt → ConSt) : linSlot k (modCon j f s) = linSlot k s := rfl
@[simp] theorem linSlot_modIsl (k j : Nat) (f : Isl → Isl) : linSlot k (modIsl j f s) = linSlot k s := rfl
@[simp] theorem linSlot_modMark (k j : Nat) (f : Mark → Mark) : linSlot k (modMark j f s) = linSlot k s := rfl
@[simp] theorem linSlot_modClos (k j : Nat) (f : Clos → Clos) : linSlot k (modClos j f s) = linSlot k s := rfl
@[simp] theorem linSlot_modChan (k j : Nat) (f : Chan → Chan) : linSlot k (modChan j f s) = linSlot k s := rfl
@[simp] theorem linSlot_modGrp (k j : Nat) (f : Group → Group) : linSlot k (modGrp j f s) = linSlot k s := rfl
@[simp] theorem linSlot_modTc (k j : Nat) (f : Tc → Tc) : linSlot k (modTc j f s) = linSlot k s := rfl
@[simp] theorem linSlot_modAlarm (k j : Nat) (f : AlarmCh → AlarmCh) : linSlot k (modAlarm j f s) = linSlot k s := rfl
@[simp] theorem linSlot_modRule (k j : Nat) (f : Rule → Rule) : linSlot k (modRule j f s) = linSlot k s := rfl
@[simp] theorem linSlot_modDin (k j : Nat) (f : Din → Din) : linSlot k (modDin j f s) = linSlot k s := rfl
@[simp] theorem linSlot_modTout (k j : Nat) (f : Tpin → Tpin) : linSlot k (modTout j f s) = linSlot k s := rfl
@[simp] theorem linSlot_modTrack (k j : Nat) (f : Track → Track) : linSlot k (modTrack j f s) = linSlot k s := rfl
@[simp] theorem linSlot_modSect (k j : Nat) (f : Sect → Sect) : linSlot k (modSect j f s) = linSlot k s := rfl
@[simp] theorem linSlot_modRing (k j : Nat) (f : Ring → Ring) : linSlot k (modRing j f s) = linSlot k s := rfl
@[simp] theorem linSlot_drive (k : Nat) (o : Out) : linSlot k (drive o s) = linSlot k s := rfl
theorem linSlot_congr {u t : State} (h : t.lins = u.lins) (k : Nat) : linSlot k t = linSlot k u := by unfold linSlot; rw [h]

@[simp] theorem tc_modTc_self (n : Nat) (f : Tc → Tc) : tc n (modTc n f s) = f (tc n s) := FMap.get_upd_self
theorem tc_modTc_of_ne {j n : Nat} (h : j ≠ n) (f : Tc → Tc) : tc j (modTc n f s) = tc j s := FMap.get_upd_of_ne h
@[simp] theorem tc_modPending (n : Nat) (f : List Instr → List Instr) : tc n (s.modPending f) = tc n s := rfl
@[simp] theorem tc_modPages (n : Nat) (f : FMap Page → FMap Page) : tc n (s.modPages f) = tc n s := rfl
@[simp] theorem tc_modRf (n : Nat) (f : FMap Word → FMap Word) : tc n (s.modRf f) = tc n s := rfl
@[simp] theorem tc_modMem (n : Nat) (f : FMap Byte → FMap Byte) : tc n (s.modMem f) = tc n s := rfl
@[simp] theorem tc_modFuse (n : Nat) (f : Fuse → Fuse) : tc n (s.modFuse f) = tc n s := rfl
@[simp] theorem tc_modFab (n : Nat) (f : Fab → Fab) : tc n (s.modFab f) = tc n s := rfl
@[simp] theorem tc_modPln (n : Nat) (f : Pln → Pln) : tc n (s.modPln f) = tc n s := rfl
@[simp] theorem tc_modTim (n : Nat) (f : Tim → Tim) : tc n (s.modTim f) = tc n s := rfl
@[simp] theorem tc_modSrv (n : Nat) (f : Srv → Srv) : tc n (s.modSrv f) = tc n s := rfl
@[simp] theorem tc_modLanes (n : Nat) (f : FMap Lane → FMap Lane) : tc n (s.modLanes f) = tc n s := rfl
@[simp] theorem tc_modLsh (n : Nat) (f : Lsh → Lsh) : tc n (s.modLsh f) = tc n s := rfl
@[simp] theorem tc_modDel (n : Nat) (f : Del → Del) : tc n (s.modDel f) = tc n s := rfl
@[simp] theorem tc_modQues (n : Nat) (f : FMap Que → FMap Que) : tc n (s.modQues f) = tc n s := rfl
@[simp] theorem tc_modPci (n : Nat) (f : Pci → Pci) : tc n (s.modPci f) = tc n s := rfl
@[simp] theorem tc_modFsp (n : Nat) (f : Fsp → Fsp) : tc n (s.modFsp f) = tc n s := rfl
@[simp] theorem tc_modSvc (n : Nat) (f : Svc → Svc) : tc n (s.modSvc f) = tc n s := rfl
@[simp] theorem tc_modFwl (n : Nat) (f : Fwl → Fwl) : tc n (s.modFwl f) = tc n s := rfl
@[simp] theorem tc_modBst (n : Nat) (f : Bst → Bst) : tc n (s.modBst f) = tc n s := rfl
@[simp] theorem tc_modPwr (n : Nat) (f : Pwr → Pwr) : tc n (s.modPwr f) = tc n s := rfl
@[simp] theorem tc_modChans (n : Nat) (f : FMap Chan → FMap Chan) : tc n (s.modChans f) = tc n s := rfl
@[simp] theorem tc_modGrps (n : Nat) (f : FMap Group → FMap Group) : tc n (s.modGrps f) = tc n s := rfl
@[simp] theorem tc_modLins (n : Nat) (f : FMap Lin → FMap Lin) : tc n (s.modLins f) = tc n s := rfl
@[simp] theorem tc_modAna (n : Nat) (f : Ana → Ana) : tc n (s.modAna f) = tc n s := rfl
@[simp] theorem tc_modFree (n : Nat) (f : Nat → Nat) : tc n (s.modFree f) = tc n s := rfl
@[simp] theorem tc_modOutbox (n : Nat) (f : List Out → List Out) : tc n (s.modOutbox f) = tc n s := rfl
@[simp] theorem tc_modPage (n j : Nat) (f : Page → Page) : tc n (modPage j f s) = tc n s := rfl
@[simp] theorem tc_modLane (n j : Nat) (f : Lane → Lane) : tc n (modLane j f s) = tc n s := rfl
@[simp] theorem tc_modPort (n j : Nat) (f : PortSt → PortSt) : tc n (modPort j f s) = tc n s := rfl
@[simp] theorem tc_modQue (n j : Nat) (f : Que → Que) : tc n (modQue j f s) = tc n s := rfl
@[simp] theorem tc_modHr (n j : Nat) (f : Hr → Hr) : tc n (modHr j f s) = tc n s := rfl
@[simp] theorem tc_modCon (n j : Nat) (f : ConSt → ConSt) : tc n (modCon j f s) = tc n s := rfl
@[simp] theorem tc_modIsl (n j : Nat) (f : Isl → Isl) : tc n (modIsl j f s) = tc n s := rfl
@[simp] theorem tc_modMark (n j : Nat) (f : Mark → Mark) : tc n (modMark j f s) = tc n s := rfl
@[simp] theorem tc_modClos (n j : Nat) (f : Clos → Clos) : tc n (modClos j f s) = tc n s := rfl
@[simp] theorem tc_modChan (n j : Nat) (f : Chan → Chan) : tc n (modChan j f s) = tc n s := rfl
@[simp] theorem tc_modGrp (n j : Nat) (f : Group → Group) : tc n (modGrp j f s) = tc n s := rfl
@[simp] theorem tc_modLin (n j : Nat) (f : Lin → Lin) : tc n (modLin j f s) = tc n s := rfl
@[simp] theorem tc_modAlarm (n j : Nat) (f : AlarmCh → AlarmCh) : tc n (modAlarm j f s) = tc n s := rfl
@[simp] theorem tc_modRule (n j : Nat) (f : Rule → Rule) : tc n (modRule j f s) = tc n s := rfl
@[simp] theorem tc_modDin (n j : Nat) (f : Din → Din) : tc n (modDin j f s) = tc n s := rfl
@[simp] theorem tc_modTout (n j : Nat) (f : Tpin → Tpin) : tc n (modTout j f s) = tc n s := rfl
@[simp] theorem tc_modTrack (n j : Nat) (f : Track → Track) : tc n (modTrack j f s) = tc n s := rfl
@[simp] theorem tc_modSect (n j : Nat) (f : Sect → Sect) : tc n (modSect j f s) = tc n s := rfl
@[simp] theorem tc_modRing (n j : Nat) (f : Ring → Ring) : tc n (modRing j f s) = tc n s := rfl
@[simp] theorem tc_drive (n : Nat) (o : Out) : tc n (drive o s) = tc n s := rfl
theorem tc_congr {u t : State} (h : t.tcs = u.tcs) (n : Nat) : tc n t = tc n u := by unfold tc; rw [h]

@[simp] theorem alarm_modAlarm_self (c : Nat) (f : AlarmCh → AlarmCh) : alarm c (modAlarm c f s) = f (alarm c s) := FMap.get_upd_self
theorem alarm_modAlarm_of_ne {j c : Nat} (h : j ≠ c) (f : AlarmCh → AlarmCh) : alarm j (modAlarm c f s) = alarm j s := FMap.get_upd_of_ne h
@[simp] theorem alarm_modPending (c : Nat) (f : List Instr → List Instr) : alarm c (s.modPending f) = alarm c s := rfl
@[simp] theorem alarm_modPages (c : Nat) (f : FMap Page → FMap Page) : alarm c (s.modPages f) = alarm c s := rfl
@[simp] theorem alarm_modRf (c : Nat) (f : FMap Word → FMap Word) : alarm c (s.modRf f) = alarm c s := rfl
@[simp] theorem alarm_modMem (c : Nat) (f : FMap Byte → FMap Byte) : alarm c (s.modMem f) = alarm c s := rfl
@[simp] theorem alarm_modFuse (c : Nat) (f : Fuse → Fuse) : alarm c (s.modFuse f) = alarm c s := rfl
@[simp] theorem alarm_modFab (c : Nat) (f : Fab → Fab) : alarm c (s.modFab f) = alarm c s := rfl
@[simp] theorem alarm_modPln (c : Nat) (f : Pln → Pln) : alarm c (s.modPln f) = alarm c s := rfl
@[simp] theorem alarm_modTim (c : Nat) (f : Tim → Tim) : alarm c (s.modTim f) = alarm c s := rfl
@[simp] theorem alarm_modSrv (c : Nat) (f : Srv → Srv) : alarm c (s.modSrv f) = alarm c s := rfl
@[simp] theorem alarm_modLanes (c : Nat) (f : FMap Lane → FMap Lane) : alarm c (s.modLanes f) = alarm c s := rfl
@[simp] theorem alarm_modLsh (c : Nat) (f : Lsh → Lsh) : alarm c (s.modLsh f) = alarm c s := rfl
@[simp] theorem alarm_modDel (c : Nat) (f : Del → Del) : alarm c (s.modDel f) = alarm c s := rfl
@[simp] theorem alarm_modQues (c : Nat) (f : FMap Que → FMap Que) : alarm c (s.modQues f) = alarm c s := rfl
@[simp] theorem alarm_modPci (c : Nat) (f : Pci → Pci) : alarm c (s.modPci f) = alarm c s := rfl
@[simp] theorem alarm_modFsp (c : Nat) (f : Fsp → Fsp) : alarm c (s.modFsp f) = alarm c s := rfl
@[simp] theorem alarm_modTcs (c : Nat) (f : FMap Tc → FMap Tc) : alarm c (s.modTcs f) = alarm c s := rfl
@[simp] theorem alarm_modFwl (c : Nat) (f : Fwl → Fwl) : alarm c (s.modFwl f) = alarm c s := rfl
@[simp] theorem alarm_modBst (c : Nat) (f : Bst → Bst) : alarm c (s.modBst f) = alarm c s := rfl
@[simp] theorem alarm_modPwr (c : Nat) (f : Pwr → Pwr) : alarm c (s.modPwr f) = alarm c s := rfl
@[simp] theorem alarm_modChans (c : Nat) (f : FMap Chan → FMap Chan) : alarm c (s.modChans f) = alarm c s := rfl
@[simp] theorem alarm_modGrps (c : Nat) (f : FMap Group → FMap Group) : alarm c (s.modGrps f) = alarm c s := rfl
@[simp] theorem alarm_modLins (c : Nat) (f : FMap Lin → FMap Lin) : alarm c (s.modLins f) = alarm c s := rfl
@[simp] theorem alarm_modAna (c : Nat) (f : Ana → Ana) : alarm c (s.modAna f) = alarm c s := rfl
@[simp] theorem alarm_modFree (c : Nat) (f : Nat → Nat) : alarm c (s.modFree f) = alarm c s := rfl
@[simp] theorem alarm_modOutbox (c : Nat) (f : List Out → List Out) : alarm c (s.modOutbox f) = alarm c s := rfl
@[simp] theorem alarm_modPage (c j : Nat) (f : Page → Page) : alarm c (modPage j f s) = alarm c s := rfl
@[simp] theorem alarm_modLane (c j : Nat) (f : Lane → Lane) : alarm c (modLane j f s) = alarm c s := rfl
@[simp] theorem alarm_modPort (c j : Nat) (f : PortSt → PortSt) : alarm c (modPort j f s) = alarm c s := rfl
@[simp] theorem alarm_modQue (c j : Nat) (f : Que → Que) : alarm c (modQue j f s) = alarm c s := rfl
@[simp] theorem alarm_modHr (c j : Nat) (f : Hr → Hr) : alarm c (modHr j f s) = alarm c s := rfl
@[simp] theorem alarm_modCon (c j : Nat) (f : ConSt → ConSt) : alarm c (modCon j f s) = alarm c s := rfl
@[simp] theorem alarm_modIsl (c j : Nat) (f : Isl → Isl) : alarm c (modIsl j f s) = alarm c s := rfl
@[simp] theorem alarm_modMark (c j : Nat) (f : Mark → Mark) : alarm c (modMark j f s) = alarm c s := rfl
@[simp] theorem alarm_modClos (c j : Nat) (f : Clos → Clos) : alarm c (modClos j f s) = alarm c s := rfl
@[simp] theorem alarm_modChan (c j : Nat) (f : Chan → Chan) : alarm c (modChan j f s) = alarm c s := rfl
@[simp] theorem alarm_modGrp (c j : Nat) (f : Group → Group) : alarm c (modGrp j f s) = alarm c s := rfl
@[simp] theorem alarm_modLin (c j : Nat) (f : Lin → Lin) : alarm c (modLin j f s) = alarm c s := rfl
@[simp] theorem alarm_modTc (c j : Nat) (f : Tc → Tc) : alarm c (modTc j f s) = alarm c s := rfl
@[simp] theorem alarm_modRule (c j : Nat) (f : Rule → Rule) : alarm c (modRule j f s) = alarm c s := rfl
@[simp] theorem alarm_modDin (c j : Nat) (f : Din → Din) : alarm c (modDin j f s) = alarm c s := rfl
@[simp] theorem alarm_modTout (c j : Nat) (f : Tpin → Tpin) : alarm c (modTout j f s) = alarm c s := rfl
@[simp] theorem alarm_modTrack (c j : Nat) (f : Track → Track) : alarm c (modTrack j f s) = alarm c s := rfl
@[simp] theorem alarm_modSect (c j : Nat) (f : Sect → Sect) : alarm c (modSect j f s) = alarm c s := rfl
@[simp] theorem alarm_modRing (c j : Nat) (f : Ring → Ring) : alarm c (modRing j f s) = alarm c s := rfl
@[simp] theorem alarm_drive (c : Nat) (o : Out) : alarm c (drive o s) = alarm c s := rfl
theorem alarm_congr {u t : State} (h : t.svc = u.svc) (c : Nat) : alarm c t = alarm c u := by unfold alarm; rw [h]

@[simp] theorem rule_modRule_self (k : Nat) (f : Rule → Rule) : rule k (modRule k f s) = f (rule k s) := FMap.get_upd_self
theorem rule_modRule_of_ne {j k : Nat} (h : j ≠ k) (f : Rule → Rule) : rule j (modRule k f s) = rule j s := FMap.get_upd_of_ne h
@[simp] theorem rule_modPending (k : Nat) (f : List Instr → List Instr) : rule k (s.modPending f) = rule k s := rfl
@[simp] theorem rule_modPages (k : Nat) (f : FMap Page → FMap Page) : rule k (s.modPages f) = rule k s := rfl
@[simp] theorem rule_modRf (k : Nat) (f : FMap Word → FMap Word) : rule k (s.modRf f) = rule k s := rfl
@[simp] theorem rule_modMem (k : Nat) (f : FMap Byte → FMap Byte) : rule k (s.modMem f) = rule k s := rfl
@[simp] theorem rule_modFuse (k : Nat) (f : Fuse → Fuse) : rule k (s.modFuse f) = rule k s := rfl
@[simp] theorem rule_modFab (k : Nat) (f : Fab → Fab) : rule k (s.modFab f) = rule k s := rfl
@[simp] theorem rule_modPln (k : Nat) (f : Pln → Pln) : rule k (s.modPln f) = rule k s := rfl
@[simp] theorem rule_modTim (k : Nat) (f : Tim → Tim) : rule k (s.modTim f) = rule k s := rfl
@[simp] theorem rule_modSrv (k : Nat) (f : Srv → Srv) : rule k (s.modSrv f) = rule k s := rfl
@[simp] theorem rule_modLanes (k : Nat) (f : FMap Lane → FMap Lane) : rule k (s.modLanes f) = rule k s := rfl
@[simp] theorem rule_modLsh (k : Nat) (f : Lsh → Lsh) : rule k (s.modLsh f) = rule k s := rfl
@[simp] theorem rule_modDel (k : Nat) (f : Del → Del) : rule k (s.modDel f) = rule k s := rfl
@[simp] theorem rule_modQues (k : Nat) (f : FMap Que → FMap Que) : rule k (s.modQues f) = rule k s := rfl
@[simp] theorem rule_modPci (k : Nat) (f : Pci → Pci) : rule k (s.modPci f) = rule k s := rfl
@[simp] theorem rule_modFsp (k : Nat) (f : Fsp → Fsp) : rule k (s.modFsp f) = rule k s := rfl
@[simp] theorem rule_modTcs (k : Nat) (f : FMap Tc → FMap Tc) : rule k (s.modTcs f) = rule k s := rfl
@[simp] theorem rule_modFwl (k : Nat) (f : Fwl → Fwl) : rule k (s.modFwl f) = rule k s := rfl
@[simp] theorem rule_modBst (k : Nat) (f : Bst → Bst) : rule k (s.modBst f) = rule k s := rfl
@[simp] theorem rule_modPwr (k : Nat) (f : Pwr → Pwr) : rule k (s.modPwr f) = rule k s := rfl
@[simp] theorem rule_modChans (k : Nat) (f : FMap Chan → FMap Chan) : rule k (s.modChans f) = rule k s := rfl
@[simp] theorem rule_modGrps (k : Nat) (f : FMap Group → FMap Group) : rule k (s.modGrps f) = rule k s := rfl
@[simp] theorem rule_modLins (k : Nat) (f : FMap Lin → FMap Lin) : rule k (s.modLins f) = rule k s := rfl
@[simp] theorem rule_modAna (k : Nat) (f : Ana → Ana) : rule k (s.modAna f) = rule k s := rfl
@[simp] theorem rule_modFree (k : Nat) (f : Nat → Nat) : rule k (s.modFree f) = rule k s := rfl
@[simp] theorem rule_modOutbox (k : Nat) (f : List Out → List Out) : rule k (s.modOutbox f) = rule k s := rfl
@[simp] theorem rule_modPage (k j : Nat) (f : Page → Page) : rule k (modPage j f s) = rule k s := rfl
@[simp] theorem rule_modLane (k j : Nat) (f : Lane → Lane) : rule k (modLane j f s) = rule k s := rfl
@[simp] theorem rule_modPort (k j : Nat) (f : PortSt → PortSt) : rule k (modPort j f s) = rule k s := rfl
@[simp] theorem rule_modQue (k j : Nat) (f : Que → Que) : rule k (modQue j f s) = rule k s := rfl
@[simp] theorem rule_modHr (k j : Nat) (f : Hr → Hr) : rule k (modHr j f s) = rule k s := rfl
@[simp] theorem rule_modCon (k j : Nat) (f : ConSt → ConSt) : rule k (modCon j f s) = rule k s := rfl
@[simp] theorem rule_modIsl (k j : Nat) (f : Isl → Isl) : rule k (modIsl j f s) = rule k s := rfl
@[simp] theorem rule_modMark (k j : Nat) (f : Mark → Mark) : rule k (modMark j f s) = rule k s := rfl
@[simp] theorem rule_modClos (k j : Nat) (f : Clos → Clos) : rule k (modClos j f s) = rule k s := rfl
@[simp] theorem rule_modChan (k j : Nat) (f : Chan → Chan) : rule k (modChan j f s) = rule k s := rfl
@[simp] theorem rule_modGrp (k j : Nat) (f : Group → Group) : rule k (modGrp j f s) = rule k s := rfl
@[simp] theorem rule_modLin (k j : Nat) (f : Lin → Lin) : rule k (modLin j f s) = rule k s := rfl
@[simp] theorem rule_modTc (k j : Nat) (f : Tc → Tc) : rule k (modTc j f s) = rule k s := rfl
@[simp] theorem rule_modAlarm (k j : Nat) (f : AlarmCh → AlarmCh) : rule k (modAlarm j f s) = rule k s := rfl
@[simp] theorem rule_modDin (k j : Nat) (f : Din → Din) : rule k (modDin j f s) = rule k s := rfl
@[simp] theorem rule_modTout (k j : Nat) (f : Tpin → Tpin) : rule k (modTout j f s) = rule k s := rfl
@[simp] theorem rule_modTrack (k j : Nat) (f : Track → Track) : rule k (modTrack j f s) = rule k s := rfl
@[simp] theorem rule_modSect (k j : Nat) (f : Sect → Sect) : rule k (modSect j f s) = rule k s := rfl
@[simp] theorem rule_modRing (k j : Nat) (f : Ring → Ring) : rule k (modRing j f s) = rule k s := rfl
@[simp] theorem rule_drive (k : Nat) (o : Out) : rule k (drive o s) = rule k s := rfl
theorem rule_congr {u t : State} (h : t.svc = u.svc) (k : Nat) : rule k t = rule k u := by unfold rule; rw [h]

@[simp] theorem din_modDin_self (k : Nat) (f : Din → Din) : din k (modDin k f s) = f (din k s) := FMap.get_upd_self
theorem din_modDin_of_ne {j k : Nat} (h : j ≠ k) (f : Din → Din) : din j (modDin k f s) = din j s := FMap.get_upd_of_ne h
@[simp] theorem din_modPending (k : Nat) (f : List Instr → List Instr) : din k (s.modPending f) = din k s := rfl
@[simp] theorem din_modPages (k : Nat) (f : FMap Page → FMap Page) : din k (s.modPages f) = din k s := rfl
@[simp] theorem din_modRf (k : Nat) (f : FMap Word → FMap Word) : din k (s.modRf f) = din k s := rfl
@[simp] theorem din_modMem (k : Nat) (f : FMap Byte → FMap Byte) : din k (s.modMem f) = din k s := rfl
@[simp] theorem din_modFuse (k : Nat) (f : Fuse → Fuse) : din k (s.modFuse f) = din k s := rfl
@[simp] theorem din_modFab (k : Nat) (f : Fab → Fab) : din k (s.modFab f) = din k s := rfl
@[simp] theorem din_modPln (k : Nat) (f : Pln → Pln) : din k (s.modPln f) = din k s := rfl
@[simp] theorem din_modTim (k : Nat) (f : Tim → Tim) : din k (s.modTim f) = din k s := rfl
@[simp] theorem din_modSrv (k : Nat) (f : Srv → Srv) : din k (s.modSrv f) = din k s := rfl
@[simp] theorem din_modLanes (k : Nat) (f : FMap Lane → FMap Lane) : din k (s.modLanes f) = din k s := rfl
@[simp] theorem din_modLsh (k : Nat) (f : Lsh → Lsh) : din k (s.modLsh f) = din k s := rfl
@[simp] theorem din_modDel (k : Nat) (f : Del → Del) : din k (s.modDel f) = din k s := rfl
@[simp] theorem din_modQues (k : Nat) (f : FMap Que → FMap Que) : din k (s.modQues f) = din k s := rfl
@[simp] theorem din_modPci (k : Nat) (f : Pci → Pci) : din k (s.modPci f) = din k s := rfl
@[simp] theorem din_modFsp (k : Nat) (f : Fsp → Fsp) : din k (s.modFsp f) = din k s := rfl
@[simp] theorem din_modTcs (k : Nat) (f : FMap Tc → FMap Tc) : din k (s.modTcs f) = din k s := rfl
@[simp] theorem din_modFwl (k : Nat) (f : Fwl → Fwl) : din k (s.modFwl f) = din k s := rfl
@[simp] theorem din_modBst (k : Nat) (f : Bst → Bst) : din k (s.modBst f) = din k s := rfl
@[simp] theorem din_modPwr (k : Nat) (f : Pwr → Pwr) : din k (s.modPwr f) = din k s := rfl
@[simp] theorem din_modChans (k : Nat) (f : FMap Chan → FMap Chan) : din k (s.modChans f) = din k s := rfl
@[simp] theorem din_modGrps (k : Nat) (f : FMap Group → FMap Group) : din k (s.modGrps f) = din k s := rfl
@[simp] theorem din_modLins (k : Nat) (f : FMap Lin → FMap Lin) : din k (s.modLins f) = din k s := rfl
@[simp] theorem din_modAna (k : Nat) (f : Ana → Ana) : din k (s.modAna f) = din k s := rfl
@[simp] theorem din_modFree (k : Nat) (f : Nat → Nat) : din k (s.modFree f) = din k s := rfl
@[simp] theorem din_modOutbox (k : Nat) (f : List Out → List Out) : din k (s.modOutbox f) = din k s := rfl
@[simp] theorem din_modPage (k j : Nat) (f : Page → Page) : din k (modPage j f s) = din k s := rfl
@[simp] theorem din_modLane (k j : Nat) (f : Lane → Lane) : din k (modLane j f s) = din k s := rfl
@[simp] theorem din_modPort (k j : Nat) (f : PortSt → PortSt) : din k (modPort j f s) = din k s := rfl
@[simp] theorem din_modQue (k j : Nat) (f : Que → Que) : din k (modQue j f s) = din k s := rfl
@[simp] theorem din_modHr (k j : Nat) (f : Hr → Hr) : din k (modHr j f s) = din k s := rfl
@[simp] theorem din_modCon (k j : Nat) (f : ConSt → ConSt) : din k (modCon j f s) = din k s := rfl
@[simp] theorem din_modIsl (k j : Nat) (f : Isl → Isl) : din k (modIsl j f s) = din k s := rfl
@[simp] theorem din_modMark (k j : Nat) (f : Mark → Mark) : din k (modMark j f s) = din k s := rfl
@[simp] theorem din_modClos (k j : Nat) (f : Clos → Clos) : din k (modClos j f s) = din k s := rfl
@[simp] theorem din_modChan (k j : Nat) (f : Chan → Chan) : din k (modChan j f s) = din k s := rfl
@[simp] theorem din_modGrp (k j : Nat) (f : Group → Group) : din k (modGrp j f s) = din k s := rfl
@[simp] theorem din_modLin (k j : Nat) (f : Lin → Lin) : din k (modLin j f s) = din k s := rfl
@[simp] theorem din_modTc (k j : Nat) (f : Tc → Tc) : din k (modTc j f s) = din k s := rfl
@[simp] theorem din_modAlarm (k j : Nat) (f : AlarmCh → AlarmCh) : din k (modAlarm j f s) = din k s := rfl
@[simp] theorem din_modRule (k j : Nat) (f : Rule → Rule) : din k (modRule j f s) = din k s := rfl
@[simp] theorem din_modTout (k j : Nat) (f : Tpin → Tpin) : din k (modTout j f s) = din k s := rfl
@[simp] theorem din_modTrack (k j : Nat) (f : Track → Track) : din k (modTrack j f s) = din k s := rfl
@[simp] theorem din_modSect (k j : Nat) (f : Sect → Sect) : din k (modSect j f s) = din k s := rfl
@[simp] theorem din_modRing (k j : Nat) (f : Ring → Ring) : din k (modRing j f s) = din k s := rfl
@[simp] theorem din_drive (k : Nat) (o : Out) : din k (drive o s) = din k s := rfl
theorem din_congr {u t : State} (h : t.svc = u.svc) (k : Nat) : din k t = din k u := by unfold din; rw [h]

@[simp] theorem tout_modTout_self (k : Nat) (f : Tpin → Tpin) : tout k (modTout k f s) = f (tout k s) := FMap.get_upd_self
theorem tout_modTout_of_ne {j k : Nat} (h : j ≠ k) (f : Tpin → Tpin) : tout j (modTout k f s) = tout j s := FMap.get_upd_of_ne h
@[simp] theorem tout_modPending (k : Nat) (f : List Instr → List Instr) : tout k (s.modPending f) = tout k s := rfl
@[simp] theorem tout_modPages (k : Nat) (f : FMap Page → FMap Page) : tout k (s.modPages f) = tout k s := rfl
@[simp] theorem tout_modRf (k : Nat) (f : FMap Word → FMap Word) : tout k (s.modRf f) = tout k s := rfl
@[simp] theorem tout_modMem (k : Nat) (f : FMap Byte → FMap Byte) : tout k (s.modMem f) = tout k s := rfl
@[simp] theorem tout_modFuse (k : Nat) (f : Fuse → Fuse) : tout k (s.modFuse f) = tout k s := rfl
@[simp] theorem tout_modFab (k : Nat) (f : Fab → Fab) : tout k (s.modFab f) = tout k s := rfl
@[simp] theorem tout_modPln (k : Nat) (f : Pln → Pln) : tout k (s.modPln f) = tout k s := rfl
@[simp] theorem tout_modTim (k : Nat) (f : Tim → Tim) : tout k (s.modTim f) = tout k s := rfl
@[simp] theorem tout_modSrv (k : Nat) (f : Srv → Srv) : tout k (s.modSrv f) = tout k s := rfl
@[simp] theorem tout_modLanes (k : Nat) (f : FMap Lane → FMap Lane) : tout k (s.modLanes f) = tout k s := rfl
@[simp] theorem tout_modLsh (k : Nat) (f : Lsh → Lsh) : tout k (s.modLsh f) = tout k s := rfl
@[simp] theorem tout_modDel (k : Nat) (f : Del → Del) : tout k (s.modDel f) = tout k s := rfl
@[simp] theorem tout_modQues (k : Nat) (f : FMap Que → FMap Que) : tout k (s.modQues f) = tout k s := rfl
@[simp] theorem tout_modPci (k : Nat) (f : Pci → Pci) : tout k (s.modPci f) = tout k s := rfl
@[simp] theorem tout_modFsp (k : Nat) (f : Fsp → Fsp) : tout k (s.modFsp f) = tout k s := rfl
@[simp] theorem tout_modTcs (k : Nat) (f : FMap Tc → FMap Tc) : tout k (s.modTcs f) = tout k s := rfl
@[simp] theorem tout_modFwl (k : Nat) (f : Fwl → Fwl) : tout k (s.modFwl f) = tout k s := rfl
@[simp] theorem tout_modBst (k : Nat) (f : Bst → Bst) : tout k (s.modBst f) = tout k s := rfl
@[simp] theorem tout_modPwr (k : Nat) (f : Pwr → Pwr) : tout k (s.modPwr f) = tout k s := rfl
@[simp] theorem tout_modChans (k : Nat) (f : FMap Chan → FMap Chan) : tout k (s.modChans f) = tout k s := rfl
@[simp] theorem tout_modGrps (k : Nat) (f : FMap Group → FMap Group) : tout k (s.modGrps f) = tout k s := rfl
@[simp] theorem tout_modLins (k : Nat) (f : FMap Lin → FMap Lin) : tout k (s.modLins f) = tout k s := rfl
@[simp] theorem tout_modAna (k : Nat) (f : Ana → Ana) : tout k (s.modAna f) = tout k s := rfl
@[simp] theorem tout_modFree (k : Nat) (f : Nat → Nat) : tout k (s.modFree f) = tout k s := rfl
@[simp] theorem tout_modOutbox (k : Nat) (f : List Out → List Out) : tout k (s.modOutbox f) = tout k s := rfl
@[simp] theorem tout_modPage (k j : Nat) (f : Page → Page) : tout k (modPage j f s) = tout k s := rfl
@[simp] theorem tout_modLane (k j : Nat) (f : Lane → Lane) : tout k (modLane j f s) = tout k s := rfl
@[simp] theorem tout_modPort (k j : Nat) (f : PortSt → PortSt) : tout k (modPort j f s) = tout k s := rfl
@[simp] theorem tout_modQue (k j : Nat) (f : Que → Que) : tout k (modQue j f s) = tout k s := rfl
@[simp] theorem tout_modHr (k j : Nat) (f : Hr → Hr) : tout k (modHr j f s) = tout k s := rfl
@[simp] theorem tout_modCon (k j : Nat) (f : ConSt → ConSt) : tout k (modCon j f s) = tout k s := rfl
@[simp] theorem tout_modIsl (k j : Nat) (f : Isl → Isl) : tout k (modIsl j f s) = tout k s := rfl
@[simp] theorem tout_modMark (k j : Nat) (f : Mark → Mark) : tout k (modMark j f s) = tout k s := rfl
@[simp] theorem tout_modClos (k j : Nat) (f : Clos → Clos) : tout k (modClos j f s) = tout k s := rfl
@[simp] theorem tout_modChan (k j : Nat) (f : Chan → Chan) : tout k (modChan j f s) = tout k s := rfl
@[simp] theorem tout_modGrp (k j : Nat) (f : Group → Group) : tout k (modGrp j f s) = tout k s := rfl
@[simp] theorem tout_modLin (k j : Nat) (f : Lin → Lin) : tout k (modLin j f s) = tout k s := rfl
@[simp] theorem tout_modTc (k j : Nat) (f : Tc → Tc) : tout k (modTc j f s) = tout k s := rfl
@[simp] theorem tout_modAlarm (k j : Nat) (f : AlarmCh → AlarmCh) : tout k (modAlarm j f s) = tout k s := rfl
@[simp] theorem tout_modRule (k j : Nat) (f : Rule → Rule) : tout k (modRule j f s) = tout k s := rfl
@[simp] theorem tout_modDin (k j : Nat) (f : Din → Din) : tout k (modDin j f s) = tout k s := rfl
@[simp] theorem tout_modTrack (k j : Nat) (f : Track → Track) : tout k (modTrack j f s) = tout k s := rfl
@[simp] theorem tout_modSect (k j : Nat) (f : Sect → Sect) : tout k (modSect j f s) = tout k s := rfl
@[simp] theorem tout_modRing (k j : Nat) (f : Ring → Ring) : tout k (modRing j f s) = tout k s := rfl
@[simp] theorem tout_drive (k : Nat) (o : Out) : tout k (drive o s) = tout k s := rfl
theorem tout_congr {u t : State} (h : t.svc = u.svc) (k : Nat) : tout k t = tout k u := by unfold tout; rw [h]

@[simp] theorem track_modTrack_self (k : Nat) (f : Track → Track) : track k (modTrack k f s) = f (track k s) := FMap.get_upd_self
theorem track_modTrack_of_ne {j k : Nat} (h : j ≠ k) (f : Track → Track) : track j (modTrack k f s) = track j s := FMap.get_upd_of_ne h
@[simp] theorem track_modPending (k : Nat) (f : List Instr → List Instr) : track k (s.modPending f) = track k s := rfl
@[simp] theorem track_modPages (k : Nat) (f : FMap Page → FMap Page) : track k (s.modPages f) = track k s := rfl
@[simp] theorem track_modRf (k : Nat) (f : FMap Word → FMap Word) : track k (s.modRf f) = track k s := rfl
@[simp] theorem track_modMem (k : Nat) (f : FMap Byte → FMap Byte) : track k (s.modMem f) = track k s := rfl
@[simp] theorem track_modFuse (k : Nat) (f : Fuse → Fuse) : track k (s.modFuse f) = track k s := rfl
@[simp] theorem track_modFab (k : Nat) (f : Fab → Fab) : track k (s.modFab f) = track k s := rfl
@[simp] theorem track_modPln (k : Nat) (f : Pln → Pln) : track k (s.modPln f) = track k s := rfl
@[simp] theorem track_modTim (k : Nat) (f : Tim → Tim) : track k (s.modTim f) = track k s := rfl
@[simp] theorem track_modSrv (k : Nat) (f : Srv → Srv) : track k (s.modSrv f) = track k s := rfl
@[simp] theorem track_modLanes (k : Nat) (f : FMap Lane → FMap Lane) : track k (s.modLanes f) = track k s := rfl
@[simp] theorem track_modLsh (k : Nat) (f : Lsh → Lsh) : track k (s.modLsh f) = track k s := rfl
@[simp] theorem track_modDel (k : Nat) (f : Del → Del) : track k (s.modDel f) = track k s := rfl
@[simp] theorem track_modQues (k : Nat) (f : FMap Que → FMap Que) : track k (s.modQues f) = track k s := rfl
@[simp] theorem track_modPci (k : Nat) (f : Pci → Pci) : track k (s.modPci f) = track k s := rfl
@[simp] theorem track_modFsp (k : Nat) (f : Fsp → Fsp) : track k (s.modFsp f) = track k s := rfl
@[simp] theorem track_modTcs (k : Nat) (f : FMap Tc → FMap Tc) : track k (s.modTcs f) = track k s := rfl
@[simp] theorem track_modFwl (k : Nat) (f : Fwl → Fwl) : track k (s.modFwl f) = track k s := rfl
@[simp] theorem track_modBst (k : Nat) (f : Bst → Bst) : track k (s.modBst f) = track k s := rfl
@[simp] theorem track_modPwr (k : Nat) (f : Pwr → Pwr) : track k (s.modPwr f) = track k s := rfl
@[simp] theorem track_modChans (k : Nat) (f : FMap Chan → FMap Chan) : track k (s.modChans f) = track k s := rfl
@[simp] theorem track_modGrps (k : Nat) (f : FMap Group → FMap Group) : track k (s.modGrps f) = track k s := rfl
@[simp] theorem track_modLins (k : Nat) (f : FMap Lin → FMap Lin) : track k (s.modLins f) = track k s := rfl
@[simp] theorem track_modAna (k : Nat) (f : Ana → Ana) : track k (s.modAna f) = track k s := rfl
@[simp] theorem track_modFree (k : Nat) (f : Nat → Nat) : track k (s.modFree f) = track k s := rfl
@[simp] theorem track_modOutbox (k : Nat) (f : List Out → List Out) : track k (s.modOutbox f) = track k s := rfl
@[simp] theorem track_modPage (k j : Nat) (f : Page → Page) : track k (modPage j f s) = track k s := rfl
@[simp] theorem track_modLane (k j : Nat) (f : Lane → Lane) : track k (modLane j f s) = track k s := rfl
@[simp] theorem track_modPort (k j : Nat) (f : PortSt → PortSt) : track k (modPort j f s) = track k s := rfl
@[simp] theorem track_modQue (k j : Nat) (f : Que → Que) : track k (modQue j f s) = track k s := rfl
@[simp] theorem track_modHr (k j : Nat) (f : Hr → Hr) : track k (modHr j f s) = track k s := rfl
@[simp] theorem track_modCon (k j : Nat) (f : ConSt → ConSt) : track k (modCon j f s) = track k s := rfl
@[simp] theorem track_modIsl (k j : Nat) (f : Isl → Isl) : track k (modIsl j f s) = track k s := rfl
@[simp] theorem track_modMark (k j : Nat) (f : Mark → Mark) : track k (modMark j f s) = track k s := rfl
@[simp] theorem track_modClos (k j : Nat) (f : Clos → Clos) : track k (modClos j f s) = track k s := rfl
@[simp] theorem track_modChan (k j : Nat) (f : Chan → Chan) : track k (modChan j f s) = track k s := rfl
@[simp] theorem track_modGrp (k j : Nat) (f : Group → Group) : track k (modGrp j f s) = track k s := rfl
@[simp] theorem track_modLin (k j : Nat) (f : Lin → Lin) : track k (modLin j f s) = track k s := rfl
@[simp] theorem track_modTc (k j : Nat) (f : Tc → Tc) : track k (modTc j f s) = track k s := rfl
@[simp] theorem track_modAlarm (k j : Nat) (f : AlarmCh → AlarmCh) : track k (modAlarm j f s) = track k s := rfl
@[simp] theorem track_modRule (k j : Nat) (f : Rule → Rule) : track k (modRule j f s) = track k s := rfl
@[simp] theorem track_modDin (k j : Nat) (f : Din → Din) : track k (modDin j f s) = track k s := rfl
@[simp] theorem track_modTout (k j : Nat) (f : Tpin → Tpin) : track k (modTout j f s) = track k s := rfl
@[simp] theorem track_modSect (k j : Nat) (f : Sect → Sect) : track k (modSect j f s) = track k s := rfl
@[simp] theorem track_modRing (k j : Nat) (f : Ring → Ring) : track k (modRing j f s) = track k s := rfl
@[simp] theorem track_drive (k : Nat) (o : Out) : track k (drive o s) = track k s := rfl
theorem track_congr {u t : State} (h : t.svc = u.svc) (k : Nat) : track k t = track k u := by unfold track; rw [h]

@[simp] theorem sect_modSect_self (k : Nat) (f : Sect → Sect) : sect k (modSect k f s) = f (sect k s) := FMap.get_upd_self
theorem sect_modSect_of_ne {j k : Nat} (h : j ≠ k) (f : Sect → Sect) : sect j (modSect k f s) = sect j s := FMap.get_upd_of_ne h
@[simp] theorem sect_modPending (k : Nat) (f : List Instr → List Instr) : sect k (s.modPending f) = sect k s := rfl
@[simp] theorem sect_modPages (k : Nat) (f : FMap Page → FMap Page) : sect k (s.modPages f) = sect k s := rfl
@[simp] theorem sect_modRf (k : Nat) (f : FMap Word → FMap Word) : sect k (s.modRf f) = sect k s := rfl
@[simp] theorem sect_modMem (k : Nat) (f : FMap Byte → FMap Byte) : sect k (s.modMem f) = sect k s := rfl
@[simp] theorem sect_modFuse (k : Nat) (f : Fuse → Fuse) : sect k (s.modFuse f) = sect k s := rfl
@[simp] theorem sect_modFab (k : Nat) (f : Fab → Fab) : sect k (s.modFab f) = sect k s := rfl
@[simp] theorem sect_modPln (k : Nat) (f : Pln → Pln) : sect k (s.modPln f) = sect k s := rfl
@[simp] theorem sect_modTim (k : Nat) (f : Tim → Tim) : sect k (s.modTim f) = sect k s := rfl
@[simp] theorem sect_modSrv (k : Nat) (f : Srv → Srv) : sect k (s.modSrv f) = sect k s := rfl
@[simp] theorem sect_modLanes (k : Nat) (f : FMap Lane → FMap Lane) : sect k (s.modLanes f) = sect k s := rfl
@[simp] theorem sect_modLsh (k : Nat) (f : Lsh → Lsh) : sect k (s.modLsh f) = sect k s := rfl
@[simp] theorem sect_modDel (k : Nat) (f : Del → Del) : sect k (s.modDel f) = sect k s := rfl
@[simp] theorem sect_modQues (k : Nat) (f : FMap Que → FMap Que) : sect k (s.modQues f) = sect k s := rfl
@[simp] theorem sect_modPci (k : Nat) (f : Pci → Pci) : sect k (s.modPci f) = sect k s := rfl
@[simp] theorem sect_modFsp (k : Nat) (f : Fsp → Fsp) : sect k (s.modFsp f) = sect k s := rfl
@[simp] theorem sect_modTcs (k : Nat) (f : FMap Tc → FMap Tc) : sect k (s.modTcs f) = sect k s := rfl
@[simp] theorem sect_modFwl (k : Nat) (f : Fwl → Fwl) : sect k (s.modFwl f) = sect k s := rfl
@[simp] theorem sect_modBst (k : Nat) (f : Bst → Bst) : sect k (s.modBst f) = sect k s := rfl
@[simp] theorem sect_modPwr (k : Nat) (f : Pwr → Pwr) : sect k (s.modPwr f) = sect k s := rfl
@[simp] theorem sect_modChans (k : Nat) (f : FMap Chan → FMap Chan) : sect k (s.modChans f) = sect k s := rfl
@[simp] theorem sect_modGrps (k : Nat) (f : FMap Group → FMap Group) : sect k (s.modGrps f) = sect k s := rfl
@[simp] theorem sect_modLins (k : Nat) (f : FMap Lin → FMap Lin) : sect k (s.modLins f) = sect k s := rfl
@[simp] theorem sect_modAna (k : Nat) (f : Ana → Ana) : sect k (s.modAna f) = sect k s := rfl
@[simp] theorem sect_modFree (k : Nat) (f : Nat → Nat) : sect k (s.modFree f) = sect k s := rfl
@[simp] theorem sect_modOutbox (k : Nat) (f : List Out → List Out) : sect k (s.modOutbox f) = sect k s := rfl
@[simp] theorem sect_modPage (k j : Nat) (f : Page → Page) : sect k (modPage j f s) = sect k s := rfl
@[simp] theorem sect_modLane (k j : Nat) (f : Lane → Lane) : sect k (modLane j f s) = sect k s := rfl
@[simp] theorem sect_modPort (k j : Nat) (f : PortSt → PortSt) : sect k (modPort j f s) = sect k s := rfl
@[simp] theorem sect_modQue (k j : Nat) (f : Que → Que) : sect k (modQue j f s) = sect k s := rfl
@[simp] theorem sect_modHr (k j : Nat) (f : Hr → Hr) : sect k (modHr j f s) = sect k s := rfl
@[simp] theorem sect_modCon (k j : Nat) (f : ConSt → ConSt) : sect k (modCon j f s) = sect k s := rfl
@[simp] theorem sect_modIsl (k j : Nat) (f : Isl → Isl) : sect k (modIsl j f s) = sect k s := rfl
@[simp] theorem sect_modMark (k j : Nat) (f : Mark → Mark) : sect k (modMark j f s) = sect k s := rfl
@[simp] theorem sect_modClos (k j : Nat) (f : Clos → Clos) : sect k (modClos j f s) = sect k s := rfl
@[simp] theorem sect_modChan (k j : Nat) (f : Chan → Chan) : sect k (modChan j f s) = sect k s := rfl
@[simp] theorem sect_modGrp (k j : Nat) (f : Group → Group) : sect k (modGrp j f s) = sect k s := rfl
@[simp] theorem sect_modLin (k j : Nat) (f : Lin → Lin) : sect k (modLin j f s) = sect k s := rfl
@[simp] theorem sect_modTc (k j : Nat) (f : Tc → Tc) : sect k (modTc j f s) = sect k s := rfl
@[simp] theorem sect_modAlarm (k j : Nat) (f : AlarmCh → AlarmCh) : sect k (modAlarm j f s) = sect k s := rfl
@[simp] theorem sect_modRule (k j : Nat) (f : Rule → Rule) : sect k (modRule j f s) = sect k s := rfl
@[simp] theorem sect_modDin (k j : Nat) (f : Din → Din) : sect k (modDin j f s) = sect k s := rfl
@[simp] theorem sect_modTout (k j : Nat) (f : Tpin → Tpin) : sect k (modTout j f s) = sect k s := rfl
@[simp] theorem sect_modTrack (k j : Nat) (f : Track → Track) : sect k (modTrack j f s) = sect k s := rfl
@[simp] theorem sect_modRing (k j : Nat) (f : Ring → Ring) : sect k (modRing j f s) = sect k s := rfl
@[simp] theorem sect_drive (k : Nat) (o : Out) : sect k (drive o s) = sect k s := rfl
theorem sect_congr {u t : State} (h : t.svc = u.svc) (k : Nat) : sect k t = sect k u := by unfold sect; rw [h]

@[simp] theorem ringSt_modRing_self (key : Nat) (f : Ring → Ring) : ringSt key (modRing key f s) = f (ringSt key s) := FMap.get_upd_self
theorem ringSt_modRing_of_ne {j key : Nat} (h : j ≠ key) (f : Ring → Ring) : ringSt j (modRing key f s) = ringSt j s := FMap.get_upd_of_ne h
@[simp] theorem ringSt_modPending (key : Nat) (f : List Instr → List Instr) : ringSt key (s.modPending f) = ringSt key s := rfl
@[simp] theorem ringSt_modPages (key : Nat) (f : FMap Page → FMap Page) : ringSt key (s.modPages f) = ringSt key s := rfl
@[simp] theorem ringSt_modRf (key : Nat) (f : FMap Word → FMap Word) : ringSt key (s.modRf f) = ringSt key s := rfl
@[simp] theorem ringSt_modMem (key : Nat) (f : FMap Byte → FMap Byte) : ringSt key (s.modMem f) = ringSt key s := rfl
@[simp] theorem ringSt_modFuse (key : Nat) (f : Fuse → Fuse) : ringSt key (s.modFuse f) = ringSt key s := rfl
@[simp] theorem ringSt_modFab (key : Nat) (f : Fab → Fab) : ringSt key (s.modFab f) = ringSt key s := rfl
@[simp] theorem ringSt_modPln (key : Nat) (f : Pln → Pln) : ringSt key (s.modPln f) = ringSt key s := rfl
@[simp] theorem ringSt_modTim (key : Nat) (f : Tim → Tim) : ringSt key (s.modTim f) = ringSt key s := rfl
@[simp] theorem ringSt_modSrv (key : Nat) (f : Srv → Srv) : ringSt key (s.modSrv f) = ringSt key s := rfl
@[simp] theorem ringSt_modLanes (key : Nat) (f : FMap Lane → FMap Lane) : ringSt key (s.modLanes f) = ringSt key s := rfl
@[simp] theorem ringSt_modDel (key : Nat) (f : Del → Del) : ringSt key (s.modDel f) = ringSt key s := rfl
@[simp] theorem ringSt_modQues (key : Nat) (f : FMap Que → FMap Que) : ringSt key (s.modQues f) = ringSt key s := rfl
@[simp] theorem ringSt_modPci (key : Nat) (f : Pci → Pci) : ringSt key (s.modPci f) = ringSt key s := rfl
@[simp] theorem ringSt_modFsp (key : Nat) (f : Fsp → Fsp) : ringSt key (s.modFsp f) = ringSt key s := rfl
@[simp] theorem ringSt_modTcs (key : Nat) (f : FMap Tc → FMap Tc) : ringSt key (s.modTcs f) = ringSt key s := rfl
@[simp] theorem ringSt_modSvc (key : Nat) (f : Svc → Svc) : ringSt key (s.modSvc f) = ringSt key s := rfl
@[simp] theorem ringSt_modFwl (key : Nat) (f : Fwl → Fwl) : ringSt key (s.modFwl f) = ringSt key s := rfl
@[simp] theorem ringSt_modBst (key : Nat) (f : Bst → Bst) : ringSt key (s.modBst f) = ringSt key s := rfl
@[simp] theorem ringSt_modPwr (key : Nat) (f : Pwr → Pwr) : ringSt key (s.modPwr f) = ringSt key s := rfl
@[simp] theorem ringSt_modChans (key : Nat) (f : FMap Chan → FMap Chan) : ringSt key (s.modChans f) = ringSt key s := rfl
@[simp] theorem ringSt_modGrps (key : Nat) (f : FMap Group → FMap Group) : ringSt key (s.modGrps f) = ringSt key s := rfl
@[simp] theorem ringSt_modLins (key : Nat) (f : FMap Lin → FMap Lin) : ringSt key (s.modLins f) = ringSt key s := rfl
@[simp] theorem ringSt_modAna (key : Nat) (f : Ana → Ana) : ringSt key (s.modAna f) = ringSt key s := rfl
@[simp] theorem ringSt_modFree (key : Nat) (f : Nat → Nat) : ringSt key (s.modFree f) = ringSt key s := rfl
@[simp] theorem ringSt_modOutbox (key : Nat) (f : List Out → List Out) : ringSt key (s.modOutbox f) = ringSt key s := rfl
@[simp] theorem ringSt_modPage (key j : Nat) (f : Page → Page) : ringSt key (modPage j f s) = ringSt key s := rfl
@[simp] theorem ringSt_modLane (key j : Nat) (f : Lane → Lane) : ringSt key (modLane j f s) = ringSt key s := rfl
@[simp] theorem ringSt_modPort (key j : Nat) (f : PortSt → PortSt) : ringSt key (modPort j f s) = ringSt key s := rfl
@[simp] theorem ringSt_modQue (key j : Nat) (f : Que → Que) : ringSt key (modQue j f s) = ringSt key s := rfl
@[simp] theorem ringSt_modHr (key j : Nat) (f : Hr → Hr) : ringSt key (modHr j f s) = ringSt key s := rfl
@[simp] theorem ringSt_modCon (key j : Nat) (f : ConSt → ConSt) : ringSt key (modCon j f s) = ringSt key s := rfl
@[simp] theorem ringSt_modIsl (key j : Nat) (f : Isl → Isl) : ringSt key (modIsl j f s) = ringSt key s := rfl
@[simp] theorem ringSt_modMark (key j : Nat) (f : Mark → Mark) : ringSt key (modMark j f s) = ringSt key s := rfl
@[simp] theorem ringSt_modClos (key j : Nat) (f : Clos → Clos) : ringSt key (modClos j f s) = ringSt key s := rfl
@[simp] theorem ringSt_modChan (key j : Nat) (f : Chan → Chan) : ringSt key (modChan j f s) = ringSt key s := rfl
@[simp] theorem ringSt_modGrp (key j : Nat) (f : Group → Group) : ringSt key (modGrp j f s) = ringSt key s := rfl
@[simp] theorem ringSt_modLin (key j : Nat) (f : Lin → Lin) : ringSt key (modLin j f s) = ringSt key s := rfl
@[simp] theorem ringSt_modTc (key j : Nat) (f : Tc → Tc) : ringSt key (modTc j f s) = ringSt key s := rfl
@[simp] theorem ringSt_modAlarm (key j : Nat) (f : AlarmCh → AlarmCh) : ringSt key (modAlarm j f s) = ringSt key s := rfl
@[simp] theorem ringSt_modRule (key j : Nat) (f : Rule → Rule) : ringSt key (modRule j f s) = ringSt key s := rfl
@[simp] theorem ringSt_modDin (key j : Nat) (f : Din → Din) : ringSt key (modDin j f s) = ringSt key s := rfl
@[simp] theorem ringSt_modTout (key j : Nat) (f : Tpin → Tpin) : ringSt key (modTout j f s) = ringSt key s := rfl
@[simp] theorem ringSt_modTrack (key j : Nat) (f : Track → Track) : ringSt key (modTrack j f s) = ringSt key s := rfl
@[simp] theorem ringSt_modSect (key j : Nat) (f : Sect → Sect) : ringSt key (modSect j f s) = ringSt key s := rfl
@[simp] theorem ringSt_drive (key : Nat) (o : Out) : ringSt key (drive o s) = ringSt key s := rfl
theorem ringSt_congr {u t : State} (h : t.lsh = u.lsh) (key : Nat) : ringSt key t = ringSt key u := by unfold ringSt; rw [h]

end Sys2Proof.Machine
end

