-- ==== Sys2Proof/Laws/Causes.lean ====
section
/-! SUPPORT. What raising a cause does to the page headers (R414–R417): the cause latches, none that was latched is lost, the other pages stay; and what a request does to a self-test island (R430). -/

namespace Sys2Proof.Machine

theorem signalIfNew_pages (b : Bool) (e : Nat) (s : State) : (signalIfNew b e s).pages = s.pages :=
  (signalIfNew_only b e s).same .pages (by decide)

/-- The header of a page after a cause latches. -/
theorem latch_pages (p bit : Nat) (s : State) :
    (∀ q, q ≠ p → page q (latch p bit s) = page q s) ∧
    (evOf p bit ≠ none → (page p (latch p bit s)).evLatch = (page p s).evLatch ||| (1#32 <<< bit)) ∧
    (page p (latch p bit s)).gen = (page p s).gen ∧ (evOf p bit = none → latch p bit s = s) := by
  unfold latch
  cases h : evOf p bit with
  | none => exact ⟨fun _ _ => rfl, fun h => absurd rfl h, rfl, fun _ => rfl⟩
  | some e =>
    refine ⟨fun q hq => ?_, fun _ => ?_, ?_, fun h => by cases h⟩
    · rw [page_congr (signalIfNew_pages _ _ _)]
      rw [page_modFab, page_modPage_of_ne s hq]
    · rw [page_congr (signalIfNew_pages _ _ _)]
      rw [page_modFab, page_modPage_self]
    · rw [page_congr (signalIfNew_pages _ _ _)]
      rw [page_modFab, page_modPage_self]

theorem latched_latch {p bit : Nat} {s : State} (h : evOf p bit ≠ none) (hb : bit < 32) : Latched p bit (latch p bit s) := by
  rw [Latched, (latch_pages p bit s).2.1 h]
  simp [hb]

theorem latched_kept_latch {p bit q b : Nat} {s : State} (h : Latched q b s) : Latched q b (latch p bit s) := by
  by_cases hq : q = p
  · subst hq
    cases he : evOf q bit with
    | none => rw [(latch_pages q bit s).2.2.2 he]; exact h
    | some e =>
      have h' : (page q s).evLatch.getLsbD b = true := h
      rw [Latched, (latch_pages q bit s).2.1 (by simp [he]), BitVec.getLsbD_or, h', Bool.true_or]
  · rw [Latched, (latch_pages p bit s).1 q hq]; exact h

theorem trialFault_page (p q : Nat) (s : State) (h : q ≠ pgFWL ∨ p ≠ pgDEV) : page q (trialFault p s) = page q s := by
  unfold trialFault
  split
  · rename_i hc
    rcases h with h | h
    · rw [bumpGen, page_modPage_of_ne _ h, page_modFwl]
    · exact absurd hc.1 h
  · rfl

theorem trialFault_evLatch (p q : Nat) (s : State) : (page q (trialFault p s)).evLatch = (page q s).evLatch := by
  unfold trialFault
  split
  · by_cases h : q = pgFWL
    · subst h; rw [bumpGen, page_modPage_self, page_modFwl]
    · rw [bumpGen, page_modPage_of_ne _ h, page_modFwl]
  · rfl

theorem foldl_stage_pages (i : Item) (l : List Nat) (s : State) : (l.foldl (stage i) s).pages = s.pages :=
  (Only.foldl (l := [.del]) (fun s id => stage_only i s id) l s).same .pages (by decide)

/-- The headers after a cause is raised are those after it latched, but for a firmware trial's end (R452). -/
theorem raise_pages (p bit d : Nat) (s : State) : (raise p bit d s).pages = (trialFault p (latch p bit s)).pages := by
  unfold raise
  cases evOf p bit with
  | none => rfl
  | some e =>
    simp only
    split
    · rfl
    · split
      · rfl
      · exact foldl_stage_pages _ _ _

/-- Raising a cause latches it. -/
theorem raise_latched {p bit : Nat} (d : Nat) (s : State) (h : evOf p bit ≠ none) (hb : bit < 32) : Latched p bit (raise p bit d s) := by
  rw [Latched, page_congr (raise_pages p bit d s), trialFault_evLatch]
  exact latched_latch h hb

/-- Raising a cause loses no other. -/
theorem raise_keeps_latched {p bit q b : Nat} (d : Nat) {s : State} (h : Latched q b s) : Latched q b (raise p bit d s) := by
  rw [Latched, page_congr (raise_pages p bit d s), trialFault_evLatch]
  exact latched_kept_latch h

/-- Raising a cause leaves every other page. -/
theorem raise_page_of_ne {p q : Nat} (bit d : Nat) (s : State) (h : q ≠ p) (hf : q ≠ pgFWL ∨ p ≠ pgDEV) : page q (raise p bit d s) = page q s := by
  rw [page_congr (raise_pages p bit d s), trialFault_page _ _ _ hf]
  exact (latch_pages p bit s).1 q h

/-- Raising a cause changes the header of its page alone. -/
theorem raise_pagesKept (p bit d : Nat) (s : State) : PagesKept [p] s (raise p bit d s) :=
  ⟨fun q hq hf => raise_page_of_ne bit d s (by simpa using hq) (.inl hf), fun _ _ h => raise_keeps_latched d h⟩

theorem PagesKept.refl (ps : List Nat) (s : State) : PagesKept ps s s := ⟨fun _ _ _ => rfl, fun _ _ h => h⟩

theorem PagesKept.trans {ps : List Nat} {s t u : State} (h : PagesKept ps s t) (k : PagesKept ps t u) : PagesKept ps s u :=
  ⟨fun q hq hf => (k.1 q hq hf).trans (h.1 q hq hf), fun q b hl => k.2 q b (h.2 q b hl)⟩

/-- A cause raised once per episode latches at the episode's start. -/
theorem raiseOnce_latched {p bit : Nat} (sub d : Nat) (s : State) (h : evOf p bit ≠ none) (hb : bit < 32) (hc : condOn p bit sub s = false) :
    Latched p bit (raiseOnce p bit sub d s) := by
  rw [raiseOnce, hc]
  exact raise_latched d _ h hb

theorem condStart_pages (p bit sub : Nat) (s : State) : (condStart p bit sub s).pages = s.pages := by
  unfold condStart; split <;> rfl

theorem raiseOnce_pagesKept (p bit sub d : Nat) (s : State) : PagesKept [p] s (raiseOnce p bit sub d s) := by
  unfold raiseOnce
  split
  · exact PagesKept.refl _ _
  · have h := raise_pagesKept p bit d (condStart p bit sub s)
    refine ⟨fun q hq hf => (h.1 q hq hf).trans (page_congr (condStart_pages _ _ _ _) q), fun q b hl => h.2 q b ?_⟩
    rw [Latched, page_congr (condStart_pages _ _ _ _)]
    exact hl

/-- A request leaves an island alone on which nothing runs. -/
theorem serve_idle {k : Nat} {s : State} (h : s.bst.running.contains k = false) : serve k s = s := by
  rw [serve, h]
  rfl

/-- After a request nothing runs on an island but a forced slice. -/
theorem serve_running (k : Nat) (s : State) : (serve k s).bst.running.contains k = false ∨ serve k s = s := by
  unfold serve
  split
  · refine .inl ?_
    have h (f : Isl → Isl) (g : Bst → Bst) : (endSlice k 3 ((modIsl k f s).modBst g)).bst.running.contains k = false := by
      simp [endSlice, State.modBst]
    simp only [abandonSlice]
    split
    · rw [show (raiseOnce _ _ _ _ _).bst = _ from (raiseOnce_only _ _ _ _ _).same .bst (by decide)]
      exact h _ _
    · exact h _ _
  · exact .inr rfl

/-- A second request finds nothing more to abandon. -/
theorem serve_twice (k : Nat) (s : State) : serve k (serve k s) = serve k s :=
  (serve_running k s).elim serve_idle fun h => by rw [h, h]

end Sys2Proof.Machine
end

