-- ==== Sys2Proof/Laws/FrameSymbols.lean ====
section
/-! SUPPORT. The frames of the operations of Machine/Symbols.lean. -/

namespace Sys2Proof.Machine

theorem sendSyms_only (p : Nat) (ys : List Sym) (s : State) : Only [.lanes, .outbox] s (sendSyms p ys s) := by
  unfold sendSyms
  repeat' first
    | (show within _ _ = true; rfl)
    | with_reducible exact Only.refl _ _
    | assumption
    | dsimp only
    | with_reducible apply Only.next (drive_only _ _)
    | with_reducible apply Only.next (modLane_only _ _ _)


end Sys2Proof.Machine
end

