-- ==== Sys2Proof/Laws/FrameLink.lean ====
section
/-! SUPPORT. The frames of the operations of Machine/Link.lean. -/

namespace Sys2Proof.Machine

theorem modRing_only (key : Nat) (f : Ring → Ring) (s : State) : Only [.lsh] s (modRing key f s) := by
  unfold modRing
  repeat' first
    | (show within _ _ = true; rfl)
    | with_reducible exact Only.refl _ _
    | dsimp only
    | with_reducible apply Only.next (modLsh_only _ _)

theorem setTxDis_only (p : Nat) (s : State) : Only [.lanes, .outbox] s (setTxDis p s) := by
  unfold setTxDis
  repeat' first
    | (show within _ _ = true; rfl)
    | with_reducible exact Only.refl _ _
    | assumption
    | dsimp only
    | with_reducible apply Only.next (drive_only _ _)
    | with_reducible apply Only.next (modLane_only _ _ _)
    | with_reducible refine Only.ite ?_ ?_

theorem sendCtrlOn_only (p : Nat) (c : CtrlBlk) (s : State) : Only [.lanes] s (sendCtrlOn p c s) := by
  unfold sendCtrlOn
  repeat' first
    | (show within _ _ = true; rfl)
    | with_reducible exact Only.refl _ _
    | dsimp only
    | with_reducible apply Only.next (modLane_only _ _ _)
    | with_reducible refine Only.ite ?_ ?_

theorem sendCtrlAll_only (ps : List Nat) (c : CtrlBlk) (s : State) : Only [.lanes] s (sendCtrlAll ps c s) := by
  unfold sendCtrlAll
  repeat' first
    | (show within _ _ = true; rfl)
    | with_reducible exact Only.refl _ _
    | assumption
    | dsimp only
    | with_reducible apply Only.next (sendCtrlOn_only _ _ _)
    | with_reducible apply Only.foldl_then
    | intro _

theorem sendCtrl_only (c : CtrlBlk) (s : State) : Only [.lanes] s (sendCtrl c s) := by
  unfold sendCtrl
  repeat' first
    | (show within _ _ = true; rfl)
    | with_reducible exact Only.refl _ _
    | dsimp only
    | with_reducible apply Only.next (sendCtrlAll_only _ _ _)

theorem toPartner_only (sub term n : Nat) (s : State) : Only [.lanes] s (toPartner sub term n s) := by
  unfold toPartner
  repeat' first
    | (show within _ _ = true; rfl)
    | with_reducible exact Only.refl _ _
    | dsimp only
    | with_reducible apply Only.next (sendCtrlAll_only _ _ _)

theorem journal_only (e : JEntry) (s : State) : Only [.lanes, .lsh] s (journal e s) := by
  unfold journal
  repeat' first
    | (show within _ _ = true; rfl)
    | with_reducible exact Only.refl _ _
    | assumption
    | dsimp only
    | with_reducible apply Only.next (toPartner_only _ _ _ _)
    | with_reducible apply Only.next (modLsh_only _ _)
    | with_reducible refine Only.ite ?_ ?_

theorem hopBroken_only (key hop : Nat) (s : State) : Only [.pages, .fab, .lsh, .del, .pci, .fwl, .outbox] s (hopBroken key hop s) := by
  unfold hopBroken
  repeat' first
    | (show within _ _ = true; rfl)
    | with_reducible exact Only.refl _ _
    | assumption
    | dsimp only
    | with_reducible apply Only.next (bumpGen_only _ _)
    | with_reducible apply Only.next (modRing_only _ _ _)
    | with_reducible apply Only.next (raise_only _ _ _ _)
    | with_reducible apply Only.next (condStart_only _ _ _ _)
    | with_reducible refine Only.ite ?_ ?_

theorem hopRestored_only (key hop : Nat) (s : State) : Only [.pages, .fab, .lsh, .del, .pci, .fwl, .outbox] s (hopRestored key hop s) := by
  unfold hopRestored
  repeat' first
    | (show within _ _ = true; rfl)
    | with_reducible exact Only.refl _ _
    | assumption
    | dsimp only
    | with_reducible apply Only.next (bumpGen_only _ _)
    | with_reducible apply Only.next (modRing_only _ _ _)
    | with_reducible apply Only.next (condEnd_only _ _ _ _)
    | with_reducible apply Only.next (raise_only _ _ _ _)
    | with_reducible refine Only.ite ?_ ?_

theorem wrapAt_only (p : Nat) (s : State) : Only [.pages, .fab, .lanes, .lsh, .del, .pci, .fwl, .outbox] s (wrapAt p s) := by
  unfold wrapAt
  repeat' first
    | (show within _ _ = true; rfl)
    | with_reducible exact Only.refl _ _
    | assumption
    | dsimp only
    | with_reducible apply Only.next (hopBroken_only _ _ _)
    | with_reducible apply Only.next (modRing_only _ _ _)
    | with_reducible apply Only.next (modLane_only _ _ _)
    | with_reducible apply Only.next (sendCtrlOn_only _ _ _)
    | with_reducible refine Only.ite ?_ ?_
    | split

theorem duplexCheck_only (s : State) : Only [.pages, .fab, .lsh, .del, .pci, .fwl, .outbox] s (duplexCheck s) := by
  unfold duplexCheck
  repeat' first
    | (show within _ _ = true; rfl)
    | with_reducible exact Only.refl _ _
    | assumption
    | dsimp only
    | with_reducible apply Only.next (raise_only _ _ _ _)
    | with_reducible apply Only.next (condStart_only _ _ _ _)
    | with_reducible apply Only.next (condEnd_only _ _ _ _)
    | with_reducible apply Only.next (modLsh_only _ _)
    | with_reducible refine Only.ite ?_ ?_

theorem leaveUp_only (p : Nat) (s : State) : Only [.pages, .fab, .lanes, .lsh, .del, .pci, .fwl, .outbox] s (leaveUp p s) := by
  unfold leaveUp
  repeat' first
    | (show within _ _ = true; rfl)
    | with_reducible exact Only.refl _ _
    | assumption
    | dsimp only
    | with_reducible apply Only.next (modLane_only _ _ _)
    | with_reducible apply Only.next (duplexCheck_only _)
    | with_reducible apply Only.next (wrapAt_only _ _)
    | with_reducible refine Only.ite ?_ ?_

theorem breakHop_only (p : Nat) (s : State) : Only [.pages, .fab, .lanes, .lsh, .del, .pci, .fwl, .outbox] s (breakHop p s) := by
  unfold breakHop
  repeat' first
    | (show within _ _ = true; rfl)
    | with_reducible exact Only.refl _ _
    | assumption
    | dsimp only
    | with_reducible apply Only.next (wrapAt_only _ _)
    | with_reducible refine Only.ite ?_ ?_
    | split

theorem toHunt_only (p : Nat) (s : State) : Only [.pages, .fab, .pln, .lanes, .lsh, .del, .pci, .fwl, .outbox] s (toHunt p s) := by
  unfold toHunt
  repeat' first
    | (show within _ _ = true; rfl)
    | with_reducible exact Only.refl _ _
    | assumption
    | dsimp only
    | with_reducible apply Only.next (modLane_only _ _ _)
    | with_reducible apply Only.next (bumpGen_only _ _)
    | with_reducible apply Only.next (modPort_only _ _ _)
    | with_reducible apply Only.next (setTxDis_only _ _)
    | with_reducible apply Only.next (leaveUp_only _ _)
    | with_reducible refine Only.ite ?_ ?_

theorem lockLost_only (p : Nat) (s : State) : Only [.pages, .fab, .pln, .lanes, .lsh, .del, .pci, .fwl, .outbox] s (lockLost p s) := by
  unfold lockLost
  repeat' first
    | (show within _ _ = true; rfl)
    | with_reducible exact Only.refl _ _
    | assumption
    | dsimp only
    | with_reducible apply Only.next (modLane_only _ _ _)
    | with_reducible apply Only.next (raise_only _ _ _ _)
    | with_reducible apply Only.next (toHunt_only _ _)

theorem retrain_only (p : Nat) (s : State) : Only [.pages, .fab, .pln, .lanes, .lsh, .del, .pci, .fwl, .outbox] s (retrain p s) := by
  unfold retrain
  repeat' first
    | (show within _ _ = true; rfl)
    | with_reducible exact Only.refl _ _
    | dsimp only
    | with_reducible apply Only.next (toHunt_only _ _)

theorem portOff_only (p : Nat) (s : State) : Only [.pages, .fab, .lanes, .lsh, .del, .pci, .fwl, .outbox] s (portOff p s) := by
  unfold portOff
  repeat' first
    | (show within _ _ = true; rfl)
    | with_reducible exact Only.refl _ _
    | assumption
    | dsimp only
    | with_reducible apply Only.next (modLane_only _ _ _)
    | with_reducible apply Only.next (condEnd_only _ _ _ _)
    | with_reducible apply Only.next (setTxDis_only _ _)
    | with_reducible apply Only.next (bumpGen_only _ _)
    | with_reducible apply Only.next (leaveUp_only _ _)
    | with_reducible refine Only.ite ?_ ?_

theorem putStream_only (p cls : Nat) (ws : List W128) (s : State) : Only [.lanes] s (putStream p cls ws s) := by
  unfold putStream
  repeat' first
    | (show within _ _ = true; rfl)
    | with_reducible exact Only.refl _ _
    | dsimp only
    | with_reducible apply Only.next (modLane_only _ _ _)

theorem putStreams_only (ps : List Nat) (cls : Nat) (ws : List W128) (s : State) : Only [.lanes] s (putStreams ps cls ws s) := by
  unfold putStreams
  repeat' first
    | (show within _ _ = true; rfl)
    | with_reducible exact Only.refl _ _
    | assumption
    | dsimp only
    | with_reducible apply Only.next (putStream_only _ _ _ _)
    | with_reducible apply Only.foldl_then
    | intro _


end Sys2Proof.Machine
end

