-- ==== Sys2Proof/Laws/FrameLanes.lean ====
section
/-! SUPPORT. The frames of the operations of Machine/Lanes.lean. -/

namespace Sys2Proof.Machine

theorem exchangeFails_only (p causes : Nat) (s : State) : Only [.pages, .fab, .pln, .lanes, .lsh, .del, .pci, .fwl, .outbox] s (exchangeFails p causes s) := by
  unfold exchangeFails
  repeat' first
    | (show within _ _ = true; rfl)
    | with_reducible exact Only.refl _ _
    | assumption
    | dsimp only
    | with_reducible apply Only.next (modPort_only _ _ _)
    | with_reducible apply Only.next (bumpGen_only _ _)
    | with_reducible apply Only.next (raiseOnce_only _ _ _ _ _)
    | with_reducible apply Only.next (breakHop_only _ _)
    | with_reducible refine Only.ite ?_ ?_

theorem exchangeMatches_only (p : Nat) (s : State) : Only [.pages, .fab, .pln, .del, .pci, .fwl, .outbox] s (exchangeMatches p s) := by
  unfold exchangeMatches
  repeat' first
    | (show within _ _ = true; rfl)
    | with_reducible exact Only.refl _ _
    | assumption
    | dsimp only
    | with_reducible apply Only.next (bumpGen_only _ _)
    | with_reducible apply Only.next (modPort_only _ _ _)
    | with_reducible apply Only.next (raise_only _ _ _ _)
    | with_reducible apply Only.next (condEnd_only _ _ _ _)
    | with_reducible refine Only.ite ?_ ?_

theorem sendCap_only (p : Nat) (s : State) : Only [.lanes] s (sendCap p s) := by
  unfold sendCap
  repeat' first
    | (show within _ _ = true; rfl)
    | with_reducible exact Only.refl _ _
    | assumption
    | dsimp only
    | with_reducible apply Only.next (modLane_only _ _ _)

theorem execCapSendTimer_only (p : Port) (s : State) : Answers [.lanes] s (execCapSendTimer p s) := by
  unfold execCapSendTimer
  repeat' first
    | (show within _ _ = true; rfl)
    | with_reducible exact Only.refl _ _
    | assumption
    | dsimp only
    | with_reducible refine Answers.next ?_
    | with_reducible apply Only.next (sendCap_only _ _)
    | with_reducible refine Only.ite ?_ ?_

theorem execCapXnTick_only (p : Port) (s : State) : Answers [.lanes] s (execCapXnTick p s) := by
  unfold execCapXnTick
  repeat' first
    | (show within _ _ = true; rfl)
    | with_reducible exact Only.refl _ _
    | assumption
    | dsimp only
    | with_reducible refine Answers.next ?_
    | with_reducible apply Only.next (modLane_only _ _ _)
    | with_reducible refine Only.ite ?_ ?_

theorem portUp_only (p : Nat) (s : State) : Only [.pages, .fab, .lanes, .lsh, .del, .pci, .fwl, .outbox] s (portUp p s) := by
  unfold portUp
  repeat' first
    | (show within _ _ = true; rfl)
    | with_reducible exact Only.refl _ _
    | assumption
    | dsimp only
    | with_reducible apply Only.next (bumpGen_only _ _)
    | with_reducible apply Only.next (modLane_only _ _ _)
    | with_reducible apply Only.next (raise_only _ _ _ _)
    | with_reducible apply Only.next (duplexCheck_only _)
    | with_reducible refine Only.ite ?_ ?_

theorem switchRate_only (p c : Nat) (s : State) : Only [.pages, .lanes, .outbox] s (switchRate p c s) := by
  unfold switchRate
  repeat' first
    | (show within _ _ = true; rfl)
    | with_reducible exact Only.refl _ _
    | assumption
    | dsimp only
    | with_reducible apply Only.next (bumpGen_only _ _)
    | with_reducible apply Only.next (sendSyms_only _ _ _)
    | with_reducible apply Only.next (drive_only _ _)
    | with_reducible apply Only.next (modLane_only _ _ _)

theorem stepGood_only (p : Nat) (s : State) : Only [.pages, .fab, .lanes, .lsh, .del, .pci, .fwl, .outbox] s (stepGood p s) := by
  unfold stepGood
  repeat' first
    | (show within _ _ = true; rfl)
    | with_reducible exact Only.refl _ _
    | assumption
    | dsimp only
    | with_reducible apply Only.next (modLane_only _ _ _)
    | with_reducible apply Only.next (portUp_only _ _)
    | with_reducible apply Only.next (switchRate_only _ _ _)
    | with_reducible refine Only.ite ?_ ?_

theorem stepBad_only (p : Nat) (s : State) : Only [.pages, .fab, .pln, .lanes, .lsh, .del, .pci, .fwl, .outbox] s (stepBad p s) := by
  unfold stepBad
  repeat' first
    | (show within _ _ = true; rfl)
    | with_reducible exact Only.refl _ _
    | assumption
    | dsimp only
    | with_reducible apply Only.next (modLane_only _ _ _)
    | with_reducible apply Only.next (toHunt_only _ _)
    | with_reducible apply Only.next (switchRate_only _ _ _)
    | with_reducible refine Only.ite ?_ ?_
    | split

theorem stepCap_only (p : Nat) (c : CapBlk) (s : State) : Only [.pages, .fab, .lanes, .lsh, .del, .pci, .fwl, .outbox] s (stepCap p c s) := by
  unfold stepCap
  repeat' first
    | (show within _ _ = true; rfl)
    | with_reducible exact Only.refl _ _
    | assumption
    | dsimp only
    | with_reducible apply Only.next (sendCap_only _ _)
    | with_reducible apply Only.next (modLane_only _ _ _)
    | with_reducible apply Only.next (switchRate_only _ _ _)
    | with_reducible apply Only.next (stepGood_only _ _)
    | with_reducible refine Only.ite ?_ ?_

theorem afterCap_only (p : Nat) (b : TxBlk) (s : State) : Only [.pages, .fab, .lanes, .lsh, .del, .pci, .fwl, .outbox] s (afterCap p b s) := by
  unfold afterCap
  repeat' first
    | (show within _ _ = true; rfl)
    | with_reducible exact Only.refl _ _
    | assumption
    | dsimp only
    | with_reducible apply Only.next (switchRate_only _ _ _)
    | with_reducible apply Only.next (stepGood_only _ _)
    | with_reducible refine Only.ite ?_ ?_

theorem enterStep_only (p : Nat) (c : CapBlk) (s : State) : Only [.pages, .fab, .lanes, .lsh, .del, .pci, .fwl, .outbox] s (enterStep p c s) := by
  unfold enterStep
  repeat' first
    | (show within _ _ = true; rfl)
    | with_reducible exact Only.refl _ _
    | assumption
    | dsimp only
    | with_reducible apply Only.next (bumpGen_only _ _)
    | with_reducible apply Only.next (modLane_only _ _ _)
    | with_reducible apply Only.next (portUp_only _ _)
    | with_reducible apply Only.next (sendCap_only _ _)
    | with_reducible refine Only.ite ?_ ?_

theorem exitUp_only (p : Nat) (s : State) : Only [.pages, .fab, .lanes, .lsh, .del, .pci, .fwl, .outbox] s (exitUp p s) := by
  unfold exitUp
  repeat' first
    | (show within _ _ = true; rfl)
    | with_reducible exact Only.refl _ _
    | assumption
    | dsimp only
    | with_reducible apply Only.next (bumpGen_only _ _)
    | with_reducible apply Only.next (modLane_only _ _ _)
    | with_reducible apply Only.next (condEnd_only _ _ _ _)
    | with_reducible apply Only.next (raise_only _ _ _ _)
    | with_reducible apply Only.next (duplexCheck_only _)
    | with_reducible refine Only.ite ?_ ?_

theorem execCapExchange_only (p : Port) (c : CapBlk) (s : State) : Answers [.pages, .fab, .pln, .lanes, .lsh, .del, .pci, .fwl, .outbox] s (execCapExchange p c s) := by
  unfold execCapExchange
  repeat' first
    | (show within _ _ = true; rfl)
    | with_reducible exact Only.refl _ _
    | assumption
    | dsimp only
    | with_reducible refine Answers.next ?_
    | with_reducible apply Only.next (bumpGen_only _ _)
    | with_reducible apply Only.next (modPort_only _ _ _)
    | with_reducible apply Only.next (modLane_only _ _ _)
    | with_reducible apply Only.next (exitUp_only _ _)
    | with_reducible apply Only.next (retrain_only _ _)
    | with_reducible apply Only.next (exchangeFails_only _ _ _)
    | with_reducible apply Only.next (exchangeMatches_only _ _)
    | with_reducible apply Only.next (enterStep_only _ _ _)
    | with_reducible apply Only.next (stepCap_only _ _ _)
    | with_reducible refine Only.ite ?_ ?_
    | with_reducible refine Answers.ite ?_ ?_

theorem execStepTimeout_only (p : Port) (s : State) : Answers [.pages, .fab, .pln, .lanes, .lsh, .del, .pci, .fwl, .outbox] s (execStepTimeout p s) := by
  unfold execStepTimeout
  repeat' first
    | (show within _ _ = true; rfl)
    | with_reducible exact Only.refl _ _
    | assumption
    | dsimp only
    | with_reducible refine Answers.next ?_
    | with_reducible apply Only.next (stepBad_only _ _)
    | with_reducible refine Only.ite ?_ ?_

theorem execHuntTimeout_only (p : Port) (s : State) : Answers [.lanes] s (execHuntTimeout p s) := by
  unfold execHuntTimeout
  repeat' first
    | (show within _ _ = true; rfl)
    | with_reducible exact Only.refl _ _
    | assumption
    | dsimp only
    | with_reducible refine Answers.next ?_
    | with_reducible apply Only.next (modLane_only _ _ _)
    | with_reducible refine Only.ite ?_ ?_

theorem execSymbolLock_only (p : Port) (s : State) : Answers [.lanes] s (execSymbolLock p s) := by
  unfold execSymbolLock
  repeat' first
    | (show within _ _ = true; rfl)
    | with_reducible exact Only.refl _ _
    | assumption
    | dsimp only
    | with_reducible refine Answers.next ?_
    | with_reducible apply Only.next (modLane_only _ _ _)
    | with_reducible refine Only.ite ?_ ?_

theorem blockLocked_only (p : Nat) (s : State) : Only [.pages, .lanes] s (blockLocked p s) := by
  unfold blockLocked
  repeat' first
    | (show within _ _ = true; rfl)
    | with_reducible exact Only.refl _ _
    | assumption
    | dsimp only
    | with_reducible apply Only.next (modLane_only _ _ _)
    | with_reducible apply Only.next (bumpGen_only _ _)

theorem askReplay_only (p seq : Nat) (s : State) : Only [.lanes] s (askReplay p seq s) := by
  unfold askReplay
  repeat' first
    | (show within _ _ = true; rfl)
    | with_reducible exact Only.refl _ _
    | assumption
    | dsimp only
    | with_reducible apply Only.next (sendCtrlOn_only _ _ _)
    | with_reducible apply Only.next (modLane_only _ _ _)

theorem discardBlock_only (p typ : Nat) (gap : Bool) (first : Nat) (s : State) : Only [.pages, .fab, .pln, .lanes, .lsh, .del, .pci, .fwl, .outbox] s (discardBlock p typ gap first s) := by
  unfold discardBlock
  repeat' first
    | (show within _ _ = true; rfl)
    | with_reducible exact Only.refl _ _
    | assumption
    | dsimp only
    | with_reducible apply Only.next (modLane_only _ _ _)
    | with_reducible apply Only.next (retrain_only _ _)
    | with_reducible apply Only.next (raise_only _ _ _ _)
    | with_reducible apply Only.next (askReplay_only _ _ _)
    | with_reducible refine Only.ite ?_ ?_

theorem passCtrl_only (p : Nat) (ws : List W128) (s : State) : Only [.lanes] s (passCtrl p ws s) := by
  unfold passCtrl
  repeat' first
    | (show within _ _ = true; rfl)
    | with_reducible exact Only.refl _ _
    | assumption
    | dsimp only
    | with_reducible apply Only.next (sendCtrl_only _ _)
    | with_reducible apply Only.next (modLane_only _ _ _)
    | with_reducible apply Only.foldl_then
    | with_reducible refine Only.ite ?_ ?_
    | split
    | intro _

theorem passData_only (p typ : Nat) (ws : List W128) (s : State) : Only [.lanes, .outbox] s (passData p typ ws s) := by
  unfold passData
  repeat' first
    | (show within _ _ = true; rfl)
    | with_reducible exact Only.refl _ _
    | assumption
    | dsimp only
    | with_reducible apply Only.next (modLane_only _ _ _)
    | with_reducible apply Only.next (drive_only _ _)
    | with_reducible apply Only.next (putStream_only _ _ _ _)
    | with_reducible apply Only.next (putStreams_only _ _ _ _)
    | with_reducible refine Only.ite ?_ ?_
    | with_reducible refine Only.ite_fst ?_ ?_
    | with_reducible refine Only.ite_snd ?_ ?_
    | split

theorem noteCopy_only (p : Nat) (k : Nat × Nat × List W128) (s : State) : Only [.lanes] s (noteCopy p k s) := by
  unfold noteCopy
  repeat' first
    | (show within _ _ = true; rfl)
    | with_reducible exact Only.refl _ _
    | dsimp only
    | with_reducible apply Only.next (modLane_only _ _ _)
    | with_reducible refine Only.ite ?_ ?_

theorem acceptBlock_only (p : Nat) (b : RxBlock) (gap : Bool) (s : State) : Only [.fab, .lanes, .outbox] s (acceptBlock p b gap s) := by
  unfold acceptBlock
  repeat' first
    | (show within _ _ = true; rfl)
    | with_reducible exact Only.refl _ _
    | assumption
    | dsimp only
    | with_reducible apply Only.next (modLane_only _ _ _)
    | with_reducible apply Only.next (condEnd_only _ _ _ _)
    | with_reducible apply Only.next (drive_only _ _)
    | with_reducible apply Only.next (noteCopy_only _ _ _)
    | with_reducible apply Only.next (passCtrl_only _ _ _)
    | with_reducible apply Only.next (passData_only _ _ _ _)
    | with_reducible refine Only.ite ?_ ?_
    | with_reducible refine Only.ite_fst ?_ ?_
    | with_reducible refine Only.ite_snd ?_ ?_
    | split

theorem lockedBlock_only (p : Nat) (b : RxBlock) (s : State) : Only [.pages, .fab, .pln, .lanes, .lsh, .del, .pci, .fwl, .outbox] s (lockedBlock p b s) := by
  unfold lockedBlock
  repeat' first
    | (show within _ _ = true; rfl)
    | with_reducible exact Only.refl _ _
    | assumption
    | dsimp only
    | with_reducible apply Only.next (modLane_only _ _ _)
    | with_reducible apply Only.next (raiseOnce_only _ _ _ _ _)
    | with_reducible apply Only.next (discardBlock_only _ _ _ _ _)
    | with_reducible apply Only.next (acceptBlock_only _ _ _ _)
    | with_reducible apply Only.next (askReplay_only _ _ _)
    | with_reducible refine Only.ite ?_ ?_

theorem takeBlock_only (p : Nat) (b : RxBlock) (s : State) : Only [.pages, .fab, .pln, .lanes, .lsh, .del, .pci, .fwl, .outbox] s (takeBlock p b s) := by
  unfold takeBlock
  repeat' first
    | (show within _ _ = true; rfl)
    | with_reducible exact Only.refl _ _
    | assumption
    | dsimp only
    | with_reducible apply Only.next (modLane_only _ _ _)
    | with_reducible apply Only.next (lockLost_only _ _)
    | with_reducible apply Only.next (exitUp_only _ _)
    | with_reducible apply Only.next (lockedBlock_only _ _ _)
    | with_reducible apply Only.next (drive_only _ _)
    | with_reducible apply Only.next (blockLocked_only _ _)
    | with_reducible refine Only.ite ?_ ?_

theorem execBlockReceive_only (p : Port) (r : RxSlot) (s : State) : Answers [.pages, .fab, .pln, .lanes, .lsh, .del, .pci, .fwl, .outbox] s (execBlockReceive p r s) := by
  unfold execBlockReceive
  repeat' first
    | (show within _ _ = true; rfl)
    | with_reducible exact Only.refl _ _
    | assumption
    | dsimp only
    | with_reducible refine Answers.next ?_
    | with_reducible apply Only.next (takeBlock_only _ _ _)
    | with_reducible apply Only.next (modLane_only _ _ _)
    | with_reducible refine Only.ite ?_ ?_
    | with_reducible refine Only.ite_fst ?_ ?_
    | with_reducible refine Only.ite_snd ?_ ?_
    | with_reducible refine Answers.ite ?_ ?_

theorem execReplayReceive_only (p : Port) (seq : Nat) (s : State) : Answers [.pages, .fab, .pln, .lanes, .lsh, .del, .pci, .fwl, .outbox] s (execReplayReceive p seq s) := by
  unfold execReplayReceive
  repeat' first
    | (show within _ _ = true; rfl)
    | with_reducible exact Only.refl _ _
    | assumption
    | dsimp only
    | with_reducible refine Answers.next ?_
    | with_reducible apply Only.next (sendCtrlOn_only _ _ _)
    | with_reducible apply Only.next (retrain_only _ _)
    | with_reducible apply Only.next (raise_only _ _ _ _)
    | with_reducible apply Only.next (modLane_only _ _ _)
    | with_reducible refine Only.ite ?_ ?_
    | with_reducible refine Only.ite_fst ?_ ?_
    | with_reducible refine Only.ite_snd ?_ ?_
    | with_reducible refine Answers.ite ?_ ?_

theorem execReplayFailReceive_only (p : Port) (s : State) : Answers [.pages, .fab, .pln, .lanes, .lsh, .del, .pci, .fwl, .outbox] s (execReplayFailReceive p s) := by
  unfold execReplayFailReceive
  repeat' first
    | (show within _ _ = true; rfl)
    | with_reducible exact Only.refl _ _
    | assumption
    | dsimp only
    | with_reducible refine Answers.next ?_
    | with_reducible apply Only.next (retrain_only _ _)
    | with_reducible apply Only.next (raise_only _ _ _ _)
    | with_reducible refine Only.ite ?_ ?_

theorem overrunCheck_only (p cls : Nat) (s : State) : Only [.pages, .fab, .del, .pci, .fwl, .outbox] s (overrunCheck p cls s) := by
  unfold overrunCheck
  repeat' first
    | (show within _ _ = true; rfl)
    | with_reducible exact Only.refl _ _
    | assumption
    | dsimp only
    | with_reducible apply Only.next (raiseOnce_only _ _ _ _ _)
    | with_reducible refine Only.ite ?_ ?_

theorem putBlock_only (p : Nat) (b : TxBlk) (rbit : Bool) (s : State) : Only [.lanes, .outbox] s (putBlock p b rbit s) := by
  unfold putBlock
  repeat' first
    | (show within _ _ = true; rfl)
    | with_reducible exact Only.refl _ _
    | assumption
    | dsimp only
    | with_reducible apply Only.next (modLane_only _ _ _)
    | with_reducible apply Only.next (sendSyms_only _ _ _)
    | with_reducible apply Only.next (drive_only _ _)
    | with_reducible refine Only.ite ?_ ?_

theorem execBlockSlotSend_only (p : Port) (s : State) : Answers [.pages, .fab, .lanes, .lsh, .del, .pci, .fwl, .outbox] s (execBlockSlotSend p s) := by
  unfold execBlockSlotSend
  repeat' first
    | (show within _ _ = true; rfl)
    | with_reducible exact Only.refl _ _
    | assumption
    | dsimp only
    | with_reducible refine Answers.next ?_
    | with_reducible apply Only.next (overrunCheck_only _ _ _)
    | with_reducible apply Only.next (afterCap_only _ _ _)
    | with_reducible apply Only.next (putBlock_only _ _ _ _)
    | with_reducible apply Only.next (modLane_only _ _ _)
    | with_reducible refine Only.ite ?_ ?_
    | with_reducible refine Only.ite_fst ?_ ?_
    | with_reducible refine Only.ite_snd ?_ ?_
    | with_reducible refine Answers.ite ?_ ?_

theorem execPeakTrimTick_only (p : Port) (dir : Int) (s : State) : Answers [.pages, .fab, .lanes, .del, .pci, .fwl, .outbox] s (execPeakTrimTick p dir s) := by
  unfold execPeakTrimTick
  repeat' first
    | (show within _ _ = true; rfl)
    | with_reducible exact Only.refl _ _
    | assumption
    | dsimp only
    | with_reducible refine Answers.next ?_
    | with_reducible apply Only.next (modLane_only _ _ _)
    | with_reducible apply Only.next (raiseOnce_only _ _ _ _ _)
    | with_reducible refine Only.ite ?_ ?_
    | with_reducible refine Answers.ite ?_ ?_

theorem setEidle_only (p : Nat) (on : Bool) (s : State) : Only [.rf] s (setEidle p on s) := by
  unfold setEidle
  repeat' first
    | (show within _ _ = true; rfl)
    | with_reducible exact Only.refl _ _
    | assumption
    | dsimp only
    | with_reducible apply on_then
    | with_reducible apply Only.next (rfPut_only _ _ _)

theorem goIdle_only (p : Nat) (s : State) : Only [.pages, .fab, .lanes, .lsh, .del, .pci, .fwl, .outbox] s (goIdle p s) := by
  unfold goIdle
  repeat' first
    | (show within _ _ = true; rfl)
    | with_reducible exact Only.refl _ _
    | assumption
    | dsimp only
    | with_reducible apply Only.next (putBlock_only _ _ _ _)
    | with_reducible apply Only.next (bumpGen_only _ _)
    | with_reducible apply Only.next (sendSyms_only _ _ _)
    | with_reducible apply Only.next (drive_only _ _)
    | with_reducible apply Only.next (modLane_only _ _ _)
    | with_reducible apply Only.next (setTxDis_only _ _)
    | with_reducible apply Only.next (raise_only _ _ _ _)
    | with_reducible apply Only.next (condStart_only _ _ _ _)
    | with_reducible apply Only.next (leaveUp_only _ _)
    | with_reducible refine Only.ite ?_ ?_

theorem exitIdle_only (p : Nat) (s : State) : Only [.pages, .lanes, .free, .outbox] s (exitIdle p s) := by
  unfold exitIdle
  repeat' first
    | (show within _ _ = true; rfl)
    | with_reducible exact Only.refl _ _
    | assumption
    | dsimp only
    | with_reducible apply Only.next (takeFree_only _)
    | with_reducible apply Only.next (drive_only _ _)
    | with_reducible apply Only.next (modLane_only _ _ _)
    | with_reducible apply Only.next (bumpGen_only _ _)
    | with_reducible apply Only.next (setTxDis_only _ _)
    | with_reducible apply Only.next (sendSyms_only _ _ _)
    | with_reducible refine Only.ite ?_ ?_

theorem execEidleEnterRequest_only (r : Req) (p : Port) (s : State) : Answers [.pages, .rf, .fab, .lanes, .lsh, .del, .pci, .fwl, .outbox] s (execEidleEnterRequest r p s) := by
  unfold execEidleEnterRequest
  repeat' first
    | (show within _ _ = true; rfl)
    | with_reducible exact Only.refl _ _
    | assumption
    | dsimp only
    | with_reducible refine Answers.next ?_
    | with_reducible apply gated_then
    | with_reducible apply Only.next (goIdle_only _ _)
    | with_reducible apply Only.next (setEidle_only _ _ _)
    | with_reducible refine Only.ite ?_ ?_
    | with_reducible refine Answers.ite ?_ ?_
    | split
    | intro _

theorem execEidleExitRequest_only (r : Req) (p : Port) (s : State) : Answers [.pages, .rf, .fab, .lanes, .free, .outbox] s (execEidleExitRequest r p s) := by
  unfold execEidleExitRequest
  repeat' first
    | (show within _ _ = true; rfl)
    | with_reducible exact Only.refl _ _
    | assumption
    | dsimp only
    | with_reducible refine Answers.next ?_
    | with_reducible apply gated_then
    | with_reducible apply Only.next (exitIdle_only _ _)
    | with_reducible apply Only.next (setEidle_only _ _ _)
    | with_reducible refine Only.ite ?_ ?_
    | with_reducible refine Answers.ite ?_ ?_
    | split
    | intro _

theorem execEidleReceive_only (p : Port) (s : State) : Answers [.pages, .fab, .lanes, .lsh, .del, .pci, .fwl, .outbox] s (execEidleReceive p s) := by
  unfold execEidleReceive
  repeat' first
    | (show within _ _ = true; rfl)
    | with_reducible exact Only.refl _ _
    | assumption
    | dsimp only
    | with_reducible refine Answers.next ?_
    | with_reducible apply Only.next (goIdle_only _ _)
    | with_reducible apply Only.next (modLane_only _ _ _)

theorem execEidleExitTimeout_only (p : Port) (s : State) : Answers [.pages, .fab, .pln, .lanes, .lsh, .del, .pci, .fwl, .outbox] s (execEidleExitTimeout p s) := by
  unfold execEidleExitTimeout
  repeat' first
    | (show within _ _ = true; rfl)
    | with_reducible exact Only.refl _ _
    | assumption
    | dsimp only
    | with_reducible refine Answers.next ?_
    | with_reducible apply Only.next (retrain_only _ _)
    | with_reducible refine Only.ite ?_ ?_

theorem execSignalDetect_only (p : Port) (s : State) : Answers [.pages, .lanes, .free, .outbox] s (execSignalDetect p s) := by
  unfold execSignalDetect
  repeat' first
    | (show within _ _ = true; rfl)
    | with_reducible exact Only.refl _ _
    | assumption
    | dsimp only
    | with_reducible refine Answers.next ?_
    | with_reducible apply Only.next (exitIdle_only _ _)

theorem losRises_only (p : Nat) (s : State) : Only [.pages, .fab, .pln, .lanes, .lsh, .del, .pci, .fwl, .outbox] s (losRises p s) := by
  unfold losRises
  repeat' first
    | (show within _ _ = true; rfl)
    | with_reducible exact Only.refl _ _
    | assumption
    | dsimp only
    | with_reducible apply Only.next (modLane_only _ _ _)
    | with_reducible apply Only.next (raise_only _ _ _ _)
    | with_reducible apply Only.next (condStart_only _ _ _ _)
    | with_reducible apply Only.next (lockLost_only _ _)
    | with_reducible refine Only.ite ?_ ?_

theorem losFalls_only (p : Nat) (s : State) : Only [.pages, .fab, .lanes, .free, .outbox] s (losFalls p s) := by
  unfold losFalls
  repeat' first
    | (show within _ _ = true; rfl)
    | with_reducible exact Only.refl _ _
    | dsimp only
    | with_reducible apply Only.next (exitIdle_only _ _)
    | with_reducible apply Only.next (condEnd_only _ _ _ _)
    | with_reducible apply Only.next (modLane_only _ _ _)

theorem losFollow_only (p : Nat) (s : State) : Only [.pages, .fab, .pln, .lanes, .lsh, .del, .pci, .fwl, .free, .outbox] s (losFollow p s) := by
  unfold losFollow
  repeat' first
    | (show within _ _ = true; rfl)
    | with_reducible exact Only.refl _ _
    | dsimp only
    | with_reducible apply Only.next (losRises_only _ _)
    | with_reducible apply Only.next (losFalls_only _ _)
    | with_reducible refine Only.ite ?_ ?_

theorem losPlan_only (s : State) (p : Nat) : Only [.pages, .fab, .pln, .lanes, .lsh, .del, .pci, .fwl, .outbox] s (losPlan s p) := by
  unfold losPlan
  repeat' first
    | (show within _ _ = true; rfl)
    | with_reducible exact Only.refl _ _
    | dsimp only
    | with_reducible apply Only.next (losRises_only _ _)
    | with_reducible apply Only.next (condEnd_only _ _ _ _)
    | with_reducible apply Only.next (modLane_only _ _ _)
    | with_reducible refine Only.ite ?_ ?_

theorem execLosInput_only (p : Port) (level : Bool) (s : State) : Answers [.pages, .fab, .pln, .lanes, .lsh, .del, .pci, .fwl, .free, .outbox] s (execLosInput p level s) := by
  unfold execLosInput
  repeat' first
    | (show within _ _ = true; rfl)
    | with_reducible exact Only.refl _ _
    | assumption
    | dsimp only
    | with_reducible refine Answers.next ?_
    | with_reducible apply Only.next (modLane_only _ _ _)
    | with_reducible apply Only.next (losRises_only _ _)
    | with_reducible apply Only.next (losFalls_only _ _)
    | with_reducible refine Only.ite ?_ ?_
    | with_reducible refine Answers.ite ?_ ?_

theorem execPortRestart_only (r : Req) (p : Port) (s : State) : Answers [.pages, .fab, .pln, .lanes, .lsh, .del, .pci, .fwl, .outbox] s (execPortRestart r p s) := by
  unfold execPortRestart
  repeat' first
    | (show within _ _ = true; rfl)
    | with_reducible exact Only.refl _ _
    | assumption
    | dsimp only
    | with_reducible refine Answers.next ?_
    | with_reducible apply gated_then
    | with_reducible apply Only.next (retrain_only _ _)
    | with_reducible refine Only.ite ?_ ?_
    | with_reducible refine Answers.ite ?_ ?_
    | split
    | intro _

theorem execMaxrateWrite_only (r : Req) (p : Port) (v : Word) (s : State) : Answers [.pages, .rf, .fab, .pln, .lanes, .lsh, .del, .pci, .fwl, .outbox] s (execMaxrateWrite r p v s) := by
  unfold execMaxrateWrite
  repeat' first
    | (show within _ _ = true; rfl)
    | with_reducible exact Only.refl _ _
    | assumption
    | dsimp only
    | with_reducible refine Answers.next ?_
    | with_reducible apply gated_then
    | with_reducible apply Only.next (rfPut_only _ _ _)
    | with_reducible apply Only.next (retrain_only _ _)
    | with_reducible refine Only.ite ?_ ?_
    | with_reducible refine Answers.ite ?_ ?_
    | split
    | intro _


end Sys2Proof.Machine
end

