-- ==== Sys2Proof/Laws/FrameTime.lean ====
section
/-! SUPPORT. The frames of the operations of Machine/Time.lean. -/

namespace Sys2Proof.Machine

theorem setClock_only (u : Int) (s : State) : Only [.tim] s (setClock u s) := by
  unfold setClock
  repeat' first
    | (show within _ _ = true; rfl)
    | with_reducible exact Only.refl _ _
    | assumption
    | dsimp only
    | with_reducible apply Only.next (modTim_only _ _)

theorem addNs_only (d : Int) (s : State) : Only [.tim] s (addNs d s) := by
  unfold addNs
  repeat' first
    | (show within _ _ = true; rfl)
    | with_reducible exact Only.refl _ _
    | dsimp only
    | with_reducible apply Only.next (setClock_only _ _)

theorem tick_only (s : State) : Only [.tim, .pwr] s (tick s) := by
  unfold tick
  repeat' first
    | (show within _ _ = true; rfl)
    | with_reducible exact Only.refl _ _
    | assumption
    | dsimp only
    | with_reducible apply Only.next (setClock_only _ _)
    | with_reducible apply Only.next (modPwr_only _ _)
    | with_reducible apply Only.next (modTim_only _ _)
    | with_reducible refine Only.ite ?_ ?_

theorem modMark_only (p : Nat) (f : Mark → Mark) (s : State) : Only [.srv] s (modMark p f s) := by
  unfold modMark
  repeat' first
    | (show within _ _ = true; rfl)
    | with_reducible exact Only.refl _ _
    | dsimp only
    | with_reducible apply Only.next (modSrv_only _ _)

theorem putRet_only (k : Nat) (bs : List Byte) (s : State) : Only [.pwr] s (putRet k bs s) := by
  unfold putRet
  repeat' first
    | (show within _ _ = true; rfl)
    | with_reducible exact Only.refl _ _
    | dsimp only
    | with_reducible apply Only.next (modPwr_only _ _)

theorem putStore_only (epoch reason count : Nat) (s : State) : Only [.pwr] s (putStore epoch reason count s) := by
  unfold putStore
  repeat' first
    | (show within _ _ = true; rfl)
    | with_reducible exact Only.refl _ _
    | assumption
    | dsimp only
    | with_reducible apply Only.next (putRet_only _ _ _)

theorem becomeSource_only (s : State) : Only [.pages, .srv, .pwr] s (becomeSource s) := by
  unfold becomeSource
  repeat' first
    | (show within _ _ = true; rfl)
    | with_reducible exact Only.refl _ _
    | dsimp only
    | with_reducible apply Only.next (startMark_only _ _)
    | with_reducible apply Only.next (bumpGen_only _ _)
    | with_reducible apply Only.next (modSrv_only _ _)
    | with_reducible refine Only.ite ?_ ?_

theorem setTime_only (s : State) : Only [.pages, .fab, .tim, .srv, .del, .pci, .fwl, .pwr, .outbox] s (setTime s) := by
  unfold setTime
  repeat' first
    | (show within _ _ = true; rfl)
    | with_reducible exact Only.refl _ _
    | dsimp only
    | with_reducible apply Only.next (becomeSource_only _)
    | with_reducible apply Only.next (startMark_only _ _)
    | with_reducible apply Only.next (raise_only _ _ _ _)
    | with_reducible apply Only.next (bumpGen_only _ _)
    | with_reducible apply Only.next (modTim_only _ _)
    | with_reducible refine Only.ite ?_ ?_

theorem takeEpoch_only (n : Nat) (s : State) : Only [.pages, .tim, .pwr] s (takeEpoch n s) := by
  unfold takeEpoch
  repeat' first
    | (show within _ _ = true; rfl)
    | with_reducible exact Only.refl _ _
    | assumption
    | dsimp only
    | with_reducible apply Only.next (bumpGen_only _ _)
    | with_reducible apply Only.next (putStore_only _ _ _ _)
    | with_reducible apply Only.next (modTim_only _ _)
    | with_reducible refine Only.ite ?_ ?_

theorem enterService_only (s : State) : Only [.pages, .fab, .tim, .del, .pci, .fwl, .pwr, .outbox] s (enterService s) := by
  unfold enterService
  repeat' first
    | (show within _ _ = true; rfl)
    | with_reducible exact Only.refl _ _
    | assumption
    | dsimp only
    | with_reducible apply Only.next (startMark_only _ _)
    | with_reducible apply Only.next (raise_only _ _ _ _)
    | with_reducible apply Only.next (bumpGen_only _ _)
    | with_reducible apply Only.next (pwrState_only _ _)
    | with_reducible apply Only.next (modTim_only _ _)
    | with_reducible refine Only.ite ?_ ?_

theorem execInService_only (s : State) : Answers [.pages, .fab, .tim, .del, .pci, .fwl, .pwr, .outbox] s (execInService s) := by
  unfold execInService
  repeat' first
    | (show within _ _ = true; rfl)
    | with_reducible exact Only.refl _ _
    | assumption
    | dsimp only
    | with_reducible refine Answers.next ?_
    | with_reducible apply Only.next (enterService_only _)
    | with_reducible refine Only.ite ?_ ?_

theorem takeSource_only (p : Nat) (s : State) : Only [.pages, .fab, .srv, .del, .pci, .fwl, .outbox] s (takeSource p s) := by
  unfold takeSource
  repeat' first
    | (show within _ _ = true; rfl)
    | with_reducible exact Only.refl _ _
    | assumption
    | dsimp only
    | with_reducible apply Only.next (bumpGen_only _ _)
    | with_reducible apply Only.next (raise_only _ _ _ _)
    | with_reducible apply Only.next (modSrv_only _ _)
    | with_reducible refine Only.ite ?_ ?_

theorem toHoldover_only (s : State) : Only [.pages, .fab, .srv, .del, .pci, .fwl, .outbox] s (toHoldover s) := by
  unfold toHoldover
  repeat' first
    | (show within _ _ = true; rfl)
    | with_reducible exact Only.refl _ _
    | assumption
    | dsimp only
    | with_reducible apply Only.next (bumpGen_only _ _)
    | with_reducible apply Only.next (raise_only _ _ _ _)
    | with_reducible apply Only.next (modSrv_only _ _)

theorem adoptFrom_only (n p : Nat) (s : State) : Only [.tim] s (adoptFrom n p s) := by
  unfold adoptFrom
  repeat' first
    | (show within _ _ = true; rfl)
    | with_reducible exact Only.refl _ _
    | dsimp only
    | with_reducible apply Only.next (modTim_only _ _)

theorem holdAnn_only (a : EpAnn) (s : State) : Only [.pages, .fab, .tim, .del, .pci, .fwl, .outbox] s (holdAnn a s) := by
  unfold holdAnn
  repeat' first
    | (show within _ _ = true; rfl)
    | with_reducible exact Only.refl _ _
    | assumption
    | dsimp only
    | with_reducible apply Only.next (raise_only _ _ _ _)
    | with_reducible apply Only.next (bumpGen_only _ _)
    | with_reducible apply Only.next (adoptFrom_only _ _ _)
    | with_reducible apply Only.next (modTim_only _ _)
    | with_reducible refine Only.ite ?_ ?_
    | split

theorem announce_only (delta : Int) (tod : Bool) (s : State) : Only [.pages, .fab, .tim, .lanes, .lsh, .del, .pci, .fwl, .outbox] s (announce delta tod s) := by
  unfold announce
  repeat' first
    | (show within _ _ = true; rfl)
    | with_reducible exact Only.refl _ _
    | assumption
    | dsimp only
    | with_reducible apply Only.next (holdAnn_only _ _)
    | with_reducible apply Only.next (sendCtrlAll_only _ _ _)
    | with_reducible apply Only.next (journal_only _ _)
    | with_reducible apply Only.next (modTim_only _ _)

theorem requestEpoch_only (e2 : Int) (s : State) : Only [.pages, .fab, .tim, .lanes, .del, .pci, .fwl, .outbox] s (requestEpoch e2 s) := by
  unfold requestEpoch
  repeat' first
    | (show within _ _ = true; rfl)
    | with_reducible exact Only.refl _ _
    | assumption
    | dsimp only
    | with_reducible apply Only.next (raise_only _ _ _ _)
    | with_reducible apply Only.next (bumpGen_only _ _)
    | with_reducible apply Only.next (sendCtrlOn_only _ _ _)
    | with_reducible apply Only.next (modTim_only _ _)
    | with_reducible refine Only.ite ?_ ?_

theorem deferCause_only (delta : Int) (tod : Bool) (s : State) : Only [.tim] s (deferCause delta tod s) := by
  unfold deferCause
  repeat' first
    | (show within _ _ = true; rfl)
    | with_reducible exact Only.refl _ _
    | assumption
    | dsimp only
    | with_reducible apply Only.next (modTim_only _ _)

theorem execEpAnnounceReceive_only (a : EpAnn) (s : State) : Answers [.pages, .fab, .tim, .del, .pci, .fwl, .outbox] s (execEpAnnounceReceive a s) := by
  unfold execEpAnnounceReceive
  repeat' first
    | (show within _ _ = true; rfl)
    | with_reducible exact Only.refl _ _
    | assumption
    | dsimp only
    | with_reducible refine Answers.next ?_
    | with_reducible apply Only.next (holdAnn_only _ _)

theorem execEpReqReceive_only (s : State) : Answers [.pages, .fab, .tim, .lanes, .lsh, .del, .pci, .fwl, .outbox] s (execEpReqReceive s) := by
  unfold execEpReqReceive
  repeat' first
    | (show within _ _ = true; rfl)
    | with_reducible exact Only.refl _ _
    | assumption
    | dsimp only
    | with_reducible refine Answers.next ?_
    | with_reducible apply Only.next (announce_only _ _ _)
    | with_reducible apply Only.next (sendCtrl_only _ _)
    | with_reducible apply Only.next (modTim_only _ _)
    | with_reducible refine Only.ite ?_ ?_
    | with_reducible refine Answers.ite ?_ ?_
    | split

theorem execEpDeferredAnnounce_only (s : State) : Answers [.pages, .fab, .tim, .lanes, .lsh, .del, .pci, .fwl, .outbox] s (execEpDeferredAnnounce s) := by
  unfold execEpDeferredAnnounce
  repeat' first
    | (show within _ _ = true; rfl)
    | with_reducible exact Only.refl _ _
    | assumption
    | dsimp only
    | with_reducible refine Answers.next ?_
    | with_reducible apply Only.next (announce_only _ _ _)
    | with_reducible apply Only.next (modTim_only _ _)
    | with_reducible refine Only.ite ?_ ?_

theorem lockRule_only (e2 : Int) (s : State) : Only [.pages, .fab, .srv, .del, .pci, .fwl, .pwr, .outbox] s (lockRule e2 s) := by
  unfold lockRule
  repeat' first
    | (show within _ _ = true; rfl)
    | with_reducible exact Only.refl _ _
    | assumption
    | dsimp only
    | with_reducible apply Only.next (startMark_only _ _)
    | with_reducible apply Only.next (raise_only _ _ _ _)
    | with_reducible apply Only.next (bumpGen_only _ _)
    | with_reducible apply Only.next (modSrv_only _ _)
    | with_reducible refine Only.ite ?_ ?_

theorem applyOffset_only (e2 : Int) (pepoch : Nat) (tm kp ki : Nat) (s : State) : Only [.pages, .fab, .tim, .srv, .lanes, .del, .pci, .fwl, .pwr, .outbox] s (applyOffset e2 pepoch tm kp ki s) := by
  unfold applyOffset
  repeat' first
    | (show within _ _ = true; rfl)
    | with_reducible exact Only.refl _ _
    | assumption
    | dsimp only
    | with_reducible apply Only.next (setClock_only _ _)
    | with_reducible apply Only.next (takeEpoch_only _ _)
    | with_reducible apply Only.next (adoptFrom_only _ _ _)
    | with_reducible apply Only.next (requestEpoch_only _ _)
    | with_reducible apply Only.next (modSrv_only _ _)
    | with_reducible apply Only.next (modTim_only _ _)
    | with_reducible refine Only.ite ?_ ?_

theorem execServoMeasurement_only (s : State) : Answers [.pages, .fab, .tim, .srv, .lanes, .del, .pci, .fwl, .pwr, .outbox] s (execServoMeasurement s) := by
  unfold execServoMeasurement
  repeat' first
    | (show within _ _ = true; rfl)
    | with_reducible exact Only.refl _ _
    | assumption
    | dsimp only
    | with_reducible refine Answers.next ?_
    | with_reducible apply Only.next (takeSource_only _ _)
    | with_reducible apply Only.next (setClock_only _ _)
    | with_reducible apply Only.next (takeEpoch_only _ _)
    | with_reducible apply Only.next (setTime_only _)
    | with_reducible apply Only.next (bumpGen_only _ _)
    | with_reducible apply Only.next (lockRule_only _ _)
    | with_reducible apply Only.next (applyOffset_only _ _ _ _ _ _)
    | with_reducible apply Only.next (modSrv_only _ _)
    | with_reducible refine Only.ite ?_ ?_
    | with_reducible refine Only.ite_fst ?_ ?_
    | with_reducible refine Only.ite_snd ?_ ?_
    | with_reducible refine Answers.ite ?_ ?_
    | split

theorem execSourceLossTimer_only (s : State) : Answers [.pages, .fab, .srv, .del, .pci, .fwl, .outbox] s (execSourceLossTimer s) := by
  unfold execSourceLossTimer
  repeat' first
    | (show within _ _ = true; rfl)
    | with_reducible exact Only.refl _ _
    | assumption
    | dsimp only
    | with_reducible refine Answers.next ?_
    | with_reducible apply Only.next (modMark_only _ _ _)
    | with_reducible apply Only.next (takeSource_only _ _)
    | with_reducible apply Only.next (toHoldover_only _)
    | with_reducible refine Only.ite ?_ ?_
    | with_reducible refine Answers.ite ?_ ?_
    | split

theorem execFreeRunTimer_only (s : State) : Answers [.pages, .fab, .tim, .srv, .del, .pci, .fwl, .pwr, .outbox] s (execFreeRunTimer s) := by
  unfold execFreeRunTimer
  repeat' first
    | (show within _ _ = true; rfl)
    | with_reducible exact Only.refl _ _
    | assumption
    | dsimp only
    | with_reducible refine Answers.next ?_
    | with_reducible apply Only.next (setTime_only _)
    | with_reducible apply Only.next (bumpGen_only _ _)
    | with_reducible apply Only.next (modSrv_only _ _)
    | with_reducible apply Only.next (modTim_only _ _)
    | with_reducible refine Only.ite ?_ ?_

theorem execPrefReturnTimer_only (p : Port) (s : State) : Answers [.pages, .fab, .srv, .del, .pci, .fwl, .outbox] s (execPrefReturnTimer p s) := by
  unfold execPrefReturnTimer
  repeat' first
    | (show within _ _ = true; rfl)
    | with_reducible exact Only.refl _ _
    | assumption
    | dsimp only
    | with_reducible refine Answers.next ?_
    | with_reducible apply Only.next (takeSource_only _ _)
    | with_reducible refine Only.ite ?_ ?_

theorem execFclkAbsent_only (p : Port) (s : State) : Answers [.pages, .fab, .pln, .srv, .lanes, .lsh, .del, .pci, .fwl, .outbox] s (execFclkAbsent p s) := by
  unfold execFclkAbsent
  repeat' first
    | (show within _ _ = true; rfl)
    | with_reducible exact Only.refl _ _
    | assumption
    | dsimp only
    | with_reducible refine Answers.next ?_
    | with_reducible apply Only.next (modLane_only _ _ _)
    | with_reducible apply Only.next (raise_only _ _ _ _)
    | with_reducible apply Only.next (lockLost_only _ _)
    | with_reducible apply Only.next (modSrv_only _ _)
    | with_reducible refine Only.ite ?_ ?_
    | with_reducible refine Answers.ite ?_ ?_

theorem execSrvGainsWrite_only (r : Req) (v : Word) (s : State) : Answers [.fab, .srv] s (execSrvGainsWrite r v s) := by
  unfold execSrvGainsWrite
  repeat' first
    | (show within _ _ = true; rfl)
    | with_reducible exact Only.refl _ _
    | assumption
    | dsimp only
    | with_reducible refine Answers.next ?_
    | with_reducible apply gated_then
    | with_reducible apply Only.next (modSrv_only _ _)
    | with_reducible refine Only.ite ?_ ?_
    | with_reducible refine Answers.ite ?_ ?_
    | split
    | intro _

theorem execTimeMarkerSend_only (p : Port) (s : State) : Answers [.srv, .lanes, .outbox] s (execTimeMarkerSend p s) := by
  unfold execTimeMarkerSend
  repeat' first
    | (show within _ _ = true; rfl)
    | with_reducible exact Only.refl _ _
    | assumption
    | dsimp only
    | with_reducible refine Answers.next ?_
    | with_reducible apply Only.next (modMark_only _ _ _)
    | with_reducible apply Only.next (putBlock_only _ _ _ _)
    | with_reducible refine Only.ite ?_ ?_
    | with_reducible refine Only.ite_fst ?_ ?_
    | with_reducible refine Only.ite_snd ?_ ?_
    | with_reducible refine Answers.ite ?_ ?_

theorem execTimeMarkerReceive_only (p : Port) (seq : Nat) (m : Marker) (good : Bool) (ph : Nat) (s : State) : Answers [.pages, .fab, .tim, .srv, .lanes, .del, .pci, .fwl, .outbox] s (execTimeMarkerReceive p seq m good ph s) := by
  unfold execTimeMarkerReceive
  repeat' first
    | (show within _ _ = true; rfl)
    | with_reducible exact Only.refl _ _
    | assumption
    | dsimp only
    | with_reducible refine Answers.next ?_
    | with_reducible apply Only.next (modMark_only _ _ _)
    | with_reducible apply Only.next (modLane_only _ _ _)
    | with_reducible apply Only.next (holdAnn_only _ _)
    | with_reducible apply Only.next (raiseOnce_only _ _ _ _ _)
    | with_reducible apply Only.next (condEnd_only _ _ _ _)
    | with_reducible apply Only.next (adoptFrom_only _ _ _)
    | with_reducible apply Only.next (modSrv_only _ _)
    | with_reducible refine Only.ite ?_ ?_
    | with_reducible refine Only.ite_fst ?_ ?_
    | with_reducible refine Only.ite_snd ?_ ?_
    | with_reducible refine Answers.ite ?_ ?_
    | split

theorem modClos_only (n : Nat) (f : Clos → Clos) (s : State) : Only [.srv] s (modClos n f s) := by
  unfold modClos
  repeat' first
    | (show within _ _ = true; rfl)
    | with_reducible exact Only.refl _ _
    | dsimp only
    | with_reducible apply Only.next (modSrv_only _ _)

theorem sendAlpha_only (r : RingPlan) (ja : Nat × Int) (s : State) : Only [.srv, .lanes] s (sendAlpha r ja s) := by
  unfold sendAlpha
  repeat' first
    | (show within _ _ = true; rfl)
    | with_reducible exact Only.refl _ _
    | assumption
    | dsimp only
    | with_reducible apply Only.next (sendCtrl_only _ _)
    | with_reducible apply Only.next (modMark_only _ _ _)
    | with_reducible refine Only.ite ?_ ?_
    | with_reducible refine Only.ite_fst ?_ ?_
    | with_reducible refine Only.ite_snd ?_ ?_
    | split

theorem alignCheck_only (s : State) : Only [.pwr] s (alignCheck s) := by
  unfold alignCheck
  repeat' first
    | (show within _ _ = true; rfl)
    | with_reducible exact Only.refl _ _
    | assumption
    | dsimp only
    | with_reducible apply Only.next (startMark_only _ _)
    | with_reducible refine Only.ite ?_ ?_

theorem countRound_only (n p : Nat) (s : State) : Only [.srv, .pwr] s (countRound n p s) := by
  unfold countRound
  repeat' first
    | (show within _ _ = true; rfl)
    | with_reducible exact Only.refl _ _
    | assumption
    | dsimp only
    | with_reducible apply Only.next (alignCheck_only _)
    | with_reducible apply Only.next (modClos_only _ _ _)

theorem endRound_only (r : RingPlan) (west : Bool) (s : State) : Only [.pages, .fab, .srv, .lanes, .del, .pci, .fwl, .pwr, .outbox] s (endRound r west s) := by
  unfold endRound
  repeat' first
    | (show within _ _ = true; rfl)
    | with_reducible exact Only.refl _ _
    | assumption
    | dsimp only
    | with_reducible apply Only.next (modClos_only _ _ _)
    | with_reducible apply Only.next (bumpGen_only _ _)
    | with_reducible apply Only.next (raise_only _ _ _ _)
    | with_reducible apply Only.next (sendAlpha_only _ _ _)
    | with_reducible apply Only.next (alignCheck_only _)
    | with_reducible apply Only.foldl_then
    | with_reducible apply Only.foldl_fst_then
    | with_reducible apply Only.foldl_snd_then
    | with_reducible refine Only.ite ?_ ?_
    | with_reducible refine Only.ite_fst ?_ ?_
    | with_reducible refine Only.ite_snd ?_ ?_
    | split
    | intro _

theorem sendReport_only (r : RingPlan) (i p : Nat) (s : State) : Only [.srv, .lanes] s (sendReport r i p s) := by
  unfold sendReport
  repeat' first
    | (show within _ _ = true; rfl)
    | with_reducible exact Only.refl _ _
    | assumption
    | dsimp only
    | with_reducible apply Only.next (modClos_only _ _ _)
    | with_reducible apply Only.next (sendCtrl_only _ _)
    | with_reducible apply Only.foldl_then
    | with_reducible apply Only.foldl_fst_then
    | with_reducible apply Only.foldl_snd_then
    | with_reducible refine Only.ite ?_ ?_
    | with_reducible refine Only.ite_fst ?_ ?_
    | with_reducible refine Only.ite_snd ?_ ?_
    | split
    | intro _

theorem execClosureRound_only (kind : Fin 2) (num : Fin 8) (s : State) : Answers [.pages, .fab, .srv, .lanes, .del, .pci, .fwl, .pwr, .outbox] s (execClosureRound kind num s) := by
  unfold execClosureRound
  repeat' first
    | (show within _ _ = true; rfl)
    | with_reducible exact Only.refl _ _
    | assumption
    | dsimp only
    | with_reducible refine Answers.next ?_
    | with_reducible apply Only.next (endRound_only _ _ _)
    | with_reducible apply Only.next (sendReport_only _ _ _ _)
    | with_reducible apply Only.next (countRound_only _ _ _)
    | with_reducible refine Only.ite ?_ ?_
    | with_reducible refine Answers.ite ?_ ?_
    | split

theorem execClosReportReceive_only (ring : Fin 16) (hop : Nat) (theta d : Int) (s : State) : Answers [.srv] s (execClosReportReceive ring hop theta d s) := by
  unfold execClosReportReceive
  repeat' first
    | (show within _ _ = true; rfl)
    | with_reducible exact Only.refl _ _
    | assumption
    | dsimp only
    | with_reducible refine Answers.next ?_
    | with_reducible apply Only.next (modClos_only _ _ _)

theorem execClosAsymReceive_only (p : Port) (asym : Int) (s : State) : Answers [.srv] s (execClosAsymReceive p asym s) := by
  unfold execClosAsymReceive
  repeat' first
    | (show within _ _ = true; rfl)
    | with_reducible exact Only.refl _ _
    | assumption
    | dsimp only
    | with_reducible refine Answers.next ?_
    | with_reducible apply Only.next (modMark_only _ _ _)

theorem ppsServo_only (e : Int) (s : State) : Only [.srv] s (ppsServo e s) := by
  unfold ppsServo
  repeat' first
    | (show within _ _ = true; rfl)
    | with_reducible exact Only.refl _ _
    | assumption
    | dsimp only
    | with_reducible apply Only.next (modSrv_only _ _)

theorem headOffset_only (e : Int) (tod : Bool) (s : State) : Only [.pages, .fab, .tim, .srv, .lanes, .lsh, .del, .pci, .fwl, .outbox] s (headOffset e tod s).1 := by
  unfold headOffset
  repeat' first
    | (show within _ _ = true; rfl)
    | with_reducible exact Only.refl _ _
    | dsimp only
    | with_reducible apply Only.next (addNs_only _ _)
    | with_reducible apply Only.next (ppsServo_only _ _)
    | with_reducible apply Only.next (deferCause_only _ _ _)
    | with_reducible apply Only.next (announce_only _ _ _)
    | with_reducible apply Only.next (modTim_only _ _)
    | with_reducible refine Only.ite ?_ ?_
    | with_reducible refine Only.ite_fst ?_ ?_

theorem applyTod_only (e : Int) (src : Nat) (s : State) : Only [.pages, .fab, .tim, .srv, .lanes, .lsh, .del, .pci, .fwl, .pwr, .outbox] s (applyTod e src s) := by
  unfold applyTod
  repeat' first
    | (show within _ _ = true; rfl)
    | with_reducible exact Only.refl _ _
    | assumption
    | dsimp only
    | with_reducible apply Only.next (headOffset_only _ _ _)
    | with_reducible apply Only.next (setTime_only _)
    | with_reducible apply Only.next (bumpGen_only _ _)
    | with_reducible apply Only.next (raise_only _ _ _ _)
    | with_reducible apply Only.next (modSrv_only _ _)
    | with_reducible refine Only.ite ?_ ?_

theorem execTodApplyNow_only (r : Req) (s : State) : Answers [.pages, .fab, .tim, .srv, .lanes, .lsh, .del, .pci, .fwl, .pwr, .outbox] s (execTodApplyNow r s) := by
  unfold execTodApplyNow
  repeat' first
    | (show within _ _ = true; rfl)
    | with_reducible exact Only.refl _ _
    | assumption
    | dsimp only
    | with_reducible refine Answers.next ?_
    | with_reducible apply gated_then
    | with_reducible apply Only.next (applyTod_only _ _ _)
    | with_reducible apply Only.next (modTim_only _ _)
    | with_reducible refine Only.ite ?_ ?_
    | with_reducible refine Answers.ite ?_ ?_
    | split
    | intro _

theorem execTodApplyPps_only (r : Req) (s : State) : Answers [.pages, .fab, .tim] s (execTodApplyPps r s) := by
  unfold execTodApplyPps
  repeat' first
    | (show within _ _ = true; rfl)
    | with_reducible exact Only.refl _ _
    | assumption
    | dsimp only
    | with_reducible refine Answers.next ?_
    | with_reducible apply gated_then
    | with_reducible apply Only.next (bumpGen_only _ _)
    | with_reducible apply Only.next (modTim_only _ _)
    | with_reducible refine Only.ite ?_ ?_
    | with_reducible refine Answers.ite ?_ ?_
    | split
    | intro _

theorem ppsLockRule_only (e : Int) (s : State) : Only [.pages, .tim, .srv] s (ppsLockRule e s) := by
  unfold ppsLockRule
  repeat' first
    | (show within _ _ = true; rfl)
    | with_reducible exact Only.refl _ _
    | assumption
    | dsimp only
    | with_reducible apply Only.next (bumpGen_only _ _)
    | with_reducible apply Only.next (modSrv_only _ _)
    | with_reducible apply Only.next (modTim_only _ _)
    | with_reducible refine Only.ite ?_ ?_

theorem ppsSource_only (s : State) : Only [.pages, .srv] s (ppsSource s) := by
  unfold ppsSource
  repeat' first
    | (show within _ _ = true; rfl)
    | with_reducible exact Only.refl _ _
    | dsimp only
    | with_reducible apply Only.next (bumpGen_only _ _)
    | with_reducible apply Only.next (modSrv_only _ _)
    | with_reducible refine Only.ite ?_ ?_

theorem ppsMeasure_only (e : Int) (s : State) : Only [.pages, .fab, .tim, .srv, .lanes, .lsh, .del, .pci, .fwl, .outbox] s (ppsMeasure e s) := by
  unfold ppsMeasure
  repeat' first
    | (show within _ _ = true; rfl)
    | with_reducible exact Only.refl _ _
    | assumption
    | dsimp only
    | with_reducible apply Only.next (ppsSource_only _)
    | with_reducible apply Only.next (ppsLockRule_only _ _)
    | with_reducible apply Only.next (addNs_only _ _)
    | with_reducible apply Only.next (ppsServo_only _ _)
    | with_reducible apply Only.next (deferCause_only _ _ _)
    | with_reducible apply Only.next (announce_only _ _ _)
    | with_reducible apply Only.next (modSrv_only _ _)
    | with_reducible apply Only.next (modTim_only _ _)
    | with_reducible refine Only.ite ?_ ?_

theorem ppsLost_only (s : State) : Only [.pages, .fab, .tim, .srv, .del, .pci, .fwl, .outbox] s (ppsLost s) := by
  unfold ppsLost
  repeat' first
    | (show within _ _ = true; rfl)
    | with_reducible exact Only.refl _ _
    | assumption
    | dsimp only
    | with_reducible apply Only.next (bumpGen_only _ _)
    | with_reducible apply Only.next (toHoldover_only _)
    | with_reducible apply Only.next (raise_only _ _ _ _)
    | with_reducible apply Only.next (modTim_only _ _)
    | with_reducible refine Only.ite ?_ ?_

theorem edgeOffset_only (t : Stamp) (s : State) : Only [.tim] s (edgeOffset t s).2 := by
  unfold edgeOffset
  repeat' first
    | (show within _ _ = true; rfl)
    | with_reducible exact Only.refl _ _
    | assumption
    | dsimp only
    | with_reducible apply Only.next (modTim_only _ _)

theorem execPpsInEdge_only (rising : Bool) (s : State) : Answers [.pages, .fab, .tim, .srv, .lanes, .lsh, .del, .pci, .fwl, .pwr, .outbox] s (execPpsInEdge rising s) := by
  unfold execPpsInEdge
  repeat' first
    | (show within _ _ = true; rfl)
    | with_reducible exact Only.refl _ _
    | assumption
    | dsimp only
    | with_reducible refine Answers.next ?_
    | with_reducible apply Only.next (ppsLost_only _)
    | with_reducible apply Only.next (raise_only _ _ _ _)
    | with_reducible apply Only.next (bumpGen_only _ _)
    | with_reducible apply Only.next (applyTod_only _ _ _)
    | with_reducible apply Only.next (edgeOffset_only _ _)
    | with_reducible apply Only.next (ppsMeasure_only _ _)
    | with_reducible apply Only.next (modTim_only _ _)
    | with_reducible refine Only.ite ?_ ?_
    | with_reducible refine Only.ite_fst ?_ ?_
    | with_reducible refine Only.ite_snd ?_ ?_
    | with_reducible refine Answers.ite ?_ ?_

theorem execPpsLossTimer_only (s : State) : Answers [.pages, .fab, .tim, .srv, .del, .pci, .fwl, .outbox] s (execPpsLossTimer s) := by
  unfold execPpsLossTimer
  repeat' first
    | (show within _ _ = true; rfl)
    | with_reducible exact Only.refl _ _
    | assumption
    | dsimp only
    | with_reducible refine Answers.next ?_
    | with_reducible apply Only.next (ppsLost_only _)
    | with_reducible apply Only.next (modTim_only _ _)
    | with_reducible refine Only.ite ?_ ?_

theorem setPpsOut_only (b : Bool) (s : State) : Only [.tim, .outbox] s (setPpsOut b s) := by
  unfold setPpsOut
  repeat' first
    | (show within _ _ = true; rfl)
    | with_reducible exact Only.refl _ _
    | dsimp only
    | with_reducible apply Only.next (drive_only _ _)
    | with_reducible apply Only.next (modTim_only _ _)

theorem execPpsOutEdge_only (s : State) : Answers [.tim, .outbox] s (execPpsOutEdge s) := by
  unfold execPpsOutEdge
  repeat' first
    | (show within _ _ = true; rfl)
    | with_reducible exact Only.refl _ _
    | assumption
    | dsimp only
    | with_reducible refine Answers.next ?_
    | with_reducible apply Only.next (setPpsOut_only _ _)
    | with_reducible refine Only.ite ?_ ?_

theorem execPpsOutPulseEnd_only (s : State) : Answers [.tim, .outbox] s (execPpsOutPulseEnd s) := by
  unfold execPpsOutPulseEnd
  repeat' first
    | (show within _ _ = true; rfl)
    | with_reducible exact Only.refl _ _
    | assumption
    | dsimp only
    | with_reducible refine Answers.next ?_
    | with_reducible apply Only.next (setPpsOut_only _ _)
    | with_reducible refine Only.ite ?_ ?_

theorem startEpoch_only (n : Nat) (shift : Int) (s : State) : Only [.tim] s (startEpoch n shift s) := by
  unfold startEpoch
  repeat' first
    | (show within _ _ = true; rfl)
    | with_reducible exact Only.refl _ _
    | dsimp only
    | with_reducible apply Only.next (modTim_only _ _)

theorem epochTime_only (a : EpAnn) (s : State) : Only [.tim] s (epochTime a s) := by
  unfold epochTime
  repeat' first
    | (show within _ _ = true; rfl)
    | with_reducible exact Only.refl _ _
    | assumption
    | dsimp only
    | with_reducible apply Only.next (setClock_only _ _)
    | with_reducible apply Only.next (startEpoch_only _ _ _)
    | with_reducible apply Only.next (adoptFrom_only _ _ _)
    | with_reducible apply Only.next (modTim_only _ _)
    | with_reducible refine Only.ite ?_ ?_
    | split

theorem adoptTime_only (n : Nat) (s : State) : Only [.tim] s (adoptTime n s) := by
  unfold adoptTime
  repeat' first
    | (show within _ _ = true; rfl)
    | with_reducible exact Only.refl _ _
    | assumption
    | dsimp only
    | with_reducible apply Only.next (setClock_only _ _)
    | with_reducible apply Only.next (startEpoch_only _ _ _)
    | with_reducible apply Only.next (modTim_only _ _)


end Sys2Proof.Machine
end

