-- ==== Sys2Proof/Laws/FrameRings.lean ====
section
/-! SUPPORT. The frames of the operations of Machine/Rings.lean. -/

namespace Sys2Proof.Machine

theorem toReferee_only (sub term n : Nat) (s : State) : Only [.lanes] s (toReferee sub term n s) := by
  unfold toReferee
  repeat' first
    | (show within _ _ = true; rfl)
    | with_reducible exact Only.refl _ _
    | dsimp only
    | with_reducible apply Only.next (sendCtrl_only _ _)
    | with_reducible refine Only.ite ?_ ?_

theorem sourceLost_only (s : State) : Only [.pages, .fab, .srv, .del, .pci, .fwl, .outbox] s (sourceLost s) := by
  unfold sourceLost
  repeat' first
    | (show within _ _ = true; rfl)
    | with_reducible exact Only.refl _ _
    | dsimp only
    | with_reducible apply Only.next (toHoldover_only _)
    | with_reducible refine Only.ite ?_ ?_

theorem fence_only (term : Nat) (s : State) : Only [.pages, .fab, .srv, .lsh, .del, .pci, .fwl, .outbox] s (fence term s) := by
  unfold fence
  repeat' first
    | (show within _ _ = true; rfl)
    | with_reducible exact Only.refl _ _
    | assumption
    | dsimp only
    | with_reducible apply Only.next (bumpGen_only _ _)
    | with_reducible apply Only.next (sourceLost_only _)
    | with_reducible apply Only.next (raise_only _ _ _ _)
    | with_reducible apply Only.next (modLsh_only _ _)
    | with_reducible refine Only.ite ?_ ?_

theorem takeLeash_only (term : Nat) (s : State) : Only [.pages, .fab, .srv, .lanes, .lsh, .del, .pci, .fwl, .pwr, .outbox] s (takeLeash term s) := by
  unfold takeLeash
  repeat' first
    | (show within _ _ = true; rfl)
    | with_reducible exact Only.refl _ _
    | assumption
    | dsimp only
    | with_reducible apply Only.next (bumpGen_only _ _)
    | with_reducible apply Only.next (condEnd_only _ _ _ _)
    | with_reducible apply Only.next (raise_only _ _ _ _)
    | with_reducible apply Only.next (sendCtrlAll_only _ _ _)
    | with_reducible apply Only.next (becomeSource_only _)
    | with_reducible apply Only.next (modDel_only _ _)
    | with_reducible apply Only.next (modLsh_only _ _)
    | with_reducible apply Only.next (modSrv_only _ _)
    | with_reducible refine Only.ite ?_ ?_

theorem execRenewTimer_only (s : State) : Answers [.lanes, .lsh] s (execRenewTimer s) := by
  unfold execRenewTimer
  repeat' first
    | (show within _ _ = true; rfl)
    | with_reducible exact Only.refl _ _
    | assumption
    | dsimp only
    | with_reducible refine Answers.next ?_
    | with_reducible apply Only.next (toReferee_only _ _ _ _)
    | with_reducible apply Only.next (toPartner_only _ _ _ _)
    | with_reducible apply Only.next (modLsh_only _ _)
    | with_reducible refine Only.ite ?_ ?_
    | with_reducible refine Answers.ite ?_ ?_

theorem setPair_only (x : Nat × Nat × Nat × Nat) (s : State) : Only [.lsh] s (setPair x s) := by
  unfold setPair
  repeat' first
    | (show within _ _ = true; rfl)
    | with_reducible exact Only.refl _ _
    | dsimp only
    | with_reducible apply Only.next (modLsh_only _ _)

theorem noteReferee_only (x : Nat × Nat × Nat × Nat) (s : State) : Only [.lanes, .lsh] s (noteReferee x s) := by
  unfold noteReferee
  repeat' first
    | (show within _ _ = true; rfl)
    | with_reducible exact Only.refl _ _
    | dsimp only
    | with_reducible apply Only.next (journal_only _ _)
    | with_reducible apply Only.next (setPair_only _ _)

theorem seeRenewal_only (num : Nat) (s : State) : Only [.lsh] s (seeRenewal num s) := by
  unfold seeRenewal
  repeat' first
    | (show within _ _ = true; rfl)
    | with_reducible exact Only.refl _ _
    | assumption
    | dsimp only
    | with_reducible apply Only.next (modLsh_only _ _)

theorem standBy_only (s : State) : Only [.pages, .lsh] s (standBy s) := by
  unfold standBy
  repeat' first
    | (show within _ _ = true; rfl)
    | with_reducible exact Only.refl _ _
    | dsimp only
    | with_reducible apply Only.next (bumpGen_only _ _)
    | with_reducible apply Only.next (modLsh_only _ _)
    | with_reducible refine Only.ite ?_ ?_

theorem execRenewReceive_only (seg hub term num : Nat) (s : State) : Answers [.pages, .fab, .srv, .lanes, .lsh, .del, .pci, .fwl, .outbox] s (execRenewReceive seg hub term num s) := by
  unfold execRenewReceive
  repeat' first
    | (show within _ _ = true; rfl)
    | with_reducible exact Only.refl _ _
    | assumption
    | dsimp only
    | with_reducible refine Answers.next ?_
    | with_reducible apply Only.next (fence_only _ _)
    | with_reducible apply Only.next (toPartner_only _ _ _ _)
    | with_reducible apply Only.next (standBy_only _)
    | with_reducible apply Only.next (condEnd_only _ _ _ _)
    | with_reducible apply Only.next (seeRenewal_only _ _)
    | with_reducible apply Only.next (noteReferee_only _ _)
    | with_reducible apply Only.next (sendCtrl_only _ _)
    | with_reducible refine Only.ite ?_ ?_
    | with_reducible refine Only.ite_fst ?_ ?_
    | with_reducible refine Only.ite_snd ?_ ?_
    | with_reducible refine Answers.ite ?_ ?_

theorem countRenewal_only (num : Nat) (s : State) : Only [.lsh] s (countRenewal num s) := by
  unfold countRenewal
  repeat' first
    | (show within _ _ = true; rfl)
    | with_reducible exact Only.refl _ _
    | assumption
    | dsimp only
    | with_reducible apply Only.next (modLsh_only _ _)
    | split

theorem refAnswered_only (s : State) : Only [.lsh] s (refAnswered s) := by
  unfold refAnswered
  repeat' first
    | (show within _ _ = true; rfl)
    | with_reducible exact Only.refl _ _
    | dsimp only
    | with_reducible apply Only.next (modLsh_only _ _)

theorem execRenewAckReceive_only (a : RenewAck) (s : State) : Answers [.lsh] s (execRenewAckReceive a s) := by
  unfold execRenewAckReceive
  repeat' first
    | (show within _ _ = true; rfl)
    | with_reducible exact Only.refl _ _
    | assumption
    | dsimp only
    | with_reducible refine Answers.next ?_
    | with_reducible apply Only.next (countRenewal_only _ _)
    | with_reducible apply Only.next (refAnswered_only _)
    | with_reducible refine Only.ite ?_ ?_

theorem leaseExpires_only (s : State) : Only [.pages, .fab, .srv, .lsh, .del, .pci, .fwl, .outbox] s (leaseExpires s) := by
  unfold leaseExpires
  repeat' first
    | (show within _ _ = true; rfl)
    | with_reducible exact Only.refl _ _
    | assumption
    | dsimp only
    | with_reducible apply Only.next (bumpGen_only _ _)
    | with_reducible apply Only.next (raise_only _ _ _ _)
    | with_reducible apply Only.next (sourceLost_only _)
    | with_reducible apply Only.next (modLsh_only _ _)
    | with_reducible refine Only.ite ?_ ?_

theorem requestLeash_only (s : State) : Only [.pages, .fab, .lanes, .lsh, .del, .pci, .fwl, .outbox] s (requestLeash s) := by
  unfold requestLeash
  repeat' first
    | (show within _ _ = true; rfl)
    | with_reducible exact Only.refl _ _
    | assumption
    | dsimp only
    | with_reducible apply Only.next (raise_only _ _ _ _)
    | with_reducible apply Only.next (condStart_only _ _ _ _)
    | with_reducible apply Only.next (toReferee_only _ _ _ _)
    | with_reducible apply Only.next (modLsh_only _ _)
    | with_reducible refine Only.ite ?_ ?_

theorem execGrantReqTimer_only (s : State) : Answers [.pages, .fab, .lanes, .lsh, .del, .pci, .fwl, .outbox] s (execGrantReqTimer s) := by
  unfold execGrantReqTimer
  repeat' first
    | (show within _ _ = true; rfl)
    | with_reducible exact Only.refl _ _
    | assumption
    | dsimp only
    | with_reducible refine Answers.next ?_
    | with_reducible apply Only.next (requestLeash_only _)
    | with_reducible refine Only.ite ?_ ?_

theorem execLeashInitialRequest_only (s : State) : Answers [.pages, .fab, .lanes, .lsh, .del, .pci, .fwl, .outbox] s (execLeashInitialRequest s) := by
  unfold execLeashInitialRequest
  repeat' first
    | (show within _ _ = true; rfl)
    | with_reducible exact Only.refl _ _
    | assumption
    | dsimp only
    | with_reducible refine Answers.next ?_
    | with_reducible apply Only.next (requestLeash_only _)
    | with_reducible apply Only.next (bumpGen_only _ _)
    | with_reducible apply Only.next (modLsh_only _ _)
    | with_reducible refine Only.ite ?_ ?_

theorem grant_only (seg hub : Nat) (s : State) : Only [.lanes, .lsh] s (grant seg hub s) := by
  unfold grant
  repeat' first
    | (show within _ _ = true; rfl)
    | with_reducible exact Only.refl _ _
    | assumption
    | dsimp only
    | with_reducible apply Only.next (noteReferee_only _ _)
    | with_reducible apply Only.next (sendCtrl_only _ _)
    | with_reducible apply Only.next (modLsh_only _ _)

theorem execGrantReqReceive_only (seg hub : Nat) (s : State) : Answers [.lanes, .lsh] s (execGrantReqReceive seg hub s) := by
  unfold execGrantReqReceive
  repeat' first
    | (show within _ _ = true; rfl)
    | with_reducible exact Only.refl _ _
    | assumption
    | dsimp only
    | with_reducible refine Answers.next ?_
    | with_reducible apply Only.next (grant_only _ _ _)
    | with_reducible apply Only.next (modLsh_only _ _)
    | with_reducible refine Only.ite ?_ ?_
    | with_reducible refine Only.ite_fst ?_ ?_
    | with_reducible refine Only.ite_snd ?_ ?_
    | with_reducible refine Answers.ite ?_ ?_

theorem execGrantReqHoldExpiry_only (seg : Nat) (s : State) : Answers [.lanes, .lsh] s (execGrantReqHoldExpiry seg s) := by
  unfold execGrantReqHoldExpiry
  repeat' first
    | (show within _ _ = true; rfl)
    | with_reducible exact Only.refl _ _
    | assumption
    | dsimp only
    | with_reducible refine Answers.next ?_
    | with_reducible apply Only.next (grant_only _ _ _)
    | with_reducible apply Only.next (sendCtrl_only _ _)
    | with_reducible apply Only.next (modLsh_only _ _)
    | with_reducible refine Only.ite ?_ ?_
    | with_reducible refine Only.ite_fst ?_ ?_
    | with_reducible refine Only.ite_snd ?_ ?_
    | with_reducible refine Answers.ite ?_ ?_
    | split

theorem execGrantReceive_only (term : Nat) (s : State) : Answers [.pages, .fab, .srv, .lanes, .lsh, .del, .pci, .fwl, .pwr, .outbox] s (execGrantReceive term s) := by
  unfold execGrantReceive
  repeat' first
    | (show within _ _ = true; rfl)
    | with_reducible exact Only.refl _ _
    | assumption
    | dsimp only
    | with_reducible refine Answers.next ?_
    | with_reducible apply Only.next (takeLeash_only _ _)
    | with_reducible apply Only.next (refAnswered_only _)
    | with_reducible refine Only.ite ?_ ?_

theorem execRefuseReceive_only (s : State) : Answers [.pages, .fab, .lsh, .del, .pci, .fwl, .outbox] s (execRefuseReceive s) := by
  unfold execRefuseReceive
  repeat' first
    | (show within _ _ = true; rfl)
    | with_reducible exact Only.refl _ _
    | assumption
    | dsimp only
    | with_reducible refine Answers.next ?_
    | with_reducible apply Only.next (raise_only _ _ _ _)
    | with_reducible apply Only.next (refAnswered_only _)
    | with_reducible apply Only.next (modLsh_only _ _)
    | with_reducible refine Only.ite ?_ ?_

theorem execRefAckWrite_only (r : Req) (v : Word) (s : State) : Answers [.fab, .lsh] s (execRefAckWrite r v s) := by
  unfold execRefAckWrite
  repeat' first
    | (show within _ _ = true; rfl)
    | with_reducible exact Only.refl _ _
    | assumption
    | dsimp only
    | with_reducible refine Answers.next ?_
    | with_reducible apply gated_then
    | with_reducible apply Only.next (refAnswered_only _)
    | with_reducible apply Only.next (countRenewal_only _ _)
    | with_reducible refine Only.ite ?_ ?_
    | with_reducible refine Answers.ite ?_ ?_
    | split
    | intro _

theorem execRefGrantWrite_only (r : Req) (v : Word) (s : State) : Answers [.pages, .fab, .srv, .lanes, .lsh, .del, .pci, .fwl, .pwr, .outbox] s (execRefGrantWrite r v s) := by
  unfold execRefGrantWrite
  repeat' first
    | (show within _ _ = true; rfl)
    | with_reducible exact Only.refl _ _
    | assumption
    | dsimp only
    | with_reducible refine Answers.next ?_
    | with_reducible apply gated_then
    | with_reducible apply Only.next (takeLeash_only _ _)
    | with_reducible apply Only.next (refAnswered_only _)
    | with_reducible refine Only.ite ?_ ?_
    | with_reducible refine Answers.ite ?_ ?_
    | split
    | intro _

theorem execHandoff_only (r : Req) (s : State) : Answers [.fab, .lsh] s (execHandoff r s) := by
  unfold execHandoff
  repeat' first
    | (show within _ _ = true; rfl)
    | with_reducible exact Only.refl _ _
    | assumption
    | dsimp only
    | with_reducible refine Answers.next ?_
    | with_reducible apply gated_then
    | with_reducible apply Only.next (modLsh_only _ _)
    | with_reducible refine Only.ite ?_ ?_
    | with_reducible refine Answers.ite ?_ ?_
    | split
    | intro _

theorem execHandoffProceed_only (s : State) : Answers [.pages, .fab, .srv, .lanes, .lsh, .del, .pci, .fwl, .outbox] s (execHandoffProceed s) := by
  unfold execHandoffProceed
  repeat' first
    | (show within _ _ = true; rfl)
    | with_reducible exact Only.refl _ _
    | assumption
    | dsimp only
    | with_reducible refine Answers.next ?_
    | with_reducible apply Only.next (bumpGen_only _ _)
    | with_reducible apply Only.next (sourceLost_only _)
    | with_reducible apply Only.next (sendCtrlAll_only _ _ _)
    | with_reducible apply Only.next (sendCtrl_only _ _)
    | with_reducible apply Only.next (modLsh_only _ _)
    | with_reducible refine Only.ite ?_ ?_
    | with_reducible refine Answers.ite ?_ ?_

theorem execHandoffTimeout_only (s : State) : Answers [.pages, .fab, .lanes, .lsh, .del, .pci, .fwl, .outbox] s (execHandoffTimeout s) := by
  unfold execHandoffTimeout
  repeat' first
    | (show within _ _ = true; rfl)
    | with_reducible exact Only.refl _ _
    | assumption
    | dsimp only
    | with_reducible refine Answers.next ?_
    | with_reducible apply Only.next (journal_only _ _)
    | with_reducible apply Only.next (raise_only _ _ _ _)
    | with_reducible apply Only.next (modLsh_only _ _)
    | with_reducible refine Only.ite ?_ ?_

theorem execYieldReceive_only (seg hub term jnum : Nat) (s : State) : Answers [.lanes, .lsh] s (execYieldReceive seg hub term jnum s) := by
  unfold execYieldReceive
  repeat' first
    | (show within _ _ = true; rfl)
    | with_reducible exact Only.refl _ _
    | assumption
    | dsimp only
    | with_reducible refine Answers.next ?_
    | with_reducible apply Only.next (grant_only _ _ _)
    | with_reducible apply Only.next (setPair_only _ _)
    | with_reducible apply Only.next (modLsh_only _ _)
    | with_reducible refine Only.ite ?_ ?_
    | with_reducible refine Only.ite_fst ?_ ?_
    | with_reducible refine Only.ite_snd ?_ ?_
    | with_reducible refine Answers.ite ?_ ?_

theorem modIn_only (dev con : Nat) (f : MIn → MIn) (s : State) : Only [.del] s (modIn dev con f s) := by
  unfold modIn
  repeat' first
    | (show within _ _ = true; rfl)
    | with_reducible exact Only.refl _ _
    | dsimp only
    | with_reducible apply Only.next (modDel_only _ _)

theorem installCon_only (id : Nat) (c : Contract) (start : Nat) (stop : Option Nat) (s : State) : Only [.pages, .del] s (installCon id c start stop s) := by
  unfold installCon
  repeat' first
    | (show within _ _ = true; rfl)
    | with_reducible exact Only.refl _ _
    | assumption
    | dsimp only
    | with_reducible apply Only.next (bumpGen_only _ _)
    | with_reducible apply Only.next (modCon_only _ _ _)
    | with_reducible refine Only.ite ?_ ?_
    | with_reducible apply Only.id_then
    | split

theorem applyEntry_only (e : JEntry) (s : State) : Only [.pages, .rf, .fab, .pln, .tim, .lanes, .lsh, .del, .pci, .fwl, .outbox] s (applyEntry e s) := by
  unfold applyEntry
  repeat' first
    | (show within _ _ = true; rfl)
    | with_reducible exact Only.refl _ _
    | assumption
    | dsimp only
    | with_reducible apply Only.next (installCon_only _ _ _ _ _)
    | with_reducible apply Only.next (bumpGen_only _ _)
    | with_reducible apply Only.next (modCon_only _ _ _)
    | with_reducible apply Only.next (modIn_only _ _ _ _)
    | with_reducible apply Only.next (announce_only _ _ _)
    | with_reducible apply Only.next (holdAnn_only _ _)
    | with_reducible apply Only.next (rfPut_only _ _ _)
    | with_reducible apply Only.next (setPair_only _ _)
    | with_reducible apply Only.next (raise_only _ _ _ _)
    | with_reducible apply Only.next (modDel_only _ _)
    | with_reducible apply Only.next (modLsh_only _ _)
    | with_reducible apply Only.next (modPln_only _ _)
    | with_reducible apply Only.id_then
    | split

theorem takeEntry_only (term num : Nat) (e : JEntry) (s : State) : Only [.pages, .rf, .fab, .pln, .tim, .lanes, .lsh, .del, .pci, .fwl, .outbox] s (takeEntry term num e s) := by
  unfold takeEntry
  repeat' first
    | (show within _ _ = true; rfl)
    | with_reducible exact Only.refl _ _
    | dsimp only
    | with_reducible apply Only.next (toPartner_only _ _ _ _)
    | with_reducible apply Only.next (applyEntry_only _ _)
    | with_reducible apply Only.next (modLsh_only _ _)

theorem askResync_only (s : State) : Only [.pages, .lanes, .lsh] s (askResync s) := by
  unfold askResync
  repeat' first
    | (show within _ _ = true; rfl)
    | with_reducible exact Only.refl _ _
    | dsimp only
    | with_reducible apply Only.next (toPartner_only _ _ _ _)
    | with_reducible apply Only.next (bumpGen_only _ _)
    | with_reducible apply Only.next (modLsh_only _ _)

theorem resyncEntry_only (term num : Nat) (e : JEntry) (s : State) : Only [.pages, .rf, .fab, .pln, .tim, .lanes, .lsh, .del, .pci, .fwl, .outbox] s (resyncEntry term num e s) := by
  unfold resyncEntry
  repeat' first
    | (show within _ _ = true; rfl)
    | with_reducible exact Only.refl _ _
    | assumption
    | dsimp only
    | with_reducible apply Only.next (takeEntry_only _ _ _ _)
    | with_reducible apply Only.next (raise_only _ _ _ _)
    | with_reducible apply Only.next (bumpGen_only _ _)
    | with_reducible apply Only.next (toPartner_only _ _ _ _)
    | with_reducible apply Only.next (askResync_only _)
    | with_reducible apply Only.next (modLsh_only _ _)
    | with_reducible refine Only.ite ?_ ?_

theorem execJournalReceive_only (term num : Nat) (e : JEntry) (s : State) : Answers [.pages, .rf, .fab, .pln, .tim, .srv, .lanes, .lsh, .del, .pci, .fwl, .outbox] s (execJournalReceive term num e s) := by
  unfold execJournalReceive
  repeat' first
    | (show within _ _ = true; rfl)
    | with_reducible exact Only.refl _ _
    | assumption
    | dsimp only
    | with_reducible refine Answers.next ?_
    | with_reducible apply Only.next (fence_only _ _)
    | with_reducible apply Only.next (resyncEntry_only _ _ _ _)
    | with_reducible apply Only.next (askResync_only _)
    | with_reducible apply Only.next (takeEntry_only _ _ _ _)
    | with_reducible apply Only.next (toPartner_only _ _ _ _)
    | with_reducible refine Only.ite ?_ ?_
    | with_reducible refine Answers.ite ?_ ?_

theorem execJournalAckReceive_only (num : Nat) (s : State) : Answers [.lsh] s (execJournalAckReceive num s) := by
  unfold execJournalAckReceive
  repeat' first
    | (show within _ _ = true; rfl)
    | with_reducible exact Only.refl _ _
    | assumption
    | dsimp only
    | with_reducible refine Answers.next ?_
    | with_reducible apply Only.next (modLsh_only _ _)

theorem execResyncReqReceive_only (s : State) : Answers [.lanes, .lsh] s (execResyncReqReceive s) := by
  unfold execResyncReqReceive
  repeat' first
    | (show within _ _ = true; rfl)
    | with_reducible exact Only.refl _ _
    | assumption
    | dsimp only
    | with_reducible refine Answers.next ?_
    | with_reducible apply Only.next (journal_only _ _)
    | with_reducible apply Only.foldl_then
    | with_reducible refine Only.ite ?_ ?_
    | with_reducible refine Answers.ite ?_ ?_
    | split
    | intro _

theorem rejoining_only (s : State) : Only [.lsh] s (rejoining s) := by
  unfold rejoining
  repeat' first
    | (show within _ _ = true; rfl)
    | with_reducible exact Only.refl _ _
    | dsimp only
    | with_reducible apply Only.next (modLsh_only _ _)
    | with_reducible refine Only.ite ?_ ?_

theorem execHopRestoreTimer_only (ring : Fin 16) (hop : Nat) (s : State) : Answers [.pages, .fab, .lanes, .lsh, .del, .pci, .fwl, .outbox] s (execHopRestoreTimer ring hop s) := by
  unfold execHopRestoreTimer
  repeat' first
    | (show within _ _ = true; rfl)
    | with_reducible exact Only.refl _ _
    | assumption
    | dsimp only
    | with_reducible refine Answers.next ?_
    | with_reducible apply Only.next (rejoining_only _)
    | with_reducible apply Only.next (hopRestored_only _ _ _)
    | with_reducible apply Only.next (sendCtrlAll_only _ _ _)
    | with_reducible refine Only.ite ?_ ?_
    | with_reducible refine Answers.ite ?_ ?_
    | split

theorem execBreakReceive_only (p : Port) (ring : Fin 16) (hop : Nat) (s : State) : Answers [.pages, .fab, .lanes, .lsh, .del, .pci, .fwl, .outbox] s (execBreakReceive p ring hop s) := by
  unfold execBreakReceive
  repeat' first
    | (show within _ _ = true; rfl)
    | with_reducible exact Only.refl _ _
    | assumption
    | dsimp only
    | with_reducible refine Answers.next ?_
    | with_reducible apply Only.next (hopBroken_only _ _ _)
    | with_reducible apply Only.next (sendCtrlAll_only _ _ _)

theorem execRestoreReceive_only (p : Port) (ring : Fin 16) (hop : Nat) (s : State) : Answers [.pages, .fab, .lanes, .lsh, .del, .pci, .fwl, .outbox] s (execRestoreReceive p ring hop s) := by
  unfold execRestoreReceive
  repeat' first
    | (show within _ _ = true; rfl)
    | with_reducible exact Only.refl _ _
    | assumption
    | dsimp only
    | with_reducible refine Answers.next ?_
    | with_reducible apply Only.next (rejoining_only _)
    | with_reducible apply Only.next (hopRestored_only _ _ _)
    | with_reducible apply Only.next (sendCtrlAll_only _ _ _)

theorem noteService_only (s : State) : Only [.lanes, .lsh] s (noteService s) := by
  unfold noteService
  repeat' first
    | (show within _ _ = true; rfl)
    | with_reducible exact Only.refl _ _
    | dsimp only
    | with_reducible apply Only.next (journal_only _ _)

theorem execRemove_only (r : Req) (s : State) : Answers [.fab, .lanes, .lsh] s (execRemove r s) := by
  unfold execRemove
  repeat' first
    | (show within _ _ = true; rfl)
    | with_reducible exact Only.refl _ _
    | assumption
    | dsimp only
    | with_reducible refine Answers.next ?_
    | with_reducible apply gated_then
    | with_reducible apply Only.next (noteService_only _)
    | with_reducible apply Only.next (sendCtrl_only _ _)
    | with_reducible apply Only.next (modLsh_only _ _)
    | with_reducible refine Only.ite ?_ ?_
    | with_reducible refine Answers.ite ?_ ?_
    | split
    | intro _

theorem execRemoveCancel_only (r : Req) (s : State) : Answers [.fab, .lanes, .lsh] s (execRemoveCancel r s) := by
  unfold execRemoveCancel
  repeat' first
    | (show within _ _ = true; rfl)
    | with_reducible exact Only.refl _ _
    | assumption
    | dsimp only
    | with_reducible refine Answers.next ?_
    | with_reducible apply gated_then
    | with_reducible apply Only.next (noteService_only _)
    | with_reducible apply Only.next (sendCtrl_only _ _)
    | with_reducible apply Only.next (modLsh_only _ _)
    | with_reducible refine Only.ite ?_ ?_
    | with_reducible refine Answers.ite ?_ ?_
    | split
    | intro _

theorem execRemovalDrained_only (s : State) : Answers [.pages, .fab, .lanes, .lsh, .del, .pci, .fwl, .outbox] s (execRemovalDrained s) := by
  unfold execRemovalDrained
  repeat' first
    | (show within _ _ = true; rfl)
    | with_reducible exact Only.refl _ _
    | assumption
    | dsimp only
    | with_reducible refine Answers.next ?_
    | with_reducible apply Only.next (raise_only _ _ _ _)
    | with_reducible apply Only.next (hopBroken_only _ _ _)
    | with_reducible apply Only.next (sendCtrlAll_only _ _ _)
    | with_reducible apply Only.next (sendCtrl_only _ _)
    | with_reducible apply Only.next (noteService_only _)
    | with_reducible apply Only.next (bumpGen_only _ _)
    | with_reducible apply Only.next (modLsh_only _ _)
    | with_reducible refine Only.ite ?_ ?_
    | with_reducible refine Answers.ite ?_ ?_
    | split

theorem execSvcReceive_only (op : SvcOp) (s : State) : Answers [.pages, .fab, .lanes, .lsh, .del, .pci, .fwl, .outbox] s (execSvcReceive op s) := by
  unfold execSvcReceive
  repeat' first
    | (show within _ _ = true; rfl)
    | with_reducible exact Only.refl _ _
    | assumption
    | dsimp only
    | with_reducible refine Answers.next ?_
    | with_reducible apply Only.next (goIdle_only _ _)
    | with_reducible apply Only.next (modLsh_only _ _)
    | with_reducible apply Only.foldl_then
    | with_reducible refine Only.ite ?_ ?_
    | with_reducible refine Answers.ite ?_ ?_
    | split
    | intro _

theorem execRemovalRejoin_only (s : State) : Answers [.pages, .fab, .srv, .lanes, .lsh, .del, .pci, .fwl, .outbox] s (execRemovalRejoin s) := by
  unfold execRemovalRejoin
  repeat' first
    | (show within _ _ = true; rfl)
    | with_reducible exact Only.refl _ _
    | assumption
    | dsimp only
    | with_reducible refine Answers.next ?_
    | with_reducible apply Only.next (modClos_only _ _ _)
    | with_reducible apply Only.next (noteService_only _)
    | with_reducible apply Only.next (raise_only _ _ _ _)
    | with_reducible apply Only.next (modDel_only _ _)
    | with_reducible apply Only.next (modLsh_only _ _)
    | with_reducible refine Only.ite ?_ ?_
    | with_reducible refine Answers.ite ?_ ?_
    | split

theorem execRemovalCancelReturn_only (s : State) : Answers [.lsh] s (execRemovalCancelReturn s) := by
  unfold execRemovalCancelReturn
  repeat' first
    | (show within _ _ = true; rfl)
    | with_reducible exact Only.refl _ _
    | assumption
    | dsimp only
    | with_reducible refine Answers.next ?_
    | with_reducible apply Only.next (modLsh_only _ _)


end Sys2Proof.Machine
end

