-- ==== Sys2Proof/Laws/FrameQueues.lean ====
section
/-! SUPPORT. The frames of the operations of Machine/Queues.lean. -/

namespace Sys2Proof.Machine

theorem answer_only (r : Req) (addr : Nat) (w : Word) (s : State) : Only [.outbox] s (answer r addr w s) := by
  unfold answer
  repeat' first
    | (show within _ _ = true; rfl)
    | with_reducible exact Only.refl _ _
    | dsimp only
    | with_reducible apply Only.next (drive_only _ _)

theorem setShadow_only (r : Req) (p : Nat) (words : List (Nat × Word)) (s : State) : Only [.fab] s (setShadow r p words s) := by
  unfold setShadow
  repeat' first
    | (show within _ _ = true; rfl)
    | with_reducible exact Only.refl _ _
    | dsimp only
    | with_reducible apply Only.next (modFab_only _ _)

theorem handOver_only (dev con endSeq : Nat) (s : State) : Only [.del] s (handOver dev con endSeq s) := by
  unfold handOver
  repeat' first
    | (show within _ _ = true; rfl)
    | with_reducible exact Only.refl _ _
    | dsimp only
    | with_reducible apply Only.next (modIn_only _ _ _ _)
    | with_reducible refine Only.ite ?_ ?_

theorem queAlert_only (q reasons : Nat) (s : State) : Only [.pages, .fab, .del, .pci, .fwl, .outbox] s (queAlert q reasons s) := by
  unfold queAlert
  repeat' first
    | (show within _ _ = true; rfl)
    | with_reducible exact Only.refl _ _
    | dsimp only
    | with_reducible apply Only.next (raise_only _ _ _ _)

theorem wmCross_only (q : Nat) (s : State) : Only [.pages, .fab, .del, .ques, .pci, .fwl, .outbox] s (wmCross q s) := by
  unfold wmCross
  repeat' first
    | (show within _ _ = true; rfl)
    | with_reducible exact Only.refl _ _
    | assumption
    | dsimp only
    | with_reducible apply Only.next (modQue_only _ _ _)
    | with_reducible apply Only.next (queAlert_only _ _ _)
    | with_reducible apply Only.next (bumpGen_only _ _)
    | with_reducible refine Only.ite ?_ ?_

theorem noticeCheck_only (q : Nat) (s : State) : Only [.pages, .fab, .del, .ques, .pci, .fwl, .outbox] s (noticeCheck q s) := by
  unfold noticeCheck
  repeat' first
    | (show within _ _ = true; rfl)
    | with_reducible exact Only.refl _ _
    | assumption
    | dsimp only
    | with_reducible apply Only.next (raise_only _ _ _ _)
    | with_reducible apply Only.next (modQue_only _ _ _)
    | with_reducible refine Only.ite ?_ ?_

theorem commitPkt_only (q : Nat) (ws : List W128) (s : State) : Only [.pages, .fab, .del, .ques, .pci, .fwl, .outbox] s (commitPkt q ws s) := by
  unfold commitPkt
  repeat' first
    | (show within _ _ = true; rfl)
    | with_reducible exact Only.refl _ _
    | assumption
    | dsimp only
    | with_reducible apply Only.next (modQue_only _ _ _)
    | with_reducible apply Only.next (wmCross_only _ _)
    | with_reducible apply Only.next (noticeCheck_only _ _)
    | with_reducible refine Only.ite ?_ ?_

theorem rewindItem_only (q : Nat) (s : State) : Only [.ques] s (rewindItem q s) := by
  unfold rewindItem
  repeat' first
    | (show within _ _ = true; rfl)
    | with_reducible exact Only.refl _ _
    | dsimp only
    | with_reducible apply Only.next (modQue_only _ _ _)

theorem putWord_only (q : Nat) (w : W128) (last bad : Bool) (s : State) : Only [.pages, .fab, .del, .ques, .pci, .fwl, .outbox] s (putWord q w last bad s).1 := by
  unfold putWord
  repeat' first
    | (show within _ _ = true; rfl)
    | with_reducible exact Only.refl _ _
    | assumption
    | dsimp only
    | with_reducible apply Only.next (modQue_only _ _ _)
    | with_reducible apply Only.next (raise_only _ _ _ _)
    | with_reducible apply Only.next (rewindItem_only _ _)
    | with_reducible apply Only.next (queAlert_only _ _ _)
    | with_reducible apply Only.next (commitPkt_only _ _ _)
    | with_reducible refine Only.ite ?_ ?_
    | with_reducible refine Only.ite_fst ?_ ?_

theorem execQueueWordWrite_only (q : QNum) (w : W128) (last bad : Bool) (s : State) : Answers [.pages, .fab, .del, .ques, .pci, .fwl, .outbox] s (execQueueWordWrite q w last bad s) := by
  unfold execQueueWordWrite
  repeat' first
    | (show within _ _ = true; rfl)
    | with_reducible exact Only.refl _ _
    | assumption
    | dsimp only
    | with_reducible refine Answers.next ?_
    | with_reducible apply Only.next (putWord_only _ _ _ _ _)
    | with_reducible refine Only.ite ?_ ?_

theorem putItem_only (q : Nat) (ws : List W128) (s : State) : Only [.pages, .fab, .del, .ques, .pci, .fwl, .outbox] s (putItem q ws s).1 := by
  unfold putItem
  repeat' first
    | (show within _ _ = true; rfl)
    | with_reducible exact Only.refl _ _
    | assumption
    | dsimp only
    | with_reducible apply Only.next (commitPkt_only _ _ _)
    | with_reducible refine Only.ite ?_ ?_
    | with_reducible refine Only.ite_fst ?_ ?_

theorem execQueueNoticeTimer_only (q : QNum) (s : State) : Answers [.pages, .fab, .del, .ques, .pci, .fwl, .outbox] s (execQueueNoticeTimer q s) := by
  unfold execQueueNoticeTimer
  repeat' first
    | (show within _ _ = true; rfl)
    | with_reducible exact Only.refl _ _
    | assumption
    | dsimp only
    | with_reducible refine Answers.next ?_
    | with_reducible apply Only.next (raise_only _ _ _ _)
    | with_reducible apply Only.next (modQue_only _ _ _)
    | with_reducible refine Only.ite ?_ ?_

theorem wstat_only (q : Nat) (dropped noitem owner full : Bool) (s : State) : Only [.ques] s (wstat q dropped noitem owner full s) := by
  unfold wstat
  repeat' first
    | (show within _ _ = true; rfl)
    | with_reducible exact Only.refl _ _
    | dsimp only
    | with_reducible apply Only.next (modQue_only _ _ _)

theorem execQueueAppend_only (r : Req) (v : Word) (s : State) : Answers [.pages, .fab, .del, .ques, .pci, .fwl, .bst, .outbox] s (execQueueAppend r v s) := by
  unfold execQueueAppend
  repeat' first
    | (show within _ _ = true; rfl)
    | with_reducible exact Only.refl _ _
    | assumption
    | dsimp only
    | with_reducible refine Answers.next ?_
    | with_reducible apply gatedMerger_then
    | with_reducible apply Only.next (modQue_only _ _ _)
    | with_reducible apply Only.next (wstat_only _ _ _ _ _ _)
    | with_reducible apply Only.next (queAlert_only _ _ _)
    | with_reducible apply Only.next (rewindItem_only _ _)
    | with_reducible refine Only.ite ?_ ?_
    | with_reducible refine Answers.ite ?_ ?_
    | split
    | intro _

theorem execQueueWcommit_only (r : Req) (s : State) : Answers [.pages, .fab, .del, .ques, .pci, .fwl, .bst, .outbox] s (execQueueWcommit r s) := by
  unfold execQueueWcommit
  repeat' first
    | (show within _ _ = true; rfl)
    | with_reducible exact Only.refl _ _
    | assumption
    | dsimp only
    | with_reducible refine Answers.next ?_
    | with_reducible apply gatedMerger_then
    | with_reducible apply Only.next (wstat_only _ _ _ _ _ _)
    | with_reducible apply Only.next (modQue_only _ _ _)
    | with_reducible apply Only.next (commitPkt_only _ _ _)
    | with_reducible refine Only.ite ?_ ?_
    | with_reducible refine Answers.ite ?_ ?_
    | split
    | intro _

theorem execQueueWrewind_only (r : Req) (s : State) : Answers [.pages, .fab, .del, .ques, .pci, .fwl, .bst, .outbox] s (execQueueWrewind r s) := by
  unfold execQueueWrewind
  repeat' first
    | (show within _ _ = true; rfl)
    | with_reducible exact Only.refl _ _
    | assumption
    | dsimp only
    | with_reducible refine Answers.next ?_
    | with_reducible apply gatedMerger_then
    | with_reducible apply Only.next (wstat_only _ _ _ _ _ _)
    | with_reducible apply Only.next (modQue_only _ _ _)
    | with_reducible apply Only.next (rewindItem_only _ _)
    | with_reducible refine Only.ite ?_ ?_
    | with_reducible refine Answers.ite ?_ ?_
    | split
    | intro _

theorem queueRead_only (r : Req) (s : State) : Only [.pages, .fab, .del, .ques, .pci, .fwl, .outbox] s (queueRead r s).2 := by
  unfold queueRead
  repeat' first
    | (show within _ _ = true; rfl)
    | with_reducible exact Only.refl _ _
    | assumption
    | dsimp only
    | with_reducible apply Only.next (setShadow_only _ _ _ _)
    | with_reducible apply Only.next (modQue_only _ _ _)
    | with_reducible apply Only.next (raiseOnce_only _ _ _ _ _)
    | with_reducible refine Only.ite ?_ ?_
    | with_reducible refine Only.ite_fst ?_ ?_
    | with_reducible refine Only.ite_snd ?_ ?_
    | split

theorem execQueueRead_only (r : Req) (s : State) : Answers [.pages, .fab, .del, .ques, .pci, .fwl, .bst, .outbox] s (execQueueRead r s) := by
  unfold execQueueRead
  repeat' first
    | (show within _ _ = true; rfl)
    | with_reducible exact Only.refl _ _
    | assumption
    | dsimp only
    | with_reducible refine Answers.next ?_
    | with_reducible apply Only.next (queueRead_only _ _)
    | with_reducible apply Only.next (serveMerger_only _)
    | with_reducible apply Only.next (answer_only _ _ _ _)

theorem execQueueFlush_only (r : Req) (s : State) : Answers [.pages, .fab, .del, .ques, .pci, .fwl, .bst, .outbox] s (execQueueFlush r s) := by
  unfold execQueueFlush
  repeat' first
    | (show within _ _ = true; rfl)
    | with_reducible exact Only.refl _ _
    | assumption
    | dsimp only
    | with_reducible refine Answers.next ?_
    | with_reducible apply gatedMerger_then
    | with_reducible apply Only.next (modQue_only _ _ _)
    | intro _

theorem execWmLatchClear_only (r : Req) (v : Word) (s : State) : Answers [.pages, .fab, .del, .ques, .pci, .fwl, .bst, .outbox] s (execWmLatchClear r v s) := by
  unfold execWmLatchClear
  repeat' first
    | (show within _ _ = true; rfl)
    | with_reducible exact Only.refl _ _
    | assumption
    | dsimp only
    | with_reducible refine Answers.next ?_
    | with_reducible apply gatedMerger_then
    | with_reducible apply Only.next (wrote_only _ _ _)
    | with_reducible apply Only.next (modQue_only _ _ _)
    | with_reducible apply Only.next (bumpGen_only _ _)
    | with_reducible apply Only.next (wmCross_only _ _)
    | with_reducible refine Only.ite ?_ ?_
    | with_reducible refine Answers.ite ?_ ?_
    | split
    | intro _

theorem execWmHwmWrite_only (r : Req) (v : Word) (s : State) : Answers [.pages, .fab, .del, .ques, .pci, .fwl, .bst, .outbox] s (execWmHwmWrite r v s) := by
  unfold execWmHwmWrite
  repeat' first
    | (show within _ _ = true; rfl)
    | with_reducible exact Only.refl _ _
    | assumption
    | dsimp only
    | with_reducible refine Answers.next ?_
    | with_reducible apply gatedMerger_then
    | with_reducible apply Only.next (modQue_only _ _ _)
    | with_reducible apply Only.next (wmCross_only _ _)
    | with_reducible refine Only.ite ?_ ?_
    | with_reducible refine Answers.ite ?_ ?_
    | split
    | intro _

theorem execQsizeWrite_only (r : Req) (v : Word) (s : State) : Answers [.pages, .fab, .del, .ques, .pci, .fwl, .bst, .outbox] s (execQsizeWrite r v s) := by
  unfold execQsizeWrite
  repeat' first
    | (show within _ _ = true; rfl)
    | with_reducible exact Only.refl _ _
    | assumption
    | dsimp only
    | with_reducible refine Answers.next ?_
    | with_reducible apply gatedMerger_then
    | with_reducible apply Only.next (modQue_only _ _ _)
    | with_reducible apply Only.next (bumpGen_only _ _)
    | with_reducible refine Only.ite ?_ ?_
    | with_reducible refine Answers.ite ?_ ?_
    | split
    | intro _

theorem execQcfgWrite_only (r : Req) (v : Word) (s : State) : Answers [.pages, .fab, .del, .ques, .pci, .fwl, .bst, .outbox] s (execQcfgWrite r v s) := by
  unfold execQcfgWrite
  repeat' first
    | (show within _ _ = true; rfl)
    | with_reducible exact Only.refl _ _
    | assumption
    | dsimp only
    | with_reducible refine Answers.next ?_
    | with_reducible apply gatedMerger_then
    | with_reducible apply Only.next (modQue_only _ _ _)
    | with_reducible apply Only.next (bumpGen_only _ _)
    | with_reducible refine Only.ite ?_ ?_
    | with_reducible refine Answers.ite ?_ ?_
    | split
    | intro _


end Sys2Proof.Machine
end

