-- ==== Sys2Proof/Laws/FrameImage.lean ====
section
/-! SUPPORT. The frames of the operations of Machine/Image.lean. -/

namespace Sys2Proof.Machine

theorem refreshOffer_only (s : State) : Only [.pages, .fab, .del, .pci, .fwl, .outbox] s (refreshOffer s) := by
  unfold refreshOffer
  repeat' first
    | (show within _ _ = true; rfl)
    | with_reducible exact Only.refl _ _
    | assumption
    | dsimp only
    | with_reducible apply Only.next (bumpGen_only _ _)
    | with_reducible apply Only.next (raise_only _ _ _ _)
    | with_reducible apply Only.next (modFab_only _ _)
    | with_reducible refine Only.ite ?_ ?_

theorem setPairSt_only (tgt : Nat) (p : Pair) (digest : Nat) (s : State) : Only [.pages, .fab, .del, .pci, .fwl, .outbox] s (setPairSt tgt p digest s) := by
  unfold setPairSt
  repeat' first
    | (show within _ _ = true; rfl)
    | with_reducible exact Only.refl _ _
    | assumption
    | dsimp only
    | with_reducible apply Only.next (bumpGen_only _ _)
    | with_reducible apply Only.next (raise_only _ _ _ _)
    | with_reducible apply Only.next (refreshOffer_only _)
    | with_reducible apply Only.next (modFwl_only _ _)
    | with_reducible refine Only.ite ?_ ?_

theorem pairWith_only (tgt : Nat) (h : Hdr) (lg : Bool) (s : State) : Only [.pages, .fab, .del, .pci, .fwl, .outbox] s (pairWith tgt h lg s).1 := by
  unfold pairWith
  repeat' first
    | (show within _ _ = true; rfl)
    | with_reducible exact Only.refl _ _
    | assumption
    | dsimp only
    | with_reducible apply Only.next (bumpGen_only _ _)
    | with_reducible apply Only.next (raise_only _ _ _ _)
    | with_reducible apply Only.next (setPairSt_only _ _ _ _)
    | with_reducible apply Only.next (modFwl_only _ _)
    | with_reducible refine Only.ite ?_ ?_
    | with_reducible refine Only.ite_fst ?_ ?_
    | with_reducible refine Only.ite_snd ?_ ?_
    | split

theorem endPair_only (tgt : Nat) (s : State) : Only [.pages, .fab, .del, .pci, .fwl, .outbox] s (endPair tgt s) := by
  unfold endPair
  repeat' first
    | (show within _ _ = true; rfl)
    | with_reducible exact Only.refl _ _
    | dsimp only
    | with_reducible apply Only.next (refreshOffer_only _)
    | with_reducible apply Only.next (bumpGen_only _ _)
    | with_reducible apply Only.next (modFwl_only _ _)
    | with_reducible refine Only.ite ?_ ?_


end Sys2Proof.Machine
end

