-- ==== Sys2Proof/Laws/FrameTerrier.lean ====
section
/-! SUPPORT. The frames of the operations of Machine/Terrier.lean. -/

namespace Sys2Proof.Machine

theorem modTc_only (n : Nat) (f : Tc → Tc) (s : State) : Only [.tcs] s (modTc n f s) := by
  unfold modTc
  repeat' first
    | (show within _ _ = true; rfl)
    | with_reducible exact Only.refl _ _
    | dsimp only
    | with_reducible apply Only.next (modTcs_only _ _)

theorem tcRaise_only (n bit code : Nat) (s : State) : Only [.pages, .fab, .del, .pci, .fwl, .outbox] s (tcRaise n bit code s) := by
  unfold tcRaise
  repeat' first
    | (show within _ _ = true; rfl)
    | with_reducible exact Only.refl _ _
    | dsimp only
    | with_reducible apply Only.next (raise_only _ _ _ _)

theorem tcRaiseOnce_only (n bit : Nat) (s : State) : Only [.pages, .fab, .del, .pci, .fwl, .outbox] s (tcRaiseOnce n bit s) := by
  unfold tcRaiseOnce
  repeat' first
    | (show within _ _ = true; rfl)
    | with_reducible exact Only.refl _ _
    | dsimp only
    | with_reducible apply Only.next (raiseOnce_only _ _ _ _ _)

theorem modTcState_only (n : Nat) (f : Tc → Tc) (s : State) : Only [.pages, .tcs] s (modTcState n f s) := by
  unfold modTcState
  repeat' first
    | (show within _ _ = true; rfl)
    | with_reducible exact Only.refl _ _
    | assumption
    | dsimp only
    | with_reducible apply Only.next (modTc_only _ _ _)
    | with_reducible apply Only.next (bumpGen_only _ _)
    | with_reducible refine Only.ite ?_ ?_

theorem setV_only (n r : Nat) (w : W128) (s : State) : Only [.tcs] s (setV n r w s) := by
  unfold setV
  repeat' first
    | (show within _ _ = true; rfl)
    | with_reducible exact Only.refl _ _
    | dsimp only
    | with_reducible apply Only.next (modTc_only _ _ _)
    | with_reducible refine Only.ite ?_ ?_

theorem advance_only (n : Nat) (s : State) : Only [.tcs] s (advance n s) := by
  unfold advance
  repeat' first
    | (show within _ _ = true; rfl)
    | with_reducible exact Only.refl _ _
    | dsimp only
    | with_reducible apply Only.next (modTc_only _ _ _)

theorem issue_then {l : List Area} {n : Nat} {f : State → State} {s t : State} (hl : within [.tcs] l = true) (h : ∀ s, Only l s (f s))
    (k : Only l s t) : Only l s (issue n f t) := by
  refine k.trans ?_
  unfold issue
  split
  · exact Only.trans ((modTc_only _ _ _).mono hl) (h _)
  · exact Only.refl _ _

theorem rewindOut_only (n : Nat) (s : State) : Only [.ques, .tcs] s (rewindOut n s) := by
  unfold rewindOut
  repeat' first
    | (show within _ _ = true; rfl)
    | with_reducible exact Only.refl _ _
    | assumption
    | dsimp only
    | with_reducible apply Only.next (rewindItem_only _ _)
    | with_reducible apply Only.next (modTc_only _ _ _)
    | with_reducible refine Only.ite ?_ ?_
    | split

theorem closeRun_only (slot : Nat) (s : State) (id : Nat) : Only [.del] s (closeRun slot s id) := by
  unfold closeRun
  repeat' first
    | (show within _ _ = true; rfl)
    | with_reducible exact Only.refl _ _
    | assumption
    | dsimp only
    | with_reducible apply Only.next (stage_only _ _ _)
    | with_reducible apply Only.next (modCon_only _ _ _)
    | with_reducible apply Only.id_then
    | split

theorem takeSample_only (rate : Nat) (i : Item) (s : State) (id : Nat) : Only [.del] s (takeSample rate i s id) := by
  unfold takeSample
  repeat' first
    | (show within _ _ = true; rfl)
    | with_reducible exact Only.refl _ _
    | assumption
    | dsimp only
    | with_reducible apply Only.next (stage_only _ _ _)
    | with_reducible apply Only.next (closeRun_only _ _ _)
    | with_reducible apply Only.next (modCon_only _ _ _)
    | with_reducible refine Only.ite ?_ ?_
    | with_reducible apply Only.id_then
    | split

theorem emitSample_only (rate : Nat) (i : Item) (s : State) : Only [.del] s (emitSample rate i s) := by
  unfold emitSample
  repeat' first
    | (show within _ _ = true; rfl)
    | with_reducible exact Only.refl _ _
    | assumption
    | dsimp only
    | with_reducible apply Only.next (takeSample_only _ _ _ _)
    | with_reducible apply Only.foldl_then
    | intro _

theorem closeRuns_only (slot : Nat) (s : State) : Only [.del] s (closeRuns slot s) := by
  unfold closeRuns
  repeat' first
    | (show within _ _ = true; rfl)
    | with_reducible exact Only.refl _ _
    | assumption
    | dsimp only
    | with_reducible apply Only.next (closeRun_only _ _ _)
    | with_reducible apply Only.foldl_then
    | intro _

theorem emitOut_only (n : Nat) (ws : List W128) (s : State) : Only [.del, .tcs] s (emitOut n ws s) := by
  unfold emitOut
  cases ws with
  | nil => exact Only.refl _ _
  | cons w rest =>
    dsimp -zeta only
    extract_lets v at_ fl i t
    have ht : Only [.del, .tcs] s t := (modTc_only _ _ _).mono rfl
    exact Only.ite (Only.foldl_then (fun s b => (stage_only _ _ _).mono rfl) ht) (Only.ite (Only.next (emitSample_only _ _ _) rfl ht) (Only.next (emit_only _ _) rfl ht))

theorem shadowItem_only (live : Nat) (fromDonor : Bool) (ws : List W128) (s : State) : Only [.tcs] s (shadowItem live fromDonor ws s) := by
  unfold shadowItem
  repeat' first
    | (show within _ _ = true; rfl)
    | with_reducible exact Only.refl _ _
    | assumption
    | dsimp only
    | with_reducible apply Only.next (modTc_only _ _ _)

theorem refuseOut_only (n : Nat) (last : Bool) (s : State) : Only [.pages, .fab, .del, .pci, .tcs, .fwl, .outbox] s (refuseOut n last s) := by
  unfold refuseOut
  repeat' first
    | (show within _ _ = true; rfl)
    | with_reducible exact Only.refl _ _
    | dsimp only
    | with_reducible apply Only.next (tcRaiseOnce_only _ _ _)
    | with_reducible apply Only.next (modTc_only _ _ _)

theorem sendWord_only (n : Nat) (w : W128) (last : Bool) (s : State) : Only [.pages, .fab, .del, .ques, .pci, .tcs, .fwl, .outbox] s (sendWord n w last s).1 := by
  unfold sendWord
  repeat' first
    | (show within _ _ = true; rfl)
    | with_reducible exact Only.refl _ _
    | assumption
    | dsimp only
    | with_reducible apply Only.next (shadowItem_only _ _ _ _)
    | with_reducible apply Only.next (modTc_only _ _ _)
    | with_reducible apply Only.next (putWord_only _ _ _ _ _)
    | with_reducible apply Only.next (modQue_only _ _ _)
    | with_reducible apply Only.next (refuseOut_only _ _ _)
    | with_reducible apply Only.next (emitOut_only _ _ _)
    | with_reducible refine Only.ite ?_ ?_
    | with_reducible refine Only.ite_fst ?_ ?_
    | with_reducible refine Only.ite_snd ?_ ?_
    | split

theorem tcAccept_only (n : Nat) (ws : List W128) (fromQ : Bool) (at_ : Option Stamp) (s : State) : Only [.pages, .fab, .del, .pci, .tcs, .fwl, .bst, .outbox] s (tcAccept n ws fromQ at_ s).1 := by
  unfold tcAccept
  repeat' first
    | (show within _ _ = true; rfl)
    | with_reducible exact Only.refl _ _
    | assumption
    | dsimp only
    | with_reducible apply Only.next (tcRaiseOnce_only _ _ _)
    | with_reducible apply Only.next (modTc_only _ _ _)
    | with_reducible apply Only.next (serveCore_only _ _)
    | with_reducible refine Only.ite ?_ ?_
    | with_reducible refine Only.ite_fst ?_ ?_
    | with_reducible refine Only.ite_snd ?_ ?_
    | split

theorem execTcInputItem_only (n : QNum) (q : Option QNum) (dev : Nat) (con : Con) (seq : Nat) (item : Item) (s : State) : Answers [.pages, .fab, .del, .ques, .pci, .tcs, .fwl, .bst, .outbox] s (execTcInputItem n q dev con seq item s) := by
  unfold execTcInputItem
  repeat' first
    | (show within _ _ = true; rfl)
    | with_reducible exact Only.refl _ _
    | assumption
    | dsimp only
    | with_reducible refine Answers.next ?_
    | with_reducible apply Only.next (tcAccept_only _ _ _ _ _)
    | with_reducible apply Only.next (modQue_only _ _ _)
    | with_reducible apply Only.next (handOver_only _ _ _ _)
    | with_reducible refine Only.ite ?_ ?_
    | with_reducible refine Only.ite_fst ?_ ?_
    | with_reducible refine Only.ite_snd ?_ ?_
    | with_reducible refine Answers.ite ?_ ?_
    | split

theorem takeIn_only (n d b : Nat) (s : State) : Only [.tcs] s (takeIn n d b s).1 := by
  unfold takeIn
  repeat' first
    | (show within _ _ = true; rfl)
    | with_reducible exact Only.refl _ _
    | assumption
    | dsimp only
    | with_reducible apply Only.next (modTc_only _ _ _)
    | with_reducible apply Only.next (setV_only _ _ _ _)
    | with_reducible refine Only.ite ?_ ?_
    | with_reducible refine Only.ite_fst ?_ ?_
    | with_reducible refine Only.ite_snd ?_ ?_
    | split

theorem wf_foldl_write {β : Type} {f : FMap Byte → β → FMap Byte} (h : ∀ m b, Memory.wf m = true → Memory.wf (f m b) = true) (l : List β) (m : FMap Byte)
    (w : Memory.wf m = true) : Memory.wf (l.foldl f m) = true := by
  induction l generalizing m with
  | nil => exact w
  | cons b l ih => exact ih _ (h m b w)

theorem dataInit_only (n : Nat) (g : TImg) (s : State) : Only [.mem] s (dataInit n g s) := by
  unfold dataInit
  refine modMem_only (fun m h => wf_foldl_write (fun m x w => ?_) _ _ (FMap.wf_filter _ h)) _
  split
  · exact w
  · exact Memory.wf_write _ _ w

theorem endShadow_only (n : Nat) (s : State) : Only [.pages, .fab, .del, .pci, .tcs, .fwl, .outbox] s (endShadow n s) := by
  unfold endShadow
  repeat' first
    | (show within _ _ = true; rfl)
    | with_reducible exact Only.refl _ _
    | assumption
    | dsimp only
    | with_reducible apply Only.next (modTcState_only _ _ _)
    | with_reducible apply Only.next (modTc_only _ _ _)
    | with_reducible apply Only.next (tcRaise_only _ _ _ _)
    | split

theorem scheduleSwitch_only (n : Nat) (s : State) : Only [.tcs] s (scheduleSwitch n s) := by
  unfold scheduleSwitch
  repeat' first
    | (show within _ _ = true; rfl)
    | with_reducible exact Only.refl _ _
    | assumption
    | dsimp only
    | with_reducible apply Only.next (modTc_only _ _ _)

theorem shadowOver_only (n : Nat) (s : State) : Only [.pages, .fab, .del, .pci, .tcs, .fwl, .outbox] s (shadowOver n s) := by
  unfold shadowOver
  repeat' first
    | (show within _ _ = true; rfl)
    | with_reducible exact Only.refl _ _
    | assumption
    | dsimp only
    | with_reducible apply Only.next (endShadow_only _ _)
    | with_reducible apply Only.next (scheduleSwitch_only _ _)
    | with_reducible refine Only.ite ?_ ?_

theorem fallback_only (n : Nat) (s t : State) (h : fallback n s = some t) : Only [.pages, .mem, .fab, .del, .pci, .tcs, .fwl, .outbox] s t := by
  unfold fallback at h
  dsimp only at h
  split at h
  · split at h
    · obtain rfl := Option.some.inj h
      refine Only.next (raise_only _ _ _ _) rfl (Only.next (pairWith_only _ _ _ _) rfl (Only.next (modFwl_only _ _) rfl (Only.next (dataInit_only _ _ _) rfl (Only.next (modTcState_only _ _ _) rfl (Only.refl _ _)))))
    · cases h
  · cases h

theorem coreStops_only (n : Nat) (s : State) : Only [.pages, .mem, .fab, .del, .pci, .tcs, .fwl, .outbox] s (coreStops n s) := by
  unfold coreStops
  dsimp only
  split
  · rename_i t h
    exact Only.trans (Only.next (tcRaise_only _ _ _ _) rfl (Only.next (modTcState_only _ _ _) rfl (Only.refl _ _))) (fallback_only _ _ _ h)
  · exact Only.next (tcRaise_only _ _ _ _) rfl (Only.next (modTcState_only _ _ _) rfl (Only.refl _ _))

theorem stopProgram_only (n : Nat) (s : State) : Only [.pages, .mem, .fab, .del, .ques, .pci, .tcs, .fwl, .outbox] s (stopProgram n s) := by
  unfold stopProgram
  repeat' first
    | (show within _ _ = true; rfl)
    | with_reducible exact Only.refl _ _
    | assumption
    | dsimp only
    | with_reducible apply Only.next (modTcState_only _ _ _)
    | with_reducible apply Only.next (rewindOut_only _ _)
    | with_reducible apply Only.next (shadowOver_only _ _)
    | with_reducible apply Only.next (modTc_only _ _ _)
    | with_reducible apply Only.next (coreStops_only _ _)
    | with_reducible refine Only.ite ?_ ?_
    | split

theorem faultAt_only (n code : Nat) (s : State) : Only [.pages, .mem, .fab, .del, .ques, .pci, .tcs, .fwl, .outbox] s (faultAt n code s) := by
  unfold faultAt
  repeat' first
    | (show within _ _ = true; rfl)
    | with_reducible exact Only.refl _ _
    | dsimp only
    | with_reducible apply Only.next (stopProgram_only _ _)
    | with_reducible apply Only.next (tcRaise_only _ _ _ _)
    | with_reducible apply Only.next (modTc_only _ _ _)

theorem coreFault_only (n code : Nat) (s : State) : Only [.pages, .mem, .fab, .del, .ques, .pci, .tcs, .fwl, .outbox] s (coreFault n code s) := by
  unfold coreFault
  repeat' first
    | (show within _ _ = true; rfl)
    | with_reducible exact Only.refl _ _
    | dsimp only
    | with_reducible apply Only.next (faultAt_only _ _ _)
    | with_reducible apply Only.next (modTc_only _ _ _)

theorem execUndefinedOpcode_only (n : QNum) (ue : Bool) (s : State) : Answers [.pages, .mem, .fab, .del, .ques, .pci, .tcs, .fwl, .outbox] s (execUndefinedOpcode n ue s) := by
  unfold execUndefinedOpcode
  repeat' first
    | (show within _ _ = true; rfl)
    | with_reducible exact Only.refl _ _
    | assumption
    | dsimp only
    | with_reducible refine Answers.next ?_
    | with_reducible apply issue_then
    | with_reducible apply Only.next (coreFault_only _ _ _)
    | with_reducible apply Only.next (raise_only _ _ _ _)
    | with_reducible refine Only.ite ?_ ?_
    | with_reducible refine Answers.ite ?_ ?_
    | split
    | intro _

theorem windowTrigger_only (n : Nat) (b : Stamp) (counted : Bool) (s : State) : Only [.pages, .fab, .del, .pci, .tcs, .fwl, .outbox] s (windowTrigger n b counted s) := by
  unfold windowTrigger
  repeat' first
    | (show within _ _ = true; rfl)
    | with_reducible exact Only.refl _ _
    | assumption
    | dsimp only
    | with_reducible apply Only.next (modTc_only _ _ _)
    | with_reducible apply Only.next (tcRaiseOnce_only _ _ _)
    | with_reducible refine Only.ite ?_ ?_
    | split

theorem restart_only (n : Nat) (s : State) : Only [.pages, .mem, .tcs] s (restart n s) := by
  unfold restart
  repeat' first
    | (show within _ _ = true; rfl)
    | with_reducible exact Only.refl _ _
    | assumption
    | dsimp only
    | with_reducible apply Only.next (dataInit_only _ _ _)
    | with_reducible apply Only.next (modTcState_only _ _ _)
    | split

theorem execWindowBoundary_only (n : QNum) (s : State) : Answers [.pages, .mem, .fab, .del, .pci, .tcs, .fwl, .bst, .outbox] s (execWindowBoundary n s) := by
  unfold execWindowBoundary
  repeat' first
    | (show within _ _ = true; rfl)
    | with_reducible exact Only.refl _ _
    | assumption
    | dsimp only
    | with_reducible refine Answers.next ?_
    | with_reducible apply Only.next (serveCore_only _ _)
    | with_reducible apply Only.next (windowTrigger_only _ _ _ _)
    | with_reducible apply Only.next (restart_only _ _)
    | with_reducible apply Only.next (modTc_only _ _ _)
    | with_reducible refine Only.ite ?_ ?_
    | with_reducible refine Answers.ite ?_ ?_
    | split

theorem execCycleBoundary_only (n : QNum) (s : State) : Answers [.pages, .fab, .del, .pci, .tcs, .fwl, .bst, .outbox] s (execCycleBoundary n s) := by
  unfold execCycleBoundary
  repeat' first
    | (show within _ _ = true; rfl)
    | with_reducible exact Only.refl _ _
    | assumption
    | dsimp only
    | with_reducible refine Answers.next ?_
    | with_reducible apply Only.next (modTc_only _ _ _)
    | with_reducible apply Only.next (serveCore_only _ _)
    | with_reducible refine Only.ite ?_ ?_

theorem shadowWait_only (n : Nat) (s : State) : Only [.pages, .fab, .del, .pci, .tcs, .fwl, .outbox] s (shadowWait n s) := by
  unfold shadowWait
  repeat' first
    | (show within _ _ = true; rfl)
    | with_reducible exact Only.refl _ _
    | assumption
    | dsimp only
    | with_reducible apply Only.next (modTc_only _ _ _)
    | with_reducible apply Only.next (shadowOver_only _ _)
    | with_reducible refine Only.ite ?_ ?_
    | split

theorem waitOn_only (n m : Nat) (s : State) : Only [.pages, .fab, .del, .pci, .tcs, .fwl, .outbox] s (waitOn n m s) := by
  unfold waitOn
  repeat' first
    | (show within _ _ = true; rfl)
    | with_reducible exact Only.refl _ _
    | assumption
    | dsimp only
    | with_reducible apply Only.next (shadowWait_only _ _)
    | with_reducible apply Only.next (modTc_only _ _ _)
    | with_reducible apply Only.next (advance_only _ _)
    | with_reducible apply Only.next (modTcState_only _ _ _)
    | with_reducible refine Only.ite ?_ ?_

theorem execWaitResume_only (n : QNum) (s : State) : Answers [.pages, .tcs] s (execWaitResume n s) := by
  unfold execWaitResume
  repeat' first
    | (show within _ _ = true; rfl)
    | with_reducible exact Only.refl _ _
    | assumption
    | dsimp only
    | with_reducible refine Answers.next ?_
    | with_reducible apply Only.next (advance_only _ _)
    | with_reducible apply Only.next (modTcState_only _ _ _)
    | with_reducible refine Only.ite ?_ ?_
    | with_reducible refine Answers.ite ?_ ?_
    | split

theorem execRecvResume_only (n : QNum) (s : State) : Answers [.pages, .tcs] s (execRecvResume n s) := by
  unfold execRecvResume
  repeat' first
    | (show within _ _ = true; rfl)
    | with_reducible exact Only.refl _ _
    | assumption
    | dsimp only
    | with_reducible refine Answers.next ?_
    | with_reducible apply Only.next (takeIn_only _ _ _ _)
    | with_reducible apply Only.next (advance_only _ _)
    | with_reducible apply Only.next (modTcState_only _ _ _)
    | with_reducible refine Only.ite ?_ ?_
    | with_reducible refine Only.ite_fst ?_ ?_
    | with_reducible refine Only.ite_snd ?_ ?_
    | with_reducible refine Answers.ite ?_ ?_
    | split

theorem execSendResume_only (n : QNum) (s : State) : Answers [.pages, .fab, .del, .ques, .pci, .tcs, .fwl, .outbox] s (execSendResume n s) := by
  unfold execSendResume
  repeat' first
    | (show within _ _ = true; rfl)
    | with_reducible exact Only.refl _ _
    | assumption
    | dsimp only
    | with_reducible refine Answers.next ?_
    | with_reducible apply Only.next (sendWord_only _ _ _ _)
    | with_reducible apply Only.next (advance_only _ _)
    | with_reducible apply Only.next (modTcState_only _ _ _)
    | with_reducible refine Only.ite ?_ ?_
    | with_reducible refine Only.ite_fst ?_ ?_
    | with_reducible refine Only.ite_snd ?_ ?_
    | with_reducible refine Answers.ite ?_ ?_
    | split

theorem refuseCommit_only (n code : Nat) (s : State) : Only [.pages, .fab, .del, .pci, .tcs, .fwl, .outbox] s (refuseCommit n code s) := by
  unfold refuseCommit
  repeat' first
    | (show within _ _ = true; rfl)
    | with_reducible exact Only.refl _ _
    | dsimp only
    | with_reducible apply Only.next (tcRaise_only _ _ _ _)
    | with_reducible apply Only.next (modTc_only _ _ _)

theorem leaveStopped_only (n : Nat) (s : State) : Only [.pages, .tcs] s (leaveStopped n s) := by
  unfold leaveStopped
  repeat' first
    | (show within _ _ = true; rfl)
    | with_reducible exact Only.refl _ _
    | dsimp only
    | with_reducible apply Only.next (modTcState_only _ _ _)
    | with_reducible refine Only.ite ?_ ?_

theorem acceptCommit_only (n : Nat) (g : TImg) (h : Hdr) (wait shadow : Bool) (donor shn : Nat) (s : State) : Only [.pages, .tcs] s (acceptCommit n g h wait shadow donor shn s) := by
  unfold acceptCommit
  repeat' first
    | (show within _ _ = true; rfl)
    | with_reducible exact Only.refl _ _
    | assumption
    | dsimp only
    | with_reducible apply Only.next (modTc_only _ _ _)
    | with_reducible apply Only.next (leaveStopped_only _ _)
    | with_reducible apply Only.next (scheduleSwitch_only _ _)
    | with_reducible refine Only.ite ?_ ?_

theorem commitImage_only (n : Nat) (h : List Byte) (skip3 : Bool) (gate : Bool) (s : State) : Only [.pages, .fab, .del, .pci, .tcs, .fwl, .outbox] s (commitImage n h skip3 gate s) := by
  unfold commitImage
  repeat' first
    | (show within _ _ = true; rfl)
    | with_reducible exact Only.refl _ _
    | assumption
    | dsimp only
    | with_reducible apply Only.next (refuseCommit_only _ _ _)
    | with_reducible apply Only.next (pairWith_only _ _ _ _)
    | with_reducible apply Only.next (acceptCommit_only _ _ _ _ _ _ _ _)
    | with_reducible apply Only.next (modTc_only _ _ _)
    | with_reducible refine Only.ite ?_ ?_

theorem execTcClr_only (r : Req) (n : QNum) (s : State) : Answers [.pages, .rf, .mem, .fab, .del, .pci, .tcs, .fwl, .bst, .outbox] s (execTcClr r n s) := by
  unfold execTcClr
  repeat' first
    | (show within _ _ = true; rfl)
    | with_reducible exact Only.refl _ _
    | assumption
    | dsimp only
    | with_reducible refine Answers.next ?_
    | with_reducible apply gatedCore_then
    | with_reducible apply Only.next (rfPut_only _ _ _)
    | with_reducible apply Only.next (modTc_only _ _ _)
    | with_reducible apply Only.next (modMem_only (fun m h => ?_) _)
    | exact Memory.wf_writeN _ _ h
    | exact Memory.wf_clear _ _ h
    | with_reducible refine Only.ite ?_ ?_
    | with_reducible refine Answers.ite ?_ ?_
    | split
    | intro _

theorem execTcImgDataWrite_only (r : Req) (n : QNum) (v : Word) (s : State) : Answers [.pages, .rf, .mem, .fab, .del, .pci, .tcs, .fwl, .bst, .outbox] s (execTcImgDataWrite r n v s) := by
  unfold execTcImgDataWrite
  repeat' first
    | (show within _ _ = true; rfl)
    | with_reducible exact Only.refl _ _
    | assumption
    | dsimp only
    | with_reducible refine Answers.next ?_
    | with_reducible apply gatedCore_then
    | with_reducible apply Only.next (modTc_only _ _ _)
    | with_reducible apply Only.next (rfPut_only _ _ _)
    | with_reducible apply Only.next (modMem_only (fun m h => ?_) _)
    | exact Memory.wf_writeN _ _ h
    | exact Memory.wf_clear _ _ h
    | with_reducible refine Only.ite ?_ ?_
    | with_reducible refine Answers.ite ?_ ?_
    | split
    | intro _

theorem execTcCommit_only (r : Req) (n : QNum) (s : State) : Answers [.pages, .fab, .del, .pci, .tcs, .fwl, .bst, .outbox] s (execTcCommit r n s) := by
  unfold execTcCommit
  repeat' first
    | (show within _ _ = true; rfl)
    | with_reducible exact Only.refl _ _
    | assumption
    | dsimp only
    | with_reducible refine Answers.next ?_
    | with_reducible apply gatedCore_then
    | with_reducible apply Only.next (commitImage_only _ _ _ _ _)
    | with_reducible apply Only.next (modFwl_only _ _)
    | with_reducible refine Only.ite ?_ ?_
    | with_reducible refine Answers.ite ?_ ?_
    | split
    | intro _

theorem cancelCommit_only (n : Nat) (s : State) : Only [.pages, .tcs] s (cancelCommit n s) := by
  unfold cancelCommit
  repeat' first
    | (show within _ _ = true; rfl)
    | with_reducible exact Only.refl _ _
    | assumption
    | dsimp only
    | with_reducible apply Only.next (modTcState_only _ _ _)
    | with_reducible refine Only.ite ?_ ?_
    | split

theorem execTcAbort_only (r : Req) (n : QNum) (s : State) : Answers [.pages, .fab, .del, .pci, .tcs, .fwl, .bst, .outbox] s (execTcAbort r n s) := by
  unfold execTcAbort
  repeat' first
    | (show within _ _ = true; rfl)
    | with_reducible exact Only.refl _ _
    | assumption
    | dsimp only
    | with_reducible refine Answers.next ?_
    | with_reducible apply gatedCore_then
    | with_reducible apply Only.next (cancelCommit_only _ _)
    | with_reducible refine Only.ite ?_ ?_
    | with_reducible refine Answers.ite ?_ ?_
    | split
    | intro _

theorem execTcGo_only (r : Req) (n : QNum) (s : State) : Answers [.pages, .fab, .del, .pci, .tcs, .fwl, .bst, .outbox] s (execTcGo r n s) := by
  unfold execTcGo
  repeat' first
    | (show within _ _ = true; rfl)
    | with_reducible exact Only.refl _ _
    | assumption
    | dsimp only
    | with_reducible refine Answers.next ?_
    | with_reducible apply gatedCore_then
    | with_reducible apply Only.next (scheduleSwitch_only _ _)
    | with_reducible refine Only.ite ?_ ?_
    | with_reducible refine Answers.ite ?_ ?_
    | split
    | intro _

theorem execTcRestart_only (r : Req) (n : QNum) (s : State) : Answers [.pages, .mem, .fab, .del, .ques, .pci, .tcs, .fwl, .bst, .outbox] s (execTcRestart r n s) := by
  unfold execTcRestart
  repeat' first
    | (show within _ _ = true; rfl)
    | with_reducible exact Only.refl _ _
    | assumption
    | dsimp only
    | with_reducible refine Answers.next ?_
    | with_reducible apply gatedCore_then
    | with_reducible apply Only.next (leaveStopped_only _ _)
    | with_reducible apply Only.next (faultAt_only _ _ _)
    | with_reducible refine Only.ite ?_ ?_
    | with_reducible refine Answers.ite ?_ ?_
    | split
    | intro _

theorem execShadowStart_only (n : QNum) (s : State) : Answers [.pages, .mem, .tcs] s (execShadowStart n s) := by
  unfold execShadowStart
  repeat' first
    | (show within _ _ = true; rfl)
    | with_reducible exact Only.refl _ _
    | assumption
    | dsimp only
    | with_reducible refine Answers.next ?_
    | with_reducible apply Only.next (modTcState_only _ _ _)
    | with_reducible apply Only.next (dataInit_only _ _ _)
    | with_reducible apply Only.next (modTc_only _ _ _)
    | with_reducible apply Only.next (modMem_only (fun m h => ?_) _)
    | exact Memory.wf_writeN _ _ h
    | exact Memory.wf_clear _ _ h
    | with_reducible refine Only.ite ?_ ?_
    | with_reducible refine Answers.ite ?_ ?_
    | split

theorem execSwitchBoundary_only (n : QNum) (s : State) : Answers [.pages, .tcs] s (execSwitchBoundary n s) := by
  unfold execSwitchBoundary
  repeat' first
    | (show within _ _ = true; rfl)
    | with_reducible exact Only.refl _ _
    | assumption
    | dsimp only
    | with_reducible refine Answers.next ?_
    | with_reducible apply Only.next (modTcState_only _ _ _)
    | with_reducible refine Only.ite ?_ ?_
    | with_reducible refine Answers.ite ?_ ?_

theorem execDrainExpiry_only (n : QNum) (s : State) : Answers [.ques, .tcs] s (execDrainExpiry n s) := by
  unfold execDrainExpiry
  repeat' first
    | (show within _ _ = true; rfl)
    | with_reducible exact Only.refl _ _
    | assumption
    | dsimp only
    | with_reducible refine Answers.next ?_
    | with_reducible apply Only.next (modTc_only _ _ _)
    | with_reducible apply Only.next (rewindOut_only _ _)
    | with_reducible refine Only.ite ?_ ?_

theorem flipBanks_only (n : Nat) (g : TImg) (s : State) : Only [.pages, .mem, .fab, .del, .pci, .tcs, .fwl, .outbox] s (flipBanks n g s) := by
  unfold flipBanks
  repeat' first
    | (show within _ _ = true; rfl)
    | with_reducible exact Only.refl _ _
    | assumption
    | dsimp only
    | with_reducible apply Only.next (modTcState_only _ _ _)
    | with_reducible apply Only.next (modTc_only _ _ _)
    | with_reducible apply Only.next (tcRaise_only _ _ _ _)
    | with_reducible apply Only.next (bumpGen_only _ _)
    | with_reducible apply Only.next (dataInit_only _ _ _)

theorem execProgramSwitch_only (n : QNum) (s : State) : Answers [.pages, .mem, .fab, .del, .pci, .tcs, .fwl, .outbox] s (execProgramSwitch n s) := by
  unfold execProgramSwitch
  repeat' first
    | (show within _ _ = true; rfl)
    | with_reducible exact Only.refl _ _
    | assumption
    | dsimp only
    | with_reducible refine Answers.next ?_
    | with_reducible apply Only.next (modTc_only _ _ _)
    | with_reducible apply Only.next (pairWith_only _ _ _ _)
    | with_reducible apply Only.next (refuseCommit_only _ _ _)
    | with_reducible apply Only.next (cancelCommit_only _ _)
    | with_reducible apply Only.next (flipBanks_only _ _ _)
    | with_reducible refine Only.ite ?_ ?_
    | with_reducible refine Only.ite_fst ?_ ?_
    | with_reducible refine Only.ite_snd ?_ ?_
    | with_reducible refine Answers.ite ?_ ?_
    | split


end Sys2Proof.Machine
end

