-- ==== Sys2Proof/Laws/FrameHost.lean ====
section
/-! SUPPORT. The frames of the operations of Machine/Host.lean. -/

namespace Sys2Proof.Machine

theorem setHrState_only (n st : Nat) (s : State) : Only [.pages, .pci] s (setHrState n st s) := by
  unfold setHrState
  repeat' first
    | (show within _ _ = true; rfl)
    | with_reducible exact Only.refl _ _
    | dsimp only
    | with_reducible apply Only.next (bumpGen_only _ _)
    | with_reducible apply Only.next (modHr_only _ _ _)
    | with_reducible refine Only.ite ?_ ?_

theorem fetchDescs_only (n : Nat) (s : State) : Only [.pci, .outbox] s (fetchDescs n s) := by
  unfold fetchDescs
  repeat' first
    | (show within _ _ = true; rfl)
    | with_reducible exact Only.refl _ _
    | assumption
    | dsimp only
    | with_reducible apply Only.next (drive_only _ _)
    | with_reducible apply Only.next (modHr_only _ _ _)
    | with_reducible refine Only.ite ?_ ?_

theorem dropPkts_only (q k : Nat) (s : State) : Only [.ques] s (dropPkts q k s) := by
  unfold dropPkts
  repeat' first
    | (show within _ _ = true; rfl)
    | with_reducible exact Only.refl _ _
    | dsimp only
    | with_reducible apply Only.next (modQue_only _ _ _)
    | with_reducible refine Only.ite ?_ ?_

theorem countDesc_only (s : State) : Only [.pci] s (countDesc s) := by
  unfold countDesc
  repeat' first
    | (show within _ _ = true; rfl)
    | with_reducible exact Only.refl _ _
    | dsimp only
    | with_reducible apply Only.next (modPci_only _ _)

theorem completeDesc_only (n : Nat) (flushed : Bool) (s : State) : Only [.pages, .fab, .del, .ques, .pci, .fwl, .outbox] s (completeDesc n flushed s) := by
  unfold completeDesc
  repeat' first
    | (show within _ _ = true; rfl)
    | with_reducible exact Only.refl _ _
    | assumption
    | dsimp only
    | with_reducible apply Only.next (drive_only _ _)
    | with_reducible apply Only.next (modHr_only _ _ _)
    | with_reducible apply Only.next (handOver_only _ _ _ _)
    | with_reducible apply Only.next (dropPkts_only _ _ _)
    | with_reducible apply Only.next (raise_only _ _ _ _)
    | with_reducible apply Only.next (countDesc_only _)
    | with_reducible apply Only.foldl_then
    | with_reducible apply Only.foldl_fst_then
    | with_reducible apply Only.foldl_snd_then
    | with_reducible refine Only.ite ?_ ?_
    | with_reducible refine Only.ite_fst ?_ ?_
    | with_reducible refine Only.ite_snd ?_ ?_
    | split
    | intro _

theorem settleRing_only (n : Nat) (s : State) : Only [.pages, .fab, .del, .pci, .fwl, .outbox] s (settleRing n s) := by
  unfold settleRing
  repeat' first
    | (show within _ _ = true; rfl)
    | with_reducible exact Only.refl _ _
    | assumption
    | dsimp only
    | with_reducible apply Only.next (setHrState_only _ _ _)
    | with_reducible apply Only.next (raiseOnce_only _ _ _ _ _)
    | with_reducible refine Only.ite ?_ ?_

theorem fillRing_only (n fuel : Nat) (s : State) : Only [.pages, .fab, .del, .ques, .pci, .fwl, .outbox] s (fillRing n fuel s) := by
  induction fuel generalizing s with
  | zero => exact Only.refl _ _
  | succ fuel ih =>
    unfold fillRing
    repeat' (first
    | (show within _ _ = true; rfl)
    | (with_reducible exact Only.refl _ _)
    | assumption
    | dsimp only
    | with_reducible apply Only.after (ih)
    | (with_reducible apply Only.next (completeDesc_only _ _ _))
    | (with_reducible apply Only.next (modHr_only _ _ _))
    | (with_reducible refine Only.ite ?_ ?_)
    | (with_reducible refine Only.ite_fst ?_ ?_)
    | (with_reducible refine Only.ite_snd ?_ ?_)
    | split)

theorem fill_only (n : Nat) (s : State) : Only [.pages, .fab, .del, .ques, .pci, .fwl, .outbox] s (fill n s) := by
  unfold fill
  repeat' first
    | (show within _ _ = true; rfl)
    | with_reducible exact Only.refl _ _
    | dsimp only
    | with_reducible apply Only.next (settleRing_only _ _)
    | with_reducible apply Only.next (fillRing_only _ _ _)

theorem execHostRingItem_only (n : QNum) (i : HrItem) (s : State) : Answers [.pages, .fab, .del, .ques, .pci, .fwl, .outbox] s (execHostRingItem n i s) := by
  unfold execHostRingItem
  repeat' first
    | (show within _ _ = true; rfl)
    | with_reducible exact Only.refl _ _
    | assumption
    | dsimp only
    | with_reducible refine Answers.next ?_
    | with_reducible apply Only.next (fill_only _ _)
    | with_reducible apply Only.next (modHr_only _ _ _)
    | with_reducible refine Only.ite ?_ ?_
    | with_reducible refine Answers.ite ?_ ?_
    | split

theorem hrAccept_only (n : Nat) (i : HrItem) (s : State) : Only [.pages, .fab, .del, .ques, .pci, .fwl, .outbox] s (hrAccept n i s).1 := by
  unfold hrAccept
  repeat' first
    | (show within _ _ = true; rfl)
    | with_reducible exact Only.refl _ _
    | assumption
    | dsimp only
    | with_reducible apply Only.next (fill_only _ _)
    | with_reducible apply Only.next (modHr_only _ _ _)
    | with_reducible refine Only.ite ?_ ?_
    | with_reducible refine Only.ite_fst ?_ ?_

theorem execHrTailWrite_only (r : Req) (n : QNum) (v : Word) (s : State) : Answers [.pages, .fab, .del, .pci, .fwl, .outbox] s (execHrTailWrite r n v s) := by
  unfold execHrTailWrite
  repeat' first
    | (show within _ _ = true; rfl)
    | with_reducible exact Only.refl _ _
    | assumption
    | dsimp only
    | with_reducible refine Answers.next ?_
    | with_reducible apply gated_then
    | with_reducible apply Only.next (modHr_only _ _ _)
    | with_reducible apply Only.next (fetchDescs_only _ _)
    | with_reducible apply Only.next (settleRing_only _ _)
    | with_reducible refine Only.ite ?_ ?_
    | with_reducible refine Answers.ite ?_ ?_
    | split
    | intro _

theorem execDescriptorFetchDone_only (n : QNum) (good : Bool) (descs : List (Word × Word × Word)) (s : State) : Answers [.pages, .fab, .del, .ques, .pci, .fwl, .outbox] s (execDescriptorFetchDone n good descs s) := by
  unfold execDescriptorFetchDone
  repeat' first
    | (show within _ _ = true; rfl)
    | with_reducible exact Only.refl _ _
    | assumption
    | dsimp only
    | with_reducible refine Answers.next ?_
    | with_reducible apply Only.next (raise_only _ _ _ _)
    | with_reducible apply Only.next (setHrState_only _ _ _)
    | with_reducible apply Only.next (countDesc_only _)
    | with_reducible apply Only.next (modHr_only _ _ _)
    | with_reducible apply Only.next (fetchDescs_only _ _)
    | with_reducible apply Only.next (fill_only _ _)
    | with_reducible refine Only.ite ?_ ?_
    | with_reducible refine Answers.ite ?_ ?_

theorem execDescriptorCloseTimer_only (n : QNum) (s : State) : Answers [.pages, .fab, .del, .ques, .pci, .fwl, .outbox] s (execDescriptorCloseTimer n s) := by
  unfold execDescriptorCloseTimer
  repeat' first
    | (show within _ _ = true; rfl)
    | with_reducible exact Only.refl _ _
    | assumption
    | dsimp only
    | with_reducible refine Answers.next ?_
    | with_reducible apply Only.next (fill_only _ _)
    | with_reducible apply Only.next (completeDesc_only _ _ _)
    | with_reducible refine Only.ite ?_ ?_

theorem execHrNoticeTimer_only (n : QNum) (s : State) : Answers [.pages, .fab, .del, .pci, .fwl, .outbox] s (execHrNoticeTimer n s) := by
  unfold execHrNoticeTimer
  repeat' first
    | (show within _ _ = true; rfl)
    | with_reducible exact Only.refl _ _
    | assumption
    | dsimp only
    | with_reducible refine Answers.next ?_
    | with_reducible apply Only.next (raise_only _ _ _ _)
    | with_reducible apply Only.next (modHr_only _ _ _)
    | with_reducible refine Only.ite ?_ ?_

theorem stopRing_only (n : Nat) (s : State) : Only [.pages, .fab, .del, .ques, .pci, .fwl, .outbox] s (stopRing n s) := by
  unfold stopRing
  repeat' first
    | (show within _ _ = true; rfl)
    | with_reducible exact Only.refl _ _
    | assumption
    | dsimp only
    | with_reducible apply Only.next (completeDesc_only _ _ _)
    | with_reducible apply Only.next (setHrState_only _ _ _)
    | with_reducible apply Only.next (modHr_only _ _ _)
    | with_reducible refine Only.ite ?_ ?_

theorem startRing_only (n : Nat) (s : State) : Only [.pages, .fab, .del, .pci, .fwl, .outbox] s (startRing n s) := by
  unfold startRing
  repeat' first
    | (show within _ _ = true; rfl)
    | with_reducible exact Only.refl _ _
    | dsimp only
    | with_reducible apply Only.next (fetchDescs_only _ _)
    | with_reducible apply Only.next (settleRing_only _ _)
    | with_reducible apply Only.next (setHrState_only _ _ _)
    | with_reducible apply Only.next (modHr_only _ _ _)

theorem execHrEnableWrite_only (r : Req) (n : QNum) (v : Word) (s : State) : Answers [.pages, .fab, .del, .ques, .pci, .fwl, .outbox] s (execHrEnableWrite r n v s) := by
  unfold execHrEnableWrite
  repeat' first
    | (show within _ _ = true; rfl)
    | with_reducible exact Only.refl _ _
    | assumption
    | dsimp only
    | with_reducible refine Answers.next ?_
    | with_reducible apply gated_then
    | with_reducible apply Only.next (wrote_only _ _ _)
    | with_reducible apply Only.next (modHr_only _ _ _)
    | with_reducible apply Only.next (startRing_only _ _)
    | with_reducible apply Only.next (stopRing_only _ _)
    | with_reducible refine Only.ite ?_ ?_
    | with_reducible refine Answers.ite ?_ ?_
    | split
    | intro _

theorem eachRing_then {l : List Area} {f : Nat → State → State} {s t : State} (h : ∀ n s, Only l s (f n s)) (k : Only l s t) : Only l s (eachRing f t) :=
  k.trans (Only.foldl (fun s n => h n s) _ _)

theorem execQuiesce_only (r : Req) (v : Word) (s : State) : Answers [.pages, .fab, .del, .ques, .pci, .fwl, .outbox] s (execQuiesce r v s) := by
  unfold execQuiesce
  repeat' first
    | (show within _ _ = true; rfl)
    | with_reducible exact Only.refl _ _
    | assumption
    | dsimp only
    | with_reducible refine Answers.next ?_
    | with_reducible apply gated_then
    | with_reducible apply on_then
    | with_reducible apply eachRing_then
    | with_reducible apply Only.next (modHr_only _ _ _)
    | with_reducible apply Only.next (stopRing_only _ _)
    | with_reducible apply Only.next (startRing_only _ _)
    | with_reducible apply Only.next (modPci_only _ _)
    | with_reducible refine Only.ite ?_ ?_
    | with_reducible refine Answers.ite ?_ ?_
    | split
    | intro _

theorem resumeRings_only (s : State) : Only [.pages, .fab, .del, .ques, .pci, .fwl, .outbox] s (resumeRings s) := by
  unfold resumeRings
  repeat' first
    | (show within _ _ = true; rfl)
    | with_reducible exact Only.refl _ _
    | dsimp only
    | with_reducible apply eachRing_then
    | with_reducible apply Only.next (fill_only _ _)
    | with_reducible apply Only.next (fetchDescs_only _ _)
    | with_reducible apply Only.next (modHr_only _ _ _)
    | with_reducible refine Only.ite ?_ ?_
    | split
    | intro _

theorem execPcieLinkDown_only (s : State) : Answers [.pages, .fab, .del, .pci, .fwl, .outbox] s (execPcieLinkDown s) := by
  unfold execPcieLinkDown
  repeat' first
    | (show within _ _ = true; rfl)
    | with_reducible exact Only.refl _ _
    | assumption
    | dsimp only
    | with_reducible refine Answers.next ?_
    | with_reducible apply Only.next (raise_only _ _ _ _)
    | with_reducible apply Only.next (bumpGen_only _ _)
    | with_reducible apply Only.next (modPci_only _ _)
    | with_reducible refine Only.ite ?_ ?_
    | with_reducible refine Answers.ite ?_ ?_

theorem execPcieLinkUp_only (speed : Fin 4) (width : Fin 16) (s : State) : Answers [.pages, .fab, .del, .ques, .pci, .fwl, .outbox] s (execPcieLinkUp speed width s) := by
  unfold execPcieLinkUp
  repeat' first
    | (show within _ _ = true; rfl)
    | with_reducible exact Only.refl _ _
    | assumption
    | dsimp only
    | with_reducible refine Answers.next ?_
    | with_reducible apply Only.next (resumeRings_only _)
    | with_reducible apply Only.next (bumpGen_only _ _)
    | with_reducible apply Only.next (modPci_only _ _)
    | with_reducible refine Only.ite ?_ ?_
    | with_reducible refine Answers.ite ?_ ?_

theorem execBusMasterDisable_only (d3 : Bool) (s : State) : Answers [.pci] s (execBusMasterDisable d3 s) := by
  unfold execBusMasterDisable
  repeat' first
    | (show within _ _ = true; rfl)
    | with_reducible exact Only.refl _ _
    | assumption
    | dsimp only
    | with_reducible refine Answers.next ?_
    | with_reducible apply Only.next (modPci_only _ _)

theorem execBusMasterEnable_only (s : State) : Answers [.pages, .fab, .del, .ques, .pci, .fwl, .outbox] s (execBusMasterEnable s) := by
  unfold execBusMasterEnable
  repeat' first
    | (show within _ _ = true; rfl)
    | with_reducible exact Only.refl _ _
    | assumption
    | dsimp only
    | with_reducible refine Answers.next ?_
    | with_reducible apply Only.next (resumeRings_only _)
    | with_reducible apply Only.next (modPci_only _ _)

theorem execMsixUnmask_only (e : Fin 64) (s : State) : Answers [.pci, .outbox] s (execMsixUnmask e s) := by
  unfold execMsixUnmask
  repeat' first
    | (show within _ _ = true; rfl)
    | with_reducible exact Only.refl _ _
    | assumption
    | dsimp only
    | with_reducible refine Answers.next ?_
    | with_reducible apply Only.next (drive_only _ _)
    | with_reducible apply Only.next (modPci_only _ _)
    | with_reducible refine Only.ite ?_ ?_

theorem disableRings_only (s : State) : Only [.pages, .pci] s (disableRings s) := by
  unfold disableRings
  repeat' first
    | (show within _ _ = true; rfl)
    | with_reducible exact Only.refl _ _
    | dsimp only
    | with_reducible apply eachRing_then
    | with_reducible apply Only.next (setHrState_only _ _ _)
    | with_reducible apply Only.next (modHr_only _ _ _)
    | intro _

theorem baseGrant_only (s : State) : Only [.fab] s (baseGrant s) := by
  unfold baseGrant
  repeat' first
    | (show within _ _ = true; rfl)
    | with_reducible exact Only.refl _ _
    | dsimp only
    | with_reducible apply Only.next (modFab_only _ _)

theorem execFunctionLevelReset_only (s : State) : Answers [.pages, .fab, .pci] s (execFunctionLevelReset s) := by
  unfold execFunctionLevelReset
  repeat' first
    | (show within _ _ = true; rfl)
    | with_reducible exact Only.refl _ _
    | assumption
    | dsimp only
    | with_reducible refine Answers.next ?_
    | with_reducible apply Only.next (baseGrant_only _)
    | with_reducible apply Only.next (disableRings_only _)
    | with_reducible apply Only.next (modPci_only _ _)

theorem execPerst_only (s : State) : Answers [.pages, .pci] s (execPerst s) := by
  unfold execPerst
  repeat' first
    | (show within _ _ = true; rfl)
    | with_reducible exact Only.refl _ _
    | assumption
    | dsimp only
    | with_reducible refine Answers.next ?_
    | with_reducible apply Only.next (disableRings_only _)
    | with_reducible apply Only.next (modPci_only _ _)

theorem dropForCore_only (q : Nat) (s : State) : Only [.ques, .tcs] s (dropForCore q s) := by
  unfold dropForCore
  repeat' first
    | (show within _ _ = true; rfl)
    | with_reducible exact Only.refl _ _
    | assumption
    | dsimp only
    | with_reducible apply Only.next (modTc_only _ _ _)
    | with_reducible apply Only.next (modQue_only _ _ _)
    | with_reducible refine Only.ite ?_ ?_

theorem execQueueFlushDone_only (q : QNum) (s : State) : Answers [.pages, .fab, .del, .ques, .pci, .tcs, .fwl, .outbox] s (execQueueFlushDone q s) := by
  unfold execQueueFlushDone
  repeat' first
    | (show within _ _ = true; rfl)
    | with_reducible exact Only.refl _ _
    | assumption
    | dsimp only
    | with_reducible refine Answers.next ?_
    | with_reducible apply Only.next (completeDesc_only _ _ _)
    | with_reducible apply Only.next (modHr_only _ _ _)
    | with_reducible apply Only.next (fill_only _ _)
    | with_reducible apply Only.next (modQue_only _ _ _)
    | with_reducible apply Only.next (dropForCore_only _ _)
    | with_reducible apply Only.next (queAlert_only _ _ _)
    | with_reducible refine Only.ite ?_ ?_
    | with_reducible refine Answers.ite ?_ ?_

theorem fspAccept_only (ws : List W128) (s : State) : Only [.pages, .fab, .del, .pci, .fsp, .fwl, .outbox] s (fspAccept ws s).1 := by
  unfold fspAccept
  repeat' first
    | (show within _ _ = true; rfl)
    | with_reducible exact Only.refl _ _
    | dsimp only
    | with_reducible apply Only.next (raiseOnce_only _ _ _ _ _)
    | with_reducible apply Only.next (modFsp_only _ _)
    | with_reducible refine Only.ite ?_ ?_
    | with_reducible refine Only.ite_fst ?_ ?_

theorem execFspStreamItem_only (dev : Nat) (con : Con) (seq : Nat) (item : Item) (s : State) : Answers [.pages, .fab, .del, .pci, .fsp, .fwl, .outbox] s (execFspStreamItem dev con seq item s) := by
  unfold execFspStreamItem
  repeat' first
    | (show within _ _ = true; rfl)
    | with_reducible exact Only.refl _ _
    | assumption
    | dsimp only
    | with_reducible refine Answers.next ?_
    | with_reducible apply Only.next (fspAccept_only _ _)
    | with_reducible apply Only.next (handOver_only _ _ _ _)
    | with_reducible refine Only.ite ?_ ?_

theorem execFspIdleTimer_only (s : State) : Answers [.fsp] s (execFspIdleTimer s) := by
  unfold execFspIdleTimer
  repeat' first
    | (show within _ _ = true; rfl)
    | with_reducible exact Only.refl _ _
    | assumption
    | dsimp only
    | with_reducible refine Answers.next ?_
    | with_reducible apply Only.next (modFsp_only _ _)

theorem execFspResync_only (r : Req) (s : State) : Answers [.fab, .fsp] s (execFspResync r s) := by
  unfold execFspResync
  repeat' first
    | (show within _ _ = true; rfl)
    | with_reducible exact Only.refl _ _
    | assumption
    | dsimp only
    | with_reducible refine Answers.next ?_
    | with_reducible apply gated_then
    | with_reducible apply Only.next (modFsp_only _ _)
    | intro _

theorem execFspLenWrite_only (r : Req) (v : Word) (s : State) : Answers [.fab, .fsp] s (execFspLenWrite r v s) := by
  unfold execFspLenWrite
  repeat' first
    | (show within _ _ = true; rfl)
    | with_reducible exact Only.refl _ _
    | assumption
    | dsimp only
    | with_reducible refine Answers.next ?_
    | with_reducible apply gated_then
    | with_reducible apply Only.next (modFsp_only _ _)
    | with_reducible refine Only.ite ?_ ?_
    | with_reducible refine Answers.ite ?_ ?_
    | split
    | intro _

theorem fspSoftReset_only (s : State) : Only [.fsp] s (fspSoftReset s) := by
  unfold fspSoftReset
  repeat' first
    | (show within _ _ = true; rfl)
    | with_reducible exact Only.refl _ _
    | dsimp only
    | with_reducible apply Only.next (modFsp_only _ _)


end Sys2Proof.Machine
end

