-- ==== Sys2Proof/Laws/FrameDelivery.lean ====
section
/-! SUPPORT. The frames of the operations of Machine/Delivery.lean. -/

namespace Sys2Proof.Machine

theorem execRunCloseTimer_only (con : Con) (slot : Slot) (s : State) : Answers [.del] s (execRunCloseTimer con slot s) := by
  unfold execRunCloseTimer
  repeat' first
    | (show within _ _ = true; rfl)
    | with_reducible exact Only.refl _ _
    | assumption
    | dsimp only
    | with_reducible refine Answers.next ?_
    | with_reducible apply Only.next (closeRun_only _ _ _)

theorem raiseGaps_only (id : Nat) (g : List KItem) (s : State) : Only [.pages, .fab, .del, .pci, .fwl, .outbox] s (raiseGaps id g s) := by
  unfold raiseGaps
  repeat' first
    | (show within _ _ = true; rfl)
    | with_reducible exact Only.refl _ _
    | assumption
    | dsimp only
    | with_reducible apply Only.next (raise_only _ _ _ _)
    | with_reducible apply Only.foldl_then
    | with_reducible apply Only.id_then
    | intro _

theorem putItemK_only (id : Nat) (s : State) (i : Item) : Only [.pages, .fab, .del, .pci, .fwl, .outbox] s (putItemK id s i) := by
  unfold putItemK
  repeat' first
    | (show within _ _ = true; rfl)
    | with_reducible exact Only.refl _ _
    | assumption
    | dsimp only
    | with_reducible apply Only.next (makeRoom_only _ _ _)
    | with_reducible apply Only.next (raiseGaps_only _ _ _)
    | with_reducible apply Only.next (raiseOnce_only _ _ _ _ _)
    | with_reducible apply Only.next (modCon_only _ _ _)
    | with_reducible apply Only.next (kennelPut_only _ _ _)
    | with_reducible apply Only.next (putAnchor_only _ _ _ _)
    | with_reducible apply Only.foldl_then
    | with_reducible apply Only.foldl_fst_then
    | with_reducible apply Only.foldl_snd_then
    | with_reducible refine Only.ite ?_ ?_
    | with_reducible refine Only.ite_fst ?_ ?_
    | with_reducible refine Only.ite_snd ?_ ?_
    | with_reducible apply Only.id_then
    | split
    | intro _

theorem promote_only (id : Nat) (limit : Stamp) (s : State) : Only [.pages, .fab, .del, .pci, .fwl, .outbox] s (promote id limit s) := by
  unfold promote
  repeat' first
    | (show within _ _ = true; rfl)
    | with_reducible exact Only.refl _ _
    | assumption
    | dsimp only
    | with_reducible apply Only.next (modCon_only _ _ _)
    | with_reducible apply Only.next (putItemK_only _ _ _)
    | with_reducible apply Only.foldl_then
    | with_reducible apply Only.id_then
    | intro _

theorem requestRetx_only (dev id num : Nat) (s : State) : Only [.lanes, .del] s (requestRetx dev id num s) := by
  unfold requestRetx
  repeat' first
    | (show within _ _ = true; rfl)
    | with_reducible exact Only.refl _ _
    | dsimp only
    | with_reducible apply Only.next (modCon_only _ _ _)
    | with_reducible apply Only.next (sendCtrl_only _ _)
    | with_reducible refine Only.ite ?_ ?_

theorem capIn_only (dev id : Nat) (why : CapWhy) (s : State) : Only [.pages, .del] s (capIn dev id why s) := by
  unfold capIn
  repeat' first
    | (show within _ _ = true; rfl)
    | with_reducible exact Only.refl _ _
    | dsimp only
    | with_reducible apply Only.next (bumpGen_only _ _)
    | with_reducible apply Only.next (modIn_only _ _ _ _)

theorem uncap_only (dev id : Nat) (s : State) : Only [.pages, .del] s (uncap dev id s) := by
  unfold uncap
  repeat' first
    | (show within _ _ = true; rfl)
    | with_reducible exact Only.refl _ _
    | assumption
    | dsimp only
    | with_reducible apply Only.next (bumpGen_only _ _)
    | with_reducible apply Only.next (modIn_only _ _ _ _)
    | with_reducible refine Only.ite ?_ ?_
    | with_reducible apply Only.id_then
    | split

theorem mrgRaise_only (k id : Nat) (s : State) : Only [.pages, .fab, .del, .pci, .fwl, .outbox] s (mrgRaise k id s) := by
  unfold mrgRaise
  repeat' first
    | (show within _ _ = true; rfl)
    | with_reducible exact Only.refl _ _
    | dsimp only
    | with_reducible apply Only.next (raiseOnce_only _ _ _ _ _)

theorem toEndpoint_only (e : Contract) (id dev endSeq : Nat) (i : Item) (s : State) : Only [.pages, .fab, .del, .ques, .pci, .fsp, .tcs, .fwl, .bst, .outbox] s (toEndpoint e id dev endSeq i s).1 := by
  unfold toEndpoint
  repeat' first
    | (show within _ _ = true; rfl)
    | with_reducible exact Only.refl _ _
    | assumption
    | dsimp only
    | with_reducible apply Only.next (handOver_only _ _ _ _)
    | with_reducible apply Only.next (putItem_only _ _ _)
    | with_reducible apply Only.next (hrAccept_only _ _ _)
    | with_reducible apply Only.next (tcAccept_only _ _ _ _ _)
    | with_reducible apply Only.next (fspAccept_only _ _)
    | with_reducible refine Only.ite ?_ ?_
    | with_reducible refine Only.ite_fst ?_ ?_
    | with_reducible refine Only.ite_snd ?_ ?_
    | with_reducible apply Only.id_then
    | split

theorem sendUp_only (cls dev id seq : Nat) (res : Bool) (i : Item) (s : State) : Only [.pages, .fab, .lanes, .del, .pci, .fwl, .outbox] s (sendUp cls dev id seq res i s) := by
  unfold sendUp
  repeat' first
    | (show within _ _ = true; rfl)
    | with_reducible exact Only.refl _ _
    | assumption
    | dsimp only
    | with_reducible apply Only.next (overrunCheck_only _ _ _)
    | with_reducible apply Only.next (putStreams_only _ _ _ _)
    | with_reducible apply Only.foldl_then
    | with_reducible apply Only.id_then
    | split
    | intro _

theorem leaveMerger_only (dev id seq : Nat) (i : Item) (span : Nat) (s : State) : Only [.pages, .fab, .lanes, .del, .ques, .pci, .fsp, .tcs, .fwl, .bst, .outbox] s (leaveMerger dev id seq i span s).1 := by
  unfold leaveMerger
  repeat' first
    | (show within _ _ = true; rfl)
    | with_reducible exact Only.refl _ _
    | assumption
    | dsimp only
    | with_reducible apply Only.next (toEndpoint_only _ _ _ _ _ _)
    | with_reducible apply Only.next (sendUp_only _ _ _ _ _ _ _)
    | with_reducible refine Only.ite ?_ ?_
    | with_reducible refine Only.ite_fst ?_ ?_
    | with_reducible refine Only.ite_snd ?_ ?_
    | with_reducible apply Only.id_then
    | split

theorem releaseLoop_only (cls : Nat) (h : Stamp) (fuel : Nat) (aside : List (Nat × Nat)) (full : List (Option (Nat × Nat))) (s : State) : Only [.pages, .fab, .lanes, .del, .ques, .pci, .fsp, .tcs, .fwl, .bst, .outbox] s (releaseLoop cls h fuel aside full s) := by
  induction fuel generalizing s aside full with
  | zero => exact Only.refl _ _
  | succ fuel ih =>
    unfold releaseLoop
    repeat' (first
    | (show within _ _ = true; rfl)
    | (with_reducible exact Only.refl _ _)
    | assumption
    | dsimp only
    | with_reducible apply Only.after (ih _ _)
    | (with_reducible apply Only.next (mrgRaise_only _ _ _))
    | (with_reducible apply Only.next (capIn_only _ _ _ _))
    | (with_reducible apply Only.next (leaveMerger_only _ _ _ _ _ _))
    | (with_reducible apply Only.next (modIn_only _ _ _ _))
    | (with_reducible apply Only.next (modDel_only _ _))
    | (with_reducible refine Only.ite ?_ ?_)
    | (with_reducible refine Only.ite_fst ?_ ?_)
    | (with_reducible refine Only.ite_snd ?_ ?_)
    | split)

theorem setHorizon_only (cls : Nat) (h : Option Stamp) (s : State) : Only [.lanes, .lsh, .del] s (setHorizon cls h s) := by
  unfold setHorizon
  repeat' first
    | (show within _ _ = true; rfl)
    | with_reducible exact Only.refl _ _
    | assumption
    | dsimp only
    | with_reducible apply Only.next (journal_only _ _)
    | with_reducible apply Only.next (modDel_only _ _)
    | with_reducible refine Only.ite ?_ ?_
    | split

theorem mergeRelease_only (cls : Nat) (s : State) : Only [.pages, .fab, .lanes, .lsh, .del, .ques, .pci, .fsp, .tcs, .fwl, .bst, .outbox] s (mergeRelease cls s) := by
  unfold mergeRelease
  repeat' first
    | (show within _ _ = true; rfl)
    | with_reducible exact Only.refl _ _
    | assumption
    | dsimp only
    | with_reducible apply Only.next (setHorizon_only _ _ _)
    | with_reducible apply Only.next (releaseLoop_only _ _ _ _ _ _)
    | with_reducible refine Only.ite ?_ ?_
    | split

theorem retire_only (id : Nat) (s : State) : Only [.pages, .del] s (retire id s) := by
  unfold retire
  repeat' first
    | (show within _ _ = true; rfl)
    | with_reducible exact Only.refl _ _
    | assumption
    | dsimp only
    | with_reducible apply Only.next (bumpGen_only _ _)
    | with_reducible apply Only.next (modCon_only _ _ _)
    | with_reducible apply Only.next (modDel_only _ _)
    | with_reducible refine Only.ite ?_ ?_

theorem applyHorizon_only (dev id cls : Nat) (h : Stamp) (s : State) : Only [.pages, .fab, .lanes, .lsh, .del, .ques, .pci, .fsp, .tcs, .fwl, .bst, .outbox] s (applyHorizon dev id cls h s) := by
  unfold applyHorizon
  repeat' first
    | (show within _ _ = true; rfl)
    | with_reducible exact Only.refl _ _
    | assumption
    | dsimp only
    | with_reducible apply Only.next (modIn_only _ _ _ _)
    | with_reducible apply Only.next (bumpGen_only _ _)
    | with_reducible apply Only.next (raiseOnce_only _ _ _ _ _)
    | with_reducible apply Only.next (mergeRelease_only _ _)
    | with_reducible refine Only.ite ?_ ?_

theorem takeLate_only (dev id seq : Nat) (i : Item) (h : Stamp) (s : State) : Only [.pages, .fab, .lanes, .del, .ques, .pci, .fsp, .tcs, .fwl, .bst, .outbox] s (takeLate dev id seq i h s) := by
  unfold takeLate
  repeat' first
    | (show within _ _ = true; rfl)
    | with_reducible exact Only.refl _ _
    | assumption
    | dsimp only
    | with_reducible apply Only.next (mrgRaise_only _ _ _)
    | with_reducible apply Only.next (leaveMerger_only _ _ _ _ _ _)
    | with_reducible apply Only.next (modIn_only _ _ _ _)
    | with_reducible apply Only.next (modDel_only _ _)
    | with_reducible refine Only.ite ?_ ?_
    | with_reducible refine Only.ite_fst ?_ ?_

theorem takeGap_only (dev id seq : Nat) (i : Item) (s : State) : Only [.pages, .del] s (takeGap dev id seq i s) := by
  unfold takeGap
  repeat' first
    | (show within _ _ = true; rfl)
    | with_reducible exact Only.refl _ _
    | assumption
    | dsimp only
    | with_reducible apply Only.next (uncap_only _ _ _)
    | with_reducible apply Only.next (modIn_only _ _ _ _)

theorem acceptItem_only (e : Contract) (dev id seq : Nat) (i : Item) (s : State) : Only [.pages, .fab, .lanes, .lsh, .del, .ques, .pci, .fsp, .tcs, .fwl, .bst, .outbox] s (acceptItem e dev id seq i s) := by
  unfold acceptItem
  repeat' first
    | (show within _ _ = true; rfl)
    | with_reducible exact Only.refl _ _
    | assumption
    | dsimp only
    | with_reducible apply Only.next (uncap_only _ _ _)
    | with_reducible apply Only.next (modIn_only _ _ _ _)
    | with_reducible apply Only.next (retire_only _ _)
    | with_reducible apply Only.next (applyHorizon_only _ _ _ _ _)
    | with_reducible apply Only.next (takeLate_only _ _ _ _ _ _)
    | with_reducible apply Only.next (mergeRelease_only _ _)
    | with_reducible refine Only.ite ?_ ?_
    | with_reducible apply Only.id_then
    | split

theorem takeItem_only (dev id seq : Nat) (res : Bool) (i : Item) (s : State) : Only [.pages, .fab, .lanes, .lsh, .del, .ques, .pci, .fsp, .tcs, .fwl, .bst, .outbox] s (takeItem dev id seq res i s) := by
  unfold takeItem
  repeat' first
    | (show within _ _ = true; rfl)
    | with_reducible exact Only.refl _ _
    | assumption
    | dsimp only
    | with_reducible apply Only.next (modIn_only _ _ _ _)
    | with_reducible apply Only.next (sendUp_only _ _ _ _ _ _ _)
    | with_reducible apply Only.next (uncap_only _ _ _)
    | with_reducible apply Only.next (mergeRelease_only _ _)
    | with_reducible apply Only.next (takeGap_only _ _ _ _ _)
    | with_reducible apply Only.next (mrgRaise_only _ _ _)
    | with_reducible apply Only.next (capIn_only _ _ _ _)
    | with_reducible apply Only.next (acceptItem_only _ _ _ _ _ _)
    | with_reducible apply Only.next (requestRetx_only _ _ _ _)
    | with_reducible apply Only.next (modDel_only _ _)
    | with_reducible refine Only.ite ?_ ?_
    | with_reducible refine Only.ite_fst ?_ ?_
    | with_reducible refine Only.ite_snd ?_ ?_
    | with_reducible apply Only.id_then
    | split

theorem noteAnchor_only (w p : W128) (s : State) : Only [.del] s (noteAnchor w p s) := by
  unfold noteAnchor
  repeat' first
    | (show within _ _ = true; rfl)
    | with_reducible exact Only.refl _ _
    | assumption
    | dsimp only
    | with_reducible apply Only.next (modDel_only _ _)

theorem seeAnchor_only (ws : List W128) (s : State) : Only [.del] s (seeAnchor ws s) := by
  unfold seeAnchor
  repeat' first
    | (show within _ _ = true; rfl)
    | with_reducible exact Only.refl _ _
    | assumption
    | dsimp only
    | with_reducible apply Only.next (noteAnchor_only _ _ _)
    | with_reducible refine Only.ite ?_ ?_
    | split

theorem execDataItemReceive_only (dev : Nat) (con : Con) (seq : Nat) (res : Bool) (words : List W128) (s : State) : Answers [.pages, .fab, .lanes, .lsh, .del, .ques, .pci, .fsp, .tcs, .fwl, .bst, .outbox] s (execDataItemReceive dev con seq res words s) := by
  unfold execDataItemReceive
  repeat' first
    | (show within _ _ = true; rfl)
    | with_reducible exact Only.refl _ _
    | assumption
    | dsimp only
    | with_reducible refine Answers.next ?_
    | with_reducible apply Only.next (seeAnchor_only _ _)
    | with_reducible apply Only.next (serveMerger_only _)
    | with_reducible apply Only.next (takeItem_only _ _ _ _ _ _)
    | split

theorem execHorizonReceive_only (dev : Nat) (con : Con) (seq : Nat) (beat : Bool) (w : W128) (s : State) : Answers [.pages, .fab, .lanes, .lsh, .del, .ques, .pci, .fsp, .tcs, .fwl, .bst, .outbox] s (execHorizonReceive dev con seq beat w s) := by
  unfold execHorizonReceive
  repeat' first
    | (show within _ _ = true; rfl)
    | with_reducible exact Only.refl _ _
    | assumption
    | dsimp only
    | with_reducible refine Answers.next ?_
    | with_reducible apply Only.next (serveMerger_only _)
    | with_reducible apply Only.next (applyHorizon_only _ _ _ _ _)
    | with_reducible apply Only.next (takeItem_only _ _ _ _ _ _)
    | with_reducible refine Only.ite ?_ ?_
    | with_reducible refine Answers.ite ?_ ?_
    | split

theorem execInputAbsentTimer_only (dev : Nat) (con : Con) (beat : Bool) (s : State) : Answers [.pages, .fab, .lanes, .lsh, .del, .ques, .pci, .fsp, .tcs, .fwl, .bst, .outbox] s (execInputAbsentTimer dev con beat s) := by
  unfold execInputAbsentTimer
  repeat' first
    | (show within _ _ = true; rfl)
    | with_reducible exact Only.refl _ _
    | assumption
    | dsimp only
    | with_reducible refine Answers.next ?_
    | with_reducible apply Only.next (bumpGen_only _ _)
    | with_reducible apply Only.next (modIn_only _ _ _ _)
    | with_reducible apply Only.next (mergeRelease_only _ _)
    | with_reducible apply Only.next (raiseOnce_only _ _ _ _ _)
    | with_reducible apply Only.next (modDel_only _ _)
    | with_reducible refine Only.ite ?_ ?_
    | with_reducible refine Answers.ite ?_ ?_
    | with_reducible apply Only.id_then
    | split

theorem execMergerBeat_only (cls : Cls) (s : State) : Answers [.pages, .fab, .lanes, .lsh, .del, .ques, .pci, .fsp, .tcs, .fwl, .bst, .outbox] s (execMergerBeat cls s) := by
  unfold execMergerBeat
  repeat' first
    | (show within _ _ = true; rfl)
    | with_reducible exact Only.refl _ _
    | assumption
    | dsimp only
    | with_reducible refine Answers.next ?_
    | with_reducible apply Only.next (mergeRelease_only _ _)
    | with_reducible apply Only.next (toEndpoint_only _ _ _ _ _ _)
    | with_reducible apply Only.next (putStreams_only _ _ _ _)
    | with_reducible apply Only.foldl_then
    | with_reducible apply Only.foldl_fst_then
    | with_reducible apply Only.foldl_snd_then
    | with_reducible refine Only.ite ?_ ?_
    | with_reducible refine Only.ite_fst ?_ ?_
    | with_reducible refine Only.ite_snd ?_ ?_
    | with_reducible refine Answers.ite ?_ ?_
    | with_reducible apply Only.id_then
    | split
    | intro _

theorem sendSeg_only (id : Nat) (k : KItem) (res : Bool) (s : State) : Only [.pages, .fab, .lanes, .lsh, .del, .ques, .pci, .fsp, .tcs, .fwl, .bst, .outbox] s (sendSeg id k res s) := by
  unfold sendSeg
  repeat' first
    | (show within _ _ = true; rfl)
    | with_reducible exact Only.refl _ _
    | assumption
    | dsimp only
    | with_reducible apply Only.next (overrunCheck_only _ _ _)
    | with_reducible apply Only.next (putStreams_only _ _ _ _)
    | with_reducible apply Only.next (takeItem_only _ _ _ _ _ _)
    | with_reducible apply Only.foldl_then
    | with_reducible refine Only.ite ?_ ?_
    | with_reducible apply Only.id_then
    | split
    | intro _

theorem refill_only (id : Nat) (s : State) : Only [.del] s (refill id s) := by
  unfold refill
  repeat' first
    | (show within _ _ = true; rfl)
    | with_reducible exact Only.refl _ _
    | assumption
    | dsimp only
    | with_reducible apply Only.next (modCon_only _ _ _)
    | with_reducible apply Only.id_then
    | split

theorem handLocal_only (id : Nat) (k : KItem) (s : State) : Only [.pages, .fab, .del, .ques, .pci, .fsp, .tcs, .fwl, .bst, .outbox] s (handLocal id k s).1 := by
  unfold handLocal
  repeat' first
    | (show within _ _ = true; rfl)
    | with_reducible exact Only.refl _ _
    | assumption
    | dsimp only
    | with_reducible apply Only.next (toEndpoint_only _ _ _ _ _ _)
    | with_reducible apply Only.id_then
    | split

theorem markSent_only (id seq : Nat) (s : State) : Only [.del] s (markSent id seq s) := by
  unfold markSent
  repeat' first
    | (show within _ _ = true; rfl)
    | with_reducible exact Only.refl _ _
    | dsimp only
    | with_reducible apply Only.next (modCon_only _ _ _)

theorem sendLoop_only (id fuel : Nat) (s : State) : Only [.pages, .fab, .lanes, .lsh, .del, .ques, .pci, .fsp, .tcs, .fwl, .bst, .outbox] s (sendLoop id fuel s) := by
  induction fuel generalizing s with
  | zero => exact Only.refl _ _
  | succ fuel ih =>
    unfold sendLoop
    repeat' (first
    | (show within _ _ = true; rfl)
    | (with_reducible exact Only.refl _ _)
    | assumption
    | dsimp only
    | with_reducible apply Only.after (ih)
    | (with_reducible apply Only.next (handLocal_only _ _ _))
    | (with_reducible apply Only.next (markSent_only _ _ _))
    | (with_reducible apply Only.next (sendSeg_only _ _ _ _))
    | (with_reducible apply Only.next (modCon_only _ _ _))
    | (with_reducible refine Only.ite ?_ ?_)
    | (with_reducible refine Only.ite_fst ?_ ?_)
    | (with_reducible refine Only.ite_snd ?_ ?_)
    | split)

theorem transmit_only (id : Nat) (s : State) : Only [.pages, .fab, .lanes, .lsh, .del, .ques, .pci, .fsp, .tcs, .fwl, .bst, .outbox] s (transmit id s) := by
  unfold transmit
  repeat' first
    | (show within _ _ = true; rfl)
    | with_reducible exact Only.refl _ _
    | dsimp only
    | with_reducible apply Only.next (sendLoop_only _ _ _)
    | with_reducible apply Only.next (refill_only _ _)

theorem serveRetx_only (id num : Nat) (s : State) : Only [.pages, .fab, .lanes, .lsh, .del, .ques, .pci, .fsp, .tcs, .fwl, .bst, .outbox] s (serveRetx id num s) := by
  unfold serveRetx
  repeat' first
    | (show within _ _ = true; rfl)
    | with_reducible exact Only.refl _ _
    | assumption
    | dsimp only
    | with_reducible apply Only.next (raiseOnce_only _ _ _ _ _)
    | with_reducible apply Only.next (sendSeg_only _ _ _ _)
    | with_reducible apply Only.next (modDel_only _ _)
    | with_reducible apply Only.foldl_then
    | with_reducible refine Only.ite ?_ ?_
    | with_reducible apply Only.id_then
    | split
    | intro _

theorem execRetxReceive_only (con : Con) (num : Nat) (s : State) : Answers [.pages, .fab, .lanes, .lsh, .del, .ques, .pci, .fsp, .tcs, .fwl, .bst, .outbox] s (execRetxReceive con num s) := by
  unfold execRetxReceive
  repeat' first
    | (show within _ _ = true; rfl)
    | with_reducible exact Only.refl _ _
    | assumption
    | dsimp only
    | with_reducible refine Answers.next ?_
    | with_reducible apply Only.next (serveRetx_only _ _ _)
    | with_reducible apply Only.next (serveMerger_only _)

theorem execRetxRepeatTimer_only (dev : Nat) (con : Con) (s : State) : Answers [.lanes, .del] s (execRetxRepeatTimer dev con s) := by
  unfold execRetxRepeatTimer
  repeat' first
    | (show within _ _ = true; rfl)
    | with_reducible exact Only.refl _ _
    | assumption
    | dsimp only
    | with_reducible refine Answers.next ?_
    | with_reducible apply Only.next (requestRetx_only _ _ _ _)
    | with_reducible refine Only.ite ?_ ?_
    | with_reducible refine Answers.ite ?_ ?_
    | split

theorem applyAck_only (id num : Nat) (s : State) : Only [.pages, .del] s (applyAck id num s) := by
  unfold applyAck
  repeat' first
    | (show within _ _ = true; rfl)
    | with_reducible exact Only.refl _ _
    | assumption
    | dsimp only
    | with_reducible apply Only.next (modCon_only _ _ _)
    | with_reducible apply Only.next (retire_only _ _)
    | with_reducible refine Only.ite ?_ ?_

theorem execAckReceive_only (con : Con) (num : Nat) (s : State) : Answers [.pages, .fab, .del, .pci, .fwl, .bst, .outbox] s (execAckReceive con num s) := by
  unfold execAckReceive
  repeat' first
    | (show within _ _ = true; rfl)
    | with_reducible exact Only.refl _ _
    | assumption
    | dsimp only
    | with_reducible refine Answers.next ?_
    | with_reducible apply Only.next (applyAck_only _ _ _)
    | with_reducible apply Only.next (serveMerger_only _)

theorem ackBlocks_only (dev fuel : Nat) (l : List MIn) (s : State) : Only [.lanes] s (ackBlocks dev fuel l s) := by
  induction fuel generalizing s l with
  | zero => exact Only.refl _ _
  | succ fuel ih =>
    cases l with
    | nil => exact Only.refl _ _
    | cons i l =>
      unfold ackBlocks
      repeat' (first
    | (show within _ _ = true; rfl)
    | (with_reducible exact Only.refl _ _)
    | assumption
    | dsimp only
    | with_reducible apply Only.after (ih _)
    | (with_reducible apply Only.next (sendCtrl_only _ _)))

theorem execAckTimer_only (s : State) : Answers [.pages, .lanes, .lsh, .del] s (execAckTimer s) := by
  unfold execAckTimer
  repeat' first
    | (show within _ _ = true; rfl)
    | with_reducible exact Only.refl _ _
    | assumption
    | dsimp only
    | with_reducible refine Answers.next ?_
    | with_reducible apply Only.next (journal_only _ _)
    | with_reducible apply Only.next (modIn_only _ _ _ _)
    | with_reducible apply Only.next (applyAck_only _ _ _)
    | with_reducible apply Only.next (ackBlocks_only _ _ _ _)
    | with_reducible apply Only.foldl_then
    | with_reducible refine Only.ite ?_ ?_
    | with_reducible refine Answers.ite ?_ ?_
    | split
    | intro _

theorem execKennelCheck_only (s : State) : Answers [.pages, .fab, .del, .pci, .fwl, .outbox] s (execKennelCheck s) := by
  unfold execKennelCheck
  repeat' first
    | (show within _ _ = true; rfl)
    | with_reducible exact Only.refl _ _
    | assumption
    | dsimp only
    | with_reducible refine Answers.next ?_
    | with_reducible apply Only.next (discard_only _ _ _)
    | with_reducible apply Only.next (raiseGaps_only _ _ _)
    | with_reducible apply Only.foldl_then
    | with_reducible apply Only.foldl_fst_then
    | with_reducible apply Only.foldl_snd_then
    | with_reducible refine Only.ite ?_ ?_
    | with_reducible refine Only.ite_fst ?_ ?_
    | with_reducible refine Only.ite_snd ?_ ?_
    | with_reducible refine Answers.ite ?_ ?_
    | with_reducible apply Only.id_then
    | split
    | intro _

theorem execAckStallTimer_only (con : Con) (s : State) : Answers [.pages, .fab, .del, .pci, .fwl, .outbox] s (execAckStallTimer con s) := by
  unfold execAckStallTimer
  repeat' first
    | (show within _ _ = true; rfl)
    | with_reducible exact Only.refl _ _
    | assumption
    | dsimp only
    | with_reducible refine Answers.next ?_
    | with_reducible apply Only.next (raiseOnce_only _ _ _ _ _)
    | with_reducible refine Only.ite ?_ ?_

theorem execStallResume_only (s : State) : Answers [.pages, .fab, .lanes, .lsh, .del, .ques, .pci, .fsp, .tcs, .fwl, .bst, .outbox] s (execStallResume s) := by
  unfold execStallResume
  repeat' first
    | (show within _ _ = true; rfl)
    | with_reducible exact Only.refl _ _
    | assumption
    | dsimp only
    | with_reducible refine Answers.next ?_
    | with_reducible apply Only.next (mergeRelease_only _ _)
    | with_reducible apply Only.next (requestRetx_only _ _ _ _)
    | with_reducible apply Only.foldl_then
    | with_reducible refine Only.ite ?_ ?_
    | with_reducible refine Answers.ite ?_ ?_
    | split
    | intro _

theorem execHolderReceive_only (seg hub term : Nat) (s : State) : Answers [.pages, .fab, .srv, .lanes, .lsh, .del, .ques, .pci, .fsp, .tcs, .fwl, .bst, .outbox] s (execHolderReceive seg hub term s) := by
  unfold execHolderReceive
  repeat' first
    | (show within _ _ = true; rfl)
    | with_reducible exact Only.refl _ _
    | assumption
    | dsimp only
    | with_reducible refine Answers.next ?_
    | with_reducible apply Only.next (fence_only _ _)
    | with_reducible apply Only.next (serveRetx_only _ _ _)
    | with_reducible apply Only.next (modLsh_only _ _)
    | with_reducible apply Only.foldl_then
    | with_reducible apply Only.foldl_fst_then
    | with_reducible apply Only.foldl_snd_then
    | with_reducible refine Only.ite ?_ ?_
    | with_reducible refine Only.ite_fst ?_ ?_
    | with_reducible refine Only.ite_snd ?_ ?_
    | with_reducible refine Answers.ite ?_ ?_
    | with_reducible apply Only.id_then
    | split
    | intro _

theorem execRemovalStop_only (s : State) : Answers [.lsh] s (execRemovalStop s) := by
  unfold execRemovalStop
  repeat' first
    | (show within _ _ = true; rfl)
    | with_reducible exact Only.refl _ _
    | assumption
    | dsimp only
    | with_reducible refine Answers.next ?_
    | with_reducible apply Only.next (modLsh_only _ _)
    | with_reducible refine Only.ite ?_ ?_


end Sys2Proof.Machine
end

