-- ==== Sys2Proof/Laws/FrameFront.lean ====
section
/-! SUPPORT. The frames of the operations of Machine/Front.lean. -/

namespace Sys2Proof.Machine

theorem modChan_only (c : Nat) (f : Chan → Chan) (s : State) : Only [.chans] s (modChan c f s) := by
  unfold modChan
  repeat' first
    | (show within _ _ = true; rfl)
    | with_reducible exact Only.refl _ _
    | dsimp only
    | with_reducible apply Only.next (modChans_only _ _)

theorem modGrp_only (g : Nat) (f : Group → Group) (s : State) : Only [.grps] s (modGrp g f s) := by
  unfold modGrp
  repeat' first
    | (show within _ _ = true; rfl)
    | with_reducible exact Only.refl _ _
    | dsimp only
    | with_reducible apply Only.next (modGrps_only _ _)

theorem analogue_answers {l : List Area} {f : State → State} {s : State} (h : ∀ s, Only l s (f s)) : Answers l s (analogue f s) := by
  unfold analogue
  refine Answers.next ?_
  split
  · exact Only.refl _ _
  · exact h s

theorem setTable_only (g conv range : Nat) (l : List GPoint) (s : State) : Only [.grps] s (setTable g conv range l s) := by
  unfold setTable
  repeat' first
    | (show within _ _ = true; rfl)
    | with_reducible exact Only.refl _ _
    | assumption
    | dsimp only
    | with_reducible apply Only.next (modGrp_only _ _ _)

theorem modLin_only (k : Nat) (f : Lin → Lin) (s : State) : Only [.lins] s (modLin k f s) := by
  unfold modLin
  repeat' first
    | (show within _ _ = true; rfl)
    | with_reducible exact Only.refl _ _
    | dsimp only
    | with_reducible apply Only.next (modLins_only _ _)

theorem noteSubst_only (c : Nat) (sub : Bool) (s : State) : Only [.pages, .fab, .del, .pci, .fwl, .chans, .outbox] s (noteSubst c sub s) := by
  unfold noteSubst
  repeat' first
    | (show within _ _ = true; rfl)
    | with_reducible exact Only.refl _ _
    | assumption
    | dsimp only
    | with_reducible apply Only.next (modChan_only _ _ _)
    | with_reducible apply Only.next (raise_only _ _ _ _)
    | with_reducible apply Only.next (condStart_only _ _ _ _)
    | with_reducible apply Only.next (condEnd_only _ _ _ _)
    | with_reducible refine Only.ite ?_ ?_

theorem inputCause_only (c bit : Nat) (s : State) : Only [.pages, .fab, .del, .pci, .fwl, .chans, .outbox] s (inputCause c bit s) := by
  unfold inputCause
  repeat' first
    | (show within _ _ = true; rfl)
    | with_reducible exact Only.refl _ _
    | assumption
    | dsimp only
    | with_reducible apply Only.next (modChan_only _ _ _)
    | with_reducible apply Only.next (raise_only _ _ _ _)
    | with_reducible refine Only.ite ?_ ?_

theorem groupCause_only (g bit : Nat) (s : State) : Only [.pages, .fab, .del, .pci, .fwl, .outbox] s (groupCause g bit s) := by
  unfold groupCause
  repeat' first
    | (show within _ _ = true; rfl)
    | with_reducible exact Only.refl _ _
    | dsimp only
    | with_reducible apply Only.next (raise_only _ _ _ _)
    | with_reducible refine Only.ite ?_ ?_

theorem freeLatches_only (p : Nat) (mask : Word) (s : State) : Only [.chans] s (freeLatches p mask s) := by
  unfold freeLatches
  repeat' first
    | (show within _ _ = true; rfl)
    | with_reducible exact Only.refl _ _
    | assumption
    | dsimp only
    | with_reducible apply Only.next (modChan_only _ _ _)
    | with_reducible apply Only.foldl_then
    | with_reducible refine Only.ite ?_ ?_
    | split
    | intro _

theorem execViepeMeasure_only (mv : Nat) (s : State) : Answers [.ana] s (execViepeMeasure mv s) := by
  unfold execViepeMeasure
  repeat' first
    | (show within _ _ = true; rfl)
    | with_reducible exact Only.refl _ _
    | assumption
    | dsimp only
    | with_reducible refine Answers.next ?_
    | with_reducible apply analogue_answers
    | with_reducible apply Only.next (modAna_only _ _)
    | intro _

theorem execClampStart_only (c : Chn) (s : State) : Answers [.pages, .fab, .del, .pci, .fwl, .chans, .outbox] s (execClampStart c s) := by
  unfold execClampStart
  repeat' first
    | (show within _ _ = true; rfl)
    | with_reducible exact Only.refl _ _
    | assumption
    | dsimp only
    | with_reducible refine Answers.next ?_
    | with_reducible apply analogue_answers
    | with_reducible apply Only.next (modChan_only _ _ _)
    | with_reducible apply Only.next (inputCause_only _ _ _)
    | with_reducible apply Only.next (condStart_only _ _ _ _)
    | with_reducible refine Only.ite ?_ ?_
    | with_reducible refine Answers.ite ?_ ?_
    | split
    | intro _

theorem execClampEnd_only (c : Chn) (s : State) : Answers [.fab, .chans] s (execClampEnd c s) := by
  unfold execClampEnd
  repeat' first
    | (show within _ _ = true; rfl)
    | with_reducible exact Only.refl _ _
    | assumption
    | dsimp only
    | with_reducible refine Answers.next ?_
    | with_reducible apply analogue_answers
    | with_reducible apply Only.next (condEnd_only _ _ _ _)
    | with_reducible apply Only.next (modChan_only _ _ _)
    | with_reducible refine Only.ite ?_ ?_
    | with_reducible refine Only.ite_fst ?_ ?_
    | with_reducible refine Only.ite_snd ?_ ?_
    | with_reducible refine Answers.ite ?_ ?_
    | split
    | intro _

theorem execSnsLostDetect_only (g : GGrp) (s : State) : Answers [.pages, .fab, .del, .pci, .fwl, .grps, .outbox] s (execSnsLostDetect g s) := by
  unfold execSnsLostDetect
  repeat' first
    | (show within _ _ = true; rfl)
    | with_reducible exact Only.refl _ _
    | assumption
    | dsimp only
    | with_reducible refine Answers.next ?_
    | with_reducible apply analogue_answers
    | with_reducible apply Only.next (groupCause_only _ _ _)
    | with_reducible apply Only.next (condStart_only _ _ _ _)
    | with_reducible apply Only.next (modGrp_only _ _ _)
    | with_reducible refine Only.ite ?_ ?_
    | with_reducible refine Answers.ite ?_ ?_
    | split
    | intro _

theorem execSnsRestore_only (g : GGrp) (s : State) : Answers [.fab, .grps] s (execSnsRestore g s) := by
  unfold execSnsRestore
  repeat' first
    | (show within _ _ = true; rfl)
    | with_reducible exact Only.refl _ _
    | assumption
    | dsimp only
    | with_reducible refine Answers.next ?_
    | with_reducible apply analogue_answers
    | with_reducible apply Only.next (condEnd_only _ _ _ _)
    | with_reducible apply Only.next (modGrp_only _ _ _)
    | with_reducible refine Only.ite ?_ ?_
    | with_reducible refine Answers.ite ?_ ?_
    | split
    | intro _

theorem execExcLimitEngage_only (g : GGrp) (ma : Nat) (s : State) : Answers [.pages, .fab, .del, .pci, .fwl, .grps, .outbox] s (execExcLimitEngage g ma s) := by
  unfold execExcLimitEngage
  repeat' first
    | (show within _ _ = true; rfl)
    | with_reducible exact Only.refl _ _
    | assumption
    | dsimp only
    | with_reducible refine Answers.next ?_
    | with_reducible apply analogue_answers
    | with_reducible apply Only.next (groupCause_only _ _ _)
    | with_reducible apply Only.next (condStart_only _ _ _ _)
    | with_reducible apply Only.next (modGrp_only _ _ _)
    | with_reducible apply Only.next (condEnd_only _ _ _ _)
    | with_reducible refine Only.ite ?_ ?_
    | with_reducible refine Answers.ite ?_ ?_
    | split
    | intro _

theorem execExcOff_only (g : GGrp) (s : State) : Answers [.pages, .fab, .del, .pci, .fwl, .grps, .outbox] s (execExcOff g s) := by
  unfold execExcOff
  repeat' first
    | (show within _ _ = true; rfl)
    | with_reducible exact Only.refl _ _
    | assumption
    | dsimp only
    | with_reducible refine Answers.next ?_
    | with_reducible apply analogue_answers
    | with_reducible apply Only.next (modGrp_only _ _ _)
    | with_reducible apply Only.next (groupCause_only _ _ _)
    | with_reducible apply Only.next (condStart_only _ _ _ _)
    | with_reducible apply Only.next (condEnd_only _ _ _ _)
    | with_reducible refine Only.ite ?_ ?_
    | with_reducible refine Answers.ite ?_ ?_
    | split
    | intro _

theorem execExcRetry_only (g : GGrp) (ma : Nat) (s : State) : Answers [.fab, .grps] s (execExcRetry g ma s) := by
  unfold execExcRetry
  repeat' first
    | (show within _ _ = true; rfl)
    | with_reducible exact Only.refl _ _
    | assumption
    | dsimp only
    | with_reducible refine Answers.next ?_
    | with_reducible apply analogue_answers
    | with_reducible apply Only.next (condEnd_only _ _ _ _)
    | with_reducible apply Only.next (modGrp_only _ _ _)
    | with_reducible refine Only.ite ?_ ?_
    | with_reducible refine Only.ite_fst ?_ ?_
    | with_reducible refine Only.ite_snd ?_ ?_
    | with_reducible refine Answers.ite ?_ ?_
    | split
    | intro _


end Sys2Proof.Machine
end

