-- ==== Sys2Proof/Laws/FrameAdmission.lean ====
section
/-! SUPPORT. The frames of the operations of Machine/Admission.lean. -/

namespace Sys2Proof.Machine

theorem loadCon_only (s : State) : Only [.rf] s (loadCon s) := by
  unfold loadCon
  repeat' first
    | (show within _ _ = true; rfl)
    | with_reducible exact Only.refl _ _
    | assumption
    | dsimp only
    | with_reducible apply Only.next (rfPut_only _ _ _)
    | with_reducible apply Only.foldl_then
    | split
    | intro _

theorem execMrgCselWrite_only (r : Req) (v : Word) (s : State) : Answers [.pages, .rf, .fab, .del, .pci, .fwl, .bst, .outbox] s (execMrgCselWrite r v s) := by
  unfold execMrgCselWrite
  repeat' first
    | (show within _ _ = true; rfl)
    | with_reducible exact Only.refl _ _
    | assumption
    | dsimp only
    | with_reducible refine Answers.next ?_
    | with_reducible apply gatedMerger_then
    | with_reducible apply Only.next (loadCon_only _)
    | with_reducible apply Only.next (rfPut_only _ _ _)
    | intro _

theorem execMrgReload_only (r : Req) (s : State) : Answers [.pages, .rf, .fab, .del, .pci, .fwl, .bst, .outbox] s (execMrgReload r s) := by
  unfold execMrgReload
  repeat' first
    | (show within _ _ = true; rfl)
    | with_reducible exact Only.refl _ _
    | assumption
    | dsimp only
    | with_reducible refine Answers.next ?_
    | with_reducible apply gatedMerger_then
    | with_reducible apply Only.next (loadCon_only _)
    | intro _

theorem loadPart_only (s : State) : Only [.rf] s (loadPart s) := by
  unfold loadPart
  repeat' first
    | (show within _ _ = true; rfl)
    | with_reducible exact Only.refl _ _
    | assumption
    | dsimp only
    | with_reducible apply Only.next (rfPut_only _ _ _)
    | with_reducible apply Only.foldl_then
    | split
    | intro _

theorem tellCon_only (id : Nat) (c : Contract) (s : State) : Only [.lanes, .lsh] s (tellCon id c s) := by
  unfold tellCon
  repeat' first
    | (show within _ _ = true; rfl)
    | with_reducible exact Only.refl _ _
    | assumption
    | dsimp only
    | with_reducible apply Only.next (sendCtrl_only _ _)
    | with_reducible apply Only.next (journal_only _ _)
    | with_reducible apply Only.foldl_then
    | with_reducible apply Only.id_then
    | intro _

theorem execAdmit_only (r : Req) (t : AdmitTerms) (s : State) : Answers [.pages, .fab, .lanes, .lsh, .del, .pci, .fwl, .bst, .outbox] s (execAdmit r t s) := by
  unfold execAdmit
  repeat' first
    | (show within _ _ = true; rfl)
    | with_reducible exact Only.refl _ _
    | assumption
    | dsimp only
    | with_reducible refine Answers.next ?_
    | with_reducible apply gatedMerger_then
    | with_reducible apply Only.next (modCon_only _ _ _)
    | with_reducible apply Only.next (raiseOnce_only _ _ _ _ _)
    | with_reducible apply Only.next (journal_only _ _)
    | with_reducible apply Only.next (bumpGen_only _ _)
    | with_reducible apply Only.next (installCon_only _ _ _ _ _)
    | with_reducible apply Only.next (tellCon_only _ _ _)
    | with_reducible refine Only.ite ?_ ?_
    | with_reducible refine Answers.ite ?_ ?_
    | with_reducible apply Only.id_then
    | split
    | intro _

theorem execWithdraw_only (r : Req) (s : State) : Answers [.pages, .fab, .lanes, .lsh, .del, .pci, .fwl, .bst, .outbox] s (execWithdraw r s) := by
  unfold execWithdraw
  repeat' first
    | (show within _ _ = true; rfl)
    | with_reducible exact Only.refl _ _
    | assumption
    | dsimp only
    | with_reducible refine Answers.next ?_
    | with_reducible apply gatedMerger_then
    | with_reducible apply Only.next (tellCon_only _ _ _)
    | with_reducible apply Only.next (bumpGen_only _ _)
    | with_reducible apply Only.next (modCon_only _ _ _)
    | with_reducible refine Only.ite ?_ ?_
    | with_reducible refine Answers.ite ?_ ?_
    | with_reducible apply Only.id_then
    | split
    | intro _

theorem execContractReceive_only (con : Con) (c : Contract) (start : Nat) (stop : Option Nat) (s : State) : Answers [.pages, .del] s (execContractReceive con c start stop s) := by
  unfold execContractReceive
  repeat' first
    | (show within _ _ = true; rfl)
    | with_reducible exact Only.refl _ _
    | assumption
    | dsimp only
    | with_reducible refine Answers.next ?_
    | with_reducible apply Only.next (installCon_only _ _ _ _ _)

theorem startCon_only (id : Nat) (s : State) : Only [.pages, .del] s (startCon id s) := by
  unfold startCon
  repeat' first
    | (show within _ _ = true; rfl)
    | with_reducible exact Only.refl _ _
    | assumption
    | dsimp only
    | with_reducible apply Only.next (bumpGen_only _ _)
    | with_reducible apply Only.next (modCon_only _ _ _)
    | with_reducible apply Only.next (modIn_only _ _ _ _)
    | with_reducible apply Only.foldl_then
    | with_reducible refine Only.ite ?_ ?_
    | with_reducible apply Only.id_then
    | split
    | intro _

theorem execContractStart_only (con : Con) (s : State) : Answers [.pages, .del] s (execContractStart con s) := by
  unfold execContractStart
  repeat' first
    | (show within _ _ = true; rfl)
    | with_reducible exact Only.refl _ _
    | assumption
    | dsimp only
    | with_reducible refine Answers.next ?_
    | with_reducible apply Only.next (startCon_only _ _)
    | with_reducible refine Only.ite ?_ ?_
    | with_reducible refine Answers.ite ?_ ?_
    | split

theorem execContractEnd_only (con : Con) (s : State) : Answers [.pages, .fab, .del, .pci, .fwl, .outbox] s (execContractEnd con s) := by
  unfold execContractEnd
  repeat' first
    | (show within _ _ = true; rfl)
    | with_reducible exact Only.refl _ _
    | assumption
    | dsimp only
    | with_reducible refine Answers.next ?_
    | with_reducible apply Only.next (closeRun_only _ _ _)
    | with_reducible apply Only.next (raiseOnce_only _ _ _ _ _)
    | with_reducible apply Only.next (retire_only _ _)
    | with_reducible apply Only.foldl_then
    | with_reducible refine Only.ite ?_ ?_
    | with_reducible refine Answers.ite ?_ ?_
    | split
    | intro _


end Sys2Proof.Machine
end

