-- ==== Sys2Proof/Laws/FrameServices.lean ====
section
/-! SUPPORT. The frames of the operations of Machine/Services.lean. -/

namespace Sys2Proof.Machine

theorem modAlarm_only (c : Nat) (f : AlarmCh → AlarmCh) (s : State) : Only [.svc] s (modAlarm c f s) := by
  unfold modAlarm
  repeat' first
    | (show within _ _ = true; rfl)
    | with_reducible exact Only.refl _ _
    | dsimp only
    | with_reducible apply Only.next (modSvc_only _ _)

theorem modRule_only (k : Nat) (f : Rule → Rule) (s : State) : Only [.svc] s (modRule k f s) := by
  unfold modRule
  repeat' first
    | (show within _ _ = true; rfl)
    | with_reducible exact Only.refl _ _
    | dsimp only
    | with_reducible apply Only.next (modSvc_only _ _)

theorem modDin_only (k : Nat) (f : Din → Din) (s : State) : Only [.svc] s (modDin k f s) := by
  unfold modDin
  repeat' first
    | (show within _ _ = true; rfl)
    | with_reducible exact Only.refl _ _
    | dsimp only
    | with_reducible apply Only.next (modSvc_only _ _)

theorem modTout_only (k : Nat) (f : Tpin → Tpin) (s : State) : Only [.svc] s (modTout k f s) := by
  unfold modTout
  repeat' first
    | (show within _ _ = true; rfl)
    | with_reducible exact Only.refl _ _
    | dsimp only
    | with_reducible apply Only.next (modSvc_only _ _)

theorem modTrack_only (k : Nat) (f : Track → Track) (s : State) : Only [.svc] s (modTrack k f s) := by
  unfold modTrack
  repeat' first
    | (show within _ _ = true; rfl)
    | with_reducible exact Only.refl _ _
    | dsimp only
    | with_reducible apply Only.next (modSvc_only _ _)

theorem modSect_only (k : Nat) (f : Sect → Sect) (s : State) : Only [.svc] s (modSect k f s) := by
  unfold modSect
  repeat' first
    | (show within _ _ = true; rfl)
    | with_reducible exact Only.refl _ _
    | dsimp only
    | with_reducible apply Only.next (modSvc_only _ _)

theorem driveTout_only (n : Nat) (before : Bool) (s : State) : Only [.outbox] s (driveTout n before s) := by
  unfold driveTout
  repeat' first
    | (show within _ _ = true; rfl)
    | with_reducible exact Only.refl _ _
    | dsimp only
    | with_reducible apply Only.next (drive_only _ _)
    | with_reducible refine Only.ite ?_ ?_

theorem setActive_only (k : Nat) (on : Bool) (s : State) : Only [.pages, .fab, .del, .pci, .svc, .fwl, .outbox] s (setActive k on s) := by
  unfold setActive
  repeat' first
    | (show within _ _ = true; rfl)
    | with_reducible exact Only.refl _ _
    | assumption
    | dsimp only
    | with_reducible apply on_then
    | with_reducible apply Only.next (driveTout_only _ _ _)
    | with_reducible apply Only.next (modRule_only _ _ _)
    | with_reducible apply Only.next (raise_only _ _ _ _)
    | with_reducible refine Only.ite ?_ ?_

theorem evalRule_only (s : State) (k : Nat) : Only [.pages, .fab, .del, .pci, .svc, .fwl, .outbox] s (evalRule s k) := by
  unfold evalRule
  repeat' first
    | (show within _ _ = true; rfl)
    | with_reducible exact Only.refl _ _
    | assumption
    | dsimp only
    | with_reducible apply Only.next (modRule_only _ _ _)
    | with_reducible apply Only.next (setActive_only _ _ _)
    | with_reducible refine Only.ite ?_ ?_
    | split

theorem reflex_only (s : State) : Only [.pages, .fab, .del, .pci, .svc, .fwl, .outbox] s (reflex s) := by
  unfold reflex
  repeat' first
    | (show within _ _ = true; rfl)
    | with_reducible exact Only.refl _ _
    | assumption
    | dsimp only
    | with_reducible apply Only.next (evalRule_only _ _)
    | with_reducible apply Only.foldl_then
    | with_reducible apply Only.foldl_fst_then
    | with_reducible apply Only.foldl_snd_then
    | intro _

theorem execReflexPulseEnd_only (k : Fin 64) (s : State) : Answers [.pages, .fab, .del, .pci, .svc, .fwl, .outbox] s (execReflexPulseEnd k s) := by
  unfold execReflexPulseEnd
  repeat' first
    | (show within _ _ = true; rfl)
    | with_reducible exact Only.refl _ _
    | assumption
    | dsimp only
    | with_reducible refine Answers.next ?_
    | with_reducible apply Only.next (setActive_only _ _ _)
    | with_reducible refine Only.ite ?_ ?_

theorem putRule_only (k : Nat) (a b : Word) (s : State) : Only [.pages, .fab, .del, .pci, .svc, .fwl, .outbox] s (putRule k a b s) := by
  unfold putRule
  repeat' first
    | (show within _ _ = true; rfl)
    | with_reducible exact Only.refl _ _
    | assumption
    | dsimp only
    | with_reducible apply Only.next (setActive_only _ _ _)
    | with_reducible apply Only.next (modRule_only _ _ _)
    | with_reducible refine Only.ite ?_ ?_

theorem execRuleCommit_only (r : Req) (s : State) : Answers [.pages, .fab, .del, .pci, .svc, .fwl, .outbox] s (execRuleCommit r s) := by
  unfold execRuleCommit
  repeat' first
    | (show within _ _ = true; rfl)
    | with_reducible exact Only.refl _ _
    | assumption
    | dsimp only
    | with_reducible refine Answers.next ?_
    | with_reducible apply gated_then
    | with_reducible apply Only.next (putRule_only _ _ _ _)
    | with_reducible apply Only.next (modRule_only _ _ _)
    | with_reducible apply Only.next (raise_only _ _ _ _)
    | with_reducible refine Only.ite ?_ ?_
    | with_reducible refine Answers.ite ?_ ?_
    | split
    | intro _

theorem loadRule_only (s : State) : Only [.rf] s (loadRule s) := by
  unfold loadRule
  repeat' first
    | (show within _ _ = true; rfl)
    | with_reducible exact Only.refl _ _
    | dsimp only
    | with_reducible apply Only.next (rfPut_only _ _ _)

theorem execRuleReload_only (r : Req) (s : State) : Answers [.rf, .fab] s (execRuleReload r s) := by
  unfold execRuleReload
  repeat' first
    | (show within _ _ = true; rfl)
    | with_reducible exact Only.refl _ _
    | assumption
    | dsimp only
    | with_reducible refine Answers.next ?_
    | with_reducible apply gated_then
    | with_reducible apply Only.next (loadRule_only _)
    | intro _

theorem execRuleClear_only (r : Req) (s : State) : Answers [.pages, .fab, .del, .pci, .svc, .fwl, .outbox] s (execRuleClear r s) := by
  unfold execRuleClear
  repeat' first
    | (show within _ _ = true; rfl)
    | with_reducible exact Only.refl _ _
    | assumption
    | dsimp only
    | with_reducible refine Answers.next ?_
    | with_reducible apply gated_then
    | with_reducible apply Only.next (setActive_only _ _ _)
    | with_reducible refine Only.ite ?_ ?_
    | with_reducible refine Answers.ite ?_ ?_
    | split
    | intro _

theorem alarmEvent_only (c code : Nat) (v : Int) (b o : Bool) (t : Stamp) (s : State) : Only [.del] s (alarmEvent c code v b o t s) := by
  unfold alarmEvent
  repeat' first
    | (show within _ _ = true; rfl)
    | with_reducible exact Only.refl _ _
    | dsimp only
    | with_reducible apply Only.next (emit_only _ _)
    | with_reducible refine Only.ite ?_ ?_

theorem compareOne_only (c k range : Nat) (v : Int) (b o : Bool) (t : Stamp) (s : State) : Only [.del, .svc] s (compareOne c k range v b o t s) := by
  unfold compareOne
  repeat' first
    | (show within _ _ = true; rfl)
    | with_reducible exact Only.refl _ _
    | assumption
    | dsimp only
    | with_reducible apply on_then
    | with_reducible apply Only.next (modAlarm_only _ _ _)
    | with_reducible apply Only.next (alarmEvent_only _ _ _ _ _ _ _)
    | with_reducible refine Only.ite ?_ ?_

theorem compareSample_only (c range : Nat) (v : Int) (b o : Bool) (t : Stamp) (s : State) : Only [.pages, .fab, .del, .pci, .svc, .fwl, .outbox] s (compareSample c range v b o t s) := by
  unfold compareSample
  repeat' first
    | (show within _ _ = true; rfl)
    | with_reducible exact Only.refl _ _
    | dsimp only
    | with_reducible apply Only.next (reflex_only _)
    | with_reducible apply Only.next (compareOne_only _ _ _ _ _ _ _ _)

theorem restartCmpr_only (c k : Nat) (s : State) : Only [.del, .svc] s (restartCmpr c k s) := by
  unfold restartCmpr
  repeat' first
    | (show within _ _ = true; rfl)
    | with_reducible exact Only.refl _ _
    | assumption
    | dsimp only
    | with_reducible apply Only.next (alarmEvent_only _ _ _ _ _ _ _)
    | with_reducible apply Only.next (modAlarm_only _ _ _)
    | with_reducible refine Only.ite ?_ ?_
    | split

theorem alarmChange_only (c : Nat) (old new : Word) (s : State) : Only [.pages, .fab, .del, .pci, .svc, .fwl, .outbox] s (alarmChange c old new s) := by
  unfold alarmChange
  repeat' first
    | (show within _ _ = true; rfl)
    | with_reducible exact Only.refl _ _
    | assumption
    | dsimp only
    | with_reducible apply Only.next (restartCmpr_only _ _ _)
    | with_reducible apply Only.next (reflex_only _)
    | with_reducible refine Only.ite ?_ ?_

theorem setTrackState_only (k st : Nat) (s : State) : Only [.pages, .svc] s (setTrackState k st s) := by
  unfold setTrackState
  repeat' first
    | (show within _ _ = true; rfl)
    | with_reducible exact Only.refl _ _
    | dsimp only
    | with_reducible apply Only.next (bumpGen_only _ _)
    | with_reducible apply Only.next (modTrack_only _ _ _)
    | with_reducible refine Only.ite ?_ ?_

theorem suspendTrack_only (k cause : Nat) (keep : List Stamp) (s : State) : Only [.pages, .fab, .del, .pci, .svc, .fwl, .outbox] s (suspendTrack k cause keep s) := by
  unfold suspendTrack
  repeat' first
    | (show within _ _ = true; rfl)
    | with_reducible exact Only.refl _ _
    | assumption
    | dsimp only
    | with_reducible apply Only.next (modTrack_only _ _ _)
    | with_reducible apply Only.next (raiseOnce_only _ _ _ _ _)
    | with_reducible apply Only.next (setTrackState_only _ _ _)

theorem trackEdge_only (k : Nat) (t : Stamp) (s : State) : Only [.pages, .fab, .del, .pci, .svc, .fwl, .outbox] s (trackEdge k t s) := by
  unfold trackEdge
  repeat' first
    | (show within _ _ = true; rfl)
    | with_reducible exact Only.refl _ _
    | assumption
    | dsimp only
    | with_reducible apply Only.next (suspendTrack_only _ _ _ _)
    | with_reducible apply Only.next (modTrack_only _ _ _)
    | with_reducible apply Only.next (setTrackState_only _ _ _)
    | with_reducible apply Only.next (raise_only _ _ _ _)
    | with_reducible apply Only.next (condEnd_only _ _ _ _)
    | with_reducible refine Only.ite ?_ ?_
    | split

theorem execTrackStallTimer_only (t : QNum) (s : State) : Answers [.pages, .fab, .del, .pci, .svc, .fwl, .outbox] s (execTrackStallTimer t s) := by
  unfold execTrackStallTimer
  repeat' first
    | (show within _ _ = true; rfl)
    | with_reducible exact Only.refl _ _
    | assumption
    | dsimp only
    | with_reducible refine Answers.next ?_
    | with_reducible apply Only.next (suspendTrack_only _ _ _ _)
    | with_reducible refine Only.ite ?_ ?_
    | with_reducible refine Answers.ite ?_ ?_
    | split

theorem execTrackOutput_only (t : QNum) (s : State) : Answers [.del, .svc] s (execTrackOutput t s) := by
  unfold execTrackOutput
  repeat' first
    | (show within _ _ = true; rfl)
    | with_reducible exact Only.refl _ _
    | assumption
    | dsimp only
    | with_reducible refine Answers.next ?_
    | with_reducible apply analogue_answers
    | with_reducible apply Only.next (emit_only _ _)
    | with_reducible apply Only.next (modTrack_only _ _ _)
    | with_reducible refine Only.ite ?_ ?_
    | with_reducible refine Only.ite_fst ?_ ?_
    | with_reducible refine Only.ite_snd ?_ ?_
    | with_reducible refine Answers.ite ?_ ?_
    | split
    | intro _

theorem feedTracks_only (c : Nat) (i : Item) (s : State) : Only [.svc] s (feedTracks c i s) := by
  unfold feedTracks
  repeat' first
    | (show within _ _ = true; rfl)
    | with_reducible exact Only.refl _ _
    | assumption
    | dsimp only
    | with_reducible apply Only.next (modTrack_only _ _ _)
    | with_reducible apply Only.foldl_then
    | with_reducible apply Only.foldl_fst_then
    | with_reducible apply Only.foldl_snd_then
    | with_reducible refine Only.ite ?_ ?_
    | with_reducible refine Only.ite_fst ?_ ?_
    | with_reducible refine Only.ite_snd ?_ ?_
    | split
    | intro _

theorem execTrackEnable_only (r : Req) (v : Word) (s : State) : Answers [.pages, .fab, .svc] s (execTrackEnable r v s) := by
  unfold execTrackEnable
  repeat' first
    | (show within _ _ = true; rfl)
    | with_reducible exact Only.refl _ _
    | assumption
    | dsimp only
    | with_reducible refine Answers.next ?_
    | with_reducible apply gated_then
    | with_reducible apply Only.next (setTrackState_only _ _ _)
    | with_reducible apply Only.next (modTrack_only _ _ _)
    | with_reducible refine Only.ite ?_ ?_
    | with_reducible refine Answers.ite ?_ ?_
    | split
    | intro _

theorem takeTare_only (k : Nat) (s : State) : Only [.svc] s (takeTare k s) := by
  unfold takeTare
  repeat' first
    | (show within _ _ = true; rfl)
    | with_reducible exact Only.refl _ _
    | assumption
    | dsimp only
    | with_reducible apply Only.next (modSect_only _ _ _)
    | with_reducible refine Only.ite ?_ ?_
    | with_reducible refine Only.ite_fst ?_ ?_
    | with_reducible refine Only.ite_snd ?_ ?_
    | split

theorem feedSects_only (c : Nat) (r : CellRec) (s : State) : Only [.svc] s (feedSects c r s) := by
  unfold feedSects
  repeat' first
    | (show within _ _ = true; rfl)
    | with_reducible exact Only.refl _ _
    | assumption
    | dsimp only
    | with_reducible apply Only.next (takeTare_only _ _)
    | with_reducible apply Only.next (modSect_only _ _ _)
    | with_reducible apply Only.foldl_then
    | with_reducible apply Only.foldl_fst_then
    | with_reducible apply Only.foldl_snd_then
    | with_reducible refine Only.ite ?_ ?_
    | with_reducible refine Only.ite_fst ?_ ?_
    | with_reducible refine Only.ite_snd ?_ ?_
    | split
    | intro _

theorem spoilSects_only (c : Nat) (t : Stamp) (s : State) : Only [.svc] s (spoilSects c t s) := by
  unfold spoilSects
  repeat' first
    | (show within _ _ = true; rfl)
    | with_reducible exact Only.refl _ _
    | assumption
    | dsimp only
    | with_reducible apply Only.next (modSect_only _ _ _)
    | with_reducible apply Only.foldl_then
    | with_reducible apply Only.foldl_fst_then
    | with_reducible apply Only.foldl_snd_then
    | with_reducible refine Only.ite ?_ ?_
    | with_reducible refine Only.ite_fst ?_ ?_
    | with_reducible refine Only.ite_snd ?_ ?_
    | split
    | intro _

theorem eyeEdge_only (k pin : Nat) (level : Bool) (t : Stamp) (s : State) : Only [.svc] s (eyeEdge k pin level t s) := by
  unfold eyeEdge
  repeat' first
    | (show within _ _ = true; rfl)
    | with_reducible exact Only.refl _ _
    | assumption
    | dsimp only
    | with_reducible apply Only.next (modSect_only _ _ _)
    | with_reducible refine Only.ite ?_ ?_

theorem execWeighRelease_only (sec : Fin 4) (s : State) : Answers [.pages, .fab, .del, .pci, .svc, .fwl, .outbox] s (execWeighRelease sec s) := by
  unfold execWeighRelease
  repeat' first
    | (show within _ _ = true; rfl)
    | with_reducible exact Only.refl _ _
    | assumption
    | dsimp only
    | with_reducible refine Answers.next ?_
    | with_reducible apply analogue_answers
    | with_reducible apply Only.next (emit_only _ _)
    | with_reducible apply Only.next (modSect_only _ _ _)
    | with_reducible apply Only.next (raise_only _ _ _ _)
    | with_reducible refine Only.ite ?_ ?_
    | with_reducible refine Only.ite_fst ?_ ?_
    | with_reducible refine Only.ite_snd ?_ ?_
    | with_reducible refine Answers.ite ?_ ?_
    | split
    | intro _

theorem execSectionEnable_only (r : Req) (v : Word) (s : State) : Answers [.fab, .svc] s (execSectionEnable r v s) := by
  unfold execSectionEnable
  repeat' first
    | (show within _ _ = true; rfl)
    | with_reducible exact Only.refl _ _
    | assumption
    | dsimp only
    | with_reducible refine Answers.next ?_
    | with_reducible apply gated_then
    | with_reducible apply Only.next (modSect_only _ _ _)
    | with_reducible refine Only.ite ?_ ?_
    | with_reducible refine Answers.ite ?_ ?_
    | split
    | intro _

theorem dinLevel_only (pin : Nat) (ball : Bool) (s : State) : Only [.pages, .fab, .del, .pci, .svc, .fwl, .outbox] s (dinLevel pin ball s) := by
  unfold dinLevel
  repeat' first
    | (show within _ _ = true; rfl)
    | with_reducible exact Only.refl _ _
    | dsimp only
    | with_reducible apply Only.next (reflex_only _)
    | with_reducible apply Only.next (modDin_only _ _ _)

theorem execDinLevelChange_only (pin : Fin 32) (level : Bool) (s : State) : Answers [.pages, .fab, .del, .pci, .svc, .fwl, .outbox] s (execDinLevelChange pin level s) := by
  unfold execDinLevelChange
  repeat' first
    | (show within _ _ = true; rfl)
    | with_reducible exact Only.refl _ _
    | assumption
    | dsimp only
    | with_reducible refine Answers.next ?_
    | with_reducible apply Only.next (dinLevel_only _ _ _)

theorem stampEdge_only (pin : Nat) (rise : Bool) (t : Stamp) (s : State) : Only [.pages, .fab, .del, .pci, .svc, .fwl, .outbox] s (stampEdge pin rise t s) := by
  unfold stampEdge
  repeat' first
    | (show within _ _ = true; rfl)
    | with_reducible exact Only.refl _ _
    | assumption
    | dsimp only
    | with_reducible apply Only.next (modDin_only _ _ _)
    | with_reducible apply Only.next (latch_only _ _ _)
    | with_reducible apply Only.next (emit_only _ _)
    | with_reducible apply Only.next (trackEdge_only _ _ _)
    | with_reducible apply Only.next (eyeEdge_only _ _ _ _ _)
    | with_reducible apply Only.foldl_then
    | with_reducible apply Only.foldl_fst_then
    | with_reducible apply Only.foldl_snd_then
    | with_reducible refine Only.ite ?_ ?_
    | with_reducible refine Only.ite_fst ?_ ?_
    | with_reducible refine Only.ite_snd ?_ ?_
    | split
    | intro _

theorem execDinEdge_only (pin : Fin 32) (e : BallEdge) (s : State) : Answers [.pages, .fab, .del, .pci, .svc, .fwl, .outbox] s (execDinEdge pin e s) := by
  unfold execDinEdge
  repeat' first
    | (show within _ _ = true; rfl)
    | with_reducible exact Only.refl _ _
    | assumption
    | dsimp only
    | with_reducible refine Answers.next ?_
    | with_reducible apply Only.next (dinLevel_only _ _ _)
    | with_reducible apply Only.next (modDin_only _ _ _)
    | with_reducible apply Only.next (stampEdge_only _ _ _ _)
    | with_reducible refine Only.ite ?_ ?_
    | with_reducible refine Answers.ite ?_ ?_

theorem setTout_only (n : Nat) (on : Bool) (s : State) : Only [.svc, .outbox] s (setTout n on s) := by
  unfold setTout
  repeat' first
    | (show within _ _ = true; rfl)
    | with_reducible exact Only.refl _ _
    | assumption
    | dsimp only
    | with_reducible apply on_then
    | with_reducible apply Only.next (driveTout_only _ _ _)
    | with_reducible apply Only.next (modTout_only _ _ _)

theorem doSched_only (n : Nat) (x : Sched) (s : State) : Only [.svc, .outbox] s (doSched n x s) := by
  unfold doSched
  repeat' first
    | (show within _ _ = true; rfl)
    | with_reducible exact Only.refl _ _
    | assumption
    | dsimp only
    | with_reducible apply Only.next (setTout_only _ _ _)
    | with_reducible apply Only.next (modTout_only _ _ _)
    | split

theorem execToutScheduleFire_only (pin : QNum) (s : State) : Answers [.svc, .outbox] s (execToutScheduleFire pin s) := by
  unfold execToutScheduleFire
  repeat' first
    | (show within _ _ = true; rfl)
    | with_reducible exact Only.refl _ _
    | assumption
    | dsimp only
    | with_reducible refine Answers.next ?_
    | with_reducible apply Only.next (modTout_only _ _ _)
    | with_reducible apply Only.next (doSched_only _ _ _)
    | with_reducible refine Only.ite ?_ ?_
    | with_reducible refine Answers.ite ?_ ?_
    | split

theorem execToutSchedule_only (r : Req) (v : Word) (s : State) : Answers [.pages, .fab, .del, .pci, .svc, .fwl, .outbox] s (execToutSchedule r v s) := by
  unfold execToutSchedule
  repeat' first
    | (show within _ _ = true; rfl)
    | with_reducible exact Only.refl _ _
    | assumption
    | dsimp only
    | with_reducible refine Answers.next ?_
    | with_reducible apply gated_then
    | with_reducible apply Only.next (modTout_only _ _ _)
    | with_reducible apply Only.next (raiseOnce_only _ _ _ _ _)
    | with_reducible apply Only.next (doSched_only _ _ _)
    | with_reducible refine Only.ite ?_ ?_
    | with_reducible refine Answers.ite ?_ ?_
    | split
    | intro _

theorem execToutCancel_only (r : Req) (_v : Word) (s : State) : Answers [.fab, .svc] s (execToutCancel r _v s) := by
  unfold execToutCancel
  repeat' first
    | (show within _ _ = true; rfl)
    | with_reducible exact Only.refl _ _
    | assumption
    | dsimp only
    | with_reducible refine Answers.next ?_
    | with_reducible apply gated_then
    | with_reducible apply Only.next (modTout_only _ _ _)
    | intro _

theorem execToutOwnerWrite_only (r : Req) (v : Word) (s : State) : Answers [.fab, .svc, .outbox] s (execToutOwnerWrite r v s) := by
  unfold execToutOwnerWrite
  repeat' first
    | (show within _ _ = true; rfl)
    | with_reducible exact Only.refl _ _
    | assumption
    | dsimp only
    | with_reducible refine Answers.next ?_
    | with_reducible apply gated_then
    | with_reducible apply Only.next (driveTout_only _ _ _)
    | with_reducible apply Only.next (modTout_only _ _ _)
    | with_reducible refine Only.ite ?_ ?_
    | with_reducible refine Answers.ite ?_ ?_
    | split
    | intro _

theorem shiftScheds_only (d : Int) (s : State) : Only [.svc] s (shiftScheds d s) := by
  unfold shiftScheds
  repeat' first
    | (show within _ _ = true; rfl)
    | with_reducible exact Only.refl _ _
    | assumption
    | dsimp only
    | with_reducible apply Only.next (modTout_only _ _ _)
    | with_reducible apply Only.foldl_then
    | with_reducible apply Only.foldl_fst_then
    | with_reducible apply Only.foldl_snd_then
    | with_reducible refine Only.ite ?_ ?_
    | with_reducible refine Only.ite_fst ?_ ?_
    | with_reducible refine Only.ite_snd ?_ ?_
    | split
    | intro _


end Sys2Proof.Machine
end

