-- ==== Sys2Proof/Laws/FrameRelief.lean ====
section
/-! SUPPORT. The frames of the operations of Machine/Relief.lean. -/

namespace Sys2Proof.Machine

theorem groupRaise_only (g bit detail : Nat) (s : State) : Only [.pages, .fab, .del, .pci, .fwl, .outbox] s (groupRaise g bit detail s) := by
  unfold groupRaise
  repeat' first
    | (show within _ _ = true; rfl)
    | with_reducible exact Only.refl _ _
    | dsimp only
    | with_reducible apply Only.next (raise_only _ _ _ _)

theorem groupGen_only (g : Nat) (s : State) : Only [.pages] s (groupGen g s) := by
  unfold groupGen
  repeat' first
    | (show within _ _ = true; rfl)
    | with_reducible exact Only.refl _ _
    | dsimp only
    | with_reducible apply Only.next (bumpGen_only _ _)

theorem judgeExtrap_only (g : Nat) (s : State) : Only [.pages, .fab, .del, .pci, .fwl, .grps, .outbox] s (judgeExtrap g s) := by
  unfold judgeExtrap
  repeat' first
    | (show within _ _ = true; rfl)
    | with_reducible exact Only.refl _ _
    | assumption
    | dsimp only
    | with_reducible apply Only.next (raise_only _ _ _ _)
    | with_reducible apply Only.next (condStart_only _ _ _ _)
    | with_reducible apply Only.next (modGrp_only _ _ _)
    | with_reducible apply Only.next (condEnd_only _ _ _ _)
    | with_reducible refine Only.ite ?_ ?_
    | split

theorem modTat_only (g : Nat) (f : Tat → Tat) (s : State) : Only [.grps] s (modTat g f s) := by
  unfold modTat
  repeat' first
    | (show within _ _ = true; rfl)
    | with_reducible exact Only.refl _ _
    | dsimp only
    | with_reducible apply Only.next (modGrp_only _ _ _)

theorem dropDeferred_only (g : Nat) (w : Word) (s : State) : Only [.pages, .fab, .del, .pci, .fwl, .grps, .outbox] s (dropDeferred g w s) := by
  unfold dropDeferred
  repeat' first
    | (show within _ _ = true; rfl)
    | with_reducible exact Only.refl _ _
    | dsimp only
    | with_reducible apply Only.next (raiseOnce_only _ _ _ _ _)
    | with_reducible apply Only.next (modTat_only _ _ _)

theorem deferTail_only (g : Nat) (w : Word) (s : State) : Only [.pages, .fab, .del, .pci, .fwl, .grps, .outbox] s (deferTail g w s) := by
  unfold deferTail
  repeat' first
    | (show within _ _ = true; rfl)
    | with_reducible exact Only.refl _ _
    | dsimp only
    | with_reducible apply Only.next (dropDeferred_only _ _ _)
    | with_reducible apply Only.next (modTat_only _ _ _)
    | with_reducible refine Only.ite ?_ ?_

theorem deferHead_only (g : Nat) (w : Word) (s : State) : Only [.grps] s (deferHead g w s) := by
  unfold deferHead
  repeat' first
    | (show within _ _ = true; rfl)
    | with_reducible exact Only.refl _ _
    | dsimp only
    | with_reducible apply Only.next (modTat_only _ _ _)

theorem tatNext_only (g : Nat) (s : State) : Only [.grps] s (tatNext g s) := by
  unfold tatNext
  repeat' first
    | (show within _ _ = true; rfl)
    | with_reducible exact Only.refl _ _
    | dsimp only
    | with_reducible apply Only.next (modTat_only _ _ _)

theorem requeueTat_only (g : Nat) (s : State) : Only [.grps] s (requeueTat g s) := by
  unfold requeueTat
  repeat' first
    | (show within _ _ = true; rfl)
    | with_reducible exact Only.refl _ _
    | assumption
    | dsimp only
    | with_reducible apply Only.next (deferHead_only _ _ _)
    | with_reducible apply Only.next (modTat_only _ _ _)
    | with_reducible apply Only.next (tatNext_only _ _)
    | with_reducible refine Only.ite ?_ ?_
    | split

theorem freeRelief_only (g : Nat) (s : State) : Only [.grps] s (freeRelief g s) := by
  unfold freeRelief
  repeat' first
    | (show within _ _ = true; rfl)
    | with_reducible exact Only.refl _ _
    | dsimp only
    | with_reducible apply Only.next (modGrp_only _ _ _)

theorem endCheck_only (err res : Nat) (s : State) : Only [.pages, .fab, .del, .pci, .fwl, .bst, .outbox] s (endCheck err res s) := by
  unfold endCheck
  repeat' first
    | (show within _ _ = true; rfl)
    | with_reducible exact Only.refl _ _
    | dsimp only
    | with_reducible apply Only.next (raise_only _ _ _ _)
    | with_reducible apply Only.next (modBst_only _ _)

theorem dropOvl_only (g : Nat) (s : State) : Only [.pages, .grps] s (dropOvl g s) := by
  unfold dropOvl
  repeat' first
    | (show within _ _ = true; rfl)
    | with_reducible exact Only.refl _ _
    | dsimp only
    | with_reducible apply Only.next (groupGen_only _ _)
    | with_reducible apply Only.next (freeRelief_only _ _)
    | with_reducible apply Only.next (modGrp_only _ _ _)

theorem cancelOvl_only (g : Nat) (s : State) : Only [.pages, .fab, .del, .pci, .fwl, .grps, .outbox] s (cancelOvl g s) := by
  unfold cancelOvl
  repeat' first
    | (show within _ _ = true; rfl)
    | with_reducible exact Only.refl _ _
    | dsimp only
    | with_reducible apply Only.next (judgeExtrap_only _ _)
    | with_reducible apply Only.next (dropOvl_only _ _)
    | with_reducible apply Only.next (modGrp_only _ _ _)

theorem dropTask_only (g : Nat) (s : State) : Only [.pages, .fab, .del, .pci, .fwl, .bst, .grps, .outbox] s (dropTask g s) := by
  unfold dropTask
  repeat' first
    | (show within _ _ = true; rfl)
    | with_reducible exact Only.refl _ _
    | assumption
    | dsimp only
    | with_reducible apply Only.next (requeueTat_only _ _)
    | with_reducible apply Only.next (abandonSlice_only _ _)
    | with_reducible apply Only.next (cancelOvl_only _ _)
    | with_reducible apply Only.next (modGrp_only _ _ _)
    | split

theorem takeRelief_only (g task idx range : Nat) (s : State) : Only [.pages, .fab, .del, .pci, .fwl, .bst, .grps, .outbox] s (takeRelief g task idx range s) := by
  unfold takeRelief
  repeat' first
    | (show within _ _ = true; rfl)
    | with_reducible exact Only.refl _ _
    | dsimp only
    | with_reducible apply Only.next (modGrp_only _ _ _)
    | with_reducible apply Only.next (dropTask_only _ _)

theorem decideHard_only (c range : Nat) (s : State) : Only [.chans] s (decideHard c range s) := by
  unfold decideHard
  repeat' first
    | (show within _ _ = true; rfl)
    | with_reducible exact Only.refl _ _
    | assumption
    | dsimp only
    | with_reducible apply Only.next (modChan_only _ _ _)
    | with_reducible refine Only.ite ?_ ?_

theorem hardRange_only (c range : Nat) (s : State) : Only [.pages, .fab, .del, .pci, .fwl, .chans, .grps, .outbox] s (hardRange c range s) := by
  unfold hardRange
  repeat' first
    | (show within _ _ = true; rfl)
    | with_reducible exact Only.refl _ _
    | assumption
    | dsimp only
    | with_reducible apply Only.next (decideHard_only _ _ _)
    | with_reducible apply Only.next (groupRaise_only _ _ _ _)
    | with_reducible apply Only.next (modGrp_only _ _ _)
    | with_reducible refine Only.ite ?_ ?_

theorem drainQueue_only (g : Nat) (s : State) : Only [.pages, .fab, .del, .pci, .fwl, .chans, .grps, .outbox] s (drainQueue g s) := by
  unfold drainQueue
  repeat' first
    | (show within _ _ = true; rfl)
    | with_reducible exact Only.refl _ _
    | assumption
    | dsimp only
    | with_reducible apply Only.next (hardRange_only _ _ _)
    | with_reducible apply Only.next (modGrp_only _ _ _)
    | with_reducible apply Only.foldl_then
    | split
    | intro _

theorem startOvl_only (g c : Nat) (range : Bool) (target attempt : Nat) (req : RReq) (tc : Int) (s : State) : Only [.pages, .grps] s (startOvl g c range target attempt req tc s) := by
  unfold startOvl
  repeat' first
    | (show within _ _ = true; rfl)
    | with_reducible exact Only.refl _ _
    | assumption
    | dsimp only
    | with_reducible apply Only.next (groupGen_only _ _)
    | with_reducible apply Only.next (modGrp_only _ _ _)

theorem takeOvl_only (g c : Nat) (range : Bool) (target : Nat) (req : RReq) (s : State) : Only [.pages, .fab, .del, .pci, .fwl, .bst, .grps, .outbox] s (takeOvl g c range target req s) := by
  unfold takeOvl
  repeat' first
    | (show within _ _ = true; rfl)
    | with_reducible exact Only.refl _ _
    | dsimp only
    | with_reducible apply Only.next (startOvl_only _ _ _ _ _ _ _ _)
    | with_reducible apply Only.next (takeRelief_only _ _ _ _ _)

theorem rotate_only (g : Nat) (s : State) : Only [.pages, .fab, .del, .pci, .fwl, .bst, .grps, .outbox] s (rotate g s) := by
  unfold rotate
  repeat' first
    | (show within _ _ = true; rfl)
    | with_reducible exact Only.refl _ _
    | assumption
    | dsimp only
    | with_reducible apply Only.next (modGrp_only _ _ _)
    | with_reducible apply Only.next (takeOvl_only _ _ _ _ _ _)
    | with_reducible refine Only.ite ?_ ?_
    | split

theorem execReliefForce_only (r : Req) (g : Grp) (s : State) : Answers [.pages, .fab, .del, .pci, .fwl, .bst, .grps, .outbox] s (execReliefForce r g s) := by
  unfold execReliefForce
  repeat' first
    | (show within _ _ = true; rfl)
    | with_reducible exact Only.refl _ _
    | assumption
    | dsimp only
    | with_reducible refine Answers.next ?_
    | with_reducible apply analogue_answers
    | with_reducible apply gated_then
    | with_reducible apply Only.next (rotate_only _ _)
    | intro _

theorem judgeCamp_only (g : Nat) (s : State) : Only [.pages, .fab, .del, .pci, .fwl, .grps, .outbox] s (judgeCamp g s) := by
  unfold judgeCamp
  repeat' first
    | (show within _ _ = true; rfl)
    | with_reducible exact Only.refl _ _
    | assumption
    | dsimp only
    | with_reducible apply Only.next (modGrp_only _ _ _)
    | with_reducible apply Only.next (freeRelief_only _ _)
    | with_reducible apply Only.next (bumpGen_only _ _)
    | with_reducible apply Only.next (raise_only _ _ _ _)
    | with_reducible apply Only.next (condEnd_only _ _ _ _)
    | with_reducible refine Only.ite ?_ ?_

theorem blockCamp_only (g : Nat) (s : State) : Only [.pages, .fab, .del, .pci, .fwl, .grps, .outbox] s (blockCamp g s) := by
  unfold blockCamp
  repeat' first
    | (show within _ _ = true; rfl)
    | with_reducible exact Only.refl _ _
    | dsimp only
    | with_reducible apply Only.next (modGrp_only _ _ _)
    | with_reducible apply Only.next (raise_only _ _ _ _)
    | with_reducible apply Only.next (condStart_only _ _ _ _)
    | with_reducible refine Only.ite ?_ ?_

theorem startCamp_only (g : Nat) (s : State) : Only [.pages, .fab, .del, .pci, .fwl, .grps, .outbox] s (startCamp g s) := by
  unfold startCamp
  repeat' first
    | (show within _ _ = true; rfl)
    | with_reducible exact Only.refl _ _
    | assumption
    | dsimp only
    | with_reducible apply Only.next (modGrp_only _ _ _)
    | with_reducible apply Only.next (bumpGen_only _ _)
    | with_reducible apply Only.next (raise_only _ _ _ _)
    | with_reducible apply Only.next (blockCamp_only _ _)
    | with_reducible apply Only.foldl_then
    | with_reducible refine Only.ite ?_ ?_

theorem beginGroup_only (g : Nat) (s : State) : Only [.pages, .fab, .del, .pci, .fwl, .grps, .outbox] s (beginGroup g s) := by
  unfold beginGroup
  repeat' first
    | (show within _ _ = true; rfl)
    | with_reducible exact Only.refl _ _
    | dsimp only
    | with_reducible apply Only.next (startCamp_only _ _)
    | with_reducible apply Only.next (modGrp_only _ _ _)
    | with_reducible refine Only.ite ?_ ?_

theorem retireConv_only (g conv : Nat) (s : State) : Only [.pages, .fab, .del, .pci, .fwl, .bst, .chans, .grps, .outbox] s (retireConv g conv s) := by
  unfold retireConv
  repeat' first
    | (show within _ _ = true; rfl)
    | with_reducible exact Only.refl _ _
    | assumption
    | dsimp only
    | with_reducible apply Only.next (modGrp_only _ _ _)
    | with_reducible apply Only.next (groupRaise_only _ _ _ _)
    | with_reducible apply Only.next (groupGen_only _ _)
    | with_reducible apply Only.next (endSlice_only _ _ _)
    | with_reducible apply Only.next (blockCamp_only _ _)
    | with_reducible apply Only.next (endCheck_only _ _ _)
    | with_reducible apply Only.next (hardRange_only _ _ _)
    | with_reducible apply Only.next (judgeCamp_only _ _)
    | with_reducible apply Only.next (judgeExtrap_only _ _)
    | with_reducible apply Only.next (drainQueue_only _ _)
    | with_reducible apply Only.next (modChan_only _ _ _)
    | with_reducible refine Only.ite ?_ ?_
    | with_reducible refine Only.ite_fst ?_ ?_
    | with_reducible refine Only.ite_snd ?_ ?_
    | split

theorem execRotationTick_only (g : Grp) (s : State) : Answers [.pages, .fab, .del, .pci, .fwl, .bst, .grps, .outbox] s (execRotationTick g s) := by
  unfold execRotationTick
  repeat' first
    | (show within _ _ = true; rfl)
    | with_reducible exact Only.refl _ _
    | assumption
    | dsimp only
    | with_reducible refine Answers.next ?_
    | with_reducible apply analogue_answers
    | with_reducible apply Only.next (modGrp_only _ _ _)
    | with_reducible apply Only.next (rotate_only _ _)
    | with_reducible apply Only.next (judgeCamp_only _ _)
    | with_reducible refine Only.ite ?_ ?_
    | with_reducible refine Answers.ite ?_ ?_
    | split
    | intro _

theorem unqueue_only (g c : Nat) (s : State) : Only [.grps] s (unqueue g c s) := by
  unfold unqueue
  repeat' first
    | (show within _ _ = true; rfl)
    | with_reducible exact Only.refl _ _
    | dsimp only
    | with_reducible apply Only.next (modGrp_only _ _ _)

theorem enqueue_only (r : RReq) (s : State) : Only [.grps] s (enqueue r s) := by
  unfold enqueue
  repeat' first
    | (show within _ _ = true; rfl)
    | with_reducible exact Only.refl _ _
    | assumption
    | dsimp only
    | with_reducible apply Only.next (modGrp_only _ _ _)
    | with_reducible refine Only.ite ?_ ?_
    | split

theorem serveQueue_only (g : Nat) (s : State) : Only [.pages, .fab, .del, .pci, .fwl, .bst, .chans, .grps, .outbox] s (serveQueue g s) := by
  unfold serveQueue
  repeat' first
    | (show within _ _ = true; rfl)
    | with_reducible exact Only.refl _ _
    | assumption
    | dsimp only
    | with_reducible apply Only.next (hardRange_only _ _ _)
    | with_reducible apply Only.next (unqueue_only _ _ _)
    | with_reducible apply Only.next (takeOvl_only _ _ _ _ _ _)
    | with_reducible refine Only.ite ?_ ?_
    | split

theorem reRange_only (g : Nat) (o : Ovl) (target : Nat) (req : RReq) (s : State) : Only [.pages, .grps] s (reRange g o target req s) := by
  unfold reRange
  repeat' first
    | (show within _ _ = true; rfl)
    | with_reducible exact Only.refl _ _
    | assumption
    | dsimp only
    | with_reducible apply Only.next (startOvl_only _ _ _ _ _ _ _ _)
    | with_reducible apply Only.next (modGrp_only _ _ _)

theorem requestRange_only (r : RReq) (s : State) : Only [.pages, .fab, .del, .pci, .fwl, .bst, .chans, .grps, .outbox] s (requestRange r s) := by
  unfold requestRange
  repeat' first
    | (show within _ _ = true; rfl)
    | with_reducible exact Only.refl _ _
    | assumption
    | dsimp only
    | with_reducible apply Only.next (hardRange_only _ _ _)
    | with_reducible apply Only.next (cancelOvl_only _ _)
    | with_reducible apply Only.next (reRange_only _ _ _ _ _)
    | with_reducible apply Only.next (unqueue_only _ _ _)
    | with_reducible apply Only.next (serveQueue_only _ _)
    | with_reducible apply Only.next (enqueue_only _ _)
    | with_reducible refine Only.ite ?_ ?_
    | split

theorem execHardWaitExpiry_only (c : Chn) (s : State) : Answers [.pages, .fab, .del, .pci, .fwl, .chans, .grps, .outbox] s (execHardWaitExpiry c s) := by
  unfold execHardWaitExpiry
  repeat' first
    | (show within _ _ = true; rfl)
    | with_reducible exact Only.refl _ _
    | assumption
    | dsimp only
    | with_reducible refine Answers.next ?_
    | with_reducible apply analogue_answers
    | with_reducible apply Only.next (hardRange_only _ _ _)
    | with_reducible apply Only.next (unqueue_only _ _ _)
    | with_reducible refine Only.ite ?_ ?_
    | with_reducible refine Answers.ite ?_ ?_
    | split
    | intro _

theorem execReliefTaskStart_only (g : Grp) (s : State) : Answers [.pages, .fab, .del, .pci, .fwl, .bst, .chans, .grps, .outbox] s (execReliefTaskStart g s) := by
  unfold execReliefTaskStart
  repeat' first
    | (show within _ _ = true; rfl)
    | with_reducible exact Only.refl _ _
    | assumption
    | dsimp only
    | with_reducible refine Answers.next ?_
    | with_reducible apply analogue_answers
    | with_reducible apply Only.next (serveQueue_only _ _)
    | with_reducible apply Only.next (rotate_only _ _)
    | with_reducible refine Only.ite ?_ ?_
    | with_reducible refine Answers.ite ?_ ?_
    | split
    | intro _

theorem execHardSwitch_only (c : Chn) (s : State) : Answers [.pages, .fab, .del, .pci, .fwl, .chans, .grps, .outbox] s (execHardSwitch c s) := by
  unfold execHardSwitch
  repeat' first
    | (show within _ _ = true; rfl)
    | with_reducible exact Only.refl _ _
    | assumption
    | dsimp only
    | with_reducible refine Answers.next ?_
    | with_reducible apply analogue_answers
    | with_reducible apply Only.next (closeRuns_only _ _)
    | with_reducible apply Only.next (modChan_only _ _ _)
    | with_reducible apply Only.next (groupGen_only _ _)
    | with_reducible apply Only.next (modGrp_only _ _ _)
    | with_reducible apply Only.next (judgeExtrap_only _ _)
    | with_reducible refine Only.ite ?_ ?_
    | with_reducible refine Answers.ite ?_ ?_
    | split
    | intro _

theorem changeover_only (g : Nat) (o : Ovl) (s : State) : Only [.pages, .fab, .del, .pci, .fwl, .chans, .grps, .outbox] s (changeover g o s) := by
  unfold changeover
  repeat' first
    | (show within _ _ = true; rfl)
    | with_reducible exact Only.refl _ _
    | assumption
    | dsimp only
    | with_reducible apply Only.next (modChan_only _ _ _)
    | with_reducible apply Only.next (modGrp_only _ _ _)
    | with_reducible apply Only.next (closeRuns_only _ _)
    | with_reducible apply Only.next (groupGen_only _ _)
    | with_reducible apply Only.next (groupRaise_only _ _ _ _)
    | with_reducible apply Only.next (judgeExtrap_only _ _)
    | with_reducible refine Only.ite ?_ ?_
    | with_reducible refine Only.ite_fst ?_ ?_
    | with_reducible refine Only.ite_snd ?_ ?_
    | split

theorem failCheck_only (g : Nat) (o : Ovl) (s : State) : Only [.pages, .fab, .del, .pci, .fwl, .grps, .outbox] s (failCheck g o s) := by
  unfold failCheck
  repeat' first
    | (show within _ _ = true; rfl)
    | with_reducible exact Only.refl _ _
    | assumption
    | dsimp only
    | with_reducible apply Only.next (modGrp_only _ _ _)
    | with_reducible apply Only.next (judgeExtrap_only _ _)
    | with_reducible apply Only.next (groupRaise_only _ _ _ _)
    | with_reducible apply Only.next (groupGen_only _ _)
    | split

theorem allExcluded_only (g : Nat) (o : Ovl) (s : State) : Only [.pages, .fab, .del, .pci, .fwl, .grps, .outbox] s (allExcluded g o s) := by
  unfold allExcluded
  repeat' first
    | (show within _ _ = true; rfl)
    | with_reducible exact Only.refl _ _
    | assumption
    | dsimp only
    | with_reducible apply Only.next (cancelOvl_only _ _)
    | with_reducible apply Only.next (enqueue_only _ _)
    | with_reducible apply Only.next (modGrp_only _ _ _)
    | with_reducible refine Only.ite ?_ ?_

theorem judgeCheck_only (g : Nat) (o : Ovl) (s : State) : Only [.pages, .fab, .del, .pci, .fwl, .chans, .grps, .outbox] s (judgeCheck g o s) := by
  unfold judgeCheck
  repeat' first
    | (show within _ _ = true; rfl)
    | with_reducible exact Only.refl _ _
    | assumption
    | dsimp only
    | with_reducible apply Only.next (changeover_only _ _ _)
    | with_reducible apply Only.next (allExcluded_only _ _ _)
    | with_reducible apply Only.next (modGrp_only _ _ _)
    | with_reducible apply Only.next (failCheck_only _ _ _)
    | with_reducible refine Only.ite ?_ ?_

theorem compareRecord_only (g : Nat) (o : Ovl) (t : Int) (incRange : Nat) (s : State) : Only [.pages, .fab, .del, .pci, .fwl, .chans, .grps, .outbox] s (compareRecord g o t incRange s) := by
  unfold compareRecord
  repeat' first
    | (show within _ _ = true; rfl)
    | with_reducible exact Only.refl _ _
    | assumption
    | dsimp only
    | with_reducible apply Only.next (modGrp_only _ _ _)
    | with_reducible apply Only.next (judgeCheck_only _ _ _)
    | with_reducible refine Only.ite ?_ ?_
    | with_reducible refine Only.ite_fst ?_ ?_
    | with_reducible refine Only.ite_snd ?_ ?_
    | split

theorem execIncumbentRelease_only (g : Grp) (s : State) : Answers [.pages, .fab, .del, .pci, .fwl, .grps, .outbox] s (execIncumbentRelease g s) := by
  unfold execIncumbentRelease
  repeat' first
    | (show within _ _ = true; rfl)
    | with_reducible exact Only.refl _ _
    | assumption
    | dsimp only
    | with_reducible refine Answers.next ?_
    | with_reducible apply analogue_answers
    | with_reducible apply Only.next (modGrp_only _ _ _)
    | with_reducible apply Only.next (groupGen_only _ _)
    | with_reducible apply Only.next (judgeCamp_only _ _)
    | with_reducible apply Only.next (freeRelief_only _ _)
    | with_reducible refine Only.ite ?_ ?_
    | with_reducible refine Answers.ite ?_ ?_
    | split
    | intro _

theorem restartHandover_only (g : Nat) (o : Ovl) (attempt : Nat) (s : State) : Only [.pages, .grps] s (restartHandover g o attempt s) := by
  unfold restartHandover
  repeat' first
    | (show within _ _ = true; rfl)
    | with_reducible exact Only.refl _ _
    | assumption
    | dsimp only
    | with_reducible apply Only.next (freeRelief_only _ _)
    | with_reducible apply Only.next (startOvl_only _ _ _ _ _ _ _ _)
    | with_reducible refine Only.ite ?_ ?_

theorem runCheckDone_only (g conv : Nat) (u : Int × Int × Int) (s : State) : Only [.pages, .fab, .del, .pci, .fwl, .bst, .chans, .grps, .outbox] s (runCheckDone g conv u s) := by
  unfold runCheckDone
  repeat' first
    | (show within _ _ = true; rfl)
    | with_reducible exact Only.refl _ _
    | assumption
    | dsimp only
    | with_reducible apply Only.next (modGrp_only _ _ _)
    | with_reducible apply Only.next (retireConv_only _ _ _)
    | with_reducible apply Only.next (freeRelief_only _ _)
    | with_reducible refine Only.ite ?_ ?_
    | with_reducible refine Only.ite_fst ?_ ?_
    | with_reducible refine Only.ite_snd ?_ ?_
    | split

theorem execReferenceCheckDone_only (g : Grp) (m : ConvMeas) (s : State) : Answers [.pages, .fab, .del, .pci, .fwl, .bst, .chans, .grps, .outbox] s (execReferenceCheckDone g m s) := by
  unfold execReferenceCheckDone
  repeat' first
    | (show within _ _ = true; rfl)
    | with_reducible exact Only.refl _ _
    | assumption
    | dsimp only
    | with_reducible refine Answers.next ?_
    | with_reducible apply analogue_answers
    | with_reducible apply Only.next (modGrp_only _ _ _)
    | with_reducible apply Only.next (retireConv_only _ _ _)
    | with_reducible apply Only.next (restartHandover_only _ _ _ _)
    | with_reducible apply Only.next (freeRelief_only _ _)
    | with_reducible apply Only.next (runCheckDone_only _ _ _ _)
    | with_reducible refine Only.ite ?_ ?_
    | with_reducible refine Answers.ite ?_ ?_
    | split
    | intro _


end Sys2Proof.Machine
end

