-- ==== Sys2Proof/Laws/FrameChannel.lean ====
section
/-! SUPPORT. The frames of the operations of Machine/Channel.lean. -/

namespace Sys2Proof.Machine

theorem openDecision_only (c : Nat) (brk : Int) (s : State) : Only [.pages, .fab, .del, .pci, .fwl, .chans, .grps, .outbox] s (openDecision c brk s) := by
  unfold openDecision
  repeat' first
    | (show within _ _ = true; rfl)
    | with_reducible exact Only.refl _ _
    | assumption
    | dsimp only
    | with_reducible apply Only.next (modChan_only _ _ _)
    | with_reducible apply Only.next (bumpGen_only _ _)
    | with_reducible apply Only.next (cancelOvl_only _ _)
    | with_reducible apply Only.next (hardRange_only _ _ _)
    | with_reducible apply Only.next (unqueue_only _ _ _)
    | with_reducible apply Only.next (inputCause_only _ _ _)
    | with_reducible apply Only.next (condStart_only _ _ _ _)
    | with_reducible refine Only.ite ?_ ?_
    | with_reducible apply Only.id_then
    | split

theorem closedNow_only (c : Nat) (s : State) : Only [.pages, .fab, .del, .pci, .fwl, .chans, .outbox] s (closedNow c s) := by
  unfold closedNow
  repeat' first
    | (show within _ _ = true; rfl)
    | with_reducible exact Only.refl _ _
    | assumption
    | dsimp only
    | with_reducible apply Only.next (bumpGen_only _ _)
    | with_reducible apply Only.next (modChan_only _ _ _)
    | with_reducible apply Only.next (inputCause_only _ _ _)
    | with_reducible apply Only.next (condEnd_only _ _ _ _)

theorem endOpen_only (c : Nat) (t : Int) (s : State) : Only [.pages, .fab, .del, .pci, .fwl, .chans, .outbox] s (endOpen c t s) := by
  unfold endOpen
  repeat' first
    | (show within _ _ = true; rfl)
    | with_reducible exact Only.refl _ _
    | assumption
    | dsimp only
    | with_reducible apply Only.next (modChan_only _ _ _)
    | with_reducible apply Only.next (closedNow_only _ _)
    | with_reducible refine Only.ite ?_ ?_

theorem detectOpen_only (c : Nat) (w0 w1 : Int) (code : Int) (aHigh : Bool) (bias : Nat) (s : State) : Only [.pages, .fab, .del, .pci, .fwl, .chans, .grps, .outbox] s (detectOpen c w0 w1 code aHigh bias s) := by
  unfold detectOpen
  repeat' first
    | (show within _ _ = true; rfl)
    | with_reducible exact Only.refl _ _
    | assumption
    | dsimp only
    | with_reducible apply Only.next (modChan_only _ _ _)
    | with_reducible apply Only.next (endOpen_only _ _ _)
    | with_reducible apply Only.next (openDecision_only _ _ _)
    | with_reducible refine Only.ite ?_ ?_

theorem detectShort_only (c bias : Nat) (s : State) : Only [.pages, .fab, .del, .pci, .fwl, .chans, .outbox] s (detectShort c bias s) := by
  unfold detectShort
  repeat' first
    | (show within _ _ = true; rfl)
    | with_reducible exact Only.refl _ _
    | assumption
    | dsimp only
    | with_reducible apply Only.next (condEnd_only _ _ _ _)
    | with_reducible apply Only.next (modChan_only _ _ _)
    | with_reducible apply Only.next (inputCause_only _ _ _)
    | with_reducible apply Only.next (condStart_only _ _ _ _)
    | with_reducible refine Only.ite ?_ ?_

theorem upTrigger_only (c range : Nat) (code w1 : Int) (s : State) : Only [.pages, .fab, .del, .pci, .fwl, .bst, .chans, .grps, .outbox] s (upTrigger c range code w1 s) := by
  unfold upTrigger
  repeat' first
    | (show within _ _ = true; rfl)
    | with_reducible exact Only.refl _ _
    | assumption
    | dsimp only
    | with_reducible apply Only.next (requestRange_only _ _)
    | with_reducible refine Only.ite ?_ ?_

theorem coarseBeyond_only (g c : Nat) (w1 : Int) (s : State) : Only [.pages, .fab, .del, .pci, .fwl, .grps, .outbox] s (coarseBeyond g c w1 s) := by
  unfold coarseBeyond
  repeat' first
    | (show within _ _ = true; rfl)
    | with_reducible exact Only.refl _ _
    | assumption
    | dsimp only
    | with_reducible apply Only.next (judgeExtrap_only _ _)
    | with_reducible apply Only.next (modGrp_only _ _ _)
    | with_reducible refine Only.ite ?_ ?_
    | split

theorem execCoarseSample_only (g : Grp) (conv : Fin 17) (sec m : Nat) (mods : List Int) (pins : PinState) (bias : Nat) (s : State) : Answers [.pages, .fab, .del, .pci, .svc, .fwl, .bst, .chans, .grps, .outbox] s (execCoarseSample g conv sec m mods pins bias s) := by
  unfold execCoarseSample
  repeat' first
    | (show within _ _ = true; rfl)
    | with_reducible exact Only.refl _ _
    | assumption
    | dsimp only
    | with_reducible refine Answers.next ?_
    | with_reducible apply analogue_answers
    | with_reducible apply Only.next (beginGroup_only _ _)
    | with_reducible apply Only.next (modChan_only _ _ _)
    | with_reducible apply Only.next (detectShort_only _ _ _)
    | with_reducible apply Only.next (detectOpen_only _ _ _ _ _ _ _)
    | with_reducible apply Only.next (compareSample_only _ _ _ _ _ _ _)
    | with_reducible apply Only.next (upTrigger_only _ _ _ _ _)
    | with_reducible apply Only.next (coarseBeyond_only _ _ _ _)
    | with_reducible refine Only.ite ?_ ?_
    | with_reducible refine Only.ite_fst ?_ ?_
    | with_reducible refine Only.ite_snd ?_ ?_
    | with_reducible refine Answers.ite ?_ ?_
    | split
    | intro _

theorem noteO_only (c : Nat) (w1 : Int) (s : State) : Only [.grps] s (noteO c w1 s) := by
  unfold noteO
  repeat' first
    | (show within _ _ = true; rfl)
    | with_reducible exact Only.refl _ _
    | dsimp only
    | with_reducible apply Only.next (modGrp_only _ _ _)

theorem countDown_only (c range : Nat) (code w1 : Int) (spoilt : Bool) (s : State) : Only [.pages, .fab, .del, .pci, .fwl, .bst, .chans, .grps, .outbox] s (countDown c range code w1 spoilt s) := by
  unfold countDown
  repeat' first
    | (show within _ _ = true; rfl)
    | with_reducible exact Only.refl _ _
    | assumption
    | dsimp only
    | with_reducible apply Only.next (modChan_only _ _ _)
    | with_reducible apply Only.next (unqueue_only _ _ _)
    | with_reducible apply Only.next (requestRange_only _ _)
    | with_reducible refine Only.ite ?_ ?_
    | split

theorem produce_only (c range : Nat) (t : Stamp) (code : Int) (o cm : Bool) (s : State) : Only [.pages, .fab, .del, .pci, .svc, .fwl, .bst, .chans, .grps, .outbox] s (produce c range t code o cm s) := by
  unfold produce
  repeat' first
    | (show within _ _ = true; rfl)
    | with_reducible exact Only.refl _ _
    | assumption
    | dsimp only
    | with_reducible apply Only.next (noteSubst_only _ _ _)
    | with_reducible apply Only.next (modChan_only _ _ _)
    | with_reducible apply Only.next (feedSects_only _ _ _)
    | with_reducible apply Only.next (noteO_only _ _ _)
    | with_reducible apply Only.next (countDown_only _ _ _ _ _ _)
    | with_reducible refine Only.ite ?_ ?_

theorem incumbentRecord_only (g c : Nat) (o : Ovl) (t : Stamp) (tt w1 : Int) (code : Int) (isOver excl cm : Bool) (s : State) : Only [.pages, .fab, .del, .pci, .svc, .fwl, .bst, .chans, .grps, .outbox] s (incumbentRecord g c o t tt w1 code isOver excl cm s) := by
  unfold incumbentRecord
  repeat' first
    | (show within _ _ = true; rfl)
    | with_reducible exact Only.refl _ _
    | assumption
    | dsimp only
    | with_reducible apply Only.next (modGrp_only _ _ _)
    | with_reducible apply Only.next (produce_only _ _ _ _ _ _ _)
    | with_reducible apply Only.next (changeover_only _ _ _)
    | with_reducible apply Only.next (compareRecord_only _ _ _ _ _)
    | with_reducible refine Only.ite ?_ ?_
    | with_reducible refine Only.ite_fst ?_ ?_
    | with_reducible refine Only.ite_snd ?_ ?_
    | split

theorem reliefRecord_only (g c : Nat) (o : Ovl) (tt : Int) (code : Int) (isOver excl : Bool) (s : State) : Only [.pages, .fab, .del, .pci, .fwl, .chans, .grps, .outbox] s (reliefRecord g c o tt code isOver excl s) := by
  unfold reliefRecord
  repeat' first
    | (show within _ _ = true; rfl)
    | with_reducible exact Only.refl _ _
    | assumption
    | dsimp only
    | with_reducible apply Only.next (modChan_only _ _ _)
    | with_reducible apply Only.next (cancelOvl_only _ _)
    | with_reducible apply Only.next (compareRecord_only _ _ _ _ _)
    | with_reducible apply Only.next (modGrp_only _ _ _)
    | with_reducible refine Only.ite ?_ ?_

theorem execFineRecordReady_only (g : Grp) (conv : Fin 17) (t : Stamp) (mods : List Int) (cm : Bool) (s : State) : Answers [.pages, .fab, .del, .pci, .svc, .fwl, .bst, .chans, .grps, .outbox] s (execFineRecordReady g conv t mods cm s) := by
  unfold execFineRecordReady
  repeat' first
    | (show within _ _ = true; rfl)
    | with_reducible exact Only.refl _ _
    | assumption
    | dsimp only
    | with_reducible refine Answers.next ?_
    | with_reducible apply analogue_answers
    | with_reducible apply Only.next (reliefRecord_only _ _ _ _ _ _ _ _)
    | with_reducible apply Only.next (beginGroup_only _ _)
    | with_reducible apply Only.next (incumbentRecord_only _ _ _ _ _ _ _ _ _ _ _)
    | with_reducible apply Only.next (produce_only _ _ _ _ _ _ _)
    | with_reducible refine Only.ite ?_ ?_
    | with_reducible refine Only.ite_fst ?_ ?_
    | with_reducible refine Only.ite_snd ?_ ?_
    | with_reducible refine Answers.ite ?_ ?_
    | split
    | intro _

theorem execRecordRelease_only (slot : Slot) (s : State) : Answers [.pages, .fab, .tim, .del, .pci, .svc, .fwl, .pwr, .chans, .outbox] s (execRecordRelease slot s) := by
  unfold execRecordRelease
  repeat' first
    | (show within _ _ = true; rfl)
    | with_reducible exact Only.refl _ _
    | assumption
    | dsimp only
    | with_reducible refine Answers.next ?_
    | with_reducible apply Only.next (modChan_only _ _ _)
    | with_reducible apply Only.next (spoilSects_only _ _ _)
    | with_reducible apply Only.next (feedTracks_only _ _ _)
    | with_reducible apply Only.next (emitSample_only _ _ _)
    | with_reducible apply Only.next (enterService_only _)
    | with_reducible apply Only.next (closedNow_only _ _)
    | with_reducible apply Only.next (groupGen_only _ _)
    | with_reducible apply Only.next (groupRaise_only _ _ _ _)
    | with_reducible refine Only.ite ?_ ?_
    | with_reducible refine Answers.ite ?_ ?_
    | split

theorem addOverload_only (g conv : Nat) (a b : Int) (s : State) : Only [.grps] s (addOverload g conv a b s) := by
  unfold addOverload
  repeat' first
    | (show within _ _ = true; rfl)
    | with_reducible exact Only.refl _ _
    | dsimp only
    | with_reducible apply Only.next (modGrp_only _ _ _)

theorem execModOverload_only (g : Grp) (conv : Fin 17) (start stop : Nat) (s : State) : Answers [.pages, .fab, .del, .pci, .fwl, .grps, .outbox] s (execModOverload g conv start stop s) := by
  unfold execModOverload
  repeat' first
    | (show within _ _ = true; rfl)
    | with_reducible exact Only.refl _ _
    | assumption
    | dsimp only
    | with_reducible refine Answers.next ?_
    | with_reducible apply analogue_answers
    | with_reducible apply Only.next (addOverload_only _ _ _ _ _)
    | with_reducible apply Only.next (modGrp_only _ _ _)
    | with_reducible apply Only.next (raiseOnce_only _ _ _ _ _)
    | split
    | intro _

theorem execModulatorReset_only (g : Grp) (conv : Fin 17) (start stop : Nat) (s : State) : Answers [.grps] s (execModulatorReset g conv start stop s) := by
  unfold execModulatorReset
  repeat' first
    | (show within _ _ = true; rfl)
    | with_reducible exact Only.refl _ _
    | assumption
    | dsimp only
    | with_reducible refine Answers.next ?_
    | with_reducible apply analogue_answers
    | with_reducible apply Only.next (addOverload_only _ _ _ _ _)
    | intro _

theorem tatDone_only (g : Nat) (s : State) : Only [.grps] s (tatDone g s) := by
  unfold tatDone
  repeat' first
    | (show within _ _ = true; rfl)
    | with_reducible exact Only.refl _ _
    | dsimp only
    | with_reducible apply Only.next (modTat_only _ _ _)
    | with_reducible apply Only.next (tatNext_only _ _)
    | with_reducible refine Only.ite ?_ ?_

theorem execLeadStepDone_only (g : GGrp) (nv : Int) (isOver : Bool) (s : State) : Answers [.fab, .chans, .grps] s (execLeadStepDone g nv isOver s) := by
  unfold execLeadStepDone
  repeat' first
    | (show within _ _ = true; rfl)
    | with_reducible exact Only.refl _ _
    | assumption
    | dsimp only
    | with_reducible refine Answers.next ?_
    | with_reducible apply analogue_answers
    | with_reducible apply Only.next (modGrp_only _ _ _)
    | with_reducible apply Only.next (condEnd_only _ _ _ _)
    | with_reducible apply Only.next (modChan_only _ _ _)
    | with_reducible apply Only.next (tatDone_only _ _)
    | with_reducible apply Only.next (freeRelief_only _ _)
    | with_reducible refine Only.ite ?_ ?_
    | with_reducible refine Answers.ite ?_ ?_
    | split
    | intro _

theorem execLeadStaleTimer_only (c : Chn) (s : State) : Answers [.pages, .fab, .del, .pci, .fwl, .chans, .outbox] s (execLeadStaleTimer c s) := by
  unfold execLeadStaleTimer
  repeat' first
    | (show within _ _ = true; rfl)
    | with_reducible exact Only.refl _ _
    | assumption
    | dsimp only
    | with_reducible refine Answers.next ?_
    | with_reducible apply analogue_answers
    | with_reducible apply Only.next (inputCause_only _ _ _)
    | with_reducible apply Only.next (condStart_only _ _ _ _)
    | with_reducible apply Only.next (modChan_only _ _ _)
    | with_reducible refine Only.ite ?_ ?_
    | with_reducible refine Answers.ite ?_ ?_
    | split
    | intro _

theorem execSynPhaseCompare_only (east : Bool) (err : Int) (s : State) : Answers [.pages, .fab, .srv, .del, .pci, .fwl, .outbox] s (execSynPhaseCompare east err s) := by
  unfold execSynPhaseCompare
  repeat' first
    | (show within _ _ = true; rfl)
    | with_reducible exact Only.refl _ _
    | assumption
    | dsimp only
    | with_reducible refine Answers.next ?_
    | with_reducible apply analogue_answers
    | with_reducible apply Only.next (raiseOnce_only _ _ _ _ _)
    | with_reducible apply Only.next (condEnd_only _ _ _ _)
    | with_reducible apply Only.next (modSrv_only _ _)
    | with_reducible refine Only.ite ?_ ?_
    | with_reducible refine Only.ite_fst ?_ ?_
    | with_reducible refine Only.ite_snd ?_ ?_
    | with_reducible refine Answers.ite ?_ ?_
    | split
    | intro _


end Sys2Proof.Machine
end

