-- ==== Sys2Proof/Laws/FrameEntries.lean ====
section
/-! SUPPORT. The frames of the operations of Machine/Entries.lean. -/

namespace Sys2Proof.Machine

theorem loadEntry_only (s : State) : Only [.rf] s (loadEntry s) := by
  unfold loadEntry
  repeat' first
    | (show within _ _ = true; rfl)
    | with_reducible exact Only.refl _ _
    | assumption
    | dsimp only
    | with_reducible apply Only.next (rfPut_only _ _ _)

theorem execChwSelWrite_only (r : Req) (v : Word) (s : State) : Answers [.rf, .fab] s (execChwSelWrite r v s) := by
  unfold execChwSelWrite
  repeat' first
    | (show within _ _ = true; rfl)
    | with_reducible exact Only.refl _ _
    | assumption
    | dsimp only
    | with_reducible refine Answers.next ?_
    | with_reducible apply gated_then
    | with_reducible apply Only.next (loadEntry_only _)
    | with_reducible apply Only.next (rfPut_only _ _ _)
    | intro _

theorem execChwReload_only (r : Req) (s : State) : Answers [.rf, .fab] s (execChwReload r s) := by
  unfold execChwReload
  repeat' first
    | (show within _ _ = true; rfl)
    | with_reducible exact Only.refl _ _
    | assumption
    | dsimp only
    | with_reducible refine Answers.next ?_
    | with_reducible apply gated_then
    | with_reducible apply Only.next (loadEntry_only _)
    | intro _

theorem commitChan_only (c : Nat) (w : List Word) (s : State) : Only [.pages, .chans] s (commitChan c w s) := by
  unfold commitChan
  repeat' first
    | (show within _ _ = true; rfl)
    | with_reducible exact Only.refl _ _
    | assumption
    | dsimp only
    | with_reducible apply Only.next (modChan_only _ _ _)
    | with_reducible apply Only.next (groupGen_only _ _)
    | with_reducible refine Only.ite ?_ ?_

theorem commitGroup_only (g : Nat) (w : Word) (s : State) : Only [.grps] s (commitGroup g w s) := by
  unfold commitGroup
  repeat' first
    | (show within _ _ = true; rfl)
    | with_reducible exact Only.refl _ _
    | dsimp only
    | with_reducible apply Only.next (modGrp_only _ _ _)

theorem execChwCommit_only (r : Req) (s : State) : Answers [.pages, .fab, .chans, .grps, .ana] s (execChwCommit r s) := by
  unfold execChwCommit
  repeat' first
    | (show within _ _ = true; rfl)
    | with_reducible exact Only.refl _ _
    | assumption
    | dsimp only
    | with_reducible refine Answers.next ?_
    | with_reducible apply gated_then
    | with_reducible apply Only.next (bumpGen_only _ _)
    | with_reducible apply Only.next (commitGroup_only _ _ _)
    | with_reducible apply Only.next (commitChan_only _ _ _)
    | with_reducible apply Only.next (modAna_only _ _)
    | with_reducible refine Only.ite ?_ ?_
    | with_reducible refine Only.ite_fst ?_ ?_
    | with_reducible refine Only.ite_snd ?_ ?_
    | with_reducible refine Answers.ite ?_ ?_
    | split
    | intro _

theorem linLeave_only (k c : Nat) (s : State) : Only [.pages, .fab, .del, .pci, .fwl, .lins, .outbox] s (linLeave k c s) := by
  unfold linLeave
  repeat' first
    | (show within _ _ = true; rfl)
    | with_reducible exact Only.refl _ _
    | assumption
    | dsimp only
    | with_reducible apply Only.next (raise_only _ _ _ _)
    | with_reducible apply Only.next (modLin_only _ _ _)
    | with_reducible refine Only.ite ?_ ?_
    | split

theorem startRate_only (c : Nat) (old new : List Word) (s : State) : Only [.chans] s (startRate c old new s) := by
  unfold startRate
  repeat' first
    | (show within _ _ = true; rfl)
    | with_reducible exact Only.refl _ _
    | assumption
    | dsimp only
    | with_reducible apply Only.next (modChan_only _ _ _)

theorem dropDetection_only (c : Nat) (t : Int) (s : State) : Only [.pages, .fab, .del, .pci, .fwl, .chans, .outbox] s (dropDetection c t s) := by
  unfold dropDetection
  repeat' first
    | (show within _ _ = true; rfl)
    | with_reducible exact Only.refl _ _
    | assumption
    | dsimp only
    | with_reducible apply Only.next (endOpen_only _ _ _)
    | with_reducible refine Only.ite ?_ ?_

theorem leadWiring_only (c : Nat) (old new : List Word) (s : State) : Only [.fab, .chans] s (leadWiring c old new s) := by
  unfold leadWiring
  repeat' first
    | (show within _ _ = true; rfl)
    | with_reducible exact Only.refl _ _
    | dsimp only
    | with_reducible apply Only.next (condEnd_only _ _ _ _)
    | with_reducible apply Only.next (modChan_only _ _ _)
    | with_reducible refine Only.ite ?_ ?_

theorem chanEffect_only (c : Nat) (s : State) : Only [.pages, .fab, .del, .pci, .svc, .fwl, .bst, .chans, .grps, .lins, .outbox] s (chanEffect c s) := by
  unfold chanEffect
  repeat' first
    | (show within _ _ = true; rfl)
    | with_reducible exact Only.refl _ _
    | assumption
    | dsimp only
    | with_reducible apply Only.next (cancelOvl_only _ _)
    | with_reducible apply Only.next (alarmChange_only _ _ _ _)
    | with_reducible apply Only.next (linLeave_only _ _ _)
    | with_reducible apply Only.next (closeRuns_only _ _)
    | with_reducible apply Only.next (modChan_only _ _ _)
    | with_reducible apply Only.next (startRate_only _ _ _ _)
    | with_reducible apply Only.next (groupGen_only _ _)
    | with_reducible apply Only.next (modGrp_only _ _ _)
    | with_reducible apply Only.next (condEnd_only _ _ _ _)
    | with_reducible apply Only.next (leadWiring_only _ _ _ _)
    | with_reducible apply Only.next (dropDetection_only _ _ _)
    | with_reducible apply Only.next (judgeExtrap_only _ _)
    | with_reducible apply Only.next (decideHard_only _ _ _)
    | with_reducible apply Only.next (unqueue_only _ _ _)
    | with_reducible apply Only.next (requestRange_only _ _)
    | with_reducible refine Only.ite ?_ ?_
    | split

theorem groupEffect_only (g ma : Nat) (s : State) : Only [.pages, .fab, .del, .pci, .fwl, .chans, .grps, .outbox] s (groupEffect g ma s) := by
  unfold groupEffect
  repeat' first
    | (show within _ _ = true; rfl)
    | with_reducible exact Only.refl _ _
    | assumption
    | dsimp only
    | with_reducible apply Only.next (cancelOvl_only _ _)
    | with_reducible apply Only.next (modGrp_only _ _ _)
    | with_reducible apply Only.next (condEnd_only _ _ _ _)
    | with_reducible apply Only.next (decideHard_only _ _ _)
    | with_reducible apply Only.foldl_then
    | with_reducible apply Only.foldl_fst_then
    | with_reducible apply Only.foldl_snd_then
    | with_reducible refine Only.ite ?_ ?_
    | with_reducible refine Only.ite_fst ?_ ?_
    | with_reducible refine Only.ite_snd ?_ ?_
    | split
    | intro _

theorem execChwCommitEffect_only (e : EntryRef) (ma : Nat) (s : State) : Answers [.pages, .fab, .del, .pci, .svc, .fwl, .bst, .chans, .grps, .lins, .outbox] s (execChwCommitEffect e ma s) := by
  unfold execChwCommitEffect
  repeat' first
    | (show within _ _ = true; rfl)
    | with_reducible exact Only.refl _ _
    | assumption
    | dsimp only
    | with_reducible refine Answers.next ?_
    | with_reducible apply analogue_answers
    | with_reducible apply Only.next (modGrp_only _ _ _)
    | with_reducible apply Only.next (groupEffect_only _ _ _)
    | with_reducible apply Only.next (chanEffect_only _ _)
    | with_reducible refine Only.ite ?_ ?_
    | with_reducible refine Answers.ite ?_ ?_
    | split
    | intro _

theorem execRateBoundary_only (c : Chn) (s : State) : Answers [.pages, .del, .chans] s (execRateBoundary c s) := by
  unfold execRateBoundary
  repeat' first
    | (show within _ _ = true; rfl)
    | with_reducible exact Only.refl _ _
    | assumption
    | dsimp only
    | with_reducible refine Answers.next ?_
    | with_reducible apply analogue_answers
    | with_reducible apply Only.next (groupGen_only _ _)
    | with_reducible apply Only.next (modChan_only _ _ _)
    | with_reducible apply Only.next (closeRuns_only _ _)
    | with_reducible refine Only.ite ?_ ?_
    | with_reducible refine Answers.ite ?_ ?_
    | split
    | intro _

theorem execChainReconfigure_only (c : Chn) (s : State) : Answers [.chans] s (execChainReconfigure c s) := by
  unfold execChainReconfigure
  repeat' first
    | (show within _ _ = true; rfl)
    | with_reducible exact Only.refl _ _
    | assumption
    | dsimp only
    | with_reducible refine Answers.next ?_
    | with_reducible apply analogue_answers
    | with_reducible apply Only.next (modChan_only _ _ _)
    | with_reducible refine Only.ite ?_ ?_
    | with_reducible refine Answers.ite ?_ ?_
    | split
    | intro _

theorem rewriteEntries_only (b : SliceBody) (s : State) : Only [.pages, .rf, .chans, .grps, .ana] s (rewriteEntries b s) := by
  unfold rewriteEntries
  repeat' first
    | (show within _ _ = true; rfl)
    | with_reducible exact Only.refl _ _
    | assumption
    | dsimp only
    | with_reducible apply Only.next (commitGroup_only _ _ _)
    | with_reducible apply Only.next (loadEntry_only _)
    | with_reducible apply Only.next (commitChan_only _ _ _)
    | with_reducible apply Only.next (modAna_only _ _)
    | with_reducible apply Only.foldl_then
    | with_reducible apply Only.foldl_fst_then
    | with_reducible apply Only.foldl_snd_then
    | with_reducible refine Only.ite ?_ ?_
    | with_reducible refine Only.ite_fst ?_ ?_
    | with_reducible refine Only.ite_snd ?_ ?_
    | split
    | intro _

theorem regrid_only (d : Int) (c : Nat) (s : State) : Only [.del, .chans, .grps] s (regrid d c s).1 := by
  unfold regrid
  repeat' first
    | (show within _ _ = true; rfl)
    | with_reducible exact Only.refl _ _
    | assumption
    | dsimp only
    | with_reducible apply Only.next (modChan_only _ _ _)
    | with_reducible apply Only.next (modGrp_only _ _ _)
    | with_reducible apply Only.next (closeRuns_only _ _)
    | with_reducible refine Only.ite ?_ ?_
    | with_reducible refine Only.ite_fst ?_ ?_
    | with_reducible refine Only.ite_snd ?_ ?_
    | split

theorem epochChannels_only (d : Int) (s : State) : Only [.pages, .fab, .del, .pci, .fwl, .chans, .grps, .outbox] s (epochChannels d s) := by
  unfold epochChannels
  repeat' first
    | (show within _ _ = true; rfl)
    | with_reducible exact Only.refl _ _
    | assumption
    | dsimp only
    | with_reducible apply Only.next (regrid_only _ _ _)
    | with_reducible apply Only.next (groupRaise_only _ _ _ _)
    | with_reducible apply Only.next (modChans_only _ _)
    | with_reducible apply Only.next (modGrps_only _ _)
    | with_reducible apply Only.foldl_then
    | with_reducible apply Only.foldl_fst_then
    | with_reducible apply Only.foldl_snd_then
    | with_reducible refine Only.ite ?_ ?_
    | with_reducible refine Only.ite_fst ?_ ?_
    | with_reducible refine Only.ite_snd ?_ ?_
    | split
    | intro _


end Sys2Proof.Machine
end

