-- ==== Sys2Proof/Laws/FrameCal.lean ====
section
/-! SUPPORT. The frames of the operations of Machine/Cal.lean. -/

namespace Sys2Proof.Machine

theorem execTempReading_only (g : Grp) (t : Option Int) (s : State) : Answers [.pages, .fab, .del, .pci, .fwl, .grps, .outbox] s (execTempReading g t s) := by
  unfold execTempReading
  repeat' first
    | (show within _ _ = true; rfl)
    | with_reducible exact Only.refl _ _
    | assumption
    | dsimp only
    | with_reducible refine Answers.next ?_
    | with_reducible apply analogue_answers
    | with_reducible apply Only.next (modGrp_only _ _ _)
    | with_reducible apply Only.next (judgeExtrap_only _ _)
    | with_reducible apply Only.next (startCamp_only _ _)
    | with_reducible refine Only.ite ?_ ?_
    | with_reducible refine Answers.ite ?_ ?_
    | split
    | intro _

theorem execCampGo_only (r : Req) (v : Word) (s : State) : Answers [.pages, .rf, .fab, .del, .pci, .fwl, .grps, .outbox] s (execCampGo r v s) := by
  unfold execCampGo
  repeat' first
    | (show within _ _ = true; rfl)
    | with_reducible exact Only.refl _ _
    | assumption
    | dsimp only
    | with_reducible refine Answers.next ?_
    | with_reducible apply gated_then
    | with_reducible apply Only.next (rfPut_only _ _ _)
    | with_reducible apply Only.next (startCamp_only _ _)
    | with_reducible refine Only.ite ?_ ?_
    | with_reducible refine Answers.ite ?_ ?_
    | split
    | intro _

theorem dropPoints_only (g conv range : Nat) (s : State) : Only [.grps] s (dropPoints g conv range s) := by
  unfold dropPoints
  repeat' first
    | (show within _ _ = true; rfl)
    | with_reducible exact Only.refl _ _
    | dsimp only
    | with_reducible apply Only.next (modGrp_only _ _ _)

theorem undue_only (g conv range : Nat) (s : State) : Only [.grps] s (undue g conv range s) := by
  unfold undue
  repeat' first
    | (show within _ _ = true; rfl)
    | with_reducible exact Only.refl _ _
    | dsimp only
    | with_reducible apply Only.next (modGrp_only _ _ _)

theorem calNext_only (g : Nat) (s : State) : Only [.pages, .fab, .del, .pci, .fwl, .grps, .outbox] s (calNext g s) := by
  unfold calNext
  repeat' first
    | (show within _ _ = true; rfl)
    | with_reducible exact Only.refl _ _
    | assumption
    | dsimp only
    | with_reducible apply Only.next (judgeCamp_only _ _)
    | with_reducible apply Only.next (freeRelief_only _ _)
    | with_reducible refine Only.ite ?_ ?_

theorem endRepeat_only (g conv range : Nat) (s : State) : Only [.grps] s (endRepeat g conv range s) := by
  unfold endRepeat
  repeat' first
    | (show within _ _ = true; rfl)
    | with_reducible exact Only.refl _ _
    | dsimp only
    | with_reducible apply Only.next (modGrp_only _ _ _)

theorem storeRun_only (g conv range : Nat) (t : Int) (k : Frac × Frac × Frac) (s : State) : Only [.pages, .fab, .del, .pci, .fwl, .grps, .ana, .outbox] s (storeRun g conv range t k s) := by
  unfold storeRun
  repeat' first
    | (show within _ _ = true; rfl)
    | with_reducible exact Only.refl _ _
    | assumption
    | dsimp only
    | with_reducible apply Only.next (setTable_only _ _ _ _ _)
    | with_reducible apply Only.next (modGrp_only _ _ _)
    | with_reducible apply Only.next (endRepeat_only _ _ _ _)
    | with_reducible apply Only.next (calNext_only _ _)
    | with_reducible apply Only.next (judgeExtrap_only _ _)
    | with_reducible apply Only.next (undue_only _ _ _ _)
    | with_reducible apply Only.next (bumpGen_only _ _)
    | with_reducible apply Only.next (modAna_only _ _)

theorem rejectRun_only (g conv range : Nat) (s : State) : Only [.pages, .fab, .del, .pci, .fwl, .grps, .outbox] s (rejectRun g conv range s) := by
  unfold rejectRun
  repeat' first
    | (show within _ _ = true; rfl)
    | with_reducible exact Only.refl _ _
    | assumption
    | dsimp only
    | with_reducible apply Only.next (raise_only _ _ _ _)
    | with_reducible apply Only.next (calNext_only _ _)
    | with_reducible apply Only.next (undue_only _ _ _ _)
    | with_reducible apply Only.next (endRepeat_only _ _ _ _)
    | with_reducible apply Only.next (modGrp_only _ _ _)
    | with_reducible refine Only.ite ?_ ?_

theorem judgeRun_only (g conv range : Nat) (p : CalPt × CalPt × CalPt) (s : State) : Only [.pages, .fab, .del, .pci, .fwl, .grps, .ana, .outbox] s (judgeRun g conv range p s) := by
  unfold judgeRun
  repeat' first
    | (show within _ _ = true; rfl)
    | with_reducible exact Only.refl _ _
    | assumption
    | dsimp only
    | with_reducible apply Only.next (dropPoints_only _ _ _ _)
    | with_reducible apply Only.next (rejectRun_only _ _ _ _)
    | with_reducible apply Only.next (endRepeat_only _ _ _ _)
    | with_reducible apply Only.next (storeRun_only _ _ _ _ _ _)
    | with_reducible refine Only.ite ?_ ?_
    | with_reducible refine Only.ite_fst ?_ ?_
    | with_reducible refine Only.ite_snd ?_ ?_
    | split

theorem takePoint_only (g conv range src dwell : Nat) (samples : List Int) (s : State) : Only [.pages, .fab, .del, .pci, .fwl, .grps, .ana, .outbox] s (takePoint g conv range src dwell samples s) := by
  unfold takePoint
  repeat' first
    | (show within _ _ = true; rfl)
    | with_reducible exact Only.refl _ _
    | assumption
    | dsimp only
    | with_reducible apply Only.next (modGrp_only _ _ _)
    | with_reducible apply Only.next (judgeRun_only _ _ _ _ _)
    | with_reducible apply Only.foldl_then
    | with_reducible apply Only.foldl_fst_then
    | with_reducible apply Only.foldl_snd_then
    | with_reducible refine Only.ite ?_ ?_
    | with_reducible refine Only.ite_fst ?_ ?_
    | with_reducible refine Only.ite_snd ?_ ?_
    | split

theorem execCalPointDone_only (g : Grp) (conv : Fin 17) (range : Fin 4) (src : Fin 3) (dwell : Nat) (samples : List Int) (s : State) : Answers [.pages, .fab, .del, .pci, .fwl, .grps, .ana, .outbox] s (execCalPointDone g conv range src dwell samples s) := by
  unfold execCalPointDone
  repeat' first
    | (show within _ _ = true; rfl)
    | with_reducible exact Only.refl _ _
    | assumption
    | dsimp only
    | with_reducible refine Answers.next ?_
    | with_reducible apply analogue_answers
    | with_reducible apply Only.next (takePoint_only _ _ _ _ _ _ _)
    | with_reducible apply Only.next (tatDone_only _ _)
    | with_reducible apply Only.next (freeRelief_only _ _)
    | with_reducible refine Only.ite ?_ ?_
    | with_reducible refine Only.ite_fst ?_ ?_
    | with_reducible refine Only.ite_snd ?_ ?_
    | with_reducible refine Answers.ite ?_ ?_
    | split
    | intro _

theorem loadSet_only (s : State) : Only [.rf, .ana] s (loadSet s) := by
  unfold loadSet
  repeat' first
    | (show within _ _ = true; rfl)
    | with_reducible exact Only.refl _ _
    | assumption
    | dsimp only
    | with_reducible apply Only.next (rfPut_only _ _ _)
    | with_reducible apply Only.next (modAna_only _ _)
    | split

theorem execCalSetSelWrite_only (r : Req) (v : Word) (s : State) : Answers [.rf, .fab, .ana] s (execCalSetSelWrite r v s) := by
  unfold execCalSetSelWrite
  repeat' first
    | (show within _ _ = true; rfl)
    | with_reducible exact Only.refl _ _
    | assumption
    | dsimp only
    | with_reducible refine Answers.next ?_
    | with_reducible apply gated_then
    | with_reducible apply Only.next (loadSet_only _)
    | with_reducible apply Only.next (rfPut_only _ _ _)
    | intro _

theorem execSetReload_only (r : Req) (s : State) : Answers [.rf, .fab, .ana] s (execSetReload r s) := by
  unfold execSetReload
  repeat' first
    | (show within _ _ = true; rfl)
    | with_reducible exact Only.refl _ _
    | assumption
    | dsimp only
    | with_reducible refine Answers.next ?_
    | with_reducible apply gated_then
    | with_reducible apply Only.next (loadSet_only _)
    | intro _

theorem editTable_only (g conv range : Nat) (l : List GPoint) (s : State) : Only [.pages, .fab, .del, .pci, .fwl, .chans, .grps, .outbox] s (editTable g conv range l s) := by
  unfold editTable
  repeat' first
    | (show within _ _ = true; rfl)
    | with_reducible exact Only.refl _ _
    | assumption
    | dsimp only
    | with_reducible apply Only.next (modChan_only _ _ _)
    | with_reducible apply Only.next (modGrp_only _ _ _)
    | with_reducible apply Only.next (judgeExtrap_only _ _)
    | with_reducible apply Only.next (dropPoints_only _ _ _ _)
    | with_reducible apply Only.next (setTable_only _ _ _ _ _)
    | with_reducible refine Only.ite ?_ ?_
    | with_reducible refine Only.ite_fst ?_ ?_
    | with_reducible refine Only.ite_snd ?_ ?_
    | split

theorem execSetWrite_only (r : Req) (s : State) : Answers [.pages, .fab, .del, .pci, .fwl, .chans, .grps, .ana, .outbox] s (execSetWrite r s) := by
  unfold execSetWrite
  repeat' first
    | (show within _ _ = true; rfl)
    | with_reducible exact Only.refl _ _
    | assumption
    | dsimp only
    | with_reducible refine Answers.next ?_
    | with_reducible apply gated_then
    | with_reducible apply Only.next (editTable_only _ _ _ _ _)
    | with_reducible apply Only.next (bumpGen_only _ _)
    | with_reducible apply Only.next (raise_only _ _ _ _)
    | with_reducible apply Only.next (modAna_only _ _)
    | with_reducible refine Only.ite ?_ ?_
    | with_reducible refine Only.ite_fst ?_ ?_
    | with_reducible refine Only.ite_snd ?_ ?_
    | with_reducible refine Answers.ite ?_ ?_
    | split
    | intro _

theorem execSetDelete_only (r : Req) (s : State) : Answers [.pages, .rf, .fab, .del, .pci, .fwl, .chans, .grps, .ana, .outbox] s (execSetDelete r s) := by
  unfold execSetDelete
  repeat' first
    | (show within _ _ = true; rfl)
    | with_reducible exact Only.refl _ _
    | assumption
    | dsimp only
    | with_reducible refine Answers.next ?_
    | with_reducible apply gated_then
    | with_reducible apply Only.next (loadSet_only _)
    | with_reducible apply Only.next (editTable_only _ _ _ _ _)
    | with_reducible apply Only.next (modAna_only _ _)
    | with_reducible refine Only.ite ?_ ?_
    | with_reducible refine Only.ite_fst ?_ ?_
    | with_reducible refine Only.ite_snd ?_ ?_
    | with_reducible refine Answers.ite ?_ ?_
    | split
    | intro _

theorem loadLin_only (s : State) : Only [.rf] s (loadLin s) := by
  unfold loadLin
  repeat' first
    | (show within _ _ = true; rfl)
    | with_reducible exact Only.refl _ _
    | assumption
    | dsimp only
    | with_reducible apply Only.next (rfPut_only _ _ _)
    | with_reducible apply Only.foldl_then
    | with_reducible apply Only.foldl_fst_then
    | with_reducible apply Only.foldl_snd_then
    | intro _

theorem execLinSelWrite_only (r : Req) (v : Word) (s : State) : Answers [.rf, .fab] s (execLinSelWrite r v s) := by
  unfold execLinSelWrite
  repeat' first
    | (show within _ _ = true; rfl)
    | with_reducible exact Only.refl _ _
    | assumption
    | dsimp only
    | with_reducible refine Answers.next ?_
    | with_reducible apply gated_then
    | with_reducible apply Only.next (loadLin_only _)
    | with_reducible apply Only.next (rfPut_only _ _ _)
    | intro _

theorem execLinReload_only (r : Req) (s : State) : Answers [.rf, .fab] s (execLinReload r s) := by
  unfold execLinReload
  repeat' first
    | (show within _ _ = true; rfl)
    | with_reducible exact Only.refl _ _
    | assumption
    | dsimp only
    | with_reducible refine Answers.next ?_
    | with_reducible apply gated_then
    | with_reducible apply Only.next (loadLin_only _)
    | intro _

theorem execLinCommit_only (r : Req) (s : State) : Answers [.pages, .fab, .del, .pci, .fwl, .lins, .ana, .outbox] s (execLinCommit r s) := by
  unfold execLinCommit
  repeat' first
    | (show within _ _ = true; rfl)
    | with_reducible exact Only.refl _ _
    | assumption
    | dsimp only
    | with_reducible refine Answers.next ?_
    | with_reducible apply gated_then
    | with_reducible apply Only.next (bumpGen_only _ _)
    | with_reducible apply Only.next (raise_only _ _ _ _)
    | with_reducible apply Only.next (modLin_only _ _ _)
    | with_reducible apply Only.next (modAna_only _ _)
    | with_reducible refine Only.ite ?_ ?_
    | with_reducible refine Answers.ite ?_ ?_
    | split
    | intro _

theorem linSwitch_only (c : Nat) (s : State) : Only [.pages, .fab, .del, .pci, .fwl, .chans, .lins, .outbox] s (linSwitch c s) := by
  unfold linSwitch
  repeat' first
    | (show within _ _ = true; rfl)
    | with_reducible exact Only.refl _ _
    | assumption
    | dsimp only
    | with_reducible apply Only.next (linLeave_only _ _ _)
    | with_reducible apply Only.next (modChan_only _ _ _)

theorem execLinSlotSwitch_only (c : Chn) (s : State) : Answers [.pages, .fab, .del, .pci, .fwl, .chans, .lins, .outbox] s (execLinSlotSwitch c s) := by
  unfold execLinSlotSwitch
  repeat' first
    | (show within _ _ = true; rfl)
    | with_reducible exact Only.refl _ _
    | assumption
    | dsimp only
    | with_reducible refine Answers.next ?_
    | with_reducible apply analogue_answers
    | with_reducible apply Only.next (linSwitch_only _ _)
    | with_reducible refine Only.ite ?_ ?_
    | with_reducible refine Answers.ite ?_ ?_
    | split
    | intro _

theorem rewriteLins_only (b : SliceBody) (s : State) : Only [.chans, .lins] s (rewriteLins b s) := by
  unfold rewriteLins
  repeat' first
    | (show within _ _ = true; rfl)
    | with_reducible exact Only.refl _ _
    | assumption
    | dsimp only
    | with_reducible apply Only.next (modChan_only _ _ _)
    | with_reducible apply Only.next (modLin_only _ _ _)
    | with_reducible apply Only.foldl_then
    | with_reducible apply Only.foldl_fst_then
    | with_reducible apply Only.foldl_snd_then
    | with_reducible refine Only.ite ?_ ?_
    | with_reducible refine Only.ite_fst ?_ ?_
    | with_reducible refine Only.ite_snd ?_ ?_
    | split
    | intro _


end Sys2Proof.Machine
end

