-- ==== Sys2Proof/Laws/FrameTattoo.lean ====
section
/-! SUPPORT. The frames of the operations of Machine/Tattoo.lean. -/

namespace Sys2Proof.Machine

theorem tatSkip_only (g : Nat) (s : State) : Only [.grps] s (tatSkip g s) := by
  unfold tatSkip
  repeat' first
    | (show within _ _ = true; rfl)
    | with_reducible exact Only.refl _ _
    | dsimp only
    | with_reducible apply Only.next (tatNext_only _ _)
    | with_reducible apply Only.next (modTat_only _ _ _)

theorem dropAllDeferred_only (g : Nat) (s : State) : Only [.pages, .fab, .del, .pci, .fwl, .grps, .outbox] s (dropAllDeferred g s) := by
  unfold dropAllDeferred
  repeat' first
    | (show within _ _ = true; rfl)
    | with_reducible exact Only.refl _ _
    | assumption
    | dsimp only
    | with_reducible apply Only.next (dropDeferred_only _ _ _)
    | with_reducible apply Only.next (modTat_only _ _ _)
    | with_reducible apply Only.foldl_then
    | intro _

theorem execFrameStart_only (g : Grp) (s : State) : Answers [.pages, .fab, .del, .pci, .fwl, .chans, .grps, .outbox] s (execFrameStart g s) := by
  unfold execFrameStart
  repeat' first
    | (show within _ _ = true; rfl)
    | with_reducible exact Only.refl _ _
    | assumption
    | dsimp only
    | with_reducible refine Answers.next ?_
    | with_reducible apply analogue_answers
    | with_reducible apply Only.next (raiseOnce_only _ _ _ _ _)
    | with_reducible apply Only.next (modTat_only _ _ _)
    | with_reducible apply Only.next (dropAllDeferred_only _ _)
    | with_reducible apply Only.next (modChan_only _ _ _)
    | with_reducible apply Only.foldl_then
    | with_reducible refine Only.ite ?_ ?_
    | with_reducible refine Answers.ite ?_ ?_
    | split
    | intro _

theorem tatIssue_answers {l : List Area} {g : Nat} {f : State → State} {s : State} (hl : within [.grps] l = true) (h : ∀ s, Only l s (f s)) :
    Answers l s (tatIssue g f s) := by
  unfold tatIssue
  refine analogue_answers fun s => ?_
  dsimp only
  refine Only.ite (Only.refl _ _) (Only.ite ((tatNext_only _ _).mono hl) (h s))

theorem execTatNop_only (g : Grp) (s : State) : Answers [.grps] s (execTatNop g s) := by
  unfold execTatNop
  repeat' first
    | (show within _ _ = true; rfl)
    | with_reducible exact Only.refl _ _
    | assumption
    | dsimp only
    | with_reducible refine Answers.next ?_
    | with_reducible apply tatIssue_answers
    | with_reducible apply Only.next (tatNext_only _ _)
    | intro _

theorem tatWaitTo_only (g u : Nat) (s : State) : Only [.grps] s (tatWaitTo g u s) := by
  unfold tatWaitTo
  repeat' first
    | (show within _ _ = true; rfl)
    | with_reducible exact Only.refl _ _
    | dsimp only
    | with_reducible apply Only.next (tatNext_only _ _)
    | with_reducible apply Only.next (modTat_only _ _ _)
    | with_reducible refine Only.ite ?_ ?_

theorem execWaita_only (g : Grp) (off : BitVec 23) (s : State) : Answers [.grps] s (execWaita g off s) := by
  unfold execWaita
  repeat' first
    | (show within _ _ = true; rfl)
    | with_reducible exact Only.refl _ _
    | assumption
    | dsimp only
    | with_reducible refine Answers.next ?_
    | with_reducible apply tatIssue_answers
    | with_reducible apply Only.next (tatWaitTo_only _ _ _)
    | intro _

theorem execWaitr_only (g : Grp) (delta : BitVec 23) (s : State) : Answers [.grps] s (execWaitr g delta s) := by
  unfold execWaitr
  repeat' first
    | (show within _ _ = true; rfl)
    | with_reducible exact Only.refl _ _
    | assumption
    | dsimp only
    | with_reducible refine Answers.next ?_
    | with_reducible apply tatIssue_answers
    | with_reducible apply Only.next (tatWaitTo_only _ _ _)
    | intro _

theorem execTatWaitExpiry_only (g : Grp) (s : State) : Answers [.grps] s (execTatWaitExpiry g s) := by
  unfold execTatWaitExpiry
  repeat' first
    | (show within _ _ = true; rfl)
    | with_reducible exact Only.refl _ _
    | assumption
    | dsimp only
    | with_reducible refine Answers.next ?_
    | with_reducible apply analogue_answers
    | with_reducible apply Only.next (tatNext_only _ _)
    | with_reducible refine Only.ite ?_ ?_
    | with_reducible refine Answers.ite ?_ ?_
    | split
    | intro _

theorem execEvery_only (g : Grp) (k : Fin 16) (res : BitVec 15) (s : State) : Answers [.grps] s (execEvery g k res s) := by
  unfold execEvery
  repeat' first
    | (show within _ _ = true; rfl)
    | with_reducible exact Only.refl _ _
    | assumption
    | dsimp only
    | with_reducible refine Answers.next ?_
    | with_reducible apply tatIssue_answers
    | with_reducible apply Only.next (modTat_only _ _ _)
    | with_reducible apply Only.next (tatNext_only _ _)
    | intro _

theorem execTatLoop_only (g : Grp) (count : BitVec 8) (s : State) : Answers [.grps] s (execTatLoop g count s) := by
  unfold execTatLoop
  repeat' first
    | (show within _ _ = true; rfl)
    | with_reducible exact Only.refl _ _
    | assumption
    | dsimp only
    | with_reducible refine Answers.next ?_
    | with_reducible apply tatIssue_answers
    | with_reducible apply Only.next (modTat_only _ _ _)
    | with_reducible apply Only.next (tatNext_only _ _)
    | intro _

theorem execEndl_only (g : Grp) (s : State) : Answers [.grps] s (execEndl g s) := by
  unfold execEndl
  repeat' first
    | (show within _ _ = true; rfl)
    | with_reducible exact Only.refl _ _
    | assumption
    | dsimp only
    | with_reducible refine Answers.next ?_
    | with_reducible apply tatIssue_answers
    | with_reducible apply Only.next (modTat_only _ _ _)
    | with_reducible apply Only.next (tatNext_only _ _)
    | with_reducible refine Only.ite ?_ ?_
    | with_reducible refine Answers.ite ?_ ?_
    | split
    | intro _

theorem execTatEnd_only (g : Grp) (s : State) : Answers [.grps] s (execTatEnd g s) := by
  unfold execTatEnd
  repeat' first
    | (show within _ _ = true; rfl)
    | with_reducible exact Only.refl _ _
    | assumption
    | dsimp only
    | with_reducible refine Answers.next ?_
    | with_reducible apply tatIssue_answers
    | with_reducible apply Only.next (modTat_only _ _ _)
    | intro _

theorem execRot_only (g : Grp) (s : State) : Answers [.pages, .fab, .del, .pci, .fwl, .bst, .grps, .outbox] s (execRot g s) := by
  unfold execRot
  repeat' first
    | (show within _ _ = true; rfl)
    | with_reducible exact Only.refl _ _
    | assumption
    | dsimp only
    | with_reducible refine Answers.next ?_
    | with_reducible apply tatIssue_answers
    | with_reducible apply Only.next (tatSkip_only _ _)
    | with_reducible apply Only.next (rotate_only _ _)
    | with_reducible apply Only.next (tatNext_only _ _)
    | with_reducible refine Only.ite ?_ ?_
    | with_reducible refine Answers.ite ?_ ?_
    | split
    | intro _

theorem takeTat_only (g : Nat) (w : Word) (s : State) : Only [.pages, .fab, .del, .pci, .fwl, .bst, .grps, .outbox] s (takeTat g w s) := by
  unfold takeTat
  repeat' first
    | (show within _ _ = true; rfl)
    | with_reducible exact Only.refl _ _
    | assumption
    | dsimp only
    | with_reducible apply Only.next (takeRelief_only _ _ _ _ _)
    | split

theorem reliefIssue_only (g : Nat) (w : Word) (s : State) : Only [.pages, .fab, .del, .pci, .fwl, .bst, .grps, .outbox] s (reliefIssue g w s) := by
  unfold reliefIssue
  repeat' first
    | (show within _ _ = true; rfl)
    | with_reducible exact Only.refl _ _
    | dsimp only
    | with_reducible apply Only.next (tatSkip_only _ _)
    | with_reducible apply Only.next (modTat_only _ _ _)
    | with_reducible apply Only.next (takeTat_only _ _ _)
    | with_reducible apply Only.next (deferTail_only _ _ _)
    | with_reducible apply Only.next (tatNext_only _ _)
    | with_reducible refine Only.ite ?_ ?_

theorem execLead_only (g : Grp) (auto : Bool) (ch : Fin 16) (s : State) : Answers [.pages, .fab, .del, .pci, .fwl, .bst, .grps, .outbox] s (execLead g auto ch s) := by
  unfold execLead
  repeat' first
    | (show within _ _ = true; rfl)
    | with_reducible exact Only.refl _ _
    | assumption
    | dsimp only
    | with_reducible refine Answers.next ?_
    | with_reducible apply tatIssue_answers
    | with_reducible apply Only.next (reliefIssue_only _ _ _)
    | intro _

theorem execRef_only (g : Grp) (src : Fin 16) (range : Fin 4) (dwell : BitVec 16) (s : State) : Answers [.pages, .fab, .del, .pci, .fwl, .bst, .grps, .outbox] s (execRef g src range dwell s) := by
  unfold execRef
  repeat' first
    | (show within _ _ = true; rfl)
    | with_reducible exact Only.refl _ _
    | assumption
    | dsimp only
    | with_reducible refine Answers.next ?_
    | with_reducible apply tatIssue_answers
    | with_reducible apply Only.next (reliefIssue_only _ _ _)
    | intro _

theorem execExcm_only (g : Grp) (s : State) : Answers [.pages, .fab, .del, .pci, .fwl, .bst, .grps, .outbox] s (execExcm g s) := by
  unfold execExcm
  repeat' first
    | (show within _ _ = true; rfl)
    | with_reducible exact Only.refl _ _
    | assumption
    | dsimp only
    | with_reducible refine Answers.next ?_
    | with_reducible apply tatIssue_answers
    | with_reducible apply Only.next (reliefIssue_only _ _ _)
    | intro _

theorem execExcmDone_only (g : GGrp) (mv : Nat) (s : State) : Answers [.pages, .fab, .del, .pci, .fwl, .grps, .outbox] s (execExcmDone g mv s) := by
  unfold execExcmDone
  repeat' first
    | (show within _ _ = true; rfl)
    | with_reducible exact Only.refl _ _
    | assumption
    | dsimp only
    | with_reducible refine Answers.next ?_
    | with_reducible apply analogue_answers
    | with_reducible apply Only.next (bumpGen_only _ _)
    | with_reducible apply Only.next (modTat_only _ _ _)
    | with_reducible apply Only.next (groupRaise_only _ _ _ _)
    | with_reducible apply Only.next (tatDone_only _ _)
    | with_reducible apply Only.next (freeRelief_only _ _)
    | with_reducible refine Only.ite ?_ ?_
    | with_reducible refine Answers.ite ?_ ?_
    | split
    | intro _

theorem execTatDeferredRun_only (g : Grp) (s : State) : Answers [.pages, .fab, .del, .pci, .fwl, .bst, .grps, .outbox] s (execTatDeferredRun g s) := by
  unfold execTatDeferredRun
  repeat' first
    | (show within _ _ = true; rfl)
    | with_reducible exact Only.refl _ _
    | assumption
    | dsimp only
    | with_reducible refine Answers.next ?_
    | with_reducible apply analogue_answers
    | with_reducible apply Only.next (modTat_only _ _ _)
    | with_reducible apply Only.next (takeTat_only _ _ _)
    | with_reducible refine Only.ite ?_ ?_
    | with_reducible refine Answers.ite ?_ ?_
    | split
    | intro _

theorem startWindow_only (g c : Nat) (s : State) : Only [.pages, .fab, .del, .pci, .fwl, .bst, .chans, .grps, .outbox] s (startWindow g c s) := by
  unfold startWindow
  repeat' first
    | (show within _ _ = true; rfl)
    | with_reducible exact Only.refl _ _
    | assumption
    | dsimp only
    | with_reducible apply Only.next (modTat_only _ _ _)
    | with_reducible apply Only.next (modChan_only _ _ _)
    | with_reducible apply Only.next (takeRelief_only _ _ _ _ _)
    | with_reducible refine Only.ite ?_ ?_

theorem execPulse_only (g : Grp) (all : Bool) (ch : Fin 16) (s : State) : Answers [.pages, .fab, .del, .pci, .fwl, .bst, .chans, .grps, .outbox] s (execPulse g all ch s) := by
  unfold execPulse
  repeat' first
    | (show within _ _ = true; rfl)
    | with_reducible exact Only.refl _ _
    | assumption
    | dsimp only
    | with_reducible refine Answers.next ?_
    | with_reducible apply tatIssue_answers
    | with_reducible apply Only.next (tatSkip_only _ _)
    | with_reducible apply Only.next (tatNext_only _ _)
    | with_reducible apply Only.next (startWindow_only _ _ _)
    | with_reducible apply Only.next (modTat_only _ _ _)
    | with_reducible refine Only.ite ?_ ?_
    | with_reducible refine Answers.ite ?_ ?_
    | split
    | intro _

theorem judgeWindow_only (c : Nat) (open_ : Bool) (s : State) : Only [.pages, .fab, .del, .pci, .fwl, .chans, .grps, .outbox] s (judgeWindow c open_ s) := by
  unfold judgeWindow
  repeat' first
    | (show within _ _ = true; rfl)
    | with_reducible exact Only.refl _ _
    | assumption
    | dsimp only
    | with_reducible apply Only.next (modChan_only _ _ _)
    | with_reducible apply Only.next (openDecision_only _ _ _)
    | with_reducible apply Only.next (endOpen_only _ _ _)
    | with_reducible refine Only.ite ?_ ?_

theorem nextWindow_only (g : Nat) (s : State) : Only [.pages, .fab, .del, .pci, .fwl, .bst, .chans, .grps, .outbox] s (nextWindow g s) := by
  unfold nextWindow
  repeat' first
    | (show within _ _ = true; rfl)
    | with_reducible exact Only.refl _ _
    | assumption
    | dsimp only
    | with_reducible apply Only.next (serveQueue_only _ _)
    | with_reducible apply Only.next (startWindow_only _ _ _)
    | with_reducible apply Only.next (modTat_only _ _ _)
    | with_reducible apply Only.next (tatNext_only _ _)
    | with_reducible refine Only.ite ?_ ?_
    | split

theorem execPulseWindowDone_only (g : GGrp) (ch : Fin 16) (mv : Int) (rail : Bool) (s : State) : Answers [.pages, .fab, .del, .pci, .fwl, .bst, .chans, .grps, .outbox] s (execPulseWindowDone g ch mv rail s) := by
  unfold execPulseWindowDone
  repeat' first
    | (show within _ _ = true; rfl)
    | with_reducible exact Only.refl _ _
    | assumption
    | dsimp only
    | with_reducible refine Answers.next ?_
    | with_reducible apply analogue_answers
    | with_reducible apply Only.next (modTat_only _ _ _)
    | with_reducible apply Only.next (freeRelief_only _ _)
    | with_reducible apply Only.next (judgeWindow_only _ _ _)
    | with_reducible apply Only.next (nextWindow_only _ _)
    | with_reducible refine Only.ite ?_ ?_
    | with_reducible refine Answers.ite ?_ ?_
    | split
    | intro _

theorem refuseTat_only (g digest : Nat) (s : State) : Only [.pages, .fab, .del, .pci, .fwl, .outbox] s (refuseTat g digest s) := by
  unfold refuseTat
  repeat' first
    | (show within _ _ = true; rfl)
    | with_reducible exact Only.refl _ _
    | dsimp only
    | with_reducible apply Only.next (groupRaise_only _ _ _ _)
    | with_reducible apply Only.next (pairWith_only _ _ _ _)

theorem commitTat_only (g : Nat) (s : State) : Only [.pages, .fab, .del, .pci, .fwl, .grps, .outbox] s (commitTat g s) := by
  unfold commitTat
  repeat' first
    | (show within _ _ = true; rfl)
    | with_reducible exact Only.refl _ _
    | assumption
    | dsimp only
    | with_reducible apply Only.next (modTat_only _ _ _)
    | with_reducible apply Only.next (refuseTat_only _ _ _)
    | with_reducible refine Only.ite ?_ ?_

theorem swapTat_only (g : Nat) (lg : Bool) (s : State) : Only [.pages, .fab, .del, .pci, .fwl, .grps, .outbox] s (swapTat g lg s) := by
  unfold swapTat
  repeat' first
    | (show within _ _ = true; rfl)
    | with_reducible exact Only.refl _ _
    | assumption
    | dsimp only
    | with_reducible apply Only.next (dropAllDeferred_only _ _)
    | with_reducible apply Only.next (refuseTat_only _ _ _)
    | with_reducible apply Only.next (modTat_only _ _ _)
    | with_reducible apply Only.next (pairWith_only _ _ _ _)
    | with_reducible apply Only.next (groupRaise_only _ _ _ _)
    | with_reducible apply Only.next (bumpGen_only _ _)
    | with_reducible refine Only.ite ?_ ?_

theorem execTatSwap_only (g : Grp) (s : State) : Answers [.pages, .fab, .del, .pci, .fwl, .grps, .outbox] s (execTatSwap g s) := by
  unfold execTatSwap
  repeat' first
    | (show within _ _ = true; rfl)
    | with_reducible exact Only.refl _ _
    | assumption
    | dsimp only
    | with_reducible refine Answers.next ?_
    | with_reducible apply analogue_answers
    | with_reducible apply Only.next (swapTat_only _ _ _)
    | with_reducible refine Only.ite ?_ ?_
    | with_reducible refine Answers.ite ?_ ?_
    | split
    | intro _

theorem tatWindow_answers {l : List Area} {r : Req} {f : Nat → State → State} {s : State} (hl : within [.fab] l = true) (h : ∀ g s, Only l s (f g s)) :
    Answers l s (tatWindow r f s) := by
  unfold tatWindow
  refine Answers.next (gated_then hl (fun s => ?_) (Only.refl _ _))
  exact Only.ite (h _ s) (Only.refl _ _)

theorem execTatClr_only (r : Req) (s : State) : Answers [.fab, .grps] s (execTatClr r s) := by
  unfold execTatClr
  repeat' first
    | (show within _ _ = true; rfl)
    | with_reducible exact Only.refl _ _
    | assumption
    | dsimp only
    | with_reducible refine Answers.next ?_
    | with_reducible apply tatWindow_answers
    | with_reducible apply Only.next (modTat_only _ _ _)
    | with_reducible refine Only.ite ?_ ?_
    | with_reducible refine Answers.ite ?_ ?_
    | split
    | intro _

theorem execTatDataWrite_only (r : Req) (v : Word) (s : State) : Answers [.fab, .grps] s (execTatDataWrite r v s) := by
  unfold execTatDataWrite
  repeat' first
    | (show within _ _ = true; rfl)
    | with_reducible exact Only.refl _ _
    | assumption
    | dsimp only
    | with_reducible refine Answers.next ?_
    | with_reducible apply tatWindow_answers
    | with_reducible apply Only.next (modTat_only _ _ _)
    | with_reducible refine Only.ite ?_ ?_
    | with_reducible refine Answers.ite ?_ ?_
    | split
    | intro _

theorem execTatCommit_only (r : Req) (s : State) : Answers [.pages, .fab, .del, .pci, .fwl, .grps, .outbox] s (execTatCommit r s) := by
  unfold execTatCommit
  repeat' first
    | (show within _ _ = true; rfl)
    | with_reducible exact Only.refl _ _
    | assumption
    | dsimp only
    | with_reducible refine Answers.next ?_
    | with_reducible apply tatWindow_answers
    | with_reducible apply Only.next (commitTat_only _ _)
    | intro _

theorem execTatAbort_only (r : Req) (s : State) : Answers [.fab, .grps] s (execTatAbort r s) := by
  unfold execTatAbort
  repeat' first
    | (show within _ _ = true; rfl)
    | with_reducible exact Only.refl _ _
    | assumption
    | dsimp only
    | with_reducible refine Answers.next ?_
    | with_reducible apply tatWindow_answers
    | with_reducible apply Only.next (modTat_only _ _ _)
    | intro _

theorem loadTat_only (g : Nat) (p : ProgPlan) (second : Bool) (s : State) : Only [.pages, .fab, .del, .pci, .fwl, .grps, .outbox] s (loadTat g p second s) := by
  unfold loadTat
  repeat' first
    | (show within _ _ = true; rfl)
    | with_reducible exact Only.refl _ _
    | assumption
    | dsimp only
    | with_reducible apply Only.next (modTat_only _ _ _)
    | with_reducible apply Only.next (groupRaise_only _ _ _ _)
    | with_reducible apply Only.next (commitTat_only _ _)
    | with_reducible apply Only.next (swapTat_only _ _ _)
    | with_reducible apply Only.foldl_then
    | with_reducible apply Only.foldl_fst_then
    | with_reducible apply Only.foldl_snd_then
    | with_reducible refine Only.ite ?_ ?_
    | with_reducible refine Only.ite_fst ?_ ?_
    | with_reducible refine Only.ite_snd ?_ ?_
    | split

theorem activateTats_only (b : SliceBody) (second : Bool) (s : State) : Only [.pages, .fab, .del, .pci, .fwl, .grps, .outbox] s (activateTats b second s) := by
  unfold activateTats
  repeat' first
    | (show within _ _ = true; rfl)
    | with_reducible exact Only.refl _ _
    | assumption
    | dsimp only
    | with_reducible apply Only.next (swapTat_only _ _ _)
    | with_reducible apply Only.next (loadTat_only _ _ _ _)
    | with_reducible apply Only.next (endPair_only _ _)
    | with_reducible apply Only.next (modTat_only _ _ _)
    | with_reducible apply Only.foldl_then
    | with_reducible refine Only.ite ?_ ?_
    | split
    | intro _

theorem epochTats_only (d : Int) (s : State) : Only [.pages, .fab, .del, .pci, .fwl, .grps, .outbox] s (epochTats d s) := by
  unfold epochTats
  repeat' first
    | (show within _ _ = true; rfl)
    | with_reducible exact Only.refl _ _
    | assumption
    | dsimp only
    | with_reducible apply Only.next (modTat_only _ _ _)
    | with_reducible apply Only.next (dropAllDeferred_only _ _)
    | with_reducible apply Only.foldl_then
    | with_reducible refine Only.ite ?_ ?_
    | split
    | intro _


end Sys2Proof.Machine
end

