-- ==== Sys2Proof/Laws/FrameSources.lean ====
section
/-! SUPPORT. The frames of the operations of Machine/Sources.lean. -/

namespace Sys2Proof.Machine

theorem localHz_only (id : Nat) (s : State) : Only [.del] s (localHz id s) := by
  unfold localHz
  repeat' first
    | (show within _ _ = true; rfl)
    | with_reducible exact Only.refl _ _
    | assumption
    | dsimp only
    | with_reducible apply Only.next (modCon_only _ _ _)
    | with_reducible refine Only.ite ?_ ?_

theorem execItemTransmit_only (con : Con) (s : State) : Answers [.pages, .fab, .lanes, .lsh, .del, .ques, .pci, .fsp, .tcs, .fwl, .bst, .outbox] s (execItemTransmit con s) := by
  unfold execItemTransmit
  repeat' first
    | (show within _ _ = true; rfl)
    | with_reducible exact Only.refl _ _
    | assumption
    | dsimp only
    | with_reducible refine Answers.next ?_
    | with_reducible apply Only.next (transmit_only _ _)
    | with_reducible apply Only.next (localHz_only _ _)
    | with_reducible apply Only.next (promote_only _ _ _)
    | with_reducible refine Only.ite ?_ ?_
    | with_reducible refine Answers.ite ?_ ?_

theorem beatCon_only (cls : Nat) (s : State) (id : Nat) : Only [.pages, .fab, .lanes, .lsh, .del, .ques, .pci, .fsp, .tcs, .fwl, .bst, .outbox] s (beatCon cls s id) := by
  unfold beatCon
  repeat' first
    | (show within _ _ = true; rfl)
    | with_reducible exact Only.refl _ _
    | assumption
    | dsimp only
    | with_reducible apply Only.next (promote_only _ _ _)
    | with_reducible apply Only.next (transmit_only _ _)
    | with_reducible apply Only.next (localHz_only _ _)
    | with_reducible apply Only.next (modCon_only _ _ _)
    | with_reducible apply Only.next (putItemK_only _ _ _)
    | with_reducible refine Only.ite ?_ ?_

theorem execSourceHorizonBeat_only (cls : Cls) (s : State) : Answers [.pages, .fab, .lanes, .lsh, .del, .ques, .pci, .fsp, .tcs, .fwl, .bst, .outbox] s (execSourceHorizonBeat cls s) := by
  unfold execSourceHorizonBeat
  repeat' first
    | (show within _ _ = true; rfl)
    | with_reducible exact Only.refl _ _
    | assumption
    | dsimp only
    | with_reducible refine Answers.next ?_
    | with_reducible apply Only.next (beatCon_only _ _ _)
    | with_reducible apply Only.foldl_then
    | intro _


end Sys2Proof.Machine
end

