-- ==== Sys2Proof/Laws/FrameSelfTest.lean ====
section
/-! SUPPORT. The frames of the operations of Machine/SelfTest.lean. -/

namespace Sys2Proof.Machine

theorem putSlice_only (k st : Nat) (s : State) : Only [.bst] s (putSlice k st s) := by
  unfold putSlice
  repeat' first
    | (show within _ _ = true; rfl)
    | with_reducible exact Only.refl _ _
    | dsimp only
    | with_reducible apply Only.next (modBst_only _ _)

theorem startSlice_only (k : Nat) (s : State) : Only [.pages, .fab, .del, .pci, .fwl, .bst, .grps, .outbox] s (startSlice k s) := by
  unfold startSlice
  repeat' first
    | (show within _ _ = true; rfl)
    | with_reducible exact Only.refl _ _
    | assumption
    | dsimp only
    | with_reducible apply Only.next (putSlice_only _ _ _)
    | with_reducible apply Only.next (takeRelief_only _ _ _ _ _)
    | with_reducible refine Only.ite ?_ ?_

theorem execSliceStart_only (k : Fin 72) (s : State) : Answers [.pages, .fab, .del, .pci, .fwl, .bst, .grps, .outbox] s (execSliceStart k s) := by
  unfold execSliceStart
  repeat' first
    | (show within _ _ = true; rfl)
    | with_reducible exact Only.refl _ _
    | assumption
    | dsimp only
    | with_reducible refine Answers.next ?_
    | with_reducible apply Only.next (startSlice_only _ _)
    | with_reducible apply Only.next (modBst_only _ _)
    | with_reducible refine Only.ite ?_ ?_

theorem execSliceRetry_only (k : Fin 72) (s : State) : Answers [.pages, .fab, .del, .pci, .fwl, .bst, .grps, .outbox] s (execSliceRetry k s) := by
  unfold execSliceRetry
  repeat' first
    | (show within _ _ = true; rfl)
    | with_reducible exact Only.refl _ _
    | assumption
    | dsimp only
    | with_reducible refine Answers.next ?_
    | with_reducible apply Only.next (startSlice_only _ _)
    | with_reducible refine Only.ite ?_ ?_

theorem execSliceRestoreDone_only (k : Fin 72) (s : State) : Answers [.bst] s (execSliceRestoreDone k s) := by
  unfold execSliceRestoreDone
  repeat' first
    | (show within _ _ = true; rfl)
    | with_reducible exact Only.refl _ _
    | assumption
    | dsimp only
    | with_reducible refine Answers.next ?_
    | with_reducible apply Only.next (modBst_only _ _)
    | with_reducible refine Only.ite ?_ ?_

theorem leaveSlice_only (k : Nat) (s : State) : Only [.bst, .grps] s (leaveSlice k s) := by
  unfold leaveSlice
  repeat' first
    | (show within _ _ = true; rfl)
    | with_reducible exact Only.refl _ _
    | assumption
    | dsimp only
    | with_reducible apply Only.next (endSlice_only _ _ _)
    | with_reducible apply Only.next (freeRelief_only _ _)
    | with_reducible refine Only.ite ?_ ?_

theorem failIsland_only (k slice : Nat) (sig gold : Word) (s : State) : Only [.pages, .mem, .fab, .del, .pci, .tcs, .fwl, .bst, .chans, .grps, .outbox] s (failIsland k slice sig gold s) := by
  unfold failIsland
  repeat' first
    | (show within _ _ = true; rfl)
    | with_reducible exact Only.refl _ _
    | assumption
    | dsimp only
    | with_reducible apply Only.next (modIsl_only _ _ _)
    | with_reducible apply Only.next (bumpGen_only _ _)
    | with_reducible apply Only.next (raise_only _ _ _ _)
    | with_reducible apply Only.next (retireConv_only _ _ _)
    | with_reducible apply Only.next (coreStops_only _ _)
    | with_reducible apply Only.next (modBst_only _ _)
    | with_reducible refine Only.ite ?_ ?_
    | split

theorem compareSig_only (k : Nat) (sig gold : Word) (s : State) : Only [.pages, .mem, .fab, .del, .pci, .tcs, .fwl, .bst, .chans, .grps, .outbox] s (compareSig k sig gold s) := by
  unfold compareSig
  repeat' first
    | (show within _ _ = true; rfl)
    | with_reducible exact Only.refl _ _
    | assumption
    | dsimp only
    | with_reducible apply Only.next (modIsl_only _ _ _)
    | with_reducible apply Only.next (failIsland_only _ _ _ _ _)
    | with_reducible apply Only.next (raise_only _ _ _ _)
    | with_reducible apply Only.next (modBst_only _ _)
    | with_reducible refine Only.ite ?_ ?_

theorem execSliceComplete_only (k : Fin 72) (sig golden : Word) (s : State) : Answers [.pages, .mem, .fab, .del, .pci, .tcs, .fwl, .bst, .chans, .grps, .outbox] s (execSliceComplete k sig golden s) := by
  unfold execSliceComplete
  repeat' first
    | (show within _ _ = true; rfl)
    | with_reducible exact Only.refl _ _
    | assumption
    | dsimp only
    | with_reducible refine Answers.next ?_
    | with_reducible apply Only.next (compareSig_only _ _ _ _)
    | with_reducible apply Only.next (leaveSlice_only _ _)
    | with_reducible refine Only.ite ?_ ?_

theorem execReservedWindow_only (k : Fin 72) (s : State) : Answers [.pages, .fab, .del, .pci, .fwl, .bst, .grps, .outbox] s (execReservedWindow k s) := by
  unfold execReservedWindow
  repeat' first
    | (show within _ _ = true; rfl)
    | with_reducible exact Only.refl _ _
    | assumption
    | dsimp only
    | with_reducible refine Answers.next ?_
    | with_reducible apply Only.next (leaveSlice_only _ _)
    | with_reducible apply Only.next (putSlice_only _ _ _)
    | with_reducible apply Only.next (modGrp_only _ _ _)
    | with_reducible apply Only.next (takeRelief_only _ _ _ _ _)
    | with_reducible refine Only.ite ?_ ?_

theorem execForcedSliceDone_only (k : Fin 72) (sig golden : Word) (s : State) : Answers [.pages, .mem, .fab, .del, .pci, .tcs, .fwl, .bst, .chans, .grps, .outbox] s (execForcedSliceDone k sig golden s) := by
  unfold execForcedSliceDone
  repeat' first
    | (show within _ _ = true; rfl)
    | with_reducible exact Only.refl _ _
    | assumption
    | dsimp only
    | with_reducible refine Answers.next ?_
    | with_reducible apply Only.next (leaveSlice_only _ _)
    | with_reducible apply Only.next (modIsl_only _ _ _)
    | with_reducible apply Only.next (compareSig_only _ _ _ _)
    | with_reducible apply Only.next (modBst_only _ _)
    | with_reducible refine Only.ite ?_ ?_

theorem cycleEnd_only (s : State) : Only [.pages, .fab, .del, .pci, .fwl, .bst, .outbox] s (cycleEnd s) := by
  unfold cycleEnd
  repeat' first
    | (show within _ _ = true; rfl)
    | with_reducible exact Only.refl _ _
    | assumption
    | dsimp only
    | with_reducible apply Only.next (raise_only _ _ _ _)
    | with_reducible apply Only.next (modIsl_only _ _ _)
    | with_reducible apply Only.next (bumpGen_only _ _)
    | with_reducible apply Only.next (modBst_only _ _)
    | with_reducible apply Only.foldl_then
    | with_reducible refine Only.ite ?_ ?_
    | split
    | intro _

theorem execCoverageCycleEnd_only (s : State) : Answers [.pages, .fab, .del, .pci, .fwl, .bst, .outbox] s (execCoverageCycleEnd s) := by
  unfold execCoverageCycleEnd
  repeat' first
    | (show within _ _ = true; rfl)
    | with_reducible exact Only.refl _ _
    | assumption
    | dsimp only
    | with_reducible refine Answers.next ?_
    | with_reducible apply Only.next (cycleEnd_only _)
    | with_reducible refine Only.ite ?_ ?_

theorem bstStop_only (s : State) : Only [.bst, .grps] s (bstStop s) := by
  unfold bstStop
  repeat' first
    | (show within _ _ = true; rfl)
    | with_reducible exact Only.refl _ _
    | assumption
    | dsimp only
    | with_reducible apply Only.next (leaveSlice_only _ _)
    | with_reducible apply Only.next (modBst_only _ _)
    | with_reducible apply Only.foldl_then
    | with_reducible apply Only.foldl_fst_then
    | with_reducible apply Only.foldl_snd_then
    | with_reducible refine Only.ite ?_ ?_
    | with_reducible refine Only.ite_fst ?_ ?_
    | with_reducible refine Only.ite_snd ?_ ?_
    | split
    | intro _

theorem bstCtrl_only (v : Word) (s : State) : Only [.pages, .rf, .fab, .del, .pci, .fwl, .bst, .grps, .outbox] s (bstCtrl v s) := by
  unfold bstCtrl
  repeat' first
    | (show within _ _ = true; rfl)
    | with_reducible exact Only.refl _ _
    | assumption
    | dsimp only
    | with_reducible apply Only.next (cycleEnd_only _)
    | with_reducible apply Only.next (rfPut_only _ _ _)
    | with_reducible apply Only.next (bstStop_only _)
    | with_reducible apply Only.next (modBst_only _ _)
    | with_reducible refine Only.ite ?_ ?_

theorem execNewcyc_only (r : Req) (v : Word) (s : State) : Answers [.pages, .rf, .fab, .del, .pci, .fwl, .bst, .grps, .outbox] s (execNewcyc r v s) := by
  unfold execNewcyc
  repeat' first
    | (show within _ _ = true; rfl)
    | with_reducible exact Only.refl _ _
    | assumption
    | dsimp only
    | with_reducible refine Answers.next ?_
    | with_reducible apply gated_then
    | with_reducible apply Only.next (bstCtrl_only _ _)
    | split
    | intro _

theorem execBstDisable_only (r : Req) (v : Word) (s : State) : Answers [.pages, .rf, .fab, .del, .pci, .fwl, .bst, .grps, .outbox] s (execBstDisable r v s) := by
  unfold execBstDisable
  repeat' first
    | (show within _ _ = true; rfl)
    | with_reducible exact Only.refl _ _
    | assumption
    | dsimp only
    | with_reducible refine Answers.next ?_
    | with_reducible apply gated_then
    | with_reducible apply Only.next (bstCtrl_only _ _)
    | intro _

theorem dropSlices_only (s : State) : Only [.bst, .grps] s (dropSlices s) := by
  unfold dropSlices
  repeat' first
    | (show within _ _ = true; rfl)
    | with_reducible exact Only.refl _ _
    | assumption
    | dsimp only
    | with_reducible apply Only.next (leaveSlice_only _ _)
    | with_reducible apply Only.foldl_then
    | intro _

theorem goldLoaded_only (s : State) : Only [.pages, .fab, .del, .pci, .fwl, .bst, .outbox] s (goldLoaded s) := by
  unfold goldLoaded
  repeat' first
    | (show within _ _ = true; rfl)
    | with_reducible exact Only.refl _ _
    | assumption
    | dsimp only
    | with_reducible apply Only.next (raise_only _ _ _ _)
    | with_reducible apply Only.next (modBst_only _ _)
    | with_reducible refine Only.ite ?_ ?_

theorem execTestBlockTimer_only (p : Port) (s : State) : Answers [.lanes] s (execTestBlockTimer p s) := by
  unfold execTestBlockTimer
  repeat' first
    | (show within _ _ = true; rfl)
    | with_reducible exact Only.refl _ _
    | assumption
    | dsimp only
    | with_reducible refine Answers.next ?_
    | with_reducible apply Only.next (modLane_only _ _ _)
    | with_reducible refine Only.ite ?_ ?_

theorem execTestBlockReceive_only (p : Port) (words : List W128) (s : State) : Answers [.pages, .fab, .pln, .lanes, .lsh, .del, .pci, .fwl, .bst, .outbox] s (execTestBlockReceive p words s) := by
  unfold execTestBlockReceive
  repeat' first
    | (show within _ _ = true; rfl)
    | with_reducible exact Only.refl _ _
    | assumption
    | dsimp only
    | with_reducible refine Answers.next ?_
    | with_reducible apply Only.next (modLane_only _ _ _)
    | with_reducible apply Only.next (discardBlock_only _ _ _ _ _)
    | with_reducible apply Only.next (raiseOnce_only _ _ _ _ _)
    | with_reducible apply Only.next (modBst_only _ _)
    | with_reducible refine Only.ite ?_ ?_

theorem execAnalogueCheckGo_only (r : Req) (v : Word) (s : State) : Answers [.pages, .rf, .fab, .del, .pci, .fwl, .bst, .grps, .outbox] s (execAnalogueCheckGo r v s) := by
  unfold execAnalogueCheckGo
  repeat' first
    | (show within _ _ = true; rfl)
    | with_reducible exact Only.refl _ _
    | assumption
    | dsimp only
    | with_reducible refine Answers.next ?_
    | with_reducible apply gated_then
    | with_reducible apply Only.next (rfPut_only _ _ _)
    | with_reducible apply Only.next (endCheck_only _ _ _)
    | with_reducible apply Only.next (freeRelief_only _ _)
    | with_reducible apply Only.next (modBst_only _ _)
    | with_reducible refine Only.ite ?_ ?_
    | with_reducible refine Answers.ite ?_ ?_
    | split
    | intro _

theorem execAnalogueCheckDone_only (res : List (Int × Int)) (exc : Option Nat) (s : State) : Answers [.pages, .fab, .del, .pci, .fwl, .bst, .chans, .grps, .outbox] s (execAnalogueCheckDone res exc s) := by
  unfold execAnalogueCheckDone
  repeat' first
    | (show within _ _ = true; rfl)
    | with_reducible exact Only.refl _ _
    | assumption
    | dsimp only
    | with_reducible refine Answers.next ?_
    | with_reducible apply Only.next (retireConv_only _ _ _)
    | with_reducible apply Only.next (endCheck_only _ _ _)
    | with_reducible apply Only.next (freeRelief_only _ _)
    | with_reducible apply Only.next (modBst_only _ _)
    | with_reducible refine Only.ite ?_ ?_
    | with_reducible refine Only.ite_fst ?_ ?_
    | with_reducible refine Only.ite_snd ?_ ?_
    | with_reducible refine Answers.ite ?_ ?_
    | split


end Sys2Proof.Machine
end

