-- ==== Sys2Proof/Laws/FrameFirmware.lean ====
section
/-! SUPPORT. The frames of the operations of Machine/Firmware.lean. -/

namespace Sys2Proof.Machine

theorem fwState_only (st : Nat) (s : State) : Only [.pages, .fwl] s (fwState st s) := by
  unfold fwState
  repeat' first
    | (show within _ _ = true; rfl)
    | with_reducible exact Only.refl _ _
    | assumption
    | dsimp only
    | with_reducible apply Only.next (bumpGen_only _ _)
    | with_reducible apply Only.next (modFwl_only _ _)
    | with_reducible refine Only.ite ?_ ?_

theorem fwRaise_only (bit code : Nat) (s : State) : Only [.pages, .fab, .del, .pci, .fwl, .outbox] s (fwRaise bit code s) := by
  unfold fwRaise
  repeat' first
    | (show within _ _ = true; rfl)
    | with_reducible exact Only.refl _ _
    | dsimp only
    | with_reducible apply Only.next (raise_only _ _ _ _)

theorem fwRefuse_only (s : State) : Only [.fwl] s (fwRefuse s) := by
  unfold fwRefuse
  repeat' first
    | (show within _ _ = true; rfl)
    | with_reducible exact Only.refl _ _
    | dsimp only
    | with_reducible apply Only.next (modFwl_only _ _)

theorem fwFail_only (code st : Nat) (s : State) : Only [.pages, .fab, .del, .pci, .fwl, .outbox] s (fwFail code st s) := by
  unfold fwFail
  repeat' first
    | (show within _ _ = true; rfl)
    | with_reducible exact Only.refl _ _
    | dsimp only
    | with_reducible apply Only.next (fwRaise_only _ _ _)
    | with_reducible apply Only.next (fwState_only _ _)
    | with_reducible apply Only.next (modFwl_only _ _)

theorem repair_only (s : State) : Only [.pages, .fab, .del, .pci, .fwl, .outbox] s (repair s) := by
  unfold repair
  repeat' first
    | (show within _ _ = true; rfl)
    | with_reducible exact Only.refl _ _
    | assumption
    | dsimp only
    | with_reducible apply Only.next (pairWith_only _ _ _ _)
    | with_reducible apply Only.next (refreshOffer_only _)
    | with_reducible apply Only.foldl_then
    | with_reducible apply Only.foldl_fst_then
    | with_reducible apply Only.foldl_snd_then
    | split
    | intro _

theorem bootLoad_only (s : State) : Only [.pages, .fab, .del, .pci, .fwl, .bst, .outbox] s (bootLoad s) := by
  unfold bootLoad
  repeat' first
    | (show within _ _ = true; rfl)
    | with_reducible exact Only.refl _ _
    | assumption
    | dsimp only
    | with_reducible apply Only.next (goldLoaded_only _)
    | with_reducible apply Only.next (refreshOffer_only _)
    | with_reducible apply Only.next (bumpGen_only _ _)
    | with_reducible apply Only.next (fwRaise_only _ _ _)
    | with_reducible apply Only.next (modFwl_only _ _)
    | with_reducible refine Only.ite ?_ ?_

theorem execFwStage_only (r : Req) (s : State) : Answers [.pages, .fab, .del, .pci, .fwl, .bst, .outbox] s (execFwStage r s) := by
  unfold execFwStage
  repeat' first
    | (show within _ _ = true; rfl)
    | with_reducible exact Only.refl _ _
    | assumption
    | dsimp only
    | with_reducible refine Answers.next ?_
    | with_reducible apply gatedFirmware_then
    | with_reducible apply Only.next (fwState_only _ _)
    | with_reducible apply Only.next (fwRefuse_only _)
    | with_reducible apply Only.next (modFwl_only _ _)
    | with_reducible refine Only.ite ?_ ?_
    | with_reducible refine Answers.ite ?_ ?_
    | split
    | intro _

theorem execStageDone_only (good : Bool) (s : State) : Answers [.pages, .fab, .del, .pci, .fwl, .outbox] s (execStageDone good s) := by
  unfold execStageDone
  repeat' first
    | (show within _ _ = true; rfl)
    | with_reducible exact Only.refl _ _
    | assumption
    | dsimp only
    | with_reducible refine Answers.next ?_
    | with_reducible apply Only.next (fwFail_only _ _ _)
    | with_reducible apply Only.next (fwRaise_only _ _ _)
    | with_reducible apply Only.next (fwState_only _ _)
    | with_reducible apply Only.next (modFwl_only _ _)
    | with_reducible refine Only.ite ?_ ?_

theorem execFwSwap_only (r : Req) (s : State) : Answers [.pages, .fab, .del, .pci, .fwl, .bst, .outbox] s (execFwSwap r s) := by
  unfold execFwSwap
  repeat' first
    | (show within _ _ = true; rfl)
    | with_reducible exact Only.refl _ _
    | assumption
    | dsimp only
    | with_reducible refine Answers.next ?_
    | with_reducible apply gatedFirmware_then
    | with_reducible apply Only.next (fwRefuse_only _)
    | with_reducible apply Only.next (fwFail_only _ _ _)
    | with_reducible apply Only.next (fwState_only _ _)
    | with_reducible apply Only.next (modFwl_only _ _)
    | with_reducible refine Only.ite ?_ ?_
    | with_reducible refine Answers.ite ?_ ?_
    | split
    | intro _

theorem execSwapIdleBoundary_only (s : State) : Answers [.pages, .fwl, .bst, .grps] s (execSwapIdleBoundary s) := by
  unfold execSwapIdleBoundary
  repeat' first
    | (show within _ _ = true; rfl)
    | with_reducible exact Only.refl _ _
    | assumption
    | dsimp only
    | with_reducible refine Answers.next ?_
    | with_reducible apply Only.next (fwState_only _ _)
    | with_reducible apply Only.next (dropSlices_only _)
    | with_reducible refine Only.ite ?_ ?_

theorem execHandoverDone_only (s : State) : Answers [.pages, .fab, .del, .pci, .fwl, .bst, .outbox] s (execHandoverDone s) := by
  unfold execHandoverDone
  repeat' first
    | (show within _ _ = true; rfl)
    | with_reducible exact Only.refl _ _
    | assumption
    | dsimp only
    | with_reducible refine Answers.next ?_
    | with_reducible apply Only.next (fwState_only _ _)
    | with_reducible apply Only.next (repair_only _)
    | with_reducible apply Only.next (goldLoaded_only _)
    | with_reducible apply Only.next (fwRaise_only _ _ _)
    | with_reducible apply Only.next (modFwl_only _ _)
    | with_reducible refine Only.ite ?_ ?_

theorem execSwapTimeout_only (s : State) : Answers [.pages, .fab, .del, .pci, .fwl, .outbox] s (execSwapTimeout s) := by
  unfold execSwapTimeout
  repeat' first
    | (show within _ _ = true; rfl)
    | with_reducible exact Only.refl _ _
    | assumption
    | dsimp only
    | with_reducible refine Answers.next ?_
    | with_reducible apply Only.next (fwFail_only _ _ _)
    | with_reducible refine Only.ite ?_ ?_

theorem writeBoot_only (s : State) : Only [.fwl] s (writeBoot s) := by
  unfold writeBoot
  repeat' first
    | (show within _ _ = true; rfl)
    | with_reducible exact Only.refl _ _
    | assumption
    | dsimp only
    | with_reducible apply Only.next (modFwl_only _ _)

theorem execFwConfirm_only (r : Req) (s : State) : Answers [.pages, .fab, .del, .pci, .fwl, .bst, .outbox] s (execFwConfirm r s) := by
  unfold execFwConfirm
  repeat' first
    | (show within _ _ = true; rfl)
    | with_reducible exact Only.refl _ _
    | assumption
    | dsimp only
    | with_reducible refine Answers.next ?_
    | with_reducible apply gatedFirmware_then
    | with_reducible apply Only.next (fwRaise_only _ _ _)
    | with_reducible apply Only.next (fwState_only _ _)
    | with_reducible apply Only.next (writeBoot_only _)
    | with_reducible apply Only.next (fwRefuse_only _)
    | with_reducible apply Only.next (modFwl_only _ _)
    | with_reducible refine Only.ite ?_ ?_
    | with_reducible refine Answers.ite ?_ ?_
    | split
    | intro _

theorem revertTrial_only (s : State) : Only [.pages, .fwl] s (revertTrial s) := by
  unfold revertTrial
  repeat' first
    | (show within _ _ = true; rfl)
    | with_reducible exact Only.refl _ _
    | dsimp only
    | with_reducible apply Only.next (fwState_only _ _)
    | with_reducible apply Only.next (modFwl_only _ _)
    | with_reducible refine Only.ite ?_ ?_

theorem execFwRevert_only (r : Req) (s : State) : Answers [.pages, .fab, .del, .pci, .fwl, .bst, .outbox] s (execFwRevert r s) := by
  unfold execFwRevert
  repeat' first
    | (show within _ _ = true; rfl)
    | with_reducible exact Only.refl _ _
    | assumption
    | dsimp only
    | with_reducible refine Answers.next ?_
    | with_reducible apply gatedFirmware_then
    | with_reducible apply Only.next (revertTrial_only _)
    | with_reducible apply Only.next (fwRefuse_only _)
    | with_reducible apply Only.next (modFwl_only _ _)
    | with_reducible refine Only.ite ?_ ?_
    | with_reducible refine Answers.ite ?_ ?_
    | split
    | intro _

theorem execTrialTimeout_only (s : State) : Answers [.pages, .fwl] s (execTrialTimeout s) := by
  unfold execTrialTimeout
  repeat' first
    | (show within _ _ = true; rfl)
    | with_reducible exact Only.refl _ _
    | assumption
    | dsimp only
    | with_reducible refine Answers.next ?_
    | with_reducible apply Only.next (revertTrial_only _)

theorem execLeaseExpiry_only (s : State) : Answers [.pages, .fab, .srv, .lsh, .del, .pci, .fwl, .outbox] s (execLeaseExpiry s) := by
  unfold execLeaseExpiry
  repeat' first
    | (show within _ _ = true; rfl)
    | with_reducible exact Only.refl _ _
    | assumption
    | dsimp only
    | with_reducible refine Answers.next ?_
    | with_reducible apply Only.next (leaseExpires_only _)
    | with_reducible apply Only.next (revertTrial_only _)
    | with_reducible refine Only.ite ?_ ?_

theorem execCkeyBurn_only (r : Req) (s : State) : Answers [.pages, .fuse, .fab, .del, .pci, .fwl, .bst, .free, .outbox] s (execCkeyBurn r s) := by
  unfold execCkeyBurn
  refine Answers.next (gatedFirmware_then rfl (fun s => ?_) (Only.refl _ _))
  by_cases h : s.fuse.ckey.isSome = true ∨ s.fuse.ckeyBusy.isSome = true
  · rw [if_pos h]
    exact (fwRefuse_only s).mono rfl
  · rw [if_neg h]
    have hb : s.fuse.ckey = none := by
      cases hc : s.fuse.ckey with
      | none => rfl
      | some k => exact absurd (Or.inl (by rw [hc]; rfl)) h
    dsimp only
    have hm : Only [.pages, .fuse, .fab, .del, .pci, .fwl, .bst, .free, .outbox] s
        (s.modFuse fun f => { f with ckeyBusy := some (beNat ((keyBytes s).take 32), beNat ((keyBytes s).drop 32)) }) :=
      (modFuse_only rfl fun _ => ⟨fun hs => by simp [hb] at hs, fun k hk => by simp [hb] at hk⟩).mono rfl
    refine Only.ite ?_ hm
    exact Only.next (modFree_only _ _) rfl hm

theorem execCkeyBurnDone_only (s : State) : Answers [.fuse] s (execCkeyBurnDone s) := by
  unfold execCkeyBurnDone
  refine Answers.next ?_
  by_cases h : s.fuse.ckeyBusy.isSome = true
  · rw [if_pos h]
    refine modFuse_only rfl fun hk => ⟨fun _ => rfl, fun k hs => ?_⟩
    have := hk (by rw [hs]; rfl)
    rw [this] at h
    cases h
  · rw [if_neg h]
    exact Only.refl _ _

theorem flStart_only (op a n : Nat) (s : State) : Only [.fwl] s (flStart op a n s) := by
  unfold flStart
  repeat' first
    | (show within _ _ = true; rfl)
    | with_reducible exact Only.refl _ _
    | dsimp only
    | with_reducible apply Only.next (modFwl_only _ _)
    | with_reducible refine Only.ite ?_ ?_

theorem execFlashProgram_only (r : Req) (s : State) : Answers [.pages, .fab, .del, .pci, .fwl, .bst, .outbox] s (execFlashProgram r s) := by
  unfold execFlashProgram
  repeat' first
    | (show within _ _ = true; rfl)
    | with_reducible exact Only.refl _ _
    | assumption
    | dsimp only
    | with_reducible refine Answers.next ?_
    | with_reducible apply gatedFirmware_then
    | with_reducible apply Only.next (flStart_only _ _ _ _)
    | intro _

theorem execFlashErase_only (r : Req) (s : State) : Answers [.pages, .fab, .del, .pci, .fwl, .bst, .outbox] s (execFlashErase r s) := by
  unfold execFlashErase
  repeat' first
    | (show within _ _ = true; rfl)
    | with_reducible exact Only.refl _ _
    | assumption
    | dsimp only
    | with_reducible refine Answers.next ?_
    | with_reducible apply gatedFirmware_then
    | with_reducible apply Only.next (flStart_only _ _ _ _)
    | intro _

theorem execFlashOpDone_only (good : Bool) (s : State) : Answers [.mem, .fwl, .free] s (execFlashOpDone good s) := by
  unfold execFlashOpDone
  refine Answers.next ?_
  split
  · exact Only.refl _ _
  · rename_i op a h
    extract_lets n free t
    refine Only.trans (?_ : Only _ s t) ((modFwl_only _ _).mono rfl)
    show Only _ s (if good = true then _ else _)
    refine Only.ite ?_ ?_
    · refine (modMem_only (fun m w => ?_) _).mono rfl
      split
      · exact Memory.wf_writeN _ _ w
      · exact Memory.wf_clear _ _ w
    · exact Only.next (modFree_only _ _) rfl ((modMem_only (fun m w => Memory.wf_writeN _ _ (Memory.wf_clear _ _ w)) _).mono rfl)

theorem execFlDataWrite_only (r : Req) (v : Word) (s : State) : Answers [.pages, .fab, .del, .pci, .fwl, .bst, .outbox] s (execFlDataWrite r v s) := by
  unfold execFlDataWrite
  repeat' first
    | (show within _ _ = true; rfl)
    | with_reducible exact Only.refl _ _
    | assumption
    | dsimp only
    | with_reducible refine Answers.next ?_
    | with_reducible apply gatedFirmware_then
    | with_reducible apply Only.next (modFwl_only _ _)
    | with_reducible refine Only.ite ?_ ?_
    | with_reducible refine Answers.ite ?_ ?_
    | split
    | intro _

theorem flWord_only (s : State) : Only [.free] s (flWord s).2 := by
  unfold flWord
  repeat' first
    | (show within _ _ = true; rfl)
    | with_reducible exact Only.refl _ _
    | dsimp only
    | with_reducible apply Only.next (takeFree_only _)
    | with_reducible refine Only.ite ?_ ?_
    | with_reducible refine Only.ite_fst ?_ ?_
    | with_reducible refine Only.ite_snd ?_ ?_

theorem flRead_only (s : State) : Only [.rf, .free] s (flRead s).2 := by
  unfold flRead
  repeat' first
    | (show within _ _ = true; rfl)
    | with_reducible exact Only.refl _ _
    | assumption
    | dsimp only
    | with_reducible apply Only.next (flWord_only _)
    | with_reducible apply Only.next (rfPut_only _ _ _)

theorem execFlDataRead_only (r : Req) (s : State) : Answers [.rf, .free, .outbox] s (execFlDataRead r s) := by
  unfold execFlDataRead
  repeat' first
    | (show within _ _ = true; rfl)
    | with_reducible exact Only.refl _ _
    | assumption
    | dsimp only
    | with_reducible refine Answers.next ?_
    | with_reducible apply Only.next (answer_only _ _ _ _)
    | with_reducible apply Only.next (flRead_only _)

theorem execHdrTgtWrite_only (r : Req) (v : Word) (s : State) : Answers [.pages, .rf, .fab, .del, .pci, .fwl, .bst, .outbox] s (execHdrTgtWrite r v s) := by
  unfold execHdrTgtWrite
  repeat' first
    | (show within _ _ = true; rfl)
    | with_reducible exact Only.refl _ _
    | assumption
    | dsimp only
    | with_reducible refine Answers.next ?_
    | with_reducible apply gatedFirmware_then
    | with_reducible apply Only.next (rfPut_only _ _ _)
    | with_reducible apply Only.next (modFwl_only _ _)
    | intro _

theorem execHdrDataWrite_only (r : Req) (v : Word) (s : State) : Answers [.pages, .fab, .del, .pci, .fwl, .bst, .outbox] s (execHdrDataWrite r v s) := by
  unfold execHdrDataWrite
  repeat' first
    | (show within _ _ = true; rfl)
    | with_reducible exact Only.refl _ _
    | assumption
    | dsimp only
    | with_reducible refine Answers.next ?_
    | with_reducible apply gatedFirmware_then
    | with_reducible apply Only.next (modFwl_only _ _)
    | with_reducible refine Only.ite ?_ ?_
    | with_reducible refine Answers.ite ?_ ?_
    | split
    | intro _


end Sys2Proof.Machine
end

