-- ==== Sys2Proof/Laws/FramePower.lean ====
section
/-! SUPPORT. The frames of the operations of Machine/Power.lean. -/

namespace Sys2Proof.Machine

theorem setSup_only (k : Nat) (on : Bool) (s : State) : Only [.pages, .pwr] s (setSup k on s) := by
  unfold setSup
  repeat' first
    | (show within _ _ = true; rfl)
    | with_reducible exact Only.refl _ _
    | dsimp only
    | with_reducible apply on_then
    | with_reducible apply Only.next (bumpGen_only _ _)
    | with_reducible apply Only.next (modPwr_only _ _)
    | with_reducible refine Only.ite ?_ ?_

theorem execStandbyCounterCopy_only (s : State) : Answers [.pwr] s (execStandbyCounterCopy s) := by
  unfold execStandbyCounterCopy
  repeat' first
    | (show within _ _ = true; rfl)
    | with_reducible exact Only.refl _ _
    | assumption
    | dsimp only
    | with_reducible refine Answers.next ?_
    | with_reducible apply Only.next (modPwr_only _ _)
    | with_reducible refine Only.ite ?_ ?_

theorem retRead_only (s : State) : Only [.rf] s (retRead s).2 := by
  unfold retRead
  repeat' first
    | (show within _ _ = true; rfl)
    | with_reducible exact Only.refl _ _
    | dsimp only
    | with_reducible apply Only.next (rfPut_only _ _ _)

theorem execRetDataAccess_only (r : Req) (w : Option Word) (s : State) : Answers [.pages, .rf, .fab, .del, .pci, .fwl, .bst, .pwr, .outbox] s (execRetDataAccess r w s) := by
  unfold execRetDataAccess
  repeat' first
    | (show within _ _ = true; rfl)
    | with_reducible exact Only.refl _ _
    | assumption
    | dsimp only
    | with_reducible refine Answers.next ?_
    | with_reducible apply gatedFirmware_then
    | with_reducible apply Only.next (rfPut_only _ _ _)
    | with_reducible apply Only.next (answer_only _ _ _ _)
    | with_reducible apply Only.next (retRead_only _)
    | with_reducible apply Only.next (putRet_only _ _ _)
    | split
    | intro _

theorem fullReset_only (cause : Nat) (hot : Bool) (s : State) : Only [.pages, .rf, .mem, .fuse, .fab, .pln, .tim, .srv, .lanes, .lsh, .del, .ques, .pci, .fsp, .tcs, .svc, .fwl, .bst, .pwr, .chans, .grps, .lins, .ana] s (fullReset cause hot s) :=
  ⟨fun a ha => by cases a <;> first | rfl | exact absurd (by decide) ha, fun h => FMap.wf_filter _ h, ⟨rfl, fun _ => ⟨fun _ => rfl, fun _ h => h⟩⟩, [], rfl⟩

theorem execVstbyRise_only (s : State) : Answers [.pages, .rf, .mem, .fuse, .fab, .pln, .tim, .srv, .lanes, .lsh, .del, .ques, .pci, .fsp, .tcs, .svc, .fwl, .bst, .pwr, .chans, .grps, .lins, .ana, .free, .outbox] s (execVstbyRise s) := by
  unfold execVstbyRise
  repeat' first
    | (show within _ _ = true; rfl)
    | with_reducible exact Only.refl _ _
    | assumption
    | dsimp only
    | with_reducible refine Answers.next ?_
    | with_reducible apply Only.next (fullReset_only _ _ _)
    | with_reducible apply Only.next (rfPut_only _ _ _)
    | with_reducible apply Only.next (drive_only _ _)
    | with_reducible apply Only.next (modFree_only _ _)
    | with_reducible apply Only.next (modPwr_only _ _)

theorem execResetNLow_only (s : State) : Answers [.pages, .rf, .mem, .fuse, .fab, .pln, .tim, .srv, .lanes, .lsh, .del, .ques, .pci, .fsp, .tcs, .svc, .fwl, .bst, .pwr, .chans, .grps, .lins, .ana] s (execResetNLow s) := by
  unfold execResetNLow
  repeat' first
    | (show within _ _ = true; rfl)
    | with_reducible exact Only.refl _ _
    | assumption
    | dsimp only
    | with_reducible refine Answers.next ?_
    | with_reducible apply Only.next (fullReset_only _ _ _)
    | with_reducible refine Only.ite ?_ ?_

theorem stopGroup_only (g : Nat) (s : State) : Only [.pages, .bst, .grps] s (stopGroup g s) := by
  unfold stopGroup
  repeat' first
    | (show within _ _ = true; rfl)
    | with_reducible exact Only.refl _ _
    | assumption
    | dsimp only
    | with_reducible apply Only.next (leaveSlice_only _ _)
    | with_reducible apply Only.next (groupGen_only _ _)
    | with_reducible apply Only.next (modGrp_only _ _ _)
    | with_reducible refine Only.ite ?_ ?_

theorem stopGroups_only (s : State) : Only [.pages, .bst, .grps] s (stopGroups s) := by
  unfold stopGroups
  repeat' first
    | (show within _ _ = true; rfl)
    | with_reducible exact Only.refl _ _
    | assumption
    | dsimp only
    | with_reducible apply Only.next (stopGroup_only _ _)
    | with_reducible apply Only.foldl_then
    | with_reducible refine Only.ite ?_ ?_
    | split
    | intro _

theorem startChain_only (ts c : Nat) (s : State) : Only [.pages, .fab, .del, .svc, .chans] s (startChain ts c s) := by
  unfold startChain
  repeat' first
    | (show within _ _ = true; rfl)
    | with_reducible exact Only.refl _ _
    | assumption
    | dsimp only
    | with_reducible apply Only.next (closeRuns_only _ _)
    | with_reducible apply Only.next (modChan_only _ _ _)
    | with_reducible apply Only.next (bumpGen_only _ _)
    | with_reducible apply Only.next (condEnd_only _ _ _ _)
    | with_reducible apply Only.next (groupGen_only _ _)
    | with_reducible apply Only.next (modAlarm_only _ _ _)
    | with_reducible refine Only.ite ?_ ?_

theorem startGroup_only (ts g : Nat) (s : State) : Only [.pages, .fab, .del, .svc, .chans] s (startGroup ts g s) := by
  unfold startGroup
  repeat' first
    | (show within _ _ = true; rfl)
    | with_reducible exact Only.refl _ _
    | assumption
    | dsimp only
    | with_reducible apply Only.next (startChain_only _ _ _)
    | with_reducible apply Only.foldl_then
    | intro _

theorem restartServices_only (s : State) : Only [.pages, .svc] s (restartServices s) := by
  unfold restartServices
  repeat' first
    | (show within _ _ = true; rfl)
    | with_reducible exact Only.refl _ _
    | assumption
    | dsimp only
    | with_reducible apply Only.next (setTrackState_only _ _ _)
    | with_reducible apply Only.next (modTrack_only _ _ _)
    | with_reducible apply Only.next (modSect_only _ _ _)
    | with_reducible apply Only.foldl_then
    | with_reducible refine Only.ite ?_ ?_
    | split
    | intro _

theorem applyStored_only (s : State) : Only [.pages, .fab, .del, .pci, .svc, .fwl, .bst, .chans, .grps, .lins, .outbox] s (applyStored s) := by
  unfold applyStored
  repeat' first
    | (show within _ _ = true; rfl)
    | with_reducible exact Only.refl _ _
    | assumption
    | dsimp only
    | with_reducible apply Only.next (groupEffect_only _ _ _)
    | with_reducible apply Only.next (modChan_only _ _ _)
    | with_reducible apply Only.next (chanEffect_only _ _)
    | with_reducible apply Only.next (linSwitch_only _ _)
    | with_reducible apply Only.next (swapTat_only _ _ _)
    | with_reducible apply Only.foldl_then
    | with_reducible refine Only.ite ?_ ?_
    | split
    | intro _

theorem failConv_only (g v : Nat) (s : State) : Only [.pages, .fab, .del, .pci, .fwl, .grps, .outbox] s (failConv g v s) := by
  unfold failConv
  repeat' first
    | (show within _ _ = true; rfl)
    | with_reducible exact Only.refl _ _
    | dsimp only
    | with_reducible apply Only.next (groupRaise_only _ _ _ _)
    | with_reducible apply Only.next (groupGen_only _ _)
    | with_reducible apply Only.next (modGrp_only _ _ _)
    | with_reducible refine Only.ite ?_ ?_

theorem assignConvs_only (g : Nat) (s : State) : Only [.pages, .fab, .del, .pci, .fwl, .chans, .grps, .outbox] s (assignConvs g s) := by
  unfold assignConvs
  repeat' first
    | (show within _ _ = true; rfl)
    | with_reducible exact Only.refl _ _
    | assumption
    | dsimp only
    | with_reducible apply Only.next (groupGen_only _ _)
    | with_reducible apply Only.next (modGrp_only _ _ _)
    | with_reducible apply Only.next (freeRelief_only _ _)
    | with_reducible apply Only.next (blockCamp_only _ _)
    | with_reducible apply Only.next (groupRaise_only _ _ _ _)
    | with_reducible apply Only.next (modChan_only _ _ _)
    | with_reducible apply Only.foldl_then
    | with_reducible refine Only.ite ?_ ?_
    | split
    | intro _

theorem execConverterCheckDone_only (meas : List RefMeas) (s : State) : Answers [.pages, .fab, .del, .pci, .fwl, .pwr, .chans, .grps, .outbox] s (execConverterCheckDone meas s) := by
  unfold execConverterCheckDone
  repeat' first
    | (show within _ _ = true; rfl)
    | with_reducible exact Only.refl _ _
    | assumption
    | dsimp only
    | with_reducible refine Answers.next ?_
    | with_reducible apply Only.next (assignConvs_only _ _)
    | with_reducible apply Only.next (failConv_only _ _ _)
    | with_reducible apply Only.next (modGrp_only _ _ _)
    | with_reducible apply Only.next (startMark_only _ _)
    | with_reducible apply Only.next (modPwr_only _ _)
    | with_reducible apply Only.foldl_then
    | with_reducible refine Only.ite ?_ ?_
    | with_reducible refine Answers.ite ?_ ?_
    | split
    | intro _

theorem execSamplingStart_only (s : State) : Answers [.pages, .fab, .del, .pci, .svc, .fwl, .bst, .pwr, .chans, .grps, .lins, .outbox] s (execSamplingStart s) := by
  unfold execSamplingStart
  repeat' first
    | (show within _ _ = true; rfl)
    | with_reducible exact Only.refl _ _
    | assumption
    | dsimp only
    | with_reducible refine Answers.next ?_
    | with_reducible apply Only.next (pwrState_only _ _)
    | with_reducible apply Only.next (restartServices_only _)
    | with_reducible apply Only.next (applyStored_only _)
    | with_reducible apply Only.next (startGroup_only _ _ _)
    | with_reducible apply Only.next (modGrp_only _ _ _)
    | with_reducible apply Only.next (reflex_only _)
    | with_reducible apply Only.next (modPwr_only _ _)
    | with_reducible apply Only.foldl_then
    | with_reducible refine Only.ite ?_ ?_
    | with_reducible refine Answers.ite ?_ ?_
    | split
    | intro _

theorem leashAtPower_only (s : State) : Only [.pages, .lsh] s (leashAtPower s) := by
  unfold leashAtPower
  repeat' first
    | (show within _ _ = true; rfl)
    | with_reducible exact Only.refl _ _
    | dsimp only
    | with_reducible apply Only.next (bumpGen_only _ _)
    | with_reducible apply Only.next (modLsh_only _ _)
    | with_reducible refine Only.ite ?_ ?_

theorem execPowerGood_only (role : Fin 4) (pos : Fin 128) (mode : Fin 4) (vexc viepe : Bool) (s : State) : Answers [.pages, .fab, .pln, .tim, .srv, .lsh, .del, .pci, .fwl, .pwr, .outbox] s (execPowerGood role pos mode vexc viepe s) := by
  unfold execPowerGood
  repeat' first
    | (show within _ _ = true; rfl)
    | with_reducible exact Only.refl _ _
    | assumption
    | dsimp only
    | with_reducible refine Answers.next ?_
    | with_reducible apply Only.next (bumpGen_only _ _)
    | with_reducible apply Only.next (leashAtPower_only _)
    | with_reducible apply Only.next (putStore_only _ _ _ _)
    | with_reducible apply Only.next (raise_only _ _ _ _)
    | with_reducible apply Only.next (condStart_only _ _ _ _)
    | with_reducible apply Only.next (setTime_only _)
    | with_reducible apply Only.next (modPln_only _ _)
    | with_reducible apply Only.next (modPwr_only _ _)
    | with_reducible apply Only.next (modSrv_only _ _)
    | with_reducible apply Only.next (modTim_only _ _)
    | with_reducible refine Only.ite ?_ ?_
    | with_reducible refine Answers.ite ?_ ?_

theorem execBootLoadDone_only (s : State) : Answers [.pages, .fab, .pln, .lanes, .lsh, .del, .pci, .fwl, .bst, .pwr, .outbox] s (execBootLoadDone s) := by
  unfold execBootLoadDone
  repeat' first
    | (show within _ _ = true; rfl)
    | with_reducible exact Only.refl _ _
    | assumption
    | dsimp only
    | with_reducible refine Answers.next ?_
    | with_reducible apply Only.next (bootLoad_only _)
    | with_reducible apply Only.next (startMark_only _ _)
    | with_reducible apply Only.next (toHunt_only _ _)
    | with_reducible apply Only.next (modPwr_only _ _)
    | with_reducible apply Only.foldl_then
    | with_reducible refine Only.ite ?_ ?_
    | with_reducible refine Answers.ite ?_ ?_
    | split
    | intro _

theorem execStartBoundTimer_only (step : Fin 11) (s : State) : Answers [.pages, .fab, .del, .pci, .fwl, .outbox] s (execStartBoundTimer step s) := by
  unfold execStartBoundTimer
  repeat' first
    | (show within _ _ = true; rfl)
    | with_reducible exact Only.refl _ _
    | assumption
    | dsimp only
    | with_reducible refine Answers.next ?_
    | with_reducible apply Only.next (raise_only _ _ _ _)
    | with_reducible refine Only.ite ?_ ?_

theorem pwrErr_only (e : Nat) (s : State) : Only [.pwr] s (pwrErr e s) := by
  unfold pwrErr
  repeat' first
    | (show within _ _ = true; rfl)
    | with_reducible exact Only.refl _ _
    | dsimp only
    | with_reducible apply Only.next (modPwr_only _ _)

theorem parkReq_only (s : State) : Only [.pages, .fab, .del, .pci, .fwl, .pwr, .outbox] s (parkReq s) := by
  unfold parkReq
  repeat' first
    | (show within _ _ = true; rfl)
    | with_reducible exact Only.refl _ _
    | assumption
    | dsimp only
    | with_reducible apply Only.next (pwrErr_only _ _)
    | with_reducible apply Only.next (pwrState_only _ _)
    | with_reducible apply Only.next (modPwr_only _ _)
    | with_reducible refine Only.ite ?_ ?_

theorem startUnpark_only (s : State) : Only [.pages, .fab, .del, .pci, .fwl, .pwr, .outbox] s (startUnpark s) := by
  unfold startUnpark
  repeat' first
    | (show within _ _ = true; rfl)
    | with_reducible exact Only.refl _ _
    | assumption
    | dsimp only
    | with_reducible apply Only.next (pwrState_only _ _)
    | with_reducible apply Only.next (drive_only _ _)
    | with_reducible apply Only.next (modPwr_only _ _)
    | with_reducible refine Only.ite ?_ ?_

theorem unparkReq_only (s : State) : Only [.pages, .fab, .del, .pci, .fwl, .pwr, .outbox] s (unparkReq s) := by
  unfold unparkReq
  repeat' first
    | (show within _ _ = true; rfl)
    | with_reducible exact Only.refl _ _
    | dsimp only
    | with_reducible apply Only.next (startUnpark_only _)
    | with_reducible apply Only.next (pwrErr_only _ _)
    | with_reducible apply Only.next (modPwr_only _ _)
    | with_reducible refine Only.ite ?_ ?_

theorem standbyReq_only (key : Nat) (s : State) : Only [.pages, .fab, .lanes, .lsh, .del, .pci, .fwl, .pwr, .outbox] s (standbyReq key s) := by
  unfold standbyReq
  repeat' first
    | (show within _ _ = true; rfl)
    | with_reducible exact Only.refl _ _
    | assumption
    | dsimp only
    | with_reducible apply Only.next (pwrErr_only _ _)
    | with_reducible apply Only.next (pwrState_only _ _)
    | with_reducible apply Only.next (goIdle_only _ _)
    | with_reducible apply Only.next (putStore_only _ _ _ _)
    | with_reducible apply Only.next (modPwr_only _ _)
    | with_reducible apply Only.foldl_then
    | with_reducible refine Only.ite ?_ ?_
    | split
    | intro _

theorem pwrCtrl_only (v : Word) (s : State) : Only [.pages, .rf, .mem, .fuse, .fab, .pln, .tim, .srv, .lanes, .lsh, .del, .ques, .pci, .fsp, .tcs, .svc, .fwl, .bst, .pwr, .chans, .grps, .lins, .ana, .outbox] s (pwrCtrl v s) := by
  unfold pwrCtrl
  repeat' first
    | (show within _ _ = true; rfl)
    | with_reducible exact Only.refl _ _
    | assumption
    | dsimp only
    | with_reducible apply Only.next (rfPut_only _ _ _)
    | with_reducible apply Only.next (fullReset_only _ _ _)
    | with_reducible apply Only.next (pwrErr_only _ _)
    | with_reducible apply Only.next (parkReq_only _)
    | with_reducible apply Only.next (standbyReq_only _ _)
    | with_reducible apply Only.next (unparkReq_only _)
    | with_reducible refine Only.ite ?_ ?_
    | split

theorem execParkRequest_only (r : Req) (v : Word) (s : State) : Answers [.pages, .rf, .mem, .fuse, .fab, .pln, .tim, .srv, .lanes, .lsh, .del, .ques, .pci, .fsp, .tcs, .svc, .fwl, .bst, .pwr, .chans, .grps, .lins, .ana, .outbox] s (execParkRequest r v s) := by
  unfold execParkRequest
  repeat' first
    | (show within _ _ = true; rfl)
    | with_reducible exact Only.refl _ _
    | assumption
    | dsimp only
    | with_reducible refine Answers.next ?_
    | with_reducible apply gatedFirmware_then
    | with_reducible apply Only.next (pwrCtrl_only _ _)
    | split
    | intro _

theorem execUnparkRequest_only (r : Req) (v : Word) (s : State) : Answers [.pages, .rf, .mem, .fuse, .fab, .pln, .tim, .srv, .lanes, .lsh, .del, .ques, .pci, .fsp, .tcs, .svc, .fwl, .bst, .pwr, .chans, .grps, .lins, .ana, .outbox] s (execUnparkRequest r v s) := by
  unfold execUnparkRequest
  repeat' first
    | (show within _ _ = true; rfl)
    | with_reducible exact Only.refl _ _
    | assumption
    | dsimp only
    | with_reducible refine Answers.next ?_
    | with_reducible apply gatedFirmware_then
    | with_reducible apply Only.next (pwrCtrl_only _ _)
    | intro _

theorem execStandbyRequest_only (r : Req) (v : Word) (s : State) : Answers [.pages, .rf, .mem, .fuse, .fab, .pln, .tim, .srv, .lanes, .lsh, .del, .ques, .pci, .fsp, .tcs, .svc, .fwl, .bst, .pwr, .chans, .grps, .lins, .ana, .outbox] s (execStandbyRequest r v s) := by
  unfold execStandbyRequest
  repeat' first
    | (show within _ _ = true; rfl)
    | with_reducible exact Only.refl _ _
    | assumption
    | dsimp only
    | with_reducible refine Answers.next ?_
    | with_reducible apply gatedFirmware_then
    | with_reducible apply Only.next (pwrCtrl_only _ _)
    | split
    | intro _

theorem execPwrDevrst_only (r : Req) (v : Word) (s : State) : Answers [.pages, .rf, .mem, .fuse, .fab, .pln, .tim, .srv, .lanes, .lsh, .del, .ques, .pci, .fsp, .tcs, .svc, .fwl, .bst, .pwr, .chans, .grps, .lins, .ana, .outbox] s (execPwrDevrst r v s) := by
  unfold execPwrDevrst
  repeat' first
    | (show within _ _ = true; rfl)
    | with_reducible exact Only.refl _ _
    | assumption
    | dsimp only
    | with_reducible refine Answers.next ?_
    | with_reducible apply gatedFirmware_then
    | with_reducible apply Only.next (pwrCtrl_only _ _)
    | split
    | intro _

theorem execParkStop_only (s : State) : Answers [.pages, .fab, .del, .pci, .svc, .fwl, .bst, .pwr, .grps, .outbox] s (execParkStop s) := by
  unfold execParkStop
  repeat' first
    | (show within _ _ = true; rfl)
    | with_reducible exact Only.refl _ _
    | assumption
    | dsimp only
    | with_reducible refine Answers.next ?_
    | with_reducible apply Only.next (pwrState_only _ _)
    | with_reducible apply Only.next (startUnpark_only _)
    | with_reducible apply Only.next (restartCmpr_only _ _ _)
    | with_reducible apply Only.next (stopGroups_only _)
    | with_reducible apply Only.next (restartServices_only _)
    | with_reducible apply Only.next (reflex_only _)
    | with_reducible apply Only.next (modPwr_only _ _)
    | with_reducible apply Only.foldl_then
    | with_reducible refine Only.ite ?_ ?_
    | with_reducible refine Answers.ite ?_ ?_
    | split
    | intro _

theorem execDiceOffDone_only (s : State) : Answers [.pages, .fab, .del, .pci, .fwl, .pwr, .outbox] s (execDiceOffDone s) := by
  unfold execDiceOffDone
  repeat' first
    | (show within _ _ = true; rfl)
    | with_reducible exact Only.refl _ _
    | assumption
    | dsimp only
    | with_reducible refine Answers.next ?_
    | with_reducible apply Only.next (drive_only _ _)
    | with_reducible apply Only.next (pwrState_only _ _)
    | with_reducible apply Only.next (startUnpark_only _)
    | with_reducible apply Only.next (modPwr_only _ _)
    | with_reducible refine Only.ite ?_ ?_

theorem wakeNow_only (reason : Nat) (s : State) : Only [.pages, .rf, .mem, .fuse, .fab, .pln, .tim, .srv, .lanes, .lsh, .del, .ques, .pci, .fsp, .tcs, .svc, .fwl, .bst, .pwr, .chans, .grps, .lins, .ana, .outbox] s (wakeNow reason s) := by
  unfold wakeNow
  repeat' first
    | (show within _ _ = true; rfl)
    | with_reducible exact Only.refl _ _
    | assumption
    | dsimp only
    | with_reducible apply Only.next (fullReset_only _ _ _)
    | with_reducible apply Only.next (drive_only _ _)
    | with_reducible apply Only.next (putStore_only _ _ _ _)
    | with_reducible apply Only.next (putRet_only _ _ _)
    | with_reducible apply Only.next (modPwr_only _ _)
    | with_reducible refine Only.ite ?_ ?_

theorem execSupEnFall_only (s : State) : Answers [.pages, .rf, .mem, .fuse, .fab, .pln, .tim, .srv, .lanes, .lsh, .del, .ques, .pci, .fsp, .tcs, .svc, .fwl, .bst, .pwr, .chans, .grps, .lins, .ana, .outbox] s (execSupEnFall s) := by
  unfold execSupEnFall
  repeat' first
    | (show within _ _ = true; rfl)
    | with_reducible exact Only.refl _ _
    | assumption
    | dsimp only
    | with_reducible refine Answers.next ?_
    | with_reducible apply Only.next (fullReset_only _ _ _)
    | with_reducible apply Only.next (drive_only _ _)
    | with_reducible apply Only.next (wakeNow_only _ _)
    | with_reducible apply Only.next (modPwr_only _ _)
    | with_reducible refine Only.ite ?_ ?_
    | with_reducible refine Answers.ite ?_ ?_
    | split

theorem wakeCond_only (reason : Nat) (s : State) : Only [.pages, .rf, .mem, .fuse, .fab, .pln, .tim, .srv, .lanes, .lsh, .del, .ques, .pci, .fsp, .tcs, .svc, .fwl, .bst, .pwr, .chans, .grps, .lins, .ana, .outbox] s (wakeCond reason s) := by
  unfold wakeCond
  repeat' first
    | (show within _ _ = true; rfl)
    | with_reducible exact Only.refl _ _
    | dsimp only
    | with_reducible apply Only.next (wakeNow_only _ _)
    | with_reducible apply Only.next (modPwr_only _ _)
    | with_reducible refine Only.ite ?_ ?_

theorem execWakePin_only (s : State) : Answers [.pages, .rf, .mem, .fuse, .fab, .pln, .tim, .srv, .lanes, .lsh, .del, .ques, .pci, .fsp, .tcs, .svc, .fwl, .bst, .pwr, .chans, .grps, .lins, .ana, .outbox] s (execWakePin s) := by
  unfold execWakePin
  repeat' first
    | (show within _ _ = true; rfl)
    | with_reducible exact Only.refl _ _
    | assumption
    | dsimp only
    | with_reducible refine Answers.next ?_
    | with_reducible apply Only.next (wakeCond_only _ _)
    | with_reducible refine Only.ite ?_ ?_

theorem execWakeAlarm_only (s : State) : Answers [.pages, .rf, .mem, .fuse, .fab, .pln, .tim, .srv, .lanes, .lsh, .del, .ques, .pci, .fsp, .tcs, .svc, .fwl, .bst, .pwr, .chans, .grps, .lins, .ana, .outbox] s (execWakeAlarm s) := by
  unfold execWakeAlarm
  repeat' first
    | (show within _ _ = true; rfl)
    | with_reducible exact Only.refl _ _
    | assumption
    | dsimp only
    | with_reducible refine Answers.next ?_
    | with_reducible apply Only.next (wakeCond_only _ _)
    | with_reducible refine Only.ite ?_ ?_

theorem anaLost_only (bit : Nat) (s : State) : Only [.pages, .fab, .del, .pci, .fwl, .bst, .pwr, .chans, .grps, .outbox] s (anaLost bit s) := by
  unfold anaLost
  repeat' first
    | (show within _ _ = true; rfl)
    | with_reducible exact Only.refl _ _
    | assumption
    | dsimp only
    | with_reducible apply Only.next (setSup_only _ _ _)
    | with_reducible apply Only.next (raise_only _ _ _ _)
    | with_reducible apply Only.next (stopGroups_only _)
    | with_reducible apply Only.next (modChan_only _ _ _)
    | with_reducible apply Only.next (blockCamp_only _ _)
    | with_reducible apply Only.next (groupGen_only _ _)
    | with_reducible apply Only.next (modGrp_only _ _ _)
    | with_reducible apply Only.next (modPwr_only _ _)
    | with_reducible apply Only.foldl_then
    | with_reducible refine Only.ite ?_ ?_
    | split
    | intro _

theorem execAnaLost_only (lo : Bool) (s : State) : Answers [.pages, .fab, .del, .pci, .fwl, .bst, .pwr, .chans, .grps, .outbox] s (execAnaLost lo s) := by
  unfold execAnaLost
  repeat' first
    | (show within _ _ = true; rfl)
    | with_reducible exact Only.refl _ _
    | assumption
    | dsimp only
    | with_reducible refine Answers.next ?_
    | with_reducible apply Only.next (anaLost_only _ _)
    | with_reducible refine Only.ite ?_ ?_

theorem execAnaBack_only (s : State) : Answers [.pages, .fab, .del, .pci, .fwl, .pwr, .outbox] s (execAnaBack s) := by
  unfold execAnaBack
  repeat' first
    | (show within _ _ = true; rfl)
    | with_reducible exact Only.refl _ _
    | assumption
    | dsimp only
    | with_reducible refine Answers.next ?_
    | with_reducible apply Only.next (raise_only _ _ _ _)
    | with_reducible apply Only.next (setSup_only _ _ _)
    | with_reducible apply Only.next (modPwr_only _ _)
    | with_reducible refine Only.ite ?_ ?_

theorem execSupplyFall_only (rail : Fin 7) (s : State) : Answers [.pages, .rf, .mem, .fuse, .fab, .pln, .tim, .srv, .lanes, .lsh, .del, .ques, .pci, .fsp, .tcs, .svc, .fwl, .bst, .pwr, .chans, .grps, .lins, .ana, .outbox] s (execSupplyFall rail s) := by
  unfold execSupplyFall
  repeat' first
    | (show within _ _ = true; rfl)
    | with_reducible exact Only.refl _ _
    | assumption
    | dsimp only
    | with_reducible refine Answers.next ?_
    | with_reducible apply Only.next (anaLost_only _ _)
    | with_reducible apply Only.next (fullReset_only _ _ _)
    | with_reducible refine Only.ite ?_ ?_

theorem execVexcLow_only (low : Bool) (s : State) : Answers [.pages, .fab, .del, .pci, .fwl, .pwr, .outbox] s (execVexcLow low s) := by
  unfold execVexcLow
  repeat' first
    | (show within _ _ = true; rfl)
    | with_reducible exact Only.refl _ _
    | assumption
    | dsimp only
    | with_reducible refine Answers.next ?_
    | with_reducible apply Only.next (raiseOnce_only _ _ _ _ _)
    | with_reducible apply Only.next (setSup_only _ _ _)
    | with_reducible apply Only.next (condEnd_only _ _ _ _)
    | with_reducible refine Only.ite ?_ ?_

theorem execViepeLow_only (low : Bool) (s : State) : Answers [.pages, .fab, .del, .pci, .fwl, .pwr, .outbox] s (execViepeLow low s) := by
  unfold execViepeLow
  repeat' first
    | (show within _ _ = true; rfl)
    | with_reducible exact Only.refl _ _
    | assumption
    | dsimp only
    | with_reducible refine Answers.next ?_
    | with_reducible apply Only.next (raiseOnce_only _ _ _ _ _)
    | with_reducible apply Only.next (setSup_only _ _ _)
    | with_reducible apply Only.next (condEnd_only _ _ _ _)
    | with_reducible refine Only.ite ?_ ?_

theorem execJunctionTempRead_only (core : List Int) (s : State) : Answers [.pages, .rf, .mem, .fuse, .fab, .pln, .tim, .srv, .lanes, .lsh, .del, .ques, .pci, .fsp, .tcs, .svc, .fwl, .bst, .pwr, .chans, .grps, .lins, .ana, .outbox] s (execJunctionTempRead core s) := by
  unfold execJunctionTempRead
  repeat' first
    | (show within _ _ = true; rfl)
    | with_reducible exact Only.refl _ _
    | assumption
    | dsimp only
    | with_reducible refine Answers.next ?_
    | with_reducible apply Only.next (fullReset_only _ _ _)
    | with_reducible apply Only.next (raiseOnce_only _ _ _ _ _)
    | with_reducible apply Only.next (condEnd_only _ _ _ _)
    | with_reducible apply Only.next (modPwr_only _ _)
    | with_reducible refine Only.ite ?_ ?_
    | with_reducible refine Answers.ite ?_ ?_
    | split

theorem execWatchdogExpiry_only (s : State) : Answers [.pages, .fab, .del, .pci, .fwl, .pwr, .outbox] s (execWatchdogExpiry s) := by
  unfold execWatchdogExpiry
  repeat' first
    | (show within _ _ = true; rfl)
    | with_reducible exact Only.refl _ _
    | assumption
    | dsimp only
    | with_reducible refine Answers.next ?_
    | with_reducible apply Only.next (raise_only _ _ _ _)
    | with_reducible apply Only.next (modFwl_only _ _)
    | with_reducible apply Only.next (modPwr_only _ _)
    | with_reducible refine Only.ite ?_ ?_

theorem execWatchdogRestartDone_only (s : State) : Answers [.fwl] s (execWatchdogRestartDone s) := by
  unfold execWatchdogRestartDone
  repeat' first
    | (show within _ _ = true; rfl)
    | with_reducible exact Only.refl _ _
    | assumption
    | dsimp only
    | with_reducible refine Answers.next ?_
    | with_reducible apply Only.next (modFwl_only _ _)


end Sys2Proof.Machine
end

