-- ==== Sys2Proof/Laws/FramePlan.lean ====
section
/-! SUPPORT. The frames of the operations of Machine/Plan.lean. -/

namespace Sys2Proof.Machine

theorem rejectSlice_only (e : Nat) (s : State) : Only [.pages, .fab, .pln, .del, .pci, .fwl, .outbox] s (rejectSlice e s) := by
  unfold rejectSlice
  repeat' first
    | (show within _ _ = true; rfl)
    | with_reducible exact Only.refl _ _
    | dsimp only
    | with_reducible apply Only.next (raise_only _ _ _ _)
    | with_reducible apply Only.next (bumpGen_only _ _)
    | with_reducible apply Only.next (modPln_only _ _)

theorem loadTc_only (n : Nat) (digest : Nat) (lg : Bool) (s : State) : Only [.pages, .mem, .fab, .del, .pci, .tcs, .fwl, .outbox] s (loadTc n digest lg s) := by
  unfold loadTc
  repeat' first
    | (show within _ _ = true; rfl)
    | with_reducible exact Only.refl _ _
    | assumption
    | dsimp only
    | with_reducible apply Only.next (refuseCommit_only _ _ _)
    | with_reducible apply Only.next (modTc_only _ _ _)
    | with_reducible apply Only.next (commitImage_only _ _ _ _ _)
    | with_reducible apply Only.next (modMem_only (fun m h => ?_) _)
    | exact Memory.wf_writeN _ _ h
    | exact Memory.wf_clear _ _ h
    | with_reducible refine Only.ite ?_ ?_
    | split

theorem activateTc_only (b : SliceBody) (boot : Bool) (s : State) (n : Nat) : Only [.pages, .mem, .fab, .del, .pci, .tcs, .fwl, .outbox] s (activateTc b boot s n) := by
  unfold activateTc
  repeat' first
    | (show within _ _ = true; rfl)
    | with_reducible exact Only.refl _ _
    | assumption
    | dsimp only
    | with_reducible apply Only.next (cancelCommit_only _ _)
    | with_reducible apply Only.next (modTc_only _ _ _)
    | with_reducible apply Only.next (leaveStopped_only _ _)
    | with_reducible apply Only.next (loadTc_only _ _ _ _)
    | with_reducible refine Only.ite ?_ ?_
    | split

theorem bootTat_only (s : State) (g : Nat) : Only [.pages, .fab, .del, .pci, .fwl, .grps, .outbox] s (bootTat s g) := by
  unfold bootTat
  repeat' first
    | (show within _ _ = true; rfl)
    | with_reducible exact Only.refl _ _
    | assumption
    | dsimp only
    | with_reducible apply Only.next (swapTat_only _ _ _)
    | with_reducible apply Only.next (modTat_only _ _ _)
    | with_reducible apply Only.foldl_then
    | with_reducible apply Only.foldl_fst_then
    | with_reducible apply Only.foldl_snd_then
    | with_reducible refine Only.ite ?_ ?_
    | with_reducible refine Only.ite_fst ?_ ?_
    | with_reducible refine Only.ite_snd ?_ ?_
    | split

theorem activateCons_only (old new : List (Nat × Contract)) (s : State) : Only [.pages, .del] s (activateCons old new s) := by
  unfold activateCons
  repeat' first
    | (show within _ _ = true; rfl)
    | with_reducible exact Only.refl _ _
    | assumption
    | dsimp only
    | with_reducible apply Only.next (bumpGen_only _ _)
    | with_reducible apply Only.next (modCon_only _ _ _)
    | with_reducible apply Only.next (closeRun_only _ _ _)
    | with_reducible apply Only.next (startCon_only _ _)
    | with_reducible apply Only.next (installCon_only _ _ _ _ _)
    | with_reducible apply Only.next (modDel_only _ _)
    | with_reducible apply Only.foldl_then
    | with_reducible apply Only.foldl_fst_then
    | with_reducible apply Only.foldl_snd_then
    | with_reducible refine Only.ite ?_ ?_
    | with_reducible refine Only.ite_fst ?_ ?_
    | with_reducible refine Only.ite_snd ?_ ?_
    | split
    | intro _

theorem activateQueue_only (s : State) (q : Nat × Word × Word) : Only [.pages, .ques] s (activateQueue s q) := by
  unfold activateQueue
  repeat' first
    | (show within _ _ = true; rfl)
    | with_reducible exact Only.refl _ _
    | dsimp only
    | with_reducible apply Only.next (bumpGen_only _ _)
    | with_reducible apply Only.next (modQue_only _ _ _)

theorem activateAlarm_only (b : SliceBody) (s : State) (c : Nat) : Only [.svc] s (activateAlarm b s c) := by
  unfold activateAlarm
  repeat' first
    | (show within _ _ = true; rfl)
    | with_reducible exact Only.refl _ _
    | assumption
    | dsimp only
    | with_reducible apply Only.next (modAlarm_only _ _ _)
    | with_reducible refine Only.ite ?_ ?_

theorem recheckPort_only (s : State) (p : Nat) : Only [.lanes] s (recheckPort s p) := by
  unfold recheckPort
  repeat' first
    | (show within _ _ = true; rfl)
    | with_reducible exact Only.refl _ _
    | dsimp only
    | with_reducible apply Only.next (sendCap_only _ _)
    | with_reducible apply Only.next (modLane_only _ _ _)
    | with_reducible refine Only.ite ?_ ?_

theorem recheckAny_only (s : State) (p : Nat) : Only [.lanes] s (recheckAny s p) := by
  unfold recheckAny
  repeat' first
    | (show within _ _ = true; rfl)
    | with_reducible exact Only.refl _ _
    | dsimp only
    | with_reducible apply Only.next (sendCap_only _ _)
    | with_reducible apply Only.next (modLane_only _ _ _)
    | with_reducible refine Only.ite ?_ ?_

theorem activate_only (x : Slice) (src : Nat) (s : State) : Only [.pages, .rf, .mem, .fab, .pln, .srv, .lanes, .lsh, .del, .ques, .pci, .tcs, .svc, .fwl, .pwr, .chans, .grps, .lins, .ana, .outbox] s (activate x src s) := by
  unfold activate
  repeat' first
    | (show within _ _ = true; rfl)
    | with_reducible exact Only.refl _ _
    | assumption
    | dsimp only
    | with_reducible apply Only.next (toHunt_only _ _)
    | with_reducible apply Only.next (condEnd_only _ _ _ _)
    | with_reducible apply Only.next (bumpGen_only _ _)
    | with_reducible apply Only.next (startMark_only _ _)
    | with_reducible apply Only.next (portOff_only _ _)
    | with_reducible apply Only.next (modLane_only _ _ _)
    | with_reducible apply Only.next (breakHop_only _ _)
    | with_reducible apply Only.next (setTxDis_only _ _)
    | with_reducible apply Only.next (modPort_only _ _ _)
    | with_reducible apply Only.next (losPlan_only _ _)
    | with_reducible apply Only.next (rfPut_only _ _ _)
    | with_reducible apply Only.next (activateQueue_only _ _)
    | with_reducible apply Only.next (rewriteLins_only _ _)
    | with_reducible apply Only.next (rewriteEntries_only _ _)
    | with_reducible apply Only.next (activateAlarm_only _ _ _)
    | with_reducible apply Only.next (putRule_only _ _ _ _)
    | with_reducible apply Only.next (activateTats_only _ _ _)
    | with_reducible apply Only.next (bootTat_only _ _)
    | with_reducible apply Only.next (activateTc_only _ _ _ _)
    | with_reducible apply Only.next (activateCons_only _ _ _)
    | with_reducible apply Only.next (modDel_only _ _)
    | with_reducible apply Only.next (modPln_only _ _)
    | with_reducible apply Only.next (modSrv_only _ _)
    | with_reducible apply Only.foldl_then
    | with_reducible apply Only.foldl_fst_then
    | with_reducible apply Only.foldl_snd_then
    | with_reducible refine Only.ite ?_ ?_
    | with_reducible refine Only.ite_fst ?_ ?_
    | with_reducible refine Only.ite_snd ?_ ?_
    | split
    | intro _

theorem emptyLoad_only (s : State) : Only [.pages, .pln] s (emptyLoad s) := by
  unfold emptyLoad
  repeat' first
    | (show within _ _ = true; rfl)
    | with_reducible exact Only.refl _ _
    | dsimp only
    | with_reducible apply Only.next (bumpGen_only _ _)
    | with_reducible apply Only.next (modPln_only _ _)

theorem execLoadDataWrite_only (r : Req) (v : Word) (s : State) : Answers [.pages, .fab, .pln] s (execLoadDataWrite r v s) := by
  unfold execLoadDataWrite
  repeat' first
    | (show within _ _ = true; rfl)
    | with_reducible exact Only.refl _ _
    | assumption
    | dsimp only
    | with_reducible refine Answers.next ?_
    | with_reducible apply gated_then
    | with_reducible apply Only.next (bumpGen_only _ _)
    | with_reducible apply Only.next (modPln_only _ _)
    | with_reducible refine Only.ite ?_ ?_
    | with_reducible refine Answers.ite ?_ ?_
    | split
    | intro _

theorem goSlice_only (s : State) : Only [.pages, .rf, .mem, .fab, .pln, .srv, .lanes, .lsh, .del, .ques, .pci, .tcs, .svc, .fwl, .pwr, .chans, .grps, .lins, .ana, .outbox] s (goSlice s) := by
  unfold goSlice
  repeat' first
    | (show within _ _ = true; rfl)
    | with_reducible exact Only.refl _ _
    | assumption
    | dsimp only
    | with_reducible apply Only.next (emptyLoad_only _)
    | with_reducible apply Only.next (rejectSlice_only _ _)
    | with_reducible apply Only.next (activate_only _ _ _)
    | with_reducible refine Only.ite ?_ ?_

theorem execLoadGo_only (r : Req) (s : State) : Answers [.pages, .rf, .mem, .fab, .pln, .srv, .lanes, .lsh, .del, .ques, .pci, .tcs, .svc, .fwl, .pwr, .chans, .grps, .lins, .ana, .outbox] s (execLoadGo r s) := by
  unfold execLoadGo
  repeat' first
    | (show within _ _ = true; rfl)
    | with_reducible exact Only.refl _ _
    | assumption
    | dsimp only
    | with_reducible refine Answers.next ?_
    | with_reducible apply gated_then
    | with_reducible apply Only.next (goSlice_only _)
    | intro _

theorem stageSlice_only (x : Slice) (src : Nat) (s : State) : Only [.pages, .fab, .pln, .del, .pci, .fwl, .outbox] s (stageSlice x src s) := by
  unfold stageSlice
  repeat' first
    | (show within _ _ = true; rfl)
    | with_reducible exact Only.refl _ _
    | dsimp only
    | with_reducible apply Only.next (raise_only _ _ _ _)
    | with_reducible apply Only.next (bumpGen_only _ _)
    | with_reducible apply Only.next (modPln_only _ _)

theorem execStage_only (r : Req) (s : State) : Answers [.pages, .fab, .pln, .del, .pci, .fwl, .outbox] s (execStage r s) := by
  unfold execStage
  repeat' first
    | (show within _ _ = true; rfl)
    | with_reducible exact Only.refl _ _
    | assumption
    | dsimp only
    | with_reducible refine Answers.next ?_
    | with_reducible apply gated_then
    | with_reducible apply Only.next (emptyLoad_only _)
    | with_reducible apply Only.next (rejectSlice_only _ _)
    | with_reducible apply Only.next (stageSlice_only _ _ _)
    | with_reducible refine Only.ite ?_ ?_
    | with_reducible refine Answers.ite ?_ ?_
    | split
    | intro _

theorem execDiscard_only (r : Req) (s : State) : Answers [.pages, .fab, .pln, .lanes, .lsh] s (execDiscard r s) := by
  unfold execDiscard
  repeat' first
    | (show within _ _ = true; rfl)
    | with_reducible exact Only.refl _ _
    | assumption
    | dsimp only
    | with_reducible refine Answers.next ?_
    | with_reducible apply gated_then
    | with_reducible apply Only.next (journal_only _ _)
    | with_reducible apply Only.next (bumpGen_only _ _)
    | with_reducible apply Only.next (emptyLoad_only _)
    | with_reducible apply Only.next (modPln_only _ _)
    | intro _

theorem execRecheck_only (r : Req) (s : State) : Answers [.fab, .lanes] s (execRecheck r s) := by
  unfold execRecheck
  repeat' first
    | (show within _ _ = true; rfl)
    | with_reducible exact Only.refl _ _
    | assumption
    | dsimp only
    | with_reducible refine Answers.next ?_
    | with_reducible apply gated_then
    | with_reducible apply Only.next (recheckPort_only _ _)
    | with_reducible apply Only.foldl_then
    | intro _

theorem execSliceSearch_only (s : State) : Answers [.pages, .rf, .mem, .fab, .pln, .srv, .lanes, .lsh, .del, .ques, .pci, .tcs, .svc, .fwl, .pwr, .chans, .grps, .lins, .ana, .outbox] s (execSliceSearch s) := by
  unfold execSliceSearch
  repeat' first
    | (show within _ _ = true; rfl)
    | with_reducible exact Only.refl _ _
    | assumption
    | dsimp only
    | with_reducible refine Answers.next ?_
    | with_reducible apply Only.next (goSlice_only _)
    | with_reducible apply Only.next (activate_only _ _ _)
    | with_reducible apply Only.next (rejectSlice_only _ _)
    | with_reducible apply Only.foldl_then
    | with_reducible refine Only.ite ?_ ?_
    | with_reducible refine Answers.ite ?_ ?_
    | split
    | intro _

theorem sendSliceReq_only (s : State) : Only [.pages, .pln, .lanes] s (sendSliceReq s) := by
  unfold sendSliceReq
  repeat' first
    | (show within _ _ = true; rfl)
    | with_reducible exact Only.refl _ _
    | assumption
    | dsimp only
    | with_reducible apply Only.next (bumpGen_only _ _)
    | with_reducible apply Only.next (sendCtrlAll_only _ _ _)
    | with_reducible apply Only.next (modPln_only _ _)

theorem execSliceReqTimer_only (s : State) : Answers [.pages, .pln, .lanes] s (execSliceReqTimer s) := by
  unfold execSliceReqTimer
  repeat' first
    | (show within _ _ = true; rfl)
    | with_reducible exact Only.refl _ _
    | assumption
    | dsimp only
    | with_reducible refine Answers.next ?_
    | with_reducible apply Only.next (sendSliceReq_only _)
    | with_reducible refine Only.ite ?_ ?_

theorem execSliceRetryTimer_only (s : State) : Answers [.pages, .pln, .lanes] s (execSliceRetryTimer s) := by
  unfold execSliceRetryTimer
  repeat' first
    | (show within _ _ = true; rfl)
    | with_reducible exact Only.refl _ _
    | assumption
    | dsimp only
    | with_reducible refine Answers.next ?_
    | with_reducible apply Only.next (sendSliceReq_only _)
    | with_reducible apply Only.next (modPln_only _ _)
    | with_reducible refine Only.ite ?_ ?_

theorem execSliceReqReceive_only (p : Port) (seg pos : Nat) (unknown : Bool) (s : State) : Answers [.pln, .lanes] s (execSliceReqReceive p seg pos unknown s) := by
  unfold execSliceReqReceive
  repeat' first
    | (show within _ _ = true; rfl)
    | with_reducible exact Only.refl _ _
    | assumption
    | dsimp only
    | with_reducible refine Answers.next ?_
    | with_reducible apply Only.next (sendCtrl_only _ _)
    | with_reducible apply Only.next (modPln_only _ _)
    | with_reducible refine Only.ite ?_ ?_
    | with_reducible refine Only.ite_fst ?_ ?_
    | with_reducible refine Only.ite_snd ?_ ?_
    | with_reducible refine Answers.ite ?_ ?_
    | split

theorem execSliceServe_only (s : State) : Answers [.pln, .lanes] s (execSliceServe s) := by
  unfold execSliceServe
  repeat' first
    | (show within _ _ = true; rfl)
    | with_reducible exact Only.refl _ _
    | assumption
    | dsimp only
    | with_reducible refine Answers.next ?_
    | with_reducible apply Only.next (sendCtrl_only _ _)
    | with_reducible apply Only.next (modPln_only _ _)
    | with_reducible apply Only.foldl_then
    | with_reducible apply Only.foldl_fst_then
    | with_reducible apply Only.foldl_snd_then
    | split
    | intro _

theorem takeServed_only (b : List Byte) (held : Option Nat) (s : State) : Only [.pages, .rf, .mem, .fab, .pln, .srv, .lanes, .lsh, .del, .ques, .pci, .tcs, .svc, .fwl, .pwr, .chans, .grps, .lins, .ana, .outbox] s (takeServed b held s) := by
  unfold takeServed
  repeat' first
    | (show within _ _ = true; rfl)
    | with_reducible exact Only.refl _ _
    | assumption
    | dsimp only
    | with_reducible apply Only.next (rejectSlice_only _ _)
    | with_reducible apply Only.next (activate_only _ _ _)
    | with_reducible apply Only.next (recheckAny_only _ _)
    | with_reducible apply Only.next (modPln_only _ _)
    | with_reducible apply Only.foldl_then
    | with_reducible refine Only.ite ?_ ?_
    | split
    | intro _

theorem execSliceDataReceive_only (b : SlicePart) (held : Option Nat) (s : State) : Answers [.pages, .rf, .mem, .fab, .pln, .srv, .lanes, .lsh, .del, .ques, .pci, .tcs, .svc, .fwl, .pwr, .chans, .grps, .lins, .ana, .outbox] s (execSliceDataReceive b held s) := by
  unfold execSliceDataReceive
  repeat' first
    | (show within _ _ = true; rfl)
    | with_reducible exact Only.refl _ _
    | assumption
    | dsimp only
    | with_reducible refine Answers.next ?_
    | with_reducible apply Only.next (bumpGen_only _ _)
    | with_reducible apply Only.next (takeServed_only _ _ _)
    | with_reducible apply Only.next (modPln_only _ _)
    | with_reducible refine Only.ite ?_ ?_

theorem tellPend_only (sec : Nat) (s : State) : Only [.lanes] s (tellPend sec s) := by
  unfold tellPend
  repeat' first
    | (show within _ _ = true; rfl)
    | with_reducible exact Only.refl _ _
    | assumption
    | dsimp only
    | with_reducible apply Only.next (sendCtrlAll_only _ _ _)
    | with_reducible refine Only.ite ?_ ?_
    | split

theorem armAt_only (sec : Nat) (s : State) : Only [.pages, .rf, .pln] s (armAt sec s) := by
  unfold armAt
  repeat' first
    | (show within _ _ = true; rfl)
    | with_reducible exact Only.refl _ _
    | dsimp only
    | with_reducible apply Only.next (bumpGen_only _ _)
    | with_reducible apply Only.next (rfPut_only _ _ _)
    | with_reducible apply Only.next (modPln_only _ _)

theorem execActSecArm_only (r : Req) (v : Word) (s : State) : Answers [.pages, .rf, .fab, .pln, .lanes, .lsh] s (execActSecArm r v s) := by
  unfold execActSecArm
  repeat' first
    | (show within _ _ = true; rfl)
    | with_reducible exact Only.refl _ _
    | assumption
    | dsimp only
    | with_reducible refine Answers.next ?_
    | with_reducible apply gated_then
    | with_reducible apply Only.next (bumpGen_only _ _)
    | with_reducible apply Only.next (tellPend_only _ _)
    | with_reducible apply Only.next (journal_only _ _)
    | with_reducible apply Only.next (armAt_only _ _)
    | with_reducible apply Only.next (modPln_only _ _)
    | with_reducible refine Only.ite ?_ ?_
    | with_reducible refine Answers.ite ?_ ?_
    | split
    | intro _

theorem execPendSliceReceive_only (bytes : List Byte) (sec : Nat) (s : State) : Answers [.pages, .rf, .fab, .pln, .lanes, .del, .pci, .fwl, .outbox] s (execPendSliceReceive bytes sec s) := by
  unfold execPendSliceReceive
  repeat' first
    | (show within _ _ = true; rfl)
    | with_reducible exact Only.refl _ _
    | assumption
    | dsimp only
    | with_reducible refine Answers.next ?_
    | with_reducible apply Only.next (rejectSlice_only _ _)
    | with_reducible apply Only.next (stageSlice_only _ _ _)
    | with_reducible apply Only.next (tellPend_only _ _)
    | with_reducible apply Only.next (armAt_only _ _)
    | with_reducible refine Only.ite ?_ ?_

theorem execPlanActivation_only (s : State) : Answers [.pages, .rf, .mem, .fab, .pln, .srv, .lanes, .lsh, .del, .ques, .pci, .tcs, .svc, .fwl, .pwr, .chans, .grps, .lins, .ana, .outbox] s (execPlanActivation s) := by
  unfold execPlanActivation
  repeat' first
    | (show within _ _ = true; rfl)
    | with_reducible exact Only.refl _ _
    | assumption
    | dsimp only
    | with_reducible refine Answers.next ?_
    | with_reducible apply Only.next (bumpGen_only _ _)
    | with_reducible apply Only.next (raise_only _ _ _ _)
    | with_reducible apply Only.next (condStart_only _ _ _ _)
    | with_reducible apply Only.next (activate_only _ _ _)
    | with_reducible apply Only.next (modPln_only _ _)
    | with_reducible refine Only.ite ?_ ?_
    | with_reducible refine Answers.ite ?_ ?_
    | split

theorem execIdentityWindowClose_only (s : State) : Answers [.pages, .fab, .pln, .lanes, .lsh, .del, .pci, .fwl, .outbox] s (execIdentityWindowClose s) := by
  unfold execIdentityWindowClose
  repeat' first
    | (show within _ _ = true; rfl)
    | with_reducible exact Only.refl _ _
    | assumption
    | dsimp only
    | with_reducible refine Answers.next ?_
    | with_reducible apply Only.next (bumpGen_only _ _)
    | with_reducible apply Only.next (retrain_only _ _)
    | with_reducible apply Only.next (exchangeFails_only _ _ _)
    | with_reducible apply Only.next (recheckAny_only _ _)
    | with_reducible apply Only.next (modPln_only _ _)
    | with_reducible apply Only.foldl_then
    | with_reducible refine Only.ite ?_ ?_
    | with_reducible refine Answers.ite ?_ ?_
    | split
    | intro _


end Sys2Proof.Machine
end

