-- ==== Sys2Proof/Laws/FrameEpoch.lean ====
section
/-! SUPPORT. The frames of the operations of Machine/Epoch.lean. -/

namespace Sys2Proof.Machine

theorem epochCore_only (d : Int) (s : State) (n : Nat) : Only [.pages, .fab, .del, .pci, .tcs, .fwl, .outbox] s (epochCore d s n) := by
  unfold epochCore
  repeat' first
    | (show within _ _ = true; rfl)
    | with_reducible exact Only.refl _ _
    | assumption
    | dsimp only
    | with_reducible apply Only.next (modTc_only _ _ _)
    | with_reducible apply Only.next (windowTrigger_only _ _ _ _)
    | with_reducible refine Only.ite ?_ ?_

theorem epochRest_only (s : State) : Only [.pages, .fab, .del, .pci, .tcs, .svc, .fwl, .pwr, .chans, .grps, .outbox] s (epochRest s) := by
  unfold epochRest
  repeat' first
    | (show within _ _ = true; rfl)
    | with_reducible exact Only.refl _ _
    | assumption
    | dsimp only
    | with_reducible apply Only.next (epochTats_only _ _)
    | with_reducible apply Only.next (epochChannels_only _ _)
    | with_reducible apply Only.next (shiftScheds_only _ _)
    | with_reducible apply Only.next (epochCore_only _ _ _)
    | with_reducible apply Only.next (putStore_only _ _ _ _)
    | with_reducible apply Only.next (stage_only _ _ _)
    | with_reducible apply Only.next (raise_only _ _ _ _)
    | with_reducible apply Only.next (bumpGen_only _ _)
    | with_reducible apply Only.next (modGrps_only _ _)
    | with_reducible apply Only.next (modPwr_only _ _)
    | with_reducible apply Only.foldl_then
    | with_reducible apply Only.foldl_fst_then
    | with_reducible apply Only.foldl_snd_then
    | with_reducible refine Only.ite ?_ ?_
    | with_reducible refine Only.ite_fst ?_ ?_
    | with_reducible refine Only.ite_snd ?_ ?_
    | with_reducible apply Only.id_then
    | split
    | intro _

theorem execEpochChange_only (s : State) : Answers [.pages, .fab, .tim, .del, .pci, .tcs, .svc, .fwl, .pwr, .chans, .grps, .outbox] s (execEpochChange s) := by
  unfold execEpochChange
  repeat' first
    | (show within _ _ = true; rfl)
    | with_reducible exact Only.refl _ _
    | assumption
    | dsimp only
    | with_reducible refine Answers.next ?_
    | with_reducible apply Only.next (epochRest_only _)
    | with_reducible apply Only.next (epochTime_only _ _)
    | with_reducible apply Only.next (raise_only _ _ _ _)
    | with_reducible refine Only.ite ?_ ?_
    | with_reducible refine Answers.ite ?_ ?_
    | split

theorem execEpochAdopt_only (s : State) : Answers [.pages, .fab, .tim, .del, .pci, .tcs, .svc, .fwl, .pwr, .chans, .grps, .outbox] s (execEpochAdopt s) := by
  unfold execEpochAdopt
  repeat' first
    | (show within _ _ = true; rfl)
    | with_reducible exact Only.refl _ _
    | assumption
    | dsimp only
    | with_reducible refine Answers.next ?_
    | with_reducible apply Only.next (epochRest_only _)
    | with_reducible apply Only.next (adoptTime_only _ _)
    | with_reducible apply Only.next (modTim_only _ _)
    | with_reducible refine Only.ite ?_ ?_
    | with_reducible refine Answers.ite ?_ ?_
    | split


end Sys2Proof.Machine
end

