-- ==== Sys2Proof/Laws/FrameOperands.lean ====
section
/-! SUPPORT. The frames of the operations of Machine/Operands.lean. -/

namespace Sys2Proof.Machine

theorem captureReg_only (s0 s : State) (addr : Nat) : Only [.fab] s (captureReg s0 s addr) := by
  unfold captureReg
  split
  · exact Only.refl _ _
  · dsimp only
    split
    · exact modFab_only _ _
    · exact Only.foldl (fun s u => modFab_only _ _) _ _

theorem capture_only (p : Nat) (s : State) : Only [.pages, .fab] s (capture p s) :=
  Only.next (modPage_only _ _ _) rfl (Only.foldl (fun t a => (captureReg_only s t a).mono rfl) _ _)


end Sys2Proof.Machine
end

