-- ==== Sys2Proof/Laws/FramePages.lean ====
section
/-! SUPPORT. The frames of the operations of Machine/Pages.lean. -/

namespace Sys2Proof.Machine

theorem after_then {l : List Area} {o : Out3} {s t : State} (h : Answers l t o) (k : Only l s t) : Only l s (after o t) := by
  obtain ⟨u, rfl, hu⟩ := h
  exact k.trans hu

theorem on_then {l : List Area} {c : Bool} {f : State → Out3} {s t : State} (h : ∀ s, Answers l s (f s)) (k : Only l s t) : Only l s (on c f t) := by
  unfold on
  split
  · exact after_then (h t) k
  · exact k

theorem reservedAccess_only (s : State) : Only [.pages, .fab, .del, .pci, .fwl, .outbox] s (reservedAccess s) := by
  unfold reservedAccess
  repeat' first
    | (show within _ _ = true; rfl)
    | with_reducible exact Only.refl _ _
    | dsimp only
    | with_reducible apply Only.next (raiseOnce_only _ _ _ _ _)
    | with_reducible apply Only.next (modFab_only _ _)

theorem dropShadow_only (r : Req) (p : Nat) (s : State) : Only [.fab] s (dropShadow r p s) := by
  unfold dropShadow
  repeat' first
    | (show within _ _ = true; rfl)
    | with_reducible exact Only.refl _ _
    | dsimp only
    | with_reducible apply Only.next (modFab_only _ _)

theorem clearEpis_only (s : State) : Only [.chans] s (clearEpis s) := by
  unfold clearEpis
  repeat' first
    | (show within _ _ = true; rfl)
    | with_reducible exact Only.refl _ _
    | dsimp only
    | with_reducible apply Only.next (modChan_only _ _ _)
    | with_reducible refine Only.ite ?_ ?_

theorem readAt_only (r : Req) (addr : Nat) (s : State) : Only [.pages, .rf, .fab, .del, .ques, .pci, .fwl, .chans, .free, .outbox] s (readAt r addr s).2 := by
  unfold readAt
  repeat' first
    | (show within _ _ = true; rfl)
    | with_reducible exact Only.refl _ _
    | assumption
    | dsimp only
    | with_reducible apply Only.next (reservedAccess_only _)
    | with_reducible apply Only.next (queueRead_only _ _)
    | with_reducible apply Only.next (flRead_only _)
    | with_reducible apply Only.next (retRead_only _)
    | with_reducible apply Only.next (setShadow_only _ _ _ _)
    | with_reducible apply Only.next (clearEpis_only _)
    | with_reducible apply Only.next (raiseOnce_only _ _ _ _ _)
    | with_reducible apply Only.next (dropShadow_only _ _ _)
    | with_reducible apply Only.next (modFab_only _ _)
    | with_reducible refine Only.ite ?_ ?_
    | with_reducible refine Only.ite_fst ?_ ?_
    | with_reducible refine Only.ite_snd ?_ ?_
    | split

theorem readReg_only (r : Req) (addr : Nat) (s : State) : Only [.pages, .rf, .fab, .del, .ques, .pci, .fwl, .bst, .chans, .free, .outbox] s (readReg r addr s).2 := by
  unfold readReg
  repeat' first
    | (show within _ _ = true; rfl)
    | with_reducible exact Only.refl _ _
    | dsimp only
    | with_reducible apply Only.next (readAt_only _ _ _)
    | with_reducible apply Only.next (reachIsland_only _ _ _)

theorem readAnswer_only (r : Req) (addr : Nat) (s : State) : Only [.pages, .rf, .fab, .del, .ques, .pci, .fwl, .bst, .chans, .free, .outbox] s (readAnswer r addr s) := by
  unfold readAnswer
  repeat' first
    | (show within _ _ = true; rfl)
    | with_reducible exact Only.refl _ _
    | dsimp only
    | with_reducible apply Only.next (answer_only _ _ _ _)
    | with_reducible apply Only.next (readReg_only _ _ _)

theorem endRemote_only (err : Nat) (s : State) : Only [.pages, .fab, .del, .pci, .fwl, .outbox] s (endRemote err s) := by
  unfold endRemote
  repeat' first
    | (show within _ _ = true; rfl)
    | with_reducible exact Only.refl _ _
    | assumption
    | dsimp only
    | with_reducible apply Only.next (raise_only _ _ _ _)
    | with_reducible apply Only.next (bumpGen_only _ _)
    | with_reducible apply Only.next (modFab_only _ _)
    | with_reducible refine Only.ite ?_ ?_

theorem remoteGo_only (v : Word) (s : State) : Only [.pages, .rf, .fab, .lanes, .del, .pci, .fwl, .outbox] s (remoteGo v s) := by
  unfold remoteGo
  repeat' first
    | (show within _ _ = true; rfl)
    | with_reducible exact Only.refl _ _
    | assumption
    | dsimp only
    | with_reducible apply Only.next (rfPut_only _ _ _)
    | with_reducible apply Only.next (endRemote_only _ _)
    | with_reducible apply Only.next (bumpGen_only _ _)
    | with_reducible apply Only.next (sendCtrlAll_only _ _ _)
    | with_reducible apply Only.next (modFab_only _ _)
    | with_reducible refine Only.ite ?_ ?_

theorem commitFeat_only (r : Req) (s : State) : Only [.pages, .fab, .del, .pci, .fwl, .outbox] s (commitFeat r s) := by
  unfold commitFeat
  repeat' first
    | (show within _ _ = true; rfl)
    | with_reducible exact Only.refl _ _
    | assumption
    | dsimp only
    | with_reducible apply Only.next (raise_only _ _ _ _)
    | with_reducible apply Only.next (bumpGen_only _ _)
    | with_reducible apply Only.next (modFab_only _ _)

theorem clearLatch_only (p : Nat) (mask : Word) (s : State) : Only [.pages, .chans] s (clearLatch p mask s) := by
  unfold clearLatch
  repeat' first
    | (show within _ _ = true; rfl)
    | with_reducible exact Only.refl _ _
    | assumption
    | dsimp only
    | with_reducible apply Only.next (freeLatches_only _ _ _)
    | with_reducible apply Only.next (modPage_only _ _ _)

theorem resignal_only (es : List Nat) (s : State) : Only [.fab, .pci, .outbox] s (resignal es s) := by
  unfold resignal
  repeat' first
    | (show within _ _ = true; rfl)
    | with_reducible exact Only.refl _ _
    | assumption
    | dsimp only
    | with_reducible apply Only.next (signal_only _ _)
    | with_reducible apply Only.foldl_then
    | with_reducible refine Only.ite ?_ ?_
    | split
    | intro _

theorem clearEvents_only (hi : Bool) (v : Word) (s : State) : Only [.pages, .fab, .pci, .chans, .outbox] s (clearEvents hi v s) := by
  unfold clearEvents
  repeat' first
    | (show within _ _ = true; rfl)
    | with_reducible exact Only.refl _ _
    | assumption
    | dsimp only
    | with_reducible apply Only.next (resignal_only _ _)
    | with_reducible apply Only.next (clearLatch_only _ _ _)
    | with_reducible apply Only.foldl_then
    | with_reducible apply Only.foldl_fst_then
    | with_reducible apply Only.foldl_snd_then
    | with_reducible refine Only.ite ?_ ?_
    | with_reducible refine Only.ite_fst ?_ ?_
    | with_reducible refine Only.ite_snd ?_ ?_
    | split
    | intro _

theorem devWrite_only (off : Nat) (v : Word) (s : State) : Only [.pages, .rf, .fab, .lanes, .del, .pci, .fwl, .outbox] s (devWrite off v s) := by
  unfold devWrite
  repeat' first
    | (show within _ _ = true; rfl)
    | with_reducible exact Only.refl _ _
    | dsimp only
    | with_reducible apply Only.next (remoteGo_only _ _)
    | with_reducible apply Only.next (rfPut_only _ _ _)
    | with_reducible refine Only.ite ?_ ?_

theorem featWrite_only (r : Req) (off : Nat) (v : Word) (s : State) : Only [.pages, .rf, .fab, .del, .pci, .fwl, .outbox] s (featWrite r off v s) := by
  unfold featWrite
  repeat' first
    | (show within _ _ = true; rfl)
    | with_reducible exact Only.refl _ _
    | assumption
    | dsimp only
    | with_reducible apply Only.next (bumpGen_only _ _)
    | with_reducible apply Only.next (baseGrant_only _)
    | with_reducible apply Only.next (commitFeat_only _ _)
    | with_reducible apply Only.next (rfPut_only _ _ _)
    | with_reducible apply Only.next (modFab_only _ _)
    | with_reducible refine Only.ite ?_ ?_

theorem evtWrite_only (off : Nat) (v : Word) (s : State) : Only [.pages, .rf, .fab, .pci, .chans, .outbox] s (evtWrite off v s) := by
  unfold evtWrite
  repeat' first
    | (show within _ _ = true; rfl)
    | with_reducible exact Only.refl _ _
    | dsimp only
    | with_reducible apply Only.next (clearEvents_only _ _ _)
    | with_reducible apply Only.next (rfPut_only _ _ _)
    | with_reducible refine Only.ite ?_ ?_

theorem timWrite_only (r : Req) (off : Nat) (v : Word) (s : State) : Only [.pages, .rf, .fab, .tim, .srv, .lanes, .lsh, .del, .pci, .fwl, .pwr, .outbox] s (timWrite r off v s) := by
  unfold timWrite
  repeat' first
    | (show within _ _ = true; rfl)
    | with_reducible exact Only.refl _ _
    | dsimp only
    | with_reducible apply on_then
    | with_reducible apply Answers.mono (execTodApplyNow_only _ _)
    | with_reducible apply Answers.mono (execTodApplyPps_only _ _)
    | with_reducible apply Only.next (rfPut_only _ _ _)
    | with_reducible refine Only.ite ?_ ?_
    | split
    | intro _

theorem srvWrite_only (r : Req) (off : Nat) (v : Word) (s : State) : Only [.rf, .fab, .srv] s (srvWrite r off v s) := by
  unfold srvWrite
  repeat' first
    | (show within _ _ = true; rfl)
    | with_reducible exact Only.refl _ _
    | dsimp only
    | with_reducible apply after_then
    | with_reducible apply Answers.mono (execSrvGainsWrite_only _ _ _)
    | with_reducible apply Only.next (rfPut_only _ _ _)
    | with_reducible refine Only.ite ?_ ?_

theorem plnWrite_only (r : Req) (off : Nat) (v : Word) (s : State) : Only [.pages, .rf, .mem, .fab, .pln, .srv, .lanes, .lsh, .del, .ques, .pci, .tcs, .svc, .fwl, .pwr, .chans, .grps, .lins, .ana, .outbox] s (plnWrite r off v s) := by
  unfold plnWrite
  repeat' first
    | (show within _ _ = true; rfl)
    | with_reducible exact Only.refl _ _
    | dsimp only
    | with_reducible apply on_then
    | with_reducible apply after_then
    | with_reducible apply Answers.mono (execDiscard_only _ _)
    | with_reducible apply Answers.mono (execRecheck_only _ _)
    | with_reducible apply Answers.mono (execStage_only _ _)
    | with_reducible apply Answers.mono (execLoadGo_only _ _)
    | with_reducible apply Answers.mono (execActSecArm_only _ _ _)
    | with_reducible apply Answers.mono (execLoadDataWrite_only _ _ _)
    | with_reducible apply Only.next (bumpGen_only _ _)
    | with_reducible apply Only.next (rfPut_only _ _ _)
    | with_reducible refine Only.ite ?_ ?_
    | split
    | intro _

theorem fwlWrite_only (r : Req) (off : Nat) (v : Word) (s : State) : Only [.pages, .rf, .fuse, .fab, .del, .pci, .fwl, .bst, .free, .outbox] s (fwlWrite r off v s) := by
  unfold fwlWrite
  repeat' first
    | (show within _ _ = true; rfl)
    | with_reducible exact Only.refl _ _
    | dsimp only
    | with_reducible apply on_then
    | with_reducible apply after_then
    | with_reducible apply Answers.mono (execFwStage_only _ _)
    | with_reducible apply Answers.mono (execFwSwap_only _ _)
    | with_reducible apply Answers.mono (execFwConfirm_only _ _)
    | with_reducible apply Answers.mono (execFwRevert_only _ _)
    | with_reducible apply Answers.mono (execCkeyBurn_only _ _)
    | with_reducible apply Only.next (rfPut_only _ _ _)
    | with_reducible apply Answers.mono (execFlDataWrite_only _ _ _)
    | with_reducible apply Answers.mono (execFlashErase_only _ _)
    | with_reducible apply Answers.mono (execFlashProgram_only _ _)
    | with_reducible apply Answers.mono (execHdrTgtWrite_only _ _ _)
    | with_reducible apply Answers.mono (execHdrDataWrite_only _ _ _)
    | with_reducible refine Only.ite ?_ ?_
    | split
    | intro _

theorem bstWrite_only (r : Req) (off : Nat) (v : Word) (s : State) : Only [.pages, .rf, .fab, .del, .pci, .fwl, .bst, .grps, .outbox] s (bstWrite r off v s) := by
  unfold bstWrite
  repeat' first
    | (show within _ _ = true; rfl)
    | with_reducible exact Only.refl _ _
    | dsimp only
    | with_reducible apply after_then
    | with_reducible apply Only.next (bstCtrl_only _ _)
    | with_reducible apply Answers.mono (execAnalogueCheckGo_only _ _ _)
    | with_reducible apply Only.next (rfPut_only _ _ _)
    | with_reducible refine Only.ite ?_ ?_

theorem calWrite_only (r : Req) (off : Nat) (v : Word) (s : State) : Only [.pages, .rf, .fab, .del, .pci, .fwl, .chans, .grps, .lins, .ana, .outbox] s (calWrite r off v s) := by
  unfold calWrite
  repeat' first
    | (show within _ _ = true; rfl)
    | with_reducible exact Only.refl _ _
    | assumption
    | dsimp only
    | with_reducible apply after_then
    | with_reducible apply on_then
    | with_reducible apply Answers.mono (execCampGo_only _ _ _)
    | with_reducible apply Answers.mono (execCalSetSelWrite_only _ _ _)
    | with_reducible apply Answers.mono (execSetReload_only _ _)
    | with_reducible apply Answers.mono (execSetDelete_only _ _)
    | with_reducible apply Answers.mono (execSetWrite_only _ _)
    | with_reducible apply Answers.mono (execLinSelWrite_only _ _ _)
    | with_reducible apply Answers.mono (execLinReload_only _ _)
    | with_reducible apply Answers.mono (execLinCommit_only _ _)
    | with_reducible apply Only.next (rfPut_only _ _ _)
    | with_reducible refine Only.ite ?_ ?_
    | split
    | intro _

theorem pwrWrite_only (r : Req) (off : Nat) (v : Word) (s : State) : Only [.pages, .rf, .mem, .fuse, .fab, .pln, .tim, .srv, .lanes, .lsh, .del, .ques, .pci, .fsp, .tcs, .svc, .fwl, .bst, .pwr, .chans, .grps, .lins, .ana, .outbox] s (pwrWrite r off v s) := by
  unfold pwrWrite
  repeat' first
    | (show within _ _ = true; rfl)
    | with_reducible exact Only.refl _ _
    | dsimp only
    | with_reducible apply after_then
    | with_reducible apply Only.next (pwrCtrl_only _ _)
    | with_reducible apply Answers.mono (execRetDataAccess_only _ _ _)
    | with_reducible apply Only.next (rfPut_only _ _ _)
    | with_reducible refine Only.ite ?_ ?_

theorem lshWrite_only (r : Req) (off : Nat) (v : Word) (s : State) : Only [.pages, .rf, .fab, .srv, .lanes, .lsh, .del, .pci, .fwl, .pwr, .outbox] s (lshWrite r off v s) := by
  unfold lshWrite
  repeat' first
    | (show within _ _ = true; rfl)
    | with_reducible exact Only.refl _ _
    | assumption
    | dsimp only
    | with_reducible apply on_then
    | with_reducible apply after_then
    | with_reducible apply Only.next (rfPut_only _ _ _)
    | with_reducible apply Answers.mono (execHandoff_only _ _)
    | with_reducible apply Only.next (journal_only _ _)
    | with_reducible apply Answers.mono (execRefAckWrite_only _ _ _)
    | with_reducible apply Answers.mono (execRefGrantWrite_only _ _ _)
    | with_reducible apply Answers.mono (execRemoveCancel_only _ _)
    | with_reducible apply Answers.mono (execRemove_only _ _)
    | with_reducible refine Only.ite ?_ ?_
    | split
    | intro _

theorem mrgWrite_only (r : Req) (off : Nat) (v : Word) (s : State) : Only [.pages, .rf, .fab, .lanes, .lsh, .del, .pci, .fwl, .bst, .free, .outbox] s (mrgWrite r off v s) := by
  unfold mrgWrite
  refine Only.ite (after_then ((execMrgCselWrite_only _ _ _).mono rfl) (Only.refl _ _)) (Only.ite (Only.next (loadPart_only _) rfl ((rfPut_only _ _ _).mono rfl)) (Only.ite ?_ ((rfPut_only _ _ _).mono rfl)))
  dsimp only
  refine on_then (fun s => (execMrgReload_only _ _).mono rfl) (on_then (fun s => (execWithdraw_only _ _).mono rfl) (Only.ite ?_ (Only.refl _ _)))
  exact after_then (Answers.from_ ((execAdmit_only _ _ _).mono rfl) ((modFree_only _ _).mono rfl)) (Only.refl _ _)

theorem queWrite_only (r : Req) (off : Nat) (v : Word) (s : State) : Only [.pages, .rf, .fab, .del, .ques, .pci, .fwl, .bst, .outbox] s (queWrite r off v s) := by
  unfold queWrite
  repeat' first
    | (show within _ _ = true; rfl)
    | with_reducible exact Only.refl _ _
    | assumption
    | dsimp only
    | with_reducible apply after_then
    | with_reducible apply on_then
    | with_reducible apply Only.next (modQue_only _ _ _)
    | with_reducible apply Answers.mono (execQcfgWrite_only _ _ _)
    | with_reducible apply Answers.mono (execQsizeWrite_only _ _ _)
    | with_reducible apply Answers.mono (execQueueFlush_only _ _)
    | with_reducible apply Only.next (wrote_only _ _ _)
    | with_reducible apply Answers.mono (execWmHwmWrite_only _ _ _)
    | with_reducible apply Answers.mono (execWmLatchClear_only _ _ _)
    | with_reducible apply Answers.mono (execQueueAppend_only _ _ _)
    | with_reducible apply Answers.mono (execQueueWrewind_only _ _)
    | with_reducible apply Answers.mono (execQueueWcommit_only _ _)
    | with_reducible apply Only.next (rfPut_only _ _ _)
    | with_reducible refine Only.ite ?_ ?_
    | split
    | intro _

theorem chwWrite_only (r : Req) (off : Nat) (v : Word) (s : State) : Only [.pages, .rf, .fab, .chans, .grps, .ana] s (chwWrite r off v s) := by
  unfold chwWrite
  repeat' first
    | (show within _ _ = true; rfl)
    | with_reducible exact Only.refl _ _
    | dsimp only
    | with_reducible apply after_then
    | with_reducible apply on_then
    | with_reducible apply Answers.mono (execChwSelWrite_only _ _ _)
    | with_reducible apply Answers.mono (execChwReload_only _ _)
    | with_reducible apply Answers.mono (execChwCommit_only _ _)
    | with_reducible apply Only.next (rfPut_only _ _ _)
    | with_reducible refine Only.ite ?_ ?_
    | split
    | intro _

theorem tatWrite_only (r : Req) (off : Nat) (v : Word) (s : State) : Only [.pages, .rf, .fab, .del, .pci, .fwl, .grps, .outbox] s (tatWrite r off v s) := by
  unfold tatWrite
  repeat' first
    | (show within _ _ = true; rfl)
    | with_reducible exact Only.refl _ _
    | assumption
    | dsimp only
    | with_reducible apply on_then
    | with_reducible apply after_then
    | with_reducible apply Only.next (rfPut_only _ _ _)
    | with_reducible apply Answers.mono (execTatAbort_only _ _)
    | with_reducible apply Answers.mono (execTatCommit_only _ _)
    | with_reducible apply Answers.mono (execTatClr_only _ _)
    | with_reducible apply Only.next (modTat_only _ _ _)
    | with_reducible apply Answers.mono (execTatDataWrite_only _ _ _)
    | with_reducible refine Only.ite ?_ ?_
    | split
    | intro _

theorem groupWrite_only (g off : Nat) (v : Word) (s : State) : Only [.pages, .rf, .fab, .del, .pci, .fwl, .bst, .grps, .outbox] s (groupWrite g off v s) := by
  unfold groupWrite
  repeat' first
    | (show within _ _ = true; rfl)
    | with_reducible exact Only.refl _ _
    | assumption
    | dsimp only
    | with_reducible apply Only.next (rfPut_only _ _ _)
    | with_reducible apply Only.next (rotate_only _ _)
    | with_reducible refine Only.ite ?_ ?_

theorem portWrite_only (r : Req) (p : Port) (off : Nat) (v : Word) (s : State) : Only [.pages, .rf, .fab, .pln, .lanes, .lsh, .del, .pci, .fwl, .free, .outbox] s (portWrite r p off v s) := by
  unfold portWrite
  repeat' first
    | (show within _ _ = true; rfl)
    | with_reducible exact Only.refl _ _
    | assumption
    | dsimp only
    | with_reducible apply on_then
    | with_reducible apply Only.next (losFollow_only _ _)
    | with_reducible apply Only.next (rfPut_only _ _ _)
    | with_reducible apply Answers.mono (execMaxrateWrite_only _ _ _ _)
    | with_reducible apply Answers.mono (execEidleEnterRequest_only _ _ _)
    | with_reducible apply Answers.mono (execEidleExitRequest_only _ _ _)
    | with_reducible apply Answers.mono (execPortRestart_only _ _ _)
    | with_reducible refine Only.ite ?_ ?_
    | split
    | intro _

theorem tcWrite_only (r : Req) (n : QNum) (off : Nat) (v : Word) (s : State) : Only [.pages, .rf, .mem, .fab, .del, .ques, .pci, .tcs, .fwl, .bst, .outbox] s (tcWrite r n off v s) := by
  unfold tcWrite
  repeat' first
    | (show within _ _ = true; rfl)
    | with_reducible exact Only.refl _ _
    | assumption
    | dsimp only
    | with_reducible apply on_then
    | with_reducible apply after_then
    | with_reducible apply Answers.mono (execTcRestart_only _ _ _)
    | with_reducible apply Answers.mono (execTcGo_only _ _ _)
    | with_reducible apply Answers.mono (execTcAbort_only _ _ _)
    | with_reducible apply Answers.mono (execTcCommit_only _ _ _)
    | with_reducible apply Answers.mono (execTcClr_only _ _ _)
    | with_reducible apply Only.next (rfPut_only _ _ _)
    | with_reducible apply Only.next (modTc_only _ _ _)
    | with_reducible apply Answers.mono (execTcImgDataWrite_only _ _ _ _)
    | with_reducible refine Only.ite ?_ ?_
    | split
    | intro _

theorem ordWrite_only (r : Req) (off : Nat) (v : Word) (s : State) : Only [.pages, .rf, .fab, .svc] s (ordWrite r off v s) := by
  unfold ordWrite
  repeat' first
    | (show within _ _ = true; rfl)
    | with_reducible exact Only.refl _ _
    | assumption
    | dsimp only
    | with_reducible apply after_then
    | with_reducible apply Only.next (modTrack_only _ _ _)
    | with_reducible apply Only.next (modSect_only _ _ _)
    | with_reducible apply Answers.mono (execTrackEnable_only _ _ _)
    | with_reducible apply Answers.mono (execSectionEnable_only _ _ _)
    | with_reducible apply Only.next (rfPut_only _ _ _)
    | with_reducible refine Only.ite ?_ ?_
    | split

theorem dinWrite_only (r : Req) (off : Nat) (v : Word) (s : State) : Only [.rf, .fab, .svc] s (dinWrite r off v s) := by
  unfold dinWrite
  repeat' first
    | (show within _ _ = true; rfl)
    | with_reducible exact Only.refl _ _
    | dsimp only
    | with_reducible apply Only.next (wrote_only _ _ _)
    | with_reducible apply Only.next (modDin_only _ _ _)
    | with_reducible apply Only.next (rfPut_only _ _ _)
    | with_reducible refine Only.ite ?_ ?_

theorem toutWrite_only (r : Req) (off : Nat) (v : Word) (s : State) : Only [.pages, .rf, .fab, .del, .pci, .svc, .fwl, .outbox] s (toutWrite r off v s) := by
  unfold toutWrite
  repeat' first
    | (show within _ _ = true; rfl)
    | with_reducible exact Only.refl _ _
    | dsimp only
    | with_reducible apply after_then
    | with_reducible apply Answers.mono (execToutOwnerWrite_only _ _ _)
    | with_reducible apply Answers.mono (execToutCancel_only _ _ _)
    | with_reducible apply Answers.mono (execToutSchedule_only _ _ _)
    | with_reducible apply Only.next (rfPut_only _ _ _)
    | with_reducible refine Only.ite ?_ ?_

theorem rfxWrite_only (r : Req) (off : Nat) (v : Word) (s : State) : Only [.pages, .rf, .fab, .del, .pci, .svc, .fwl, .outbox] s (rfxWrite r off v s) := by
  unfold rfxWrite
  repeat' first
    | (show within _ _ = true; rfl)
    | with_reducible exact Only.refl _ _
    | assumption
    | dsimp only
    | with_reducible apply on_then
    | with_reducible apply Only.next (modAlarm_only _ _ _)
    | with_reducible apply Answers.mono (execRuleClear_only _ _)
    | with_reducible apply Answers.mono (execRuleReload_only _ _)
    | with_reducible apply Answers.mono (execRuleCommit_only _ _)
    | with_reducible apply Only.next (rfPut_only _ _ _)
    | with_reducible refine Only.ite ?_ ?_
    | split
    | intro _

theorem fspRegWrite_only (r : Req) (off : Nat) (v : Word) (s : State) : Only [.rf, .fab, .fsp] s (fspRegWrite r off v s) := by
  unfold fspRegWrite
  repeat' first
    | (show within _ _ = true; rfl)
    | with_reducible exact Only.refl _ _
    | dsimp only
    | with_reducible apply on_then
    | with_reducible apply after_then
    | with_reducible apply Answers.mono (execFspResync_only _ _)
    | with_reducible apply Answers.mono (execFspLenWrite_only _ _ _)
    | with_reducible apply Only.next (rfPut_only _ _ _)
    | with_reducible refine Only.ite ?_ ?_
    | split
    | intro _

theorem hrWrite_only (r : Req) (n : QNum) (off : Nat) (v : Word) (s : State) : Only [.pages, .fab, .del, .ques, .pci, .fwl, .outbox] s (hrWrite r n off v s) := by
  unfold hrWrite
  repeat' first
    | (show within _ _ = true; rfl)
    | with_reducible exact Only.refl _ _
    | assumption
    | dsimp only
    | with_reducible apply after_then
    | with_reducible apply Only.next (modHr_only _ _ _)
    | with_reducible apply Answers.mono (execHrEnableWrite_only _ _ _ _)
    | with_reducible apply Answers.mono (execHrTailWrite_only _ _ _ _)
    | with_reducible refine Only.ite ?_ ?_
    | split

theorem pciWrite_only (r : Req) (off : Nat) (v : Word) (s : State) : Only [.pages, .fab, .del, .ques, .pci, .fwl, .outbox] s (pciWrite r off v s) := by
  unfold pciWrite
  repeat' first
    | (show within _ _ = true; rfl)
    | with_reducible exact Only.refl _ _
    | dsimp only
    | with_reducible apply after_then
    | with_reducible apply Answers.mono (execQuiesce_only _ _ _)
    | with_reducible apply Only.next (hrWrite_only _ _ _ _ _)
    | with_reducible refine Only.ite ?_ ?_

theorem blockWrite_only (r : Req) (p off : Nat) (v : Word) (s : State) : Only [.pages, .rf, .mem, .fuse, .fab, .pln, .tim, .srv, .lanes, .lsh, .del, .ques, .pci, .fsp, .tcs, .svc, .fwl, .bst, .pwr, .chans, .grps, .lins, .ana, .free, .outbox] s (blockWrite r p off v s) := by
  unfold blockWrite
  repeat' first
    | (show within _ _ = true; rfl)
    | with_reducible exact Only.refl _ _
    | dsimp only
    | with_reducible apply Only.next (devWrite_only _ _ _)
    | with_reducible apply Only.next (featWrite_only _ _ _ _)
    | with_reducible apply Only.next (evtWrite_only _ _ _)
    | with_reducible apply Only.next (timWrite_only _ _ _ _)
    | with_reducible apply Only.next (srvWrite_only _ _ _ _)
    | with_reducible apply Only.next (plnWrite_only _ _ _ _)
    | with_reducible apply Only.next (fwlWrite_only _ _ _ _)
    | with_reducible apply Only.next (bstWrite_only _ _ _ _)
    | with_reducible apply Only.next (calWrite_only _ _ _ _)
    | with_reducible apply Only.next (pwrWrite_only _ _ _ _)
    | with_reducible apply Only.next (lshWrite_only _ _ _ _)
    | with_reducible apply Only.next (mrgWrite_only _ _ _ _)
    | with_reducible apply Only.next (rfPut_only _ _ _)
    | with_reducible apply Only.next (queWrite_only _ _ _ _)
    | with_reducible apply Only.next (chwWrite_only _ _ _ _)
    | with_reducible apply Only.next (tatWrite_only _ _ _ _)
    | with_reducible apply Only.next (groupWrite_only _ _ _ _)
    | with_reducible apply Only.next (portWrite_only _ _ _ _ _)
    | with_reducible apply Only.next (tcWrite_only _ _ _ _ _)
    | with_reducible apply Only.next (ordWrite_only _ _ _ _)
    | with_reducible apply Only.next (dinWrite_only _ _ _ _)
    | with_reducible apply Only.next (toutWrite_only _ _ _ _)
    | with_reducible apply Only.next (rfxWrite_only _ _ _ _)
    | with_reducible apply Only.next (fspRegWrite_only _ _ _ _)
    | with_reducible apply Only.next (pciWrite_only _ _ _ _)
    | with_reducible refine Only.ite ?_ ?_

theorem resetRegions_only (s : State) : Only [.pages, .ques] s (resetRegions s) := by
  unfold resetRegions
  repeat' first
    | (show within _ _ = true; rfl)
    | with_reducible exact Only.refl _ _
    | assumption
    | dsimp only
    | with_reducible apply Only.next (modQue_only _ _ _)
    | with_reducible apply Only.next (bumpGen_only _ _)
    | with_reducible apply Only.foldl_then
    | with_reducible refine Only.ite ?_ ?_
    | split
    | intro _

theorem resetActs_only (r : Req) (p : Nat) (s : State) : Only [.pages, .rf, .mem, .fuse, .fab, .pln, .tim, .srv, .lanes, .lsh, .del, .ques, .pci, .fsp, .tcs, .svc, .fwl, .bst, .pwr, .chans, .grps, .lins, .ana, .free, .outbox] s (resetActs r p s) := by
  unfold resetActs
  repeat' first
    | (show within _ _ = true; rfl)
    | with_reducible exact Only.refl _ _
    | assumption
    | dsimp only
    | with_reducible apply Only.next (blockWrite_only _ _ _ _ _)
    | with_reducible apply Only.next (rfPut_only _ _ _)
    | with_reducible apply Only.next (baseGrant_only _)
    | with_reducible apply Only.next (bstCtrl_only _ _)
    | with_reducible apply Only.next (pwrCtrl_only _ _)
    | with_reducible apply Only.next (resetRegions_only _)
    | with_reducible apply Only.next (latch_only _ _ _)
    | with_reducible apply Only.next (modQue_only _ _ _)
    | with_reducible apply Only.next (bumpGen_only _ _)
    | with_reducible apply Only.next (modChan_only _ _ _)
    | with_reducible apply Only.next (modTat_only _ _ _)
    | with_reducible apply Only.next (modTc_only _ _ _)
    | with_reducible apply Only.next (fspSoftReset_only _)
    | with_reducible apply Only.next (modFab_only _ _)
    | with_reducible apply Only.next (modFwl_only _ _)
    | with_reducible apply Only.foldl_then
    | with_reducible apply Only.foldl_fst_then
    | with_reducible apply Only.foldl_snd_then
    | with_reducible refine Only.ite ?_ ?_
    | with_reducible refine Only.ite_fst ?_ ?_
    | with_reducible refine Only.ite_snd ?_ ?_
    | split
    | intro _

theorem softReset_only (r : Req) (p : Nat) (s : State) : Only [.pages, .rf, .mem, .fuse, .fab, .pln, .tim, .srv, .lanes, .lsh, .del, .ques, .pci, .fsp, .tcs, .svc, .fwl, .bst, .pwr, .chans, .grps, .lins, .ana, .free, .outbox] s (softReset r p s) := by
  unfold softReset
  repeat' first
    | (show within _ _ = true; rfl)
    | with_reducible exact Only.refl _ _
    | assumption
    | dsimp only
    | with_reducible apply Only.next (resetActs_only _ _ _)
    | with_reducible apply Only.next (freeLatches_only _ _ _)
    | with_reducible apply Only.next (modPage_only _ _ _)
    | with_reducible apply Only.next (modRf_only _ _)
    | with_reducible refine Only.ite ?_ ?_

theorem pageCtrl_only (r : Req) (p : Nat) (v : Word) (s : State) : Only [.pages, .rf, .mem, .fuse, .fab, .pln, .tim, .srv, .lanes, .lsh, .del, .ques, .pci, .fsp, .tcs, .svc, .fwl, .bst, .pwr, .chans, .grps, .lins, .ana, .free, .outbox] s (pageCtrl r p v s) := by
  unfold pageCtrl
  repeat' first
    | (show within _ _ = true; rfl)
    | with_reducible exact Only.refl _ _
    | assumption
    | dsimp only
    | with_reducible apply Only.next (modPage_only _ _ _)
    | with_reducible apply Only.next (resignal_only _ _)
    | with_reducible apply Only.next (softReset_only _ _ _)
    | with_reducible refine Only.ite ?_ ?_

theorem writeLatch_only (p : Nat) (v : Word) (s : State) : Only [.pages, .fab, .pci, .chans, .outbox] s (writeLatch p v s) := by
  unfold writeLatch
  repeat' first
    | (show within _ _ = true; rfl)
    | with_reducible exact Only.refl _ _
    | dsimp only
    | with_reducible apply Only.next (resignal_only _ _)
    | with_reducible apply Only.next (clearLatch_only _ _ _)
    | with_reducible refine Only.ite ?_ ?_

theorem writeEvEn_only (p : Nat) (v : Word) (s : State) : Only [.pages, .fab, .pci, .outbox] s (writeEvEn p v s) := by
  unfold writeEvEn
  repeat' first
    | (show within _ _ = true; rfl)
    | with_reducible exact Only.refl _ _
    | dsimp only
    | with_reducible apply Only.next (resignal_only _ _)
    | with_reducible apply Only.next (modPage_only _ _ _)
    | with_reducible refine Only.ite ?_ ?_

theorem writeSnap_only (p : Nat) (v : Word) (s : State) : Only [.pages, .fab] s (writeSnap p v s) := by
  unfold writeSnap
  repeat' first
    | (show within _ _ = true; rfl)
    | with_reducible exact Only.refl _ _
    | dsimp only
    | with_reducible apply Only.next (modPage_only _ _ _)
    | with_reducible apply Only.next (capture_only _ _)
    | with_reducible refine Only.ite ?_ ?_

theorem hdrWrite_only (r : Req) (p off : Nat) (v : Word) (s : State) : Only [.pages, .rf, .mem, .fuse, .fab, .pln, .tim, .srv, .lanes, .lsh, .del, .ques, .pci, .fsp, .tcs, .svc, .fwl, .bst, .pwr, .chans, .grps, .lins, .ana, .free, .outbox] s (hdrWrite r p off v s) := by
  unfold hdrWrite
  repeat' first
    | (show within _ _ = true; rfl)
    | with_reducible exact Only.refl _ _
    | dsimp only
    | with_reducible apply Only.next (pageCtrl_only _ _ _ _)
    | with_reducible apply Only.next (writeEvEn_only _ _ _)
    | with_reducible apply Only.next (writeLatch_only _ _ _)
    | with_reducible apply Only.next (writeSnap_only _ _ _)
    | with_reducible refine Only.ite ?_ ?_

theorem writeReg_only (r : Req) (addr : Nat) (v : Word) (s : State) : Only [.pages, .rf, .mem, .fuse, .fab, .pln, .tim, .srv, .lanes, .lsh, .del, .ques, .pci, .fsp, .tcs, .svc, .fwl, .bst, .pwr, .chans, .grps, .lins, .ana, .free, .outbox] s (writeReg r addr v s) := by
  unfold writeReg
  repeat' first
    | (show within _ _ = true; rfl)
    | with_reducible exact Only.refl _ _
    | assumption
    | dsimp only
    | with_reducible apply gated_then
    | with_reducible apply Only.next (reservedAccess_only _)
    | with_reducible apply Only.next (hdrWrite_only _ _ _ _ _)
    | with_reducible apply Only.next (reachIsland_only _ _ _)
    | with_reducible apply Only.next (blockWrite_only _ _ _ _ _)
    | with_reducible refine Only.ite ?_ ?_
    | split
    | intro _

theorem execRegisterWrite_only (r : Req) (addr : BitVec 20) (v : Word) (s : State) : Answers [.pages, .rf, .mem, .fuse, .fab, .pln, .tim, .srv, .lanes, .lsh, .del, .ques, .pci, .fsp, .tcs, .svc, .fwl, .bst, .pwr, .chans, .grps, .lins, .ana, .free, .outbox] s (execRegisterWrite r addr v s) := by
  unfold execRegisterWrite
  repeat' first
    | (show within _ _ = true; rfl)
    | with_reducible exact Only.refl _ _
    | assumption
    | dsimp only
    | with_reducible refine Answers.next ?_
    | with_reducible apply Only.next (writeReg_only _ _ _ _)

theorem execRcFieldRead_only (r : Req) (addr : BitVec 20) (s : State) : Answers [.pages, .rf, .fab, .del, .ques, .pci, .fwl, .bst, .chans, .free, .outbox] s (execRcFieldRead r addr s) := by
  unfold execRcFieldRead
  repeat' first
    | (show within _ _ = true; rfl)
    | with_reducible exact Only.refl _ _
    | assumption
    | dsimp only
    | with_reducible refine Answers.next ?_
    | with_reducible apply Only.next (readAnswer_only _ _ _)

theorem execMultiwordLatchRead_only (r : Req) (addr : BitVec 20) (s : State) : Answers [.pages, .rf, .fab, .del, .ques, .pci, .fwl, .bst, .chans, .free, .outbox] s (execMultiwordLatchRead r addr s) := by
  unfold execMultiwordLatchRead
  repeat' first
    | (show within _ _ = true; rfl)
    | with_reducible exact Only.refl _ _
    | assumption
    | dsimp only
    | with_reducible refine Answers.next ?_
    | with_reducible apply Only.next (readAnswer_only _ _ _)

theorem execShadowWordRead_only (r : Req) (addr : BitVec 20) (s : State) : Answers [.pages, .rf, .fab, .del, .ques, .pci, .fwl, .bst, .chans, .free, .outbox] s (execShadowWordRead r addr s) := by
  unfold execShadowWordRead
  repeat' first
    | (show within _ _ = true; rfl)
    | with_reducible exact Only.refl _ _
    | assumption
    | dsimp only
    | with_reducible refine Answers.next ?_
    | with_reducible apply Only.next (readAnswer_only _ _ _)

theorem execShadowExpiry_only (r : Req) (page : PageNo) (s : State) : Answers [.fab] s (execShadowExpiry r page s) := by
  unfold execShadowExpiry
  repeat' first
    | (show within _ _ = true; rfl)
    | with_reducible exact Only.refl _ _
    | assumption
    | dsimp only
    | with_reducible refine Answers.next ?_
    | with_reducible apply Only.next (modFab_only _ _)

theorem execPageSoftReset_only (r : Req) (page : PageNo) (s : State) : Answers [.pages, .rf, .mem, .fuse, .fab, .pln, .tim, .srv, .lanes, .lsh, .del, .ques, .pci, .fsp, .tcs, .svc, .fwl, .bst, .pwr, .chans, .grps, .lins, .ana, .free, .outbox] s (execPageSoftReset r page s) := by
  unfold execPageSoftReset
  repeat' first
    | (show within _ _ = true; rfl)
    | with_reducible exact Only.refl _ _
    | assumption
    | dsimp only
    | with_reducible refine Answers.next ?_
    | with_reducible apply gated_then
    | with_reducible apply Only.next (reservedAccess_only _)
    | with_reducible apply Only.next (resignal_only _ _)
    | with_reducible apply Only.next (softReset_only _ _ _)
    | with_reducible refine Only.ite ?_ ?_
    | with_reducible refine Answers.ite ?_ ?_
    | split
    | intro _

theorem execPageFreeze_only (r : Req) (page : PageNo) (on : Bool) (s : State) : Answers [.pages, .rf, .mem, .fuse, .fab, .pln, .tim, .srv, .lanes, .lsh, .del, .ques, .pci, .fsp, .tcs, .svc, .fwl, .bst, .pwr, .chans, .grps, .lins, .ana, .free, .outbox] s (execPageFreeze r page on s) := by
  unfold execPageFreeze
  repeat' first
    | (show within _ _ = true; rfl)
    | with_reducible exact Only.refl _ _
    | assumption
    | dsimp only
    | with_reducible refine Answers.next ?_
    | with_reducible apply on_then
    | with_reducible apply Only.next (writeReg_only _ _ _ _)

theorem execSnapTake_only (r : Req) (page : PageNo) (s : State) : Answers [.pages, .rf, .mem, .fuse, .fab, .pln, .tim, .srv, .lanes, .lsh, .del, .ques, .pci, .fsp, .tcs, .svc, .fwl, .bst, .pwr, .chans, .grps, .lins, .ana, .free, .outbox] s (execSnapTake r page s) := by
  unfold execSnapTake
  repeat' first
    | (show within _ _ = true; rfl)
    | with_reducible exact Only.refl _ _
    | assumption
    | dsimp only
    | with_reducible refine Answers.next ?_
    | with_reducible apply Only.next (writeReg_only _ _ _ _)

theorem execEvLatchWrite_only (r : Req) (page : PageNo) (v : Word) (s : State) : Answers [.pages, .rf, .mem, .fuse, .fab, .pln, .tim, .srv, .lanes, .lsh, .del, .ques, .pci, .fsp, .tcs, .svc, .fwl, .bst, .pwr, .chans, .grps, .lins, .ana, .free, .outbox] s (execEvLatchWrite r page v s) := by
  unfold execEvLatchWrite
  repeat' first
    | (show within _ _ = true; rfl)
    | with_reducible exact Only.refl _ _
    | assumption
    | dsimp only
    | with_reducible refine Answers.next ?_
    | with_reducible apply Only.next (writeReg_only _ _ _ _)

theorem execEvEnWrite_only (r : Req) (page : PageNo) (v : Word) (s : State) : Answers [.pages, .rf, .mem, .fuse, .fab, .pln, .tim, .srv, .lanes, .lsh, .del, .ques, .pci, .fsp, .tcs, .svc, .fwl, .bst, .pwr, .chans, .grps, .lins, .ana, .free, .outbox] s (execEvEnWrite r page v s) := by
  unfold execEvEnWrite
  repeat' first
    | (show within _ _ = true; rfl)
    | with_reducible exact Only.refl _ _
    | assumption
    | dsimp only
    | with_reducible refine Answers.next ?_
    | with_reducible apply Only.next (writeReg_only _ _ _ _)

theorem execEvtClear_only (r : Req) (hi : Bool) (v : Word) (s : State) : Answers [.pages, .rf, .mem, .fuse, .fab, .pln, .tim, .srv, .lanes, .lsh, .del, .ques, .pci, .fsp, .tcs, .svc, .fwl, .bst, .pwr, .chans, .grps, .lins, .ana, .free, .outbox] s (execEvtClear r hi v s) := by
  unfold execEvtClear
  repeat' first
    | (show within _ _ = true; rfl)
    | with_reducible exact Only.refl _ _
    | assumption
    | dsimp only
    | with_reducible refine Answers.next ?_
    | with_reducible apply Only.next (writeReg_only _ _ _ _)

theorem execReservedPageAccess_only (r : Req) (addr : BitVec 20) (write : Bool) (s : State) : Answers [.pages, .rf, .mem, .fuse, .fab, .pln, .tim, .srv, .lanes, .lsh, .del, .ques, .pci, .fsp, .tcs, .svc, .fwl, .bst, .pwr, .chans, .grps, .lins, .ana, .free, .outbox] s (execReservedPageAccess r addr write s) := by
  unfold execReservedPageAccess
  repeat' first
    | (show within _ _ = true; rfl)
    | with_reducible exact Only.refl _ _
    | assumption
    | dsimp only
    | with_reducible refine Answers.next ?_
    | with_reducible apply Only.next (writeReg_only _ _ _ _)
    | with_reducible apply Only.next (readAnswer_only _ _ _)
    | with_reducible refine Only.ite ?_ ?_

theorem execRemoteAccessGo_only (r : Req) (v : Word) (s : State) : Answers [.pages, .rf, .mem, .fuse, .fab, .pln, .tim, .srv, .lanes, .lsh, .del, .ques, .pci, .fsp, .tcs, .svc, .fwl, .bst, .pwr, .chans, .grps, .lins, .ana, .free, .outbox] s (execRemoteAccessGo r v s) := by
  unfold execRemoteAccessGo
  repeat' first
    | (show within _ _ = true; rfl)
    | with_reducible exact Only.refl _ _
    | assumption
    | dsimp only
    | with_reducible refine Answers.next ?_
    | with_reducible apply Only.next (writeReg_only _ _ _ _)

theorem readMany_only (r : Req) (a n : Nat) (s : State) : Only [.pages, .rf, .fab, .del, .ques, .pci, .fwl, .bst, .chans, .free, .outbox] s (readMany r a n s).2 := by
  induction n generalizing s a with
  | zero => exact Only.refl _ _
  | succ n ih => exact Only.trans (readReg_only _ _ _) (ih _ _)

theorem writeMany_only (r : Req) (a : Nat) (ws : List Word) (s : State) : Only [.pages, .rf, .mem, .fuse, .fab, .pln, .tim, .srv, .lanes, .lsh, .del, .ques, .pci, .fsp, .tcs, .svc, .fwl, .bst, .pwr, .chans, .grps, .lins, .ana, .free, .outbox] s (writeMany r a ws s) := by
  induction ws generalizing s a with
  | nil => exact Only.refl _ _
  | cons w ws ih => exact Only.trans (writeReg_only _ _ _ _) (ih _ _)

theorem execRemoteAccessExecute_only (seg hub : Nat) (write : Bool) (addr : BitVec 20) (data : List Word) (count : Fin 5) (s : State) : Answers [.pages, .rf, .mem, .fuse, .fab, .pln, .tim, .srv, .lanes, .lsh, .del, .ques, .pci, .fsp, .tcs, .svc, .fwl, .bst, .pwr, .chans, .grps, .lins, .ana, .free, .outbox] s (execRemoteAccessExecute seg hub write addr data count s) := by
  unfold execRemoteAccessExecute
  repeat' first
    | (show within _ _ = true; rfl)
    | with_reducible exact Only.refl _ _
    | assumption
    | dsimp only
    | with_reducible refine Answers.next ?_
    | with_reducible apply Only.next (sendCtrl_only _ _)
    | with_reducible apply Only.next (writeMany_only _ _ _ _)
    | with_reducible apply Only.next (readMany_only _ _ _ _)
    | with_reducible refine Only.ite ?_ ?_

theorem execRemoteAccessAnswer_only (err : Fin 8) (data : List Word) (s : State) : Answers [.pages, .rf, .fab, .del, .pci, .fwl, .outbox] s (execRemoteAccessAnswer err data s) := by
  unfold execRemoteAccessAnswer
  repeat' first
    | (show within _ _ = true; rfl)
    | with_reducible exact Only.refl _ _
    | assumption
    | dsimp only
    | with_reducible refine Answers.next ?_
    | with_reducible apply Only.next (rfPut_only _ _ _)
    | with_reducible apply Only.next (endRemote_only _ _)
    | with_reducible apply Only.foldl_then
    | with_reducible apply Only.foldl_fst_then
    | with_reducible apply Only.foldl_snd_then
    | with_reducible refine Only.ite ?_ ?_
    | with_reducible refine Only.ite_fst ?_ ?_
    | with_reducible refine Only.ite_snd ?_ ?_
    | with_reducible refine Answers.ite ?_ ?_
    | split
    | intro _

theorem execRemoteAccessTimeout_only (s : State) : Answers [.pages, .fab, .del, .pci, .fwl, .outbox] s (execRemoteAccessTimeout s) := by
  unfold execRemoteAccessTimeout
  repeat' first
    | (show within _ _ = true; rfl)
    | with_reducible exact Only.refl _ _
    | assumption
    | dsimp only
    | with_reducible refine Answers.next ?_
    | with_reducible apply Only.next (endRemote_only _ _)
    | with_reducible refine Only.ite ?_ ?_

theorem execFeatCommit_only (r : Req) (s : State) : Answers [.pages, .rf, .mem, .fuse, .fab, .pln, .tim, .srv, .lanes, .lsh, .del, .ques, .pci, .fsp, .tcs, .svc, .fwl, .bst, .pwr, .chans, .grps, .lins, .ana, .free, .outbox] s (execFeatCommit r s) := by
  unfold execFeatCommit
  repeat' first
    | (show within _ _ = true; rfl)
    | with_reducible exact Only.refl _ _
    | assumption
    | dsimp only
    | with_reducible refine Answers.next ?_
    | with_reducible apply Only.next (writeReg_only _ _ _ _)

theorem execFeatBase_only (r : Req) (s : State) : Answers [.pages, .rf, .mem, .fuse, .fab, .pln, .tim, .srv, .lanes, .lsh, .del, .ques, .pci, .fsp, .tcs, .svc, .fwl, .bst, .pwr, .chans, .grps, .lins, .ana, .free, .outbox] s (execFeatBase r s) := by
  unfold execFeatBase
  repeat' first
    | (show within _ _ = true; rfl)
    | with_reducible exact Only.refl _ _
    | assumption
    | dsimp only
    | with_reducible refine Answers.next ?_
    | with_reducible apply Only.next (writeReg_only _ _ _ _)

theorem execEpisodeEndTimer_only (page : PageNo) (bit : Fin 32) (sub : Nat) (s : State) : Answers [.fab] s (execEpisodeEndTimer page bit sub s) := by
  unfold execEpisodeEndTimer
  repeat' first
    | (show within _ _ = true; rfl)
    | with_reducible exact Only.refl _ _
    | assumption
    | dsimp only
    | with_reducible refine Answers.next ?_
    | with_reducible apply Only.next (condEnd_only _ _ _ _)
    | with_reducible refine Only.ite ?_ ?_

theorem execBar0Request_only (write : Bool) (addr : BitVec 20) (be : BitVec 4) (dwords : Nat) (v : Word) (s : State) : Answers [.pages, .rf, .mem, .fuse, .fab, .pln, .tim, .srv, .lanes, .lsh, .del, .ques, .pci, .fsp, .tcs, .svc, .fwl, .bst, .pwr, .chans, .grps, .lins, .ana, .free, .outbox] s (execBar0Request write addr be dwords v s) := by
  unfold execBar0Request
  repeat' first
    | (show within _ _ = true; rfl)
    | with_reducible exact Only.refl _ _
    | assumption
    | dsimp only
    | with_reducible refine Answers.next ?_
    | with_reducible apply Only.next (drive_only _ _)
    | with_reducible apply Only.next (readAnswer_only _ _ _)
    | with_reducible apply Only.next (raiseOnce_only _ _ _ _ _)
    | with_reducible apply Only.next (writeReg_only _ _ _ _)
    | with_reducible apply Only.next (modPci_only _ _)
    | with_reducible refine Only.ite ?_ ?_


end Sys2Proof.Machine
end

