-- ==== Sys2Proof/Laws/FrameFsp.lean ====
section
/-! SUPPORT. The frames of the operations of Machine/Fsp.lean. -/

namespace Sys2Proof.Machine

theorem fspReply_only (body : List Byte) (sseq : Option Nat) (s : State) : Only [.fsp] s (fspReply body sseq s) := by
  unfold fspReply
  repeat' first
    | (show within _ _ = true; rfl)
    | with_reducible exact Only.refl _ _
    | assumption
    | dsimp only
    | with_reducible apply Only.next (modFsp_only _ _)

theorem fspRefuse_only (ovf : Bool) (s : State) : Only [.pages, .fab, .del, .pci, .fsp, .fwl, .outbox] s (fspRefuse ovf s) := by
  unfold fspRefuse
  repeat' first
    | (show within _ _ = true; rfl)
    | with_reducible exact Only.refl _ _
    | dsimp only
    | with_reducible apply Only.next (raiseOnce_only _ _ _ _ _)
    | with_reducible apply Only.next (modFsp_only _ _)

theorem fspReadCmd_only (count addr : Nat) (s : State) : Only [.pages, .rf, .fab, .del, .ques, .pci, .fsp, .fwl, .bst, .chans, .free, .outbox] s (fspReadCmd count addr s) := by
  unfold fspReadCmd
  repeat' first
    | (show within _ _ = true; rfl)
    | with_reducible exact Only.refl _ _
    | assumption
    | dsimp only
    | with_reducible apply Only.next (readMany_only _ _ _ _)
    | with_reducible apply Only.next (modFsp_only _ _)

theorem fspStreamAt_only (count lim : Nat) (o : Option Nat) (s : State) : Only [.fsp] s (fspStreamAt count lim o s) := by
  unfold fspStreamAt
  repeat' first
    | (show within _ _ = true; rfl)
    | with_reducible exact Only.refl _ _
    | assumption
    | dsimp only
    | with_reducible apply Only.next (modFsp_only _ _)
    | split

theorem fspStreamCmd_only (count lim : Nat) (next : Word) (s : State) : Only [.fsp] s (fspStreamCmd count lim next s) := by
  unfold fspStreamCmd
  repeat' first
    | (show within _ _ = true; rfl)
    | with_reducible exact Only.refl _ _
    | dsimp only
    | with_reducible apply Only.next (fspStreamAt_only _ _ _ _)

theorem fspRun_only (lim : Nat) (l : List FspCmd) (s : State) : Only [.pages, .rf, .mem, .fuse, .fab, .pln, .tim, .srv, .lanes, .lsh, .del, .ques, .pci, .fsp, .tcs, .svc, .fwl, .bst, .pwr, .chans, .grps, .lins, .ana, .free, .outbox] s (fspRun lim l s) := by
  induction l generalizing s with
  | nil => exact Only.refl _ _
  | cons c l ih =>
    obtain ⟨op, count, addr, data⟩ := c
    unfold fspRun
    repeat' (first
    | (show within _ _ = true; rfl)
    | (with_reducible exact Only.refl _ _)
    | assumption
    | dsimp only
    | with_reducible apply Only.after (ih)
    | (with_reducible apply Only.next (fspReadCmd_only _ _ _))
    | (with_reducible apply Only.next (writeMany_only _ _ _ _))
    | (with_reducible apply Only.next (fspStreamCmd_only _ _ _ _))
    | (with_reducible refine Only.ite ?_ ?_)
    | (with_reducible refine Only.ite_fst ?_ ?_)
    | (with_reducible refine Only.ite_snd ?_ ?_)
    | split)

theorem fspExecute_only (n : Nat) (ws : List Word) (s : State) : Only [.pages, .rf, .mem, .fuse, .fab, .pln, .tim, .srv, .lanes, .lsh, .del, .ques, .pci, .fsp, .tcs, .svc, .fwl, .bst, .pwr, .chans, .grps, .lins, .ana, .free, .outbox] s (fspExecute n ws s) := by
  unfold fspExecute
  repeat' first
    | (show within _ _ = true; rfl)
    | with_reducible exact Only.refl _ _
    | assumption
    | dsimp only
    | with_reducible apply Only.next (fspRefuse_only _ _)
    | with_reducible apply Only.next (fspRun_only _ _ _)
    | with_reducible apply Only.next (fspReply_only _ _ _)
    | with_reducible apply Only.next (modFsp_only _ _)
    | with_reducible refine Only.ite ?_ ?_
    | split

theorem fspTake_only (n : Nat) (bytes : List Byte) (s : State) : Only [.pages, .rf, .mem, .fuse, .fab, .pln, .tim, .srv, .lanes, .lsh, .del, .ques, .pci, .fsp, .tcs, .svc, .fwl, .bst, .pwr, .chans, .grps, .lins, .ana, .free, .outbox] s (fspTake n bytes s) := by
  unfold fspTake
  repeat' first
    | (show within _ _ = true; rfl)
    | with_reducible exact Only.refl _ _
    | assumption
    | dsimp only
    | with_reducible apply Only.next (fspReply_only _ _ _)
    | with_reducible apply Only.next (raiseOnce_only _ _ _ _ _)
    | with_reducible apply Only.next (fspExecute_only _ _ _)
    | with_reducible apply Only.next (modFsp_only _ _)
    | with_reducible refine Only.ite ?_ ?_

theorem fspDiscard_only (s : State) : Only [.pages, .fab, .del, .pci, .fsp, .fwl, .outbox] s (fspDiscard s) := by
  unfold fspDiscard
  repeat' first
    | (show within _ _ = true; rfl)
    | with_reducible exact Only.refl _ _
    | dsimp only
    | with_reducible apply Only.next (raiseOnce_only _ _ _ _ _)
    | with_reducible apply Only.next (modFsp_only _ _)

theorem execFspFrame_only (bytes : List Byte) (edges : Nat) (ready : Bool) (s : State) : Answers [.pages, .rf, .mem, .fuse, .fab, .pln, .tim, .srv, .lanes, .lsh, .del, .ques, .pci, .fsp, .tcs, .svc, .fwl, .bst, .pwr, .chans, .grps, .lins, .ana, .free, .outbox] s (execFspFrame bytes edges ready s) := by
  unfold execFspFrame
  repeat' first
    | (show within _ _ = true; rfl)
    | with_reducible exact Only.refl _ _
    | assumption
    | dsimp only
    | with_reducible refine Answers.next ?_
    | with_reducible apply Only.next (drive_only _ _)
    | with_reducible apply Only.next (fspDiscard_only _)
    | with_reducible apply Only.next (fspTake_only _ _ _)
    | with_reducible apply Only.next (modFsp_only _ _)
    | with_reducible refine Only.ite ?_ ?_

theorem execFspEnd_only (s : State) : Answers [.fsp] s (execFspEnd s) := by
  unfold execFspEnd
  repeat' first
    | (show within _ _ = true; rfl)
    | with_reducible exact Only.refl _ _
    | assumption
    | dsimp only
    | with_reducible refine Answers.next ?_
    | with_reducible apply Only.next (fspReply_only _ _ _)

theorem execFspRead_only (count : Fin 256) (addr : BitVec 20) (s : State) : Answers [.pages, .rf, .fab, .del, .ques, .pci, .fsp, .fwl, .bst, .chans, .free, .outbox] s (execFspRead count addr s) := by
  unfold execFspRead
  repeat' first
    | (show within _ _ = true; rfl)
    | with_reducible exact Only.refl _ _
    | assumption
    | dsimp only
    | with_reducible refine Answers.next ?_
    | with_reducible apply Only.next (fspRefuse_only _ _)
    | with_reducible apply Only.next (fspReadCmd_only _ _ _)
    | with_reducible refine Only.ite ?_ ?_

theorem execFspWrite_only (addr : BitVec 20) (data : List Word) (s : State) : Answers [.pages, .rf, .mem, .fuse, .fab, .pln, .tim, .srv, .lanes, .lsh, .del, .ques, .pci, .fsp, .tcs, .svc, .fwl, .bst, .pwr, .chans, .grps, .lins, .ana, .free, .outbox] s (execFspWrite addr data s) := by
  unfold execFspWrite
  repeat' first
    | (show within _ _ = true; rfl)
    | with_reducible exact Only.refl _ _
    | assumption
    | dsimp only
    | with_reducible refine Answers.next ?_
    | with_reducible apply Only.next (fspRefuse_only _ _)
    | with_reducible apply Only.next (writeMany_only _ _ _ _)
    | with_reducible refine Only.ite ?_ ?_

theorem execFspStream_only (count : Fin 256) (next : Word) (s : State) : Answers [.pages, .fab, .del, .pci, .fsp, .fwl, .outbox] s (execFspStream count next s) := by
  unfold execFspStream
  repeat' first
    | (show within _ _ = true; rfl)
    | with_reducible exact Only.refl _ _
    | assumption
    | dsimp only
    | with_reducible refine Answers.next ?_
    | with_reducible apply Only.next (fspRefuse_only _ _)
    | with_reducible apply Only.next (fspStreamCmd_only _ _ _ _)
    | with_reducible refine Only.ite ?_ ?_


end Sys2Proof.Machine
end

