-- ==== Sys2Proof/Laws/FrameHaldom.lean ====
section
/-! SUPPORT. The frames of the operations of Machine/Haldom.lean. -/

namespace Sys2Proof.Machine

theorem result_only (n d : Nat) (w : W128) (s : State) : Only [.tcs] s (result n d w s) := by
  unfold result
  repeat' first
    | (show within _ _ = true; rfl)
    | with_reducible exact Only.refl _ _
    | dsimp only
    | with_reducible apply Only.next (advance_only _ _)
    | with_reducible apply Only.next (setV_only _ _ _ _)

theorem compute_only (n d : Nat) (f : Tc → W128) (s : State) : Only [.tcs] s (compute n d f s) := by
  unfold compute
  repeat' first
    | (show within _ _ = true; rfl)
    | with_reducible exact Only.refl _ _
    | dsimp only
    | with_reducible apply issue_then
    | with_reducible apply Only.next (result_only _ _ _ _)
    | intro _

theorem intOp_only (n d a b m : Nat) (op : Word → Word → Word) (s : State) : Only [.tcs] s (intOp n d a b m op s) := by
  unfold intOp
  repeat' first
    | (show within _ _ = true; rfl)
    | with_reducible exact Only.refl _ _
    | dsimp only
    | with_reducible apply Only.next (compute_only _ _ _ _)

theorem longOp_only (n d a b m : Nat) (op : BitVec 64 → BitVec 64 → BitVec 64) (s : State) : Only [.tcs] s (longOp n d a b m op s) := by
  unfold longOp
  repeat' first
    | (show within _ _ = true; rfl)
    | with_reducible exact Only.refl _ _
    | assumption
    | dsimp only
    | with_reducible apply Only.next (compute_only _ _ _ _)

theorem fpLanes_only (n d m : Nat) (op : Tc → Nat → Word × FpFlags) (s : State) : Only [.tcs] s (fpLanes n d m op s) := by
  unfold fpLanes
  repeat' first
    | (show within _ _ = true; rfl)
    | with_reducible exact Only.refl _ _
    | assumption
    | dsimp only
    | with_reducible apply issue_then
    | with_reducible apply Only.next (result_only _ _ _ _)
    | with_reducible apply Only.next (modTc_only _ _ _)
    | with_reducible apply Only.foldl_then
    | with_reducible apply Only.foldl_fst_then
    | with_reducible apply Only.foldl_snd_then
    | with_reducible refine Only.ite ?_ ?_
    | with_reducible refine Only.ite_fst ?_ ?_
    | with_reducible refine Only.ite_snd ?_ ?_
    | split
    | intro _

theorem fpOp_only (n d a b m : Nat) (op : F32 → F32 → Word × FpFlags) (s : State) : Only [.tcs] s (fpOp n d a b m op s) := by
  unfold fpOp
  repeat' first
    | (show within _ _ = true; rfl)
    | with_reducible exact Only.refl _ _
    | assumption
    | dsimp only
    | with_reducible apply Only.next (fpLanes_only _ _ _ _ _)

theorem jump_only (n : Nat) (target : Int) (s : State) : Only [.pages, .mem, .fab, .del, .ques, .pci, .tcs, .fwl, .outbox] s (jump n target s) := by
  unfold jump
  repeat' first
    | (show within _ _ = true; rfl)
    | with_reducible exact Only.refl _ _
    | dsimp only
    | with_reducible apply Only.next (coreFault_only _ _ _)
    | with_reducible apply Only.next (modTc_only _ _ _)
    | with_reducible refine Only.ite ?_ ?_

theorem branch_only (n a b : Nat) (off : BitVec 14) (c : Word → Word → Bool) (s : State) : Only [.pages, .mem, .fab, .del, .ques, .pci, .tcs, .fwl, .outbox] s (branch n a b off c s) := by
  unfold branch
  repeat' first
    | (show within _ _ = true; rfl)
    | with_reducible exact Only.refl _ _
    | assumption
    | dsimp only
    | with_reducible apply issue_then
    | with_reducible apply Only.next (jump_only _ _ _)
    | with_reducible apply Only.next (advance_only _ _)
    | with_reducible refine Only.ite ?_ ?_
    | split
    | intro _

theorem execNop_only (n : QNum) (s : State) : Answers [.tcs] s (execNop n s) := by
  unfold execNop
  repeat' first
    | (show within _ _ = true; rfl)
    | with_reducible exact Only.refl _ _
    | assumption
    | dsimp only
    | with_reducible refine Answers.next ?_
    | with_reducible apply issue_then
    | with_reducible apply Only.next (advance_only _ _)
    | intro _

theorem execB_only (n : QNum) (t : BitVec 14) (s : State) : Answers [.pages, .mem, .fab, .del, .ques, .pci, .tcs, .fwl, .outbox] s (execB n t s) := by
  unfold execB
  repeat' first
    | (show within _ _ = true; rfl)
    | with_reducible exact Only.refl _ _
    | assumption
    | dsimp only
    | with_reducible refine Answers.next ?_
    | with_reducible apply issue_then
    | with_reducible apply Only.next (jump_only _ _ _)
    | intro _

theorem execBeq_only (n : QNum) (a b : Reg) (off : BitVec 14) (s : State) : Answers [.pages, .mem, .fab, .del, .ques, .pci, .tcs, .fwl, .outbox] s (execBeq n a b off s) := by
  unfold execBeq
  repeat' first
    | (show within _ _ = true; rfl)
    | with_reducible exact Only.refl _ _
    | assumption
    | dsimp only
    | with_reducible refine Answers.next ?_
    | with_reducible apply Only.next (branch_only _ _ _ _ _ _)

theorem execBne_only (n : QNum) (a b : Reg) (off : BitVec 14) (s : State) : Answers [.pages, .mem, .fab, .del, .ques, .pci, .tcs, .fwl, .outbox] s (execBne n a b off s) := by
  unfold execBne
  repeat' first
    | (show within _ _ = true; rfl)
    | with_reducible exact Only.refl _ _
    | assumption
    | dsimp only
    | with_reducible refine Answers.next ?_
    | with_reducible apply Only.next (branch_only _ _ _ _ _ _)

theorem execBlt_only (n : QNum) (a b : Reg) (off : BitVec 14) (s : State) : Answers [.pages, .mem, .fab, .del, .ques, .pci, .tcs, .fwl, .outbox] s (execBlt n a b off s) := by
  unfold execBlt
  repeat' first
    | (show within _ _ = true; rfl)
    | with_reducible exact Only.refl _ _
    | assumption
    | dsimp only
    | with_reducible refine Answers.next ?_
    | with_reducible apply Only.next (branch_only _ _ _ _ _ _)

theorem execBge_only (n : QNum) (a b : Reg) (off : BitVec 14) (s : State) : Answers [.pages, .mem, .fab, .del, .ques, .pci, .tcs, .fwl, .outbox] s (execBge n a b off s) := by
  unfold execBge
  repeat' first
    | (show within _ _ = true; rfl)
    | with_reducible exact Only.refl _ _
    | assumption
    | dsimp only
    | with_reducible refine Answers.next ?_
    | with_reducible apply Only.next (branch_only _ _ _ _ _ _)

theorem execCall_only (n : QNum) (t : BitVec 14) (s : State) : Answers [.pages, .mem, .fab, .del, .ques, .pci, .tcs, .fwl, .outbox] s (execCall n t s) := by
  unfold execCall
  repeat' first
    | (show within _ _ = true; rfl)
    | with_reducible exact Only.refl _ _
    | assumption
    | dsimp only
    | with_reducible refine Answers.next ?_
    | with_reducible apply issue_then
    | with_reducible apply Only.next (coreFault_only _ _ _)
    | with_reducible apply Only.next (jump_only _ _ _)
    | with_reducible apply Only.next (setV_only _ _ _ _)
    | with_reducible refine Only.ite ?_ ?_
    | with_reducible refine Answers.ite ?_ ?_
    | split
    | intro _

theorem execRet_only (n : QNum) (s : State) : Answers [.pages, .mem, .fab, .del, .ques, .pci, .tcs, .fwl, .outbox] s (execRet n s) := by
  unfold execRet
  repeat' first
    | (show within _ _ = true; rfl)
    | with_reducible exact Only.refl _ _
    | assumption
    | dsimp only
    | with_reducible refine Answers.next ?_
    | with_reducible apply issue_then
    | with_reducible apply Only.next (jump_only _ _ _)
    | intro _

theorem execWait_only (n : QNum) (mask : Fin 16) (s : State) : Answers [.pages, .fab, .del, .pci, .tcs, .fwl, .outbox] s (execWait n mask s) := by
  unfold execWait
  repeat' first
    | (show within _ _ = true; rfl)
    | with_reducible exact Only.refl _ _
    | assumption
    | dsimp only
    | with_reducible refine Answers.next ?_
    | with_reducible apply issue_then
    | with_reducible apply Only.next (waitOn_only _ _ _)
    | intro _

theorem freeLanes_only (s : State) : Only [.free] s (freeLanes s).2.2.2 :=
  Only.next (takeFree_only _) rfl (Only.next (takeFree_only _) rfl (takeFree_only s))

theorem execTrig_only (n : QNum) (d : Reg) (s : State) : Answers [.tcs, .free] s (execTrig n d s) := by
  unfold execTrig
  repeat' first
    | (show within _ _ = true; rfl)
    | with_reducible exact Only.refl _ _
    | assumption
    | dsimp only
    | with_reducible refine Answers.next ?_
    | with_reducible apply issue_then
    | with_reducible apply Only.next (freeLanes_only _)
    | with_reducible apply Only.next (result_only _ _ _ _)
    | with_reducible apply Only.next (modTc_only _ _ _)
    | intro _

theorem execTime_only (n : QNum) (d : Reg) (s : State) : Answers [.tcs] s (execTime n d s) := by
  unfold execTime
  repeat' first
    | (show within _ _ = true; rfl)
    | with_reducible exact Only.refl _ _
    | assumption
    | dsimp only
    | with_reducible refine Answers.next ?_
    | with_reducible apply Only.next (compute_only _ _ _ _)

theorem execHzn_only (n : QNum) (a : Reg) (s : State) : Answers [.tcs] s (execHzn n a s) := by
  unfold execHzn
  repeat' first
    | (show within _ _ = true; rfl)
    | with_reducible exact Only.refl _ _
    | assumption
    | dsimp only
    | with_reducible refine Answers.next ?_
    | with_reducible apply issue_then
    | with_reducible apply Only.next (modTc_only _ _ _)
    | with_reducible apply Only.next (advance_only _ _)
    | with_reducible refine Only.ite ?_ ?_
    | with_reducible refine Answers.ite ?_ ?_
    | split
    | intro _

theorem execRecv_only (n : QNum) (d b : Reg) (s : State) : Answers [.pages, .tcs] s (execRecv n d b s) := by
  unfold execRecv
  repeat' first
    | (show within _ _ = true; rfl)
    | with_reducible exact Only.refl _ _
    | assumption
    | dsimp only
    | with_reducible refine Answers.next ?_
    | with_reducible apply issue_then
    | with_reducible apply Only.next (takeIn_only _ _ _ _)
    | with_reducible apply Only.next (advance_only _ _)
    | with_reducible apply Only.next (modTcState_only _ _ _)
    | with_reducible refine Only.ite ?_ ?_
    | with_reducible refine Only.ite_fst ?_ ?_
    | with_reducible refine Only.ite_snd ?_ ?_
    | with_reducible refine Answers.ite ?_ ?_
    | split
    | intro _

theorem execRecvn_only (n : QNum) (d b : Reg) (s : State) : Answers [.tcs] s (execRecvn n d b s) := by
  unfold execRecvn
  repeat' first
    | (show within _ _ = true; rfl)
    | with_reducible exact Only.refl _ _
    | assumption
    | dsimp only
    | with_reducible refine Answers.next ?_
    | with_reducible apply issue_then
    | with_reducible apply Only.next (takeIn_only _ _ _ _)
    | with_reducible apply Only.next (advance_only _ _)
    | with_reducible apply Only.next (setV_only _ _ _ _)
    | with_reducible refine Only.ite ?_ ?_
    | with_reducible refine Only.ite_fst ?_ ?_
    | with_reducible refine Only.ite_snd ?_ ?_
    | with_reducible refine Answers.ite ?_ ?_
    | split
    | intro _

theorem sendOp_only (n : Nat) (a : Nat) (last : Bool) (s : State) : Only [.pages, .fab, .del, .ques, .pci, .tcs, .fwl, .outbox] s (sendOp n a last s) := by
  unfold sendOp
  repeat' first
    | (show within _ _ = true; rfl)
    | with_reducible exact Only.refl _ _
    | assumption
    | dsimp only
    | with_reducible apply issue_then
    | with_reducible apply Only.next (sendWord_only _ _ _ _)
    | with_reducible apply Only.next (advance_only _ _)
    | with_reducible apply Only.next (modTcState_only _ _ _)
    | with_reducible refine Only.ite ?_ ?_
    | with_reducible refine Only.ite_fst ?_ ?_
    | with_reducible refine Only.ite_snd ?_ ?_
    | split
    | intro _

theorem execSend_only (n : QNum) (a : Reg) (s : State) : Answers [.pages, .fab, .del, .ques, .pci, .tcs, .fwl, .outbox] s (execSend n a s) := by
  unfold execSend
  repeat' first
    | (show within _ _ = true; rfl)
    | with_reducible exact Only.refl _ _
    | assumption
    | dsimp only
    | with_reducible refine Answers.next ?_
    | with_reducible apply Only.next (sendOp_only _ _ _ _)

theorem execSendl_only (n : QNum) (a : Reg) (s : State) : Answers [.pages, .fab, .del, .ques, .pci, .tcs, .fwl, .outbox] s (execSendl n a s) := by
  unfold execSendl
  repeat' first
    | (show within _ _ = true; rfl)
    | with_reducible exact Only.refl _ _
    | assumption
    | dsimp only
    | with_reducible refine Answers.next ?_
    | with_reducible apply Only.next (sendOp_only _ _ _ _)

theorem execPstat_only (n : QNum) (d : Reg) (s : State) : Answers [.tcs, .free] s (execPstat n d s) := by
  unfold execPstat
  repeat' first
    | (show within _ _ = true; rfl)
    | with_reducible exact Only.refl _ _
    | assumption
    | dsimp only
    | with_reducible refine Answers.next ?_
    | with_reducible apply issue_then
    | with_reducible apply Only.next (takeFree_only _)
    | with_reducible apply Only.next (result_only _ _ _ _)
    | with_reducible apply Only.next (modTc_only _ _ _)
    | intro _

theorem execSabort_only (n : QNum) (s : State) : Answers [.ques, .tcs] s (execSabort n s) := by
  unfold execSabort
  repeat' first
    | (show within _ _ = true; rfl)
    | with_reducible exact Only.refl _ _
    | assumption
    | dsimp only
    | with_reducible refine Answers.next ?_
    | with_reducible apply issue_then
    | with_reducible apply Only.next (advance_only _ _)
    | with_reducible apply Only.next (modTc_only _ _ _)
    | with_reducible apply Only.next (rewindOut_only _ _)
    | intro _

theorem load_only (n d a : Nat) (imm : BitVec 14) (size : Nat) (ue : Bool) (s : State) : Only [.pages, .mem, .fab, .del, .ques, .pci, .tcs, .fwl, .outbox] s (load n d a imm size ue s) := by
  unfold load
  repeat' first
    | (show within _ _ = true; rfl)
    | with_reducible exact Only.refl _ _
    | assumption
    | dsimp only
    | with_reducible apply issue_then
    | with_reducible apply Only.next (coreFault_only _ _ _)
    | with_reducible apply Only.next (raise_only _ _ _ _)
    | with_reducible apply Only.next (result_only _ _ _ _)
    | with_reducible refine Only.ite ?_ ?_
    | split
    | intro _

theorem store_only (n d a : Nat) (imm : BitVec 14) (size : Nat) (s : State) : Only [.pages, .mem, .fab, .del, .ques, .pci, .tcs, .fwl, .outbox] s (store n d a imm size s) := by
  unfold store
  repeat' first
    | (show within _ _ = true; rfl)
    | with_reducible exact Only.refl _ _
    | assumption
    | dsimp only
    | with_reducible apply issue_then
    | with_reducible apply Only.next (coreFault_only _ _ _)
    | with_reducible apply Only.next (advance_only _ _)
    | with_reducible apply Only.next (modMem_only (fun m h => ?_) _)
    | exact Memory.wf_writeN _ _ h
    | exact Memory.wf_clear _ _ h
    | split
    | intro _

theorem execLd_only (n : QNum) (d a : Reg) (imm : BitVec 14) (ue : Bool) (s : State) : Answers [.pages, .mem, .fab, .del, .ques, .pci, .tcs, .fwl, .outbox] s (execLd n d a imm ue s) := by
  unfold execLd
  repeat' first
    | (show within _ _ = true; rfl)
    | with_reducible exact Only.refl _ _
    | assumption
    | dsimp only
    | with_reducible refine Answers.next ?_
    | with_reducible apply Only.next (load_only _ _ _ _ _ _ _)

theorem execSt_only (n : QNum) (d a : Reg) (imm : BitVec 14) (s : State) : Answers [.pages, .mem, .fab, .del, .ques, .pci, .tcs, .fwl, .outbox] s (execSt n d a imm s) := by
  unfold execSt
  repeat' first
    | (show within _ _ = true; rfl)
    | with_reducible exact Only.refl _ _
    | assumption
    | dsimp only
    | with_reducible refine Answers.next ?_
    | with_reducible apply Only.next (store_only _ _ _ _ _ _)

theorem execLdw_only (n : QNum) (d a : Reg) (imm : BitVec 14) (ue : Bool) (s : State) : Answers [.pages, .mem, .fab, .del, .ques, .pci, .tcs, .fwl, .outbox] s (execLdw n d a imm ue s) := by
  unfold execLdw
  repeat' first
    | (show within _ _ = true; rfl)
    | with_reducible exact Only.refl _ _
    | assumption
    | dsimp only
    | with_reducible refine Answers.next ?_
    | with_reducible apply Only.next (load_only _ _ _ _ _ _ _)

theorem execStw_only (n : QNum) (d a : Reg) (imm : BitVec 14) (s : State) : Answers [.pages, .mem, .fab, .del, .ques, .pci, .tcs, .fwl, .outbox] s (execStw n d a imm s) := by
  unfold execStw
  repeat' first
    | (show within _ _ = true; rfl)
    | with_reducible exact Only.refl _ _
    | assumption
    | dsimp only
    | with_reducible refine Answers.next ?_
    | with_reducible apply Only.next (store_only _ _ _ _ _ _)

theorem execLi_only (n : QNum) (d : Reg) (imm : BitVec 19) (s : State) : Answers [.tcs] s (execLi n d imm s) := by
  unfold execLi
  repeat' first
    | (show within _ _ = true; rfl)
    | with_reducible exact Only.refl _ _
    | assumption
    | dsimp only
    | with_reducible refine Answers.next ?_
    | with_reducible apply Only.next (compute_only _ _ _ _)

theorem execLih_only (n : QNum) (d : Reg) (imm : BitVec 19) (s : State) : Answers [.tcs] s (execLih n d imm s) := by
  unfold execLih
  repeat' first
    | (show within _ _ = true; rfl)
    | with_reducible exact Only.refl _ _
    | assumption
    | dsimp only
    | with_reducible refine Answers.next ?_
    | with_reducible apply Only.next (compute_only _ _ _ _)

theorem immOp_only (n d a : Nat) (op : Word → Word) (s : State) : Only [.tcs] s (immOp n d a op s) := by
  unfold immOp
  repeat' first
    | (show within _ _ = true; rfl)
    | with_reducible exact Only.refl _ _
    | dsimp only
    | with_reducible apply Only.next (compute_only _ _ _ _)

theorem execAddi_only (n : QNum) (d a : Reg) (imm : BitVec 14) (s : State) : Answers [.tcs] s (execAddi n d a imm s) := by
  unfold execAddi
  repeat' first
    | (show within _ _ = true; rfl)
    | with_reducible exact Only.refl _ _
    | assumption
    | dsimp only
    | with_reducible refine Answers.next ?_
    | with_reducible apply Only.next (immOp_only _ _ _ _ _)

theorem execShli_only (n : QNum) (d a : Reg) (imm : BitVec 14) (s : State) : Answers [.tcs] s (execShli n d a imm s) := by
  unfold execShli
  repeat' first
    | (show within _ _ = true; rfl)
    | with_reducible exact Only.refl _ _
    | assumption
    | dsimp only
    | with_reducible refine Answers.next ?_
    | with_reducible apply Only.next (immOp_only _ _ _ _ _)

theorem execShri_only (n : QNum) (d a : Reg) (imm : BitVec 14) (s : State) : Answers [.tcs] s (execShri n d a imm s) := by
  unfold execShri
  repeat' first
    | (show within _ _ = true; rfl)
    | with_reducible exact Only.refl _ _
    | assumption
    | dsimp only
    | with_reducible refine Answers.next ?_
    | with_reducible apply Only.next (immOp_only _ _ _ _ _)

theorem execSrai_only (n : QNum) (d a : Reg) (imm : BitVec 14) (s : State) : Answers [.tcs] s (execSrai n d a imm s) := by
  unfold execSrai
  repeat' first
    | (show within _ _ = true; rfl)
    | with_reducible exact Only.refl _ _
    | assumption
    | dsimp only
    | with_reducible refine Answers.next ?_
    | with_reducible apply Only.next (immOp_only _ _ _ _ _)

theorem execIadd_only (n : QNum) (d a b : Reg) (f : Fin 16) (s : State) : Answers [.tcs] s (execIadd n d a b f s) := by
  unfold execIadd
  repeat' first
    | (show within _ _ = true; rfl)
    | with_reducible exact Only.refl _ _
    | assumption
    | dsimp only
    | with_reducible refine Answers.next ?_
    | with_reducible apply Only.next (intOp_only _ _ _ _ _ _ _)

theorem execIsub_only (n : QNum) (d a b : Reg) (f : Fin 16) (s : State) : Answers [.tcs] s (execIsub n d a b f s) := by
  unfold execIsub
  repeat' first
    | (show within _ _ = true; rfl)
    | with_reducible exact Only.refl _ _
    | assumption
    | dsimp only
    | with_reducible refine Answers.next ?_
    | with_reducible apply Only.next (intOp_only _ _ _ _ _ _ _)

theorem execImul_only (n : QNum) (d a b : Reg) (f : Fin 16) (s : State) : Answers [.tcs] s (execImul n d a b f s) := by
  unfold execImul
  repeat' first
    | (show within _ _ = true; rfl)
    | with_reducible exact Only.refl _ _
    | assumption
    | dsimp only
    | with_reducible refine Answers.next ?_
    | with_reducible apply Only.next (intOp_only _ _ _ _ _ _ _)

theorem execImin_only (n : QNum) (d a b : Reg) (f : Fin 16) (s : State) : Answers [.tcs] s (execImin n d a b f s) := by
  unfold execImin
  repeat' first
    | (show within _ _ = true; rfl)
    | with_reducible exact Only.refl _ _
    | assumption
    | dsimp only
    | with_reducible refine Answers.next ?_
    | with_reducible apply Only.next (intOp_only _ _ _ _ _ _ _)

theorem execImax_only (n : QNum) (d a b : Reg) (f : Fin 16) (s : State) : Answers [.tcs] s (execImax n d a b f s) := by
  unfold execImax
  repeat' first
    | (show within _ _ = true; rfl)
    | with_reducible exact Only.refl _ _
    | assumption
    | dsimp only
    | with_reducible refine Answers.next ?_
    | with_reducible apply Only.next (intOp_only _ _ _ _ _ _ _)

theorem execShl_only (n : QNum) (d a b : Reg) (f : Fin 16) (s : State) : Answers [.tcs] s (execShl n d a b f s) := by
  unfold execShl
  repeat' first
    | (show within _ _ = true; rfl)
    | with_reducible exact Only.refl _ _
    | assumption
    | dsimp only
    | with_reducible refine Answers.next ?_
    | with_reducible apply Only.next (intOp_only _ _ _ _ _ _ _)

theorem execShr_only (n : QNum) (d a b : Reg) (f : Fin 16) (s : State) : Answers [.tcs] s (execShr n d a b f s) := by
  unfold execShr
  repeat' first
    | (show within _ _ = true; rfl)
    | with_reducible exact Only.refl _ _
    | assumption
    | dsimp only
    | with_reducible refine Answers.next ?_
    | with_reducible apply Only.next (intOp_only _ _ _ _ _ _ _)

theorem execSra_only (n : QNum) (d a b : Reg) (f : Fin 16) (s : State) : Answers [.tcs] s (execSra n d a b f s) := by
  unfold execSra
  repeat' first
    | (show within _ _ = true; rfl)
    | with_reducible exact Only.refl _ _
    | assumption
    | dsimp only
    | with_reducible refine Answers.next ?_
    | with_reducible apply Only.next (intOp_only _ _ _ _ _ _ _)

theorem execLadd_only (n : QNum) (d a b : Reg) (f : Fin 16) (s : State) : Answers [.tcs] s (execLadd n d a b f s) := by
  unfold execLadd
  repeat' first
    | (show within _ _ = true; rfl)
    | with_reducible exact Only.refl _ _
    | assumption
    | dsimp only
    | with_reducible refine Answers.next ?_
    | with_reducible apply Only.next (longOp_only _ _ _ _ _ _ _)

theorem execLsub_only (n : QNum) (d a b : Reg) (f : Fin 16) (s : State) : Answers [.tcs] s (execLsub n d a b f s) := by
  unfold execLsub
  repeat' first
    | (show within _ _ = true; rfl)
    | with_reducible exact Only.refl _ _
    | assumption
    | dsimp only
    | with_reducible refine Answers.next ?_
    | with_reducible apply Only.next (longOp_only _ _ _ _ _ _ _)

theorem execIabs_only (n : QNum) (d a : Reg) (f : Fin 16) (s : State) : Answers [.tcs] s (execIabs n d a f s) := by
  unfold execIabs
  repeat' first
    | (show within _ _ = true; rfl)
    | with_reducible exact Only.refl _ _
    | assumption
    | dsimp only
    | with_reducible refine Answers.next ?_
    | with_reducible apply Only.next (intOp_only _ _ _ _ _ _ _)

theorem addFpf_only (n fl : Nat) (s : State) : Only [.tcs] s (addFpf n fl s) := by
  unfold addFpf
  repeat' first
    | (show within _ _ = true; rfl)
    | with_reducible exact Only.refl _ _
    | dsimp only
    | with_reducible apply Only.next (modTc_only _ _ _)

theorem cmpLanes_only (n d : Nat) (defined : Bool) (c : Tc → Nat → Bool) (s : State) : Only [.tcs, .free] s (cmpLanes n d defined c s) := by
  unfold cmpLanes
  repeat' first
    | (show within _ _ = true; rfl)
    | with_reducible exact Only.refl _ _
    | assumption
    | dsimp only
    | with_reducible apply Only.next (result_only _ _ _ _)
    | with_reducible apply Only.next (freeLanes_only _)
    | with_reducible apply Only.next (takeFree_only _)
    | with_reducible refine Only.ite ?_ ?_

theorem execIcmp_only (n : QNum) (d a b : Reg) (f : Fin 16) (s : State) : Answers [.tcs, .free] s (execIcmp n d a b f s) := by
  unfold execIcmp
  repeat' first
    | (show within _ _ = true; rfl)
    | with_reducible exact Only.refl _ _
    | assumption
    | dsimp only
    | with_reducible refine Answers.next ?_
    | with_reducible apply issue_then
    | with_reducible apply Only.next (cmpLanes_only _ _ _ _ _)
    | intro _

theorem execAndW_only (n : QNum) (d a b : Reg) (s : State) : Answers [.tcs] s (execAndW n d a b s) := by
  unfold execAndW
  repeat' first
    | (show within _ _ = true; rfl)
    | with_reducible exact Only.refl _ _
    | assumption
    | dsimp only
    | with_reducible refine Answers.next ?_
    | with_reducible apply Only.next (compute_only _ _ _ _)

theorem execOrW_only (n : QNum) (d a b : Reg) (s : State) : Answers [.tcs] s (execOrW n d a b s) := by
  unfold execOrW
  repeat' first
    | (show within _ _ = true; rfl)
    | with_reducible exact Only.refl _ _
    | assumption
    | dsimp only
    | with_reducible refine Answers.next ?_
    | with_reducible apply Only.next (compute_only _ _ _ _)

theorem execXorW_only (n : QNum) (d a b : Reg) (s : State) : Answers [.tcs] s (execXorW n d a b s) := by
  unfold execXorW
  repeat' first
    | (show within _ _ = true; rfl)
    | with_reducible exact Only.refl _ _
    | assumption
    | dsimp only
    | with_reducible refine Answers.next ?_
    | with_reducible apply Only.next (compute_only _ _ _ _)

theorem execAndn_only (n : QNum) (d a b : Reg) (s : State) : Answers [.tcs] s (execAndn n d a b s) := by
  unfold execAndn
  repeat' first
    | (show within _ _ = true; rfl)
    | with_reducible exact Only.refl _ _
    | assumption
    | dsimp only
    | with_reducible refine Answers.next ?_
    | with_reducible apply Only.next (compute_only _ _ _ _)

theorem execSel_only (n : QNum) (d a b c : Reg) (s : State) : Answers [.tcs] s (execSel n d a b c s) := by
  unfold execSel
  repeat' first
    | (show within _ _ = true; rfl)
    | with_reducible exact Only.refl _ _
    | assumption
    | dsimp only
    | with_reducible refine Answers.next ?_
    | with_reducible apply Only.next (compute_only _ _ _ _)

theorem execShuf_only (n : QNum) (d a : Reg) (imm : BitVec 14) (s : State) : Answers [.tcs] s (execShuf n d a imm s) := by
  unfold execShuf
  repeat' first
    | (show within _ _ = true; rfl)
    | with_reducible exact Only.refl _ _
    | assumption
    | dsimp only
    | with_reducible refine Answers.next ?_
    | with_reducible apply Only.next (compute_only _ _ _ _)

theorem execBcast_only (n : QNum) (d a : Reg) (f : Fin 16) (s : State) : Answers [.tcs] s (execBcast n d a f s) := by
  unfold execBcast
  repeat' first
    | (show within _ _ = true; rfl)
    | with_reducible exact Only.refl _ _
    | assumption
    | dsimp only
    | with_reducible refine Answers.next ?_
    | with_reducible apply Only.next (compute_only _ _ _ _)

theorem execExt_only (n : QNum) (d a : Reg) (f : Fin 16) (s : State) : Answers [.tcs] s (execExt n d a f s) := by
  unfold execExt
  repeat' first
    | (show within _ _ = true; rfl)
    | with_reducible exact Only.refl _ _
    | assumption
    | dsimp only
    | with_reducible refine Answers.next ?_
    | with_reducible apply Only.next (compute_only _ _ _ _)

theorem execIns_only (n : QNum) (d a : Reg) (f : Fin 16) (s : State) : Answers [.tcs] s (execIns n d a f s) := by
  unfold execIns
  repeat' first
    | (show within _ _ = true; rfl)
    | with_reducible exact Only.refl _ _
    | assumption
    | dsimp only
    | with_reducible refine Answers.next ?_
    | with_reducible apply Only.next (compute_only _ _ _ _)

theorem execFadd_only (n : QNum) (d a b : Reg) (f : Fin 16) (s : State) : Answers [.tcs] s (execFadd n d a b f s) := by
  unfold execFadd
  repeat' first
    | (show within _ _ = true; rfl)
    | with_reducible exact Only.refl _ _
    | assumption
    | dsimp only
    | with_reducible refine Answers.next ?_
    | with_reducible apply Only.next (fpOp_only _ _ _ _ _ _ _)

theorem execFsub_only (n : QNum) (d a b : Reg) (f : Fin 16) (s : State) : Answers [.tcs] s (execFsub n d a b f s) := by
  unfold execFsub
  repeat' first
    | (show within _ _ = true; rfl)
    | with_reducible exact Only.refl _ _
    | assumption
    | dsimp only
    | with_reducible refine Answers.next ?_
    | with_reducible apply Only.next (fpOp_only _ _ _ _ _ _ _)

theorem execFmul_only (n : QNum) (d a b : Reg) (f : Fin 16) (s : State) : Answers [.tcs] s (execFmul n d a b f s) := by
  unfold execFmul
  repeat' first
    | (show within _ _ = true; rfl)
    | with_reducible exact Only.refl _ _
    | assumption
    | dsimp only
    | with_reducible refine Answers.next ?_
    | with_reducible apply Only.next (fpOp_only _ _ _ _ _ _ _)

theorem execFdiv_only (n : QNum) (d a b : Reg) (f : Fin 16) (s : State) : Answers [.tcs] s (execFdiv n d a b f s) := by
  unfold execFdiv
  repeat' first
    | (show within _ _ = true; rfl)
    | with_reducible exact Only.refl _ _
    | assumption
    | dsimp only
    | with_reducible refine Answers.next ?_
    | with_reducible apply Only.next (fpOp_only _ _ _ _ _ _ _)

theorem execFsqrt_only (n : QNum) (d a : Reg) (f : Fin 16) (s : State) : Answers [.tcs] s (execFsqrt n d a f s) := by
  unfold execFsqrt
  repeat' first
    | (show within _ _ = true; rfl)
    | with_reducible exact Only.refl _ _
    | assumption
    | dsimp only
    | with_reducible refine Answers.next ?_
    | with_reducible apply Only.next (fpOp_only _ _ _ _ _ _ _)

theorem fma_only (n d a b c m : Nat) (g : F32 → F32) (s : State) : Only [.tcs] s (fma n d a b c m g s) := by
  unfold fma
  repeat' first
    | (show within _ _ = true; rfl)
    | with_reducible exact Only.refl _ _
    | assumption
    | dsimp only
    | with_reducible apply Only.next (fpLanes_only _ _ _ _ _)

theorem execFma_only (n : QNum) (d a b c : Reg) (f : Fin 16) (s : State) : Answers [.tcs] s (execFma n d a b c f s) := by
  unfold execFma
  repeat' first
    | (show within _ _ = true; rfl)
    | with_reducible exact Only.refl _ _
    | assumption
    | dsimp only
    | with_reducible refine Answers.next ?_
    | with_reducible apply Only.next (fma_only _ _ _ _ _ _ _ _)

theorem execFms_only (n : QNum) (d a b c : Reg) (f : Fin 16) (s : State) : Answers [.tcs] s (execFms n d a b c f s) := by
  unfold execFms
  repeat' first
    | (show within _ _ = true; rfl)
    | with_reducible exact Only.refl _ _
    | assumption
    | dsimp only
    | with_reducible refine Answers.next ?_
    | with_reducible apply Only.next (fma_only _ _ _ _ _ _ _ _)

theorem fpPick_only (n d a b m : Nat) (less : F32 → F32 → Bool) (s : State) : Only [.tcs, .free] s (fpPick n d a b m less s) := by
  unfold fpPick
  repeat' first
    | (show within _ _ = true; rfl)
    | with_reducible exact Only.refl _ _
    | assumption
    | dsimp only
    | with_reducible apply issue_then
    | with_reducible apply Only.next (takeFree_only _)
    | with_reducible apply Only.next (result_only _ _ _ _)
    | with_reducible apply Only.next (addFpf_only _ _ _)
    | with_reducible refine Only.ite ?_ ?_
    | with_reducible refine Only.ite_fst ?_ ?_
    | with_reducible refine Only.ite_snd ?_ ?_
    | split
    | intro _

theorem execFmin_only (n : QNum) (d a b : Reg) (f : Fin 16) (s : State) : Answers [.tcs, .free] s (execFmin n d a b f s) := by
  unfold execFmin
  repeat' first
    | (show within _ _ = true; rfl)
    | with_reducible exact Only.refl _ _
    | assumption
    | dsimp only
    | with_reducible refine Answers.next ?_
    | with_reducible apply Only.next (fpPick_only _ _ _ _ _ _ _)

theorem execFmax_only (n : QNum) (d a b : Reg) (f : Fin 16) (s : State) : Answers [.tcs, .free] s (execFmax n d a b f s) := by
  unfold execFmax
  repeat' first
    | (show within _ _ = true; rfl)
    | with_reducible exact Only.refl _ _
    | assumption
    | dsimp only
    | with_reducible refine Answers.next ?_
    | with_reducible apply Only.next (fpPick_only _ _ _ _ _ _ _)

theorem execFabs_only (n : QNum) (d a : Reg) (f : Fin 16) (s : State) : Answers [.tcs] s (execFabs n d a f s) := by
  unfold execFabs
  repeat' first
    | (show within _ _ = true; rfl)
    | with_reducible exact Only.refl _ _
    | assumption
    | dsimp only
    | with_reducible refine Answers.next ?_
    | with_reducible apply Only.next (fpLanes_only _ _ _ _ _)

theorem execFneg_only (n : QNum) (d a : Reg) (f : Fin 16) (s : State) : Answers [.tcs] s (execFneg n d a f s) := by
  unfold execFneg
  repeat' first
    | (show within _ _ = true; rfl)
    | with_reducible exact Only.refl _ _
    | assumption
    | dsimp only
    | with_reducible refine Answers.next ?_
    | with_reducible apply Only.next (fpLanes_only _ _ _ _ _)

theorem execFcmp_only (n : QNum) (d a b : Reg) (f : Fin 16) (s : State) : Answers [.tcs, .free] s (execFcmp n d a b f s) := by
  unfold execFcmp
  repeat' first
    | (show within _ _ = true; rfl)
    | with_reducible exact Only.refl _ _
    | assumption
    | dsimp only
    | with_reducible refine Answers.next ?_
    | with_reducible apply issue_then
    | with_reducible apply Only.next (cmpLanes_only _ _ _ _ _)
    | with_reducible apply Only.next (addFpf_only _ _ _)
    | with_reducible refine Only.ite ?_ ?_
    | with_reducible refine Answers.ite ?_ ?_
    | split
    | intro _

theorem execCvtif_only (n : QNum) (d a : Reg) (f : Fin 16) (s : State) : Answers [.tcs] s (execCvtif n d a f s) := by
  unfold execCvtif
  repeat' first
    | (show within _ _ = true; rfl)
    | with_reducible exact Only.refl _ _
    | assumption
    | dsimp only
    | with_reducible refine Answers.next ?_
    | with_reducible apply Only.next (fpLanes_only _ _ _ _ _)

theorem execCvtfi_only (n : QNum) (d a : Reg) (f : Fin 16) (s : State) : Answers [.tcs] s (execCvtfi n d a f s) := by
  unfold execCvtfi
  repeat' first
    | (show within _ _ = true; rfl)
    | with_reducible exact Only.refl _ _
    | assumption
    | dsimp only
    | with_reducible refine Answers.next ?_
    | with_reducible apply Only.next (fpOp_only _ _ _ _ _ _ _)

theorem execHadd_only (n : QNum) (d a : Reg) (s : State) : Answers [.tcs] s (execHadd n d a s) := by
  unfold execHadd
  repeat' first
    | (show within _ _ = true; rfl)
    | with_reducible exact Only.refl _ _
    | assumption
    | dsimp only
    | with_reducible refine Answers.next ?_
    | with_reducible apply issue_then
    | with_reducible apply Only.next (result_only _ _ _ _)
    | with_reducible apply Only.next (addFpf_only _ _ _)
    | split
    | intro _


end Sys2Proof.Machine
end

