-- ==== Sys2Proof/Laws/State.lean ====
section
/-! SUPPORT. One lemma for each field of State under each update of a field. -/

namespace Sys2Proof.Machine

variable (s : State)

@[simp] theorem State.modPending_pending (f : List Instr → List Instr) : (s.modPending f).pending = f s.pending := rfl
@[simp] theorem State.modPending_pages (f : List Instr → List Instr) : (s.modPending f).pages = s.pages := rfl
@[simp] theorem State.modPending_rf (f : List Instr → List Instr) : (s.modPending f).rf = s.rf := rfl
@[simp] theorem State.modPending_mem (f : List Instr → List Instr) : (s.modPending f).mem = s.mem := rfl
@[simp] theorem State.modPending_fuse (f : List Instr → List Instr) : (s.modPending f).fuse = s.fuse := rfl
@[simp] theorem State.modPending_fab (f : List Instr → List Instr) : (s.modPending f).fab = s.fab := rfl
@[simp] theorem State.modPending_pln (f : List Instr → List Instr) : (s.modPending f).pln = s.pln := rfl
@[simp] theorem State.modPending_tim (f : List Instr → List Instr) : (s.modPending f).tim = s.tim := rfl
@[simp] theorem State.modPending_srv (f : List Instr → List Instr) : (s.modPending f).srv = s.srv := rfl
@[simp] theorem State.modPending_lanes (f : List Instr → List Instr) : (s.modPending f).lanes = s.lanes := rfl
@[simp] theorem State.modPending_lsh (f : List Instr → List Instr) : (s.modPending f).lsh = s.lsh := rfl
@[simp] theorem State.modPending_del (f : List Instr → List Instr) : (s.modPending f).del = s.del := rfl
@[simp] theorem State.modPending_ques (f : List Instr → List Instr) : (s.modPending f).ques = s.ques := rfl
@[simp] theorem State.modPending_pci (f : List Instr → List Instr) : (s.modPending f).pci = s.pci := rfl
@[simp] theorem State.modPending_fsp (f : List Instr → List Instr) : (s.modPending f).fsp = s.fsp := rfl
@[simp] theorem State.modPending_tcs (f : List Instr → List Instr) : (s.modPending f).tcs = s.tcs := rfl
@[simp] theorem State.modPending_svc (f : List Instr → List Instr) : (s.modPending f).svc = s.svc := rfl
@[simp] theorem State.modPending_fwl (f : List Instr → List Instr) : (s.modPending f).fwl = s.fwl := rfl
@[simp] theorem State.modPending_bst (f : List Instr → List Instr) : (s.modPending f).bst = s.bst := rfl
@[simp] theorem State.modPending_pwr (f : List Instr → List Instr) : (s.modPending f).pwr = s.pwr := rfl
@[simp] theorem State.modPending_chans (f : List Instr → List Instr) : (s.modPending f).chans = s.chans := rfl
@[simp] theorem State.modPending_grps (f : List Instr → List Instr) : (s.modPending f).grps = s.grps := rfl
@[simp] theorem State.modPending_lins (f : List Instr → List Instr) : (s.modPending f).lins = s.lins := rfl
@[simp] theorem State.modPending_ana (f : List Instr → List Instr) : (s.modPending f).ana = s.ana := rfl
@[simp] theorem State.modPending_free (f : List Instr → List Instr) : (s.modPending f).free = s.free := rfl
@[simp] theorem State.modPending_outbox (f : List Instr → List Instr) : (s.modPending f).outbox = s.outbox := rfl
@[simp] theorem State.modPages_pending (f : FMap Page → FMap Page) : (s.modPages f).pending = s.pending := rfl
@[simp] theorem State.modPages_pages (f : FMap Page → FMap Page) : (s.modPages f).pages = f s.pages := rfl
@[simp] theorem State.modPages_rf (f : FMap Page → FMap Page) : (s.modPages f).rf = s.rf := rfl
@[simp] theorem State.modPages_mem (f : FMap Page → FMap Page) : (s.modPages f).mem = s.mem := rfl
@[simp] theorem State.modPages_fuse (f : FMap Page → FMap Page) : (s.modPages f).fuse = s.fuse := rfl
@[simp] theorem State.modPages_fab (f : FMap Page → FMap Page) : (s.modPages f).fab = s.fab := rfl
@[simp] theorem State.modPages_pln (f : FMap Page → FMap Page) : (s.modPages f).pln = s.pln := rfl
@[simp] theorem State.modPages_tim (f : FMap Page → FMap Page) : (s.modPages f).tim = s.tim := rfl
@[simp] theorem State.modPages_srv (f : FMap Page → FMap Page) : (s.modPages f).srv = s.srv := rfl
@[simp] theorem State.modPages_lanes (f : FMap Page → FMap Page) : (s.modPages f).lanes = s.lanes := rfl
@[simp] theorem State.modPages_lsh (f : FMap Page → FMap Page) : (s.modPages f).lsh = s.lsh := rfl
@[simp] theorem State.modPages_del (f : FMap Page → FMap Page) : (s.modPages f).del = s.del := rfl
@[simp] theorem State.modPages_ques (f : FMap Page → FMap Page) : (s.modPages f).ques = s.ques := rfl
@[simp] theorem State.modPages_pci (f : FMap Page → FMap Page) : (s.modPages f).pci = s.pci := rfl
@[simp] theorem State.modPages_fsp (f : FMap Page → FMap Page) : (s.modPages f).fsp = s.fsp := rfl
@[simp] theorem State.modPages_tcs (f : FMap Page → FMap Page) : (s.modPages f).tcs = s.tcs := rfl
@[simp] theorem State.modPages_svc (f : FMap Page → FMap Page) : (s.modPages f).svc = s.svc := rfl
@[simp] theorem State.modPages_fwl (f : FMap Page → FMap Page) : (s.modPages f).fwl = s.fwl := rfl
@[simp] theorem State.modPages_bst (f : FMap Page → FMap Page) : (s.modPages f).bst = s.bst := rfl
@[simp] theorem State.modPages_pwr (f : FMap Page → FMap Page) : (s.modPages f).pwr = s.pwr := rfl
@[simp] theorem State.modPages_chans (f : FMap Page → FMap Page) : (s.modPages f).chans = s.chans := rfl
@[simp] theorem State.modPages_grps (f : FMap Page → FMap Page) : (s.modPages f).grps = s.grps := rfl
@[simp] theorem State.modPages_lins (f : FMap Page → FMap Page) : (s.modPages f).lins = s.lins := rfl
@[simp] theorem State.modPages_ana (f : FMap Page → FMap Page) : (s.modPages f).ana = s.ana := rfl
@[simp] theorem State.modPages_free (f : FMap Page → FMap Page) : (s.modPages f).free = s.free := rfl
@[simp] theorem State.modPages_outbox (f : FMap Page → FMap Page) : (s.modPages f).outbox = s.outbox := rfl
@[simp] theorem State.modRf_pending (f : FMap Word → FMap Word) : (s.modRf f).pending = s.pending := rfl
@[simp] theorem State.modRf_pages (f : FMap Word → FMap Word) : (s.modRf f).pages = s.pages := rfl
@[simp] theorem State.modRf_rf (f : FMap Word → FMap Word) : (s.modRf f).rf = f s.rf := rfl
@[simp] theorem State.modRf_mem (f : FMap Word → FMap Word) : (s.modRf f).mem = s.mem := rfl
@[simp] theorem State.modRf_fuse (f : FMap Word → FMap Word) : (s.modRf f).fuse = s.fuse := rfl
@[simp] theorem State.modRf_fab (f : FMap Word → FMap Word) : (s.modRf f).fab = s.fab := rfl
@[simp] theorem State.modRf_pln (f : FMap Word → FMap Word) : (s.modRf f).pln = s.pln := rfl
@[simp] theorem State.modRf_tim (f : FMap Word → FMap Word) : (s.modRf f).tim = s.tim := rfl
@[simp] theorem State.modRf_srv (f : FMap Word → FMap Word) : (s.modRf f).srv = s.srv := rfl
@[simp] theorem State.modRf_lanes (f : FMap Word → FMap Word) : (s.modRf f).lanes = s.lanes := rfl
@[simp] theorem State.modRf_lsh (f : FMap Word → FMap Word) : (s.modRf f).lsh = s.lsh := rfl
@[simp] theorem State.modRf_del (f : FMap Word → FMap Word) : (s.modRf f).del = s.del := rfl
@[simp] theorem State.modRf_ques (f : FMap Word → FMap Word) : (s.modRf f).ques = s.ques := rfl
@[simp] theorem State.modRf_pci (f : FMap Word → FMap Word) : (s.modRf f).pci = s.pci := rfl
@[simp] theorem State.modRf_fsp (f : FMap Word → FMap Word) : (s.modRf f).fsp = s.fsp := rfl
@[simp] theorem State.modRf_tcs (f : FMap Word → FMap Word) : (s.modRf f).tcs = s.tcs := rfl
@[simp] theorem State.modRf_svc (f : FMap Word → FMap Word) : (s.modRf f).svc = s.svc := rfl
@[simp] theorem State.modRf_fwl (f : FMap Word → FMap Word) : (s.modRf f).fwl = s.fwl := rfl
@[simp] theorem State.modRf_bst (f : FMap Word → FMap Word) : (s.modRf f).bst = s.bst := rfl
@[simp] theorem State.modRf_pwr (f : FMap Word → FMap Word) : (s.modRf f).pwr = s.pwr := rfl
@[simp] theorem State.modRf_chans (f : FMap Word → FMap Word) : (s.modRf f).chans = s.chans := rfl
@[simp] theorem State.modRf_grps (f : FMap Word → FMap Word) : (s.modRf f).grps = s.grps := rfl
@[simp] theorem State.modRf_lins (f : FMap Word → FMap Word) : (s.modRf f).lins = s.lins := rfl
@[simp] theorem State.modRf_ana (f : FMap Word → FMap Word) : (s.modRf f).ana = s.ana := rfl
@[simp] theorem State.modRf_free (f : FMap Word → FMap Word) : (s.modRf f).free = s.free := rfl
@[simp] theorem State.modRf_outbox (f : FMap Word → FMap Word) : (s.modRf f).outbox = s.outbox := rfl
@[simp] theorem State.modMem_pending (f : FMap Byte → FMap Byte) : (s.modMem f).pending = s.pending := rfl
@[simp] theorem State.modMem_pages (f : FMap Byte → FMap Byte) : (s.modMem f).pages = s.pages := rfl
@[simp] theorem State.modMem_rf (f : FMap Byte → FMap Byte) : (s.modMem f).rf = s.rf := rfl
@[simp] theorem State.modMem_mem (f : FMap Byte → FMap Byte) : (s.modMem f).mem = f s.mem := rfl
@[simp] theorem State.modMem_fuse (f : FMap Byte → FMap Byte) : (s.modMem f).fuse = s.fuse := rfl
@[simp] theorem State.modMem_fab (f : FMap Byte → FMap Byte) : (s.modMem f).fab = s.fab := rfl
@[simp] theorem State.modMem_pln (f : FMap Byte → FMap Byte) : (s.modMem f).pln = s.pln := rfl
@[simp] theorem State.modMem_tim (f : FMap Byte → FMap Byte) : (s.modMem f).tim = s.tim := rfl
@[simp] theorem State.modMem_srv (f : FMap Byte → FMap Byte) : (s.modMem f).srv = s.srv := rfl
@[simp] theorem State.modMem_lanes (f : FMap Byte → FMap Byte) : (s.modMem f).lanes = s.lanes := rfl
@[simp] theorem State.modMem_lsh (f : FMap Byte → FMap Byte) : (s.modMem f).lsh = s.lsh := rfl
@[simp] theorem State.modMem_del (f : FMap Byte → FMap Byte) : (s.modMem f).del = s.del := rfl
@[simp] theorem State.modMem_ques (f : FMap Byte → FMap Byte) : (s.modMem f).ques = s.ques := rfl
@[simp] theorem State.modMem_pci (f : FMap Byte → FMap Byte) : (s.modMem f).pci = s.pci := rfl
@[simp] theorem State.modMem_fsp (f : FMap Byte → FMap Byte) : (s.modMem f).fsp = s.fsp := rfl
@[simp] theorem State.modMem_tcs (f : FMap Byte → FMap Byte) : (s.modMem f).tcs = s.tcs := rfl
@[simp] theorem State.modMem_svc (f : FMap Byte → FMap Byte) : (s.modMem f).svc = s.svc := rfl
@[simp] theorem State.modMem_fwl (f : FMap Byte → FMap Byte) : (s.modMem f).fwl = s.fwl := rfl
@[simp] theorem State.modMem_bst (f : FMap Byte → FMap Byte) : (s.modMem f).bst = s.bst := rfl
@[simp] theorem State.modMem_pwr (f : FMap Byte → FMap Byte) : (s.modMem f).pwr = s.pwr := rfl
@[simp] theorem State.modMem_chans (f : FMap Byte → FMap Byte) : (s.modMem f).chans = s.chans := rfl
@[simp] theorem State.modMem_grps (f : FMap Byte → FMap Byte) : (s.modMem f).grps = s.grps := rfl
@[simp] theorem State.modMem_lins (f : FMap Byte → FMap Byte) : (s.modMem f).lins = s.lins := rfl
@[simp] theorem State.modMem_ana (f : FMap Byte → FMap Byte) : (s.modMem f).ana = s.ana := rfl
@[simp] theorem State.modMem_free (f : FMap Byte → FMap Byte) : (s.modMem f).free = s.free := rfl
@[simp] theorem State.modMem_outbox (f : FMap Byte → FMap Byte) : (s.modMem f).outbox = s.outbox := rfl
@[simp] theorem State.modFuse_pending (f : Fuse → Fuse) : (s.modFuse f).pending = s.pending := rfl
@[simp] theorem State.modFuse_pages (f : Fuse → Fuse) : (s.modFuse f).pages = s.pages := rfl
@[simp] theorem State.modFuse_rf (f : Fuse → Fuse) : (s.modFuse f).rf = s.rf := rfl
@[simp] theorem State.modFuse_mem (f : Fuse → Fuse) : (s.modFuse f).mem = s.mem := rfl
@[simp] theorem State.modFuse_fuse (f : Fuse → Fuse) : (s.modFuse f).fuse = f s.fuse := rfl
@[simp] theorem State.modFuse_fab (f : Fuse → Fuse) : (s.modFuse f).fab = s.fab := rfl
@[simp] theorem State.modFuse_pln (f : Fuse → Fuse) : (s.modFuse f).pln = s.pln := rfl
@[simp] theorem State.modFuse_tim (f : Fuse → Fuse) : (s.modFuse f).tim = s.tim := rfl
@[simp] theorem State.modFuse_srv (f : Fuse → Fuse) : (s.modFuse f).srv = s.srv := rfl
@[simp] theorem State.modFuse_lanes (f : Fuse → Fuse) : (s.modFuse f).lanes = s.lanes := rfl
@[simp] theorem State.modFuse_lsh (f : Fuse → Fuse) : (s.modFuse f).lsh = s.lsh := rfl
@[simp] theorem State.modFuse_del (f : Fuse → Fuse) : (s.modFuse f).del = s.del := rfl
@[simp] theorem State.modFuse_ques (f : Fuse → Fuse) : (s.modFuse f).ques = s.ques := rfl
@[simp] theorem State.modFuse_pci (f : Fuse → Fuse) : (s.modFuse f).pci = s.pci := rfl
@[simp] theorem State.modFuse_fsp (f : Fuse → Fuse) : (s.modFuse f).fsp = s.fsp := rfl
@[simp] theorem State.modFuse_tcs (f : Fuse → Fuse) : (s.modFuse f).tcs = s.tcs := rfl
@[simp] theorem State.modFuse_svc (f : Fuse → Fuse) : (s.modFuse f).svc = s.svc := rfl
@[simp] theorem State.modFuse_fwl (f : Fuse → Fuse) : (s.modFuse f).fwl = s.fwl := rfl
@[simp] theorem State.modFuse_bst (f : Fuse → Fuse) : (s.modFuse f).bst = s.bst := rfl
@[simp] theorem State.modFuse_pwr (f : Fuse → Fuse) : (s.modFuse f).pwr = s.pwr := rfl
@[simp] theorem State.modFuse_chans (f : Fuse → Fuse) : (s.modFuse f).chans = s.chans := rfl
@[simp] theorem State.modFuse_grps (f : Fuse → Fuse) : (s.modFuse f).grps = s.grps := rfl
@[simp] theorem State.modFuse_lins (f : Fuse → Fuse) : (s.modFuse f).lins = s.lins := rfl
@[simp] theorem State.modFuse_ana (f : Fuse → Fuse) : (s.modFuse f).ana = s.ana := rfl
@[simp] theorem State.modFuse_free (f : Fuse → Fuse) : (s.modFuse f).free = s.free := rfl
@[simp] theorem State.modFuse_outbox (f : Fuse → Fuse) : (s.modFuse f).outbox = s.outbox := rfl
@[simp] theorem State.modFab_pending (f : Fab → Fab) : (s.modFab f).pending = s.pending := rfl
@[simp] theorem State.modFab_pages (f : Fab → Fab) : (s.modFab f).pages = s.pages := rfl
@[simp] theorem State.modFab_rf (f : Fab → Fab) : (s.modFab f).rf = s.rf := rfl
@[simp] theorem State.modFab_mem (f : Fab → Fab) : (s.modFab f).mem = s.mem := rfl
@[simp] theorem State.modFab_fuse (f : Fab → Fab) : (s.modFab f).fuse = s.fuse := rfl
@[simp] theorem State.modFab_fab (f : Fab → Fab) : (s.modFab f).fab = f s.fab := rfl
@[simp] theorem State.modFab_pln (f : Fab → Fab) : (s.modFab f).pln = s.pln := rfl
@[simp] theorem State.modFab_tim (f : Fab → Fab) : (s.modFab f).tim = s.tim := rfl
@[simp] theorem State.modFab_srv (f : Fab → Fab) : (s.modFab f).srv = s.srv := rfl
@[simp] theorem State.modFab_lanes (f : Fab → Fab) : (s.modFab f).lanes = s.lanes := rfl
@[simp] theorem State.modFab_lsh (f : Fab → Fab) : (s.modFab f).lsh = s.lsh := rfl
@[simp] theorem State.modFab_del (f : Fab → Fab) : (s.modFab f).del = s.del := rfl
@[simp] theorem State.modFab_ques (f : Fab → Fab) : (s.modFab f).ques = s.ques := rfl
@[simp] theorem State.modFab_pci (f : Fab → Fab) : (s.modFab f).pci = s.pci := rfl
@[simp] theorem State.modFab_fsp (f : Fab → Fab) : (s.modFab f).fsp = s.fsp := rfl
@[simp] theorem State.modFab_tcs (f : Fab → Fab) : (s.modFab f).tcs = s.tcs := rfl
@[simp] theorem State.modFab_svc (f : Fab → Fab) : (s.modFab f).svc = s.svc := rfl
@[simp] theorem State.modFab_fwl (f : Fab → Fab) : (s.modFab f).fwl = s.fwl := rfl
@[simp] theorem State.modFab_bst (f : Fab → Fab) : (s.modFab f).bst = s.bst := rfl
@[simp] theorem State.modFab_pwr (f : Fab → Fab) : (s.modFab f).pwr = s.pwr := rfl
@[simp] theorem State.modFab_chans (f : Fab → Fab) : (s.modFab f).chans = s.chans := rfl
@[simp] theorem State.modFab_grps (f : Fab → Fab) : (s.modFab f).grps = s.grps := rfl
@[simp] theorem State.modFab_lins (f : Fab → Fab) : (s.modFab f).lins = s.lins := rfl
@[simp] theorem State.modFab_ana (f : Fab → Fab) : (s.modFab f).ana = s.ana := rfl
@[simp] theorem State.modFab_free (f : Fab → Fab) : (s.modFab f).free = s.free := rfl
@[simp] theorem State.modFab_outbox (f : Fab → Fab) : (s.modFab f).outbox = s.outbox := rfl
@[simp] theorem State.modPln_pending (f : Pln → Pln) : (s.modPln f).pending = s.pending := rfl
@[simp] theorem State.modPln_pages (f : Pln → Pln) : (s.modPln f).pages = s.pages := rfl
@[simp] theorem State.modPln_rf (f : Pln → Pln) : (s.modPln f).rf = s.rf := rfl
@[simp] theorem State.modPln_mem (f : Pln → Pln) : (s.modPln f).mem = s.mem := rfl
@[simp] theorem State.modPln_fuse (f : Pln → Pln) : (s.modPln f).fuse = s.fuse := rfl
@[simp] theorem State.modPln_fab (f : Pln → Pln) : (s.modPln f).fab = s.fab := rfl
@[simp] theorem State.modPln_pln (f : Pln → Pln) : (s.modPln f).pln = f s.pln := rfl
@[simp] theorem State.modPln_tim (f : Pln → Pln) : (s.modPln f).tim = s.tim := rfl
@[simp] theorem State.modPln_srv (f : Pln → Pln) : (s.modPln f).srv = s.srv := rfl
@[simp] theorem State.modPln_lanes (f : Pln → Pln) : (s.modPln f).lanes = s.lanes := rfl
@[simp] theorem State.modPln_lsh (f : Pln → Pln) : (s.modPln f).lsh = s.lsh := rfl
@[simp] theorem State.modPln_del (f : Pln → Pln) : (s.modPln f).del = s.del := rfl
@[simp] theorem State.modPln_ques (f : Pln → Pln) : (s.modPln f).ques = s.ques := rfl
@[simp] theorem State.modPln_pci (f : Pln → Pln) : (s.modPln f).pci = s.pci := rfl
@[simp] theorem State.modPln_fsp (f : Pln → Pln) : (s.modPln f).fsp = s.fsp := rfl
@[simp] theorem State.modPln_tcs (f : Pln → Pln) : (s.modPln f).tcs = s.tcs := rfl
@[simp] theorem State.modPln_svc (f : Pln → Pln) : (s.modPln f).svc = s.svc := rfl
@[simp] theorem State.modPln_fwl (f : Pln → Pln) : (s.modPln f).fwl = s.fwl := rfl
@[simp] theorem State.modPln_bst (f : Pln → Pln) : (s.modPln f).bst = s.bst := rfl
@[simp] theorem State.modPln_pwr (f : Pln → Pln) : (s.modPln f).pwr = s.pwr := rfl
@[simp] theorem State.modPln_chans (f : Pln → Pln) : (s.modPln f).chans = s.chans := rfl
@[simp] theorem State.modPln_grps (f : Pln → Pln) : (s.modPln f).grps = s.grps := rfl
@[simp] theorem State.modPln_lins (f : Pln → Pln) : (s.modPln f).lins = s.lins := rfl
@[simp] theorem State.modPln_ana (f : Pln → Pln) : (s.modPln f).ana = s.ana := rfl
@[simp] theorem State.modPln_free (f : Pln → Pln) : (s.modPln f).free = s.free := rfl
@[simp] theorem State.modPln_outbox (f : Pln → Pln) : (s.modPln f).outbox = s.outbox := rfl
@[simp] theorem State.modTim_pending (f : Tim → Tim) : (s.modTim f).pending = s.pending := rfl
@[simp] theorem State.modTim_pages (f : Tim → Tim) : (s.modTim f).pages = s.pages := rfl
@[simp] theorem State.modTim_rf (f : Tim → Tim) : (s.modTim f).rf = s.rf := rfl
@[simp] theorem State.modTim_mem (f : Tim → Tim) : (s.modTim f).mem = s.mem := rfl
@[simp] theorem State.modTim_fuse (f : Tim → Tim) : (s.modTim f).fuse = s.fuse := rfl
@[simp] theorem State.modTim_fab (f : Tim → Tim) : (s.modTim f).fab = s.fab := rfl
@[simp] theorem State.modTim_pln (f : Tim → Tim) : (s.modTim f).pln = s.pln := rfl
@[simp] theorem State.modTim_tim (f : Tim → Tim) : (s.modTim f).tim = f s.tim := rfl
@[simp] theorem State.modTim_srv (f : Tim → Tim) : (s.modTim f).srv = s.srv := rfl
@[simp] theorem State.modTim_lanes (f : Tim → Tim) : (s.modTim f).lanes = s.lanes := rfl
@[simp] theorem State.modTim_lsh (f : Tim → Tim) : (s.modTim f).lsh = s.lsh := rfl
@[simp] theorem State.modTim_del (f : Tim → Tim) : (s.modTim f).del = s.del := rfl
@[simp] theorem State.modTim_ques (f : Tim → Tim) : (s.modTim f).ques = s.ques := rfl
@[simp] theorem State.modTim_pci (f : Tim → Tim) : (s.modTim f).pci = s.pci := rfl
@[simp] theorem State.modTim_fsp (f : Tim → Tim) : (s.modTim f).fsp = s.fsp := rfl
@[simp] theorem State.modTim_tcs (f : Tim → Tim) : (s.modTim f).tcs = s.tcs := rfl
@[simp] theorem State.modTim_svc (f : Tim → Tim) : (s.modTim f).svc = s.svc := rfl
@[simp] theorem State.modTim_fwl (f : Tim → Tim) : (s.modTim f).fwl = s.fwl := rfl
@[simp] theorem State.modTim_bst (f : Tim → Tim) : (s.modTim f).bst = s.bst := rfl
@[simp] theorem State.modTim_pwr (f : Tim → Tim) : (s.modTim f).pwr = s.pwr := rfl
@[simp] theorem State.modTim_chans (f : Tim → Tim) : (s.modTim f).chans = s.chans := rfl
@[simp] theorem State.modTim_grps (f : Tim → Tim) : (s.modTim f).grps = s.grps := rfl
@[simp] theorem State.modTim_lins (f : Tim → Tim) : (s.modTim f).lins = s.lins := rfl
@[simp] theorem State.modTim_ana (f : Tim → Tim) : (s.modTim f).ana = s.ana := rfl
@[simp] theorem State.modTim_free (f : Tim → Tim) : (s.modTim f).free = s.free := rfl
@[simp] theorem State.modTim_outbox (f : Tim → Tim) : (s.modTim f).outbox = s.outbox := rfl
@[simp] theorem State.modSrv_pending (f : Srv → Srv) : (s.modSrv f).pending = s.pending := rfl
@[simp] theorem State.modSrv_pages (f : Srv → Srv) : (s.modSrv f).pages = s.pages := rfl
@[simp] theorem State.modSrv_rf (f : Srv → Srv) : (s.modSrv f).rf = s.rf := rfl
@[simp] theorem State.modSrv_mem (f : Srv → Srv) : (s.modSrv f).mem = s.mem := rfl
@[simp] theorem State.modSrv_fuse (f : Srv → Srv) : (s.modSrv f).fuse = s.fuse := rfl
@[simp] theorem State.modSrv_fab (f : Srv → Srv) : (s.modSrv f).fab = s.fab := rfl
@[simp] theorem State.modSrv_pln (f : Srv → Srv) : (s.modSrv f).pln = s.pln := rfl
@[simp] theorem State.modSrv_tim (f : Srv → Srv) : (s.modSrv f).tim = s.tim := rfl
@[simp] theorem State.modSrv_srv (f : Srv → Srv) : (s.modSrv f).srv = f s.srv := rfl
@[simp] theorem State.modSrv_lanes (f : Srv → Srv) : (s.modSrv f).lanes = s.lanes := rfl
@[simp] theorem State.modSrv_lsh (f : Srv → Srv) : (s.modSrv f).lsh = s.lsh := rfl
@[simp] theorem State.modSrv_del (f : Srv → Srv) : (s.modSrv f).del = s.del := rfl
@[simp] theorem State.modSrv_ques (f : Srv → Srv) : (s.modSrv f).ques = s.ques := rfl
@[simp] theorem State.modSrv_pci (f : Srv → Srv) : (s.modSrv f).pci = s.pci := rfl
@[simp] theorem State.modSrv_fsp (f : Srv → Srv) : (s.modSrv f).fsp = s.fsp := rfl
@[simp] theorem State.modSrv_tcs (f : Srv → Srv) : (s.modSrv f).tcs = s.tcs := rfl
@[simp] theorem State.modSrv_svc (f : Srv → Srv) : (s.modSrv f).svc = s.svc := rfl
@[simp] theorem State.modSrv_fwl (f : Srv → Srv) : (s.modSrv f).fwl = s.fwl := rfl
@[simp] theorem State.modSrv_bst (f : Srv → Srv) : (s.modSrv f).bst = s.bst := rfl
@[simp] theorem State.modSrv_pwr (f : Srv → Srv) : (s.modSrv f).pwr = s.pwr := rfl
@[simp] theorem State.modSrv_chans (f : Srv → Srv) : (s.modSrv f).chans = s.chans := rfl
@[simp] theorem State.modSrv_grps (f : Srv → Srv) : (s.modSrv f).grps = s.grps := rfl
@[simp] theorem State.modSrv_lins (f : Srv → Srv) : (s.modSrv f).lins = s.lins := rfl
@[simp] theorem State.modSrv_ana (f : Srv → Srv) : (s.modSrv f).ana = s.ana := rfl
@[simp] theorem State.modSrv_free (f : Srv → Srv) : (s.modSrv f).free = s.free := rfl
@[simp] theorem State.modSrv_outbox (f : Srv → Srv) : (s.modSrv f).outbox = s.outbox := rfl
@[simp] theorem State.modLanes_pending (f : FMap Lane → FMap Lane) : (s.modLanes f).pending = s.pending := rfl
@[simp] theorem State.modLanes_pages (f : FMap Lane → FMap Lane) : (s.modLanes f).pages = s.pages := rfl
@[simp] theorem State.modLanes_rf (f : FMap Lane → FMap Lane) : (s.modLanes f).rf = s.rf := rfl
@[simp] theorem State.modLanes_mem (f : FMap Lane → FMap Lane) : (s.modLanes f).mem = s.mem := rfl
@[simp] theorem State.modLanes_fuse (f : FMap Lane → FMap Lane) : (s.modLanes f).fuse = s.fuse := rfl
@[simp] theorem State.modLanes_fab (f : FMap Lane → FMap Lane) : (s.modLanes f).fab = s.fab := rfl
@[simp] theorem State.modLanes_pln (f : FMap Lane → FMap Lane) : (s.modLanes f).pln = s.pln := rfl
@[simp] theorem State.modLanes_tim (f : FMap Lane → FMap Lane) : (s.modLanes f).tim = s.tim := rfl
@[simp] theorem State.modLanes_srv (f : FMap Lane → FMap Lane) : (s.modLanes f).srv = s.srv := rfl
@[simp] theorem State.modLanes_lanes (f : FMap Lane → FMap Lane) : (s.modLanes f).lanes = f s.lanes := rfl
@[simp] theorem State.modLanes_lsh (f : FMap Lane → FMap Lane) : (s.modLanes f).lsh = s.lsh := rfl
@[simp] theorem State.modLanes_del (f : FMap Lane → FMap Lane) : (s.modLanes f).del = s.del := rfl
@[simp] theorem State.modLanes_ques (f : FMap Lane → FMap Lane) : (s.modLanes f).ques = s.ques := rfl
@[simp] theorem State.modLanes_pci (f : FMap Lane → FMap Lane) : (s.modLanes f).pci = s.pci := rfl
@[simp] theorem State.modLanes_fsp (f : FMap Lane → FMap Lane) : (s.modLanes f).fsp = s.fsp := rfl
@[simp] theorem State.modLanes_tcs (f : FMap Lane → FMap Lane) : (s.modLanes f).tcs = s.tcs := rfl
@[simp] theorem State.modLanes_svc (f : FMap Lane → FMap Lane) : (s.modLanes f).svc = s.svc := rfl
@[simp] theorem State.modLanes_fwl (f : FMap Lane → FMap Lane) : (s.modLanes f).fwl = s.fwl := rfl
@[simp] theorem State.modLanes_bst (f : FMap Lane → FMap Lane) : (s.modLanes f).bst = s.bst := rfl
@[simp] theorem State.modLanes_pwr (f : FMap Lane → FMap Lane) : (s.modLanes f).pwr = s.pwr := rfl
@[simp] theorem State.modLanes_chans (f : FMap Lane → FMap Lane) : (s.modLanes f).chans = s.chans := rfl
@[simp] theorem State.modLanes_grps (f : FMap Lane → FMap Lane) : (s.modLanes f).grps = s.grps := rfl
@[simp] theorem State.modLanes_lins (f : FMap Lane → FMap Lane) : (s.modLanes f).lins = s.lins := rfl
@[simp] theorem State.modLanes_ana (f : FMap Lane → FMap Lane) : (s.modLanes f).ana = s.ana := rfl
@[simp] theorem State.modLanes_free (f : FMap Lane → FMap Lane) : (s.modLanes f).free = s.free := rfl
@[simp] theorem State.modLanes_outbox (f : FMap Lane → FMap Lane) : (s.modLanes f).outbox = s.outbox := rfl
@[simp] theorem State.modLsh_pending (f : Lsh → Lsh) : (s.modLsh f).pending = s.pending := rfl
@[simp] theorem State.modLsh_pages (f : Lsh → Lsh) : (s.modLsh f).pages = s.pages := rfl
@[simp] theorem State.modLsh_rf (f : Lsh → Lsh) : (s.modLsh f).rf = s.rf := rfl
@[simp] theorem State.modLsh_mem (f : Lsh → Lsh) : (s.modLsh f).mem = s.mem := rfl
@[simp] theorem State.modLsh_fuse (f : Lsh → Lsh) : (s.modLsh f).fuse = s.fuse := rfl
@[simp] theorem State.modLsh_fab (f : Lsh → Lsh) : (s.modLsh f).fab = s.fab := rfl
@[simp] theorem State.modLsh_pln (f : Lsh → Lsh) : (s.modLsh f).pln = s.pln := rfl
@[simp] theorem State.modLsh_tim (f : Lsh → Lsh) : (s.modLsh f).tim = s.tim := rfl
@[simp] theorem State.modLsh_srv (f : Lsh → Lsh) : (s.modLsh f).srv = s.srv := rfl
@[simp] theorem State.modLsh_lanes (f : Lsh → Lsh) : (s.modLsh f).lanes = s.lanes := rfl
@[simp] theorem State.modLsh_lsh (f : Lsh → Lsh) : (s.modLsh f).lsh = f s.lsh := rfl
@[simp] theorem State.modLsh_del (f : Lsh → Lsh) : (s.modLsh f).del = s.del := rfl
@[simp] theorem State.modLsh_ques (f : Lsh → Lsh) : (s.modLsh f).ques = s.ques := rfl
@[simp] theorem State.modLsh_pci (f : Lsh → Lsh) : (s.modLsh f).pci = s.pci := rfl
@[simp] theorem State.modLsh_fsp (f : Lsh → Lsh) : (s.modLsh f).fsp = s.fsp := rfl
@[simp] theorem State.modLsh_tcs (f : Lsh → Lsh) : (s.modLsh f).tcs = s.tcs := rfl
@[simp] theorem State.modLsh_svc (f : Lsh → Lsh) : (s.modLsh f).svc = s.svc := rfl
@[simp] theorem State.modLsh_fwl (f : Lsh → Lsh) : (s.modLsh f).fwl = s.fwl := rfl
@[simp] theorem State.modLsh_bst (f : Lsh → Lsh) : (s.modLsh f).bst = s.bst := rfl
@[simp] theorem State.modLsh_pwr (f : Lsh → Lsh) : (s.modLsh f).pwr = s.pwr := rfl
@[simp] theorem State.modLsh_chans (f : Lsh → Lsh) : (s.modLsh f).chans = s.chans := rfl
@[simp] theorem State.modLsh_grps (f : Lsh → Lsh) : (s.modLsh f).grps = s.grps := rfl
@[simp] theorem State.modLsh_lins (f : Lsh → Lsh) : (s.modLsh f).lins = s.lins := rfl
@[simp] theorem State.modLsh_ana (f : Lsh → Lsh) : (s.modLsh f).ana = s.ana := rfl
@[simp] theorem State.modLsh_free (f : Lsh → Lsh) : (s.modLsh f).free = s.free := rfl
@[simp] theorem State.modLsh_outbox (f : Lsh → Lsh) : (s.modLsh f).outbox = s.outbox := rfl
@[simp] theorem State.modDel_pending (f : Del → Del) : (s.modDel f).pending = s.pending := rfl
@[simp] theorem State.modDel_pages (f : Del → Del) : (s.modDel f).pages = s.pages := rfl
@[simp] theorem State.modDel_rf (f : Del → Del) : (s.modDel f).rf = s.rf := rfl
@[simp] theorem State.modDel_mem (f : Del → Del) : (s.modDel f).mem = s.mem := rfl
@[simp] theorem State.modDel_fuse (f : Del → Del) : (s.modDel f).fuse = s.fuse := rfl
@[simp] theorem State.modDel_fab (f : Del → Del) : (s.modDel f).fab = s.fab := rfl
@[simp] theorem State.modDel_pln (f : Del → Del) : (s.modDel f).pln = s.pln := rfl
@[simp] theorem State.modDel_tim (f : Del → Del) : (s.modDel f).tim = s.tim := rfl
@[simp] theorem State.modDel_srv (f : Del → Del) : (s.modDel f).srv = s.srv := rfl
@[simp] theorem State.modDel_lanes (f : Del → Del) : (s.modDel f).lanes = s.lanes := rfl
@[simp] theorem State.modDel_lsh (f : Del → Del) : (s.modDel f).lsh = s.lsh := rfl
@[simp] theorem State.modDel_del (f : Del → Del) : (s.modDel f).del = f s.del := rfl
@[simp] theorem State.modDel_ques (f : Del → Del) : (s.modDel f).ques = s.ques := rfl
@[simp] theorem State.modDel_pci (f : Del → Del) : (s.modDel f).pci = s.pci := rfl
@[simp] theorem State.modDel_fsp (f : Del → Del) : (s.modDel f).fsp = s.fsp := rfl
@[simp] theorem State.modDel_tcs (f : Del → Del) : (s.modDel f).tcs = s.tcs := rfl
@[simp] theorem State.modDel_svc (f : Del → Del) : (s.modDel f).svc = s.svc := rfl
@[simp] theorem State.modDel_fwl (f : Del → Del) : (s.modDel f).fwl = s.fwl := rfl
@[simp] theorem State.modDel_bst (f : Del → Del) : (s.modDel f).bst = s.bst := rfl
@[simp] theorem State.modDel_pwr (f : Del → Del) : (s.modDel f).pwr = s.pwr := rfl
@[simp] theorem State.modDel_chans (f : Del → Del) : (s.modDel f).chans = s.chans := rfl
@[simp] theorem State.modDel_grps (f : Del → Del) : (s.modDel f).grps = s.grps := rfl
@[simp] theorem State.modDel_lins (f : Del → Del) : (s.modDel f).lins = s.lins := rfl
@[simp] theorem State.modDel_ana (f : Del → Del) : (s.modDel f).ana = s.ana := rfl
@[simp] theorem State.modDel_free (f : Del → Del) : (s.modDel f).free = s.free := rfl
@[simp] theorem State.modDel_outbox (f : Del → Del) : (s.modDel f).outbox = s.outbox := rfl
@[simp] theorem State.modQues_pending (f : FMap Que → FMap Que) : (s.modQues f).pending = s.pending := rfl
@[simp] theorem State.modQues_pages (f : FMap Que → FMap Que) : (s.modQues f).pages = s.pages := rfl
@[simp] theorem State.modQues_rf (f : FMap Que → FMap Que) : (s.modQues f).rf = s.rf := rfl
@[simp] theorem State.modQues_mem (f : FMap Que → FMap Que) : (s.modQues f).mem = s.mem := rfl
@[simp] theorem State.modQues_fuse (f : FMap Que → FMap Que) : (s.modQues f).fuse = s.fuse := rfl
@[simp] theorem State.modQues_fab (f : FMap Que → FMap Que) : (s.modQues f).fab = s.fab := rfl
@[simp] theorem State.modQues_pln (f : FMap Que → FMap Que) : (s.modQues f).pln = s.pln := rfl
@[simp] theorem State.modQues_tim (f : FMap Que → FMap Que) : (s.modQues f).tim = s.tim := rfl
@[simp] theorem State.modQues_srv (f : FMap Que → FMap Que) : (s.modQues f).srv = s.srv := rfl
@[simp] theorem State.modQues_lanes (f : FMap Que → FMap Que) : (s.modQues f).lanes = s.lanes := rfl
@[simp] theorem State.modQues_lsh (f : FMap Que → FMap Que) : (s.modQues f).lsh = s.lsh := rfl
@[simp] theorem State.modQues_del (f : FMap Que → FMap Que) : (s.modQues f).del = s.del := rfl
@[simp] theorem State.modQues_ques (f : FMap Que → FMap Que) : (s.modQues f).ques = f s.ques := rfl
@[simp] theorem State.modQues_pci (f : FMap Que → FMap Que) : (s.modQues f).pci = s.pci := rfl
@[simp] theorem State.modQues_fsp (f : FMap Que → FMap Que) : (s.modQues f).fsp = s.fsp := rfl
@[simp] theorem State.modQues_tcs (f : FMap Que → FMap Que) : (s.modQues f).tcs = s.tcs := rfl
@[simp] theorem State.modQues_svc (f : FMap Que → FMap Que) : (s.modQues f).svc = s.svc := rfl
@[simp] theorem State.modQues_fwl (f : FMap Que → FMap Que) : (s.modQues f).fwl = s.fwl := rfl
@[simp] theorem State.modQues_bst (f : FMap Que → FMap Que) : (s.modQues f).bst = s.bst := rfl
@[simp] theorem State.modQues_pwr (f : FMap Que → FMap Que) : (s.modQues f).pwr = s.pwr := rfl
@[simp] theorem State.modQues_chans (f : FMap Que → FMap Que) : (s.modQues f).chans = s.chans := rfl
@[simp] theorem State.modQues_grps (f : FMap Que → FMap Que) : (s.modQues f).grps = s.grps := rfl
@[simp] theorem State.modQues_lins (f : FMap Que → FMap Que) : (s.modQues f).lins = s.lins := rfl
@[simp] theorem State.modQues_ana (f : FMap Que → FMap Que) : (s.modQues f).ana = s.ana := rfl
@[simp] theorem State.modQues_free (f : FMap Que → FMap Que) : (s.modQues f).free = s.free := rfl
@[simp] theorem State.modQues_outbox (f : FMap Que → FMap Que) : (s.modQues f).outbox = s.outbox := rfl
@[simp] theorem State.modPci_pending (f : Pci → Pci) : (s.modPci f).pending = s.pending := rfl
@[simp] theorem State.modPci_pages (f : Pci → Pci) : (s.modPci f).pages = s.pages := rfl
@[simp] theorem State.modPci_rf (f : Pci → Pci) : (s.modPci f).rf = s.rf := rfl
@[simp] theorem State.modPci_mem (f : Pci → Pci) : (s.modPci f).mem = s.mem := rfl
@[simp] theorem State.modPci_fuse (f : Pci → Pci) : (s.modPci f).fuse = s.fuse := rfl
@[simp] theorem State.modPci_fab (f : Pci → Pci) : (s.modPci f).fab = s.fab := rfl
@[simp] theorem State.modPci_pln (f : Pci → Pci) : (s.modPci f).pln = s.pln := rfl
@[simp] theorem State.modPci_tim (f : Pci → Pci) : (s.modPci f).tim = s.tim := rfl
@[simp] theorem State.modPci_srv (f : Pci → Pci) : (s.modPci f).srv = s.srv := rfl
@[simp] theorem State.modPci_lanes (f : Pci → Pci) : (s.modPci f).lanes = s.lanes := rfl
@[simp] theorem State.modPci_lsh (f : Pci → Pci) : (s.modPci f).lsh = s.lsh := rfl
@[simp] theorem State.modPci_del (f : Pci → Pci) : (s.modPci f).del = s.del := rfl
@[simp] theorem State.modPci_ques (f : Pci → Pci) : (s.modPci f).ques = s.ques := rfl
@[simp] theorem State.modPci_pci (f : Pci → Pci) : (s.modPci f).pci = f s.pci := rfl
@[simp] theorem State.modPci_fsp (f : Pci → Pci) : (s.modPci f).fsp = s.fsp := rfl
@[simp] theorem State.modPci_tcs (f : Pci → Pci) : (s.modPci f).tcs = s.tcs := rfl
@[simp] theorem State.modPci_svc (f : Pci → Pci) : (s.modPci f).svc = s.svc := rfl
@[simp] theorem State.modPci_fwl (f : Pci → Pci) : (s.modPci f).fwl = s.fwl := rfl
@[simp] theorem State.modPci_bst (f : Pci → Pci) : (s.modPci f).bst = s.bst := rfl
@[simp] theorem State.modPci_pwr (f : Pci → Pci) : (s.modPci f).pwr = s.pwr := rfl
@[simp] theorem State.modPci_chans (f : Pci → Pci) : (s.modPci f).chans = s.chans := rfl
@[simp] theorem State.modPci_grps (f : Pci → Pci) : (s.modPci f).grps = s.grps := rfl
@[simp] theorem State.modPci_lins (f : Pci → Pci) : (s.modPci f).lins = s.lins := rfl
@[simp] theorem State.modPci_ana (f : Pci → Pci) : (s.modPci f).ana = s.ana := rfl
@[simp] theorem State.modPci_free (f : Pci → Pci) : (s.modPci f).free = s.free := rfl
@[simp] theorem State.modPci_outbox (f : Pci → Pci) : (s.modPci f).outbox = s.outbox := rfl
@[simp] theorem State.modFsp_pending (f : Fsp → Fsp) : (s.modFsp f).pending = s.pending := rfl
@[simp] theorem State.modFsp_pages (f : Fsp → Fsp) : (s.modFsp f).pages = s.pages := rfl
@[simp] theorem State.modFsp_rf (f : Fsp → Fsp) : (s.modFsp f).rf = s.rf := rfl
@[simp] theorem State.modFsp_mem (f : Fsp → Fsp) : (s.modFsp f).mem = s.mem := rfl
@[simp] theorem State.modFsp_fuse (f : Fsp → Fsp) : (s.modFsp f).fuse = s.fuse := rfl
@[simp] theorem State.modFsp_fab (f : Fsp → Fsp) : (s.modFsp f).fab = s.fab := rfl
@[simp] theorem State.modFsp_pln (f : Fsp → Fsp) : (s.modFsp f).pln = s.pln := rfl
@[simp] theorem State.modFsp_tim (f : Fsp → Fsp) : (s.modFsp f).tim = s.tim := rfl
@[simp] theorem State.modFsp_srv (f : Fsp → Fsp) : (s.modFsp f).srv = s.srv := rfl
@[simp] theorem State.modFsp_lanes (f : Fsp → Fsp) : (s.modFsp f).lanes = s.lanes := rfl
@[simp] theorem State.modFsp_lsh (f : Fsp → Fsp) : (s.modFsp f).lsh = s.lsh := rfl
@[simp] theorem State.modFsp_del (f : Fsp → Fsp) : (s.modFsp f).del = s.del := rfl
@[simp] theorem State.modFsp_ques (f : Fsp → Fsp) : (s.modFsp f).ques = s.ques := rfl
@[simp] theorem State.modFsp_pci (f : Fsp → Fsp) : (s.modFsp f).pci = s.pci := rfl
@[simp] theorem State.modFsp_fsp (f : Fsp → Fsp) : (s.modFsp f).fsp = f s.fsp := rfl
@[simp] theorem State.modFsp_tcs (f : Fsp → Fsp) : (s.modFsp f).tcs = s.tcs := rfl
@[simp] theorem State.modFsp_svc (f : Fsp → Fsp) : (s.modFsp f).svc = s.svc := rfl
@[simp] theorem State.modFsp_fwl (f : Fsp → Fsp) : (s.modFsp f).fwl = s.fwl := rfl
@[simp] theorem State.modFsp_bst (f : Fsp → Fsp) : (s.modFsp f).bst = s.bst := rfl
@[simp] theorem State.modFsp_pwr (f : Fsp → Fsp) : (s.modFsp f).pwr = s.pwr := rfl
@[simp] theorem State.modFsp_chans (f : Fsp → Fsp) : (s.modFsp f).chans = s.chans := rfl
@[simp] theorem State.modFsp_grps (f : Fsp → Fsp) : (s.modFsp f).grps = s.grps := rfl
@[simp] theorem State.modFsp_lins (f : Fsp → Fsp) : (s.modFsp f).lins = s.lins := rfl
@[simp] theorem State.modFsp_ana (f : Fsp → Fsp) : (s.modFsp f).ana = s.ana := rfl
@[simp] theorem State.modFsp_free (f : Fsp → Fsp) : (s.modFsp f).free = s.free := rfl
@[simp] theorem State.modFsp_outbox (f : Fsp → Fsp) : (s.modFsp f).outbox = s.outbox := rfl
@[simp] theorem State.modTcs_pending (f : FMap Tc → FMap Tc) : (s.modTcs f).pending = s.pending := rfl
@[simp] theorem State.modTcs_pages (f : FMap Tc → FMap Tc) : (s.modTcs f).pages = s.pages := rfl
@[simp] theorem State.modTcs_rf (f : FMap Tc → FMap Tc) : (s.modTcs f).rf = s.rf := rfl
@[simp] theorem State.modTcs_mem (f : FMap Tc → FMap Tc) : (s.modTcs f).mem = s.mem := rfl
@[simp] theorem State.modTcs_fuse (f : FMap Tc → FMap Tc) : (s.modTcs f).fuse = s.fuse := rfl
@[simp] theorem State.modTcs_fab (f : FMap Tc → FMap Tc) : (s.modTcs f).fab = s.fab := rfl
@[simp] theorem State.modTcs_pln (f : FMap Tc → FMap Tc) : (s.modTcs f).pln = s.pln := rfl
@[simp] theorem State.modTcs_tim (f : FMap Tc → FMap Tc) : (s.modTcs f).tim = s.tim := rfl
@[simp] theorem State.modTcs_srv (f : FMap Tc → FMap Tc) : (s.modTcs f).srv = s.srv := rfl
@[simp] theorem State.modTcs_lanes (f : FMap Tc → FMap Tc) : (s.modTcs f).lanes = s.lanes := rfl
@[simp] theorem State.modTcs_lsh (f : FMap Tc → FMap Tc) : (s.modTcs f).lsh = s.lsh := rfl
@[simp] theorem State.modTcs_del (f : FMap Tc → FMap Tc) : (s.modTcs f).del = s.del := rfl
@[simp] theorem State.modTcs_ques (f : FMap Tc → FMap Tc) : (s.modTcs f).ques = s.ques := rfl
@[simp] theorem State.modTcs_pci (f : FMap Tc → FMap Tc) : (s.modTcs f).pci = s.pci := rfl
@[simp] theorem State.modTcs_fsp (f : FMap Tc → FMap Tc) : (s.modTcs f).fsp = s.fsp := rfl
@[simp] theorem State.modTcs_tcs (f : FMap Tc → FMap Tc) : (s.modTcs f).tcs = f s.tcs := rfl
@[simp] theorem State.modTcs_svc (f : FMap Tc → FMap Tc) : (s.modTcs f).svc = s.svc := rfl
@[simp] theorem State.modTcs_fwl (f : FMap Tc → FMap Tc) : (s.modTcs f).fwl = s.fwl := rfl
@[simp] theorem State.modTcs_bst (f : FMap Tc → FMap Tc) : (s.modTcs f).bst = s.bst := rfl
@[simp] theorem State.modTcs_pwr (f : FMap Tc → FMap Tc) : (s.modTcs f).pwr = s.pwr := rfl
@[simp] theorem State.modTcs_chans (f : FMap Tc → FMap Tc) : (s.modTcs f).chans = s.chans := rfl
@[simp] theorem State.modTcs_grps (f : FMap Tc → FMap Tc) : (s.modTcs f).grps = s.grps := rfl
@[simp] theorem State.modTcs_lins (f : FMap Tc → FMap Tc) : (s.modTcs f).lins = s.lins := rfl
@[simp] theorem State.modTcs_ana (f : FMap Tc → FMap Tc) : (s.modTcs f).ana = s.ana := rfl
@[simp] theorem State.modTcs_free (f : FMap Tc → FMap Tc) : (s.modTcs f).free = s.free := rfl
@[simp] theorem State.modTcs_outbox (f : FMap Tc → FMap Tc) : (s.modTcs f).outbox = s.outbox := rfl
@[simp] theorem State.modSvc_pending (f : Svc → Svc) : (s.modSvc f).pending = s.pending := rfl
@[simp] theorem State.modSvc_pages (f : Svc → Svc) : (s.modSvc f).pages = s.pages := rfl
@[simp] theorem State.modSvc_rf (f : Svc → Svc) : (s.modSvc f).rf = s.rf := rfl
@[simp] theorem State.modSvc_mem (f : Svc → Svc) : (s.modSvc f).mem = s.mem := rfl
@[simp] theorem State.modSvc_fuse (f : Svc → Svc) : (s.modSvc f).fuse = s.fuse := rfl
@[simp] theorem State.modSvc_fab (f : Svc → Svc) : (s.modSvc f).fab = s.fab := rfl
@[simp] theorem State.modSvc_pln (f : Svc → Svc) : (s.modSvc f).pln = s.pln := rfl
@[simp] theorem State.modSvc_tim (f : Svc → Svc) : (s.modSvc f).tim = s.tim := rfl
@[simp] theorem State.modSvc_srv (f : Svc → Svc) : (s.modSvc f).srv = s.srv := rfl
@[simp] theorem State.modSvc_lanes (f : Svc → Svc) : (s.modSvc f).lanes = s.lanes := rfl
@[simp] theorem State.modSvc_lsh (f : Svc → Svc) : (s.modSvc f).lsh = s.lsh := rfl
@[simp] theorem State.modSvc_del (f : Svc → Svc) : (s.modSvc f).del = s.del := rfl
@[simp] theorem State.modSvc_ques (f : Svc → Svc) : (s.modSvc f).ques = s.ques := rfl
@[simp] theorem State.modSvc_pci (f : Svc → Svc) : (s.modSvc f).pci = s.pci := rfl
@[simp] theorem State.modSvc_fsp (f : Svc → Svc) : (s.modSvc f).fsp = s.fsp := rfl
@[simp] theorem State.modSvc_tcs (f : Svc → Svc) : (s.modSvc f).tcs = s.tcs := rfl
@[simp] theorem State.modSvc_svc (f : Svc → Svc) : (s.modSvc f).svc = f s.svc := rfl
@[simp] theorem State.modSvc_fwl (f : Svc → Svc) : (s.modSvc f).fwl = s.fwl := rfl
@[simp] theorem State.modSvc_bst (f : Svc → Svc) : (s.modSvc f).bst = s.bst := rfl
@[simp] theorem State.modSvc_pwr (f : Svc → Svc) : (s.modSvc f).pwr = s.pwr := rfl
@[simp] theorem State.modSvc_chans (f : Svc → Svc) : (s.modSvc f).chans = s.chans := rfl
@[simp] theorem State.modSvc_grps (f : Svc → Svc) : (s.modSvc f).grps = s.grps := rfl
@[simp] theorem State.modSvc_lins (f : Svc → Svc) : (s.modSvc f).lins = s.lins := rfl
@[simp] theorem State.modSvc_ana (f : Svc → Svc) : (s.modSvc f).ana = s.ana := rfl
@[simp] theorem State.modSvc_free (f : Svc → Svc) : (s.modSvc f).free = s.free := rfl
@[simp] theorem State.modSvc_outbox (f : Svc → Svc) : (s.modSvc f).outbox = s.outbox := rfl
@[simp] theorem State.modFwl_pending (f : Fwl → Fwl) : (s.modFwl f).pending = s.pending := rfl
@[simp] theorem State.modFwl_pages (f : Fwl → Fwl) : (s.modFwl f).pages = s.pages := rfl
@[simp] theorem State.modFwl_rf (f : Fwl → Fwl) : (s.modFwl f).rf = s.rf := rfl
@[simp] theorem State.modFwl_mem (f : Fwl → Fwl) : (s.modFwl f).mem = s.mem := rfl
@[simp] theorem State.modFwl_fuse (f : Fwl → Fwl) : (s.modFwl f).fuse = s.fuse := rfl
@[simp] theorem State.modFwl_fab (f : Fwl → Fwl) : (s.modFwl f).fab = s.fab := rfl
@[simp] theorem State.modFwl_pln (f : Fwl → Fwl) : (s.modFwl f).pln = s.pln := rfl
@[simp] theorem State.modFwl_tim (f : Fwl → Fwl) : (s.modFwl f).tim = s.tim := rfl
@[simp] theorem State.modFwl_srv (f : Fwl → Fwl) : (s.modFwl f).srv = s.srv := rfl
@[simp] theorem State.modFwl_lanes (f : Fwl → Fwl) : (s.modFwl f).lanes = s.lanes := rfl
@[simp] theorem State.modFwl_lsh (f : Fwl → Fwl) : (s.modFwl f).lsh = s.lsh := rfl
@[simp] theorem State.modFwl_del (f : Fwl → Fwl) : (s.modFwl f).del = s.del := rfl
@[simp] theorem State.modFwl_ques (f : Fwl → Fwl) : (s.modFwl f).ques = s.ques := rfl
@[simp] theorem State.modFwl_pci (f : Fwl → Fwl) : (s.modFwl f).pci = s.pci := rfl
@[simp] theorem State.modFwl_fsp (f : Fwl → Fwl) : (s.modFwl f).fsp = s.fsp := rfl
@[simp] theorem State.modFwl_tcs (f : Fwl → Fwl) : (s.modFwl f).tcs = s.tcs := rfl
@[simp] theorem State.modFwl_svc (f : Fwl → Fwl) : (s.modFwl f).svc = s.svc := rfl
@[simp] theorem State.modFwl_fwl (f : Fwl → Fwl) : (s.modFwl f).fwl = f s.fwl := rfl
@[simp] theorem State.modFwl_bst (f : Fwl → Fwl) : (s.modFwl f).bst = s.bst := rfl
@[simp] theorem State.modFwl_pwr (f : Fwl → Fwl) : (s.modFwl f).pwr = s.pwr := rfl
@[simp] theorem State.modFwl_chans (f : Fwl → Fwl) : (s.modFwl f).chans = s.chans := rfl
@[simp] theorem State.modFwl_grps (f : Fwl → Fwl) : (s.modFwl f).grps = s.grps := rfl
@[simp] theorem State.modFwl_lins (f : Fwl → Fwl) : (s.modFwl f).lins = s.lins := rfl
@[simp] theorem State.modFwl_ana (f : Fwl → Fwl) : (s.modFwl f).ana = s.ana := rfl
@[simp] theorem State.modFwl_free (f : Fwl → Fwl) : (s.modFwl f).free = s.free := rfl
@[simp] theorem State.modFwl_outbox (f : Fwl → Fwl) : (s.modFwl f).outbox = s.outbox := rfl
@[simp] theorem State.modBst_pending (f : Bst → Bst) : (s.modBst f).pending = s.pending := rfl
@[simp] theorem State.modBst_pages (f : Bst → Bst) : (s.modBst f).pages = s.pages := rfl
@[simp] theorem State.modBst_rf (f : Bst → Bst) : (s.modBst f).rf = s.rf := rfl
@[simp] theorem State.modBst_mem (f : Bst → Bst) : (s.modBst f).mem = s.mem := rfl
@[simp] theorem State.modBst_fuse (f : Bst → Bst) : (s.modBst f).fuse = s.fuse := rfl
@[simp] theorem State.modBst_fab (f : Bst → Bst) : (s.modBst f).fab = s.fab := rfl
@[simp] theorem State.modBst_pln (f : Bst → Bst) : (s.modBst f).pln = s.pln := rfl
@[simp] theorem State.modBst_tim (f : Bst → Bst) : (s.modBst f).tim = s.tim := rfl
@[simp] theorem State.modBst_srv (f : Bst → Bst) : (s.modBst f).srv = s.srv := rfl
@[simp] theorem State.modBst_lanes (f : Bst → Bst) : (s.modBst f).lanes = s.lanes := rfl
@[simp] theorem State.modBst_lsh (f : Bst → Bst) : (s.modBst f).lsh = s.lsh := rfl
@[simp] theorem State.modBst_del (f : Bst → Bst) : (s.modBst f).del = s.del := rfl
@[simp] theorem State.modBst_ques (f : Bst → Bst) : (s.modBst f).ques = s.ques := rfl
@[simp] theorem State.modBst_pci (f : Bst → Bst) : (s.modBst f).pci = s.pci := rfl
@[simp] theorem State.modBst_fsp (f : Bst → Bst) : (s.modBst f).fsp = s.fsp := rfl
@[simp] theorem State.modBst_tcs (f : Bst → Bst) : (s.modBst f).tcs = s.tcs := rfl
@[simp] theorem State.modBst_svc (f : Bst → Bst) : (s.modBst f).svc = s.svc := rfl
@[simp] theorem State.modBst_fwl (f : Bst → Bst) : (s.modBst f).fwl = s.fwl := rfl
@[simp] theorem State.modBst_bst (f : Bst → Bst) : (s.modBst f).bst = f s.bst := rfl
@[simp] theorem State.modBst_pwr (f : Bst → Bst) : (s.modBst f).pwr = s.pwr := rfl
@[simp] theorem State.modBst_chans (f : Bst → Bst) : (s.modBst f).chans = s.chans := rfl
@[simp] theorem State.modBst_grps (f : Bst → Bst) : (s.modBst f).grps = s.grps := rfl
@[simp] theorem State.modBst_lins (f : Bst → Bst) : (s.modBst f).lins = s.lins := rfl
@[simp] theorem State.modBst_ana (f : Bst → Bst) : (s.modBst f).ana = s.ana := rfl
@[simp] theorem State.modBst_free (f : Bst → Bst) : (s.modBst f).free = s.free := rfl
@[simp] theorem State.modBst_outbox (f : Bst → Bst) : (s.modBst f).outbox = s.outbox := rfl
@[simp] theorem State.modPwr_pending (f : Pwr → Pwr) : (s.modPwr f).pending = s.pending := rfl
@[simp] theorem State.modPwr_pages (f : Pwr → Pwr) : (s.modPwr f).pages = s.pages := rfl
@[simp] theorem State.modPwr_rf (f : Pwr → Pwr) : (s.modPwr f).rf = s.rf := rfl
@[simp] theorem State.modPwr_mem (f : Pwr → Pwr) : (s.modPwr f).mem = s.mem := rfl
@[simp] theorem State.modPwr_fuse (f : Pwr → Pwr) : (s.modPwr f).fuse = s.fuse := rfl
@[simp] theorem State.modPwr_fab (f : Pwr → Pwr) : (s.modPwr f).fab = s.fab := rfl
@[simp] theorem State.modPwr_pln (f : Pwr → Pwr) : (s.modPwr f).pln = s.pln := rfl
@[simp] theorem State.modPwr_tim (f : Pwr → Pwr) : (s.modPwr f).tim = s.tim := rfl
@[simp] theorem State.modPwr_srv (f : Pwr → Pwr) : (s.modPwr f).srv = s.srv := rfl
@[simp] theorem State.modPwr_lanes (f : Pwr → Pwr) : (s.modPwr f).lanes = s.lanes := rfl
@[simp] theorem State.modPwr_lsh (f : Pwr → Pwr) : (s.modPwr f).lsh = s.lsh := rfl
@[simp] theorem State.modPwr_del (f : Pwr → Pwr) : (s.modPwr f).del = s.del := rfl
@[simp] theorem State.modPwr_ques (f : Pwr → Pwr) : (s.modPwr f).ques = s.ques := rfl
@[simp] theorem State.modPwr_pci (f : Pwr → Pwr) : (s.modPwr f).pci = s.pci := rfl
@[simp] theorem State.modPwr_fsp (f : Pwr → Pwr) : (s.modPwr f).fsp = s.fsp := rfl
@[simp] theorem State.modPwr_tcs (f : Pwr → Pwr) : (s.modPwr f).tcs = s.tcs := rfl
@[simp] theorem State.modPwr_svc (f : Pwr → Pwr) : (s.modPwr f).svc = s.svc := rfl
@[simp] theorem State.modPwr_fwl (f : Pwr → Pwr) : (s.modPwr f).fwl = s.fwl := rfl
@[simp] theorem State.modPwr_bst (f : Pwr → Pwr) : (s.modPwr f).bst = s.bst := rfl
@[simp] theorem State.modPwr_pwr (f : Pwr → Pwr) : (s.modPwr f).pwr = f s.pwr := rfl
@[simp] theorem State.modPwr_chans (f : Pwr → Pwr) : (s.modPwr f).chans = s.chans := rfl
@[simp] theorem State.modPwr_grps (f : Pwr → Pwr) : (s.modPwr f).grps = s.grps := rfl
@[simp] theorem State.modPwr_lins (f : Pwr → Pwr) : (s.modPwr f).lins = s.lins := rfl
@[simp] theorem State.modPwr_ana (f : Pwr → Pwr) : (s.modPwr f).ana = s.ana := rfl
@[simp] theorem State.modPwr_free (f : Pwr → Pwr) : (s.modPwr f).free = s.free := rfl
@[simp] theorem State.modPwr_outbox (f : Pwr → Pwr) : (s.modPwr f).outbox = s.outbox := rfl
@[simp] theorem State.modChans_pending (f : FMap Chan → FMap Chan) : (s.modChans f).pending = s.pending := rfl
@[simp] theorem State.modChans_pages (f : FMap Chan → FMap Chan) : (s.modChans f).pages = s.pages := rfl
@[simp] theorem State.modChans_rf (f : FMap Chan → FMap Chan) : (s.modChans f).rf = s.rf := rfl
@[simp] theorem State.modChans_mem (f : FMap Chan → FMap Chan) : (s.modChans f).mem = s.mem := rfl
@[simp] theorem State.modChans_fuse (f : FMap Chan → FMap Chan) : (s.modChans f).fuse = s.fuse := rfl
@[simp] theorem State.modChans_fab (f : FMap Chan → FMap Chan) : (s.modChans f).fab = s.fab := rfl
@[simp] theorem State.modChans_pln (f : FMap Chan → FMap Chan) : (s.modChans f).pln = s.pln := rfl
@[simp] theorem State.modChans_tim (f : FMap Chan → FMap Chan) : (s.modChans f).tim = s.tim := rfl
@[simp] theorem State.modChans_srv (f : FMap Chan → FMap Chan) : (s.modChans f).srv = s.srv := rfl
@[simp] theorem State.modChans_lanes (f : FMap Chan → FMap Chan) : (s.modChans f).lanes = s.lanes := rfl
@[simp] theorem State.modChans_lsh (f : FMap Chan → FMap Chan) : (s.modChans f).lsh = s.lsh := rfl
@[simp] theorem State.modChans_del (f : FMap Chan → FMap Chan) : (s.modChans f).del = s.del := rfl
@[simp] theorem State.modChans_ques (f : FMap Chan → FMap Chan) : (s.modChans f).ques = s.ques := rfl
@[simp] theorem State.modChans_pci (f : FMap Chan → FMap Chan) : (s.modChans f).pci = s.pci := rfl
@[simp] theorem State.modChans_fsp (f : FMap Chan → FMap Chan) : (s.modChans f).fsp = s.fsp := rfl
@[simp] theorem State.modChans_tcs (f : FMap Chan → FMap Chan) : (s.modChans f).tcs = s.tcs := rfl
@[simp] theorem State.modChans_svc (f : FMap Chan → FMap Chan) : (s.modChans f).svc = s.svc := rfl
@[simp] theorem State.modChans_fwl (f : FMap Chan → FMap Chan) : (s.modChans f).fwl = s.fwl := rfl
@[simp] theorem State.modChans_bst (f : FMap Chan → FMap Chan) : (s.modChans f).bst = s.bst := rfl
@[simp] theorem State.modChans_pwr (f : FMap Chan → FMap Chan) : (s.modChans f).pwr = s.pwr := rfl
@[simp] theorem State.modChans_chans (f : FMap Chan → FMap Chan) : (s.modChans f).chans = f s.chans := rfl
@[simp] theorem State.modChans_grps (f : FMap Chan → FMap Chan) : (s.modChans f).grps = s.grps := rfl
@[simp] theorem State.modChans_lins (f : FMap Chan → FMap Chan) : (s.modChans f).lins = s.lins := rfl
@[simp] theorem State.modChans_ana (f : FMap Chan → FMap Chan) : (s.modChans f).ana = s.ana := rfl
@[simp] theorem State.modChans_free (f : FMap Chan → FMap Chan) : (s.modChans f).free = s.free := rfl
@[simp] theorem State.modChans_outbox (f : FMap Chan → FMap Chan) : (s.modChans f).outbox = s.outbox := rfl
@[simp] theorem State.modGrps_pending (f : FMap Group → FMap Group) : (s.modGrps f).pending = s.pending := rfl
@[simp] theorem State.modGrps_pages (f : FMap Group → FMap Group) : (s.modGrps f).pages = s.pages := rfl
@[simp] theorem State.modGrps_rf (f : FMap Group → FMap Group) : (s.modGrps f).rf = s.rf := rfl
@[simp] theorem State.modGrps_mem (f : FMap Group → FMap Group) : (s.modGrps f).mem = s.mem := rfl
@[simp] theorem State.modGrps_fuse (f : FMap Group → FMap Group) : (s.modGrps f).fuse = s.fuse := rfl
@[simp] theorem State.modGrps_fab (f : FMap Group → FMap Group) : (s.modGrps f).fab = s.fab := rfl
@[simp] theorem State.modGrps_pln (f : FMap Group → FMap Group) : (s.modGrps f).pln = s.pln := rfl
@[simp] theorem State.modGrps_tim (f : FMap Group → FMap Group) : (s.modGrps f).tim = s.tim := rfl
@[simp] theorem State.modGrps_srv (f : FMap Group → FMap Group) : (s.modGrps f).srv = s.srv := rfl
@[simp] theorem State.modGrps_lanes (f : FMap Group → FMap Group) : (s.modGrps f).lanes = s.lanes := rfl
@[simp] theorem State.modGrps_lsh (f : FMap Group → FMap Group) : (s.modGrps f).lsh = s.lsh := rfl
@[simp] theorem State.modGrps_del (f : FMap Group → FMap Group) : (s.modGrps f).del = s.del := rfl
@[simp] theorem State.modGrps_ques (f : FMap Group → FMap Group) : (s.modGrps f).ques = s.ques := rfl
@[simp] theorem State.modGrps_pci (f : FMap Group → FMap Group) : (s.modGrps f).pci = s.pci := rfl
@[simp] theorem State.modGrps_fsp (f : FMap Group → FMap Group) : (s.modGrps f).fsp = s.fsp := rfl
@[simp] theorem State.modGrps_tcs (f : FMap Group → FMap Group) : (s.modGrps f).tcs = s.tcs := rfl
@[simp] theorem State.modGrps_svc (f : FMap Group → FMap Group) : (s.modGrps f).svc = s.svc := rfl
@[simp] theorem State.modGrps_fwl (f : FMap Group → FMap Group) : (s.modGrps f).fwl = s.fwl := rfl
@[simp] theorem State.modGrps_bst (f : FMap Group → FMap Group) : (s.modGrps f).bst = s.bst := rfl
@[simp] theorem State.modGrps_pwr (f : FMap Group → FMap Group) : (s.modGrps f).pwr = s.pwr := rfl
@[simp] theorem State.modGrps_chans (f : FMap Group → FMap Group) : (s.modGrps f).chans = s.chans := rfl
@[simp] theorem State.modGrps_grps (f : FMap Group → FMap Group) : (s.modGrps f).grps = f s.grps := rfl
@[simp] theorem State.modGrps_lins (f : FMap Group → FMap Group) : (s.modGrps f).lins = s.lins := rfl
@[simp] theorem State.modGrps_ana (f : FMap Group → FMap Group) : (s.modGrps f).ana = s.ana := rfl
@[simp] theorem State.modGrps_free (f : FMap Group → FMap Group) : (s.modGrps f).free = s.free := rfl
@[simp] theorem State.modGrps_outbox (f : FMap Group → FMap Group) : (s.modGrps f).outbox = s.outbox := rfl
@[simp] theorem State.modLins_pending (f : FMap Lin → FMap Lin) : (s.modLins f).pending = s.pending := rfl
@[simp] theorem State.modLins_pages (f : FMap Lin → FMap Lin) : (s.modLins f).pages = s.pages := rfl
@[simp] theorem State.modLins_rf (f : FMap Lin → FMap Lin) : (s.modLins f).rf = s.rf := rfl
@[simp] theorem State.modLins_mem (f : FMap Lin → FMap Lin) : (s.modLins f).mem = s.mem := rfl
@[simp] theorem State.modLins_fuse (f : FMap Lin → FMap Lin) : (s.modLins f).fuse = s.fuse := rfl
@[simp] theorem State.modLins_fab (f : FMap Lin → FMap Lin) : (s.modLins f).fab = s.fab := rfl
@[simp] theorem State.modLins_pln (f : FMap Lin → FMap Lin) : (s.modLins f).pln = s.pln := rfl
@[simp] theorem State.modLins_tim (f : FMap Lin → FMap Lin) : (s.modLins f).tim = s.tim := rfl
@[simp] theorem State.modLins_srv (f : FMap Lin → FMap Lin) : (s.modLins f).srv = s.srv := rfl
@[simp] theorem State.modLins_lanes (f : FMap Lin → FMap Lin) : (s.modLins f).lanes = s.lanes := rfl
@[simp] theorem State.modLins_lsh (f : FMap Lin → FMap Lin) : (s.modLins f).lsh = s.lsh := rfl
@[simp] theorem State.modLins_del (f : FMap Lin → FMap Lin) : (s.modLins f).del = s.del := rfl
@[simp] theorem State.modLins_ques (f : FMap Lin → FMap Lin) : (s.modLins f).ques = s.ques := rfl
@[simp] theorem State.modLins_pci (f : FMap Lin → FMap Lin) : (s.modLins f).pci = s.pci := rfl
@[simp] theorem State.modLins_fsp (f : FMap Lin → FMap Lin) : (s.modLins f).fsp = s.fsp := rfl
@[simp] theorem State.modLins_tcs (f : FMap Lin → FMap Lin) : (s.modLins f).tcs = s.tcs := rfl
@[simp] theorem State.modLins_svc (f : FMap Lin → FMap Lin) : (s.modLins f).svc = s.svc := rfl
@[simp] theorem State.modLins_fwl (f : FMap Lin → FMap Lin) : (s.modLins f).fwl = s.fwl := rfl
@[simp] theorem State.modLins_bst (f : FMap Lin → FMap Lin) : (s.modLins f).bst = s.bst := rfl
@[simp] theorem State.modLins_pwr (f : FMap Lin → FMap Lin) : (s.modLins f).pwr = s.pwr := rfl
@[simp] theorem State.modLins_chans (f : FMap Lin → FMap Lin) : (s.modLins f).chans = s.chans := rfl
@[simp] theorem State.modLins_grps (f : FMap Lin → FMap Lin) : (s.modLins f).grps = s.grps := rfl
@[simp] theorem State.modLins_lins (f : FMap Lin → FMap Lin) : (s.modLins f).lins = f s.lins := rfl
@[simp] theorem State.modLins_ana (f : FMap Lin → FMap Lin) : (s.modLins f).ana = s.ana := rfl
@[simp] theorem State.modLins_free (f : FMap Lin → FMap Lin) : (s.modLins f).free = s.free := rfl
@[simp] theorem State.modLins_outbox (f : FMap Lin → FMap Lin) : (s.modLins f).outbox = s.outbox := rfl
@[simp] theorem State.modAna_pending (f : Ana → Ana) : (s.modAna f).pending = s.pending := rfl
@[simp] theorem State.modAna_pages (f : Ana → Ana) : (s.modAna f).pages = s.pages := rfl
@[simp] theorem State.modAna_rf (f : Ana → Ana) : (s.modAna f).rf = s.rf := rfl
@[simp] theorem State.modAna_mem (f : Ana → Ana) : (s.modAna f).mem = s.mem := rfl
@[simp] theorem State.modAna_fuse (f : Ana → Ana) : (s.modAna f).fuse = s.fuse := rfl
@[simp] theorem State.modAna_fab (f : Ana → Ana) : (s.modAna f).fab = s.fab := rfl
@[simp] theorem State.modAna_pln (f : Ana → Ana) : (s.modAna f).pln = s.pln := rfl
@[simp] theorem State.modAna_tim (f : Ana → Ana) : (s.modAna f).tim = s.tim := rfl
@[simp] theorem State.modAna_srv (f : Ana → Ana) : (s.modAna f).srv = s.srv := rfl
@[simp] theorem State.modAna_lanes (f : Ana → Ana) : (s.modAna f).lanes = s.lanes := rfl
@[simp] theorem State.modAna_lsh (f : Ana → Ana) : (s.modAna f).lsh = s.lsh := rfl
@[simp] theorem State.modAna_del (f : Ana → Ana) : (s.modAna f).del = s.del := rfl
@[simp] theorem State.modAna_ques (f : Ana → Ana) : (s.modAna f).ques = s.ques := rfl
@[simp] theorem State.modAna_pci (f : Ana → Ana) : (s.modAna f).pci = s.pci := rfl
@[simp] theorem State.modAna_fsp (f : Ana → Ana) : (s.modAna f).fsp = s.fsp := rfl
@[simp] theorem State.modAna_tcs (f : Ana → Ana) : (s.modAna f).tcs = s.tcs := rfl
@[simp] theorem State.modAna_svc (f : Ana → Ana) : (s.modAna f).svc = s.svc := rfl
@[simp] theorem State.modAna_fwl (f : Ana → Ana) : (s.modAna f).fwl = s.fwl := rfl
@[simp] theorem State.modAna_bst (f : Ana → Ana) : (s.modAna f).bst = s.bst := rfl
@[simp] theorem State.modAna_pwr (f : Ana → Ana) : (s.modAna f).pwr = s.pwr := rfl
@[simp] theorem State.modAna_chans (f : Ana → Ana) : (s.modAna f).chans = s.chans := rfl
@[simp] theorem State.modAna_grps (f : Ana → Ana) : (s.modAna f).grps = s.grps := rfl
@[simp] theorem State.modAna_lins (f : Ana → Ana) : (s.modAna f).lins = s.lins := rfl
@[simp] theorem State.modAna_ana (f : Ana → Ana) : (s.modAna f).ana = f s.ana := rfl
@[simp] theorem State.modAna_free (f : Ana → Ana) : (s.modAna f).free = s.free := rfl
@[simp] theorem State.modAna_outbox (f : Ana → Ana) : (s.modAna f).outbox = s.outbox := rfl
@[simp] theorem State.modFree_pending (f : Nat → Nat) : (s.modFree f).pending = s.pending := rfl
@[simp] theorem State.modFree_pages (f : Nat → Nat) : (s.modFree f).pages = s.pages := rfl
@[simp] theorem State.modFree_rf (f : Nat → Nat) : (s.modFree f).rf = s.rf := rfl
@[simp] theorem State.modFree_mem (f : Nat → Nat) : (s.modFree f).mem = s.mem := rfl
@[simp] theorem State.modFree_fuse (f : Nat → Nat) : (s.modFree f).fuse = s.fuse := rfl
@[simp] theorem State.modFree_fab (f : Nat → Nat) : (s.modFree f).fab = s.fab := rfl
@[simp] theorem State.modFree_pln (f : Nat → Nat) : (s.modFree f).pln = s.pln := rfl
@[simp] theorem State.modFree_tim (f : Nat → Nat) : (s.modFree f).tim = s.tim := rfl
@[simp] theorem State.modFree_srv (f : Nat → Nat) : (s.modFree f).srv = s.srv := rfl
@[simp] theorem State.modFree_lanes (f : Nat → Nat) : (s.modFree f).lanes = s.lanes := rfl
@[simp] theorem State.modFree_lsh (f : Nat → Nat) : (s.modFree f).lsh = s.lsh := rfl
@[simp] theorem State.modFree_del (f : Nat → Nat) : (s.modFree f).del = s.del := rfl
@[simp] theorem State.modFree_ques (f : Nat → Nat) : (s.modFree f).ques = s.ques := rfl
@[simp] theorem State.modFree_pci (f : Nat → Nat) : (s.modFree f).pci = s.pci := rfl
@[simp] theorem State.modFree_fsp (f : Nat → Nat) : (s.modFree f).fsp = s.fsp := rfl
@[simp] theorem State.modFree_tcs (f : Nat → Nat) : (s.modFree f).tcs = s.tcs := rfl
@[simp] theorem State.modFree_svc (f : Nat → Nat) : (s.modFree f).svc = s.svc := rfl
@[simp] theorem State.modFree_fwl (f : Nat → Nat) : (s.modFree f).fwl = s.fwl := rfl
@[simp] theorem State.modFree_bst (f : Nat → Nat) : (s.modFree f).bst = s.bst := rfl
@[simp] theorem State.modFree_pwr (f : Nat → Nat) : (s.modFree f).pwr = s.pwr := rfl
@[simp] theorem State.modFree_chans (f : Nat → Nat) : (s.modFree f).chans = s.chans := rfl
@[simp] theorem State.modFree_grps (f : Nat → Nat) : (s.modFree f).grps = s.grps := rfl
@[simp] theorem State.modFree_lins (f : Nat → Nat) : (s.modFree f).lins = s.lins := rfl
@[simp] theorem State.modFree_ana (f : Nat → Nat) : (s.modFree f).ana = s.ana := rfl
@[simp] theorem State.modFree_free (f : Nat → Nat) : (s.modFree f).free = f s.free := rfl
@[simp] theorem State.modFree_outbox (f : Nat → Nat) : (s.modFree f).outbox = s.outbox := rfl
@[simp] theorem State.modOutbox_pending (f : List Out → List Out) : (s.modOutbox f).pending = s.pending := rfl
@[simp] theorem State.modOutbox_pages (f : List Out → List Out) : (s.modOutbox f).pages = s.pages := rfl
@[simp] theorem State.modOutbox_rf (f : List Out → List Out) : (s.modOutbox f).rf = s.rf := rfl
@[simp] theorem State.modOutbox_mem (f : List Out → List Out) : (s.modOutbox f).mem = s.mem := rfl
@[simp] theorem State.modOutbox_fuse (f : List Out → List Out) : (s.modOutbox f).fuse = s.fuse := rfl
@[simp] theorem State.modOutbox_fab (f : List Out → List Out) : (s.modOutbox f).fab = s.fab := rfl
@[simp] theorem State.modOutbox_pln (f : List Out → List Out) : (s.modOutbox f).pln = s.pln := rfl
@[simp] theorem State.modOutbox_tim (f : List Out → List Out) : (s.modOutbox f).tim = s.tim := rfl
@[simp] theorem State.modOutbox_srv (f : List Out → List Out) : (s.modOutbox f).srv = s.srv := rfl
@[simp] theorem State.modOutbox_lanes (f : List Out → List Out) : (s.modOutbox f).lanes = s.lanes := rfl
@[simp] theorem State.modOutbox_lsh (f : List Out → List Out) : (s.modOutbox f).lsh = s.lsh := rfl
@[simp] theorem State.modOutbox_del (f : List Out → List Out) : (s.modOutbox f).del = s.del := rfl
@[simp] theorem State.modOutbox_ques (f : List Out → List Out) : (s.modOutbox f).ques = s.ques := rfl
@[simp] theorem State.modOutbox_pci (f : List Out → List Out) : (s.modOutbox f).pci = s.pci := rfl
@[simp] theorem State.modOutbox_fsp (f : List Out → List Out) : (s.modOutbox f).fsp = s.fsp := rfl
@[simp] theorem State.modOutbox_tcs (f : List Out → List Out) : (s.modOutbox f).tcs = s.tcs := rfl
@[simp] theorem State.modOutbox_svc (f : List Out → List Out) : (s.modOutbox f).svc = s.svc := rfl
@[simp] theorem State.modOutbox_fwl (f : List Out → List Out) : (s.modOutbox f).fwl = s.fwl := rfl
@[simp] theorem State.modOutbox_bst (f : List Out → List Out) : (s.modOutbox f).bst = s.bst := rfl
@[simp] theorem State.modOutbox_pwr (f : List Out → List Out) : (s.modOutbox f).pwr = s.pwr := rfl
@[simp] theorem State.modOutbox_chans (f : List Out → List Out) : (s.modOutbox f).chans = s.chans := rfl
@[simp] theorem State.modOutbox_grps (f : List Out → List Out) : (s.modOutbox f).grps = s.grps := rfl
@[simp] theorem State.modOutbox_lins (f : List Out → List Out) : (s.modOutbox f).lins = s.lins := rfl
@[simp] theorem State.modOutbox_ana (f : List Out → List Out) : (s.modOutbox f).ana = s.ana := rfl
@[simp] theorem State.modOutbox_free (f : List Out → List Out) : (s.modOutbox f).free = s.free := rfl
@[simp] theorem State.modOutbox_outbox (f : List Out → List Out) : (s.modOutbox f).outbox = f s.outbox := rfl

end Sys2Proof.Machine
end

