-- ==== Sys2Proof/Laws/Haldom.lean ====
section
/-! SUPPORT. Lanes of a word, and what issuing an instruction and writing its result do to a core. -/

namespace Sys2Proof.Machine

/-! ## Words put together from fields -/

/-- A field put above what a number holds adds to it. -/
theorem or_shiftLeft_eq_add {a x : Nat} (lo : Nat) (ha : a < 2 ^ lo) : a ||| x <<< lo = a + x * 2 ^ lo := by
  rw [Nat.or_comm, Nat.shiftLeft_eq, Nat.mul_comm, ← Nat.two_pow_add_eq_or_of_lt ha, Nat.add_comm]

theorem mkLanes_toNat (a b c d : Word) : (mkLanes a b c d).toNat = a.toNat + b.toNat * 2 ^ 32 + c.toNat * 2 ^ 64 + d.toNat * 2 ^ 96 := by
  have ha := a.isLt
  have hb := b.isLt
  have hc := c.isLt
  have hd := d.isLt
  simp only [mkLanes, mkW128, packNat, List.foldl, BitVec.toNat_ofNat, Nat.zero_or, Nat.shiftLeft_zero, Nat.mod_eq_of_lt ha, Nat.mod_eq_of_lt hb,
    Nat.mod_eq_of_lt hc, Nat.mod_eq_of_lt hd]
  rw [or_shiftLeft_eq_add 32 ha, or_shiftLeft_eq_add 64 (by omega), or_shiftLeft_eq_add 96 (by omega)]
  omega

/-- Lane `i` of a word made of four lanes. -/
theorem laneOf_mkLanes (a b c d : Word) {i : Nat} (hi : i < 4) :
    laneOf (mkLanes a b c d) i = if i = 0 then a else if i = 1 then b else if i = 2 then c else d := by
  have ha := a.isLt
  have hb := b.isLt
  have hc := c.isLt
  have hd := d.isLt
  apply BitVec.eq_of_toNat_eq
  simp only [laneOf, bits, mkLanes_toNat, BitVec.toNat_ofNat, Nat.shiftRight_eq_div_pow]
  have : i = 0 ∨ i = 1 ∨ i = 2 ∨ i = 3 := by omega
  rcases this with rfl | rfl | rfl | rfl <;> simp <;> omega

/-- Lane `i` of a word built lane by lane. -/
@[simp] theorem laneOf_buildLanes (f : Nat → Word) {i : Nat} (hi : i < 4) : laneOf (buildLanes f) i = f i := by
  rw [buildLanes, laneOf_mkLanes _ _ _ _ hi]
  have : i = 0 ∨ i = 1 ∨ i = 2 ∨ i = 3 := by omega
  rcases this with rfl | rfl | rfl | rfl <;> rfl

/-- Lane `i` of a word written under a mask (R336). -/
@[simp] theorem laneOf_maskLanes (m : Nat) (new old : W128) {i : Nat} (hi : i < 4) :
    laneOf (maskLanes m new old) i = if m.testBit i then laneOf new i else laneOf old i := by
  rw [maskLanes, laneOf_buildLanes _ hi]

/-- Lane `j` of the int64 view of a word made of two halves. -/
theorem lane64_pair (x y : BitVec 64) {j : Nat} (hj : j < 2) :
    lane64 (mkW128 [(0, 64, x.toNat), (64, 64, y.toNat)]) j = if j = 0 then x else y := by
  have hx := x.isLt
  have hy := y.isLt
  apply BitVec.eq_of_toNat_eq
  simp only [lane64, mkW128, packNat, List.foldl, bits, BitVec.toNat_ofNat, Nat.zero_or, Nat.shiftLeft_zero, Nat.mod_eq_of_lt hx, Nat.mod_eq_of_lt hy,
    Nat.shiftRight_eq_div_pow]
  rw [or_shiftLeft_eq_add 64 hx]
  have : j = 0 ∨ j = 1 := by omega
  rcases this with rfl | rfl <;> simp <;> omega

/-! ## A core after an operation -/

/-- A core after a register of another is written, or of its own. -/
theorem tc_setV (n r : Nat) (w : W128) (s : State) :
    tc n (setV n r w s) = if r = 0 then tc n s else { tc n s with regs := FMap.put (fun _ => 0) (tc n s).regs r w } := by
  unfold setV
  split <;> simp

theorem tc_setV_of_ne {m n : Nat} (h : m ≠ n) (r : Nat) (w : W128) (s : State) : tc m (setV n r w s) = tc m s := by
  unfold setV
  split
  · rfl
  · exact tc_modTc_of_ne _ h _

/-- The registers after one is written (R324). -/
theorem v_put (t : Tc) (r d : Nat) (w : W128) (hd : d ≠ 0) :
    Tc.v { t with regs := FMap.put (fun _ => 0) t.regs d w } r = if r = d then w else t.v r := by
  unfold Tc.v
  by_cases h : r = d
  · subst h
    simp [hd]
  · simp [h, FMap.get_put_of_ne h]

/-- What a result does to its core and to the others, after the core has issued and changed as `f` says. -/
theorem result_wroteWith (f : Tc → Tc) (n d : Nat) (w : W128) (s u : State)
    (hu : tc n u = { f (tc n s) with issued := (tc n s).issued + 1 }) (ho : ∀ m, m ≠ n → tc m u = tc m s)
    (hr : (f (tc n s)).regs = (tc n s).regs) (hp : (f (tc n s)).pc = (tc n s).pc) :
    WroteWith f n d w s (result n d w u) := by
  refine ⟨fun r => ?_, ?_, fun m hm => ?_⟩
  · simp only [result, advance, tc_modTc_self, tc_setV, hu]
    by_cases hd : d = 0
    · simp [hd, Tc.v, hr]
    · simp only [hd, if_false]
      simpa [Tc.v, hr, hd] using v_put (f (tc n s)) r d w hd
  · simp only [result, advance, tc_modTc_self, tc_setV, hu]
    split <;> simp [hp]
  · simp only [result, advance]
    rw [tc_modTc_of_ne _ hm, tc_setV_of_ne hm, ho m hm]

/-- The core that issues. -/
def issuing (n : Nat) (s : State) : State := modTc n (fun t => { t with issued := t.issued + 1 }) s

theorem issue_of_can {n : Nat} {s : State} (h : (tc n s).canIssue = true) (f : State → State) : issue n f s = f (issuing n s) := by
  rw [issue, if_pos h, issuing]

theorem tc_issuing (n : Nat) (s : State) : tc n (issuing n s) = { tc n s with issued := (tc n s).issued + 1 } := by simp [issuing]

@[simp] theorem issuing_v (n r : Nat) (s : State) : (tc n (issuing n s)).v r = (tc n s).v r := by rw [tc_issuing]; rfl

theorem tc_issuing_of_ne {m n : Nat} (h : m ≠ n) (s : State) : tc m (issuing n s) = tc m s := tc_modTc_of_ne _ h _

/-- A result written right after the issue. -/
theorem result_wrote (n d : Nat) (w : W128) (s : State) : Wrote n d w s (result n d w (issuing n s)) :=
  result_wroteWith id n d w s _ (tc_issuing n s) (fun _ hm => tc_issuing_of_ne hm s) rfl rfl

/-- A computed result. -/
theorem compute_wrote {n : Nat} {s : State} (h : (tc n s).canIssue = true) (d : Nat) (f : Tc → W128) :
    Wrote n d (f { tc n s with issued := (tc n s).issued + 1 }) s (compute n d f s) := by
  rw [compute, issue_of_can h, ← tc_issuing]
  exact result_wrote n d _ s

end Sys2Proof.Machine
end

