-- ==== Sys2Proof/WellFormed.lean ====
section
/-! DEFINITION. Commands whose operands name what the hub has: a converter of its group, an aligned register address, a device, an instant. The meanings are total without it. -/

namespace Sys2Proof

open Sys2Proof.Machine

/-- A converter number of its group: 0–16 in a general group, 0–8 in a fast one (R105). -/
def convOk (g : Grp) (conv : Fin 17) : Bool := decide (g.val < 16 ∨ conv.val ≤ 8)
/-- An instant with its nanoseconds below one second. -/
def stampOk (t : Stamp) : Bool := decide (t.ns < 1000000000)
/-- A segment and a hub number (R6). -/
def devOk (seg hub : Nat) : Bool := decide (seg < 512) && decide (hub < 128)
/-- An item that fits its words (R41, R58). -/
def itemOk (i : Item) : Bool := stampOk i.t && decide (i.src < 2 ^ 25) && decide (i.flags < 128) && decide (i.payload.length ≤ 63)
/-- A register address on a whole word (R13). -/
def aligned (addr : BitVec 20) : Bool := decide (addr.toNat % 4 = 0)

/-- Whether a command's operands name what the hub has. Log 73 (DESIGN CHOICE). -/
def wellFormed : Instr → Bool
  | .coarseSample g conv _ _ _ _ _ => convOk g conv
  | .fineRecordReady g conv t _ _ => convOk g conv && stampOk t
  | .modOverload g conv _ _ => convOk g conv
  | .modulatorReset g conv _ _ => convOk g conv
  | .calPointDone g conv _ _ _ _ => convOk g conv
  | .referenceCheckDone g m => convOk g m.conv
  | .converterCheckDone meas => meas.all fun m => decide (m.grp < 24) && decide (m.conv ≤ if m.grp < 16 then 16 else 8) && decide (m.range < 4)
  | .capExchange _ c => decide (c.seg < 512) && decide (c.hub < 128) && decide (c.port < 24) && decide (c.role < 4)
  | .timeMarkerReceive _ seq _ _ _ => decide (seq < 256)
  | .epAnnounceReceive a => decide (a.teNs < 1000000000) && decide (a.dNs < 1000000000)
  | .blockReceive _ b => decide (b.groups.length = 136) && b.groups.all fun g => decide (g < 1024)
  | .testBlockReceive _ words => decide (words.length = 8)
  | .replayReceive _ seq => decide (seq < 256)
  | .renewReceive seg hub _ num => devOk seg hub && decide (num < 2 ^ 32)
  | .renewAckReceive a => decide (a.num < 2 ^ 32)
  | .grantReqReceive seg hub => devOk seg hub
  | .grantReqHoldExpiry seg => decide (seg < 512)
  | .grantReceive term => decide (term < 2 ^ 32)
  | .yieldReceive seg hub _ _ => devOk seg hub
  | .journalReceive _ num _ => decide (num < 2 ^ 32)
  | .journalAckReceive num => decide (num < 2 ^ 32)
  | .holderReceive seg hub _ => devOk seg hub
  | .dataItemReceive dev _ seq _ words => decide (dev < 65536) && decide (seq < 2 ^ 32) && decide (words ≠ []) && decide (words.length ≤ 64)
  | .horizonReceive dev _ seq _ _ => decide (dev < 65536) && decide (seq < 2 ^ 32)
  | .inputAbsentTimer dev _ _ => decide (dev < 65536)
  | .retxReceive _ num => decide (num < 2 ^ 32)
  | .retxRepeatTimer dev _ => decide (dev < 65536)
  | .ackReceive _ num => decide (num < 2 ^ 32)
  | .tcInputItem _ _ dev _ seq item => decide (dev < 65536) && decide (seq < 2 ^ 32) && itemOk item
  | .fspStreamItem dev _ seq item => decide (dev < 65536) && decide (seq < 2 ^ 32) && itemOk item
  | .hostRingItem _ i => decide (i.words ≠ []) && decide (i.words.length ≤ 64)
  | .descriptorFetchDone _ _ descs => decide (descs.length ≤ 32)
  | .fspFrame bytes _ _ => decide (bytes.length ≤ 512)
  | .fspWrite addr data => aligned addr && decide (data ≠ []) && decide (data.length ≤ 255)
  | .fspRead count addr => aligned addr && decide (count.val ≠ 0)
  | .registerWrite _ addr _ => aligned addr
  | .rcFieldRead _ addr => aligned addr
  | .multiwordLatchRead _ addr => aligned addr
  | .shadowWordRead _ addr => aligned addr
  | .reservedPageAccess _ addr _ => aligned addr && decide (0x56000 ≤ addr.toNat)
  | .remoteAccessExecute seg hub write _ data count => devOk seg hub && decide (data.length ≤ 4) && (write || decide (count.val ≠ 0))
  | .remoteAccessAnswer _ data => decide (data.length ≤ 4)
  | .pcieLinkUp speed width => decide (speed.val ≠ 0) && decide (width.val = 1 ∨ width.val = 2 ∨ width.val = 4 ∨ width.val = 8)
  | .episodeEndTimer page _ _ => decide (page.val < 0x56)
  | .shadowExpiry _ page => decide (page.val < 0x56)
  | .tatNop .. | .waita .. | .waitr .. | .lead .. | .pulse .. | .ref .. | .excm .. | .rot .. | .every .. | .tatLoop .. | .endl .. | .tatEnd ..
  | .nop .. | .b .. | .beq .. | .bne .. | .blt .. | .bge .. | .call .. | .ret .. | .wait .. | .trig .. | .time .. | .hzn .. | .recv .. | .recvn ..
  | .send .. | .sendl .. | .pstat .. | .sabort .. | .ld .. | .st .. | .ldw .. | .stw .. | .li .. | .lih .. | .addi .. | .shli .. | .shri .. | .srai ..
  | .iadd .. | .isub .. | .imul .. | .imin .. | .imax .. | .icmp .. | .shl .. | .shr .. | .sra .. | .ladd .. | .lsub .. | .iabs .. | .andW .. | .orW ..
  | .xorW .. | .andn .. | .sel .. | .shuf .. | .bcast .. | .ext .. | .ins .. | .fadd .. | .fsub .. | .fmul .. | .fma .. | .fms .. | .fmin .. | .fmax ..
  | .fabs .. | .fneg .. | .fcmp .. | .cvtif .. | .cvtfi .. | .hadd .. | .fdiv .. | .fsqrt .. | .powerGood .. | .bootLoadDone | .supplyFall ..
  | .resetNLow | .pwrDevrst .. | .watchdogExpiry | .junctionTempRead .. | .vstbyRise | .perst | .functionLevelReset | .startBoundTimer ..
  | .sliceSearch | .samplingStart | .inService | .parkRequest .. | .unparkRequest .. | .standbyRequest .. | .parkStop
  | .diceOffDone | .supEnFall | .wakePin | .wakeAlarm | .anaLost .. | .anaBack | .vexcLow .. | .viepeLow .. | .standbyCounterCopy | .retDataAccess ..
  | .loadDataWrite .. | .loadGo .. | .stage .. | .discard .. | .recheck .. | .actSecArm .. | .sliceReqTimer | .sliceReqReceive .. | .sliceServe
  | .chwCommitEffect .. | .sliceDataReceive .. | .sliceRetryTimer | .pendSliceReceive .. | .planActivation | .identityWindowClose | .capXnTick .. | .capSendTimer ..
  | .recordRelease .. | .runCloseTimer .. | .synPhaseCompare .. | .viepeMeasure .. | .clampStart .. | .clampEnd .. | .snsLostDetect .. | .snsRestore ..
  | .excLimitEngage .. | .excOff .. | .excRetry .. | .leadStepDone .. | .leadStaleTimer .. | .chwSelWrite .. | .chwCommit .. | .chwReload ..
  | .hardSwitch .. | .incumbentRelease .. | .rotationTick .. | .reliefForce .. | .reliefTaskStart .. | .hardWaitExpiry ..
  | .rateBoundary .. | .chainReconfigure .. | .frameStart .. | .tatWaitExpiry .. | .pulseWindowDone .. | .excmDone .. | .tatDeferredRun .. | .tatClr ..
  | .tatDataWrite .. | .tatCommit .. | .tatAbort .. | .tatSwap .. | .tempReading .. | .campGo .. | .calSetSelWrite .. | .setWrite .. | .setDelete ..
  | .setReload .. | .linSelWrite .. | .linCommit .. | .linReload .. | .linSlotSwitch .. | .servoMeasurement | .sourceLossTimer | .freeRunTimer
  | .prefReturnTimer .. | .fclkAbsent .. | .timeMarkerSend .. | .closureRound .. | .closReportReceive .. | .closAsymReceive .. | .todApplyNow ..
  | .todApplyPps .. | .ppsInEdge .. | .ppsLossTimer | .epReqReceive | .epDeferredAnnounce | .epochChange | .epochAdopt | .dinEdge .. | .toutSchedule ..
  | .toutCancel .. | .toutScheduleFire .. | .toutOwnerWrite .. | .ppsOutEdge | .ppsOutPulseEnd | .srvGainsWrite .. | .blockSlotSend ..
  | .huntTimeout .. | .losInput .. | .signalDetect .. | .replayFailReceive .. | .peakTrimTick .. | .eidleEnterRequest .. | .eidleExitRequest ..
  | .eidleReceive .. | .eidleExitTimeout .. | .portRestart .. | .maxrateWrite .. | .stepTimeout .. | .testBlockTimer .. | .breakReceive ..
  | .restoreReceive .. | .hopRestoreTimer .. | .renewTimer | .leaseExpiry | .grantReqTimer | .refuseReceive | .leashInitialRequest | .refAckWrite ..
  | .refGrantWrite .. | .handoff .. | .handoffProceed | .handoffTimeout | .resyncReqReceive | .remove .. | .removeCancel .. | .removalStop
  | .removalDrained | .svcReceive .. | .removalRejoin | .itemTransmit .. | .sourceHorizonBeat .. | .mergerBeat .. | .ackTimer | .kennelCheck
  | .stallResume | .mrgCselWrite .. | .admitContract .. | .withdraw .. | .mrgReload .. | .contractReceive .. | .contractStart .. | .contractEnd ..
  | .queueWordWrite .. | .queueNoticeTimer .. | .queueAppend .. | .queueWcommit .. | .queueWrewind .. | .queueRead .. | .queueFlush ..
  | .queueFlushDone .. | .wmLatchClear .. | .wmHwmWrite .. | .qsizeWrite .. | .qcfgWrite .. | .windowBoundary .. | .cycleBoundary .. | .waitResume ..
  | .recvResume .. | .sendResume .. | .tcClr .. | .tcImgDataWrite .. | .tcCommit .. | .tcAbort .. | .tcGo .. | .tcRestart .. | .shadowStart ..
  | .switchBoundary .. | .drainExpiry .. | .programSwitch .. | .reflexPulseEnd .. | .ruleCommit .. | .ruleReload .. | .ruleClear .. | .trackEnable ..
  | .sectionEnable .. | .trackOutput .. | .trackStallTimer .. | .weighRelease .. | .bar0Request .. | .hrTailWrite .. | .descriptorCloseTimer ..
  | .hrNoticeTimer .. | .hrEnableWrite .. | .quiesce .. | .pcieLinkDown | .busMasterDisable .. | .fspEnd | .fspStream .. | .fspIdleTimer
  | .fspResync .. | .fspLenWrite .. | .pageSoftReset .. | .pageFreeze .. | .snapTake .. | .evLatchWrite .. | .evEnWrite .. | .evtClear ..
  | .remoteAccessGo .. | .remoteAccessTimeout | .featCommit .. | .featBase .. | .sliceStart .. | .sliceComplete .. | .sliceRestoreDone ..
  | .sliceRetry .. | .reservedWindow .. | .forcedSliceDone .. | .coverageCycleEnd | .newcyc .. | .bstDisable .. | .analogueCheckGo ..
  | .analogueCheckDone .. | .fwStage .. | .stageDone .. | .fwSwap .. | .swapIdleBoundary | .handoverDone | .swapTimeout | .fwConfirm .. | .fwRevert ..
  | .trialTimeout | .ckeyBurn .. | .flashProgram .. | .flashErase .. | .flashOpDone .. | .flDataWrite .. | .flDataRead .. | .hdrTgtWrite ..
  | .hdrDataWrite .. | .symbolLock .. | .ackStallTimer .. | .undefinedOpcode .. | .dinLevelChange .. | .busMasterEnable | .msixUnmask ..
  | .removalCancelReturn | .ckeyBurnDone | .watchdogRestartDone => true

/-- What checks a command before it is queued answers: nothing, or the fault `illFormed`. Log 8, 73 (DESIGN CHOICE). -/
def check (i : Instr) : Option Fault := if wellFormed i then none else some .illFormed

end Sys2Proof
end

