-- ==== Sys2Proof/Tests/Slice0.lean ====
section
/-! SUPPORT. Tests of one step, written-out words, refused operands, and for each statement with hypotheses a state and operands that meet them. -/

namespace Sys2Proof.Tests

-- One theorem after another: evaluated side by side they take more memory than the check allows.
set_option Elab.async false

open Sys2Proof Sys2Proof.Machine

/-- Plain operands that a test changes one field of. -/
def item0 : Item := ⟨⟨0, 5, 0⟩, 0, .sample, 0, 0, []⟩
/-- A CAP block of a worker's port in quarantine. -/
def cap0 : CapBlk := {
  planNum := 0, seg := 0, hub := 0, role := 0, port := 0, xn := 0, q := true, locked := true, rates := 1, step := 0, stepOp := 0, goOk := false,
  planDigest := 0, feat := 1, pendNum := 0, cls := 0, pendDigest := 0 }
/-- A marker that echoes nothing. -/
def mark0 : Marker := ⟨0, 0, 0, false, 0, 0, 2, false, none, 0, 0, 0⟩
/-- An empty IDLE block with a valid header, at the comma's phase. -/
def idle0 : RxSlot := ⟨(encSyms false (blockSyms 0 0 [] 0x7F).1).1, true, 1, 0⟩
/-- A block under number 0 with the payload as given, received at the comma's phase under negative disparity. -/
def slot0 (typ : Nat) (ws : List W128) : RxSlot := ⟨(encSyms false (blockSyms typ 0 ws 0x7F).1).1, true, 1, 0⟩

/-! ## Commands whose operands name nothing are refused before they are queued -/

theorem test_check_refuses_each_bad_operand :
    ([.coarseSample 16 9 0 0 [] ⟨false, false⟩ 0, .fineRecordReady 23 9 ⟨0, 0, 0⟩ [] false, .fineRecordReady 0 0 ⟨0, 0, 1000000000⟩ [] false, .modOverload 16 9 0 0,
      .modulatorReset 16 9 0 0, .calPointDone 16 9 0 0 256 [], .referenceCheckDone 16 ⟨9, 0, 0, 0⟩, .converterCheckDone [⟨24, 0, 0, 0, 0, 0⟩],
      .converterCheckDone [⟨16, 9, 0, 0, 0, 0⟩], .converterCheckDone [⟨0, 0, 4, 0, 0, 0⟩],
      .capExchange 0 { cap0 with seg := 512 }, .capExchange 0 { cap0 with hub := 128 }, .capExchange 0 { cap0 with port := 24 }, .capExchange 0 { cap0 with role := 4 },
      .timeMarkerReceive 0 256 mark0 true 0, .epAnnounceReceive { next := 1, teSec := 0, teNs := 1000000000, dSec := 0, dNs := 0 },
      .epAnnounceReceive { next := 1, teSec := 0, teNs := 0, dSec := 0, dNs := 1000000000 },
      .blockReceive 0 { idle0 with groups := List.replicate 135 0 }, .blockReceive 0 { idle0 with groups := List.replicate 136 1024 },
      .testBlockReceive 0 [], .replayReceive 0 256] : List Instr).all
      (fun i => decide (check i = some .illFormed)) = true := by decide +kernel

theorem test_check_refuses_each_bad_operand_of_rings_and_delivery :
    ([.renewReceive 512 0 0 0, .renewReceive 0 128 0 0, .renewReceive 0 0 0 (2 ^ 32), .renewAckReceive ⟨2 ^ 32, true⟩, .grantReqReceive 512 0, .grantReqHoldExpiry 512,
      .grantReceive (2 ^ 32), .yieldReceive 0 128 0 0, .journalReceive 0 (2 ^ 32) .synced, .journalAckReceive (2 ^ 32), .holderReceive 512 0 0,
      .dataItemReceive 65536 0 0 false [0], .dataItemReceive 0 0 (2 ^ 32) false [0], .dataItemReceive 0 0 0 false [], .dataItemReceive 0 0 0 false (List.replicate 65 0),
      .horizonReceive 65536 0 0 false 0, .horizonReceive 0 0 (2 ^ 32) false 0, .fspStreamItem 0 0 0 { item0 with t := ⟨0, 0, 1000000000⟩ }, .fspStreamItem 0 0 0 { item0 with src := 2 ^ 25 },
      .fspStreamItem 0 0 0 { item0 with flags := 128 }, .fspStreamItem 0 0 0 { item0 with payload := List.replicate 64 0 },
      .inputAbsentTimer 65536 0 false, .retxReceive 0 (2 ^ 32), .retxRepeatTimer 65536 0, .ackReceive 0 (2 ^ 32),
      .tcInputItem 0 none 65536 0 0 item0, .tcInputItem 0 none 0 0 (2 ^ 32) item0, .fspStreamItem 65536 0 0 item0, .fspStreamItem 0 0 (2 ^ 32) item0] : List Instr).all
      (fun i => decide (check i = some .illFormed)) = true := by decide

theorem test_check_refuses_each_bad_operand_of_ports_and_pages :
    ([.hostRingItem 0 ⟨false, 0, 0, 0, []⟩, .hostRingItem 0 ⟨false, 0, 0, 0, List.replicate 65 0⟩, .descriptorFetchDone 0 true (List.replicate 33 (0, 0, 0)),
      .fspFrame (List.replicate 513 0) 0 true, .fspWrite 1 [0], .fspWrite 0 [], .fspWrite 0 (List.replicate 256 0), .fspRead 1 2, .fspRead 0 0,
      .registerWrite 0 1 0, .rcFieldRead 0 1, .multiwordLatchRead 0 1, .shadowWordRead 0 1, .reservedPageAccess 0 0x56001 false, .reservedPageAccess 0 0x55FFC false,
      .remoteAccessExecute 512 0 true 0 [] 0, .remoteAccessExecute 0 0 true 0 [0, 0, 0, 0, 0] 0, .remoteAccessExecute 0 0 false 0 [] 0,
      .remoteAccessAnswer 0 [0, 0, 0, 0, 0], .pcieLinkUp 0 1, .pcieLinkUp 1 3, .episodeEndTimer 0x56 0 0, .shadowExpiry 0 0x56] : List Instr).all
      (fun i => decide (check i = some .illFormed)) = true := by decide +kernel

theorem test_check_lets_the_last_good_operand_pass :
    ([.coarseSample 16 8 0 0 [] ⟨false, false⟩ 0, .coarseSample 15 16 0 0 [] ⟨false, false⟩ 0, .fineRecordReady 0 0 ⟨0, 0, 999999999⟩ [] false, .chwCommitEffect (.group 23) 0,
      .chwCommitEffect (.chan 319) 0, .converterCheckDone [⟨23, 8, 3, 0, 0, 0⟩], .dataItemReceive 65535 0 0 false (List.replicate 64 0), .blockReceive 0 idle0,
      .replayReceive 0 255, .fspWrite 0xFFFFC [0], .reservedPageAccess 0 0x56000 false, .remoteAccessExecute 511 127 false 0 [] 1, .pcieLinkUp 1 8] : List Instr).all
      (fun i => decide (check i = none)) = true := by decide +kernel

/-! ## Words written out from the manual (R335, R336) -/

/-- R336's own listing: LD v1, [v10 + 0]; ADDI v10, v10, 16; ADDI v11, v11, -1; FMA v5, v1, v1, v5 on all lanes; BNE v11, v0, -4. -/
theorem test_listing_words :
    haldomInstr 3 0x200A8000 = some (.ld 3 1 10 0 false) ∧ haldomInstr 3 0x32528010 = some (.addi 3 10 10 16) ∧
      haldomInstr 3 0x325AFFFF = some (.addi 3 11 11 (-1)) ∧ haldomInstr 3 0x6328425F = some (.fma 3 5 1 1 5 15) ∧ haldomInstr 3 0x03583FFC = some (.bne 3 11 0 (-4)) := by decide

/-! ## States that meet the hypotheses of the statements: Haldom and Terrier -/

/-- A core with a program of two instructions under way. -/
def running : Tc := { state := 1, img := some { codeLen := 2, wper := 1, cper := 1, slotHi := 511 } }
/-- Core 15 as given, the rest as after reset. -/
def core (c : Tc) : State := { tcs := [(15, c)] }
/-- Lane 0 of a register as an address (R336). -/
def addrOf (c : Tc) (a : Reg) (imm : BitVec 14) (size : Nat) : Nat := (((laneOf (c.v a.val) 0).toNat + imm.toInt * size) % 2 ^ 32).toNat

theorem witness_HaldomIntegerOperationsAndCompare : (tc 15 (core running)).canIssue = true ∧ (5 : Fin 16).val < 6 ∧ 6 ≤ (6 : Fin 16).val := by decide
theorem witness_HaldomLongLogicalAndImmediates : (tc 15 (core running)).canIssue = true := by decide
theorem witness_HaldomFloatLanesTakeTheirResults : (tc 15 (core { running with state := 6 })).canIssue = true := by decide
theorem witness_HaldomFloatMinMaxCompare : (tc 15 (core { running with state := 4, drainUp := some 0 })).canIssue = true ∧ (6 : Fin 16).val < 7 ∧ 7 ≤ (7 : Fin 16).val := by decide

/-- The first and the last address of the data region, for both sizes. -/
theorem witness_HaldomLoadsAndStores :
    let c (a : W128) : Tc := { running with regs := [(10, a)] }
    let ok (a : W128) (imm : BitVec 14) (size : Nat) : Prop := (tc 15 (core (c a))).canIssue = true ∧ 0x20000 ≤ addrOf (c a) 10 imm size ∧
      addrOf (c a) 10 imm size + size ≤ 0x80000 ∧ addrOf (c a) 10 imm size % size = 0
    ok 0x20000 0 16 ∧ ok 0x80000 (-1) 16 ∧ ok 0x20000 0 4 ∧ ok 0x80000 (-1) 4 := by decide

theorem witness_HaldomControlFlowGoesToItsTarget :
    let c : Tc := { running with regs := [(1, 1), (31, 1)], pc := 1 }
    c.canIssue = true ∧ (laneOf (c.v 1) 0).toInt = (laneOf (c.v 31) 0).toInt ∧ (laneOf (c.v 0) 0).toInt < (laneOf (c.v 1) 0).toInt ∧
    0 ≤ (c.pc : Int) + (-1 : BitVec 14).toInt ∧ (c.pc : Int) + (0 : BitVec 14).toInt < (c.img.getD {}).codeLen ∧ (1 : BitVec 14).toNat < (c.img.getD {}).codeLen ∧
    (laneOf (c.v 31) 0).toNat % 16384 < (c.img.getD {}).codeLen ∧ c.state = 1 ∧ (2 : Nat).testBit 0 = false ∧ (2 : Nat).testBit 1 = true ∧
    { c with cPend := true }.cPend = true ∧ (8 : Nat).testBit 3 = true ∧ (c.img.getD {}).odest = 0 := by decide

theorem witness_HaldomTriggersTimeAndInput :
    let c : Tc := { running with inb := [⟨true, [7, 8], none⟩] }
    c.canIssue = true ∧ c.inb = ⟨true, 7 :: [8], none⟩ :: [] ∧ running.inb = [] ∧ laneOf (c.v 0) 0 ≠ 0xFFFFFFFF ∧
    laneOf ({ running with regs := [(1, 0xFFFFFFFF)] }.v 1) 0 = 0xFFFFFFFF := by decide

/-- An EVENT word of slot 320 of this hub (R331), an open item of one word and one with its 63 words. -/
theorem witness_HaldomOutputPortSendsCommitsAndReports :
    let s := core { running with img := some { codeLen := 2, slotLo := 320, slotHi := 320 } }
    let event : W128 := 320 * 2 ^ 9
    let two : W128 := 129 * 2 ^ 120 + 1 * 2 ^ 112 + 320 * 2 ^ 9 + 3 * 2 ^ 7
    (tc 15 s).canIssue = true ∧ (tc 15 s).outb = none ∧ (tc 15 s).outDrop = false ∧ (tc 15 s).state ≠ 6 ∧ ((tc 15 s).img.getD {}).odest = 0 ∧
    outFirstOk 15 two false s = true ∧ ((tc 15 s).outb.getD []).length + 1 ≤ 64 ∧ outFirstOk 15 event true s = true ∧ (tc 15 s).shadow = none ∧ bits event.toNat 7 2 ≠ 3 := by decide +kernel

/-- A core whose output goes into a queue, an item open there, as SABORT and the drain's end find it. -/
theorem witness_OpenItemInItsQueue :
    let s : State := {
      tcs := [(15, { running with state := 4, drainUp := some 0, img := some { odest := 1 }, outb := some [1] })], ques := [(3, { en := true, prod := 2, pnum := 15, open_ := some [1] })] }
    (tc 15 s).canIssue = true ∧ (tc 15 s).outb.isSome = true ∧ ((tc 15 s).img.getD {}).odest = 1 ∧ (tc 15 s).state = 4 ∧ (tc 15 s).drainUp ≠ none ∧ outQueue 15 s = some 3 ∧
    (que 3 s).open_.isSome = true := by decide

theorem witness_HaldomWaitingCoresResume :
    let s : State := {
      tcs := [(14, { running with wait := .mask 15, wPend := true }), (15, { running with img := some { odest := 1 }, wait := .send 5 false, inb := [⟨true, [7], none⟩] })],
      ques := [(3, { en := true, prod := 2, pnum := 15 })] }
    (tc 14 s).wait = .mask 15 ∧ (15 : Nat).testBit 0 = true ∧ (tc 14 s).wPend = true ∧ (tc 15 s).wait = .send 5 false ∧ (tc 15 s).outDrop = false ∧ (tc 15 s).state = 1 ∧
    ((tc 15 s).img.getD {}).odest = 1 ∧ outQueue 15 s = some 3 ∧ ((tc 15 s).outb.getD []).length + 1 ≤ 64 ∧ (que 3 s).dropping = false ∧ (que 3 s).flushing = false ∧
    (que 3 s).free ≠ 0 ∧ (que 3 s).openW < 64 ∧
    (tc 15 (core { running with wait := .recv 1 2, inb := [⟨true, [7], none⟩] })).wait = .recv 1 2 := by decide

theorem witness_HaldomFaultsStopTheProgram :
    let c (a : W128) : Tc := { running with regs := [(10, a), (31, 2)], faultWins := 1 }
    (c 0).canIssue = true ∧ (c 0).donorOf = none ∧ (c 0).faultWins < 2 ∧ addrOf (c 0x1FFFF) 10 0 4 < 0x20000 ∧ 0x80000 < addrOf (c 0x7FFF1) 10 0 16 + 16 ∧
    (0x20000 ≤ addrOf (c 0x20001) 10 0 4 ∧ addrOf (c 0x20001) 10 0 4 + 4 ≤ 0x80000 ∧ addrOf (c 0x20001) 10 0 4 % 4 ≠ 0) ∧
    (0x20000 ≤ addrOf (c 0x7FFF0) 10 0 16 ∧ addrOf (c 0x7FFF0) 10 0 16 + 16 ≤ 0x80000 ∧ addrOf (c 0x7FFF0) 10 0 16 % 16 = 0) ∧
    ((c 0).img.getD {}).codeLen ≤ (2 : BitVec 14).toNat ∧ ((c 0).img.getD {}).codeLen ≤ (laneOf ((c 0).v 31) 0).toNat % 16384 := by decide

theorem witness_TerrierTriggersFall :
    let s := core { running with wPend := true }
    (tc 15 s).img = some { codeLen := 2, wper := 1, cper := 1, slotHi := 511 } ∧ (tc 15 s).state = 1 ∧ (tc 15 s).donorOf = none ∧ (tc 15 s).wPend = true ∧
    condOn (0x40 + 15) 1 15 s = false ∧ ({ codeLen := 2, wper := 1, cper := 1, slotHi := 511 } : TImg).cper ≠ 0 := by decide

theorem witness_TerrierInputTakesWholeItems :
    let s : State := { core { running with inb := [⟨false, List.replicate 4094 0, none⟩] } with ques := [(3, { cons := 2, cnum := 15, pkts := [[1, 2]] })] }
    let t : State := { core { state := 5 } with ques := [(3, { cons := 2, cnum := 15, pkts := [[1, 2]] })] }
    (que 3 s).cons = 2 ∧ (que 3 s).cnum = 15 ∧ (que 3 s).headCut = false ∧ (que 3 s).pkts = [1, 2] :: [] ∧ (tc 15 s).shadow = none ∧ (tc 15 s).state ≠ 5 ∧
    sumNat ((tc 15 s).inb.map fun i => i.words.length) + 2 ≤ 4096 ∧ (tc 15 t).state = 5 ∧ condOn (0x40 + 15) 6 15 t = false ∧ (que 3 t).pkts = [1, 2] :: [] := by decide +kernel

theorem witness_TerrierImageAndCommitCommands :
    let s : State := { core { running with pend := true, pendImg := some {}, shDone := true } with rf := [(0x4F05C, 16383)] }
    let t := core { running with state := 5 }
    (page (0x40 + 15) s).freeze = false ∧ (tc 15 t).pend = false ∧ (rfGet (0x4005C + 15 * 0x1000) s).toNat < 16384 ∧ (tc 15 s).pend = true ∧ (tc 15 s).shadow = none ∧
    (tc 15 s).shDone = true ∧ (tc 15 s).pendSlice = false ∧ (tc 15 s).pendImg = some {} ∧ (tc 15 t).img ≠ none ∧ (tc 15 t).state = 5 ∧ serveCore 15 s = s ∧ serveCore 15 t = t ∧
    (let r := core running
     (tc 15 r).img ≠ none ∧ (tc 15 r).state = 1 ∧ (tc 15 r).faulted = false ∧ (tc 15 r).faultWins < 2 ∧ (tc 15 r).donorOf = none ∧ ((tc 15 r).img.getD {}).odest = 0 ∧ serveCore 15 r = r) := by decide +kernel

/-- A Terrier image of one word, signed for the key below: WPER 1000, slots 320–447. -/
def tcZ : Nat := 0x2039212bd32b615970778fc6f6513e145215cf4872bc42d0ce89231da131b95c
def tcKey : Nat × Nat := (0x1ea5bd494689dd8bf09bd840a82b13285f573233cfc3439e0f44fa4f512e16d8, 0x819ae89deb6b2e044dc28bcdc8171ce945f555b36adceddfaf600ab5f0eebdae)
def one16 : List Byte := 1 :: List.replicate 15 0
def tcDigest : Nat := 0xdf3f619804a92fdb4057192dc43dd748ea778adc52bc498ce80524c014b81119
def tcHdr : List Byte :=
  beBytes 4 0x564C494D ++ [2, 1, 0, 1] ++ leBytes 4 4 ++ [0, 255, 0, 0] ++ beBytes 32 tcDigest ++ one16 ++ one16 ++ one16 ++ List.replicate 32 0 ++
    leBytes 4 1000 ++ List.replicate 6 0 ++ leBytes 2 320 ++ leBytes 2 447 ++ List.replicate 658 0 ++ beBytes 32 tcZ ++ beBytes 32 tcZ ++ List.replicate 160 0
def commit15 : State := {
  core { running with stLen := 1 } with
  rf := [(0x60A0, 15)], fuse := { vkey := tcKey }, fwl := { hdrBuf := tcHdr, run := some { kind := 1, ifver := 256 } },
  pln := { active := some ⟨0, 0, 0, 0, 0, 0, { SliceBody.empty with programs := [⟨15, tcDigest, 0⟩] }⟩ } }

theorem witness_TerrierCommitIsCheckedAndScheduled :
    let s := commit15
    let h := s.fwl.hdrBuf
    let body := standbyBody 15 (hField h 8 4) s
    (page (0x40 + 15) s).freeze = false ∧ (rfGet 0x60A0 s).toNat = 15 ∧ serveCore 15 s = s ∧ (tc 15 s).stBad = false ∧ (tc 15 s).stLen ≠ 0 ∧
    (hField h 8 4 + 3) / 4 = (tc 15 s).stLen ∧ imageErr 2 h body s = 0 ∧ (∀ sup, s.fwl.run = some sup → pairRefused sup (hdrOf h) = false) ∧
    assignedTo s.pln.active 15 (timgOf h body).digest = true ∧ timgOk 15 (timgOf h body) s = true ∧ (tc 15 s).pend = false ∧ wbit (tcCtrl 15 s) 5 = false ∧ h ≠ [] ∧
    (tc 15 (core running)).stLen = 0 := by
  refine ⟨by decide +kernel, by decide +kernel, by decide +kernel, by decide +kernel, by decide +kernel, by decide +kernel, by decide +kernel, ?_, by decide +kernel, by decide +kernel,
    by decide +kernel, by decide +kernel, by decide +kernel, by decide +kernel⟩
  intro sup h
  cases h
  decide +kernel

theorem witness_TerrierSwitchesPrograms :
    let s := core { running with pend := true, pendImg := some {}, switchAt := some 5, shadow := some { donor := 14 } }
    let t := core { running with state := 4, pendImg := some {} }
    (tc 15 s).shadow = some { donor := 14 } ∧ (tc 15 s).pendImg = some {} ∧ (14 : Nat) ≠ 15 ∧ (tc 15 s).pend = true ∧ (tc 15 s).switchAt ≠ none ∧ (tc 15 s).state = 1 ∧
    (tc 15 s).faulted = false ∧ (tc 15 t).state = 4 ∧ (tc 15 t).drainUp = none ∧ (tc 15 t).pendImg = some {} ∧ t.fwl.run = none ∧
    (tc 15 (core { running with state := 4, drainUp := some 0 })).drainUp ≠ none ∧ ((tc 15 t).img.getD {}).odest = 0 := by decide

/-! ## Tattoo and the queues -/

/-- General group 0 as given, its first channel a three-wire RTD channel with a pulsed sense (R101); the last group for what a fast group has too. -/
def group (x : Group) : State := { grps := [(0, x), (23, { relief := some 8 })], chans := [(0, { w := [0x50800000, 0x38000000, 0, 0], duty := some 0, coarse := some 0 })] }
/-- A program under way, waiting for nothing. -/
def runs0 : Tat := { run := true, pc := 3 }
/-- A voltage channel's entry. -/
def volts0 : List Word := [0x40110000, 0x38000000, 0, 0x03196400]
/-- A group without excitation whose program runs. -/
def runs0Group : Group := { relief := some 16, tat := runs0 }
/-- An L group whose excitation is 10 V. -/
def lGroup : Group := { w := 0xE0A2E40A, com := 0xE0A2E40A, relief := some 16, tat := runs0 }

theorem witness_TattooControlWordsStepTheProgram :
    let s : State := { grps := [(23, { tat := { runs0 with loops := [(1, 2)] } })], tim := { ns := 1 } }
    let t : State := { grps := [(23, { tat := { runs0 with wait := some 0 } })] }
    let left := group { lGroup with tat := { runs0 with skip := true } }
    let relief (y : Group) : State := { group { y with relief := some 16, tat := runs0 } with chans := [(0, { w := volts0, com := volts0, duty := some 0, coarse := some 0 })], pwr := { sampling := some 0 } }
    s.fuse.hx000 = false ∧ (tat 23 s).run = true ∧ (tat 23 s).task = none ∧ (tat 23 s).skip = false ∧ (tat 23 s).wait = none ∧ (tat 23 s).loops = (1, 2) :: [] ∧
    (grp 23 s).relief = none ∧ (tat 23 t).run = true ∧ (tat 23 t).task = none ∧ (tat 23 t).skip = false ∧ (tat 23 t).wait = some 0 ∧ 0 ≤ unitNow 23 t ∧ (tat 0 left).skip = true ∧
    (tat 0 left).wait = none ∧ (tat 0 left).task = none ∧ (tat 0 left).run = true ∧ (group lGroup).pwr.stopped = false ∧ (grp 0 (relief {})).relief ≠ none ∧ mayTake 3 (grp 0 (relief { fwin := true })) = false ∧
    mayTake 3 (grp 0 (relief {})) = true ∧ rotTarget 0 (relief {}) = some 0 ∧ rotTarget 0 { relief {} with chans := [] } = none ∧ (tat 0 (relief {})).wait = none := by decide +kernel

theorem witness_TattooReliefWordsTakeOrDefer :
    let s := group lGroup
    let t := group { lGroup with fwin := true, tat := { runs0 with deferred := [1, 2, 3], defs := 3 } }
    let u := group { lGroup with fwin := true, tat := { runs0 with deferred := [1], defs := 4 } }
    let ready (s : State) : Prop := (tat 0 s).run = true ∧ (tat 0 s).wait = none ∧ (tat 0 s).task = none ∧ (tat 0 s).skip = false
    let free (s : State) : Prop := (grp 0 s).relief ≠ none ∧ (grp 0 s).freed = none ∧ (grp 0 s).fwin = false ∧ (grp 0 s).task = 0
    let words : List Word := [leadWord true 0, leadWord false 0, refWord 2 3 16, 0x60000000]
    s.fuse.hx000 = false ∧ ready s ∧ ready t ∧ ready u ∧ free s ∧ (words.all fun w => !(skipped 0 w s) && !(skipped 0 w t) && !(skipped 0 w u)) = true ∧ mayTake 5 (grp 0 t) = false ∧
    mayTake 1 (grp 0 t) = false ∧ mayTake 5 (grp 0 u) = false ∧ mayTake 1 (grp 0 u) = false ∧ (tat 0 t).defs < 4 ∧ 4 ≤ (tat 0 u).defs ∧ leadChan 0 true 0 s = some 0 ∧ leadChan 0 false 0 s = some 0 ∧
    leadChan 0 true 0 (group { runs0Group with relief := none }) = some 0 ∧ leadChan 0 false 1 s = none ∧ skipped 0 (leadWord false 1) s = true ∧ skipped 0 (refWord 3 0 16) s = true ∧
    skipped 0 0x60000000 (group runs0Group) = true ∧ (16 : Nat) ≤ (16 : Grp).val ∧ (tat 16 { grps := [(16, { tat := runs0 })] }).run = true ∧ pulseChans 0 true 0 s = 0 :: [] ∧
    pulseChans 0 false 0 s = 0 :: [] ∧ pulseChans 0 false 1 s = [] ∧ pulseChans 0 true 0 { s with chans := [] } = [] ∧ mayTake 6 (grp 0 t) = false := by decide

theorem witness_TattooFramesWindowsAndResults :
    let s := group { lGroup with tat := { runs0 with deferred := [0x50300010] } }
    let held := group { lGroup with task := 3, tat := { runs0 with deferred := [0x50300010] } }
    let p (ks : List PWin) (l : List Nat) (x : Chan) : State := {
      group { lGroup with task := 6, tat := { runs0 with wins := ks, toPulse := l, task := some 0x48000000 } } with chans := [(0, { x with duty := some 0 })] }
    let own : PWin := ⟨0, true, true⟩
    let chain : Chan := { w := [0x50800000, 0x38000000, 0, 0] }
    let e (y : Tat) : State := group { lGroup with task := 1, tat := y }
    let far (s : State) (exc : Nat) : Bool := decide (2 * (grp 0 s).excMv < ((exc : Int) - (grp 0 s).excMv).natAbs * 100)
    s.fuse.hx000 = false ∧ s.pwr.stopped = false ∧ (tat 0 s).run = true ∧ condOn 0x10 25 0 s = false ∧ (tat 0 s).deferred = 0x50300010 :: [] ∧ skipped 0 0x50300010 s = false ∧
    (grp 0 s).freed = none ∧ (grp 0 s).holder = 0 ∧ skipped 0 0x50300010 held = false ∧ (grp 0 held).holder ≠ 0 ∧ (grp 0 held).holder ≠ 1 ∧ skipped 0 0x53300010 s = true ∧
    (tat 0 s).wins.find? (·.ch = slotAt 0 0) = none ∧ (tat 0 (p [own] [] chain)).wins.find? (·.ch = slotAt 0 0) = some own ∧ { own with mine := false }.mine = false ∧ eCls (chan 0 (p [own] [] {})).w = 0 ∧
    own.mine = true ∧ (tat 0 (p [own] [] chain)).toPulse = [] ∧ (tat 0 (p [own] [] chain)).task = some 0x48000000 ∧ tatOp 0x48000000 = 4 ∧ (tat 0 (p [own] [1] chain)).toPulse = 1 :: [] ∧
    eCls (chan 0 (p [own] [] chain)).w ≠ 0 ∧ eBo (chan 0 (p [own] [] chain)).w = 2 ∧ (grp 0 (e {})).task = 1 ∧ tatOp 0x60000000 = 6 ∧ (e { runs0 with deferRun := some 0x60000000 }).pwr.stopped = false ∧
    (tat 0 (e { runs0 with task := some 0x60000000 })).deferRun = none ∧ far (e {}) 10201 = true ∧ far (e {}) 10200 = false ∧ (grp 0 (e {})).excMv = 10000 := by decide

/-- END alone, and its digest. -/
def tatEndDigest : Nat := 0xddee2e686b915c9e1592827ddf844d6e0a4280cae905fad493e3db80a7373308
/-- A standby bank that holds END alone, which the plan assigns. -/
def tatFilled : State := {
  grps := [(23, { tat := { bank1 := [(0, 0xB0000000)], stLen := 1, addr := 255 } })], rf := [(0x0F040, 23)],
  pln := { active := some ⟨0, 0, 0, 0, 0, 0, { SliceBody.empty with programs := [⟨39, tatEndDigest, 3⟩] }⟩ } }
/-- The same committed, its swap due. -/
def tatLoaded : State := { grps := [(23, { tat := { bank1 := [(0, 0xB0000000)], stLen := 1, addr := 255, pend := true, swapAt := some 0 } })], rf := [(0x0F040, 23)] }

theorem witness_TattooLoadsAndSwapsPrograms :
    let s := tatLoaded
    let t := tatFilled
    s.fuse.hx000 = false ∧ (page 0x0F s).freeze = false ∧ (rfGet 0x0F040 s).toNat % 32 = 23 ∧ (tat 23 t).pend = false ∧ (tat 23 t).addr < 256 ∧ (page 0x0F t).freeze = false ∧ (rfGet 0x0F040 t).toNat % 32 = 23 ∧
    (tat 23 t).isOver = false ∧ (tat 23 t).stLen ≠ 0 ∧ tatErr 23 (tat 23 t).next (standbyWords 23 t) (tat 23 t).isOver t = 0 ∧
    tatRefused (sha256 (tatBytes (standbyWords 23 t))) t = false ∧ (tat 23 State.reset).stLen = 0 ∧
    (tat 23 s).swapAt = some 0 ∧ s.pwr.stopped = false ∧ (tat 23 s).pend = true ∧ 0 ≤ s.tim.sec * 1000000000 + s.tim.ns ∧ tatRefused (tat 23 s).pDigest s = false ∧
    (tat 23 s).deferred = [] := by decide +kernel

/-- Queue 15 as given and selected. -/
def queue (u : Que) : State := { ques := [(15, u)], rf := [(0x0D040, 15)], fab := { grant := 4 } }

theorem witness_QueuesTakeWordsAndCommitPackets :
    let s := queue { prod := 2, en := true, size := 1, pkts := [List.replicate 64 0], open_ := some (List.replicate 63 0), pend := 1, coalT := 1 }
    let d := queue { prod := 3, en := true, owner := 2, open_ := some [1] }
    let full : Que := { size := 1, pkts := [List.replicate 255 0] }
    (que 15 s).prod = 2 ∧ (que 15 s).flushing = false ∧ (que 15 s).dropping = false ∧ (que 15 s).en = true ∧ (que 15 s).free ≠ 0 ∧ full.free = 1 ∧ (que 15 s).openW < 64 ∧
    (que 15 s).coalT ≠ 0 ∧ (que 15 s).pend ≠ 0 ∧ acts 2 (keyCoal 15) s = true ∧ (page pgQUE d).freeze = false ∧ (que 15 d).prod = 3 ∧ queSel d = 15 ∧ (que 15 d).dropping = false ∧
    (que 15 d).owner = (2 : Req).val ∧ (que 15 d).en = true ∧ (que 15 d).flushing = false ∧ (que 15 d).free ≠ 0 ∧ (que 15 d).openW < 64 ∧ (que 15 d).open_ = some [1] ∧ serveMerger d = d := by decide +kernel

theorem witness_QueuesAreReadAndConfigured :
    let s := queue { pkts := [[1, 2]], latch := true, epis := 3, hwm := 2 }
    let e := queue {}
    let n := queue { en := true }
    queSel s = 15 ∧ (que 15 s).cons = 0 ∧ (que 15 s).pkts = (1 :: [2]) :: [] ∧ (que 15 e).cons = 0 ∧ (que 15 e).pkts = [] ∧ (page pgQUE s).freeze = false ∧
    wbit 0x80000003 31 = true ∧ (que 15 s).chk = false ∧ wbits 0x80000003 0 16 = (que 15 s).epis ∧ (que 15 s).level ≤ (que 15 s).hwm ∧ (que 15 e).latch = false ∧
    (que 15 e).level ≤ (0 : Word).toNat % 2 ^ 19 ∧ (0 : Word).toNat % 2 ^ 19 < (que 15 (queue { pkts := [[1]] })).level ∧ (que 15 e).en = false ∧ (que 15 e).openW = 0 ∧
    wbits 0x03FF0001 0 11 ≠ 0 ∧ wbits 0x03FF0001 16 10 + wbits 0x03FF0001 0 11 ≤ 1024 ∧ overlaps 15 (wbits 0x03FF0001 16 10) (wbits 0x03FF0001 0 11) e = false ∧ (que 15 n).en = true ∧
    queSel n = 15 ∧ serveMerger s = s ∧ serveMerger e = e ∧ serveMerger n = n := by decide +kernel

/-! ## Lanes, rings and the Leash -/

/-- A worker's plan: the chain of hubs 0, 1 and 127, cable class 2 on ports 0 and 1. -/
def workerPlan : SliceBody := { SliceBody.empty with ports := [⟨1, 2, 0, 0, 0, 1, 0⟩, ⟨2, 2, 0, 0, 127, 1, 0⟩], rings := [⟨0, 0, [0, 1, 127], false, false⟩] }
/-- The worker of hub number 1, both its ports as given. -/
def worker (l : Lane) : State := { pln := { pos := 1, active := some ⟨1, 2, 3, 0, 1, 0, workerPlan⟩ }, lanes := [(0, l), (1, l)] }
/-- What its neighbour on port 0 sends. -/
def cap1 : CapBlk := { cap0 with planNum := 1, planDigest := 2, role := 1 }
/-- The worker with the quarantine of port 0 as given. -/
def checked (l : Lane) (q : PortSt) : State := { worker l with pln := { (worker l).pln with ports := [(0, q)] } }

theorem witness_LanesLockAndPassTheCheck :
    let hunt : Lane := { state := 1, slock := true, hunt := 15 }
    let b := (readSlot idle0 hunt).1
    let cap := checked { state := 2, rxXn := some 1 } { streak := 2 }
    let done := checked { state := 2, rxXn := some 0 } { q := false }
    let since (s : State) : Nat := if (port 0 s).streak = 0 then s.tim.up else (port 0 s).matchAt
    (lane 0 (worker { state := 6 })).slock = false ∧ (lane 0 (worker { state := 6 })).state ≠ 5 ∧ hunt.state = 1 ∧ hunt.slock = true ∧ hunt.block = false ∧ b.cvBurst = false ∧
    headerValid b = true ∧ b.atPhase = true ∧ hunt.hunt = 15 ∧ (lane 0 cap).state = 2 ∧ (lane 0 cap).rxXn ≠ some cap1.xn ∧ (port 0 cap).q = true ∧
    cap1.q = true ∧ checkCauses 0 cap1 cap = 0 ∧ 2 ≤ (port 0 cap).streak ∧ since { cap with tim := { up := 20000000 } } + 20000000 ≤ 20000000 ∧
    checkCauses 0 cap1 { cap with tim := { up := 20000000 } } = 0 ∧ cap.tim.up < since cap + 20000000 ∧ checkCauses 0 cap0 cap ≠ 0 ∧ condOn pgPLN 2 0 cap = false ∧
    (lane 0 done).rxXn = some cap1.xn ∧ (port 0 done).q = false ∧ { cap1 with q := false }.q = false ∧ checkCauses 0 { cap1 with q := false } done = 0 ∧
    fastest (commonRates 0 { cap1 with q := false } done) = (lane 0 done).rate := by decide +kernel

theorem witness_LanesRetrainStepAndIdle :
    let up := worker { state := 4, block := true, slock := true, rate := 3 }
    let idle := worker { state := 5, los := true }
    let trial : Lane := { state := 3, switched := true, rate := 1 }
    trial.state = 3 ∧ trial.switched = true ∧ trial.goOk = false ∧ trial.okRate = none ∧ (trial.rate :: trial.failed).count 0 < 2 ∧ ((0 : Nat) :: [1]).count 0 < 2 ∧
    (lane 0 (worker { state := 6 })).state = 6 ∧ (lane 0 up).state ≠ 0 ∧ (lane 0 (worker {})).state = 0 ∧
    isCP 7 = true ∧ isCP 0 = true ∧ (portPlan 0 up).use ≠ 0 ∧ (portPlan 0 up).cls = 2 ∧ true ≠ wbit (portCtrl 0 up) 4 ∧ (lane 0 up).state ≠ 5 ∧ (lane 0 up).eidleRx = false ∧
    (lane 0 up).block = true ∧ false = wbit (portCtrl 0 idle) 4 ∧ (lane 0 idle).state = 5 ∧ (lane 0 up).state = 4 ∧ (page (pgPort 0) up).freeze = false := by decide

/-- A block in order, one replayable, an out-of-range number where 128 blocks are held. -/
theorem witness_LanesSendTakeAndReplayBlocks :
    let l : Lane := { state := 4, slock := true, block := true, rxSeq := some 255, fill := 16, txSeq := 128, peakCur := 3, peakRef := 3 }
    let b := (readSlot idle0 l).1
    let test := (readSlot (slot0 0x80 [7]) l).1
    let bad := (readSlot { slot0 0x80 [7] with groups := (encSyms false ((blockSyms 0x80 0 [7] 0x7F).1.set 135 (symD 0))).1 } l).1
    let full : List (Nat × TxBlk) := (List.range 128).map fun k => (137 - k, { typ := 0x80, words := [] })
    1 ≤ l.state ∧ l.state ≤ 4 ∧ l.slock = true ∧ l.block = true ∧ b.cvBurst = false ∧ headerValid b = true ∧ l.rxSeq = some 255 ∧ (255 + 1) % 256 = b.seq ∧ l.missing = none ∧
    (elastic b l).2 = false ∧ b.typ = 0 ∧ typeReplayable test.typ = true ∧ test.cvBurst = false ∧ headerValid test = true ∧ test.seq = 0 ∧ (elastic test l).2 = false ∧
    test.crc = crc32 (crcBytes test.typ test.seq test.words) ∧ typeReplayable bad.typ = true ∧ bad.cvBurst = false ∧ headerValid bad = true ∧ bad.seq = 0 ∧ (elastic bad l).2 = false ∧
    bad.crc ≠ crc32 (crcBytes bad.typ bad.seq bad.words) ∧ (l.discards.filter fun t => 0 ≤ t + 1000000).length < 15 ∧ l.kept.length < 128 ∧ full.length = 128 ∧
    full.getLast? = some (10, { typ := 0x80, words := [] }) ∧ (sentAs 138 5).getD 0 < 10 ∧ l.lead = none ∧ l.urgent = [] ∧ l.resend = [] ∧ l.ctl = [] ∧ l.strA = [] ∧ l.strB = [] ∧
    l.strC = [] ∧ { l with urgent := [{ typ := 0x80, words := [] }] }.urgent = { typ := 0x80, words := [] } :: [] ∧
    wbit (portCtrl 0 (worker l)) 5 = false ∧ (clampInt 0 15 ((l.peakCur : Int) + clampInt (-1) 1 1)).toNat ≠ l.peakCur ∧ l.idleRx = false ∧
    (clampInt 0 15 ((5 : Int) + clampInt (-1) 1 1)).toNat + 2 < 9 := by decide +kernel

/-- A manager's plan: the chain of hubs 0, 1 and 127 on port 0, the duplex link on ports 10 and 11. -/
def managerPlan : SliceBody := {
  SliceBody.empty with
  ports := [⟨1, 2, 0, 0, 1, 0, 0⟩] ++ List.replicate 9 noPort ++ [⟨5, 4, 0, 0, 127, 1, 10⟩, ⟨5, 4, 0, 0, 127, 1, 11⟩], rings := [⟨0, 0, [0, 1, 127], false, false⟩] }
/-- Manager A of segment 0 in a role, its links up, REFMODE 0. -/
def manager (role : Nat) (l : Lsh) : State := {
  pln := { role := role, active := some ⟨1, 2, 3, 0, 0, role, managerPlan⟩ }, lsh := l, rf := [(0xA040, 0x000A0000)],
  lanes := [(0, { state := 4 }), (10, { state := 4 }), (11, { state := 4 })] }

theorem witness_RingsKnowBrokenAndRestoredHops :
    let s := worker { state := 4 }
    let b : State := { worker { state := 4 } with lsh := { rings := [(0, { broken := [2], wraps := [2] })] } }
    (ringSt 0 s).broken.contains 2 = false ∧ (ringSt 0 b).broken.contains 2 = true ∧ (lane 1 b).state = 4 ∧
    ((List.range 24).find? fun p => match portHop p b with | some (r, h) => decide (r.key = (0 : Fin 16).val) && decide (h = 2) && facesEast p b | none => false) = some 1 := by decide

theorem witness_RingsReplaceAWorker :
    let m (l : Lsh) : State := { manager 1 l with rf := [(0xA078, 1)] }
    let hub (s : State) : Nat := (rfGet 0xA078 s).toNat % 128
    let err (s : State) : Nat := if isHolder s = false then 4 else if (ringSt (workerRing (hub s)) s).broken ≠ [] then 1 else if s.lsh.svcState ≠ 0 then 2 else if assigned (hub s) s = false then 3 else 0
    (page pgLSH (m {})).freeze = false ∧ err (m { lrole := 1 }) = 0 ∧ err (m {}) = 4 ∧ err (m { lrole := 1, rings := [(0, { broken := [1] })] }) = 1 ∧
    err (m { lrole := 1, svcState := 1 }) = 2 ∧ err { manager 1 { lrole := 1 } with rf := [(0xA078, 5)] } = 3 ∧ isHolder (m { lrole := 1, svcState := 1 }) = true ∧ isHolder (m { lrole := 1, svcState := 3 }) = true ∧
    ({ stopped := false, stopAt := some 3 } : Lsh).stopped = false := by decide

theorem witness_LeashRenewsLapsesAndIsGranted :
    let m := manager 1 { lrole := 1, sentAt := [(7, 5)], sinceAt := some 0 }
    let head := manager 2 { lrole := 1, term := 3, open_ := [(5, 127)], pairs := [(6, 0, 0, 2)] }
    let by_ (l : Lsh) : State := { manager 2 l with tim := { up := 11000000 } }
    isHolder m = true ∧ m.lsh.sentAt.find? (·.1 = 7) = some (7, 5) ∧ isManager m = true ∧ 0 = mySeg m ∧ m.lsh.term ≤ 0 ∧ isHead head = true ∧ isHolder head = true ∧ 5 ≠ mySeg head ∧
    mayGrant 5 127 head = true ∧ mayGrant 6 127 head = false ∧ head.lsh.open_.find? (·.1 = 5) = some (5, 127) ∧
    (manager 2 { lrole := 1, open_ := [(6, 127)], pairs := [(6, 0, 0, 2)] }).lsh.open_.find? (·.1 = 6) = some (6, 127) ∧
    mayGrant 6 127 (manager 2 { lrole := 1, open_ := [(6, 127)], pairs := [(6, 0, 0, 2)] }) = false ∧
    (by_ { lrole := 2, sinceAt := some 0 }).lsh.lrole = 2 ∧ renewalOverdue (by_ { lrole := 2, sinceAt := some 0 }) = true ∧ fixedHolder (by_ { lrole := 2 }) = false ∧
    isManager (by_ { lrole := 4 }) = true ∧ (by_ { lrole := 4 }).lsh.lrole = 4 ∧ (page pgLSH head).freeze = false ∧ fixedHolder head = false ∧
    (manager 2 { lrole := 1, renew := 7, sentAt := [(7, 5)] }).lsh.sentAt.find? (·.1 = (7 : Word).toNat) = some ((7 : Word).toNat, 5) ∧
    (by_ { lrole := 3, sinceAt := some 0 }).lsh.lrole = 3 ∧ renewalOverdue (by_ { lrole := 3, sinceAt := some 0 }) = true ∧ isManager (by_ { lrole := 3 }) = true ∧ fixedHolder (by_ { lrole := 3 }) = false ∧
    isHead m = false ∧ m.lsh.sinceAt = some 0 ∧ periodNs m ≤ 10000000 - 0 ∧ m.fwl.state ≠ 4 ∧ m.fwl.state ≠ 5 := by decide

theorem witness_LeashHandoffAndJournal :
    let h := manager 2 { lrole := 1, hoPend := true }
    let b := manager 1 { lrole := 2, jseq := 4, term := 3, synced := true }
    let c (snap : Bool) : State := manager 1 { lrole := 3, jseq := 4, term := 3, snap := snap }
    (page pgLSH h).freeze = false ∧ granted 6 0 h = true ∧ isHolder h = true ∧ h.lsh.hoPend = true ∧ isManager h = true ∧ 0 = mySeg h ∧ isHead h = true ∧ 5 ≠ mySeg h ∧
    isManager b = true ∧ isHolder b = false ∧ 3 = b.lsh.term ∧ 5 = (b.lsh.jseq + 1) % 2 ^ 32 ∧ b.lsh.lrole ≠ 3 ∧ 4 ≠ (b.lsh.jseq + 1) % 2 ^ 32 ∧ 4 ≤ b.lsh.jseq ∧ 6 ≠ (b.lsh.jseq + 1) % 2 ^ 32 ∧
    b.lsh.jseq < 6 ∧ b.lsh.synced = true ∧ (manager 1 { lrole := 2 }).lsh.synced = false ∧ isHolder (manager 1 { lrole := 2 }) = false ∧
    (c true).lsh.lrole = 3 ∧ isManager (c true) = true ∧ isHolder (c true) = false ∧ 3 = (c true).lsh.term ∧ (c false).lsh.snap = false ∧ (c true).lsh.snap = true ∧ 5 = ((c true).lsh.jseq + 1) % 2 ^ 32 ∧ duplexPorts h ≠ [] := by decide

/-! ## Osden time -/

/-- The marker exchange of a usable source with twice the offset and twice the delay as given. -/
def good (e2 d : Int) : Mark := { run := 3, pstate := 2, phops := 1, theta2 := some (e2, d) }
/-- The worker's ports out of quarantine, in a time state. -/
def timed (t : Tim) (v : Srv) : State := {
  worker { state := 4, block := true } with
  tim := t, srv := v, pln := { (worker {}).pln with ports := [(0, { q := false }), (1, { q := false })] } }

theorem witness_TimeServoFollowsItsSource :
    let s0 := timed {} { src := 0, marks := [(0, good 6 9)] }
    let s1 (e2 : Int) (st far : Nat) := timed { set := true, inserv := true } { src := 0, state := st, farcnt := far, lockcnt := 15, marks := [(0, good e2 9)] }
    let sw := timed { set := true } { src := 1, state := 2, marks := [(0, good 6 9)] }
    let m (l : Lane) : State := { manager 1 {} with lanes := [(10, l)] }
    wbit (srvCtrl { s0 with rf := [(0x4040, 0x80)] }) 7 = true ∧ wbit (srvCtrl s0) 7 = false ∧ isHead s0 = false ∧ s0.srv.src = 0 ∧ usable 0 s0 = true ∧
    (mark 0 s0).theta2 = some (6, 9) ∧ (mark 0 s0).pstate ≠ 3 ∧ s0.srv.state = 0 ∧ usable 0 (s1 256000000 1 3) = true ∧ (mark 0 (s1 256000000 1 3)).theta2 = some (256000000, 9) ∧
    (s1 256000000 1 3).tim.inserv = true ∧ (mark 0 (s1 6 2 3)).pepoch ≤ (s1 6 2 3).tim.epoch ∧ (256000000 : Int).natAbs ≤ 256000000 ∧ usable 0 (s1 (-256000001) 2 3) = true ∧
    256000000 < (-256000001 : Int).natAbs ∧ epochFull s0 = false ∧ (s1 6 2 0).srv.state = 2 ∧ bestSource (modMark 0 (fun m => { m with run := 0 }) (s1 6 2 0)) = none ∧ s0.tim.set = false ∧
    bestSource (timed {} {}) = none ∧ isHead (timed {} {}) = false ∧ usable 0 sw = true ∧ (candidates sw).contains 0 = true ∧ sw.srv.src ≠ 0 ∧ sourceRank 0 sw < sourceRank sw.srv.src sw ∧
    isCP 8 = false ∧ isCP 10 = false ∧ (portPlan 10 (m { state := 4, block := true })).use ≠ 0 ∧ (lane 10 (m { state := 4, block := true })).block = true ∧
    (lane 10 (m { state := 4, block := true })).state ≠ 5 ∧ (timed { set := true } {}).pln.active ≠ none ∧ originates (timed { set := true } {}) = false ∧
    (timed { set := true } {}).tim.ns % 100000000 = 0 ∧ (timed { set := true } {}).tim.inserv = false ∧ (timed { set := true } {}).tim.set = true ∧ (page pgSRV s0).freeze = false ∧
    ¬ (wbits 0x24242400 24 4 < wbits 0x24242400 28 4 + 2 ∨ wbits 0x24242400 16 4 < wbits 0x24242400 20 4 + 2 ∨ wbits 0x24242400 8 4 < wbits 0x24242400 12 4 + 2) ∧
    wbits 0x23242400 24 4 < wbits 0x23242400 28 4 + 2 := by decide

theorem witness_TimeMarkersMeasureAndRingsClose :
    let s := timed { set := true, inserv := true, epoch := 1 } { marks := [(0, { (good 6 9) with last := some (7, 100, 200), sent := [(3, 50)] })] }
    let hops : FMap (Option (Int × Int)) := [(1, some (5, 9)), (2, some (-5, 9))]
    let c (h : FMap (Option (Int × Int))) (l : Lsh) : State := {
      manager 1 l with srv := { state := 2, clos := [(0, { good := 1, hops := h })], marks := [(10, { pstate := 2, sets := 1 })] } }
    let held := c hops { lrole := 1 }
    let far : FMap (Option (Int × Int)) := [(1, some (6401, 9)), (2, some (0, 9))]
    let chain : RingPlan := ⟨0, 0, [0, 1, 127], false, false⟩
    let ec (s : State) : Int := sumInt ((hopList chain).map fun j => ((FMap.get (fun _ => none) (clos 0 s).hops j).getD (0, 0)).1) - 0
    let member : State := { timed { set := true } { state := 2, marks := [(0, { isNew := false })] } with tim := {} }
    (lane 0 s).state ≠ 0 ∧ (lane 0 s).state ≠ 5 ∧ (mark 0 s).theta2 = some (6, 9) ∧ (mark 0 s).last = some (7, 100, 200) ∧ isHead s = false ∧ mark0.ep = none ∧
    { mark0 with echoV := true, echoSeq := 3 }.echoV = true ∧ (mark 0 s).sent.find? (·.1 = 3) = some (3, 50) ∧ { mark0 with epoch := 1 }.epoch = s.tim.epoch ∧ mark0.echoV = false ∧
    mark0.epoch < s.tim.epoch ∧ (candidates s).contains 0 = true ∧ condOn pgTIM 5 0 s = false ∧ s.tim.epoch < { mark0 with epoch := 2 }.epoch ∧ s.tim.inserv = true ∧
    (portPlan 0 s).use ≠ 0 ∧ (port 0 s).q = false ∧ (lane 0 s).block = true ∧ mark0.state = 2 ∧ 2 ≤ (mark 0 s).run ∧ s.tim.up < (mark 0 s).at_ + 2 * measPeriod 0 ∧
    closRing 0 held = some chain ∧ myPlace chain held = some 0 ∧ wbit (srvCtrl held) 6 = true ∧ (ringSt 0 (c hops { rings := [(0, { broken := [1] })] })).broken ≠ [] ∧
    closReady chain held = true ∧ roundDelta 0 held = some 0 ∧ (∀ j ∈ hopList chain, FMap.get (fun _ => none) (clos 0 held).hops j ≠ none) ∧
    (∀ a ∈ closAlpha (hopList chain) (clos 0 held) (ec held), a.2.natAbs ≤ 6400) ∧ closReady chain (c far { lrole := 1 }) = true ∧ roundDelta 0 (c far { lrole := 1 }) = some 0 ∧
    (closAlpha (hopList chain) (clos 0 (c far { lrole := 1 })) (ec (c far { lrole := 1 }))).find? (fun a => 6400 < a.2.natAbs) = some (1, 6401) ∧
    closRing 0 member = some chain ∧ myPlace chain member = some (0 + 1) ∧ 0 + 2 ≠ chain.members.length ∧ ringPort 0 false member = some (0 : Port).val ∧ member.srv.state = 2 ∧
    (mark 0 member).isNew = false := by decide +kernel

theorem witness_TimeOfDayPulsesAndEpochs :
    let head (t : Tim) : State := { manager 2 { lrole := 1 } with tim := t }
    let src : State := { head { inserv := true, set := true, ppsQ := false } with rf := [(0x3078, 0), (0x3074, 1), (0x307C, 1000000)] }
    let edge : Tim := { sec := 2, ns := 100000, pps := (1, 0), ppsAny := true, ppsRun := 2 }
    let pps (t : Tim) : State := { head t with srv := { state := 5 }, rf := [(0x3040, 0x000A4100)] }
    let ann : EpAnn := ⟨1, 0, 1, 0, 0⟩
    (page pgTIM (head {})).freeze = false ∧ todErr false (head { ann := some ⟨1, 2, 3, 0, 0⟩ }) ≠ 0 ∧ todErr false (head {}) = 0 ∧ (head {}).tim.inserv = false ∧
    todErr false { src with tim := { inserv := true, set := true, sec := 1 } } = 0 ∧
    ((({ src with tim := { inserv := true, set := true, sec := 1 } } : State).tim.sec * 1000000000 : Nat) : Int) - ((1000000000 + 1000000 : Nat) : Int) = -1000000 ∧
    todErr false { head { inserv := true, sec := 5 } with rf := [] } = 0 ∧ todErr true (head { ppsQ := true }) = 0 ∧ todErr true (head {}) ≠ 0 ∧
    true ≠ wbit (timCtrl (head {})) 15 ∧ isHead (worker {}) = false ∧ wbit (timCtrl { worker {} with rf := [(0x3040, 0x00002000)] }) 13 = true ∧
    true ≠ wbit (timCtrl { worker {} with rf := [(0x3040, 0x00002000)] }) 15 ∧ isHead (head edge) = true ∧
    (((now (head edge)).total : Int) - ((edge.pps.1 * 1000000000 + edge.pps.2 : Nat) : Int) - 1000000000).natAbs ≤ 100000 ∧ edge.ppsQ = false ∧ edge.ppsRun = 2 ∧ edge.todPend = false ∧
    timSrc (head edge) ≠ 1 ∧ timSrc src ≠ 1 ∧ timSrc (pps {}) = 1 ∧ (pps { ppsQ := true }).tim.ppsQ = true ∧ (pps {}).srv.state = 5 ∧ wbits (timCtrl (head {})) 16 8 ≠ 0 ∧ (head {}).srv.state ≠ 3 ∧
    (head { inserv := true }).tim.ppsOut = false ∧ (head {}).tim.ns ≤ 2 ∧
    (10 : Nat) + min 99 (wbits (timCtrl (head { ppsOut := true, ppsRise := 10, up := 100000010 })) 16 8) * 10000000 ≤ 100000010 ∧ (head {}).tim.ann = none ∧ (head {}).tim.adopt ≠ some 1 ∧
    (head { ann := some ann }).tim.ann2 = none ∧ (head { ann := some ann }).tim.waitEp = false ∧
    (0 : Nat) < (⟨1, 0, 1, 0, 0⟩ : EpAnn).next ∧ (now (head {})).total < (⟨1, 0, 1, 0, 0⟩ : EpAnn).te ∧ (⟨1, 0, 0, 0, 0⟩ : EpAnn).te ≤ (now (head {})).total ∧
    (⟨1, 0, 1, 0, 0⟩ : EpAnn).next < (⟨2, 0, 1, 0, 0⟩ : EpAnn).next ∧ epochFull (head {}) = false ∧ isHolder (head {}) = true ∧
    (now (head {})).total + 2000000 ≤ (⟨1, 0, 2000000, 0, 0⟩ : EpAnn).te ∧ (⟨1, 0, 1999999, 0, 0⟩ : EpAnn).te < (now (head {})).total + 2000000 := by decide

/-! ## The delivery promise -/

/-- A contract of class B in segment 0, slots 0 to 15 of device 1 into queue 0. -/
def conB : Contract := { cls := 2, scope := 1, epkind := 0, epnum := 0, runs := true, lat := 1000, keep := 100, parts := [⟨1, [(0, 15)], 1000, 100⟩] }
/-- The worker with contract 5 as given, and what it edits. -/
def sourceOf (c : ConSt) (edit : FMap Word) : State := { timed {} {} with del := { cons := [(5, c)] }, rf := (0xB040, 5) :: edit }
/-- The edit buffer of a contract of class C from device 1. -/
def edits (scope lat : Nat) : FMap Word := [(0xB050, BitVec.ofNat 32 (3 * 2 ^ 30 + scope * 2 ^ 28)), (0xB054, BitVec.ofNat 32 (lat * 65536 + 100)), (0xB058, 1000), (0xB05C, 0x00010064), (0xB060, 0x0003C000)]
def terms0 : AdmitTerms := ⟨0, [], 0, none⟩
/-- An active source of `conB` that has sent an ANCHOR. -/
def src5 : ConSt := { ent := some conB, state := 2, isSrc := true, lastAnchor := some ⟨0, 0, 0⟩, tokens := 100000000000 }

theorem witness_ContractsAreAdmittedStartedAndEnded :
    let edit (scope lat : Nat) (c : ConSt) : State := sourceOf c (edits scope lat)
    let err (s : State) : Nat := admitErr (csel s) (editCon s) terms0 s
    let local5 : Contract := { conB with scope := 0 }
    (page pgMRG (edit 0 1000 {})).freeze = false ∧ ([edit 0 1000 {}, edit 1 1000 {}, edit 0 50001 {}, edit 0 1000 { ent := some conB, state := 1 }].all fun s => decide (serveMerger s = s)) = true ∧ err (edit 0 1000 {}) = 0 ∧ err (edit 1 1000 {}) = 2 ∧ err (edit 0 1000 { ent := some conB, state := 1 }) = 1 ∧ 3 ≤ err (edit 0 50001 {}) ∧
    (con 5 (edit 0 1000 { ent := some local5, state := 1 })).ent = some local5 ∧ owns local5 (edit 0 1000 { ent := some local5, state := 1 }) = true ∧
    ({ ent := some conB, startSec := some 0, state := 1 } : ConSt).runs = [] ∧ 0 ≤ (edit 0 1000 {}).tim.sec ∧ owns conB (sourceOf {} []) = false ∧ condOn pgMRG 24 5 (edit 0 1000 {}) = false ∧ condOn pgMRG 25 5 (edit 0 50001 {}) = false ∧ condOn pgMRG 26 5 (sourceOf {} []) = false ∧
    (sourceOf { ent := some conB, state := 3, isSrc := true, endSec := some 0 } []).del.ins = [] := by decide

/-- The number 0 follows 0xFFFF_FFFF. -/
theorem witness_SourcesNumberKeepSendAndResend :
    let o : OpenRun := { slot := 3, rate := 0, t := ⟨0, 0, 0⟩, samples := [1, 2], at_ := 0 }
    let i : Item := { item0 with t := ⟨0, 0, 0⟩ }
    let s (c : ConSt) : State := { sourceOf c [] with tim := { ns := 5, up := 1000001000 } }
    let k : KItem := { seq := 0, span := 1, item := i, at_ := 1000, sent := true }
    runOf 3 (con 5 (s { src5 with runs := [o] })) = some o ∧ barred 5 o.t (s src5) = false ∧ isManager (s src5) = false ∧ conB.scope ≠ 0 ∧ partOf conB (myDev (s src5)) = some ⟨1, [(0, 15)], 1000, 100⟩ ∧
    (s src5).bst.running.contains 64 = false ∧ src5.state ≠ 3 ∧
    Stamp.lt i.t (liveLimit 5 (s { src5 with ready := [i] })) = true ∧ anchorWhy { src5 with ready := [i] } i.t = [] ∧ i.size ≤ reserveWords conB (myDev (s src5)) ∧
    sourceCons 2 (s src5) = [5] ∧ src5.hz = none ∧ 1 ≤ reserveWords conB (myDev (s src5)) ∧ sub32 1 0 ≤ sub32 2 0 ∧ sub32 2 0 < sub32 3 0 ∧
    (ringPlans (s src5)).find? (·.kind = 0) = some ⟨0, 0, [0, 1, 127], false, false⟩ ∧ sendPorts ⟨0, 0, [0, 1, 127], false, false⟩ 2 (s src5) = [0] ∧
    conIds (s src5) = [5] ∧ agedCount { src5 with kennel := [k] } 1000001001 ≠ 0 ∧ agedCount { src5 with kennel := [k] } 1000001000 = 0 ∧ condOn pgKEN 2 5 (s src5) = false ∧
    ({ stopAt := some 3 } : Lsh).stopAt ≠ none := by decide +kernel

/-- A segment holder that merges contract 5 of its worker, device 1. -/
def merging (m : MIn) (ins : List MIn) : State := {
  manager 1 { lrole := 1 } with
  del := { cons := [(5, { ent := some conB, state := 2, isMerge := true, isCons := true })], ins := m :: ins, anchors := [(1, { cur := some ⟨0, 0, 0⟩ })] } }

theorem witness_MergerOrdersHolesAndAcknowledges :
    let m : MIn := { dev := 1, con := 5, expected := 7, horizon := some ⟨0, 0, 0⟩ }
    let w : MIn := { dev := 2, con := 5 }
    let s := merging m [w]
    let b : State := { manager 2 { lrole := 1 } with del := { (merging m []).del with hz := [(2, some ⟨0, 0, 0⟩)] }, ques := [(0, { prod := 1, en := true })] }
    let one : W128 := 512 * 2 ^ 9
    let hzn : W128 := 2 * 2 ^ 120 + 512 * 2 ^ 9 + 3 * 2 ^ 7
    let item : Item := itemAt ⟨0, 0, 0⟩ one []
    findIn 1 5 s = some m ∧ (con 5 s).ent = some conB ∧ mergesHere 2 s = true ∧ isHead s = false ∧ heldHz 2 s = none ∧ clsOfIn w s = 2 ∧ w.horizon = none ∧
    scopeOf 5 s ≠ 0 ∧ readItem 1 [one] (seeAnchor [one] s) = some item ∧ readItem 1 [one] s = some item ∧ item.kind ≠ .control ∧ item.isCtrl 2 = false ∧
    item.isCtrl 4 = false ∧ sub32 7 7 = 0 ∧ mergeWords s + item.size ≤ mergeRoom s ∧ readItem 1 [3 * one] (seeAnchor [3 * one] s) = none ∧
    instantOf false hzn s = some ⟨0, 0, 0⟩ ∧ (itemAt ⟨0, 0, 0⟩ hzn []).isCtrl 2 = true ∧ m.held = [] ∧ s.bst.running.contains 64 = false ∧ (con 5 s).isMerge = true ∧
    m.cap = .none ∧ m.absent = false ∧ (con 5 s).state ≠ 3 ∧ 2 ^ 31 ≤ sub32 6 7 ∧ sub32 8 7 ≠ 0 ∧ sub32 8 7 < 2 ^ 31 ∧ 1 ≠ myDev s ∧
    condOn pgMRG (mrgBit 2 4) 5 s = false ∧ (∀ x ∈ s.del.ins, x.held = []) ∧ { m with cap := .stall, fresh := true }.cap = .stall ∧
    { m with fresh := true }.fresh = true ∧ conB.epkind ≠ 1 ∧ clsOfIn m s = Cls.b.code ∧ condOn pgMRG (mrgBit 2 1) (1 * 8192 + 5) s = false ∧
    findIn 0 5 (merging { m with dev := 0, cap := .hole } []) = some { m with dev := 0, cap := .hole } ∧ 0 = myDev s ∧ (con 5 s).isCons = true ∧ mergesHere 2 b = true ∧
    (∀ x ∈ b.del.ins, x.held = []) ∧ b.pln.role ≠ 1 ∧ conB.epkind = 0 ∧ (que 0 b).flushing = false ∧ (que 0 b).open_ = none ∧ releasedHz 2 b = some ⟨0, 0, 0⟩ ∧
    deliveredCons 2 b = [(5, conB)] ∧ (que 0 b).prod = 1 ∧ (que 0 b).en = true ∧ (horizonItem 2 ⟨0, 0, 0⟩ b).words.length ≤ (que 0 b).free ∧
    releasedHz 2 ({ manager 2 { lrole := 1 } with del := { hz := [(2, some ⟨0, 0, 0⟩)] } }) = some ⟨0, 0, 0⟩ ∧
    deliveredCons 2 ({ manager 2 { lrole := 1 } with del := { hz := [(2, some ⟨0, 0, 0⟩)] } }) = [] := by decide +kernel

/-! ## Host ports -/

/-- Host ring 3 and queue 3 as given; bus mastering, D0 and the link at 5 GT/s. -/
def ringed (h : Hr) (u : Que) : State := { pci := { bme := true, speed := 2, rings := [(3, h)] }, ques := [(3, u)] }

theorem witness_HostRingsFillAndComplete :
    let d : Desc := ⟨0x1000, 64, false⟩
    let p : List W128 := [1, 2]
    let i : HrItem := ⟨false, 5, 1, 0, [9, 8]⟩
    let run (h : Hr) : State := ringed { h with state := 1, tail := 2, cfg := 0x44010501 } { cons := 1, pkts := [p] }
    let s := run { descs := [d], inbuf := [i], notice := 1 }
    (page pgPCI s).freeze = false ∧ ((2 : Word).toNat % 65536 + 65536 - (hr 3 s).head) % 65536 ≤ (hr 3 s).size ∧ (hr 3 s).size < ((0xFFFF : Word).toNat % 65536 + 65536 - (hr 3 s).head) % 65536 ∧
    (hr 3 (ringed {} {})).en = false ∧ wbit 0x80000001 31 = true ∧ wbit 0x80000001 0 = true ∧ s.pci.quiesce = false ∧ (hr 3 (ringed { cfg := 0x80000000 } {})).en = true ∧
    ({ bme := true, quiesce := true } : Pci).quiesce = true ∧ (hr 3 s).state = 1 ∧ busOk s = true ∧ (hr 3 s).wait = [] ∧ (hr 3 (run {})).descs = [] ∧ (descOf (0x1000, 0, 64)).bad = false ∧
    (descOf (0x1000, 0, 4097)).bad = true ∧ unread (hr 3 (run {})) ≠ 0 ∧ (hr 3 s).descs = d :: [] ∧ d.bad = false ∧ (hr 3 s).openW + i.words.length ≤ d.bufw ∧ (hr 3 s).openW + p.length ≤ d.bufw ∧
    (que 3 s).cons = 1 ∧
    (que 3 s).pkts[hrQueued 3 s]? = some p ∧ condOn pgPCI 18 3 s = false ∧ (hr 3 s).inbuf ≠ [] ∧ wbit (hr 3 s).cfg 30 = true ∧ acts 1 (keyHr 3) { s with fab := { grant := 3 } } = true ∧
    wbits (hr 3 s).cfg 0 8 ≠ 0 ∧ (hr 3 s).notice ≠ 0 ∧ acts 2 (keyHr 3) { s with fab := { grant := 4 } } = true ∧ ({ flushing := true } : Que).cons ≠ 1 ∧ ({ flushing := true } : Que).prod ≠ 2 ∧
    (hr 3 (run { asked := 1 })).asked ≠ 0 ∧ posted (hr 3 (run {})) ≠ 0 ∧ s.tim.up < (hr 3 s).openAt + (hr 3 s).closeNs ∧
    (let t : State := { s with tim := { up := 100000000 } }
     (hr 3 t).openAt + (hr 3 t).closeNs ≤ t.tim.up ∧ (hr 3 t).noteAt + (hr 3 t).itimeNs ≤ t.tim.up) := by
  decide

theorem witness_PcieFunctionAndVectors :
    let up : State := ringed {} {}
    let down : State := { up with pci := { speed := 0 } }
    up.pci.speed ≠ 0 ∧ (2 : Fin 4).val ≠ 0 ∧ down.pci.bme = false ∧ down.pci.speed = 0 := by decide

/-- A request with no command, its counter and CRC as the rules say; and the port with what it streams. -/
def emptyRequest (rq : Nat) : List Byte := let b := BitVec.ofNat 8 rq :: List.replicate 59 (0 : Byte); b ++ leBytes 4 (crc32 b)
def port4 (f : Fsp) : State := { fsp := f, fab := { grant := 0x101 }, del := { ins := [{ dev := 1, con := 5 }] } }

theorem witness_FspFramesRequestsAndReplies_frames :
    let s := port4 { sbuf := [1, 2, 3], sitems := [1, 2], ssent := 2, anyAlive := false }
    let f := s.fsp
    f.lenNext = none ∧ 512 = f.len ∧ 500 ≠ f.len ∧ leNat (slice (padTo 64 (emptyRequest 1)) 60 4) = crc32 ((padTo 64 (emptyRequest 1)).take 60) ∧ ¬ leNat (slice (padTo 64 []) 60 4) = crc32 ((padTo 64 []).take 60) ∧
    f.anyAlive = false ∧ (nth 0 (padTo 64 (emptyRequest 5)) 0).toNat ≠ (f.rq + 1) % 256 ∧ (nth 0 (padTo 64 (emptyRequest 1)) 0).toNat = (f.rq + 1) % 256 ∧
    fspParse (s.fab.grant.toNat.testBit 8) (fspWords (slice (emptyRequest 1) 4 56)).length (fspWords (slice (emptyRequest 1) 4 56)) = some [] := by decide +kernel

theorem witness_FspFramesRequestsAndReplies :
    let s := port4 { sbuf := [1, 2, 3], sitems := [1, 2], ssent := 2, anyAlive := false }
    let f := s.fsp
    fspBad f (1, 0, 0x54064, []) = true ∧ fspBad f (1, 1, 0x54064, []) = false ∧ fspLeft s < 4 * 255 ∧ 4 ≤ fspLeft s ∧ s.fab.shadows = [] ∧ (page pgFSP s).freeze = false ∧ (1 : BitVec 20).toNat % 4 ≠ 0 ∧
    s.fab.grant.toNat.testBit 8 = true ∧ fspNext 1 f = some 1 ∧ 8 ≤ fspLeft s ∧ ({} : State).fab.grant.toNat.testBit 8 = false ∧ f.sbuf.length + item0.words.length ≤ 4096 ∧
    findIn 1 5 s = some { dev := 1, con := 5 } ∧ condOn pgFSP 4 0 s = false ∧ 40 ≤ (40 : Word).toNat % 8192 ∧ (40 : Word).toNat % 8192 % 8 = 0 ∧ (4104 : Word).toNat % 8192 > 4096 := by decide

/-- A buffer so full that no item fits. -/
theorem witness_FspStreamBufferFull : 4096 < (port4 { sbuf := List.replicate 4096 0 }).fsp.sbuf.length + item0.words.length := by
  simp only [port4, List.length_replicate, item0, Item.words, List.length_cons, List.length_nil]
  decide

/-! ## Register pages -/

/-- Requester 1's shadow of KEN holding one word. -/
def shadowed (e : Bool) : State := { fab := { shadows := [⟨1, pgKEN, [(0x0C04C, 7)], e⟩] } }
/-- A manager with remote access granted, its lanes' partners able to carry it, the target hub 1 of its segment. -/
def remote (grant : W128) (f : Nat) : State := {
  pln := (manager 1 {}).pln, lanes := [(0, { state := 4, lfeat := f })], fab := { grant := grant }, rf := [(0x00060, 1)] }

theorem witness_PagesReadsShadowsAndRequests :
    let a := regAddr 0x0C04C
    latchWords (regAddr 0x0B080) ≠ [] ∧ a ≠ 0x0D090 ∧ a ≠ 0x06094 ∧ a ≠ 0x09068 ∧ a ≠ 0x0E060 ∧ latchWords a = [] ∧ a / 4096 < 0x56 ∧ a = 0x0C04C ∧
    shadowOf 1 (a / 4096) (shadowed true) = some ⟨1, pgKEN, [(0x0C04C, 7)], true⟩ ∧ shadowOf 1 (a / 4096) (shadowed false) = some ⟨1, pgKEN, [(0x0C04C, 7)], false⟩ ∧
    [((0x0C04C : Nat), (7 : Word))].find? (·.1 = a) = some (a, 7) ∧ condOn pgDEV 3 0 (shadowed true) = false ∧ regAddr 0x0E060 = 0x0E060 ∧ (chwSel {}).1 = false ∧ (chwSel {}).2 < 320 ∧
    reachIsland false (a / 4096) (shadowed true) = shadowed true ∧ reachIsland false (a / 4096) (shadowed false) = shadowed false ∧ reachIsland false 0x0B {} = {} ∧ serveMerger {} = {} ∧
    condOn pgPCI 19 0 {} = false ∧ shadowOf 1 (a / 4096) {} = none ∧ (page pgKEN {}).freeze = false ∧ 0x56 ≤ regAddr 0x56000 / 4096 ∧ condOn pgDEV 4 0 {} = false := by decide

theorem witness_PagesWritesHeadersAndEvents :
    let s : State := { pages := [(pgKEN, { freeze := true, owner := 1 })] }
    reachIsland true 0x55 s = s ∧ reachIsland true (pageOf 0x0C04C) ({} : State) = {} ∧
    (page (pageOf 0x00060) s).freeze = false ∧ pageOf (0x0C04C : BitVec 20).toNat < 0x56 ∧ (page (pageOf (0x0C04C : BitVec 20).toNat) s).freeze = true ∧
    (2 : Req).val ≠ 0 ∧ (2 : Req).val ≠ (page (pageOf (0x0C04C : BitVec 20).toNat) s).owner ∧ (0x55 : PageNo).val < 0x56 ∧ (page 0x55 s).freeze = false ∧ (0x55 : Nat) ≠ pgEVT ∧
    (page pgEVT s).freeze = false ∧ timedEpisode pgDEV 3 = true := by decide

theorem witness_FeaturesAndRemoteAccess :
    let m := remote 16 16
    let path (s : State) : List Nat := routePorts (wbits (rfGet 0x00060 s) 7 9) (wbits (rfGet 0x00060 s) 0 7) s
    (page pgFEAT m).freeze = false ∧ (page pgDEV m).freeze = false ∧ m.fab.raBusy = false ∧ isManager (worker {}) = false ∧ isManager m = true ∧ (remote 1 0).fab.grant.toNat.testBit 4 = false ∧
    m.fab.grant.toNat.testBit 4 = true ∧ path { m with pln := { role := 1 } } = [] ∧ path m ≠ [] ∧ wbits (rfGet 0x00060 m) 7 9 = mySeg m ∧ (∀ p ∈ path m, (lane p m).lfeat.testBit 4 = true) ∧
    plannedHub (wbits (rfGet 0x00060 m) 7 9) (wbits (rfGet 0x00060 m) 0 7) m = true ∧ plannedHub 0 5 m = false ∧ serveMerger m = m ∧
    (page pgKEN m).freeze = false ∧ shadowOf 3 pgKEN m = none ∧ ({ raBusy := true } : Fab).raBusy = true ∧ wbit (rfGet 0x00064 m) 30 = false ∧ (1 : Fin 8).val ≠ 0 := by decide

/-! ## Services -/

/-- The reflex map and the pins as given, pin 3 selected where it matters. -/
def serving (v : Svc) (regs : FMap Word) : State := { svc := v, rf := regs, tim := { inserv := true, up := 1000, sec := 3 } }
/-- Rule 2 on output 4: always true, held active for as long as it is. -/
def ruleA : Word := 0x84000000
/-- Four queued schedules. -/
def queued4 : List Sched := [⟨⟨0, 9, 0⟩, 0, 1, 1⟩, ⟨⟨0, 8, 0⟩, 0, 1, 1⟩, ⟨⟨0, 7, 0⟩, 0, 1, 1⟩, ⟨⟨0, 6, 0⟩, 0, 1, 1⟩]

theorem witness_ReflexMapAndDinPins :
    let d : Din := { cfg := 0x80000000 }
    let s (x : Rule) (w : Word) : State := serving { dins := [(7, d)], rules := [(2, x)], touts := [(4, { cfg := 0x80000000 })] } [(0x53060, 2), (0x53064, w)]
    let p := s { a := 0x84800000, active := true } ruleA
    d.ball = false ∧ (9 : Nat) < 10 ∧ { d with ball := true }.ball ≠ false ∧ d.selects (xor false (wbit d.cfg 27)) = false ∧ d.ball ≠ true ∧ d.selects (xor true (wbit d.cfg 27)) = true ∧
    p.tim.inserv = true ∧ d.fill 1000 < 8 ∧ 8 ≤ ({ cfg := 0x80000000, busyTo := 1701 } : Din).fill 1000 ∧
    wbits (rule 2 p).a 22 2 = 2 ∧ (rule 2 p).active = true ∧ (rule 2 p).till ≤ p.tim.up ∧ p.tim.up < (rule 2 (s { till := 1001 } ruleA)).till ∧ (page pgRFX p).freeze = false ∧ rsel p = 2 ∧ ruleErr ruleA p = 0 ∧ wbits ruleA 22 2 = 0 ∧ ruleErr 0x84400000 p = 0 ∧ wbits 0x84400000 22 2 ≠ 0 ∧
    (rule 2 (s {} ruleA)).active = false ∧ condOf 0x84000000 (s {} ruleA) = false ∧ ruleErr 0x83000000 p = 1 ∧ wbits (rule 2 (s { a := 0x84400000 } ruleA)).a 22 2 = 1 := by decide

theorem witness_ToutPinsKeepTheirSchedules :
    let s (p : Tpin) (ns per : Word) : State := { serving { touts := [(4, p)] } [(0x52040, 4), (0x52050, 3), (0x52058, ns), (0x5205C, per)] with fab := { grant := 0x81 } }
    let full (p : Tpin) (t : Stamp) : Prop := 4 ≤ p.queued ∧ (p.q.any fun y => decide (y.t = t) && decide (y.act ≠ 4)) = false
    (page pgTOUT (s {} 0 0)).freeze = false ∧ tsel (s {} 0 0) = 4 ∧ full { q := queued4 } ⟨0, 3, 0⟩ ∧ ¬ full { q := queued4 } ⟨0, 6, 0⟩ ∧ ¬ full {} ⟨0, 3, 0⟩ ∧ condOn pgTOUT 20 4 (s {} 0 0) = false ∧
    wbit ({ cfg := 0x80000000 } : Tpin).cfg 31 = true ∧ wbit ({} : Tpin).cfg 31 = false ∧ wbit 4 2 = true ∧ granted 7 0 (s {} 0 3) = true ∧ 1000000000 % 3 ≠ 0 ∧ 3 % 1000000000 ≠ 0 ∧ wbit 0 2 = false ∧
    1000000000 ≤ (1000000000 : Word).toNat ∧ ¬ (onPeriod ⟨0, 3, 2000⟩ 0).total < (now (s {} 0 0)).total + 2000 ∧ (onPeriod ⟨0, 3, 1999⟩ 0).total < (now (s {} 0 0)).total + 2000 ∧ wbits 1 0 2 = 1 ∧
    condOn pgTOUT 4 4 (s {} 0 0) = false ∧ wbit 0 31 ≠ wbit ({ cfg := 0x80000000 } : Tpin).cfg 31 ∧ queued4 = ⟨⟨0, 9, 0⟩, 0, 1, 1⟩ :: queued4.tail ∧ (s {} 0 0).tim.inserv = true := by decide

/-- A track that runs with one edge and one angle sample a turn, its four edges and input records there; a section with a finished parcel. -/
def turning : Track := {
  cfg0 := 0x80040003, cfg1 := 0x01400000, state := 2, edges := [⟨0, 1, 0⟩, ⟨0, 1, 100⟩, ⟨0, 1, 200⟩, ⟨0, 1, 300⟩],
  ins := [{ item0 with t := ⟨0, 0, 0⟩ }, { item0 with t := ⟨0, 1, 0⟩ }, { item0 with t := ⟨0, 2, 0⟩ }, { item0 with t := ⟨0, 3, 0⟩ }] }
def weighing : Sect := { cfg := 0x80000150, on := [{ t0 := ⟨0, 1, 0⟩, t1 := some ⟨0, 2, 0⟩, t2 := some ⟨0, 3, 0⟩ }], recs := [⟨0, ⟨0, 3, 0⟩, 0, 0, 0⟩] }
def tracked (x : Track) (y : Sect) : State := serving { tracks := [(5, x)], sects := [(2, y)] } [(0x50040, 5), (0x50060, 2)]

theorem witness_TracksAndSectionsRun :
    let s := tracked turning weighing
    let off := tracked { cfg1 := 0x01400000 } {}
    let clear (v : Word) (s : State) : Bool := unitSlotsOk 21 [wbits (track 5 s).cfg1 16 9] (modTrack 5 (fun x => { x with cfg0 := v &&& 0x7FFF81FF }) s) && decide (wbits (track 5 s).cfg1 16 9 ≠ wbits (track 5 s).cfg1 0 9)
    let free3 (v : Word) (s : State) : Bool := unitSlotsOk 34 [wbits v 0 9, wbits v 0 9 + 1, wbits v 0 9 + 2] (modSect 2 (fun x => { x with cfg := v &&& 0x7FFFE1FF }) s)
    s.fuse.hx000 = false ∧ (page pgORD s).freeze = false ∧ (rfGet 0x50040 s).toNat % 16 = 5 ∧ turning.en = true ∧ wbit 0 31 = false ∧ (track 5 off).en = false ∧ wbit 0x80000000 31 = true ∧
    wbits (track 5 off).cfg1 0 9 = 0 ∧ clear 0x80000000 off = true ∧ clear 0x80000000 (tracked {} {}) = false ∧ (rfGet 0x50060 s).toNat % 4 = 2 ∧ weighing.en = true ∧ (sect 2 off).en = false ∧
    free3 0x80000150 off = true ∧ free3 0x80000140 off = true ∧ free3 0x80000000 off = false ∧ turning.state = 2 ∧ condOn pgORD 0 5 s = false ∧ angleInstant turning = some (⟨0, 1, 0⟩, 0) ∧
    around ⟨0, 1, 0⟩ turning.ins = some turning.ins ∧ (sect 2 s).on = { t0 := ⟨0, 1, 0⟩, t1 := some ⟨0, 2, 0⟩, t2 := some ⟨0, 3, 0⟩ } :: [] ∧
    ({ t0 := ⟨0, 1, 0⟩, t1 := some ⟨0, 2, 0⟩, t2 := some ⟨0, 3, 0⟩ } : Parcel).tEnd = some ⟨0, 3, 0⟩ ∧ weighing.reached ⟨0, 3, 0⟩ = true ∧
    turning.edges.getLast? = some ⟨0, 1, 300⟩ ∧ (1000000300 : Nat) + turning.stall * 1000000 ≤ (now s).total := by decide

/-! ## Plan slices -/

/-- A slice of a hub number and role with no section bytes, its format as given; SHA-256 of nothing. -/
def shaNone : Nat := 0xe3b0c44298fc1c149afbf4c8996fb92427ae41e4649b934ca495991b7852b855
def sliceBytes (num hub role format : Nat) : List Byte :=
  leBytes 8 num ++ (leBytes 32 5).reverse ++ (leBytes 32 shaNone).reverse ++ leBytes 4 128 ++ leBytes 2 0 ++ [BitVec.ofNat 8 hub, BitVec.ofNat 8 role, 1, BitVec.ofNat 8 format] ++ List.replicate 46 0
/-- A hub of a role whose slices' sections say what a worker's, or a manager's, plan says. -/
def planned (role : Nat) (p : Pln) : State := {
  pln := { p with role := role, pos := if role = 0 then 1 else 0, secs := [(shaNone, if role = 0 then workerPlan else managerPlan)], ports := [(0, { q := true })] }, lsh := { lrole := 1 },
  rf := [(0xA040, 0x000A0000)], lanes := [(0, { state := 2 })] }
/-- The boot flash with those bytes at the first slice's place. -/
def flashed (b : List Byte) (s : State) : State := { s with mem := (List.range 128).map fun k => (0x11800000 + k, nth 0 b k) }

theorem witness_PlanSlicesAreLoadedAndServed :
    let good := sliceBytes 7 1 0 1
    let s (b : List Byte) : State := planned 0 { loadBuf := b }
    let a : Slice := ⟨1, 2, 3, 0, 1, 0, workerPlan⟩
    (page pgPLN (s [])).freeze = false ∧ (s []).pln.loadBuf.length + 4 ≤ sliceMax ∧ sliceErr [] false (s []) ≠ 0 ∧ sliceErr good false (s good) = 0 ∧ (s good).pln.active = none ∧
    (planned 0 { active := some a }).pln.active = some a ∧ (s []).pln.strapErr = false ∧ (s []).pln.role ≠ 3 ∧ (s good).pln.loadBuf ≠ [] ∧ (s []).pln.loadBuf = [] ∧ wantsSlice (s []) = true ∧
    (s []).pln.retryWait = false ∧ (planned 0 { retryWait := true }).pln.retryWait = true ∧
    0 < sliceMax ∧ leNat ((List.range 4).map fun k => FMap.get (fun _ => (0 : Byte)) (FMap.putAll (fun _ => 0) (s []).pln.dl 72 [0x80]) (72 + k)) = 128 ∧
    isManager (planned 1 {}) = true ∧ mySeg (planned 1 {}) = 0 ∧ isHolder (planned 1 {}) = true ∧ (planned 1 {}).pln.serveQ = [] ∧ (isManager (s []) && decide (mySeg (s []) = 0) && isHolder (s [])) = false ∧
    (planned 1 { serveQ := [(0, 1)], store := [(1, good)] }).pln.store.find? (·.1 = 1) = some (1, good) ∧ (lane 0 (s good)).losPin = wbit (portCtrl 0 (s good)) 4 := by decide +kernel

/-- Slices in the boot flash, an acceptable one and one of a wrong format; a slice received whole, in blocks of 96 bytes. -/
theorem witness_PlanSlicesAreLoadedAndServed_flash :
    let s (b : List Byte) : State := flashed b (planned 0 {})
    let dl (b : List Byte) : FMap Byte := FMap.putAll (fun _ => 0) (FMap.putAll (fun _ => 0) [] 0 (b.take 96)) 96 (b.drop 96)
    let get (b : List Byte) (k n : Nat) : List Byte := FMap.getAll (fun _ => 0) (dl b) k n
    ((flashSlices (s (sliceBytes 7 1 0 1))).find? (fun b => decide (sliceErr b false (s (sliceBytes 7 1 0 1)) = 0))) = some (sliceBytes 7 1 0 1) ∧
    ((flashSlices (s (sliceBytes 7 1 0 3))).find? (fun b => decide (sliceErr b false (s (sliceBytes 7 1 0 3)) = 0))) = none ∧ (flashSlices (s (sliceBytes 7 1 0 3))).getLast? = some (sliceBytes 7 1 0 3) ∧
    leNat (get (sliceBytes 7 1 0 1) 72 4) = 128 ∧ sliceErr (get (sliceBytes 7 1 0 1) 0 128) false (planned 0 {}) = 0 ∧ sliceErr (get (sliceBytes 7 1 0 3) 0 128) false (planned 0 {}) = 3 ∧
    some 0 ≠ some (sliceOf (get (sliceBytes 7 1 0 1) 0 128) (planned 0 {})).digest := by decide +kernel

/-- A buffer with no room for another word. -/
theorem witness_LoadBufferFull : sliceMax < (planned 0 { loadBuf := List.replicate sliceMax 0 }).pln.loadBuf.length + 4 := by
  simp only [planned, List.length_replicate]
  exact Nat.lt_add_of_pos_right (by decide)

/-- 1.999… s ahead is too late, 2 s ahead is not. -/
theorem witness_LateActivationSecondIsRejected :
    let s : State := { (planned 0 {}) with tim := { sec := 10 }, rf := [(0x0507C, 11)] }
    (page pgPLN s).freeze = false ∧ s.pln.armed = none ∧ (0 : Word).toNat * 2 ^ 32 + (rfGet 0x0507C s).toNat < s.tim.sec + 2 ∧ s.tim.sec + 2 ≤ (0 : Word).toNat * 2 ^ 32 + (rfGet 0x0507C { s with rf := [(0x0507C, 12)] }).toNat := by
  decide

theorem witness_PlanChangesAtItsSecond :
    let a : Slice := ⟨1, 2, 3, 0, 1, 0, workerPlan⟩
    let s (p : Option Slice) : State := { planned 0 { armed := some 5, pend := p, active := some a } with tim := { sec := 5 } }
    sliceErr (sliceBytes 7 1 0 3) false (s none) ≠ 0 ∧ sliceErr (sliceBytes 7 1 0 2) false (s none) = 0 ∧ isManager (planned 1 {}) = true ∧ (s none).pln.armed = some 5 ∧ 5 ≤ (s none).tim.sec ∧
    (s none).pln.pend = none ∧
    (s (some a)).pln.pend = some a ∧ (s (some a)).pln.active = some a ∧ (s none).pln.oldId = none ∧ { (s none).pln with oldId := some (1, 2) }.oldId ≠ none ∧
    (let t := checked { state := 4 } { q := false, fresh := true, peer := some cap0 }
     (port 0 t).peer = some cap0 ∧ (portPlan 0 t).use ≠ 0 ∧ (lane 0 t).state = 4 ∧ (port 0 t).fresh = true ∧ checkCauses 0 cap0 { t with pln := { t.pln with oldId := none } } ≠ 0 ∧
     (port 1 t).fresh = false) := by decide +kernel

/-! ## Power -/

/-- A boot image without a body at a supervisor bank, signed under the key beside it. -/
def bootBytes (base : Nat) : List (Nat × Byte) :=
  (List.range 16).map (fun k => (base + k, nth 0 [0x56, 0x4c, 0x49, 0x4d, 1, 1, 0, 1, 0, 0, 0, 0, 0, 0xff, 2, 0] k)) ++
  (List.range 32).map (fun k => (base + 16 + k, nth 0 (leBytes 32 shaNone).reverse k)) ++
  (List.range 64).map (fun k => (base + 800 + k, nth 0 (leBytes 32 0xab6be2d6203529acbaaa0d4181276cb788c2c9098f166cb4c799d57b741988f4).reverse (k % 32)))
def bootKey : Nat × Nat := (0xa5fdd7bd585fc5066b9b3735e012d8daf7bf1e0d5969253dbb67337ee7c26e8f, 0xa8d94bf2bc2de63ce5fd872df6e9dbb3230673efae1b82f7dd229f20b4275300)
/-- A hub whose bank 1 alone holds an image. -/
def booting (f : Fwl) : State := { fuse := { vkey := bootKey }, mem := bootBytes 0x10410000, pwr := { good := true }, fwl := f }
/-- A powered hub in a power state. -/
def powered (p : Pwr) : State := { pwr := { p with good := true }, tim := { set := true, inserv := true, sec := 7, ns := 100000000 } }

/-- The highest reading with a core die and the last group die as given, the others at 0. -/
def hottest (st : Nat) (core die : Int) : Int :=
  let x : State := { powered { state := st } with grps := [(23, { temp := die })] }
  maxInt core (if x.fuse.hx000 = true ∨ x.pwr.state = 3 then [] else (List.range 24).map fun g => (grp g x).temp)

theorem witness_ResetsAndStandby_temperatures :
    2000 ≤ hottest 1 5 2000 ∧ 1760 ≤ hottest 1 1760 0 ∧ hottest 1 1999 0 < 2000 ∧ 1680 ≤ hottest 1 1759 0 ∧ hottest 1 1759 0 < 1760 ∧ hottest 3 1679 2000 < 1680 ∧
    condOn pgPWR pwrTJHIGH 0 (powered {}) = false ∧ condOn pgPWR pwrTJHIGH 0 { powered {} with fab := { conds := [⟨pgPWR, pwrTJHIGH, 0⟩] } } = true := by decide +kernel

theorem witness_ResetsAndStandby :
    let s := powered { state := 1 }
    s.pwr.good = true ∧ (4 : Fin 7).val < 5 ∧ s.fwl.wdogDown = false ∧ s.tim.set = true ∧
    ({} : State).pwr.good = false ∧ (page pgPWR s).freeze = false ∧ serve 65 s = s ∧ wbits 0xA5000000 24 8 = 0xA5 ∧ wbits 0 24 8 ≠ 0xA5 ∧ isHolder (manager 1 { lrole := 1 }) = true ∧ isHolder s = false ∧ s.pwr.state ≠ 5 ∧
    (powered { state := 5 }).pwr.state = 5 ∧ (powered { state := 5 }).pwr.wakePend = none ∧ (powered { state := 5, wakePend := some 1 }).pwr.wakePend = some 1 ∧
    wbit (rfGet 0x09050 { s with rf := [(0x09050, 0x80000000)] }) 31 = true ∧ ({ sealed := true } : Pwr).sealed = true ∧ wbit (rfGet 0x09050 { s with rf := [(0x09050, 0x40000000)] }) 30 = true ∧
    BitVec.ofNat 32 ({ sbSec := 2 ^ 32 + 3 } : Pwr).sbSec = rfGet 0x09054 { s with rf := [(0x09054, 3)] } := by decide

theorem witness_StartUpParkAndSupplies :
    let s (p : Pwr) : State := powered p
    ({} : State).pwr.good = false ∧ ({} : State).pwr.hot = false ∧ ({} : State).pwr.sealed = false ∧ (s {}).pwr.good = true ∧ (s {}).fwl.run = none ∧ strapsOk 0 125 false = false ∧ strapsOk 1 127 false = true ∧
    stepReached 2 (s {}) = false ∧ stepReached 5 { s {} with fuse := { hx000 := true } } = true ∧ (s {}).fuse.hx000 = false ∧ (s {}).pwr.anaLost = false ∧ (s { state := 1 }).pwr.state < 2 ∧
    (s {}).pwr.convOk = false ∧
    (s {}).tim.set = true ∧ (s {}).tim.ns % 100000000 = 0 ∧ (s { convOk := true }).pwr.convOk = true ∧ (s { state := 4 }).pwr.state = 4 ∧ (s {}).pwr.sampling = none ∧ wbits (rfGet 0x09040 (s {})) 0 2 ≠ 1 ∧
    (page pgPWR (s {})).freeze = false ∧ ([0, 1, 2, 3].all fun n => decide (serve 65 (s { state := n }) = s { state := n })) = true ∧ (s {}).tim.inserv = true ∧ (s { state := 2 }).pwr.state = 2 ∧ (s { state := 3 }).pwr.state = 3 ∧ (s { state := 2, tp := some 7100000000 }).pwr.tp = some 7100000000 ∧
    7100000000 ≤ (now (s {})).total ∧ (s { state := 2, stopped := true }).pwr.stopped = true ∧ (s { anaLost := true }).pwr.anaLost = true ∧
    ({ s {} with fuse := { hx000 := true } } : State).fuse.hx000 = true ∧ (s {}).pwr.unparkWait = false ∧ (s {}).pwr.stopped = false ∧ condOn pgPWR pwrVEXCLOW 0 (s {}) = false ∧
    condOn pgPWR pwrVIEPELOW 0 (s {}) = false := by
  decide

theorem bankImage_booting (b : Nat) (f : Fwl) : bankImage b (booting f) = bankImage b (booting {}) := rfl

theorem bank1_boots : (bankImage 1 (booting {})).1 = 0 := by decide +kernel

theorem bank0_is_empty : (bankImage 0 (booting {})).1 ≠ 0 := by decide +kernel

theorem pair_whole {α : Type} {x : Nat × α} (h : x.1 = 0) : x = (0, x.2) := Prod.ext h rfl

/-- The image of bank 1 runs where the boot record makes it active, and in the place of bank 0 where that has none; with neither nothing runs. -/
theorem witness_StartUpParkAndSupplies_boot :
    ∃ h, bankImage 1 (booting { boots := [⟨true, 1, 1, []⟩] }) = (0, h) ∧ bankImage 1 (booting {}) = (0, h) :=
  ⟨(bankImage 1 (booting {})).2, (bankImage_booting 1 _).trans (pair_whole bank1_boots), pair_whole bank1_boots⟩

theorem witness_StartUpParkAndSupplies_active :
    (bootRec (booting { boots := [⟨true, 1, 1, []⟩] })).active = 1 ∧ (bootRec (booting {})).active = 0 ∧ (bankImage 0 (powered {})).1 ≠ 0 ∧ (bankImage 1 (powered {})).1 ≠ 0 := by decide +kernel

/-! ## Channels -/

/-- Channel 0 of a sampling hub, its converter 0, group 0 as given. -/
def channelled (x : Chan) (y : Group) : State := {
  pwr := { good := true, state := 1, sampling := some 0 }, tim := { set := true, inserv := true, sec := 10 }, chans := [(0, { x with duty := some 0, coarse := some 0 })], grps := [(0, y)] }
/-- A voltage channel. -/
def volts : Chan := { w := volts0 }
/-- A ready record of slot 0 whose hold is over. -/
def ready0 : ReadyRec := ⟨{ item0 with t := ⟨0, 9, 0⟩ }, 9000, 9001, 7, 0, false⟩

theorem witness_ChannelsSampleAndRelease :
    let s := channelled { volts with ready := [ready0], spans := [] } {}
    let w0 : Int := (9 : Nat) * secTk + (3 : Nat) * coarseTk false
    let task (x : Chan) (r : Nat) : State := channelled { volts with isOpen := x.isOpen } { task := 5, tgt := 0, trange := r }
    let lead : Chan := { w := [0x50110000, 0x38000000, 0, 0x03190100] }
    s.fuse.hx000 = false ∧ coarseUser 0 0 w0 s = some (0, 0) ∧ eCls volts.w ≠ 0 ∧ volts.skipAt = none ∧ sampled 0 w0 w0 s = true ∧ (grp 0 s).ovl = none ∧ dutyChan 0 0 s = some 0 ∧
    wbit (settingAt volts ⟨0, 9, 0⟩ s) 23 = false ∧
    (let tt := instTk (periodTk false (settingAt volts ⟨0, 9, 0⟩ s)) ⟨0, 9, 0⟩ s; sampled 0 (tt - halfTk false (settingAt volts ⟨0, 9, 0⟩ s)) tt s = true) ∧
    (chan 0 s).ready = ready0 :: [] ∧ ready0.rel ≤ nowTk s ∧ (oldDue (chan 0 s) && pastBound (chan 0 s) ready0.tt) = false ∧
    (({ volts with isOpen := true, brkEnd := some 0 }).isOpen && ({ volts with isOpen := true, brkEnd := some 0 }).brkEnd.any fun y => decide (y ≤ ready0.w0)) = true ∧
    servedBy 0 16 s = none ∧ servedBy 0 0 s = some 0 ∧ condOn (pgGroup 0) relMODOVL 0 s = false ∧ 640 < (641 : Int).natAbs ∧ ¬ 640 < (-640 : Int).natAbs ∧ condOn pgSRV srvSYNE 0 s = false ∧
    condOn pgSRV srvSYNW 0 s = false ∧
    (grp 0 (task {} 3)).task = 5 ∧ (grp 0 (task {} 3)).trange = 3 ∧ (chan 0 (task {} 3)).isOpen = false ∧ (chan 0 (task { isOpen := true } 3)).isOpen = true ∧
    is3Wire lead.w = true ∧ (0 : Nat) + 16 * wbits (ew lead.w 3) 8 8 * 10000000 < 160000001 ∧ condOn (pgGroup 0) inLEADSTALE 0 s = false := by decide +kernel

theorem witness_FrontEndsAreSupervised :
    let s := channelled volts { w := 0xC0000000 }
    s.fuse.hx000 = false ∧ (chan 0 s).prot = false ∧ (chan 0 (channelled { volts with prot := true } {})).prot = true ∧ (grp 0 s).isL = true ∧ excOn (grp 0 s) = true ∧ 500 ≤ 500 ∧ 499 < 500 ∧
    ({ excOff := true } : Group).excOff = true ∧ ({ excOff := true } : Group).lock = false := by decide

/-! ## Entries and the relief -/

/-- Channel 0 selected for editing, its edit buffer as given. -/
def editing (w : List Word) (sel : Word) (s : State) : State := { s with rf := [(0x0E040, sel), (0x0E050, ew w 0), (0x0E054, ew w 1), (0x0E058, ew w 2), (0x0E05C, ew w 3)] }
/-- Another rate, range, coupling and linearisation for `volts`. -/
def wider : List Word := [0x42110000, 0x30000000, 0x80020000, 0x03196400]

theorem witness_EntriesTakeEffectAtTheirBoundaries :
    let rtd : List Word := [0x40110000, 0x38000000, 0, 0x03196400]
    let s := editing rtd 0 (channelled volts {})
    let gs := editing [0x00A2E40A] 0x200 (channelled {} {})
    let busy (old new : List Word) : Chan := { w := old, com := new, busy := true }
    (page pgCHW s).freeze = false ∧ (chwSel s).1 = false ∧ chanErr 0 (maskEntry (editWords s)) s = 0 ∧ chanErr 0 (maskEntry (editWords s)) (channelled (busy rtd rtd) {}) = 4 ∧ (chwSel gs).1 = true ∧
    groupErr 0 (rfGet 0x0E050 gs) gs = 0 ∧ groupErr 0 0 gs ≠ 0 ∧ s.pwr.stopped = false ∧ ({ busy := true } : Group).busy = true ∧ ¬ wbits 0x00A2E40A 29 3 ≠ wbits 0x00A2E40B 29 3 ∧
    wbits 0x00A2E40A 29 3 ≠ wbits 0xA0A2E40A 29 3 ∧ (0 : Nat) < groupSize 0 ∧ eCls (chan 0 s).w ≠ 0 ∧ (chan (slotAt 0 0) s).duty.isSome = true ∧ s.fuse.hx000 = false ∧
    (ew rtd 0 ^^^ ew wider 0) &&& 0xF9002000 = 0 ∧ (ew rtd 0 ^^^ 0x80110000) &&& 0xF9002000 ≠ 0 ∧ ((0xC8110000 : Word) ^^^ ew [0xC811C000] 0) &&& 0x001FC000 ≠ 0 ∧ eCls [0xC811C000] = 3 ∧ (ew rtd 1 ^^^ ew wider 1) &&& 0xFF800000 ≠ 0 ∧
    (ew rtd 2 ^^^ ew wider 2) &&& 0xFFFFE000 ≠ 0 ∧ ({ busy := true, tb := some 5, tr := some 6 } : Chan).tb = some 5 ∧ ({ busy := true, tb := some 5, tr := some 6 } : Chan).tr = some 6 ∧
    ({ tb := some 5, tr := some 6, regr := true } : Chan).busy = false ∧ ({ tb := some 5, tr := some 6, regr := true } : Chan).regr = true ∧ (busy rtd wider).busy = true := by decide +kernel

/-- Group 0 with converter 16 its relief. -/
def relieved (y : Group) (x : Chan) (regs : FMap Word) : State := { channelled { volts with swTo := x.swTo } y with rf := regs }
/-- A request of channel 0 for range 2. -/
def req0 : RReq := ⟨0, 2, 0, 0, false⟩
def ovl0 : Ovl := { ch := 0, range := true, target := 2, tq := 0, tc := 0, ns := 0, req := req0 }

theorem witness_ReliefServesRangesAndRotation :
    let regs : FMap Word := [(pgGroup 0 * 4096 + 0x40, 0x80030000), (pgGroup 0 * 4096 + 0x44, 0x00100040)]
    let s (y : Group) : State := relieved { y with relief := some 16 } {} regs
    let late (y : Group) : State := { s y with tim := { up := 100000000000000 } }
    let good : Int × Int × Int := (0, 989560464998, -989560464998)
    let check (w range : Nat) (o : Option Ovl) : State := s { chk := some ⟨w, 16, range, o⟩ }
    let found := s { runChks := [(16, 1)] }
    (s {}).fuse.hx000 = false ∧ (grp 0 (s {})).relief.isSome = true ∧ (s {}).pwr.stopped = false ∧ (0 : Nat) + rotPerNs 0 (late {}) ≤ (late {}).tim.up ∧ (s {}).tim.up < 0 + rotPerNs 0 (s {}) ∧
    wbit (reliefCtrl 0 (s {})) 31 = true ∧ wbit (reliefCtrl 0 (relieved {} {} [(pgGroup 0 * 4096 + 0x40, 0)])) 31 = false ∧
    rotPerNs 0 (relieved {} {} [(pgGroup 0 * 4096 + 0x40, 0)]) ≤ (late {}).tim.up ∧
    (grp 0 (s {})).camp = false ∧ mayTake 3 (grp 0 (s {})) = true ∧ mayTake 3 (grp 0 (s { freed := some (0, false) })) = false ∧ rotTarget 0 (s {}) = some 0 ∧ (page (pgGroup 0) (s {})).freeze = false ∧
    oldestReq 0 (s { q := [req0] }) = some req0 ∧ mayTake 4 (grp 0 (s { q := [req0] })) = true ∧ oldestReq 0 (s { rotWait := true }) = none ∧ (grp 0 (relieved { q := [req0] } {} [])).relief = none ∧
    oldestReq 0 (relieved { q := [req0] } {} []) = some req0 ∧ grpOf 0 = 0 ∧ (chan 0 (s {})).duty.isSome = true ∧ queued (grpOf 0) 0 (s { q := [req0] }) = some req0 ∧ req0.kind = 0 ∧ hardWait 0 (s {}) ≠ 0 ∧
    (chan 0 (relieved {} { swTo := some (5, 2) } [])).swTo = some (5, 2) ∧ (grp 0 (check 1 0 (some ovl0))).chk = some ⟨1, 16, 0, some ovl0⟩ ∧ (chan ovl0.ch (s {})).isOpen = false ∧
    refCheckOk 0 16 0 good (check 1 0 (some ovl0)) = true ∧ refCheckOk 0 16 0 (0, 0, 0) (check 1 0 (some ovl0)) = false ∧ refCheckOk 0 16 3 good (check 3 3 none) = true ∧
    dutyChan 0 0 (s {}) = some 0 ∧ (grp 0 (s {})).relief ≠ some 0 ∧ (grp 0 found).chk = none ∧ (grp 0 found).runChks.find? (·.1 = 16) = some (16, 1) ∧ refCheckOk 0 16 1 good found = true ∧
    refCheckOk 0 16 1 (0, 0, 0) found = false ∧ (grp 0 (s {})).runChks.find? (·.1 = 16) = none := by decide +kernel

/-! ## Calibration -/

/-- A calibrating group whose relief, converter 16, has the two reference points of range 0 with the positive mean as given, in 2^−40 of full scale. -/
def calibrating (up : Int) (again : List (Nat × Nat)) (hold : Word) : State :=
  let y : Group := { relief := some 16, task := 1, camp := true, due := [(16, 15), (0, 15)], again := again, pts := [⟨16, 0, 1, uFrac up, 0, 5, 5, 0⟩, ⟨16, 0, 2, uFrac (-989560464998), 0, 5, 5, 0⟩] }
  { relieved y {} [(0x08044, hold)] with tim := { set := true, inserv := true, sec := 10, up := 1000000005 } }
/-- The SET window on converter 0 of group 0 and range 0, its table and its words as given. -/
def tabled (l : List GPoint) (point : Nat) (temp o : Word) : State := {
  channelled volts { tables := [(0, l)] } with rf := [(0x08048, 0), (0x08080, BitVec.ofNat 32 point), (0x08090, temp), (0x08094, o)] }
/-- A linearisation slot that channel 0 uses and has yet to take. -/
def linear : Chan := { w := [0x40110000, 0x38000000, 0x80020000, 0x03196400] }
def linear5 (p : Option (List Word)) : State := { channelled linear {} with lins := [(eLinSlot linear.w, { pend := p, wait := [0] })], rf := [(0x080C0, BitVec.ofNat 32 (eLinSlot linear.w))] }

theorem witness_CalibrationCampaignsAndWindows :
    let x : Group := { begun := true, trefOk := true, tref := 0 }
    let s := channelled {} x
    let cal := calibrating 989560464998 [] 0
    let zeros : List Int := List.replicate 64 0
    let noisy : List Int := 4294967297 :: List.replicate 63 0
    let since := 1000000005 - pointNs 0 64
    let pts (l : List Int) (s : State) : List CalPt := ⟨16, 0, 0, Frac.mk2 (sumInt l) (64 * 2 ^ 40), l.foldl max (l.headD 0) - l.foldl min (l.headD 0), since, 1000000005, 0⟩ :: (grp 0 s).pts
    let run (l : List Int) (s : State) : Option (CalPt × CalPt × CalPt) := runPoints 16 0 (pts l s)
    let solved (l : List Int) (s : State) : Option (Frac × Frac × Frac) := (run l s).bind fun p => solveRun p.1.mean p.2.1.mean p.2.2.mean (refsOf 0 s).1 (refsOf 0 s).2
    let near (l : List Int) (s : State) : Bool := (solved l s).any fun k => withinLimits k (coefAt (table 0 16 0 s) 0)
    let far := calibrating 980000000000 [] 0
    let idle : State := { cal with chans := [(0, { duty := some 0 })] }
    let ref : State := { cal with grps := [(0, { grp 0 cal with tat := { task := some 0x51200008 } })] }
    x.begun = true ∧ strayed x 33 s = true ∧ strayed x 32 s = false ∧ x.camp = false ∧ wbit (rfGet 0x08044 s) 0 = false ∧ (grp 0 cal).relief = some 16 ∧ (grp 0 cal).task = 1 ∧ tatHolds 0 cal = false ∧
    calRange 0 16 cal = some 0 ∧ calDwell 0 ≤ zeros.length ∧ calDwell 0 ≤ noisy.length ∧ (grp 0 cal).edits = [] ∧ zeros.take 64 = zeros ∧ noisy.take 64 = noisy ∧
    (grp 0 idle).relief ≠ some 0 ∧ dutyChan 0 0 idle = some 0 ∧ eCls (chan 0 idle).w = 0 ∧ (grp 0 idle).runChks = [] ∧ calRange 0 0 idle = some 0 ∧
    runPoints 16 0 [⟨16, 0, 0, uFrac 0, 0, 5, 1000000006, 0⟩, ⟨16, 0, 1, uFrac 0, 0, 5, 5, 0⟩, ⟨16, 0, 2, uFrac 0, 0, 5, 5, 0⟩] = none ∧ (run zeros cal).isSome = true ∧ (solved zeros cal).isSome = true ∧
    near zeros cal = true ∧ near noisy cal = true ∧ (solved zeros far).isSome = true ∧ near zeros far = false ∧ ((run zeros cal).any fun p => quietRun 0 p cal) = true ∧
    ((run noisy cal).any fun p => !(quietRun 0 p cal)) = true ∧ wbit (rfGet 0x08044 (calibrating 0 [] 1)) 0 = true ∧ (grp 0 (calibrating 0 [(16, 0)] 0)).again.contains (16, 0) = true ∧
    (grp 0 cal).again.contains (16, 0) = false ∧ (tat 0 ref).deferRun = none ∧ (tat 0 ref).task = some 0x51200008 ∧ tatOp 0x51200008 = 5 ∧ wbits 0x51200008 24 4 = (1 : Fin 3).val ∧
    wbits 0x51200008 20 2 = (2 : Fin 4).val ∧ wbits 0x51200008 0 16 ≤ zeros.length ∧ wbits 0x51200008 0 16 < 16 ∧ (grp 0 ref).task = 1 := by decide +kernel

theorem witness_CalibrationCampaignsAndWindows_windows :
    let a : GPoint := ⟨0, 0, 0, 0, true⟩
    let b : GPoint := ⟨400, 0, 0, 0, true⟩
    let s := tabled [a, b] 0 0 0
    let err (s : State) : Bool × Bool :=
      let t := (BitVec.ofNat 16 (rfGet 0x08090 s).toNat).toInt
      ((((setTab s).eraseIdx (setSel s).2.2).any fun p => decide ((p.temp - t).natAbs ≤ 16)), setValueOk (rfGet 0x08094 s) && setValueOk (rfGet 0x08098 s) && setValueOk (rfGet 0x0809C s))
    let l (p : Option (List Word)) : State := linear5 p
    let w := coefAddrs.map fun a => rfGet a (l none)
    (page pgCAL s).freeze = false ∧ wbit 0x200 9 = true ∧ gsel s = 0 ∧ setOk s = true ∧ err (tabled [a, b] 0 384 0) = (true, true) ∧ err (tabled [a, b] 0 383 0x3C23D70B) = (false, false) ∧
    err (tabled [a, b] 0 383 0) = (false, true) ∧
    (setTab (tabled [a] 3 0 0)).length ≤ (setSel (tabled [a] 3 0 0)).2.2 ∧ setTab (tabled [a] 0 0 0) = [a] ∧ (setSel (tabled [a] 0 0 0)).2.2 = 0 ∧ 2 ≤ (setTab s).length ∧ (setSel s).2.2 < (setTab s).length ∧
    (linSlot (linSel (l (some [1]))) (l (some [1]))).pend = some [1] ∧ (linSlot (linSel (l (some [1]))) (l (some [1]))).wait.contains 0 = true ∧ (linSlot (linSel (l none)) (l none)).pend = none ∧
    (w.all fun v => (f32Val v).isSome) = true ∧ (f32Val 0x7F800000).isSome = false ∧ linUsers (linSel (l none)) (l none) ≠ [] ∧ linUsers 5 s = [] := by decide +kernel

/-! ## Self-test -/

/-- Self-test on or off, the islands and what is under way as given. -/
def testing (b : Bst) (en : Word) : State := { bst := b, rf := [(0x07040, en)], grps := [(0, { relief := some 16 })], lanes := [(0, { state := 4 })] }
/-- An analogue check of group 0 on converter 16. -/
def measuring (mode : Bool) (w : Word) : State := { testing { achkBusy := true, achkMode := mode } 0 with grps := [(0, { relief := some 16, task := 1, w := w })] }

theorem witness_SelfTestCoversTheIslands :
    let s := testing {} 0x80000000
    let isl5 (i : Isl) : State := testing { isls := [(0, i)], running := [0] } 0x80000000
    let good : List W128 := (prbsWords 8 (lane 0 s).prbsRx).2
    islMethod 0 s = 0 ∧ (isl 0 s).forced = false ∧ s.bst.running.contains 0 = false ∧ (isl 0 s).abn = 0 ∧ (isl 0 s).retry = false ∧ (isl 0 (isl5 { retry := true })).retry = true ∧
    (testing { state := 3 } 0).bst.state = 3 ∧ (isl5 {}).bst.running.contains 0 = true ∧ (isl 0 (isl5 { forced := true })).forced = true ∧ islMethod 67 s = 1 ∧ bstEn s = true ∧ paced s = true ∧
    (let d : State := { s with tim := { up := cycleNs s } }
     d.bst.cycAt + cycleNs d ≤ d.tim.up) ∧ s.tim.up < s.bst.cycAt + cycleNs s ∧ islandOf (.fwStage 0) = some (pgFWL, 65) ∧ (page pgFWL s).freeze = false ∧ (page pgBST s).freeze = false ∧
    wbit 0x80000000 31 = true ∧ wbit 0x80000000 30 = false ∧ checkErr 0 (testing { achkBusy := true } 0) = 3 ∧ checkErr 24 s = 4 ∧ checkErr 0 s = 0 ∧ (grp 0 s).relief = some 16 ∧
    (grp 0 (measuring true 0xC0000000)).task = 1 ∧ tatHolds 0 (measuring true 0xC0000000) = false ∧ (checkRanges 0 [(0, 0), (2 ^ 40, 0)]).2 = true ∧ (checkRanges 0 (List.replicate 4 (0, 0))).2 = false ∧ (checkRanges 0 []).2 = false ∧
    excOn (grp 0 (measuring true 0xC0000000)) = true ∧ excOn (grp 0 (measuring false 0)) = false ∧ (lane 0 s).state = 4 ∧ slice (good ++ List.replicate 8 0) 0 8 = (prbsWords 8 (lane 0 s).prbsRx).2 ∧
    slice ([1] ++ List.replicate 8 0) 0 8 ≠ (prbsWords 8 (lane 0 s).prbsRx).2 ∧ condOn pgBST bstTESTERR 0 s = false := by decide +kernel

/-! ## Firmware and the whole machine -/

/-- The image exchange and the flash window as given. -/
def exchanging (f : Fwl) (regs : FMap Word) : State := { fwl := f, rf := regs }

theorem witness_FirmwareIsExchanged :
    let s (n : Nat) : State := exchanging { state := n, page := [1, 2, 3, 4] } [(0x06090, 0x810000)]
    (s 1).fwl.state = 1 ∧ (s 3).fwl.state = 3 ∧ idleBoundary (s 3) = true ∧ (s 3).fwl.back = false ∧ (s 4).fwl.state = 4 ∧ (s 5).fwl.state = 5 ∧ (page pgFWL (s 0)).freeze = false ∧ ([0, 2, 5].all fun n => decide (serve 65 (s n) = s n)) = true ∧ (s 0).fwl.state = 0 ∧
    (s 2).fwl.state = 2 ∧
    (bootRec (s 5)).seq + 1 < 2 ^ 32 ∧ (s 0).fwl.flOp = none ∧ protected_ (flAddr (s 0)) 4 (s 0) = false ∧ protected_ (flAddr (s 0) / 0x10000 * 0x10000) 0x10000 (s 0) = false ∧
    protected_ (flAddr (exchanging {} [(0x06090, 0x40FFFF)])) 1 (exchanging {} [(0x06090, 0x40FFFF)]) = true ∧ protected_ 0x400000 0x10000 (exchanging {} []) = true ∧
    ({ flOp := some (1, 0x810000) } : Fwl).flOp = some (1, 0x810000) ∧ 0x10000 ≤ flAddr (s 0) ∧ flAddr (exchanging {} [(0x06090, 0xFFFF)]) < 0x10000 := by decide

/-- A hub whose customer key is burnt, an image staged that no countersignature covers. -/
def burnt : State := { fuse := { ckey := some (1, 2) }, fwl := { state := 2 } }

theorem witness_CustomerKeyIsBurntOnce :
    let s : State := { fwl := { page := List.replicate 64 7 } }
    (page pgFWL s).freeze = false ∧ serve 65 s = s ∧ serve 65 burnt = burnt ∧ s.fuse.ckey = none ∧ s.fuse.ckeyBusy = none ∧ 64 ≤ s.fwl.page.length ∧ burnt.fuse.ckey.isSome = true ∧
    ({ ckeyBusy := some (1, 2) } : Fuse).ckeyBusy = some (1, 2) ∧ burnt.fuse.ckey = some (1, 2) ∧ burnt.fuse.ckeyBusy = none ∧ sigOk (1, 2) [] 864 864 = false ∧
    sigOk (1, 2) (flashRead (bankBase (1 - burnt.fwl.bank)) 1024 burnt) 864 864 = false ∧ burnt.fwl.state = 2 := by decide +kernel

/-- The key stays burnt over a step that runs. -/
theorem witness_CustomerKeyIsBurntOnce_step : exec (.watchdogRestartDone) burnt = .next { burnt with fwl := { burnt.fwl with wdogDown := false } } := rfl

theorem witness_StepRunsTheCommandInFront : ({ pending := [.watchdogRestartDone, .fspEnd] } : State).pending = .watchdogRestartDone :: [.fspEnd] := rfl

theorem witness_EveryStepGoesOnInItsFrameAndKeepsTheInvariant : Inv { mem := [(5, 1)], pending := [.fspEnd] } := by
  unfold Inv KeyOnce; decide

theorem witness_ProgramWordsReadBack :
    haldomWord (.addi 3 10 10 16) = some 0x32528010 ∧ tattooWord (.waita 0 5) = some 0x10000005 ∧ tattooInstr 0 0x10000005 = some (.waita 0 5) := by decide

/-! ## Worked examples of the manual -/

/-- The record of the example beside R46: 017.042.123 at 1,716,000,000.249 in epoch 4 reads 0x1000_0000, 0x6648_1500, 0x3B5D_C100, 0x22A8_F600. -/
theorem test_record_example :
    (Item.words ⟨⟨4, 1716000000, 249000000⟩, srcId 123 { pln := { active := some ⟨1, 0, 0, 17, 42, 0, workerPlan⟩, pos := 42 } }, .sample, 0x10000000, 0, []⟩) = [0x10000000664815003B5DC10022A8F600] := by decide

/-- The event record of the example beside R40: QUAR of PLN without detail is event 1, value 0x0205_0000. -/
theorem test_event_example : (eventItem 1 2 pgPLN 0 {}).value = 0x02050000 ∧ evOf pgPLN 2 = some 1 := by decide

/-- R136: half a window is 8,499.268 µs at 1 kS/s and order 3; R139: 477.905 µs at 64 kS/s. -/
theorem test_half_windows : (halfTk false 0x38000000 + 512) / 1024000 = 8499 ∧ (halfTk false 0x38000000 / 1024) = 8499267 ∧ halfTk true 0xA0000000 / 1024 = 477905 := by decide

/-- The example beside R149: RATE goes from 0x07 to 0x09 at 401.000 ms; the boundary is 404 ms and the chain is reconfigured at 411.499 268 ms. -/
theorem test_rate_change_example :
    let s : State := { tim := { ns := 401000000 } }
    let b := rateBoundary 83 [0x40110000, 0x38000000] [0x40110000, 0x48000000] s
    b = 404000000 * 1024 ∧ reconfigAt false b [0x40110000, 0x38000000] / 1024 = 411499267 := by decide

/-- The example beside R111: a tick at 300 ms, the relief settled 8 µs later at the latest, the settled record 309. -/
theorem test_settled_record_example :
    firstStarting 83 (300000000 * 1024 + connectTk + settleTk false) { chans := [(83, { w := [0x40110000, 0x38000000, 0, 0x03196400] })] } = 309000000 * 1024 := by decide

/-- The example beside R184: between 31.0 and 35.0 °C at 33.5 °C, u = 0.25 gives code 0x17FF_2D56. -/
theorem test_interpolation_example :
    correct 5 16 0 83 0 0 (Frac.mk2 1 4)
      { grps := [(5, { temp := 536, tables := [(64, [⟨400, 0, 0, 0, true⟩, ⟨496, 0x3749539C, 0xB93CBE62, 0x360637BD, false⟩, ⟨560, 0x377BA882, 0xB94D8559, 0x36210FB0, false⟩, ⟨1440, 0, 0, 0, true⟩])] })] } = (0x17FF2D56, false) := by
  decide +kernel

/-- R135: with the droop filter bypassed an order-3 chain of ratio 16 spans 3·15 + 1 samples and has unity gain; a single sample at its middle weighs 192 of 16³. -/
theorem test_cic_of_a_constant_and_of_one_sample :
    chainOut false 0x01000000 (List.replicate 46 (2 ^ 29)) = Frac.mk2 (2 ^ 41) (2 ^ 42) ∧
      chainOut false 0x01000000 ((List.range 46).map fun i => if i = 22 then 2 ^ 30 else 0) = Frac.mk2 (192 * 2 ^ 30) (2 ^ 42) := by decide +kernel

/-- IEEE 802.3's code-groups of K28.5, D0.0 and D10.2, at negative and at positive running disparity (R227). -/
theorem test_code_groups :
    encSym false (symK 5) = 0b0011111010 ∧ encSym true (symK 5) = 0b1100000101 ∧ encSym false (symD 0) = 0b1001110100 ∧ encSym true (symD 0) = 0b0110001011 ∧ encSym false symD10_2 = 0b0101010101 := by decide

/-- The check word of the IEEE 802.3 polynomial over the nine digits (R389), and SHA-256 of nothing (R25). -/
theorem test_check_sequences : crc32 [0x31, 0x32, 0x33, 0x34, 0x35, 0x36, 0x37, 0x38, 0x39] = 0xCBF43926 ∧ sha256 [] = shaNone := by decide +kernel

/-! ## One step -/

/-- An idle step is a tick: 1 ns later, no command runs. -/
theorem test_idle_step : (match step { pwr := { good := true } } with | .next t => (t.tim.up, t.tim.ns, t.pwr.sbNs) | _ => (0, 0, 0)) = (1, 1, 1) := by decide

/-- The first of two commands runs and the second waits. -/
theorem test_first_in_first_out : step { pending := [.fspIdleTimer, .fspEnd] } = exec .fspIdleTimer { pending := [.fspEnd] } := rfl

/-- 1.0 + 2.0 = 3.0 on every lane; the largest finite number doubled overflows to infinity (R323). -/
theorem test_fadd_lanes :
    (match exec (.fadd 15 3 1 2 15) (core { running with regs := [(1, mkLanes 0x3F800000 0x3F800000 0x7F7FFFFF 0xBF800000), (2, mkLanes 0x40000000 0x40000000 0x7F7FFFFF 0x3F800000)] }) with
     | .next t => (tc 15 t).v 3
     | _ => 0) = mkLanes 0x40400000 0x40400000 0x7F800000 0 := by decide +kernel

/-- A destination is read before it is written: v1 := v1 − v1 on lanes 0 and 2 alone. -/
theorem test_sub_same_register_under_mask :
    (match exec (.isub 15 1 1 1 5) (core { running with regs := [(1, mkLanes 7 7 7 7)] }) with
     | .next t => (tc 15 t).v 1
     | _ => 0) = mkLanes 0 7 0 7 := by decide +kernel

/-- A write that lies beyond the ring is refused with ERR = 2 and the tail stays (R383). -/
theorem test_tail_beyond_ring :
    (match exec (.hrTailWrite 1 3 0x2000) (ringed {} {}) with
     | .next t => ((hr 3 t).err, (hr 3 t).tail)
     | _ => (0, 1)) = (2, 0) := by decide

end Sys2Proof.Tests
end

section
/-! SUPPORT. Access to registers: what raising a cause leaves of the fabric and of PCI, and what a read does in each of its cases (R402, R408, R409, R414–R417). -/

namespace Sys2Proof.Machine

/-- A command whose next state `u` is shown to be `t` completes as `t` is. -/
theorem Runs.of_only {c : Instr} {s u t : State} {l : List Area} {P : State → Prop} (he : exec c s = .next u) (hu : u = t) (h : Only l s t) (hp : P t) :
    Runs c s l P := ⟨t, hu ▸ he, h.same, hp⟩

/-! ## What raising a cause leaves of the fabric and of PCI -/

/-- Of the fabric only the counts of events differ, and of PCI only the vectors that are pending (R417). -/
structure OnlyCounts (s t : State) : Prop where
  fab : t.fab = { s.fab with raises := t.fab.raises, vectors := t.fab.vectors, norec := t.fab.norec }
  pci : t.pci = { s.pci with pba := t.pci.pba }

theorem OnlyCounts.refl (s : State) : OnlyCounts s s := ⟨rfl, rfl⟩

theorem OnlyCounts.trans {s t u : State} (h : OnlyCounts s t) (k : OnlyCounts t u) : OnlyCounts s u :=
  ⟨k.fab.trans (by rw [h.fab]), k.pci.trans (by rw [h.pci])⟩

/-- An operation that reaches neither the fabric nor PCI. -/
theorem OnlyCounts.of_only {l : List Area} {s t : State} (h : Only l s t) (hf : .fab ∉ l) (hp : .pci ∉ l) : OnlyCounts s t :=
  have hfab : t.fab = s.fab := h.same .fab hf
  have hpci : t.pci = s.pci := h.same .pci hp
  ⟨by rw [hfab], by rw [hpci]⟩

theorem signal_onlyCounts (e : Nat) (s : State) : OnlyCounts s (signal e s) := by
  unfold signal
  dsimp only
  split <;> exact ⟨rfl, rfl⟩

theorem signalIfNew_onlyCounts (before : Bool) (e : Nat) (s : State) : OnlyCounts s (signalIfNew before e s) := by
  unfold signalIfNew
  split
  · exact signal_onlyCounts e s
  · exact .refl s

theorem latch_onlyCounts (p bit : Nat) (s : State) : OnlyCounts s (latch p bit s) := by
  unfold latch
  cases evOf p bit with
  | none => exact .refl s
  | some e =>
    dsimp only
    refine .trans ?_ (signalIfNew_onlyCounts _ e _)
    exact ⟨rfl, rfl⟩

theorem raise_onlyCounts (p bit d : Nat) (s : State) : OnlyCounts s (raise p bit d s) := by
  have h : OnlyCounts s (trialFault p (latch p bit s)) :=
    (latch_onlyCounts p bit s).trans (.of_only (trialFault_only p _) (by decide) (by decide))
  unfold raise
  cases evOf p bit with
  | none => exact h
  | some e =>
    dsimp only
    split
    · exact h
    · split
      · exact h.trans ⟨rfl, rfl⟩
      · exact h.trans (.of_only (Only.foldl (fun t id => stage_only _ t id) _ _) (by decide) (by decide))

theorem condStart_fab (p bit sub : Nat) (s : State) : (condStart p bit sub s).fab = { s.fab with conds := (condStart p bit sub s).fab.conds } := by
  unfold condStart
  split <;> rfl

/-- What a cause raised once per episode leaves of the fabric. -/
theorem raiseOnce_fab (p bit sub d : Nat) (s : State) :
    let f := (raiseOnce p bit sub d s).fab
    f = { s.fab with conds := f.conds, raises := f.raises, vectors := f.vectors, norec := f.norec } := by
  unfold raiseOnce
  split
  · rfl
  · have h := (raise_onlyCounts p bit d (condStart p bit sub s)).fab
    rw [condStart_fab] at h
    dsimp only
    rw [h]

/-- What a cause raised once per episode leaves of PCI. -/
theorem raiseOnce_pci (p bit sub d : Nat) (s : State) : (raiseOnce p bit sub d s).pci = { s.pci with pba := (raiseOnce p bit sub d s).pci.pba } := by
  unfold raiseOnce
  split
  · rfl
  · have h := (raise_onlyCounts p bit d (condStart p bit sub s)).pci
    rwa [show (condStart p bit sub s).pci = s.pci from (condStart_only p bit sub s).same .pci (by decide)] at h

/-! ## Shadows (R409) -/

theorem shadowOf_setShadow (r : Req) (p : Nat) (ws : List (Nat × Word)) (s : State) : shadowOf r p (setShadow r p ws s) = some ⟨r.val, p, ws, false⟩ := by
  simp [shadowOf, setShadow]

theorem shadowOf_dropShadow (r : Req) (p : Nat) (s : State) : shadowOf r p (dropShadow r p s) = none := by
  simp only [shadowOf, dropShadow, State.modFab_fab, List.find?_eq_none, List.mem_filter, Bool.not_eq_true']
  exact fun g hg => by simpa using hg.2

theorem shadowOf_congr {s t : State} (h : t.fab.shadows = s.fab.shadows) (r : Req) (p : Nat) : shadowOf r p t = shadowOf r p s := by
  rw [shadowOf, h, shadowOf]

/-- A shadow of another requester or page stays where one is dropped. -/
theorem mem_dropShadow {r : Req} {p : Nat} {s : State} {g : Shadow} (hg : g ∈ s.fab.shadows) (h : g.req ≠ r.val ∨ g.page ≠ p) :
    g ∈ (dropShadow r p s).fab.shadows := by
  simp only [dropShadow, State.modFab_fab, List.mem_filter]
  refine ⟨hg, ?_⟩
  rcases h with h | h <;> simp [h]

/-- A shadow of another requester or page stays where one is set. -/
theorem mem_setShadow {r : Req} {p : Nat} (ws : List (Nat × Word)) {s : State} {g : Shadow} (hg : g ∈ s.fab.shadows) (h : g.req ≠ r.val ∨ g.page ≠ p) :
    g ∈ (setShadow r p ws s).fab.shadows := List.mem_cons_of_mem _ (mem_dropShadow hg h)

/-! ## Reads (R402, R408, R409) -/

/-- A multi-word register lies on a page of the map. -/
theorem page_lt_of_latchWords {a : Nat} (h : latchWords a ≠ []) : a / 4096 < 0x56 := by
  by_contra hp
  apply h
  simp only [latchWords]
  repeat rw [if_neg (by omega)]

/-- The lowest word of a multi-word register reads live, and the others go into the requester's shadow. -/
theorem readAt_latching {a : Nat} (h : latchWords a ≠ []) (r : Req) (s : State) :
    readAt r a s = (regRead a s, setShadow r (a / 4096) ((latchWords a).map fun x => (x, regRead x s)) s) := by
  have hp := page_lt_of_latchWords h
  have hq : a ≠ 0x0D090 := fun e => h (by rw [e]; rfl)
  have hf : a ≠ 0x06094 := fun e => h (by rw [e]; rfl)
  have hr : a ≠ 0x09068 := fun e => h (by rw [e]; rfl)
  rw [readAt, if_neg (by omega), if_neg hq, if_neg hf, if_neg hr]
  dsimp only
  cases hl : latchWords a with
  | nil => exact absurd hl h
  | cons x xs => rfl

/-- A read of CH_STAT clears EPIS behind it (R16). -/
theorem readAt_epis (r : Req) (s : State) : readAt r 0x0E060 s = (regRead 0x0E060 s, clearEpis s) := rfl

/-- An access of a reserved page reads 0. -/
theorem readAt_reserved {a : Nat} (h : 0x56 ≤ a / 4096) (r : Req) (s : State) : readAt r a s = (0, reservedAccess s) := if_pos h

/-- An address of the page map whose read of itself moves nothing and latches nothing. -/
structure ReadsStill (a : Nat) : Prop where
  noQueue : a ≠ 0x0D090
  noFlash : a ≠ 0x06094
  noRet : a ≠ 0x09068
  noEpis : a ≠ 0x0E060
  noLatch : latchWords a = []
  mapped : a / 4096 < 0x56

section
variable {a : Nat} (ha : ReadsStill a) {r : Req} {s : State}
include ha

/-- Without a shadow of the page a register reads live. -/
theorem readAt_unshadowed (h : shadowOf r (a / 4096) s = none) : readAt r a s = (regRead a s, s) := by
  rw [readAt, if_neg (Nat.not_le.mpr ha.mapped), if_neg ha.noQueue, if_neg ha.noFlash, if_neg ha.noRet]
  dsimp only
  rw [ha.noLatch]
  dsimp only
  rw [if_neg ha.noEpis, h]

/-- A shadowed word: read from its shadow, or live once that has expired, counted and raised. -/
theorem readAt_shadowed {g : Shadow} {e : Nat × Word} (h : shadowOf r (a / 4096) s = some g) (he : g.words.find? (·.1 = a) = some e) :
    readAt r a s =
      if g.expired then (regRead a s, raiseOnce pgDEV 3 0 0 (dropShadow r (a / 4096) (s.modFab fun f => { f with accLate := satAdd 255 f.accLate 1 })))
      else (e.2, s) := by
  rw [readAt, if_neg (Nat.not_le.mpr ha.mapped), if_neg ha.noQueue, if_neg ha.noFlash, if_neg ha.noRet]
  dsimp only
  rw [ha.noLatch]
  dsimp only
  rw [if_neg ha.noEpis, h]
  dsimp only
  rw [he]

end

/-- A read that finds no self-test slice in its way is answered as it reads. -/
theorem readAnswer_eq {r : Req} {a : Nat} {s : State} (h : reachIsland false (a / 4096) s = s) {w : Word} {t : State} (hr : readAt r a s = (w, t)) :
    readAnswer r a s = answer r a w t := by
  rw [readAnswer, readReg, h, hr]

/-- Reads reach no island but the merger's (R430). -/
theorem reachIsland_read {p : Nat} (h : p < 0x0B ∨ 0x0D < p) (s : State) : reachIsland false p s = s := by
  rw [reachIsland, if_neg (by omega)]
  rfl

end Sys2Proof.Machine
end

section
/-! PROOF. Reads, shadows and requests (R16, R377, R402, R408, R409). -/

namespace Sys2Proof.Machine

/-- An access of a reserved page is counted, and raised at the start of its episode. -/
theorem reservedAccess_counts (s : State) :
    (reservedAccess s).fab.accRsvd = satAdd 255 s.fab.accRsvd 1 ∧ (condOn pgDEV 4 0 s = false → Latched pgDEV 4 (reservedAccess s)) :=
  ⟨congrArg Fab.accRsvd (raiseOnce_fab pgDEV 4 0 0 _), fun h => raiseOnce_latched 0 0 _ (by decide) (by decide) h⟩

/-- The state after a read of a word whose shadow has expired. -/
def readLate (r : Req) (p : Nat) (s : State) : State :=
  raiseOnce pgDEV 3 0 0 (dropShadow r p (s.modFab fun f => { f with accLate := satAdd 255 f.accLate 1 }))

theorem readLate_only (r : Req) (p : Nat) (s : State) : Only reports s (readLate r p s) :=
  Only.next (raiseOnce_only _ _ _ _ _) rfl (Only.next (dropShadow_only r p _) rfl ((modFab_only _ s).mono rfl))

theorem readLate_accLate (r : Req) (p : Nat) (s : State) : (readLate r p s).fab.accLate = satAdd 255 s.fab.accLate 1 :=
  congrArg Fab.accLate (raiseOnce_fab pgDEV 3 0 0 _)

/-- A late read leaves the shadows that dropping the one left. -/
theorem readLate_shadows (r : Req) (p : Nat) (s : State) : (readLate r p s).fab.shadows = (dropShadow r p s).fab.shadows :=
  (congrArg Fab.shadows (raiseOnce_fab pgDEV 3 0 0 (dropShadow r p _))).trans rfl

theorem readLate_latched {r : Req} {p : Nat} {s : State} (h : condOn pgDEV 3 0 s = false) : Latched pgDEV 3 (readLate r p s) :=
  raiseOnce_latched 0 0 _ (by decide) (by decide) h

/-- A register read live and answered: nothing but the answer goes out. -/
theorem readAnswer_live {r : Req} {a : Nat} {s : State} (ha : ReadsStill a) (hi : reachIsland false (a / 4096) s = s) (h : shadowOf r (a / 4096) s = none) :
    readAnswer r a s = answer r a (regRead a s) s := readAnswer_eq hi (readAt_unshadowed ha h)

/-- No freeze, no gate. -/
theorem gated_open {r : Req} {p : Nat} {s : State} (h : (page p s).freeze = false) (f : State → State) : gated r p f s = f s := by
  simp [gated, h]

/-- A register of a block, at offset 0x040 or above, written on a page that is not frozen. -/
theorem writeReg_block {r : Req} (a : Nat) {s : State} (hp : a / 4096 < 0x56) (ho : 0x040 ≤ a % 4096) (hg : (page (a / 4096) s).freeze = false)
    (hi : reachIsland true (a / 4096) s = s) (v : Word) : writeReg r a v s = blockWrite r (a / 4096) (a % 4096 / 4 * 4) v s := by
  rw [writeReg, if_neg (by omega), gated_open hg, if_neg (by omega), hi]

/-- A write of a reserved page. -/
theorem writeReg_reserved {a : Nat} (h : 0x56 ≤ a / 4096) (r : Req) (v : Word) (s : State) : writeReg r a v s = reservedAccess s := if_pos h

/-- EPIS of the selected slot is cleared, every other slot is left. -/
theorem clearEpis_becomes {s : State} (hg : (chwSel s).1 = false) (hc : (chwSel s).2 < 320) :
    Becomes chan (chwSel s).2 { chan (chwSel s).2 s with epis := 0 } s (clearEpis s) := by
  rw [clearEpis, if_neg (by simp [hg, hc])]
  exact ⟨chan_modChan_self s _ _, fun m hm => chan_modChan_of_ne s hm _⟩

/-- A plain register takes the bits of its fields, and no other plain register changes. -/
theorem rfGet_rfPut {a : Nat} {m z : Word} (h : rwReg (a / 4096) (a % 4096) = some (m, z)) (v : Word) (s : State) :
    rfGet a (rfPut a v s) = v &&& m ∧ ∀ x, x ≠ a → rfGet x (rfPut a v s) = rfGet x s := by
  rw [rfPut, h]
  exact ⟨FMap.get_put_self, fun x hx => FMap.get_put_of_ne hx⟩

/-! ## The commands -/

section
variable {r : Req} {addr : BitVec 20} {s : State}

theorem multiwordLatchRead_runs (hl : latchWords (regAddr addr) ≠ []) (hi : reachIsland false (regAddr addr / 4096) s = s) :
    Runs (.multiwordLatchRead r addr) s [.fab, .outbox] fun t =>
      t.outbox = .read r.val (regAddr addr) (regRead (regAddr addr) s) :: s.outbox ∧
      shadowOf r (regAddr addr / 4096) t = some ⟨r.val, regAddr addr / 4096, (latchWords (regAddr addr)).map fun x => (x, regRead x s), false⟩ ∧
      ∀ g ∈ s.fab.shadows, (g.req ≠ r.val ∨ g.page ≠ regAddr addr / 4096) → g ∈ t.fab.shadows :=
  .of_only rfl ((readAnswer_eq hi (readAt_latching hl r s))) (Only.next (answer_only _ _ _ _) rfl ((setShadow_only _ _ _ s).mono rfl))
    ⟨rfl, shadowOf_setShadow r _ _ s, fun _ hg h => mem_setShadow _ hg h⟩

theorem shadowWordRead_runs {g : Shadow} {w : Word} (ha : ReadsStill (regAddr addr)) (hi : reachIsland false (regAddr addr / 4096) s = s)
    (hs : shadowOf r (regAddr addr / 4096) s = some g) (hw : g.words.find? (·.1 = regAddr addr) = some (regAddr addr, w)) (he : g.expired = false) :
    Runs (.shadowWordRead r addr) s [.outbox] fun t => t.outbox = .read r.val (regAddr addr) w :: s.outbox := by
  have hr := readAt_shadowed ha hs hw
  rw [he] at hr
  exact .of_only rfl ((readAnswer_eq hi hr)) (answer_only _ _ _ s) rfl

theorem shadowWordRead_late_runs {g : Shadow} {w : Word} (ha : ReadsStill (regAddr addr)) (hi : reachIsland false (regAddr addr / 4096) s = s)
    (hs : shadowOf r (regAddr addr / 4096) s = some g) (hw : g.words.find? (·.1 = regAddr addr) = some (regAddr addr, w)) (he : g.expired = true)
    (hc : condOn pgDEV 3 0 s = false) :
    Runs (.shadowWordRead r addr) s reports fun t =>
      .read r.val (regAddr addr) (regRead (regAddr addr) s) ∈ t.outbox ∧ t.fab.accLate = satAdd 255 s.fab.accLate 1 ∧
      shadowOf r (regAddr addr / 4096) t = none ∧
      (∀ g ∈ s.fab.shadows, (g.req ≠ r.val ∨ g.page ≠ regAddr addr / 4096) → g ∈ t.fab.shadows) ∧ Latched pgDEV 3 t := by
  have hr : readAt r (regAddr addr) s = (regRead (regAddr addr) s, readLate r (regAddr addr / 4096) s) := by
    rw [readAt_shadowed ha hs hw, he]
    rfl
  have hsh := readLate_shadows r (regAddr addr / 4096) s
  exact .of_only rfl ((readAnswer_eq hi hr)) (Only.next (answer_only _ _ _ _) rfl (readLate_only r _ s))
    ⟨List.mem_cons_self, readLate_accLate r _ s, (shadowOf_congr hsh r _).trans (shadowOf_dropShadow r _ s),
      fun _ hg h => hsh ▸ mem_dropShadow hg h, readLate_latched hc⟩

theorem rcFieldRead_runs (ha : regAddr addr = 0x0E060) (hg : (chwSel s).1 = false) (hc : (chwSel s).2 < 320) :
    Runs (.rcFieldRead r addr) s [.chans, .outbox] fun t =>
      t.outbox = .read r.val (regAddr addr) (regRead (regAddr addr) s) :: s.outbox ∧
      Becomes chan (chwSel s).2 { chan (chwSel s).2 s with epis := 0 } s t := by
  have hread : readAnswer r (regAddr addr) s = answer r 0x0E060 (regRead 0x0E060 s) (clearEpis s) := by
    rw [ha, readAnswer_eq (reachIsland_read (by decide) s) (readAt_epis r s)]
  have hout : (clearEpis s).outbox = s.outbox := (clearEpis_only s).same .outbox (by decide)
  rw [ha]
  exact .of_only rfl hread (Only.next (answer_only _ _ _ _) rfl ((clearEpis_only s).mono rfl)) ⟨congrArg (_ :: ·) hout, clearEpis_becomes hg hc⟩

/-- A BAR0 request of other than one dword is an Unsupported Request (R377). -/
theorem bar0Request_unsupported_runs (write : Bool) (be : BitVec 4) {dwords : Nat} (v : Word) (h : dwords ≠ 1) :
    Runs (.bar0Request write addr be dwords v) s [.outbox] fun t => t.outbox = .unsupported (regAddr addr) :: s.outbox :=
  .of_only rfl ((if_pos h)) (drive_only _ s) rfl

/-- A partial write is discarded, counted, and raised at the start of its episode. -/
theorem bar0Request_partial_runs {be : BitVec 4} (v : Word) (h : be ≠ 0xF) :
    Runs (.bar0Request true addr be 1 v) s (reporting [.pci]) fun t =>
      t.pci.badacc = (s.pci.badacc + 1) % 65536 ∧ (condOn pgPCI 19 0 s = false → Latched pgPCI 19 t) :=
  .of_only rfl ((if_pos h)) (Only.next (raiseOnce_only _ _ _ _ _) rfl ((modPci_only _ s).mono rfl))
    ⟨congrArg Pci.badacc (raiseOnce_pci pgPCI pciBADACC 0 0xFF00 _), fun hc => raiseOnce_latched 0 0xFF00 _ (by decide) (by decide) hc⟩

theorem bar0Request_read_runs {be : BitVec 4} (v : Word) (ha : ReadsStill (regAddr addr)) (hi : reachIsland false (regAddr addr / 4096) s = s)
    (hs : shadowOf 1 (regAddr addr / 4096) s = none) :
    Runs (.bar0Request false addr be 1 v) s [.outbox] fun t => t.outbox = .read 1 (regAddr addr) (regRead (regAddr addr) s) :: s.outbox :=
  .of_only rfl ((readAnswer_live ha hi hs)) (answer_only _ _ _ s) rfl

theorem bar0Request_write_runs {v : Word} (ha : regAddr addr = 0x0C04C) (hi : serveMerger s = s) (hg : (page pgKEN s).freeze = false) :
    Runs (.bar0Request true addr 0xF 1 v) s [.rf] fun t => rfGet 0x0C04C t = v &&& 0xFFF ∧ ∀ x, x ≠ 0x0C04C → rfGet x t = rfGet x s := by
  refine .of_only rfl ?_ (rfPut_only 0x0C04C v s) (rfGet_rfPut rfl v s)
  show writeReg 1 (regAddr addr) v s = _
  rw [ha, writeReg_block 0x0C04C (by decide) (by decide) hg hi]
  rfl

theorem reservedPageAccess_read_runs (h : 0x56 ≤ regAddr addr / 4096) :
    Runs (.reservedPageAccess r addr false) s reports fun t =>
      .read r.val (regAddr addr) 0 ∈ t.outbox ∧ t.fab.accRsvd = satAdd 255 s.fab.accRsvd 1 ∧ (condOn pgDEV 4 0 s = false → Latched pgDEV 4 t) :=
  .of_only rfl ((readAnswer_eq (reachIsland_read (by omega) s) (readAt_reserved h r s)))
    (Only.next (answer_only _ _ _ _) rfl (reservedAccess_only s)) ⟨List.mem_cons_self, reservedAccess_counts s⟩

theorem reservedPageAccess_write_runs (h : 0x56 ≤ regAddr addr / 4096) :
    Runs (.reservedPageAccess r addr true) s reports fun t =>
      t.fab.accRsvd = satAdd 255 s.fab.accRsvd 1 ∧ (condOn pgDEV 4 0 s = false → Latched pgDEV 4 t) :=
  .of_only rfl ((writeReg_reserved h r 0 s)) (reservedAccess_only s) (reservedAccess_counts s)

end

/-- Settles O38: each command by the case of `readAt`, `writeReg` or `execBar0Request` that its conditions name. -/
theorem pagesReadsShadowsAndRequests : Obligations.PagesReadsShadowsAndRequests := by
  unfold Obligations.PagesReadsShadowsAndRequests
  intro r addr v w be dwords g pg s a p plain answered others
  have still (h : plain) : ReadsStill a :=
    have ⟨hq, hf, hr, he, hl, hp⟩ := h
    ⟨hq, hf, hr, he, hl, hp⟩
  refine ⟨multiwordLatchRead_runs, fun ha hi hs hw => ⟨fun he => ?_, fun he hc => ?_⟩, ?_, rcFieldRead_runs, fun h => ⟨?_, ?_⟩, bar0Request_partial_runs v,
    fun ha hi hs => ?_, fun ha hi hg => ?_, fun h => ⟨reservedPageAccess_read_runs h, reservedPageAccess_write_runs h⟩⟩
  · exact shadowWordRead_runs (still ha) hi hs hw he
  · exact shadowWordRead_late_runs (still ha) hi hs hw he hc
  · exact .of_only rfl rfl (modFab_only _ s) rfl
  · exact bar0Request_unsupported_runs true be v h
  · exact bar0Request_unsupported_runs false be v h
  · exact bar0Request_read_runs v (still ha) hi hs
  · rw [ha]
    exact bar0Request_write_runs ha hi hg

end Sys2Proof.Machine
end

section
/-! SUPPORT. What a soft reset keeps (R404): SNAP.SEQ of every page, through each operation that one may carry out. -/

namespace Sys2Proof.Machine

/-- SNAP.SEQ of every page is as before (R407). -/
def SeqKept (s t : State) : Prop := ∀ p, (page p t).snapSeq = (page p s).snapSeq

theorem SeqKept.refl (s : State) : SeqKept s s := fun _ => rfl

theorem SeqKept.trans {s t u : State} (h : SeqKept s t) (k : SeqKept t u) : SeqKept s u := fun p => (k p).trans (h p)

/-- Then an operation that touches no page header. -/
theorem SeqKept.only {l : List Area} {s t u : State} (h : SeqKept s t) (k : Only l t u) (hl : l.contains .pages = false) : SeqKept s u :=
  h.trans fun p => by rw [page_congr (k.same .pages (by simpa using hl))]

/-- An operation that touches no page header. -/
theorem SeqKept.of_only {l : List Area} {s t : State} (k : Only l s t) (hl : l.contains .pages = false) : SeqKept s t := (SeqKept.refl s).only k hl

theorem SeqKept.ite {c : Prop} [Decidable c] {s a b : State} (h : SeqKept s a) (k : SeqKept s b) : SeqKept s (if c then a else b) := by
  split <;> assumption

/-- A choice of which the first way is taken only where its condition holds. -/
theorem SeqKept.ite_of {c : Prop} [Decidable c] {s a b : State} (h : c → SeqKept s a) (k : SeqKept s b) : SeqKept s (if c then a else b) := by
  split
  · exact h ‹_›
  · exact k

theorem SeqKept.foldl_mem {β : Type} {f : State → β → State} {xs : List β} (h : ∀ b ∈ xs, ∀ s, SeqKept s (f s b)) (s : State) : SeqKept s (xs.foldl f s) := by
  induction xs generalizing s with
  | nil => exact .refl s
  | cons x xs ih => exact (h x List.mem_cons_self s).trans (ih (fun b hb => h b (List.mem_cons_of_mem x hb)) (f s x))

theorem SeqKept.foldl {β : Type} {f : State → β → State} (h : ∀ s b, SeqKept s (f s b)) (xs : List β) (s : State) : SeqKept s (xs.foldl f s) :=
  .foldl_mem (fun b _ t => h t b) s

/-- Then a change of a header that keeps SEQ. -/
theorem SeqKept.modPage {s t : State} (h : SeqKept s t) (p : Nat) {f : Page → Page} (hf : ∀ g, (f g).snapSeq = g.snapSeq) :
    SeqKept s (modPage p f t) := h.trans fun q => by
  by_cases hq : q = p
  · rw [hq, page_modPage_self, hf]
  · rw [page_modPage_of_ne t hq]

theorem SeqKept.bumpGen {s t : State} (h : SeqKept s t) (p : Nat) : SeqKept s (bumpGen p t) := h.modPage p fun _ => rfl

/-- A gated write. -/
theorem SeqKept.gated {s t : State} (h : SeqKept s t) (r : Req) (p : Nat) {f : State → State} (hf : ∀ s, SeqKept s (f s)) : SeqKept s (gated r p f t) :=
  h.trans (.ite (.of_only (modFab_only _ t) rfl) (hf t))

/-- A meaning that touches no page header. -/
theorem meaning_seqKept {l : List Area} {o : Out3} {s : State} (h : Answers l s o) (hl : l.contains .pages = false) : SeqKept s (after o s) := by
  obtain ⟨t, rfl, ht⟩ := h
  exact .of_only ht hl

/-- A meaning that is a gated write. -/
theorem gatedMeaning_seqKept {r : Req} {p : Nat} {f : State → State} {o : Out3} {s : State} (ho : o = .next (gated r p f s))
    (hf : ∀ t, SeqKept t (f t)) : SeqKept s (after o s) := ho ▸ (SeqKept.refl s).gated r p hf

/-- A meaning carried out where a bit of a write asks for it. -/
theorem SeqKept.on {s t : State} (h : SeqKept s t) (c : Bool) {f : State → Out3} (hf : ∀ s, SeqKept s (after (f s) s)) : SeqKept s (on c f t) :=
  h.trans (.ite (hf t) (.refl t))

/-! ## Causes and slices -/

theorem latch_seqKept (p bit : Nat) (s : State) : SeqKept s (latch p bit s) := by
  unfold latch
  cases evOf p bit with
  | none => exact .refl s
  | some e =>
    dsimp only
    refine .only (.only (.modPage (.refl s) p ?_) (modFab_only _ _) rfl) (signalIfNew_only _ e _) rfl
    exact fun _ => rfl

theorem trialFault_seqKept (p : Nat) (s : State) : SeqKept s (trialFault p s) := .ite ((SeqKept.of_only (modFwl_only _ s) rfl).bumpGen pgFWL) (.refl s)

/-- Then a cause raised. -/
theorem SeqKept.raise {s t : State} (h : SeqKept s t) (p bit d : Nat) : SeqKept s (raise p bit d t) :=
  (h.trans ((latch_seqKept p bit t).trans (trialFault_seqKept p _))).trans fun q => by rw [page_congr (raise_pages p bit d t)]

theorem SeqKept.raiseOnce {s t : State} (h : SeqKept s t) (p bit sub d : Nat) : SeqKept s (raiseOnce p bit sub d t) :=
  h.trans (.ite (.refl t) ((SeqKept.of_only (condStart_only p bit sub t) rfl).raise p bit d))

theorem abandonSlice_seqKept (k : Nat) (s : State) : SeqKept s (abandonSlice k s) := by
  unfold abandonSlice
  dsimp only
  refine .trans ?_ (.ite ((SeqKept.refl _).raiseOnce _ _ _ _) (.refl _))
  exact ((SeqKept.of_only (modIsl_only k _ s) rfl).only (modBst_only _ _) rfl).only (endSlice_only k 3 _) rfl

theorem serve_seqKept (k : Nat) (s : State) : SeqKept s (serve k s) := .ite (abandonSlice_seqKept k s) (.refl s)

end Sys2Proof.Machine
end

section
/-! SUPPORT. SNAP.SEQ through a block's operations that touch page headers and that a soft reset may carry out (R404). -/

namespace Sys2Proof.Machine

/-! ## Self-test and power -/

theorem cycleEnd_seqKept (s : State) : SeqKept s (cycleEnd s) := by
  unfold cycleEnd
  dsimp only
  refine .trans (.bumpGen (.only ?_ (modBst_only _ _) rfl) pgBST) (.foldl (fun t k => .of_only (modIsl_only k _ t) rfl) _ _)
  exact (SeqKept.refl s).raise _ _ _

theorem bstCtrl_seqKept (v : Word) (s : State) : SeqKept s (bstCtrl v s) := by
  unfold bstCtrl
  dsimp only
  refine .trans ?_ (.ite (.of_only (bstStop_only _) rfl) (.ite (.of_only (modBst_only _ _) rfl) (.refl _)))
  exact .only (.ite (cycleEnd_seqKept s) (.refl s)) (rfPut_only 0x07040 v _) rfl

theorem pwrState_seqKept (st : Nat) (s : State) : SeqKept s (pwrState st s) :=
  .ite (.refl s) (((SeqKept.of_only (modPwr_only _ s) rfl).bumpGen pgPWR).raise pgPWR 0 st)

theorem startUnpark_seqKept (s : State) : SeqKept s (startUnpark s) := by
  unfold startUnpark
  dsimp only
  refine .trans ?_ (.ite (.refl _) (.of_only (drive_only (.dice true) _) rfl))
  exact (SeqKept.of_only (modPwr_only _ s) rfl).trans (pwrState_seqKept 4 _)

theorem unparkReq_seqKept (s : State) : SeqKept s (unparkReq s) :=
  .ite ((SeqKept.of_only (pwrErr_only 0 s) rfl).trans (startUnpark_seqKept _))
    (.ite (.only (.of_only (modPwr_only _ s) rfl) (pwrErr_only 0 _) rfl) (.of_only (pwrErr_only 0 s) rfl))

/-- PWR.CTRL written with 0 asks for run and no reset. -/
theorem pwrCtrl_zero_seqKept (s : State) : SeqKept s (pwrCtrl 0 s) := (SeqKept.of_only (rfPut_only 0x09040 0 s) rfl).trans (unparkReq_seqKept _)

/-! ## Rings and the Leash -/

theorem hopBroken_seqKept (key hop : Nat) (s : State) : SeqKept s (hopBroken key hop s) := by
  unfold hopBroken
  dsimp only
  refine .ite (.refl s) (.trans ?_ (.ite (.raise (.of_only (condStart_only pgLSH lshMULTI key _) rfl) _ _ _) (.refl _)))
  exact .raise (.only (.bumpGen (.of_only (modRing_only key _ s) rfl) pgLSH) (condStart_only _ _ _ _) rfl) _ _ _

theorem wrapAt_seqKept (p : Nat) (s : State) : SeqKept s (wrapAt p s) := by
  unfold wrapAt
  split
  · exact .refl s
  · rename_i r hop _
    dsimp only
    have h (t : State) (f : Ring → Ring) (g : Lane → Lane) : SeqKept s (modLane p g (modRing r.key f (hopBroken r.key hop s))) :=
      .only (.only (hopBroken_seqKept r.key hop s) (modRing_only r.key f _) rfl) (modLane_only p g _) rfl
    split
    · exact h s _ _
    · exact .only (.only (h s _ _) (modLane_only _ _ _) rfl) (sendCtrlOn_only _ _ _) rfl

theorem duplexCheck_seqKept (s : State) : SeqKept s (duplexCheck s) := by
  unfold duplexCheck
  dsimp only
  refine .ite (.refl s) (.ite (.raise (.only (.of_only (modLsh_only _ s) rfl) (condStart_only _ _ _ _) rfl) _ _ _) (.ite ?_ (.refl s)))
  exact .raise (.only (.of_only (modLsh_only _ s) rfl) (condEnd_only _ _ _ _) rfl) _ _ _

theorem leaveUp_seqKept (p : Nat) (s : State) : SeqKept s (leaveUp p s) :=
  (SeqKept.of_only (modLane_only p Lane.cut s) rfl).trans (.ite (duplexCheck_seqKept _) (wrapAt_seqKept p _))

/-! ## Ports -/

theorem toHunt_seqKept (p : Nat) (s : State) : SeqKept s (toHunt p s) := by
  unfold toHunt
  dsimp only
  refine .trans (.only (.bumpGen (.only ?_ (modPort_only p _ _) rfl) _) (setTxDis_only p _) rfl) (.ite (leaveUp_seqKept p _) (.refl _))
  exact .ite (.of_only (modLane_only p _ s) rfl) (.bumpGen (.of_only (modLane_only p _ s) rfl) pgPLN)

theorem lockLost_seqKept (p : Nat) (s : State) : SeqKept s (lockLost p s) :=
  ((SeqKept.of_only (modLane_only p _ s) rfl).raise _ _ _).trans (toHunt_seqKept p _)

theorem goIdle_seqKept (p : Nat) (s : State) : SeqKept s (goIdle p s) := by
  unfold goIdle
  dsimp only
  refine .ite (.refl s) (.trans (.raise (.only (.only (.bumpGen ?_ _) (setTxDis_only p _) rfl) (condStart_only _ _ p _) rfl) _ _ _) (leaveUp_seqKept p _))
  exact .only (.only (.only (.of_only (putBlock_only p _ false s) rfl) (modLane_only p _ _) rfl) (drive_only _ _) rfl) (sendSyms_only p _ _) rfl

theorem exitIdle_seqKept (p : Nat) (s : State) : SeqKept s (exitIdle p s) := by
  unfold exitIdle
  dsimp only
  refine .ite (.refl s) (.bumpGen (.only (.only ?_ (sendSyms_only p _ _) rfl) (setTxDis_only p _) rfl) _)
  exact .only (.only (.of_only (takeFree_only s) rfl) (modLane_only p _ _) rfl) (drive_only _ _) rfl

theorem losRises_seqKept (p : Nat) (s : State) : SeqKept s (losRises p s) := by
  unfold losRises
  dsimp only
  refine .trans (.of_only (modLane_only p _ s) rfl) (.ite (.refl _) (.trans ?_ (.ite (lockLost_seqKept p _) (.refl _))))
  exact .raise (.of_only (condStart_only _ _ p _) rfl) _ _ _

theorem losFollow_seqKept (p : Nat) (s : State) : SeqKept s (losFollow p s) :=
  .ite (.refl s) (.ite (losRises_seqKept p s) ((SeqKept.only (.of_only (modLane_only p _ s) rfl) (condEnd_only _ _ p _) rfl).trans (exitIdle_seqKept p _)))

theorem maxrateWrite_seqKept (r : Req) (p : Port) (v : Word) (s : State) : SeqKept s (after (execMaxrateWrite r p v s) s) := by
  refine gatedMeaning_seqKept rfl fun t => ?_
  exact .trans (.of_only (rfPut_only _ _ t) rfl) (.ite (toHunt_seqKept p.val _) (.refl _))

theorem eidleEnterRequest_seqKept (r : Req) (p : Port) (s : State) : SeqKept s (after (execEidleEnterRequest r p s) s) := by
  refine gatedMeaning_seqKept rfl fun t => ?_
  exact .ite (.trans (.of_only (setEidle_only p.val true t) rfl) (goIdle_seqKept p.val _)) (.refl t)

theorem eidleExitRequest_seqKept (r : Req) (p : Port) (s : State) : SeqKept s (after (execEidleExitRequest r p s) s) := by
  refine gatedMeaning_seqKept rfl fun t => ?_
  exact .ite (.trans (.of_only (setEidle_only p.val false t) rfl) (exitIdle_seqKept p.val _)) (.refl t)

theorem portRestart_seqKept (r : Req) (p : Port) (s : State) : SeqKept s (after (execPortRestart r p s) s) := by
  refine gatedMeaning_seqKept rfl fun t => ?_
  exact .ite (.refl t) (toHunt_seqKept p.val t)

theorem portWrite_seqKept (r : Req) (p : Port) (off : Nat) (v : Word) (s : State) : SeqKept s (portWrite r p off v s) := by
  unfold portWrite
  dsimp only
  refine .ite (.on (.on (.on (.on ?_ _ (maxrateWrite_seqKept r p v)) _ (eidleEnterRequest_seqKept r p)) _ (eidleExitRequest_seqKept r p)) _ (portRestart_seqKept r p))
    (.of_only (rfPut_only _ v s) rfl)
  exact (SeqKept.of_only (rfPut_only _ _ s) rfl).trans (losFollow_seqKept p.val _)

/-! ## Queues -/

theorem wmCross_seqKept (q : Nat) (s : State) : SeqKept s (wmCross q s) :=
  .ite (.of_only (modQue_only q _ s) rfl) (((SeqKept.of_only (modQue_only q _ s) rfl).bumpGen pgQUE).raise pgQUE _ _)

/-- A meaning that is a write of the queues' page, which reaches the merger's island. -/
theorem mergerMeaning_seqKept {r : Req} {p : Nat} {f : State → State} {o : Out3} {s : State} (ho : o = .next (gatedMerger r p f s))
    (hf : ∀ t, SeqKept t (f t)) : SeqKept s (after o s) := gatedMeaning_seqKept ho fun t => (serve_seqKept 64 t).trans (hf _)

theorem qcfgWrite_seqKept (r : Req) (v : Word) (s : State) : SeqKept s (after (execQcfgWrite r v s) s) := by
  refine mergerMeaning_seqKept rfl fun t => ?_
  have h (q : Nat) (c : Prop) [Decidable c] (f g : Que → Que) : SeqKept t (if c then modQue q f t else modQue q g t) :=
    .ite (.of_only (modQue_only q f t) rfl) (.of_only (modQue_only q g t) rfl)
  exact .ite (h _ _ _ _) ((h _ _ _ _).bumpGen pgQUE)

theorem wmHwmWrite_seqKept (r : Req) (v : Word) (s : State) : SeqKept s (after (execWmHwmWrite r v s) s) := by
  refine mergerMeaning_seqKept rfl fun t => ?_
  exact .trans (.of_only (modQue_only _ _ t) rfl) (.ite (wmCross_seqKept _ _) (.refl _))

theorem resetRegions_seqKept (s : State) : SeqKept s (resetRegions s) := by
  unfold resetRegions
  dsimp only
  refine .foldl (fun t q => .ite (.of_only (modQue_only q _ t) rfl) (.ite (.of_only (modQue_only q _ t) rfl) ?_)) _ s
  exact (SeqKept.of_only (modQue_only q _ t) rfl).trans (.ite (.refl _) ((SeqKept.refl _).bumpGen pgQUE))

/-! ## Order tracks and weigh sections -/

theorem setTrackState_seqKept (k st : Nat) (s : State) : SeqKept s (setTrackState k st s) :=
  .ite (.refl s) ((SeqKept.of_only (modTrack_only k _ s) rfl).bumpGen pgORD)

theorem trackEnable_seqKept (r : Req) (v : Word) (s : State) : SeqKept s (after (execTrackEnable r v s) s) := by
  refine gatedMeaning_seqKept rfl fun t => ?_
  dsimp only
  refine .ite (.ite (.refl t) (.trans (.of_only (modTrack_only _ _ t) rfl) (setTrackState_seqKept _ 0 _))) ?_
  refine .trans (.of_only (modTrack_only _ _ t) rfl) (.ite (.refl _) (.ite (.of_only (modTrack_only _ _ _) rfl) ?_))
  exact .trans (.of_only (modTrack_only _ _ _) rfl) (setTrackState_seqKept _ 1 _)

/-! ## Host rings -/

theorem setHrState_seqKept (n st : Nat) (s : State) : SeqKept s (setHrState n st s) :=
  .ite (.refl s) ((SeqKept.of_only (modHr_only n _ s) rfl).bumpGen pgPCI)

theorem settleRing_seqKept (n : Nat) (s : State) : SeqKept s (settleRing n s) :=
  .ite (.refl s) (.ite (setHrState_seqKept n 1 s) (.ite (.refl s) ((setHrState_seqKept n 2 s).raiseOnce _ _ _ _)))

theorem completeDesc_seqKept (n : Nat) (flushed : Bool) (s : State) : SeqKept s (completeDesc n flushed s) := by
  unfold completeDesc
  dsimp only
  split
  · exact .refl s
  · refine .trans ?_ (.ite (.raise (.of_only (modHr_only n _ _) rfl) _ _ _) (.refl _))
    refine .trans ?_ (.ite (.raise (.of_only (countDesc_only _) rfl) _ _ _) (.refl _))
    refine .trans ?_ (.ite (.refl _) (.trans (.of_only (dropPkts_only n _ _) rfl) (.foldl (fun t i => .of_only (handOver_only _ _ _ t) rfl) _ _)))
    refine .trans ?_ (.ite (.of_only (drive_only _ _) rfl) (.refl _))
    refine .only (.only ?_ (drive_only _ _) rfl) (modHr_only n _ _) rfl
    exact .foldl (fun t w => .of_only (drive_only _ t) rfl) _ s

theorem stopRing_seqKept (n : Nat) (s : State) : SeqKept s (stopRing n s) :=
  (SeqKept.only (.ite (completeDesc_seqKept n false s) (.refl s)) (modHr_only n _ _) rfl).trans (setHrState_seqKept n 0 _)

theorem startRing_seqKept (n : Nat) (s : State) : SeqKept s (startRing n s) :=
  (((SeqKept.of_only (modHr_only n _ s) rfl).trans (setHrState_seqKept n 1 _)).trans (settleRing_seqKept n _)).only (fetchDescs_only n _) rfl

theorem hrEnableWrite_seqKept (r : Req) (n : QNum) (v : Word) (s : State) : SeqKept s (after (execHrEnableWrite r n v s) s) := by
  refine gatedMeaning_seqKept rfl fun t => ?_
  refine .trans ?_ (.ite (.ite (.of_only (modHr_only n.val _ _) rfl) (startRing_seqKept n.val _)) (.ite (stopRing_seqKept n.val _) (.refl _)))
  exact .only (.of_only (modHr_only n.val _ t) rfl) (wrote_only r _ _) rfl

theorem hrTailWrite_seqKept (r : Req) (n : QNum) (v : Word) (s : State) : SeqKept s (after (execHrTailWrite r n v s) s) := by
  refine gatedMeaning_seqKept rfl fun t => ?_
  refine .ite (.of_only (modHr_only n.val _ t) rfl) (.only ?_ (fetchDescs_only n.val _) rfl)
  exact .trans (.of_only (modHr_only n.val _ t) rfl) (settleRing_seqKept n.val _)

theorem quiesce_seqKept (r : Req) (v : Word) (s : State) : SeqKept s (after (execQuiesce r v s) s) := by
  refine gatedMeaning_seqKept rfl fun t => ?_
  refine .trans (.of_only (modPci_only _ t) rfl) (.ite (.foldl (fun u n => .ite ?_ (.refl u)) _ _) (.ite (.foldl (fun u n => .ite ?_ ?_) _ _) (.refl _)))
  · exact .trans (stopRing_seqKept n u) (.of_only (modHr_only n _ _) rfl)
  · exact startRing_seqKept n u
  · exact .of_only (modHr_only n _ u) rfl

theorem hrWrite_seqKept (r : Req) (n : QNum) (off : Nat) (v : Word) (s : State) : SeqKept s (hrWrite r n off v s) := by
  have set (f : Hr → Hr) : SeqKept s (if (hr n.val s).en then s else modHr n.val f s) := .ite (.refl s) (.of_only (modHr_only n.val f s) rfl)
  unfold hrWrite
  dsimp only
  split
  · exact set _
  · exact set _
  · exact hrEnableWrite_seqKept r n v s
  · exact hrTailWrite_seqKept r n v s
  · exact set _
  · exact set _
  · exact .refl s

theorem pciWrite_seqKept (r : Req) (off : Nat) (v : Word) (s : State) : SeqKept s (pciWrite r off v s) :=
  .ite (quiesce_seqKept r v s) (.ite (hrWrite_seqKept r _ _ v s) (.refl s))

end Sys2Proof.Machine
end

section
/-! SUPPORT. The soft reset of a page (R404): what it writes, and what it leaves in the header and the plain registers. -/

namespace Sys2Proof.Machine

/-! ## The registers that it writes, by page -/

theorem lshReset_seqKept (r : Req) (s : State) : SeqKept s (blockWrite r 0x0A 0x040 0x000A4000 s) := by
  show SeqKept s (lshWrite r 0x040 0x000A4000 s)
  rw [lshWrite, if_neg (by decide), if_pos rfl]
  refine .ite (.refl s) (.on ?_ _ fun t => meaning_seqKept (execHandoff_only r t) rfl)
  exact .only (.only (.of_only (rfPut_only 0x0A040 _ s) rfl) (journal_only _ _) rfl) (journal_only _ _) rfl

theorem ordWrite_seqKept (r : Req) (off : Nat) (v : Word) (s : State) : SeqKept s (ordWrite r off v s) := by
  have tr (k : Nat) (f : Track → Track) : SeqKept s (if (track k s).en then s else modTrack k f s) := .ite (.refl s) (.of_only (modTrack_only k f s) rfl)
  have se (k : Nat) (f : Sect → Sect) : SeqKept s (if (sect k s).en then s else modSect k f s) := .ite (.refl s) (.of_only (modSect_only k f s) rfl)
  unfold ordWrite
  dsimp only
  split
  · exact trackEnable_seqKept r v s
  · exact tr _ _
  · exact tr _ _
  · exact meaning_seqKept (execSectionEnable_only r v s) rfl
  · exact se _ _
  · exact se _ _
  · exact se _ _
  · exact se _ _
  · exact se _ _
  · exact .of_only (rfPut_only _ v s) rfl

/-- A write of an alarm threshold of the selected slot. -/
theorem rfxReset_seqKept (r : Req) (s : State) : ∀ w ∈ [((0x044 : Nat), (0 : Word)), (0x048, 0), (0x04C, 0)], SeqKept s (blockWrite r 0x53 w.1 w.2 s) := by
  have al (f : AlarmCh → AlarmCh) : SeqKept s (if asel s < 320 then modAlarm (asel s) f s else s) := .ite (.of_only (modAlarm_only _ f s) rfl) (.refl s)
  simp only [List.forall_mem_cons, List.not_mem_nil, false_imp_iff, implies_true, and_true]
  exact ⟨al _, al _, al _⟩

theorem blockWrite_port {p : Nat} (h : 0x28 ≤ p ∧ p < 0x40) (r : Req) (off : Nat) (v : Word) (s : State) :
    blockWrite r p off v s = portWrite r (Fin.ofNat 24 (p - 0x28)) off v s := by
  unfold blockWrite
  iterate 17 rw [if_neg (by omega)]
  rw [if_pos h.2]

/-- The configuration, the coalescing and the mark of one queue. -/
theorem queReset_seqKept (r : Req) (q : Nat) (s : State) :
    SeqKept s (blockWrite r pgQUE 0x05C 0x7FFFF (blockWrite r pgQUE 0x058 0x01000000 (blockWrite r pgQUE 0x044 0 (blockWrite r pgQUE 0x044 0 (rfPut 0x0D040 (natW q) s))))) := by
  have cfg (t : State) : SeqKept t (blockWrite r pgQUE 0x044 0 t) := qcfgWrite_seqKept r 0 t
  have coal (t : State) : SeqKept t (blockWrite r pgQUE 0x058 0x01000000 t) := .only (.of_only (modQue_only _ _ t) rfl) (wrote_only r _ _) rfl
  have hwm (t : State) : SeqKept t (blockWrite r pgQUE 0x05C 0x7FFFF t) := wmHwmWrite_seqKept r _ t
  exact ((((SeqKept.of_only (rfPut_only 0x0D040 (natW q) s) rfl).trans (cfg _)).trans (cfg _)).trans (coal _)).trans (hwm _)

/-- The owner of one pin. -/
theorem toutReset_seqKept (r : Req) (s : State) : ∀ w ∈ [((0x044 : Nat), (0 : Word))], SeqKept s (blockWrite r 0x52 w.1 w.2 s) :=
  List.forall_mem_singleton.mpr (meaning_seqKept (execToutOwnerWrite_only r 0 s) rfl)

/-- The select register of a page and registers behind it, for each unit. -/
theorem resetUnits_seqKept {r : Req} {p sel n : Nat} {ws : List (Nat × Word)} (h : ∀ s, ∀ w ∈ ws, SeqKept s (blockWrite r p w.1 w.2 s)) (s : State) :
    SeqKept s ((List.range n).foldl (fun s u => ws.foldl (fun s w => blockWrite r p w.1 w.2 s) (rfPut sel (natW u) s)) s) :=
  .foldl (fun t _ => (SeqKept.of_only (rfPut_only sel _ t) rfl).trans (.foldl_mem (fun w hw s => h s w hw) _)) _ s

/-- What a soft reset writes keeps SEQ, page by page in the order of `resetActs`. -/
theorem resetActs_seqKept (r : Req) (p : Nat) (s : State) : SeqKept s (resetActs r p s) := by
  unfold resetActs
  dsimp only
  -- FEAT
  refine .ite_of (fun _ => ?_) ?_
  · exact (SeqKept.of_only (baseGrant_only s) rfl).only (modFab_only _ _) rfl
  -- SRV
  refine .ite_of (fun _ => ?_) ?_
  · exact .of_only (srvWrite_only r 0x044 _ s) rfl
  -- FWL
  refine .ite_of (fun _ => ?_) ?_
  · exact .of_only (modFwl_only _ s) rfl
  -- BST
  refine .ite_of (fun _ => ?_) ?_
  · exact bstCtrl_seqKept _ s
  -- PWR
  refine .ite_of (fun _ => ?_) ?_
  · exact pwrCtrl_zero_seqKept s
  -- LSH
  refine .ite_of (fun _ => ?_) ?_
  · exact lshReset_seqKept r s
  -- QUE: each queue, then the regions
  refine .ite_of (fun hp => ?_) ?_
  · subst hp
    refine .trans (.foldl (fun t q => ?_) _ s) (resetRegions_seqKept _)
    refine .trans ?_ (.ite ((SeqKept.refl _).bumpGen pgQUE) (.refl _))
    exact .only (queReset_seqKept r q t) (modQue_only q _ _) rfl
  -- CHW
  refine .ite_of (fun _ => ?_) ?_
  · exact .foldl (fun t c => .ite (.refl t) (.of_only (modChan_only c _ t) rfl)) _ s
  -- TAT
  refine .ite_of (fun _ => ?_) ?_
  · exact .ite (.refl s) (.foldl (fun t g => .of_only (modTat_only g _ t) rfl) _ s)
  -- CPn and MPn
  refine .ite_of (fun hp => ?_) ?_
  · rw [blockWrite_port hp]
    exact portWrite_seqKept r _ _ _ s
  -- TCn
  refine .ite_of (fun _ => ?_) ?_
  · exact .of_only (modTc_only _ _ s) rfl
  -- ORD: tracks, then sections
  refine .ite_of (fun hp => ?_) ?_
  · subst hp
    have ord (t : State) (w : Nat × Word) : SeqKept t (blockWrite r 0x50 w.1 w.2 t) := ordWrite_seqKept r w.1 w.2 t
    exact (resetUnits_seqKept (fun t w _ => ord t w) s).trans (resetUnits_seqKept (fun t w _ => ord t w) _)
  -- DIN
  refine .ite_of (fun hp => ?_) ?_
  · subst hp
    exact resetUnits_seqKept (fun t w _ => .of_only (dinWrite_only r w.1 w.2 t) rfl) s
  -- TOUT
  refine .ite_of (fun hp => ?_) ?_
  · subst hp
    exact resetUnits_seqKept (toutReset_seqKept r) s
  -- RFX
  refine .ite_of (fun hp => ?_) ?_
  · subst hp
    exact resetUnits_seqKept (rfxReset_seqKept r) s
  -- FSP
  refine .ite_of (fun _ => ?_) ?_
  · exact .of_only (fspSoftReset_only s) rfl
  -- PCI: QUIESCE, then the registers of each ring
  refine .ite_of (fun hp => ?_) (.refl s)
  subst hp
  have pci (off : Nat) (v : Word) (t : State) : SeqKept t (blockWrite r 0x55 off v t) := pciWrite_seqKept r off v t
  refine .trans (pci 0x040 0 s) ?_
  refine .foldl (fun t n => ?_) _ _
  refine .foldl (fun u w => ?_) _ t
  exact pci w.1 w.2 u

/-! ## The reset -/

/-- Entries taken out: a key whose entries go reads as unlisted. -/
theorem rfGet_filter_out {q : Nat × Word → Bool} {a : Nat} (h : ∀ w, q (a, w) = false) (m : FMap Word) : FMap.get rfReset (m.filter q) a = rfReset a := by
  induction m with
  | nil => rfl
  | cons e m ih =>
    obtain ⟨k, w⟩ := e
    rw [List.filter_cons]
    split
    · rename_i hq
      rw [FMap.get, if_neg (fun hk => by simp [hk, h w] at hq), ih]
    · exact ih

/-- The header of a page after its soft reset: GEN is put back, SEQ and OWNER are as the writes left them. -/
theorem softReset_page {p : Nat} (hp : p < 0x56) (r : Req) (s : State) :
    page p (softReset r p s) = { page p (resetActs r p s) with gen := (page p s).gen, evEn := 0, evLatch := 0, first := none, en := true, freeze := false, hold := false } := by
  rw [softReset, if_neg (by omega)]
  dsimp only
  rw [page_modPage_self, page_congr ((freeLatches_only _ _ _).same .pages (by decide)), page_modRf]

/-- The plain registers of a page after its soft reset, but for the two that the standby domain keeps. -/
theorem softReset_rfGet {p a : Nat} (hp : p < 0x56) (ha : a / 4096 = p) (h0 : a ≠ 0x09050) (h1 : a ≠ 0x09054) (r : Req) (s : State) :
    rfGet a (softReset r p s) = rfReset a := by
  rw [softReset, if_neg (by omega)]
  dsimp only
  rw [rfGet_modPage, rfGet_congr ((freeLatches_only _ _ _).same .rf (by decide)), rfGet, State.modRf_rf]
  exact rfGet_filter_out (fun w => by simp [ha, h0, h1]) _

end Sys2Proof.Machine
end

section
/-! PROOF. Writes, headers and events (R15, R403–R407, R414, R415, R417, R419). -/

namespace Sys2Proof.Machine

/-! ## Page headers -/

/-- One header changed. -/
theorem becomes_modPage (p : Nat) (f : Page → Page) (s : State) : Becomes page p (f (page p s)) s (modPage p f s) :=
  ⟨page_modPage_self s p f, fun _ hq => page_modPage_of_ne s hq f⟩

/-- What then touches no header changes nothing of that. -/
theorem Becomes.page_only {l : List Area} {p : Nat} {x : Page} {s t u : State} (h : Becomes page p x s t) (k : Only l t u) (hl : l.contains .pages = false) :
    Becomes page p x s u :=
  have hc (q : Nat) : page q u = page q t := page_congr (k.same .pages (by simpa using hl)) q
  ⟨(hc p).trans h.1, fun q hq => (hc q).trans (h.2 q hq)⟩

/-- A register of the common header written on a page that is not frozen. -/
theorem writeReg_header {p : Nat} (off : Nat) {s : State} (hp : p < 0x56) (ho : off < 0x040) (h4 : off % 4 = 0) (hg : (page p s).freeze = false)
    (hi : reachIsland true p s = s) (r : Req) (v : Word) : writeReg r (p * 4096 + off) v s = hdrWrite r p off v s := by
  have hpage : (p * 4096 + off) / 4096 = p := by omega
  have hoff : (p * 4096 + off) % 4096 / 4 * 4 = off := by omega
  rw [writeReg]
  simp only [hpage, hoff]
  rw [if_neg (by omega), gated_open hg, if_pos ho, hi]

/-- A write on a frozen page by another than the supervisor and its owner (R405). -/
theorem writeReg_frozen {r : Req} {a : Nat} {s : State} (hp : a / 4096 < 0x56) (hf : (page (a / 4096) s).freeze = true) (h0 : r.val ≠ 0)
    (ho : r.val ≠ (page (a / 4096) s).owner) (v : Word) : writeReg r a v s = s.modFab fun b => { b with accFrozen := satAdd 255 b.accFrozen 1 } := by
  rw [writeReg, if_neg (by omega)]
  exact if_pos ⟨hf, h0, ho⟩

/-- The fields of PAGE_CTRL as PAGE_FREEZE writes them. -/
theorem freezeWord_bits (on_ en : Bool) :
    let v := mkWord [(2, 1, b2n on_), (0, 1, b2n en)]
    wbit v 0 = en ∧ wbit v 1 = false ∧ wbit v 2 = on_ := by
  cases on_ <;> cases en <;> decide

/-- The fields of SNAP as SNAP_TAKE writes them. -/
theorem takeWord_bits (hold : Bool) : wbit (mkWord [(1, 1, b2n hold), (0, 1, 1)]) 0 = true ∧ wbit (mkWord [(1, 1, b2n hold), (0, 1, 1)]) 1 = hold := by
  cases hold <;> decide

/-! ## Captures (R407) -/

/-- The one counter register of the Kennel's page is TX_ITEMS at 0x05C. -/
theorem captureReg_ken {k : Nat} (hk : k < 48) (hne : k ≠ 7) (s u : State) : captureReg s u (pgKEN * 4096 + 0x040 + 4 * k) = u := by
  have hp : (pgKEN * 4096 + 0x040 + 4 * k) / 4096 = 0x0C := by unfold pgKEN; omega
  have ho : (pgKEN * 4096 + 0x040 + 4 * k) % 4096 ≠ 0x05C := by unfold pgKEN; omega
  rw [captureReg, hp]
  simp [counterReg, ho]

theorem capture_ken (s : State) : FMap.get (fun _ => 0) (capture pgKEN s).fab.snaps 0x0C05C = liveReg 0x0C 0x05C s := by
  have same (l : List Nat) (hl : ∀ k ∈ l, k < 48 ∧ k ≠ 7) (u : State) : (l.map fun k => pgKEN * 4096 + 0x040 + 4 * k).foldl (captureReg s) u = u := by
    rw [List.foldl_map]
    exact List.foldlRecOn l _ (motive := fun t => t = u) rfl fun t ht k hk => (captureReg_ken (hl k hk).1 (hl k hk).2 s t).trans ht
  have hsplit : List.range 48 = List.range 7 ++ 7 :: List.range' 8 40 := by decide
  have hfold : ((List.range 48).map fun k => pgKEN * 4096 + 0x040 + 4 * k).foldl (captureReg s) s = captureReg s s 0x0C05C := by
    rw [hsplit, List.map_append, List.foldl_append, same (List.range 7) (by decide), List.map_cons, List.foldl_cons, same (List.range' 8 40) (by decide)]
    rfl
  rw [capture, hfold]
  exact FMap.get_put_self

/-- A capture counts in SEQ and leaves the rest of the headers. -/
theorem capture_becomes (p : Nat) (s : State) : Becomes page p { page p s with snapSeq := ((page p s).snapSeq + 1) % 65536 } s (capture p s) := by
  have hregs (l : List Nat) (q : Nat) : page q (l.foldl (captureReg s) s) = page q s :=
    page_congr ((Only.foldl (captureReg_only s) l s).same .pages (by decide)) q
  refine ⟨?_, fun q hq => (page_modPage_of_ne _ hq _).trans (hregs _ q)⟩
  rw [capture, page_modPage_self, hregs]

/-! ## Events cleared (R414, R419) -/

/-- Latches cleared on one page: nothing else of its header but FIRST, and no other header, changes. -/
theorem clearLatch_becomes (p : Nat) (m : Word) (s : State) :
    Becomes page p { page p s with evLatch := (page p s).evLatch &&& ~~~m, first := if (page p s).evLatch &&& ~~~m = 0 then none else (page p s).first } s
      (clearLatch p m s) :=
  (becomes_modPage p _ s).page_only (freeLatches_only p m _) rfl

/-- Latches cleared, page by page. -/
def clearLatches (l : List (Nat × Word)) (s : State) : State := l.foldl (fun s q => clearLatch q.1 q.2 s) s

/-- What is not latched stays so where latches are cleared; EV_EN and GEN stay. -/
theorem clearLatch_mono (p : Nat) (m : Word) (s : State) (q : Nat) :
    (∀ n, (page q s).evLatch &&& n = 0 → (page q (clearLatch p m s)).evLatch &&& n = 0) ∧
    (page q (clearLatch p m s)).evEn = (page q s).evEn ∧ (page q (clearLatch p m s)).gen = (page q s).gen := by
  obtain ⟨hp, hne⟩ := clearLatch_becomes p m s
  by_cases h : q = p
  · subst h
    rw [hp]
    refine ⟨fun n hn => ?_, rfl, rfl⟩
    dsimp only
    rw [BitVec.and_assoc, BitVec.and_comm (~~~m), ← BitVec.and_assoc, hn]
    exact BitVec.zero_and
  · rw [hne q h]
    exact ⟨fun _ hn => hn, rfl, rfl⟩

theorem clearLatches_mono (l : List (Nat × Word)) (s : State) (q : Nat) :
    (∀ n, (page q s).evLatch &&& n = 0 → (page q (clearLatches l s)).evLatch &&& n = 0) ∧
    (page q (clearLatches l s)).evEn = (page q s).evEn ∧ (page q (clearLatches l s)).gen = (page q s).gen := by
  induction l generalizing s with
  | nil => exact ⟨fun _ h => h, rfl, rfl⟩
  | cons x l ih =>
    obtain ⟨hl, he, hg⟩ := clearLatch_mono x.1 x.2 s q
    obtain ⟨hl', he', hg'⟩ := ih (clearLatch x.1 x.2 s)
    exact ⟨fun n hn => hl' n (hl n hn), he'.trans he, hg'.trans hg⟩

/-- Each page named loses the causes named with it. -/
theorem clearLatches_cleared {l : List (Nat × Word)} {x : Nat × Word} (hx : x ∈ l) (s : State) : (page x.1 (clearLatches l s)).evLatch &&& x.2 = 0 := by
  induction l generalizing s with
  | nil => exact absurd hx List.not_mem_nil
  | cons y l ih =>
    rcases List.mem_cons.mp hx with rfl | hx
    · refine (clearLatches_mono l (clearLatch x.1 x.2 s) x.1).1 x.2 ?_
      rw [(clearLatch_becomes x.1 x.2 s).1]
      dsimp only
      rw [BitVec.and_assoc, BitVec.not_and_self]
      exact BitVec.and_zero
    · exact ih hx _

/-- A page that is not named keeps its header. -/
theorem clearLatches_other {l : List (Nat × Word)} {q : Nat} (hq : ∀ x ∈ l, x.1 ≠ q) (s : State) : page q (clearLatches l s) = page q s := by
  induction l generalizing s with
  | nil => rfl
  | cons x l ih =>
    rw [List.forall_mem_cons] at hq
    exact (ih hq.2 _).trans ((clearLatch_becomes x.1 x.2 s).2 q (Ne.symm hq.1))

/-- The events that a write of CLR0 or CLR1 names. -/
def namedEvents (hi : Bool) (v : Word) : List Nat :=
  (List.range 32).filterMap fun i => if wbit v i then some (i + if hi then 32 else 0) else none

theorem mem_namedEvents {hi : Bool} {v : Word} {e : Nat} : e ∈ namedEvents hi v ↔ ∃ i, i < 32 ∧ wbit v i = true ∧ i + (if hi then 32 else 0) = e := by
  simp [namedEvents]

theorem clearEvents_eq (hi : Bool) (v : Word) (s : State) :
    clearEvents hi v s = resignal (namedEvents hi v) (clearLatches ((namedEvents hi v).flatMap evPages) s) := by
  rw [clearLatches, List.foldl_flatMap]
  rfl

/-! ## Episodes (R415) -/

/-- The end of one condition ends no other. -/
theorem condOn_condEnd (p bit sub : Nat) (s : State) :
    condOn p bit sub (condEnd p bit sub s) = false ∧ ∀ q b u, (q, b, u) ≠ (p, bit, sub) → condOn q b u (condEnd p bit sub s) = condOn q b u s := by
  simp only [condOn, condEnd, State.modFab_fab]
  refine ⟨by simp, fun q b u h => ?_⟩
  have hne : (⟨q, b, u⟩ : Cond) ≠ ⟨p, bit, sub⟩ := fun e => h (by cases e; rfl)
  simp [List.contains_eq_mem, hne]

/-! ## The commands -/

section
variable {r : Req} {s : State}

/-- A plain register of a block takes the bits of its fields. -/
theorem registerWrite_plain_runs {a : BitVec 20} {m z : Word} (hm : rwReg (a.toNat / 4096) (a.toNat % 4096) = some (m, z))
    (hp : a.toNat / 4096 < 0x56) (ho : 0x040 ≤ a.toNat % 4096) (v : Word)
    (hb : ∀ t, blockWrite r (a.toNat / 4096) (a.toNat % 4096 / 4 * 4) v t = rfPut a.toNat v t)
    (hg : (page (pageOf a.toNat) s).freeze = false) (hi : reachIsland true (pageOf a.toNat) s = s) :
    Runs (.registerWrite r a v) s [.rf] fun t => rfGet a.toNat t = v &&& m ∧ ∀ x, x ≠ a.toNat → rfGet x t = rfGet x s :=
  .of_only rfl ((writeReg_block _ hp ho hg hi v).trans (hb s)) (rfPut_only _ v s) (rfGet_rfPut hm v s)

theorem registerWrite_frozen_runs {a : BitVec 20} (v : Word) (hp : pageOf a.toNat < 0x56) (hf : (page (pageOf a.toNat) s).freeze = true)
    (h0 : r.val ≠ 0) (ho : r.val ≠ (page (pageOf a.toNat) s).owner) :
    Runs (.registerWrite r a v) s [.fab] fun t => t.fab = { s.fab with accFrozen := satAdd 255 s.fab.accFrozen 1 } :=
  .of_only rfl (writeReg_frozen hp hf h0 ho v) (modFab_only _ s) rfl

section
variable {pg : PageNo} (hp : pg.val < 0x56) (hg : (page pg.val s).freeze = false)
include hp hg

theorem pageSoftReset_next :
    ∃ t, exec (.pageSoftReset r pg) s = .next t ∧
      (page pg.val t).gen = (page pg.val s).gen ∧ (page pg.val t).snapSeq = (page pg.val s).snapSeq ∧ (page pg.val t).evEn = 0 ∧
      (page pg.val t).evLatch = 0 ∧ (page pg.val t).first = none ∧ (page pg.val t).en = true ∧ (page pg.val t).freeze = false ∧
      (page pg.val t).hold = false ∧ ∀ a, pageOf a = pg.val → a ≠ 0x09050 → a ≠ 0x09054 → rfGet a t = rfReset a := by
  have hexec : exec (.pageSoftReset r pg) s = .next (resignal (eventsOf pg.val) (softReset r pg.val s)) := by
    show Host.Outcome.next (if 0x56 ≤ pg.val then _ else gated r pg.val _ s) = _
    rw [if_neg (by omega), gated_open hg]
  have honly := resignal_only (eventsOf pg.val) (softReset r pg.val s)
  have hpage : page pg.val (resignal (eventsOf pg.val) (softReset r pg.val s)) = _ :=
    (page_congr (honly.same .pages (by decide)) _).trans (softReset_page hp r s)
  refine ⟨_, hexec, ?_⟩
  rw [hpage]
  refine ⟨rfl, resetActs_seqKept r pg.val s pg.val, rfl, rfl, rfl, rfl, rfl, rfl, fun a ha h0 h1 => ?_⟩
  rw [rfGet_congr (honly.same .rf (by decide))]
  exact softReset_rfGet hp ha h0 h1 r s

variable (hi : reachIsland true pg.val s = s)
include hi

theorem pageFreeze_runs (on_ : Bool) :
    Runs (.pageFreeze r pg on_) s [.pages, .fab, .pci, .chans, .outbox]
      (Becomes page pg.val { page pg.val s with freeze := on_, owner := if on_ then r.val else (page pg.val s).owner } s) := by
  obtain ⟨h0, h1, h2⟩ := freezeWord_bits on_ (page pg.val s).en
  have hw := writeReg_header 0x008 hp (by decide) (by decide) hg hi r (mkWord [(2, 1, b2n on_), (0, 1, b2n (page pg.val s).en)])
  rw [hdrWrite, if_pos rfl, pageCtrl] at hw
  simp only [h0, h1, h2, Bool.false_eq_true, if_false] at hw
  exact .of_only rfl hw (Only.next (resignal_only _ _) rfl ((modPage_only _ _ s).mono rfl)) ((becomes_modPage _ _ s).page_only (resignal_only _ _) rfl)

theorem snapTake_runs :
    Runs (.snapTake r pg) s [.pages, .fab] fun t =>
      Becomes page pg.val { page pg.val s with snapSeq := ((page pg.val s).snapSeq + 1) % 65536 } s t ∧
      (pg.val = pgKEN → FMap.get (fun _ => 0) t.fab.snaps 0x0C05C = liveReg 0x0C 0x05C s) := by
  obtain ⟨h0, h1⟩ := takeWord_bits (page pg.val s).hold
  have hw := writeReg_header 0x024 hp (by decide) (by decide) hg hi r (mkWord [(1, 1, b2n (page pg.val s).hold), (0, 1, 1)])
  rw [hdrWrite, if_neg (by decide), if_neg (by decide), if_neg (by decide), if_pos rfl, writeSnap, h0, h1, if_pos rfl] at hw
  refine .of_only rfl hw (Only.next (modPage_only _ _ _) rfl (capture_only _ s)) ⟨?_, fun hk => ?_⟩
  · obtain ⟨hp, hne⟩ := capture_becomes pg.val s
    refine ⟨?_, fun q hq => (page_modPage_of_ne _ hq _).trans (hne q hq)⟩
    rw [page_modPage_self, hp]
  · rw [hk]
    exact capture_ken s

variable (he : pg.val ≠ pgEVT)
include he

theorem evLatchWrite_runs (v : Word) :
    Runs (.evLatchWrite r pg v) s [.pages, .fab, .pci, .chans, .outbox]
      (Becomes page pg.val { page pg.val s with
        evLatch := (page pg.val s).evLatch &&& ~~~v, first := if (page pg.val s).evLatch &&& ~~~v = 0 then none else (page pg.val s).first } s) := by
  have hw := writeReg_header 0x018 hp (by decide) (by decide) hg hi r v
  rw [hdrWrite, if_neg (by decide), if_neg (by decide), if_pos rfl, writeLatch, if_neg he] at hw
  exact .of_only rfl hw (Only.next (resignal_only _ _) rfl ((clearLatch_only _ v s).mono rfl)) ((clearLatch_becomes _ v s).page_only (resignal_only _ _) rfl)

theorem evEnWrite_runs (v : Word) :
    Runs (.evEnWrite r pg v) s [.pages, .fab, .pci, .chans, .outbox] (Becomes page pg.val { page pg.val s with evEn := v } s) := by
  have hw := writeReg_header 0x014 hp (by decide) (by decide) hg hi r v
  rw [hdrWrite, if_neg (by decide), if_pos rfl, writeEvEn, if_neg he] at hw
  exact .of_only rfl hw (Only.next (resignal_only _ _) rfl ((modPage_only _ _ s).mono rfl)) ((becomes_modPage _ _ s).page_only (resignal_only _ _) rfl)

end

theorem evtClear_runs (hi : Bool) (v : Word) (hg : (page pgEVT s).freeze = false) :
    Runs (.evtClear r hi v) s [.pages, .fab, .pci, .chans, .outbox] fun t =>
      (∀ i, i < 32 → wbit v i = true → ∀ x ∈ evPages (i + if hi then 32 else 0), (page x.1 t).evLatch &&& x.2 = 0) ∧
      ∀ q, (page q t).evEn = (page q s).evEn ∧ (page q t).gen = (page q s).gen ∧
        ((∀ i, i < 32 → wbit v i = true → ∀ x ∈ evPages (i + if hi then 32 else 0), x.1 ≠ q) → page q t = page q s) := by
  have hw : writeReg r (if hi then 0x0204C else 0x02048) v s = clearEvents hi v s := by
    cases hi
    · exact writeReg_block 0x02048 (by decide) (by decide) hg rfl v
    · exact writeReg_block 0x0204C (by decide) (by decide) hg rfl v
  have hpage (q : Nat) : page q (clearEvents hi v s) = page q (clearLatches ((namedEvents hi v).flatMap evPages) s) := by
    rw [clearEvents_eq]
    exact page_congr ((resignal_only _ _).same .pages (by decide)) q
  refine .of_only rfl hw (clearEvents_only hi v s) ⟨fun i hi' hv x hx => ?_, fun q => ?_⟩
  · rw [hpage]
    exact clearLatches_cleared (List.mem_flatMap.mpr ⟨_, mem_namedEvents.mpr ⟨i, hi', hv, rfl⟩, hx⟩) s
  · obtain ⟨-, hen, hgen⟩ := clearLatches_mono ((namedEvents hi v).flatMap evPages) s q
    rw [hpage]
    refine ⟨hen, hgen, fun hq => clearLatches_other (fun x hx => ?_) s⟩
    obtain ⟨e, he, hx⟩ := List.mem_flatMap.mp hx
    obtain ⟨i, hi', hv, rfl⟩ := mem_namedEvents.mp he
    exact hq i hi' hv x hx

theorem episodeEndTimer_runs {pg : PageNo} {bit : Fin 32} (sub : Nat) (h : timedEpisode pg.val bit.val = true) :
    Runs (.episodeEndTimer pg bit sub) s [.fab] fun t =>
      condOn pg.val bit.val sub t = false ∧ ∀ q b u, (q, b, u) ≠ (pg.val, bit.val, sub) → condOn q b u t = condOn q b u s :=
  .of_only rfl (if_pos h) (condEnd_only _ _ _ s) (condOn_condEnd _ _ _ s)

end

/-- Settles O39: each command by the register write it stands for. -/
theorem pagesWritesHeadersAndEvents : Obligations.PagesWritesHeadersAndEvents := by
  unfold Obligations.PagesWritesHeadersAndEvents
  intro r addr pg v on_ hi bit sub s p g signals
  refine ⟨?_, registerWrite_frozen_runs v, fun hp hg => ⟨?_, ?_, ?_, fun he hi => ⟨?_, ?_⟩⟩, evtClear_runs hi v, episodeEndTimer_runs sub⟩
  · simp only [List.forall_mem_cons, List.not_mem_nil, false_imp_iff, implies_true, and_true]
    refine ⟨?_, ?_, ?_, ?_, ?_, ?_, ?_, ?_⟩ <;> exact registerWrite_plain_runs rfl (by decide) (by decide) v (fun _ => rfl)
  · exact fun hi => pageFreeze_runs hp hg hi on_
  · exact pageSoftReset_next hp hg
  · exact fun hi => snapTake_runs hp hg hi
  · exact evLatchWrite_runs hp hg hi he v
  · exact evEnWrite_runs hp hg hi he v

end Sys2Proof.Machine
end

section
/-! SUPPORT. Folds over units, control blocks queued at ports, and the plain registers of the activation second. -/

namespace Sys2Proof.Machine

/-! ## One unit through a fold -/

section
variable {α : Type} {unit : Nat → State → α} {P : State → Prop} {f : State → Nat → State} {xs : List Nat} {s : State}

/-- A unit that no step of a fold is about is as before. -/
theorem unit_foldl_of_not_mem (hP : ∀ t, P t → ∀ k, P (f t k)) (hf : ∀ t, P t → ∀ j k, j ≠ k → unit j (f t k) = unit j t) (hs : P s) {j : Nat} (hj : j ∉ xs) :
    unit j (xs.foldl f s) = unit j s := by
  induction xs generalizing s with
  | nil => rfl
  | cons x xs ih =>
    rw [List.mem_cons, not_or] at hj
    exact (ih (hP s hs x) hj.2).trans (hf s hs j x hj.1)

/-- A unit that one step of a fold is about: that step finds it as it was, and it stays as that step leaves it. -/
theorem unit_foldl_of_mem (hP : ∀ t, P t → ∀ k, P (f t k)) (hf : ∀ t, P t → ∀ j k, j ≠ k → unit j (f t k) = unit j t) (hs : P s) (hn : xs.Nodup) {j : Nat}
    (hj : j ∈ xs) : ∃ t, P t ∧ unit j t = unit j s ∧ unit j (xs.foldl f s) = unit j (f t j) := by
  induction xs generalizing s with
  | nil => exact absurd hj List.not_mem_nil
  | cons x xs ih =>
    rw [List.nodup_cons] at hn
    rcases List.mem_cons.mp hj with rfl | hj
    · exact ⟨s, hs, rfl, unit_foldl_of_not_mem hP hf (hP s hs j) hn.1⟩
    · obtain ⟨t, ht, hst, hft⟩ := ih (hP s hs x) hn.2 hj
      exact ⟨t, ht, hst.trans (hf s hs j x fun e => hn.1 (e ▸ hj)), hft⟩

/-- What every step of a fold keeps, the fold keeps. -/
theorem foldl_keeps {β : Type} {f : State → β → State} (hP : ∀ t, P t → ∀ b, P (f t b)) (hs : P s) (xs : List β) : P (xs.foldl f s) :=
  List.foldlRecOn xs f hs fun t ht b _ => hP t ht b

end

/-! ## Control blocks queued (R279, R302) -/

/-- A control block that takes no urgent slot (R279). -/
def CtrlBlk.plain (c : CtrlBlk) : Prop := c.sub ≠ 0x01 ∧ c.sub ≠ 0x02 ∧ c.sub ≠ 0x10

theorem sendCtrlOn_plain {c : CtrlBlk} (h : c.plain) (p : Nat) (s : State) : sendCtrlOn p c s = modLane p (fun l => { l with ctl := l.ctl ++ [c.toTx] }) s :=
  if_neg fun e => e.elim h.1 fun e => e.elim h.2.1 h.2.2

theorem ctl_sendCtrlOn_of_ne {p q : Nat} (h : q ≠ p) (c : CtrlBlk) (s : State) : lane q (sendCtrlOn p c s) = lane q s := by
  unfold sendCtrlOn
  split <;> exact lane_modLane_of_ne s h _

/-- A plain control block goes to the end of the control queue of each port named, once. -/
theorem ctl_sendCtrlAll {c : CtrlBlk} (h : c.plain) {ps : List Nat} (hn : ps.Nodup) (s : State) {p : Nat} (hp : p ∈ ps) :
    (lane p (sendCtrlAll ps c s)).ctl = (lane p s).ctl ++ [c.toTx] := by
  obtain ⟨t, -, hst, hft⟩ := unit_foldl_of_mem (unit := lane) (P := fun _ => True) (f := fun s p => sendCtrlOn p c s) (s := s) (fun _ _ _ => trivial)
    (fun t _ j k hjk => ctl_sendCtrlOn_of_ne hjk c t) trivial hn hp
  rw [sendCtrlAll, hft, sendCtrlOn_plain h, lane_modLane_self, hst]

/-- A control block only adds to a control queue. -/
theorem ctl_sendCtrlAll_mem {c : CtrlBlk} {b : TxBlk} {p : Nat} (ps : List Nat) {s : State} (h : b ∈ (lane p s).ctl) : b ∈ (lane p (sendCtrlAll ps c s)).ctl := by
  refine foldl_keeps (P := fun t => b ∈ (lane p t).ctl) (fun t ht q => ?_) h ps
  unfold sendCtrlOn
  by_cases hq : p = q
  · subst hq
    split <;> simp [ht]
  · split <;> rwa [lane_modLane_of_ne t hq]

/-- A plain control block stands in the control queue of each port named. -/
theorem mem_ctl_sendCtrlAll {c : CtrlBlk} (h : c.plain) {ps : List Nat} (s : State) {p : Nat} (hp : p ∈ ps) : c.toTx ∈ (lane p (sendCtrlAll ps c s)).ctl := by
  induction ps generalizing s with
  | nil => exact absurd hp List.not_mem_nil
  | cons q ps ih =>
    rcases List.mem_cons.mp hp with rfl | hp
    · refine ctl_sendCtrlAll_mem (s := sendCtrlOn p c s) ps ?_
      rw [sendCtrlOn_plain h, lane_modLane_self]
      simp
    · exact ih _ hp

/-! ## The activation second (R35, R36) -/

/-- The registers in which an activation second reads, once armed. -/
theorem rfGet_armAt (sec : Nat) (s : State) :
    rfGet 0x0507C (armAt sec s) = BitVec.ofNat 32 sec ∧ rfGet 0x05080 (armAt sec s) = BitVec.ofNat 32 (sec / 2 ^ 32) ∧
    ∀ a, a ≠ 0x0507C → a ≠ 0x05080 → rfGet a (armAt sec s) = rfGet a s := by
  have hi := rfGet_rfPut (a := 0x05080) rfl (BitVec.ofNat 32 (sec / 2 ^ 32)) (s.modPln fun l => { l with armed := some sec })
  have lo := rfGet_rfPut (a := 0x0507C) rfl (BitVec.ofNat 32 sec) (rfPut 0x05080 (BitVec.ofNat 32 (sec / 2 ^ 32)) (s.modPln fun l => { l with armed := some sec }))
  have all (w : Word) : w &&& 0xFFFFFFFF = w := BitVec.and_allOnes
  refine ⟨lo.1.trans (all _), ((lo.2 _ (by decide)).trans hi.1).trans (all _), fun a h0 h1 => (lo.2 a h0).trans (hi.2 a h1)⟩

theorem armAt_pln (sec : Nat) (s : State) : (armAt sec s).pln = { s.pln with armed := some sec } := rfl

end Sys2Proof.Machine
end

section
/-! PROOF. A late activation second (R35). -/

namespace Sys2Proof.Machine

section
variable {r : Req} {v : Word} {s : State} (hg : (page pgPLN s).freeze = false)
include hg

/-- A second less than 2 s away: LATE, and what was armed stays. -/
theorem actSecArm_late_runs (h : v.toNat * 2 ^ 32 + (rfGet 0x0507C s).toNat < s.tim.sec + 2) :
    Runs (.actSecArm r v) s [.pages, .pln] fun t => t.pln = { s.pln with err := 7 } :=
  .of_only rfl ((gated_open hg _).trans (if_pos h)) (Only.next (bumpGen_only _ _) rfl ((modPln_only _ s).mono rfl)) rfl

/-- A second far enough ahead is armed, as its registers then read. -/
theorem actSecArm_runs (h : ¬ v.toNat * 2 ^ 32 + (rfGet 0x0507C s).toNat < s.tim.sec + 2) :
    let sec := v.toNat * 2 ^ 32 + (rfGet 0x0507C s).toNat
    Runs (.actSecArm r v) s [.rf, .pages, .pln, .lanes, .lsh] fun t =>
      t.pln = { s.pln with armed := some sec } ∧ rfGet 0x05080 t = v ∧ ∀ a, a ≠ 0x05080 → rfGet a t = rfGet a s := by
  intro sec
  obtain ⟨hlo, hhi, hrest⟩ := rfGet_armAt sec s
  have hsent : Only [.lanes, .lsh] (armAt sec s) (tellPend sec (journal (.actSec (some sec)) (armAt sec s))) :=
    Only.next (tellPend_only sec _) rfl (journal_only _ _)
  have hrf (a : Nat) : rfGet a (tellPend sec (journal (.actSec (some sec)) (armAt sec s))) = rfGet a (armAt sec s) := rfGet_congr (hsent.same .rf (by decide)) a
  have hlow : (rfGet 0x0507C s).toNat < 2 ^ 32 := (rfGet 0x0507C s).isLt
  refine .of_only rfl ((gated_open hg _).trans (if_neg h)) (Only.next hsent rfl ((armAt_only sec s).mono rfl))
    ⟨hsent.same .pln (by decide), ?_, fun a ha => ?_⟩
  · rw [hrf, hhi, show sec / 2 ^ 32 = v.toNat by omega, BitVec.ofNat_toNat, BitVec.setWidth_eq]
  · rw [hrf]
    by_cases h0 : a = 0x0507C
    · subst h0
      refine hlo.trans (BitVec.eq_of_toNat_eq ?_)
      rw [BitVec.toNat_ofNat]
      omega
    · exact hrest a h0 ha

end

/-- Settles O45: a write of ACT_SEC_HI by whether its second is 2 s away. -/
theorem lateActivationSecondIsRejected : Obligations.LateActivationSecondIsRejected := by
  unfold Obligations.LateActivationSecondIsRejected
  intro r v s hg sec
  refine ⟨fun h => ?_, fun h => actSecArm_runs hg (by omega)⟩
  obtain ⟨t, he, ht, hp⟩ := actSecArm_late_runs (r := r) hg h
  have harmed : t.pln.armed = s.pln.armed := by rw [hp]
  exact ⟨t, he, ht, by rw [harmed, hp], fun h => harmed.trans h⟩

end Sys2Proof.Machine
end

section
/-! SUPPORT. Ports: how each lane stands, and what of the plan stays, through retrains, breaks and losses of signal (R21, R235, R245, R246, R251). -/

namespace Sys2Proof.Machine

/-! ## How lanes stand -/

/-- How a lane stands: its state, its rate code, the level of its LOS ball. -/
def Lane.standing (l : Lane) : Nat × Nat × Bool := (l.state, l.rate, l.losPin)

/-- Every lane stands as before. -/
structure LanesStand (s t : State) : Prop where
  at_ : ∀ q, (lane q t).standing = (lane q s).standing

theorem LanesStand.refl (s : State) : LanesStand s s := ⟨fun _ => rfl⟩

theorem LanesStand.trans {s t u : State} (h : LanesStand s t) (k : LanesStand t u) : LanesStand s u := ⟨fun q => (k.at_ q).trans (h.at_ q)⟩

/-- An operation that reaches no lane. -/
theorem LanesStand.of_only {l : List Area} {s t : State} (h : Only l s t) (hl : l.contains .lanes = false) : LanesStand s t := ⟨fun q => by
  rw [lane_congr (h.same .lanes (by simpa using hl))]⟩

/-- Then an operation that reaches no lane. -/
theorem LanesStand.only {l : List Area} {s t u : State} (h : LanesStand s t) (k : Only l t u) (hl : l.contains .lanes = false) : LanesStand s u :=
  h.trans (.of_only k hl)

theorem LanesStand.ite {c : Prop} [Decidable c] {s a b : State} (h : LanesStand s a) (k : LanesStand s b) : LanesStand s (if c then a else b) := by
  split <;> assumption

/-- A lane changed in other ways. -/
theorem LanesStand.modLane {s t : State} (h : LanesStand s t) (p : Nat) {f : Lane → Lane} (hf : ∀ l, (f l).state = l.state ∧ (f l).rate = l.rate ∧ (f l).losPin = l.losPin) :
    LanesStand s (modLane p f t) := h.trans ⟨fun q => by
  by_cases hq : q = p
  · obtain ⟨hs, hr, hl⟩ := hf (lane p t)
    rw [hq, lane_modLane_self, Lane.standing, hs, hr, hl, Lane.standing]
  · rw [lane_modLane_of_ne t hq]⟩

theorem LanesStand.foldl {β : Type} {f : State → β → State} (h : ∀ s b, LanesStand s (f s b)) (xs : List β) (s : State) : LanesStand s (xs.foldl f s) :=
  foldl_keeps (P := LanesStand s) (fun t ht b => ht.trans (h t b)) (.refl s) xs

theorem sendCtrlOn_stand (p : Nat) (c : CtrlBlk) (s : State) : LanesStand s (sendCtrlOn p c s) :=
  .ite ((LanesStand.refl s).modLane p fun _ => ⟨rfl, rfl, rfl⟩) ((LanesStand.refl s).modLane p fun _ => ⟨rfl, rfl, rfl⟩)

theorem setTxDis_stand (p : Nat) (s : State) : LanesStand s (setTxDis p s) := by
  unfold setTxDis
  dsimp only
  refine LanesStand.modLane (.ite ?_ (.refl s)) p fun _ => ⟨rfl, rfl, rfl⟩
  exact .of_only (drive_only _ s) rfl

theorem sendCap_stand (p : Nat) (s : State) : LanesStand s (sendCap p s) := by
  unfold sendCap
  dsimp only
  exact (LanesStand.refl s).modLane p fun _ => ⟨rfl, rfl, rfl⟩

/-- A capability exchange on a port in use moves no lane. -/
theorem recheckAny_stand (s : State) (p : Nat) : LanesStand s (recheckAny s p) := by
  unfold recheckAny
  refine .ite (LanesStand.trans ?_ (sendCap_stand p _)) (.refl s)
  exact (LanesStand.refl s).modLane p fun _ => ⟨rfl, rfl, rfl⟩

/-- A wrap turns words and sends BREAK; no lane changes its state. -/
theorem wrapAt_stand (p : Nat) (s : State) : LanesStand s (wrapAt p s) := by
  unfold wrapAt
  split
  · exact .refl s
  · rename_i r hop _
    dsimp only
    have ring (f : Ring → Ring) : LanesStand s (modRing r.key f (hopBroken r.key hop s)) :=
      .only (.of_only (hopBroken_only r.key hop s) rfl) (modRing_only r.key f _) rfl
    split
    · exact (ring _).modLane p fun _ => ⟨rfl, rfl, rfl⟩
    · refine LanesStand.trans ?_ (sendCtrlOn_stand _ _ _)
      refine LanesStand.modLane ?_ _ fun _ => ⟨rfl, rfl, rfl⟩
      exact (ring _).modLane p fun _ => ⟨rfl, rfl, rfl⟩

theorem breakHop_stand (p : Nat) (s : State) : LanesStand s (breakHop p s) := by
  unfold breakHop
  split
  · exact .refl s
  · exact .ite (.refl s) (wrapAt_stand p s)

theorem Lane.setStr_keeps (cls : Nat) (ws : List W128) (l : Lane) : (l.setStr cls ws).state = l.state ∧ (l.setStr cls ws).rate = l.rate ∧ (l.setStr cls ws).losPin = l.losPin := by
  unfold Lane.setStr
  split
  · exact ⟨rfl, rfl, rfl⟩
  · split <;> exact ⟨rfl, rfl, rfl⟩

theorem Lane.cut_keeps (l : Lane) : l.cut.state = l.state ∧ l.cut.rate = l.rate ∧ l.cut.losPin = l.losPin := by
  simp [Lane.cut, Lane.setStr_keeps]

theorem leaveUp_stand (p : Nat) (s : State) : LanesStand s (leaveUp p s) := by
  have hcut : LanesStand s (modLane p Lane.cut s) := (LanesStand.refl s).modLane p Lane.cut_keeps
  refine hcut.trans (.ite ?_ (wrapAt_stand p _))
  exact .of_only (duplexCheck_only _) rfl

/-- The lane of one port goes to a state, at rate code 0; every other lane stands. -/
structure MovesTo (p st : Nat) (s t : State) : Prop where
  self : (lane p t).standing = (st, 0, (lane p s).losPin)
  others : ∀ q, q ≠ p → (lane q t).standing = (lane q s).standing

theorem MovesTo.stands {p st : Nat} {s t u : State} (h : MovesTo p st s t) (k : LanesStand t u) : MovesTo p st s u :=
  ⟨(k.at_ p).trans h.self, fun q hq => (k.at_ q).trans (h.others q hq)⟩

theorem LanesStand.moves {p st : Nat} {s t u : State} (h : LanesStand s t) (k : MovesTo p st t u) : MovesTo p st s u := by
  have hp : (lane p t).losPin = (lane p s).losPin := congrArg (·.2.2) (h.at_ p)
  exact ⟨hp ▸ k.self, fun q hq => (k.others q hq).trans (h.at_ q)⟩

theorem modLane_moves {p st : Nat} {f : Lane → Lane} (s : State) (hs : ∀ l, (f l).state = st) (hr : ∀ l, (f l).rate = 0) (hl : ∀ l, (f l).losPin = l.losPin) :
    MovesTo p st s (modLane p f s) :=
  ⟨by rw [lane_modLane_self, Lane.standing, hs, hr, hl], fun q hq => by rw [lane_modLane_of_ne s hq]⟩

/-- A retrain goes to hunt. -/
theorem toHunt_moves (p : Nat) (s : State) : MovesTo p 1 s (toHunt p s) := by
  unfold toHunt
  dsimp only
  generalize hu : modLane p _ s = u
  have hm : MovesTo p 1 s u := by
    subst hu
    exact modLane_moves s (fun _ => rfl) (fun _ => rfl) fun _ => rfl
  refine (hm.stands ?_).stands (.ite (leaveUp_stand p _) (.refl _))
  refine .trans (.only (.only (.ite (.refl u) ?_) (modPort_only p _ _) rfl) (bumpGen_only _ _) rfl) (setTxDis_stand p _)
  exact .of_only (bumpGen_only _ _) rfl

/-- A port put off. -/
theorem portOff_moves (p : Nat) (s : State) : MovesTo p 0 s (portOff p s) := by
  unfold portOff
  dsimp only
  generalize hu : modLane p _ s = u
  have hm : MovesTo p 0 s u := by
    subst hu
    exact modLane_moves s (fun _ => rfl) (fun _ => rfl) fun _ => rfl
  refine (hm.stands ?_).stands (.ite (leaveUp_stand p _) (.refl _))
  refine .trans (.only ?_ (bumpGen_only _ _) rfl) (setTxDis_stand p _)
  exact .of_only (condEnd_only _ _ _ _) rfl

theorem lockLost_moves (p : Nat) (s : State) : MovesTo p 1 s (lockLost p s) := by
  unfold lockLost
  dsimp only
  refine LanesStand.moves ?_ (toHunt_moves p _)
  refine .only ?_ (raise_only _ _ _ _) rfl
  exact (LanesStand.refl s).modLane p fun _ => ⟨rfl, rfl, rfl⟩

/-! ## What of the plan stays -/

/-- Of the plan only what is known of the ports differs. -/
structure PortsOnly (s t : State) : Prop where
  pln : t.pln = { s.pln with ports := t.pln.ports }

theorem PortsOnly.refl (s : State) : PortsOnly s s := ⟨rfl⟩

theorem PortsOnly.trans {s t u : State} (h : PortsOnly s t) (k : PortsOnly t u) : PortsOnly s u := ⟨by rw [k.pln, h.pln]⟩

/-- An operation that does not reach the plan. -/
theorem PortsOnly.of_only {l : List Area} {s t : State} (h : Only l s t) (hl : l.contains .pln = false) : PortsOnly s t :=
  have he : t.pln = s.pln := h.same .pln (by simpa using hl)
  ⟨by rw [he]⟩

theorem PortsOnly.only {l : List Area} {s t u : State} (h : PortsOnly s t) (k : Only l t u) (hl : l.contains .pln = false) : PortsOnly s u :=
  h.trans (.of_only k hl)

theorem PortsOnly.ite {c : Prop} [Decidable c] {s a b : State} (h : PortsOnly s a) (k : PortsOnly s b) : PortsOnly s (if c then a else b) := by
  split <;> assumption

theorem modPort_portsOnly (p : Nat) (f : PortSt → PortSt) (s : State) : PortsOnly s (modPort p f s) := ⟨rfl⟩

theorem PortsOnly.foldl {β : Type} {f : State → β → State} (h : ∀ s b, PortsOnly s (f s b)) (xs : List β) (s : State) : PortsOnly s (xs.foldl f s) :=
  foldl_keeps (P := PortsOnly s) (fun t ht b => ht.trans (h t b)) (.refl s) xs

theorem PortsOnly.active {s t : State} (h : PortsOnly s t) : t.pln.active = s.pln.active := by rw [h.pln]

theorem portPlan_congr {s t : State} (h : t.pln.active = s.pln.active) (p : Nat) : portPlan p t = portPlan p s := by rw [portPlan, h, portPlan]

/-- A port that starts to hunt: quarantined, its streak and, of an episode that is over, its first cause gone. -/
def PortSt.hunting (q : PortSt) : PortSt := { q with streak := 0, q := true, first := if q.q then q.first else 0 }

theorem toHunt_pln (p : Nat) (s : State) : (toHunt p s).pln = (modPort p PortSt.hunting s).pln := by
  unfold toHunt
  dsimp only
  generalize hu : modLane p _ s = u
  have hpln : u.pln = s.pln := hu ▸ rfl
  have h (v : State) (hv : v.pln = s.pln) : (setTxDis p (bumpGen (pgPort p) (modPort p PortSt.hunting v))).pln = (modPort p PortSt.hunting s).pln := by
    have hx : (setTxDis p (bumpGen (pgPort p) (modPort p PortSt.hunting v))).pln = (modPort p PortSt.hunting v).pln :=
      ((setTxDis_only p _).same .pln (by decide)).trans rfl
    rw [hx, modPort, modPort, State.modPln_pln, State.modPln_pln, hv]
  have h' : (setTxDis p (bumpGen (pgPort p) (modPort p PortSt.hunting (if (port p u).q = true then u else bumpGen pgPLN u)))).pln = (modPort p PortSt.hunting s).pln := by
    refine h _ ?_
    split <;> exact hpln
  split
  · exact ((leaveUp_only p _).same .pln (by decide)).trans h'
  · exact h'

theorem toHunt_portsOnly (p : Nat) (s : State) : PortsOnly s (toHunt p s) := ⟨by
  rw [toHunt_pln]
  rfl⟩

theorem port_toHunt (p : Nat) (s : State) : port p (toHunt p s) = (port p s).hunting := by
  rw [port_congr (toHunt_pln p s), port_modPort_self]

theorem port_toHunt_of_ne {p q : Nat} (h : q ≠ p) (s : State) : port q (toHunt p s) = port q s := by
  rw [port_congr (toHunt_pln p s), port_modPort_of_ne s h]

theorem lockLost_portsOnly (p : Nat) (s : State) : PortsOnly s (lockLost p s) :=
  PortsOnly.trans (.only (.of_only (modLane_only p _ s) rfl) (raise_only _ _ _ _) rfl) (toHunt_portsOnly p _)

theorem losRises_portsOnly (p : Nat) (s : State) : PortsOnly s (losRises p s) := by
  unfold losRises
  dsimp only
  refine PortsOnly.trans (.of_only (modLane_only p _ s) rfl) (.ite (.refl _) (PortsOnly.trans ?_ (.ite (lockLost_portsOnly p _) (.refl _))))
  exact .only (.of_only (condStart_only _ _ p _) rfl) (raise_only _ _ _ _) rfl

theorem losPlan_portsOnly (s : State) (p : Nat) : PortsOnly s (losPlan s p) :=
  .ite (.refl s) (.ite (losRises_portsOnly p s) (.only (.of_only (modLane_only p _ s) rfl) (condEnd_only _ _ p _) rfl))

/-! ## A loss of signal under a new plan (R235, R246) -/

/-- A loss of signal leaves every lane as it stands, or loses the lock of its port. -/
theorem losRises_cases (p : Nat) (s : State) : LanesStand s (losRises p s) ∨ MovesTo p 1 s (losRises p s) := by
  unfold losRises
  dsimp only
  generalize hu : modLane p _ s = u
  have hm : LanesStand s u := by
    subst hu
    exact (LanesStand.refl s).modLane p fun _ => ⟨rfl, rfl, rfl⟩
  have hr : LanesStand s (raise (pgPort p) cpLOS (portDetail p 0) (condStart (pgPort p) cpLOS p u)) :=
    (hm.only (condStart_only _ _ _ _) rfl).only (raise_only _ _ _ _) rfl
  split
  · exact .inl hm
  · split
    · exact .inr (hr.moves (lockLost_moves p _))
    · exact .inl hr

/-- What a new plan makes of a port's ball leaves every lane as it stands, or loses the lock of its port; with no loss to be seen it leaves them. -/
theorem losPlan_cases (s : State) (p : Nat) : LanesStand s (losPlan s p) ∨ losNow p s = true ∧ MovesTo p 1 s (losPlan s p) := by
  unfold losPlan
  split
  · exact .inl (.refl s)
  · split
    · exact (losRises_cases p s).imp_right fun h => ⟨‹_›, h⟩
    · refine .inl (LanesStand.only ?_ (condEnd_only _ _ _ _) rfl)
      exact (LanesStand.refl s).modLane p fun _ => ⟨rfl, rfl, rfl⟩

theorem losPlan_standing_of_ne {p q : Nat} (h : q ≠ p) (s : State) : (lane q (losPlan s p)).standing = (lane q s).standing :=
  (losPlan_cases s p).elim (·.at_ q) fun k => k.2.others q h

/-- The ball shows no loss on a port that is no chain port, is not used, or whose level LOS_INV has as signal. -/
theorem losNow_eq_false {p : Nat} {s : State} (h : 8 ≤ p ∨ (portPlan p s).use = 0 ∨ (lane p s).losPin = wbit (portCtrl p s) 4) : losNow p s = false := by
  unfold losNow
  rcases h with h | h | h
  · simp [isCP, Nat.not_lt.mpr h]
  · simp [h]
  · simp [h]

end Sys2Proof.Machine
end

section
/-! SUPPORT. A slice becomes active (R36, R37, R103): the parts of `activate` in order, and what each leaves of the ports, of the plan and of TIM.CTRL. -/

namespace Sys2Proof.Machine

/-! ## The parts of an activation -/

/-- What the slice active until now says. -/
def oldBody (old : Option Slice) : SliceBody :=
  match old with
  | some a => a.body
  | none => SliceBody.empty

/-- The ports of which a new slice changes use, class or neighbour. -/
def movedPorts (old : Option Slice) (b : SliceBody) : List Nat :=
  (List.range 24).filter fun p => old.isSome && portChanged (planPort (oldBody old) p) (planPort b p)

/-- Under the old plan, a changed port leaves its hop. -/
def leaveOldPlan (moved : List Nat) (s : State) : State := moved.foldl (fun s p => if (lane p s).state = 0 then s else toHunt p s) s

/-- The slice is the active one. -/
def takePlan (x : Slice) (src : Nat) (s : State) : State :=
  startMark 1 (bumpGen pgPLN ((condEnd pgPLN plnMISSED 0 s).modPln fun l =>
    { l with active := some x, src := src, req := false, missed := false, retryWait := false, dl := [], dlLen := 0 }))

/-- A port as its use in the new plan has it: off, out of the off state, or as it is. -/
def usePort (b : SliceBody) (moved : List Nat) (s : State) (p : Nat) : State :=
  if (planPort b p).use = 0 then (if (lane p s).state = 0 then s else portOff p s)
  else if (lane p s).state = 0 then toHunt p s
  else if moved.contains p then modLane p (fun l => { l with peakCur := peakStart p s }) s
  else s

/-- A port as the plan's rings and its transmitter have it. -/
def joinPort (s : State) (p : Nat) : State := breakHop p (setTxDis p (modPort p (fun q => { q with fresh := false }) s))

/-- Every port under the new plan. -/
def activatePorts (b : SliceBody) (moved : List Nat) (s : State) : State :=
  (List.range 8).foldl losPlan ((List.range 24).foldl joinPort ((List.range 24).foldl (usePort b moved) s))

/-- TIM.CTRL of the TIME section. -/
def activateTime (b : SliceBody) (s : State) : State :=
  match b.timCtrl with
  | some w => rfPut 0x03040 w s
  | none => s

/-- The servo's gains, the Kennel and the queues. -/
def activateQueues (b : SliceBody) (s : State) : State :=
  let s := match b.gains with
    | some w => s.modSrv fun v => { v with gains := w &&& 0xFFFFFF00 }
    | none => s
  b.queues.foldl activateQueue (s.modDel fun d => { d with mergeMiB := b.mergeMiB })

/-- Alarms, reflex rules, programs and contracts. -/
def activateUnits (b : SliceBody) (old : Option Slice) (s : State) : State :=
  let s := if s.fuse.hx000 then s else (List.range 320).foldl (activateAlarm b) s
  let s := (List.range 64).foldl (fun s k =>
    match b.rules.find? (·.1 = k) with
    | some r => putRule k r.2.1 r.2.2 s
    | none => if (rule k s).a = 0 ∧ (rule k s).b = 0 then s else putRule k 0 0 s) s
  let s := activateTats b old.isSome s
  let s := if old.isNone ∧ s.fuse.hx000 = false then ((List.range 24).filter fun g => b.programs.any fun p => decide (p.tgt = 16 + g)).foldl bootTat s else s
  let s := (List.range 16).foldl (activateTc b old.isNone) s
  activateCons (oldBody old).contracts b.contracts s

/-- An activation is its parts in order. -/
theorem activate_eq (x : Slice) (src : Nat) (s : State) :
    activate x src s =
      activateUnits x.body s.pln.active (rewriteLins x.body (rewriteEntries x.body (activateQueues x.body (activateTime x.body
        (activatePorts x.body (movedPorts s.pln.active x.body) (takePlan x src (leaveOldPlan (movedPorts s.pln.active x.body) s))))))) := by
  unfold activate
  extract_lets old ob b moved left ended taken marked used joined ported timed gained merged queued rewritten alarmed ruled tated booted cored
  have hleft : left = leaveOldPlan moved s := rfl
  have hmarked : marked = takePlan x src left := rfl
  have hported : ported = activatePorts b moved marked := rfl
  have htimed : timed = activateTime b ported := rfl
  have hqueued : queued = activateQueues b timed := rfl
  have hunits : activateCons ob.contracts b.contracts cored = activateUnits b old rewritten := rfl
  have hrewritten : rewritten = rewriteLins b (rewriteEntries b queued) := rfl
  clear_value cored alarmed ruled tated booted rewritten queued timed ported marked left gained merged used joined ended taken
  rw [hunits, hrewritten, hqueued, htimed, hported, hmarked, hleft, show moved = movedPorts old b from rfl]

/-! ## Their frames -/

theorem activateTime_only (b : SliceBody) (s : State) : Only [.rf] s (activateTime b s) := by
  unfold activateTime
  split
  · exact rfPut_only _ _ s
  · exact .refl _ s

theorem activateQueues_only (b : SliceBody) (s : State) : Only [.pages, .srv, .del, .ques] s (activateQueues b s) := by
  unfold activateQueues
  dsimp only
  refine Only.trans ?_ (Only.foldl (fun t q => (activateQueue_only t q).mono rfl) _ _)
  refine Only.next (modDel_only _ _) rfl ?_
  split
  · exact (modSrv_only _ s).mono rfl
  · exact .refl _ s

theorem activateUnits_only (b : SliceBody) (old : Option Slice) (s : State) :
    Only [.pages, .mem, .fab, .del, .pci, .tcs, .svc, .fwl, .grps, .outbox] s (activateUnits b old s) := by
  unfold activateUnits
  dsimp only
  refine Only.next (activateCons_only _ _ _) rfl (Only.trans ?_ (Only.foldl (fun t n => (activateTc_only b _ t n).mono rfl) _ _))
  refine Only.trans ?_ (.ite (Only.foldl (fun t g => (bootTat_only t g).mono rfl) _ _) (.refl _ _))
  refine Only.next (activateTats_only _ _ _) rfl ?_
  refine Only.trans (t := if s.fuse.hx000 then s else (List.range 320).foldl (activateAlarm b) s) ?_ (Only.foldl (fun t k => ?_) _ _)
  · exact .ite (.refl _ s) (Only.foldl (fun t c => (activateAlarm_only b t c).mono rfl) _ _)
  · split
    · exact (putRule_only _ _ _ t).mono rfl
    · exact .ite (.refl _ t) ((putRule_only _ _ _ t).mono rfl)

theorem takePlan_only (x : Slice) (src : Nat) (s : State) : Only [.pages, .fab, .pln, .pwr] s (takePlan x src s) :=
  Only.next (startMark_only _ _) rfl (Only.next (bumpGen_only _ _) rfl (Only.next (modPln_only _ _) rfl ((condEnd_only _ _ _ s).mono rfl)))

/-- The entries are rewritten, and the registers of CHW's window with them: no other plain register. -/
theorem rfGet_rewriteEntries {a : Nat} (ha : a < 0x0E050) (b : SliceBody) (s : State) : rfGet a (rewriteEntries b s) = rfGet a s := by
  have load (t : State) : rfGet a (loadEntry t) = rfGet a t := by
    have put {k : Nat} {m z : Word} (h : rwReg (k / 4096) (k % 4096) = some (m, z)) (hk : a ≠ k) (v : Word) (u : State) : rfGet a (rfPut k v u) = rfGet a u :=
      (rfGet_rfPut h v u).2 a hk
    rw [loadEntry, put rfl (by omega), put rfl (by omega), put rfl (by omega), put rfl (by omega)]
  rw [rewriteEntries, load]
  refine rfGet_congr (Only.same (l := [.pages, .chans, .grps, .ana]) ?_ .rf (by decide)) a
  refine .trans (Only.foldl (fun t g => .ite ?_ (.ite (.refl _ t) ?_)) _ s) (Only.foldl (fun t c => .ite (.refl _ t) (.ite ?_ ?_)) _ _)
  · exact (modAna_only _ t).mono rfl
  · exact (commitGroup_only _ _ t).mono rfl
  · exact (modAna_only _ t).mono rfl
  · exact (commitChan_only _ _ t).mono rfl

/-! ## The ports -/

theorem usePort_portsOnly (b : SliceBody) (moved : List Nat) (s : State) (p : Nat) : PortsOnly s (usePort b moved s p) := by
  unfold usePort
  refine .ite (.ite (.refl s) ?_) (.ite (toHunt_portsOnly p s) (.ite ?_ (.refl s)))
  · exact .of_only (portOff_only p s) rfl
  · exact .of_only (modLane_only p _ s) rfl

theorem joinPort_portsOnly (s : State) (p : Nat) : PortsOnly s (joinPort s p) :=
  ((modPort_portsOnly p _ s).only (setTxDis_only p _) rfl).only (breakHop_only p _) rfl

theorem activatePorts_portsOnly (b : SliceBody) (moved : List Nat) (s : State) : PortsOnly s (activatePorts b moved s) :=
  ((PortsOnly.foldl (usePort_portsOnly b moved) _ s).trans (.foldl joinPort_portsOnly _ _)).trans (.foldl losPlan_portsOnly _ _)

theorem leaveOldPlan_portsOnly (moved : List Nat) (s : State) : PortsOnly s (leaveOldPlan moved s) :=
  .foldl (fun t p => .ite (.refl t) (toHunt_portsOnly p t)) _ s

/-- The areas that an operation on ports reaches. -/
def portAreas : List Area := [.pages, .fab, .pln, .lanes, .lsh, .del, .pci, .fwl, .outbox]

theorem leaveOldPlan_only (moved : List Nat) (s : State) : Only portAreas s (leaveOldPlan moved s) :=
  Only.foldl (fun t p => .ite (.refl _ t) (toHunt_only p t)) _ s

theorem usePort_only (b : SliceBody) (moved : List Nat) (s : State) (p : Nat) : Only portAreas s (usePort b moved s p) := by
  unfold usePort
  refine .ite (.ite (.refl _ s) ?_) (.ite (toHunt_only p s) (.ite ?_ (.refl _ s)))
  · exact (portOff_only p s).mono rfl
  · exact (modLane_only p _ s).mono rfl

theorem joinPort_only (s : State) (p : Nat) : Only portAreas s (joinPort s p) :=
  Only.next (breakHop_only p _) rfl (Only.next (setTxDis_only p _) rfl ((modPort_only p _ s).mono rfl))

theorem joinPort_stand (s : State) (p : Nat) : LanesStand s (joinPort s p) :=
  (LanesStand.trans (.of_only (modPort_only p _ s) rfl) (setTxDis_stand p _)).trans (breakHop_stand p _)

/-- A changed port that is not off starts again; every other port stands. -/
theorem leaveOldPlan_standing (b : SliceBody) (old : Option Slice) (s : State) {p : Nat} :
    (lane p (leaveOldPlan (movedPorts old b) s)).standing =
      if p ∈ movedPorts old b ∧ (lane p s).state ≠ 0 then (1, 0, (lane p s).losPin) else (lane p s).standing := by
  have hP : ∀ t : State, True → ∀ k : Nat, True := fun _ _ _ => trivial
  have hf : ∀ t, True → ∀ j k : Nat, j ≠ k → (lane j (if (lane k t).state = 0 then t else toHunt k t)).standing = (lane j t).standing := by
    intro t _ j k hjk
    split
    · rfl
    · exact (toHunt_moves k t).others j hjk
  by_cases hm : p ∈ movedPorts old b
  · obtain ⟨t, -, hst, hft⟩ := unit_foldl_of_mem (unit := fun q t => (lane q t).standing) (P := fun _ => True) (s := s) (fun _ _ _ => trivial) hf trivial
      (List.Nodup.filter _ List.nodup_range) hm
    refine hft.trans ?_
    have hs : (lane p t).state = (lane p s).state := congrArg (·.1) hst
    have hl : (lane p t).losPin = (lane p s).losPin := congrArg (·.2.2) hst
    rw [hs]
    by_cases h0 : (lane p s).state = 0
    · rw [if_pos h0, if_neg (by simp [h0])]
      exact hst
    · rw [if_neg h0, if_pos ⟨hm, h0⟩, (toHunt_moves p t).self, hl]
  · rw [if_neg (by simp [hm])]
    exact unit_foldl_of_not_mem (unit := fun q t => (lane q t).standing) (P := fun _ => True) (fun _ _ _ => trivial) hf trivial hm

/-- How a port stands under its use in the new plan. -/
def useStanding (u : PortPlan) (l : Lane) : Nat × Nat × Bool :=
  if u.use = 0 then (if l.state = 0 then l.standing else (0, 0, l.losPin)) else if l.state = 0 then (1, 0, l.losPin) else l.standing

theorem usePort_standing (b : SliceBody) (moved : List Nat) (s : State) (p : Nat) :
    (lane p (usePort b moved s p)).standing = useStanding (planPort b p) (lane p s) ∧ ∀ q, q ≠ p → (lane q (usePort b moved s p)).standing = (lane q s).standing := by
  unfold usePort useStanding
  split
  · split
    · exact ⟨rfl, fun _ _ => rfl⟩
    · exact ⟨(portOff_moves p s).self, (portOff_moves p s).others⟩
  · split
    · exact ⟨(toHunt_moves p s).self, (toHunt_moves p s).others⟩
    · split
      · have h : LanesStand s (modLane p (fun l => { l with peakCur := peakStart p s }) s) := (LanesStand.refl s).modLane p fun _ => ⟨rfl, rfl, rfl⟩
        exact ⟨h.at_ p, fun q _ => h.at_ q⟩
      · exact ⟨rfl, fun _ _ => rfl⟩

theorem usePorts_standing (b : SliceBody) (moved : List Nat) (s : State) {p : Nat} (hp : p < 24) :
    (lane p ((List.range 24).foldl (usePort b moved) s)).standing = useStanding (planPort b p) (lane p s) := by
  obtain ⟨t, -, hst, hft⟩ := unit_foldl_of_mem (unit := fun q t => (lane q t).standing) (P := fun _ => True) (f := usePort b moved) (s := s) (fun _ _ _ => trivial)
    (fun t _ j k hjk => (usePort_standing b moved t k).2 j hjk) trivial List.nodup_range (List.mem_range.mpr hp)
  have hs : (lane p t).state = (lane p s).state := congrArg (·.1) hst
  have hl : (lane p t).losPin = (lane p s).losPin := congrArg (·.2.2) hst
  refine hft.trans ((usePort_standing b moved t p).1.trans ?_)
  rw [useStanding, useStanding, hs, hl, show (lane p t).standing = (lane p s).standing from hst]

/-- The ball of a port is read by the plan, LOS_INV and its level alone. -/
theorem losNow_congr {s t : State} {p : Nat} (ha : t.pln.active = s.pln.active) (hr : t.rf = s.rf) (hl : (lane p t).losPin = (lane p s).losPin) :
    losNow p t = losNow p s := by
  rw [losNow, portPlan_congr ha, hl, portCtrl, rfGet_congr hr, losNow, portCtrl]

/-- The balls read under the new plan: a port stands, or it shows a loss and hunts. -/
theorem losPlans_standing (s : State) (p : Nat) :
    (lane p ((List.range 8).foldl losPlan s)).standing = (lane p s).standing ∨
    losNow p s = true ∧ (lane p ((List.range 8).foldl losPlan s)).standing = (1, 0, (lane p s).losPin) := by
  have hf : ∀ t, (t.rf = s.rf ∧ t.pln.active = s.pln.active) → ∀ j k, j ≠ k → (lane j (losPlan t k)).standing = (lane j t).standing :=
    fun t _ j k hjk => losPlan_standing_of_ne hjk t
  have hP : ∀ t, (t.rf = s.rf ∧ t.pln.active = s.pln.active) → ∀ k, (losPlan t k).rf = s.rf ∧ (losPlan t k).pln.active = s.pln.active := fun t ht k =>
    have hr : (losPlan t k).rf = t.rf := (losPlan_only t k).same .rf (by decide)
    ⟨hr.trans ht.1, (losPlan_portsOnly t k).active.trans ht.2⟩
  by_cases hp : p ∈ List.range 8
  · obtain ⟨t, ⟨hr, ha⟩, hst, hft⟩ := unit_foldl_of_mem (unit := fun q t => (lane q t).standing) hP hf ⟨rfl, rfl⟩ List.nodup_range hp
    have hl : (lane p t).losPin = (lane p s).losPin := congrArg (·.2.2) hst
    rcases losPlan_cases t p with h | ⟨hn, h⟩
    · exact .inl (hft.trans ((h.at_ p).trans hst))
    · exact .inr ⟨losNow_congr ha hr hl ▸ hn, hft.trans (hl ▸ h.self)⟩
  · exact .inl (unit_foldl_of_not_mem (unit := fun q t => (lane q t).standing) hP hf ⟨rfl, rfl⟩ hp)

end Sys2Proof.Machine
end

section
/-! SUPPORT. What an activation makes of the ports, the plan and TIM.CTRL (R36, R37, R274). -/

namespace Sys2Proof.Machine

/-- The ball keeps its level under a port's use. -/
theorem useStanding_losPin (u : PortPlan) (l : Lane) : (useStanding u l).2.2 = l.losPin := by
  unfold useStanding
  split <;> split <;> rfl

/-- Every port under the new plan: as its use has it, or hunting where a loss of signal shows. -/
theorem activatePorts_standing (b : SliceBody) (moved : List Nat) (s : State) {p : Nat} (hp : p < 24) :
    (lane p (activatePorts b moved s)).standing = useStanding (planPort b p) (lane p s) ∨
    losNow p s = true ∧ (lane p (activatePorts b moved s)).standing = (1, 0, (lane p s).losPin) := by
  unfold activatePorts
  generalize hu : (List.range 24).foldl (usePort b moved) s = u
  generalize hj : (List.range 24).foldl joinPort u = j
  have hstand : (lane p j).standing = useStanding (planPort b p) (lane p s) := by
    rw [← hj, (LanesStand.foldl joinPort_stand _ u).at_ p, ← hu, usePorts_standing b moved s hp]
  have honly : Only portAreas s j := by
    rw [← hj, ← hu]
    exact (Only.foldl (usePort_only b moved) _ s).trans (Only.foldl joinPort_only _ _)
  have hports : PortsOnly s j := by
    rw [← hj, ← hu]
    exact (PortsOnly.foldl (usePort_portsOnly b moved) _ s).trans (.foldl joinPort_portsOnly _ _)
  have hlos : (lane p j).losPin = (lane p s).losPin := (congrArg (·.2.2) hstand).trans (useStanding_losPin _ _)
  rcases losPlans_standing j p with h | ⟨hn, h⟩
  · exact .inl (h.trans hstand)
  · exact .inr ⟨losNow_congr hports.active (honly.same .rf (by decide)) hlos ▸ hn, h.trans (by rw [hlos])⟩

/-- What follows the ports reaches neither a lane nor the plan. -/
def tailAreas : List Area := [.pages, .rf, .mem, .fab, .srv, .del, .ques, .pci, .tcs, .svc, .fwl, .chans, .grps, .lins, .ana, .outbox]

/-- The state in which an activation has dealt with the ports. -/
def activatedPorts (x : Slice) (src : Nat) (s : State) : State :=
  activatePorts x.body (movedPorts s.pln.active x.body) (takePlan x src (leaveOldPlan (movedPorts s.pln.active x.body) s))

theorem activate_tail (x : Slice) (src : Nat) (s : State) : Only tailAreas (activatedPorts x src s) (activate x src s) := by
  rw [activate_eq]
  refine Only.next (activateUnits_only _ _ _) rfl (Only.next (rewriteLins_only _ _) rfl (Only.next (rewriteEntries_only _ _) rfl (Only.next (activateQueues_only _ _) rfl ?_)))
  exact (activateTime_only _ _).mono rfl

/-- Of the plan an activation changes the active slice and its source, ends every request and download, and knows the ports anew. -/
theorem activate_pln (x : Slice) (src : Nat) (s : State) :
    (activate x src s).pln = { s.pln with
      active := some x, src := src, req := false, missed := false, retryWait := false, dl := [], dlLen := 0, ports := (activate x src s).pln.ports } := by
  have htail : (activate x src s).pln = (activatedPorts x src s).pln := (activate_tail x src s).same .pln (by decide)
  have hleave := (leaveOldPlan_portsOnly (movedPorts s.pln.active x.body) s).pln
  have htake : (takePlan x src (leaveOldPlan (movedPorts s.pln.active x.body) s)).pln =
      { s.pln with
        active := some x, src := src, req := false, missed := false, retryWait := false, dl := [], dlLen := 0,
        ports := (leaveOldPlan (movedPorts s.pln.active x.body) s).pln.ports } := by
    refine Eq.trans (b := { (leaveOldPlan (movedPorts s.pln.active x.body) s).pln with
        active := some x, src := src, req := false, missed := false, retryWait := false, dl := [], dlLen := 0 }) ?_ (by rw [hleave])
    exact ((startMark_only 1 _).same .pln (by decide)).trans rfl
  rw [htail, activatedPorts, (activatePorts_portsOnly _ _ _).pln, htake]

/-- TIM.CTRL is as the TIME section has it. -/
theorem rfGet_activate_timCtrl {x : Slice} {w : Word} (h : x.body.timCtrl = some w) (src : Nat) (s : State) : rfGet 0x03040 (activate x src s) = w &&& 0x00FFE300 := by
  have htime (u : State) : rfGet 0x03040 (activateTime x.body u) = w &&& 0x00FFE300 := by
    rw [activateTime, h]
    exact (rfGet_rfPut rfl w u).1
  rw [activate_eq, rfGet_congr ((activateUnits_only _ _ _).same .rf (by decide)), rfGet_congr ((rewriteLins_only _ _).same .rf (by decide)),
    rfGet_rewriteEntries (by decide), rfGet_congr ((activateQueues_only _ _).same .rf (by decide)), htime]

section
variable (x : Slice) (src : Nat) (s : State) {p : Nat} (hp : p < 24)
include hp

/-- How a port stands after an activation. -/
theorem activate_standing :
    let l := lane p (leaveOldPlan (movedPorts s.pln.active x.body) s)
    (lane p (activate x src s)).standing = useStanding (planPort x.body p) l ∨
    (planPort x.body p).use ≠ 0 ∧ ¬(8 ≤ p ∨ (lane p s).losPin = wbit (portCtrl p s) 4) ∧ (lane p (activate x src s)).standing = (1, 0, l.losPin) := by
  intro l
  have hlos : l.losPin = (lane p s).losPin := by
    have h : l.standing = _ := leaveOldPlan_standing x.body s.pln.active s
    refine (congrArg (·.2.2) h).trans ?_
    split <;> rfl
  generalize hv : takePlan x src (leaveOldPlan (movedPorts s.pln.active x.body) s) = v
  have hlane : lane p v = l := by
    rw [← hv]
    exact lane_congr ((takePlan_only x src _).same .lanes (by decide)) p
  have hrf : v.rf = s.rf := by
    rw [← hv]
    exact ((takePlan_only x src _).same .rf (by decide)).trans ((leaveOldPlan_only _ s).same .rf (by decide))
  have hactive : v.pln.active = some x := by
    rw [← hv]
    exact congrArg (·.active) ((startMark_only 1 _).same .pln (by decide))
  have hplan : portPlan p v = planPort x.body p := by rw [portPlan, hactive]
  have htail : lane p (activate x src s) = lane p (activatePorts x.body (movedPorts s.pln.active x.body) v) := by
    rw [lane_congr ((activate_tail x src s).same .lanes (by decide)), activatedPorts, hv]
  rw [htail]
  rcases activatePorts_standing x.body (movedPorts s.pln.active x.body) v hp with h | ⟨hn, h⟩
  · exact .inl (h.trans (by rw [hlane]))
  · have hs : ¬(8 ≤ p ∨ (portPlan p v).use = 0 ∨ (lane p v).losPin = wbit (portCtrl p v) 4) := fun hc => by simp [losNow_eq_false hc] at hn
    rw [hplan, hlane, hlos, portCtrl, rfGet_congr hrf] at hs
    exact .inr ⟨fun h0 => hs (.inr (.inl h0)), fun hc => hs (hc.imp_right .inr), h.trans (by rw [hlane])⟩

/-- A port that the new plan does not use is off. -/
theorem activate_unused (hu : (planPort x.body p).use = 0) : (lane p (activate x src s)).state = 0 := by
  rcases activate_standing x src s hp with h | ⟨h, -⟩
  · refine (congrArg (·.1) h).trans ?_
    rw [useStanding, if_pos hu]
    split
    · assumption
    · rfl
  · exact absurd hu h

/-- A port in use that changed, or was off, hunts at the lowest rate. -/
theorem activate_restarted (hu : (planPort x.body p).use ≠ 0) (hc : p ∈ movedPorts s.pln.active x.body ∨ (lane p s).state = 0) :
    (lane p (activate x src s)).state = 1 ∧ (lane p (activate x src s)).rate = 0 := by
  have hl := leaveOldPlan_standing x.body s.pln.active s (p := p)
  rcases activate_standing x src s hp with h | ⟨-, -, h⟩
  · rw [useStanding, if_neg hu] at h
    by_cases hm : p ∈ movedPorts s.pln.active x.body ∧ (lane p s).state ≠ 0
    · rw [if_pos hm] at hl
      rw [if_neg (by rw [show (lane p _).state = 1 from congrArg (·.1) hl]; decide), hl] at h
      exact ⟨congrArg (·.1) h, congrArg (·.2.1) h⟩
    · rw [if_neg hm] at hl
      have h0 : (lane p s).state = 0 := hc.elim (fun hc => by_contra fun h0 => hm ⟨hc, h0⟩) id
      rw [if_pos (show (lane p _).state = 0 from (congrArg (·.1) hl).trans h0)] at h
      exact ⟨congrArg (·.1) h, congrArg (·.2.1) h⟩
  · exact ⟨congrArg (·.1) h, congrArg (·.2.1) h⟩

/-- A port in use that did not change and is not off, and shows no loss of signal, stays as it is. -/
theorem activate_unchanged (hu : (planPort x.body p).use ≠ 0) (hc : p ∉ movedPorts s.pln.active x.body) (h0 : (lane p s).state ≠ 0)
    (hl : 8 ≤ p ∨ (lane p s).losPin = wbit (portCtrl p s) 4) :
    (lane p (activate x src s)).state = (lane p s).state ∧ (lane p (activate x src s)).rate = (lane p s).rate := by
  have hk := leaveOldPlan_standing x.body s.pln.active s (p := p)
  rw [if_neg (by simp [hc])] at hk
  have hstate : (lane p (leaveOldPlan (movedPorts s.pln.active x.body) s)).state = (lane p s).state := congrArg (·.1) hk
  rcases activate_standing x src s hp with h | ⟨-, h, -⟩
  · rw [useStanding, if_neg hu, hstate, if_neg h0, hk] at h
    exact ⟨congrArg (·.1) h, congrArg (·.2.1) h⟩
  · exact absurd hl h

end

end Sys2Proof.Machine
end

section
/-! SUPPORT. Slices checked, rejected, staged and made active (R26, R27, R34, R39). -/

namespace Sys2Proof.Machine

/-! ## Causes that stay -/

/-- A cause that is latched stays so where no page's header changes. -/
theorem Latched.only {p b : Nat} {l : List Area} {s t : State} (h : Latched p b s) (k : Only l s t) (hl : l.contains .pages = false) : Latched p b t := by
  rw [Latched, page_congr (k.same .pages (by simpa using hl))]
  exact h

/-! ## The checks and their verdict -/

/-- A slice is checked against the straps, the variant and what sections say. -/
theorem sliceErr_congr {s t : State} (hs : t.pln.secs = s.pln.secs) (he : t.pln.strapErr = s.pln.strapErr) (hr : t.pln.role = s.pln.role) (hp : t.pln.pos = s.pln.pos)
    (hf : t.fuse = s.fuse) (b : List Byte) (o : Bool) : sliceErr b o t = sliceErr b o s ∧ sliceOf b t = sliceOf b s := by
  have hof : sliceOf b t = sliceOf b s := by simp only [sliceOf, sectionsOf, hs]
  refine ⟨?_, hof⟩
  unfold sliceErr
  dsimp only
  rw [hof, he, hr, hp, hf]

theorem rejectSlice_pln (e : Nat) (s : State) : (rejectSlice e s).pln = { s.pln with err := e } := ((raise_only _ _ _ _).same .pln (by decide)).trans rfl

theorem rejectSlice_latched (e : Nat) (s : State) : Latched pgPLN plnSLICEREJ (rejectSlice e s) := raise_latched _ _ (by decide) (by decide)

theorem stageSlice_pln (x : Slice) (src : Nat) (s : State) : (stageSlice x src s).pln = { s.pln with pend := some x, pendSrc := src } :=
  ((raise_only _ _ _ _).same .pln (by decide)).trans rfl

theorem stageSlice_latched (x : Slice) (src : Nat) (s : State) : Latched pgPLN plnSTAGED (stageSlice x src s) := raise_latched _ _ (by decide) (by decide)

theorem emptyLoad_pln (s : State) : (emptyLoad s).pln = { s.pln with loadBuf := [], loadOver := false } := rfl

/-! ## A slice made active -/

/-- What a slice made active leaves: its identity, source and TIM.CTRL, and each port as its plan has it; where none was active, a port in use that was off hunts at the lowest rate and one that was not, with no loss of signal to be seen, stays. -/
def Made (s : State) (x : Slice) (src : Nat) (t : State) : Prop :=
  t.pln.active = some x ∧ t.pln.src = src ∧ t.pln.req = false ∧ t.pln.missed = false ∧ (∀ w, x.body.timCtrl = some w → rfGet 0x03040 t = w &&& 0x00FFE300) ∧
  ∀ p, p < 24 → ((planPort x.body p).use = 0 → (lane p t).state = 0) ∧
    ((planPort x.body p).use ≠ 0 → s.pln.active = none → if (lane p s).state = 0 then (lane p t).state = 1 ∧ (lane p t).rate = 0
      else (8 ≤ p ∨ (lane p s).losPin = wbit (portCtrl p s) 4) → (lane p t).state = (lane p s).state ∧ (lane p t).rate = (lane p s).rate)

theorem movedPorts_none (b : SliceBody) : movedPorts none b = [] := List.filter_false _

theorem mem_movedPorts {a : Slice} {b : SliceBody} {p : Nat} (hp : p < 24) : p ∈ movedPorts (some a) b ↔ planPort a.body p ≠ planPort b p := by
  simp only [movedPorts, oldBody, portChanged, List.mem_filter, List.mem_range, hp, true_and, Option.isSome_some, Bool.true_and]
  exact decide_eq_true_iff

/-- A slice made active, from a state with the same lanes, registers and active slice. -/
theorem activate_made {s u : State} (hl : u.lanes = s.lanes) (hr : u.rf = s.rf) (ha : u.pln.active = s.pln.active) (x : Slice) (src : Nat) :
    Made s x src (activate x src u) := by
  have hpln := activate_pln x src u
  refine ⟨by rw [hpln], by rw [hpln], by rw [hpln], by rw [hpln], fun w hw => rfGet_activate_timCtrl hw src u, fun p hp => ⟨activate_unused x src u hp, fun hu hn => ?_⟩⟩
  rw [← lane_congr hl]
  split
  · exact activate_restarted x src u hp hu (.inr ‹_›)
  · intro hlos
    refine activate_unchanged x src u hp hu ?_ ‹_› (by rwa [portCtrl, rfGet_congr hr])
    rw [ha, hn, movedPorts_none]
    exact List.not_mem_nil

/-- Blocks queued after it take nothing of it back. -/
theorem Made.stands {s t u : State} {x : Slice} {src : Nat} (h : Made s x src t) (hs : LanesStand t u) (ho : Only [.lanes] t u) : Made s x src u := by
  have hlane (p : Nat) : (lane p u).state = (lane p t).state ∧ (lane p u).rate = (lane p t).rate := ⟨congrArg (·.1) (hs.at_ p), congrArg (·.2.1) (hs.at_ p)⟩
  have hpln : u.pln = t.pln := ho.same .pln (by decide)
  simp only [Made, hpln, hlane, rfGet_congr (ho.same .rf (by decide))]
  exact h

/-! ## The search of the boot flash (R27) -/

/-- Slices rejected, and nothing else but the reports of it. -/
structure Rejected (s u : State) : Prop where
  only : Only (reporting [.pln]) s u
  pln : u.pln = { s.pln with err := u.pln.err }

theorem Rejected.refl (s : State) : Rejected s s := ⟨.refl _ s, rfl⟩

theorem Rejected.reject {s u : State} (h : Rejected s u) (e : Nat) : Rejected s (rejectSlice e u) :=
  ⟨Only.next (rejectSlice_only e u) rfl h.only, by rw [rejectSlice_pln, h.pln]⟩

/-- The checks do not depend on what was rejected before. -/
theorem Rejected.sliceErr {s u : State} (h : Rejected s u) (b : List Byte) (o : Bool) : sliceErr b o u = Machine.sliceErr b o s ∧ sliceOf b u = sliceOf b s := by
  have hp := h.pln
  exact sliceErr_congr (by rw [hp]) (by rw [hp]) (by rw [hp]) (by rw [hp]) (h.only.same .fuse (by decide)) b o

/-- One slice of the flash looked at. -/
def searchStep (s : State) (b : List Byte) : State :=
  if s.pln.active.isSome then s
  else
    let e := sliceErr b false s
    if e = 0 then activate (sliceOf b s) 2 s else rejectSlice e s

theorem searchStep_active {s : State} (h : s.pln.active.isSome = true) (bs : List (List Byte)) : bs.foldl searchStep s = s := by
  induction bs with
  | nil => rfl
  | cons b bs ih => rw [List.foldl_cons, searchStep, if_pos h, ih]

/-- The first acceptable slice is taken, those before it rejected. -/
theorem search_found {s : State} (hn : s.pln.active = none) {x : List Byte} {bs : List (List Byte)} (hx : bs.find? (fun b => sliceErr b false s = 0) = some x) {u : State}
    (hu : Rejected s u) : ∃ w, Rejected s w ∧ bs.foldl searchStep u = activate (sliceOf x s) 2 w := by
  have hna (w : State) (hw : Rejected s w) : w.pln.active = none := by rw [hw.pln, hn]
  induction bs generalizing u with
  | nil => exact absurd hx (by simp)
  | cons b bs ih =>
    obtain ⟨he, ho⟩ := hu.sliceErr b false
    rw [List.foldl_cons, searchStep, if_neg (by simp [hna u hu]), he, ho]
    by_cases h0 : Machine.sliceErr b false s = 0
    · rw [List.find?_cons_of_pos (by simpa using h0), Option.some.injEq] at hx
      rw [if_pos h0, searchStep_active (by rw [activate_pln]; rfl), hx]
      exact ⟨u, hu, rfl⟩
    · rw [List.find?_cons_of_neg (by simpa using h0)] at hx
      rw [if_neg h0]
      exact ih hx (hu.reject _)

/-- With no acceptable slice the last one's failed check stands. -/
theorem search_none {s : State} (hn : s.pln.active = none) {x : List Byte} {bs : List (List Byte)} (h : bs.find? (fun b => sliceErr b false s = 0) = none)
    (hl : bs.getLast? = some x) : ∃ w, Rejected s w ∧ bs.foldl searchStep s = rejectSlice (sliceErr x false s) w := by
  have hbad (b : List Byte) (hb : b ∈ bs) : sliceErr b false s ≠ 0 := fun h0 => List.find?_eq_none.mp h b hb (by simpa using h0)
  have hstep (w : State) (hw : Rejected s w) (b : List Byte) (hb : b ∈ bs) : searchStep w b = rejectSlice (sliceErr b false s) w := by
    rw [searchStep, if_neg (by rw [hw.pln, hn]; simp), (hw.sliceErr b false).1]
    exact if_neg (hbad b hb)
  obtain ⟨ys, hys⟩ := List.getLast?_eq_some_iff.mp hl
  have hw : Rejected s (ys.foldl searchStep s) := by
    refine List.foldlRecOn ys searchStep (Rejected.refl s) fun w hw b hb => ?_
    rw [hstep w hw b (by simp [hys, hb])]
    exact hw.reject _
  exact ⟨_, hw, by rw [hys, List.foldl_append, List.foldl_cons, List.foldl_nil, hstep _ hw x (by simp [hys])]⟩

end Sys2Proof.Machine
end

section
/-! SUPPORT. Where a block leaves (R249): a route reads the plan and the states of the lanes alone, so that blocks queued change no route. -/

namespace Sys2Proof.Machine

/-- What reads only the plan answers the same under the same plan. -/
theorem eq_of_pln {α : Type} {f : State → α} (hf : ∀ s : State, f s = f { pln := s.pln }) {s t : State} (h : t.pln = s.pln) : f t = f s := by
  rw [hf t, h, ← hf s]

theorem routePorts_nodup (dseg dhub : Nat) (s : State) : (routePorts dseg dhub s).Nodup := by
  have hdup : (duplexPorts s).Nodup := List.nodup_range.filter _
  unfold routePorts
  dsimp only
  split
  · exact hdup
  · split
    · exact List.nodup_singleton _
    · split
      · exact hdup
      · exact List.nodup_singleton _

theorem routePorts_congr {s t : State} (hp : t.pln = s.pln) (hl : ∀ p, (lane p t).state = (lane p s).state) (dseg dhub : Nat) :
    routePorts dseg dhub t = routePorts dseg dhub s := by
  have hplan : ∀ p, portPlan p t = portPlan p s := portPlan_congr (congrArg (·.active) hp)
  have hdup : duplexPorts t = duplexPorts s := eq_of_pln (fun _ => rfl) hp
  have hseg : mySeg t = mySeg s := eq_of_pln (fun _ => rfl) hp
  have hring (p : Nat) : portRing p t = portRing p s := eq_of_pln (f := portRing p) (fun _ => rfl) hp
  have heast (p : Nat) : facesEast p t = facesEast p s := eq_of_pln (f := facesEast p) (fun _ => rfl) hp
  have hplace (r : RingPlan) : myPlace r t = myPlace r s := eq_of_pln (f := myPlace r) (fun _ => rfl) hp
  have hhops (r : RingPlan) (dev : Nat) : hopsTo r dev t = hopsTo r dev s := eq_of_pln (f := hopsTo r dev) (fun _ => rfl) hp
  simp only [routePorts, hplan, hl, hdup, hseg, hring, heast, hplace, hhops, hp]

theorem sendCtrlAll_stand (ps : List Nat) (c : CtrlBlk) (s : State) : LanesStand s (sendCtrlAll ps c s) := .foldl (fun t p => sendCtrlOn_stand p c t) ps s

theorem CtrlBlk.plain.of_sub {c : CtrlBlk} (n : Nat) (h : c.sub = n) (hn : n ≠ 0x01 ∧ n ≠ 0x02 ∧ n ≠ 0x10) : c.plain := by
  rw [← h] at hn
  exact hn

/-- Plain blocks to one device stand in the order sent, each at every port of its route. -/
theorem ctl_sendCtrls {dseg dhub : Nat} {cs : List CtrlBlk} (hc : ∀ c ∈ cs, c.plain ∧ c.dseg = dseg ∧ c.dhub = dhub) (s : State) {p : Nat} (hp : p ∈ routePorts dseg dhub s) :
    (lane p (cs.foldl (fun s c => sendCtrl c s) s)).ctl = (lane p s).ctl ++ cs.map CtrlBlk.toTx := by
  induction cs generalizing s with
  | nil => rw [List.foldl_nil, List.map_nil, List.append_nil]
  | cons c cs ih =>
    obtain ⟨hplain, hd, hh⟩ := hc c List.mem_cons_self
    have hroute : routePorts dseg dhub (sendCtrl c s) = routePorts dseg dhub s :=
      routePorts_congr ((sendCtrl_only c s).same .pln (by decide)) (fun q => congrArg (·.1) ((sendCtrlAll_stand _ c s).at_ q)) dseg dhub
    rw [List.foldl_cons, ih (fun d hd => hc d (List.mem_cons_of_mem _ hd)) _ (hroute ▸ hp), sendCtrl, hd, hh, ctl_sendCtrlAll hplain (routePorts_nodup dseg dhub s) s hp,
      List.map_cons, List.append_assoc, List.singleton_append]

end Sys2Proof.Machine
end

section
/-! PROOF. Plan slices are loaded, searched, asked for, served and taken (R26–R28, R34, R39). -/

namespace Sys2Proof.Machine

/-- What an activation may reach. -/
def activateAreas : List Area := reporting [.rf, .mem, .pln, .srv, .lanes, .lsh, .ques, .tcs, .svc, .pwr, .chans, .grps, .lins, .ana]

/-- A command that makes a slice active, from a state that differs from `s` in neither lanes, registers nor active slice. -/
theorem activate_runs {c : Instr} {s u : State} {x : Slice} {src : Nat} (hx : exec c s = .next (activate x src u)) (hu : Only (reporting [.pln]) s u)
    (ha : u.pln.active = s.pln.active) : Runs c s activateAreas (Made s x src) :=
  .of_only hx rfl (Only.next (activate_only x src u) rfl (hu.mono rfl)) (activate_made (hu.same .lanes (by decide)) (hu.same .rf (by decide)) ha x src)

/-! ## Loading (R26, R34, R39) -/

/-- The loaded slice's verdict. -/
abbrev loadErr (s : State) : Nat := sliceErr s.pln.loadBuf s.pln.loadOver s

theorem goSlice_reject {s : State} (he : loadErr s ≠ 0) : goSlice s = rejectSlice (loadErr s) (emptyLoad s) := if_pos he

theorem goSlice_active {s : State} (he : loadErr s = 0) (ha : s.pln.active ≠ none) : goSlice s = emptyLoad s :=
  (if_neg (not_not_intro he)).trans (if_pos (Option.isSome_iff_ne_none.mpr ha))

theorem goSlice_activate {s : State} (he : loadErr s = 0) (ha : s.pln.active = none) : goSlice s = activate (sliceOf s.pln.loadBuf s) 1 (emptyLoad s) :=
  (if_neg (not_not_intro he)).trans (if_neg (by
    rw [emptyLoad_pln, ha]
    decide))

/-- A loaded slice that fails a check is rejected and the buffer emptied. -/
theorem rejectLoad_runs {c : Instr} {e : Nat} {s : State} (hx : exec c s = .next (rejectSlice e (emptyLoad s))) : Runs c s (reporting [.pln]) fun t =>
    t.pln = { s.pln with loadBuf := [], loadOver := false, err := e } ∧ Latched pgPLN plnSLICEREJ t :=
  .of_only hx rfl (Only.next (rejectSlice_only _ _) rfl ((emptyLoad_only s).mono rfl)) ⟨by rw [rejectSlice_pln, emptyLoad_pln], rejectSlice_latched _ _⟩

section
variable {r : Req} {s : State} (hg : (page pgPLN s).freeze = false)
include hg

/-- LOAD_DATA as it acts on the buffer. -/
theorem loadDataWrite_runs (v : Word) : Runs (.loadDataWrite r v) s [.pln, .pages] fun t =>
    t.pln = if sliceMax < s.pln.loadBuf.length + 4 then { s.pln with loadOver := true } else { s.pln with loadBuf := s.pln.loadBuf ++ leBytes 4 v.toNat } := by
  refine .of_only rfl (gated_open hg _) (Only.next (modPln_only _ _) rfl (.ite ((bumpGen_only _ s).mono rfl) (.refl _ s))) ?_
  have hpln : (if s.pln.loadBuf = [] then bumpGen pgPLN s else s).pln = s.pln := by split <;> rfl
  rw [State.modPln_pln, hpln]

theorem exec_loadGo : exec (.loadGo r) s = .next (goSlice s) := congrArg Host.Outcome.next (gated_open hg goSlice)

/-- STAGE of an acceptable slice. -/
theorem stage_runs (he : loadErr s = 0) : Runs (.stage r) s (reporting [.pln]) fun t =>
    t.pln = { s.pln with loadBuf := [], loadOver := false, pend := some (sliceOf s.pln.loadBuf s), pendSrc := 1 } ∧ Latched pgPLN plnSTAGED t :=
  .of_only rfl ((gated_open hg _).trans (if_neg (not_not_intro he))) (Only.next (stageSlice_only _ _ _) rfl ((emptyLoad_only s).mono rfl))
    ⟨by rw [stageSlice_pln, emptyLoad_pln], stageSlice_latched _ _ _⟩

theorem exec_stage_reject (he : loadErr s ≠ 0) : exec (.stage r) s = .next (rejectSlice (loadErr s) (emptyLoad s)) :=
  congrArg Host.Outcome.next ((gated_open hg _).trans (if_pos he))

theorem discard_runs : Runs (.discard r) s [.pages, .pln, .lanes, .lsh] fun t =>
    t.pln = { s.pln with loadBuf := [], loadOver := false, pend := none, armed := none } := by
  refine .of_only rfl (gated_open hg _) (Only.next (journal_only _ _) rfl (Only.next (bumpGen_only _ _) rfl (Only.next (modPln_only _ _) rfl ((emptyLoad_only s).mono rfl)))) ?_
  exact ((journal_only _ _).same .pln (by decide)).trans rfl

end

/-! ## RECHECK (R31) -/

/-- The exchange number that RECHECK leaves at a port. -/
def recheckXn (p : Nat) (s : State) : Nat :=
  if (port p s).q = true ∧ ((lane p s).state = 2 ∨ (lane p s).state = 3) then ((lane p s).xn + 1) % 256 else (lane p s).xn

theorem recheckPort_of_ne {p q : Nat} (h : q ≠ p) (s : State) : lane q (recheckPort s p) = lane q s := by
  unfold recheckPort
  split
  · rw [sendCap, lane_modLane_of_ne _ h, lane_modLane_of_ne _ h]
  · rfl

theorem recheckPort_xn (p : Nat) (s : State) : (lane p (recheckPort s p)).xn = recheckXn p s := by
  unfold recheckPort recheckXn
  split
  · rw [sendCap, lane_modLane_self, lane_modLane_self]
  · rfl

theorem rechecked_xn (s : State) {p : Nat} (hp : p < 24) : (lane p ((List.range 24).foldl recheckPort s)).xn = recheckXn p s := by
  obtain ⟨t, ht, hst, hft⟩ := unit_foldl_of_mem (unit := lane) (P := fun t => t.pln = s.pln) (f := recheckPort) (s := s)
    (fun t ht k => ((recheckPort_only t k).same .pln (by decide)).trans ht) (fun t _ j k hjk => recheckPort_of_ne hjk t) rfl List.nodup_range (List.mem_range.mpr hp)
  rw [hft, recheckPort_xn, recheckXn, recheckXn, hst, port_congr ht]

theorem recheck_runs {r : Req} {s : State} (hg : (page pgPLN s).freeze = false) :
    Runs (.recheck r) s [.lanes] fun t => ∀ p, p < 24 → (lane p t).xn = recheckXn p s :=
  .of_only rfl (gated_open hg _) (Only.foldl recheckPort_only _ s) fun _ hp => rechecked_xn s hp

/-! ## The search for a slice (R27) -/

section
variable {s : State} (hn : s.pln.active = none) (hs : s.pln.strapErr = false) (hr : s.pln.role ≠ 3)
include hn hs hr

theorem exec_sliceSearch_loaded (hb : s.pln.loadBuf ≠ []) (he : loadErr s = 0) : exec .sliceSearch s = .next (activate (sliceOf s.pln.loadBuf s) 1 (emptyLoad s)) := by
  have hgo : ¬((s.pln.active.isSome : Prop) ∨ (s.pln.strapErr : Prop) ∨ s.pln.role = 3) := by simp [hn, hs, hr]
  refine congrArg Host.Outcome.next ((if_neg hgo).trans ?_)
  rw [if_neg hb, goSlice_activate he hn]
  exact searchStep_active (by rw [activate_pln]; rfl) _

theorem exec_sliceSearch_flash (hb : s.pln.loadBuf = []) : exec .sliceSearch s = .next ((flashSlices s).foldl searchStep s) := by
  have hgo : ¬((s.pln.active.isSome : Prop) ∨ (s.pln.strapErr : Prop) ∨ s.pln.role = 3) := by simp [hn, hs, hr]
  refine congrArg Host.Outcome.next ((if_neg hgo).trans ?_)
  rw [if_pos hb]
  rfl

theorem sliceSearch_loaded_runs (hb : s.pln.loadBuf ≠ []) (he : loadErr s = 0) : Runs .sliceSearch s activateAreas (Made s (sliceOf s.pln.loadBuf s) 1) :=
  activate_runs (exec_sliceSearch_loaded hn hs hr hb he) ((emptyLoad_only s).mono rfl) rfl

theorem sliceSearch_found_runs {b : List Byte} (hb : s.pln.loadBuf = []) (hf : (flashSlices s).find? (fun b => sliceErr b false s = 0) = some b) :
    Runs .sliceSearch s activateAreas (Made s (sliceOf b s) 2) := by
  obtain ⟨w, hw, he⟩ := search_found hn hf (Rejected.refl s)
  exact activate_runs ((exec_sliceSearch_flash hn hs hr hb).trans (congrArg _ he)) hw.only (by rw [hw.pln])

theorem sliceSearch_none_runs {b : List Byte} (hb : s.pln.loadBuf = []) (hf : (flashSlices s).find? (fun b => sliceErr b false s = 0) = none)
    (hl : (flashSlices s).getLast? = some b) :
    Runs .sliceSearch s (reporting [.pln]) fun t => t.pln = { s.pln with err := sliceErr b false s } ∧ Latched pgPLN plnSLICEREJ t := by
  obtain ⟨w, hw, he⟩ := search_none hn hf hl
  exact .of_only (exec_sliceSearch_flash hn hs hr hb) he (hw.reject _).only ⟨by rw [rejectSlice_pln, hw.pln], rejectSlice_latched _ _⟩

end

/-! ## Requests (R27, R28) -/

/-- The request for a slice, hop-local, its segment fields unknown. -/
def sliceReqBlk (pos : Nat) : CtrlBlk := { dseg := 0, dhub := 125, sseg := 0, shub := pos, sub := 0x08, subByte := 1, fields := pos, more := [] }

/-- The request goes out on every quarantined port that has lock. -/
theorem sendSliceReq_asks (s : State) : (sendSliceReq s).pln = { s.pln with req := true } ∧ ∀ p, p < 24 → (port p s).q = true → 2 ≤ (lane p s).state →
    (lane p (sendSliceReq s)).ctl = (lane p s).ctl ++ [(sliceReqBlk s.pln.pos).toTx] := by
  refine ⟨((sendCtrlAll_only _ _ _).same .pln (by decide)).trans rfl, fun p hp hq hl => ?_⟩
  refine ctl_sendCtrlAll (c := sliceReqBlk s.pln.pos) (.of_sub 0x08 rfl (by decide)) (List.nodup_range.filter _) (bumpGen pgPLN (s.modPln fun l => { l with req := true })) ?_
  exact List.mem_filter.mpr ⟨List.mem_range.mpr hp, by simpa using ⟨hq, hl⟩⟩

section
variable {s : State} (hw : wantsSlice s = true)
include hw

theorem sliceReqTimer_runs (hr : s.pln.retryWait = false) : Runs .sliceReqTimer s [.pages, .pln, .lanes] fun t =>
    t.pln = { s.pln with req := true } ∧ ∀ p, p < 24 → (port p s).q = true → 2 ≤ (lane p s).state → (lane p t).ctl = (lane p s).ctl ++ [(sliceReqBlk s.pln.pos).toTx] :=
  .of_only rfl (if_pos ⟨hw, hr⟩) (sendSliceReq_only s) (sendSliceReq_asks s)

theorem sliceRetryTimer_runs (hr : s.pln.retryWait = true) : Runs .sliceRetryTimer s [.pages, .pln, .lanes] fun t =>
    t.pln = { s.pln with req := true, retryWait := false } ∧
    ∀ p, p < 24 → (port p s).q = true → 2 ≤ (lane p s).state → (lane p t).ctl = (lane p s).ctl ++ [(sliceReqBlk s.pln.pos).toTx] := by
  obtain ⟨hpln, hctl⟩ := sendSliceReq_asks (s.modPln fun l => { l with retryWait := false })
  exact .of_only rfl ((if_pos hr).trans (if_pos hw)) (Only.next (sendSliceReq_only _) rfl ((modPln_only _ s).mono rfl)) ⟨hpln, hctl⟩

end

/-! ## A slice served (R28) -/

/-- What of a slice has come, one part more. -/
def partTaken (b : SlicePart) (s : State) : FMap Byte := FMap.putAll (fun _ => 0) s.pln.dl b.off (b.bytes.take 96)

/-- How far what has come reaches. -/
def partReach (b : SlicePart) (s : State) : Nat := max s.pln.dlLen (b.off + b.bytes.length)

/-- The length that the header which has come gives. -/
def partLen (b : SlicePart) (s : State) : Nat := leNat ((List.range 4).map fun k => FMap.get (fun _ => (0 : Byte)) (partTaken b s) (72 + k))

/-- The slice that has come whole. -/
def partWhole (b : SlicePart) (s : State) : List Byte := FMap.getAll (fun _ => 0) (partTaken b s) 0 (partLen b s)

/-- The verdict on a served slice: the checks, and the digest that the manager holds. -/
def servedErr (w : List Byte) (held : Option Nat) (s : State) : Nat :=
  if sliceErr w false s = 0 ∧ held ≠ none ∧ held ≠ some (sliceOf w s).digest then 2 else sliceErr w false s

/-- The part kept. -/
def keepPart (b : SlicePart) (s : State) : State :=
  (if s.pln.dl = [] ∧ s.pln.active.isNone then bumpGen pgPLN s else s).modPln fun l =>
    { l with dl := FMap.putAll (fun _ => 0) l.dl b.off (b.bytes.take 96), dlLen := max l.dlLen (b.off + b.bytes.length) }

theorem keepPart_pln (b : SlicePart) (s : State) : (keepPart b s).pln = { s.pln with dl := partTaken b s, dlLen := partReach b s } := by
  unfold keepPart
  split <;> rfl

theorem keepPart_only (b : SlicePart) (s : State) : Only [.pln, .pages] s (keepPart b s) :=
  Only.next (modPln_only _ _) rfl (.ite ((bumpGen_only _ s).mono rfl) (.refl _ s))

theorem keepPart_verdict (b : SlicePart) (w : List Byte) (s : State) : sliceErr w false (keepPart b s) = sliceErr w false s ∧ sliceOf w (keepPart b s) = sliceOf w s := by
  have hp := keepPart_pln b s
  exact sliceErr_congr (by rw [hp]) (by rw [hp]) (by rw [hp]) (by rw [hp]) ((keepPart_only b s).same .fuse (by decide)) w false

section
variable {s : State} {b : SlicePart} {held : Option Nat} (hw : wantsSlice s = true) (hr : s.pln.retryWait = false) (ho : b.off < sliceMax)
include hw hr ho

theorem exec_sliceDataReceive : exec (.sliceDataReceive b held) s = .next
    (if partLen b s = 0 ∨ partReach b s < partLen b s then keepPart b s else takeServed (partWhole b s) held (keepPart b s)) := by
  have hgo : ¬(wantsSlice s = false ∨ (s.pln.retryWait : Prop) ∨ sliceMax ≤ b.off) := by simp [hw, hr, ho]
  have hk := keepPart_pln b s
  refine congrArg Host.Outcome.next ((if_neg hgo).trans ?_)
  change (if leNat ((List.range 4).map fun k => FMap.get (fun _ => (0 : Byte)) (keepPart b s).pln.dl (72 + k)) = 0 ∨
      (keepPart b s).pln.dlLen < leNat ((List.range 4).map fun k => FMap.get (fun _ => (0 : Byte)) (keepPart b s).pln.dl (72 + k)) then keepPart b s
    else takeServed (FMap.getAll (fun _ => 0) (keepPart b s).pln.dl 0
      (leNat ((List.range 4).map fun k => FMap.get (fun _ => (0 : Byte)) (keepPart b s).pln.dl (72 + k)))) held (keepPart b s)) = _
  rw [hk]
  rfl

theorem sliceData_part_runs (h : partLen b s = 0 ∨ partReach b s < partLen b s) :
    Runs (.sliceDataReceive b held) s [.pln, .pages] fun t => t.pln = { s.pln with dl := partTaken b s, dlLen := partReach b s } :=
  .of_only (exec_sliceDataReceive hw hr ho) (if_pos h) (keepPart_only b s) (keepPart_pln b s)

theorem exec_sliceData_whole (h0 : partLen b s ≠ 0) (hlen : partLen b s ≤ partReach b s) :
    exec (.sliceDataReceive b held) s = .next (takeServed (partWhole b s) held (keepPart b s)) := by
  rw [exec_sliceDataReceive hw hr ho, if_neg (not_or.mpr ⟨h0, Nat.not_lt.mpr hlen⟩)]

end

/-- The state in which a served slice is judged. -/
def clearDl (s : State) : State := s.modPln fun l => { l with dl := [], dlLen := 0 }

theorem servedErr_keepPart (b : SlicePart) (w : List Byte) (held : Option Nat) (s : State) : servedErr w held (keepPart b s) = servedErr w held s := by
  obtain ⟨he, ho⟩ := keepPart_verdict b w s
  rw [servedErr, he, ho, servedErr]

theorem takeServed_reject {w : List Byte} {held : Option Nat} {s : State} (h : servedErr w held s ≠ 0) :
    takeServed w held s = rejectSlice (servedErr w held s) ((clearDl s).modPln fun l => { l with retryWait := true }) := by
  have he : (if sliceErr w false s = 0 ∧ (held.isSome : Prop) ∧ held ≠ some (sliceOf w s).digest then 2 else sliceErr w false s) = servedErr w held s := by
    simp only [servedErr, Option.isSome_iff_ne_none]
  unfold takeServed
  dsimp only
  rw [he, if_pos h]
  rfl

theorem takeServed_activate {w : List Byte} {held : Option Nat} {s : State} (h : servedErr w held s = 0) :
    takeServed w held s = if s.pln.missed then (List.range 24).foldl recheckAny (activate (sliceOf w s) 3 (clearDl s)) else activate (sliceOf w s) 3 (clearDl s) := by
  have he : (if sliceErr w false s = 0 ∧ (held.isSome : Prop) ∧ held ≠ some (sliceOf w s).digest then 2 else sliceErr w false s) = servedErr w held s := by
    simp only [servedErr, Option.isSome_iff_ne_none]
  unfold takeServed
  dsimp only
  rw [he, if_neg (not_not_intro h)]
  rfl

section
variable {s : State} {b : SlicePart} {held : Option Nat} (hw : wantsSlice s = true) (hr : s.pln.retryWait = false) (ho : b.off < sliceMax) (h0 : partLen b s ≠ 0)
  (hlen : partLen b s ≤ partReach b s)
include hw hr ho h0 hlen

theorem sliceData_reject_runs (he : servedErr (partWhole b s) held s ≠ 0) : Runs (.sliceDataReceive b held) s (reporting [.pln]) fun t =>
    t.pln = { s.pln with dl := [], dlLen := 0, retryWait := true, err := servedErr (partWhole b s) held s } ∧ Latched pgPLN plnSLICEREJ t := by
  have hk := servedErr_keepPart b (partWhole b s) held s
  refine .of_only (exec_sliceData_whole hw hr ho h0 hlen) (takeServed_reject (hk ▸ he)) (Only.next (rejectSlice_only _ _) rfl (Only.next (modPln_only _ _) rfl
    (Only.next (modPln_only _ _) rfl ((keepPart_only b s).mono rfl)))) ⟨?_, rejectSlice_latched _ _⟩
  rw [rejectSlice_pln, hk, State.modPln_pln, clearDl, State.modPln_pln, keepPart_pln]

theorem sliceData_made_runs (he : servedErr (partWhole b s) held s = 0) : Runs (.sliceDataReceive b held) s activateAreas (Made s (sliceOf (partWhole b s) s) 3) := by
  have hk : servedErr (partWhole b s) held (keepPart b s) = 0 := (servedErr_keepPart b _ held s).trans he
  have hcut : Only [.pln, .pages] s (clearDl (keepPart b s)) := Only.next (modPln_only _ _) rfl (keepPart_only b s)
  have hactive : (clearDl (keepPart b s)).pln.active = s.pln.active := by rw [clearDl, State.modPln_pln, keepPart_pln]
  have hmade := activate_made (hcut.same .lanes (by decide)) (hcut.same .rf (by decide)) hactive (sliceOf (partWhole b s) s) 3
  have honly : Only activateAreas s (activate (sliceOf (partWhole b s) s) 3 (clearDl (keepPart b s))) := Only.next (activate_only _ _ _) rfl (hcut.mono rfl)
  refine .of_only (exec_sliceData_whole hw hr ho h0 hlen) ((takeServed_activate hk).trans (by rw [(keepPart_verdict b _ s).2])) (.ite ?_ honly) ?_
  · exact honly.trans ((Only.foldl recheckAny_only _ _).mono rfl)
  · split
    · exact hmade.stands (.foldl recheckAny_stand _ _) (Only.foldl recheckAny_only _ _)
    · exact hmade

end

/-! ## A manager (R27, R28, R302) -/

/-- The segment of a request: that of the port where its own is unknown. -/
def reqSeg (p seg : Nat) (unknown : Bool) (s : State) : Nat := if unknown then (portPlan p s).seg else seg

/-- The segment whose pair serves a request: the head's for a manager. -/
def reqTarget (p seg pos : Nat) (unknown : Bool) (s : State) : Nat :=
  if (if unknown then decide ((portPlan p s).role = 1) else decide (pos = 0) || decide (pos = 127)) then 0 else reqSeg p seg unknown s

/-- The request as it goes on to the holder that serves it. -/
def reqOnBlk (p seg pos : Nat) (unknown : Bool) (s : State) : CtrlBlk :=
  { dseg := reqTarget p seg pos unknown s, dhub := holderOf (reqTarget p seg pos unknown s) s, sseg := reqSeg p seg unknown s, shub := pos, sub := 0x08, subByte := 0,
    fields := pos, more := [] }

section
variable {port_ : Port} {seg pos : Nat} {unknown : Bool} {s : State} {a : Slice} (ha : s.pln.active = some a)
include ha

theorem sliceReqReceive_here_runs (hm : isManager s = true) (hs : mySeg s = reqTarget port_.val seg pos unknown s) (hh : isHolder s = true)
    (hq : ∀ y ∈ s.pln.serveQ, y.2 ≠ reqSeg port_.val seg unknown s * 128 + pos) : Runs (.sliceReqReceive port_ seg pos unknown) s [.pln] fun t =>
      t.pln = { s.pln with serveQ := s.pln.serveQ ++ [(port_.val, reqSeg port_.val seg unknown s * 128 + pos)] } := by
  have hnew : (s.pln.serveQ.any fun x => decide (x.2 = reqSeg port_.val seg unknown s * 128 + pos)) = false := by
    rw [List.any_eq_false]
    exact fun y hy => by simpa using hq y hy
  refine .of_only (u := s.modPln fun l => { l with serveQ :=
    if (l.serveQ.any fun x => decide (x.2 = reqSeg port_.val seg unknown s * 128 + pos)) = true then l.serveQ else l.serveQ ++ [(port_.val, reqSeg port_.val seg unknown s * 128 + pos)] })
    ?_ rfl (modPln_only _ s) ?_
  · change execSliceReqReceive port_ seg pos unknown s = _
    unfold execSliceReqReceive
    rw [ha]
    exact congrArg Host.Outcome.next (if_pos ⟨hm, hs, hh⟩)
  · rw [State.modPln_pln, if_neg (by rw [hnew]; decide)]

theorem sliceReqReceive_on_runs (hn : (isManager s && decide (mySeg s = reqTarget port_.val seg pos unknown s) && isHolder s) = false) :
    Runs (.sliceReqReceive port_ seg pos unknown) s [.lanes] fun t =>
      ∀ p ∈ routePorts (reqTarget port_.val seg pos unknown s) (holderOf (reqTarget port_.val seg pos unknown s) s) s,
        (reqOnBlk port_.val seg pos unknown s).toTx ∈ (lane p t).ctl := by
  have hne : ¬((isManager s : Prop) ∧ mySeg s = reqTarget port_.val seg pos unknown s ∧ (isHolder s : Prop)) := by
    rintro ⟨hm, hs, hh⟩
    rw [hm, hh, decide_eq_true hs] at hn
    exact absurd hn (by decide)
  refine .of_only (u := sendCtrl (reqOnBlk port_.val seg pos unknown s) s) ?_ rfl (sendCtrl_only _ s) fun p hp => mem_ctl_sendCtrlAll (.of_sub 0x08 rfl (by decide)) s hp
  change execSliceReqReceive port_ seg pos unknown s = _
  unfold execSliceReqReceive
  rw [ha]
  exact congrArg Host.Outcome.next (if_neg hne)

end

/-- The blocks of a slice are plain, and addressed to the device that asked. -/
theorem sliceBlocks_addressed (dseg dhub : Nat) (s : State) (n off : Nat) (bs : List Byte) :
    ∀ c ∈ sliceBlocks dseg dhub s n off bs, c.plain ∧ c.dseg = dseg ∧ c.dhub = dhub := by
  fun_induction sliceBlocks dseg dhub s n off bs with
  | case1 => exact fun _ h => absurd h List.not_mem_nil
  | case2 => exact fun _ h => absurd h List.not_mem_nil
  | case3 n off bs hbs ws ih =>
    intro c hc
    rcases List.mem_cons.mp hc with rfl | hc
    · exact ⟨.of_sub 0x09 rfl (by decide), rfl, rfl⟩
    · exact ih c hc

theorem sliceBlocks_congr {s t : State} (h : ∀ dseg dhub sub subByte fields more, ctrlBlk dseg dhub sub subByte fields more t = ctrlBlk dseg dhub sub subByte fields more s)
    (dseg dhub n off : Nat) (bs : List Byte) : sliceBlocks dseg dhub t n off bs = sliceBlocks dseg dhub s n off bs := by
  induction n generalizing off bs with
  | zero => rfl
  | succ n ih =>
    cases bs with
    | nil => rfl
    | cons b bs => simp only [sliceBlocks, h, ih]

/-- The state in which the oldest request is served. -/
def dequeue (rest : List (Nat × Nat)) (s : State) : State := s.modPln fun l => { l with serveQ := rest }

/-- The oldest request served: its slice in blocks of 96 bytes. -/
theorem sliceServe_runs {s : State} {q dev : Nat} {rest : List (Nat × Nat)} {bs : List Byte} (hq : s.pln.serveQ = (q, dev) :: rest)
    (hx : (s.pln.store.find? (·.1 = dev)).or (flashSlice dev s) = some (dev, bs)) : Runs .sliceServe s [.pln, .lanes] fun t =>
      t.pln = { s.pln with serveQ := rest } ∧
      ∀ p ∈ routePorts (dev / 128) (dev % 128) s, (lane p t).ctl = (lane p s).ctl ++ (sliceBlocks (dev / 128) (dev % 128) s (bs.length / 96 + 1) 0 bs).map CtrlBlk.toTx := by
  have hsent : Only [.lanes] (dequeue rest s) ((sliceBlocks (dev / 128) (dev % 128) s (bs.length / 96 + 1) 0 bs).foldl (fun s c => sendCtrl c s) (dequeue rest s)) :=
    Only.foldl (fun t c => sendCtrl_only c t) _ _
  refine .of_only (u := (sliceBlocks (dev / 128) (dev % 128) s (bs.length / 96 + 1) 0 bs).foldl (fun s c => sendCtrl c s) (dequeue rest s)) ?_ rfl
    (Only.next hsent rfl ((modPln_only _ s).mono rfl)) ⟨hsent.same .pln (by decide), fun p hp => ?_⟩
  · change execSliceServe s = _
    have hfind : ((dequeue rest s).pln.store.find? (·.1 = dev)).or (flashSlice dev (dequeue rest s)) = some (dev, bs) := hx
    unfold execSliceServe
    rw [hq]
    change Host.Outcome.next (match ((dequeue rest s).pln.store.find? (·.1 = dev)).or (flashSlice dev (dequeue rest s)) with
      | some x => (sliceBlocks (dev / 128) (dev % 128) (dequeue rest s) (x.2.length / 96 + 1) 0 x.2).foldl (fun s c => sendCtrl c s) (dequeue rest s)
      | none => dequeue rest s) = _
    rw [hfind]
    dsimp only
    rw [sliceBlocks_congr (s := s) (t := dequeue rest s) fun _ _ _ _ _ _ => rfl]
  · exact ctl_sendCtrls (sliceBlocks_addressed _ _ s _ 0 bs) (dequeue rest s) hp

/-- Settles O44: loading, the search, the requests, and what a manager and its client make of them. -/
theorem planSlicesAreLoadedAndServed : Obligations.PlanSlicesAreLoadedAndServed := by
  unfold Obligations.PlanSlicesAreLoadedAndServed
  intro r v port_ seg pos off q dev unknown held bytes b bs a rest s l e x out wide emptied made dl dlLen len whole es u rseg mgr target asks
  refine ⟨fun hg => ⟨fun h => ?_, fun h => ?_, fun he => ⟨?_, ?_⟩, fun he => ⟨fun ha => ?_, fun ha => ?_, ?_⟩, ?_, recheck_runs hg⟩,
    fun ha hs hr hb he => sliceSearch_loaded_runs ha hs hr hb he, fun ha hs hr hb => ⟨sliceSearch_found_runs ha hs hr hb, sliceSearch_none_runs ha hs hr hb⟩,
    fun hw => ⟨fun hr => ?_, fun hr => ?_, fun hr ho => ⟨fun h => sliceData_part_runs (b := ⟨off, bytes⟩) hw hr ho h, fun h0 hl => ⟨fun he => ?_, fun he => ?_⟩⟩⟩,
    fun ha => ⟨fun hm hs hh hq => sliceReqReceive_here_runs ha hm hs hh hq, fun hn => sliceReqReceive_on_runs ha hn⟩, fun hq hx => sliceServe_runs hq hx⟩
  · obtain ⟨t, hx, ht, hp⟩ := loadDataWrite_runs hg v
    exact ⟨t, hx, ht, hp.trans (if_neg (Nat.not_lt.mpr h))⟩
  · obtain ⟨t, hx, ht, hp⟩ := loadDataWrite_runs hg v
    exact ⟨t, hx, ht, hp.trans (if_pos h)⟩
  · exact rejectLoad_runs ((exec_loadGo hg).trans (congrArg _ (goSlice_reject he)))
  · exact rejectLoad_runs (exec_stage_reject hg he)
  · exact activate_runs ((exec_loadGo hg).trans (congrArg _ (goSlice_activate he ha))) ((emptyLoad_only s).mono rfl) rfl
  · exact .of_only (exec_loadGo hg) (goSlice_active he ha) (emptyLoad_only s) (emptyLoad_pln s)
  · exact stage_runs hg he
  · exact discard_runs hg
  · obtain ⟨t, hx, ht, hp, hc⟩ := sliceReqTimer_runs hw hr
    have hwait : t.pln.retryWait = false := by rw [hp, hr]
    exact ⟨t, hx, ht, ⟨by rw [hwait, hp, ← hr], hc⟩, hwait⟩
  · obtain ⟨t, hx, ht, hp, hc⟩ := sliceRetryTimer_runs hw hr
    have hwait : t.pln.retryWait = false := by rw [hp]
    exact ⟨t, hx, ht, ⟨by rw [hwait, hp], hc⟩, hwait⟩
  · exact sliceData_reject_runs (b := ⟨off, bytes⟩) hw hr ho h0 hl he
  · exact sliceData_made_runs (b := ⟨off, bytes⟩) hw hr ho h0 hl he

end Sys2Proof.Machine
end

section
/-! PROOF. The plan changes at its second (R34, R36, R37). -/

namespace Sys2Proof.Machine

/-! ## The pending slice and its second (R36) -/

theorem Latched.bumpGen {q b : Nat} {s : State} (h : Latched q b s) (p : Nat) : Latched q b (bumpGen p s) := by
  by_cases hq : q = p
  · subst hq
    rw [Latched, Machine.bumpGen, page_modPage_self]
    exact h
  · rw [Latched, Machine.bumpGen, page_modPage_of_ne s hq]
    exact h

theorem Latched.armAt {q b : Nat} {s : State} (h : Latched q b s) (sec : Nat) : Latched q b (armAt sec s) :=
  .bumpGen (.only (.only (.only h (modPln_only _ s) rfl) (rfPut_only _ _ _) rfl) (rfPut_only _ _ _) rfl) pgPLN

/-- A second as its two registers read. -/
def secReads (sec : Nat) (t : State) : Prop := (rfGet 0x0507C t).toNat = sec % 2 ^ 32 ∧ (rfGet 0x05080 t).toNat = sec / 2 ^ 32 % 2 ^ 32

theorem armAt_reads (sec : Nat) (s : State) : secReads sec (armAt sec s) := by
  obtain ⟨hlo, hhi, -⟩ := rfGet_armAt sec s
  exact ⟨by rw [hlo, BitVec.toNat_ofNat], by rw [hhi, BitVec.toNat_ofNat]⟩

/-- The second armed and told below, after what was made of the slice. -/
theorem armTold (sec : Nat) (s : State) : (tellPend sec (armAt sec s)).pln = { s.pln with armed := some sec } ∧ secReads sec (tellPend sec (armAt sec s)) ∧
    ∀ q b, Latched q b s → Latched q b (tellPend sec (armAt sec s)) := by
  have ho := tellPend_only sec (armAt sec s)
  refine ⟨(ho.same .pln (by decide)).trans (armAt_pln sec s), ?_, fun q b h => (h.armAt sec).only ho rfl⟩
  rw [secReads, rfGet_congr (ho.same .rf (by decide)), rfGet_congr (ho.same .rf (by decide))]
  exact armAt_reads sec s

/-- The announcement of a pending slice and its second. -/
def pendBlk (sec : Nat) (y : Slice) (s : State) : CtrlBlk :=
  ctrlBlk 0 126 0x0A 0 sec [BitVec.ofNat 128 y.num, BitVec.ofNat 128 y.planDigest, BitVec.ofNat 128 (y.planDigest / 2 ^ 128)] s

/-- A manager tells every ring below of the pending slice. -/
theorem tellPend_told {sec : Nat} {y : Slice} {s : State} (hp : s.pln.pend = some y) (hm : isManager s = true) {p : Nat} (h : p ∈ ringPorts s) :
    (pendBlk sec y s).toTx ∈ (lane p (tellPend sec s)).ctl := by
  rw [tellPend, hp]
  dsimp only
  rw [if_pos hm]
  exact mem_ctl_sendCtrlAll (.of_sub 0x0A rfl (by decide)) s h

section
variable {bytes : List Byte} {sec : Nat} {s : State}

theorem pendSliceReceive_reject_runs (he : sliceErr bytes false s ≠ 0) : Runs (.pendSliceReceive bytes sec) s (reporting [.pln, .rf, .lanes]) fun t =>
    t.pln = { s.pln with err := sliceErr bytes false s, armed := some sec } ∧ secReads sec t ∧ Latched pgPLN plnSLICEREJ t := by
  obtain ⟨hp, hr, hl⟩ := armTold sec (rejectSlice (sliceErr bytes false s) s)
  refine .of_only (u := tellPend sec (armAt sec (if sliceErr bytes false s ≠ 0 then rejectSlice (sliceErr bytes false s) s else stageSlice (sliceOf bytes s) 3 s))) rfl
    (by rw [if_pos he]) (Only.next (tellPend_only _ _) rfl (Only.next (armAt_only _ _) rfl ((rejectSlice_only _ s).mono rfl))) ⟨?_, hr, hl _ _ (rejectSlice_latched _ s)⟩
  rw [hp, rejectSlice_pln]

theorem pendSliceReceive_stage_runs (he : sliceErr bytes false s = 0) : Runs (.pendSliceReceive bytes sec) s (reporting [.pln, .rf, .lanes]) fun t =>
    t.pln = { s.pln with pend := some (sliceOf bytes s), pendSrc := 3, armed := some sec } ∧ secReads sec t ∧ Latched pgPLN plnSTAGED t ∧
    (isManager s = true → ∀ p ∈ ringPorts s, (pendBlk sec (sliceOf bytes s) s).toTx ∈ (lane p t).ctl) := by
  have hstaged := stageSlice_pln (sliceOf bytes s) 3 s
  generalize hu : armAt sec (stageSlice (sliceOf bytes s) 3 s) = u
  have hpln : u.pln = { s.pln with pend := some (sliceOf bytes s), pendSrc := 3, armed := some sec } := by rw [← hu, armAt_pln, hstaged]
  obtain ⟨hp, hr, hl⟩ := armTold sec (stageSlice (sliceOf bytes s) 3 s)
  rw [hu] at hp hr hl
  refine .of_only (u := tellPend sec (armAt sec (if sliceErr bytes false s ≠ 0 then rejectSlice (sliceErr bytes false s) s else stageSlice (sliceOf bytes s) 3 s)))
    (t := tellPend sec u) rfl (by rw [if_neg (not_not_intro he), hu]) ?_ ⟨by rw [hp, hstaged], hr, hl _ _ (stageSlice_latched _ _ s), fun hm p h => ?_⟩
  · exact Only.next (tellPend_only _ _) rfl (hu ▸ Only.next (armAt_only _ _) rfl ((stageSlice_only _ _ s).mono rfl))
  · have hring : ringPorts u = ringPorts s := (eq_of_pln (f := ringPorts) (fun _ => rfl) (s := { pln := { s.pln with pend := some (sliceOf bytes s), pendSrc := 3, armed := some sec } }) hpln).trans rfl
    have hblk : pendBlk sec (sliceOf bytes s) u = pendBlk sec (sliceOf bytes s) s :=
      (eq_of_pln (f := pendBlk sec (sliceOf bytes s)) (fun _ => rfl) (s := { pln := { s.pln with pend := some (sliceOf bytes s), pendSrc := 3, armed := some sec } }) hpln).trans rfl
    have hman : isManager u = isManager s := by rw [isManager, hpln, isManager]
    exact hblk ▸ tellPend_told (by rw [hpln]) (hman.trans hm) (hring.symm ▸ h)

end

/-! ## The activation second (R36, R37) -/

/-- The state in which the pending slice becomes active. -/
def atSecond (s : State) : State :=
  (bumpGen pgPLN (s.modPln fun l => { l with armed := none })).modPln fun l => { l with pend := none, oldId := s.pln.active.map fun a => (a.num, a.planDigest) }

theorem atSecond_only (s : State) : Only [.pages, .pln] s (atSecond s) := Only.next (modPln_only _ _) rfl (Only.next (bumpGen_only _ _) rfl ((modPln_only _ s).mono rfl))

section
variable {sec : Nat} {s : State} (ha : s.pln.armed = some sec) (hs : sec ≤ s.tim.sec)
include ha hs

theorem planActivation_missed_runs (hp : s.pln.pend = none) : Runs .planActivation s (reporting [.pln]) fun t =>
    t.pln = { s.pln with armed := none, missed := true } ∧ Latched pgPLN plnMISSED t := by
  refine .of_only (u := raise pgPLN plnMISSED 0 (condStart pgPLN plnMISSED 0 ((bumpGen pgPLN (s.modPln fun l => { l with armed := none })).modPln fun l => { l with missed := true })))
    ?_ rfl (Only.next (raise_only _ _ _ _) rfl (Only.next (condStart_only _ _ _ _) rfl (Only.next (modPln_only _ _) rfl (Only.next (bumpGen_only _ _) rfl ((modPln_only _ s).mono rfl)))))
    ⟨?_, raise_latched _ _ (by decide) (by decide)⟩
  · change execPlanActivation s = _
    unfold execPlanActivation
    rw [ha]
    refine congrArg Host.Outcome.next ((if_neg (Nat.not_lt.mpr hs)).trans ?_)
    have hpend : (bumpGen pgPLN (s.modPln fun l => { l with armed := none })).pln.pend = none := hp
    dsimp only
    rw [hpend]
  · exact ((raise_only _ _ _ _).same .pln (by decide)).trans (((condStart_only _ _ _ _).same .pln (by decide)).trans rfl)

theorem exec_planActivation {x : Slice} (hp : s.pln.pend = some x) : exec .planActivation s = .next (raise pgPLN plnACTIVATED 0 (activate x s.pln.pendSrc (atSecond s))) := by
  change execPlanActivation s = _
  unfold execPlanActivation
  rw [ha]
  refine congrArg Host.Outcome.next ((if_neg (Nat.not_lt.mpr hs)).trans ?_)
  have hpend : (bumpGen pgPLN (s.modPln fun l => { l with armed := none })).pln.pend = some x := hp
  dsimp only
  rw [hpend]
  rfl

theorem planActivation_made_runs {a x : Slice} (hp : s.pln.pend = some x) (hx : s.pln.active = some a) : Runs .planActivation s activateAreas fun t =>
    t.pln.active = some x ∧ t.pln.src = s.pln.pendSrc ∧ t.pln.pend = none ∧ t.pln.armed = none ∧ t.pln.missed = false ∧ t.pln.oldId = some (a.num, a.planDigest) ∧
    Latched pgPLN plnACTIVATED t ∧
    ∀ p, p < 24 → ((planPort x.body p).use = 0 → (lane p t).state = 0) ∧
      ((planPort x.body p).use ≠ 0 → if planPort a.body p ≠ planPort x.body p ∨ (lane p s).state = 0 then (lane p t).state = 1 ∧ (lane p t).rate = 0
        else (8 ≤ p ∨ (lane p s).losPin = wbit (portCtrl p s) 4) → (lane p t).state = (lane p s).state ∧ (lane p t).rate = (lane p s).rate) := by
  have hraise := raise_only pgPLN plnACTIVATED 0 (activate x s.pln.pendSrc (atSecond s))
  have hpln := (hraise.same .pln (by decide)).trans (activate_pln x s.pln.pendSrc (atSecond s))
  have hold : (atSecond s).pln.oldId = some (a.num, a.planDigest) := by
    rw [atSecond, State.modPln_pln, hx]
    rfl
  have hlane (p : Nat) := lane_congr (hraise.same .lanes (by decide)) p
  have hbefore (p : Nat) : lane p (atSecond s) = lane p s := rfl
  have hctrl (p : Nat) : portCtrl p (atSecond s) = portCtrl p s := rfl
  refine .of_only (exec_planActivation ha hs hp) rfl (Only.next hraise rfl (Only.next (activate_only _ _ _) rfl ((atSecond_only s).mono rfl)))
    ⟨by rw [hpln], by rw [hpln], by rw [hpln]; rfl, by rw [hpln]; rfl, by rw [hpln], by rw [hpln, hold], raise_latched _ _ (by decide) (by decide), fun p hp => ?_⟩
  have hmoved : p ∈ movedPorts (atSecond s).pln.active x.body ↔ planPort a.body p ≠ planPort x.body p := by
    rw [show (atSecond s).pln.active = some a from hx]
    exact mem_movedPorts hp
  have hrestarted := activate_restarted x s.pln.pendSrc (atSecond s) hp
  have hunchanged := activate_unchanged x s.pln.pendSrc (atSecond s) hp
  rw [hmoved, hbefore] at hrestarted hunchanged
  rw [hctrl] at hunchanged
  rw [hlane]
  refine ⟨activate_unused x _ _ hp, fun hu => ?_⟩
  split
  · next hc => exact hrestarted hu hc
  · next hc => exact hunchanged hu (fun hm => hc (.inl hm)) fun h0 => hc (.inr h0)

end

/-! ## The window of the old identity (R34, R37) -/

/-- A port at the end of the window. -/
def windowStep (s : State) (p : Nat) : State :=
  match (port p s).peer with
  | some c =>
    if (portPlan p s).use = 0 ∨ (lane p s).state ≠ 4 then s
    else if (port p s).fresh ∧ checkCauses p c s ≠ 0 then retrain p (exchangeFails p (checkCauses p c s) s)
    else recheckAny s p
  | none => recheckAny s p

/-- The old identity out of acceptance. -/
def dropOldId (s : State) : State := bumpGen pgPLN (s.modPln fun l => { l with oldId := none })

/-- What a failed exchange leaves of what is known of the port. -/
def PortSt.failed (causes : Nat) (q : PortSt) : PortSt :=
  { q with fails := satAdd 65535 q.fails 1, cause := causes, streak := 0, q := true, first := if q.q ∧ q.first ≠ 0 then q.first else (lowBit 6 causes).getD 0 + 1 }

theorem exchangeFails_eq (p causes : Nat) (s : State) :
    exchangeFails p causes s =
      if (lane p (bumpGen pgPLN (raiseOnce pgPLN plnQUAR p 0 (modPort p (PortSt.failed causes) s)))).state = 4 then bumpGen pgPLN (raiseOnce pgPLN plnQUAR p 0 (modPort p (PortSt.failed causes) s))
      else breakHop p (bumpGen pgPLN (raiseOnce pgPLN plnQUAR p 0 (modPort p (PortSt.failed causes) s))) := rfl

theorem exchangeFails_stand (p causes : Nat) (s : State) : LanesStand s (exchangeFails p causes s) := by
  rw [exchangeFails_eq]
  have h : LanesStand s (bumpGen pgPLN (raiseOnce pgPLN plnQUAR p 0 (modPort p (PortSt.failed causes) s))) :=
    .only (.only (.of_only (modPort_only p _ s) rfl) (raiseOnce_only _ _ _ _ _) rfl) (bumpGen_only _ _) rfl
  exact .ite h (h.trans (breakHop_stand p _))

theorem exchangeFails_pln (p causes : Nat) (s : State) : (exchangeFails p causes s).pln = (modPort p (PortSt.failed causes) s).pln := by
  have h : (bumpGen pgPLN (raiseOnce pgPLN plnQUAR p 0 (modPort p (PortSt.failed causes) s))).pln = (modPort p (PortSt.failed causes) s).pln :=
    (raiseOnce_only _ _ _ _ _).same .pln (by decide)
  rw [exchangeFails_eq]
  split
  · exact h
  · exact ((breakHop_only p _).same .pln (by decide)).trans h

/-- A port that fails at the end of the window hunts, quarantined, with its causes. -/
theorem failed_window (p causes : Nat) (s : State) : (lane p (retrain p (exchangeFails p causes s))).state = 1 ∧ (port p (retrain p (exchangeFails p causes s))).q = true ∧
    (port p (retrain p (exchangeFails p causes s))).cause = causes := by
  have hport : port p (retrain p (exchangeFails p causes s)) = ((port p s).failed causes).hunting := by
    rw [retrain, port_toHunt, port_congr (exchangeFails_pln p causes s), port_modPort_self]
  exact ⟨congrArg (·.1) (toHunt_moves p _).self, by rw [hport]; rfl, by rw [hport]; rfl⟩

theorem retrainFailed_of_ne {p j : Nat} (h : j ≠ p) (causes : Nat) (s : State) : (lane j (retrain p (exchangeFails p causes s))).state = (lane j s).state ∧
    port j (retrain p (exchangeFails p causes s)) = port j s :=
  ⟨congrArg (·.1) (((toHunt_moves p _).others j h).trans ((exchangeFails_stand p causes s).at_ j)),
    by rw [retrain, port_toHunt_of_ne h, port_congr (exchangeFails_pln p causes s), port_modPort_of_ne s h]⟩

theorem recheckAny_keeps (p j : Nat) (s : State) : (lane j (recheckAny s p)).state = (lane j s).state ∧ port j (recheckAny s p) = port j s :=
  ⟨congrArg (·.1) ((recheckAny_stand s p).at_ j), port_congr ((recheckAny_only s p).same .pln (by decide)) j⟩

theorem windowStep_of_ne {p j : Nat} (h : j ≠ p) (s : State) : (lane j (windowStep s p)).state = (lane j s).state ∧ port j (windowStep s p) = port j s := by
  unfold windowStep
  split
  · split
    · exact ⟨rfl, rfl⟩
    · split
      · exact retrainFailed_of_ne h _ s
      · exact recheckAny_keeps p j s
  · exact recheckAny_keeps p j s

/-- With no capability block since the activation a port is as before. -/
theorem windowStep_stale {p : Nat} {s : State} (h : (port p s).fresh = false) : (lane p (windowStep s p)).state = (lane p s).state ∧ port p (windowStep s p) = port p s := by
  unfold windowStep
  split
  · split
    · exact ⟨rfl, rfl⟩
    · rw [if_neg (by simp [h])]
      exact recheckAny_keeps p p s
  · exact recheckAny_keeps p p s

theorem exchangeFails_portsOnly (p causes : Nat) (s : State) : PortsOnly s (exchangeFails p causes s) := ⟨by
  rw [exchangeFails_pln]
  rfl⟩

theorem windowStep_portsOnly (s : State) (p : Nat) : PortsOnly s (windowStep s p) := by
  have hr : PortsOnly s (recheckAny s p) := .of_only (recheckAny_only s p) rfl
  unfold windowStep
  split
  · exact .ite (.refl s) (.ite ((exchangeFails_portsOnly p _ s).trans (toHunt_portsOnly p _)) hr)
  · exact hr

theorem windowStep_only (s : State) (p : Nat) : Only portAreas s (windowStep s p) := by
  have hr : Only portAreas s (recheckAny s p) := (recheckAny_only s p).mono rfl
  unfold windowStep
  split
  · exact .ite (.refl _ s) (.ite (Only.next (toHunt_only p _) rfl (exchangeFails_only p _ s)) hr)
  · exact hr

/-- The causes of a block are judged by the plan but for what is known of the ports. -/
theorem checkCauses_congr {s t : State} (h : PortsOnly s t) (p : Nat) (c : CapBlk) : checkCauses p c t = checkCauses p c s :=
  (eq_of_pln (f := checkCauses p c) (fun _ => rfl) (s := { pln := { s.pln with ports := t.pln.ports } }) h.pln).trans rfl

/-- A port at its turn: it was found as it stood, and stays as its turn leaves it. -/
theorem window_turn (s : State) {p : Nat} (hp : p < 24) : ∃ t, PortsOnly s t ∧ ((lane p t).state = (lane p s).state ∧ port p t = port p s) ∧
    (lane p ((List.range 24).foldl windowStep s)).state = (lane p (windowStep t p)).state ∧ port p ((List.range 24).foldl windowStep s) = port p (windowStep t p) := by
  obtain ⟨t, ht, hst, hft⟩ := unit_foldl_of_mem (unit := fun q t => ((lane q t).state, port q t)) (P := PortsOnly s) (f := windowStep) (s := s)
    (fun t ht k => ht.trans (windowStep_portsOnly t k)) (fun t _ j k hjk => Prod.ext_iff.mpr (windowStep_of_ne hjk t)) (.refl s) List.nodup_range (List.mem_range.mpr hp)
  simp only [Prod.mk.injEq] at hst hft
  exact ⟨t, ht, hst, hft⟩

theorem identityWindowClose_runs {s : State} (h : s.pln.oldId ≠ none) : Runs .identityWindowClose s (reporting [.pln, .lanes, .lsh]) fun t =>
    t.pln.oldId = none ∧ t.pln.active = s.pln.active ∧ ∀ p, p < 24 →
      (∀ c, (port p s).peer = some c → (portPlan p s).use ≠ 0 → (lane p s).state = 4 → (port p s).fresh = true →
        checkCauses p c { s with pln := { s.pln with oldId := none } } ≠ 0 →
        (lane p t).state = 1 ∧ (port p t).q = true ∧ (port p t).cause = checkCauses p c { s with pln := { s.pln with oldId := none } }) ∧
      ((port p s).fresh = false → (lane p t).state = (lane p s).state ∧ (port p t).q = (port p s).q) := by
  have hports : PortsOnly (dropOldId s) ((List.range 24).foldl windowStep (dropOldId s)) := .foldl windowStep_portsOnly _ _
  refine .of_only (u := (List.range 24).foldl windowStep (dropOldId s)) ?_ rfl
    (Only.trans (Only.next (bumpGen_only _ _) rfl ((modPln_only _ s).mono rfl)) ((Only.foldl windowStep_only _ _).mono rfl))
    ⟨by rw [hports.pln]; rfl, by rw [hports.pln]; rfl, fun p hp => ?_⟩
  · exact congrArg Host.Outcome.next (if_pos (Option.isSome_iff_ne_none.mpr h))
  · obtain ⟨t, ht, ⟨hlane, hport⟩, hl, hq⟩ := window_turn (dropOldId s) hp
    rw [hl, hq]
    refine ⟨fun c hc hu h4 hf hcause => ?_, fun hf => ?_⟩
    · have hcauses : checkCauses p c t = checkCauses p c { s with pln := { s.pln with oldId := none } } := (checkCauses_congr ht p c).trans rfl
      have hpeer : (port p t).peer = some c := by rw [hport]; exact hc
      have hfresh : (port p t).fresh = true := by rw [hport]; exact hf
      have huse : (portPlan p t).use ≠ 0 := by rw [portPlan_congr ht.active]; exact hu
      have hup : (lane p t).state = 4 := hlane.trans h4
      have hstep : windowStep t p = retrain p (exchangeFails p (checkCauses p c t) t) := by
        rw [windowStep, hpeer]
        exact (if_neg (by simp [huse, hup])).trans (if_pos ⟨hfresh, by rwa [hcauses]⟩)
      rw [hstep, ← hcauses]
      exact failed_window p _ t
    · obtain ⟨hls, hps⟩ := windowStep_stale (show (port p t).fresh = false by rw [hport]; exact hf)
      exact ⟨hls.trans hlane, by rw [hps, hport]; rfl⟩

/-- Settles O46: a pending slice and its second, the activation, and the end of the identity window. -/
theorem planChangesAtItsSecond : Obligations.PlanChangesAtItsSecond := by
  unfold Obligations.PlanChangesAtItsSecond
  intro bytes sec a x s l e y wide old armed told
  exact ⟨pendSliceReceive_reject_runs, pendSliceReceive_stage_runs, fun ha hs => ⟨planActivation_missed_runs ha hs, planActivation_made_runs ha hs⟩,
    fun h => .of_only rfl (if_neg (by simp [show s.pln.oldId = none from h])) (.refl _ s) rfl, identityWindowClose_runs⟩

end Sys2Proof.Machine
end

section
/-! SUPPORT. The retained store read back (R470), and a bit of a number put (R476). -/

namespace Sys2Proof.Machine

/-! ## Check sequences and little-endian numbers -/

theorem crc32Bit_lt {c : Nat} (h : c < 2 ^ 32) : crc32Bit c < 2 ^ 32 := by
  have hc : c / 2 < 2 ^ 32 := by omega
  unfold crc32Bit
  split
  · exact Nat.xor_lt_two_pow hc (by decide)
  · exact hc

theorem crc32Byte_lt {c : Nat} (h : c < 2 ^ 32) (b : Byte) : crc32Byte c b < 2 ^ 32 := by
  have hb : b.toNat < 2 ^ 32 := Nat.lt_trans b.isLt (by decide)
  unfold crc32Byte
  iterate 8 refine crc32Bit_lt ?_
  exact Nat.xor_lt_two_pow h hb

theorem crc32_lt (bs : List Byte) : crc32 bs < 2 ^ 32 :=
  Nat.xor_lt_two_pow (List.foldlRecOn bs crc32Byte (motive := (· < 2 ^ 32)) (by decide) fun _ h b _ => crc32Byte_lt h b) (by decide)

theorem leNat_leBytes (n v : Nat) : leNat (leBytes n v) = v % 256 ^ n := by
  induction n generalizing v with
  | zero => rw [Nat.pow_zero, Nat.mod_one]; rfl
  | succ n ih =>
    rw [leBytes, leNat, ih, BitVec.toNat_ofNat, pow_succ' 256 n, Nat.mod_mul, show 2 ^ 8 = 256 from rfl]

/-! ## The store (R470) -/

/-- The store reads as it was written. -/
theorem retBytes_putRet (pre mid post : List Byte) (s : State) :
    (List.range mid.length).map (fun k => retByte (putRet 0 (pre ++ mid ++ post) s) (pre.length + k)) = mid := by
  refine List.ext_getElem (by simp) fun i hi hm => ?_
  have hin : pre.length + i < (pre ++ mid ++ post).length := by simp; omega
  have hget := FMap.get_putAll_in (d := fun _ => (0 : Byte)) (m := s.pwr.ret) (k := 0) (0 : Byte) hin
  rw [Nat.zero_add] at hget
  rw [List.getElem_map, List.getElem_range]
  refine hget.trans ?_
  rw [List.getD_eq_getElem _ _ hin, List.getElem_append_left (by simp; omega), List.getElem_append_right (by omega)]
  simp

/-- What the hub writes of the store, but for its check sequence. -/
def storeArea (epoch reason count : Nat) : List Byte := leBytes 4 epoch ++ leBytes 1 reason ++ leBytes 3 count ++ leBytes 4 0

theorem length_storeArea (epoch reason count : Nat) : (storeArea epoch reason count).length = 12 := by simp [storeArea, length_leBytes]

theorem putStore_eq (epoch reason count : Nat) (s : State) :
    putStore epoch reason count s = putRet 0 (storeArea epoch reason count ++ leBytes 4 (crc32 (storeArea epoch reason count))) s := rfl

theorem retValid_putStore (epoch reason count : Nat) (s : State) : retValid (putStore epoch reason count s) = true := by
  have harea := retBytes_putRet [] (storeArea epoch reason count) (leBytes 4 (crc32 (storeArea epoch reason count))) s
  have hcrc := retBytes_putRet (storeArea epoch reason count) (leBytes 4 (crc32 (storeArea epoch reason count))) [] s
  simp only [length_storeArea, length_leBytes, List.nil_append, List.append_nil, List.length_nil, Nat.zero_add, ← putStore_eq] at harea hcrc
  rw [retValid, hcrc, harea, leNat_leBytes, show 256 ^ 4 = 2 ^ 32 from rfl, Nat.mod_eq_of_lt (crc32_lt _), decide_eq_true rfl]

theorem retEpoch_putStore (epoch reason count : Nat) (s : State) : retEpoch (putStore epoch reason count s) = epoch % 2 ^ 32 := by
  have h := retBytes_putRet [] (leBytes 4 epoch) (leBytes 1 reason ++ leBytes 3 count ++ leBytes 4 0 ++ leBytes 4 (crc32 (storeArea epoch reason count))) s
  have hb : leBytes 4 epoch ++ (leBytes 1 reason ++ leBytes 3 count ++ leBytes 4 0 ++ leBytes 4 (crc32 (storeArea epoch reason count))) =
      storeArea epoch reason count ++ leBytes 4 (crc32 (storeArea epoch reason count)) := by simp only [storeArea, List.append_assoc]
  simp only [length_leBytes, List.nil_append, List.length_nil, Nat.zero_add, hb, ← putStore_eq] at h
  rw [retEpoch, h, leNat_leBytes, show 256 ^ 4 = 2 ^ 32 from rfl]

theorem retByte_congr {s t : State} (h : t.pwr.ret = s.pwr.ret) (k : Nat) : retByte t k = retByte s k := by rw [retByte, h, retByte]

theorem retValid_congr {s t : State} (h : t.pwr.ret = s.pwr.ret) : retValid t = retValid s := by simp only [retValid, retByte_congr h, funext (retByte_congr h)]

theorem retEpoch_congr {s t : State} (h : t.pwr.ret = s.pwr.ret) : retEpoch t = retEpoch s := by simp only [retEpoch, funext (retByte_congr h)]

/-! ## A bit put -/

/-- A bit put as it is changes nothing. -/
theorem putBit_same {v i : Nat} {b : Bool} (h : v.testBit i = b) : putBit v i b = v := by
  subst h
  unfold putBit
  split
  · refine Nat.eq_of_testBit_eq fun j => ?_
    rw [Nat.testBit_or, Nat.one_shiftLeft, Nat.testBit_two_pow]
    by_cases hj : i = j
    · subst hj
      simp_all
    · simp [hj]
  · rfl

theorem testBit_putBit_true (v i j : Nat) : (putBit v i true).testBit j = (v.testBit j || decide (i = j)) := by
  rw [putBit, if_pos rfl, Nat.testBit_or, Nat.one_shiftLeft, Nat.testBit_two_pow]

/-- A supply's bit takes its value. -/
theorem setSup_pwr (k : Nat) (on : Bool) (s : State) : (setSup k on s).pwr = { s.pwr with sup := putBit s.pwr.sup k on } := by
  unfold setSup
  split
  · next h => rw [putBit_same h]
  · rfl

end Sys2Proof.Machine
end

section
/-! PROOF. Supplies, requests to park and to run, and parking's end (R463, R465, R466, R473). -/

namespace Sys2Proof.Machine

/-! ## Supplies (R466) -/

theorem setSup_fab (k : Nat) (on : Bool) (s : State) : (setSup k on s).fab = s.fab := (setSup_only k on s).same .fab (by decide)

/-- An episode's condition is on once its cause is raised. -/
theorem condOn_raiseOnce {p bit sub d : Nat} {s : State} (h : condOn p bit sub s = false) : condOn p bit sub (raiseOnce p bit sub d s) = true := by
  rw [raiseOnce, h, if_neg (by decide)]
  have hconds : (raise p bit d (condStart p bit sub s)).fab.conds = (condStart p bit sub s).fab.conds := by rw [(raise_onlyCounts p bit d _).fab]
  rw [condOn, hconds, condStart, h]
  simp

/-- A supply that falls low: its bit 0, its cause raised for the episode. -/
theorem dipped_runs {c : Instr} {k bit : Nat} {s : State} (hx : exec c s = .next (raiseOnce pgPWR bit 0 0 (setSup k false s))) (hev : evOf pgPWR bit ≠ none) (hb : bit < 32)
    (hc : condOn pgPWR bit 0 s = false) : Runs c s (reporting [.pwr]) fun t =>
      t.pwr = { s.pwr with sup := putBit s.pwr.sup k false } ∧ Latched pgPWR bit t ∧ condOn pgPWR bit 0 t = true := by
  have hcond : condOn pgPWR bit 0 (setSup k false s) = false := by
    rw [condOn, setSup_fab]
    exact hc
  exact .of_only hx rfl (Only.next (raiseOnce_only _ _ _ _ _) rfl ((setSup_only k false s).mono rfl))
    ⟨((raiseOnce_only _ _ _ _ _).same .pwr (by decide)).trans (setSup_pwr k false s), raiseOnce_latched _ _ _ hev hb hcond, condOn_raiseOnce hcond⟩

/-- A supply that is back: its bit 1, the episode over. -/
theorem supplyBack_runs {c : Instr} {k bit : Nat} {s : State} (hx : exec c s = .next (condEnd pgPWR bit 0 (setSup k true s))) : Runs c s [.pages, .fab, .pwr] fun t =>
    t.pwr = { s.pwr with sup := putBit s.pwr.sup k true } ∧ condOn pgPWR bit 0 t = false :=
  .of_only hx rfl (Only.next (condEnd_only _ _ _ _) rfl ((setSup_only k true s).mono rfl)) ⟨setSup_pwr k true s, (condOn_condEnd pgPWR bit 0 _).1⟩

theorem anaBack_runs {s : State} (hg : s.pwr.good = true) (ha : s.pwr.anaLost = true) : Runs .anaBack s (reporting [.pwr]) fun t =>
    t.pwr = { s.pwr with anaLost := false, sup := putBit (putBit s.pwr.sup 5 true) 6 true } ∧ Latched pgPWR pwrANABACK t := by
  refine .of_only rfl (if_pos ⟨hg, ha⟩)
    (Only.next (raise_only _ _ _ _) rfl (Only.next (setSup_only _ _ _) rfl (Only.next (setSup_only _ _ _) rfl ((modPwr_only _ s).mono rfl))))
    ⟨?_, raise_latched _ _ (by decide) (by decide)⟩
  refine ((raise_only _ _ _ _).same .pwr (by decide)).trans ?_
  rw [setSup_pwr, setSup_pwr]
  rfl

/-! ## STATE (R463) -/

theorem pwrState_pwr (st : Nat) (s : State) : (pwrState st s).pwr = { s.pwr with state := st } := by
  unfold pwrState
  split
  · next h => rw [← h]
  · exact ((raise_only _ _ _ _).same .pwr (by decide)).trans rfl

theorem pwrState_latched {st : Nat} {s : State} (h : s.pwr.state ≠ st) : Latched pgPWR 0 (pwrState st s) := by
  rw [pwrState, if_neg h]
  exact raise_latched _ _ (by decide) (by decide)

/-! ## Requests (R465, R476) -/

/-- The first whole second at least 100 ms away, in ns. -/
def parkSecond (s : State) : Nat := ((now s).total + 100000000 + nsPerSec - 1) / nsPerSec * nsPerSec

theorem wbit_and (v m : Word) (i : Nat) : wbit (v &&& m) i = (wbit v i && wbit m i) := by rw [wbit, BitVec.toNat_and, Nat.testBit_and, wbit, wbit]

theorem wbit_or (v m : Word) (i : Nat) : wbit (v ||| m) i = (wbit v i || wbit m i) := by rw [wbit, BitVec.toNat_or, Nat.testBit_or, wbit, wbit]

theorem wbits_two (v : Word) : wbits v 0 2 = b2n (wbit v 0) + 2 * b2n (wbit v 1) := by
  rw [wbits, bits, Nat.shiftRight_zero, wbit, wbit, Nat.testBit_zero, Nat.testBit_succ, Nat.testBit_zero, b2n, b2n]
  simp only [decide_eq_true_eq]
  split <;> split <;> omega

/-- The bits that a request's command leaves to the word written. -/
theorem runMask_bits : wbit 0xFFFFFFF8 0 = false ∧ wbit 0xFFFFFFF8 1 = false ∧ wbit 0xFFFFFFF8 2 = false := by decide

theorem parkWord_bits (v : Word) : wbit ((v &&& 0xFFFFFFF8) ||| 1) 2 = false ∧ wbits ((v &&& 0xFFFFFFF8) ||| 1) 0 2 = 1 := by
  obtain ⟨h0, h1, h2⟩ := runMask_bits
  obtain ⟨k0, k1, k2⟩ : wbit 1 0 = true ∧ wbit 1 1 = false ∧ wbit 1 2 = false := by decide
  rw [wbits_two, wbit_or, wbit_or, wbit_or, wbit_and, wbit_and, wbit_and, h0, h1, h2, k0, k1, k2]
  simp [b2n]

theorem runWord_bits (v : Word) : wbit (v &&& 0xFFFFFFF8) 2 = false ∧ wbits (v &&& 0xFFFFFFF8) 0 2 = 0 := by
  obtain ⟨h0, h1, h2⟩ := runMask_bits
  rw [wbits_two, wbit_and, wbit_and, wbit_and, h0, h1, h2]
  simp [b2n]

section
variable {r : Req} {v : Word} {s : State} (hg : (page pgPWR s).freeze = false) (hs : serve 65 s = s)
include hg hs

theorem exec_parkRequest : exec (.parkRequest r v) s = .next (parkReq (rfPut 0x09040 ((v &&& 0xFFFFFFF8) ||| 1) s)) := by
  obtain ⟨h2, h0⟩ := parkWord_bits v
  refine congrArg Host.Outcome.next ((gated_open hg _).trans ?_)
  rw [hs, pwrCtrl, h0, h2]
  rfl

theorem exec_unparkRequest : exec (.unparkRequest r v) s = .next (unparkReq (rfPut 0x09040 (v &&& 0xFFFFFFF8) s)) := by
  obtain ⟨h2, h0⟩ := runWord_bits v
  refine congrArg Host.Outcome.next ((gated_open hg _).trans ?_)
  rw [hs, pwrCtrl, h0, h2]
  rfl

theorem parkRequest_refused_runs (h : s.tim.inserv = false ∨ s.pwr.state = 0) : Runs (.parkRequest r v) s [.rf, .pwr] fun t =>
    t.pwr = { s.pwr with err := 3, unparkWait := false } :=
  .of_only (exec_parkRequest hg hs) (if_pos h) (Only.next (modPwr_only _ _) rfl (Only.next (modPwr_only _ _) rfl ((rfPut_only _ _ s).mono rfl))) rfl

theorem parkRequest_runs (hi : s.tim.inserv = true) (h1 : s.pwr.state = 1) : Runs (.parkRequest r v) s (reporting [.rf, .pwr]) fun t =>
    t.pwr = { s.pwr with err := 0, unparkWait := false, tp := some (parkSecond s), state := 2 } ∧ Latched pgPWR 0 t := by
  have hno : ¬(s.tim.inserv = false ∨ s.pwr.state = 0) := by simp [hi, h1]
  refine .of_only (exec_parkRequest hg hs) ((if_neg hno).trans (if_pos h1))
    (Only.next (pwrState_only _ _) rfl (Only.next (modPwr_only _ _) rfl (Only.next (modPwr_only _ _) rfl (Only.next (modPwr_only _ _) rfl ((rfPut_only _ _ s).mono rfl)))))
    ⟨pwrState_pwr _ _, pwrState_latched ?_⟩
  exact fun h => absurd (h1.symm.trans h) (by decide)

theorem unparkRequest_waits_runs (h2 : s.pwr.state = 2) : Runs (.unparkRequest r v) s [.rf, .pwr] fun t => t.pwr = { s.pwr with err := 0, unparkWait := true } := by
  have h3 : s.pwr.state ≠ 3 := by simp [h2]
  exact .of_only (exec_unparkRequest hg hs) ((if_neg h3).trans (if_pos h2)) (Only.next (modPwr_only _ _) rfl (Only.next (modPwr_only _ _) rfl ((rfPut_only _ _ s).mono rfl))) rfl

theorem unparkRequest_runs (h3 : s.pwr.state = 3) (hx : s.fuse.hx000 = false) : Runs (.unparkRequest r v) s (reporting [.rf, .pwr]) fun t =>
    t.pwr = { s.pwr with err := 0, unparkWait := false, convOk := false, state := 4 } ∧ Latched pgPWR 0 t ∧ .dice true ∈ t.outbox := by
  have hdice : startUnpark (pwrErr 0 (rfPut 0x09040 (v &&& 0xFFFFFFF8) s)) =
      drive (.dice true) (pwrState 4 ((pwrErr 0 (rfPut 0x09040 (v &&& 0xFFFFFFF8) s)).modPwr fun w => { w with unparkWait := false, convOk := false })) := by
    have hx' : (pwrState 4 ((pwrErr 0 (rfPut 0x09040 (v &&& 0xFFFFFFF8) s)).modPwr fun w => { w with unparkWait := false, convOk := false })).fuse = s.fuse :=
      (pwrState_only _ _).same .fuse (by decide)
    rw [startUnpark, hx', hx]
    rfl
  refine .of_only (exec_unparkRequest hg hs) ((if_pos h3).trans hdice)
    (Only.next (drive_only _ _) rfl (Only.next (pwrState_only _ _) rfl (Only.next (modPwr_only _ _) rfl (Only.next (modPwr_only _ _) rfl ((rfPut_only _ _ s).mono rfl)))))
    ⟨pwrState_pwr _ _, ?_, List.mem_cons_self⟩
  have hlatched := pwrState_latched (st := 4) (s := (pwrErr 0 (rfPut 0x09040 (v &&& 0xFFFFFFF8) s)).modPwr fun w => { w with unparkWait := false, convOk := false })
    fun h => absurd (h3.symm.trans h) (by decide)
  exact hlatched.only (drive_only (.dice true) _) rfl

end

end Sys2Proof.Machine
end

section
/-! SUPPORT. What the operations of start-up leave alone: causes that are latched, and the state of the firmware (R245, R251, R414, R452). -/

namespace Sys2Proof.Machine

/-- No cause that is latched is lost, and the firmware's state is untouched. -/
structure Undisturbed (s t : State) : Prop where
  stay : ∀ {q b : Nat}, Latched q b s → Latched q b t
  fwl : t.fwl = s.fwl

theorem Undisturbed.refl (s : State) : Undisturbed s s := ⟨id, rfl⟩

theorem Undisturbed.trans {s t u : State} (h : Undisturbed s t) (k : Undisturbed t u) : Undisturbed s u := ⟨fun hl => k.stay (h.stay hl), k.fwl.trans h.fwl⟩

/-- An operation that reaches neither a page's header nor the firmware. -/
theorem Undisturbed.of_only {l : List Area} {s t : State} (h : Only l s t) (hl : (l.contains .pages || l.contains .fwl) = false) : Undisturbed s t := by
  obtain ⟨hp, hf⟩ := Bool.or_eq_false_iff.mp hl
  exact ⟨fun k => k.only h hp, h.same .fwl (by simpa using hf)⟩

theorem Undisturbed.only {l : List Area} {s t u : State} (h : Undisturbed s t) (k : Only l t u) (hl : (l.contains .pages || l.contains .fwl) = false) : Undisturbed s u :=
  h.trans (.of_only k hl)

theorem Undisturbed.bumpGen {s t : State} (h : Undisturbed s t) (p : Nat) : Undisturbed s (bumpGen p t) :=
  ⟨fun k => (h.stay k).bumpGen p, ((bumpGen_only p t).same .fwl (by decide)).trans h.fwl⟩

/-- A cause of any page but DEV reaches no firmware on trial. -/
theorem raise_fwl {p : Nat} (hp : p ≠ pgDEV) (bit d : Nat) (s : State) : (raise p bit d s).fwl = s.fwl := by
  have ht : (trialFault p (latch p bit s)).fwl = s.fwl := by
    rw [trialFault, if_neg (fun h => hp h.1)]
    exact (latch_only p bit s).same .fwl (by decide)
  unfold raise
  split
  · exact ht
  · split
    · exact ht
    · dsimp only
      split
      · exact ht
      · exact ((Only.foldl (fun t id => stage_only _ t id) _ _).same .fwl (by decide)).trans ht

theorem Undisturbed.raise {s t : State} (h : Undisturbed s t) {p : Nat} (hp : p ≠ pgDEV) (bit d : Nat) : Undisturbed s (raise p bit d t) :=
  ⟨fun k => raise_keeps_latched d (h.stay k), (raise_fwl hp bit d t).trans h.fwl⟩

theorem Undisturbed.ite {c : Prop} [Decidable c] {s a b : State} (h : Undisturbed s a) (k : Undisturbed s b) : Undisturbed s (if c then a else b) := by
  split <;> assumption

theorem Undisturbed.foldl {β : Type} {f : State → β → State} (h : ∀ s b, Undisturbed s (f s b)) (xs : List β) (s : State) : Undisturbed s (xs.foldl f s) :=
  foldl_keeps (P := Undisturbed s) (fun t ht b => ht.trans (h t b)) (.refl s) xs

/-! ## A retrain (R245, R251, R255) -/

theorem hopBroken_undisturbed (key hop : Nat) (s : State) : Undisturbed s (hopBroken key hop s) := by
  have hwrap (u : State) : Undisturbed u (Machine.raise pgLSH lshWRAP (key * 256 + hop) (condStart pgLSH lshWRAP (key * 256 + hop) u)) :=
    .raise (.of_only (condStart_only _ _ _ u) rfl) (by decide) _ _
  unfold hopBroken
  dsimp only
  refine .ite (.refl s) (.trans (.trans (.bumpGen (.of_only (modRing_only key _ s) rfl) _) (hwrap _)) (.ite ?_ (.refl _)))
  exact .raise (.of_only (condStart_only _ _ _ _) rfl) (by decide) _ _

theorem sendCtrlOn_undisturbed (p : Nat) (c : CtrlBlk) (s : State) : Undisturbed s (sendCtrlOn p c s) := .of_only (sendCtrlOn_only p c s) rfl

theorem wrapAt_undisturbed (p : Nat) (s : State) : Undisturbed s (wrapAt p s) := by
  unfold wrapAt
  split
  · exact .refl s
  · rename_i r hop _
    have hring (f : Ring → Ring) (g : Lane → Lane) : Undisturbed s (modLane p g (modRing r.key f (hopBroken r.key hop s))) :=
      .only (.only (hopBroken_undisturbed r.key hop s) (modRing_only r.key f _) rfl) (modLane_only p g _) rfl
    dsimp only
    split
    · exact hring _ _
    · exact (Undisturbed.only (hring _ _) (modLane_only _ _ _) rfl).trans (sendCtrlOn_undisturbed _ _ _)

theorem duplexCheck_undisturbed (s : State) : Undisturbed s (duplexCheck s) := by
  unfold duplexCheck
  refine .ite (.refl s) (.ite (.raise (.only ?_ (condStart_only _ _ _ _) rfl) (by decide) _ _) (.ite (.raise (.only ?_ (condEnd_only _ _ _ _) rfl) (by decide) _ _) (.refl s)))
  · exact .of_only (modLsh_only _ s) rfl
  · exact .of_only (modLsh_only _ s) rfl

theorem leaveUp_undisturbed (p : Nat) (s : State) : Undisturbed s (leaveUp p s) :=
  (Undisturbed.of_only (modLane_only p Lane.cut s) rfl).trans (.ite (duplexCheck_undisturbed _) (wrapAt_undisturbed p _))

theorem toHunt_undisturbed (p : Nat) (s : State) : Undisturbed s (toHunt p s) := by
  unfold toHunt
  dsimp only
  generalize hu : modLane p _ s = u
  have hm : Undisturbed s u := by
    subst hu
    exact .of_only (modLane_only p _ s) rfl
  refine .trans (.only (.bumpGen (.only (.ite hm (hm.bumpGen _)) (modPort_only p _ _) rfl) _) (setTxDis_only p _) rfl) (.ite (leaveUp_undisturbed p _) (.refl _))

end Sys2Proof.Machine
end

section
/-! PROOF. Power good (R23, R24, R470, R472). -/

namespace Sys2Proof.Machine

/-! ## Its parts -/

/-- The supplies at power good. -/
def supplies (hx000 vexc viepe : Bool) : Nat := if hx000 then 0x1F else 0x7F + (if vexc then 0x80 else 0) + (if viepe then 0x100 else 0)

/-- The straps sampled, a manager's Leash with them. -/
def strapped (role : Fin 4) (pos : Fin 128) (mode : Fin 4) (vexc viepe : Bool) (s : State) : State :=
  leashAtPower ((bumpGen pgPWR (s.modPwr fun w => { w with good := true, sup := supplies s.fuse.hx000 vexc viepe, retOk := retValid s })).modPln fun l =>
    { l with role := role.val, pos := pos.val, fspMode := mode.val })

/-- A head's provisional time, from the standby counter. -/
def provisional (ok head : Bool) (s : State) : State :=
  if head then s.modTim fun t => { t with sec := s.pwr.sbSec, ns := s.pwr.sbNs, epoch := if ok then (retEpoch s + 1) % 2 ^ 32 else 0 } else s

/-- The retained store, written anew where it is not valid. -/
def storeChecked (ok head : Bool) (s : State) : State :=
  if ok then (if head then putStore s.tim.epoch (retReason s) (retCount s) s else s) else raise pgPWR pwrRETBAD 0 (putStore 0 s.pwr.reason 0 s)

/-- Invalid straps told. -/
def strapsChecked (role pos : Nat) (s : State) : State :=
  if strapsOk role pos s.fuse.hx000 then s
  else raise pgPLN plnSTRAP 0 (condStart pgPLN plnSTRAP 0 (bumpGen pgPLN (s.modPln fun l => { l with strapErr := true, err := 8 })))

/-- A head of no external source sets its time. -/
def headTime (head : Bool) (s : State) : State :=
  if head ∧ timSrc s = 0 then setTime (bumpGen pgSRV (s.modSrv fun v => { v with state := 4, src := 26 })) else s

theorem exec_powerGood {role mode : Fin 4} {pos : Fin 128} {vexc viepe : Bool} {s : State} (hg : s.pwr.good = false) (hh : s.pwr.hot = false) (hs : s.pwr.sealed = false) :
    exec (.powerGood role pos mode vexc viepe) s = .next (headTime (decide (role.val = 2)) (strapsChecked role.val pos.val
      (storeChecked (retValid s) (decide (role.val = 2)) (provisional (retValid s) (decide (role.val = 2)) (strapped role pos mode vexc viepe s))))) := by
  refine Eq.trans (if_neg ?_) ?_
  · simp [hg, hh, hs]
  · rfl

/-! ## What each leaves -/

theorem leashAtPower_lrole (s : State) : (leashAtPower s).lsh.lrole =
    if isManager s = true then (if isHead s = true ∧ fixedHolder s = true ∧ s.pln.pos = 0 then 1 else 4) else s.lsh.lrole := by
  unfold leashAtPower
  cases isManager s with
  | false => rfl
  | true =>
    rw [if_neg (by decide), if_pos rfl]
    split <;> rfl

section
variable (role : Fin 4) (pos : Fin 128) (mode : Fin 4) (vexc viepe : Bool) (s : State)

theorem strapped_only : Only [.pages, .pln, .pwr, .lsh] s (strapped role pos mode vexc viepe s) :=
  Only.next (leashAtPower_only _) rfl (Only.next (modPln_only _ _) rfl (Only.next (bumpGen_only _ _) rfl ((modPwr_only _ s).mono rfl)))

theorem strapped_pwr : (strapped role pos mode vexc viepe s).pwr = { s.pwr with good := true, sup := supplies s.fuse.hx000 vexc viepe, retOk := retValid s } :=
  ((leashAtPower_only _).same .pwr (by decide)).trans rfl

theorem strapped_pln : (strapped role pos mode vexc viepe s).pln = { s.pln with role := role.val, pos := pos.val, fspMode := mode.val } :=
  ((leashAtPower_only _).same .pln (by decide)).trans rfl

/-- The Leash at power good: head A of a fixed pair holds it, any other manager knows no holder. -/
theorem strapped_lrole : (strapped role pos mode vexc viepe s).lsh.lrole =
    if role.val = 1 ∨ role.val = 2 then (if role.val = 2 ∧ pos.val = 0 ∧ wbit (rfGet 0x0A040 s) 14 = true then 1 else 4) else s.lsh.lrole := by
  rw [strapped, leashAtPower_lrole]
  refine if_congr ?_ (if_congr (and_congr decide_eq_true_iff and_comm) rfl rfl) rfl
  rw [isManager, Bool.or_eq_true]
  exact or_congr decide_eq_true_iff decide_eq_true_iff

end

theorem provisional_only (ok head : Bool) (s : State) : Only [.tim] s (provisional ok head s) := .ite (modTim_only _ s) (.refl _ s)

theorem storeChecked_only (ok head : Bool) (s : State) : Only (reporting [.pwr]) s (storeChecked ok head s) :=
  .ite (.ite ((putStore_only _ _ _ s).mono rfl) (.refl _ s)) (Only.next (raise_only _ _ _ _) rfl ((putStore_only _ _ _ s).mono rfl))

/-- Of the power state the store alone changes. -/
theorem storeChecked_pwr (ok head : Bool) (s : State) : (storeChecked ok head s).pwr = { s.pwr with ret := (storeChecked ok head s).pwr.ret } := by
  unfold storeChecked
  split
  · split <;> rfl
  · rw [(raise_only pgPWR pwrRETBAD 0 _).same .pwr (by decide)]
    rfl

/-- A store that was not valid is written anew, and told. -/
theorem storeChecked_bad (head : Bool) (s : State) : Latched pgPWR pwrRETBAD (storeChecked false head s) ∧ retValid (storeChecked false head s) = true ∧
    retEpoch (storeChecked false head s) = 0 := by
  have hret : (storeChecked false head s).pwr.ret = (putStore 0 s.pwr.reason 0 s).pwr.ret :=
    congrArg Pwr.ret ((raise_only pgPWR pwrRETBAD 0 (putStore 0 s.pwr.reason 0 s)).same .pwr (by decide))
  exact ⟨raise_latched _ _ (by decide) (by decide), (retValid_congr hret).trans (retValid_putStore _ _ _ s), (retEpoch_congr hret).trans (retEpoch_putStore _ _ _ s)⟩

/-- A head's store holds its new epoch number. -/
theorem storeChecked_head (s : State) : retEpoch (storeChecked true true s) = s.tim.epoch % 2 ^ 32 := retEpoch_putStore _ _ _ s

theorem strapsChecked_only (role pos : Nat) (s : State) : Only (reporting [.pln]) s (strapsChecked role pos s) :=
  .ite (.refl _ s) (Only.next (raise_only _ _ _ _) rfl (Only.next (condStart_only _ _ _ _) rfl (Only.next (bumpGen_only _ _) rfl ((modPln_only _ s).mono rfl))))

theorem strapsChecked_undisturbed (role pos : Nat) (s : State) : Undisturbed s (strapsChecked role pos s) :=
  .ite (.refl s) (.raise (.only (.bumpGen (.of_only (modPln_only _ s) rfl) _) (condStart_only _ _ _ _) rfl) (by decide) _ _)

theorem strapsChecked_pln (role pos : Nat) (s : State) :
    (strapsChecked role pos s).pln = if strapsOk role pos s.fuse.hx000 then s.pln else { s.pln with strapErr := true, err := 8 } := by
  unfold strapsChecked
  split
  · rfl
  · exact ((raise_only _ _ _ _).same .pln (by decide)).trans (((condStart_only _ _ _ _).same .pln (by decide)).trans rfl)

theorem strapsChecked_latched {role pos : Nat} {s : State} (h : strapsOk role pos s.fuse.hx000 = false) : Latched pgPLN plnSTRAP (strapsChecked role pos s) := by
  rw [strapsChecked, if_neg (by simp [h])]
  exact raise_latched _ _ (by decide) (by decide)

theorem setTime_undisturbed (s : State) : Undisturbed s (setTime s) := by
  have hsource (u : State) : Undisturbed u (becomeSource u) := by
    refine .ite (.only (.ite ?_ (.bumpGen ?_ _)) (startMark_only 6 _) rfl) (.refl u)
    · exact .of_only (modSrv_only _ u) rfl
    · exact .of_only (modSrv_only _ u) rfl
  refine .ite (.refl s) (Undisturbed.trans (.only (.raise (.bumpGen ?_ _) (by decide) _ _) (startMark_only 3 _) rfl) (hsource _))
  exact .of_only (modTim_only _ s) rfl

theorem headTime_only (head : Bool) (s : State) : Only (reporting [.tim, .srv, .pwr]) s (headTime head s) :=
  .ite (Only.next (setTime_only _) rfl (Only.next (bumpGen_only _ _) rfl ((modSrv_only _ s).mono rfl))) (.refl _ s)

theorem headTime_undisturbed (head : Bool) (s : State) : Undisturbed s (headTime head s) :=
  .ite (.trans (.bumpGen (.of_only (modSrv_only _ s) rfl) _) (setTime_undisturbed _)) (.refl s)

theorem setTime_tim (s : State) : (setTime s).tim = { s.tim with set := true } := by
  unfold setTime
  split
  · next h => rw [← h]
  · exact ((becomeSource_only _).same .tim (by decide)).trans (((startMark_only 3 _).same .tim (by decide)).trans (((raise_only _ _ _ _).same .tim (by decide)).trans rfl))

theorem headTime_tim (head : Bool) (s : State) : (headTime head s).tim = { s.tim with set := (headTime head s).tim.set } := by
  unfold headTime
  split
  · rw [setTime_tim]
    rfl
  · rfl

theorem startMark_pwr (k : Nat) (s : State) : (startMark k s).pwr = { s.pwr with starts := (startMark k s).pwr.starts } := by
  rw [startMark, State.modPwr_pwr]
  split <;> rfl

theorem setTime_pwr (s : State) : (setTime s).pwr = { s.pwr with starts := (setTime s).pwr.starts } := by
  have hsource (u : State) : (becomeSource u).pwr = { u.pwr with starts := (becomeSource u).pwr.starts } := by
    unfold becomeSource
    split
    · rw [startMark_pwr]
      split <;> rfl
    · rfl
  have hraise (u : State) : (raise pgTIM timSET 0 (bumpGen pgTIM (u.modTim fun t => { t with set := true }))).pwr = u.pwr := (raise_only _ _ _ _).same .pwr (by decide)
  unfold setTime
  split
  · rfl
  · rw [hsource, startMark_pwr, hraise]

/-- Of the power state the start-up times alone change. -/
theorem headTime_pwr (head : Bool) (s : State) : (headTime head s).pwr = { s.pwr with starts := (headTime head s).pwr.starts } := by
  unfold headTime
  split
  · rw [setTime_pwr]
    rfl
  · rfl

/-- Power good, whole. -/
theorem powerGood_runs {role mode : Fin 4} {pos : Fin 128} {vexc viepe : Bool} {s : State} (hg : s.pwr.good = false) (hh : s.pwr.hot = false) (hs : s.pwr.sealed = false) :
    Runs (.powerGood role pos mode vexc viepe) s (reporting [.pln, .tim, .srv, .lsh, .pwr]) fun t =>
      t.pwr.good = true ∧ t.pwr.retOk = retValid s ∧ t.pwr.sup = supplies s.fuse.hx000 vexc viepe ∧
      t.pln.role = role.val ∧ t.pln.pos = pos.val ∧ t.pln.fspMode = mode.val ∧ t.pln.active = s.pln.active ∧
      t.lsh.lrole = (if role.val = 1 ∨ role.val = 2 then (if role.val = 2 ∧ pos.val = 0 ∧ wbit (rfGet 0x0A040 s) 14 = true then 1 else 4) else s.lsh.lrole) ∧
      (role.val ≠ 2 → t.tim = s.tim) ∧
      (role.val = 2 → t.tim.sec = s.pwr.sbSec ∧ t.tim.ns = s.pwr.sbNs ∧ t.tim.epoch = (if retValid s then (retEpoch s + 1) % 2 ^ 32 else 0) ∧ retEpoch t = t.tim.epoch) ∧
      (retValid s = false → Latched pgPWR pwrRETBAD t ∧ retValid t = true ∧ retEpoch t = 0) ∧
      (strapsOk role.val pos.val s.fuse.hx000 = false → Latched pgPLN plnSTRAP t ∧ t.pln.strapErr = true ∧ t.pln.err = 8) := by
  generalize hs1 : strapped role pos mode vexc viepe s = s1
  generalize hs2 : provisional (retValid s) (decide (role.val = 2)) s1 = s2
  generalize hs3 : storeChecked (retValid s) (decide (role.val = 2)) s2 = s3
  generalize hs4 : strapsChecked role.val pos.val s3 = s4
  generalize hs5 : headTime (decide (role.val = 2)) s4 = s5
  have h1 : Only _ s s1 := hs1 ▸ strapped_only role pos mode vexc viepe s
  have h2 : Only _ s1 s2 := hs2 ▸ provisional_only _ _ s1
  have h3 : Only _ s2 s3 := hs3 ▸ storeChecked_only _ _ s2
  have h4 : Only _ s3 s4 := hs4 ▸ strapsChecked_only _ _ s3
  have h5 : Only _ s4 s5 := hs5 ▸ headTime_only _ s4
  have hfuse : s3.fuse = s.fuse := (h3.same .fuse (by decide)).trans ((h2.same .fuse (by decide)).trans (h1.same .fuse (by decide)))
  have hpln : s5.pln = if strapsOk role.val pos.val s.fuse.hx000 then { s.pln with role := role.val, pos := pos.val, fspMode := mode.val }
      else { s.pln with role := role.val, pos := pos.val, fspMode := mode.val, strapErr := true, err := 8 } := by
    have h31 : s3.pln = s1.pln := (h3.same .pln (by decide)).trans (h2.same .pln (by decide))
    rw [h5.same .pln (by decide), ← hs4, strapsChecked_pln, hfuse, h31, ← hs1, strapped_pln]
  have hpwr : s5.pwr = { s.pwr with good := true, sup := supplies s.fuse.hx000 vexc viepe, retOk := retValid s, ret := s3.pwr.ret, starts := s5.pwr.starts } := by
    have h3p : s3.pwr = { s2.pwr with ret := s3.pwr.ret } := hs3 ▸ storeChecked_pwr _ _ s2
    have h5p : s5.pwr = { s4.pwr with starts := s5.pwr.starts } := hs5 ▸ headTime_pwr _ s4
    rw [h5p, h4.same .pwr (by decide), h3p, h2.same .pwr (by decide), ← hs1, strapped_pwr]
  have htim : s5.tim = { s2.tim with set := s5.tim.set } := by
    have h5t : s5.tim = { s4.tim with set := s5.tim.set } := hs5 ▸ headTime_tim _ s4
    rw [h5t, h4.same .tim (by decide), h3.same .tim (by decide)]
  have hret : s5.pwr.ret = s3.pwr.ret := by rw [hpwr]
  refine .of_only (exec_powerGood hg hh hs) (by rw [hs1, hs2, hs3, hs4, hs5])
    ((((h1.mono rfl).trans (h2.mono rfl)).trans (h3.mono rfl)).trans ((h4.mono rfl).trans (h5.mono rfl)) : Only (reporting [.pln, .tim, .srv, .lsh, .pwr]) s s5)
    ⟨by rw [hpwr], by rw [hpwr], by rw [hpwr], by rw [hpln]; split <;> rfl, by rw [hpln]; split <;> rfl, by rw [hpln]; split <;> rfl, by rw [hpln]; split <;> rfl,
      ?_, fun hr => ?_, fun hr => ?_, fun hv => ?_, fun hk => ⟨?_, ?_, ?_⟩⟩
  · rw [h5.same .lsh (by decide), h4.same .lsh (by decide), h3.same .lsh (by decide), h2.same .lsh (by decide), ← hs1, strapped_lrole]
  · have hd : decide (role.val = 2) = false := decide_eq_false hr
    rw [hd] at hs2 hs5
    have h54 : s4 = s5 := hs5
    have h21 : s1 = s2 := hs2
    rw [← h54, h4.same .tim (by decide), h3.same .tim (by decide), ← h21, h1.same .tim (by decide)]
  · have hd : decide (role.val = 2) = true := decide_eq_true hr
    have hret1 : s1.pwr = { s.pwr with good := true, sup := supplies s.fuse.hx000 vexc viepe, retOk := retValid s } := hs1 ▸ strapped_pwr role pos mode vexc viepe s
    have htim2 : s2.tim = { s1.tim with sec := s.pwr.sbSec, ns := s.pwr.sbNs, epoch := if retValid s then (retEpoch s + 1) % 2 ^ 32 else 0 } := by
      rw [← hs2, hd, provisional, if_pos rfl, State.modTim_tim, retEpoch_congr (s := s) (by rw [hret1]), hret1]
    have hepoch : retEpoch s5 = s2.tim.epoch := by
      rw [retEpoch_congr hret, ← hs3, hd, htim2]
      cases hv : retValid s with
      | true =>
        rw [storeChecked_head, htim2, hv, if_pos rfl]
        exact Nat.mod_eq_of_lt (Nat.mod_lt _ (by decide))
      | false => exact (storeChecked_bad true s2).2.2
    exact ⟨by rw [htim, htim2], by rw [htim, htim2], by rw [htim, htim2], by rw [hepoch, htim]⟩
  · rw [hv] at hs3
    obtain ⟨hl, hval, hepoch⟩ := hs3 ▸ storeChecked_bad (decide (role.val = 2)) s2
    have h35 : Undisturbed s3 s5 := (hs4 ▸ strapsChecked_undisturbed _ _ s3 : Undisturbed s3 s4).trans (hs5 ▸ headTime_undisturbed _ s4)
    exact ⟨h35.stay hl, (retValid_congr hret).trans hval, (retEpoch_congr hret).trans hepoch⟩
  · have hl : Latched pgPLN plnSTRAP s4 := hs4 ▸ strapsChecked_latched (by rw [hfuse, hk])
    exact (hs5 ▸ headTime_undisturbed _ s4 : Undisturbed s4 s5).stay hl
  · rw [hpln, if_neg (by simp [hk])]
  · rw [hpln, if_neg (by simp [hk])]

end Sys2Proof.Machine
end

section
/-! PROOF. The boot image, the start-up bounds and the end of parking (R446, R465, R472, R473). -/

namespace Sys2Proof.Machine

/-! ## The boot loader (R446) -/

theorem refreshOffer_undisturbed (s : State) : Undisturbed s (refreshOffer s) := by
  unfold refreshOffer
  dsimp only
  refine .ite (.refl s) (.raise (.bumpGen ?_ _) (by decide) _ _)
  exact .of_only (modFab_only _ s) rfl

theorem goldLoaded_undisturbed (s : State) : Undisturbed s (goldLoaded s) := by
  unfold goldLoaded
  have h : Undisturbed s (s.modBst fun b => { b with state := bstIdle s }) := .of_only (modBst_only _ s) rfl
  exact .ite h (h.raise (by decide) _ _)

/-- An image put to run. -/
def runImage (bank : Nat) (alt : Bool) (h : Hdr) (s : State) : State :=
  goldLoaded (refreshOffer (bumpGen pgFWL (s.modFwl fun w => { w with run := some h, bank := bank, alt := alt })))

theorem runImage_fwl (bank : Nat) (alt : Bool) (h : Hdr) (s : State) : (runImage bank alt h s).fwl = { s.fwl with run := some h, bank := bank, alt := alt } :=
  ((refreshOffer_undisturbed _).trans (goldLoaded_undisturbed _)).fwl.trans rfl

section
variable {s : State} {h : Hdr}

theorem bootLoad_active (hb : bankImage (bootRec s).active s = (0, h)) : bootLoad s = runImage (bootRec s).active false h s := by
  rw [bootLoad, hb]
  rfl

theorem bootLoad_other (h0 : (bankImage (bootRec s).active s).1 ≠ 0) (hb : bankImage (1 - (bootRec s).active) s = (0, h)) :
    bootLoad s = fwRaise fwlBOOTALT 0 (runImage (1 - (bootRec s).active) true h s) := by
  unfold bootLoad
  dsimp only
  rw [if_neg h0, hb]
  rfl

theorem bootLoad_none (h0 : (bankImage (bootRec s).active s).1 ≠ 0) (h1 : (bankImage (1 - (bootRec s).active) s).1 ≠ 0) : bootLoad s = s := by
  unfold bootLoad
  dsimp only
  rw [if_neg h0, if_neg h1]

end

/-- The ports on which a slice can arrive leave the off state. -/
def openPortsAtBoot (s : State) : State :=
  (if s.pln.role = 0 then List.range 8 else if isManager s then (List.range 16).map (· + 8) else []).foldl (fun s p => toHunt p s) s

theorem openPortsAtBoot_only (s : State) : Only portAreas s (openPortsAtBoot s) := Only.foldl (fun t p => toHunt_only p t) _ s

theorem openPortsAtBoot_undisturbed (s : State) : Undisturbed s (openPortsAtBoot s) := .foldl (fun t p => toHunt_undisturbed p t) _ s

/-- A port that a satellite hub opens hunts. -/
theorem openPortsAtBoot_hunts {s : State} (hr : s.pln.role = 0) {q : Nat} (hq : q < 8) : (lane q (openPortsAtBoot s)).state = 1 := by
  obtain ⟨t, -, -, hft⟩ := unit_foldl_of_mem (unit := fun q t => (lane q t).standing) (P := fun _ => True) (f := fun s p => toHunt p s) (s := s) (fun _ _ _ => trivial)
    (fun t _ j k hjk => (toHunt_moves k t).others j hjk) trivial List.nodup_range (List.mem_range.mpr hq)
  rw [openPortsAtBoot, if_pos hr]
  generalize (List.range 8).foldl (fun s p => toHunt p s) s = u at hft
  have hst : (lane q u).standing = (1, 0, (lane q t).losPin) := hft.trans (toHunt_moves q t).self
  exact congrArg (·.1) hst

/-- The image that the boot loader left runs, and ports leave the off state. -/
theorem bootLoadDone_runs {s : State} (hg : s.pwr.good = true) (hn : s.fwl.run = none) {u : State} (hb : bootLoad s = u) {f : Fwl} {h : Hdr} (hf : u.fwl = f) (hr : f.run = some h) :
    Runs .bootLoadDone s (reporting [.bst, .pln, .lanes, .lsh, .pwr]) fun t =>
      t.fwl = f ∧ t.pwr.good = true ∧ (∀ q, q < 8 → s.pln.role = 0 → (lane q t).state = 1) ∧ ∀ p b, Latched p b u → Latched p b t := by
  subst hf
  have hu : Only _ s u := hb ▸ bootLoad_only s
  have hgo : ¬(s.pwr.good = false ∨ s.fwl.run.isSome = true) := by simp [hg, hn]
  have hrun : ¬u.fwl.run.isNone = true := by simp [hr]
  have hmark := startMark_only 0 u
  have hopen := openPortsAtBoot_only (startMark 0 u)
  have hund : Undisturbed u (openPortsAtBoot (startMark 0 u)) := (Undisturbed.of_only hmark rfl).trans (openPortsAtBoot_undisturbed _)
  refine .of_only (u := openPortsAtBoot (startMark 0 u)) ?_ rfl (((hu.mono rfl).trans (hmark.mono rfl)).trans (hopen.mono rfl)) ⟨hund.fwl, ?_, fun q hq h0 => ?_, fun _ _ hl => hund.stay hl⟩
  · refine congrArg Host.Outcome.next ((if_neg hgo).trans ?_)
    rw [hb]
    exact if_neg hrun
  · rw [hopen.same .pwr (by decide), startMark_pwr]
    exact (congrArg Pwr.good (hu.same .pwr (by decide))).trans hg
  · exact openPortsAtBoot_hunts ((congrArg Pln.role ((hmark.same .pln (by decide)).trans (hu.same .pln (by decide)))).trans h0) hq

theorem bootLoadDone_none_runs {s : State} (hg : s.pwr.good = true) (hn : s.fwl.run = none) (h0 : (bankImage (bootRec s).active s).1 ≠ 0)
    (h1 : (bankImage (1 - (bootRec s).active) s).1 ≠ 0) : Runs .bootLoadDone s [.pwr] fun t => t.pwr = { s.pwr with good := false } := by
  have hgo : ¬(s.pwr.good = false ∨ s.fwl.run.isSome = true) := by simp [hg, hn]
  refine .of_only (u := s.modPwr fun w => { w with good := false }) ?_ rfl (modPwr_only _ s) rfl
  refine congrArg Host.Outcome.next ((if_neg hgo).trans ?_)
  rw [bootLoad_none h0 h1]
  exact if_pos (by simp [hn])

/-! ## The bounds of start-up (R473) -/

theorem startBoundTimer_late_runs {step_ : Fin 11} {s : State} (h : stepReached step_.val s = false) : Runs (.startBoundTimer step_) s reports (Latched pgPWR pwrSTARTLATE) :=
  .of_only rfl (if_neg (by simp [h])) ((raise_only _ _ _ s).mono rfl) (raise_latched _ _ (by decide) (by decide))

theorem startBoundTimer_met_runs {step_ : Fin 11} {s : State} (h : stepReached step_.val s = true) : Runs (.startBoundTimer step_) s [] fun t => t = s :=
  .of_only rfl (if_pos h) (.refl _ s) rfl

/-! ## Parked (R465) -/

/-- The dice are off: parked. -/
theorem diceOffDone_runs {s : State} (h2 : s.pwr.state = 2) (hs : s.pwr.stopped = true) (hu : s.pwr.unparkWait = false) : Runs .diceOffDone s (reporting [.pwr]) fun t =>
    t.pwr = { s.pwr with sampling := none, convOk := false, state := 3 } ∧ .dice false ∈ t.outbox ∧ Latched pgPWR 0 t := by
  have hgo : ¬(s.pwr.state ≠ 2 ∨ s.pwr.stopped = false) := by simp [h2, hs]
  generalize hv : s.modPwr (fun w => { w with sampling := none, convOk := false }) = v
  have hvo : Only [.pwr] s v := hv ▸ modPwr_only _ s
  have hvp : v.pwr = { s.pwr with sampling := none, convOk := false } := hv ▸ rfl
  have hpwr : (drive (.dice false) (pwrState 3 v)).pwr = { s.pwr with sampling := none, convOk := false, state := 3 } := (pwrState_pwr 3 v).trans (by rw [hvp])
  have hstate : v.pwr.state ≠ 3 := by rw [hvp]; exact fun h => absurd (h2.symm.trans h) (by decide)
  refine .of_only (u := drive (.dice false) (pwrState 3 v)) ?_ rfl (Only.next (drive_only _ _) rfl (Only.next (pwrState_only _ _) rfl (hvo.mono rfl)))
    ⟨hpwr, List.mem_cons_self, (pwrState_latched hstate).only (drive_only (.dice false) _) rfl⟩
  refine congrArg Host.Outcome.next ((if_neg hgo).trans ?_)
  rw [hv]
  exact if_neg (by rw [hpwr]; simp [hu])

/-- At its second an HX000, which has no dice, is parked. -/
theorem parkStop_hx000_runs {s : State} {p : Nat} (hp : s.pwr.tp = some p) (h2 : s.pwr.state = 2) (hs : s.pwr.stopped = false) (ht : p ≤ (now s).total) (hx : s.fuse.hx000 = true)
    (hu : s.pwr.unparkWait = false) : Runs .parkStop s (reporting [.pwr]) fun t => t.pwr = { s.pwr with state := 3 } ∧ Latched pgPWR 0 t := by
  have hgo : ¬(s.pwr.state ≠ 2 ∨ s.pwr.stopped = true ∨ (now s).total < p) := by simp [h2, hs, ht]
  refine .of_only (u := pwrState 3 s) ?_ rfl ((pwrState_only _ s).mono rfl) ⟨pwrState_pwr 3 s, pwrState_latched fun h => absurd (h2.symm.trans h) (by decide)⟩
  change execParkStop s = _
  unfold execParkStop
  rw [hp]
  refine congrArg Host.Outcome.next ((if_neg hgo).trans ((if_pos hx).trans (if_neg ?_)))
  rw [pwrState_pwr]
  simp [hu]

end Sys2Proof.Machine
end

section
/-! SUPPORT. Services and groups at a stop and at a start (R351, R353, R362, R465, R466). -/

namespace Sys2Proof.Machine

/-! ## The reflex map (R353) -/

/-- Of the services only the rules differ. -/
structure RulesOnly (s t : State) : Prop where
  svc : t.svc = { s.svc with rules := t.svc.rules }

theorem RulesOnly.refl (s : State) : RulesOnly s s := ⟨rfl⟩

theorem RulesOnly.trans {s t u : State} (h : RulesOnly s t) (k : RulesOnly t u) : RulesOnly s u := ⟨by rw [k.svc, h.svc]⟩

theorem RulesOnly.only {l : List Area} {s t u : State} (h : RulesOnly s t) (k : Only l t u) (hl : l.contains .svc = false) : RulesOnly s u := by
  have he : u.svc = t.svc := k.same .svc (by simpa using hl)
  exact ⟨by rw [he, h.svc]⟩

theorem RulesOnly.ite {c : Prop} [Decidable c] {s a b : State} (h : RulesOnly s a) (k : RulesOnly s b) : RulesOnly s (if c then a else b) := by
  split <;> assumption

theorem modRule_rulesOnly (k : Nat) (f : Rule → Rule) (s : State) : RulesOnly s (modRule k f s) := ⟨rfl⟩

theorem setActive_rulesOnly (k : Nat) (on : Bool) (s : State) : RulesOnly s (setActive k on s) := by
  have h := (modRule_rulesOnly k (fun r => { r with active := on }) s).only (driveTout_only (wbits (rule k s).a 24 4) (toutBall (wbits (rule k s).a 24 4) s) _) rfl
  exact .ite (.refl s) (.ite ((h.trans (modRule_rulesOnly k _ _)).only (raise_only _ _ _ _) rfl) h)

theorem evalRule_rulesOnly (s : State) (k : Nat) : RulesOnly s (evalRule s k) := by
  unfold evalRule
  dsimp only
  have h := modRule_rulesOnly k (fun r => { r with
    cond := condOf (rule k s).a s, till := if (condOf (rule k s).a s && !(rule k s).cond) = true then s.tim.up + wbits (rule k s).b 12 20 * 100 else r.till }) s
  split
  · exact h.trans (setActive_rulesOnly k _ _)
  · exact .ite (h.trans (setActive_rulesOnly k _ _)) h

theorem reflex_rulesOnly (s : State) : RulesOnly s (reflex s) :=
  foldl_keeps (P := RulesOnly s) (fun t ht k => ht.trans (evalRule_rulesOnly t k)) (.refl s) _

theorem RulesOnly.alarm {s t : State} (h : RulesOnly s t) (c : Nat) : alarm c t = Machine.alarm c s := by rw [Machine.alarm, h.svc, Machine.alarm]

theorem RulesOnly.track {s t : State} (h : RulesOnly s t) (k : Nat) : track k t = Machine.track k s := by rw [Machine.track, h.svc, Machine.track]

/-! ## Comparators (R351) -/

theorem restartCmpr_alarm (c k : Nat) (s : State) : (alarm c (restartCmpr c k s) = setCmpr k {} (alarm c s) ∧ ∀ j, j ≠ c → alarm j (restartCmpr c k s) = alarm j s) ∧
    ∀ n, track n (restartCmpr c k s) = track n s := by
  obtain ⟨u, hu, hr⟩ : ∃ u, u.svc = s.svc ∧ restartCmpr c k s = modAlarm c (setCmpr k {}) u := by
    refine ⟨_, ?_, rfl⟩
    split
    · split
      · exact (alarmEvent_only _ _ _ _ _ _ s).same .svc (by decide)
      · rfl
    · rfl
  rw [hr]
  exact ⟨⟨by rw [alarm_modAlarm_self, alarm_congr hu], fun j hj => by rw [alarm_modAlarm_of_ne u hj, alarm_congr hu]⟩, fun n => by rw [track_modAlarm, track_congr hu]⟩

/-- Both comparators of a channel out of alarm. -/
def restartCmprs (s : State) (c : Nat) : State := restartCmpr c 2 (restartCmpr c 1 s)

theorem restartCmprs_out (s : State) (c : Nat) : (alarm c (restartCmprs s c)).c1 = {} ∧ (alarm c (restartCmprs s c)).c2 = {} := by
  rw [restartCmprs, (restartCmpr_alarm c 2 _).1.1, (restartCmpr_alarm c 1 s).1.1]
  exact ⟨rfl, rfl⟩

theorem restartCmprs_of_ne {c j : Nat} (h : j ≠ c) (s : State) : alarm j (restartCmprs s c) = alarm j s := by
  rw [restartCmprs, (restartCmpr_alarm c 2 _).1.2 j h, (restartCmpr_alarm c 1 s).1.2 j h]

theorem restartCmprs_track (s : State) (c n : Nat) : track n (restartCmprs s c) = track n s := by
  rw [restartCmprs, (restartCmpr_alarm c 2 _).2, (restartCmpr_alarm c 1 s).2]

/-- Every comparator out of alarm. -/
def allCmprsOut (s : State) : State := (List.range 320).foldl restartCmprs s

theorem allCmprsOut_eq (s : State) : (List.range 320).foldl (fun s c => restartCmpr c 2 (restartCmpr c 1 s)) s = allCmprsOut s := rfl

theorem allCmprsOut_out (s : State) {c : Nat} (hc : c < 320) : (alarm c (allCmprsOut s)).c1 = {} ∧ (alarm c (allCmprsOut s)).c2 = {} := by
  obtain ⟨t, -, -, hft⟩ := unit_foldl_of_mem (unit := alarm) (P := fun _ => True) (f := restartCmprs) (s := s) (fun _ _ _ => trivial)
    (fun t _ j k hjk => restartCmprs_of_ne hjk t) trivial List.nodup_range (List.mem_range.mpr hc)
  rw [allCmprsOut, hft]
  exact restartCmprs_out t c

theorem allCmprsOut_track (s : State) (n : Nat) : track n (allCmprsOut s) = track n s :=
  foldl_keeps (P := fun t => track n t = track n s) (fun t ht c => (restartCmprs_track t c n).trans ht) rfl _

theorem allCmprsOut_only (s : State) : Only [.del, .svc] s (allCmprsOut s) := Only.foldl (fun t c => Only.next (restartCmpr_only c 2 _) rfl (restartCmpr_only c 1 t)) _ s

/-! ## Tracks and sections (R465) -/

theorem setTrackState_track (k st : Nat) (s : State) : (track k (setTrackState k st s)).state = st ∧ (∀ j, j ≠ k → track j (setTrackState k st s) = track j s) ∧
    ∀ c, alarm c (setTrackState k st s) = alarm c s := by
  unfold setTrackState
  split
  · exact ⟨‹_›, fun _ _ => rfl, fun _ => rfl⟩
  · have hsvc : (bumpGen pgORD (modTrack k (fun t => { t with state := st }) s)).svc = (modTrack k (fun t => { t with state := st }) s).svc := rfl
    exact ⟨by rw [track_congr hsvc, track_modTrack_self], fun j hj => by rw [track_congr hsvc, track_modTrack_of_ne s hj], fun c => by rw [alarm_congr hsvc, alarm_modTrack]⟩

/-- A track begins again. -/
def restartTrack (s : State) (k : Nat) : State :=
  if (track k s).en then setTrackState k 1 (modTrack k (fun t => { t with edges := [], base := 0, j := 0, ins := [], rev0 := none }) s) else s

/-- A weigh section begins again. -/
def restartSect (s : State) (k : Nat) : State :=
  if (sect k s).en then modSect k (fun x => { x with on := [], inside := 0, span0 := none, spanned := none, recs := [] }) s else s

theorem restartTrack_track {s : State} {k : Nat} (h : (track k s).en = true) : (track k (restartTrack s k)).state = 1 := by
  rw [restartTrack, if_pos h]
  exact (setTrackState_track k 1 _).1

theorem restartTrack_of_ne {k j : Nat} (h : j ≠ k) (s : State) : track j (restartTrack s k) = track j s := by
  unfold restartTrack
  split
  · rw [(setTrackState_track k 1 _).2.1 j h, track_modTrack_of_ne s h]
  · rfl

theorem restartTrack_alarm (s : State) (k c : Nat) : alarm c (restartTrack s k) = alarm c s := by
  unfold restartTrack
  split
  · rw [(setTrackState_track k 1 _).2.2, alarm_modTrack]
  · rfl

theorem restartSect_keeps (s : State) (k : Nat) : (∀ n, track n (restartSect s k) = track n s) ∧ ∀ c, alarm c (restartSect s k) = alarm c s := by
  unfold restartSect
  split
  · exact ⟨fun _ => track_modSect .., fun _ => alarm_modSect ..⟩
  · exact ⟨fun _ => rfl, fun _ => rfl⟩

/-- An enabled track is in state 1 again. -/
theorem restartServices_track {s : State} {k : Nat} (hk : k < 16) (h : (track k s).en = true) : (track k (restartServices s)).state = 1 := by
  obtain ⟨t, -, hst, hft⟩ := unit_foldl_of_mem (unit := track) (P := fun _ => True) (f := restartTrack) (s := s) (fun _ _ _ => trivial)
    (fun t _ j k hjk => restartTrack_of_ne hjk t) trivial List.nodup_range (List.mem_range.mpr hk)
  have hsects : track k (restartServices s) = track k ((List.range 16).foldl restartTrack s) :=
    foldl_keeps (P := fun t => track k t = track k ((List.range 16).foldl restartTrack s)) (fun t ht n => ((restartSect_keeps t n).1 k).trans ht) rfl _
  rw [hsects, hft]
  exact restartTrack_track (by rw [hst]; exact h)

theorem restartServices_alarm (s : State) (c : Nat) : alarm c (restartServices s) = alarm c s :=
  foldl_keeps (P := fun t => alarm c t = alarm c s) (fun t ht n => ((restartSect_keeps t n).2 c).trans ht)
    (foldl_keeps (P := fun t => alarm c t = alarm c s) (fun t ht n => (restartTrack_alarm t n c).trans ht) rfl _) _

/-! ## Groups (R465) -/

/-- A group stands still. -/
def GroupStill (x : Group) : Prop := x.ovl = none ∧ x.q = [] ∧ x.task = 0 ∧ x.tat.run = false

theorem stopGroup_still (g : Nat) (s : State) : GroupStill (grp g (stopGroup g s)) := by
  unfold stopGroup
  rw [grp_modGrp_self]
  exact ⟨rfl, rfl, rfl, rfl⟩

theorem leaveSlice_of_ne {k j : Nat} (h : j ≠ k) (s : State) : grp j (leaveSlice k s) = grp j s := by
  unfold leaveSlice
  dsimp only
  split
  · exact grp_modGrp_of_ne _ h _
  · rfl

theorem stopGroup_of_ne {g j : Nat} (h : j ≠ g) (s : State) : grp j (stopGroup g s) = grp j s := by
  have hgen (u : State) : grp j (groupGen g u) = grp j u := grp_congr ((bumpGen_only _ u).same .grps (by decide)) j
  have hleft : grp j (if s.bst.running.contains g then leaveSlice g s else s) = grp j s := by
    split
    · exact leaveSlice_of_ne h s
    · rfl
  unfold stopGroup
  rw [grp_modGrp_of_ne _ h]
  generalize (if s.bst.running.contains g then leaveSlice g s else s) = u at hleft ⊢
  split
  · exact (hgen u).trans hleft
  · exact hleft

theorem stopGroups_still {s : State} (hx : s.fuse.hx000 = false) {g : Nat} (hg : g < 24) : GroupStill (grp g (stopGroups s)) := by
  obtain ⟨t, -, -, hft⟩ := unit_foldl_of_mem (unit := grp) (P := fun _ => True) (f := fun s g => stopGroup g s) (s := s) (fun _ _ _ => trivial)
    (fun t _ j k hjk => stopGroup_of_ne hjk t) trivial List.nodup_range (List.mem_range.mpr hg)
  rw [stopGroups, if_neg (by simp [hx]), hft]
  exact stopGroup_still g t

theorem stopGroup_undisturbed (g : Nat) (s : State) : Undisturbed s (stopGroup g s) := by
  have hleft : Undisturbed s (if s.bst.running.contains g then leaveSlice g s else s) := .ite (.of_only (leaveSlice_only g s) rfl) (.refl s)
  unfold stopGroup
  refine Undisturbed.only ?_ (modGrp_only g _ _) rfl
  generalize (if s.bst.running.contains g then leaveSlice g s else s) = u at hleft ⊢
  exact .ite (hleft.bumpGen _) hleft

theorem stopGroups_undisturbed (s : State) : Undisturbed s (stopGroups s) := .ite (.refl s) (.foldl (fun t g => stopGroup_undisturbed g t) _ s)

end Sys2Proof.Machine
end

section
/-! PROOF. Parking's stop, and the loss of the analogue supply (R465, R466). -/

namespace Sys2Proof.Machine

/-! ## The slots of groups (R6) -/

theorem slotAt_inj {g h i j : Nat} (hi : i < groupSize g) (hj : j < groupSize h) (e : slotAt g i = slotAt h j) : g = h ∧ i = j := by
  unfold slotAt at e
  unfold groupSize at hi hj
  by_cases hg : g < 16 <;> by_cases hh : h < 16 <;> simp only [hg, hh, if_true, if_false] at hi hj e <;> omega

theorem groupSlots_nodup (g : Nat) : (groupSlots g).Nodup := by
  refine List.Nodup.map_on (fun i hi j hj e => ?_) List.nodup_range
  exact (slotAt_inj (List.mem_range.mp hi) (List.mem_range.mp hj) e).2

theorem slotAt_mem {g k : Nat} (hk : k < groupSize g) : slotAt g k ∈ groupSlots g := List.mem_map.mpr ⟨k, List.mem_range.mpr hk, rfl⟩

theorem slotAt_not_mem {g h k : Nat} (hk : k < groupSize g) (hne : g ≠ h) : slotAt g k ∉ groupSlots h := fun hm => by
  obtain ⟨i, hi, e⟩ := List.mem_map.mp hm
  exact hne (slotAt_inj hk (List.mem_range.mp hi) e.symm).1

/-! ## Parking's stop (R465) -/

section
variable {s : State} {p : Nat} (hp : s.pwr.tp = some p) (h2 : s.pwr.state = 2) (hs : s.pwr.stopped = false) (ht : p ≤ (now s).total) (hx : s.fuse.hx000 = false)
include hp h2 hs ht hx

theorem exec_parkStop : exec .parkStop s = .next ((stopGroups (restartServices (reflex (allCmprsOut s)))).modPwr fun w => { w with stopped := true }) := by
  have hgo : ¬(s.pwr.state ≠ 2 ∨ s.pwr.stopped = true ∨ (now s).total < p) := by simp [h2, hs, ht]
  change execParkStop s = _
  unfold execParkStop
  rw [hp]
  dsimp only
  rw [if_neg hgo, if_neg (by simp [hx]), allCmprsOut_eq]

theorem parkStop_runs : Runs .parkStop s (reporting [.bst, .svc, .grps, .pwr]) fun t => t.pwr = { s.pwr with stopped := true } ∧ (∀ g, g < 24 → GroupStill (grp g t)) ∧
    (∀ c, c < 320 → (alarm c t).c1 = {} ∧ (alarm c t).c2 = {}) ∧ ∀ k, k < 16 → (track k s).en = true → (track k t).state = 1 := by
  generalize hu : restartServices (reflex (allCmprsOut s)) = u
  have hsu : Only (reporting [.svc]) s u := hu ▸ Only.next (restartServices_only _) rfl (Only.next (reflex_only _) rfl ((allCmprsOut_only s).mono rfl))
  have hsvc : (stopGroups u).svc = u.svc := (stopGroups_only u).same .svc (by decide)
  have hrules := reflex_rulesOnly (allCmprsOut s)
  refine .of_only (exec_parkStop hp h2 hs ht hx) (by rw [hu]) (Only.next (modPwr_only _ _) rfl (Only.next (stopGroups_only u) rfl (hsu.mono rfl)))
    ⟨?_, fun g hg => ?_, fun c hc => ?_, fun k hk he => ?_⟩
  · rw [State.modPwr_pwr, (stopGroups_only u).same .pwr (by decide), hsu.same .pwr (by decide)]
  · rw [grp_modPwr]
    exact stopGroups_still ((congrArg Fuse.hx000 (hsu.same .fuse (by decide))).trans hx) hg
  · have hc' : alarm c ((stopGroups u).modPwr fun w => { w with stopped := true }) = alarm c (allCmprsOut s) := by
      rw [alarm_modPwr, alarm_congr hsvc, ← hu, restartServices_alarm, hrules.alarm]
    rw [hc']
    exact allCmprsOut_out s hc
  · have hk' : track k ((stopGroups u).modPwr fun w => { w with stopped := true }) = track k (restartServices (reflex (allCmprsOut s))) := by
      rw [track_modPwr, track_congr hsvc, ← hu]
    rw [hk']
    exact restartServices_track hk (by rw [hrules.track, allCmprsOut_track]; exact he)

end

/-! ## The analogue supply lost (R466) -/

/-- A blocked campaign changes nothing else of its group, and nothing of another. -/
theorem blockCamp_grp (g : Nat) (s : State) :
    grp g (blockCamp g s) = { grp g s with blocked := (grp g (blockCamp g s)).blocked, blkRaised := (grp g (blockCamp g s)).blkRaised } ∧
    ∀ j, j ≠ g → grp j (blockCamp g s) = grp j s := by
  unfold blockCamp
  split
  · exact ⟨rfl, fun _ _ => rfl⟩
  · split
    · exact ⟨by rw [grp_modGrp_self], fun j hj => grp_modGrp_of_ne s hj _⟩
    · have hraise (u : State) (j : Nat) : grp j (raise pgCAL calBLOCKED (g * 256) (condStart pgCAL calBLOCKED g u)) = grp j u :=
        grp_congr (((raise_only _ _ _ _).same .grps (by decide)).trans ((condStart_only _ _ _ u).same .grps (by decide))) j
      exact ⟨by rw [hraise, grp_modGrp_self], fun j hj => by rw [hraise, grp_modGrp_of_ne s hj]⟩

/-- A channel without a converter. -/
def Chan.unassigned (x : Chan) : Chan := { x with duty := none, coarse := none, nextT := none }

/-- A group without converters in use. -/
def dropConvs (s : State) (g : Nat) : State :=
  blockCamp g (groupGen g (modGrp g (fun x => { x with relief := none }) ((groupSlots g).foldl (fun s c => modChan c Chan.unassigned s) s)))

theorem dropConvs_only (s : State) (g : Nat) : Only [.pages, .fab, .del, .pci, .fwl, .chans, .grps, .outbox] s (dropConvs s g) :=
  Only.next (blockCamp_only _ _) rfl (Only.next (bumpGen_only _ _) rfl (Only.next (modGrp_only _ _ _) rfl ((Only.foldl (fun t c => modChan_only c _ t) _ s).mono rfl)))

theorem dropConvs_chan (s : State) (g c : Nat) : chan c (dropConvs s g) = if c ∈ groupSlots g then (chan c s).unassigned else chan c s := by
  have hchans : (dropConvs s g).chans = ((groupSlots g).foldl (fun s c => modChan c Chan.unassigned s) s).chans := (blockCamp_only g _).same .chans (by decide)
  have hne : ∀ t : State, True → ∀ j k : Nat, j ≠ k → chan j (modChan k Chan.unassigned t) = chan j t := fun t _ j k hjk => chan_modChan_of_ne t hjk _
  rw [chan_congr hchans]
  split
  · next hm =>
    obtain ⟨t, -, hst, hft⟩ := unit_foldl_of_mem (unit := chan) (P := fun _ => True) (s := s) (fun _ _ _ => trivial) hne trivial (groupSlots_nodup g) hm
    rw [hft, chan_modChan_self, hst]
  · next hm => exact unit_foldl_of_not_mem (unit := chan) (P := fun _ => True) (fun _ _ _ => trivial) hne trivial hm

theorem dropConvs_grp (s : State) (g : Nat) : (GroupStill (grp g s) → GroupStill (grp g (dropConvs s g))) ∧ (grp g (dropConvs s g)).relief = none ∧
    ∀ j, j ≠ g → grp j (dropConvs s g) = grp j s := by
  have hgrps : ((groupSlots g).foldl (fun s c => modChan c Chan.unassigned s) s).grps = s.grps := (Only.foldl (fun t c => modChan_only c _ t) _ s).same .grps (by decide)
  generalize hu : (groupSlots g).foldl (fun s c => modChan c Chan.unassigned s) s = u at hgrps
  obtain ⟨hself, hothers⟩ := blockCamp_grp g (groupGen g (modGrp g (fun x => { x with relief := none }) u))
  have hbefore (j : Nat) : grp j (groupGen g (modGrp g (fun x => { x with relief := none }) u)) = grp j (modGrp g (fun x => { x with relief := none }) u) := rfl
  rw [dropConvs, hu, hself, hbefore, grp_modGrp_self, grp_congr hgrps]
  exact ⟨id, rfl, fun j hj => by rw [hothers j hj, hbefore, grp_modGrp_of_ne u hj, grp_congr hgrps]⟩

theorem blockCamp_undisturbed (g : Nat) (s : State) : Undisturbed s (blockCamp g s) := by
  have h (f : Group → Group) : Undisturbed s (modGrp g f s) := .of_only (modGrp_only g f s) rfl
  exact .ite (.refl s) (.ite (h _) (.raise (.only (h _) (condStart_only _ _ _ _) rfl) (by decide) _ _))

theorem dropConvs_undisturbed (s : State) (g : Nat) : Undisturbed s (dropConvs s g) := by
  have hchans : Undisturbed s ((groupSlots g).foldl (fun s c => modChan c Chan.unassigned s) s) := .foldl (fun t c => .of_only (modChan_only c _ t) rfl) _ s
  exact (Undisturbed.bumpGen (hchans.only (modGrp_only g _ _) rfl) _).trans (blockCamp_undisturbed g _)

/-- Each group at its turn, and as its turn leaves it. -/
theorem dropAllConvs (s : State) {g : Nat} (hg : g < 24) : (GroupStill (grp g s) → GroupStill (grp g ((List.range 24).foldl dropConvs s))) ∧
    (grp g ((List.range 24).foldl dropConvs s)).relief = none ∧
    ∀ k, k < groupSize g → chan (slotAt g k) ((List.range 24).foldl dropConvs s) = (chan (slotAt g k) s).unassigned := by
  have hg' := List.mem_range.mpr hg
  have hne : ∀ t : State, True → ∀ j k : Nat, j ≠ k → grp j (dropConvs t k) = grp j t := fun t _ j k hjk => (dropConvs_grp t k).2.2 j hjk
  obtain ⟨t, -, hst, hft⟩ := unit_foldl_of_mem (unit := grp) (P := fun _ => True) (f := dropConvs) (s := s) (fun _ _ _ => trivial) hne trivial List.nodup_range hg'
  obtain ⟨hstill, hrelief, -⟩ := dropConvs_grp t g
  rw [hft]
  refine ⟨fun h => hstill (hst ▸ h), hrelief, fun k hk => ?_⟩
  have hslot : ∀ t : State, True → ∀ j h : Nat, j ≠ h → (if k < groupSize j then some (chan (slotAt j k) (dropConvs t h)) else none) = if k < groupSize j then some (chan (slotAt j k) t) else none := by
    intro t _ j h hjh
    split
    · next hkj => rw [dropConvs_chan, if_neg (slotAt_not_mem hkj hjh)]
    · rfl
  obtain ⟨t, -, hst, hft⟩ := unit_foldl_of_mem (unit := fun j t => if k < groupSize j then some (chan (slotAt j k) t) else none) (P := fun _ => True) (f := dropConvs) (s := s)
    (fun _ _ _ => trivial) hslot trivial List.nodup_range hg'
  rw [if_pos hk, if_pos hk, Option.some.injEq] at hst hft
  rw [hft, dropConvs_chan, if_pos (slotAt_mem hk), hst]

theorem anaLost_eq {bit : Nat} {s : State} (hx : s.fuse.hx000 = false) (ha : s.pwr.anaLost = false) : anaLost bit s =
    (List.range 24).foldl dropConvs (stopGroups ((raise pgPWR pwrANALOST 0 (setSup bit false s)).modPwr fun w => { w with anaLost := true, sampling := none, convOk := false })) := by
  have hgo : ¬((setSup bit false s).fuse.hx000 = true ∨ (setSup bit false s).pwr.anaLost = true) := by
    rw [(setSup_only bit false s).same .fuse (by decide), setSup_pwr]
    simp [hx, ha]
  unfold anaLost
  dsimp only
  rw [if_neg hgo]
  rfl

theorem anaLost_runs {s : State} {lo : Bool} (hg : s.pwr.good = true) (hx : s.fuse.hx000 = false) (ha : s.pwr.anaLost = false) :
    Runs (.anaLost lo) s (reporting [.bst, .chans, .grps, .pwr]) fun t =>
      t.pwr = { s.pwr with sup := putBit s.pwr.sup (if lo then 5 else 6) false, anaLost := true, sampling := none, convOk := false } ∧ Latched pgPWR pwrANALOST t ∧
      ∀ g, g < 24 → GroupStill (grp g t) ∧ (grp g t).relief = none ∧ ∀ k, k < groupSize g → (chan (slotAt g k) t).duty = none ∧ (chan (slotAt g k) t).nextT = none := by
  generalize hu : (raise pgPWR pwrANALOST 0 (setSup (if lo then 5 else 6) false s)).modPwr (fun w => { w with anaLost := true, sampling := none, convOk := false }) = u
  have hsu : Only (reporting [.pwr]) s u := hu ▸ Only.next (modPwr_only _ _) rfl (Only.next (raise_only _ _ _ _) rfl ((setSup_only _ _ s).mono rfl))
  have hpwr : u.pwr = { s.pwr with sup := putBit s.pwr.sup (if lo then 5 else 6) false, anaLost := true, sampling := none, convOk := false } := by
    rw [← hu, State.modPwr_pwr, (raise_only _ _ _ _).same .pwr (by decide), setSup_pwr]
  have hlatched : Latched pgPWR pwrANALOST u := hu ▸ (raise_latched 0 (setSup (if lo then 5 else 6) false s) (by decide) (by decide)).only (modPwr_only _ _) rfl
  have hdrop := Only.foldl dropConvs_only (List.range 24) (stopGroups u)
  refine .of_only (u := anaLost (if lo then 5 else 6) s) (congrArg Host.Outcome.next (if_pos ⟨hg, hx⟩)) ((anaLost_eq hx ha).trans (by rw [hu]))
    (Only.trans (Only.next (stopGroups_only u) rfl (hsu.mono rfl)) (hdrop.mono rfl)) ⟨?_, ?_, fun g hg' => ?_⟩
  · rw [hdrop.same .pwr (by decide), (stopGroups_only u).same .pwr (by decide), hpwr]
  · exact ((stopGroups_undisturbed u).trans (.foldl dropConvs_undisturbed _ _)).stay hlatched
  · obtain ⟨hstill, hrelief, hchans⟩ := dropAllConvs (stopGroups u) hg'
    refine ⟨hstill (stopGroups_still ((congrArg Fuse.hx000 (hsu.same .fuse (by decide))).trans hx) hg'), hrelief, fun k hk => ?_⟩
    rw [hchans k hk]
    exact ⟨rfl, rfl⟩

end Sys2Proof.Machine
end

section
/-! PROOF. The converter check at start-up (R119, R472). -/

namespace Sys2Proof.Machine

/-! ## Retired converters and the relief -/

/-- The converters of a group that are retired, and its relief. -/
def Group.convs (x : Group) : Nat × Option Nat := (x.retired, x.relief)

/-- The converters of a group in service, ascending. -/
def okConvs (g : Nat) (s : State) : List Nat := (List.range (groupSize g + 1)).filter fun v => inServiceConv g v s

theorem okConvs_congr {g : Nat} {s t : State} (h : (grp g t).retired = (grp g s).retired) : okConvs g t = okConvs g s := by simp only [okConvs, inServiceConv, h]

theorem modGrp_convs {f : Group → Group} (hf : ∀ x, (f x).convs = x.convs) (g : Nat) (s : State) (j : Nat) : (grp j (modGrp g f s)).convs = (grp j s).convs := by
  by_cases hj : j = g
  · rw [hj, grp_modGrp_self, hf]
  · rw [grp_modGrp_of_ne s hj]

theorem blockCamp_convs (g : Nat) (s : State) (j : Nat) : (grp j (blockCamp g s)).convs = (grp j s).convs := by
  obtain ⟨hself, hothers⟩ := blockCamp_grp g s
  by_cases hj : j = g
  · rw [hj, hself]
    rfl
  · rw [hothers j hj]

/-! ## A converter that fails -/

theorem failConv_retired (g v : Nat) (s : State) (c : Nat) :
    ((grp g (failConv g v s)).retired.testBit c = true ↔ (grp g s).retired.testBit c = true ∨ v = c) ∧ ∀ j, j ≠ g → grp j (failConv g v s) = grp j s := by
  unfold failConv
  split
  · next h => exact ⟨⟨.inl, fun k => k.elim id fun e => e ▸ h⟩, fun _ _ => rfl⟩
  · have hraise (u : State) (j : Nat) : grp j (groupRaise g relRETIRED (convDetail v 0xFF) (groupGen g u)) = grp j u :=
      grp_congr (((raise_only _ _ _ _).same .grps (by decide)).trans ((bumpGen_only _ u).same .grps (by decide))) j
    refine ⟨?_, fun j hj => by rw [hraise, grp_modGrp_of_ne s hj]⟩
    rw [hraise, grp_modGrp_self, testBit_putBit_true]
    simp

/-- The converters that measurements fail. -/
def failConvs (g : Nat) (l : List RefMeas) (s : State) : State := l.foldl (fun s m => failConv g m.conv s) s

theorem failConvs_retired (g : Nat) (l : List RefMeas) (s : State) (c : Nat) :
    ((grp g (failConvs g l s)).retired.testBit c = true ↔ (grp g s).retired.testBit c = true ∨ ∃ m ∈ l, m.conv = c) ∧ ∀ j, j ≠ g → grp j (failConvs g l s) = grp j s := by
  induction l generalizing s with
  | nil => exact ⟨by simp [failConvs], fun _ _ => rfl⟩
  | cons m l ih =>
    obtain ⟨hself, hothers⟩ := failConv_retired g m.conv s c
    obtain ⟨iself, iothers⟩ := ih (failConv g m.conv s)
    refine ⟨iself.trans ?_, fun j hj => (iothers j hj).trans (hothers j hj)⟩
    rw [hself, List.exists_mem_cons_iff, or_assoc]

theorem failConvs_only (g : Nat) (l : List RefMeas) (s : State) : Only [.pages, .fab, .del, .pci, .fwl, .grps, .outbox] s (failConvs g l s) :=
  Only.foldl (fun t (m : RefMeas) => failConv_only g m.conv t) l s

/-! ## Channels assigned -/

/-- The relief of a group for the converters in service. -/
def assignRelief (g : Nat) (s : State) : State :=
  let relief := if (okConvs g s).length = groupSize g + 1 then some (groupSize g) else none
  let had := (grp g s).relief.isSome
  let s := groupGen g (modGrp g (fun x => { x with relief := relief, blocked := x.blocked && relief.isNone }) s)
  let s := if relief.isSome then freeRelief g s else blockCamp g s
  if had ∧ relief = none then groupRaise g relNORELIEF (convDetail 0xFF 0xFF) s else s

/-- A channel given its converter. -/
def assignChan (g : Nat) (ok : List Nat) (s : State) (k : Nat) : State :=
  let s := modChan (slotAt g k) (fun x => { x with duty := ok[k]?, coarse := ok[k]? }) s
  if (ok[k]?).isNone ∧ eCls (chan (slotAt g k) s).w ≠ 0 then groupRaise g relCONVLOST (convDetail 0xFF k) s else s

theorem assignConvs_eq (g : Nat) (s : State) : assignConvs g s = (List.range (groupSize g)).foldl (assignChan g (okConvs g s)) (assignRelief g s) := rfl

/-- The relief named, and the campaign of a group without one blocked. -/
def setRelief (g : Nat) (r : Option Nat) (s : State) : State :=
  let s := groupGen g (modGrp g (fun x => { x with relief := r, blocked := x.blocked && r.isNone }) s)
  if r.isSome then freeRelief g s else blockCamp g s

theorem setRelief_only (g : Nat) (r : Option Nat) (s : State) : Only [.pages, .fab, .del, .pci, .fwl, .grps, .outbox] s (setRelief g r s) := by
  have h : Only [.pages, .grps] s (groupGen g (modGrp g (fun x => { x with relief := r, blocked := x.blocked && r.isNone }) s)) :=
    Only.next (bumpGen_only _ _) rfl ((modGrp_only g _ s).mono rfl)
  exact .ite (Only.next (freeRelief_only g _) rfl (h.mono rfl)) (Only.next (blockCamp_only g _) rfl (h.mono rfl))

theorem setRelief_convs (g : Nat) (r : Option Nat) (s : State) :
    (grp g (setRelief g r s)).convs = ((grp g s).retired, r) ∧ ∀ j, j ≠ g → (grp j (setRelief g r s)).convs = (grp j s).convs := by
  generalize hu : groupGen g (modGrp g (fun x => { x with relief := r, blocked := x.blocked && r.isNone }) s) = u
  have hgrps : u.grps = (modGrp g (fun x => { x with relief := r, blocked := x.blocked && r.isNone }) s).grps := hu ▸ rfl
  have hset (j : Nat) : (grp j (setRelief g r s)).convs = (grp j u).convs := by
    unfold setRelief
    dsimp only
    rw [hu]
    split
    · unfold freeRelief
      refine modGrp_convs ?_ g u j
      exact fun _ => rfl
    · exact blockCamp_convs g u j
  exact ⟨by rw [hset, grp_congr hgrps, grp_modGrp_self]; rfl, fun j hj => by rw [hset, grp_congr hgrps, grp_modGrp_of_ne s hj]⟩

theorem assignRelief_eq (g : Nat) (s : State) : ∃ t, setRelief g (if (okConvs g s).length = groupSize g + 1 then some (groupSize g) else none) s = t ∧
    (assignRelief g s = t ∨ assignRelief g s = groupRaise g relNORELIEF (convDetail 0xFF 0xFF) t) := by
  refine ⟨_, rfl, ?_⟩
  unfold assignRelief
  dsimp only
  by_cases h : (grp g s).relief.isSome = true ∧ (if (okConvs g s).length = groupSize g + 1 then some (groupSize g) else none) = none
  · rw [if_pos h]
    exact .inr rfl
  · rw [if_neg h]
    exact .inl rfl

theorem assignRelief_only (g : Nat) (s : State) : Only [.pages, .fab, .del, .pci, .fwl, .grps, .outbox] s (assignRelief g s) := by
  obtain ⟨t, ht, h | h⟩ := assignRelief_eq g s
  · exact h ▸ ht ▸ setRelief_only g _ s
  · exact h ▸ Only.next (raise_only _ _ _ t) rfl (ht ▸ setRelief_only g _ s)

theorem assignRelief_convs (g : Nat) (s : State) :
    (grp g (assignRelief g s)).convs = ((grp g s).retired, if (okConvs g s).length = groupSize g + 1 then some (groupSize g) else none) ∧
    ∀ j, j ≠ g → (grp j (assignRelief g s)).convs = (grp j s).convs := by
  obtain ⟨t, ht, h⟩ := assignRelief_eq g s
  have hgrps : (assignRelief g s).grps = t.grps := h.elim (fun h => by rw [h]) fun h => by
    rw [h]
    exact (raise_only _ _ _ t).same .grps (by decide)
  simp only [grp_congr hgrps]
  exact ht ▸ setRelief_convs g _ s

theorem assignChan_only (g : Nat) (ok : List Nat) (s : State) (k : Nat) : Only [.pages, .fab, .del, .pci, .fwl, .chans, .outbox] s (assignChan g ok s k) := by
  have h := modChan_only (slotAt g k) (fun x => { x with duty := ok[k]?, coarse := ok[k]? }) s
  exact .ite (Only.next (raise_only _ _ _ _) rfl (h.mono rfl)) (h.mono rfl)

theorem assignChan_chan (g : Nat) (ok : List Nat) (s : State) (k : Nat) : (chan (slotAt g k) (assignChan g ok s k)).duty = ok[k]? ∧
    (chan (slotAt g k) (assignChan g ok s k)).coarse = ok[k]? ∧ ∀ c, c ≠ slotAt g k → chan c (assignChan g ok s k) = chan c s := by
  have h : (assignChan g ok s k).chans = (modChan (slotAt g k) (fun x => { x with duty := ok[k]?, coarse := ok[k]? }) s).chans := by
    unfold assignChan
    dsimp only
    split
    · exact (raise_only _ _ _ _).same .chans (by decide)
    · rfl
  rw [chan_congr h, chan_modChan_self]
  exact ⟨rfl, rfl, fun c hc => by rw [chan_congr h, chan_modChan_of_ne s hc]⟩

theorem slotAt_ne {g i j : Nat} (h : i ≠ j) : slotAt g i ≠ slotAt g j := by
  unfold slotAt
  split <;> omega

theorem assignConvs_chan (g : Nat) (s : State) : (∀ k, k < groupSize g → (chan (slotAt g k) (assignConvs g s)).duty = (okConvs g s)[k]? ∧
    (chan (slotAt g k) (assignConvs g s)).coarse = (okConvs g s)[k]?) ∧ ∀ c, c ∉ groupSlots g → chan c (assignConvs g s) = chan c s := by
  rw [assignConvs_eq]
  refine ⟨fun k hk => ?_, fun c hc => ?_⟩
  · obtain ⟨t, -, -, hft⟩ := unit_foldl_of_mem (unit := fun k t => chan (slotAt g k) t) (P := fun _ => True) (f := assignChan g (okConvs g s)) (s := assignRelief g s)
      (fun _ _ _ => trivial) (fun t _ j k hjk => (assignChan_chan g _ t k).2.2 _ (slotAt_ne hjk)) trivial List.nodup_range (List.mem_range.mpr hk)
    rw [hft]
    exact ⟨(assignChan_chan g _ t k).1, (assignChan_chan g _ t k).2.1⟩
  · have hr : chan c (assignRelief g s) = chan c s := chan_congr ((assignRelief_only g s).same .chans (by decide)) c
    refine List.foldlRecOn (motive := fun t => chan c t = chan c s) _ (assignChan g (okConvs g s)) hr fun t ht k hk => ?_
    exact ((assignChan_chan g _ t k).2.2 c fun e => hc (e ▸ slotAt_mem (List.mem_range.mp hk))).trans ht

theorem assignConvs_convs (g : Nat) (s : State) :
    (grp g (assignConvs g s)).convs = ((grp g s).retired, if (okConvs g s).length = groupSize g + 1 then some (groupSize g) else none) ∧
    ∀ j, j ≠ g → (grp j (assignConvs g s)).convs = (grp j s).convs := by
  have h : (assignConvs g s).grps = (assignRelief g s).grps := (Only.foldl (assignChan_only g (okConvs g s)) _ _).same .grps (by decide)
  obtain ⟨hself, hothers⟩ := assignRelief_convs g s
  exact ⟨by rw [grp_congr h, hself], fun j hj => by rw [grp_congr h, hothers j hj]⟩

/-! ## Every group checked -/

/-- A group checked: the converters that a measurement fails retired, its channels assigned. -/
def checkGroup (bad : List RefMeas) (s : State) (g : Nat) : State := assignConvs g (failConvs g (bad.filter (·.grp = g)) s)

theorem checkGroup_only (bad : List RefMeas) (s : State) (g : Nat) : Only [.pages, .fab, .del, .pci, .fwl, .chans, .grps, .outbox] s (checkGroup bad s g) :=
  Only.next (assignConvs_only g _) rfl ((failConvs_only g _ s).mono rfl)

theorem checkGroup_of_ne {g j : Nat} (h : j ≠ g) (bad : List RefMeas) (s : State) : (grp j (checkGroup bad s g)).convs = (grp j s).convs ∧
    ∀ k, k < groupSize j → chan (slotAt j k) (checkGroup bad s g) = chan (slotAt j k) s := by
  refine ⟨?_, fun k hk => ?_⟩
  · rw [checkGroup, (assignConvs_convs g _).2 j h, (failConvs_retired g _ s 0).2 j h]
  · rw [checkGroup, (assignConvs_chan g _).2 _ (slotAt_not_mem hk h), chan_congr ((failConvs_only g _ s).same .chans (by decide))]

/-- What a check leaves of a group. -/
structure Checked (bad : List RefMeas) (g : Nat) (s t : State) : Prop where
  retired : ∀ c, (grp g t).retired.testBit c = true ↔ (grp g s).retired.testBit c = true ∨ ∃ m ∈ bad, m.grp = g ∧ m.conv = c
  relief : (grp g t).relief = if (okConvs g t).length = groupSize g + 1 then some (groupSize g) else none
  duty : ∀ k, k < groupSize g → (chan (slotAt g k) t).duty = (okConvs g t)[k]? ∧ (chan (slotAt g k) t).coarse = (okConvs g t)[k]?

theorem checkGroup_checked (bad : List RefMeas) (s : State) (g : Nat) : Checked bad g s (checkGroup bad s g) := by
  have hconvs := (assignConvs_convs g (failConvs g (bad.filter (·.grp = g)) s)).1
  have hretired : (grp g (checkGroup bad s g)).retired = (grp g (failConvs g (bad.filter (·.grp = g)) s)).retired := congrArg (·.1) hconvs
  have hok := okConvs_congr hretired
  refine ⟨fun c => ?_, ?_, fun k hk => ?_⟩
  · rw [hretired, (failConvs_retired g _ s c).1]
    simp only [List.mem_filter, decide_eq_true_eq, and_assoc]
  · rw [hok]
    exact congrArg (·.2) hconvs
  · rw [hok]
    exact (assignConvs_chan g _).1 k hk

/-- A check is read off the group's converters and its channels. -/
theorem Checked.congr {bad : List RefMeas} {g : Nat} {s s' t t' : State} (h : Checked bad g s t) (hs : (grp g s').convs = (grp g s).convs) (ht : (grp g t').convs = (grp g t).convs)
    (hc : ∀ k, k < groupSize g → chan (slotAt g k) t' = chan (slotAt g k) t) : Checked bad g s' t' := by
  have hrs : (grp g s').retired = (grp g s).retired := congrArg (·.1) hs
  have hrt : (grp g t').retired = (grp g t).retired := congrArg (·.1) ht
  have hrelief : (grp g t').relief = (grp g t).relief := congrArg (·.2) ht
  have hok := okConvs_congr hrt
  exact ⟨fun c => by rw [hrs, hrt]; exact h.retired c, by rw [hrelief, hok]; exact h.relief, fun k hk => by rw [hok, hc k hk]; exact h.duty k hk⟩

/-- A group's converters and its channels. -/
def groupView (g : Nat) (s : State) : (Nat × Option Nat) × List Chan := ((grp g s).convs, (List.range (groupSize g)).map fun k => chan (slotAt g k) s)

theorem groupView_eq_iff {g : Nat} {s t : State} : groupView g t = groupView g s ↔ (grp g t).convs = (grp g s).convs ∧ ∀ k, k < groupSize g → chan (slotAt g k) t = chan (slotAt g k) s := by
  simp only [groupView, Prod.mk.injEq, List.map_inj_left, List.mem_range]

/-- Every group at its turn, and as its turn leaves it. -/
theorem checkGroups_checked (bad : List RefMeas) (s : State) {g : Nat} (hg : g < 24) : Checked bad g s ((List.range 24).foldl (checkGroup bad) s) := by
  obtain ⟨t, -, hst, hft⟩ := unit_foldl_of_mem (unit := groupView) (P := fun _ => True) (f := checkGroup bad) (s := s) (fun _ _ _ => trivial)
    (fun t _ j k hjk => groupView_eq_iff.mpr (checkGroup_of_ne hjk bad t)) trivial List.nodup_range (List.mem_range.mpr hg)
  obtain ⟨hconvs, hchans⟩ := groupView_eq_iff.mp hft
  exact (checkGroup_checked bad t g).congr (groupView_eq_iff.mp hst).1.symm hconvs hchans

/-- A group powered for a commit is checked: it waits for its start. -/
def wakeChecked (s : State) (g : Nat) : State := if (grp g s).wake = 1 then modGrp g (fun x => { x with wake := 2 }) s else s

theorem wakeChecked_convs (s : State) (g j : Nat) : (grp j (wakeChecked s g)).convs = (grp j s).convs := by
  unfold wakeChecked
  split
  · refine modGrp_convs ?_ g s j
    exact fun _ => rfl
  · rfl

theorem wakeChecked_only (s : State) (g : Nat) : Only [.grps] s (wakeChecked s g) := .ite (modGrp_only g _ s) (.refl _ s)

/-- The measurements of converters that fail the check. -/
def failing (meas : List RefMeas) (s : State) : List RefMeas :=
  meas.filter fun m => (List.range 24).contains m.grp && decide (m.conv ≤ groupSize m.grp) && !(refCheckOk m.grp m.conv m.range (m.u0, m.up, m.un) s)

theorem mem_failing {meas : List RefMeas} {s : State} {m : RefMeas} {g c : Nat} (hg : g < 24) (hc : c ≤ groupSize g) :
    m ∈ failing meas s ∧ m.grp = g ∧ m.conv = c ↔ m ∈ meas ∧ m.grp = g ∧ m.conv = c ∧ refCheckOk g c m.range (m.u0, m.up, m.un) s = false := by
  simp only [failing, List.mem_filter, Bool.and_eq_true, decide_eq_true_eq, Bool.not_eq_true', List.contains_iff_mem, List.mem_range]
  constructor
  · rintro ⟨⟨hm, -, hr⟩, rfl, rfl⟩
    exact ⟨hm, rfl, rfl, hr⟩
  · rintro ⟨hm, rfl, rfl, hr⟩
    exact ⟨⟨hm, ⟨hg, hc⟩, hr⟩, rfl, rfl⟩

section
variable {meas : List RefMeas} {s : State} (hx : s.fuse.hx000 = false) (ha : s.pwr.anaLost = false) (h2 : s.pwr.state < 2) (ho : s.pwr.convOk = false)
include hx ha h2 ho

theorem exec_converterCheckDone : exec (.converterCheckDone meas) s = .next (startMark 2
    (((List.range 24).foldl wakeChecked ((List.range 24).foldl (checkGroup (failing meas s)) s)).modPwr fun w => { w with convOk := true })) := by
  have hgo : ¬(s.fuse.hx000 = true ∨ s.pwr.anaLost = true ∨ s.pwr.state = 2 ∨ s.pwr.state = 3 ∨ s.pwr.state = 5) := by
    simp [hx, ha]
    omega
  have hgs : checkedGroups s = List.range 24 := by simp [checkedGroups, hx, ho]
  change execConverterCheckDone meas s = _
  unfold execConverterCheckDone
  dsimp only
  rw [if_neg hgo, hgs]
  rfl

theorem converterCheckDone_runs : Runs (.converterCheckDone meas) s (reporting [.pwr, .chans, .grps]) fun t => t.pwr.convOk = true ∧
    ∀ g, g < 24 → (∀ c, c ≤ groupSize g → ((grp g t).retired.testBit c = true ↔ (grp g s).retired.testBit c = true ∨
        ∃ m ∈ meas, m.grp = g ∧ m.conv = c ∧ refCheckOk g c m.range (m.u0, m.up, m.un) s = false)) ∧
      (grp g t).relief = (if (okConvs g t).length = groupSize g + 1 then some (groupSize g) else none) ∧
      ∀ k, k < groupSize g → (chan (slotAt g k) t).duty = (okConvs g t)[k]? ∧ (chan (slotAt g k) t).coarse = (okConvs g t)[k]? := by
  generalize hu : (List.range 24).foldl (checkGroup (failing meas s)) s = u
  have hsu : Only _ s u := hu ▸ Only.foldl (checkGroup_only (failing meas s)) _ s
  have hwake := Only.foldl wakeChecked_only (List.range 24) u
  have hwaked (j : Nat) : (grp j ((List.range 24).foldl wakeChecked u)).convs = (grp j u).convs :=
    foldl_keeps (P := fun t => (grp j t).convs = (grp j u).convs) (fun t ht g => (wakeChecked_convs t g j).trans ht) rfl _
  generalize hv : (List.range 24).foldl wakeChecked u = v at hwake hwaked
  have hmark := startMark_only 2 (v.modPwr fun w => { w with convOk := true })
  refine .of_only (exec_converterCheckDone hx ha h2 ho) (by rw [hu, hv])
    (Only.next hmark rfl (Only.next (modPwr_only _ v) rfl (Only.next hwake rfl (hsu.mono rfl)))) ⟨by rw [startMark_pwr]; rfl, fun g hg => ?_⟩
  have hchecked : Checked (failing meas s) g s (startMark 2 (v.modPwr fun w => { w with convOk := true })) := by
    refine (hu ▸ checkGroups_checked (failing meas s) s hg : Checked (failing meas s) g s u).congr rfl ?_ fun k _ => ?_
    · rw [grp_congr (hmark.same .grps (by decide)), grp_modPwr, hwaked]
    · rw [chan_congr (hmark.same .chans (by decide)), chan_modPwr, chan_congr (hwake.same .chans (by decide))]
  refine ⟨fun c hc => (hchecked.retired c).trans (or_congr Iff.rfl (exists_congr fun m => mem_failing hg hc)), hchecked.relief, hchecked.duty⟩

end

end Sys2Proof.Machine
end

section
/-! PROOF. Sampling starts (R464, R472, R474). -/

namespace Sys2Proof.Machine

/-! ## One chain (R474) -/

/-- A chain's state cleared for a start at an instant. -/
def Chan.cleared (t : Int) (x : Chan) : Chan :=
  { x with spans := [], hist := [], ready := [], tb := none, tr := none, settle := false, pendF := false, rateSet := false, regr := false, hDue := false,
           swTo := none, swAt := none, skipAt := none, isOpen := false, brk := none, brkEnd := none, rail := 0, off := 0, mon := 0, biasLow := 0, dn := 0,
           old1 := ew x.w 1, range := eRange x.w, linOld := [], tabOld := [], leadsOld := [], rngOld := [], cAt := [(t - 1, false)], pulseOk := none,
           windowed := false, missed := 0 }

/-- A chain as a start at an instant in ns leaves it, of what it was; its comparators out of alarm. -/
def ChainStarted (ts c : Nat) (x y : Chan) (a : AlarmCh) : Prop :=
  y.spans = [] ∧ y.hist = [] ∧ y.ready = [] ∧ y.isOpen = false ∧ y.off = 0 ∧ y.w = x.w ∧ y.duty = x.duty ∧ y.cAt = [(((ts * 1024 : Nat) : Int) - 1, false)] ∧ a.c1 = {} ∧ a.c2 = {} ∧
  y.nextT = if hasGrid x.w = true ∧ x.duty.isSome = true
    then some (gridUp (periodTk (isFast c) (ew x.w 1)) ((ts * 1024 : Nat) + halfTk (isFast c) (ew x.w 1))) else none

theorem startChain_eq (ts c : Nat) (s : State) : ∃ u, u.chans = (modChan c (Chan.cleared (ts * 1024 : Nat)) s).chans ∧ u.svc = s.svc ∧
    startChain ts c s = modChan c (fun y => { y with nextT := if hasGrid y.w ∧ y.duty.isSome then some (firstStarting c (ts * 1024 : Nat) (modAlarm c (fun a => { a with c1 := {}, c2 := {} }) u)) else none })
      (modAlarm c (fun a => { a with c1 := {}, c2 := {} }) u) := by
  have hclose := closeRuns_only c s
  have hchans : (modChan c (Chan.cleared (ts * 1024 : Nat)) (closeRuns c s)).chans = (modChan c (Chan.cleared (ts * 1024 : Nat)) s).chans := by
    rw [modChan, modChan, State.modChans_chans, State.modChans_chans, hclose.same .chans (by decide)]
  have hsvc : (modChan c (Chan.cleared (ts * 1024 : Nat)) (closeRuns c s)).svc = s.svc := hclose.same .svc (by decide)
  generalize hv : modChan c (Chan.cleared (ts * 1024 : Nat)) (closeRuns c s) = v at hchans hsvc
  have hopen : Only [.pages, .fab] v (if (chan c s).isOpen then bumpGen pgCHW (condEnd (pgGroup (grpOf c)) inOPEN c v) else v) :=
    .ite (Only.next (bumpGen_only _ _) rfl ((condEnd_only _ _ _ v).mono rfl)) (.refl _ v)
  generalize hw : (if (chan c s).isOpen then bumpGen pgCHW (condEnd (pgGroup (grpOf c)) inOPEN c v) else v) = w at hopen
  have hgen : Only [.pages, .fab] v (if (chan c s).range = eRange (chan c s).w then w else groupGen (grpOf c) w) :=
    .ite hopen (Only.next (bumpGen_only _ _) rfl hopen)
  refine ⟨if (chan c s).range = eRange (chan c s).w then w else groupGen (grpOf c) w, (hgen.same .chans (by decide)).trans hchans, (hgen.same .svc (by decide)).trans hsvc, ?_⟩
  unfold startChain
  dsimp only
  rw [← hw, ← hv]
  rfl

theorem startChain_started (ts c : Nat) (s : State) : ChainStarted ts c (chan c s) (chan c (startChain ts c s)) (alarm c (startChain ts c s)) := by
  obtain ⟨u, hc, -, he⟩ := startChain_eq ts c s
  have hu : chan c u = (chan c s).cleared (ts * 1024 : Nat) := by rw [chan_congr hc, chan_modChan_self]
  have hfirst : firstStarting c (ts * 1024 : Nat) (modAlarm c (fun a => { a with c1 := {}, c2 := {} }) u) =
      gridUp (periodTk (isFast c) (ew (chan c s).w 1)) ((ts * 1024 : Nat) + halfTk (isFast c) (ew (chan c s).w 1)) := by
    rw [firstStarting, perOf, halfOf, chan_modAlarm, hu]
    rfl
  rw [he, chan_modChan_self, alarm_modChan, alarm_modAlarm_self, chan_modAlarm, hu, hfirst]
  exact ⟨rfl, rfl, rfl, rfl, rfl, rfl, rfl, rfl, rfl, rfl, rfl⟩

theorem startChain_of_ne {c j : Nat} (h : j ≠ c) (ts : Nat) (s : State) : chan j (startChain ts c s) = chan j s ∧ alarm j (startChain ts c s) = alarm j s := by
  obtain ⟨u, hc, hv, he⟩ := startChain_eq ts c s
  rw [he, chan_modChan_of_ne _ h, alarm_modChan, chan_modAlarm, alarm_modAlarm_of_ne u h, alarm_congr hv, chan_congr hc, chan_modChan_of_ne s h]
  exact ⟨rfl, rfl⟩

/-! ## Every group -/

/-- A channel with its alarm unit. -/
def chainView (c : Nat) (s : State) : Chan × AlarmCh := (chan c s, alarm c s)

/-- A group starts, awake from the outset. -/
def startAwake (ts : Nat) (s : State) (g : Nat) : State := startGroup ts g (modGrp g (fun x => { x with wake := 0, since := none }) s)

theorem startAwake_only (ts : Nat) (s : State) (g : Nat) : Only [.pages, .fab, .del, .svc, .chans, .grps] s (startAwake ts s g) :=
  Only.next (startGroup_only ts g _) rfl ((modGrp_only g _ s).mono rfl)

theorem startAwake_chain (ts : Nat) (s : State) {g k : Nat} (hk : k < groupSize g) :
    ChainStarted ts (slotAt g k) (chan (slotAt g k) s) (chan (slotAt g k) (startAwake ts s g)) (alarm (slotAt g k) (startAwake ts s g)) := by
  obtain ⟨t, -, hst, hft⟩ := unit_foldl_of_mem (unit := chainView) (P := fun _ => True) (f := fun s c => startChain ts c s)
    (s := modGrp g (fun x => { x with wake := 0, since := none }) s) (fun _ _ _ => trivial)
    (fun t _ _ _ hjc => Prod.ext_iff.mpr (startChain_of_ne hjc ts t)) trivial (groupSlots_nodup g) (slotAt_mem hk)
  have hchan : chan (slotAt g k) t = chan (slotAt g k) s := congrArg (·.1) hst
  have hfold : chainView (slotAt g k) (startAwake ts s g) = chainView (slotAt g k) (startChain ts (slotAt g k) t) := hft
  rw [chainView, chainView, Prod.mk.injEq] at hfold
  rw [hfold.1, hfold.2, ← hchan]
  exact startChain_started ts _ t

theorem startAwake_of_ne {g j k : Nat} (h : j ≠ g) (hk : k < groupSize j) (ts : Nat) (s : State) : chainView (slotAt j k) (startAwake ts s g) = chainView (slotAt j k) s :=
  (unit_foldl_of_not_mem (unit := chainView) (P := fun _ => True) (f := fun s c => startChain ts c s) (s := modGrp g (fun x => { x with wake := 0, since := none }) s)
    (fun _ _ _ => trivial) (fun t _ _ _ hjc => Prod.ext_iff.mpr (startChain_of_ne hjc ts t)) trivial (slotAt_not_mem hk h)).trans rfl

/-- Every group starts. -/
def startAll (ts : Nat) (s : State) : State := (List.range 24).foldl (startAwake ts) s

theorem startAll_eq (ts : Nat) (s : State) : (List.range 24).foldl (fun s g => startGroup ts g (modGrp g (fun x => { x with wake := 0, since := none }) s)) s = startAll ts s := rfl

theorem startAll_only (ts : Nat) (s : State) : Only [.pages, .fab, .del, .svc, .chans, .grps] s (startAll ts s) := Only.foldl (startAwake_only ts) _ s

/-- Every chain of a group as its start leaves it. -/
theorem startAll_chain (ts : Nat) (s : State) {g k : Nat} (hg : g < 24) (hk : k < groupSize g) :
    ChainStarted ts (slotAt g k) (chan (slotAt g k) s) (chan (slotAt g k) (startAll ts s)) (alarm (slotAt g k) (startAll ts s)) := by
  have hslot : ∀ t : State, True → ∀ j h : Nat, j ≠ h →
      (if k < groupSize j then some (chainView (slotAt j k) (startAwake ts t h)) else none) = if k < groupSize j then some (chainView (slotAt j k) t) else none := by
    intro t _ j h hjh
    split
    · next hkj => rw [startAwake_of_ne hjh hkj]
    · rfl
  obtain ⟨t, -, hst, hft⟩ := unit_foldl_of_mem (unit := fun j t => if k < groupSize j then some (chainView (slotAt j k) t) else none) (P := fun _ => True) (f := startAwake ts) (s := s)
    (fun _ _ _ => trivial) hslot trivial List.nodup_range (List.mem_range.mpr hg)
  rw [if_pos hk, if_pos hk, Option.some.injEq] at hst hft
  have hchan : chan (slotAt g k) t = chan (slotAt g k) s := congrArg (·.1) hst
  have hfold : chainView (slotAt g k) (startAll ts s) = chainView (slotAt g k) (startAwake ts t g) := by
    rw [startAll]
    exact hft
  rw [chainView, chainView, Prod.mk.injEq] at hfold
  rw [hfold.1, hfold.2, ← hchan]
  exact startAwake_chain ts t hk

/-! ## SAMPLING_START -/

/-- The power state of a hub that samples. -/
def sampling (ts : Nat) (s : State) : State := s.modPwr fun w => { w with sampling := some ts, tp := none, stopped := false }

theorem sampling_eq (ts : Nat) (s : State) : (s.modPwr fun w => { w with sampling := some ts, tp := none, stopped := false }) = sampling ts s := rfl

/-- What runs, once the chains have started. -/
def samplingRuns (s : State) : State := if s.pwr.state = 4 then pwrState 1 s else s

theorem samplingRuns_only (s : State) : Only [.pages, .fab, .del, .pci, .fwl, .pwr, .outbox] s (samplingRuns s) := .ite (pwrState_only 1 s) (.refl _ s)

theorem samplingRuns_pwr (s : State) : (samplingRuns s).pwr = { s.pwr with state := if s.pwr.state = 4 then 1 else s.pwr.state } := by
  unfold samplingRuns
  split
  · exact pwrState_pwr 1 s
  · rfl

section
variable {s : State} (hx : s.fuse.hx000 = false) (ha : s.pwr.anaLost = false) (hset : s.tim.set = true) (hns : s.tim.ns % 100000000 = 0) (ho : s.pwr.convOk = true)
  (hstop : s.pwr.stopped = false) (hstate : s.pwr.state = 4 ∨ s.pwr.state < 2 ∧ s.pwr.sampling = none) (hreq : wbits (rfGet 0x09040 s) 0 2 ≠ 1)
include hx ha hset hns ho hstop hstate hreq

theorem exec_samplingStart : exec .samplingStart s = .next (samplingRuns (reflex (startAll (now s).total (sampling (now s).total s)))) := by
  have hgo : ¬(s.tim.set = false ∨ s.tim.ns % 100000000 ≠ 0 ∨ s.pwr.anaLost = true ∨ s.pwr.state = 2 ∨ s.pwr.state = 3 ∨ s.pwr.state = 5) := by
    simp [ha, hset, hns]
    omega
  have hstart : s.pwr.sampling.isNone = true ∨ s.pwr.state = 4 ∨ s.pwr.state = 0 ∧ s.tim.inserv = false := hstate.elim (fun h => .inr (.inl h)) fun h => .inl (by simp [h.2])
  have hrf : (reflex (startAll (now s).total (sampling (now s).total s))).rf = s.rf :=
    ((reflex_only _).same .rf (by decide)).trans (((startAll_only _ _).same .rf (by decide)).trans rfl)
  change execSamplingStart s = _
  unfold execSamplingStart
  dsimp only
  rw [if_neg hgo, if_neg (by simp [hx]), if_neg (by simp [ho]), if_pos hstart, hstop, if_neg (show ¬(false = true) from Bool.false_ne_true), startAll_eq, sampling_eq]
  generalize reflex (startAll (now s).total (sampling (now s).total s)) = u at hrf ⊢
  unfold samplingRuns
  split
  · have hctrl : rfGet 0x09040 (pwrState 1 u) = rfGet 0x09040 s := rfGet_congr (((pwrState_only 1 u).same .rf (by decide)).trans hrf) _
    rw [hctrl, if_neg hreq]
  · rfl

theorem samplingStart_runs : Runs .samplingStart s (reporting [.pwr, .svc, .chans, .grps]) fun t =>
    t.pwr.sampling = some (now s).total ∧ t.pwr.tp = none ∧ t.pwr.stopped = false ∧ t.pwr.state = (if s.pwr.state = 4 then 1 else s.pwr.state) ∧
    ∀ g k, g < 24 → k < groupSize g → ChainStarted (now s).total (slotAt g k) (chan (slotAt g k) s) (chan (slotAt g k) t) (alarm (slotAt g k) t) := by
  generalize hts : (now s).total = ts
  have hstart := startAll_only ts (sampling ts s)
  have hchain := fun g k (hg : g < 24) (hk : k < groupSize g) => startAll_chain ts (sampling ts s) hg hk
  generalize hu : startAll ts (sampling ts s) = u at hstart hchain
  have hreflex := reflex_only u
  have hruns := samplingRuns_only (reflex u)
  have hpwr : (reflex u).pwr = { s.pwr with sampling := some ts, tp := none, stopped := false } := by
    rw [hreflex.same .pwr (by decide), hstart.same .pwr (by decide)]
    rfl
  refine .of_only (exec_samplingStart hx ha hset hns ho hstop hstate hreq) (by rw [hts, hu])
    (Only.next hruns rfl (Only.next hreflex rfl (Only.trans ((modPwr_only _ s).mono rfl) (hstart.mono rfl)))) ⟨?_, ?_, ?_, ?_, fun g k hg hk => ?_⟩
  · rw [samplingRuns_pwr, hpwr]
  · rw [samplingRuns_pwr, hpwr]
  · rw [samplingRuns_pwr, hpwr]
  · rw [samplingRuns_pwr, hpwr]
  · have hc : chan (slotAt g k) (samplingRuns (reflex u)) = chan (slotAt g k) u := chan_congr ((hruns.same .chans (by decide)).trans (hreflex.same .chans (by decide))) _
    have ha' : alarm (slotAt g k) (samplingRuns (reflex u)) = alarm (slotAt g k) u := (alarm_congr (hruns.same .svc (by decide)) _).trans ((reflex_rulesOnly u).alarm _)
    rw [hc, ha']
    exact hchain g k hg hk

end

end Sys2Proof.Machine
end

section
/-! PROOF. Start-up, park and supplies, whole (R23, R24, R119, R446, R463–R474). -/

namespace Sys2Proof.Machine

/-- A supervisor that runs from the active bank. -/
theorem bootLoadDone_active_runs {s : State} {h : Hdr} (hg : s.pwr.good = true) (hn : s.fwl.run = none) (hb : bankImage (bootRec s).active s = (0, h)) :
    Runs .bootLoadDone s (reporting [.bst, .pln, .lanes, .lsh, .pwr]) fun t =>
      t.fwl.run = some h ∧ t.fwl.bank = (bootRec s).active ∧ t.fwl.alt = false ∧ t.pwr.good = true ∧ ∀ q, q < 8 → s.pln.role = 0 → (lane q t).state = 1 := by
  obtain ⟨t, hx, ht, hf, hgood, hlanes, -⟩ := bootLoadDone_runs hg hn (bootLoad_active hb) (runImage_fwl _ _ _ s) rfl
  exact ⟨t, hx, ht, by rw [hf], by rw [hf], by rw [hf], hgood, hlanes⟩

/-- A supervisor that runs from the other bank, which is told. -/
theorem bootLoadDone_other_runs {s : State} {h : Hdr} (hg : s.pwr.good = true) (hn : s.fwl.run = none) (h0 : (bankImage (bootRec s).active s).1 ≠ 0)
    (hb : bankImage (1 - (bootRec s).active) s = (0, h)) : Runs .bootLoadDone s (reporting [.bst, .pln, .lanes, .lsh, .pwr]) fun t =>
      (t.fwl.run = some h ∧ t.fwl.bank = 1 - (bootRec s).active ∧ t.fwl.alt = true ∧ t.pwr.good = true ∧ ∀ q, q < 8 → s.pln.role = 0 → (lane q t).state = 1) ∧
      Latched pgFWL fwlBOOTALT t := by
  have hfwl : (fwRaise fwlBOOTALT 0 (runImage (1 - (bootRec s).active) true h s)).fwl = { s.fwl with run := some h, bank := 1 - (bootRec s).active, alt := true } :=
    (raise_fwl (by decide) _ _ _).trans (runImage_fwl _ _ _ s)
  obtain ⟨t, hx, ht, hf, hgood, hlanes, hstay⟩ := bootLoadDone_runs hg hn (bootLoad_other h0 hb) hfwl rfl
  exact ⟨t, hx, ht, ⟨by rw [hf], by rw [hf], by rw [hf], hgood, hlanes⟩, hstay _ _ (raise_latched _ _ (by decide) (by decide))⟩

/-- Settles O48: power good, the boot image, the bounds, the converter check, the start of sampling, park and run, and the supplies. -/
theorem startUpParkAndSupplies : Obligations.StartUpParkAndSupplies := by
  unfold Obligations.StartUpParkAndSupplies
  intro r v role mode pos vexc viepe lo step_ meas p h s dipped back x a ts tp runs_ still
  refine ⟨fun hg hh hs => powerGood_runs hg hh hs, fun hg hn => ⟨bootLoadDone_active_runs hg hn, bootLoadDone_other_runs hg hn, bootLoadDone_none_runs hg hn⟩,
    startBoundTimer_late_runs, startBoundTimer_met_runs, fun hx ha h2 ho => converterCheckDone_runs hx ha h2 ho,
    fun hx ha hset hns ho hstop hstate hreq => samplingStart_runs hx ha hset hns ho hstop hstate hreq, fun hg hs => ⟨parkRequest_refused_runs hg hs, parkRequest_runs hg hs,
      unparkRequest_waits_runs hg hs, unparkRequest_runs hg hs⟩, fun hp h2 hs ht => ⟨parkStop_runs hp h2 hs ht, parkStop_hx000_runs hp h2 hs ht⟩, diceOffDone_runs,
    fun hg hx ha => ?_, anaBack_runs, fun hx => ⟨?_, ?_⟩, fun hx => ⟨fun hc => ?_, ?_, fun hc => ?_, ?_⟩⟩
  · obtain ⟨t, he, ht, hpwr, hl, hgroups⟩ := anaLost_runs (lo := lo) hg hx ha
    exact ⟨t, he, ht, by rw [hpwr], hl, hgroups⟩
  · exact .of_only rfl (if_pos hx) (.refl _ s) rfl
  · exact .of_only rfl (if_pos hx) (.refl _ s) rfl
  · exact dipped_runs (congrArg Host.Outcome.next (if_neg (by simp [hx]))) (by decide) (by decide) hc
  · exact supplyBack_runs (congrArg Host.Outcome.next (if_neg (by simp [hx])))
  · exact dipped_runs (congrArg Host.Outcome.next (if_neg (by simp [hx]))) (by decide) (by decide) hc
  · exact supplyBack_runs (congrArg Host.Outcome.next (if_neg (by simp [hx])))

end Sys2Proof.Machine
end

section
/-! PROOF. Haldom loads and stores (R42, R322, R336, R337). -/

namespace Sys2Proof.Machine

/-- An aligned access within the data region is no fault (R337). -/
theorem memFault_eq_none {addr size : Nat} (hlo : 0x20000 ≤ addr) (hhi : addr + size ≤ 0x80000) (ha : addr % size = 0) : memFault addr size = none := by
  rw [memFault, if_neg (by omega), if_neg (not_not.mpr ha)]

theorem memAddr_issuing (n a : Nat) (imm : BitVec 14) (size : Nat) (s : State) : memAddr (tc n (issuing n s)) a imm size = memAddr (tc n s) a imm size := by
  rw [tc_issuing]
  rfl

/-- Byte `k` of the word that up to sixteen bytes of memory make up. -/
theorem loaded_byte (m : FMap Byte) (x k : Nat) {size : Nat} (hs : size ≤ 16) :
    (BitVec.ofNat 128 (leNat (Memory.readN m x size))).toNat / 256 ^ k % 256 = if k < size then (Memory.read m (x + k)).toNat else 0 := by
  have hlen : (Memory.readN m x size).length = size := FMap.length_getAll x size
  have hlt : leNat (Memory.readN m x size) < 2 ^ 128 := by
    have hpow : (256 : Nat) ^ size ≤ 256 ^ 16 := Nat.pow_le_pow_right (by decide) hs
    have hfit := leNat_lt (Memory.readN m x size)
    rw [hlen] at hfit
    exact hfit.trans_le hpow
  rw [BitVec.toNat_ofNat, Nat.mod_eq_of_lt hlt, leNat_byte, hlen]
  split
  · rename_i hk
    exact congrArg BitVec.toNat (FMap.getAll_getD 0 hk)
  · rfl

section
variable {n d a : Nat} {imm : BitVec 14} {size : Nat} {s : State} (hc : (tc n s).canIssue = true) (hf : memFault (memAddr (tc n s) a imm size) size = none)
include hc hf

theorem load_eq_result : load n d a imm size false s =
    result n d (BitVec.ofNat 128 (leNat (Memory.readN s.mem (tcBase n + memAddr (tc n s) a imm size) size))) (issuing n s) := by
  rw [load, issue_of_can hc]
  dsimp only
  rw [memAddr_issuing, hf]
  rfl

theorem store_eq_advance : store n d a imm size s =
    advance n ((issuing n s).modMem fun m => Memory.writeN m (tcBase n + memAddr (tc n s) a imm size) (leBytes size ((tc n s).v d).toNat)) := by
  rw [store, issue_of_can hc]
  dsimp only
  rw [memAddr_issuing, hf, issuing_v]

/-- A load of no fault: the register takes the bytes at the address, lowest first. -/
theorem load_runs {c : Instr} (hx : exec c s = .next (load n d a imm size false s)) (hs : size ≤ 16) : Runs c s [.tcs] fun t => ∃ w, Wrote n d w s t ∧
    ∀ k, k < 16 → w.toNat / 256 ^ k % 256 = if k < size then (Memory.read s.mem (n * 0x80000 + memAddr (tc n s) a imm size + k)).toNat else 0 :=
  .of_only hx (load_eq_result hc hf) (Only.next (result_only _ _ _ _) rfl ((modTc_only _ _ s).mono rfl)) ⟨_, result_wrote n d _ s, fun k _ => loaded_byte _ _ k hs⟩

/-- A store of no fault: the low bytes of the register stand at the address, and no other byte of memory changes. -/
theorem store_runs {c : Instr} (hx : exec c s = .next (store n d a imm size s)) : Runs c s [.tcs, .mem] fun t => IssuedTo n (((tc n s).pc + 1) % 16384) s t ∧
    (∀ k, k < size → (Memory.read t.mem (n * 0x80000 + memAddr (tc n s) a imm size + k)).toNat = ((tc n s).v d).toNat / 256 ^ k % 256) ∧
    ∀ x, (x < n * 0x80000 + memAddr (tc n s) a imm size ∨ n * 0x80000 + memAddr (tc n s) a imm size + size ≤ x) → Memory.read t.mem x = Memory.read s.mem x := by
  have hlen := length_leBytes size ((tc n s).v d).toNat
  refine .of_only hx (store_eq_advance hc hf)
    (Only.next (advance_only _ _) rfl (Only.next (modMem_only (fun m hm => Memory.wf_writeN _ _ hm) _) rfl ((modTc_only _ _ s).mono rfl))) ⟨⟨?_, fun m hm => ?_⟩, fun k hk => ?_, fun x hx => ?_⟩
  · rw [advance, tc_modTc_self, tc_modMem, tc_issuing]
  · rw [advance, tc_modTc_of_ne _ hm, tc_modMem, tc_issuing_of_ne hm]
  · exact (congrArg BitVec.toNat (Memory.read_writeN_in (hlen.symm ▸ hk))).trans (leBytes_getD hk)
  · exact Memory.read_writeN_of_out (hlen.symm ▸ hx)

end

/-- Settles O5: a load and a store of each size, at an address of no fault. -/
theorem haldomLoadsAndStores : Obligations.HaldomLoadsAndStores := by
  unfold Obligations.HaldomLoadsAndStores
  refine ⟨fun n d a imm s hc => ⟨fun hlo hhi ha => ?_, fun hlo hhi ha => ?_⟩, fun n d a imm s hc => ⟨fun hlo hhi ha => ?_, fun hlo hhi ha => ?_⟩⟩
  · exact load_runs hc (memFault_eq_none hlo hhi ha) rfl (by decide)
  · exact load_runs hc (memFault_eq_none hlo hhi ha) rfl (by decide)
  · exact store_runs hc (memFault_eq_none hlo hhi ha) rfl
  · exact store_runs hc (memFault_eq_none hlo hhi ha) rfl

end Sys2Proof.Machine
end

section
/-! SUPPORT. What raising a cause leaves of the merger and the contracts (R416), and what a worker's sending leaves (R249, R276, R304). -/

namespace Sys2Proof.Machine

/-! ## Records that become ready -/

/-- Of the merger and the contracts nothing differs but the records that are ready to be numbered. -/
structure ReadyOnly (s t : State) : Prop where
  del : t.del = { s.del with cons := t.del.cons }
  at_ : ∀ j, con j t = { con j s with ready := (con j t).ready }

theorem ReadyOnly.refl (s : State) : ReadyOnly s s := ⟨rfl, fun _ => rfl⟩

theorem ReadyOnly.trans {s t u : State} (h : ReadyOnly s t) (k : ReadyOnly t u) : ReadyOnly s u :=
  ⟨k.del.trans (by rw [h.del]), fun j => (k.at_ j).trans (by rw [h.at_ j])⟩

theorem ReadyOnly.of_del {s t : State} (h : t.del = s.del) : ReadyOnly s t := ⟨by rw [h], fun j => by rw [con_congr h]⟩

/-- An operation that reaches neither the merger nor a contract. -/
theorem ReadyOnly.of_only {l : List Area} {s t : State} (h : Only l s t) (hl : l.contains .del = false) : ReadyOnly s t := .of_del (h.same .del (by simpa using hl))

theorem ReadyOnly.ite {c : Prop} [Decidable c] {s a b : State} (h : ReadyOnly s a) (k : ReadyOnly s b) : ReadyOnly s (if c then a else b) := by
  split <;> assumption

theorem ReadyOnly.foldl {β : Type} {f : State → β → State} (h : ∀ s b, ReadyOnly s (f s b)) (xs : List β) (s : State) : ReadyOnly s (xs.foldl f s) :=
  foldl_keeps (P := ReadyOnly s) (fun t ht b => ht.trans (h t b)) (.refl s) xs

theorem stage_readyOnly (i : Item) (s : State) (id : Nat) : ReadyOnly s (stage i s id) := by
  refine .ite (.refl s) ⟨rfl, fun j => ?_⟩
  by_cases hj : j = id
  · rw [hj, con_modCon_self]
  · rw [con_modCon_of_ne s hj]

theorem raise_readyOnly (p bit d : Nat) (s : State) : ReadyOnly s (raise p bit d s) := by
  have hlatch : ReadyOnly s (trialFault p (latch p bit s)) := (ReadyOnly.of_only (latch_only p bit s) rfl).trans (.of_only (trialFault_only p _) rfl)
  unfold raise
  cases evOf p bit with
  | none => exact hlatch
  | some e => exact .ite hlatch (.ite (hlatch.trans (.of_del rfl)) (hlatch.trans (.foldl (stage_readyOnly _) _ _)))

theorem condStart_readyOnly (p bit sub : Nat) (s : State) : ReadyOnly s (condStart p bit sub s) := .of_only (condStart_only p bit sub s) rfl

theorem raiseOnce_readyOnly (p bit sub d : Nat) (s : State) : ReadyOnly s (raiseOnce p bit sub d s) :=
  .ite (.refl s) ((condStart_readyOnly p bit sub s).trans (raise_readyOnly p bit d _))

theorem ReadyOnly.kennel {s t : State} (h : ReadyOnly s t) (j : Nat) : (con j t).kennel = (con j s).kennel := congrArg (·.kennel) (h.at_ j)

theorem ReadyOnly.next {s t : State} (h : ReadyOnly s t) (j : Nat) : (con j t).next = (con j s).next := congrArg (·.next) (h.at_ j)

theorem ReadyOnly.ent {s t : State} (h : ReadyOnly s t) (j : Nat) : (con j t).ent = (con j s).ent := congrArg (·.ent) (h.at_ j)

theorem ReadyOnly.ins {s t : State} (h : ReadyOnly s t) : t.del.ins = s.del.ins := congrArg (·.ins) h.del

/-! ## The ports on which a source sends (R249) -/

theorem isManager_congr {s t : State} (h : t.pln = s.pln) : isManager t = isManager s := eq_of_pln (fun _ => rfl) h

theorem myDev_congr {s t : State} (h : t.pln = s.pln) : myDev t = myDev s := eq_of_pln (fun _ => rfl) h

theorem ringPlans_congr {s t : State} (h : t.pln = s.pln) : ringPlans t = ringPlans s := eq_of_pln (fun _ => rfl) h

theorem ctrlBlk_congr {s t : State} (h : t.pln = s.pln) (dseg dhub sub subByte fields : Nat) (more : List W128) :
    ctrlBlk dseg dhub sub subByte fields more t = ctrlBlk dseg dhub sub subByte fields more s :=
  eq_of_pln (f := ctrlBlk dseg dhub sub subByte fields more) (fun _ => rfl) h

theorem scopeOf_eq {id : Nat} {s : State} {e : Contract} (h : (con id s).ent = some e) : scopeOf id s = e.scope := by rw [scopeOf, h]

theorem clsOf_eq {id : Nat} {s : State} {e : Contract} (h : (con id s).ent = some e) : clsOf id s = e.cls := by rw [clsOf, h]

theorem LanesStand.state {s t : State} (h : LanesStand s t) (p : Nat) : (lane p t).state = (lane p s).state := congrArg (·.1) (h.at_ p)

theorem sendPorts_congr {s t : State} (hp : t.pln = s.pln) (hr : t.lsh = s.lsh) (hl : LanesStand s t) (r : RingPlan) (cls : Nat) :
    sendPorts r cls t = sendPorts r cls s := by
  have hplace : myPlace r t = myPlace r s := eq_of_pln (f := myPlace r) (fun _ => rfl) hp
  have hport (key : Nat) (east : Bool) : ringPort key east t = ringPort key east s := eq_of_pln (f := ringPort key east) (fun _ => rfl) hp
  have hcarries (p : Nat) : carries p t = carries p s := by
    rw [carries, carries, hl.state, eq_of_pln (f := port p) (fun _ => rfl) hp]
  simp only [sendPorts, hplace, hport, hcarries, ringSt_congr hr]

/-! ## Segments sent (R276) -/

/-- Segments were sent on ports, and overruns raised: how the lanes stand, causes that are latched, the inputs and the contracts stay, but for records that are ready. -/
structure SegmentsSent (s t : State) : Prop where
  frame : Only (reporting [.lanes]) s t
  ready : ReadyOnly s t
  stand : LanesStand s t
  undisturbed : Undisturbed s t

theorem SegmentsSent.refl (s : State) : SegmentsSent s s := ⟨.refl _ s, .refl s, .refl s, .refl s⟩

theorem SegmentsSent.trans {s t u : State} (h : SegmentsSent s t) (k : SegmentsSent t u) : SegmentsSent s u :=
  ⟨h.frame.trans k.frame, h.ready.trans k.ready, h.stand.trans k.stand, h.undisturbed.trans k.undisturbed⟩

theorem SegmentsSent.pln {s t : State} (h : SegmentsSent s t) : t.pln = s.pln := h.frame.same .pln (by decide)

theorem SegmentsSent.lsh {s t : State} (h : SegmentsSent s t) : t.lsh = s.lsh := h.frame.same .lsh (by decide)

theorem SegmentsSent.ports {s t : State} (h : SegmentsSent s t) (r : RingPlan) (cls : Nat) : sendPorts r cls t = sendPorts r cls s :=
  sendPorts_congr h.pln h.lsh h.stand r cls

theorem putStream_stand (p cls : Nat) (ws : List W128) (s : State) : LanesStand s (putStream p cls ws s) :=
  (LanesStand.refl s).modLane p fun l => Lane.setStr_keeps cls _ l

theorem putStreams_sent (ps : List Nat) (cls : Nat) (ws : List W128) (s : State) : SegmentsSent s (putStreams ps cls ws s) :=
  ⟨(putStreams_only ps cls ws s).mono rfl, .of_only (putStreams_only ps cls ws s) rfl, .foldl (fun t p => putStream_stand p cls ws t) ps s,
    .of_only (putStreams_only ps cls ws s) rfl⟩

theorem overrunCheck_readyOnly (p cls : Nat) (s : State) : ReadyOnly s (overrunCheck p cls s) := .ite (raiseOnce_readyOnly _ _ _ _ s) (.refl s)

theorem raiseOnce_undisturbed {p : Nat} (hp : p ≠ pgDEV) (bit sub d : Nat) (s : State) : Undisturbed s (raiseOnce p bit sub d s) :=
  .ite (.refl s) ((Undisturbed.of_only (condStart_only p bit sub s) rfl).raise hp bit d)

theorem overrunCheck_undisturbed (p cls : Nat) (s : State) : Undisturbed s (overrunCheck p cls s) := .ite (raiseOnce_undisturbed (by decide) _ _ _ s) (.refl s)

theorem overrunChecks_sent (ps : List Nat) (cls : Nat) (s : State) : SegmentsSent s (ps.foldl (fun s p => overrunCheck p cls s) s) :=
  have hframe : Only reports s (ps.foldl (fun s p => overrunCheck p cls s) s) := Only.foldl (fun t p => overrunCheck_only p cls t) ps s
  ⟨hframe.mono rfl, .foldl (fun t p => overrunCheck_readyOnly p cls t) ps s, .of_only hframe rfl, .foldl (fun t p => overrunCheck_undisturbed p cls t) ps s⟩

/-- The words of a segment put on the ports of a ring on which a source sends a class, and those ports checked against their bound (R249, R304). -/
def sendOnRing (r : RingPlan) (cls : Nat) (ws : List W128) (s : State) : State :=
  (sendPorts r cls s).foldl (fun s p => overrunCheck p cls s) (putStreams (sendPorts r cls s) cls ws s)

theorem sendOnRing_sent (r : RingPlan) (cls : Nat) (ws : List W128) (s : State) : SegmentsSent s (sendOnRing r cls ws s) :=
  (putStreams_sent _ cls ws s).trans (overrunChecks_sent _ cls _)

/-- On a ring with one port for class B the words go to the end of its class B stream. -/
theorem sendOnRing_strB {r : RingPlan} {s : State} {p : Nat} (h : sendPorts r 2 s = [p]) (ws : List W128) : (lane p (sendOnRing r 2 ws s)).strB = (lane p s).strB ++ ws := by
  rw [sendOnRing, h, List.foldl_cons, List.foldl_nil, lane_congr ((overrunCheck_only p 2 _).same .lanes (by decide)), putStreams, List.foldl_cons, List.foldl_nil, putStream,
    lane_modLane_self]
  rfl

/-- A worker's segment goes onto its ring. -/
theorem sendSeg_worker {id : Nat} {s : State} {e : Contract} (hw : isManager s = false) (he : (con id s).ent = some e) (k : KItem) (res : Bool) :
    sendSeg id k res s = match (ringPlans s).find? (·.kind = 0) with
      | none => s
      | some r => sendOnRing r e.cls (tagWord k.seq (myDev s) id k.item.size res false :: k.item.words) s := by
  unfold sendSeg
  rw [he]
  exact if_pos hw

theorem sendSeg_worker_sent {s : State} (hw : isManager s = false) (id : Nat) (k : KItem) (res : Bool) : SegmentsSent s (sendSeg id k res s) := by
  cases he : (con id s).ent with
  | none =>
    unfold sendSeg
    rw [he]
    exact .refl s
  | some e =>
    rw [sendSeg_worker hw he]
    split
    · exact .refl s
    · exact sendOnRing_sent _ _ _ s

end Sys2Proof.Machine
end

section
/-! SUPPORT. A source's Kennel: what is numbered, what its allowance lets go, what is asked for again, and what is discarded (R275, R277, R284, R291, R298). -/

namespace Sys2Proof.Machine

/-! ## Numbered and kept (R275, R277) -/

/-- The item kept under the next number of a contract. -/
def ConSt.fresh (c : ConSt) (i : Item) (up : Nat) : KItem := { seq := c.next, span := 1, item := i, at_ := up, sent := false }

/-- An item was numbered and kept in a contract; beside it only what the contract knows of its ANCHORs and of when it was last acknowledged differs. -/
structure Numbered (id : Nat) (i : Item) (s t : State) : Prop where
  frame : Only [.del] s t
  kept : con id t = { con id s with
    kennel := (con id s).kennel ++ [(con id s).fresh i s.tim.up], next := ((con id s).next + 1) % 2 ^ 32, anchorDue := (con id t).anchorDue,
    lastAnchor := (con id t).lastAnchor, lastAckUp := (con id t).lastAckUp }
  others : ∀ j, j ≠ id → con j t = con j s

theorem kennelPut_numbered (id : Nat) (i : Item) (s : State) : Numbered id i s (kennelPut id i s) :=
  ⟨kennelPut_only id i s, by rw [kennelPut, con_modCon_self]; rfl, fun j hj => con_modCon_of_ne s hj _⟩

/-- An item that fits the reservation and needs no ANCHOR before it. -/
theorem putItemK_numbered {id : Nat} {i : Item} {s : State} {e : Contract} (he : (con id s).ent = some e)
    (hfit : kennelWords (con id s).kennel + i.size ≤ reserveWords e (myDev s)) (ha : i.isCtrl 2 = true ∨ anchorWhy (con id s) i.t = []) : Numbered id i s (putItemK id s i) := by
  have hroom : makeRoom id i.size s = (s, false, []) := by
    unfold makeRoom
    dsimp only
    rw [he]
    exact if_pos hfit
  have hanchors : (if i.isCtrl 2 then s else (anchorWhy (con id s) i.t).foldl (putAnchor id i.t) s) = s := by
    rcases ha with ha | ha
    · exact if_pos ha
    · rw [ha]
      exact ite_self s
  have hput := kennelPut_numbered id i s
  unfold putItemK
  rw [hroom]
  simp only [raiseGaps, List.foldl_nil, Bool.false_eq_true, if_false, hanchors]
  split
  · exact ⟨Only.next (modCon_only _ _ _) rfl hput.frame, by rw [con_modCon_self, hput.kept], fun j hj => (con_modCon_of_ne _ hj _).trans (hput.others j hj)⟩
  · exact hput

/-- The ready items of a contract below a limit taken out of those that wait (R275). -/
def takeReady (id : Nat) (limit : Stamp) (s : State) : State := modCon id (fun c => { c with ready := c.ready.filter fun i => !(Stamp.lt i.t limit) }) s

theorem takeReady_only (id : Nat) (limit : Stamp) (s : State) : Only [.del] s (takeReady id limit s) := modCon_only _ _ s

theorem con_takeReady (id : Nat) (limit : Stamp) (s : State) :
    con id (takeReady id limit s) = { con id s with ready := (con id s).ready.filter fun i => !(Stamp.lt i.t limit) } := con_modCon_self s id _

theorem con_takeReady_of_ne {id j : Nat} (h : j ≠ id) (limit : Stamp) (s : State) : con j (takeReady id limit s) = con j s := con_modCon_of_ne s h _

/-- A contract with nothing ready: there is nothing to number. -/
theorem promote_nil {id : Nat} {s : State} (h : (con id s).ready = []) (limit : Stamp) : promote id limit s = takeReady id limit s := by
  rw [promote, h]
  rfl

/-- A contract with one item ready, below the limit. -/
theorem promote_single {id : Nat} {s : State} {i : Item} {limit : Stamp} (h : (con id s).ready = [i]) (hl : Stamp.lt i.t limit = true) :
    promote id limit s = putItemK id (takeReady id limit s) i := by
  have hbelow : [i].filter (fun i => Stamp.lt i.t limit) = [i] := List.filter_cons_of_pos hl
  rw [promote, h, hbelow]
  rfl

/-- How far a contract's items are complete does not depend on those that are ready. -/
theorem conLimit_takeReady (id : Nat) (ev limit : Stamp) (s : State) : conLimit id ev (takeReady id limit s) = conLimit id ev s := by
  have hslot (cls k : Nat) : slotLimit cls ev k (takeReady id limit s) = slotLimit cls ev k s := rfl
  have hslots (e : Contract) : slotsOf e (takeReady id limit s) = slotsOf e s := rfl
  simp only [conLimit, con_takeReady, hslot, hslots]

theorem localHz_of_scope {id : Nat} {s : State} (h : scopeOf id s ≠ 0) : localHz id s = s := if_neg h

/-! ## Sent within the allowance (R277) -/

/-- The allowance of a part brought up to now: at most σ words. -/
def allowance (q : Part) (c : ConSt) (up : Nat) : Nat := min (q.sigma * tokenUnit) (c.tokens + q.rho * (up - c.tokAt))

/-- What an item takes of the allowance, its tag included. -/
def Item.cost (i : Item) : Nat := (i.size + 1) * tokenUnit

/-- The one item that waits in a contract was sent, where the allowance reaches. -/
structure Metered (id : Nat) (q : Part) (k : KItem) (s t : State) : Prop where
  frame : Only (reporting [.lanes]) s t
  kennel : (con id t).kennel = [{ k with sent := decide (k.item.cost ≤ allowance q (con id s) s.tim.up) }]
  next : (con id t).next = (con id s).next
  hz : (con id t).hz = (con id s).hz
  tokens : (con id t).tokens =
    if decide (k.item.cost ≤ allowance q (con id s) s.tim.up) then allowance q (con id s) s.tim.up - k.item.cost else allowance q (con id s) s.tim.up
  tokAt : (con id t).tokAt = s.tim.up
  others : ∀ j, j ≠ id → (con j t).kennel = (con j s).kennel ∧ (con j t).next = (con j s).next

theorem refill_eq {id : Nat} {s : State} {e : Contract} {q : Part} (he : (con id s).ent = some e) (hq : partOf e (myDev s) = some q) :
    refill id s = modCon id (fun c => { c with tokens := allowance q c s.tim.up, tokAt := s.tim.up }) s := by
  unfold refill
  rw [he]
  dsimp only
  rw [hq]
  rfl

/-- An item paid from the allowance and marked as sent. -/
def payFor (id : Nat) (k : KItem) (s : State) : State := markSent id k.seq (modCon id (fun c => { c with tokens := c.tokens - k.item.cost }) s)

theorem sendLoop_one {id : Nat} {s : State} {k : KItem} (hk : (con id s).kennel = [k]) (hn : k.sent = false) (hs : scopeOf id s ≠ 0) :
    sendLoop id 1 s = if (con id s).tokens < k.item.cost then s else sendSeg id k false (payFor id k s) := by
  have hfind : (con id s).kennel.find? (fun k => !k.sent) = some k := by simp [hk, hn]
  simp only [sendLoop, hfind, if_neg hs]
  by_cases hlow : (con id s).tokens < k.item.cost
  · rw [if_pos hlow]
    exact if_pos hlow
  · rw [if_neg hlow]
    exact if_neg hlow

theorem transmit_metered {id : Nat} {s : State} {e : Contract} {q : Part} {k : KItem} (hw : isManager s = false) (he : (con id s).ent = some e) (hs : e.scope ≠ 0)
    (hq : partOf e (myDev s) = some q) (hk : (con id s).kennel = [k]) (hn : k.sent = false) : Metered id q k s (transmit id s) := by
  have hu : refill id s = modCon id (fun c => { c with tokens := allowance q c s.tim.up, tokAt := s.tim.up }) s := refill_eq he hq
  have hcon : con id (refill id s) = { con id s with tokens := allowance q (con id s) s.tim.up, tokAt := s.tim.up } := by rw [hu, con_modCon_self]
  have hothers (j : Nat) (hj : j ≠ id) : con j (refill id s) = con j s := by rw [hu, con_modCon_of_ne s hj]
  have hscope : scopeOf id (refill id s) ≠ 0 := by rwa [scopeOf_eq (e := e) (by rw [hcon, he])]
  rw [transmit, hk, List.length_singleton, sendLoop_one (by rw [hcon, hk]) hn hscope, hcon]
  by_cases hpaid : k.item.cost ≤ allowance q (con id s) s.tim.up
  · have hpay : con id (payFor id k (refill id s)) = { con id s with
        tokens := allowance q (con id s) s.tim.up - k.item.cost, tokAt := s.tim.up, kennel := [{ k with sent := true }] } := by
      rw [payFor, markSent, con_modCon_self, con_modCon_self, hcon]
      simp [hk]
    have hsent : SegmentsSent (payFor id k (refill id s)) (sendSeg id k false (payFor id k (refill id s))) := by
      refine sendSeg_worker_sent ?_ id k false
      rw [hu]
      exact hw
    have hcon' := hsent.ready.at_ id
    rw [hpay] at hcon'
    rw [if_neg (Nat.not_lt.mpr hpaid)]
    refine ⟨hsent.frame.next rfl (Only.next (modCon_only _ _ _) rfl (Only.next (modCon_only _ _ _) rfl ((refill_only id s).mono rfl))), ?_, ?_, ?_, ?_, ?_, fun j hj => ?_⟩
    · rw [hcon', decide_eq_true hpaid]
    · rw [hcon']
    · rw [hcon']
    · rw [hcon', decide_eq_true hpaid, if_pos rfl]
    · rw [hcon']
    · have hj' : con j (payFor id k (refill id s)) = con j s := by rw [payFor, markSent, con_modCon_of_ne _ hj, con_modCon_of_ne _ hj, hothers j hj]
      rw [hsent.ready.kennel, hsent.ready.next, hj']
      exact ⟨rfl, rfl⟩
  · rw [if_pos (Nat.lt_of_not_le hpaid)]
    refine ⟨(refill_only id s).mono rfl, ?_, ?_, ?_, ?_, ?_, fun j hj => ?_⟩
    · rw [hcon, decide_eq_false hpaid, hk, ← hn]
    · rw [hcon]
    · rw [hcon]
    · rw [hcon, decide_eq_false hpaid]
      exact (if_neg Bool.false_ne_true).symm
    · rw [hcon]
    · rw [hothers j hj]
      exact ⟨rfl, rfl⟩

/-! ## Asked for again (R291, R292) -/

/-- What of a Kennel a request brings again: what was sent and reaches beyond the number before that asked for. -/
def resendable (num : Nat) (c : ConSt) : List KItem := c.kennel.filter fun k => k.sent && decide (sub32 (k.seq + k.span) (mod32 num + 1) < 2 ^ 31)

/-- A request counted and raised. -/
def noteRetx (id : Nat) (s : State) : State := raiseOnce pgKEN kenRETX id id (s.modDel fun d => { d with retx := (d.retx + 1) % 65536 })

theorem serveRetx_eq {id : Nat} {s : State} (h : (con id s).isSrc = true) (num : Nat) :
    serveRetx id num s = (resendable num (con id s)).foldl (fun s k => sendSeg id k true s) (noteRetx id s) := by
  unfold serveRetx
  dsimp only
  rw [h]
  rfl

theorem noteRetx_only (id : Nat) (s : State) : Only reports s (noteRetx id s) := Only.next (raiseOnce_only _ _ _ _ _) rfl ((modDel_only _ s).mono rfl)

/-- Beside the count only records that are ready differ. -/
theorem noteRetx_ready (id : Nat) (s : State) : ReadyOnly (s.modDel fun d => { d with retx := (d.retx + 1) % 65536 }) (noteRetx id s) := raiseOnce_readyOnly _ _ _ _ _

theorem sendSegs_worker_sent {id : Nat} (ks : List KItem) {s : State} (hw : isManager s = false) : SegmentsSent s (ks.foldl (fun s k => sendSeg id k true s) s) :=
  foldl_keeps (P := SegmentsSent s) (fun _ ht k => ht.trans (sendSeg_worker_sent ((isManager_congr ht.pln).trans hw) id k true)) (.refl s) ks

/-- A worker that serves a request: counted and raised, and what it holds stays as it is. -/
theorem serveRetx_worker {id : Nat} {s : State} (hw : isManager s = false) (h : (con id s).isSrc = true) (num : Nat) :
    Only (reporting [.lanes]) s (serveRetx id num s) ∧ (serveRetx id num s).lsh = s.lsh ∧ (serveRetx id num s).del.retx = (s.del.retx + 1) % 65536 ∧
    (con id (serveRetx id num s)).kennel = (con id s).kennel ∧ (condOn pgKEN kenRETX id s = false → Latched pgKEN kenRETX (serveRetx id num s)) := by
  have hwn : isManager (noteRetx id s) = false := (isManager_congr ((noteRetx_only id s).same .pln (by decide))).trans hw
  have hsent := sendSegs_worker_sent (id := id) (resendable num (con id s)) hwn
  have hready := (noteRetx_ready id s).trans hsent.ready
  rw [serveRetx_eq h]
  refine ⟨hsent.frame.next rfl ((noteRetx_only id s).mono rfl), hsent.lsh.trans ((noteRetx_only id s).same .lsh (by decide)), ?_, hready.kennel id, fun hc => ?_⟩
  · rw [hready.del]
    rfl
  · exact hsent.undisturbed.stay (raiseOnce_latched _ _ _ (by decide) (by decide) hc)

/-- On a ring with one port for class B a worker puts again each segment asked for at the end of that port's stream, marked as a repetition. -/
theorem sendSegs_strB {id : Nat} {e : Contract} {r : RingPlan} {p : Nat} (hcls : e.cls = 2) (ks : List KItem) {s : State} (hw : isManager s = false)
    (he : (con id s).ent = some e) (hr : (ringPlans s).find? (·.kind = 0) = some r) (hp : sendPorts r 2 s = [p]) :
    (lane p (ks.foldl (fun s k => sendSeg id k true s) s)).strB =
      (lane p s).strB ++ ks.flatMap fun x => tagWord x.seq (myDev s) id x.item.size true false :: x.item.words := by
  induction ks generalizing s with
  | nil => exact (List.append_nil _).symm
  | cons k ks ih =>
    have hone : sendSeg id k true s = sendOnRing r 2 (tagWord k.seq (myDev s) id k.item.size true false :: k.item.words) s := by
      rw [sendSeg_worker hw he, hr, hcls]
    have hsent := sendSeg_worker_sent hw id k true
    rw [List.foldl_cons, ih ((isManager_congr hsent.pln).trans hw) ((hsent.ready.ent id).trans he) ((congrArg _ (ringPlans_congr hsent.pln)).trans hr) ((hsent.ports r 2).trans hp),
      myDev_congr hsent.pln, hone, sendOnRing_strB hp, List.flatMap_cons, List.append_assoc]

end Sys2Proof.Machine
end

section
/-! PROOF. Sources number, keep, send and resend (R60, R64, R267, R273–R277, R284, R291, R292, R296–R298). -/

namespace Sys2Proof.Machine

theorem serveMerger_idle {s : State} (h : s.bst.running.contains 64 = false) : serveMerger s = s := serve_idle h

/-! ## A run closed (R64, R273) -/

theorem runCloseTimer_runs {k : Con} {slot : Slot} {o : OpenRun} {s : State} (ho : runOf slot.val (con k.val s) = some o) (hb : barred k.val o.t s = false) :
    Runs (.runCloseTimer k slot) s [.del] fun t =>
      con k.val t = { con k.val s with runs := (con k.val s).runs.filter (·.slot ≠ slot.val), ready := insertKey (runItem o s) (con k.val s).ready } ∧
      ∀ j, j ≠ k.val → con j t = con j s := by
  have hopen : barred k.val (runItem o s).t (modCon k.val (fun c => { c with runs := c.runs.filter (·.slot ≠ slot.val) }) s) = false := by
    rw [← hb]
    simp only [barred, con_modCon_self]
    rfl
  have hclose : closeRun slot.val s k.val = modCon k.val (fun c => { c with ready := insertKey (runItem o s) c.ready })
      (modCon k.val (fun c => { c with runs := c.runs.filter (·.slot ≠ slot.val) }) s) := by
    rw [closeRun, ho]
    exact if_neg (by rw [hopen]; decide)
  refine .of_only rfl hclose (Only.next (modCon_only _ _ _) rfl (modCon_only _ _ s)) ⟨?_, fun j hj => ?_⟩
  · rw [con_modCon_self, con_modCon_self]
  · rw [con_modCon_of_ne _ hj, con_modCon_of_ne s hj]

/-! ## Numbered, kept and sent (R275–R277, R284) -/

/-- An item numbered into an empty Kennel, and then sent as far as the allowance reaches. -/
def KeptAndSent (id : Nat) (q : Part) (i : Item) (hz : Option Stamp) (s t : State) : Prop :=
  let paid := decide (i.cost ≤ allowance q (con id s) s.tim.up)
  (con id t).kennel = [{ (con id s).fresh i s.tim.up with sent := paid }] ∧ (con id t).next = ((con id s).next + 1) % 2 ^ 32 ∧ (con id t).hz = hz ∧
  (con id t).tokens = (if paid then allowance q (con id s) s.tim.up - i.cost else allowance q (con id s) s.tim.up) ∧ (con id t).tokAt = s.tim.up ∧
  ∀ j, j ≠ id → (con j t).kennel = (con j s).kennel ∧ (con j t).next = (con j s).next

theorem horizonItem_isCtrl (cls : Cls) (h : Stamp) (s : State) : (horizonItem cls.code h s).isCtrl 2 = true := by
  have hsub : (horizonItem cls.code h s).sub = 2 := by
    change wbits (mkWord [(24, 8, 2), (16, 6, 0), (0, 16, cls.code * 4096)]) 24 8 = 2
    cases cls <;> decide
  rw [Item.isCtrl, hsub]
  rfl

/-- The horizon that a beat puts into a contract. -/
def beatHz (cls id : Nat) (s : State) : Stamp := beforeEnd id (conLimit id ((beatInstant cls s).minus 2000) s) s

/-- The beat of a contract with nothing ready and no horizon yet. -/
theorem beatCon_eq {id : Nat} {e : Contract} {s : State} (he : (con id s).ent = some e) (hs : e.scope ≠ 0) (cls : Nat) (hr : (con id s).ready = []) (hz : (con id s).hz = none) :
    beatCon cls s id = transmit id (modCon id (fun c => { c with hz := some (beatHz cls id s) })
      (putItemK id (takeReady id (beatHz cls id s) (takeReady id (liveLimit id s) s)) (horizonItem cls (beatHz cls id s) s))) := by
  have hcon := con_takeReady id (liveLimit id s) s
  have hscope : scopeOf id (takeReady id (liveLimit id s) s) ≠ 0 := by rwa [scopeOf_eq (e := e) (by rw [hcon, he])]
  have hh : beforeEnd id (conLimit id ((beatInstant cls (takeReady id (liveLimit id s) s)).minus 2000) (takeReady id (liveLimit id s) s)) (takeReady id (liveLimit id s) s) =
      beatHz cls id s := by
    rw [conLimit_takeReady, beforeEnd, hcon]
    rfl
  have hnone : (con id (takeReady id (liveLimit id s) s)).hz = none := by rw [hcon, hz]
  have hready : (con id (takeReady id (liveLimit id s) s)).ready = [] := by rw [hcon, hr]; rfl
  unfold beatCon
  dsimp only
  rw [promote_nil hr, if_neg hscope, hh, hnone]
  dsimp only
  rw [promote_nil hready]
  rfl

section
variable {id : Nat} {e : Contract} {q : Part} {i : Item} {s : State} (hw : isManager s = false) (he : (con id s).ent = some e) (hs : e.scope ≠ 0)
  (hq : partOf e (myDev s) = some q) (hk : (con id s).kennel = [])
include hw he hs hq hk

/-- From a state `u` that differs from `s` in one contract's ready items, an item is numbered, its contract's horizon set, and what waits is sent. -/
theorem keptAndSent {u v : State} (hu : Only [.del] s u) (hcon : con id u = { con id s with ready := (con id u).ready }) (ho : ∀ j, j ≠ id → con j u = con j s)
    (hn : Numbered id i u v) (hz : Option Stamp) {w : State} (hv : Only [.del] v w) (hcw : con id w = { con id v with hz := hz }) (how : ∀ j, j ≠ id → con j w = con j v) :
    Only (reporting [.del, .lanes]) s (transmit id w) ∧ KeptAndSent id q i hz s (transmit id w) := by
  have hframe : Only [.del] s w := hu.trans (hn.frame.trans hv)
  have hup : w.tim = s.tim := hframe.same .tim (by decide)
  have hpln : w.pln = s.pln := hframe.same .pln (by decide)
  have hupu : u.tim = s.tim := hu.same .tim (by decide)
  have hkept := hn.kept
  rw [hcon, hk, hupu] at hkept
  have hkennel : (con id w).kennel = [(con id s).fresh i s.tim.up] := by rw [hcw, hkept]; rfl
  have hall : allowance q (con id w) w.tim.up = allowance q (con id s) s.tim.up := by rw [hcw, hkept, hup]; rfl
  have hm := transmit_metered ((isManager_congr hpln).trans hw) (show (con id w).ent = some e by rw [hcw, hkept, he]) hs (by rw [myDev_congr hpln, hq]) hkennel rfl
  obtain ⟨mframe, mkennel, mnext, mhz, mtokens, mtokAt, mothers⟩ := hm
  rw [hall] at mkennel mtokens
  refine ⟨mframe.next rfl (hframe.mono rfl), mkennel, ?_, ?_, mtokens, by rw [mtokAt, hup], fun j hj => ?_⟩
  · rw [mnext, hcw, hkept]
  · rw [mhz, hcw]
  · obtain ⟨hjk, hjn⟩ := mothers j hj
    rw [hjk, hjn, how j hj, hn.others j hj, ho j hj]
    exact ⟨rfl, rfl⟩

theorem itemTransmit_runs {k : Con} (hid : k.val = id) (hsrc : (con id s).isSrc = true) (hr : (con id s).ready = [i]) (hl : Stamp.lt i.t (liveLimit id s) = true)
    (ha : anchorWhy (con id s) i.t = []) (hfit : i.size ≤ reserveWords e (myDev s)) :
    Runs (.itemTransmit k) s (reporting [.del, .lanes]) (KeptAndSent id q i (con id s).hz s) := by
  subst hid
  have hcon := con_takeReady k.val (liveLimit k.val s) s
  have hn : Numbered k.val i (takeReady k.val (liveLimit k.val s) s) (putItemK k.val (takeReady k.val (liveLimit k.val s) s) i) := by
    refine putItemK_numbered (e := e) (by rw [hcon, he]) ?_ (.inr (by rw [hcon, ← ha]; rfl))
    rw [hcon, hk, myDev_congr ((takeReady_only _ _ s).same .pln (by decide))]
    exact (Nat.zero_add _).trans_le hfit
  have hhz : (con k.val (putItemK k.val (takeReady k.val (liveLimit k.val s) s) i)).hz = (con k.val s).hz := by rw [hn.kept, hcon]
  have hscope : scopeOf k.val (putItemK k.val (takeReady k.val (liveLimit k.val s) s) i) ≠ 0 := by rwa [scopeOf_eq (e := e) (by rw [hn.kept, hcon, he])]
  obtain ⟨hframe, hkept⟩ := keptAndSent hw he hs hq hk (takeReady_only _ _ s) (by rw [hcon]) (fun j hj => con_takeReady_of_ne hj _ s) hn (con k.val s).hz (.refl _ _)
    (by rw [← hhz]) (fun _ _ => rfl)
  refine .of_only (if_pos hsrc) ?_ hframe hkept
  rw [promote_single hr hl, localHz_of_scope hscope]

theorem sourceHorizonBeat_runs {k : Con} (hid : k.val = id) {cls : Cls} (hr : (con id s).ready = []) (hc : sourceCons cls.code s = [id]) (hz : (con id s).hz = none)
    (hfit : 1 ≤ reserveWords e (myDev s)) : Runs (.sourceHorizonBeat cls) s (reporting [.del, .lanes])
      (KeptAndSent id q (horizonItem cls.code (beatHz cls.code id s) s) (some (beatHz cls.code id s)) s) := by
  subst hid
  generalize hh : beatHz cls.code k.val s = h
  generalize hu : takeReady k.val h (takeReady k.val (liveLimit k.val s) s) = u
  have hframe : Only [.del] s u := hu ▸ (takeReady_only _ _ s).trans (takeReady_only _ _ _)
  have hcon : con k.val u = { con k.val s with ready := (con k.val u).ready } := by rw [← hu, con_takeReady, con_takeReady]
  have ho (j : Nat) (hj : j ≠ k.val) : con j u = con j s := by rw [← hu, con_takeReady_of_ne hj, con_takeReady_of_ne hj]
  have hn : Numbered k.val (horizonItem cls.code h s) u (putItemK k.val u (horizonItem cls.code h s)) := by
    refine putItemK_numbered (e := e) (by rw [hcon, he]) ?_ (.inl (horizonItem_isCtrl cls h s))
    rw [hcon, hk, myDev_congr (hframe.same .pln (by decide))]
    exact hfit
  obtain ⟨hall, hkept⟩ := keptAndSent hw he hs hq hk hframe hcon ho hn (some h) (modCon_only k.val (fun c => { c with hz := some h }) _) (con_modCon_self _ _ _)
    (fun j hj => con_modCon_of_ne _ hj _)
  refine .of_only (u := (sourceCons cls.code s).foldl (beatCon cls.code) s) rfl ?_ hall hkept
  rw [hc, List.foldl_cons, List.foldl_nil, beatCon_eq he hs cls.code hr hz, hh, hu]

end

end Sys2Proof.Machine
end

section
/-! PROOF. Sources resend, take acknowledgements, discard and stop (R267, R291, R292, R296–R298, R306). -/

namespace Sys2Proof.Machine

/-! ## Acknowledgements (R296) -/

/-- What of a Kennel an acknowledgement up to a number does not cover. -/
def unacked (a : Nat) (l : List KItem) : List KItem := l.filter fun k => decide (0 < sub32 (k.seq + k.span) a) && decide (sub32 (k.seq + k.span) a < 2 ^ 31)

/-- A contract that is not being withdrawn stays. -/
theorem retire_of_state {id : Nat} {s : State} (h : (con id s).state ≠ 3) : retire id s = s := by
  unfold retire
  dsimp only
  split
  · rw [decide_eq_false h]
    exact if_neg (by simp)
  · exact if_neg (by simp)

section
variable {k : Con} {num : Nat} {s : State} (hsrc : (con k.val s).isSrc = true) (hm : s.bst.running.contains 64 = false)
include hsrc hm

theorem exec_ackReceive : exec (.ackReceive k num) s = .next (if sub32 ((num + 1) % 2 ^ 32) (con k.val s).ack ≤ sub32 (con k.val s).next (con k.val s).ack then
      retire k.val (modCon k.val (fun c => { c with ack := (num + 1) % 2 ^ 32, kennel := unacked ((num + 1) % 2 ^ 32) c.kennel })
        (modCon k.val (fun c => { c with lastAckUp := s.tim.up }) s))
    else modCon k.val (fun c => { c with lastAckUp := s.tim.up }) s) := by
  change Host.Outcome.next (applyAck k.val num (serveMerger s)) = _
  rw [serveMerger_idle hm, applyAck]
  dsimp only
  rw [if_neg (by rw [hsrc]; decide)]
  rfl

theorem ackReceive_runs (h3 : (con k.val s).state ≠ 3) (ha : sub32 ((num + 1) % 2 ^ 32) (con k.val s).ack ≤ sub32 (con k.val s).next (con k.val s).ack) :
    Runs (.ackReceive k num) s [.del] fun t =>
      con k.val t = { con k.val s with lastAckUp := s.tim.up, ack := (num + 1) % 2 ^ 32, kennel := unacked ((num + 1) % 2 ^ 32) (con k.val s).kennel } ∧
      ∀ j, j ≠ k.val → con j t = con j s := by
  refine .of_only (exec_ackReceive hsrc hm) ((if_pos ha).trans (retire_of_state ?_)) (Only.next (modCon_only _ _ _) rfl (modCon_only _ _ s)) ⟨?_, fun j hj => ?_⟩
  · rwa [con_modCon_self, con_modCon_self]
  · rw [con_modCon_self, con_modCon_self]
  · rw [con_modCon_of_ne _ hj, con_modCon_of_ne s hj]

theorem ackReceive_beyond_runs (ha : sub32 (con k.val s).next (con k.val s).ack < sub32 ((num + 1) % 2 ^ 32) (con k.val s).ack) :
    Runs (.ackReceive k num) s [.del] fun t => con k.val t = { con k.val s with lastAckUp := s.tim.up } ∧ ∀ j, j ≠ k.val → con j t = con j s :=
  .of_only (exec_ackReceive hsrc hm) (if_neg (Nat.not_le.mpr ha)) (modCon_only _ _ s) ⟨con_modCon_self _ _ _, fun _ hj => con_modCon_of_ne s hj _⟩

/-! ## Requests (R291, R292) -/

theorem retxReceive_runs {e : Contract} {r : RingPlan} {p : Nat} (hw : isManager s = false) (he : (con k.val s).ent = some e) (hc : e.cls = 2)
    (hr : (ringPlans s).find? (·.kind = 0) = some r) (hp : sendPorts r 2 s = [p]) : Runs (.retxReceive k num) s (reporting [.del, .lanes]) fun t =>
      t.del.retx = (s.del.retx + 1) % 65536 ∧ (con k.val t).kennel = (con k.val s).kennel ∧ (condOn pgKEN 3 k.val s = false → Latched pgKEN 3 t) ∧
      (lane p t).strB = (lane p s).strB ++ (resendable num (con k.val s)).flatMap fun x => tagWord x.seq (myDev s) k.val x.item.size true false :: x.item.words := by
  obtain ⟨hframe, -, hretx, hkennel, hlatched⟩ := serveRetx_worker hw hsrc num
  have hnote := noteRetx_only k.val s
  have hpln : (noteRetx k.val s).pln = s.pln := hnote.same .pln (by decide)
  have hstr := sendSegs_strB (id := k.val) hc (resendable num (con k.val s)) ((isManager_congr hpln).trans hw)
    (((noteRetx_ready k.val s).ent k.val).trans he) ((congrArg _ (ringPlans_congr hpln)).trans hr)
    ((sendPorts_congr hpln (hnote.same .lsh (by decide)) (.of_only hnote rfl) r 2).trans hp)
  rw [← serveRetx_eq hsrc, lane_congr (hnote.same .lanes (by decide)), myDev_congr hpln] at hstr
  exact .of_only (u := serveRetx k.val num (serveMerger s)) rfl (by rw [serveMerger_idle hm]) (hframe.mono rfl) ⟨hretx, hkennel, hlatched, hstr⟩

end

/-! ## Discarded after KEEP (R298) -/

/-- One discarded item counted, with its contract and number as the latest loss. -/
def noteLoss (id : Nat) (s : State) (k : KItem) : State :=
  bumpGen pgKEN (s.modDel fun d => { d with
    gaps := (d.gaps + 1) % 65536, gapItems := d.gapItems + BitVec.ofNat 32 k.span, lossCon := id, lossFirst := k.seq, lossCount := k.span })

theorem con_noteLoss (j id : Nat) (s : State) (k : KItem) : con j (noteLoss id s k) = con j s := rfl

/-- The oldest items of a Kennel stand behind their GAPs, and no number is taken. -/
theorem discard_con (id n : Nat) (s : State) : (con id (discard id n s).1).kennel = gapReplace id ((con id s).kennel.take n) s ++ (con id s).kennel.drop n ∧
    (con id (discard id n s).1).next = (con id s).next := by
  have hnoted (l : List KItem) (t : State) : con id (l.foldl (noteLoss id) t) = con id t :=
    foldl_keeps (f := noteLoss id) (P := fun u => con id u = con id t) (fun u hu k => (con_noteLoss id id u k).trans hu) rfl l
  have hcon := hnoted (newGaps ((con id s).kennel.take n) (gapReplace id ((con id s).kennel.take n) s)) (modCon id (fun c => { c with
    kennel := gapReplace id ((con id s).kennel.take n) s ++ c.kennel.drop n,
    anchorDue := if (newGaps ((con id s).kennel.take n) (gapReplace id ((con id s).kennel.take n) s)).isEmpty ∨ c.anchorDue = some 0 then c.anchorDue else some 3 }) s)
  rw [con_modCon_self] at hcon
  exact ⟨congrArg (·.kennel) hcon, congrArg (·.next) hcon⟩

theorem raiseGaps_readyOnly (id : Nat) (g : List KItem) (s : State) : ReadyOnly s (raiseGaps id g s) := .foldl (fun t _ => raise_readyOnly pgKEN kenGAP id t) g s

theorem raiseGaps_latched {id : Nat} {g : List KItem} (h : g ≠ []) (s : State) : Latched pgKEN kenGAP (raiseGaps id g s) := by
  cases g with
  | nil => exact absurd rfl h
  | cons k ks =>
    exact foldl_keeps (P := Latched pgKEN kenGAP) (f := fun s (_ : KItem) => raise pgKEN kenGAP id s) (fun _ ht _ => raise_keeps_latched id ht)
      (raise_latched id s (by decide) (by decide)) ks

theorem exec_kennelCheck {k : Con} {s : State} (hids : conIds s = [k.val]) : exec .kennelCheck s = .next (if (con k.val s).isSrc ∧ agedCount (con k.val s) s.tim.up ≠ 0 then
    raiseGaps k.val (discard k.val (agedCount (con k.val s) s.tim.up) s).2 (discard k.val (agedCount (con k.val s) s.tim.up) s).1 else s) := by
  change execKennelCheck s = _
  unfold execKennelCheck
  rw [hids]
  rfl

theorem kennelCheck_young_runs {k : Con} {s : State} (hids : conIds s = [k.val]) (hn : agedCount (con k.val s) s.tim.up = 0) : Runs .kennelCheck s [] fun t => t = s :=
  .of_only (exec_kennelCheck hids) (if_neg fun h => h.2 hn) (.refl _ s) rfl

section
variable {k : Con} {s : State} (hids : conIds s = [k.val]) (hsrc : (con k.val s).isSrc = true)
include hids hsrc

/-- A holder of this or a later term announced to a worker: it is noted, and the worker answers as to a request. -/
theorem holderReceive_runs {e : Contract} {seg hub term : Nat} (hw : isManager s = false) (he : (con k.val s).ent = some e) (hs : e.scope ≠ 0) (h2 : (con k.val s).state = 2)
    (ht : (FMap.get (fun _ => (0, 0)) s.lsh.holders seg).2 ≤ term) : Runs (.holderReceive seg hub term) s (reporting [.del, .lanes, .lsh]) fun t =>
      FMap.get (fun _ => (0, 0)) t.lsh.holders seg = (hub, term) ∧ t.del.retx = (s.del.retx + 1) % 65536 ∧ (con k.val t).kennel = (con k.val s).kennel := by
  have hworker (u : State) (hu : isManager u = false) : ¬(isManager u = true ∧ seg = mySeg u) := fun h => Bool.false_ne_true (hu.symm.trans h.1)
  generalize hu : (s.modLsh fun l => { l with holders := FMap.put (fun _ => (0, 0)) l.holders seg (hub, term) }) = u
  have hframe : Only [.lsh] s u := hu ▸ modLsh_only _ s
  have hcon : con k.val u = con k.val s := con_congr (hframe.same .del (by decide)) _
  have hwu : isManager u = false := (isManager_congr (hframe.same .pln (by decide))).trans hw
  obtain ⟨hsent, hlsh, hretx, hkennel, -⟩ := serveRetx_worker hwu (by rw [hcon, hsrc]) (con k.val s).ack
  have hidsu : conIds u = [k.val] := by rw [← hu]; exact hids
  refine .of_only (u := (conIds u).foldl (fun s id => if (con id s).isSrc ∧ scopeOf id s ≠ 0 ∧ ((con id s).state = 2 ∨ (con id s).state = 3) then serveRetx id (con id s).ack s else s) u)
    ?_ ?_ (hsent.next rfl (hframe.mono rfl)) ⟨?_, ?_, ?_⟩
  · change execHolderReceive seg hub term s = _
    unfold execHolderReceive
    rw [if_pos ht, hu]
    dsimp only
    rw [if_neg (hworker u hwu)]
  · rw [hidsu, List.foldl_cons, List.foldl_nil, if_pos ⟨by rw [hcon, hsrc], by rwa [scopeOf_eq (e := e) (by rw [hcon, he])], .inl (by rw [hcon, h2])⟩, hcon]
  · rw [hlsh, ← hu]
    exact FMap.get_put_self
  · rw [hretx, ← hu]
    rfl
  · rw [hkennel, hcon]

theorem kennelCheck_aged_runs (hn : agedCount (con k.val s) s.tim.up ≠ 0) : Runs .kennelCheck s (reporting [.del]) fun t =>
    let lost := (con k.val s).kennel.take (agedCount (con k.val s) s.tim.up)
    (con k.val t).kennel = gapReplace k.val lost s ++ (con k.val s).kennel.drop (agedCount (con k.val s) s.tim.up) ∧ (con k.val t).next = (con k.val s).next ∧
    (newGaps lost (gapReplace k.val lost s) ≠ [] → Latched pgKEN 0 t) := by
  obtain ⟨hkennel, hnext⟩ := discard_con k.val (agedCount (con k.val s) s.tim.up) s
  have hready := raiseGaps_readyOnly k.val (discard k.val (agedCount (con k.val s) s.tim.up) s).2 (discard k.val (agedCount (con k.val s) s.tim.up) s).1
  exact .of_only (exec_kennelCheck hids) (if_pos ⟨hsrc, hn⟩) (Only.next (raiseGaps_only _ _ _) rfl ((discard_only _ _ s).mono rfl))
    ⟨(hready.kennel _).trans hkennel, (hready.next _).trans hnext, fun hg => raiseGaps_latched hg _⟩

end

theorem ackStallTimer_runs {k : Con} {s : State} (hk : (con k.val s).kennel ≠ []) (hc : condOn pgKEN 2 k.val s = false) : Runs (.ackStallTimer k) s (reporting [.del]) fun t =>
    Latched pgKEN 2 t ∧ condOn pgKEN 2 k.val t = true ∧ (con k.val t).kennel = (con k.val s).kennel :=
  .of_only (u := if (con k.val s).kennel = [] then s else raiseOnce pgKEN kenACKSTALL k.val k.val s) rfl (if_neg hk) ((raiseOnce_only _ _ _ _ s).mono rfl)
    ⟨raiseOnce_latched _ _ s (by decide) (by decide) hc, condOn_raiseOnce hc, (raiseOnce_readyOnly _ _ _ _ s).kennel _⟩

theorem removalStop_runs {s : State} (h : s.lsh.stopAt ≠ none) : Runs .removalStop s [.lsh] fun t => t.lsh = { s.lsh with stopped := true } :=
  .of_only (u := if s.lsh.stopAt.isSome then s.modLsh fun l => { l with stopped := true } else s) rfl (if_pos (Option.isSome_iff_ne_none.mpr h)) (modLsh_only _ s) rfl

/-- Settles O33: each command of a source by the case that its conditions name. -/
theorem sourcesNumberKeepSendAndResend : Obligations.SourcesNumberKeepSendAndResend := by
  unfold Obligations.SourcesNumberKeepSendAndResend
  intro k slot cls num hub p o i e q r s c others tokens kept
  refine ⟨runCloseTimer_runs, fun hw he hs hq hsrc hk => ⟨fun hr hl ha hfit => itemTransmit_runs hw he hs hq hk rfl hsrc hr hl ha hfit,
      fun hr hc hz hfit => sourceHorizonBeat_runs hw he hs hq hk rfl hr hc hz hfit⟩,
    fun hsrc hm => ⟨fun h3 ha => ackReceive_runs hsrc hm h3 ha, fun ha => ackReceive_beyond_runs hsrc hm ha, fun hw he hc hr hp => retxReceive_runs hsrc hm hw he hc hr hp⟩,
    fun hids hsrc => ⟨kennelCheck_aged_runs hids hsrc, kennelCheck_young_runs hids, fun hw he hs h2 ht => holderReceive_runs hids hsrc hw he hs h2 ht⟩,
    ackStallTimer_runs, removalStop_runs⟩

end Sys2Proof.Machine
end

section
/-! SUPPORT. The merger's inputs, its released horizon where none can move or where nothing is held, and requests for what is missing (R57, R285–R292). -/

namespace Sys2Proof.Machine

/-! ## Inputs (R285) -/

theorem findIn_congr {s t : State} (h : t.del.ins = s.del.ins) (dev id : Nat) : findIn dev id t = findIn dev id s := by rw [findIn, h, findIn]

theorem findIn_mem {dev id : Nat} {s : State} {m : MIn} (h : findIn dev id s = some m) : m ∈ s.del.ins ∧ m.dev = dev ∧ m.con = id := by
  have hkey := List.find?_some h
  exact ⟨List.mem_of_find?_eq_some h, of_decide_eq_true hkey⟩

/-- A change of inputs of one key changes the inputs alone. -/
theorem modIn_del (dev id : Nat) (f : MIn → MIn) (s : State) : (modIn dev id f s).del = { s.del with ins := (modIn dev id f s).del.ins } := by
  unfold modIn State.modDel
  dsimp only
  split <;> rfl

theorem modIn_ins {dev id : Nat} {s : State} {m : MIn} (h : findIn dev id s = some m) (f : MIn → MIn) :
    (modIn dev id f s).del.ins = s.del.ins.map fun i => if i.dev = dev ∧ i.con = id then f i else i := by
  have hkey := List.find?_some h
  have hany : (s.del.ins.any fun i => i.dev = dev ∧ i.con = id) = true := List.any_eq_true.mpr ⟨m, List.mem_of_find?_eq_some h, hkey⟩
  unfold modIn State.modDel
  dsimp only
  rw [if_pos hany]

/-- A change of an input that leaves its device and its contract. -/
def KeepsKey (f : MIn → MIn) : Prop := ∀ i, (f i).dev = i.dev ∧ (f i).con = i.con

section
variable {dev id : Nat} {s : State} {m : MIn} (h : findIn dev id s = some m) {f : MIn → MIn} (hf : KeepsKey f)
include h hf

/-- The inputs of a key, once changed, are found by the keys that they had. -/
theorem findIn_modIn (d c : Nat) : findIn d c (modIn dev id f s) = (findIn d c s).map fun i => if i.dev = dev ∧ i.con = id then f i else i := by
  rw [findIn, modIn_ins h, List.find?_map, findIn]
  congr 2
  funext i
  simp only [Function.comp]
  split
  · rw [(hf i).1, (hf i).2]
  · rfl

theorem findIn_modIn_self : findIn dev id (modIn dev id f s) = some (f m) := by
  rw [findIn_modIn h hf, h]
  exact congrArg some (if_pos (findIn_mem h).2)

theorem findIn_modIn_of_ne {d c : Nat} (hne : (d, c) ≠ (dev, id)) : findIn d c (modIn dev id f s) = findIn d c s := by
  rw [findIn_modIn h hf]
  cases hx : findIn d c s with
  | none => rfl
  | some x =>
    obtain ⟨-, hd, hc⟩ := findIn_mem hx
    exact congrArg some (if_neg fun e => hne (by rw [← hd, ← hc, e.1, e.2]))

end

/-- An input whose cap is off. -/
theorem uncap_open {dev id : Nat} {s : State} {m : MIn} (h : findIn dev id s = some m) (hc : m.cap = .none) : uncap dev id s = s := by
  unfold uncap
  rw [h]
  exact if_pos hc

/-! ## The released horizon (R286) -/

theorem mergesHere_congr {s t : State} (hp : t.pln = s.pln) (hl : t.lsh = s.lsh) (cls : Nat) : mergesHere cls t = mergesHere cls s := by
  rw [mergesHere, isManager_congr hp, isHolder, hl, mergesHere, isHolder]

theorem con_of_cons {s t : State} (h : t.del.cons = s.del.cons) (j : Nat) : con j t = con j s := by rw [con, h, con]

theorem leastOf_none {l : List (Option Stamp)} (h : none ∈ l) : leastOf l = none := by
  induction l with
  | nil => exact absurd h List.not_mem_nil
  | cons a l ih =>
    cases l with
    | nil => exact (List.mem_singleton.mp h).symm
    | cons b l =>
      rcases List.mem_cons.mp h with rfl | hb
      · rfl
      · cases a <;> simp [leastOf, ih hb]

/-- No horizon of a class is released yet, and beside the input of one key another, neither absent nor capped, has none (R286). -/
def Awaited (cls dev id : Nat) (s : State) : Prop :=
  heldHz cls s = none ∧ ∃ j ∈ s.del.ins, (j.dev, j.con) ≠ (dev, id) ∧ clsOfIn j s = cls ∧ j.absent = false ∧ j.cap = .none ∧ j.horizon = none ∧
    (4096 ≤ j.con ∨ scopeOf j.con s ≠ 0)

theorem clsOfIn_congr {s t : State} (h : t.del.cons = s.del.cons) (j : MIn) : clsOfIn j t = clsOfIn j s := by
  rw [clsOfIn, clsOf, con_of_cons h, clsOfIn, clsOf]

theorem scopeOf_congr {s t : State} (h : t.del.cons = s.del.cons) (id : Nat) : scopeOf id t = scopeOf id s := by rw [scopeOf, con_of_cons h, scopeOf]

theorem Awaited.congr {cls dev id : Nat} {s t : State} (h : Awaited cls dev id s) (hc : t.del.cons = s.del.cons) (hh : t.del.hz = s.del.hz)
    (hi : ∀ j ∈ s.del.ins, (j.dev, j.con) ≠ (dev, id) → j ∈ t.del.ins) : Awaited cls dev id t := by
  obtain ⟨hz, j, hj, hne, hcls, hrest⟩ := h
  refine ⟨by rw [heldHz, hh]; exact hz, j, hi j hj hne, hne, (clsOfIn_congr hc j).trans hcls, ?_⟩
  rw [scopeOf_congr hc]
  exact hrest

/-- A change of the input of that key leaves the other as it is. -/
theorem Awaited.modIn {cls dev id : Nat} {s : State} (h : Awaited cls dev id s) {m : MIn} (hm : findIn dev id s = some m) (f : MIn → MIn) :
    Awaited cls dev id (modIn dev id f s) := by
  have hdel := modIn_del dev id f s
  refine h.congr (by rw [hdel]) (by rw [hdel]) fun j hj hne => ?_
  rw [modIn_ins hm]
  exact List.mem_map.mpr ⟨j, hj, if_neg fun e => hne (by rw [e.1, e.2])⟩

theorem inLimit_awaited {cls : Nat} {s : State} {j : MIn} (hh : isHead s = false) (hcls : clsOfIn j s = cls) (ha : j.absent = false) (hcap : j.cap = .none)
    (hz : j.horizon = none) (hs : 4096 ≤ j.con ∨ scopeOf j.con s ≠ 0) : inLimit cls s j = some none := by
  have hadds : ¬(clsOfIn j s ≠ cls ∨ j.absent = true ∨ (j.con < 4096 ∧ scopeOf j.con s = 0)) := by
    rw [hcls, ha]
    rintro (h | h | ⟨hlt, h0⟩)
    · exact h rfl
    · exact Bool.false_ne_true h
    · exact hs.elim (fun h => by omega) fun h => h h0
  have hstage : byStage2 j s = false := by rw [byStage2, hh]; rfl
  unfold inLimit
  rw [if_neg hadds]
  dsimp only
  rw [if_neg (not_not.mpr hcap), hstage, hz]
  rfl

theorem releasedHz_awaited {cls dev id : Nat} {s : State} (hh : isHead s = false) (h : Awaited cls dev id s) : releasedHz cls s = none := by
  obtain ⟨hz, j, hj, -, hcls, ha, hcap, hor, hs⟩ := h
  have hnone : none ∈ s.del.ins.filterMap (inLimit cls s) := List.mem_filterMap.mpr ⟨j, hj, inLimit_awaited hh hcls ha hcap hor hs⟩
  rw [releasedHz, leastOf_none hnone]
  exact hz

/-- Where another input is awaited, the merge releases nothing. -/
theorem mergeRelease_awaited {cls dev id : Nat} {s : State} (hm : mergesHere cls s = true) (hh : isHead s = false) (h : Awaited cls dev id s) :
    mergeRelease cls s = setHorizon cls none s := by
  unfold mergeRelease
  rw [if_neg (by rw [hm]; decide), releasedHz_awaited hh h]

theorem setHorizon_none_only (cls : Nat) (s : State) : Only [.del] s (setHorizon cls none s) :=
  modDel_only (fun d => { d with hz := FMap.put (fun _ => none) d.hz cls none }) s

theorem setHorizon_none_del (cls : Nat) (s : State) : (setHorizon cls none s).del = { s.del with hz := FMap.put (fun _ => none) s.del.hz cls none } := rfl

/-! ## A merge with nothing held -/

theorem journal_stand (e : JEntry) (s : State) : LanesStand s (journal e s) :=
  .ite ((LanesStand.of_only (modLsh_only _ s) rfl).trans (sendCtrlAll_stand _ _ _)) (.refl s)

/-- A released horizon moved, and the standby heard of it: every lane stands, and of the merger nothing else differs. -/
structure HorizonMoved (s t : State) : Prop where
  frame : Only [.del, .lanes, .lsh] s t
  del : t.del = { s.del with hz := t.del.hz }
  stand : LanesStand s t

theorem HorizonMoved.refl (s : State) : HorizonMoved s s := ⟨.refl _ s, rfl, .refl s⟩

theorem HorizonMoved.trans {s t u : State} (h : HorizonMoved s t) (k : HorizonMoved t u) : HorizonMoved s u :=
  ⟨h.frame.trans k.frame, k.del.trans (by rw [h.del]), h.stand.trans k.stand⟩

theorem HorizonMoved.pln {s t : State} (h : HorizonMoved s t) : t.pln = s.pln := h.frame.same .pln (by decide)

theorem HorizonMoved.ins {s t : State} (h : HorizonMoved s t) : t.del.ins = s.del.ins := by rw [h.del]

theorem HorizonMoved.cons {s t : State} (h : HorizonMoved s t) : t.del.cons = s.del.cons := by rw [h.del]

/-- Setting a horizon moves it and nothing else. -/
theorem setHorizon_moved (cls : Nat) (h : Option Stamp) (s : State) : HorizonMoved s (setHorizon cls h s) ∧ heldHz cls (setHorizon cls h s) = h := by
  have hput : HorizonMoved s (s.modDel fun d => { d with hz := FMap.put (fun _ => none) d.hz cls h }) := ⟨(modDel_only _ s).mono rfl, rfl, .of_only (modDel_only _ s) rfl⟩
  have hheld : heldHz cls (s.modDel fun d => { d with hz := FMap.put (fun _ => none) d.hz cls h }) = h := FMap.get_put_self
  cases h with
  | none => exact ⟨hput, hheld⟩
  | some x =>
    unfold setHorizon
    dsimp only
    split
    · exact ⟨hput, hheld⟩
    · have hdel : (journal (.horizon cls x) (s.modDel fun d => { d with hz := FMap.put (fun _ => none) d.hz cls (some x) })).del = _ := (journal_only _ _).same .del (by decide)
      refine ⟨hput.trans ⟨(journal_only _ _).mono rfl, by rw [hdel], journal_stand _ _⟩, ?_⟩
      rw [heldHz, hdel]
      exact hheld

theorem leastHeld_none {s : State} (h : ∀ x ∈ s.del.ins, x.held = []) (cls : Nat) (z : Stamp) (skip : MIn → Bool) : leastHeld cls z skip s = none := by
  have hnil : (s.del.ins.flatMap fun i =>
      if clsOfIn i s = cls ∧ !(skip i) ∧ scopeOf i.con s ≠ 0 then
        match i.held with
        | (n, x) :: _ => if Stamp.lt x.t z then [(i.dev, i.con, n, x)] else []
        | [] => []
      else []) = [] := by
    refine List.flatMap_eq_nil_iff.mpr fun i hi => ?_
    rw [h i hi]
    exact ite_self []
  rw [leastHeld]
  exact congrArg _ hnil

theorem releaseLoop_none {s : State} (h : ∀ x ∈ s.del.ins, x.held = []) (cls : Nat) (z : Stamp) (fuel : Nat) (aside : List (Nat × Nat)) (full : List (Option (Nat × Nat))) :
    releaseLoop cls z fuel aside full s = s := by
  cases fuel with
  | zero => rfl
  | succ fuel =>
    unfold releaseLoop
    rw [leastHeld_none h]

/-- With nothing held the merge moves the released horizon and no more. -/
theorem mergeRelease_noneHeld {cls : Nat} {s : State} (h : ∀ x ∈ s.del.ins, x.held = []) :
    mergeRelease cls s = if mergesHere cls s = false then s else setHorizon cls (releasedHz cls s) s := by
  unfold mergeRelease
  split
  · rfl
  · dsimp only
    cases hz : releasedHz cls s with
    | none => rfl
    | some z =>
      refine releaseLoop_none (fun x hx => h x ?_) cls z _ _ _
      rwa [(setHorizon_moved cls (some z) s).1.ins] at hx

theorem mergeRelease_moved {s : State} (h : ∀ x ∈ s.del.ins, x.held = []) (cls : Nat) : HorizonMoved s (mergeRelease cls s) := by
  rw [mergeRelease_noneHeld h]
  split
  · exact .refl s
  · exact (setHorizon_moved cls _ s).1

/-! ## Requests for what is missing (R291) -/

/-- A request to a device for a contract's items from a number on stands at every port of the way there. -/
def Asked (dev id num : Nat) (s t : State) : Prop :=
  ∀ p ∈ routePorts (dev / 128) (dev % 128) s, (ctrlBlk (dev / 128) (dev % 128) 0x31 0 (id * 2 ^ 32 + num) [] s).toTx ∈ (lane p t).ctl

/-- The way and the block do not depend on what moved before. -/
theorem Asked.from_ {dev id num : Nat} {s u t : State} (h : Asked dev id num u t) (hp : u.pln = s.pln) (hl : LanesStand s u) : Asked dev id num s t := fun p hp' => by
  rw [← ctrlBlk_congr hp]
  exact h p (by rwa [routePorts_congr hp hl.state])

theorem requestRetx_asked {dev id num : Nat} {s : State} (h : dev ≠ myDev s) : Asked dev id num s (requestRetx dev id num s) := fun p hp => by
  rw [requestRetx, if_neg h]
  exact mem_ctl_sendCtrlAll (.of_sub 0x31 rfl (by decide)) s hp

theorem requestRetx_remote_only {dev id num : Nat} {s : State} (h : dev ≠ myDev s) : Only [.lanes] s (requestRetx dev id num s) := by
  rw [requestRetx, if_neg h]
  exact sendCtrl_only _ s

theorem requestRetx_own {dev id num : Nat} {s : State} (h : dev = myDev s) :
    requestRetx dev id num s = modCon id (fun c => { c with kennel := c.kennel.map fun k => { k with sent := false } }) s := if_pos h

/-- Requests went out: the inputs and how the lanes stand are as before, and no block that waited is lost. -/
structure Requested (s t : State) : Prop where
  frame : Only [.lanes, .del] s t
  ins : t.del.ins = s.del.ins
  stand : LanesStand s t
  ctl : ∀ p b, b ∈ (lane p s).ctl → b ∈ (lane p t).ctl

theorem Requested.refl (s : State) : Requested s s := ⟨.refl _ s, rfl, .refl s, fun _ _ h => h⟩

theorem Requested.trans {s t u : State} (h : Requested s t) (k : Requested t u) : Requested s u :=
  ⟨h.frame.trans k.frame, k.ins.trans h.ins, h.stand.trans k.stand, fun p b hb => k.ctl p b (h.ctl p b hb)⟩

theorem Requested.pln {s t : State} (h : Requested s t) : t.pln = s.pln := h.frame.same .pln (by decide)

theorem requestRetx_requested (dev id num : Nat) (s : State) : Requested s (requestRetx dev id num s) := by
  by_cases h : dev = myDev s
  · rw [requestRetx_own h]
    exact ⟨(modCon_only _ _ s).mono rfl, rfl, .of_only (modCon_only _ _ s) rfl, fun _ _ h => h⟩
  · rw [requestRetx, if_neg h]
    exact ⟨(sendCtrl_only _ s).mono rfl, congrArg (·.ins) ((sendCtrl_only _ s).same .del (by decide)), sendCtrlAll_stand _ _ s, fun _ _ h => ctl_sendCtrlAll_mem _ h⟩

/-- Each of a list of inputs asked for from its expected number. -/
def requestAll (l : List MIn) (s : State) : State := l.foldl (fun s i => requestRetx i.dev i.con i.expected s) s

theorem requestAll_requested (l : List MIn) (s : State) : Requested s (requestAll l s) :=
  foldl_keeps (P := Requested s) (fun t ht i => ht.trans (requestRetx_requested i.dev i.con i.expected t)) (.refl s) l

theorem requestAll_asked {l : List MIn} {m : MIn} (hm : m ∈ l) {s : State} (h : m.dev ≠ myDev s) : Asked m.dev m.con m.expected s (requestAll l s) := by
  induction l generalizing s with
  | nil => exact absurd hm List.not_mem_nil
  | cons x l ih =>
    have hone := requestRetx_requested x.dev x.con x.expected s
    rcases List.mem_cons.mp hm with rfl | hm
    · exact fun p hp => (requestAll_requested l _).ctl p _ (requestRetx_asked h p hp)
    · exact (ih hm (by rwa [myDev_congr hone.pln])).from_ hone.pln hone.stand

theorem mem_byCap {l : List MIn} {m : MIn} (h : m ∈ l) : m ∈ byCap l := by
  induction l with
  | nil => exact h
  | cons x l ih =>
    rw [byCap]
    rcases List.mem_cons.mp h with rfl | h
    · exact List.mem_append_right _ List.mem_cons_self
    · have hsplit := ih h
      rw [← List.takeWhile_append_dropWhile (p := fun y : MIn => decide (y.capAt < x.capAt)) (l := byCap l)] at hsplit
      rcases List.mem_append.mp hsplit with ht | hd
      · exact List.mem_append_left _ ht
      · exact List.mem_append_right _ (List.mem_cons_of_mem _ hd)

/-! ## ANCHORs among arriving words (R57) -/

theorem seeAnchor_del (ws : List W128) (s : State) : (seeAnchor ws s).del = { s.del with anchors := (seeAnchor ws s).del.anchors } := by
  unfold seeAnchor
  split
  · split <;> rfl
  · rfl

/-- Words whose item is no control item hold no ANCHOR. -/
theorem seeAnchor_of_kind {dev : Nat} {w : W128} {p : List W128} {s : State} {i : Item} (h : readItem dev (w :: p) s = some i) (hk : i.kind ≠ .control) :
    seeAnchor (w :: p) s = s := by
  have hbits : bits w.toNat 7 2 ≠ 3 := fun h3 => by
    obtain ⟨t, -, ht⟩ := Option.map_eq_some_iff.mp h
    refine hk (ht ▸ ?_)
    change kindOf (bits w.toNat 7 2) = .control
    rw [h3]
    rfl
  unfold seeAnchor
  split
  · rename_i heq
    cases heq
    exact if_neg fun e => hbits e.1
  · rfl

theorem isCtrl_of_kind {i : Item} (h : i.kind ≠ .control) (sub : Nat) : i.isCtrl sub = false := by rw [Item.isCtrl, decide_eq_false h]; rfl

theorem evOf_mrg (bit : Nat) : evOf pgMRG bit ≠ none := by
  change (if bit < 8 then some 48 else if bit < 16 then some 49 else if bit < 24 then some 50 else some 53) ≠ none
  split_ifs <;> exact Option.some_ne_none _

end Sys2Proof.Machine
end

section
/-! PROOF. The merger takes items and HORIZONs, finds holes and rebuilds keys (R57, R285–R291). -/

namespace Sys2Proof.Machine

/-! ## An item against the expected number (R290, R291) -/

/-- An input past an item. -/
def MIn.past (seq : Nat) (i : Item) (m : MIn) : MIn := { m with expected := (seq + itemSpan i) % 2 ^ 32, last := some i.key }

/-- An input with one more item held. -/
def MIn.holding (seq : Nat) (i : Item) (m : MIn) : MIn := { m with held := m.held ++ [(seq, i)] }

/-- An input capped. -/
def MIn.capped (why : CapWhy) (up : Nat) (m : MIn) : MIn := { m with cap := why, capAt := up }

theorem capped_keepsKey (why : CapWhy) (up : Nat) : KeepsKey (MIn.capped why up) := fun _ => ⟨rfl, rfl⟩

/-- An input of which an item is missing: capped and counted. -/
def holed (dev id : Nat) (s : State) : State := (capIn dev id .hole s).modDel fun d => { d with hole := (d.hole + 1) % 65536 }

theorem holed_del (dev id : Nat) (s : State) :
    (holed dev id s).del = { s.del with ins := (modIn dev id (MIn.capped .hole s.tim.up) s).del.ins, hole := (s.del.hole + 1) % 65536 } := by
  have hcapped : (capIn dev id .hole s).del = (modIn dev id (MIn.capped .hole s.tim.up) s).del := rfl
  rw [holed, State.modDel_del, hcapped, modIn_del]

theorem past_keepsKey (seq : Nat) (i : Item) : KeepsKey (MIn.past seq i) := fun _ => ⟨rfl, rfl⟩

theorem holding_keepsKey (seq : Nat) (i : Item) : KeepsKey (MIn.holding seq i) := fun _ => ⟨rfl, rfl⟩

section
variable {dev id seq : Nat} {i : Item} {m : MIn} {e : Contract} {s : State} (hf : findIn dev id s = some m) (he : (con id s).ent = some e)
  (hg : (con id s).isMerge = true) (hm : mergesHere e.cls s = true)
include hf he hg hm

theorem takeItem_expected (h4 : i.isCtrl 4 = false) (h0 : sub32 seq m.expected = 0) (hroom : i.isCtrl 2 = true ∨ mergeWords s + i.size ≤ mergeRoom s) :
    takeItem dev id seq false i s = acceptItem e dev id seq i s := by
  have hfits : ¬((!(i.isCtrl 2)) = true ∧ mergeRoom s < mergeWords s + i.size) := by
    rintro ⟨h2, hlt⟩
    rcases hroom with h | h
    · rw [h] at h2
      exact Bool.false_ne_true h2
    · omega
  unfold takeItem
  rw [he]
  simp only [hg, hm, hf, Bool.true_eq_false, or_self, if_false, Option.isSome_some, if_true, Option.getD_some, Bool.false_eq_true, false_and, h4, h0]
  exact if_neg hfits

theorem takeItem_repeated (h4 : i.isCtrl 4 = false) (hr : 2 ^ 31 ≤ sub32 seq m.expected) :
    takeItem dev id seq false i s = s.modDel fun d => { d with rept := (d.rept + 1) % 65536 } := by
  have h0 : sub32 seq m.expected ≠ 0 := fun h => by
    rw [h] at hr
    exact absurd hr (by decide)
  unfold takeItem
  rw [he]
  simp only [hg, hm, hf, Bool.true_eq_false, or_self, if_false, Option.isSome_some, if_true, Option.getD_some, Bool.false_eq_true, false_and, h4, h0]
  exact if_pos hr

theorem takeItem_beyond (h4 : i.isCtrl 4 = false) (hn : sub32 seq m.expected ≠ 0) (hb : sub32 seq m.expected < 2 ^ 31) (hc : m.cap = .none) :
    takeItem dev id seq false i s = mrgRaise mrgHOLE id (requestRetx dev id m.expected (holed dev id s)) := by
  have hcap : ¬(m.cap = .hole ∨ m.cap = .stall) := by
    rw [hc]
    decide
  unfold takeItem
  rw [he]
  simp only [hg, hm, hf, Bool.true_eq_false, or_self, if_false, Option.isSome_some, if_true, Option.getD_some, Bool.false_eq_true, false_and, h4, hn]
  rw [if_neg (Nat.not_le.mpr hb), if_neg hcap]
  rfl

end

/-- An item of the expected number that is no HORIZON is held, and the merge carried on. -/
theorem acceptItem_held {dev id seq : Nat} {i : Item} {m : MIn} {e : Contract} {s : State} (hf : findIn dev id s = some m) (h2 : i.isCtrl 2 = false) (hc : m.cap = .none) (hz : heldHz e.cls s = none) :
    acceptItem e dev id seq i s = mergeRelease e.cls (modIn dev id (MIn.holding seq i) (modIn dev id (MIn.past seq i) s)) := by
  have hz' : heldHz e.cls (modIn dev id (MIn.past seq i) s) = none := by rw [heldHz, modIn_del]; exact hz
  unfold acceptItem
  rw [uncap_open hf hc]
  dsimp only
  rw [h2, if_neg Bool.false_ne_true]
  change (match heldHz e.cls (modIn dev id (MIn.past seq i) s) with | some h => _ | none => _) = _
  rw [hz']
  rfl

/-! ## DATA_ITEM_RECEIVE (R57, R290, R291) -/

theorem exec_dataItemReceive {dev seq : Nat} {k : Con} {ws : List W128} {i : Item} {s : State} (hidle : s.bst.running.contains 64 = false)
    (hr : readItem dev ws (seeAnchor ws s) = some i) : exec (.dataItemReceive dev k seq false ws) s = .next (takeItem dev k.val seq false i (seeAnchor ws s)) := by
  change execDataItemReceive dev k seq false ws s = _
  unfold execDataItemReceive
  rw [serveMerger_idle hidle]
  dsimp only
  rw [hr]

/-- Words that spell no item leave the inputs as they are. -/
theorem dataItemReceive_dropped_runs {dev seq : Nat} {k : Con} {ws : List W128} {s : State} (hidle : s.bst.running.contains 64 = false)
    (hr : readItem dev ws (seeAnchor ws s) = none) : Runs (.dataItemReceive dev k seq false ws) s [.del] fun t => t.del.ins = s.del.ins := by
  refine .of_only (u := seeAnchor ws s) ?_ rfl (seeAnchor_only ws s) (by rw [seeAnchor_del])
  change execDataItemReceive dev k seq false ws s = _
  unfold execDataItemReceive
  rw [serveMerger_idle hidle]
  dsimp only
  rw [hr]

/-- An ANCHOR among the words is its device's current one (R57). -/
theorem seeAnchor_cur {w x : W128} (h3 : bits w.toNat 7 2 = 3) (h1 : bits w.toNat 120 8 = 1) (xs : List W128) (s : State) :
    (anchorsOf (headerDev w) (seeAnchor (w :: x :: xs) s)).cur = some ⟨bits x.toNat 64 32, bits x.toNat 96 32, bits w.toNat 64 32⟩ := by
  have hsee : seeAnchor (w :: x :: xs) s = noteAnchor w x s := if_pos ⟨h3, h1⟩
  rw [hsee, anchorsOf, noteAnchor, State.modDel_del]
  dsimp only
  rw [FMap.get_put_self]

section
variable {dev seq : Nat} {k : Con} {w : W128} {p : List W128} {i : Item} {m : MIn} {e : Contract} {s : State} (hf : findIn dev k.val s = some m)
  (hidle : s.bst.running.contains 64 = false) (he : (con k.val s).ent = some e) (hg : (con k.val s).isMerge = true) (hm : mergesHere e.cls s = true)
include hf hidle he hg hm

theorem dataItemReceive_repeated_runs (hr : readItem dev (w :: p) s = some i) (hk : i.kind ≠ .control) (h31 : 2 ^ 31 ≤ sub32 seq m.expected) :
    Runs (.dataItemReceive dev k seq false (w :: p)) s [.del] fun t => t.del = { s.del with rept := (s.del.rept + 1) % 65536 } := by
  have hsee := seeAnchor_of_kind hr hk
  exact .of_only (exec_dataItemReceive hidle (by rw [hsee, hr])) (by rw [hsee, takeItem_repeated hf he hg hm (isCtrl_of_kind hk 4) h31]) (modDel_only _ s) rfl

variable (hcap : m.cap = .none)
include hcap

/-- The next item of an input, while another of its class is awaited, is held. -/
theorem dataItemReceive_held_runs (hhead : isHead s = false) (hw : Awaited e.cls dev k.val s) (hr : readItem dev (w :: p) (seeAnchor (w :: p) s) = some i)
    (h2 : i.isCtrl 2 = false) (h4 : i.isCtrl 4 = false) (h0 : sub32 seq m.expected = 0) (hroom : mergeWords s + i.size ≤ mergeRoom s) :
    Runs (.dataItemReceive dev k seq false (w :: p)) s [.del] fun t =>
      findIn dev k.val t = some { m with expected := (seq + itemSpan i) % 2 ^ 32, last := some i.key, held := m.held ++ [(seq, i)] } ∧
      (∀ d c, (d, c) ≠ (dev, k.val) → findIn d c t = findIn d c s) ∧ heldHz e.cls t = none ∧
      (bits w.toNat 7 2 = 3 → bits w.toNat 120 8 = 1 → ∀ x xs, p = x :: xs →
        (anchorsOf (headerDev w) t).cur = some ⟨bits x.toNat 64 32, bits x.toNat 96 32, bits w.toNat 64 32⟩) := by
  generalize hs₁ : seeAnchor (w :: p) s = s₁ at hr
  have hframe : Only [.del] s s₁ := hs₁ ▸ seeAnchor_only _ s
  have hdel : s₁.del = { s.del with anchors := s₁.del.anchors } := hs₁ ▸ seeAnchor_del _ s
  have hpln : s₁.pln = s.pln := hframe.same .pln (by decide)
  have hlsh : s₁.lsh = s.lsh := hframe.same .lsh (by decide)
  have hins : s₁.del.ins = s.del.ins := by rw [hdel]
  have hcons : s₁.del.cons = s.del.cons := by rw [hdel]
  have hhz : s₁.del.hz = s.del.hz := by rw [hdel]
  have hf₁ : findIn dev k.val s₁ = some m := (findIn_congr hins _ _).trans hf
  have hm₁ : mergesHere e.cls s₁ = true := (mergesHere_congr hpln hlsh _).trans hm
  have hcon : con k.val s₁ = con k.val s := con_of_cons hcons _
  have hroom₁ : mergeWords s₁ + i.size ≤ mergeRoom s₁ := by
    have hmib : s₁.del.mergeMiB = s.del.mergeMiB := by rw [hdel]
    rwa [mergeWords, mergeRoom, hins, hmib, isManager_congr hpln]
  have hw₁ : Awaited e.cls dev k.val s₁ := hw.congr hcons hhz fun j hj _ => hins ▸ hj
  have hpast := findIn_modIn_self hf₁ (past_keepsKey seq i)
  generalize hu : modIn dev k.val (MIn.holding seq i) (modIn dev k.val (MIn.past seq i) s₁) = u
  have hwu : Awaited e.cls dev k.val u := hu ▸ (hw₁.modIn hf₁ _).modIn hpast _
  have huframe : Only [.del] s u := hframe.trans (hu ▸ (modIn_only _ _ _ _).trans (modIn_only _ _ _ _))
  have hdelu : u.del = { s₁.del with ins := u.del.ins } := by rw [← hu, modIn_del, modIn_del]
  have hpu : u.pln = s.pln := huframe.same .pln (by decide)
  have hmu : mergesHere e.cls u = true := (mergesHere_congr hpu (huframe.same .lsh (by decide)) _).trans hm
  have hheadu : isHead u = false := by rw [isHead, hpu]; exact hhead
  have hnext : takeItem dev k.val seq false i s₁ = setHorizon e.cls none u := by
    rw [takeItem_expected hf₁ (hcon ▸ he) (hcon ▸ hg) hm₁ h4 h0 (.inr hroom₁), acceptItem_held hf₁ h2 hcap hw₁.1, hu, mergeRelease_awaited hmu hheadu hwu]
  obtain ⟨hmoved, hheld⟩ := setHorizon_moved e.cls none u
  refine .of_only (exec_dataItemReceive hidle (hs₁ ▸ hr)) (by rw [hs₁, hnext]) (huframe.trans (setHorizon_none_only _ u)) ⟨?_, fun d c hne => ?_, hheld, ?_⟩
  · rw [findIn_congr hmoved.ins, ← hu, findIn_modIn_self hpast (holding_keepsKey seq i)]
    rfl
  · rw [findIn_congr hmoved.ins, ← hu, findIn_modIn_of_ne hpast (holding_keepsKey seq i) hne, findIn_modIn_of_ne hf₁ (past_keepsKey seq i) hne, findIn_congr hins]
  · rintro h3 h1 x xs rfl
    have hanchors : (setHorizon e.cls none u).del.anchors = s₁.del.anchors := by rw [setHorizon_none_del, hdelu]
    rw [anchorsOf, hanchors, ← hs₁]
    exact seeAnchor_cur h3 h1 xs s

/-- An item beyond a gap: its input is capped as a hole, which is counted, asked for and raised. -/
theorem dataItemReceive_hole_runs (hr : readItem dev (w :: p) s = some i) (hk : i.kind ≠ .control) (hn : sub32 seq m.expected ≠ 0) (hb : sub32 seq m.expected < 2 ^ 31)
    (hd : dev ≠ myDev s) : Runs (.dataItemReceive dev k seq false (w :: p)) s (reporting [.del, .lanes]) fun t =>
      findIn dev k.val t = some { m with cap := .hole, capAt := s.tim.up } ∧ (∀ d c, (d, c) ≠ (dev, k.val) → findIn d c t = findIn d c s) ∧
      t.del.hole = (s.del.hole + 1) % 65536 ∧ Asked dev k.val m.expected s t ∧
      (condOn pgMRG (mrgBit (max 1 e.cls) 4) k.val s = false → e.cls < 4 → Latched pgMRG (mrgBit (max 1 e.cls) 4) t) := by
  have hsee := seeAnchor_of_kind hr hk
  generalize hu : holed dev k.val s = u
  have hframe : Only [.pages, .del] s u := hu ▸ Only.next (modDel_only _ _) rfl (capIn_only _ _ _ s)
  have hdu : dev ≠ myDev u := by rwa [myDev_congr (hframe.same .pln (by decide))]
  generalize hv : requestRetx dev k.val m.expected u = v
  have hvframe : Only [.lanes] u v := hv ▸ requestRetx_remote_only hdu
  have hvdel : v.del = u.del := hvframe.same .del (by decide)
  have hready : ReadyOnly v (mrgRaise mrgHOLE k.val v) := raiseOnce_readyOnly _ _ _ _ _
  have hins : (mrgRaise mrgHOLE k.val v).del.ins = u.del.ins := hready.ins.trans (congrArg (·.ins) hvdel)
  have hdel := holed_del dev k.val s
  rw [hu] at hdel
  have hcls : clsOf k.val v = e.cls := clsOf_eq (by rw [con_congr hvdel, con_of_cons (s := s) (by rw [hdel]), he])
  refine .of_only (exec_dataItemReceive hidle (by rw [hsee, hr])) (t := mrgRaise mrgHOLE k.val v)
    (by rw [hsee, takeItem_beyond hf he hg hm (isCtrl_of_kind hk 4) hn hb hcap, hu, hv])
    (Only.next (mrgRaise_only _ _ _) rfl (Only.next hvframe rfl (hframe.mono rfl))) ⟨?_, fun d c hne => ?_, ?_, fun q hq => ?_, fun hc h4 => ?_⟩
  · rw [findIn_congr (s := modIn dev k.val (MIn.capped .hole s.tim.up) s) (by rw [hins, hdel]), findIn_modIn_self hf (capped_keepsKey _ _)]
    rfl
  · rw [findIn_congr (s := modIn dev k.val (MIn.capped .hole s.tim.up) s) (by rw [hins, hdel]), findIn_modIn_of_ne hf (capped_keepsKey _ _) hne]
  · rw [hready.del, hvdel, hdel]
  · rw [lane_congr ((mrgRaise_only _ _ _).same .lanes (by decide)), ← hv]
    exact (requestRetx_asked hdu).from_ (hframe.same .pln (by decide)) (.of_only hframe rfl) q hq
  · have hcond : condOn pgMRG (mrgBit (max 1 e.cls) 4) k.val v = false := by
      rw [condOn, hvframe.same .fab (by decide), hframe.same .fab (by decide)]
      exact hc
    rw [mrgRaise, hcls]
    refine raiseOnce_latched _ _ v (evOf_mrg _) ?_ hcond
    change (max 1 e.cls - 1) * 8 + 4 < 32
    omega

end

/-! ## HORIZON_RECEIVE (R285, R286, R290) -/

theorem isCtrl_of_horizon {j : Item} (h : j.isCtrl 2 = true) : j.isCtrl 4 = false := by
  obtain ⟨hkind, hsub⟩ := Bool.and_eq_true_iff.mp h
  rw [Item.isCtrl, of_decide_eq_true hsub, hkind]
  rfl

/-- What of an input is handed over once a HORIZON passes it with nothing held: all below its expected number, unless its consumer is a host ring (R296). -/
def MIn.settled (e : Contract) (m : MIn) : MIn := if m.held.isEmpty ∧ e.epkind ≠ 1 then { m with handed := m.expected } else m

/-- An input at a horizon, back from its absence where it rejoins. -/
def MIn.atHorizon (h : Stamp) (back : Bool) (m : MIn) : MIn := { m with horizon := some h, absent := m.absent && !back }

theorem settled_keepsKey (e : Contract) : KeepsKey (MIn.settled e) := fun m => by
  unfold MIn.settled
  split <;> exact ⟨rfl, rfl⟩

theorem atHorizon_keepsKey (h : Stamp) (back : Bool) : KeepsKey (MIn.atHorizon h back) := fun _ => ⟨rfl, rfl⟩

theorem applyHorizon_present {dev id cls : Nat} {h : Stamp} {s : State} {m : MIn} (hf : findIn dev id s = some m) (ha : m.absent = false) :
    applyHorizon dev id cls h s = mergeRelease cls (modIn dev id (MIn.atHorizon h false) s) := by
  have hwas : decide ((findIn dev id s).map (·.absent) = some true) = false := by
    rw [hf, Option.map_some, ha]
    rfl
  unfold applyHorizon
  simp only [hwas, Bool.false_and, Bool.false_eq_true, if_false]
  rfl

section
variable {dev seq : Nat} {k : Con} {w : W128} {m : MIn} {e : Contract} {h : Stamp} {s : State} (hf : findIn dev k.val s = some m)
  (hidle : s.bst.running.contains 64 = false) (he : (con k.val s).ent = some e) (hg : (con k.val s).isMerge = true) (hm : mergesHere e.cls s = true)
  (hcap : m.cap = .none) (ha : m.absent = false) (hhead : isHead s = false)
include hf hidle he hg hm hcap ha hhead

/-- The HORIZON of the expected number, with nothing held and another input of the class awaited, moves the input's horizon. -/
theorem horizonReceive_runs (hw : Awaited e.cls dev k.val s) (h3 : (con k.val s).state ≠ 3) (hep : e.epkind ≠ 1) (hheld : m.held = []) (h0 : sub32 seq m.expected = 0)
    (hi : instantOf false w s = some h) (h2 : (itemAt h w []).isCtrl 2 = true) : Runs (.horizonReceive dev k seq false w) s [.del] fun t =>
      findIn dev k.val t = some { m with
        expected := (seq + 1) % 2 ^ 32, handed := (seq + 1) % 2 ^ 32, horizon := some h, last := some (itemAt h w []).key } ∧
      ∀ d c, (d, c) ≠ (dev, k.val) → findIn d c t = findIn d c s := by
  have hpast := findIn_modIn_self hf (past_keepsKey seq (itemAt h w []))
  have hsettled := findIn_modIn_self hpast (settled_keepsKey e)
  generalize hv : modIn dev k.val (MIn.settled e) (modIn dev k.val (MIn.past seq (itemAt h w [])) s) = v at hsettled
  generalize hu : modIn dev k.val (MIn.atHorizon h false) v = u
  have habsent : (MIn.settled e (MIn.past seq (itemAt h w []) m)).absent = false := by
    unfold MIn.settled
    split <;> exact ha
  have hframe : Only [.del] s u := by
    rw [← hu, ← hv]
    exact ((modIn_only _ _ _ s).trans (modIn_only _ _ _ _)).trans (modIn_only _ _ _ _)
  have hwu : Awaited e.cls dev k.val u := by
    have hwv : Awaited e.cls dev k.val v := hv ▸ (hw.modIn hf _).modIn hpast _
    exact hu ▸ hwv.modIn hsettled _
  have hpu : u.pln = s.pln := hframe.same .pln (by decide)
  have hmu : mergesHere e.cls u = true := (mergesHere_congr hpu (hframe.same .lsh (by decide)) _).trans hm
  have hheadu : isHead u = false := by rw [isHead, hpu]; exact hhead
  have hconu : u.del.cons = s.del.cons := by rw [← hu, ← hv, modIn_del, modIn_del, modIn_del]
  obtain ⟨hmoved, -⟩ := setHorizon_moved e.cls none u
  have haccept : acceptItem e dev k.val seq (itemAt h w []) s = setHorizon e.cls none u := by
    unfold acceptItem
    rw [uncap_open hf hcap]
    dsimp only
    rw [if_pos h2]
    change retire k.val (applyHorizon dev k.val e.cls h (modIn dev k.val (MIn.settled e) (modIn dev k.val (MIn.past seq (itemAt h w [])) s))) = _
    rw [hv, applyHorizon_present hsettled habsent, hu, mergeRelease_awaited hmu hheadu hwu]
    exact retire_of_state (by rwa [con_of_cons (hmoved.cons.trans hconu)])
  refine .of_only (u := takeItem dev k.val seq false (itemAt h w []) s) ?_
    ((takeItem_expected hf he hg hm (isCtrl_of_horizon h2) h0 (.inl h2)).trans haccept) (hframe.trans (setHorizon_none_only _ u)) ⟨?_, fun d c hne => ?_⟩
  · change execHorizonReceive dev k seq false w s = _
    unfold execHorizonReceive
    rw [serveMerger_idle hidle]
    dsimp only
    rw [hi]
    rfl
  · have hset : MIn.settled e (MIn.past seq (itemAt h w []) m) = { MIn.past seq (itemAt h w []) m with handed := (seq + 1) % 2 ^ 32 } :=
      if_pos ⟨by rw [MIn.past, hheld]; rfl, hep⟩
    rw [findIn_congr hmoved.ins, ← hu, findIn_modIn_self hsettled (atHorizon_keepsKey h false), hset, MIn.atHorizon]
    simp only [MIn.past, ha, Bool.false_and]
    rfl
  · rw [findIn_congr hmoved.ins, ← hu, findIn_modIn_of_ne hsettled (atHorizon_keepsKey h false) hne, ← hv, findIn_modIn_of_ne hpast (settled_keepsKey e) hne,
      findIn_modIn_of_ne hf (past_keepsKey _ _) hne]

end

end Sys2Proof.Machine
end

section
/-! PROOF. Inputs left out, requests repeated and resumed, and what was handed over acknowledged (R287, R291, R296, R300). -/

namespace Sys2Proof.Machine

/-! ## INPUT_ABSENT_TIMER (R287) -/

/-- An input left out. -/
def MIn.leftOut (m : MIn) : MIn := { m with absent := true }

theorem leftOut_keepsKey : KeepsKey MIn.leftOut := fun _ => ⟨rfl, rfl⟩

/-- An input left out and counted. -/
def leaveOut (dev id : Nat) (s : State) : State := (bumpGen pgMRG (modIn dev id MIn.leftOut s)).modDel fun d => { d with absent := (d.absent + 1) % 65536 }

theorem leaveOut_only (dev id : Nat) (s : State) : Only [.pages, .del] s (leaveOut dev id s) :=
  Only.next (modDel_only _ _) rfl (Only.next (bumpGen_only _ _) rfl ((modIn_only _ _ _ s).mono rfl))

theorem leaveOut_del (dev id : Nat) (s : State) :
    (leaveOut dev id s).del = { s.del with ins := (modIn dev id MIn.leftOut s).del.ins, absent := (s.del.absent + 1) % 65536 } := by
  have hbump : (bumpGen pgMRG (modIn dev id MIn.leftOut s)).del = (modIn dev id MIn.leftOut s).del := (bumpGen_only _ _).same .del (by decide)
  rw [leaveOut, State.modDel_del, hbump, modIn_del]

/-- A cause of the merger about a class. -/
theorem mrgBit_lt (cls : Cls) {n : Nat} (h : n < 8) : mrgBit cls.code n < 32 := by
  cases cls <;> (change _ * 8 + n < 32; simp only [Cls.code]; omega)

theorem max_one_code (cls : Cls) : max 1 cls.code = cls.code := by cases cls <;> rfl

section
variable {dev : Nat} {k : Con} {m : MIn} {cls : Cls} {s : State} (hf : findIn dev k.val s = some m)
include hf

theorem inputAbsentTimer_runs (ha : m.absent = false) (hcls : clsOfIn m s = cls.code) (hheld : ∀ x ∈ s.del.ins, x.held = [])
    (hc : condOn pgMRG (mrgBit cls.code 1) (dev * 8192 + k.val) s = false) : Runs (.inputAbsentTimer dev k false) s (reporting [.del, .lanes, .lsh]) fun t =>
      findIn dev k.val t = some { m with absent := true } ∧ (∀ d c, (d, c) ≠ (dev, k.val) → findIn d c t = findIn d c s) ∧
      t.del.absent = (s.del.absent + 1) % 65536 ∧ Latched pgMRG (mrgBit cls.code 1) t := by
  generalize hu : leaveOut dev k.val s = u
  have huframe : Only [.pages, .del] s u := hu ▸ leaveOut_only dev k.val s
  have hudel := leaveOut_del dev k.val s
  rw [hu] at hudel
  generalize hv : raiseOnce pgMRG (mrgBit cls.code 1) (dev * 8192 + k.val) k.val u = v
  have hready : ReadyOnly u v := hv ▸ raiseOnce_readyOnly _ _ _ _ u
  have hins : v.del.ins = (modIn dev k.val MIn.leftOut s).del.ins := by rw [hready.ins, hudel]
  have hheldv : ∀ x ∈ v.del.ins, x.held = [] := by
    rw [hins, modIn_ins hf]
    intro x hx
    obtain ⟨y, hy, rfl⟩ := List.mem_map.mp hx
    split <;> exact hheld y hy
  have hmoved := mergeRelease_moved hheldv cls.code
  have hlatched : Latched pgMRG (mrgBit cls.code 1) v :=
    hv ▸ raiseOnce_latched _ _ u (evOf_mrg _) (mrgBit_lt cls (by decide)) (by rw [condOn, huframe.same .fab (by decide)]; exact hc)
  have hexec : exec (.inputAbsentTimer dev k false) s = .next (mergeRelease cls.code v) := by
    change execInputAbsentTimer dev k false s = _
    unfold execInputAbsentTimer
    simp only [Bool.false_eq_true, if_false, hf, ha, hcls, max_one_code]
    rw [← hv, ← hu]
    rfl
  refine .of_only hexec rfl (Only.next hmoved.frame rfl (Only.next (hv ▸ raiseOnce_only _ _ _ _ u) rfl (huframe.mono rfl)))
    ⟨?_, fun d c hne => ?_, ?_, hlatched.only hmoved.frame rfl⟩
  · rw [findIn_congr (hmoved.ins.trans hins), findIn_modIn_self hf leftOut_keepsKey]
    rfl
  · rw [findIn_congr (hmoved.ins.trans hins), findIn_modIn_of_ne hf leftOut_keepsKey hne]
  · rw [hmoved.del, hready.del, hudel]

/-! ## RETX_REPEAT_TIMER and STALL_RESUME (R291, R300) -/

theorem exec_retxRepeatTimer (hcap : m.cap = .hole) (ha : m.absent = false) :
    exec (.retxRepeatTimer dev k) s = .next (requestRetx dev k.val m.expected s) := by
  change execRetxRepeatTimer dev k s = _
  unfold execRetxRepeatTimer
  rw [hf]
  exact congrArg _ (if_pos ⟨hcap, ha⟩)

theorem retxRepeatTimer_runs (hcap : m.cap = .hole) (ha : m.absent = false) (hd : dev ≠ myDev s) :
    Runs (.retxRepeatTimer dev k) s [.lanes] (Asked dev k.val m.expected s) :=
  .of_only (exec_retxRepeatTimer hf hcap ha) rfl (requestRetx_remote_only hd) (requestRetx_asked hd)

theorem retxRepeatTimer_own_runs (hcap : m.cap = .hole) (ha : m.absent = false) (hd : dev = myDev s) : Runs (.retxRepeatTimer dev k) s [.del] fun t =>
    (con k.val t).kennel = (con k.val s).kennel.map fun x => { x with sent := false } :=
  .of_only (exec_retxRepeatTimer hf hcap ha) (requestRetx_own hd) (modCon_only _ _ s) (by rw [con_modCon_self])

end

theorem mergeWords_noneHeld {s : State} (h : ∀ x ∈ s.del.ins, x.held = []) : mergeWords s = 0 := by
  rw [mergeWords, List.map_congr_left fun x hx => by rw [h x hx]]
  induction s.del.ins with
  | nil => rfl
  | cons x l ih => exact ih

/-- With nothing held the merge part has room, and every stalled input asks again. -/
theorem exec_stallResume {s u : State} (hu : mergeRelease 3 (mergeRelease 2 (mergeRelease 1 s)) = u) (hheld : ∀ x ∈ u.del.ins, x.held = []) :
    exec .stallResume s = .next (requestAll (byCap (u.del.ins.filter fun i => decide (i.cap = .stall))) u) := by
  have hroom : mergeRoom u < 4 * (mergeRoom u - mergeWords u) ∨ mergeRoom u = 4 * (mergeRoom u - mergeWords u) := by
    rw [mergeWords_noneHeld hheld]
    omega
  change execStallResume s = _
  unfold execStallResume
  rw [hu]
  exact if_pos hroom

theorem stallResume_runs {dev id : Nat} {m : MIn} {s : State} (hf : findIn dev id s = some m) (hcap : m.cap = .stall) (hd : dev ≠ myDev s)
    (hheld : ∀ x ∈ s.del.ins, x.held = []) : Runs .stallResume s [.del, .lanes, .lsh] fun t => t.del.ins = s.del.ins ∧ Asked dev id m.expected s t := by
  have h1 := mergeRelease_moved hheld 1
  have h2 := h1.trans (mergeRelease_moved (h1.ins ▸ hheld) 2)
  have h3 := h2.trans (mergeRelease_moved (h2.ins ▸ hheld) 3)
  generalize hu : mergeRelease 3 (mergeRelease 2 (mergeRelease 1 s)) = u at h3
  obtain ⟨hmem, rfl, rfl⟩ := findIn_mem hf
  have hin : m ∈ byCap (u.del.ins.filter fun i => decide (i.cap = .stall)) :=
    mem_byCap (List.mem_filter.mpr ⟨h3.ins ▸ hmem, decide_eq_true hcap⟩)
  have hasked := requestAll_requested (byCap (u.del.ins.filter fun i => decide (i.cap = .stall))) u
  refine .of_only (exec_stallResume hu (h3.ins ▸ hheld)) rfl (Only.next hasked.frame rfl h3.frame) ⟨hasked.ins.trans h3.ins, ?_⟩
  exact (requestAll_asked hin (by rwa [myDev_congr h3.pln])).from_ h3.pln h3.stand

/-! ## ACK_TIMER (R296, R302) -/

/-- An input whose handed items are acknowledged. -/
def MIn.acked (m : MIn) : MIn := { m with fresh := false, mack := sub32 m.handed 1 }

/-- One input acknowledged, and the standby told of its position. -/
def ackIn (m : MIn) (s : State) : State := journal (.position m.dev m.con m.expected m.handed) (modIn m.dev m.con MIn.acked s)

theorem ackIn_only (m : MIn) (s : State) : Only [.del, .lanes, .lsh] s (ackIn m s) := Only.next (journal_only _ _) rfl ((modIn_only _ _ _ s).mono rfl)

theorem ackIn_ins {m : MIn} {s : State} (h : s.del.ins = [m]) : (ackIn m s).del.ins = [m.acked] := by
  have hf : findIn m.dev m.con s = some m := by
    rw [findIn, h]
    exact List.find?_cons_of_pos (decide_eq_true ⟨rfl, rfl⟩)
  have hdel : (ackIn m s).del = (modIn m.dev m.con MIn.acked s).del := (journal_only _ _).same .del (by decide)
  rw [hdel, modIn_ins hf, h, List.map_singleton, if_pos ⟨rfl, rfl⟩]

theorem ackIn_stand (m : MIn) (s : State) : LanesStand s (ackIn m s) := (LanesStand.of_only (modIn_only _ _ _ s) rfl).trans (journal_stand _ _)

/-- The block that acknowledges one input to its source. -/
def ackBlock (m : MIn) (s : State) : CtrlBlk := ctrlBlk (m.dev / 128) (m.dev % 128) 0x30 0 0 (ackItem m s).words s

theorem ackBlock_congr {s t : State} (hp : t.pln = s.pln) (ht : t.tim = s.tim) (m : MIn) : ackBlock m t = ackBlock m s := by
  have hitem : ackItem m t = ackItem m s := by
    rw [ackItem, ackItem, now, ht]
    rfl
  rw [ackBlock, hitem, ctrlBlk_congr hp]
  rfl

/-- A single consumed input, of another device and freshly handed over, is acknowledged in one block. -/
theorem exec_ackTimer {m : MIn} {s : State} (hi : s.del.ins = [m]) (hlt : m.con < 4096) (hc : (con m.con s).isCons = true) (hfr : m.fresh = true)
    (hd : m.dev ≠ myDev s) : exec .ackTimer s = .next (sendCtrl (ackBlock m (ackIn m s)) (ackIn m s)) := by
  have hmine : (s.del.ins.filter fun i => decide (i.con < 4096) && (con i.con s).isCons) = [m] := by
    rw [hi]
    exact List.filter_cons_of_pos (by rw [hc, decide_eq_true hlt]; rfl)
  have hfresh : ([m].filter (·.fresh)) = [m] := List.filter_cons_of_pos hfr
  have hdev : ([m].filter fun i => decide (i.dev = m.dev)) = [m] := List.filter_cons_of_pos (decide_eq_true rfl)
  have hremote : m.dev ≠ myDev (ackIn m s) := by rwa [myDev_congr ((ackIn_only m s).same .pln (by decide))]
  change execAckTimer s = _
  unfold execAckTimer
  rw [hmine]
  dsimp only
  rw [hfresh]
  change Host.Outcome.next (if m.dev = myDev (ackIn m s) then _ else
    ackBlocks m.dev ([m].filter fun i => decide (i.dev = m.dev)).length ([m].filter fun i => decide (i.dev = m.dev)) (ackIn m s)) = _
  rw [if_neg hremote, hdev]
  rfl

theorem ackTimer_runs {m : MIn} {s : State} (hi : s.del.ins = [m]) (hlt : m.con < 4096) (hc : (con m.con s).isCons = true) (hfr : m.fresh = true)
    (hd : m.dev ≠ myDev s) : Runs .ackTimer s [.del, .lanes, .lsh] fun t =>
      t.del.ins = [{ m with fresh := false, mack := sub32 m.handed 1 }] ∧ ∀ p ∈ routePorts (m.dev / 128) (m.dev % 128) s, (ackBlock m s).toTx ∈ (lane p t).ctl := by
  have hframe := ackIn_only m s
  have hpln : (ackIn m s).pln = s.pln := hframe.same .pln (by decide)
  have hblock : ackBlock m (ackIn m s) = ackBlock m s := ackBlock_congr hpln (hframe.same .tim (by decide)) m
  have hsent := sendCtrl_only (ackBlock m s) (ackIn m s)
  refine .of_only (exec_ackTimer hi hlt hc hfr hd) (by rw [hblock]) (Only.next hsent rfl hframe) ⟨?_, fun p hp => ?_⟩
  · rw [hsent.same .del (by decide), ackIn_ins hi]
    rfl
  · rw [← routePorts_congr hpln (ackIn_stand m s).state] at hp
    exact mem_ctl_sendCtrlAll (.of_sub 0x30 rfl (by decide)) (ackIn m s) hp

end Sys2Proof.Machine
end

section
/-! PROOF. A merger's beat into its consumers' queues, and the merger's obligation (R288, R309, R315–R317). -/

namespace Sys2Proof.Machine

/-! ## A packet committed (R309, R315, R316) -/

/-- A queue was watched and its notices raised: its packets are as before, and of the other queues, the merger and the contracts nothing differs but records that are ready. -/
structure Watched (q : Nat) (s t : State) : Prop where
  pkts : (que q t).pkts = (que q s).pkts
  others : ∀ j, j ≠ q → que j t = que j s
  ready : ReadyOnly s t

theorem Watched.refl (q : Nat) (s : State) : Watched q s s := ⟨rfl, fun _ _ => rfl, .refl s⟩

theorem Watched.trans {q : Nat} {s t u : State} (h : Watched q s t) (k : Watched q t u) : Watched q s u :=
  ⟨k.pkts.trans h.pkts, fun j hj => (k.others j hj).trans (h.others j hj), h.ready.trans k.ready⟩

theorem Watched.of_ques {q : Nat} {s t : State} (h : t.ques = s.ques) (k : ReadyOnly s t) : Watched q s t :=
  ⟨by rw [que_congr h], fun j _ => que_congr h j, k⟩

theorem Watched.raise {q : Nat} {s t : State} (h : Watched q s t) (p bit d : Nat) : Watched q s (raise p bit d t) :=
  h.trans (.of_ques ((raise_only p bit d t).same .ques (by decide)) (raise_readyOnly p bit d t))

/-- A change of a queue that leaves its packets. -/
theorem Watched.modQue {q : Nat} {f : Que → Que} (h : ∀ u, (f u).pkts = u.pkts) (s : State) : Watched q s (modQue q f s) :=
  ⟨by rw [que_modQue_self, h], fun _ hj => que_modQue_of_ne s hj f, .of_only (modQue_only q f s) rfl⟩

theorem Watched.ite {q : Nat} {c : Prop} [Decidable c] {s a b : State} (h : Watched q s a) (k : Watched q s b) : Watched q s (if c then a else b) := by
  split <;> assumption

theorem wmCross_watched (q : Nat) (s : State) : Watched q s (wmCross q s) := by
  unfold wmCross
  dsimp only
  refine .ite (.modQue ?_ s) (.raise (.trans (.modQue ?_ s) (.of_ques ((bumpGen_only _ _).same .ques (by decide)) (.of_only (bumpGen_only _ _) rfl))) pgQUE _ _) <;>
    exact fun _ => rfl

theorem noticeCheck_watched (q : Nat) (s : State) : Watched q s (noticeCheck q s) := by
  unfold noticeCheck
  dsimp only
  refine .ite (.raise (.modQue ?_ s) pgQUE q 0) (.refl q s)
  exact fun _ => rfl

/-- A committed packet stands behind the others of its queue. -/
theorem commitPkt_pkts (q : Nat) (ws : List W128) (s : State) :
    (que q (commitPkt q ws s)).pkts = (que q s).pkts ++ [ws] ∧ (∀ j, j ≠ q → que j (commitPkt q ws s) = que j s) ∧ ReadyOnly s (commitPkt q ws s) := by
  generalize hu : modQue q (fun u => { u with pkts := u.pkts ++ [ws], open_ := none, pend := u.pend + 1 }) s = u
  have hwatched : Watched q u (commitPkt q ws s) := by
    unfold commitPkt
    dsimp only
    rw [hu]
    refine .trans (.ite (wmCross_watched q u) (.ite (.modQue ?_ u) (.refl q u))) (noticeCheck_watched q _)
    exact fun _ => rfl
  refine ⟨?_, fun j hj => ?_, .trans (.of_only (hu ▸ modQue_only q _ s) rfl) hwatched.ready⟩
  · rw [hwatched.pkts, ← hu, que_modQue_self]
  · rw [hwatched.others j hj, ← hu, que_modQue_of_ne s hj]

/-- What a queue of the merger takes is committed. -/
theorem putItem_taken {q : Nat} {ws : List W128} {s : State} (hp : (que q s).prod = 1) (he : (que q s).en = true) (hfl : (que q s).flushing = false)
    (ho : (que q s).open_ = none) (hroom : ws.length ≤ (que q s).free) : putItem q ws s = (commitPkt q ws s, true) := if_pos ⟨hp, he, hfl, ho, hroom⟩

theorem handOver_hz (dev id n : Nat) (s : State) : (handOver dev id n s).del.hz = s.del.hz := by
  unfold handOver
  split
  · rw [modIn_del]
  · rfl

/-! ## MERGER_BEAT (R288) -/

/-- The beat handed to each consumer stream of a class. -/
def beatAll (cls : Nat) (h : Stamp) (s : State) : State :=
  (endpointsOnce (deliveredCons cls s)).foldl (fun t x => (toEndpoint x.2 x.1 noDev 0 (horizonItem cls h s) t).1) s

theorem beatAll_pln (cls : Nat) (h : Stamp) (s : State) : (beatAll cls h s).pln = s.pln :=
  foldl_keeps (P := fun t => t.pln = s.pln) (fun t ht _ => ((toEndpoint_only _ _ _ _ _ t).same .pln (by decide)).trans ht) rfl _

theorem conIds_congr {s t : State} (h : t.del.cons = s.del.cons) : conIds t = conIds s := by rw [conIds, h, conIds]

theorem deliveredCons_congr {s t : State} (h : t.del.cons = s.del.cons) (cls : Nat) : deliveredCons cls t = deliveredCons cls s := by
  rw [deliveredCons, deliveredCons, conIds_congr h]
  simp only [con_of_cons h]

section
variable {cls : Cls} {h : Stamp} {s : State} (hm : mergesHere cls.code s = true) (hheld : ∀ x ∈ s.del.ins, x.held = []) (hz : releasedHz cls.code s = some h)
  (hrole : s.pln.role ≠ 1)
include hm hheld hz hrole

/-- With nothing held, a beat of one that is no segment unit sets the horizon and hands it to the consumers. -/
theorem exec_mergerBeat : exec (.mergerBeat cls) s = .next (beatAll cls.code h (setHorizon cls.code (some h) s)) := by
  have hrelease : mergeRelease cls.code s = setHorizon cls.code (some h) s := by
    rw [mergeRelease_noneHeld hheld, hm, hz]
    rfl
  obtain ⟨hmoved, hset⟩ := setHorizon_moved cls.code (some h) s
  have hpln : (beatAll cls.code h (setHorizon cls.code (some h) s)).pln = s.pln := (beatAll_pln _ _ _).trans hmoved.pln
  change execMergerBeat cls s = _
  unfold execMergerBeat
  dsimp only
  rw [hrelease, hset, hm, if_neg (by decide)]
  refine if_neg fun hup => hrole ?_
  rw [← hpln]
  exact hup.1

theorem mergerBeat_unconsumed_runs (hcons : deliveredCons cls.code s = []) : Runs (.mergerBeat cls) s [.del, .lanes, .lsh] fun t =>
    heldHz cls.code t = some h ∧ t.del.ins = s.del.ins := by
  obtain ⟨hmoved, hset⟩ := setHorizon_moved cls.code (some h) s
  refine .of_only (exec_mergerBeat hm hheld hz hrole) ?_ hmoved.frame ⟨hset, hmoved.ins⟩
  rw [beatAll, deliveredCons_congr hmoved.cons, hcons]
  rfl

theorem mergerBeat_queued_runs {id : Nat} {e : Contract} (hcons : deliveredCons cls.code s = [(id, e)]) (hep : e.epkind = 0) (hp : (que e.epnum s).prod = 1)
    (he : (que e.epnum s).en = true) (hfl : (que e.epnum s).flushing = false) (ho : (que e.epnum s).open_ = none)
    (hroom : (horizonItem cls.code h s).words.length ≤ (que e.epnum s).free) : Runs (.mergerBeat cls) s (reporting [.del, .ques, .lanes, .lsh]) fun t =>
      heldHz cls.code t = some h ∧ (que e.epnum t).pkts = (que e.epnum s).pkts ++ [(horizonItem cls.code h s).words] ∧ ∀ q, q ≠ e.epnum → que q t = que q s := by
  obtain ⟨hmoved, hset⟩ := setHorizon_moved cls.code (some h) s
  have hexec := exec_mergerBeat hm hheld hz hrole
  generalize setHorizon cls.code (some h) s = u at hmoved hset hexec
  have hque (q : Nat) : que q u = que q s := que_congr (hmoved.frame.same .ques (by decide)) q
  have hitem : horizonItem cls.code h u = horizonItem cls.code h s := eq_of_pln (f := horizonItem cls.code h) (fun _ => rfl) hmoved.pln
  generalize horizonItem cls.code h s = b at hitem hroom
  have hput : putItem e.epnum b.words u = (commitPkt e.epnum b.words u, true) :=
    putItem_taken (by rw [hque, hp]) (by rw [hque, he]) (by rw [hque, hfl]) (by rw [hque, ho]) (by rw [hque]; exact hroom)
  have hbeat : beatAll cls.code h u = handOver noDev id 0 (commitPkt e.epnum b.words u) := by
    rw [beatAll, deliveredCons_congr hmoved.cons, hcons, hitem]
    change (toEndpoint e id noDev 0 b u).1 = _
    unfold toEndpoint
    rw [hep]
    dsimp only
    rw [hput]
    rfl
  obtain ⟨hpkts, hothers, hready⟩ := commitPkt_pkts e.epnum b.words u
  have hquet (q : Nat) : que q (handOver noDev id 0 (commitPkt e.epnum b.words u)) = que q (commitPkt e.epnum b.words u) :=
    que_congr ((handOver_only _ _ _ _).same .ques (by decide)) q
  refine .of_only hexec hbeat (Only.next (handOver_only _ _ _ _) rfl (Only.next (commitPkt_only _ _ _) rfl (hmoved.frame.mono rfl))) ⟨?_, ?_, fun q hq => ?_⟩
  · rw [heldHz, handOver_hz, hready.del]
    exact hset
  · rw [hquet, hpkts, hque]
  · rw [hquet, hothers q hq, hque]

end

/-! ## The obligation -/

/-- Settles O34, each clause by what its instruction does to the inputs where another input of the class is awaited, or where nothing is held. -/
theorem mergerOrdersHolesAndAcknowledges : Obligations.MergerOrdersHolesAndAcknowledges := by
  unfold Obligations.MergerOrdersHolesAndAcknowledges
  intro dev seq k w p i m e h cls s ws keyOf others waits asks
  refine ⟨fun hf => ⟨fun hidle he hg hm hcap ha hhead => ⟨?_, ?_, ?_, ?_⟩, ?_, ?_, ?_, ?_, ?_⟩, ?_, fun hm hheld hz hrole => ⟨?_, ?_⟩⟩
  · exact fun hw hr h2 h4 h0 hroom => dataItemReceive_held_runs hf hidle he hg hm hcap hhead hw hr h2 h4 h0 hroom
  · exact fun hr hk h31 => dataItemReceive_repeated_runs hf hidle he hg hm hr hk h31
  · exact fun hr hk hn hb hd => dataItemReceive_hole_runs hf hidle he hg hm hcap hr hk hn hb hd
  · exact fun hw h3 hep hheld h0 hi h2 => horizonReceive_runs hf hidle he hg hm hcap ha hhead hw h3 hep hheld h0 hi h2
  · exact fun hidle hr => dataItemReceive_dropped_runs hidle hr
  · exact fun ha hcls hheld hc => inputAbsentTimer_runs hf ha hcls hheld hc
  · exact fun hcap ha hd => retxRepeatTimer_runs hf hcap ha hd
  · exact fun hcap ha hd => retxRepeatTimer_own_runs hf hcap ha hd
  · exact fun hcap hd hheld => stallResume_runs hf hcap hd hheld
  · rintro hi rfl hcon hc hfr hd
    rw [← hcon] at hc
    have hruns := ackTimer_runs hi (hcon ▸ k.isLt) hc hfr hd
    exact hruns
  · exact fun hcons => mergerBeat_unconsumed_runs hm hheld hz hrole hcons
  · exact fun hcons hep hp he hfl ho hroom => mergerBeat_queued_runs hm hheld hz hrole hcons hep hp he hfl ho hroom

end Sys2Proof.Machine
end

section
/-! SUPPORT. Conditions under way, episodes of an input and of a group, and one channel or group that changes (R99, R415). -/

namespace Sys2Proof.Machine

/-! ## Conditions (R415) -/

theorem condOn_congr {s t : State} (h : t.fab = s.fab) (p bit sub : Nat) : condOn p bit sub t = condOn p bit sub s := by rw [condOn, h, condOn]

/-- An operation that does not reach the fabric neither starts nor ends a condition. -/
theorem condOn_only {l : List Area} {s t : State} (h : Only l s t) (hl : l.contains .fab = false) (p bit sub : Nat) : condOn p bit sub t = condOn p bit sub s :=
  condOn_congr (h.same .fab (by simpa using hl)) p bit sub

/-- Raising a cause neither starts nor ends a condition. -/
theorem condOn_raise (p bit d : Nat) (s : State) (q b u : Nat) : condOn q b u (raise p bit d s) = condOn q b u s := by
  rw [condOn, (raise_onlyCounts p bit d s).fab, condOn]

theorem condOn_condStart_self (p bit sub : Nat) (s : State) : condOn p bit sub (condStart p bit sub s) = true := by
  unfold condStart
  split
  · assumption
  · simp [condOn]

/-- The start of one condition starts no other. -/
theorem condOn_condStart_of_ne {p bit sub q b u : Nat} (h : (q, b, u) ≠ (p, bit, sub)) (s : State) : condOn q b u (condStart p bit sub s) = condOn q b u s := by
  have hne : (⟨q, b, u⟩ : Cond) ≠ ⟨p, bit, sub⟩ := fun e => h (by cases e; rfl)
  unfold condStart
  split
  · rfl
  · simp [condOn, List.contains_eq_mem, hne]

/-! ## One channel or group that changes -/

theorem becomes_modChan (c : Nat) (f : Chan → Chan) (s : State) : Becomes chan c (f (chan c s)) s (modChan c f s) :=
  ⟨chan_modChan_self s c f, fun _ hj => chan_modChan_of_ne s hj f⟩

theorem becomes_modGrp (g : Nat) (f : Group → Group) (s : State) : Becomes grp g (f (grp g s)) s (modGrp g f s) :=
  ⟨grp_modGrp_self s g f, fun _ hj => grp_modGrp_of_ne s hj f⟩

theorem Becomes.chan_only {l : List Area} {c : Nat} {x : Chan} {s t u : State} (h : Becomes chan c x s t) (k : Only l t u) (hl : l.contains .chans = false) :
    Becomes chan c x s u :=
  have hc (j : Nat) : chan j u = chan j t := chan_congr (k.same .chans (by simpa using hl)) j
  ⟨(hc c).trans h.1, fun j hj => (hc j).trans (h.2 j hj)⟩

theorem Becomes.grp_only {l : List Area} {g : Nat} {x : Group} {s t u : State} (h : Becomes grp g x s t) (k : Only l t u) (hl : l.contains .grps = false) :
    Becomes grp g x s u :=
  have hc (j : Nat) : grp j u = grp j t := grp_congr (k.same .grps (by simpa using hl)) j
  ⟨(hc g).trans h.1, fun j hj => (hc j).trans (h.2 j hj)⟩

/-- What a command is known to leave holds in weaker words too. -/
theorem Runs.imp {c : Instr} {s : State} {l : List Area} {P Q : State → Prop} (h : Runs c s l P) (hpq : ∀ t, P t → Q t) : Runs c s l Q := by
  obtain ⟨t, he, htouches, hp⟩ := h
  exact ⟨t, he, htouches, hpq t hp⟩

/-- What needs analogue dice happens on an HX320. -/
theorem Runs.of_analogue {c : Instr} {f : State → State} {s t : State} {l : List Area} {P : State → Prop} (hx : s.fuse.hx000 = false)
    (he : ∀ s, exec c s = analogue f s) (ht : f s = t) (h : Only l s t) (hp : P t) : Runs c s l P :=
  .of_only (he s) rfl (show Only l s (if s.fuse.hx000 then s else f s) by rwa [hx, if_neg Bool.false_ne_true, ht]) (by rwa [hx, if_neg Bool.false_ne_true, ht])

/-! ## Input causes (R99) -/

/-- Every cause of a group's page raises its event (R418). -/
theorem evOf_pgGroup {g : Nat} (hg : g < 24) (bit : Nat) : evOf (pgGroup g) bit ≠ none := by
  unfold pgGroup
  interval_cases g <;> simp [evOf]

theorem grpOf_lt {c : Nat} (h : c < 320) : grpOf c < 24 := by
  unfold grpOf
  split <;> omega

/-- A channel that counts an input cause and holds its latch. -/
def Chan.caused (bit : Nat) (x : Chan) : Chan := { x with epis := satAdd 0xFFFF x.epis 1, latched := x.latched ||| (1#32 <<< bit) }

theorem inputCause_becomes (c bit : Nat) (s : State) : Becomes chan c ((chan c s).caused bit) s (inputCause c bit s) := by
  have h := becomes_modChan c (Chan.caused bit) s
  unfold inputCause
  dsimp only
  split
  · exact h
  · exact h.chan_only (raise_only _ _ _ _) rfl

theorem inputCause_latched {c bit : Nat} {s : State} (hc : c < 320) (hb : bit < 32) (h : wbit (chan c s).latched bit = false) :
    Latched (pgGroup (grpOf c)) bit (inputCause c bit s) := by
  unfold inputCause
  rw [h]
  exact raise_latched _ _ (evOf_pgGroup (grpOf_lt hc) bit) hb

theorem condOn_inputCause (c bit : Nat) (s : State) (q b u : Nat) : condOn q b u (inputCause c bit s) = condOn q b u s := by
  have h (f : Chan → Chan) : condOn q b u (modChan c f s) = condOn q b u s := condOn_only (modChan_only c f s) rfl q b u
  unfold inputCause
  dsimp only
  split
  · exact h _
  · exact (condOn_raise _ _ _ _ q b u).trans (h _)

/-- An episode of an input begins: the channel changed, the condition under way, the cause counted and held, and told unless it was held. -/
theorem inputEpisode {c bit : Nat} (f : Chan → Chan) (s : State) (hc : c < 320) (hb : bit < 32) :
    let t := inputCause c bit (condStart (pgGroup (grpOf c)) bit c (modChan c f s))
    Only (reporting [.chans]) s t ∧ Becomes chan c ((f (chan c s)).caused bit) s t ∧ condOn (pgGroup (grpOf c)) bit c t = true ∧
      (wbit (f (chan c s)).latched bit = false → Latched (pgGroup (grpOf c)) bit t) := by
  have hstart := (becomes_modChan c f s).chan_only (condStart_only (pgGroup (grpOf c)) bit c _) rfl
  obtain ⟨hself, hothers⟩ := inputCause_becomes c bit (condStart (pgGroup (grpOf c)) bit c (modChan c f s))
  rw [hstart.1] at hself
  exact ⟨Only.next (inputCause_only c bit _) rfl (Only.next (condStart_only _ _ _ _) rfl ((modChan_only c f s).mono rfl)),
    ⟨hself, fun j hj => (hothers j hj).trans (hstart.2 j hj)⟩, (condOn_inputCause ..).trans (condOn_condStart_self ..),
    fun hl => inputCause_latched hc hb (by rw [hstart.1]; exact hl)⟩

/-! ## Causes of a group (R99) -/

theorem groupCause_latched {g bit : Nat} (hg : g < 24) (hb : bit < 32) (s : State) : Latched (pgGroup g) bit (groupCause g bit s) := by
  unfold groupCause
  split
  · assumption
  · exact raise_latched _ _ (evOf_pgGroup hg bit) hb

theorem condOn_groupCause (g bit : Nat) (s : State) (q b u : Nat) : condOn q b u (groupCause g bit s) = condOn q b u s := by
  unfold groupCause
  split
  · rfl
  · exact condOn_raise _ _ _ _ q b u

/-- An episode of a group begins: its condition under way and its cause latched. -/
theorem groupEpisode {g bit : Nat} (s : State) (hg : g < 24) (hb : bit < 32) :
    let t := groupCause g bit (condStart (pgGroup g) bit 0 s)
    Only reports s t ∧ Latched (pgGroup g) bit t ∧ condOn (pgGroup g) bit 0 t = true ∧ ∀ b, b ≠ bit → condOn (pgGroup g) b 0 t = condOn (pgGroup g) b 0 s :=
  ⟨Only.next (groupCause_only g bit _) rfl ((condStart_only _ _ _ s).mono rfl), groupCause_latched hg hb _, (condOn_groupCause ..).trans (condOn_condStart_self ..),
    fun b hb => (condOn_groupCause ..).trans (condOn_condStart_of_ne (fun e => hb (by cases e; rfl)) s)⟩

end Sys2Proof.Machine
end

section
/-! PROOF. Front ends are supervised (R81, R84, R88). -/

namespace Sys2Proof.Machine

/-- Intervals still open end at an instant. -/
def closeSpans (t : Int) (l : List (Int × Option Int)) : List (Int × Option Int) := l.map fun k => if k.2 = none then (k.1, some t) else k

section
variable {s : State} (hx : s.fuse.hx000 = false)
include hx

theorem viepeMeasure_runs (mv : Nat) : Runs (.viepeMeasure mv) s [.ana] fun t => t.ana = { s.ana with viepe := some mv } :=
  .of_analogue hx (fun _ => rfl) rfl (modAna_only _ s) rfl

/-! ## Clamps (R88) -/

theorem clampStart_runs {c : Chn} (h : (chan c.val s).prot = false) : Runs (.clampStart c) s (reporting [.chans]) fun t =>
    Becomes chan c.val (({ chan c.val s with prot := true, clamps := (chan c.val s).clamps ++ [(nowTk s, none)] } : Chan).caused inPROTECT) s t ∧
    condOn (pgGroup (grpOf c.val)) inPROTECT c.val t = true ∧ (wbit (chan c.val s).latched inPROTECT = false → Latched (pgGroup (grpOf c.val)) inPROTECT t) := by
  obtain ⟨honly, hchan, hcond, hlatched⟩ := inputEpisode (bit := inPROTECT) (fun x => { x with prot := true, clamps := x.clamps ++ [(nowTk s, none)] }) s c.isLt (by decide)
  exact .of_analogue hx (fun _ => rfl) (if_neg (by simp [h])) honly ⟨hchan, hcond, hlatched⟩

theorem clampEnd_runs {c : Chn} (h : (chan c.val s).prot = true) : Runs (.clampEnd c) s [.fab, .chans] fun t =>
    Becomes chan c.val { chan c.val s with prot := false, clamps := closeSpans (nowTk s) (chan c.val s).clamps } s t ∧
    condOn (pgGroup (grpOf c.val)) inPROTECT c.val t = false :=
  .of_analogue hx (fun _ => rfl) (if_pos h) (Only.next (condEnd_only _ _ _ _) rfl ((modChan_only c.val _ s).mono rfl))
    ⟨(becomes_modChan c.val _ s).chan_only (condEnd_only _ _ _ _) rfl, (condOn_condEnd ..).1⟩

/-! ## Excitation (R81) -/

section
variable {g : GGrp} {c : Instr} {m : State → State} {bit : Nat} (f : Group → Group) (he : ∀ s, exec c s = analogue m s)
include he

/-- A command that changes its group, at which an episode of the group begins. -/
theorem groupEpisode_runs (hb : bit < 32) (hu : m s = groupCause g.val bit (condStart (pgGroup g.val) bit 0 (modGrp g.val f s))) :
    Runs c s (reporting [.grps]) fun t => Becomes grp g.val (f (grp g.val s)) s t ∧ Latched (pgGroup g.val) bit t ∧ condOn (pgGroup g.val) bit 0 t = true := by
  obtain ⟨honly, hlatched, hcond, -⟩ := groupEpisode (modGrp g.val f s) (show g.val < 24 by omega) hb
  exact .of_analogue hx he hu (Only.next honly rfl ((modGrp_only g.val f s).mono rfl)) ⟨(becomes_modGrp g.val f s).grp_only honly rfl, hlatched, hcond⟩

/-- A command that changes its group, at which an episode of the group ends. -/
theorem groupEpisodeEnd_runs (hu : m s = condEnd (pgGroup g.val) bit 0 (modGrp g.val f s)) :
    Runs c s [.fab, .grps] fun t => Becomes grp g.val (f (grp g.val s)) s t ∧ condOn (pgGroup g.val) bit 0 t = false :=
  .of_analogue hx he hu (Only.next (condEnd_only _ _ _ _) rfl ((modGrp_only g.val f s).mono rfl))
    ⟨(becomes_modGrp g.val f s).grp_only (condEnd_only _ _ _ _) rfl, (condOn_condEnd ..).1⟩

end

section
variable {g : GGrp}

theorem snsLostDetect_runs (hl : (grp g.val s).isL = true) : Runs (.snsLostDetect g) s (reporting [.grps]) fun t =>
    Becomes grp g.val { grp g.val s with onLocal := true } s t ∧ Latched (pgGroup g.val) inSNSLOST t ∧ condOn (pgGroup g.val) inSNSLOST 0 t = true :=
  groupEpisode_runs hx (bit := inSNSLOST) (fun x => { x with onLocal := true }) (fun _ => rfl) (by decide) (if_pos hl)

theorem snsRestore_runs (hl : (grp g.val s).isL = true) : Runs (.snsRestore g) s [.fab, .grps] fun t =>
    Becomes grp g.val { grp g.val s with onLocal := wbit (grp g.val s).w 28 } s t ∧ condOn (pgGroup g.val) inSNSLOST 0 t = false :=
  groupEpisodeEnd_runs hx (bit := inSNSLOST) (fun x => { x with onLocal := wbit x.w 28 }) (fun _ => rfl) (if_pos hl)

/-- The retries in a row that count: none once a retry has held for 1 s. -/
def retriesInRow (x : Group) (s : State) : Nat := if x.retryUp + nsPerSec < s.tim.up then 0 else x.retries

/-- A group whose excitation is switched off, for good where this ends the third retry in a row. -/
def Group.switchedOff (s : State) (x : Group) : Group :=
  { x with excOff := true, limit := false, iExc := 0, retries := retriesInRow x s, lock := decide (3 ≤ retriesInRow x s), offs := x.offs ++ [(nowTk s, none)] }

/-- A group whose excitation restarts with a soft start of 1 ms. -/
def Group.retried (ma : Nat) (s : State) (x : Group) : Group :=
  { x with excOff := false, retries := x.retries + 1, retryUp := s.tim.up, iExc := ma, offs := closeSpans (nowTk s + 1000000 * tkNs) x.offs }

theorem excRetry_runs {ma : Nat} (ho : (grp g.val s).excOff = true) (hl : (grp g.val s).lock = false) : Runs (.excRetry g ma) s [.fab, .grps] fun t =>
    Becomes grp g.val ((grp g.val s).retried ma s) s t ∧ condOn (pgGroup g.val) inEXCOFF 0 t = false :=
  groupEpisodeEnd_runs hx (bit := inEXCOFF) (Group.retried ma s) (fun _ => rfl) (if_pos ⟨ho, hl⟩)

variable (hon : excOn (grp g.val s) = true)
include hon

theorem excLimitEngage_runs {ma : Nat} (hm : 500 ≤ ma) : Runs (.excLimitEngage g ma) s (reporting [.grps]) fun t =>
    Becomes grp g.val { grp g.val s with limit := true, iExc := ma } s t ∧ Latched (pgGroup g.val) inEXCLIMIT t ∧ condOn (pgGroup g.val) inEXCLIMIT 0 t = true :=
  groupEpisode_runs hx (bit := inEXCLIMIT) (fun x => { x with limit := true, iExc := ma }) (fun _ => rfl) (by decide) ((if_neg (by simp [hon])).trans (if_pos hm))

theorem excLimitEngage_ends_runs {ma : Nat} (hm : ma < 500) : Runs (.excLimitEngage g ma) s [.fab, .grps] fun t =>
    Becomes grp g.val { grp g.val s with limit := false, iExc := ma } s t ∧ condOn (pgGroup g.val) inEXCLIMIT 0 t = false :=
  groupEpisodeEnd_runs hx (bit := inEXCLIMIT) (fun x => { x with limit := false, iExc := ma }) (fun _ => rfl) ((if_neg (by simp [hon])).trans (if_neg (Nat.not_le.mpr hm)))

theorem excOff_runs : Runs (.excOff g) s (reporting [.grps]) fun t =>
    Becomes grp g.val ((grp g.val s).switchedOff s) s t ∧ (Latched (pgGroup g.val) inEXCOFF t ∧ condOn (pgGroup g.val) inEXCOFF 0 t = true) ∧
    condOn (pgGroup g.val) inEXCLIMIT 0 t = false := by
  have hended : Only [.fab, .grps] s (condEnd (pgGroup g.val) inEXCLIMIT 0 (modGrp g.val (Group.switchedOff s) s)) :=
    Only.next (condEnd_only _ _ _ _) rfl ((modGrp_only g.val _ s).mono rfl)
  have hgrp := (becomes_modGrp g.val (Group.switchedOff s) s).grp_only (condEnd_only (pgGroup g.val) inEXCLIMIT 0 _) rfl
  obtain ⟨honly, hlatched, hcond, hothers⟩ :=
    groupEpisode (bit := inEXCOFF) (condEnd (pgGroup g.val) inEXCLIMIT 0 (modGrp g.val (Group.switchedOff s) s)) (show g.val < 24 by omega) (by decide)
  exact .of_analogue hx (fun _ => rfl) (if_neg (by simp [hon])) (Only.next honly rfl (hended.mono rfl))
    ⟨hgrp.grp_only honly rfl, ⟨hlatched, hcond⟩, (hothers _ (by decide)).trans (condOn_condEnd ..).1⟩

end

end

/-- Settles O50: each clause is its command's change of a channel or group, with the episode that begins or ends. -/
theorem frontEndsAreSupervised : Obligations.FrontEndsAreSupervised := by
  unfold Obligations.FrontEndsAreSupervised
  intro c g mv ma s hx x y p pc told n closed
  exact ⟨viepeMeasure_runs hx mv, clampStart_runs hx, clampEnd_runs hx, fun hl => ⟨snsLostDetect_runs hx hl, snsRestore_runs hx hl⟩,
    fun hon => ⟨excLimitEngage_runs hx hon, excLimitEngage_ends_runs hx hon, excOff_runs hx hon⟩, excRetry_runs hx⟩

end Sys2Proof.Machine
end

section
/-! SUPPORT. What range requests, hard switches and open inputs leave of the channels (R89, R95–R97, R116, R124, R126). -/

namespace Sys2Proof.Machine

/-- What `v` shows of the channels is as before. -/
def ChansAlike {β : Type} (v : Chan → β) (s t : State) : Prop := ∀ j, v (chan j t) = v (chan j s)

section
variable {β : Type} {v : Chan → β} {s t u : State}

theorem ChansAlike.refl (s : State) : ChansAlike v s s := fun _ => rfl

theorem ChansAlike.trans (h : ChansAlike v s t) (k : ChansAlike v t u) : ChansAlike v s u := fun j => (k j).trans (h j)

/-- An operation that reaches no channel. -/
theorem ChansAlike.of_only {l : List Area} (h : Only l s t) (hl : l.contains .chans = false) : ChansAlike v s t :=
  fun j => by rw [chan_congr (h.same .chans (by simpa using hl))]

theorem ChansAlike.next {l : List Area} (h : ChansAlike v s t) (k : Only l t u) (hl : l.contains .chans = false) : ChansAlike v s u := h.trans (.of_only k hl)

theorem ChansAlike.ite {c : Prop} [Decidable c] (h : ChansAlike v s t) (k : ChansAlike v s u) : ChansAlike v s (if c then t else u) := by
  split <;> assumption

theorem ChansAlike.modChan {f : Chan → Chan} {c : Nat} (hf : ∀ x, v (f x) = v x) : ChansAlike v s (modChan c f s) := fun j => by
  by_cases hj : j = c
  · rw [hj, chan_modChan_self, hf]
  · rw [chan_modChan_of_ne s hj]

end

/-! ## Hard switches and range requests (R124, R126) -/

/-- A channel but for a hard switch decided. -/
def Chan.unswitched (x : Chan) : Chan := { x with swTo := none }

theorem decideHard_unswitched (c range : Nat) (s : State) : ChansAlike Chan.unswitched s (decideHard c range s) := .ite (.refl s) (.modChan fun _ => rfl)

theorem hardRange_unswitched (c range : Nat) (s : State) : ChansAlike Chan.unswitched s (hardRange c range s) := by
  have h := decideHard_unswitched c range s
  refine .ite (.refl s) (.ite h ?_)
  exact h.next (Only.next (groupRaise_only _ _ _ _) rfl ((modGrp_only _ _ _).mono (m := .grps :: reports) rfl)) rfl

theorem serveQueue_unswitched (g : Nat) (s : State) : ChansAlike Chan.unswitched s (serveQueue g s) := by
  unfold serveQueue
  split
  · exact .refl s
  · have hunqueue (c : Nat) : ChansAlike Chan.unswitched s (unqueue g c s) := .of_only (unqueue_only g c s) rfl
    exact .ite ((hunqueue _).trans (hardRange_unswitched _ _ _)) (.ite ((hunqueue _).next (takeOvl_only _ _ _ _ _ _) rfl) (.refl s))

theorem requestRange_unswitched (r : RReq) (s : State) : ChansAlike Chan.unswitched s (requestRange r s) := by
  have hcancel (g : Nat) : ChansAlike Chan.unswitched s (cancelOvl g s) := .of_only (cancelOvl_only g s) rfl
  have hreRange (g : Nat) (o : Ovl) (target : Nat) (q : RReq) : ChansAlike Chan.unswitched s (reRange g o target q s) := .of_only (reRange_only g o target q s) rfl
  have hserve (g : Nat) : ChansAlike Chan.unswitched s (serveQueue g (enqueue r s)) := (ChansAlike.of_only (enqueue_only r s) rfl).trans (serveQueue_unswitched g _)
  unfold requestRange
  dsimp only
  refine .ite (.refl s) (.ite (.ite (hardRange_unswitched _ _ s) (.refl s)) ?_)
  split
  · exact .ite (.ite (.refl s) (.ite (.ite (hcancel _) (.ite (hreRange _ _ _ _) (.refl s))) (.ite (.refl s) (hreRange _ _ _ _)))) (.ite (.refl s) (hreRange _ _ _ _))
  · exact .ite (.of_only (unqueue_only _ _ s) rfl) (.ite (hardRange_unswitched _ _ s) (hserve _))

/-! ## What supervision moves of a channel -/

/-- A channel but for what open-input detection, supervision, lead measurements and range requests move. -/
def Chan.core (x : Chan) : Chan :=
  { x with swTo := none, isOpen := false, brk := none, brkEnd := none, rail := 0, mon := 0, off := 0, offEnd := 0, bias := 0, biasLow := 0, short := false,
           stale := false, leadAt := 0, dn := 0, epis := 0, latched := 0, tsub := false }

/-- Hard switches are no part of it. -/
theorem ChansAlike.core {s t : State} (h : ChansAlike Chan.unswitched s t) : ChansAlike Chan.core s t :=
  fun j => show (chan j t).unswitched.core = (chan j s).unswitched.core from congrArg Chan.core (h j)

theorem inputCause_core (c bit : Nat) (s : State) : ChansAlike Chan.core s (inputCause c bit s) := fun j => by
  obtain ⟨hself, hothers⟩ := inputCause_becomes c bit s
  by_cases hj : j = c
  · rw [hj, hself]
    rfl
  · rw [hothers j hj]

/-! ## Open inputs (R89, R95–R97) -/

/-- The overlap of an input that opens is cancelled (R116). -/
def cancelMine (c : Nat) (s : State) : State :=
  if (match (grp (grpOf c) s).ovl with
    | some o => decide (o.ch = c)
    | none => false) then cancelOvl (grpOf c) s else s

/-- The queued request of an input that opens is dropped, a committed range made as a hard switch (R125). -/
def dropRequest (c : Nat) (s : State) : State :=
  match queued (grpOf c) c s with
  | some r => (if r.kind = 2 then hardRange c r.target else id) (unqueue (grpOf c) c s)
  | none => s

/-- A channel whose input has opened. -/
def Chan.opened (brk : Int) (x : Chan) : Chan := { x with isOpen := true, brk := some brk, brkEnd := none, rail := 0, mon := 0, off := 0, dn := 0 }

/-- An open-input decision up to its episode. -/
def openInput (c : Nat) (brk : Int) (s : State) : State := dropRequest c (cancelMine c (bumpGen pgCHW (modChan c (Chan.opened brk) s)))

theorem openDecision_eq (c : Nat) (brk : Int) (s : State) :
    openDecision c brk s = inputCause c inOPEN (condStart (pgGroup (grpOf c)) inOPEN c (openInput c brk s)) := rfl

theorem cancelMine_unswitched (c : Nat) (s : State) : ChansAlike Chan.unswitched s (cancelMine c s) := .ite (.of_only (cancelOvl_only _ s) rfl) (.refl s)

theorem dropRequest_unswitched (c : Nat) (s : State) : ChansAlike Chan.unswitched s (dropRequest c s) := by
  have hunqueue : ChansAlike Chan.unswitched s (unqueue (grpOf c) c s) := .of_only (unqueue_only _ c s) rfl
  unfold dropRequest
  split
  · split
    · exact hunqueue.trans (hardRange_unswitched _ _ _)
    · exact hunqueue
  · exact .refl s

/-- The channels as an open-input decision leaves them before its episode. -/
theorem openInput_unswitched (c : Nat) (brk : Int) (s : State) : ChansAlike Chan.unswitched (modChan c (Chan.opened brk) s) (openInput c brk s) :=
  ((ChansAlike.of_only (bumpGen_only pgCHW _) rfl).trans (cancelMine_unswitched c _)).trans (dropRequest_unswitched c _)

theorem openDecision_core (c : Nat) (brk : Int) (s : State) : ChansAlike Chan.core s (openDecision c brk s) := by
  have hopened : ChansAlike Chan.core s (modChan c (Chan.opened brk) s) := .modChan fun _ => rfl
  rw [openDecision_eq]
  exact ((hopened.trans (openInput_unswitched c brk s).core).next (condStart_only _ _ _ _) rfl).trans (inputCause_core _ _ _)

/-- The channel of an open-input decision, but for a hard switch decided. -/
theorem openDecision_chan (c : Nat) (brk : Int) (s : State) : (chan c (openDecision c brk s)).unswitched = (((chan c s).opened brk).caused inOPEN).unswitched := by
  have hopen := (openInput_unswitched c brk s).next (condStart_only (pgGroup (grpOf c)) inOPEN c _) rfl
  rw [openDecision_eq, (inputCause_becomes _ _ _).1]
  exact (congrArg (Chan.caused inOPEN) (hopen c)).trans (by rw [chan_modChan_self]; rfl)

theorem condOn_openDecision (c : Nat) (brk : Int) (s : State) : condOn (pgGroup (grpOf c)) inOPEN c (openDecision c brk s) = true :=
  (condOn_inputCause ..).trans (condOn_condStart_self ..)

theorem openDecision_latched {c : Nat} (hc : c < 320) {brk : Int} {s : State} (h : wbit (chan c s).latched inOPEN = false) :
    Latched (pgGroup (grpOf c)) inOPEN (openDecision c brk s) := by
  have hopen := (openInput_unswitched c brk s).next (condStart_only (pgGroup (grpOf c)) inOPEN c _) rfl
  have hl := congrArg Chan.latched (hopen c)
  rw [chan_modChan_self] at hl
  rw [openDecision_eq]
  exact inputCause_latched hc (by decide) ((congrArg (wbit · inOPEN) hl).trans h)

theorem closedNow_core (c : Nat) (s : State) : ChansAlike Chan.core s (closedNow c s) := by
  have h : ChansAlike Chan.core s (modChan c (fun x => { x with isOpen := false }) s) := .modChan fun _ => rfl
  exact ((h.next (bumpGen_only pgCHW _) rfl).next (condEnd_only _ _ _ _) rfl).trans (inputCause_core _ _ _)

theorem endOpen_core (c : Nat) (t : Int) (s : State) : ChansAlike Chan.core s (endOpen c t s) := by
  have h : ChansAlike Chan.core s (modChan c (fun x => { x with brkEnd := some t, off := 0, rail := 0, mon := 0 }) s) := .modChan fun _ => rfl
  exact .ite h (h.trans (closedNow_core c _))

theorem detectOpen_core (c : Nat) (w0 w1 code : Int) (aHigh : Bool) (bias : Nat) (s : State) : ChansAlike Chan.core s (detectOpen c w0 w1 code aHigh bias s) := by
  unfold detectOpen
  dsimp only
  generalize hu : modChan c _ s = u
  have h : ChansAlike Chan.core s u := by
    rw [← hu]
    exact .modChan fun _ => rfl
  exact .ite (.ite (.ite (h.trans (.modChan fun _ => rfl)) h)
    (.ite (h.trans (.modChan fun _ => rfl)) (.ite (h.trans (.modChan fun _ => rfl)) (h.trans (endOpen_core c _ u)))))
    (.ite (h.trans (openDecision_core c _ u)) h)

theorem detectShort_core (c bias : Nat) (s : State) : ChansAlike Chan.core s (detectShort c bias s) := by
  have hback : ChansAlike Chan.core s (modChan c (fun x => { x with biasLow := 0, short := false }) s) := .modChan fun _ => rfl
  have hlow : ChansAlike Chan.core s (modChan c (fun x => { x with biasLow := min 16 (x.biasLow + 1) }) s) := .modChan fun _ => rfl
  have hshort : ChansAlike Chan.core s (modChan c (fun x => { x with short := true }) (modChan c (fun x => { x with biasLow := min 16 (x.biasLow + 1) }) s)) :=
    hlow.trans (.modChan fun _ => rfl)
  exact .ite (.refl s) (.ite (.ite (.refl s) (hback.next (condEnd_only _ _ _ _) rfl)) (.ite ((hshort.next (condStart_only _ _ _ _) rfl).trans (inputCause_core _ _ _)) hlow))

end Sys2Proof.Machine
end

section
/-! SUPPORT. The CHW window, and an overlap cancelled (R100, R116). -/

namespace Sys2Proof.Machine

theorem nowTk_congr {s t : State} (h : t.tim = s.tim) : nowTk t = nowTk s := by rw [nowTk, h, nowTk]

/-! ## The window (R100) -/

/-- Word `i` of the edit buffer is a plain register that holds what is written. -/
theorem rwReg_entry {i : Nat} (h : i < 4) : ∃ z, rwReg ((0x0E050 + 4 * i) / 4096) ((0x0E050 + 4 * i) % 4096) = some (0xFFFFFFFF, z) := by
  interval_cases i <;> exact ⟨_, rfl⟩

theorem rfGet_rfPut_entry {i : Nat} (h : i < 4) (v : Word) (s : State) :
    rfGet (0x0E050 + 4 * i) (rfPut (0x0E050 + 4 * i) v s) = v ∧ ∀ a, a ≠ 0x0E050 + 4 * i → rfGet a (rfPut (0x0E050 + 4 * i) v s) = rfGet a s := by
  obtain ⟨z, hz⟩ := rwReg_entry h
  obtain ⟨hself, hothers⟩ := rfGet_rfPut hz v s
  exact ⟨hself.trans (BitVec.and_allOnes (w := 32)), hothers⟩

/-- The edit buffer loaded: it holds the committed words of the selected entry, and every other register is as before. -/
theorem rfGet_loadEntry (s : State) :
    (∀ i, i < 4 → rfGet (0x0E050 + 4 * i) (loadEntry s) = ew (comWords (chwSel s) s) i) ∧ ∀ a, (∀ i, i < 4 → a ≠ 0x0E050 + 4 * i) → rfGet a (loadEntry s) = rfGet a s := by
  have hput {i : Nat} (hi : i < 4) (v : Word) (s : State) := rfGet_rfPut_entry hi v s
  unfold loadEntry
  refine ⟨fun i hi => ?_, fun a ha => ?_⟩
  · interval_cases i
    · rw [(hput (i := 3) (by decide) _ _).2 _ (by decide), (hput (i := 2) (by decide) _ _).2 _ (by decide), (hput (i := 1) (by decide) _ _).2 _ (by decide)]
      exact (hput (i := 0) (by decide) _ _).1
    · rw [(hput (i := 3) (by decide) _ _).2 _ (by decide), (hput (i := 2) (by decide) _ _).2 _ (by decide)]
      exact (hput (i := 1) (by decide) _ _).1
    · rw [(hput (i := 3) (by decide) _ _).2 _ (by decide)]
      exact (hput (i := 2) (by decide) _ _).1
    · exact (hput (i := 3) (by decide) _ _).1
  · rw [(hput (i := 3) (by decide) _ _).2 a (ha 3 (by decide)), (hput (i := 2) (by decide) _ _).2 a (ha 2 (by decide)),
      (hput (i := 1) (by decide) _ _).2 a (ha 1 (by decide)), (hput (i := 0) (by decide) _ _).2 a (ha 0 (by decide))]

/-- Plain registers have no part in the committed words. -/
theorem comWords_rf {s t : State} (h : Only [.rf] s t) (e : Bool × Nat) : comWords e t = comWords e s := by
  rw [comWords, grp_congr (h.same .grps (by decide)), chan_congr (h.same .chans (by decide)), h.same .fuse (by decide), comWords]

/-- SEL written: ten bits of it stay, which name the entry. -/
theorem rfPut_sel (v : Word) (s : State) : rfGet 0x0E040 (rfPut 0x0E040 v s) = v &&& 0x3FF ∧ ∀ a, a ≠ 0x0E040 → rfGet a (rfPut 0x0E040 v s) = rfGet a s :=
  rfGet_rfPut (z := 0) rfl v s

theorem chwSel_rfPut (v : Word) (s : State) : chwSel (rfPut 0x0E040 v s) = (wbit v 9, wbits v 0 9) := by
  have hnum : wbits (v &&& 0x3FF) 0 9 = wbits v 0 9 := by
    have h : (v &&& 0x3FF#32).toNat = v.toNat % 1024 := (BitVec.toNat_and ..).trans (Nat.and_two_pow_sub_one_eq_mod v.toNat 10)
    rw [wbits, wbits, bits, bits, Nat.shiftRight_zero, Nat.shiftRight_zero]
    exact (congrArg (· % 2 ^ 9) h).trans (Nat.mod_mod_of_dvd _ (by decide))
  rw [chwSel, (rfPut_sel v s).1, hnum, wbit_and, show wbit (0x3FF : Word) 9 = true from rfl, Bool.and_true]

/-! ## An overlap cancelled (R116, R184) -/

/-- Two changes of one unit, one after the other. -/
theorem Becomes.andThen {α : Type} {unit : Nat → State → α} {n : Nat} {x : α} {s t u : State} (h : Becomes unit n x s t) (f : α → α)
    (k : Becomes unit n (f (unit n t)) t u) : Becomes unit n (f x) s u :=
  ⟨k.1.trans (congrArg f h.1), fun m hm => (k.2 m hm).trans (h.2 m hm)⟩

theorem Becomes.thenModGrp {g : Nat} {x : Group} {s t : State} (h : Becomes grp g x s t) (f : Group → Group) : Becomes grp g (f x) s (modGrp g f t) :=
  h.andThen f (becomes_modGrp g f t)

theorem Becomes.thenModChan {c : Nat} {x : Chan} {s t : State} (h : Becomes chan c x s t) (f : Chan → Chan) : Becomes chan c (f x) s (modChan c f t) :=
  h.andThen f (becomes_modChan c f t)

theorem Becomes.refl {α : Type} (unit : Nat → State → α) (n : Nat) (s : State) : Becomes unit n (unit n s) s s := ⟨rfl, fun _ _ => rfl⟩

theorem judgeExtrap_becomes (g : Nat) (s : State) : ∃ e, Becomes grp g { grp g s with extrap := e } s (judgeExtrap g s) := by
  have hsame : Becomes grp g { grp g s with extrap := (grp g s).extrap } s s := .refl grp g s
  unfold judgeExtrap
  dsimp only
  split
  · split
    · exact ⟨_, hsame⟩
    · exact ⟨true, ((becomes_modGrp g _ s).grp_only (condStart_only _ _ _ _) rfl).grp_only (raise_only _ _ _ _) rfl⟩
  · split
    · exact ⟨false, (becomes_modGrp g _ s).grp_only (condEnd_only _ _ _ _) rfl⟩
    · exact ⟨_, hsame⟩

/-- A group whose relief is free, idle or calibrating as `n` says. -/
def Group.relieved (n : Nat) (x : Group) : Group := { x with task := n, tgt := 0, trange := 0, fwin := false }

theorem freeRelief_becomes (g : Nat) (s : State) : ∃ n, Becomes grp g ((grp g s).relieved n) s (freeRelief g s) := ⟨_, becomes_modGrp g _ s⟩

/-- A group whose overlap is cancelled. -/
def Group.cancelled (n : Nat) (e : Bool) (x : Group) : Group := { x.relieved n with ovl := none, cancels := (x.cancels + 1) % 65536, extrap := e }

theorem cancelOvl_becomes (g : Nat) (s : State) : ∃ n e, Becomes grp g ((grp g s).cancelled n e) s (cancelOvl g s) := by
  have hgone := (becomes_modGrp g (fun x => { x with cancels := (x.cancels + 1) % 65536 }) s).thenModGrp fun x => { x with ovl := none }
  obtain ⟨n, hfree⟩ := freeRelief_becomes g (modGrp g (fun x => { x with ovl := none }) (modGrp g (fun x => { x with cancels := (x.cancels + 1) % 65536 }) s))
  have hdrop := (hgone.andThen (Group.relieved n) hfree).grp_only (groupGen_only g _) rfl
  obtain ⟨e, hjudge⟩ := judgeExtrap_becomes g (dropOvl g (modGrp g (fun x => { x with cancels := (x.cancels + 1) % 65536 }) s))
  exact ⟨n, e, hdrop.andThen (fun x => { x with extrap := e }) hjudge⟩

end Sys2Proof.Machine
end

section
/-! SUPPORT. The CHW window, commits, and a group entry that takes effect (R81, R100, R102, R126). -/

namespace Sys2Proof.Machine

/-! ## The window (R100) -/

/-- ERR of a commit of the selected entry. -/
def commitErr (s : State) : Nat :=
  if (chwSel s).1 then groupErr (chwSel s).2 (rfGet 0x0E050 s) s else chanErr (chwSel s).2 (maskEntry (editWords s)) s

/-- A commit shows its ERR. -/
def showErr (s : State) : State := s.modAna fun a => { a with chwErr := commitErr s }

/-- A channel whose entry is committed: it waits for its boundary. -/
def Chan.committed (w : List Word) (x : Chan) : Chan :=
  { x with com := w, busy := true, pendF := x.pendF || decide (ew x.w 1 ≠ ew w 1), clean := if x.com = w then x.clean else none }

theorem showErr_only (s : State) : Only [.ana] s (showErr s) := modAna_only _ s

theorem commitChan_becomes (c : Nat) (w : List Word) (s : State) : Becomes chan c ((chan c s).committed w) s (commitChan c w s) := by
  have h : Becomes chan c ((chan c s).committed w) s (modChan c (fun y => { y with
      com := w, busy := true, pendF := y.pendF || decide (ew (chan c s).w 1 ≠ ew w 1), clean := if (chan c s).com = w then y.clean else none }) s) :=
    becomes_modChan c _ s
  unfold commitChan
  dsimp only
  split
  · exact h.chan_only (groupGen_only _ _) rfl
  · exact h

section
variable {r : Req} {s : State} (hf : (page pgCHW s).freeze = false)
include hf

theorem chwSelWrite_runs (v : Word) : Runs (.chwSelWrite r v) s [.rf] fun t =>
    rfGet 0x0E040 t = v &&& 0x3FF ∧ (∀ i, i < 4 → rfGet (0x0E050 + 4 * i) t = ew (comWords (wbit v 9, wbits v 0 9) s) i) ∧
    ∀ a, (∀ i, i < 4 → a ≠ 0x0E050 + 4 * i) → a ≠ 0x0E040 → rfGet a t = rfGet a s := by
  obtain ⟨hwords, hothers⟩ := rfGet_loadEntry (rfPut 0x0E040 v s)
  rw [chwSel_rfPut, comWords_rf (rfPut_only 0x0E040 v s)] at hwords
  obtain ⟨hsel, hrest⟩ := rfPut_sel v s
  exact .of_only rfl (gated_open hf _) (Only.next (loadEntry_only _) rfl (rfPut_only _ v s))
    ⟨(hothers _ fun i _ => by omega).trans hsel, hwords, fun a ha hne => (hothers a ha).trans (hrest a hne)⟩

theorem chwReload_runs : Runs (.chwReload r) s [.rf] fun t =>
    rfGet 0x0E040 t = rfGet 0x0E040 s ∧ (∀ i, i < 4 → rfGet (0x0E050 + 4 * i) t = ew (comWords (chwSel s) s) i) ∧
    ∀ a, (∀ i, i < 4 → a ≠ 0x0E050 + 4 * i) → a ≠ 0x0E040 → rfGet a t = rfGet a s := by
  obtain ⟨hwords, hothers⟩ := rfGet_loadEntry s
  exact .of_only rfl (gated_open hf _) (loadEntry_only s) ⟨hothers _ fun i _ => by omega, hwords, fun a ha _ => hothers a ha⟩

theorem exec_chwCommit : exec (.chwCommit r) s = .next (if commitErr s ≠ 0 then showErr s else bumpGen pgCHW
    (if (chwSel s).1 then commitGroup (chwSel s).2 (maskGroup (chwSel s).2 (rfGet 0x0E050 s)) (showErr s) else commitChan (chwSel s).2 (maskEntry (editWords s)) (showErr s))) :=
  congrArg _ (gated_open hf _)

theorem chwCommit_refused_runs (he : commitErr s ≠ 0) : Runs (.chwCommit r) s [.ana] fun t => t.ana = { s.ana with chwErr := commitErr s } :=
  .of_only (exec_chwCommit hf) (if_pos he) (showErr_only s) rfl

theorem chwCommit_chan_runs (hsel : (chwSel s).1 = false) (he : commitErr s = 0) : Runs (.chwCommit r) s [.pages, .ana, .chans] fun t =>
    t.ana = { s.ana with chwErr := 0 } ∧ Becomes chan (chwSel s).2 ((chan (chwSel s).2 s).committed (maskEntry (editWords s))) s t := by
  have hcommit := Only.next (bumpGen_only pgCHW _) rfl (commitChan_only (chwSel s).2 (maskEntry (editWords s)) (showErr s))
  refine .of_only (exec_chwCommit hf) ((if_neg (not_not_intro he)).trans (congrArg (bumpGen pgCHW) (if_neg (ne_true_of_eq_false hsel))))
    (Only.next hcommit rfl ((showErr_only s).mono rfl)) ⟨(hcommit.same .ana (by decide)).trans ?_, (commitChan_becomes _ _ (showErr s)).chan_only (bumpGen_only pgCHW _) rfl⟩
  rw [← he]
  rfl

theorem chwCommit_grp_runs (hsel : (chwSel s).1 = true) (he : commitErr s = 0) : Runs (.chwCommit r) s [.pages, .ana, .grps] fun t =>
    t.ana = { s.ana with chwErr := 0 } ∧
    Becomes grp (chwSel s).2 { grp (chwSel s).2 s with com := maskGroup (chwSel s).2 (rfGet 0x0E050 s), busy := true } s t := by
  have hcommit := Only.next (bumpGen_only pgCHW _) rfl ((commitGroup_only (chwSel s).2 (maskGroup (chwSel s).2 (rfGet 0x0E050 s)) (showErr s)).mono (m := [.pages, .grps]) rfl)
  refine .of_only (exec_chwCommit hf) ((if_neg (not_not_intro he)).trans (congrArg (bumpGen pgCHW) (if_pos hsel)))
    (Only.next hcommit rfl ((showErr_only s).mono rfl)) ⟨(hcommit.same .ana (by decide)).trans ?_, (becomes_modGrp _ _ (showErr s)).grp_only (bumpGen_only pgCHW _) rfl⟩
  rw [← he]
  rfl

end

/-! ## A group entry takes effect (R81, R102) -/

/-- A group whose committed entry is in force; a lock-out has ended. -/
def Group.entered (lost : Bool) (t : Int) (y : Group) : Group :=
  { y with
    w := y.com, busy := false, onLocal := wbit y.com 28 || lost, lock := false, retries := if y.lock then 0 else y.retries, excOff := y.excOff && !y.lock,
    offs := if y.lock then closeSpans t y.offs else y.offs }

/-- A group whose excitation flows as its entry asks. -/
def Group.supplied (ma : Nat) (y : Group) : Group := { y with iExc := if excOn y then ma else 0, limit := y.limit && excOn y }

/-- A condition of a group ends where `b` says so. -/
def endIf (b : Bool) (p bit : Nat) (s : State) : State := if b then condEnd p bit 0 s else s

theorem endIf_not (b : Bool) (p bit : Nat) (s : State) : endIf (!b) p bit s = if b then s else condEnd p bit 0 s := by
  cases b <;> rfl

theorem endIf_only (b : Bool) (p bit : Nat) (s : State) : Only [.fab] s (endIf b p bit s) := .ite (condEnd_only p bit 0 s) (.refl _ s)

theorem condOn_endIf {b : Bool} (hb : b = true) (p bit : Nat) (s : State) : condOn p bit 0 (endIf b p bit s) = false :=
  (congrArg (condOn p bit 0) (if_pos hb)).trans (condOn_condEnd p bit 0 s).1

theorem condOn_endIf_of_ne (b : Bool) (p bit : Nat) (s : State) {k : Nat} (h : k ≠ bit) : condOn p k 0 (endIf b p bit s) = condOn p k 0 s := by
  unfold endIf
  split
  · exact (condOn_condEnd p bit 0 s).2 p k 0 fun e => h (by cases e; rfl)
  · rfl

/-- A group entry enters into force, and the conditions end that its excitation ends. -/
def enterGroup (g ma : Nat) (lock lost : Bool) (t : Int) (s : State) : State :=
  let s := endIf lock (pgGroup g) inEXCOFF (modGrp g (fun y => (y.entered lost t).supplied ma) s)
  endIf (!excOn (grp g s)) (pgGroup g) inEXCLIMIT s

/-- Every channel in use of a group switches hard. -/
def switchAll (g : Nat) (s : State) : State :=
  (groupSlots g).foldl (fun s c => if eCls (chan c s).w = 0 then s else decideHard c (chan c s).range s) s

theorem groupEffect_of_same {g : Nat} {s : State} (h : wbits (grp g s).w 29 3 = wbits (grp g s).com 29 3) (ma : Nat) :
    groupEffect g ma s = enterGroup g ma (grp g s).lock (condOn (pgGroup g) inSNSLOST 0 s) (nowTk s) s := by
  simp only [enterGroup, endIf_not]
  simp only [groupEffect, h, ne_eq, not_true, decide_false, Bool.false_eq_true, false_and, if_false]
  rfl

theorem groupEffect_of_changed {g : Nat} {s : State} (h : wbits (grp g s).w 29 3 ≠ wbits (grp g s).com 29 3) (ma : Nat) :
    groupEffect g ma s = switchAll g (enterGroup g ma (grp g s).lock (condOn (pgGroup g) inSNSLOST 0 s) (nowTk s) (if (grp g s).ovl.isSome then cancelOvl g s else s)) := by
  simp only [enterGroup, endIf_not]
  simp only [groupEffect, h, ne_eq, not_false_eq_true, decide_true, true_and, if_true]
  rfl

section
variable (g ma : Nat) (lock lost : Bool) (t : Int) (s : State)

theorem enterGroup_only : Only [.fab, .grps] s (enterGroup g ma lock lost t s) :=
  Only.next (endIf_only _ _ _ _) rfl (Only.next (endIf_only _ _ _ _) rfl ((modGrp_only g _ s).mono rfl))

theorem enterGroup_becomes : Becomes grp g (((grp g s).entered lost t).supplied ma) s (enterGroup g ma lock lost t s) :=
  ((becomes_modGrp g (fun y => (y.entered lost t).supplied ma) s).grp_only (endIf_only _ _ _ _) rfl).grp_only (endIf_only _ _ _ _) rfl

/-- The conditions that end with a lock-out and with the excitation. -/
theorem condOn_enterGroup : (lock = true → condOn (pgGroup g) inEXCOFF 0 (enterGroup g ma lock lost t s) = false) ∧
    (excOn ((grp g s).entered lost t) = false → condOn (pgGroup g) inEXCLIMIT 0 (enterGroup g ma lock lost t s) = false) := by
  have hgrp := (becomes_modGrp g (fun y => (y.entered lost t).supplied ma) s).grp_only (endIf_only lock (pgGroup g) inEXCOFF _) rfl
  refine ⟨fun hl => (condOn_endIf_of_ne _ _ _ _ (by decide)).trans (condOn_endIf hl _ _ _), fun hoff => condOn_endIf ?_ _ _ _⟩
  rw [hgrp.1, Bool.not_eq_true']
  exact hoff

end

theorem switchAll_only (g : Nat) (s : State) : Only [.chans] s (switchAll g s) :=
  .foldl (fun t c => .ite (.refl _ t) (decideHard_only c _ t)) _ s

/-- No overlap goes on once the one there is has been cancelled; the committed entry is as before. -/
theorem endOverlap (g : Nat) (s : State) :
    let t := if (grp g s).ovl.isSome then cancelOvl g s else s
    Only (reporting [.grps]) s t ∧ (grp g t).com = (grp g s).com ∧ (grp g t).ovl = none := by
  dsimp only
  split
  · obtain ⟨n, e, hself, -⟩ := cancelOvl_becomes g s
    exact ⟨(cancelOvl_only g s).mono rfl, (congrArg Group.com hself).trans rfl, (congrArg Group.ovl hself).trans rfl⟩
  · next h => exact ⟨.refl _ s, rfl, by simpa using h⟩

/-- A used channel of a group that switches hard, at the first coarse boundary after now. -/
theorem chan_switchAll {g i : Nat} {s : State} (hi : i < groupSize g) (hu : eCls (chan (slotAt g i) s).w ≠ 0) (hd : (chan (slotAt g i) s).duty.isSome = true) :
    (chan (slotAt g i) (switchAll g s)).swTo = some ((nowTk s).fdiv (coarseTk (isFast (slotAt g i))) * coarseTk (isFast (slotAt g i)) + coarseTk (isFast (slotAt g i)),
      (chan (slotAt g i) s).range) := by
  have htim (t : State) (c : Nat) : Only [.chans] t (if eCls (chan c t).w = 0 then t else decideHard c (chan c t).range t) := .ite (.refl _ t) (decideHard_only c _ t)
  obtain ⟨t, ht, hchan, hafter⟩ := unit_foldl_of_mem (unit := chan) (P := fun t => t.tim = s.tim) (f := fun s c => if eCls (chan c s).w = 0 then s else decideHard c (chan c s).range s)
    (fun t ht c => ((htim t c).same .tim (by decide)).trans ht)
    (fun t _ j c hj => by
      split
      · rfl
      · unfold decideHard
        split
        · rfl
        · exact chan_modChan_of_ne t hj _)
    rfl (groupSlots_nodup g) (slotAt_mem hi)
  rw [switchAll, hafter, hchan, if_neg hu, decideHard, hchan, if_neg (by simpa [Option.isSome_iff_ne_none] using hd), chan_modChan_self, nowTk_congr ht]

section
variable {g : Grp} {s : State} (ma : Nat) (hs : s.pwr.stopped = false) (hb : (grp g.val s).busy = true)
include hs hb

theorem exec_groupCommitEffect : exec (.chwCommitEffect (.group g) ma) s =
    .next (if s.fuse.hx000 then modGrp g.val (fun y => { y with w := y.com, busy := false }) s else groupEffect g.val ma s) := by
  change execChwCommitEffect (.group g) ma s = _
  rw [execChwCommitEffect, hs, if_neg Bool.false_ne_true]
  exact if_pos hb

theorem groupCommitEffect_hx000_runs (hx : s.fuse.hx000 = true) : Runs (.chwCommitEffect (.group g) ma) s [.grps]
    (Becomes grp g.val { grp g.val s with w := (grp g.val s).com, busy := false } s) :=
  .of_only (exec_groupCommitEffect ma hs hb) (if_pos hx) (modGrp_only g.val _ s) (becomes_modGrp g.val _ s)

theorem groupCommitEffect_same_runs (hx : s.fuse.hx000 = false) (he : ¬ wbits (grp g.val s).w 29 3 ≠ wbits (grp g.val s).com 29 3) :
    Runs (.chwCommitEffect (.group g) ma) s [.fab, .grps] fun t =>
      Becomes grp g.val (((grp g.val s).entered (condOn (pgGroup g.val) inSNSLOST 0 s) (nowTk s)).supplied ma) s t ∧
      ((grp g.val s).lock = true → condOn (pgGroup g.val) inEXCOFF 0 t = false) ∧
      (excOn ((grp g.val s).entered (condOn (pgGroup g.val) inSNSLOST 0 s) (nowTk s)) = false → condOn (pgGroup g.val) inEXCLIMIT 0 t = false) :=
  .of_only (exec_groupCommitEffect ma hs hb) ((if_neg (ne_true_of_eq_false hx)).trans (groupEffect_of_same (not_not.mp he) ma)) (enterGroup_only ..)
    ⟨enterGroup_becomes .., condOn_enterGroup ..⟩

theorem groupCommitEffect_changed_runs {i : Nat} (hx : s.fuse.hx000 = false) (he : wbits (grp g.val s).w 29 3 ≠ wbits (grp g.val s).com 29 3) (hi : i < groupSize g.val)
    (hu : eCls (chan (slotAt g.val i) s).w ≠ 0) (hd : (chan (slotAt g.val i) s).duty.isSome = true) :
    Runs (.chwCommitEffect (.group g) ma) s (reporting [.chans, .grps]) fun t => (grp g.val t).w = (grp g.val s).com ∧ (grp g.val t).ovl = none ∧
      (chan (slotAt g.val i) t).swTo = some ((nowTk s).fdiv (coarseTk (isFast (slotAt g.val i))) * coarseTk (isFast (slotAt g.val i)) + coarseTk (isFast (slotAt g.val i)),
        (chan (slotAt g.val i) s).range) := by
  obtain ⟨honly, hcom, hovl⟩ := endOverlap g.val s
  have henter := enterGroup_only g.val ma (grp g.val s).lock (condOn (pgGroup g.val) inSNSLOST 0 s) (nowTk s) (if (grp g.val s).ovl.isSome then cancelOvl g.val s else s)
  have hgrp := (enterGroup_becomes g.val ma (grp g.val s).lock (condOn (pgGroup g.val) inSNSLOST 0 s) (nowTk s)
    (if (grp g.val s).ovl.isSome then cancelOvl g.val s else s)).grp_only (switchAll_only g.val _) rfl
  have hbefore := Only.next henter rfl (honly.mono (m := reporting [.grps]) rfl)
  have hchan := chan_congr (hbefore.same .chans (by decide)) (slotAt g.val i)
  refine .of_only (exec_groupCommitEffect ma hs hb) ((if_neg (ne_true_of_eq_false hx)).trans (groupEffect_of_changed he ma))
    (Only.next (switchAll_only g.val _) rfl (hbefore.mono rfl)) ⟨(congrArg Group.w hgrp.1).trans hcom, (congrArg Group.ovl hgrp.1).trans hovl, ?_⟩
  rw [chan_switchAll hi (hchan ▸ hu) (hchan ▸ hd), hchan, nowTk_congr (hbefore.same .tim (by decide))]

end

end Sys2Proof.Machine
end

section
/-! PROOF. Entries take effect at their boundaries (R100, R102, R116, R126, R149). -/

namespace Sys2Proof.Machine

/-! ## The rate boundary (R149) -/

/-- A channel whose new setting runs from the rate boundary `b` on, settling until past the chain's own instant `r`. -/
def Chan.atBoundary (fast : Bool) (b r : Int) (x : Chan) : Chan :=
  { x with
    busy := false, pendF := false, regr := false, settle := hasGrid x.w, rateSet := hasGrid x.w,
    spans := if hasGrid x.w then x.spans ++ [⟨true, b, if phaseHalf x.old1 ≠ phaseHalf (ew x.w 1) ∧ fast = false then r + settleTk false else r⟩] else x.spans }

section
variable {c : Chn} {s : State} {b r : Int} (hx : s.fuse.hx000 = false)
include hx

theorem rateBoundary_runs (htb : (chan c.val s).tb = some b) (htr : (chan c.val s).tr = some r) (hb : (chan c.val s).busy = true) :
    Runs (.rateBoundary c) s [.pages, .del, .chans] (Becomes chan c.val ((chan c.val s).atBoundary (isFast c.val) b r) s) := by
  have hmod := becomes_modChan c.val (fun y => { y with
    busy := false, pendF := false, regr := false, settle := hasGrid (chan c.val s).w, rateSet := hasGrid (chan c.val s).w,
    spans := if hasGrid (chan c.val s).w then y.spans ++
      [⟨true, b, if phaseHalf (chan c.val s).old1 ≠ phaseHalf (ew (chan c.val s).w 1) ∧ isFast c.val = false then r + settleTk false else r⟩] else y.spans }) s
  refine .of_analogue hx (fun _ => rfl) (by dsimp only; rw [htb, htr]; exact if_neg (ne_false_of_eq_true hb))
    (Only.next (groupGen_only _ _) rfl (Only.next (closeRuns_only _ _) rfl ((modChan_only _ _ s).mono rfl)))
    ((hmod.chan_only (closeRuns_only _ _) rfl).chan_only (groupGen_only _ _) rfl)

theorem rateBoundary_regrid_runs (htb : (chan c.val s).tb = some b) (htr : (chan c.val s).tr = some r) (hb : (chan c.val s).busy = false) (hr : (chan c.val s).regr = true) :
    Runs (.rateBoundary c) s [.pages, .chans] (Becomes chan c.val { chan c.val s with regr := false, settle := true } s) :=
  .of_analogue hx (fun _ => rfl) (by dsimp only; rw [htb, htr]; exact (if_pos hb).trans (if_pos hr)) (Only.next (groupGen_only _ _) rfl ((modChan_only _ _ s).mono rfl))
    ((becomes_modChan c.val (fun y => { y with regr := false, settle := true }) s).chan_only (groupGen_only _ _) rfl)

theorem chainReconfigure_runs (htr : (chan c.val s).tr = some r) : Runs (.chainReconfigure c) s [.chans] (Becomes chan c.val
    { chan c.val s with tr := none, skipAt := if isFast c.val = false ∧ phaseHalf (chan c.val s).old1 ≠ phaseHalf (ew (chan c.val s).w 1) then some r else (chan c.val s).skipAt } s) :=
  .of_analogue hx (fun _ => rfl) (by rw [htr]) (modChan_only c.val _ s) (becomes_modChan c.val _ s)

end

/-! ## The stages in which a channel entry takes effect (R102) -/

/-- The entry that runs until the committed one takes effect: ENTRY1 is that of the chain. -/
def Chan.running (x : Chan) (t : Int) : List Word := [ew x.w 0, runningW1 x t, ew x.w 2, ew x.w 3]

/-- Whether the committed entry differs from the one that runs in fields of a word. -/
def Chan.differs (x : Chan) (t : Int) (i : Nat) (m : Word) : Bool := decide ((ew (x.running t) i ^^^ ew x.com i) &&& m ≠ 0)

section
variable (c : Nat) (s : State)

/-- The input changes: the channel switches hard (R126). -/
def effectHard : Bool := (chan c s).differs (nowTk s) 0 0xF9002000
/-- The coupling changes (R85). -/
def effectCoup : Bool := (chan c s).differs (nowTk s) 0 0x001FC000 && decide (eCls (chan c s).com = 3)
/-- ENTRY1 changes (R149). -/
def effectRate : Bool := (chan c s).differs (nowTk s) 1 0xFF800000
/-- The linearisation changes (R181). -/
def effectLin : Bool := (chan c s).differs (nowTk s) 2 0xFFFFE000
/-- Another range is asked for (R120). -/
def effectRange : Bool := (chan c s).differs (nowTk s) 0 0x06000000 || decide (eRange (chan c s).com ≠ (chan c s).range)

/-- First an overlap that the change rules out is cancelled (R116) and the alarm told. -/
def effectAlarm : State :=
  alarmChange c (ew (chan c s).w 2) (ew (chan c s).com 2) (match (grp (grpOf c) s).ovl with
    | some o => if o.ch = c ∧ (effectHard c s || effectCoup c s || effectRate c s || (chan c s).differs (nowTk s) 2 0xFFFFFFFF) then cancelOvl (grpOf c) s else s
    | none => s)

/-- Then a changed linearisation leaves its slot and ends the runs (R181, R182). -/
def effectLeave : State := if effectLin c s then linLeave (eLinSlot (chan c s).w) c (closeRuns c (effectAlarm c s)) else effectAlarm c s

/-- The channel under the new words. -/
def Chan.underWords (coefs : List Word) (y : Chan) : Chan :=
  leadFrom (nowTk s) y { y with
    w := (chan c s).com, busy := effectRate c s, linOld := if effectLin c s then histPut (nowTk s) (ew (chan c s).w 2, coefs) y.linOld else y.linOld,
    cAt := if effectLin c s then cDue (nowTk s) false y.cAt else y.cAt,
    spans := if effectCoup c s then y.spans ++ [⟨false, nowTk s, nowTk s + couplingTk (chan c s).com⟩] else y.spans,
    nextT := if hasGrid (chan c s).com = false then none else if hasGrid ((chan c s).running (nowTk s)) then y.nextT
      else some (gridUp (periodTk (isFast c) (ew (chan c s).com 1)) (nowTk s)) }

/-- The words enter into force. -/
def effectWords : State := modChan c (Chan.underWords c s (coefsOf c (effectAlarm c s))) (effectLeave c s)

/-- A change of ENTRY1 begins, or one under way is called off (R149). -/
def effectChain : State :=
  if effectRate c s then startRate c ((chan c s).running (nowTk s)) (chan c s).com (effectWords c s)
  else if runningW1 (chan c s) (nowTk s) = ew (chan c s).w 1 then effectWords c s
  else groupGen (grpOf c) (modChan c (fun y => { y with pendF := false, tb := none, tr := none }) (effectWords c s))

/-- A group whose channels were all unused starts anew (R464). -/
def effectWake : State :=
  if decide (s.pwr.state = 1) && decide (eCls (chan c s).com ≠ 0) && (groupSlots (grpOf c)).all fun d => decide (eCls (chan d s).w = 0) then
    modGrp (grpOf c) (fun y => { y with wake := 1, since := none }) (modChan c (fun y => { y with nextT := none, cAt := cDue 0 false y.cAt }) (effectChain c s))
  else effectChain c s

/-- Supervision that the new words rule out ends (R76, R84, R499). -/
def effectSupervised (u : State) : State :=
  judgeExtrap (grpOf c) (leadWiring c ((chan c s).running (nowTk s)) (chan c s).com (dropDetection c (nowTk s)
    (if isIepe (chan c s).com = false ∧ (chan c s).short then condEnd (pgGroup (grpOf c)) inSHORT c (modChan c (fun y => { y with short := false, biasLow := 0 }) u) else u)))

/-- Last the range: a hard switch or a request (R120). -/
def effectSwitch (u : State) : State :=
  if effectHard c s ∨ (effectRange c s ∧ eCls (chan c s).com = 0) then decideHard c (eRange (chan c s).com) (unqueue (grpOf c) c u)
  else if effectRange c s then requestRange ⟨c, eRange (chan c s).com, nowTk s, 2, false⟩ u
  else u

theorem chanEffect_eq : chanEffect c s = effectSwitch c s (effectSupervised c s (effectWake c s)) := rfl

/-! ## What the stages leave (R102, R149) -/

/-- What the stages before the range reach. -/
def effectAreas : List Area := reporting [.svc, .chans, .grps, .lins]

theorem effectAlarm_only : Only (reporting [.svc, .grps]) s (effectAlarm c s) := by
  refine Only.next (alarmChange_only _ _ _ _) rfl ?_
  split
  · exact .ite ((cancelOvl_only _ s).mono rfl) (.refl _ s)
  · exact .refl _ s

theorem effectLeave_only : Only (reporting [.svc, .grps, .lins]) s (effectLeave c s) := by
  have h := (effectAlarm_only c s).mono (m := reporting [.svc, .grps, .lins]) rfl
  exact .ite (Only.next (linLeave_only _ _ _) rfl (Only.next (closeRuns_only _ _) rfl h)) h

theorem effectWords_only : Only effectAreas s (effectWords c s) := Only.next (modChan_only _ _ _) rfl ((effectLeave_only c s).mono rfl)

theorem effectChain_only : Only effectAreas s (effectChain c s) := by
  have h := effectWords_only c s
  exact .ite (Only.next (startRate_only _ _ _ _) rfl h) (.ite h (Only.next (groupGen_only _ _) rfl (Only.next (modChan_only _ _ _) rfl h)))

theorem effectWake_only : Only effectAreas s (effectWake c s) := by
  have h := effectChain_only c s
  exact .ite (Only.next (modGrp_only _ _ _) rfl (Only.next (modChan_only _ _ _) rfl h)) h

theorem effectSupervised_only {u : State} (h : Only effectAreas s u) : Only effectAreas s (effectSupervised c s u) := by
  have hshort := Only.ite (c := isIepe (chan c s).com = false ∧ (chan c s).short)
    (Only.next (condEnd_only (pgGroup (grpOf c)) inSHORT c _) rfl (Only.next (modChan_only c (fun y => { y with short := false, biasLow := 0 }) u) rfl h)) h
  exact Only.next (judgeExtrap_only _ _) rfl (Only.next (leadWiring_only _ _ _ _) rfl (Only.next (dropDetection_only _ _ _) rfl hshort))

/-- The channel under the new words: coefficients and instants are those at the commit's boundary. -/
theorem chan_effectWords : chan c (effectWords c s) = (chan c s).underWords c s (coefsOf c s) := by
  have hcoefs : coefsOf c (effectAlarm c s) = coefsOf c s := by
    have h := effectAlarm_only c s
    rw [coefsOf, linSlot, h.same .lins (by decide), chan_congr (h.same .chans (by decide)), coefsOf, linSlot]
  rw [effectWords, chan_modChan_self, chan_congr ((effectLeave_only c s).same .chans (by decide)), hcoefs]

theorem leadFrom_eq (b : Int) (x y : Chan) : ∃ l, leadFrom b x y = { y with leadsOld := l } := by
  unfold leadFrom
  split
  · exact ⟨y.leadsOld, rfl⟩
  · exact ⟨_, rfl⟩

/-- A channel but for its chain and the instant of its next record. -/
def Chan.unchained (x : Chan) : Chan := { x with old1 := 0, tb := none, tr := none, pendF := false, nextT := none }

theorem startRate_unchained (old new : List Word) (u : State) : ChansAlike Chan.unchained u (startRate c old new u) := by
  unfold startRate
  exact .modChan fun _ => rfl

theorem effectChain_unchained : ChansAlike Chan.unchained (effectWords c s) (effectChain c s) := by
  have hoff : ChansAlike Chan.unchained (effectWords c s) (modChan c (fun y => { y with pendF := false, tb := none, tr := none }) (effectWords c s)) := .modChan fun _ => rfl
  exact .ite (startRate_unchained c _ _ _) (.ite (.refl _) (hoff.next (groupGen_only _ _) rfl))

theorem dropDetection_core (b : Int) (u : State) : ChansAlike Chan.core u (dropDetection c b u) := .ite (endOpen_core c _ u) (.refl u)

theorem leadWiring_core (old new : List Word) (u : State) : ChansAlike Chan.core u (leadWiring c old new u) := by
  have hstale : ChansAlike Chan.core u (modChan c (fun y => { y with stale := false }) u) := .modChan fun _ => rfl
  have hsince : ChansAlike Chan.core u (modChan c (fun y => { y with leadAt := u.tim.up }) u) := .modChan fun _ => rfl
  exact .ite (hstale.next (condEnd_only _ _ _ _) rfl) (.ite hsince (.refl u))

theorem effectSupervised_core (u : State) : ChansAlike Chan.core u (effectSupervised c s u) := by
  have hshort : ChansAlike Chan.core u (modChan c (fun y => { y with short := false, biasLow := 0 }) u) := .modChan fun _ => rfl
  have h := ChansAlike.ite (c := isIepe (chan c s).com = false ∧ (chan c s).short) (hshort.next (condEnd_only (pgGroup (grpOf c)) inSHORT c _) rfl) (.refl u)
  exact ((h.trans (dropDetection_core c _ _)).trans (leadWiring_core c _ _ _)).next (judgeExtrap_only _ _) rfl

theorem effectSwitch_unswitched (u : State) : ChansAlike Chan.unswitched u (effectSwitch c s u) :=
  .ite ((ChansAlike.of_only (unqueue_only _ c u) rfl).trans (decideHard_unswitched c _ _)) (.ite (requestRange_unswitched _ u) (.refl u))

theorem effectSwitch_core : ChansAlike Chan.core (effectWake c s) (chanEffect c s) :=
  (effectSupervised_core c s _).trans (effectSwitch_unswitched c s _).core

/-- A channel without what supervision moves, without earlier lead voltages and without the instants at which its next record and C are due. -/
def Chan.entry (x : Chan) : Chan := { x.core with nextT := none, cAt := [], leadsOld := [] }

/-- From the stages before it on, a channel's entry stays and no C due is lost. -/
theorem chanEffect_entry : (chan c (chanEffect c s)).entry = (chan c (effectChain c s)).entry ∧
    ∀ k ∈ (chan c (effectChain c s)).cAt, k ∈ (chan c (chanEffect c s)).cAt := by
  have hcore := effectSwitch_core c s c
  have hentry := congrArg (fun x : Chan => ({ x with nextT := none, cAt := [], leadsOld := [] } : Chan)) hcore
  have hdue : (chan c (chanEffect c s)).cAt = (chan c (effectWake c s)).cAt := by
    have h := congrArg Chan.cAt hcore
    exact h
  rw [hdue]
  refine ⟨hentry.trans ?_, ?_⟩ <;> unfold effectWake <;> split
  · rw [chan_modGrp, chan_modChan_self]
    rfl
  · rfl
  · intro k hk
    rw [chan_modGrp, chan_modChan_self]
    exact List.mem_append_left _ hk
  · exact fun _ hk => hk

/-! ## The entry that has taken effect (R102, R149) -/

/-- The chain's part of an entry. -/
theorem Chan.entry_chain {x y : Chan} (h : x.entry = y.entry) : x.old1 = y.old1 ∧ x.tb = y.tb ∧ x.tr = y.tr ∧ x.pendF = y.pendF :=
  ⟨(congrArg Chan.old1 h :), (congrArg Chan.tb h :), (congrArg Chan.tr h :), (congrArg Chan.pendF h :)⟩

/-- The rest of an entry. -/
theorem Chan.entry_words {x y : Chan} (h : x.entry.unchained = y.entry.unchained) :
    x.w = y.w ∧ x.com = y.com ∧ x.busy = y.busy ∧ x.linOld = y.linOld ∧ x.spans = y.spans ∧ x.duty = y.duty :=
  ⟨(congrArg Chan.w h :), (congrArg Chan.com h :), (congrArg Chan.busy h :), (congrArg Chan.linOld h :), (congrArg Chan.spans h :), (congrArg Chan.duty h :)⟩

theorem Chan.unchained_cAt {x y : Chan} (h : x.unchained = y.unchained) : x.cAt = y.cAt := (congrArg Chan.cAt h :)

/-- Earlier lead voltages are no part of it. -/
theorem leadFrom_entry (b : Int) (x y : Chan) : (leadFrom b x y).entry = y.entry := by
  obtain ⟨l, hl⟩ := leadFrom_eq b x y
  rw [hl]
  rfl

theorem leadFrom_cAt (b : Int) (x y : Chan) : (leadFrom b x y).cAt = y.cAt := by
  obtain ⟨l, hl⟩ := leadFrom_eq b x y
  rw [hl]

/-- The channel's words, linearisation and spans are those that the commit asks for. -/
theorem chanEffect_words : (chan c (chanEffect c s)).w = (chan c s).com ∧ (chan c (chanEffect c s)).com = (chan c s).com ∧
    (chan c (chanEffect c s)).busy = effectRate c s ∧
    (chan c (chanEffect c s)).linOld = (if effectLin c s then histPut (nowTk s) (ew (chan c s).w 2, coefsOf c s) (chan c s).linOld else (chan c s).linOld) ∧
    (chan c (chanEffect c s)).spans =
      (if effectCoup c s then (chan c s).spans ++ [⟨false, nowTk s, nowTk s + couplingTk (chan c s).com⟩] else (chan c s).spans) ∧
    (chan c (chanEffect c s)).duty = (chan c s).duty := by
  have hwords : (chan c (effectChain c s)).entry.unchained = (chan c (effectWords c s)).entry.unchained := congrArg Chan.entry (effectChain_unchained c s c)
  have h := (congrArg Chan.unchained (chanEffect_entry c s).1).trans hwords
  rw [chan_effectWords, Chan.underWords, leadFrom_entry] at h
  exact Chan.entry_words h

theorem effectWords_cAt : (chan c (effectWords c s)).cAt = if effectLin c s then cDue (nowTk s) false (chan c s).cAt else (chan c s).cAt := by
  rw [chan_effectWords, Chan.underWords, leadFrom_cAt]

/-- C is due from a change of the linearisation on (R181). -/
theorem chanEffect_cAt (h : effectLin c s = true) : (nowTk s, false) ∈ (chan c (chanEffect c s)).cAt := by
  have hchain := Chan.unchained_cAt (effectChain_unchained c s c)
  refine (chanEffect_entry c s).2 _ ?_
  rw [hchain, effectWords_cAt, if_pos h]
  exact List.mem_append_right _ (List.mem_singleton.mpr rfl)

/-- The chain is the one before where no change of ENTRY1 is under way. -/
theorem effectWords_entry : (chan c (effectWords c s)).old1 = (chan c s).old1 ∧ (chan c (effectWords c s)).tb = (chan c s).tb ∧
    (chan c (effectWords c s)).tr = (chan c s).tr := by
  have hwords := congrArg Chan.entry (chan_effectWords c s)
  rw [Chan.underWords, leadFrom_entry] at hwords
  obtain ⟨hold, htb, htr, -⟩ := Chan.entry_chain hwords
  exact ⟨hold, htb, htr⟩

theorem rateBoundary_congr {u : State} (h : u.tim = s.tim) (old new : List Word) : rateBoundary c old new u = rateBoundary c old new s := by
  simp only [rateBoundary, nowTk_congr h]

/-- A change of ENTRY1: the setting that runs goes on to the rate boundary. -/
theorem chanEffect_rate (h : effectRate c s = true) :
    (chan c (chanEffect c s)).old1 = runningW1 (chan c s) (nowTk s) ∧
    (chan c (chanEffect c s)).tb = some (rateBoundary c ((chan c s).running (nowTk s)) (chan c s).com s) ∧
    (chan c (chanEffect c s)).tr = some (reconfigAt (isFast c) (rateBoundary c ((chan c s).running (nowTk s)) (chan c s).com s) ((chan c s).running (nowTk s))) := by
  have hentry := (chanEffect_entry c s).1
  rw [effectChain, if_pos h, startRate, chan_modChan_self, rateBoundary_congr c s ((effectWords_only c s).same .tim (by decide))] at hentry
  obtain ⟨hold, htb, htr, -⟩ := Chan.entry_chain hentry
  exact ⟨hold, htb, htr⟩

/-- The chain stays as it is where ENTRY1 asks for the setting in force. -/
theorem chanEffect_same (h : effectRate c s = false) (hw : runningW1 (chan c s) (nowTk s) = ew (chan c s).w 1) :
    (chan c (chanEffect c s)).old1 = (chan c s).old1 ∧ (chan c (chanEffect c s)).tb = (chan c s).tb ∧ (chan c (chanEffect c s)).tr = (chan c s).tr := by
  have hentry := (chanEffect_entry c s).1
  obtain ⟨hold', htb', htr'⟩ := effectWords_entry c s
  rw [effectChain, if_neg (ne_true_of_eq_false h), if_pos hw] at hentry
  obtain ⟨hold, htb, htr, -⟩ := Chan.entry_chain hentry
  exact ⟨hold.trans hold', htb.trans htb', htr.trans htr'⟩

/-- A change under way is called off where ENTRY1 asks for the setting that still runs. -/
theorem chanEffect_off (h : effectRate c s = false) (hw : runningW1 (chan c s) (nowTk s) ≠ ew (chan c s).w 1) :
    (chan c (chanEffect c s)).tb = none ∧ (chan c (chanEffect c s)).tr = none ∧ (chan c (chanEffect c s)).pendF = false := by
  have hentry := (chanEffect_entry c s).1
  rw [effectChain, if_neg (ne_true_of_eq_false h), if_neg hw, chan_congr ((groupGen_only _ _).same .chans (by decide)), chan_modChan_self] at hentry
  exact (Chan.entry_chain hentry).2

theorem Chan.unswitched_duty {x y : Chan} (h : x.unswitched = y.unswitched) : x.duty = y.duty := (congrArg Chan.duty h :)

/-- A changed input switches hard, at the first coarse boundary after the commit's (R126). -/
theorem chanEffect_hard (h : effectHard c s = true) (hd : (chan c s).duty.isSome = true) : (chan c (chanEffect c s)).swTo =
    some ((nowTk s).fdiv (coarseTk (isFast c)) * coarseTk (isFast c) + coarseTk (isFast c), eRange (chan c s).com) := by
  have honly := Only.next (unqueue_only (grpOf c) c _) rfl (effectSupervised_only c s (effectWake_only c s))
  have hswitch : chanEffect c s = decideHard c (eRange (chan c s).com) (unqueue (grpOf c) c (effectSupervised c s (effectWake c s))) := if_pos (.inl h)
  obtain ⟨-, -, -, -, -, hduty⟩ := chanEffect_words c s
  rw [hswitch] at hduty ⊢
  have hbefore := Chan.unswitched_duty (decideHard_unswitched c (eRange (chan c s).com) (unqueue (grpOf c) c (effectSupervised c s (effectWake c s))) c)
  have hsome : ¬ (chan c (unqueue (grpOf c) c (effectSupervised c s (effectWake c s)))).duty.isNone = true := by
    rw [← hbefore, hduty]
    simpa [Option.isSome_iff_ne_none] using hd
  rw [decideHard, if_neg hsome, chan_modChan_self, nowTk_congr (honly.same .tim (by decide))]

end

section
variable {c : Chn} {s : State} {ma : Nat} (hx : s.fuse.hx000 = false)
include hx

theorem chanCommitEffect_runs (hs : s.pwr.stopped = false) (hb : (chan c.val s).busy = true) :
    Runs (.chwCommitEffect (.chan c) ma) s (reporting [.bst, .svc, .chans, .grps, .lins]) fun t => t = chanEffect c.val s := by
  have he : exec (.chwCommitEffect (.chan c) ma) s = .next (chanEffect c.val s) := by
    change execChwCommitEffect (.chan c) ma s = _
    rw [execChwCommitEffect, hs, if_neg Bool.false_ne_true]
    exact (if_pos hb).trans (congrArg _ (if_neg (ne_true_of_eq_false hx)))
  exact .of_only he rfl ((chanEffect_only c.val s).mono rfl) rfl

end

/-- Settles O51: the window and the commits by what they store, a group entry by its entering into force, a channel entry by the stages of its effect, and the rate
boundary by the channel it leaves. -/
theorem entriesTakeEffectAtTheirBoundaries : Obligations.EntriesTakeEffectAtTheirBoundaries := by
  unfold Obligations.EntriesTakeEffectAtTheirBoundaries
  intro r v c g i ma b r0 s e shows others w cerr gerr x y new hard coup run old rate lin exc next free effect
  refine ⟨fun hf => ⟨chwSelWrite_runs hf v, chwReload_runs hf, fun hsel he => ?_, fun hsel he => ?_, fun hsel he => ?_, fun hsel he => ?_⟩,
    fun hs hb => ⟨groupCommitEffect_hx000_runs ma hs hb, groupCommitEffect_same_runs ma hs hb, groupCommitEffect_changed_runs ma hs hb⟩,
    fun hx => ⟨fun hs hb => ?_, rateBoundary_runs hx, rateBoundary_regrid_runs hx, chainReconfigure_runs hx⟩⟩
  · have herr : commitErr s = cerr := if_neg (ne_true_of_eq_false hsel)
    exact herr ▸ chwCommit_refused_runs hf (herr ▸ he)
  · have herr : commitErr s = gerr := if_pos hsel
    exact herr ▸ chwCommit_refused_runs hf (herr ▸ he)
  · exact chwCommit_chan_runs hf hsel ((if_neg (ne_true_of_eq_false hsel)).trans he)
  · exact chwCommit_grp_runs hf hsel ((if_pos hsel).trans he)
  · refine (chanCommitEffect_runs hx hs hb).imp fun t ht => ?_
    subst ht
    obtain ⟨hw, hcom, hbusy, hlin, hspans, -⟩ := chanEffect_words c.val s
    have hrate : effectRate c.val s = decide rate := rfl
    have hsame (h : ¬ rate) : effectRate c.val s = false := hrate.trans (decide_eq_false h)
    refine ⟨hw, hcom, by rw [hbusy, hrate, decide_eq_true_iff], fun h => chanEffect_rate c.val s (hrate.trans (decide_eq_true h)), fun h hrun => chanEffect_same c.val s (hsame h) hrun,
      fun h hrun => chanEffect_off c.val s (hsame h) hrun, fun h => ⟨hlin.trans (if_pos (decide_eq_true h)), chanEffect_cAt c.val s (decide_eq_true h)⟩,
      fun h => hlin.trans (if_neg (by rw [effectLin, Chan.differs, decide_eq_true_iff]; exact h)), fun h => ?_, fun h hd => chanEffect_hard c.val s (decide_eq_true h) hd⟩
    have hcoup : effectCoup c.val s = true := by
      rw [effectCoup, Bool.and_eq_true, decide_eq_true_iff]
      exact ⟨decide_eq_true h.1, h.2⟩
    rw [hspans, if_pos hcoup]
    exact List.mem_append_right _ (List.mem_singleton.mpr rfl)

end Sys2Proof.Machine
end

section
/-! SUPPORT. A Tattoo sequencer apart from the rest of its group, and what gives and takes the relief (R108, R156, R161). -/

namespace Sys2Proof.Machine

theorem pgGroup_ne_pgDEV (g : Nat) : pgGroup g ≠ pgDEV := by
  rw [pgGroup, pgDEV]
  omega

/-! ## One sequencer that changes -/

/-- The sequencer of group `g` is now `x`, and every other group is as before. -/
def Sequenced (g : Nat) (x : Tat) (s t : State) : Prop := tat g t = x ∧ ∀ j, j ≠ g → grp j t = grp j s

section
variable {g : Nat} {x : Tat} {s t u : State}

theorem Sequenced.refl (g : Nat) (s : State) : Sequenced g (tat g s) s s := ⟨rfl, fun _ _ => rfl⟩

theorem Sequenced.trans (h : Sequenced g x s t) (k : Sequenced g (tat g t) t u) : Sequenced g x s u := ⟨k.1.trans h.1, fun j hj => (k.2 j hj).trans (h.2 j hj)⟩

theorem Sequenced.only {l : List Area} (h : Sequenced g x s t) (k : Only l t u) (hl : l.contains .grps = false) : Sequenced g x s u :=
  have hgrp (j : Nat) : grp j u = grp j t := grp_congr (k.same .grps (by simpa using hl)) j
  ⟨(congrArg Group.tat (hgrp g)).trans h.1, fun j hj => (hgrp j).trans (h.2 j hj)⟩

theorem Sequenced.of_only {l : List Area} (k : Only l s t) (hl : l.contains .grps = false) : Sequenced g (tat g s) s t := (Sequenced.refl g s).only k hl

theorem Sequenced.thenModGrp {f : Group → Group} (h : Sequenced g x s t) (hf : ∀ y, (f y).tat = y.tat) : Sequenced g x s (modGrp g f t) :=
  ⟨(congrArg Group.tat (grp_modGrp_self t g f)).trans ((hf _).trans h.1), fun j hj => (grp_modGrp_of_ne t hj f).trans (h.2 j hj)⟩

theorem Sequenced.thenModTat (h : Sequenced g x s t) (f : Tat → Tat) : Sequenced g (f x) s (modTat g f t) :=
  ⟨(congrArg Group.tat (grp_modGrp_self t g _)).trans (congrArg f h.1), fun j hj => (grp_modGrp_of_ne t hj _).trans (h.2 j hj)⟩

theorem Sequenced.ite {c : Prop} [Decidable c] (h : Sequenced g x s t) (k : Sequenced g x s u) : Sequenced g x s (if c then t else u) := by
  split <;> assumption

theorem Becomes.sequenced {y : Group} (h : Becomes grp g y s t) (hy : y.tat = tat g s) : Sequenced g (tat g s) s t := ⟨(congrArg Group.tat h.1).trans hy, h.2⟩

end

theorem modTat_sequenced (g : Nat) (f : Tat → Tat) (s : State) : Sequenced g (f (tat g s)) s (modTat g f s) := (Sequenced.refl g s).thenModTat f

/-! ## Deferred requests dropped (R161) -/

theorem dropDeferred_sequenced (g : Nat) (w : Word) (s : State) : Sequenced g { tat g s with cntDrop := ((tat g s).cntDrop + 1) % 65536 } s (dropDeferred g w s) :=
  (modTat_sequenced g (fun t => { t with cntDrop := (t.cntDrop + 1) % 65536 }) s).only (raiseOnce_only _ _ _ _ _) rfl

theorem dropAllDeferred_sequenced (g : Nat) (s : State) : ∃ n, Sequenced g { tat g s with deferred := [], cntDrop := n } s (dropAllDeferred g s) := by
  have hnone := modTat_sequenced g (fun t => { t with deferred := [] }) s
  refine foldl_keeps (P := fun u => ∃ n, Sequenced g { tat g s with deferred := [], cntDrop := n } s u) (fun t ⟨n, ht⟩ w => ?_) ⟨_, hnone⟩ _
  obtain ⟨hself, hothers⟩ := dropDeferred_sequenced g w t
  exact ⟨(n + 1) % 65536, by rw [hself, ht.1], fun j hj => (hothers j hj).trans (ht.2 j hj)⟩

theorem dropDeferred_undisturbed (g : Nat) (w : Word) (s : State) : Undisturbed s (dropDeferred g w s) :=
  (Undisturbed.of_only (modTat_only g _ s) rfl).trans (raiseOnce_undisturbed (pgGroup_ne_pgDEV g) _ _ _ _)

theorem dropAllDeferred_undisturbed (g : Nat) (s : State) : Undisturbed s (dropAllDeferred g s) :=
  (Undisturbed.of_only (modTat_only g _ s) rfl).trans (Undisturbed.foldl (fun u w => dropDeferred_undisturbed g w u) _ _)

/-- A frame start leaves what goes on from the old frame to complete on its own. -/
theorem detachTask_eq (t : Tat) : ∃ d, detachTask t = { t with toPulse := [], wins := t.wins.map cutWin, task := none, deferRun := d } := by
  unfold detachTask
  dsimp only
  split
  · split
    · exact ⟨_, rfl⟩
    · exact ⟨_, rfl⟩
  · next h => exact ⟨t.deferRun, by rw [← h]⟩

/-! ## What leaves a sequencer as it is -/

/-- Nothing of the groups differs but group `g`, and of that not the sequencer. -/
abbrev SeqStill (g : Nat) (s t : State) : Prop := Sequenced g (tat g s) s t

theorem cancelOvl_seqStill (g : Nat) (s : State) : SeqStill g s (cancelOvl g s) := by
  obtain ⟨n, e, h⟩ := cancelOvl_becomes g s
  exact h.sequenced rfl

theorem freeRelief_seqStill (g : Nat) (s : State) : SeqStill g s (freeRelief g s) := (Sequenced.refl g s).thenModGrp fun _ => rfl

theorem unqueue_seqStill (g c : Nat) (s : State) : SeqStill g s (unqueue g c s) := (Sequenced.refl g s).thenModGrp fun _ => rfl

theorem hardRange_seqStill (c range : Nat) (s : State) : SeqStill (grpOf c) s (hardRange c range s) := by
  have hdecide : SeqStill (grpOf c) s (decideHard c range s) := .of_only (decideHard_only c range s) rfl
  have hat (u : State) : SeqStill (grpOf c) u (modGrp (grpOf c) (fun x => { x with hardAt := some u.tim.up }) u) := (Sequenced.refl _ u).thenModGrp fun _ => rfl
  exact .ite (.refl _ s) (.ite hdecide ((hdecide.trans (hat _)).only (groupRaise_only _ _ _ _) rfl))

theorem openDecision_seqStill (c : Nat) (brk : Int) (s : State) : SeqStill (grpOf c) s (openDecision c brk s) := by
  have hopened : SeqStill (grpOf c) s (bumpGen pgCHW (modChan c (Chan.opened brk) s)) := .of_only (Only.next (bumpGen_only _ _) rfl ((modChan_only c _ s).mono (m := [.pages, .chans]) rfl)) rfl
  have hmine (u : State) : SeqStill (grpOf c) u (cancelMine c u) := .ite (cancelOvl_seqStill _ u) (.refl _ u)
  have hdrop (u : State) : SeqStill (grpOf c) u (dropRequest c u) := by
    unfold dropRequest
    split
    · split
      · exact (unqueue_seqStill _ c u).trans (hardRange_seqStill c _ _)
      · exact unqueue_seqStill _ c u
    · exact .refl _ u
  rw [openDecision_eq]
  exact (((hopened.trans (hmine _)).trans (hdrop _)).only (condStart_only _ _ _ _) rfl).only (inputCause_only _ _ _) rfl

theorem judgeWindow_seqStill (c : Nat) (open_ : Bool) (s : State) : SeqStill (grpOf c) s (judgeWindow c open_ s) := by
  have hmod (f : Chan → Chan) (u : State) : SeqStill (grpOf c) u (modChan c f u) := .of_only (modChan_only c f u) rfl
  exact .ite (.ite ((hmod _ s).trans (hmod _ _)) ((hmod _ s).trans (openDecision_seqStill c _ _)))
    (.ite ((hmod _ s).only (endOpen_only _ _ _) rfl) (hmod _ s))

/-! ## The relief taken from a task (R108, R161) -/

/-- A sequencer whose task on the relief, if it had one, waits again in the deferred list: windows, channels to pulse and the old frame stay, and so does where the program stands
unless its task held the relief. -/
structure Tat.Requeued (x y : Tat) : Prop where
  wins : y.wins = x.wins
  toPulse : y.toPulse = x.toPulse
  oldFrame : y.oldFrame = x.oldFrame
  stands : (∀ w, x.task = some w → onRelief w = false) → y.task = x.task ∧ y.pc = x.pc

/-- Group `g` has lost its relief so, and every other group is as before. -/
structure Requeued (g : Nat) (s t : State) : Prop where
  seq : (tat g s).Requeued (tat g t)
  others : ∀ j, j ≠ g → grp j t = grp j s

section
variable {g : Nat} {s t u : State}

theorem SeqStill.requeued (h : SeqStill g s t) : Requeued g s t := by
  obtain ⟨htat, hothers⟩ := h
  exact ⟨⟨congrArg Tat.wins htat, congrArg Tat.toPulse htat, congrArg Tat.oldFrame htat, fun _ => ⟨congrArg Tat.task htat, congrArg Tat.pc htat⟩⟩, hothers⟩

theorem Requeued.refl (g : Nat) (s : State) : Requeued g s s := SeqStill.requeued (.refl g s)

theorem Requeued.trans (h : Requeued g s t) (k : Requeued g t u) : Requeued g s u := by
  refine ⟨⟨k.seq.wins.trans h.seq.wins, k.seq.toPulse.trans h.seq.toPulse, k.seq.oldFrame.trans h.seq.oldFrame, fun hw => ?_⟩, fun j hj => (k.others j hj).trans (h.others j hj)⟩
  obtain ⟨htask, hpc⟩ := h.seq.stands hw
  obtain ⟨htask', hpc'⟩ := k.seq.stands (htask ▸ hw)
  exact ⟨htask'.trans htask, hpc'.trans hpc⟩

end

theorem modTat_requeued {g : Nat} {f : Tat → Tat} {s : State} (hf : (tat g s).Requeued (f (tat g s))) : Requeued g s (modTat g f s) := by
  obtain ⟨htat, hothers⟩ := modTat_sequenced g f s
  exact ⟨htat ▸ hf, hothers⟩

theorem requeueTat_requeued (g : Nat) (s : State) : Requeued g s (requeueTat g s) := by
  have hhead (w : Word) (u : State) : Requeued g u (deferHead g w u) := modTat_requeued ⟨rfl, rfl, rfl, fun _ => ⟨rfl, rfl⟩⟩
  have hrun : Requeued g s (modTat g (fun t => { t with deferRun := none }) s) := modTat_requeued ⟨rfl, rfl, rfl, fun _ => ⟨rfl, rfl⟩⟩
  unfold requeueTat
  split
  · exact hrun.trans (hhead _ _)
  · split
    · next w hw =>
      split
      · next hon =>
        have hnext : Requeued g s (tatNext g s) := modTat_requeued ⟨rfl, rfl, rfl, fun hoff => absurd hon (by rw [hoff w hw]; decide)⟩
        exact hnext.trans (hhead _ _)
      · exact .refl g s
    · exact .refl g s

theorem dropTask_requeued (g : Nat) (s : State) : Requeued g s (dropTask g s) := by
  unfold dropTask
  dsimp only
  split
  · exact requeueTat_requeued g s
  · exact SeqStill.requeued (.of_only (abandonSlice_only g s) rfl)
  · split
    · next o _ =>
      have hretry : SeqStill g s (modGrp g (fun x => { x with retry := some o.ch }) s) := (Sequenced.refl g s).thenModGrp fun _ => rfl
      exact SeqStill.requeued (hretry.trans (cancelOvl_seqStill g _))
    · exact .refl g s
  · exact requeueTat_requeued g s
  · exact .refl g s

theorem takeRelief_requeued (g task idx range : Nat) (s : State) : Requeued g s (takeRelief g task idx range s) := by
  have htake (u : State) : SeqStill g u (modGrp g (fun x => { x with task := task, tgt := idx, trange := range }) u) := (Sequenced.refl g u).thenModGrp fun _ => rfl
  exact (dropTask_requeued g s).trans (htake _).requeued

theorem startOvl_seqStill (g c : Nat) (range : Bool) (target attempt : Nat) (req : RReq) (tc : Int) (s : State) : SeqStill g s (startOvl g c range target attempt req tc s) := by
  unfold startOvl
  refine Sequenced.only (?_ : SeqStill g s _) (groupGen_only g _) rfl
  exact (Sequenced.refl g s).thenModGrp fun _ => rfl

theorem takeOvl_requeued (g c : Nat) (range : Bool) (target : Nat) (req : RReq) (s : State) : Requeued g s (takeOvl g c range target req s) :=
  (takeRelief_requeued g _ _ _ s).trans (startOvl_seqStill g c range target 0 req _ _).requeued

end Sys2Proof.Machine
end

section
/-! SUPPORT. What a pulsed window leaves of the causes and of the channels, and the window that follows it (R90, R109, R163). -/

namespace Sys2Proof.Machine

/-! ## Operations that end no cause of a group -/

/-- No cause that was latched is lost, and the conditions on the pages of groups are as before. -/
structure Quiet (s t : State) : Prop where
  undisturbed : Undisturbed s t
  cond : ∀ q b u, 0x10 ≤ q → condOn q b u t = condOn q b u s

section
variable {s t u : State}

theorem Quiet.refl (s : State) : Quiet s s := ⟨.refl s, fun _ _ _ _ => rfl⟩

theorem Quiet.trans (h : Quiet s t) (k : Quiet t u) : Quiet s u := ⟨h.undisturbed.trans k.undisturbed, fun q b v hq => (k.cond q b v hq).trans (h.cond q b v hq)⟩

theorem Quiet.of_only {l : List Area} (k : Only l s t) (hl : (l.contains .pages || l.contains .fwl) = false) (hf : l.contains .fab = false) : Quiet s t :=
  ⟨.of_only k hl, fun q b v _ => condOn_only k hf q b v⟩

theorem Quiet.only {l : List Area} (h : Quiet s t) (k : Only l t u) (hl : (l.contains .pages || l.contains .fwl) = false) (hf : l.contains .fab = false) : Quiet s u :=
  h.trans (.of_only k hl hf)

theorem Quiet.ite {c : Prop} [Decidable c] (h : Quiet s t) (k : Quiet s u) : Quiet s (if c then t else u) := by
  split <;> assumption

theorem Quiet.bumpGen (h : Quiet s t) (p : Nat) : Quiet s (bumpGen p t) := ⟨h.undisturbed.bumpGen p, fun q b v hq => (condOn_only (bumpGen_only p t) rfl q b v).trans (h.cond q b v hq)⟩

theorem Quiet.raise (h : Quiet s t) {p : Nat} (hp : p ≠ pgDEV) (bit d : Nat) : Quiet s (raise p bit d t) :=
  ⟨h.undisturbed.raise hp bit d, fun q b v hq => (condOn_raise p bit d t q b v).trans (h.cond q b v hq)⟩

theorem Quiet.condStart (h : Quiet s t) {p : Nat} (hp : p < 0x10) (bit sub : Nat) : Quiet s (condStart p bit sub t) :=
  ⟨h.undisturbed.only (condStart_only p bit sub t) rfl, fun q b v hq => (condOn_condStart_of_ne (fun e => by cases e; omega) t).trans (h.cond q b v hq)⟩

theorem Quiet.condEnd (h : Quiet s t) {p : Nat} (hp : p < 0x10) (bit sub : Nat) : Quiet s (condEnd p bit sub t) :=
  ⟨h.undisturbed.only (condEnd_only p bit sub t) rfl, fun q b v hq => ((condOn_condEnd p bit sub t).2 q b v fun e => by cases e; omega).trans (h.cond q b v hq)⟩

end

theorem modGrp_quiet (g : Nat) (f : Group → Group) (s : State) : Quiet s (modGrp g f s) := .of_only (modGrp_only g f s) rfl rfl

theorem judgeExtrap_quiet (g : Nat) (s : State) : Quiet s (judgeExtrap g s) := by
  unfold judgeExtrap
  dsimp only
  split
  · exact .ite (.refl s) (((modGrp_quiet g _ s).condStart (by decide) _ _).raise (by decide) _ _)
  · exact .ite ((modGrp_quiet g _ s).condEnd (by decide) _ _) (.refl s)

theorem cancelOvl_quiet (g : Nat) (s : State) : Quiet s (cancelOvl g s) := by
  have hdrop (u : State) : Quiet u (dropOvl g u) := ((modGrp_quiet g _ u).trans (modGrp_quiet g _ _)).bumpGen _
  exact ((modGrp_quiet g _ s).trans (hdrop _)).trans (judgeExtrap_quiet g _)

theorem abandonSlice_quiet (k : Nat) (s : State) : Quiet s (abandonSlice k s) := by
  have hended (f : Isl → Isl) (b : Bst → Bst) : Quiet s (endSlice k 3 ((modIsl k f s).modBst b)) :=
    (((Quiet.refl s).only (modIsl_only k f s) rfl rfl).only (modBst_only b _) rfl rfl).only (endSlice_only k 3 _) rfl rfl
  unfold abandonSlice
  dsimp only
  exact .ite (.ite (hended _ _) (((hended _ _).condStart (by decide) _ _).raise (by decide) _ _)) (hended _ _)

theorem dropTask_quiet (g : Nat) (s : State) : Quiet s (dropTask g s) := by
  have hrequeue : Quiet s (requeueTat g s) := .of_only (requeueTat_only g s) rfl rfl
  unfold dropTask
  dsimp only
  split
  · exact hrequeue
  · exact abandonSlice_quiet g s
  · split
    · exact (modGrp_quiet g _ s).trans (cancelOvl_quiet g _)
    · exact .refl s
  · exact hrequeue
  · exact .refl s

theorem takeRelief_quiet (g task idx range : Nat) (s : State) : Quiet s (takeRelief g task idx range s) := (dropTask_quiet g s).trans (modGrp_quiet g _ _)

theorem takeOvl_quiet (g c : Nat) (range : Bool) (target : Nat) (req : RReq) (s : State) : Quiet s (takeOvl g c range target req s) :=
  ((takeRelief_quiet g _ _ _ s).trans (modGrp_quiet g _ _)).bumpGen _

/-! ## A range request that goes first (R108, R124) -/

/-- The range request that goes before the next window, if the relief is to be had for one. -/
def queueFirst (g : Nat) (s : State) : State := if (oldestReq g s).isSome ∧ mayTake 4 (grp g s) then serveQueue g s else s

theorem queueFirst_eq (g : Nat) (s : State) : queueFirst g s = s ∨ ∃ r, queueFirst g s = takeOvl g r.ch true r.target r (unqueue g r.ch s) := by
  by_cases h : (oldestReq g s).isSome ∧ mayTake 4 (grp g s)
  · obtain ⟨hreq, hmay⟩ := h
    have hrelief : ¬ (grp g s).relief.isNone = true := by
      rw [mayTake, Bool.and_eq_true, Bool.and_eq_true] at hmay
      simpa [Option.isSome_iff_ne_none] using hmay.1.1
    obtain ⟨r, hr⟩ := Option.isSome_iff_exists.mp hreq
    refine .inr ⟨r, ?_⟩
    rw [queueFirst, if_pos ⟨hreq, hmay⟩, serveQueue, hr]
    exact (if_neg hrelief).trans (if_pos hmay)
  · exact .inl (if_neg h)

theorem queueFirst_requeued (g : Nat) (s : State) : Requeued g s (queueFirst g s) := by
  rcases queueFirst_eq g s with h | ⟨r, h⟩ <;> rw [h]
  · exact .refl g s
  · exact (unqueue_seqStill g r.ch s).requeued.trans (takeOvl_requeued ..)

theorem queueFirst_quiet (g : Nat) (s : State) : Quiet s (queueFirst g s) := by
  rcases queueFirst_eq g s with h | ⟨r, h⟩ <;> rw [h]
  · exact .refl s
  · exact (modGrp_quiet g _ s).trans (takeOvl_quiet ..)

theorem queueFirst_chan (g c : Nat) (s : State) : chan c (queueFirst g s) = chan c s := by
  rcases queueFirst_eq g s with h | ⟨r, h⟩ <;> rw [h]
  exact (chan_congr ((takeOvl_only ..).same .chans (by decide)) c).trans (chan_congr ((unqueue_only ..).same .chans (by decide)) c)

/-! ## The next window (R90, R109, R163) -/

/-- A channel but for whether a window has been pulsed on it. -/
def Chan.unwindowed (x : Chan) : Chan := { x with windowed := false }

/-- A sequencer with one more window under way. -/
def Tat.withWindow (n : Nat) (onRel : Bool) (x : Tat) : Tat := { x with wins := x.wins ++ [⟨n, onRel, true⟩] }

/-- A window under way, before any relief is taken for it. -/
def openWindow (g n : Nat) (onRel : Bool) (s : State) : State := modTat g (Tat.withWindow n onRel) (modChan n (fun x => { x with windowed := true }) s)

theorem startWindow_eq (g n : Nat) (s : State) :
    startWindow g n s = if mayTake 6 (grp g s) then takeRelief g 6 (idxOf n) 0 (openWindow g n true s) else openWindow g n false s := by
  unfold startWindow
  cases mayTake 6 (grp g s) <;> rfl

theorem openWindow_sequenced (g n : Nat) (onRel : Bool) (s : State) : Sequenced g ((tat g s).withWindow n onRel) s (openWindow g n onRel s) :=
  (Sequenced.of_only (modChan_only n _ s) rfl).thenModTat (Tat.withWindow n onRel)

theorem openWindow_chan (g n : Nat) (onRel : Bool) (s : State) :
    ChansAlike Chan.unwindowed s (openWindow g n onRel s) ∧ (chan n (openWindow g n onRel s)).windowed = true := by
  have hchan : ChansAlike Chan.unwindowed s (modChan n (fun x => { x with windowed := true }) s) := .modChan fun _ => rfl
  exact ⟨hchan.next (modTat_only g _ _) rfl, by rw [openWindow, modTat, chan_modGrp, chan_modChan_self]⟩

theorem openWindow_quiet (g n : Nat) (onRel : Bool) (s : State) : Quiet s (openWindow g n onRel s) :=
  (Quiet.of_only (modChan_only n _ s) rfl rfl).only (modTat_only g _ _) rfl rfl

/-- A window of a PULSE begins: on the relief, which then pulses that channel, or on the channel's own converter. -/
structure WindowBegun (g n : Nat) (s t : State) : Prop where
  wins : ∃ b, (tat g t).wins = (tat g s).wins ++ [⟨n, b, true⟩] ∧ (b = true → (grp g t).task = 6 ∧ (grp g t).tgt = idxOf n)
  toPulse : (tat g t).toPulse = (tat g s).toPulse
  oldFrame : (tat g t).oldFrame = (tat g s).oldFrame
  others : ∀ j, j ≠ g → grp j t = grp j s
  windowed : (chan n t).windowed = true

theorem startWindow_begun (g n : Nat) (s : State) : WindowBegun g n s (startWindow g n s) := by
  rw [startWindow_eq]
  split
  · obtain ⟨htat, hothers⟩ := openWindow_sequenced g n true s
    have htake := takeRelief_requeued g 6 (idxOf n) 0 (openWindow g n true s)
    have hgrp : grp g (takeRelief g 6 (idxOf n) 0 (openWindow g n true s)) = { grp g (dropTask g (openWindow g n true s)) with task := 6, tgt := idxOf n, trange := 0 } :=
      grp_modGrp_self _ g _
    exact ⟨⟨true, htake.seq.wins.trans (by rw [htat]; rfl), fun _ => by rw [hgrp]; exact ⟨rfl, rfl⟩⟩, htake.seq.toPulse.trans (by rw [htat]; rfl),
      htake.seq.oldFrame.trans (by rw [htat]; rfl), fun j hj => (htake.others j hj).trans (hothers j hj),
      (congrArg Chan.windowed (chan_congr ((takeRelief_only ..).same .chans (by decide)) n)).trans (openWindow_chan g n true s).2⟩
  · obtain ⟨htat, hothers⟩ := openWindow_sequenced g n false s
    exact ⟨⟨false, by rw [htat]; rfl, fun h => absurd h (by decide)⟩, by rw [htat]; rfl, by rw [htat]; rfl, hothers, (openWindow_chan g n false s).2⟩

theorem startWindow_unwindowed (g n : Nat) (s : State) : ChansAlike Chan.unwindowed s (startWindow g n s) := by
  rw [startWindow_eq]
  exact .ite ((openWindow_chan g n true s).1.next (takeRelief_only ..) rfl) (openWindow_chan g n false s).1

theorem startWindow_quiet (g n : Nat) (s : State) : Quiet s (startWindow g n s) := by
  rw [startWindow_eq]
  exact .ite ((openWindow_quiet g n true s).trans (takeRelief_quiet ..)) (openWindow_quiet g n false s)

/-! ## What follows a window (R163) -/

/-- The PULSE under way goes on with the channels still to be pulsed, or the program goes on. -/
def pulseOn (g : Nat) (s : State) : State :=
  match (tat g s).toPulse with
  | n :: rest => startWindow g n (modTat g (fun t => { t with toPulse := rest }) s)
  | [] =>
    match (tat g s).task with
    | some w => if tatOp w = 4 then tatNext g s else s
    | none => s

theorem nextWindow_eq (g : Nat) (s : State) : nextWindow g s = pulseOn g (queueFirst g s) := rfl

theorem pulseOn_unwindowed (g : Nat) (s : State) : ChansAlike Chan.unwindowed s (pulseOn g s) := by
  unfold pulseOn
  split
  · exact (ChansAlike.of_only (modTat_only g _ s) rfl).trans (startWindow_unwindowed g _ _)
  · split
    · exact .ite (.of_only (tatNext_only g s) rfl) (.refl s)
    · exact .refl s

theorem pulseOn_quiet (g : Nat) (s : State) : Quiet s (pulseOn g s) := by
  unfold pulseOn
  split
  · exact (Quiet.of_only (modTat_only g _ s) rfl rfl).trans (startWindow_quiet g _ _)
  · split
    · exact .ite (.of_only (tatNext_only g s) rfl rfl) (.refl s)
    · exact .refl s

theorem nextWindow_unwindowed (g : Nat) (s : State) : ChansAlike Chan.unwindowed s (nextWindow g s) := fun j => by
  rw [nextWindow_eq, pulseOn_unwindowed, queueFirst_chan]

theorem nextWindow_quiet (g : Nat) (s : State) : Quiet s (nextWindow g s) := (queueFirst_quiet g s).trans (pulseOn_quiet g _)

/-- After a window the next channel's begins. -/
theorem nextWindow_next {g n : Nat} {rest : List Nat} {s : State} (h : (tat g s).toPulse = n :: rest) : let t := nextWindow g s
    (∃ b, (tat g t).wins = (tat g s).wins ++ [⟨n, b, true⟩] ∧ (b = true → (grp g t).task = 6 ∧ (grp g t).tgt = idxOf n)) ∧
    (tat g t).toPulse = rest ∧ (tat g t).oldFrame = (tat g s).oldFrame ∧ (∀ j, j ≠ g → grp j t = grp j s) ∧ (chan n t).windowed = true := by
  have hfirst := queueFirst_requeued g s
  obtain ⟨htat, hothers⟩ := modTat_sequenced g (fun t => { t with toPulse := rest }) (queueFirst g s)
  have hbegun := startWindow_begun g n (modTat g (fun t => { t with toPulse := rest }) (queueFirst g s))
  have hnext : nextWindow g s = startWindow g n (modTat g (fun t => { t with toPulse := rest }) (queueFirst g s)) := by
    rw [nextWindow_eq, pulseOn, hfirst.seq.toPulse, h]
  obtain ⟨b, hwins, htask⟩ := hbegun.wins
  dsimp only
  rw [hnext]
  refine ⟨⟨b, hwins.trans ?_, htask⟩, hbegun.toPulse.trans ?_, hbegun.oldFrame.trans ?_,
    fun j hj => (hbegun.others j hj).trans ((hothers j hj).trans (hfirst.others j hj)), hbegun.windowed⟩
  · rw [htat, ← hfirst.seq.wins]
  · rw [htat]
  · rw [htat, ← hfirst.seq.oldFrame]

/-- After the last window the program goes on. -/
theorem nextWindow_last {g : Nat} {w : Word} {s : State} (h : (tat g s).toPulse = []) (hw : (tat g s).task = some w) (hop : tatOp w = 4) : let t := nextWindow g s
    (tat g t).wins = (tat g s).wins ∧ (tat g t).task = none ∧ (tat g t).pc = (tat g s).pc + 1 ∧ (tat g t).oldFrame = (tat g s).oldFrame ∧ ∀ j, j ≠ g → grp j t = grp j s := by
  have hfirst := queueFirst_requeued g s
  have hoff : ∀ v, (tat g s).task = some v → onRelief v = false := fun v hv => by
    cases hw.symm.trans hv
    simp [onRelief, hop]
  obtain ⟨htask, hpc⟩ := hfirst.seq.stands hoff
  obtain ⟨htat, hothers⟩ := modTat_sequenced g (fun t => { t with pc := t.pc + 1, task := none, wait := none, skip := false }) (queueFirst g s)
  have hnext : nextWindow g s = tatNext g (queueFirst g s) := by
    rw [nextWindow_eq, pulseOn, hfirst.seq.toPulse, h]
    dsimp only
    rw [htask, hw]
    exact if_pos hop
  dsimp only
  rw [hnext, tatNext]
  refine ⟨?_, ?_, ?_, ?_, fun j hj => (hothers j hj).trans (hfirst.others j hj)⟩ <;> rw [htat]
  · exact hfirst.seq.wins
  · rw [hpc]
  · exact hfirst.seq.oldFrame

end Sys2Proof.Machine
end

section
/-! PROOF. Tattoo frames, windows and results (R95, R96, R156, R157, R161, R163, R165, R172). -/

namespace Sys2Proof.Machine

/-! ## A frame start (R156, R157, R161, R163) -/

/-- Whether a frame that has ended lacks the window that a channel needed. -/
def lacksWindow (x : Tat) (s : State) (c : Nat) : Bool :=
  x.framed && decide (eCls (chan c s).w ≠ 0) && decide (eBo (chan c s).w = 2) && !(chan c s).windowed

theorem lacksWindow_congr {s t : State} (h : t.chans = s.chans) (x : Tat) : lacksWindow x t = lacksWindow x s :=
  funext fun c => by rw [lacksWindow, chan_congr h, lacksWindow]

/-- First an overrun is counted and raised. -/
def frameOverrun (g : Nat) (s : State) : State :=
  if (tat g s).run then raiseOnce (pgGroup g) tatOVERRUN 0 0 (modTat g (fun t => { t with cntOvr := (t.cntOvr + 1) % 65536 }) s) else s

/-- Then, deferred requests dropped, the frame without a required window is counted. -/
def frameSkip (lacks : Nat → Bool) (g : Nat) (s : State) : State :=
  if (groupSlots g).any (lacks) then modTat g (fun t => { t with cntSkip := (t.cntSkip + 1) % 65536 }) (dropAllDeferred g (frameOverrun g s))
  else dropAllDeferred g (frameOverrun g s)

/-- A channel at a frame start. -/
def Chan.reframed (miss : Bool) (x : Chan) : Chan := { x with windowed := false, missed := if miss then x.missed + 1 else x.missed }

/-- No window of the new frame is pulsed yet. -/
def frameWindows (lacks : Nat → Bool) (g : Nat) (s : State) : State := (groupSlots g).foldl (fun u c => modChan c (Chan.reframed (lacks c)) u) (frameSkip lacks g s)

/-- A sequencer whose frame has ended, overrun or not, lacking a required window or not. -/
def Tat.frameEnded (lacks : Bool) (drops : Nat) (x : Tat) : Tat :=
  { x with cntOvr := if x.run then (x.cntOvr + 1) % 65536 else x.cntOvr, deferred := [], cntDrop := drops, cntSkip := if lacks then (x.cntSkip + 1) % 65536 else x.cntSkip }

/-- The number of the frame that begins. -/
def frameNumber (g : Nat) (s : State) : Nat :=
  if frameUs (tat g s).frame = 0 then 0 else (s.tim.sec * nsPerSec + s.tim.ns) / (frameUs (tat g s).frame * 1000)

/-- A sequencer at word 0 of a frame. -/
def Tat.begun (at_ : Int) (n : Nat) (x : Tat) : Tat :=
  { detachTask x with run := true, pc := 0, wait := none, skip := false, loops := [], defs := 0, framed := true, frameAt := at_, frameNo := n }

section
variable (g : Nat) (s : State)

theorem frameOverrun_sequenced :
    Sequenced g { tat g s with cntOvr := if (tat g s).run then ((tat g s).cntOvr + 1) % 65536 else (tat g s).cntOvr } s (frameOverrun g s) := by
  unfold frameOverrun
  split
  · exact (modTat_sequenced g (fun t => { t with cntOvr := (t.cntOvr + 1) % 65536 }) s).only (raiseOnce_only _ _ _ _ _) rfl
  · exact .refl g s

theorem frameOverrun_only : Only (reporting [.grps]) s (frameOverrun g s) := .ite (Only.next (raiseOnce_only _ _ _ _ _) rfl ((modTat_only g _ s).mono rfl)) (.refl _ s)

theorem frameOverrun_latched (hg : g < 24) (hr : (tat g s).run = true) (hc : condOn (pgGroup g) tatOVERRUN 0 s = false) :
    Latched (pgGroup g) tatOVERRUN (frameOverrun g s) := by
  rw [frameOverrun, if_pos hr]
  exact raiseOnce_latched _ _ _ (evOf_pgGroup hg _) (by decide) ((condOn_only (modTat_only g _ s) rfl _ _ _).trans hc)

variable (lacks : Nat → Bool)

theorem frameSkip_sequenced : ∃ n, Sequenced g ((tat g s).frameEnded ((groupSlots g).any (lacks)) n) s (frameSkip lacks g s) := by
  have hovr := frameOverrun_sequenced g s
  obtain ⟨n, hdrop⟩ := dropAllDeferred_sequenced g (frameOverrun g s)
  rw [hovr.1] at hdrop
  have h : Sequenced g ((tat g s).frameEnded false n) s (dropAllDeferred g (frameOverrun g s)) := ⟨hdrop.1, fun j hj => (hdrop.2 j hj).trans (hovr.2 j hj)⟩
  refine ⟨n, ?_⟩
  unfold frameSkip
  cases (groupSlots g).any (lacks) with
  | false => exact h
  | true => exact h.thenModTat fun t => { t with cntSkip := (t.cntSkip + 1) % 65536 }

theorem frameSkip_only : Only (reporting [.grps]) s (frameSkip lacks g s) := by
  have hdrop := Only.next (dropAllDeferred_only g _) rfl (frameOverrun_only g s)
  exact .ite (Only.next (modTat_only _ _ _) rfl hdrop) hdrop

theorem frameWindows_only : Only [.chans] (frameSkip lacks g s) (frameWindows lacks g s) := .foldl (fun u c => modChan_only c _ u) _ _

theorem chan_frameWindows (j : Nat) : chan j (frameWindows lacks g s) = if j ∈ groupSlots g then (chan j s).reframed (lacks j) else chan j s := by
  have hskip := chan_congr ((frameSkip_only g s lacks).same .chans (by decide)) j
  have hother (t : State) (_ : True) (j k : Nat) (hj : j ≠ k) : chan j (modChan k (Chan.reframed (lacks k)) t) = chan j t := chan_modChan_of_ne t hj _
  split
  · next hj =>
    obtain ⟨t, -, ht, hafter⟩ := unit_foldl_of_mem (P := fun _ => True) (s := frameSkip lacks g s) (fun _ _ _ => trivial) hother trivial (groupSlots_nodup g) hj
    rw [frameWindows, hafter, chan_modChan_self, ht, hskip]
  · next hj => exact (unit_foldl_of_not_mem (P := fun _ => True) (fun _ _ _ => trivial) hother trivial hj).trans hskip

theorem frameWindows_undisturbed : Undisturbed (frameOverrun g s) (frameWindows lacks g s) := by
  have hdrop := dropAllDeferred_undisturbed g (frameOverrun g s)
  exact (Undisturbed.ite (hdrop.only (modTat_only g _ _) rfl) hdrop).only (frameWindows_only g s lacks) rfl

end

theorem frameStart_runs {g : Grp} {s : State} (hx : s.fuse.hx000 = false) (hs : s.pwr.stopped = false) : Runs (.frameStart g) s (reporting [.grps, .chans]) fun t =>
    t = modTat g.val (Tat.begun (nowTk s) (frameNumber g.val s)) (frameWindows (lacksWindow (tat g.val s) s) g.val s) := by
  have hchans : (dropAllDeferred g.val (frameOverrun g.val s)).chans = s.chans :=
    ((dropAllDeferred_only g.val _).same .chans (by decide)).trans ((frameOverrun_only g.val s).same .chans (by decide))
  have hnow : nowTk (frameWindows (lacksWindow (tat g.val s) s) g.val s) = nowTk s :=
    nowTk_congr (((frameWindows_only g.val s _).same .tim (by decide)).trans ((frameSkip_only g.val s _).same .tim (by decide)))
  have hu : (if s.pwr.stopped then s else modTat g.val (Tat.begun (nowTk (frameWindows (lacksWindow (tat g.val s) (dropAllDeferred g.val (frameOverrun g.val s))) g.val s))
        (frameNumber g.val s)) (frameWindows (lacksWindow (tat g.val s) (dropAllDeferred g.val (frameOverrun g.val s))) g.val s)) =
      modTat g.val (Tat.begun (nowTk s) (frameNumber g.val s)) (frameWindows (lacksWindow (tat g.val s) s) g.val s) := by
    rw [if_neg (ne_true_of_eq_false hs), lacksWindow_congr hchans, hnow]
  exact .of_analogue hx (fun _ => rfl) hu
    (Only.next (modTat_only _ _ _) rfl (Only.next (frameWindows_only g.val s _) rfl ((frameSkip_only g.val s _).mono rfl))) rfl

/-- The sequencer and the channels of a group at a frame start. -/
theorem frameStart_done {g : Nat} (hg : g < 24) (s : State) : let t := modTat g (Tat.begun (nowTk s) (frameNumber g s)) (frameWindows (lacksWindow (tat g s) s) g s)
    (∃ n d, Sequenced g { (tat g s).frameEnded ((groupSlots g).any (lacksWindow (tat g s) s)) n with
      run := true, pc := 0, wait := none, task := none, skip := false, loops := [], toPulse := [], wins := (tat g s).wins.map cutWin, deferRun := d, defs := 0, framed := true,
      frameAt := nowTk s, frameNo := frameNumber g s } s t) ∧
    (∀ j, chan j t = if j ∈ groupSlots g then (chan j s).reframed (lacksWindow (tat g s) s j) else chan j s) ∧
    ((tat g s).run = true → condOn (pgGroup g) tatOVERRUN 0 s = false → Latched (pgGroup g) tatOVERRUN t) := by
  dsimp only
  obtain ⟨n, hskip⟩ := frameSkip_sequenced g s (lacksWindow (tat g s) s)
  obtain ⟨d, hd⟩ := detachTask_eq ((tat g s).frameEnded ((groupSlots g).any (lacksWindow (tat g s) s)) n)
  have hbegun := (hskip.only (frameWindows_only g s _) rfl).thenModTat (Tat.begun (nowTk s) (frameNumber g s))
  rw [Tat.begun, hd] at hbegun
  refine ⟨⟨n, d, hbegun⟩, fun j => chan_frameWindows g s _ j, fun hr hc => ?_⟩
  exact ((frameWindows_undisturbed g s _).stay (frameOverrun_latched g s hg hr hc)).only (modTat_only g _ _) rfl

/-! ## Deferred requests (R161) -/

/-- The range the relief runs at for a Tattoo word. -/
def tatRange (w : Word) : Nat := if tatOp w = 3 then 3 else if tatOp w = 5 then wbits w 20 2 else 0

/-- The channel index that the relief names for a Tattoo word. -/
def tatIdx (g : Nat) (w : Word) (s : State) : Nat :=
  if tatOp w = 3 then (match leadChan g (wbit w 27) (wbits w 0 4) s with
    | some c => idxOf c
    | none => 0) else 0

theorem takeTat_eq (g : Nat) (w : Word) (s : State) : takeTat g w s = takeRelief g (tatTask w) (tatIdx g w s) (tatRange w) s := by
  unfold takeTat
  split
  · next h =>
    rw [tatTask, tatIdx, tatRange, h]
    cases leadChan g (wbit w 27) (wbits w 0 4) s <;> rfl
  · next h => rw [tatTask, tatIdx, tatRange, h, if_neg (by decide), if_neg (by decide), if_neg (by decide), if_pos rfl]
  · next h3 h5 => rw [tatTask, tatIdx, tatRange, if_neg h3, if_neg h3, if_neg h3, if_neg h5]

/-- No task gives the relief up where none holds it, or where a calibration does that no Tattoo request stands on. -/
theorem dropTask_of_free {g : Nat} {s : State} (h : (grp g s).holder = 0 ∨ ((grp g s).holder = 1 ∧ tatHolds g s = false)) : dropTask g s = s := by
  have hfwin : (grp g s).holder ≠ 8 → (grp g s).holder = (grp g s).task := fun h8 => by
    cases hw : (grp g s).fwin
    · rw [Group.holder, hw, if_neg Bool.false_ne_true]
    · exact absurd (by rw [Group.holder, hw, if_pos rfl]) h8
  rcases h with h | ⟨h, hholds⟩
  · rw [dropTask, ← hfwin (by omega), h]
    rfl
  · rw [tatHolds, Bool.or_eq_false_iff] at hholds
    rw [dropTask, ← hfwin (by omega), h]
    change requeueTat g s = s
    rw [requeueTat, Option.not_isSome_iff_eq_none.mp (ne_true_of_eq_false hholds.1)]
    cases ht : (tat g s).task with
    | none => rfl
    | some w =>
      have hoff := hholds.2
      rw [ht] at hoff
      exact if_neg (ne_true_of_eq_false hoff)

/-- A deferred request leaves the list and takes the relief. -/
def runDeferred (g : Nat) (w : Word) (r : List Word) (s : State) : State :=
  modTat g (fun t => { t with deferRun := some w }) (takeTat g w (modTat g (fun t => { t with deferred := r }) s))

/-- On a relief that no task has to give up. -/
theorem runDeferred_of_free {g : Nat} {s : State} (hh : (grp g s).holder = 0 ∨ ((grp g s).holder = 1 ∧ tatHolds g s = false)) (w : Word) (r : List Word) :
    Only [.grps] s (runDeferred g w r s) ∧ Becomes grp g { grp g s with
      tat := { tat g s with deferred := r, deferRun := some w }, task := tatTask w, tgt := tatIdx g w s, trange := tatRange w } s (runDeferred g w r s) := by
  have hrest := becomes_modGrp g (fun x => { x with tat := { x.tat with deferred := r } }) s
  have htake : takeTat g w (modTat g (fun t => { t with deferred := r }) s) =
      modGrp g (fun x => { x with task := tatTask w, tgt := tatIdx g w s, trange := tatRange w }) (modTat g (fun t => { t with deferred := r }) s) := by
    have hheld : (grp g (modTat g (fun t => { t with deferred := r }) s)).holder = 0 ∨
        ((grp g (modTat g (fun t => { t with deferred := r }) s)).holder = 1 ∧ tatHolds g (modTat g (fun t => { t with deferred := r }) s) = false) := by
      rw [tatHolds, tat, modTat, grp_modGrp_self]
      exact hh
    rw [takeTat_eq, takeRelief, dropTask_of_free hheld]
    rfl
  rw [runDeferred, htake]
  exact ⟨Only.next (modTat_only _ _ _) rfl (Only.next (modGrp_only _ _ _) rfl (modTat_only g _ s)),
    (hrest.thenModGrp fun x => { x with task := tatTask w, tgt := tatIdx g w s, trange := tatRange w }).thenModGrp fun x => { x with tat := { x.tat with deferRun := some w } }⟩

section
variable {g : Grp} {s : State} {w : Word} {r : List Word} (hx : s.fuse.hx000 = false) (hd : (tat g.val s).deferred = w :: r)
include hx hd

theorem exec_tatDeferredRun : exec (.tatDeferredRun g) s = .next
    (if skipped g.val w s then modTat g.val (fun t => { t with cntSkip := (t.cntSkip + 1) % 65536 }) (modTat g.val (fun t => { t with deferred := r }) s)
     else if (grp g.val s).freed.isNone && (decide ((grp g.val s).holder = 0) || (decide ((grp g.val s).holder = 1) && !tatHolds g.val s)) then runDeferred g.val w r s
     else s) := by
  change execTatDeferredRun g s = _
  rw [execTatDeferredRun, analogue, hx, if_neg Bool.false_ne_true]
  dsimp only
  rw [show (grp g.val s).tat.deferred = _ from hd]
  rfl

theorem tatDeferredRun_skipped_runs (hk : skipped g.val w s = true) : Runs (.tatDeferredRun g) s [.grps] fun t =>
    Sequenced g.val { tat g.val s with deferred := r, cntSkip := ((tat g.val s).cntSkip + 1) % 65536 } s t :=
  .of_only (exec_tatDeferredRun hx hd) (if_pos hk) (Only.next (modTat_only _ _ _) rfl (modTat_only g.val _ s))
    ((modTat_sequenced g.val (fun t => { t with deferred := r }) s).thenModTat fun t => { t with cntSkip := (t.cntSkip + 1) % 65536 })

variable (hk : skipped g.val w s = false)
include hk

theorem tatDeferredRun_busy_runs (hb : ¬ ((grp g.val s).freed = none ∧ ((grp g.val s).holder = 0 ∨ ((grp g.val s).holder = 1 ∧ tatHolds g.val s = false)))) :
    Runs (.tatDeferredRun g) s [] fun t => t = s :=
  .of_only (exec_tatDeferredRun hx hd) ((if_neg (ne_true_of_eq_false hk)).trans (if_neg (by simpa using hb))) (.refl _ s) rfl

theorem tatDeferredRun_runs (hf : (grp g.val s).freed = none) (hh : (grp g.val s).holder = 0 ∨ ((grp g.val s).holder = 1 ∧ tatHolds g.val s = false)) :
    Runs (.tatDeferredRun g) s [.grps] fun t => Becomes grp g.val { grp g.val s with
      tat := { tat g.val s with deferred := r, deferRun := some w }, task := tatTask w, tgt := tatIdx g.val w s, trange := tatRange w } s t := by
  obtain ⟨honly, hgrp⟩ := runDeferred_of_free hh w r
  exact .of_only (exec_tatDeferredRun hx hd) ((if_neg (ne_true_of_eq_false hk)).trans (if_pos (by simpa [hf] using hh))) honly hgrp

end

/-! ## Excitation measured (R165) -/

/-- The result of an EXCM kept, and told where it lies beyond 2 % of nominal. -/
def excKept (g mv : Nat) (s : State) : State :=
  let u := bumpGen pgTAT (modTat g (fun t => { t with excMv := mv % 65536, excUp := some s.tim.up }) s)
  if 2 * (grp g s).excMv < (mv - (grp g s).excMv + ((grp g s).excMv - mv)) * 100 then groupRaise g tatREJ 6 u else u

/-- A sequencer with the result of an EXCM. -/
def Tat.measured (mv up : Nat) (x : Tat) : Tat := { x with excMv := mv % 65536, excUp := some up }

/-- The distance of a result from nominal, in naturals and in integers. -/
theorem distance_eq (a b : Nat) : a - b + (b - a) = ((a : Int) - b).natAbs := by omega

section
variable (g mv : Nat) (s : State)

theorem excKept_sequenced : Sequenced g ((tat g s).measured mv s.tim.up) s (excKept g mv s) := by
  have h := (modTat_sequenced g (Tat.measured mv s.tim.up) s).only (bumpGen_only pgTAT _) rfl
  exact .ite (h.only (groupRaise_only _ _ _ _) rfl) h

theorem excKept_only : Only (reporting [.grps]) s (excKept g mv s) := by
  have h : Only [.grps, .pages] s (bumpGen pgTAT (modTat g (Tat.measured mv s.tim.up) s)) := Only.next (bumpGen_only pgTAT _) rfl ((modTat_only g _ s).mono rfl)
  exact .ite (Only.next (groupRaise_only _ _ _ _) rfl (h.mono rfl)) (h.mono rfl)

variable {g mv s}

theorem excKept_within (h : ¬ 2 * (grp g s).excMv < ((mv : Int) - (grp g s).excMv).natAbs * 100) : Only [.grps, .pages] s (excKept g mv s) := by
  rw [← distance_eq] at h
  rw [excKept, if_neg h]
  exact Only.next (bumpGen_only pgTAT _) rfl ((modTat_only g (Tat.measured mv s.tim.up) s).mono rfl)

theorem excKept_beyond (hg : g < 24) (h : 2 * (grp g s).excMv < ((mv : Int) - (grp g s).excMv).natAbs * 100) : Latched (pgGroup g) tatREJ (excKept g mv s) := by
  rw [← distance_eq] at h
  rw [excKept, if_pos h]
  exact raise_latched _ _ (evOf_pgGroup hg _) (by decide)

end

/-- The result of an EXCM is kept, and the relief free. -/
theorem exec_excmDone {g : GGrp} {s : State} {w : Word} (mv : Nat) (hx : s.fuse.hx000 = false) (ht : (grp g.val s).task = 1) (hop : tatOp w = 6)
    (hw : (match (tat g.val s).deferRun with
      | some w => w
      | none => ((tat g.val s).task).getD 0) = w) : exec (.excmDone g mv) s = .next (tatDone g.val (freeRelief g.val (excKept g.val mv s))) := by
  change execExcmDone g mv s = _
  rw [execExcmDone, analogue, hx, if_neg Bool.false_ne_true]
  refine congrArg _ (if_neg ?_)
  rw [not_or, not_not, not_not]
  exact ⟨ht, (congrArg tatOp hw).trans hop⟩

section
variable {g : GGrp} {s : State} {w : Word} {mv : Nat} (hx : s.fuse.hx000 = false) (ht : (grp g.val s).task = 1) (hop : tatOp w = 6)
include hx ht hop

/-- What an EXCM leaves but for the sequencer: the frame, and T_EXCDEV where the result lies beyond 2 % of nominal. -/
theorem excmDone_runs {x : Tat} (hw : (match (tat g.val s).deferRun with
      | some w => w
      | none => ((tat g.val s).task).getD 0) = w)
    (hdone : ∀ u, tat g.val u = (tat g.val s).measured mv s.tim.up → Sequenced g.val x u (tatDone g.val u)) :
    let far := 2 * (grp g.val s).excMv < ((mv : Int) - (grp g.val s).excMv).natAbs * 100
    Runs (.excmDone g mv) s (reporting [.grps]) (fun t => Sequenced g.val x s t ∧ (far → Latched (pgGroup g.val) tatREJ t)) ∧
    (¬ far → Runs (.excmDone g mv) s [.grps, .pages] (Sequenced g.val x s)) := by
  have hkept := excKept_sequenced g.val mv s
  obtain ⟨hfree, hfreed⟩ := hkept.trans (freeRelief_seqStill g.val (excKept g.val mv s))
  obtain ⟨hself, hothers⟩ := hdone _ hfree
  have hseq : Sequenced g.val x s (tatDone g.val (freeRelief g.val (excKept g.val mv s))) := ⟨hself, fun j hj => (hothers j hj).trans (hfreed j hj)⟩
  have hafter : Only [.grps] (excKept g.val mv s) (tatDone g.val (freeRelief g.val (excKept g.val mv s))) := Only.next (tatDone_only _ _) rfl (freeRelief_only _ _)
  refine ⟨.of_only (exec_excmDone mv hx ht hop hw) rfl ((excKept_only g.val mv s).trans (hafter.mono rfl)) ⟨hseq, fun hfar => ?_⟩,
    fun hnear => .of_only (exec_excmDone mv hx ht hop hw) rfl ((excKept_within hnear).trans (hafter.mono rfl)) hseq⟩
  exact (excKept_beyond (show g.val < 24 by omega) hfar).only hafter rfl

end

/-- A deferred task on the relief has ended. -/
theorem tatDone_of_deferRun {g : Nat} {x : Tat} {u : State} (h : tat g u = x) (hr : x.deferRun.isSome = true) : Sequenced g { x with deferRun := none } u (tatDone g u) := by
  subst h
  rw [tatDone, if_pos hr]
  exact modTat_sequenced g (fun t => { t with deferRun := none }) u

/-- The task the sequencer stands on has ended. -/
theorem tatDone_of_task {g : Nat} {x : Tat} {u : State} (h : tat g u = x) (hr : x.deferRun = none) (ht : x.task.isSome = true) :
    Sequenced g { x with pc := x.pc + 1, task := none, wait := none, skip := false } u (tatDone g u) := by
  subst h
  rw [tatDone, if_neg (by rw [hr]; decide), if_pos ht]
  exact modTat_sequenced g (fun t => { t with pc := t.pc + 1, task := none, wait := none, skip := false }) u

/-! ## A pulsed window ends (R95, R96, R157, R163, R172) -/

/-- A sequencer without a window that has ended; the first of a new program ends the hold of the old frame. -/
def Tat.withoutWindow (k : PWin) (x : Tat) : Tat := { x with wins := x.wins.erase k, oldFrame := if k.mine then none else x.oldFrame }

/-- The window ends, and the relief that ran it is free. -/
def windowEnded (g : Nat) (k : PWin) (s : State) : State :=
  let u := modTat g (Tat.withoutWindow k) s
  if k.onRel ∧ (grp g u).task = 6 then freeRelief g u else u

/-- Whether a window finds its input open: by the movement on the relief, by the rail on the channel's own converter. -/
def foundOpen (k : PWin) (x : Chan) (mv : Int) (rail : Bool) : Bool :=
  if k.onRel then (if eDown x.w then decide (mv < -((wbits (ew x.w 3) 16 8 * 10 : Nat) : Int)) else decide (((wbits (ew x.w 3) 16 8 * 10 : Nat) : Int) < mv)) else rail

/-- The window is judged where its channel still has burn-out by pulses. -/
def windowJudged (g c : Nat) (k : PWin) (open_ : Bool) (s : State) : State :=
  if eCls (chan c s).w = 0 ∨ eBo (chan c s).w ≠ 2 then windowEnded g k s else judgeWindow c open_ (windowEnded g k s)

section
variable {g : Nat} {k : PWin} {s : State}

theorem windowEnded_only : Only [.grps] s (windowEnded g k s) := by
  have h := modTat_only g (Tat.withoutWindow k) s
  exact .ite (Only.next (freeRelief_only _ _) rfl h) h

theorem windowEnded_sequenced : Sequenced g ((tat g s).withoutWindow k) s (windowEnded g k s) := by
  have h := modTat_sequenced g (Tat.withoutWindow k) s
  exact .ite (h.trans (freeRelief_seqStill g _)) h

/-- The relief that ran a window names no channel any more. -/
theorem windowEnded_tgt (hr : k.onRel = true) (ht : (grp g s).task = 6) : (grp g (windowEnded g k s)).tgt = 0 := by
  obtain ⟨n, hself, -⟩ := freeRelief_becomes g (modTat g (Tat.withoutWindow k) s)
  have ht' : (grp g (modTat g (Tat.withoutWindow k) s)).task = 6 := by rw [modTat, grp_modGrp_self, ht]
  rw [windowEnded, if_pos ⟨hr, ht'⟩, hself]
  rfl

variable {c : Nat} {open_ : Bool}

theorem windowJudged_only : Only (reporting [.chans, .grps]) s (windowJudged g c k open_ s) := by
  have h := (windowEnded_only (g := g) (k := k) (s := s)).mono (m := reporting [.chans, .grps]) rfl
  exact .ite h (Only.next (judgeWindow_only _ _ _) rfl h)

theorem windowJudged_sequenced (hg : grpOf c = g) : Sequenced g ((tat g s).withoutWindow k) s (windowJudged g c k open_ s) := by
  have h := windowEnded_sequenced (g := g) (k := k) (s := s)
  exact .ite h (h.trans (hg ▸ judgeWindow_seqStill c open_ _))

end

theorem endOpen_brkEnd (c : Nat) (t : Int) (s : State) : (chan c (endOpen c t s)).brkEnd = some t := by
  have hmod := becomes_modChan c (fun x => { x with brkEnd := some t, off := 0, rail := 0, mon := 0 }) s
  unfold endOpen
  dsimp only
  split
  · rw [hmod.1]
  · have hshut := ((hmod.thenModChan fun x => { x with isOpen := false }).chan_only (bumpGen_only pgCHW _) rfl).chan_only (condEnd_only (pgGroup (grpOf c)) inOPEN c _) rfl
    rw [closedNow, (inputCause_becomes ..).1, hshut.1]
    rfl

/-! ## The judgement of a window (R95, R96) -/

/-- The channel's part of a judgement that supervision leaves. -/
theorem Chan.core_pulse {x y : Chan} (h : x.core = y.core) : x.missed = y.missed ∧ x.pulseOk = y.pulseOk := ⟨(congrArg Chan.missed h :), (congrArg Chan.pulseOk h :)⟩

/-- The channel's part of a judgement, a hard switch aside. -/
theorem Chan.unswitched_open {x y : Chan} (h : x.unswitched = y.unswitched) :
    x.missed = y.missed ∧ x.pulseOk = y.pulseOk ∧ x.isOpen = y.isOpen ∧ x.brkEnd = y.brkEnd ∧ x.brk = y.brk :=
  ⟨(congrArg Chan.missed h :), (congrArg Chan.pulseOk h :), (congrArg Chan.isOpen h :), (congrArg Chan.brkEnd h :), (congrArg Chan.brk h :)⟩

/-- A window whose input is connected: it was measured just now, and an open state that goes on ends. -/
theorem judgeWindow_closed (c : Nat) (s : State) : let t := judgeWindow c false s
    (chan c t).missed = 0 ∧ (chan c t).pulseOk = some (nowTk s) ∧ ((chan c s).isOpen = true → (chan c s).brkEnd = none → (chan c t).brkEnd = some (nowTk s)) := by
  have hnow : nowTk (modChan c (fun y => { y with missed := 0, pulseOk := some (nowTk s) }) s) = nowTk s := nowTk_congr rfl
  have hmod := chan_modChan_self s c fun y => { y with missed := 0, pulseOk := some (nowTk s) }
  have hcore : ChansAlike Chan.core (modChan c (fun y => { y with missed := 0, pulseOk := some (nowTk s) }) s) (judgeWindow c false s) := .ite (endOpen_core c _ _) (.refl _)
  obtain ⟨hmissed, hok⟩ := Chan.core_pulse (hcore c)
  refine ⟨hmissed.trans (by rw [hmod]), hok.trans (by rw [hmod]), fun hopen hend => ?_⟩
  have hjudge : judgeWindow c false s = endOpen c (nowTk s) (modChan c (fun y => { y with missed := 0, pulseOk := some (nowTk s) }) s) :=
    if_pos ⟨hopen, by rw [hend]; rfl⟩
  rw [hjudge, endOpen_brkEnd]

/-- A window whose input is open: the input opens, from the last window that found it connected on, or stays open. -/
theorem judgeWindow_open {c : Nat} (hc : c < 320) (s : State) : let t := judgeWindow c true s
    (chan c t).missed = 0 ∧ (chan c t).pulseOk = (chan c s).pulseOk ∧ (chan c t).isOpen = true ∧ (chan c t).brkEnd = none ∧
    ((chan c s).isOpen = false → (chan c t).brk = some ((chan c s).pulseOk.getD 0) ∧ condOn (pgGroup (grpOf c)) inOPEN c t = true ∧
      (wbit (chan c s).latched inOPEN = false → Latched (pgGroup (grpOf c)) inOPEN t)) := by
  have hmod := chan_modChan_self s c fun y => { y with missed := 0, pulseOk := y.pulseOk }
  cases hopen : (chan c s).isOpen with
  | true =>
    have hjudge : judgeWindow c true s = modChan c (fun y => { y with brkEnd := none }) (modChan c (fun y => { y with missed := 0, pulseOk := y.pulseOk }) s) := if_pos hopen
    dsimp only
    rw [hjudge, chan_modChan_self, hmod]
    exact ⟨rfl, rfl, hopen, rfl, fun h => absurd h (by decide)⟩
  | false =>
    have hjudge : judgeWindow c true s = openDecision c ((chan c s).pulseOk.getD 0) (modChan c (fun y => { y with missed := 0, pulseOk := y.pulseOk }) s) :=
      if_neg (ne_true_of_eq_false hopen)
    have hchan := openDecision_chan c ((chan c s).pulseOk.getD 0) (modChan c (fun y => { y with missed := 0, pulseOk := y.pulseOk }) s)
    rw [hmod] at hchan
    obtain ⟨hmissed, hok, hisOpen, hend, hbrk⟩ := Chan.unswitched_open hchan
    dsimp only
    rw [hjudge]
    refine ⟨hmissed, hok, hisOpen, hend, fun _ => ⟨hbrk, condOn_openDecision .., fun hl => openDecision_latched hc ?_⟩⟩
    rw [hmod]
    exact hl

/-! ## The end of a window (R157, R163) -/

theorem foundOpen_iff (k : PWin) (x : Chan) (mv : Int) (rail : Bool) : foundOpen k x mv rail = true ↔
    (if k.onRel then (if eDown x.w then mv < -((wbits (ew x.w 3) 16 8 * 10 : Nat) : Int) else ((wbits (ew x.w 3) 16 8 * 10 : Nat) : Int) < mv) else rail = true) := by
  unfold foundOpen
  split
  · split <;> rw [decide_eq_true_iff]
  · rfl

theorem grpOf_slotAt {g i : Nat} (hi : i < groupSize g) : grpOf (slotAt g i) = g := by
  unfold groupSize at hi
  unfold grpOf slotAt
  split at hi <;> split <;> split <;> omega

theorem slotAt_lt {g i : Nat} (hg : g < 16) (hi : i < 16) : slotAt g i < 320 := by
  rw [slotAt, if_pos hg]
  omega

/-- What a window's judgement says of its channel holds after whatever follows the window. -/
structure Judged (c : Nat) (open_ : Bool) (s t : State) : Prop where
  missed : (chan c t).missed = 0
  closed : open_ = false → (chan c t).pulseOk = some (nowTk s) ∧ ((chan c s).isOpen = true → (chan c s).brkEnd = none → (chan c t).brkEnd = some (nowTk s))
  opened : open_ = true → (chan c t).pulseOk = (chan c s).pulseOk ∧ (chan c t).isOpen = true ∧ (chan c t).brkEnd = none ∧
    ((chan c s).isOpen = false → (chan c t).brk = some ((chan c s).pulseOk.getD 0) ∧ condOn (pgGroup (grpOf c)) inOPEN c t = true ∧
      (wbit (chan c s).latched inOPEN = false → Latched (pgGroup (grpOf c)) inOPEN t))

theorem judgeWindow_judged {c : Nat} (hc : c < 320) (open_ : Bool) {s u : State} (hu : Only [.grps] s u) : Judged c open_ s (judgeWindow c open_ u) := by
  have hchan := chan_congr (hu.same .chans (by decide)) c
  have hnow := nowTk_congr (hu.same .tim (by decide))
  cases open_ with
  | false =>
    have h := judgeWindow_closed c u
    rw [hchan, hnow] at h
    exact ⟨h.1, fun _ => h.2, fun h => absurd h (by decide)⟩
  | true =>
    have h := judgeWindow_open hc u
    rw [hchan] at h
    exact ⟨h.1, fun h => absurd h (by decide), fun _ => h.2⟩

theorem Chan.unwindowed_open {x y : Chan} (h : x.unwindowed = y.unwindowed) :
    x.missed = y.missed ∧ x.pulseOk = y.pulseOk ∧ x.isOpen = y.isOpen ∧ x.brkEnd = y.brkEnd ∧ x.brk = y.brk :=
  ⟨(congrArg Chan.missed h :), (congrArg Chan.pulseOk h :), (congrArg Chan.isOpen h :), (congrArg Chan.brkEnd h :), (congrArg Chan.brk h :)⟩

/-- The next window takes nothing of it back. -/
theorem Judged.nextWindow {c g : Nat} {open_ : Bool} {s t : State} (h : Judged c open_ s t) : Judged c open_ s (nextWindow g t) := by
  obtain ⟨hmissed, hok, hopen, hend, hbrk⟩ := Chan.unwindowed_open (nextWindow_unwindowed g t c)
  have hquiet := nextWindow_quiet g t
  have hcond := hquiet.cond (pgGroup (grpOf c)) inOPEN c (by rw [pgGroup]; omega)
  refine ⟨hmissed.trans h.missed, fun hf => ?_, fun ht => ?_⟩
  · rw [hok, hend]
    exact h.closed hf
  · rw [hok, hopen, hend, hbrk, hcond]
    obtain ⟨hok', hopen', hend', hnew⟩ := h.opened ht
    exact ⟨hok', hopen', hend', fun hs => ⟨(hnew hs).1, (hnew hs).2.1, fun hl => hquiet.undisturbed.stay ((hnew hs).2.2 hl)⟩⟩

section
variable {g : GGrp} {ch : Fin 16} {mv : Int} {rail : Bool} {k : PWin} {s : State} (hx : s.fuse.hx000 = false)
include hx

theorem pulseWindowDone_none_runs (hk : (tat g.val s).wins.find? (·.ch = slotAt g.val ch.val) = none) : Runs (.pulseWindowDone g ch mv rail) s [] fun t => t = s :=
  .of_analogue hx (fun _ => rfl) (by dsimp only; rw [hk]) (.refl _ s) rfl

variable (hk : (tat g.val s).wins.find? (·.ch = slotAt g.val ch.val) = some k)
include hk

theorem exec_pulseWindowDone : exec (.pulseWindowDone g ch mv rail) s = .next
    (if k.mine then nextWindow g.val (windowJudged g.val (slotAt g.val ch.val) k (foundOpen k (chan (slotAt g.val ch.val) s) mv rail) s)
     else windowJudged g.val (slotAt g.val ch.val) k (foundOpen k (chan (slotAt g.val ch.val) s) mv rail) s) := by
  change execPulseWindowDone g ch mv rail s = _
  rw [execPulseWindowDone, analogue, hx, if_neg Bool.false_ne_true]
  dsimp only
  rw [hk]
  rfl

/-- What the end of a window reaches. -/
theorem pulseWindowDone_runs {P : State → Prop} (hp : ∀ u, u = windowJudged g.val (slotAt g.val ch.val) k (foundOpen k (chan (slotAt g.val ch.val) s) mv rail) s →
    P (if k.mine then nextWindow g.val u else u)) : Runs (.pulseWindowDone g ch mv rail) s (reporting [.bst, .chans, .grps]) P := by
  have h := (windowJudged_only (g := g.val) (c := slotAt g.val ch.val) (k := k) (open_ := foundOpen k (chan (slotAt g.val ch.val) s) mv rail) (s := s)).mono
    (m := reporting [.bst, .chans, .grps]) rfl
  exact .of_only (exec_pulseWindowDone hx hk) rfl (.ite (Only.next (nextWindow_only _ _) rfl h) h) (hp _ rfl)

/-- A window of an earlier program on a channel that has burn-out by pulses no more just ends. -/
theorem pulseWindowDone_cut_runs (hm : k.mine = false) (hj : ¬ (eCls (chan (slotAt g.val ch.val) s).w ≠ 0 ∧ eBo (chan (slotAt g.val ch.val) s).w = 2)) :
    Runs (.pulseWindowDone g ch mv rail) s [.grps] fun t => t = windowEnded g.val k s := by
  have hunused : eCls (chan (slotAt g.val ch.val) s).w = 0 ∨ eBo (chan (slotAt g.val ch.val) s).w ≠ 2 := by
    rwa [not_and_or, not_not] at hj
  exact .of_only (exec_pulseWindowDone hx hk) ((if_neg (ne_true_of_eq_false hm)).trans (if_pos hunused)) windowEnded_only rfl

omit hx hk in
/-- The sequencer once the window is judged. -/
theorem windowJudged_tat (open_ : Bool) : Sequenced g.val ((tat g.val s).withoutWindow k) s (windowJudged g.val (slotAt g.val ch.val) k open_ s) := by
  have hsize : groupSize g.val = 16 := if_pos g.isLt
  exact windowJudged_sequenced (grpOf_slotAt (by omega))

theorem pulseWindowDone_last_runs {w : Word} (hm : k.mine = true) (hp : (tat g.val s).toPulse = []) (hw : (tat g.val s).task = some w) (hop : tatOp w = 4) :
    Runs (.pulseWindowDone g ch mv rail) s (reporting [.bst, .chans, .grps]) fun t =>
      (tat g.val t).wins = (tat g.val s).wins.erase k ∧ (tat g.val t).task = none ∧ (tat g.val t).pc = (tat g.val s).pc + 1 ∧ (tat g.val t).oldFrame = none ∧
      ∀ j, j ≠ g.val → grp j t = grp j s := by
  refine pulseWindowDone_runs hx hk fun u hu => ?_
  obtain ⟨htat, hothers⟩ := windowJudged_tat (g := g) (k := k) (s := s) (foundOpen k (chan (slotAt g.val ch.val) s) mv rail)
  rw [← hu] at htat hothers
  obtain ⟨hwins, htask, hpc, hold, hrest⟩ := nextWindow_last (g := g.val) (s := u) (by rw [htat]; exact hp) (by rw [htat]; exact hw) hop
  rw [if_pos hm]
  refine ⟨hwins.trans (by rw [htat]; rfl), htask, hpc.trans (by rw [htat]; rfl), hold.trans ?_, fun j hj => (hrest j hj).trans (hothers j hj)⟩
  rw [htat]
  exact if_pos hm

theorem pulseWindowDone_next_runs {n : Nat} {rest : List Nat} (hm : k.mine = true) (hp : (tat g.val s).toPulse = n :: rest) :
    Runs (.pulseWindowDone g ch mv rail) s (reporting [.bst, .chans, .grps]) fun t => (tat g.val t).toPulse = rest ∧
      (∃ b, (tat g.val t).wins = (tat g.val s).wins.erase k ++ [⟨n, b, true⟩] ∧ (b = true → (grp g.val t).task = 6 ∧ (grp g.val t).tgt = idxOf n)) ∧
      (chan n t).windowed = true ∧ (tat g.val t).oldFrame = none ∧ ∀ j, j ≠ g.val → grp j t = grp j s := by
  refine pulseWindowDone_runs hx hk fun u hu => ?_
  obtain ⟨htat, hothers⟩ := windowJudged_tat (g := g) (k := k) (s := s) (foundOpen k (chan (slotAt g.val ch.val) s) mv rail)
  rw [← hu] at htat hothers
  obtain ⟨⟨b, hwins, htask⟩, hrest, hold, hgrps, hwindowed⟩ := nextWindow_next (g := g.val) (s := u) (n := n) (rest := rest) (by rw [htat]; exact hp)
  rw [if_pos hm]
  refine ⟨hrest, ⟨b, hwins.trans (by rw [htat]; rfl), htask⟩, hwindowed, hold.trans ?_, fun j hj => (hgrps j hj).trans (hothers j hj)⟩
  rw [htat]
  exact if_pos hm

theorem pulseWindowDone_judged_runs (hj : eCls (chan (slotAt g.val ch.val) s).w ≠ 0 ∧ eBo (chan (slotAt g.val ch.val) s).w = 2) :
    Runs (.pulseWindowDone g ch mv rail) s (reporting [.bst, .chans, .grps])
      (Judged (slotAt g.val ch.val) (foundOpen k (chan (slotAt g.val ch.val) s) mv rail) s) := by
  refine pulseWindowDone_runs hx hk fun u hu => ?_
  have hjudged : u = judgeWindow (slotAt g.val ch.val) (foundOpen k (chan (slotAt g.val ch.val) s) mv rail) (windowEnded g.val k s) :=
    hu.trans (if_neg (by rw [not_or, not_not]; exact hj))
  have h := judgeWindow_judged (slotAt_lt g.isLt ch.isLt) (foundOpen k (chan (slotAt g.val ch.val) s) mv rail) (windowEnded_only (g := g.val) (k := k) (s := s))
  rw [← hjudged] at h
  split
  · exact h.nextWindow
  · exact h

end

/-- Settles O18: a frame start, a deferred request, an EXCM and the end of a pulsed window by the sequencer they leave, the judgement by the channel's state. -/
theorem tattooFramesWindowsAndResults : Obligations.TattooFramesWindowsAndResults := by
  unfold Obligations.TattooFramesWindowsAndResults
  intro g gg ch mv exc rail w k s hx v x c y kept lacks done dv met judged out ends
  refine ⟨fun hs => ?_, fun r hr => ?_, pulseWindowDone_none_runs hx, fun hk => ⟨fun hm hj => ?_, pulseWindowDone_last_runs hx hk, fun n rest => pulseWindowDone_next_runs hx hk, fun hj => ?_⟩,
    fun ht hop => ?_⟩
  · refine (frameStart_runs hx hs).imp fun t ht => ?_
    subst ht
    obtain ⟨⟨n, d, htat, hothers⟩, hchans, hlatched⟩ := frameStart_done g.isLt s
    rw [htat]
    exact ⟨rfl, rfl, rfl, rfl, rfl, rfl, rfl, rfl, rfl, rfl, rfl, rfl, rfl, rfl, fun j hj => (hchans j).trans (if_pos hj), fun j hj => (hchans j).trans (if_neg hj), hlatched, hothers⟩
  · intro may
    refine ⟨fun hk hmay => (tatDeferredRun_runs hx hr hk hmay.1 hmay.2).imp fun t ht => ?_, fun hk hbusy => tatDeferredRun_busy_runs hx hr hk hbusy,
      fun hk => (tatDeferredRun_skipped_runs hx hr hk).imp fun t ht => ?_⟩
    · obtain ⟨hself, hothers⟩ := ht
      rw [show tat g.val t = _ from congrArg Group.tat hself, hself]
      refine ⟨rfl, rfl, rfl, rfl, rfl, fun c hop hc => ?_, hothers⟩
      dsimp only
      rw [tatIdx, if_pos hop, hc]
    · obtain ⟨htat, hothers⟩ := ht
      rw [htat]
      exact ⟨rfl, rfl, rfl, hothers⟩
  · refine (pulseWindowDone_cut_runs hx hk hm hj).imp fun t ht => ?_
    subst ht
    obtain ⟨htat, hothers⟩ := windowEnded_sequenced (g := gg.val) (k := k) (s := s)
    rw [htat]
    exact ⟨rfl, rfl, rfl, rfl, if_neg (ne_true_of_eq_false hm), windowEnded_tgt, hothers⟩
  · have hmet : foundOpen k y mv rail = true ↔ met := foundOpen_iff k y mv rail
    exact (pulseWindowDone_judged_runs hx hk hj).imp fun t ht =>
      ⟨ht.missed, fun hn => ht.closed (by rw [← Bool.not_eq_true, hmet]; exact hn), fun hm => ht.opened (hmet.mpr hm)⟩
  · intro far
    have htask (hd : x.deferRun = none) (hw : x.task = some w) := excmDone_runs (mv := exc) hx ht hop (by rw [hd, hw]; rfl) fun u hu =>
      tatDone_of_task hu hd (by rw [show ((tat gg.val s).measured exc s.tim.up).task = _ from hw]; rfl)
    have hdefer (hd : x.deferRun = some w) := excmDone_runs (mv := exc) hx ht hop (by rw [hd]) fun u hu =>
      tatDone_of_deferRun hu (by rw [show ((tat gg.val s).measured exc s.tim.up).deferRun = _ from hd]; rfl)
    have hdone {t : State} {z : Tat} (h : Sequenced gg.val z s t) (hmv : z.excMv = exc % 65536) (hup : z.excUp = some s.tim.up) : done t := ⟨h.1 ▸ hmv, h.1 ▸ hup, h.2⟩
    refine ⟨fun hd hw => (htask hd hw).1.imp fun t h => ?_, fun hd => (hdefer hd).1.imp fun t h => ?_, fun hd hw hnear => ((htask hd hw).2 hnear).imp fun t h => ?_⟩
    · obtain ⟨hseq, hfar⟩ := h
      refine ⟨hdone hseq rfl rfl, ?_⟩
      rw [hseq.1]
      exact ⟨rfl, rfl, hfar⟩
    · obtain ⟨hseq, hfar⟩ := h
      refine ⟨hdone hseq rfl rfl, ?_⟩
      rw [hseq.1]
      exact ⟨rfl, rfl, hfar⟩
    · refine ⟨hdone h rfl rfl, ?_⟩
      rw [h.1]
      exact ⟨rfl, rfl⟩

end Sys2Proof.Machine
end

section
/-! SUPPORT. Overloads, the synthesisers and lead steps (R75, R76, R134, R142, R154). -/

namespace Sys2Proof.Machine

/-! ## Overloads (R142, R153, R154) -/

/-- Overload intervals with one more, those a second old forgotten. -/
def keepOverloads (conv : Nat) (a b now : Int) (l : List (Nat × Int × Int)) : List (Nat × Int × Int) := (conv, a, b) :: l.filter fun p => decide (now < p.2.2 + secTk)

/-- A group with one more overload counted. -/
def Group.overload (conv : Nat) (a b now : Int) (y : Group) : Group := { y with ovls := keepOverloads conv a b now y.ovls, ovCnt := (y.ovCnt + 1) % 65536 }

/-- Which channel a converter serves rests on the channels, and on the group's relief and overlap. -/
theorem servedBy_congr {g : Nat} {s t : State} (hc : t.chans = s.chans) (hr : (grp g t).relief = (grp g s).relief) (ho : (grp g t).ovl = (grp g s).ovl) (conv : Nat) :
    servedBy g conv t = servedBy g conv s := by
  simp only [servedBy, dutyChan, chan_congr hc, hr, ho]

/-- An overload is kept and counted. -/
def countOverload (g conv : Nat) (a b : Int) (s : State) : State := modGrp g (fun x => { x with ovCnt := (x.ovCnt + 1) % 65536 }) (addOverload g conv a b s)

theorem addOverload_becomes (g conv : Nat) (a b : Int) (s : State) :
    Becomes grp g { grp g s with ovls := keepOverloads conv a b (nowTk s) (grp g s).ovls } s (addOverload g conv a b s) := becomes_modGrp g _ s

theorem countOverload_becomes (g conv : Nat) (a b : Int) (s : State) : Becomes grp g ((grp g s).overload conv a b (nowTk s)) s (countOverload g conv a b s) :=
  (addOverload_becomes g conv a b s).thenModGrp fun x => { x with ovCnt := (x.ovCnt + 1) % 65536 }

theorem countOverload_only (g conv : Nat) (a b : Int) (s : State) : Only [.grps] s (countOverload g conv a b s) :=
  Only.next (modGrp_only _ _ _) rfl (addOverload_only g conv a b s)

section
variable {g : Grp} {conv : Fin 17} {start stop : Nat} {s : State} (hx : s.fuse.hx000 = false)
include hx

theorem modulatorReset_runs : Runs (.modulatorReset g conv start stop) s [.grps]
    (Becomes grp g.val { grp g.val s with ovls := keepOverloads conv.val start stop (nowTk s) (grp g.val s).ovls } s) :=
  .of_analogue hx (fun _ => rfl) rfl (addOverload_only ..) (addOverload_becomes ..)

theorem exec_modOverload : exec (.modOverload g conv start stop) s = .next (match servedBy g.val conv.val s with
    | some c => raiseOnce (pgGroup g.val) relMODOVL c (convDetail conv.val (idxOf c)) (modGrp g.val (fun x => { x with ovCh := idxOf c })
        (countOverload g.val conv.val start stop s))
    | none => countOverload g.val conv.val start stop s) := by
  obtain ⟨hself, -⟩ := countOverload_becomes g.val conv.val start stop s
  have hserved : servedBy g.val conv.val (countOverload g.val conv.val start stop s) = servedBy g.val conv.val s :=
    servedBy_congr ((countOverload_only ..).same .chans (by decide)) (by rw [hself]; rfl) (by rw [hself]; rfl) _
  rw [← hserved]
  change execModOverload g conv start stop s = _
  rw [execModOverload, analogue, hx, if_neg Bool.false_ne_true]
  rfl

theorem modOverload_unserved_runs (h : servedBy g.val conv.val s = none) : Runs (.modOverload g conv start stop) s [.grps]
    (Becomes grp g.val ((grp g.val s).overload conv.val start stop (nowTk s)) s) :=
  .of_only (exec_modOverload hx) (by rw [h]) (countOverload_only ..) (countOverload_becomes ..)

theorem modOverload_served_runs {c : Nat} (h : servedBy g.val conv.val s = some c) (hc : condOn (pgGroup g.val) relMODOVL c s = false) :
    Runs (.modOverload g conv start stop) s (reporting [.grps]) fun t =>
      Becomes grp g.val { (grp g.val s).overload conv.val start stop (nowTk s) with ovCh := idxOf c } s t ∧ Latched (pgGroup g.val) relMODOVL t := by
  have hkept := Only.next (modGrp_only g.val (fun x => { x with ovCh := idxOf c }) _) rfl (countOverload_only g.val conv.val start stop s)
  exact .of_only (exec_modOverload hx) (by rw [h]) (Only.next (raiseOnce_only _ _ _ _ _) rfl (hkept.mono rfl))
    ⟨((countOverload_becomes ..).thenModGrp fun x => { x with ovCh := idxOf c }).grp_only (raiseOnce_only _ _ _ _ _) rfl,
      raiseOnce_latched _ _ _ (evOf_pgGroup g.isLt _) (by decide) ((condOn_only hkept rfl _ _ _).trans hc)⟩

end

/-! ## Synthesisers (R134) -/

/-- Bad comparisons in a row of one die's synthesiser. -/
def Srv.bad (east : Bool) (v : Srv) : Nat := if east then v.synBad.2 else v.synBad.1

/-- Good comparisons in a row of one die's synthesiser. -/
def Srv.good (east : Bool) (v : Srv) : Nat := if east then v.synGood.2 else v.synGood.1

/-- A comparison of one die's synthesiser. -/
def Srv.compared (east bad : Bool) (err : Int) (v : Srv) : Srv :=
  if east then { v with synErr := (v.synErr.1, err), synBad := (v.synBad.1, if bad then v.synBad.2 + 1 else 0), synGood := (v.synGood.1, if bad then 0 else v.synGood.2 + 1) }
  else { v with synErr := (err, v.synErr.2), synBad := (if bad then v.synBad.1 + 1 else 0, v.synBad.2), synGood := (if bad then 0 else v.synGood.1 + 1, v.synGood.2) }

/-- The pair of counts in which the one of a die is now `n`. -/
def setDie (east : Bool) (p : Nat × Nat) (n : Nat) : Nat × Nat := if east then (p.1, n) else (n, p.2)

theorem Srv.compared_counts (east bad : Bool) (err : Int) (v : Srv) :
    (v.compared east bad err).synBad = setDie east v.synBad (if bad then v.bad east + 1 else 0) ∧
    (v.compared east bad err).synGood = setDie east v.synGood (if bad then 0 else v.good east + 1) := by
  cases east <;> exact ⟨rfl, rfl⟩

theorem Srv.compared_bad (east bad : Bool) (err : Int) (v : Srv) : (v.compared east bad err).bad east = if bad then v.bad east + 1 else 0 := by
  cases east <;> rfl

theorem Srv.compared_good (east bad : Bool) (err : Int) (v : Srv) : (v.compared east bad err).good east = if bad then 0 else v.good east + 1 := by
  cases east <;> rfl

/-- The cause of a die's synthesiser. -/
def synBit (east : Bool) : Nat := if east then srvSYNE else srvSYNW

section
variable {east : Bool} {err : Int} {s : State} (hx : s.fuse.hx000 = false)
include hx

theorem exec_synPhaseCompare : exec (.synPhaseCompare east err) s = .next
    (if 16 ≤ (s.srv.compared east (decide (640 < err.natAbs)) err).bad east then raiseOnce pgSRV (synBit east) 0 0 (s.modSrv (Srv.compared east (decide (640 < err.natAbs)) err))
     else if 16 ≤ (s.srv.compared east (decide (640 < err.natAbs)) err).good east then
       condEnd pgSRV (synBit east) 0 (s.modSrv (Srv.compared east (decide (640 < err.natAbs)) err))
     else s.modSrv (Srv.compared east (decide (640 < err.natAbs)) err)) := by
  change execSynPhaseCompare east err s = _
  rw [execSynPhaseCompare, analogue, hx, if_neg Bool.false_ne_true]
  rfl

theorem synPhaseCompare_bad_runs (hb : 640 < err.natAbs) (hc : condOn pgSRV (synBit east) 0 s = false) : Runs (.synPhaseCompare east err) s (reporting [.srv]) fun t =>
    t.srv.synBad = setDie east s.srv.synBad (s.srv.bad east + 1) ∧ t.srv.synGood = setDie east s.srv.synGood 0 ∧ (15 ≤ s.srv.bad east → Latched pgSRV (synBit east) t) := by
  obtain ⟨hbad, hgood⟩ := s.srv.compared_counts east true err
  have hmod := modSrv_only (Srv.compared east true err) s
  have hev : evOf pgSRV (synBit east) ≠ none ∧ synBit east < 32 := by cases east <;> decide
  have hraise := raiseOnce_only pgSRV (synBit east) 0 0 (s.modSrv (Srv.compared east true err))
  have he := exec_synPhaseCompare (east := east) (err := err) hx
  rw [decide_eq_true hb, Srv.compared_bad, Srv.compared_good, if_pos rfl, if_pos rfl] at he
  by_cases h : 16 ≤ s.srv.bad east + 1
  · refine .of_only he (if_pos h) (Only.next hraise rfl (hmod.mono rfl)) ⟨?_, ?_, fun _ => ?_⟩
    · rw [hraise.same .srv (by decide)]
      exact hbad
    · rw [hraise.same .srv (by decide)]
      exact hgood
    · exact raiseOnce_latched _ _ _ hev.1 hev.2 ((condOn_only hmod rfl _ _ _).trans hc)
  · exact .of_only he ((if_neg h).trans (if_neg (by decide))) (hmod.mono rfl) ⟨hbad, hgood, fun h' => absurd (by omega) h⟩

theorem synPhaseCompare_good_runs (hb : ¬ 640 < err.natAbs) : Runs (.synPhaseCompare east err) s [.srv, .fab] fun t =>
    t.srv.synBad = setDie east s.srv.synBad 0 ∧ t.srv.synGood = setDie east s.srv.synGood (s.srv.good east + 1) ∧
    (15 ≤ s.srv.good east → condOn pgSRV (synBit east) 0 t = false) := by
  obtain ⟨hbad, hgood⟩ := s.srv.compared_counts east false err
  have hmod := modSrv_only (Srv.compared east false err) s
  have hend := condEnd_only pgSRV (synBit east) 0 (s.modSrv (Srv.compared east false err))
  have he := exec_synPhaseCompare (east := east) (err := err) hx
  rw [decide_eq_false hb, Srv.compared_bad, Srv.compared_good, if_neg Bool.false_ne_true, if_neg Bool.false_ne_true, if_neg (by decide)] at he
  by_cases h : 16 ≤ s.srv.good east + 1
  · refine .of_only he (if_pos h) (Only.next hend rfl (hmod.mono rfl)) ⟨?_, ?_, fun _ => (condOn_condEnd ..).1⟩
    · rw [hend.same .srv (by decide)]
      exact hbad
    · rw [hend.same .srv (by decide)]
      exact hgood
  · exact .of_only he (if_neg h) (hmod.mono rfl) ⟨hbad, hgood, fun h' => absurd (by omega) h⟩

end

/-! ## Lead steps (R75, R76) -/

/-- A Tattoo task that ends changes nothing of the group but its sequencer. -/
theorem tatDone_becomes (g : Nat) (s : State) : ∃ x, Becomes grp g { grp g s with tat := x } s (tatDone g s) := by
  have hsame : Becomes grp g { grp g s with tat := (grp g s).tat } s s := .refl grp g s
  unfold tatDone
  split
  · exact ⟨_, becomes_modGrp g (fun x => { x with tat := { x.tat with deferRun := none } }) s⟩
  · split
    · exact ⟨_, becomes_modGrp g (fun x => { x with tat := { x.tat with pc := x.tat.pc + 1, task := none, wait := none, skip := false } }) s⟩
    · exact ⟨_, hsame⟩

/-- A lead step over: the relief free, the Tattoo task ended. -/
theorem leadOver_becomes (g : Nat) (s : State) : ∃ n x, Becomes grp g { (grp g s).relieved n with tat := x } s (tatDone g (freeRelief g s)) := by
  obtain ⟨n, hfree⟩ := freeRelief_becomes g s
  obtain ⟨x, hdone⟩ := tatDone_becomes g (freeRelief g s)
  exact ⟨n, x, hfree.andThen (fun y => { y with tat := x }) hdone⟩

theorem leadOver_only (g : Nat) (s : State) : Only [.grps] s (tatDone g (freeRelief g s)) := Only.next (tatDone_only _ _) rfl (freeRelief_only _ _)

/-- A channel with one more lead measurement. -/
def Chan.leadMeasured (nv : Int) (up : Nat) (x : Chan) : Chan := { x with leads := (nv :: x.leads).take 4, leadAt := up, stale := false }

/-- A lead measurement kept, from an instant on. -/
def keepLead (g c : Nat) (nv b : Int) (s : State) : State :=
  condEnd (pgGroup g) inLEADSTALE c (modChan c (fun y => leadFrom (if hasGrid y.w then b else nowTk s) y (y.leadMeasured nv s.tim.up)) s)

theorem keepLead_becomes (g c : Nat) (nv b : Int) (s : State) : ∃ l, Becomes chan c { (chan c s).leadMeasured nv s.tim.up with leadsOld := l } s (keepLead g c nv b s) := by
  have h := (becomes_modChan c (fun y => leadFrom (if hasGrid y.w then b else nowTk s) y (y.leadMeasured nv s.tim.up)) s).chan_only (condEnd_only (pgGroup g) inLEADSTALE c _) rfl
  obtain ⟨l, hl⟩ := leadFrom_eq (if hasGrid (chan c s).w then b else nowTk s) (chan c s) ((chan c s).leadMeasured nv s.tim.up)
  exact ⟨l, hl ▸ h⟩

section
variable {g : GGrp} {nv : Int} {isOver : Bool} {s : State} (hx : s.fuse.hx000 = false) (ht : (grp g.val s).task = 5)
include hx ht

theorem leadStepDone_repeat_runs (ho : isOver = true) (hr : (grp g.val s).trange = 3) (hc : (chan (slotAt g.val (grp g.val s).tgt) s).isOpen = false) :
    Runs (.leadStepDone g nv isOver) s [.grps] (Becomes grp g.val { grp g.val s with trange := 2 } s) :=
  .of_analogue hx (fun _ => rfl) ((if_neg (not_not_intro ht)).trans (if_pos ⟨ho, hr, by rw [hc]; rfl⟩)) (modGrp_only g.val _ s) (becomes_modGrp g.val _ s)

theorem leadStepDone_kept_runs (ho : ¬ (isOver = true ∧ (grp g.val s).trange = 3)) (hc : (chan (slotAt g.val (grp g.val s).tgt) s).isOpen = false) :
    Runs (.leadStepDone g nv isOver) s [.fab, .chans, .grps] fun t =>
      (∃ l, Becomes chan (slotAt g.val (grp g.val s).tgt) { (chan (slotAt g.val (grp g.val s).tgt) s).leadMeasured nv s.tim.up with leadsOld := l } s t) ∧
      condOn (pgGroup g.val) inLEADSTALE (slotAt g.val (grp g.val s).tgt) t = false ∧ (grp g.val t).tgt = 0 ∧ (grp g.val t).trange = 0 := by
  generalize hlc : slotAt g.val (grp g.val s).tgt = lc at hc ⊢
  have hkept : Only [.fab, .chans] s (keepLead g.val lc nv ((nowTk s).fdiv (perOf lc s) * perOf lc s + perOf lc s) s) :=
    Only.next (condEnd_only _ _ _ _) rfl ((modChan_only _ _ s).mono rfl)
  have hover := leadOver_only g.val (keepLead g.val lc nv ((nowTk s).fdiv (perOf lc s) * perOf lc s + perOf lc s) s)
  obtain ⟨l, hlead⟩ := keepLead_becomes g.val lc nv ((nowTk s).fdiv (perOf lc s) * perOf lc s + perOf lc s) s
  obtain ⟨n, x, hgrp, -⟩ := leadOver_becomes g.val (keepLead g.val lc nv ((nowTk s).fdiv (perOf lc s) * perOf lc s + perOf lc s) s)
  have he : exec (.leadStepDone g nv isOver) s = .next (tatDone g.val (freeRelief g.val (keepLead g.val lc nv ((nowTk s).fdiv (perOf lc s) * perOf lc s + perOf lc s) s))) := by
    change execLeadStepDone g nv isOver s = _
    rw [execLeadStepDone, analogue, hx, if_neg Bool.false_ne_true]
    dsimp only
    rw [if_neg (not_not_intro ht), if_neg fun h => ho ⟨h.1, h.2.1⟩, hlc, hc, if_neg Bool.false_ne_true]
    rfl
  refine .of_only he rfl (Only.next hover rfl (hkept.mono rfl)) ⟨⟨l, hlead.chan_only hover rfl⟩, (condOn_only hover rfl _ _ _).trans (condOn_condEnd ..).1, ?_, ?_⟩ <;> rw [hgrp] <;> rfl

theorem leadStepDone_open_runs (hc : (chan (slotAt g.val (grp g.val s).tgt) s).isOpen = true) : Runs (.leadStepDone g nv isOver) s [.grps] fun t =>
    (grp g.val t).tgt = 0 ∧ (grp g.val t).trange = 0 ∧ ∀ j, j ≠ g.val → grp j t = grp j s := by
  obtain ⟨n, x, hgrp, hothers⟩ := leadOver_becomes g.val s
  have he : exec (.leadStepDone g nv isOver) s = .next (tatDone g.val (freeRelief g.val s)) := by
    change execLeadStepDone g nv isOver s = _
    rw [execLeadStepDone, analogue, hx, if_neg Bool.false_ne_true]
    dsimp only
    rw [if_neg (not_not_intro ht), if_neg (by simp [hc]), if_pos hc]
  exact .of_only he rfl (leadOver_only g.val s) ⟨by rw [hgrp]; rfl, by rw [hgrp]; rfl, hothers⟩

end

theorem leadStaleTimer_runs {c : Chn} {s : State} (hx : s.fuse.hx000 = false) (h3 : is3Wire (chan c.val s).w = true)
    (ho : (chan c.val s).leadAt + 16 * wbits (ew (chan c.val s).w 3) 8 8 * 10000000 < s.tim.up) (hc : condOn (pgGroup (grpOf c.val)) inLEADSTALE c.val s = false) :
    Runs (.leadStaleTimer c) s (reporting [.chans]) fun t => Becomes chan c.val (({ chan c.val s with stale := true } : Chan).caused inLEADSTALE) s t ∧
      condOn (pgGroup (grpOf c.val)) inLEADSTALE c.val t = true ∧ (wbit (chan c.val s).latched inLEADSTALE = false → Latched (pgGroup (grpOf c.val)) inLEADSTALE t) := by
  obtain ⟨honly, hchan, hcond, hlatched⟩ := inputEpisode (bit := inLEADSTALE) (fun y => { y with stale := true }) s c.isLt (by decide)
  exact .of_analogue hx (fun _ => rfl) (if_pos ⟨h3, ho, hc⟩) honly ⟨hchan, hcond, hlatched⟩

end Sys2Proof.Machine
end

section
/-! SUPPORT. The first sample of a group, and what a coarse sample leaves in a channel's history (R54, R143–R145, R188). -/

namespace Sys2Proof.Machine

/-! ## The first sample of a group (R188) -/

/-- A group but for its campaign. -/
def Group.calm (x : Group) : Group := { x with begun := false, due := [], camp := false, task := 0, blocked := false, blkRaised := false }

/-- Every group is as before but for its campaign. -/
def CalmKept (s t : State) : Prop := ∀ j, (grp j t).calm = (grp j s).calm

section
variable {s t u : State}

theorem CalmKept.refl (s : State) : CalmKept s s := fun _ => rfl

theorem CalmKept.trans (h : CalmKept s t) (k : CalmKept t u) : CalmKept s u := fun j => (k j).trans (h j)

theorem CalmKept.of_only {l : List Area} (h : Only l s t) (hl : l.contains .grps = false) : CalmKept s t := fun j => by rw [grp_congr (h.same .grps (by simpa using hl))]

theorem CalmKept.ite {c : Prop} [Decidable c] (h : CalmKept s t) (k : CalmKept s u) : CalmKept s (if c then t else u) := by
  split <;> assumption

theorem CalmKept.modGrp {f : Group → Group} {g : Nat} (hf : ∀ x, (f x).calm = x.calm) : CalmKept s (modGrp g f s) := fun j => by
  by_cases hj : j = g
  · rw [hj, grp_modGrp_self, hf]
  · rw [grp_modGrp_of_ne s hj]

end

theorem blockCamp_calm (g : Nat) (s : State) : CalmKept s (blockCamp g s) := fun j => by
  obtain ⟨hself, hothers⟩ := blockCamp_grp g s
  by_cases hj : j = g
  · rw [hj, hself]
    rfl
  · rw [hothers j hj]

theorem startCamp_calm (g : Nat) (s : State) : CalmKept s (startCamp g s) := by
  unfold startCamp
  dsimp only
  generalize hu : modGrp g _ s = u
  have h : CalmKept s u := by
    rw [← hu]
    exact .modGrp fun _ => rfl
  have htold : CalmKept s (if (grp g s).camp then u else bumpGen pgCAL (raise pgCAL calCAMPSTART (g * 256) u)) :=
    .ite h (h.trans (.of_only (Only.next (bumpGen_only _ _) rfl (raise_only _ _ _ _)) rfl))
  exact .ite (.refl s) (.ite (htold.trans (blockCamp_calm g _)) htold)

/-- The first sample of a group moves nothing of it but its campaign. -/
theorem beginGroup_calm (g : Nat) (s : State) : CalmKept s (beginGroup g s) := by
  have h : CalmKept s (modGrp g (fun x => { x with begun := true }) s) := .modGrp fun _ => rfl
  exact .ite (.refl s) (h.trans (startCamp_calm g _))

/-- What values rest on in a group. -/
theorem Group.calm_fields {x y : Group} (h : x.calm = y.calm) : x.ovls = y.ovls ∧ x.ovl = y.ovl ∧ x.wake = y.wake ∧ x.since = y.since :=
  ⟨(congrArg Group.ovls h :), (congrArg Group.ovl h :), (congrArg Group.wake h :), (congrArg Group.since h :)⟩

theorem overloaded_beginGroup (g g' conv : Nat) (w0 w1 : Int) (s : State) : overloaded g conv w0 w1 (beginGroup g' s) = overloaded g conv w0 w1 s := by
  obtain ⟨hovls, -⟩ := Group.calm_fields (beginGroup_calm g' s g)
  rw [overloaded, hovls, overloaded]

theorem chan_beginGroup (g c : Nat) (s : State) : chan c (beginGroup g s) = chan c s := chan_congr ((beginGroup_only g s).same .chans (by decide)) c

/-! ## Coarse samples (R143–R145) -/

theorem upTrigger_core (c range : Nat) (code w1 : Int) (s : State) : ChansAlike Chan.core s (upTrigger c range code w1 s) :=
  .ite (.refl s) (.ite (.refl s) (requestRange_unswitched _ s).core)

/-- Whether a coarse window that starts at `w0` includes an instant. -/
def windowHas (tc w0 : Int) (t : Option Int) : Bool :=
  match t with
  | some y => decide (w0 ≤ y) && decide (y < w0 + tc)
  | none => false

theorem windowHas_eq_any (tc w0 : Int) (t : Option Int) : windowHas tc w0 t = t.any fun y => decide (w0 ≤ y) && decide (y < w0 + tc) := by
  cases t <;> rfl

/-- The value of a coarse window of a channel, before it goes anywhere. -/
def coarseValue (g conv c range : Nat) (w0 : Int) (mods : List Int) (cm : Bool) (s : State) : CoarseS :=
  let w1 := w0 + coarseTk (decide (16 ≤ g))
  let x := chan c s
  let r := correct g conv range c w1 w1 (coarseOut mods) (beginGroup g s)
  let at_ := coarseInst (decide (16 ≤ g)) (if x.tr.isSome then x.old1 else ew x.w 1) w0
  { at_ := at_, stamp := tkStamp s at_, code := r.1, range := range,
    o := r.2 || cm || overloaded g conv w0 w1 s || spanHits x.clamps w0 w1 || windowHas (coarseTk (decide (16 ≤ g))) w0 x.swAt }

/-- A value joins its channel's history. -/
def keepSample (c : Nat) (fast : Bool) (x : Chan) (n : CoarseS) (s : State) : State :=
  modChan c (fun y => { y with
    hist := keepHist (min (periodTk fast (ew x.w 1)) (periodTk fast x.old1)) (n.at_ - 2 * max (halfTk fast (ew y.w 1)) (halfTk fast y.old1) - 2 * secTk / 125) n y.hist }) s

/-- A value goes to detection, the comparators and the range triggers. -/
def feedSample (g c : Nat) (w0 w1 : Int) (switching beyond : Bool) (pins : PinState) (bias : Nat) (n : CoarseS) (s : State) : State :=
  let s := detectShort c bias (detectOpen c w0 w1 n.code pins.aHigh bias s)
  let b := ((chan c s).isOpen && (chan c s).brkEnd.isNone) || excStopped c w0 w1 s
  let s := if switching then s else compareSample c n.range n.code b (n.o && !b) n.stamp s
  let s := if switching then s else upTrigger c n.range n.code w1 s
  if beyond then coarseBeyond g c w1 s else s

theorem keepSample_head (c : Nat) (fast : Bool) (x : Chan) (n : CoarseS) (s : State) : (chan c (keepSample c fast x n s)).hist.head? = some n := by
  rw [keepSample, chan_modChan_self]
  rfl

theorem feedSample_core (g c : Nat) (w0 w1 : Int) (switching beyond : Bool) (pins : PinState) (bias : Nat) (n : CoarseS) (s : State) :
    ChansAlike Chan.core s (feedSample g c w0 w1 switching beyond pins bias n s) := by
  have hdetect := (detectOpen_core c w0 w1 n.code pins.aHigh bias s).trans (detectShort_core c bias _)
  unfold feedSample
  dsimp only
  generalize detectShort c bias (detectOpen c w0 w1 n.code pins.aHigh bias s) = u at hdetect ⊢
  have hcompare (b o : Bool) : ChansAlike Chan.core s (if switching then u else compareSample c n.range n.code b o n.stamp u) :=
    .ite hdetect (hdetect.next (compareSample_only ..) rfl)
  have htrigger (b o : Bool) := ChansAlike.ite (c := switching) (hcompare b o) ((hcompare b o).trans (upTrigger_core c n.range n.code w1 _))
  exact .ite ((htrigger _ _).next (coarseBeyond_only ..) rfl) (htrigger _ _)

theorem Chan.core_hist {x y : Chan} (h : x.core = y.core) : x.hist = y.hist := (congrArg Chan.hist h :)

section
variable {g : Grp} {conv : Fin 17} {sec m c range : Nat} {mods : List Int} {pins : PinState} {bias : Nat} {s : State} (hx : s.fuse.hx000 = false)
include hx

theorem coarseSample_runs (w0 : Int) (hw0 : w0 = (sec : Int) * secTk + (m : Int) * coarseTk (decide (16 ≤ g.val))) (hu : coarseUser g.val conv.val w0 s = some (c, range))
    (hc : eCls (chan c s).w ≠ 0) (hk : windowHas (coarseTk (decide (16 ≤ g.val))) w0 (chan c s).skipAt = false) (hs : sampled c w0 w0 s = true) :
    Runs (.coarseSample g conv sec m mods pins bias) s (reporting [.bst, .svc, .chans, .grps]) fun t =>
      (chan c t).hist.head? = some (coarseValue g.val conv.val c range w0 mods pins.cm s) := by
  have hnow : tkStamp (beginGroup g.val s) = tkStamp s := funext fun t => by rw [tkStamp, (beginGroup_only g.val s).same .tim (by decide), tkStamp]
  have he : execCoarseSample g conv sec m mods pins bias s = .next (feedSample g.val c w0 (w0 + coarseTk (decide (16 ≤ g.val)))
      (windowHas (coarseTk (decide (16 ≤ g.val))) w0 (chan c s).swAt) (correct g.val conv.val range c (w0 + coarseTk (decide (16 ≤ g.val)))
        (w0 + coarseTk (decide (16 ≤ g.val))) (coarseOut mods) (beginGroup g.val s)).2 pins bias (coarseValue g.val conv.val c range w0 mods pins.cm s)
      (keepSample c (decide (16 ≤ g.val)) (chan c s) (coarseValue g.val conv.val c range w0 mods pins.cm s) (beginGroup g.val s))) := by
    rw [coarseValue, ← overloaded_beginGroup g.val g.val, ← hnow]
    rw [execCoarseSample, analogue, hx, if_neg Bool.false_ne_true]
    dsimp only
    rw [← hw0, hu]
    dsimp only
    rw [if_neg]
    · rfl
    · rw [not_or, not_or]
      exact ⟨hc, ne_true_of_eq_false hk, by rw [hs]; decide⟩
  exact .of (o := execCoarseSample g conv sec m mods pins bias s) rfl ((execCoarseSample_only ..).mono rfl) he
    ((congrArg List.head? (Chan.core_hist (feedSample_core _ c _ _ _ _ _ _ _ _ c))).trans (keepSample_head ..))

end

end Sys2Proof.Machine
end

section
/-! SUPPORT. What a fine value becomes (R46, R53, R54, R146): the ready record, and the channel that holds it. -/

namespace Sys2Proof.Machine

/-- A channel but for its substitution episode. -/
def Chan.unsubst (x : Chan) : Chan := { x with tsub := false }

theorem noteSubst_unsubst (c : Nat) (sub : Bool) (s : State) : ChansAlike Chan.unsubst s (noteSubst c sub s) := by
  have h : ChansAlike Chan.unsubst s (modChan c (fun x => { x with tsub := sub }) s) := .modChan fun _ => rfl
  exact .ite (h.next (Only.next (raise_only _ _ _ _) rfl ((condStart_only _ _ _ _).mono (m := reports) rfl)) rfl) (.ite (h.next (condEnd_only _ _ _ _) rfl) h)

/-! ## The record (R46, R52–R54, R146) -/

section
variable (c : Nat) (t : Stamp) (s : State)

/-- ENTRY1 of the chain that a fine value of stamp `t` comes from. -/
def fineW1 : Word := settingAt (chan c s) t s
/-- Its output period. -/
def finePer : Int := periodTk (isFast c) (fineW1 c t s)
/-- Half its window. -/
def fineHalf : Int := halfTk (isFast c) (fineW1 c t s)
/-- Its instant. -/
def fineTt : Int := instTk (finePer c t s) t s
/-- Whether a settling span makes it Q. -/
def fineQ : Bool :=
  (chan c s).spans.any fun p => decide (fineTt c t s - fineHalf c t s < p.upTo) && decide (p.since ≤ if p.byT then fineTt c t s else fineTt c t s + fineHalf c t s)
/-- What its record is made from. -/
def fineMade (range : Nat) (code : Int) (o : Bool) : Stamp × Int × Bool := recordValue (chan c s) (fineQ c t s) range t (fineTt c t s) (finePer c t s) code o
/-- Its value, linearised or raw. -/
def fineValue (code : Int) : Word × Bool × Bool × Bool := valueOf c code (fineTt c t s) (fineTt c t s + fineHalf c t s) s

/-- A substitute temperature in it is told (R179). -/
def substNoted (code : Int) : State := if (fineValue c t s code).2.1 ∧ eTsrc [0, 0, (linFor c (fineTt c t s) s).1] = 2 then noteSubst c (fineValue c t s code).2.2.2 s else s

/-- The ready record that a fine value becomes in `s`; its source, the present instant and the hold as `v` has them. -/
def readyRec (range : Nat) (code : Int) (o cm : Bool) (v : State) : ReadyRec :=
  let x := chan c s
  let tt := fineTt c t s
  let w0 := tt - fineHalf c t s
  let w1 := tt + fineHalf c t s
  let q := fineQ c t s
  let rv := fineMade c t s range code o
  let l := fineValue c t s rv.2.1
  let h := q || x.hDue
  let first := x.settle && !h && (match x.tb with
    | some b => decide (b ≤ tt)
    | none => true)
  ⟨{ t := rv.1, src := srcId c v, kind := .sample, value := l.1, payload := [],
     flags := flagsOf q h false (rv.2.2 || cm || spanHits x.clamps w0 w1 || l.2.2.1) l.2.1 (xOf rv.1) (x.cAt.any fun a => decide (a.1 ≤ tt)) },
   w0, w1, if q then 0x1F else wbits (fineW1 c t s) 27 5, max (nowTk v) (w1 + holdTk c rv.2.1 v), first⟩

theorem substNoted_only (code : Int) : Only (reporting [.chans]) s (substNoted c t s code) := .ite ((noteSubst_only _ _ s).mono rfl) (.refl _ s)

theorem substNoted_unsubst (code : Int) : ChansAlike Chan.unsubst s (substNoted c t s code) := .ite (noteSubst_unsubst _ _ s) (.refl s)

end

/-- The channel that holds it. -/
def Chan.holding (c : Nat) (n : ReadyRec) (tt per : Int) (x y : Chan) : Chan :=
  { y with
    ready := putReady n y.ready, hDue := false, cAt := y.cAt.filter (fun a => !(decide (a.1 ≤ tt))), nextT := nextInst c x tt per,
    spans := y.spans.filter fun p => decide (n.w0 - secTk < p.upTo),
    clamps := y.clamps.filter fun k => match k.2 with
      | some e => decide (n.w0 - secTk ≤ e)
      | none => true,
    linOld := histDrop tt y.linOld, leadsOld := histDrop tt y.leadsOld, tabOld := histDrop tt y.tabOld, rngOld := histDrop tt y.rngOld }

theorem countDown_core (c range : Nat) (code w1 : Int) (spoilt : Bool) (s : State) : ChansAlike Chan.core s (countDown c range code w1 spoilt s) := by
  have hnone : ChansAlike Chan.core s (modChan c (fun y => { y with dn := 0 }) s) := .modChan fun _ => rfl
  have hmore : ChansAlike Chan.core s (modChan c (fun y => { y with dn := y.dn + 1 }) s) := .modChan fun _ => rfl
  refine .ite ?_ (.ite hmore (hnone.trans (requestRange_unswitched _ _).core))
  split
  · exact .ite (hnone.next (unqueue_only _ _ _) rfl) hnone
  · exact hnone

section
variable {c range : Nat} {t : Stamp} {code : Int} {o cm : Bool} {s : State}

theorem Chan.unsubst_ready {x y : Chan} (h : x.unsubst = y.unsubst) : x.ready = y.ready := (congrArg Chan.ready h :)

/-- The state in which a fine value's record is ready, nothing told of it yet. -/
def recordHeld (c range : Nat) (t : Stamp) (code : Int) (o cm : Bool) (s : State) : State :=
  let v := substNoted c t s (fineMade c t s range code o).2.1
  modChan c (Chan.holding c (readyRec c t s range code o cm v) (fineTt c t s) (finePer c t s) (chan c s)) v

/-- A fine value that is produced: its record joins those that wait; sections and range requests take nothing of that back. -/
theorem produce_core (hc : eCls (chan c s).w ≠ 0) (hf : wbit (fineW1 c t s) 23 = false) (hs : sampled c (fineTt c t s - fineHalf c t s) (fineTt c t s) s = true) :
    ChansAlike Chan.core (recordHeld c range t code o cm s) (produce c range t code o cm s) := by
  have hgo : ¬ (eCls (chan c s).w = 0 ∨ wbit (fineW1 c t s) 23 ∨ sampled c (fineTt c t s - fineHalf c t s) (fineTt c t s) s = false) := by
    rw [not_or, not_or]
    exact ⟨hc, ne_true_of_eq_false hf, by rw [hs]; decide⟩
  have hproduce : produce c range t code o cm s = _ := if_neg hgo
  rw [hproduce]
  have hfed (r : CellRec) : ChansAlike Chan.core (recordHeld c range t code o cm s) (feedSects c r (recordHeld c range t code o cm s)) := .of_only (feedSects_only _ _ _) rfl
  exact .trans (.ite ((hfed _).next (noteO_only _ _ _) rfl) (hfed _)) (countDown_core c _ _ _ _ _)

end

/-! ## What a fine value rests on -/

/-- What a record's hold rests on in its channel. -/
theorem Chan.unsubst_hold {x y : Chan} (h : x.unsubst = y.unsubst) : x.w = y.w ∧ x.range = y.range ∧ x.bias = y.bias ∧ x.missed = y.missed :=
  ⟨(congrArg Chan.w h :), (congrArg Chan.range h :), (congrArg Chan.bias h :), (congrArg Chan.missed h :)⟩

/-- What a record's hold rests on in its group. -/
theorem Group.calm_hold {x y : Group} (h : x.calm = y.calm) : x.w = y.w ∧ x.tat = y.tat := ⟨(congrArg Group.w h :), (congrArg Group.tat h :)⟩

section
variable {c : Nat} {s u : State}

theorem settingAt_congr (ht : u.tim = s.tim) (x : Chan) (t : Stamp) : settingAt x t u = settingAt x t s := by
  simp only [settingAt, ht]

theorem fine_congr (hc : chan c u = chan c s) (ht : u.tim = s.tim) (t : Stamp) :
    fineW1 c t u = fineW1 c t s ∧ finePer c t u = finePer c t s ∧ fineHalf c t u = fineHalf c t s ∧ fineTt c t u = fineTt c t s ∧ fineQ c t u = fineQ c t s := by
  have hw : fineW1 c t u = fineW1 c t s := by rw [fineW1, hc, settingAt_congr ht, fineW1]
  have hper : finePer c t u = finePer c t s := by rw [finePer, hw, finePer]
  have hhalf : fineHalf c t u = fineHalf c t s := by rw [fineHalf, hw, fineHalf]
  have htt : fineTt c t u = fineTt c t s := by rw [fineTt, hper, instTk, ht, fineTt, instTk]
  exact ⟨hw, hper, hhalf, htt, by rw [fineQ, hc, htt, hhalf, fineQ]⟩

/-- The hold of a record rests on its channel, its group's entry and frame, the plan and VIEPE. -/
theorem holdTk_congr (hc : (chan c u).unsubst = (chan c s).unsubst) (hg : CalmKept s u) (hp : u.pln = s.pln) (ha : u.ana = s.ana) (code : Int) :
    holdTk c code u = holdTk c code s := by
  obtain ⟨hw, hrange, hbias, hmissed⟩ := Chan.unsubst_hold hc
  obtain ⟨hgw, htat⟩ := Group.calm_hold (hg (grpOf c))
  have hplan : chanPlan c u = chanPlan c s := by simp only [chanPlan, hp]
  have hviepe : biasHiMv (grp (grpOf c) u) u = biasHiMv (grp (grpOf c) s) s := by simp only [biasHiMv, hgw, ha]
  simp only [holdTk, hw, hrange, hbias, hmissed, htat, hplan, hviepe]

theorem srcId_congr (hp : u.pln = s.pln) : srcId c u = srcId c s := by
  simp only [srcId, mySeg, myHub, hp]

theorem sampled_beginGroup (g c : Nat) (w0 tt : Int) (s : State) : sampled c w0 tt (beginGroup g s) = sampled c w0 tt s := by
  obtain ⟨-, -, hwake, hsince⟩ := Group.calm_fields (beginGroup_calm g s (grpOf c))
  have hpwr : (beginGroup g s).pwr = s.pwr := (beginGroup_only g s).same .pwr (by decide)
  simp only [sampled, hwake, hsince, hpwr]

end

/-! ## The command (R46, R53, R54, R146) -/

section
variable {g : Grp} {conv : Fin 17} {t : Stamp} {mods : List Int} {cm : Bool} {c : Nat} {s : State}

/-- The corrected code of a fine value of channel `c`, and its overrange. -/
def fineCode (g conv c : Nat) (t : Stamp) (mods : List Int) (s : State) : Int × Bool :=
  correct g conv (rangeAt (chan c s) (fineTt c t s + fineHalf c t s)) c (fineTt c t s) (fineTt c t s + fineHalf c t s) (chainOut (isFast c) (fineW1 c t s) mods) s

/-- A fine value of the incumbent where no overlap goes on. -/
theorem exec_fineRecordReady (hx : s.fuse.hx000 = false) (ho : (grp g.val s).ovl = none) (hd : dutyChan g.val conv.val s = some c) (hc : eCls (chan c s).w ≠ 0) :
    execFineRecordReady g conv t mods cm s = .next (produce c (rangeAt (chan c s) (fineTt c t s + fineHalf c t s)) t (fineCode g.val conv.val c t mods (beginGroup g.val s)).1
      ((fineCode g.val conv.val c t mods (beginGroup g.val s)).2 || overloaded g.val conv.val (fineTt c t s - fineHalf c t s) (fineTt c t s + fineHalf c t s) s) cm
      (beginGroup g.val s)) := by
  have hchan := chan_beginGroup g.val c s
  obtain ⟨-, hovl, -⟩ := Group.calm_fields (beginGroup_calm g.val s g.val)
  obtain ⟨-, -, hhalf, htt, -⟩ := fine_congr hchan ((beginGroup_only g.val s).same .tim (by decide)) t
  rw [← overloaded_beginGroup g.val g.val, ← hhalf, ← htt, ← hchan]
  rw [execFineRecordReady, analogue, hx, if_neg Bool.false_ne_true]
  dsimp only
  rw [ho]
  dsimp only
  rw [hd]
  dsimp only
  rw [if_neg hc, hovl, ho]
  rfl

/-- The record's part of a channel. -/
theorem Chan.core_record {x y : Chan} (h : x.core = y.core) : x.ready = y.ready ∧ x.hDue = y.hDue ∧ x.nextT = y.nextT :=
  ⟨(congrArg Chan.ready h :), (congrArg Chan.hDue h :), (congrArg Chan.nextT h :)⟩

theorem recordHeld_chan (c range : Nat) (t : Stamp) (code : Int) (o cm : Bool) (s : State) :
    (chan c (recordHeld c range t code o cm s)).ready =
      putReady (readyRec c t s range code o cm (substNoted c t s (fineMade c t s range code o).2.1)) (chan c s).ready ∧
    (chan c (recordHeld c range t code o cm s)).hDue = false ∧
    (chan c (recordHeld c range t code o cm s)).nextT = nextInst c (chan c s) (fineTt c t s) (finePer c t s) := by
  have hready : (chan c (substNoted c t s (fineMade c t s range code o).2.1)).ready = (chan c s).ready := Chan.unsubst_ready (substNoted_unsubst c t s _ c)
  rw [← hready, recordHeld, chan_modChan_self]
  exact ⟨rfl, rfl, rfl⟩

/-- The state in which a record's source, instant and hold are read: it is as `s` in all that they rest on. -/
theorem readyRec_read (g c : Nat) (t : Stamp) (s : State) (range : Nat) (code code' : Int) (o cm : Bool) :
    readyRec c t (beginGroup g s) range code o cm (substNoted c t (beginGroup g s) code') = readyRec c t (beginGroup g s) range code o cm s := by
  have hsubst := substNoted_only c t (beginGroup g s) code'
  have hboth : Only (reporting [.chans, .grps]) s (substNoted c t (beginGroup g s) code') := Only.trans ((beginGroup_only g s).mono rfl) (hsubst.mono rfl)
  have hchan : (chan c (substNoted c t (beginGroup g s) code')).unsubst = (chan c s).unsubst := by rw [substNoted_unsubst c t (beginGroup g s) code' c, chan_beginGroup]
  have hcalm : CalmKept s (substNoted c t (beginGroup g s) code') := (beginGroup_calm g s).trans (.of_only hsubst rfl)
  have hhold := holdTk_congr hchan hcalm (hboth.same .pln (by decide)) (hboth.same .ana (by decide))
  rw [readyRec, srcId_congr (hboth.same .pln (by decide)), nowTk_congr (hboth.same .tim (by decide)), hhold, readyRec]

theorem fineRecordReady_runs (hx : s.fuse.hx000 = false) (ho : (grp g.val s).ovl = none) (hd : dutyChan g.val conv.val s = some c) (hc : eCls (chan c s).w ≠ 0)
    (hf : wbit (fineW1 c t s) 23 = false) (hs : sampled c (fineTt c t s - fineHalf c t s) (fineTt c t s) s = true) :
    Runs (.fineRecordReady g conv t mods cm) s (reporting [.bst, .svc, .chans, .grps]) fun u =>
      (chan c u).ready = putReady (readyRec c t (beginGroup g.val s) (rangeAt (chan c s) (fineTt c t s + fineHalf c t s)) (fineCode g.val conv.val c t mods (beginGroup g.val s)).1
        ((fineCode g.val conv.val c t mods (beginGroup g.val s)).2 || overloaded g.val conv.val (fineTt c t s - fineHalf c t s) (fineTt c t s + fineHalf c t s) s) cm s)
        (chan c s).ready ∧ (chan c u).hDue = false ∧ (chan c u).nextT = nextInst c (chan c s) (fineTt c t s) (finePer c t s) := by
  have hchan := chan_beginGroup g.val c s
  obtain ⟨hw, hper, hhalf, htt, -⟩ := fine_congr hchan ((beginGroup_only g.val s).same .tim (by decide)) t
  have he := exec_fineRecordReady (mods := mods) (cm := cm) (t := t) hx ho hd hc
  refine .of (o := execFineRecordReady g conv t mods cm s) rfl ((execFineRecordReady_only ..).mono rfl) he ?_
  have hcore := produce_core (range := rangeAt (chan c s) (fineTt c t s + fineHalf c t s)) (code := (fineCode g.val conv.val c t mods (beginGroup g.val s)).1)
    (o := (fineCode g.val conv.val c t mods (beginGroup g.val s)).2 || overloaded g.val conv.val (fineTt c t s - fineHalf c t s) (fineTt c t s + fineHalf c t s) s) (cm := cm)
    (by rw [hchan]; exact hc) (by rw [hw]; exact hf) (by rw [hhalf, htt, sampled_beginGroup]; exact hs)
  obtain ⟨hready, hdue, hnext⟩ := Chan.core_record (hcore c)
  obtain ⟨hready', hdue', hnext'⟩ := recordHeld_chan c (rangeAt (chan c s) (fineTt c t s + fineHalf c t s)) t (fineCode g.val conv.val c t mods (beginGroup g.val s)).1
    ((fineCode g.val conv.val c t mods (beginGroup g.val s)).2 || overloaded g.val conv.val (fineTt c t s - fineHalf c t s) (fineTt c t s + fineHalf c t s) s) cm (beginGroup g.val s)
  refine ⟨(hready.trans hready').trans ?_, hdue.trans hdue', (hnext.trans hnext').trans (by rw [hchan, htt, hper])⟩
  rw [readyRec_read, hchan]

end

end Sys2Proof.Machine
end

section
/-! SUPPORT. Records that join those of their contracts and stay there (R273, R275, R416). -/

namespace Sys2Proof.Machine

theorem FMap.mem_keys_of_get_ne {α : Type} {d : Nat → α} {m : FMap α} {k : Nat} (h : FMap.get d m k ≠ d k) : k ∈ m.map (·.1) := by
  induction m with
  | nil => exact absurd rfl h
  | cons p m ih =>
    by_cases hk : p.1 = k
    · exact hk ▸ List.mem_cons_self
    · rw [FMap.get, if_neg hk] at h
      exact List.mem_cons_of_mem _ (ih h)

theorem mem_insertKey_self (i : Item) (l : List Item) : i ∈ insertKey i l := by
  induction l with
  | nil => exact List.mem_cons_self
  | cons j js ih =>
    unfold insertKey
    split
    · exact List.mem_cons_self
    · exact List.mem_cons_of_mem _ ih

theorem mem_insertKey_of_mem {i k : Item} {l : List Item} (h : k ∈ l) : k ∈ insertKey i l := by
  induction l with
  | nil => exact absurd h List.not_mem_nil
  | cons j js ih =>
    unfold insertKey
    split
    · exact List.mem_cons_of_mem _ h
    · rcases List.mem_cons.mp h with rfl | h
      · exact List.mem_cons_self
      · exact List.mem_cons_of_mem _ (ih h)

/-- A contract but for its records that are ready and its open runs. -/
def ConSt.staged (c : ConSt) : ConSt := { c with ready := [], runs := [] }

/-- Of the contracts nothing differs but records that have become ready, and open runs. -/
structure ReadyGrows (s t : State) : Prop where
  rest : ∀ j, (con j t).staged = (con j s).staged
  grows : ∀ j i, i ∈ (con j s).ready → i ∈ (con j t).ready

section
variable {s t u : State}

theorem ReadyGrows.refl (s : State) : ReadyGrows s s := ⟨fun _ => rfl, fun _ _ h => h⟩

theorem ReadyGrows.trans (h : ReadyGrows s t) (k : ReadyGrows t u) : ReadyGrows s u := ⟨fun j => (k.rest j).trans (h.rest j), fun j i hi => k.grows j i (h.grows j i hi)⟩

theorem ReadyGrows.of_del (h : t.del = s.del) : ReadyGrows s t := ⟨fun j => by rw [con_congr h], fun j i hi => by rwa [con_congr h]⟩

theorem ReadyGrows.of_only {l : List Area} (h : Only l s t) (hl : l.contains .del = false) : ReadyGrows s t := .of_del (h.same .del (by simpa using hl))

theorem ReadyGrows.ite {c : Prop} [Decidable c] (h : ReadyGrows s t) (k : ReadyGrows s u) : ReadyGrows s (if c then t else u) := by
  split <;> assumption

theorem ReadyGrows.modCon {f : ConSt → ConSt} {id : Nat} (hf : ∀ c, (f c).staged = c.staged) (hr : ∀ c i, i ∈ c.ready → i ∈ (f c).ready) : ReadyGrows s (modCon id f s) := by
  refine ⟨fun j => ?_, fun j i hi => ?_⟩ <;> by_cases hj : j = id
  · rw [hj, con_modCon_self, hf]
  · rw [con_modCon_of_ne s hj]
  · rw [hj, con_modCon_self]
    exact hr _ i (hj ▸ hi)
  · rwa [con_modCon_of_ne s hj]

theorem ReadyGrows.foldl {β : Type} {f : State → β → State} (h : ∀ s b, ReadyGrows s (f s b)) (xs : List β) (s : State) : ReadyGrows s (xs.foldl f s) :=
  foldl_keeps (P := ReadyGrows s) (fun t ht b => ht.trans (h t b)) (.refl s) xs

end

theorem stage_grows (i : Item) (s : State) (id : Nat) : ReadyGrows s (stage i s id) :=
  .ite (.refl s) (.modCon (fun _ => rfl) fun _ _ => mem_insertKey_of_mem)

theorem raise_grows (p bit d : Nat) (s : State) : ReadyGrows s (raise p bit d s) := by
  have hlatch : ReadyGrows s (trialFault p (latch p bit s)) := (ReadyGrows.of_only (latch_only p bit s) rfl).trans (.of_only (trialFault_only p _) rfl)
  unfold raise
  cases evOf p bit with
  | none => exact hlatch
  | some e => exact .ite hlatch (.ite (hlatch.trans (.of_del rfl)) (hlatch.trans (.foldl (stage_grows _) _ _)))

theorem closeRun_grows (slot : Nat) (s : State) (id : Nat) : ReadyGrows s (closeRun slot s id) := by
  have hruns : ReadyGrows s (modCon id (fun c => { c with runs := c.runs.filter (·.slot ≠ slot) }) s) := .modCon (fun _ => rfl) fun _ _ h => h
  unfold closeRun
  split
  · exact .refl s
  · exact hruns.trans (stage_grows _ _ _)

theorem takeSample_grows (rate : Nat) (i : Item) (s : State) (id : Nat) : ReadyGrows s (takeSample rate i s id) := by
  have hclose := closeRun_grows (slotOf i.src) s id
  refine .ite (stage_grows i s id) (.ite (hclose.trans (stage_grows i _ id)) ?_)
  have hkept : ReadyGrows s (match runOf (slotOf i.src) (con id s) with
      | some o => if continues o rate (rateIn id rate s) i.t then s else closeRun (slotOf i.src) s id
      | none => s) := by
    split
    · exact .ite (.refl s) hclose
    · exact .refl s
  have hrun (o : OpenRun) {u : State} (h : ReadyGrows s u) : ReadyGrows s (modCon id (fun c => { c with runs := o :: c.runs.filter (·.slot ≠ slotOf i.src) }) u) :=
    h.trans (.modCon (fun _ => rfl) fun _ _ h => h)
  exact .ite hkept (.ite ((hrun _ hkept).trans (closeRun_grows _ _ _)) (hrun _ hkept))

theorem emitSample_grows (rate : Nat) (i : Item) (s : State) : ReadyGrows s (emitSample rate i s) := .foldl (takeSample_grows rate i) _ s

theorem ConSt.staged_fields {x y : ConSt} (h : x.staged = y.staged) : x.ent = y.ent ∧ x.state = y.state ∧ x.isSrc = y.isSrc ∧ x.endSec = y.endSec :=
  ⟨(congrArg ConSt.ent h :), (congrArg ConSt.state h :), (congrArg ConSt.isSrc h :), (congrArg ConSt.endSec h :)⟩

/-- The contracts that take a record go on taking it. -/
theorem mem_consFor {k : Kind} {slot id : Nat} {s t : State} (h : ReadyGrows s t) (ht : t.tim = s.tim) (hp : t.pln = s.pln) (hid : id ∈ consFor k slot s) : id ∈ consFor k slot t := by
  obtain ⟨hent, hstate, hsrc, -⟩ := ConSt.staged_fields (h.rest id)
  rw [consFor, List.mem_filter] at hid ⊢
  obtain ⟨hmem, htakes⟩ := hid
  dsimp only at htakes ⊢
  rw [hent, hstate, hsrc, myDev_congr hp]
  refine ⟨?_, htakes⟩
  rw [ht, hp]
  split at hmem
  · next hset =>
    refine (if_pos hset).symm ▸ FMap.mem_keys_of_get_ne (d := fun _ => {}) fun hnone => ?_
    have hent' : (con id s).ent = none := hent.symm.trans (congrArg ConSt.ent hnone)
    rw [hent'] at htakes
    exact Bool.false_ne_true htakes
  · exact absurd hmem List.not_mem_nil

end Sys2Proof.Machine
end

section
/-! SUPPORT. A record released (R94–R96, R147, R154, R179, R273, R275). -/

namespace Sys2Proof.Machine

/-! ## A record in its contracts (R273, R275) -/

theorem takeSample_unpacked {id : Nat} {s : State} (h : ((con id s).ent.any fun k => k.runs) = false) (rate : Nat) (i : Item) : takeSample rate i s id = stage i s id := by
  refine if_pos (.inl ?_)
  cases he : (con id s).ent with
  | none => rfl
  | some e => rwa [he] at h

theorem barred_congr {id : Nat} {s t : State} (h : ReadyGrows s t) (hl : t.lsh = s.lsh) (at_ : Stamp) : barred id at_ t = barred id at_ s := by
  obtain ⟨-, -, -, hend⟩ := ConSt.staged_fields (h.rest id)
  simp only [barred, hend, hl]

/-- A record goes into each contract that takes it unpacked and is not barred. -/
theorem mem_ready_emitSample {id : Nat} {i : Item} {s : State} (rate : Nat) (hid : id ∈ consFor .sample (slotOf i.src) s) (hb : barred id i.t s = false)
    (hr : ((con id s).ent.any fun k => k.runs) = false) : i ∈ (con id (emitSample rate i s)).ready := by
  obtain ⟨before, after, hids⟩ := List.append_of_mem hid
  rw [emitSample, hids, List.foldl_append, List.foldl_cons]
  refine (ReadyGrows.foldl (takeSample_grows rate i) after _).grows id i ?_
  have hgrows := ReadyGrows.foldl (takeSample_grows rate i) before s
  have honly : Only [.del] s (before.foldl (takeSample rate i) s) := .foldl (fun t id => takeSample_only rate i t id) before s
  obtain ⟨hent, -⟩ := ConSt.staged_fields (hgrows.rest id)
  rw [takeSample_unpacked (by rw [hent]; exact hr), stage, barred_congr hgrows (honly.same .lsh (by decide)), hb, if_neg Bool.false_ne_true, con_modCon_self]
  exact mem_insertKey_self i _

/-! ## The stages of a release (R94–R96, R147, R154, R179) -/

/-- The record as it leaves: the no-value code with B where its window met an open input. -/
def sentItem (b : Bool) (i : Item) : Item :=
  if b then { i with
    value := noValue (decide (i.flags / 4 % 2 = 1)),
    flags := flagsOf (decide (64 ≤ i.flags)) (decide (i.flags / 32 % 2 = 1)) true false (decide (i.flags / 4 % 2 = 1)) (i.flags / 2 % 2) (decide (i.flags % 2 = 1)) }
  else i

/-- First the record is taken from those that wait, and kept as the last clean one where it carries neither B nor O nor Q. -/
def releaseTaken (c : Nat) (b : Bool) (r : ReadyRec) (rest : List ReadyRec) (s : State) : State :=
  let s := modChan c (fun x => { x with ready := rest }) s
  let s := if b then spoilSects c r.item.t s else s
  if b ∨ (decide (r.item.flags / 8 % 2 = 1) && !b) ∨ decide (64 ≤ r.item.flags) then s
  else modChan c (fun x => { x with clean := some ((sentItem b r.item).t, (sentItem b r.item).value) }) s

/-- Then it goes into its contracts and to the tracks, and the hub enters service where it originates any. -/
def releaseSent (c rate : Nat) (i : Item) (s : State) : State :=
  let s := feedTracks c i (emitSample rate i s)
  if consFor .sample c s = [] then s else enterService s

/-- The open state ends at its first record without B. -/
def releaseShut (c : Nat) (w0 : Int) (s : State) : State :=
  if (chan c s).isOpen && (chan c s).brkEnd.any fun t => decide (t ≤ w0) then closedNow c s else s

/-- The first settled record ends the settling of a rate change. -/
def releaseSettled (c : Nat) (first : Bool) (s : State) : State :=
  if first ∧ (chan c s).settle then
    (if (chan c s).rateSet then groupRaise (grpOf c) relRATESET
      (convDetail (convOf c (groupGen (grpOf c) (modChan c (fun x => { x with settle := false, rateSet := false }) s))) (idxOf c)) else id)
      (groupGen (grpOf c) (modChan c (fun x => { x with settle := false, rateSet := false }) s))
  else s

theorem openHits_ready (c : Nat) (w0 w1 : Int) (rest : List ReadyRec) (s : State) : openHits c w0 w1 (modChan c (fun x => { x with ready := rest }) s) = openHits c w0 w1 s := by
  rw [openHits, chan_modChan_self]
  rfl

/-- Settling ends, or does not, as the last thing of a release. -/
theorem next_releaseSettled (c : Nat) (first : Bool) (s : State) :
    (if first ∧ (chan c s).settle then
      let u := groupGen (grpOf c) (modChan c (fun x => { x with settle := false, rateSet := false }) s)
      (.next (if (chan c s).rateSet then groupRaise (grpOf c) relRATESET (convDetail (convOf c u) (idxOf c)) u else u) : Out3)
    else .next s) = .next (releaseSettled c first s) := by
  unfold releaseSettled
  cases (chan c s).rateSet <;> exact (apply_ite _ _ _ _).symm

theorem exec_recordRelease {slot : Slot} {r : ReadyRec} {rest : List ReadyRec} {s : State} (hr : (chan slot.val s).ready = r :: rest) (hn : r.rel ≤ nowTk s)
    (ho : (oldDue (chan slot.val s) && pastBound (chan slot.val s) r.tt) = false) : execRecordRelease slot s = .next (releaseSettled slot.val r.first (releaseShut slot.val r.w0
      (releaseSent slot.val r.rate (sentItem (openHits slot.val r.w0 r.w1 s) r.item) (releaseTaken slot.val (openHits slot.val r.w0 r.w1 s) r rest s)))) := by
  have hgo : ¬ (nowTk s < r.rel ∨ (oldDue (chan slot.val s) && pastBound (chan slot.val s) r.tt) = true) := by
    rw [not_or]
    exact ⟨not_lt.mpr hn, ne_true_of_eq_false ho⟩
  unfold execRecordRelease
  extract_lets c
  have hr' : (chan c s).ready = r :: rest := hr
  rw [hr']
  dsimp -zeta only
  rw [if_neg hgo]
  extract_lets t0 b e o q i sent t1 t2 t3 t4 x shut t5
  have hb : b = openHits slot.val r.w0 r.w1 s := openHits_ready ..
  have ht4 : t4 = releaseSent slot.val r.rate (sentItem b r.item) (releaseTaken slot.val b r rest s) := rfl
  have ht5 : t5 = releaseShut slot.val r.w0 t4 := by
    have hshut : shut = (x.isOpen && x.brkEnd.any fun t => decide (t ≤ r.w0)) := by
      unfold shut
      cases x.brkEnd <;> rfl
    unfold t5
    rw [hshut]
    rfl
  rw [← hb, ← ht4, ← ht5]
  exact next_releaseSettled slot.val r.first t5

/-! ## What each stage does -/

section
variable {c : Nat} {b first : Bool} {r : ReadyRec} {rest : List ReadyRec} {rate : Nat} {i : Item} {w0 : Int} {s : State}

theorem releaseTaken_only : Only [.svc, .chans] s (releaseTaken c b r rest s) := by
  have hspoilt : Only [.svc, .chans] s (if b then spoilSects c r.item.t (modChan c (fun x => { x with ready := rest }) s) else modChan c (fun x => { x with ready := rest }) s) :=
    .ite (Only.next (spoilSects_only _ _ _) rfl ((modChan_only _ _ _).mono rfl)) ((modChan_only _ _ _).mono rfl)
  exact .ite hspoilt (Only.next (modChan_only _ _ _) rfl hspoilt)

/-- A record that leaves is kept as the last clean one where it carries neither B nor O nor Q. -/
theorem chan_releaseTaken : chan c (releaseTaken c b r rest s) = { chan c s with
    ready := rest
    clean := if b = false ∧ decide (r.item.flags / 8 % 2 = 1) = false ∧ decide (64 ≤ r.item.flags) = false then some (r.item.t, r.item.value) else (chan c s).clean } := by
  unfold releaseTaken
  cases b with
  | true =>
    rw [if_pos (.inl rfl), if_neg fun h : true = false ∧ _ => Bool.noConfusion h.1, if_pos rfl, chan_congr ((spoilSects_only c r.item.t _).same .chans (by decide)), chan_modChan_self]
  | false =>
    have hclean : (false = true ∨ (decide (r.item.flags / 8 % 2 = 1) && !false) = true ∨ decide (64 ≤ r.item.flags) = true) ↔
        ¬ (false = false ∧ decide (r.item.flags / 8 % 2 = 1) = false ∧ decide (64 ≤ r.item.flags) = false) := by
      cases decide (r.item.flags / 8 % 2 = 1) <;> cases decide (64 ≤ r.item.flags) <;> decide
    rw [if_congr hclean rfl rfl, ite_not, if_neg Bool.false_ne_true]
    split
    · rw [chan_modChan_self, chan_modChan_self]
      rfl
    · exact chan_modChan_self ..

theorem enterService_grows (s : State) : ReadyGrows s (enterService s) := by
  have hstart : ReadyGrows s (startMark 4 (raise pgTIM timINSERV 0 (bumpGen pgTIM (s.modTim fun t => { t with inserv := true })))) :=
    ((ReadyGrows.of_only (Only.next (bumpGen_only _ _) rfl ((modTim_only _ s).mono (m := [.pages, .tim]) rfl)) rfl).trans (raise_grows _ _ _ _)).trans (.of_only (startMark_only _ _) rfl)
  have hstate (u : State) : ReadyGrows u (pwrState 1 u) :=
    .ite (.refl u) ((ReadyGrows.of_only (Only.next (bumpGen_only _ _) rfl ((modPwr_only _ u).mono (m := [.pages, .pwr]) rfl)) rfl).trans (raise_grows _ _ _ _))
  exact .ite (.refl s) (.ite (hstart.trans (hstate _)) hstart)

theorem enterService_inserv (h : s.tim.set = true) : (enterService s).tim.inserv = true := by
  unfold enterService
  split
  · next hin => exact hin.resolve_right fun h' => Bool.noConfusion (h.symm.trans h')
  · have htim (u : State) : (startMark 4 (raise pgTIM timINSERV 0 (bumpGen pgTIM u))).tim = u.tim :=
      (Only.next (startMark_only _ _) rfl (Only.next (raise_only _ _ _ _) rfl ((bumpGen_only _ u).mono (m := .pwr :: reports) rfl))).same .tim (by decide)
    dsimp only
    split
    · rw [(pwrState_only _ _).same .tim (by decide), htim]
      rfl
    · rw [htim]
      rfl

theorem releaseSent_only : Only [.pages, .fab, .tim, .del, .pci, .svc, .fwl, .pwr, .outbox] s (releaseSent c rate i s) := by
  have hfed : Only [.pages, .fab, .tim, .del, .pci, .svc, .fwl, .pwr, .outbox] s (feedTracks c i (emitSample rate i s)) := Only.next (feedTracks_only _ _ _) rfl ((emitSample_only _ _ _).mono rfl)
  exact .ite hfed (Only.next (enterService_only _) rfl hfed)

theorem releaseSent_grows : ReadyGrows (emitSample rate i s) (releaseSent c rate i s) := by
  have hfed : ReadyGrows (emitSample rate i s) (feedTracks c i (emitSample rate i s)) := .of_only (feedTracks_only _ _ _) rfl
  exact .ite hfed (hfed.trans (enterService_grows _))

/-- A hub whose time is set and that originates the record is in service then. -/
theorem releaseSent_inserv (hc : consFor .sample c s ≠ []) (h : s.tim.set = true) : (releaseSent c rate i s).tim.inserv = true := by
  have honly : Only [.del, .svc] s (feedTracks c i (emitSample rate i s)) := Only.next (feedTracks_only _ _ _) rfl ((emitSample_only _ _ _).mono rfl)
  have htim := honly.same .tim (by decide)
  obtain ⟨id, hid⟩ := List.exists_mem_of_ne_nil _ hc
  have hgrows : ReadyGrows s (feedTracks c i (emitSample rate i s)) := (emitSample_grows rate i s).trans (.of_only (feedTracks_only _ _ _) rfl)
  exact (congrArg (fun t : State => t.tim.inserv) (if_neg (List.ne_nil_of_mem (mem_consFor hgrows htim (honly.same .pln (by decide)) hid)))).trans
    (enterService_inserv (by rwa [htim]))

theorem inputCause_grows (c bit : Nat) (s : State) : ReadyGrows s (inputCause c bit s) :=
  .ite (.of_only (modChan_only _ _ _) rfl) ((ReadyGrows.of_only (modChan_only _ _ _) rfl).trans (raise_grows _ _ _ _))

theorem closedNow_grows (c : Nat) (s : State) : ReadyGrows s (closedNow c s) :=
  (ReadyGrows.of_only (Only.next (condEnd_only _ _ _ _) rfl (Only.next (bumpGen_only _ _) rfl ((modChan_only _ _ s).mono (m := [.pages, .fab, .chans]) rfl))) rfl).trans (inputCause_grows _ _ _)

/-- An input that is no longer open has its condition ended. -/
theorem closedNow_closed (c : Nat) (s : State) : (chan c (closedNow c s)).isOpen = false ∧ condOn (pgGroup (grpOf c)) inOPEN c (closedNow c s) = false := by
  refine ⟨?_, (condOn_inputCause ..).trans ?_⟩
  · have hopen := ((becomes_modChan c (fun x => { x with isOpen := false }) s).chan_only (bumpGen_only pgCHW _) rfl).chan_only (condEnd_only (pgGroup (grpOf c)) inOPEN c _) rfl
    have hcause := (inputCause_becomes c inCLOSED (condEnd (pgGroup (grpOf c)) inOPEN c (bumpGen pgCHW (modChan c (fun x => { x with isOpen := false }) s)))).1
    rw [hopen.1] at hcause
    exact (congrArg Chan.isOpen hcause :)
  · exact (condOn_condEnd ..).1

theorem releaseShut_only : Only (reporting [.chans]) s (releaseShut c w0 s) := .ite ((closedNow_only c s).mono rfl) (.refl _ s)

theorem releaseShut_grows : ReadyGrows s (releaseShut c w0 s) := .ite (closedNow_grows c s) (.refl s)

theorem releaseShut_core : ChansAlike Chan.core s (releaseShut c w0 s) := .ite (closedNow_core c s) (.refl s)

theorem releaseShut_closed (h : ((chan c s).isOpen && (chan c s).brkEnd.any fun t => decide (t ≤ w0)) = true) :
    (chan c (releaseShut c w0 s)).isOpen = false ∧ condOn (pgGroup (grpOf c)) inOPEN c (releaseShut c w0 s) = false := by
  rw [releaseShut, if_pos h]
  exact closedNow_closed c s

/-- A channel but for the settling of a rate change. -/
def Chan.unsettled (x : Chan) : Chan := { x with settle := false, rateSet := false }

/-- The end of the settling changes that of the channel alone, and reports it. -/
structure SettlesOnly (s t : State) : Prop where
  only : Only (reporting [.chans]) s t
  chans : ChansAlike Chan.unsettled s t
  grows : ReadyGrows s t
  conds : ∀ p bit sub, condOn p bit sub t = condOn p bit sub s

theorem releaseSettled_settlesOnly : SettlesOnly s (releaseSettled c first s) := by
  have hgen : SettlesOnly s (groupGen (grpOf c) (modChan c (fun x => { x with settle := false, rateSet := false }) s)) := by
    have honly := Only.next (groupGen_only (grpOf c) _) rfl ((modChan_only c (fun x => { x with settle := false, rateSet := false }) s).mono (m := [.pages, .chans]) rfl)
    have hmod : ChansAlike Chan.unsettled s (modChan c (fun x => { x with settle := false, rateSet := false }) s) := .modChan fun _ => rfl
    exact ⟨honly.mono rfl, hmod.next (groupGen_only (grpOf c) _) rfl, .of_only honly rfl, condOn_only honly rfl⟩
  have hraise {d : Nat} {u : State} (h : SettlesOnly s u) : SettlesOnly s (groupRaise (grpOf c) relRATESET d u) :=
    ⟨Only.next (groupRaise_only _ _ _ _) rfl h.only, h.chans.next (groupRaise_only _ _ _ _) rfl, h.grows.trans (raise_grows _ _ _ _),
      fun p bit sub => (condOn_raise _ _ _ _ p bit sub).trans (h.conds p bit sub)⟩
  unfold releaseSettled
  split
  · split
    · exact hraise hgen
    · exact hgen
  · exact ⟨.refl _ s, .refl s, .refl s, fun _ _ _ => rfl⟩

end

/-- What follows the taking of a record: it is on its way, the channel's records that wait stay as they are, and an input whose open state has passed is closed. -/
theorem releaseRest (c rate : Nat) (first : Bool) (i : Item) (w0 : Int) (s : State) :
    let t := releaseSettled c first (releaseShut c w0 (releaseSent c rate i s))
    ((chan c t).ready = (chan c s).ready ∧ (chan c t).clean = (chan c s).clean) ∧ ReadyGrows (emitSample rate i s) t ∧
      (consFor .sample c s ≠ [] → s.tim.set = true → t.tim.inserv = true) ∧
      (((chan c s).isOpen && (chan c s).brkEnd.any fun t => decide (t ≤ w0)) = true → (chan c t).isOpen = false ∧ condOn (pgGroup (grpOf c)) inOPEN c t = false) := by
  obtain ⟨honly, hchans, hgrows, hconds⟩ := releaseSettled_settlesOnly (c := c) (first := first) (s := releaseShut c w0 (releaseSent c rate i s))
  have hshut : Only (reporting [.chans]) _ (releaseShut c w0 (releaseSent c rate i s)) := releaseShut_only
  have hcore := releaseShut_core (c := c) (w0 := w0) (s := releaseSent c rate i s) c
  have hsent : chan c (releaseSent c rate i s) = chan c s := chan_congr (releaseSent_only.same .chans (by decide)) c
  rw [hsent] at hcore
  have hkept := hchans c
  refine ⟨⟨(congrArg Chan.ready hkept :).trans (congrArg Chan.ready hcore :), (congrArg Chan.clean hkept :).trans (congrArg Chan.clean hcore :)⟩,
    (releaseSent_grows.trans releaseShut_grows).trans hgrows, fun hc hset => ?_, fun hopen => ?_⟩
  · rw [honly.same .tim (by decide), hshut.same .tim (by decide)]
    exact releaseSent_inserv hc hset
  · obtain ⟨hshut, hcond⟩ := releaseShut_closed (c := c) (w0 := w0) (s := releaseSent c rate i s) (by rwa [hsent])
    exact ⟨(congrArg Chan.isOpen hkept :).trans hshut, (hconds ..).trans hcond⟩

/-! ## A release -/

/-- The record goes into each contract that took it before the release. -/
theorem mem_ready_released {id : Nat} {b : Bool} {i : Item} {s s1 t : State} {rate : Nat} (htaken : Only [.svc, .chans] s s1) (h : ReadyGrows (emitSample rate (sentItem b i) s1) t)
    (hid : id ∈ consFor .sample (slotOf i.src) s) (hbar : barred id i.t s = false) (hrun : ((con id s).ent.any fun k => k.runs) = false) : sentItem b i ∈ (con id t).ready := by
  have hgrows : ReadyGrows s s1 := .of_only htaken rfl
  obtain ⟨hent, -⟩ := ConSt.staged_fields (hgrows.rest id)
  have hsent : (sentItem b i).src = i.src ∧ (sentItem b i).t = i.t := by cases b <;> exact ⟨rfl, rfl⟩
  refine h.grows id _ (mem_ready_emitSample rate ?_ ?_ (by rwa [hent]))
  · rw [hsent.1]
    exact mem_consFor hgrows (htaken.same .tim (by decide)) (htaken.same .pln (by decide)) hid
  · rwa [hsent.2, barred_congr hgrows (htaken.same .lsh (by decide))]

theorem recordRelease_runs {slot : Slot} {r : ReadyRec} {rest : List ReadyRec} {s : State} (hr : (chan slot.val s).ready = r :: rest) (hn : r.rel ≤ nowTk s)
    (ho : (oldDue (chan slot.val s) && pastBound (chan slot.val s) r.tt) = false) :
    let b := openHits slot.val r.w0 r.w1 s
    Runs (.recordRelease slot) s (reporting [.tim, .svc, .pwr, .chans]) fun t =>
      (chan slot.val t).ready = rest ∧
      (chan slot.val t).clean = (if b = false ∧ decide (r.item.flags / 8 % 2 = 1) = false ∧ decide (64 ≤ r.item.flags) = false then some (r.item.t, r.item.value) else (chan slot.val s).clean) ∧
      (∀ id ∈ consFor .sample (slotOf r.item.src) s, barred id r.item.t s = false → ((con id s).ent.any fun k => k.runs) = false → sentItem b r.item ∈ (con id t).ready) ∧
      (consFor .sample slot.val s ≠ [] → s.tim.set = true → t.tim.inserv = true) ∧
      (((chan slot.val s).isOpen && (chan slot.val s).brkEnd.any fun y => decide (y ≤ r.w0)) = true → (chan slot.val t).isOpen = false ∧ condOn (pgGroup (grpOf slot.val)) inOPEN slot.val t = false) := by
  intro b
  have htaken : Only [.svc, .chans] s (releaseTaken slot.val b r rest s) := releaseTaken_only
  have hchan : chan slot.val (releaseTaken slot.val b r rest s) = _ := chan_releaseTaken
  have htim := htaken.same .tim (by decide)
  obtain ⟨⟨hready, hclean⟩, hgrows, hserv, hshut⟩ := releaseRest slot.val r.rate r.first (sentItem b r.item) r.w0 (releaseTaken slot.val b r rest s)
  refine Runs.of (o := execRecordRelease slot s) rfl (Answers.mono (execRecordRelease_only slot s) rfl) (exec_recordRelease hr hn ho)
    ⟨hready.trans (congrArg Chan.ready hchan), hclean.trans (congrArg Chan.clean hchan), fun id => mem_ready_released htaken hgrows, fun hc hset => ?_, fun hopen => hshut ?_⟩
  · obtain ⟨id, hid⟩ := List.exists_mem_of_ne_nil _ hc
    exact hserv (List.ne_nil_of_mem (mem_consFor (.of_only htaken rfl) htim (htaken.same .pln (by decide)) hid)) (htim ▸ hset)
  · rw [hchan]
    exact hopen

end Sys2Proof.Machine
end

section
/-! PROOF. Channels sample and release (R75, R76, R94–R96, R112, R134, R142–R146, R154). -/

namespace Sys2Proof.Machine

section
variable (g c : Nat) (t : Stamp) (s : State)

theorem fine_beginGroup : fineW1 c t (beginGroup g s) = fineW1 c t s ∧ finePer c t (beginGroup g s) = finePer c t s ∧ fineHalf c t (beginGroup g s) = fineHalf c t s ∧
    fineTt c t (beginGroup g s) = fineTt c t s ∧ fineQ c t (beginGroup g s) = fineQ c t s :=
  fine_congr (chan_beginGroup g c s) ((beginGroup_only g s).same .tim (by decide)) t

theorem fineMade_beginGroup : fineMade c t (beginGroup g s) = fineMade c t s := by
  obtain ⟨-, hper, -, htt, hq⟩ := fine_beginGroup g c t s
  funext range code o
  rw [fineMade, chan_beginGroup, hper, htt, hq, fineMade]

theorem fineCode_beginGroup (conv : Nat) (mods : List Int) : fineCode g conv c t mods (beginGroup g s) =
    correct g conv (rangeAt (chan c s) (fineTt c t s + fineHalf c t s)) c (fineTt c t s) (fineTt c t s + fineHalf c t s) (chainOut (isFast c) (fineW1 c t s) mods) (beginGroup g s) := by
  obtain ⟨hw, -, hhalf, htt, -⟩ := fine_beginGroup g c t s
  rw [fineCode, chan_beginGroup, hw, hhalf, htt]

theorem fineValue_beginGroup (code : Int) : fineValue c t (beginGroup g s) code = valueOf c code (fineTt c t s) (fineTt c t s + fineHalf c t s) (beginGroup g s) := by
  obtain ⟨-, -, hhalf, htt, -⟩ := fine_beginGroup g c t s
  rw [fineValue, hhalf, htt]

end

/-- A record that no settling span makes Q keeps its own instant. -/
theorem fineMade_stamp {c range : Nat} {t : Stamp} {s : State} {code : Int} {o : Bool} (h : fineQ c t s = false) :
    (fineMade c t s range code o).1 = Stamp.ofTotal t.epoch ((exactTk (finePer c t s) t).toNat / 1024) := by
  rw [fineMade, h]
  rfl

theorem nextInst_of_no_boundary {c : Nat} {x : Chan} (h : x.tb = none) (tt per : Int) : nextInst c x tt per = some (tt + per) := by
  rw [nextInst, h]

/-- Settles O49, command by command: each clause is the rule of its command, a record made in a wakened group being the one made in the group as it was. -/
theorem channelsSampleAndRelease : Obligations.ChannelsSampleAndRelease := by
  unfold Obligations.ChannelsSampleAndRelease
  intro g q ch slot conv sec m bias start stop c range mods t0 nv err cm aHigh isOver east r rest s hx
  extract_lets x s1 fast w0 w1 at_ v switching w1r tt half rg f per fq rv val cf spans i z b e o qf sent y kept task lc bit bad nb ng pairOf
  have hdie (p p' : Nat × Nat) (n : Nat) (h : p' = setDie east p n) : pairOf p p' n := by
    cases east <;> exact h
  refine ⟨fun hu hc hk hs => ?_, fun ho hd hc hf hs => ?_, fun hr hn ho => recordRelease_runs hr hn ho, modOverload_unserved_runs hx, modOverload_served_runs hx, modulatorReset_runs hx,
    fun hb hc => ?_, fun hb => ?_, fun ht => ⟨leadStepDone_repeat_runs hx ht, fun ho hc => ?_, leadStepDone_open_runs hx ht⟩, fun h3 ho hc => ?_⟩
  · have hsample := coarseSample_runs (conv := conv) (mods := mods) (pins := ⟨aHigh, cm⟩) (bias := bias) hx w0 rfl hu hc (by rwa [windowHas_eq_any]) hs
    rwa [coarseValue, windowHas_eq_any] at hsample
  · refine (fineRecordReady_runs (mods := mods) (cm := cm) hx ho hd hc hf hs).imp fun u hu => ?_
    obtain ⟨hready, hdue, hnext⟩ := hu
    obtain ⟨hw, hper, hhalf, htt, hq⟩ := fine_beginGroup g.val c t0 s
    rw [readyRec, fineCode_beginGroup, fineMade_beginGroup, fineValue_beginGroup, chan_beginGroup, hw, hhalf, htt, hq] at hready
    exact ⟨_, hready, rfl, rfl, rfl, rfl, rfl, fineMade_stamp, rfl, rfl, rfl, rfl, hdue, hnext, fun h => hnext.trans (nextInst_of_no_boundary h _ _)⟩
  · exact (synPhaseCompare_bad_runs hx hb hc).imp fun t ⟨hbad, hgood, hlatched⟩ => ⟨hdie _ _ _ hbad, hdie _ _ _ hgood, hlatched⟩
  · exact (synPhaseCompare_good_runs hx hb).imp fun t ⟨hbad, hgood, hcond⟩ => ⟨hdie _ _ _ hbad, hdie _ _ _ hgood, hcond⟩
  · refine (leadStepDone_kept_runs hx ht ho hc).imp fun t ⟨⟨l, hself, hothers⟩, hcond, htgt, hrange⟩ => ⟨?_, ?_, ?_, hcond, hothers, htgt, hrange⟩ <;> rw [hself] <;> rfl
  · refine (leadStaleTimer_runs hx h3 ho hc).imp fun t ⟨⟨hself, hothers⟩, hcond, hlatched⟩ => ⟨?_, ?_, hlatched, hcond, hothers⟩ <;> rw [hself] <;> rfl

end Sys2Proof.Machine
end

section
/-! PROOF. The Tattoo words that take the relief (R108, R160–R165). -/

namespace Sys2Proof.Machine

/-! ## The fields of the words (R162, R164) -/

theorem leadWord_fields (auto : Bool) (ch : Fin 16) :
    tatOp (leadWord auto ch.val) = 3 ∧ wbit (leadWord auto ch.val) 27 = auto ∧ wbits (leadWord auto ch.val) 0 4 = ch.val := by
  revert auto ch
  decide

/-- The channel index that the relief names for a LEAD. -/
theorem tatIdx_leadWord (g : Nat) (auto : Bool) (ch : Fin 16) (s : State) : tatIdx g (leadWord auto ch.val) s = (leadChan g auto ch.val s).elim 0 idxOf := by
  obtain ⟨hop, hauto, hch⟩ := leadWord_fields auto ch
  rw [tatIdx, if_pos hop, hauto, hch]
  cases leadChan g auto ch.val s <;> rfl

/-- Fields above bit 16 take nothing from the low half of a word. -/
theorem wbits_or_low {d : Nat} (h : d < 2 ^ 16) (w : Word) {lo : Nat} (hlo : 16 ≤ lo) (n : Nat) : wbits (w ||| BitVec.ofNat 32 d) lo n = wbits w lo n := by
  have hd : (d % 2 ^ 32) >>> lo = 0 := Nat.shiftRight_eq_zero _ _ ((Nat.mod_le d _).trans_lt (h.trans_le (Nat.pow_le_pow_right (by decide) hlo)))
  rw [wbits, bits, BitVec.toNat_or, BitVec.toNat_ofNat, Nat.shiftRight_or_distrib, hd, Nat.or_zero, wbits, bits]

theorem refWord_eq_or (src range dwell : Nat) : refWord src range dwell = refWord src range 0 ||| BitVec.ofNat 32 (dwell % 2 ^ 16) := by
  simp only [refWord, mkWord, packNat, List.foldl, Nat.shiftLeft_zero, Nat.zero_mod, Nat.or_zero, BitVec.ofNat_or]

theorem refWord_fields (src : Fin 16) (range : Fin 4) (dwell : Nat) :
    tatOp (refWord src.val range.val dwell) = 5 ∧ wbits (refWord src.val range.val dwell) 20 2 = range.val := by
  have hd : dwell % 2 ^ 16 < 2 ^ 16 := Nat.mod_lt _ (by decide)
  rw [refWord_eq_or, tatOp, wbits_or_low hd _ (by decide), wbits_or_low hd _ (by decide)]
  revert src range
  decide

/-! ## An idle relief, and a sequencer that issues (R108, R156) -/

/-- The relief of a group is there, and no task holds it. -/
structure Group.Idle (x : Group) : Prop where
  relief : x.relief ≠ none
  freed : x.freed = none
  fwin : x.fwin = false
  task : x.task = 0

theorem Group.Idle.holder {x : Group} (h : x.Idle) : x.holder = 0 := by
  rw [Group.holder, h.fwin, if_neg Bool.false_ne_true, h.task]

theorem Group.Idle.mayTake {x : Group} (h : x.Idle) {t : Nat} (ht : takesFrom t 0 = true) : mayTake t x = true := by
  rw [Machine.mayTake, h.holder, ht, h.freed, Option.isSome_iff_ne_none.mpr h.relief]
  rfl

/-- A sequencer whose program issues its next word: it waits for nothing, has no task and leaves no word out. -/
structure Tat.Ready (x : Tat) : Prop where
  run : x.run = true
  wait : x.wait = none
  task : x.task = none
  skip : x.skip = false

theorem tatIssue_ready {g : Nat} {s : State} (hx : s.fuse.hx000 = false) (h : (tat g s).Ready) (f : State → State) : tatIssue g f s = .next (f s) := by
  simp [tatIssue, analogue, hx, h.run, h.wait, h.task, h.skip]

/-! ## The sequencer goes on -/

/-- A sequencer that goes on with the next word. -/
def Tat.goesOn (x : Tat) : Tat := { x with pc := x.pc + 1, task := none, wait := none, skip := false }

/-- One that goes on and leaves an action out. -/
def Tat.skips (x : Tat) : Tat := { x with cntSkip := (x.cntSkip + 1) % 65536 }.goesOn

/-- One that goes on and defers a word. -/
def Tat.defers (w : Word) (x : Tat) : Tat := { x.goesOn with deferred := x.deferred ++ [w], defs := x.defs + 1 }

/-- One that goes on and drops a word. -/
def Tat.drops (x : Tat) : Tat := { x.goesOn with cntDrop := (x.cntDrop + 1) % 65536 }

/-- Group `g` differs in its sequencer alone, which is now `x`. -/
abbrev Steps (g : Nat) (x : Tat) (s t : State) : Prop := Becomes grp g { grp g s with tat := x } s t

theorem Steps.thenModTat {g : Nat} {x : Tat} {s t : State} (h : Steps g x s t) (f : Tat → Tat) : Steps g (f x) s (modTat g f t) :=
  h.thenModGrp fun y => { y with tat := f y.tat }

theorem tatNext_steps (g : Nat) (s : State) : Steps g (tat g s).goesOn s (tatNext g s) := becomes_modGrp g _ s

theorem tatSkip_steps (g : Nat) (s : State) : Steps g (tat g s).skips s (tatSkip g s) :=
  have hcount : Steps g { tat g s with cntSkip := ((tat g s).cntSkip + 1) % 65536 } s (modTat g (fun t => { t with cntSkip := (t.cntSkip + 1) % 65536 }) s) := becomes_modGrp g _ s
  hcount.thenModTat Tat.goesOn

theorem deferTail_steps (g : Nat) (w : Word) (s : State) (h : (tat g s).defs < 4) :
    Only [.grps] s (deferTail g w (tatNext g s)) ∧ Steps g ((tat g s).defers w) s (deferTail g w (tatNext g s)) := by
  have hnext := tatNext_steps g s
  have hdefs : ¬ 4 ≤ (tat g (tatNext g s)).defs := by
    rw [tat, hnext.1]
    exact Nat.not_le.mpr h
  rw [deferTail, if_neg hdefs]
  exact ⟨Only.next (modTat_only _ _ _) rfl (tatNext_only g s), hnext.thenModTat fun t => { t with deferred := t.deferred ++ [w], defs := t.defs + 1 }⟩

theorem deferTail_full_steps (g : Nat) (w : Word) (s : State) (h : 4 ≤ (tat g s).defs) : Steps g (tat g s).drops s (deferTail g w (tatNext g s)) := by
  have hnext := tatNext_steps g s
  have hdefs : 4 ≤ (tat g (tatNext g s)).defs := by
    rw [tat, hnext.1]
    exact h
  rw [deferTail, if_pos hdefs]
  exact (hnext.thenModTat fun t => { t with cntDrop := (t.cntDrop + 1) % 65536 }).grp_only (raiseOnce_only _ _ _ _ _) rfl

/-! ## LEAD, REF and EXCM (R160–R162, R164, R165) -/

section
variable {i : Instr} {g : Nat} {w : Word} {s : State} (hx : s.fuse.hx000 = false) (hi : ∀ s, exec i s = tatIssue g (reliefIssue g w) s) (hr : (tat g s).Ready)
include hx hi hr

theorem reliefIssue_skipped_runs (hk : skipped g w s = true) : Runs i s [.grps] (Steps g (tat g s).skips s) :=
  .of_only ((hi s).trans (tatIssue_ready hx hr _)) (if_pos hk) (tatSkip_only g s) (tatSkip_steps g s)

variable (hk : skipped g w s = false)
include hk

theorem reliefIssue_free_runs (hf : (grp g s).Idle) : Runs i s [.grps]
    (Becomes grp g { grp g s with tat := { tat g s with task := some w }, task := tatTask w, tgt := tatIdx g w s, trange := tatRange w } s) := by
  have hmay : mayTake (tatTask w) (grp g s) = true := by
    rw [tatTask]
    split
    · exact hf.mayTake rfl
    · exact hf.mayTake rfl
  have htake : takeTat g w s = modGrp g (fun x => { x with task := tatTask w, tgt := tatIdx g w s, trange := tatRange w }) s := by
    rw [takeTat_eq, takeRelief, dropTask_of_free (.inl hf.holder)]
  refine .of_only ((hi s).trans (tatIssue_ready hx hr _)) ((if_neg (ne_true_of_eq_false hk)).trans (if_pos hmay)) ?_ ?_ <;> rw [htake]
  · exact Only.next (modTat_only _ _ _) rfl (modGrp_only g _ s)
  · exact (becomes_modGrp g _ s).thenModGrp fun x => { x with tat := { x.tat with task := some w } }

variable (hb : mayTake (tatTask w) (grp g s) = false)
include hb

theorem reliefIssue_busy_runs (hd : (tat g s).defs < 4) : Runs i s [.grps] (Steps g ((tat g s).defers w) s) := by
  obtain ⟨honly, hsteps⟩ := deferTail_steps g w s hd
  exact .of_only ((hi s).trans (tatIssue_ready hx hr _)) ((if_neg (ne_true_of_eq_false hk)).trans (if_neg (ne_true_of_eq_false hb))) honly hsteps

theorem reliefIssue_full_runs (hd : 4 ≤ (tat g s).defs) : Runs i s (reporting [.grps]) (Steps g (tat g s).drops s) :=
  .of_only ((hi s).trans (tatIssue_ready hx hr _)) ((if_neg (ne_true_of_eq_false hk)).trans (if_neg (ne_true_of_eq_false hb)))
    (Only.next (deferTail_only _ _ _) rfl ((tatNext_only g s).mono rfl)) (deferTail_full_steps g w s hd)

end

/-! ## PULSE (R90, R109, R163) -/

/-- A sequencer on a PULSE: its word, and the channels still to be pulsed. -/
def Tat.pulses (auto : Bool) (ch : Nat) (cs : List Nat) (x : Tat) : Tat := { x with task := some (mkWord [(28, 4, 4), (27, 1, b2n auto), (0, 4, ch)]), toPulse := cs }

/-- The first window of a PULSE, on the relief or not. -/
def pulseOpened (g : Nat) (auto : Bool) (ch c : Nat) (cs : List Nat) (onRel : Bool) (s : State) : State := openWindow g c onRel (modTat g (Tat.pulses auto ch cs) s)

section
variable (g : Nat) (auto : Bool) (ch c : Nat) (cs : List Nat) (onRel : Bool) (s : State)

theorem pulseOpened_only : Only [.chans, .grps] s (pulseOpened g auto ch c cs onRel s) :=
  Only.next (modTat_only _ _ _) rfl (Only.next (modChan_only _ _ _) rfl ((modTat_only g _ s).mono rfl))

theorem pulseOpened_steps : Steps g (((tat g s).pulses auto ch cs).withWindow c onRel) s (pulseOpened g auto ch c cs onRel s) :=
  have hpulses : Steps g ((tat g s).pulses auto ch cs) s (modTat g (Tat.pulses auto ch cs) s) := becomes_modGrp g _ s
  Steps.thenModTat (hpulses.grp_only (modChan_only c _ _) rfl) (Tat.withWindow c onRel)

theorem pulseOpened_chan : Becomes chan c { chan c s with windowed := true } s (pulseOpened g auto ch c cs onRel s) :=
  (((Becomes.refl chan c s).chan_only (modTat_only g _ s) rfl).thenModChan fun x => { x with windowed := true }).chan_only (modTat_only g _ _) rfl

end

section
variable {g : Grp} {auto : Bool} {ch : Fin 16} {s : State} (hx : s.fuse.hx000 = false) (hr : (tat g.val s).Ready)
include hx hr

theorem exec_pulse : exec (.pulse g auto ch) s = .next (if 16 ≤ g.val then tatSkip g.val s
    else match pulseChans g.val auto ch.val s with
      | [] => if auto then tatNext g.val s else tatSkip g.val s
      | c :: cs => startWindow g.val c (modTat g.val (Tat.pulses auto ch.val cs) s)) := by
  change execPulse g auto ch s = _
  rw [execPulse, tatIssue_ready hx hr]
  rfl

theorem pulse_fast_runs (hg : 16 ≤ g.val) : Runs (.pulse g auto ch) s [.grps] (Steps g.val (tat g.val s).skips s) :=
  .of_only (exec_pulse hx hr) (if_pos hg) (tatSkip_only g.val s) (tatSkip_steps g.val s)

variable (hg : g.val < 16)
include hg

theorem pulse_over_runs (hp : pulseChans g.val auto ch.val s = []) (ha : auto = true) : Runs (.pulse g auto ch) s [.grps] (Steps g.val (tat g.val s).goesOn s) :=
  .of_only (exec_pulse hx hr) ((if_neg (Nat.not_le.mpr hg)).trans (by rw [hp]; exact if_pos ha)) (tatNext_only g.val s) (tatNext_steps g.val s)

theorem pulse_skipped_runs (hp : pulseChans g.val auto ch.val s = []) (ha : auto = false) : Runs (.pulse g auto ch) s [.grps] (Steps g.val (tat g.val s).skips s) :=
  .of_only (exec_pulse hx hr) ((if_neg (Nat.not_le.mpr hg)).trans (by rw [hp]; exact if_neg (ne_true_of_eq_false ha))) (tatSkip_only g.val s) (tatSkip_steps g.val s)

variable {c : Nat} {cs : List Nat} (hp : pulseChans g.val auto ch.val s = c :: cs)
include hp

theorem pulse_own_runs (hb : mayTake 6 (grp g.val s) = false) : Runs (.pulse g auto ch) s [.chans, .grps] fun t =>
    Steps g.val (((tat g.val s).pulses auto ch.val cs).withWindow c false) s t ∧ Becomes chan c { chan c s with windowed := true } s t := by
  have hbusy : mayTake 6 (grp g.val (modTat g.val (Tat.pulses auto ch.val cs) s)) = false := by
    rw [modTat, grp_modGrp_self]
    exact hb
  refine .of_only (t := pulseOpened g.val auto ch.val c cs false s) (exec_pulse hx hr) ((if_neg (Nat.not_le.mpr hg)).trans ?_) (pulseOpened_only ..)
    ⟨pulseOpened_steps .., pulseOpened_chan ..⟩
  rw [hp]
  exact (startWindow_eq ..).trans (if_neg (ne_true_of_eq_false hbusy))

theorem pulse_relief_runs (hf : (grp g.val s).Idle) : Runs (.pulse g auto ch) s [.chans, .grps] fun t =>
    Becomes grp g.val { grp g.val s with tat := ((tat g.val s).pulses auto ch.val cs).withWindow c true, task := 6, tgt := idxOf c, trange := 0 } s t ∧
    Becomes chan c { chan c s with windowed := true } s t := by
  have hsteps := pulseOpened_steps g.val auto ch.val c cs true s
  have hmay : mayTake 6 (grp g.val (modTat g.val (Tat.pulses auto ch.val cs) s)) = true := by
    rw [modTat, grp_modGrp_self]
    exact hf.mayTake rfl
  have hheld : (grp g.val (pulseOpened g.val auto ch.val c cs true s)).holder = 0 := by
    rw [hsteps.1]
    exact hf.holder
  refine .of_only (t := modGrp g.val (fun x => { x with task := 6, tgt := idxOf c, trange := 0 }) (pulseOpened g.val auto ch.val c cs true s)) (exec_pulse hx hr)
    ((if_neg (Nat.not_le.mpr hg)).trans ?_) (Only.next (modGrp_only _ _ _) rfl (pulseOpened_only ..))
    ⟨hsteps.thenModGrp fun x => { x with task := 6, tgt := idxOf c, trange := 0 }, (pulseOpened_chan ..).chan_only (modGrp_only _ _ _) rfl⟩
  rw [hp]
  exact (startWindow_eq ..).trans ((if_pos hmay).trans (congrArg (modGrp g.val _) (dropTask_of_free (.inl hheld))))

end

/-- Settles O17: LEAD, REF and EXCM as one word of each that takes the relief, waits for it, is dropped or is skipped, PULSE by the channels it names. -/
theorem tattooReliefWordsTakeOrDefer : Obligations.TattooReliefWordsTakeOrDefer := by
  unfold Obligations.TattooReliefWordsTakeOrDefer
  intro g ch auto src range dwell s hx ready free kept counted issues pulse
  have hready {g : Nat} : ready g → (tat g s).Ready := fun ⟨hrun, hwait, htask, hskip⟩ => ⟨hrun, hwait, htask, hskip⟩
  have hidle {g : Nat} : free g → (grp g s).Idle := fun ⟨hrelief, hfreed, hfwin, htask⟩ => ⟨hrelief, hfreed, hfwin, htask⟩
  have hcounted {g : Nat} (t : State) (ht : Steps g (tat g s).skips s t) : counted g t := by
    obtain ⟨hself, hothers⟩ := ht
    refine ⟨?_, ?_, ?_, ?_, hothers⟩ <;> simp only [tat, hself] <;> rfl
  have hissues {i : Instr} {w : Word} (hi : ∀ s, exec i s = tatIssue g.val (reliefIssue g.val w) s) {tgt : Nat} (htgt : skipped g.val w s = false → tatIdx g.val w s = tgt) :
      issues i g.val w (tatTask w) tgt (tatRange w) := fun hr =>
    ⟨fun hk hf => (reliefIssue_free_runs hx hi (hready hr) hk (hidle hf)).imp fun t ⟨hself, hothers⟩ => by
        refine ⟨?_, ?_, ?_, ?_, ?_, ?_, hothers⟩ <;> simp only [tat, hself]
        exact htgt hk,
      fun hk hb hd => (reliefIssue_busy_runs hx hi (hready hr) hk hb hd).imp fun t ⟨hself, hothers⟩ => by
        refine ⟨?_, ?_, ?_, ?_, ?_, hothers⟩ <;> simp only [tat, hself] <;> rfl,
      fun hk hb hd => (reliefIssue_full_runs hx hi (hready hr) hk hb hd).imp fun t ⟨hself, hothers⟩ => by
        refine ⟨?_, ?_, ?_, ?_, hothers⟩ <;> simp only [tat, hself] <;> rfl,
      fun hk => (reliefIssue_skipped_runs hx hi (hready hr) hk).imp hcounted⟩
  have hlead {tgt : Nat} (htgt : skipped g.val (leadWord auto ch.val) s = false → tatIdx g.val (leadWord auto ch.val) s = tgt) :
      issues (.lead g auto ch) g.val (leadWord auto ch.val) 5 tgt 3 := by
    have h := hissues (i := .lead g auto ch) (fun _ => rfl) htgt
    rwa [tatTask, tatRange, (leadWord_fields auto ch).1] at h
  have href : issues (.ref g src range dwell) g.val (refWord src.val range.val dwell.toNat) 1 0 range.val := by
    obtain ⟨hop, hrange⟩ := refWord_fields src range dwell.toNat
    have h := hissues (i := .ref g src range dwell) (w := refWord src.val range.val dwell.toNat) (tgt := 0) (fun _ => rfl) fun _ => by rw [tatIdx, hop, if_neg (by decide)]
    rwa [tatTask, tatRange, hop, hrange] at h
  refine ⟨fun c hc => hlead fun _ => ?_, fun hc => hlead fun hk => ?_, href, hissues (fun _ => rfl) fun _ => rfl, fun hg hr => (pulse_fast_runs hx (hready hr) hg).imp hcounted,
    fun hg hr => ⟨fun hp ha => (pulse_over_runs hx (hready hr) hg hp ha).imp fun t ⟨hself, hothers⟩ => ?_, fun hp ha => (pulse_skipped_runs hx (hready hr) hg hp ha).imp hcounted,
      fun c cs hp => ?_⟩⟩
  · rw [tatIdx_leadWord, hc]
    rfl
  · rw [tatIdx_leadWord, hc]
    rfl
  · refine ⟨?_, ?_, ?_, hothers⟩ <;> simp only [tat, hself] <;> rfl
  · intro begins
    refine ⟨fun hf => (pulse_relief_runs hx (hready hr) hg hp (hidle hf)).imp fun t ⟨⟨hself, hothers⟩, hchan⟩ => ?_,
      fun hb => (pulse_own_runs hx (hready hr) hg hp hb).imp fun t ⟨⟨hself, hothers⟩, hchan⟩ => ?_⟩
    · refine ⟨⟨?_, ?_, ?_, hchan, hothers⟩, ?_, ?_⟩ <;> simp only [tat, hself] <;> rfl
    · refine ⟨⟨?_, ?_, ?_, hchan, hothers⟩, ?_⟩ <;> simp only [tat, hself] <;> rfl

end Sys2Proof.Machine
end

section
/-! SUPPORT. The relief changing hands: what a task that gives it up leaves, an overlap that begins, a hard switch decided, a campaign judged (R108, R110, R111, R126, R189). -/

namespace Sys2Proof.Machine

/-! ## A task that gives the relief up (R108) -/

/-- A group but for who holds its relief, the Tattoo sequencer with it. -/
def Group.offTask (x : Group) : Group :=
  { x with tat := {}, task := 0, tgt := 0, trange := 0, fwin := false, ovl := none, cancels := 0, extrap := false, retry := none }

/-- Group `g` is now like `x` but for who holds its relief, and every other group is as before. -/
def Yields (g : Nat) (x : Group) (s t : State) : Prop := (grp g t).offTask = x.offTask ∧ ∀ j, j ≠ g → grp j t = grp j s

theorem Becomes.yields {g : Nat} {x y : Group} {s t : State} (h : Becomes grp g y s t) (hxy : y.offTask = x.offTask) : Yields g x s t := ⟨h.1 ▸ hxy, h.2⟩

theorem requeueTat_yields (g : Nat) (s : State) : Yields g (grp g s) s (requeueTat g s) := by
  have htat (f : Tat → Tat) (u : State) : Becomes grp g { grp g u with tat := f (tat g u) } u (modTat g f u) := becomes_modGrp g _ u
  have hhead (w : Word) {u : State} (h : Yields g (grp g s) s u) : Yields g (grp g s) s (deferHead g w u) := by
    obtain ⟨hself, hothers⟩ := htat (fun t => { t with deferred := w :: t.deferred }) u
    exact ⟨(congrArg Group.offTask hself).trans h.1, fun j hj => (hothers j hj).trans (h.2 j hj)⟩
  unfold requeueTat
  split
  · exact hhead _ ((htat _ s).yields rfl)
  · split
    · split
      · exact hhead _ ((htat _ s).yields rfl)
      · exact (Becomes.refl grp g s).yields rfl
    · exact (Becomes.refl grp g s).yields rfl

theorem dropTask_yields (g : Nat) (s : State) : Yields g (grp g s) s (dropTask g s) := by
  have hsame : Yields g (grp g s) s s := (Becomes.refl grp g s).yields rfl
  unfold dropTask
  dsimp only
  split
  · exact requeueTat_yields g s
  · exact ((Becomes.refl grp g s).grp_only (abandonSlice_only g s) rfl).yields rfl
  · split
    · next o _ =>
      obtain ⟨n, e, hcancel⟩ := cancelOvl_becomes g (modGrp g (fun x => { x with retry := some o.ch }) s)
      exact ((becomes_modGrp g (fun x => { x with retry := some o.ch }) s).andThen (Group.cancelled n e) hcancel).yields rfl
    · exact hsame
  · exact requeueTat_yields g s
  · exact hsame

/-! ## An overlap that begins (R111) -/

/-- The overlap that begins on a channel, its relief connected 3 µs from now. -/
def Ovl.begun (c : Nat) (range : Bool) (target attempt : Nat) (req : RReq) (s : State) : Ovl :=
  { ch := c, range := range, target := target, tq := nowTk s, tc := nowTk s + connectTk, ns := firstStarting c (nowTk s + connectTk + settleTk (isFast c)) s, req := req,
    attempt := attempt, overrun := req.isOver }

theorem Ovl.begun_congr {s t : State} (htim : t.tim = s.tim) (hchans : t.chans = s.chans) (c : Nat) (range : Bool) (target attempt : Nat) (req : RReq) :
    Ovl.begun c range target attempt req t = .begun c range target attempt req s := by
  simp only [Ovl.begun, firstStarting, perOf, halfOf, nowTk_congr htim, chan_congr hchans]

/-- A group whose relief has an overlap. -/
def Group.overlapped (o : Ovl) (x : Group) : Group := { x with ovl := some o, task := if o.range then 4 else 3, tgt := idxOf o.ch, trange := o.target }

theorem startOvl_becomes (g c : Nat) (range : Bool) (target attempt : Nat) (req : RReq) (s : State) :
    Becomes grp g ((grp g s).overlapped (.begun c range target attempt req s)) s (startOvl g c range target attempt req (nowTk s + connectTk) s) :=
  (becomes_modGrp g (Group.overlapped (.begun c range target attempt req s)) s).grp_only (groupGen_only g _) rfl

/-- The relief of group `g` has the overlap `o`, the group is otherwise like `x` but for its sequencer, and every other group is as before. -/
structure Overlaps (g : Nat) (o : Ovl) (x : Group) (s t : State) : Prop where
  ovl : (grp g t).ovl = some o
  task : (grp g t).task = if o.range then 4 else 3
  tgt : (grp g t).tgt = idxOf o.ch
  trange : (grp g t).trange = o.target
  yields : Yields g x s t

theorem Becomes.overlaps {g : Nat} {o : Ovl} {x : Group} {s t : State} (h : Becomes grp g (x.overlapped o) s t) : Overlaps g o x s t := by
  refine ⟨?_, ?_, ?_, ?_, h.yields rfl⟩ <;> rw [h.1] <;> rfl

theorem Overlaps.after {g : Nat} {o : Ovl} {x : Group} {s t u : State} (h : Overlaps g o x t u) (k : ∀ j, j ≠ g → grp j t = grp j s) : Overlaps g o x s u :=
  ⟨h.ovl, h.task, h.tgt, h.trange, h.yields.1, fun j hj => (h.yields.2 j hj).trans (k j hj)⟩

theorem takeOvl_overlaps (g c : Nat) (range : Bool) (target : Nat) (req : RReq) (s : State) :
    Overlaps g (.begun c range target 0 req s) (grp g s) s (takeOvl g c range target req s) := by
  generalize hu : takeRelief g (if range then 4 else 3) (idxOf c) target s = u
  have honly : Only [.pages, .fab, .del, .pci, .fwl, .bst, .grps, .outbox] s u := hu ▸ takeRelief_only g _ _ _ s
  have htake : Yields g (grp g s) s u := by
    obtain ⟨hself, hothers⟩ := becomes_modGrp g (fun x => { x with task := if range then 4 else 3, tgt := idxOf c, trange := target }) (dropTask g s)
    obtain ⟨hdrop, hrest⟩ := dropTask_yields g s
    rw [← hu]
    exact ⟨(congrArg Group.offTask hself).trans hdrop, fun j hj => (hothers j hj).trans (hrest j hj)⟩
  have hnow : nowTk u = nowTk s := nowTk_congr (honly.same .tim (by decide))
  have hstart := (startOvl_becomes g c range target 0 req u).overlaps
  rw [Ovl.begun_congr (honly.same .tim (by decide)) (honly.same .chans (by decide)), hnow] at hstart
  rw [takeOvl, hu]
  exact ⟨hstart.ovl, hstart.task, hstart.tgt, hstart.trange, hstart.yields.1.trans htake.1, fun j hj => (hstart.yields.2 j hj).trans (htake.2 j hj)⟩

/-! ## A rotation (R110) -/

/-- What rotation looks at in a group: its queue, its overlap, the channel to retry and the last one taken. -/
def Group.turn (x : Group) : List RReq × Option Ovl × Option Nat × Nat := (x.q, x.ovl, x.retry, x.last)

theorem rotTarget_modGrp {f : Group → Group} (hf : ∀ x, (f x).turn = x.turn) (g : Nat) (s : State) : rotTarget g (modGrp g f s) = rotTarget g s := by
  have hturn (j : Nat) : (grp j (modGrp g f s)).turn = (grp j s).turn := by
    by_cases hj : j = g
    · rw [hj, grp_modGrp_self, hf]
    · rw [grp_modGrp_of_ne s hj]
  have hq (j : Nat) : (grp j (modGrp g f s)).q = (grp j s).q := congrArg Prod.fst (hturn j)
  have hovl (j : Nat) : (grp j (modGrp g f s)).ovl = (grp j s).ovl := congrArg (·.2.1) (hturn j)
  have hretry : (grp g (modGrp g f s)).retry = (grp g s).retry := congrArg (·.2.2.1) (hturn g)
  have hlast : (grp g (modGrp g f s)).last = (grp g s).last := congrArg (·.2.2.2) (hturn g)
  have heligible (c : Nat) : eligible c (modGrp g f s) = eligible c s := by
    simp only [eligible, hq, hovl]
    rfl
  simp only [rotTarget, hretry, hlast, heligible]

theorem rotate_waits {g : Nat} {s : State} (hr : (grp g s).relief.isSome = true) (hs : s.pwr.stopped = false) (hm : mayTake 3 (grp g s) = false) :
    rotate g s = modGrp g (fun x => { x with rotWait := true }) s := by
  simp [rotate, Option.isSome_iff_ne_none.mp hr, hs, hm]

/-- It is the turn of channel `k`. -/
def turnTo (g k : Nat) (s : State) : State := modGrp g (fun x => { x with last := idxOf k, retry := none }) (modGrp g (fun x => { x with rotWait := false }) s)

/-- The overlap of a rotation that begins. -/
def Ovl.rotation (k : Nat) (s : State) : Ovl := .begun k false (chan k s).range 0 ⟨k, (chan k s).range, nowTk s, 2, false⟩ s

theorem Ovl.rotation_congr {s t : State} (htim : t.tim = s.tim) (hchans : t.chans = s.chans) (k : Nat) : Ovl.rotation k t = .rotation k s := by
  rw [Ovl.rotation, Ovl.begun_congr htim hchans, chan_congr hchans, nowTk_congr htim]
  rfl

/-- The overlap of a rotation takes the relief. -/
def takeTurn (g k : Nat) (s : State) : State := takeOvl g k false (chan k s).range ⟨k, (chan k s).range, nowTk s, 2, false⟩ s

theorem rotate_takes {g k : Nat} {s : State} (hr : (grp g s).relief.isSome = true) (hs : s.pwr.stopped = false) (hm : mayTake 3 (grp g s) = true)
    (hk : rotTarget g s = some k) : rotate g s = takeTurn g k (turnTo g k s) := by
  have hk' : rotTarget g (modGrp g (fun x => { x with rotWait := false }) s) = some k :=
    (rotTarget_modGrp (f := fun x => { x with rotWait := false }) (fun _ => rfl) g s).trans hk
  have hgo : ¬ ((grp g s).relief.isNone = true ∨ s.pwr.stopped = true) := by simp [Option.isSome_iff_ne_none.mp hr, hs]
  rw [rotate, if_neg hgo, if_neg (ne_false_of_eq_true hm)]
  dsimp only
  rw [hk']
  rfl

theorem rotate_overlaps {g k : Nat} {s : State} (hr : (grp g s).relief.isSome = true) (hs : s.pwr.stopped = false) (hm : mayTake 3 (grp g s) = true)
    (hk : rotTarget g s = some k) : Overlaps g (.rotation k s) { grp g s with rotWait := false, last := idxOf k, retry := none } s (rotate g s) := by
  have hturn : Becomes grp g { grp g s with rotWait := false, last := idxOf k, retry := none } s (turnTo g k s) :=
    (becomes_modGrp g (fun x => { x with rotWait := false }) s).thenModGrp fun x => { x with last := idxOf k, retry := none }
  have honly : Only [.grps] s (turnTo g k s) := Only.next (modGrp_only _ _ _) rfl (modGrp_only g _ s)
  have htake : Overlaps g (.rotation k (turnTo g k s)) (grp g (turnTo g k s)) (turnTo g k s) (takeTurn g k (turnTo g k s)) := takeOvl_overlaps ..
  rw [hturn.1, Ovl.rotation_congr (honly.same .tim (by decide)) (honly.same .chans (by decide))] at htake
  rw [rotate_takes hr hs hm hk]
  exact htake.after hturn.2

/-! ## A hard switch decided (R124, R126, R127) -/

/-- The first coarse boundary of a channel strictly after now. -/
def nextCoarse (c : Nat) (s : State) : Int := (nowTk s).fdiv (coarseTk (isFast c)) * coarseTk (isFast c) + coarseTk (isFast c)

/-- HARD raised, and when. -/
def tellHard (g d : Nat) (s : State) : State := groupRaise g relHARD d (modGrp g (fun x => { x with hardAt := some s.tim.up }) s)

/-- A range change made as a hard switch is decided, and raises HARD unless it was raised before. -/
theorem hardRange_eq {c : Nat} {s : State} (h : (chan c s).duty.isSome = true) (range : Nat) :
    ((grp (grpOf c) s).hardAt ≠ none ∧ hardRange c range s = decideHard c range s) ∨ ∃ d, hardRange c range s = tellHard (grpOf c) d (decideHard c range s) := by
  have hhard : (grp (grpOf c) (decideHard c range s)).hardAt = (grp (grpOf c) s).hardAt :=
    congrArg Group.hardAt (grp_congr ((decideHard_only c range s).same .grps (by decide)) _)
  rw [hardRange, if_neg (by simpa [Option.isSome_iff_ne_none] using h)]
  dsimp only
  rw [hhard]
  cases (grp (grpOf c) s).hardAt with
  | none => exact .inr ⟨_, rfl⟩
  | some t =>
    dsimp only
    split
    · exact .inl ⟨Option.some_ne_none t, rfl⟩
    · exact .inr ⟨_, rfl⟩

theorem tellHard_only (g d : Nat) (s : State) : Only (.grps :: reports) s (tellHard g d s) := Only.next (groupRaise_only _ _ _ _) rfl ((modGrp_only _ _ s).mono rfl)

theorem hardRange_becomes (c range : Nat) (s : State) : ∃ h, Becomes grp (grpOf c) { grp (grpOf c) s with hardAt := h } s (hardRange c range s) := by
  have hdecide : Becomes grp (grpOf c) (grp (grpOf c) s) s (decideHard c range s) := (Becomes.refl grp _ s).grp_only (decideHard_only c range s) rfl
  cases hd : (chan c s).duty with
  | none => exact ⟨_, by rw [hardRange, if_pos (by rw [hd]; rfl)]; exact .refl grp _ s⟩
  | some v =>
    rcases hardRange_eq (range := range) (by rw [hd]; rfl) with ⟨-, heq⟩ | ⟨d, heq⟩ <;> rw [heq]
    · exact ⟨_, hdecide⟩
    · exact ⟨_, (hdecide.thenModGrp fun x => { x with hardAt := some (decideHard c range s).tim.up }).grp_only (groupRaise_only _ _ _ _) rfl⟩

theorem hardRange_swTo {c : Nat} {s : State} (h : (chan c s).duty.isSome = true) (range : Nat) : (chan c (hardRange c range s)).swTo = some (nextCoarse c s, range) := by
  have hdecide : (chan c (decideHard c range s)).swTo = some (nextCoarse c s, range) := by
    rw [decideHard, if_neg (by simpa [Option.isSome_iff_ne_none] using h), chan_modChan_self]
    rfl
  rcases hardRange_eq h range with ⟨-, heq⟩ | ⟨d, heq⟩ <;> rw [heq]
  · exact hdecide
  · rw [chan_congr ((tellHard_only _ _ _).same .chans (by decide))]
    exact hdecide

theorem hardRange_latched {c : Nat} {s : State} (hc : grpOf c < 24) (h : (chan c s).duty.isSome = true) (range : Nat) (hh : (grp (grpOf c) s).hardAt = none) :
    Latched (pgGroup (grpOf c)) relHARD (hardRange c range s) := by
  rcases hardRange_eq h range with ⟨hne, -⟩ | ⟨d, heq⟩
  · exact absurd hh hne
  · rw [heq]
    exact raise_latched _ _ (evOf_pgGroup hc _) (by decide)

/-- A channel of group `g` switches to range `target` at its next coarse boundary and waits for the relief no more, HARD raised if it never was. -/
def Switched (g c target : Nat) (s t : State) : Prop :=
  (chan c t).swTo = some (nextCoarse c s, target) ∧ queued g c t = none ∧ ((grp g s).hardAt = none → Latched (pgGroup g) relHARD t)

theorem queued_unqueue (g c : Nat) (s : State) : queued g c (unqueue g c s) = none := by
  rw [queued, unqueue, grp_modGrp_self, List.find?_eq_none]
  simp

theorem hardRange_unqueue_switched {c : Nat} {s : State} (hc : grpOf c < 24) (h : (chan c s).duty.isSome = true) (target : Nat) :
    Switched (grpOf c) c target s (hardRange c target (unqueue (grpOf c) c s)) := by
  have hgrp := becomes_modGrp (grpOf c) (fun x => { x with q := x.q.filter fun r => decide (r.ch ≠ c) }) s
  obtain ⟨a, hself, -⟩ := hardRange_becomes c target (unqueue (grpOf c) c s)
  refine ⟨hardRange_swTo (s := unqueue (grpOf c) c s) h target, ?_, fun hh => hardRange_latched (s := unqueue (grpOf c) c s) hc h target ((congrArg Group.hardAt hgrp.1).trans hh)⟩
  rw [queued, hself]
  exact queued_unqueue (grpOf c) c s

/-! ## A campaign judged (R189) -/

/-- A group whose campaign is complete. -/
def Group.campaigned (x : Group) : Group :=
  { x with camp := false, tref := x.temp, trefOk := true, camps := (x.camps + 1) % 65536, blocked := false, blkRaised := false }

theorem judgeCamp_becomes (g : Nat) (s : State) :
    ∃ x, (x = grp g s ∨ x = (grp g s).campaigned ∨ ∃ n, x = (grp g s).campaigned.relieved n) ∧ Becomes grp g x s (judgeCamp g s) := by
  have htell {x : Group} {u : State} (h : Becomes grp g x s u) :
      Becomes grp g x s (bumpGen pgCAL (raise pgCAL calCAMPDONE (g * 256) (condEnd pgCAL calBLOCKED g u))) :=
    ((h.grp_only (condEnd_only _ _ _ u) rfl).grp_only (raise_only _ _ _ _) rfl).grp_only (bumpGen_only _ _) rfl
  have hdone := becomes_modGrp g Group.campaigned s
  unfold judgeCamp
  dsimp only
  split
  · exact ⟨_, .inl rfl, .refl grp g s⟩
  · split
    · obtain ⟨n, hfree⟩ := freeRelief_becomes g (modGrp g Group.campaigned s)
      exact ⟨_, .inr (.inr ⟨n, rfl⟩), htell (hdone.andThen (Group.relieved n) hfree)⟩
    · exact ⟨_, .inr (.inl rfl), htell hdone⟩

theorem judgeCamp_undisturbed (g : Nat) (s : State) : Undisturbed s (judgeCamp g s) := by
  have htell {u : State} (h : Only [.grps] s u) : Undisturbed s (bumpGen pgCAL (raise pgCAL calCAMPDONE (g * 256) (condEnd pgCAL calBLOCKED g u))) :=
    (((Undisturbed.of_only h rfl).only (condEnd_only pgCAL calBLOCKED g u) rfl).raise (by decide) _ _).bumpGen _
  have hdone := modGrp_only g Group.campaigned s
  unfold judgeCamp
  dsimp only
  split
  · exact .refl s
  · exact htell (.ite (Only.next (freeRelief_only g _) rfl hdone) hdone)

theorem judgeCamp_of_none {g : Nat} {s : State} (h : (grp g s).camp = false) : judgeCamp g s = s := if_pos (.inl h)

end Sys2Proof.Machine
end

section
/-! SUPPORT. A converter retired (R117, R119, R128). -/

namespace Sys2Proof.Machine

/-! ## What follows a retirement -/

/-- No converter is retired and no relief is named or lost, and no cause that was latched is lost. -/
structure RolesKept (s t : State) : Prop where
  convs : ∀ j, (grp j t).convs = (grp j s).convs
  undisturbed : Undisturbed s t

section
variable {s t u : State}

theorem RolesKept.refl (s : State) : RolesKept s s := ⟨fun _ => rfl, .refl s⟩

theorem RolesKept.trans (h : RolesKept s t) (k : RolesKept t u) : RolesKept s u := ⟨fun j => (k.convs j).trans (h.convs j), h.undisturbed.trans k.undisturbed⟩

theorem RolesKept.of_undisturbed {l : List Area} (h : Undisturbed s t) (k : Only l s t) (hl : l.contains .grps = false) : RolesKept s t :=
  ⟨fun j => congrArg Group.convs (grp_congr (k.same .grps (by simpa using hl)) j), h⟩

theorem RolesKept.of_becomes {g : Nat} {x : Group} (h : Undisturbed s t) (k : Becomes grp g x s t) (hx : x.convs = (grp g s).convs) : RolesKept s t := by
  refine ⟨fun j => ?_, h⟩
  by_cases hj : j = g
  · rw [hj, k.1, hx]
  · rw [k.2 j hj]

theorem RolesKept.ite {c : Prop} [Decidable c] (h : RolesKept s t) (k : RolesKept s u) : RolesKept s (if c then t else u) := by
  split <;> assumption

end

theorem modGrp_rolesKept {f : Group → Group} (hf : ∀ x, (f x).convs = x.convs) (g : Nat) (s : State) : RolesKept s (modGrp g f s) :=
  .of_becomes (.of_only (modGrp_only g f s) rfl) (becomes_modGrp g f s) (hf _)

theorem groupRaise_rolesKept (g bit d : Nat) (s : State) : RolesKept s (groupRaise g bit d s) :=
  .of_undisturbed ((Undisturbed.refl s).raise (pgGroup_ne_pgDEV g) bit d) (groupRaise_only g bit d s) rfl

theorem groupGen_rolesKept (g : Nat) (s : State) : RolesKept s (groupGen g s) := .of_undisturbed ((Undisturbed.refl s).bumpGen _) (groupGen_only g s) rfl

theorem judgeExtrap_rolesKept (g : Nat) (s : State) : RolesKept s (judgeExtrap g s) := by
  obtain ⟨e, h⟩ := judgeExtrap_becomes g s
  exact .of_becomes (judgeExtrap_quiet g s).undisturbed h rfl

theorem judgeCamp_rolesKept (g : Nat) (s : State) : RolesKept s (judgeCamp g s) := by
  obtain ⟨x, hx, h⟩ := judgeCamp_becomes g s
  refine .of_becomes (judgeCamp_undisturbed g s) h ?_
  rcases hx with rfl | rfl | ⟨n, rfl⟩ <;> rfl

theorem blockCamp_rolesKept (g : Nat) (s : State) : RolesKept s (blockCamp g s) := ⟨blockCamp_convs g s, blockCamp_undisturbed g s⟩

theorem hardRange_rolesKept (c range : Nat) (s : State) : RolesKept s (hardRange c range s) := by
  obtain ⟨h, hgrp⟩ := hardRange_becomes c range s
  have hdecide : Undisturbed s (decideHard c range s) := .of_only (decideHard_only c range s) rfl
  refine .of_becomes (.ite (.refl s) (.ite hdecide ?_)) hgrp rfl
  exact (hdecide.only (modGrp_only _ _ _) rfl).raise (pgGroup_ne_pgDEV _) _ _

theorem drainQueue_rolesKept (g : Nat) (s : State) : RolesKept s (drainQueue g s) :=
  (modGrp_rolesKept (f := fun x => { x with q := [] }) (fun _ => rfl) g s).trans (foldl_keeps (P := RolesKept _) (fun t ht (r : RReq) => ht.trans (hardRange_rolesKept r.ch r.target t)) (.refl _) _)

theorem endCheck_rolesKept (err res : Nat) (s : State) : RolesKept s (endCheck err res s) :=
  .of_undisturbed ((Undisturbed.of_only (modBst_only _ s) rfl).raise (by decide) _ _) (endCheck_only err res s) rfl

/-! ## The retirement (R117, R119, R128) -/

/-- A group one of whose converters is retired, nothing of it due any more. -/
def Group.retiring (conv : Nat) (x : Group) : Group :=
  { x with retired := putBit x.retired conv true, due := FMap.put (fun _ => 0) x.due conv 0, runChks := x.runChks.filter (·.1 ≠ conv), again := x.again.filter (·.1 ≠ conv) }

/-- The converter serves no more; RETIRED. -/
def markRetired (g conv : Nat) (s : State) : State := groupRaise g relRETIRED (convDetail conv 0xFF) (groupGen g (modGrp g (Group.retiring conv) s))

/-- A range handover that had the lost relief becomes a hard switch. -/
def switchOvl (ho : Option Ovl) (s : State) : State :=
  match ho with
  | some o => if o.range ∧ !(chan o.ch s).isOpen then hardRange o.ch o.target s else s
  | none => s

/-- A group without its relief. -/
def Group.unrelieved (x : Group) : Group := { x with relief := none, task := 0, tgt := 0, trange := 0, fwin := false, chk := none, ovl := none, rotWait := false }

/-- The analogue check of a group that lost its relief ends. -/
def dropCheck (g : Nat) (s : State) : State := if checking g s then endCheck 1 0x8000 s else s

/-- The group loses its relief. -/
def loseRelief (g conv : Nat) (ho : Option Ovl) (s : State) : State :=
  judgeCamp g (judgeExtrap g (drainQueue g (switchOvl ho (dropCheck g (blockCamp g
    (endSlice g 1 (groupRaise g relNORELIEF (convDetail conv 0xFF) (modGrp g Group.unrelieved s))))))))

/-- A channel loses its converter. -/
def loseConv (g conv c : Nat) (s : State) : State :=
  judgeCamp g (judgeExtrap g (groupRaise g relCONVLOST (convDetail conv (idxOf c)) (groupGen g (modChan c (fun y => { y with duty := none, coarse := none, nextT := none }) s))))

theorem markRetired_only (g conv : Nat) (s : State) : Only [.pages, .fab, .del, .pci, .fwl, .grps, .outbox] s (markRetired g conv s) :=
  Only.next (groupRaise_only _ _ _ _) rfl (Only.next (groupGen_only _ _) rfl ((modGrp_only _ _ s).mono rfl))

theorem dutyChan_congr {s t : State} (h : t.chans = s.chans) (g conv : Nat) : dutyChan g conv t = dutyChan g conv s := by
  simp only [dutyChan, chan_congr h]

theorem retireConv_relief {g conv : Nat} {s : State} (h : (grp g s).relief = some conv) :
    ∃ ho, retireConv g conv s = loseRelief g conv ho (markRetired g conv s) := ⟨_, if_pos h⟩

theorem retireConv_duty {g conv : Nat} {s : State} (h : (grp g s).relief ≠ some conv) :
    retireConv g conv s = (dutyChan g conv s).elim (markRetired g conv s) fun c => loseConv g conv c (markRetired g conv s) := by
  have hduty := dutyChan_congr ((markRetired_only g conv s).same .chans (by decide)) g conv
  refine (if_neg h).trans ?_
  change (match dutyChan g conv (markRetired g conv s) with
    | some c => loseConv g conv c (markRetired g conv s)
    | none => markRetired g conv s) = _
  rw [hduty]
  cases dutyChan g conv s <;> rfl

section
variable {g : Nat} (hg : g < 24) (conv : Nat) (s : State)
include hg

theorem markRetired_latched : Latched (pgGroup g) relRETIRED (markRetired g conv s) := raise_latched _ _ (evOf_pgGroup hg _) (by decide)

omit hg in
theorem markRetired_retired : (grp g (markRetired g conv s)).retired.testBit conv = true := by
  have hmark := ((becomes_modGrp g (Group.retiring conv) s).grp_only (groupGen_only g _) rfl).grp_only (groupRaise_only g relRETIRED (convDetail conv 0xFF) _) rfl
  rw [markRetired, hmark.1, Group.retiring, testBit_putBit_true, decide_eq_true rfl, Bool.or_true]

omit hg in
/-- What follows the loss of the relief. -/
theorem loseRelief_rolesKept (ho : Option Ovl) :
    RolesKept (groupRaise g relNORELIEF (convDetail conv 0xFF) (modGrp g Group.unrelieved s)) (loseRelief g conv ho s) := by
  have hslice (u : State) : RolesKept u (endSlice g 1 u) := .of_undisturbed (.of_only (endSlice_only g 1 u) rfl) (endSlice_only g 1 u) rfl
  have hcheck (u : State) : RolesKept u (dropCheck g u) := .ite (endCheck_rolesKept 1 0x8000 u) (.refl u)
  have hswitch (u : State) : RolesKept u (switchOvl ho u) := by
    unfold switchOvl
    split
    · exact .ite (hardRange_rolesKept _ _ u) (.refl u)
    · exact .refl u
  exact ((((((hslice _).trans (blockCamp_rolesKept g _)).trans (hcheck _)).trans (hswitch _)).trans (drainQueue_rolesKept g _)).trans (judgeExtrap_rolesKept g _)).trans
    (judgeCamp_rolesKept g _)

theorem loseRelief_done (ho : Option Ovl) : let t := loseRelief g conv ho s
    (grp g t).retired = (grp g s).retired ∧ (grp g t).relief = none ∧ Latched (pgGroup g) relNORELIEF t ∧ Undisturbed s t := by
  have hkept := loseRelief_rolesKept (g := g) conv s ho
  have hraise := groupRaise_rolesKept g relNORELIEF (convDetail conv 0xFF) (modGrp g Group.unrelieved s)
  have hlatched : Latched (pgGroup g) relNORELIEF (groupRaise g relNORELIEF (convDetail conv 0xFF) (modGrp g Group.unrelieved s)) :=
    raise_latched _ _ (evOf_pgGroup hg _) (by decide)
  have hconvs := (hraise.trans hkept).convs g
  rw [grp_modGrp_self] at hconvs
  exact ⟨congrArg Prod.fst hconvs, congrArg Prod.snd hconvs, hkept.undisturbed.stay hlatched,
    ((Undisturbed.of_only (modGrp_only g _ s) rfl).trans hraise.undisturbed).trans hkept.undisturbed⟩

theorem loseConv_done (c : Nat) : let t := loseConv g conv c s
    (grp g t).retired = (grp g s).retired ∧ (chan c t).duty = none ∧ Latched (pgGroup g) relCONVLOST t ∧ Undisturbed s t := by
  generalize hu : groupGen g (modChan c (fun y => { y with duty := none, coarse := none, nextT := none }) s) = u
  have hgen : RolesKept s u := by
    rw [← hu]
    exact RolesKept.trans (.of_undisturbed (.of_only (modChan_only c _ s) rfl) (modChan_only c _ s) rfl) (groupGen_rolesKept g _)
  have hduty : (chan c u).duty = none := by
    rw [← hu, chan_congr ((groupGen_only g _).same .chans (by decide)), chan_modChan_self]
  have hraise := groupRaise_rolesKept g relCONVLOST (convDetail conv (idxOf c)) u
  have hjudge := (judgeExtrap_rolesKept g (groupRaise g relCONVLOST (convDetail conv (idxOf c)) u)).trans (judgeCamp_rolesKept g _)
  have hchans : (judgeCamp g (judgeExtrap g (groupRaise g relCONVLOST (convDetail conv (idxOf c)) u))).chans = u.chans := by
    rw [(judgeCamp_only _ _).same .chans (by decide), (judgeExtrap_only _ _).same .chans (by decide), (groupRaise_only _ _ _ _).same .chans (by decide)]
  have hkept := (hgen.trans hraise).trans hjudge
  have hlatched : Latched (pgGroup g) relCONVLOST (groupRaise g relCONVLOST (convDetail conv (idxOf c)) u) := raise_latched _ _ (evOf_pgGroup hg _) (by decide)
  dsimp only
  rw [loseConv, hu]
  exact ⟨congrArg Prod.fst (hkept.convs g), (congrArg Chan.duty (chan_congr hchans c)).trans hduty, hjudge.undisturbed.stay hlatched, hkept.undisturbed⟩

/-- The converter is retired and RETIRED raised; a relief is lost, or its channel loses it. -/
theorem retireConv_done : let t := retireConv g conv s
    (grp g t).retired.testBit conv = true ∧ Latched (pgGroup g) relRETIRED t ∧ ((grp g s).relief = some conv → (grp g t).relief = none ∧ Latched (pgGroup g) relNORELIEF t) ∧
    ∀ c, (grp g s).relief ≠ some conv → dutyChan g conv s = some c → (chan c t).duty = none ∧ Latched (pgGroup g) relCONVLOST t := by
  have hretired := markRetired_retired (g := g) conv s
  have hlatched := markRetired_latched hg conv s
  dsimp only
  by_cases h : (grp g s).relief = some conv
  · obtain ⟨ho, heq⟩ := retireConv_relief h
    obtain ⟨hsame, hnone, hlost, hkept⟩ := loseRelief_done hg conv (markRetired g conv s) ho
    rw [heq]
    exact ⟨hsame ▸ hretired, hkept.stay hlatched, fun _ => ⟨hnone, hlost⟩, fun c hne => absurd h hne⟩
  · rw [retireConv_duty h]
    cases hc : dutyChan g conv s with
    | none => exact ⟨hretired, hlatched, fun h' => absurd h' h, fun c _ hc' => nomatch hc'⟩
    | some c =>
      obtain ⟨hsame, hnone, hlost, hkept⟩ := loseConv_done hg conv (markRetired g conv s) c
      refine ⟨hsame ▸ hretired, hkept.stay hlatched, fun h' => absurd h' h, fun c' _ hc' => ?_⟩
      cases hc'
      exact ⟨hnone, hlost⟩

end

end Sys2Proof.Machine
end

section
/-! PROOF. The relief serves ranges and rotation (R107–R111, R117, R121–R127). -/

namespace Sys2Proof.Machine

/-- The next state of what needs analogue dice, on an HX320. -/
theorem exec_of_analogue {c : Instr} {f : State → State} {s t : State} (hx : s.fuse.hx000 = false) (he : ∀ s, exec c s = analogue f s) (ht : f s = t) :
    exec c s = .next t := by
  rw [he s, analogue, if_neg (ne_true_of_eq_false hx), ht]

/-! ## Rotation (R110, R188) -/

/-- A group at its rotation tick. -/
def Group.ticked (up : Nat) (x : Group) : Group := { x with tickUp := up }

/-- Group `g` is at its rotation tick, and rotation finds in it what it found before. -/
structure Ticked (g up : Nat) (s u : State) : Prop where
  only : Only [.grps] s u
  self : Becomes grp g ((grp g s).ticked up) s u
  target : rotTarget g u = rotTarget g s

theorem Ticked.refl (g : Nat) (s : State) : Ticked g (grp g s).tickUp s s := ⟨.refl _ s, .refl grp g s, rfl⟩

theorem ticked_modGrp (g up : Nat) (s : State) : Ticked g up s (modGrp g (Group.ticked up) s) :=
  ⟨modGrp_only g _ s, becomes_modGrp g _ s, rotTarget_modGrp (f := Group.ticked up) (fun _ => rfl) g s⟩

section
variable {g up : Nat} {s u : State} {i : Instr} (hu : Ticked g up s u) (hi : exec i s = .next (rotate g u)) (hr : (grp g s).relief.isSome = true) (hs : s.pwr.stopped = false)
include hu

theorem Ticked.relief : (grp g u).relief = (grp g s).relief := (congrArg Group.relief hu.self.1).trans rfl

theorem Ticked.mayTake (k : Nat) : mayTake k (grp g u) = mayTake k (grp g s) := by rw [hu.self.1]; rfl

theorem Ticked.stopped : u.pwr.stopped = s.pwr.stopped := congrArg Pwr.stopped (hu.only.same .pwr (by decide))

include hi

theorem rotation_only : Runs i s (reporting [.bst, .grps]) fun t => t = rotate g u :=
  .of_only hi rfl (Only.next (rotate_only g u) rfl (hu.only.mono rfl)) rfl

include hr hs

theorem rotation_waits_runs (hm : Machine.mayTake 3 (grp g s) = false) :
    Runs i s (reporting [.bst, .grps]) (Becomes grp g { grp g s with rotWait := true, tickUp := up } s) := by
  refine (rotation_only hu hi).imp fun t ht => ?_
  rw [ht, rotate_waits (hu.relief ▸ hr) (hu.stopped.trans hs) ((hu.mayTake 3).trans hm)]
  exact hu.self.thenModGrp fun x => { x with rotWait := true }

theorem rotation_takes_runs {k : Nat} (hm : Machine.mayTake 3 (grp g s) = true) (hk : rotTarget g s = some k) :
    Runs i s (reporting [.bst, .grps]) (Overlaps g (.rotation k s) { grp g s with tickUp := up, rotWait := false, last := idxOf k, retry := none } s) := by
  have htim : u.tim = s.tim := hu.only.same .tim (by decide)
  have hchans : u.chans = s.chans := hu.only.same .chans (by decide)
  refine (rotation_only hu hi).imp fun t ht => ?_
  have h := rotate_overlaps (hu.relief ▸ hr) (hu.stopped.trans hs) ((hu.mayTake 3).trans hm) (hu.target.trans hk)
  rw [Ovl.rotation_congr htim hchans, hu.self.1] at h
  exact ht ▸ h.after hu.self.2

end

section
variable {g : Grp} {s : State} (hx : s.fuse.hx000 = false)
include hx

theorem exec_rotationTick (hdue : (grp g.val s).tickUp + rotPerNs g.val s ≤ s.tim.up) :
    exec (.rotationTick g) s = .next (if wbit (reliefCtrl g.val s) 31 then rotate g.val (judgeCamp g.val (modGrp g.val (Group.ticked s.tim.up) s))
      else modGrp g.val (Group.ticked s.tim.up) s) :=
  exec_of_analogue hx (fun _ => rfl) (if_neg (Nat.not_lt.mpr hdue))

theorem exec_rotationTick_rotate (hdue : (grp g.val s).tickUp + rotPerNs g.val s ≤ s.tim.up) (hon : wbit (reliefCtrl g.val s) 31 = true) (hcamp : (grp g.val s).camp = false) :
    exec (.rotationTick g) s = .next (rotate g.val (modGrp g.val (Group.ticked s.tim.up) s)) := by
  have hcamp' : (grp g.val (modGrp g.val (Group.ticked s.tim.up) s)).camp = false := by
    rw [grp_modGrp_self]
    exact hcamp
  rw [exec_rotationTick hx hdue, if_pos hon, judgeCamp_of_none hcamp']

theorem rotationTick_off_runs (hdue : (grp g.val s).tickUp + rotPerNs g.val s ≤ s.tim.up) (hoff : wbit (reliefCtrl g.val s) 31 = false) :
    Runs (.rotationTick g) s [.grps] (Becomes grp g.val ((grp g.val s).ticked s.tim.up) s) :=
  .of_only (exec_rotationTick hx hdue) (if_neg (ne_true_of_eq_false hoff)) (modGrp_only _ _ s) (becomes_modGrp _ _ s)

theorem rotationTick_early_runs (hearly : s.tim.up < (grp g.val s).tickUp + rotPerNs g.val s) : Runs (.rotationTick g) s [] fun t => t = s :=
  .of_analogue hx (fun _ => rfl) (if_pos hearly) (.refl _ s) rfl

theorem exec_reliefForce {r : Req} (hf : (page (pgGroup g.val) s).freeze = false) : exec (.reliefForce r g) s = .next (rotate g.val s) :=
  exec_of_analogue hx (fun _ => rfl) (gated_open hf _)

end

/-! ## Range requests (R108, R124, R127) -/

section
variable {g : Grp} {s : State} (hx : s.fuse.hx000 = false)
include hx

theorem reliefTaskStart_range_runs {q : RReq} (hr : (grp g.val s).relief.isSome = true) (hq : oldestReq g.val s = some q) (hm : mayTake 4 (grp g.val s) = true) :
    Runs (.reliefTaskStart g) s (reporting [.bst, .grps])
      (Overlaps g.val (.begun q.ch true q.target 0 q s) { grp g.val s with q := (grp g.val s).q.filter fun r => decide (r.ch ≠ q.ch) } s) := by
  have hserve : serveQueue g.val s = takeOvl g.val q.ch true q.target q (unqueue g.val q.ch s) := by
    rw [serveQueue, hq]
    exact (if_neg (by simp [Option.isSome_iff_ne_none.mp hr])).trans (if_pos hm)
  have hgone : Becomes grp g.val { grp g.val s with q := (grp g.val s).q.filter fun r => decide (r.ch ≠ q.ch) } s (unqueue g.val q.ch s) := becomes_modGrp g.val _ s
  have htake := takeOvl_overlaps g.val q.ch true q.target q (unqueue g.val q.ch s)
  rw [hgone.1, Ovl.begun_congr (s := s) (t := unqueue g.val q.ch s) rfl rfl] at htake
  exact .of_analogue hx (fun _ => rfl) ((if_pos ⟨by rw [hq]; rfl, .inl hm⟩).trans hserve)
    (Only.next (takeOvl_only ..) rfl ((unqueue_only _ _ s).mono rfl)) (htake.after hgone.2)

theorem exec_reliefTaskStart_rotate (hq : oldestReq g.val s = none) (hw : (grp g.val s).rotWait = true) (hm : mayTake 3 (grp g.val s) = true) :
    exec (.reliefTaskStart g) s = .next (rotate g.val s) :=
  exec_of_analogue hx (fun _ => rfl) ((if_neg (by simp [hq])).trans (if_pos ⟨hw, hm⟩))

theorem reliefTaskStart_hard_runs {q : RReq} (hr : (grp g.val s).relief = none) (hq : oldestReq g.val s = some q) (hg : grpOf q.ch = g.val)
    (hd : (chan q.ch s).duty.isSome = true) : Runs (.reliefTaskStart g) s ([Area.chans] ++ reporting [.bst, .grps]) (Switched g.val q.ch q.target s) := by
  have hserve : serveQueue g.val s = hardRange q.ch q.target (unqueue g.val q.ch s) := by
    rw [serveQueue, hq]
    exact if_pos (by rw [hr]; rfl)
  refine .of_analogue hx (fun _ => rfl) ((if_pos ⟨by rw [hq]; rfl, .inr (by rw [hr]; rfl)⟩).trans hserve)
    (Only.next (hardRange_only ..) rfl ((unqueue_only _ _ s).mono rfl)) ?_
  rw [← hg]
  exact hardRange_unqueue_switched (hg ▸ g.isLt) hd q.target

theorem hardWaitExpiry_runs {c : Chn} {q : RReq} (hq : queued (grpOf c.val) c.val s = some q) (hk : q.kind = 0) (hw : hardWait (grpOf c.val) s ≠ 0)
    (hd : (chan c.val s).duty.isSome = true) :
    Runs (.hardWaitExpiry c) s ([Area.chans] ++ reporting [.bst, .grps]) (Switched (grpOf c.val) c.val q.target s) := by
  refine .of_analogue hx (fun _ => rfl) (t := hardRange c.val q.target (unqueue (grpOf c.val) c.val s)) ?_
    (Only.next (hardRange_only ..) rfl ((unqueue_only _ _ s).mono rfl)) (hardRange_unqueue_switched (grpOf_lt c.isLt) hd q.target)
  dsimp only
  rw [hq]
  exact if_pos ⟨hk, hw⟩

end

/-! ## The hard switch (R126) -/

/-- A channel that has switched to a range at `tsw`. -/
def Chan.switchedAt (c range : Nat) (tsw : Int) (y : Chan) : Chan :=
  { y with swTo := none, swAt := some tsw, range := range, rngOld := histPut tsw y.range y.rngOld, dn := 0,
           cAt := cDue (tsw - halfTk (isFast c) (ew y.w 1)) false y.cAt, spans := y.spans ++ [⟨false, tsw, tsw + settleTk (isFast c)⟩] }

/-- A group that counts a change of range. -/
def Group.ranged (x : Group) : Group := { x with hoRng := (x.hoRng + 1) % 65536 }

/-- The change of range counted where there is one. -/
def countRange (g : Nat) (moved : Bool) (s : State) : State := if moved then groupGen g (modGrp g Group.ranged s) else s

theorem countRange_only (g : Nat) (moved : Bool) (s : State) : Only [.pages, .grps] s (countRange g moved s) :=
  .ite (Only.next (groupGen_only _ _) rfl ((modGrp_only _ _ s).mono rfl)) (.refl _ s)

theorem countRange_hoRng (g : Nat) (moved : Bool) (s : State) :
    (grp g (countRange g moved s)).hoRng = if moved then ((grp g s).hoRng + 1) % 65536 else (grp g s).hoRng := by
  cases moved with
  | false => rfl
  | true => exact congrArg Group.hoRng ((becomes_modGrp g Group.ranged s).grp_only (groupGen_only g _) rfl).1

theorem hardSwitch_runs {c : Chn} {s : State} {tsw : Int} {range : Nat} (hx : s.fuse.hx000 = false) (hto : (chan c.val s).swTo = some (tsw, range)) :
    Runs (.hardSwitch c) s (reporting [.chans, .grps]) fun t => Becomes chan c.val ((chan c.val s).switchedAt c.val range tsw) s t ∧
      (grp (grpOf c.val) t).hoRng =
        if (chan c.val s).range ≠ range then ((grp (grpOf c.val) s).hoRng + 1) % 65536 else (grp (grpOf c.val) s).hoRng := by
  generalize hmoved : decide ((chan c.val s).range ≠ range) = moved
  let u := closeRuns c.val (modChan c.val (Chan.switchedAt c.val range tsw) s)
  have hu : Only [.del, .chans] s u := Only.next (closeRuns_only _ _) rfl ((modChan_only _ _ s).mono rfl)
  have hchan : Becomes chan c.val ((chan c.val s).switchedAt c.val range tsw) s u := (becomes_modChan _ _ s).chan_only (closeRuns_only _ _) rfl
  obtain ⟨e, hjudge⟩ := judgeExtrap_becomes (grpOf c.val) (countRange (grpOf c.val) moved u)
  refine .of_analogue hx (fun _ => rfl) (t := judgeExtrap (grpOf c.val) (countRange (grpOf c.val) moved u)) ?_
    (Only.next (judgeExtrap_only _ _) rfl (Only.next (countRange_only _ _ _) rfl (hu.mono rfl)))
    ⟨(hchan.chan_only (countRange_only _ _ _) rfl).chan_only (judgeExtrap_only _ _) rfl, ?_⟩
  · dsimp only
    rw [hto]
    dsimp only
    rw [hmoved]
    rfl
  · rw [congrArg Group.hoRng hjudge.1]
    refine (countRange_hoRng _ moved u).trans ?_
    rw [grp_congr (hu.same .grps (by decide)), ← hmoved]
    simp only [decide_eq_true_eq]

/-! ## The freed incumbent (R107, R111, R117) -/

/-- A group whose freed incumbent is its relief, the handover counted. -/
def Group.released (d : Nat) (x : Group) : Group :=
  { x with freed := none, relief := some d, hoRot := if x.task = 3 then (x.hoRot + 1) % 65536 else x.hoRot, hoRng := if x.task = 4 then (x.hoRng + 1) % 65536 else x.hoRng }

/-- A group whose relief runs a reference check. -/
def Group.checks (k : Chk) (x : Group) : Group := { x with task := 7, tgt := 0, trange := k.range, chk := some k }

section
variable {g : Grp} {d : Nat} {s : State} (hx : s.fuse.hx000 = false)
include hx

theorem incumbentRelease_forced_runs (hd : (grp g.val s).freed = some (d, true)) :
    Runs (.incumbentRelease g) s (reporting [.grps]) (Becomes grp g.val (((grp g.val s).released d).checks ⟨3, d, 0, none⟩) s) := by
  refine .of_analogue hx (fun _ => rfl) (t := modGrp g.val (Group.checks ⟨3, d, 0, none⟩) (groupGen g.val (modGrp g.val (Group.released d) s))) ?_
    (Only.next (modGrp_only _ _ _) rfl (Only.next (groupGen_only _ _) rfl ((modGrp_only _ _ s).mono rfl)))
    (((becomes_modGrp g.val (Group.released d) s).grp_only (groupGen_only _ _) rfl).thenModGrp _)
  dsimp only
  rw [hd]
  rfl

theorem incumbentRelease_free_runs (hd : (grp g.val s).freed = some (d, false)) :
    Runs (.incumbentRelease g) s (reporting [.grps]) fun t => (grp g.val t).freed = none ∧ (grp g.val t).relief = some d ∧ (grp g.val t).tgt = 0 ∧ (grp g.val t).trange = 0 ∧
      (grp g.val t).hoRot = ((grp g.val s).released d).hoRot ∧ (grp g.val t).hoRng = ((grp g.val s).released d).hoRng := by
  let u := groupGen g.val (modGrp g.val (Group.released d) s)
  have hu : Becomes grp g.val ((grp g.val s).released d) s u := (becomes_modGrp g.val (Group.released d) s).grp_only (groupGen_only _ _) rfl
  obtain ⟨n, hfree⟩ := freeRelief_becomes g.val u
  have hfree := hu.andThen (Group.relieved n) hfree
  obtain ⟨x, hx', hjudge⟩ := judgeCamp_becomes g.val (freeRelief g.val u)
  refine .of_analogue hx (fun _ => rfl) (t := judgeCamp g.val (freeRelief g.val u)) ?_
    (Only.next (judgeCamp_only _ _) rfl (Only.next (freeRelief_only _ _) rfl (Only.next (groupGen_only _ _) rfl ((modGrp_only _ _ s).mono rfl)))) ?_
  · dsimp only
    rw [hd]
    rfl
  · rw [hfree.1] at hx'
    rw [hjudge.1]
    rcases hx' with rfl | rfl | ⟨m, rfl⟩ <;> exact ⟨rfl, rfl, rfl, rfl, rfl, rfl⟩

end

/-! ## The reference check of the relief (R117, R118) -/

/-- A group whose reference check is over. -/
def Group.checked (x : Group) : Group := { x with chk := none }

/-- A group whose reference check goes on at the next range. -/
def Group.checksNext (k : Chk) (x : Group) : Group := { x with task := 7, trange := k.range + 1, chk := some { k with range := k.range + 1 } }

/-- What follows a good check: the handover once more, or the next range, or a free relief. -/
def passCheck (g : Nat) (k : Chk) (s : State) : State :=
  match k.why, k.ho with
  | 1, some o => restartHandover g o 1 s
  | 2, some o => restartHandover g o 2 s
  | _, _ => if 3 ≤ k.range then freeRelief g s else modGrp g (Group.checksNext k) s

theorem passCheck_restarts {g : Nat} {k : Chk} {o : Ovl} (hw : k.why = 1 ∨ k.why = 2) (ho : k.ho = some o) (s : State) :
    passCheck g k s = restartHandover g o k.why s := by
  rcases hw with hw | hw <;> simp only [passCheck, hw, ho]

theorem passCheck_of_why_three {g : Nat} {k : Chk} (hw : k.why = 3) (s : State) :
    passCheck g k s = if 3 ≤ k.range then freeRelief g s else modGrp g (Group.checksNext k) s := by
  simp only [passCheck, hw]

section
variable {g : Grp} {m : ConvMeas} {k : Chk} {s : State} (hx : s.fuse.hx000 = false) (hk : (grp g.val s).chk = some k) (hc : k.conv = m.conv.val)
include hx hk hc

theorem exec_referenceCheckDone_bad (hbad : refCheckOk g.val m.conv.val k.range (m.u0, m.up, m.un) s = false) :
    exec (.referenceCheckDone g m) s = .next (modGrp g.val Group.checked (retireConv g.val m.conv.val s)) := by
  refine exec_of_analogue hx (fun _ => rfl) ?_
  dsimp only
  rw [hk]
  exact (if_pos hc).trans (if_pos hbad)

theorem referenceCheckDone_bad_runs (hbad : refCheckOk g.val m.conv.val k.range (m.u0, m.up, m.un) s = false) :
    Runs (.referenceCheckDone g m) s ([Area.chans] ++ reporting [.bst, .grps]) fun t => (grp g.val t).chk = none ∧ (grp g.val t).retired.testBit m.conv.val = true ∧
      Latched (pgGroup g.val) relRETIRED t ∧ ((grp g.val s).relief = some m.conv.val → (grp g.val t).relief = none ∧ Latched (pgGroup g.val) relNORELIEF t) ∧
      ∀ c, (grp g.val s).relief ≠ some m.conv.val → dutyChan g.val m.conv.val s = some c → (chan c t).duty = none ∧ Latched (pgGroup g.val) relCONVLOST t := by
  have hchecked := becomes_modGrp g.val Group.checked (retireConv g.val m.conv.val s)
  have honly := modGrp_only g.val Group.checked (retireConv g.val m.conv.val s)
  obtain ⟨hretired, hlatched, hrelief, hduty⟩ := retireConv_done g.isLt m.conv.val s
  refine .of_only (exec_referenceCheckDone_bad hx hk hc hbad) rfl (Only.next honly rfl ((retireConv_only _ _ s).mono rfl))
    ⟨congrArg Group.chk hchecked.1, (congrArg (fun x => x.retired.testBit m.conv.val) hchecked.1).trans hretired, hlatched.only honly rfl, fun hr => ?_, fun c hr hc => ?_⟩
  · obtain ⟨hnone, hlost⟩ := hrelief hr
    exact ⟨(congrArg Group.relief hchecked.1).trans hnone, hlost.only honly rfl⟩
  · obtain ⟨hnone, hlost⟩ := hduty c hr hc
    exact ⟨hnone, hlost.only honly rfl⟩

variable (hgood : refCheckOk g.val m.conv.val k.range (m.u0, m.up, m.un) s = true)
include hgood

theorem exec_referenceCheckDone_good : exec (.referenceCheckDone g m) s = .next (passCheck g.val k (modGrp g.val Group.checked s)) := by
  refine exec_of_analogue hx (fun _ => rfl) ?_
  dsimp only
  rw [hk]
  exact (if_pos hc).trans (if_neg (ne_false_of_eq_true hgood))

theorem referenceCheckDone_restarts_runs {o : Ovl} (hw : k.why = 1 ∨ k.why = 2) (ho : k.ho = some o) (hd : (chan o.ch s).duty.isSome = true) (hi : (chan o.ch s).isOpen = false) :
    Runs (.referenceCheckDone g m) s ([Area.chans] ++ reporting [.bst, .grps])
      (Overlaps g.val (.begun o.ch o.range (if o.range then o.target else (chan o.ch s).range) k.why o.req s) ((grp g.val s).checked) s) := by
  let u := modGrp g.val Group.checked s
  have hgo : ¬ ((chan o.ch u).duty.isNone = true ∨ (chan o.ch u).isOpen = true) := by
    rw [show chan o.ch u = chan o.ch s from rfl, hi]
    simp [Option.isSome_iff_ne_none.mp hd]
  have hstart := (startOvl_becomes g.val o.ch o.range (if o.range then o.target else (chan o.ch u).range) k.why o.req u).overlaps
  rw [Ovl.begun_congr (s := s) (t := u) rfl rfl, (becomes_modGrp g.val Group.checked s).1] at hstart
  refine .of_only (exec_referenceCheckDone_good hx hk hc hgood) (passCheck_restarts hw ho u)
    (Only.next (restartHandover_only _ _ _ _) rfl ((modGrp_only _ _ s).mono rfl)) ?_
  rw [show restartHandover g.val o k.why u = _ from if_neg hgo]
  exact hstart.after (becomes_modGrp g.val Group.checked s).2

theorem referenceCheckDone_goesOn_runs (hw : k.why = 3) (hr : k.range < 3) :
    Runs (.referenceCheckDone g m) s ([Area.chans] ++ reporting [.bst, .grps])
      (Becomes grp g.val (((grp g.val s).checked).checksNext k) s) :=
  .of_only (exec_referenceCheckDone_good hx hk hc hgood) ((passCheck_of_why_three hw _).trans (if_neg (Nat.not_le.mpr hr))) (Only.next (modGrp_only _ _ _) rfl ((modGrp_only _ _ s).mono rfl))
    ((becomes_modGrp g.val Group.checked s).thenModGrp _)

theorem referenceCheckDone_frees_runs (hw : k.why = 3) (hr : 3 ≤ k.range) :
    Runs (.referenceCheckDone g m) s ([Area.chans] ++ reporting [.bst, .grps]) fun t => (grp g.val t).chk = none ∧ (grp g.val t).tgt = 0 ∧ (grp g.val t).trange = 0 := by
  obtain ⟨n, hfree⟩ := freeRelief_becomes g.val (modGrp g.val Group.checked s)
  refine .of_only (exec_referenceCheckDone_good hx hk hc hgood) ((passCheck_of_why_three hw _).trans (if_pos hr)) (Only.next (freeRelief_only _ _) rfl ((modGrp_only _ _ s).mono rfl)) ?_
  rw [((becomes_modGrp g.val Group.checked s).andThen (Group.relieved n) hfree).1]
  exact ⟨rfl, rfl, rfl⟩

end

/-! ## The reference check after a rejected run (R186) -/

/-- A group whose check of a rejected run is over. -/
def Group.runChecked (f : Nat × Nat) (x : Group) : Group := { x with runChks := x.runChks.erase f }

/-- A group that repeats a rejected run. -/
def Group.repeats (f : Nat × Nat) (x : Group) : Group := { x.runChecked f with again := f :: x.again }

section
variable {g : Grp} {m : ConvMeas} {s : State} (hx : s.fuse.hx000 = false) (hno : ∀ k, (grp g.val s).chk = some k → k.conv ≠ m.conv.val)
include hx hno

theorem exec_referenceCheckDone_run : exec (.referenceCheckDone g m) s = .next (runCheckDone g.val m.conv.val (m.u0, m.up, m.un) s) := by
  refine exec_of_analogue hx (fun _ => rfl) ?_
  dsimp only
  cases hk : (grp g.val s).chk with
  | none => rfl
  | some k => exact if_neg (hno k hk)

theorem runCheck_none_runs (hf : (grp g.val s).runChks.find? (·.1 = m.conv.val) = none) : Runs (.referenceCheckDone g m) s [] fun t => t = s :=
  .of_only (exec_referenceCheckDone_run hx hno) (by rw [runCheckDone, hf]) (.refl _ s) rfl

variable {f : Nat × Nat} (hf : (grp g.val s).runChks.find? (·.1 = m.conv.val) = some f)
include hf

theorem runCheck_bad_runs (hbad : refCheckOk g.val m.conv.val f.2 (m.u0, m.up, m.un) s = false) :
    Runs (.referenceCheckDone g m) s ([Area.chans] ++ reporting [.bst, .grps]) fun t => (grp g.val t).retired.testBit m.conv.val = true ∧ Latched (pgGroup g.val) relRETIRED t := by
  obtain ⟨hretired, hlatched, -⟩ := retireConv_done g.isLt m.conv.val (modGrp g.val (Group.runChecked f) s)
  refine .of_only (exec_referenceCheckDone_run hx hno) ?_ (Only.next (retireConv_only _ _ _) rfl ((modGrp_only g.val (Group.runChecked f) s).mono rfl)) ⟨hretired, hlatched⟩
  rw [runCheckDone, hf]
  exact if_pos hbad

theorem runCheck_good_runs (hgood : refCheckOk g.val m.conv.val f.2 (m.u0, m.up, m.un) s = true) :
    Runs (.referenceCheckDone g m) s [.grps] fun t => (grp g.val t).runChks = (grp g.val s).runChks.erase f ∧ (grp g.val t).again = f :: (grp g.val s).again := by
  let u := modGrp g.val (fun x => { x with again := f :: x.again }) (modGrp g.val (Group.runChecked f) s)
  have hu : Becomes grp g.val ((grp g.val s).repeats f) s u := (becomes_modGrp g.val (Group.runChecked f) s).thenModGrp fun x => { x with again := f :: x.again }
  have honly : Only [.grps] s u := Only.next (modGrp_only _ _ _) rfl (modGrp_only g.val (Group.runChecked f) s)
  obtain ⟨n, hfree⟩ := freeRelief_becomes g.val u
  have hrun : runCheckDone g.val m.conv.val (m.u0, m.up, m.un) s = if (grp g.val u).relief = some m.conv.val ∧ (grp g.val u).task = 7 then freeRelief g.val u else u := by
    rw [runCheckDone, hf]
    exact if_neg (ne_false_of_eq_true hgood)
  refine .of_only (exec_referenceCheckDone_run hx hno) hrun (.ite (Only.next (freeRelief_only _ _) rfl honly) honly) ?_
  split
  · rw [(hu.andThen (Group.relieved n) hfree).1]
    exact ⟨rfl, rfl⟩
  · rw [hu.1]
    exact ⟨rfl, rfl⟩

end

/-- Settles O52: each command by the branch its conditions choose, the overlap, the hard switch and the retirement each by the lemma that says what it leaves. -/
theorem reliefServesRangesAndRotation : Obligations.ReliefServesRangesAndRotation := by
  unfold Obligations.ReliefServesRangesAndRotation
  intro r g c k d range tsw u0 up un q o h conv f s hx x p y gc pass found out outc starts rotates next switched
  have hstarts {c : Nat} {rng : Bool} {target attempt : Nat} {req : RReq} {z : Group} {t : State} (hov : Overlaps g.val (.begun c rng target attempt req s) z s t) :
      starts c rng target attempt req t := ⟨hov.ovl, hov.task, hov.tgt, hov.trange, hov.yields.2⟩
  have hrotation {up : Nat} {t : State} (hov : Overlaps g.val (.rotation k s) { x with tickUp := up, rotWait := false, last := idxOf k, retry := none } s t) :
      starts k false (chan k s).range 0 ⟨k, (chan k s).range, nowTk s, 2, false⟩ t ∧ (grp g.val t).last = idxOf k ∧ (grp g.val t).rotWait = false ∧ (grp g.val t).tickUp = up :=
    ⟨hstarts hov, congrArg Group.last hov.yields.1, congrArg Group.rotWait hov.yields.1, congrArg Group.tickUp hov.yields.1⟩
  have hrotates {i : Instr} {up : Nat} {u : State} (hr : x.relief.isSome = true) (hs : s.pwr.stopped = false) (hu : Ticked g.val up s u)
      (hi : exec i s = .next (rotate g.val u)) : rotates i up :=
    ⟨rotation_waits_runs hu hi hr hs, fun hm hk => (rotation_takes_runs hu hi hr hs hm hk).imp fun _ => hrotation⟩
  refine ⟨fun hr hs => ⟨fun hdue hon hcamp => hrotates hr hs (ticked_modGrp ..) (exec_rotationTick_rotate hx hdue hon hcamp),
      fun hf => hrotates hr hs (.refl g.val s) (exec_reliefForce hx hf),
      fun hq hm => (reliefTaskStart_range_runs hx hr hq hm).imp fun t hov => ⟨hstarts hov, congrArg Group.q hov.yields.1⟩, fun hq hw hm hk => ?_⟩,
    rotationTick_early_runs hx, rotationTick_off_runs hx, reliefTaskStart_hard_runs hx, hardWaitExpiry_runs hx, hardSwitch_runs hx, incumbentRelease_forced_runs hx,
    incumbentRelease_free_runs hx, fun hk hc => ⟨fun hbad => ?_, fun hgood hw ho hd hi => ?_, ?_, ?_⟩, fun hno => ⟨?_, fun hf => ⟨fun hbad => ?_, ?_⟩⟩⟩
  · refine (rotation_takes_runs (.refl g.val s) (exec_reliefTaskStart_rotate hx hq hw hm) hr hs hm hk).imp fun t hov => ?_
    obtain ⟨hov, hlast, hwait, -⟩ := hrotation hov
    exact ⟨hov, hlast, hwait⟩
  · exact (referenceCheckDone_bad_runs hx hk hc (eq_false_of_ne_true hbad)).imp fun t ⟨hchk, hretired, hlatched, hrelief, hduty⟩ => ⟨hchk, hretired, hlatched, hrelief, hduty k⟩
  · exact (referenceCheckDone_restarts_runs hx hk hc hgood hw ho hd hi).imp fun t hov => ⟨hstarts hov, congrArg Group.chk hov.yields.1⟩
  · exact fun hgood => referenceCheckDone_goesOn_runs hx hk hc hgood
  · exact fun hgood => referenceCheckDone_frees_runs hx hk hc hgood
  · exact fun hnone => runCheck_none_runs hx hno hnone
  · exact runCheck_bad_runs hx hno hf (eq_false_of_ne_true hbad)
  · exact fun hgood => runCheck_good_runs hx hno hf hgood

end Sys2Proof.Machine
end

section
/-! PROOF. Program words read back (R158, R335, R336). -/

namespace Sys2Proof.Machine

/-! ## Fields -/

theorem fin_ofNat_eq {n k : Nat} [NeZero k] {m : Fin k} (h : n % k = m.val) : Fin.ofNat k n = m := Fin.ext h

theorem bitVec_ofNat_eq {n k : Nat} {v : BitVec k} (h : n % 2 ^ k = v.toNat) : BitVec.ofNat k n = v := BitVec.eq_of_toNat_eq ((BitVec.toNat_ofNat ..).trans h)

theorem regAt_eq {n lo : Nat} {d : Reg} (h : n / 2 ^ lo % 32 = d.val) : regAt n lo = d := fin_ofNat_eq h

/-! ## The fields of a Haldom word (R335) -/

section
variable {op : Nat} {d a b c : Reg} {f : Fin 16} {i : BitVec 14} {u : BitVec 19} {w : Word}

theorem haldomR_fields (hw : haldomR op d a b c f = w) (hop : op < 256) :
    w.toNat / 2 ^ 24 = op ∧ regAt w.toNat 19 = d ∧ regAt w.toNat 14 = a ∧ regAt w.toNat 9 = b ∧ regAt w.toNat 4 = c ∧ Fin.ofNat 16 w.toNat = f := by
  have hn : w.toNat = op * 2 ^ 24 + d.val * 2 ^ 19 + a.val * 2 ^ 14 + b.val * 2 ^ 9 + c.val * 2 ^ 4 + f.val := by
    rw [← hw, haldomR, BitVec.toNat_ofNat, Nat.mod_eq_of_lt (by omega)]
  rw [hn]
  exact ⟨by omega, regAt_eq (by omega), regAt_eq (by omega), regAt_eq (by omega), regAt_eq (by omega), fin_ofNat_eq (by omega)⟩

theorem haldomI_fields (hw : haldomI op d a i = w) (hop : op < 256) :
    w.toNat / 2 ^ 24 = op ∧ regAt w.toNat 19 = d ∧ regAt w.toNat 14 = a ∧ BitVec.ofNat 14 w.toNat = i := by
  have hn : w.toNat = op * 2 ^ 24 + d.val * 2 ^ 19 + a.val * 2 ^ 14 + i.toNat := by
    rw [← hw, haldomI, BitVec.toNat_ofNat, Nat.mod_eq_of_lt (by omega)]
  rw [hn]
  exact ⟨by omega, regAt_eq (by omega), regAt_eq (by omega), bitVec_ofNat_eq (by omega)⟩

theorem haldomU_fields (hw : haldomU op d u = w) (hop : op < 256) : w.toNat / 2 ^ 24 = op ∧ regAt w.toNat 19 = d ∧ BitVec.ofNat 19 w.toNat = u := by
  have hn : w.toNat = op * 2 ^ 24 + d.val * 2 ^ 19 + u.toNat := by
    rw [← hw, haldomU, BitVec.toNat_ofNat, Nat.mod_eq_of_lt (by omega)]
  rw [hn]
  exact ⟨by omega, regAt_eq (by omega), bitVec_ofNat_eq (by omega)⟩

theorem haldom0_fields (hw : haldom0 op = w) (hop : op < 256) : w.toNat / 2 ^ 24 = op ∧ w.toNat % 2 ^ 24 = 0 := by
  rw [← hw, haldom0, BitVec.toNat_ofNat, Nat.mod_eq_of_lt (by omega)]
  omega

/-- The mask of a WAIT is the low four bits of its immediate. -/
theorem wait_mask (hw : BitVec.ofNat 14 w.toNat = BitVec.ofNat 14 f.val) : Fin.ofNat 16 w.toNat = f := by
  have h := congrArg BitVec.toNat hw
  rw [BitVec.toNat_ofNat, BitVec.toNat_ofNat] at h
  exact fin_ofNat_eq (by omega)

end

/-- The word of a Haldom instruction reads back as it: each format by the fields it writes. -/
theorem haldomInstr_haldomWord {i : Instr} {w : Word} (h : haldomWord i = some w) : ∃ n, haldomInstr n w = some i := by
  cases i
  case nop n | ret n | sabort n =>
    obtain ⟨hop, hlow⟩ := haldom0_fields (Option.some.inj h) (by decide)
    exact ⟨n, by rw [haldomInstr, hop]; exact if_pos hlow⟩
  case wait n m =>
    obtain ⟨hop, -, -, hi⟩ := haldomI_fields (Option.some.inj h) (by decide)
    exact ⟨n, by rw [haldomInstr, hop, wait_mask hi]; rfl⟩
  case b n i | call n i | beq n a b i | bne n a b i | blt n a b i | bge n a b i | st n a b i | stw n a b i | addi n a b i | shli n a b i | shri n a b i | srai n a b i | shuf n a b i =>
    obtain ⟨hop, hd, ha, hi⟩ := haldomI_fields (Option.some.inj h) (by decide)
    exact ⟨n, by rw [haldomInstr, hop, hd, ha, hi]; rfl⟩
  case ld n d a i ue | ldw n d a i ue =>
    cases ue with
    | true => exact absurd h nofun
    | false =>
      obtain ⟨hop, hd, ha, hi⟩ := haldomI_fields (Option.some.inj h) (by decide)
      exact ⟨n, by rw [haldomInstr, hop, hd, ha, hi]; rfl⟩
  case li n d u | lih n d u =>
    obtain ⟨hop, hd, hu⟩ := haldomU_fields (Option.some.inj h) (by decide)
    exact ⟨n, by rw [haldomInstr, hop, hd, hu]; rfl⟩
  case trig n d | time n d | hzn n d | send n d | sendl n d | pstat n d | recv n d a | recvn n d a | hadd n d a |
      iabs n d a f | bcast n d a f | ext n d a f | ins n d a f | fabs n d a f | fneg n d a f | cvtif n d a f | cvtfi n d a f | fsqrt n d a f |
      andW n d a b | orW n d a b | xorW n d a b | andn n d a b | sel n d a b c |
      iadd n d a b f | isub n d a b f | imul n d a b f | imin n d a b f | imax n d a b f | icmp n d a b f | shl n d a b f | shr n d a b f | sra n d a b f | ladd n d a b f | lsub n d a b f |
      fadd n d a b f | fsub n d a b f | fmul n d a b f | fmin n d a b f | fmax n d a b f | fcmp n d a b f | fdiv n d a b f | fma n d a b c f | fms n d a b c f =>
    obtain ⟨hop, hd, ha, hb, hc, hf⟩ := haldomR_fields (Option.some.inj h) (by decide)
    exact ⟨n, by rw [haldomInstr, hop, hd, ha, hb, hc, hf]; rfl⟩
  all_goals exact absurd h nofun

/-! ## Tattoo words (R158) -/

section
variable {g : Grp} {i : Instr} {w : Word}

theorem b2n_lt (b : Bool) : b2n b < 2 := by cases b <;> decide

theorem decide_b2n (b : Bool) : decide (b2n b = 1) = b := by cases b <;> rfl

theorem b2n_decide (n : Nat) : b2n (decide (n % 2 = 1)) = n % 2 := by
  rcases Nat.mod_two_eq_zero_or_one n with h | h <;> rw [h] <;> rfl

theorem tatWord_fields {n op x : Nat} (hw : BitVec.ofNat 32 n = w) (hn : n = op * 2 ^ 28 + x) (hop : op < 16) (hx : x < 2 ^ 28) :
    w.toNat / 2 ^ 28 = op ∧ w.toNat % 2 ^ 28 = x := by
  rw [← hw, BitVec.toNat_ofNat]
  omega

/-- Where the low 28 bits hold a narrower field alone, the bits of the field are it. -/
theorem mod_of_mod_28 {n k : Nat} {o : BitVec k} (hk : k ≤ 28) (h : n % 2 ^ 28 = o.toNat) : n % 2 ^ k = o.toNat := by
  rw [← Nat.mod_mod_of_dvd n (Nat.pow_dvd_pow 2 hk), h, Nat.mod_eq_of_lt o.isLt]

/-- A word is what its opcode and the bits below it spell. -/
theorem tatWord_eq {op x y : Nat} (hop : w.toNat / 2 ^ 28 = op) (hx : w.toNat % 2 ^ 28 = x) (hy : y = x) : BitVec.ofNat 32 (op * 2 ^ 28 + y) = w := by
  apply BitVec.eq_of_toNat_eq
  rw [BitVec.toNat_ofNat]
  omega

/-- The word of a Tattoo instruction reads back as it. -/
theorem tattooInstr_tattooWord (h : tattooWord i = some w) : ∃ g, tattooInstr g w = some i := by
  cases i
  case tatNop g | excm g | rot g | endl g | tatEnd g =>
    obtain rfl := Option.some.inj h
    exact ⟨g, rfl⟩
  case waita g o | waitr g o | tatLoop g o =>
    obtain ⟨hop, hlow⟩ := tatWord_fields (Option.some.inj h) rfl (by decide) (by omega)
    have ho := mod_of_mod_28 (by decide) hlow
    exact ⟨g, by rw [tattooInstr, hop, bitVec_ofNat_eq ho]; exact if_pos (hlow.trans ho.symm)⟩
  case lead g auto ch | pulse g auto ch =>
    have hlt := b2n_lt auto
    obtain ⟨hop, hlow⟩ := tatWord_fields (Option.some.inj h) (Nat.add_assoc ..) (by decide) (by omega)
    have hauto : w.toNat / 2 ^ 27 % 2 = b2n auto := by omega
    have hch : w.toNat % 16 = ch.val := by omega
    exact ⟨g, by rw [tattooInstr, hop, fin_ofNat_eq hch, hauto, decide_b2n]; exact if_pos (hlow.trans (congrArg _ hch.symm))⟩
  case ref g src range dwell =>
    obtain ⟨hop, hlow⟩ := tatWord_fields (op := 5) (x := src.val * 2 ^ 24 + range.val * 2 ^ 20 + dwell.toNat) (Option.some.inj h) (by omega) (by decide) (by omega)
    have hsrc : w.toNat / 2 ^ 24 % 16 = src.val := by omega
    have hrange : w.toNat / 2 ^ 20 % 4 = range.val := by omega
    have hdwell : w.toNat % 2 ^ 16 = dwell.toNat := by omega
    exact ⟨g, by rw [tattooInstr, hop, fin_ofNat_eq hsrc, fin_ofNat_eq hrange, bitVec_ofNat_eq hdwell]; exact if_pos (by rw [hlow, hsrc, hrange]; exact congrArg _ hdwell.symm)⟩
  case every g k res =>
    obtain ⟨hop, hlow⟩ := tatWord_fields (Option.some.inj h) (Nat.add_assoc ..) (by decide) (by omega)
    have hk : w.toNat / 2 ^ 16 % 16 = k.val := by omega
    have hres : w.toNat % 2 ^ 15 = res.toNat := by omega
    exact ⟨g, by rw [tattooInstr, hop, fin_ofNat_eq hk, bitVec_ofNat_eq hres]; exact if_pos (by rw [hlow, hk]; exact congrArg _ hres.symm)⟩
  all_goals exact absurd h nofun

theorem tattooWord_tattooInstr (h : tattooInstr g w = some i) : tattooWord i = some w := by
  unfold tattooInstr at h
  dsimp only at h
  split at h
  case h_13 => exact absurd h nofun
  all_goals
    rename w.toNat / 2 ^ 28 = _ => hop
    obtain ⟨hlow, hi⟩ := Option.ite_none_right_eq_some.mp h
    obtain rfl := Option.some.inj hi
  case h_1 | h_7 | h_8 | h_11 | h_12 => exact congrArg some (tatWord_eq (y := 0) hop hlow rfl)
  case h_2 | h_3 | h_10 => exact congrArg some (tatWord_eq hop hlow (BitVec.toNat_ofNat ..))
  case h_4 | h_5 =>
    refine congrArg some ((congrArg (BitVec.ofNat 32) (Nat.add_assoc ..)).trans (tatWord_eq hop hlow ?_))
    rw [b2n_decide]
    rfl
  case h_6 =>
    refine congrArg some (BitVec.eq_of_toNat_eq ?_)
    rw [BitVec.toNat_ofNat, BitVec.toNat_ofNat, Fin.val_ofNat, Fin.val_ofNat]
    omega
  case h_9 =>
    refine congrArg some ((congrArg (BitVec.ofNat 32) (Nat.add_assoc ..)).trans (tatWord_eq hop hlow ?_))
    rw [Fin.val_ofNat, BitVec.toNat_ofNat]

end

/-- Settles O60: the fields of each word are read as they were written, and a Tattoo word that reads holds nothing beside them. -/
theorem programWordsReadBack : Obligations.ProgramWordsReadBack :=
  ⟨fun _ _ h => haldomInstr_haldomWord h, fun _ _ h => tattooInstr_tattooWord h, fun _ _ _ h => tattooWord_tattooInstr h⟩

end Sys2Proof.Machine
end

section
/-! PROOF. The control words of a Tattoo program (R156, R158, R166). -/

namespace Sys2Proof.Machine

/-! ## Words that change the sequencer alone -/

theorem tatWaitTo_steps (g u : Nat) (s : State) :
    Steps g (if u ≤ unitNow g s then (tat g s).goesOn else { tat g s with wait := some u }) s (tatWaitTo g u s) := by
  unfold tatWaitTo
  split
  · exact tatNext_steps g s
  · exact becomes_modGrp g _ s

/-- The sequencer goes on and changes as `f` says. -/
theorem tatNext_thenModTat (g : Nat) (f : Tat → Tat) (s : State) :
    Only [.grps] s (modTat g f (tatNext g s)) ∧ Steps g (f (tat g s).goesOn) s (modTat g f (tatNext g s)) :=
  ⟨Only.next (modTat_only _ _ _) rfl (tatNext_only g s), (tatNext_steps g s).thenModTat f⟩

section
variable {i : Instr} {g : Nat} {f : State → State} {s : State} (hx : s.fuse.hx000 = false) (hi : ∀ s, exec i s = tatIssue g f s)
include hx hi

theorem issued_runs {x : Tat} {t : State} (hr : (tat g s).Ready) (hf : f s = t) (h : Only [.grps] s t ∧ Steps g x s t) : Runs i s [.grps] (Steps g x s) :=
  .of_only ((hi s).trans (tatIssue_ready hx hr f)) hf h.1 h.2

/-- A word that EVERY left out does nothing, whichever it is. -/
theorem leftOut_runs (hrun : (tat g s).run = true) (hwait : (tat g s).wait = none) (htask : (tat g s).task = none) (hskip : (tat g s).skip = true) :
    Runs i s [.grps] (Steps g (tat g s).goesOn s) := by
  have hnext : tatIssue g f s = .next (tatNext g s) := by simp [tatIssue, analogue, hx, hrun, hwait, htask, hskip]
  exact .of_only ((hi s).trans hnext) rfl (tatNext_only g s) (tatNext_steps g s)

end

section
variable {g : Grp} {s : State} (hx : s.fuse.hx000 = false)
include hx

theorem tatWaitExpiry_runs {u : Nat} (hw : (tat g.val s).wait = some u) (hu : u ≤ unitNow g.val s) : Runs (.tatWaitExpiry g) s [.grps] (Steps g.val (tat g.val s).goesOn s) := by
  refine .of_analogue hx (fun _ => rfl) ?_ (tatNext_only g.val s) (tatNext_steps g.val s)
  rw [hw]
  exact if_pos hu

variable (hr : (tat g.val s).Ready)
include hr

theorem endl_closed_runs (hl : (tat g.val s).loops = []) : Runs (.endl g) s [.grps] (Steps g.val (tat g.val s).goesOn s) :=
  issued_runs hx (fun _ => rfl) hr (by rw [hl]) ⟨tatNext_only g.val s, tatNext_steps g.val s⟩

theorem endl_over_runs {b n : Nat} {r : List (Nat × Nat)} (hl : (tat g.val s).loops = (b, n) :: r) (hn : n ≤ 1) :
    Runs (.endl g) s [.grps] (Steps g.val { (tat g.val s).goesOn with loops := r } s) :=
  issued_runs hx (fun _ => rfl) hr (by rw [hl]; exact if_pos hn) (tatNext_thenModTat g.val (fun t => { t with loops := r }) s)

theorem endl_again_runs {b n : Nat} {r : List (Nat × Nat)} (hl : (tat g.val s).loops = (b, n) :: r) (hn : ¬ n ≤ 1) :
    Runs (.endl g) s [.grps] (Steps g.val { tat g.val s with pc := b, loops := (b, n - 1) :: r } s) :=
  issued_runs hx (fun _ => rfl) hr (by rw [hl]; exact if_neg hn) ⟨modTat_only g.val _ s, becomes_modGrp g.val _ s⟩

theorem endl_runs {b n : Nat} {r : List (Nat × Nat)} (hl : (tat g.val s).loops = (b, n) :: r) :
    Runs (.endl g) s [.grps] (Steps g.val (if n ≤ 1 then { (tat g.val s).goesOn with loops := r } else { tat g.val s with pc := b, loops := (b, n - 1) :: r }) s) := by
  split
  · next hn => exact endl_over_runs hx hr hl hn
  · next hn => exact endl_again_runs hx hr hl hn

/-! ## ROT (R166) -/

theorem exec_rot : exec (.rot g) s = .next (if (grp g.val s).relief.isNone then tatSkip g.val s else rotate g.val (tatNext g.val s)) := by
  change execRot g s = _
  rw [execRot, tatIssue_ready hx hr]

theorem rot_skipped_runs (hn : (grp g.val s).relief = none) : Runs (.rot g) s [.grps] (Steps g.val (tat g.val s).skips s) :=
  .of_only (exec_rot hx hr) (if_pos (by rw [hn]; rfl)) (tatSkip_only g.val s) (tatSkip_steps g.val s)

end

/-- Rotation does not look at the sequencer. -/
theorem rotTarget_tatNext (g : Nat) (s : State) : rotTarget g (tatNext g s) = rotTarget g s :=
  rotTarget_modGrp (f := fun x => { x with tat := x.tat.goesOn }) (fun _ => rfl) g s

theorem rotate_idle {g : Nat} {s : State} (hr : (grp g s).relief.isSome = true) (hs : s.pwr.stopped = false) (hm : mayTake 3 (grp g s) = true) (hk : rotTarget g s = none) :
    rotate g s = modGrp g (fun x => { x with rotWait := false }) s := by
  have hk' : rotTarget g (modGrp g (fun x => { x with rotWait := false }) s) = none :=
    (rotTarget_modGrp (f := fun x => { x with rotWait := false }) (fun _ => rfl) g s).trans hk
  have hgo : ¬ ((grp g s).relief.isNone = true ∨ s.pwr.stopped = true) := by simp [Option.isSome_iff_ne_none.mp hr, hs]
  rw [rotate, if_neg hgo, if_neg (ne_false_of_eq_true hm)]
  dsimp only
  rw [hk']

/-- A rotation that begins leaves the program where it stands, unless it stood on a task of the relief. -/
theorem takeTurn_requeued (g k : Nat) (s : State) : Requeued g s (takeTurn g k (turnTo g k s)) := by
  have hturn : SeqStill g s (turnTo g k s) :=
    ((Sequenced.refl g s).thenModGrp (f := fun x => { x with rotWait := false }) fun _ => rfl).thenModGrp (f := fun x => { x with last := idxOf k, retry := none }) fun _ => rfl
  exact hturn.requeued.trans (takeOvl_requeued ..)

section
variable {g : Grp} {s : State} (hx : s.fuse.hx000 = false) (hr : (tat g.val s).Ready) (hn : (grp g.val s).relief ≠ none) (hs : s.pwr.stopped = false)
include hx hr hn

theorem exec_rot_rotate : exec (.rot g) s = .next (rotate g.val (tatNext g.val s)) :=
  (exec_rot hx hr).trans (congrArg Host.Outcome.next (if_neg (by simpa using hn)))

include hs

theorem rot_waits_runs (hm : mayTake 3 (grp g.val s) = false) :
    Runs (.rot g) s [.grps] (Becomes grp g.val { grp g.val s with tat := (tat g.val s).goesOn, rotWait := true } s) := by
  have hnext := tatNext_steps g.val s
  refine .of_only (exec_rot_rotate hx hr hn) (rotate_waits ?_ hs ?_) (Only.next (modGrp_only _ _ _) rfl (tatNext_only g.val s)) (hnext.thenModGrp fun x => { x with rotWait := true })
  · rw [hnext.1]
    exact Option.isSome_iff_ne_none.mpr hn
  · rw [hnext.1]
    exact hm

variable (hm : mayTake 3 (grp g.val s) = true)
include hm

theorem rot_idle_runs (hk : rotTarget g.val s = none) :
    Runs (.rot g) s [.grps] (Becomes grp g.val { grp g.val s with tat := (tat g.val s).goesOn, rotWait := false } s) := by
  have hnext := tatNext_steps g.val s
  refine .of_only (exec_rot_rotate hx hr hn) (rotate_idle ?_ hs ?_ ((rotTarget_tatNext g.val s).trans hk)) (Only.next (modGrp_only _ _ _) rfl (tatNext_only g.val s))
    (hnext.thenModGrp fun x => { x with rotWait := false })
  · rw [hnext.1]
    exact Option.isSome_iff_ne_none.mpr hn
  · rw [hnext.1]
    exact hm

theorem rot_takes_runs {k : Nat} (hk : rotTarget g.val s = some k) : Runs (.rot g) s (reporting [.bst, .grps]) fun t =>
    (tat g.val t).pc = (tat g.val s).pc + 1 ∧ (tat g.val t).task = none ∧
    Overlaps g.val (.rotation k s) { grp g.val s with tat := (tat g.val s).goesOn, rotWait := false, last := idxOf k, retry := none } s t := by
  have hnext := tatNext_steps g.val s
  have hrelief : (grp g.val (tatNext g.val s)).relief.isSome = true := by
    rw [hnext.1]
    exact Option.isSome_iff_ne_none.mpr hn
  have hmay : mayTake 3 (grp g.val (tatNext g.val s)) = true := by
    rw [hnext.1]
    exact hm
  have hturn : rotTarget g.val (tatNext g.val s) = some k := (rotTarget_tatNext g.val s).trans hk
  have htat : tat g.val (tatNext g.val s) = (tat g.val s).goesOn := congrArg Group.tat hnext.1
  have hover := rotate_overlaps hrelief hs hmay hturn
  rw [Ovl.rotation_congr rfl rfl, hnext.1] at hover
  have hseq := (takeTurn_requeued g.val k (tatNext g.val s)).seq
  rw [htat] at hseq
  obtain ⟨htask, hpc⟩ := hseq.stands nofun
  refine .of_only (exec_rot_rotate hx hr hn) rfl (Only.next (rotate_only _ _) rfl ((tatNext_only g.val s).mono rfl)) ⟨?_, ?_, hover.after hnext.2⟩
  · rw [rotate_takes hrelief hs hmay hturn]
    exact hpc
  · rw [rotate_takes hrelief hs hmay hturn]
    exact htask

end

/-- Settles O16: a word that EVERY left out goes on, whichever it is, and each other word by what it makes of the sequencer, ROT by what it finds of the relief. -/
theorem tattooControlWordsStepTheProgram : Obligations.TattooControlWordsStepTheProgram := by
  unfold Obligations.TattooControlWordsStepTheProgram
  intro g off k res count auto ch src range dwell s hx x y hrun htask toEnd next
  refine ⟨fun hwait hskip => ?_, fun hwait hskip i hi => ?_, fun u hw hu => tatWaitExpiry_runs hx hw hu⟩
  · have hr : x.Ready := ⟨hrun, hwait, htask, hskip⟩
    refine ⟨issued_runs hx (fun _ => rfl) hr rfl ⟨tatNext_only g.val s, tatNext_steps g.val s⟩,
      issued_runs hx (fun _ => rfl) hr rfl ⟨tatWaitTo_only g.val _ s, tatWaitTo_steps g.val _ s⟩,
      issued_runs (f := fun s => tatWaitTo g.val (unitNow g.val s + off.toNat) s) hx (fun _ => rfl) hr rfl ⟨tatWaitTo_only g.val _ s, ?_⟩,
      issued_runs hx (fun _ => rfl) hr rfl (tatNext_thenModTat g.val (fun y => { y with skip := decide (x.frameNo % 2 ^ k.val ≠ res.toNat) }) s),
      issued_runs hx (fun _ => rfl) hr rfl (tatNext_thenModTat g.val (fun y => { y with loops := (y.pc, count.toNat) :: y.loops }) s),
      endl_closed_runs hx hr, fun b n r => endl_runs hx hr,
      issued_runs hx (fun _ => rfl) hr rfl ⟨modTat_only g.val _ s, becomes_modGrp g.val _ s⟩,
      rot_skipped_runs hx hr,
      fun hn hs => ⟨rot_waits_runs hx hr hn hs, rot_idle_runs hx hr hn hs, fun c hm hc => (rot_takes_runs hx hr hn hs hm hc).imp fun t ⟨hpc, htask, hover⟩ => ?_⟩⟩
    · have h := tatWaitTo_steps g.val (unitNow g.val s + off.toNat) s
      have hzero : unitNow g.val s + off.toNat ≤ unitNow g.val s ↔ off.toNat = 0 := by omega
      rw [if_congr hzero rfl rfl] at h
      exact h
    · exact ⟨hpc, htask, ⟨_, hover.ovl, rfl, rfl, rfl, rfl, rfl⟩, hover.task, hover.tgt, congrArg Group.last hover.yields.1, congrArg Group.rotWait hover.yields.1, hover.yields.2⟩
  · obtain ⟨f, hf⟩ : ∃ f, ∀ s, exec i s = tatIssue g.val f s := by
      simp only [List.mem_cons, List.not_mem_nil, or_false] at hi
      rcases hi with rfl | rfl | rfl | rfl | rfl | rfl | rfl | rfl | rfl | rfl | rfl | rfl <;> exact ⟨_, fun _ => rfl⟩
    exact leftOut_runs hx hf hrun hwait htask hskip

end Sys2Proof.Machine
end

section
/-! PROOF. Tattoo programs are loaded and swapped (R159, R169–R172, R174). -/

namespace Sys2Proof.Machine

/-! ## The TAT window (R174) -/

section
variable {x : Tat} {b : Nat} (hb : x.bank = b) (m : FMap Word)
include hb

theorem setStandby_standby : (if b = 0 then (setStandby m x).bank1 else (setStandby m x).bank0) = m := by
  subst hb
  unfold setStandby
  split <;> rfl

theorem setStandby_active : (if b = 0 then (setStandby m x).bank0 else (setStandby m x).bank1) = if b = 0 then x.bank0 else x.bank1 := by
  subst hb
  unfold setStandby
  split <;> rfl

end

/-- Loading the standby bank changes nothing of a sequencer but a bank. -/
theorem setStandby_rest (m : FMap Word) (x : Tat) :
    (setStandby m x).bank = x.bank ∧ (setStandby m x).addr = x.addr ∧ (setStandby m x).stLen = x.stLen ∧ (setStandby m x).isOver = x.isOver := by
  unfold setStandby
  split <;> exact ⟨rfl, rfl, rfl, rfl⟩

section
variable {i : Instr} {r : Req} {g : Grp} {f : Nat → State → State} {s : State} (hg : (page pgTAT s).freeze = false) (hsel : tatSel s = g.val)
include hg hsel

/-- A command of the window acts on the selected group. -/
theorem exec_of_tatWindow (hi : exec i s = tatWindow r f s) : exec i s = .next (f g.val s) := by
  have hlt : tatSel s < 24 := hsel ▸ g.isLt
  rw [hi, tatWindow, gated_open hg, if_pos hlt, hsel]

theorem tatWindow_runs {h : Tat → Tat} (hi : exec i s = tatWindow r f s) (hf : f g.val s = modTat g.val h s) : Runs i s [.grps] (Steps g.val (h (tat g.val s)) s) :=
  .of_only (exec_of_tatWindow hg hsel hi) hf (modTat_only _ _ s) (becomes_modGrp _ _ s)

end

/-! ## Loading (R169, R174) -/

/-- A sequencer whose standby bank is empty. -/
def Tat.emptied (x : Tat) : Tat := setStandby [] { x with addr := 0, stLen := 0, isOver := false }

/-- One whose standby bank has the next word. -/
def Tat.loaded (v : Word) (x : Tat) : Tat :=
  setStandby (FMap.put (fun _ => 0) (if x.bank = 0 then x.bank1 else x.bank0) x.addr v) { x with addr := x.addr + 1, stLen := max x.stLen (x.addr + 1) }

/-- One without a pending commit. -/
def Tat.aborted (x : Tat) : Tat := { x with pend := false, waitSlice := false, swapAt := none }

/-- One with a pending commit. -/
def Tat.committed (digest : Nat) (wait : Bool) (at_ : Nat) (x : Tat) : Tat :=
  { x with err := 0, pend := true, pFrame := x.next, pDigest := digest, waitSlice := wait, swapAt := if wait then none else some at_ }

section
variable {r : Req} {g : Grp} {s : State} (hg : (page pgTAT s).freeze = false) (hsel : tatSel s = g.val)
include hg hsel

theorem tatAbort_runs : Runs (.tatAbort r) s [.grps] (Steps g.val (tat g.val s).aborted s) :=
  tatWindow_runs (f := fun g => modTat g Tat.aborted) hg hsel rfl rfl

theorem tatCommit_runs {d : Nat} (hd : sha256 (tatBytes (standbyWords g.val s)) = d)
    (he : tatErr g.val (tat g.val s).next (standbyWords g.val s) (tat g.val s).isOver s = 0) (hr : tatRefused d s = false) :
    ∃ wait at_, Runs (.tatCommit r) s [.grps] (Steps g.val ((tat g.val s).committed d wait at_) s) := by
  subst hd
  exact ⟨_, _, tatWindow_runs (f := commitTat) hg hsel rfl ((if_neg (not_not_intro he)).trans (if_neg (ne_true_of_eq_false hr)))⟩

variable (hx : s.fuse.hx000 = false)
include hx

theorem tatCommit_empty_runs (hl : (tat g.val s).stLen = 0) : Runs (.tatCommit r) s [.grps] (Steps g.val { tat g.val s with err := 9 } s) := by
  have hwords : standbyWords g.val s = [] := by rw [standbyWords, hl]; rfl
  have herr : tatErr g.val (tat g.val s).next (standbyWords g.val s) (tat g.val s).isOver s = 9 := by
    rw [tatErr, if_neg (ne_true_of_eq_false hx), if_pos (.inr (.inl hwords))]
  refine tatWindow_runs (f := commitTat) (h := fun x => { x with err := 9 }) hg hsel rfl ?_
  rw [commitTat, herr]
  exact if_pos (by decide)

variable (hp : (tat g.val s).pend = false)
include hp

theorem tatClr_runs : Runs (.tatClr r) s [.grps] (Steps g.val (tat g.val s).emptied s) :=
  tatWindow_runs (f := fun g s => if (tat g s).pend ∨ s.fuse.hx000 then s else modTat g Tat.emptied s) hg hsel rfl (if_neg (by simp [hp, hx]))

theorem tatDataWrite_runs (v : Word) (ha : (tat g.val s).addr < 256) : Runs (.tatDataWrite r v) s [.grps] (Steps g.val ((tat g.val s).loaded v) s) :=
  tatWindow_runs (f := fun g s => if (tat g s).pend ∨ s.fuse.hx000 then s else if 256 ≤ (tat g s).addr then modTat g (fun x => { x with isOver := true }) s else modTat g (Tat.loaded v) s)
    hg hsel rfl ((if_neg (by simp [hp, hx])).trans (if_neg (Nat.not_le.mpr ha)))

end

/-! ## The swap (R171, R172) -/

/-- A sequencer whose banks have swapped. -/
def Tat.swapped (x : Tat) : Tat :=
  { x with wins := x.wins.map cutWin, bank := 1 - x.bank, alen := x.stLen, stLen := 0, isOver := false, base := false, digest := x.pDigest,
           oldFrame := if x.frame = x.pFrame then x.oldFrame else some x.frame, frame := x.pFrame, pend := false, waitSlice := false, swapAt := none, cntSwap := (x.cntSwap + 1) % 65536 }

/-- What the program store holds is read from memory alone. -/
theorem storeFind_congr {s t : State} (h : t.mem = s.mem) (digest n a : Nat) : storeFind digest t n a = storeFind digest s n a := by
  have hread (b k : Nat) : flashRead b k t = flashRead b k s := by rw [flashRead, h, flashRead]
  induction n generalizing a with
  | zero => rfl
  | succ n ih =>
    unfold storeFind
    dsimp only
    rw [hread, hread, hread, ih]

/-- Whether the supervisor takes a body depends on it and on the program store. -/
theorem tatRefused_congr {s t : State} (hmem : t.mem = s.mem) (hfwl : t.fwl = s.fwl) (digest : Nat) : tatRefused digest t = tatRefused digest s := by
  simp only [tatRefused, tatHdr, programImage, storeFind_congr hmem, hfwl]

/-- Where no request is deferred, none is dropped. -/
theorem dropAllDeferred_of_none {g : Nat} {s : State} (hd : (tat g s).deferred = []) :
    dropAllDeferred g s = modTat g (fun t => { t with deferred := [] }) s ∧ Sequenced g (tat g s) s (dropAllDeferred g s) := by
  have hdrop : dropAllDeferred g s = modTat g (fun t => { t with deferred := [] }) s := by rw [dropAllDeferred, hd]; rfl
  have hsame : { tat g s with deferred := [] } = tat g s := congrArg (fun l => { tat g s with deferred := l }) hd.symm
  have hseq := modTat_sequenced g (fun t => { t with deferred := [] }) s
  exact ⟨hdrop, hdrop ▸ hsame ▸ hseq⟩

/-- A swap that drops no request, of a body that the supervisor takes. -/
theorem swapTat_sequenced {g : Nat} {s : State} (hd : (tat g s).deferred = []) (hr : tatRefused (tat g s).pDigest s = false) :
    ∃ u, Sequenced g (tat g s).swapped s u ∧ swapTat g false s = groupRaise g tatSWAP 0 (bumpGen pgTAT u) := by
  obtain ⟨hdrop, hseq⟩ := dropAllDeferred_of_none hd
  have honly : Only [.grps] s (dropAllDeferred g s) := hdrop ▸ modTat_only g _ s
  have hr' := (tatRefused_congr (honly.same .mem (by decide)) (honly.same .fwl (by decide)) _).trans hr
  refine ⟨_, (hseq.only (pairWith_only (16 + g) (tatHdr (tat g s).pDigest (dropAllDeferred g s)) false _) rfl).thenModTat Tat.swapped, ?_⟩
  exact if_neg (ne_true_of_eq_false hr')

theorem tatSwap_runs {g : Grp} {s : State} {at_ : Nat} (hx : s.fuse.hx000 = false) (hat : (tat g.val s).swapAt = some at_) (hs : s.pwr.stopped = false)
    (hp : (tat g.val s).pend = true) (hdue : at_ ≤ s.tim.sec * nsPerSec + s.tim.ns) (hr : tatRefused (tat g.val s).pDigest s = false) (hd : (tat g.val s).deferred = []) :
    Runs (.tatSwap g) s (reporting [.grps, .lanes, .lsh]) fun t => Sequenced g.val (tat g.val s).swapped s t ∧ Latched (pgGroup g.val) tatSWAP t := by
  obtain ⟨u, hseq, hswap⟩ := swapTat_sequenced hd hr
  refine .of_analogue hx (fun _ => rfl) (t := swapTat g.val false s) ?_ ((swapTat_only _ _ s).mono rfl) ?_
  · rw [hat]
    exact if_pos ⟨hs, hp, hdue⟩
  · rw [hswap]
    exact ⟨(hseq.only (bumpGen_only _ _) rfl).only (groupRaise_only _ _ _ _) rfl, raise_latched _ _ (evOf_pgGroup g.isLt _) (by decide)⟩

/-- Settles O19: each command of the window on the selected group by what it makes of the sequencer, and the swap that nothing defers or refuses. -/
theorem tattooLoadsAndSwapsPrograms : Obligations.TattooLoadsAndSwapsPrograms := by
  unfold Obligations.TattooLoadsAndSwapsPrograms
  intro r g v s hx hg hsel x standby active others
  have hseq {y : Tat} {t : State} (h : Steps g.val y s t) : Sequenced g.val y s t := ⟨congrArg Group.tat h.1, h.2⟩
  refine ⟨fun hp => (tatClr_runs hg hsel hx hp).imp fun t ht => ?_, fun hp ha => (tatDataWrite_runs hg hsel hx hp v ha).imp fun t ht => ?_, tatAbort_runs hg hsel,
    fun _ _ he hr => ?_, tatCommit_empty_runs hg hsel hx, fun at_ hat hs hp hdue hr hd => ?_⟩
  · obtain ⟨htat, hothers⟩ := hseq ht
    let y : Tat := { x with addr := 0, stLen := 0, isOver := false }
    obtain ⟨hbank, haddr, hlen, hover⟩ := setStandby_rest [] y
    rw [htat]
    exact ⟨setStandby_standby (x := y) rfl [], setStandby_active (x := y) rfl [], haddr, hlen, hover, hbank, hothers⟩
  · obtain ⟨htat, hothers⟩ := hseq ht
    let y : Tat := { x with addr := x.addr + 1, stLen := max x.stLen (x.addr + 1) }
    let m : FMap Word := FMap.put (fun _ => 0) (standby x x.bank) x.addr v
    obtain ⟨-, haddr, hlen, -⟩ := setStandby_rest m y
    have hput : standby (tat g.val t) x.bank = m := htat ▸ setStandby_standby (x := y) rfl m
    rw [hput, htat]
    exact ⟨FMap.get_put_self, fun k hk => FMap.get_put_of_ne hk, setStandby_active (x := y) rfl m, haddr, hlen, hothers⟩
  · obtain ⟨wait, at_, hruns⟩ := tatCommit_runs hg hsel rfl he hr
    refine hruns.imp fun t ht => ?_
    obtain ⟨htat, hothers⟩ := hseq ht
    rw [htat]
    exact ⟨rfl, rfl, rfl, rfl, hothers⟩
  · refine (tatSwap_runs hx hat hs hp hdue hr hd).imp fun t ⟨⟨htat, hothers⟩, hlatched⟩ => ?_
    rw [htat]
    exact ⟨rfl, rfl, rfl, rfl, rfl, rfl, rfl, rfl, hlatched, hothers⟩

end Sys2Proof.Machine
end
